-- ==== Sys2Proof/Word.lean ====
section
/-! DEFINITION. Words, lines and the register numbers of spec/01 and spec/06, and nothing else. -/
namespace Sys2Proof

/-- A byte. -/
abbrev Byte := BitVec 8
/-- A word: 32 bits (R4). -/
abbrev Word := BitVec 32
/-- A doubleword: one scalar or address register (R49). -/
abbrev Dword := BitVec 64
/-- A line: 64 bytes (R4); also one vector register of one cluster (R14). -/
abbrev Line := BitVec 512
/-- A virtual or physical global address (R78, R209). -/
abbrev Addr := BitVec 48

/-- Core number k, 0 to 127 (R12). -/
abbrev CoreId := BitVec 7
/-- Context number, 0 to 3 (R12). -/
abbrev CtxId := BitVec 2
/-- Die number, 0 to 3 (R12). -/
abbrev DieId := BitVec 2
/-- Tenant number, 0 to 15 (R163). -/
abbrev Tenant := BitVec 4
/-- Cluster number, 0 to 7 (R12). -/
abbrev Cl := BitVec 3
/-- Copy channel, 0 to 15 (R118). -/
abbrev Chan := BitVec 4
/-- Host function: 0 for PF0 and t + 1 for VF(t+1) (R325, R331). -/
abbrev Fn := BitVec 5
/-- Rill port, 0 to 15 (R18). -/
abbrev Port := BitVec 4

/-- Scalar register number (R118). -/
abbrev SReg := BitVec 6
/-- Address register number (R118). -/
abbrev AReg := BitVec 5
/-- Predicate number (R118). -/
abbrev PReg := BitVec 4
/-- Flag number (R118). -/
abbrev FReg := BitVec 6
/-- Nest register number (R118). -/
abbrev NReg := BitVec 3
/-- Work register number (R118). -/
abbrev WReg := BitVec 2
/-- Lane-mask number (R118). -/
abbrev MReg := BitVec 3
/-- Latch number (R118). -/
abbrev LReg := BitVec 2
/-- Vector register number: a 9-bit field of which 0 to 319 name registers (R117, R119). -/
abbrev VReg := BitVec 9

end Sys2Proof
end

