-- ==== Sys2Proof/Config.lean ====
section
/-! DEFINITION. What an implementation fixes and the values the spec leaves open. Every constant here is opaque: it
has no body, so no proof can rest on its value. The free values are applied to the counter `freeCtr` of the state,
which the step that takes one advances (log 3). -/
namespace Sys2Proof.Config

/-- A free bit: which of two allowed outcomes appears (R71, R333). -/
opaque freeBit : Nat → Bool
/-- A free natural number: which of several allowed steps an agent takes, or which of the writes it may miss a read
misses (R84, R98, R313). -/
opaque freeNat : Nat → Nat
/-- A free byte (R84). -/
opaque freeByte : Nat → Byte
/-- A free scalar: a fresh window entry after CALL (R150), a destination left undefined at a pmark stop (R254). -/
opaque freeDword : Nat → Dword
/-- A free vector line (R254). -/
opaque freeLine : Nat → Line

/-- SHA-384 of some bytes (R335, R336, R340). -/
opaque sha384 : List Byte → BitVec 384
/-- HMAC-SHA-384 of a key and a message (R338). -/
opaque hmac384 : BitVec 384 → List Byte → BitVec 384
/-- ECDSA with SHA-384 over brainpoolP384r1 of RFC 5639: public key, signature, message (R335). -/
opaque ecdsaVerify : BitVec 768 → BitVec 768 → List Byte → Bool
/-- The same over a digest that has been formed already (R340). -/
opaque ecdsaVerifyDigest : BitVec 768 → BitVec 768 → BitVec 384 → Bool
/-- AES-256-GCM opening: key, IV, ciphertext, tag; the plaintext when the tag verifies (R340, R341). -/
opaque gcmOpen : BitVec 256 → BitVec 96 → List Byte → BitVec 128 → Option (List Byte)
/-- AES-256-GCM sealing: key, IV, plaintext; ciphertext and tag (R281, R340). -/
opaque gcmSeal : BitVec 256 → BitVec 96 → List Byte → List Byte × BitVec 128
/-- The module's random source (R339). -/
opaque random512 : Nat → BitVec 512
/-- The export key of the n-th secured session (R337, R338). -/
opaque exportKey : Nat → BitVec 384
/-- The attestation key that boot derives from meas0 to meas3 (R337). -/
opaque attestKey : List (BitVec 384) → BitVec 384
/-- ECDSA over P-384 with SHA-384 under the attestation key (R337). -/
opaque attestSign : BitVec 384 → List Byte → BitVec 768
/-- The certificate chain of an attestation key (R337). -/
opaque certChain : BitVec 384 → List Byte
/-- The opaque part of the n-th save record: byte i (R303). -/
opaque saveByte : Nat → Nat → Byte

end Sys2Proof.Config
end

