-- ==== Sys2Proof/Machine/Sparse.lean ====
section
/-! DEFINITION. Sparse tables: lists of (index, value) pairs sorted by index. An index that is not listed has a
default that the reader names. -/
namespace Sys2Proof.Machine

/-- The value at index k, d when it is not listed. -/
def aget {α : Type} (m : List (Nat × α)) (k : Nat) (d : α) : α :=
  match m with
  | [] => d
  | (j, v) :: t => if j = k then v else aget t k d

/-- Whether index k is listed. -/
def ahas {α : Type} (m : List (Nat × α)) (k : Nat) : Bool := m.any fun x => x.1 == k

/-- Sets the value at index k, in order. -/
def ains {α : Type} (m : List (Nat × α)) (k : Nat) (v : α) : List (Nat × α) :=
  match m with
  | [] => [(k, v)]
  | (j, w) :: t => if k < j then (k, v) :: (j, w) :: t else if k = j then (k, v) :: t else (j, w) :: ains t k v

/-- Removes index k. -/
def adel {α : Type} (m : List (Nat × α)) (k : Nat) : List (Nat × α) := m.filter fun x => x.1 != k

/-- Sets the value at index k; the default is not listed. -/
def aput {α : Type} [DecidableEq α] (m : List (Nat × α)) (k : Nat) (v d : α) : List (Nat × α) :=
  if v = d then adel m k else ains m k v

/-- Changes the value at index k. -/
def amod {α : Type} (m : List (Nat × α)) (k : Nat) (d : α) (f : α → α) : List (Nat × α) := ains m k (f (aget m k d))

/-- Inserts a number into a sorted list without repeats. -/
def sinsert (k : Nat) : List Nat → List Nat
  | [] => [k]
  | j :: t => if k < j then k :: j :: t else if k = j then j :: t else j :: sinsert k t

/-- Replaces element i of a list. -/
def lset {α : Type} : List α → Nat → α → List α
  | [], _, _ => []
  | _ :: t, 0, v => v :: t
  | x :: t, n + 1, v => x :: lset t n v

/-- Changes the first element that satisfies p. -/
def lmodFirst {α : Type} (p : α → Bool) (f : α → α) : List α → List α
  | [] => []
  | x :: t => if p x then f x :: t else x :: lmodFirst p f t

/-- Removes the first element that satisfies p. -/
def ldelFirst {α : Type} (p : α → Bool) : List α → List α
  | [] => []
  | x :: t => if p x then t else x :: ldelFirst p t

/-- Applies f n times with the index counting up. -/
def iter {α : Type} (f : Nat → α → α) : Nat → α → α
  | 0, a => a
  | n + 1, a => f n (iter f n a)

end Sys2Proof.Machine
end

