-- ==== Sys2Proof/Syntax.lean ====
section
/-! DEFINITION. The steps of the ZV8: one constructor of `Instr` for each row of the opcode table. 83 are
events of the machine (they have no encoding); the other 176 are the operations of the eight opcode maps, with their
operands typed (spec/06 to spec/10). -/
namespace Sys2Proof

/-- The predicate of a format-S op: it performs when P[pred] xor neg is true (R116). -/
structure Guard where
  pred : PReg
  neg : Bool
  deriving DecidableEq, Repr

/-- The cluster whose slot holds a format-V op, and its lane mask (R117). -/
structure VHead where
  cl : Cl
  msk : MReg
  deriving DecidableEq, Repr

/-- The eight opcode maps (R125). -/
inductive OpMap
  | s | aq | mx | cp | sy | vab | vx | vm
  deriving DecidableEq, Repr

/-- Types of the floating-point operations (R126). -/
inductive FTy
  | f32 | f16 | bf16
  deriving DecidableEq, Repr

/-- Types of the integer operations (R126). -/
inductive ITy
  | i32 | i16 | i8
  deriving DecidableEq, Repr

/-- Types of the log operations (R126). -/
inductive LTy
  | l16 | l8
  deriving DecidableEq, Repr

/-- Half-precision types (R45). -/
inductive HTy
  | f16 | bf16
  deriving DecidableEq, Repr

/-- Rounding modes (R48, R170). -/
inductive Rm
  | rne | rtz | rup | rdn
  deriving DecidableEq, Repr

/-- A source of a format-V op (R119). -/
inductive VSrc
  | v (r : VReg)
  | ldq
  | vzero
  | lane
  | clid
  | s (r : SReg)
  deriving DecidableEq, Repr

/-- Conditions of FCMP (R173). -/
inductive FCond
  | eq | ne | lt | le | gt | ge | un | or
  deriving DecidableEq, Repr

/-- Conditions of ICMP and ICMPU (R176). -/
inductive ICond
  | eq | ne | lt | le | gt | ge
  deriving DecidableEq, Repr

/-- Conditions of CMP and CMPI (R146). -/
inductive SCond
  | eq | ne | lt | le | gt | ge | ltu | leu | gtu | geu
  deriving DecidableEq, Repr

/-- Saturation of IADD and ISUB (R175). -/
inductive Sat
  | wrap | sat | satn
  deriving DecidableEq, Repr

/-- Scopes (R13, R156). -/
inductive Scope
  | pkg | ctx | core | group | die | sys
  deriving DecidableEq, Repr

/-- The ordering form of AMO and CAS (R216). -/
inductive Ord
  | relaxed | acq | rel | ar
  deriving DecidableEq, Repr

/-- Sizes of LDS and STS (R214). -/
inductive Size
  | b | h | w | d
  deriving DecidableEq, Repr

/-- Accumulate mode of an MMA: the FMTS default, overwrite or add (R200). -/
inductive AccMode
  | dflt | ovw | add
  deriving DecidableEq, Repr

/-- Element width of LATCHT (R204). -/
inductive LWidth
  | w1 | w2 | w4
  deriving DecidableEq, Repr

/-- Target of ACCRD (R207). -/
inductive AccTgt
  | f32 | half | l16 | l8 | i32
  deriving DecidableEq, Repr

/-- The conversions of CVT (R182); `j` is the element. -/
inductive CvtOp
  | f32i32 (rm : Rm)
  | f32n32 (rm : Rm)
  | i32f32 (rm : Rm)
  | n32f32 (rm : Rm)
  | f32h (j : BitVec 1) (rm : Rm)
  | hf32 (j : BitVec 1)
  | f32l16 (j : BitVec 1)
  | l16f32 (j : BitVec 1)
  | f32l8 (j : BitVec 2)
  | l8f32 (j : BitVec 2)
  | lb4f32 (j : BitVec 2)
  | i16i32 (j : BitVec 1)
  | n16i32 (j : BitVec 1)
  | i8i32 (j : BitVec 2)
  | n8i32 (j : BitVec 2)
  | i32i16 (j : BitVec 1)
  | i32i8 (j : BitVec 2)
  deriving DecidableEq, Repr

/-- A flag an engine command sets: the flag's number and whether it is to be set (R200, R204, R205, R221). -/
structure FlagRef where
  f : FReg
  v : Bool
  deriving DecidableEq, Repr

/-- The fields MMA and MMAG share (R200, R203). -/
structure MmaArgs where
  latch : LReg
  nb : BitVec 8
  mode : AccMode
  row : BitVec 11
  colh : Bool
  cls : BitVec 4
  done : FlagRef
  cons : FlagRef
  deriving DecidableEq, Repr

/-- The fields ACCZ, ACCWR and ACCRD share: the row scalar, rows minus one, flag and class (R205). -/
structure RowArgs where
  row : SReg
  n : BitVec 6
  done : FlagRef
  cls : BitVec 4
  deriving DecidableEq, Repr

/-- The fields the copy commands share (R221). -/
structure CpyArgs where
  nest : NReg
  src : AReg
  dst : AReg
  ch : Chan
  done : FlagRef
  cls : BitVec 4
  deriving DecidableEq, Repr

/-- The fields AMO and CAS share (R216). -/
structure AmoArgs where
  d : SReg
  a : AReg
  b : SReg
  ord : Ord
  scope : Scope
  nmask : BitVec 16
  deriving DecidableEq, Repr

/-- The fields of the pushes (R211): cluster, lines minus one, base, landing distance, class. -/
structure PushArgs where
  cl : Cl
  n : BitVec 3
  a : AReg
  land : BitVec 12
  cls : BitVec 4
  deriving DecidableEq, Repr

/-- The fields of the global vector stores (R213). -/
structure StgArgs where
  a : AReg
  cls : BitVec 4
  data : VReg
  cl : Cl
  msk : MReg
  deriving DecidableEq, Repr

/-- How a host access arrives: function, BAR, offset, the function whose IDE stream carried it, and the TEE bit
(R326, R329); `cxl` marks an access of CXL.mem, whose offset is the host's physical address (R325), and `posted` a write
that wants no completion (R328). -/
structure HostAcc where
  fn : Fn
  bar : BitVec 3
  off : Addr
  stream : Option Fn
  tee : Bool
  cxl : Bool := false
  posted : Bool := true
  deriving DecidableEq, Repr

/-- A driver or host register that has no behaviour of its own (row REGISTER_WRITE). -/
inductive HostReg
  | faultRing (t : Tenant)
  | errorLog
  | accessLog (f : Fn)
  | auditRing (t : Tenant)
  | allowByte (t : Tenant) (i : BitVec 10)
  | stbase
  | pkgcfg
  | rill (p : Port)
  | pwrctl
  | breakpoint (k : CoreId) (c : CtxId) (n : BitVec 3)
  | tokenAddr (t : Tenant)
  | tokenVal (t : Tenant)
  | tokenSeq (t : Tenant)
  | tokenMac (t : Tenant)
  | hdm (i : BitVec 2)
  deriving DecidableEq, Repr

/-- What a power window measured: module power in mW, and power in mW and temperature in 1/16 °C of each die
(R347, R348). -/
structure PowerSample where
  mw : Nat
  mw0 : Nat
  mw1 : Nat
  mw2 : Nat
  mw3 : Nat
  t0 : Nat
  t1 : Nat
  t2 : Nat
  t3 : Nat
  deriving DecidableEq, Repr

/-- Where an error is found (R324). -/
inductive ErrAt
  | dram | spm | acc | regs | latch | fetch | walk | queue
  deriving DecidableEq, Repr

/-- What a read of memory meets (R322): no error; in the numbered 64-bit word of what it reads, one that is corrected in
flight or an uncorrectable one; or a scratchpad line that the parity rebuilds. -/
inductive ReadErr
  | clean
  | corrected (word : Nat)
  | rebuilt
  | bad (word : Nat)
  deriving DecidableEq, Repr

/-- A register of a context or a lane mask that an error can stand in, scalars and vector lanes apart (R138, R322). -/
inductive RegName
  | a (r : AReg)
  | p (r : PReg)
  | n (r : NReg)
  | w (r : WReg)
  | m (cl : Cl) (r : MReg)
  deriving DecidableEq, Repr

/-- What a bundle's reads of its core's arrays meet (R322): no error; one that is corrected in flight; a scratchpad line
that the parity rebuilds; an uncorrectable one in a word of the scratchpad or of the accumulator store, in a lane of a
vector register, in a scalar or another register, in an entry of the tag table, in an entry of a cluster's load-data
queue, or in the target table's word. -/
inductive CellErr
  | clean
  | corrected (place : ErrAt) (addr : Addr)
  | rebuilt (line : Nat)
  | badSpm (word : Nat)
  | badAcc (word : Nat)
  | badLane (cl : Cl) (r : VReg) (lane : BitVec 4)
  | badScalar (r : SReg)
  | badReg (r : RegName)
  | badTag (slot : BitVec 12)
  | badEntry (cl : Cl) (i : Nat)
  | badTarget
  deriving DecidableEq, Repr

/-- What an SPDM requester asks for (R337): the measurements of an index, signed over a nonce when one is given, the
certificate chain of the attestation key, or a challenge over a nonce. -/
inductive SpdmAsk
  | meas (ix : Byte) (nonce : Option (BitVec 256))
  | cert
  | challenge (nonce : BitVec 256)
  deriving DecidableEq, Repr

/-- What a beat of the matrix engine meets (R322): no error; in a scratchpad line it reads or in its latch, one that is
corrected in flight; a line that the parity rebuilds; or an uncorrectable one in a word of such a line, in a word of the
accumulator store, or in a 64-bit word of its latch. -/
inductive BeatErr
  | clean
  | corrected (line : Nat)
  | correctedLatch
  | rebuilt (line : Nat)
  | badSpm (word : Nat)
  | badAcc (word : Nat)
  | badLatch (word : Nat)
  deriving DecidableEq, Repr

/-- The steps of the machine, one constructor for each row of the opcode table. -/
inductive Instr
  -- events
  | issueCycle (k : CoreId)
  | runmaxExpiry (k : CoreId)
  | bundleIssue (k : CoreId) (c : CtxId) (err : CellErr)
  | bankConflictRetry (k : CoreId) (c : CtxId)
  | fetchComplete (k : CoreId) (c : CtxId) (blk : BitVec 38) (err : ReadErr)
  | segmentCheck (k : CoreId) (c : CtxId)
  | fixedLatencyLanding (k : CoreId) (c : CtxId) (i : Nat) (lanes : BitVec 16)
  | scoreboardLanding (k : CoreId) (c : CtxId) (i : Nat)
  | tlbWalkComplete (k : CoreId) (va : Addr) (err : ReadErr)
  | memRequestService (i : Nat) (err : ReadErr)
  | loadLineLands (k : CoreId) (q : Cl) (i : Nat) (ue : Bool)
  | globalAccessPerform (i : Nat) (err : ReadErr)
  | spillFillComplete (k : CoreId) (c : CtxId)
  | waitgccWake (k : CoreId) (c : CtxId)
  | laqEntryFree (k : CoreId) (q : Cl)
  | copyCommandStart (k : CoreId) (ch : Chan)
  | copyLine (k : CoreId) (ch : Chan) (err : ReadErr)
  | copyComplete (k : CoreId) (ch : Chan)
  | bulkFrameSlot (d : DieId)
  | matrixCommandStart (k : CoreId)
  | matrixBeat (k : CoreId) (err : BeatErr)
  | loaderBeat (k : CoreId) (err : BeatErr)
  | accRowBeat (k : CoreId) (err : BeatErr)
  | matrixCommandDone (k : CoreId)
  | aConsumed (k : CoreId)
  | barrierComplete (lid : Word) (sc : Scope) (k : CoreId)
  | takeRecord (d : DieId) (t : Tenant)
  | admitLaunch (lid : Word)
  | coreAssign (k : CoreId)
  | contextStart (k : CoreId) (c : CtxId)
  | dispatchRestart (k : CoreId) (c : CtxId)
  | nxuService (k : CoreId) (c : CtxId)
  | launchAppend (d : DieId) (t : Tenant) (q : BitVec 4)
  | launchFail (lid : Word)
  | completionWrite (lid : Word)
  | passStart (lid : Word)
  | passEnd (lid : Word)
  | pmarkStop (k : CoreId) (c : CtxId)
  | contextSaved (k : CoreId) (c : CtxId)
  | pmbExpiry (k : CoreId) (c : CtxId)
  | zeroingDone (k : CoreId)
  | hostWrite (h : HostAcc) (data : List Byte)
  | hostRead (h : HostAcc) (len : Nat)
  | ideIntegrityFail (f : Fn)
  | peerInbound (p : Port) (wr : Bool) (a : Addr) (data : List Byte)
  | portTrain (p : Port) (peer : Byte)
  | queueDescriptorWrite (d : DieId) (t : Tenant) (q : BitVec 4) (v : BitVec 128)
  | coreConfigWrite (k : CoreId) (v : BitVec 128)
  | slotTableWrite (d : DieId) (j : BitVec 6) (v : Byte)
  | ttrootWrite (t : Tenant) (v : Dword)
  | go (k : CoreId) (c : CtxId)
  | goStep (k : CoreId) (c : CtxId)
  | decline (k : CoreId) (c : CtxId)
  | measext (n : BitVec 4) (h : BitVec 384)
  | tlockWrite (t : Tenant) (trusted : Bool) (v : Dword)
  | tgo (t : Tenant)
  | counterRead (c : BitVec 13)
  | registerWrite (r : HostReg) (v : BitVec 384)
  | supplySag (d : DieId)
  | thermalTrip (d : DieId)
  | bootStage (hdr : BitVec 2048) (body : List Byte)
  | getMeasurements (f : Fn) (ask : SpdmAsk)
  | keyExchange (f : Fn)
  | keyUpdate (f : Fn)
  | endSession (f : Fn)
  | vendorDefinedRequest (t : Tenant) (sign : Bool) (v : BitVec 384)
  | ideKm (f : Fn)
  -- every map
  | nop (m : OpMap)
  -- VA and VB
  | fadd (h : VHead) (t : FTy) (rm : Rm) (d : VReg) (a b : VSrc)
  | fsub (h : VHead) (t : FTy) (rm : Rm) (d : VReg) (a b : VSrc)
  | fmul (h : VHead) (t : FTy) (rm : Rm) (d : VReg) (a b : VSrc)
  | fma (h : VHead) (t : FTy) (rm : Option Rm) (d : VReg) (a b c : VSrc)
  | fms (h : VHead) (t : FTy) (rm : Option Rm) (d : VReg) (a b c : VSrc)
  | fnma (h : VHead) (t : FTy) (rm : Option Rm) (d : VReg) (a b c : VSrc)
  | fmin (h : VHead) (t : FTy) (d : VReg) (a b : VSrc)
  | fmax (h : VHead) (t : FTy) (d : VReg) (a b : VSrc)
  | fabs (h : VHead) (t : FTy) (d : VReg) (a : VSrc)
  | fneg (h : VHead) (t : FTy) (d : VReg) (a : VSrc)
  | fcmp (h : VHead) (t : FTy) (cc : FCond) (d : MReg) (a b : VSrc)
  | dot2 (h : VHead) (t : HTy) (rm : Option Rm) (d : VReg) (a b c : VSrc)
  | iadd (h : VHead) (t : ITy) (sa : Sat) (d : VReg) (a b : VSrc)
  | isub (h : VHead) (t : ITy) (sa : Sat) (d : VReg) (a b : VSrc)
  | imul (h : VHead) (t : ITy) (d : VReg) (a b : VSrc)
  | imulh (h : VHead) (t : ITy) (d : VReg) (a b : VSrc)
  | imad (h : VHead) (t : ITy) (d : VReg) (a b c : VSrc)
  | imin (h : VHead) (t : ITy) (d : VReg) (a b : VSrc)
  | imax (h : VHead) (t : ITy) (d : VReg) (a b : VSrc)
  | iminu (h : VHead) (t : ITy) (d : VReg) (a b : VSrc)
  | imaxu (h : VHead) (t : ITy) (d : VReg) (a b : VSrc)
  | vand (h : VHead) (t : ITy) (d : VReg) (a b : VSrc)
  | vor (h : VHead) (t : ITy) (d : VReg) (a b : VSrc)
  | vxor (h : VHead) (t : ITy) (d : VReg) (a b : VSrc)
  | vandn (h : VHead) (t : ITy) (d : VReg) (a b : VSrc)
  | vshl (h : VHead) (t : ITy) (d : VReg) (a b : VSrc)
  | vshr (h : VHead) (t : ITy) (d : VReg) (a b : VSrc)
  | vsar (h : VHead) (t : ITy) (d : VReg) (a b : VSrc)
  | icmp (h : VHead) (t : ITy) (cc : ICond) (d : MReg) (a b : VSrc)
  | icmpu (h : VHead) (t : ITy) (cc : ICond) (d : MReg) (a b : VSrc)
  | lmul (h : VHead) (t : LTy) (d : VReg) (a b : VSrc)
  | lrcp (h : VHead) (t : LTy) (d : VReg) (a : VSrc)
  | lsqrt (h : VHead) (t : LTy) (d : VReg) (a : VSrc)
  | mov (h : VHead) (d : VReg) (a : VSrc)
  | vmovi (h : VHead) (d : VReg) (imm : BitVec 9)
  | vsel (h : VHead) (d : VReg) (a b : VSrc) (k : MReg)
  | shuf (h : VHead) (d : VReg) (a b : VSrc)
  | rot (h : VHead) (d : VReg) (a : VSrc) (k : BitVec 4)
  | hadd (h : VHead) (d : VReg) (a : VSrc)
  | hmax (h : VHead) (d : VReg) (a : VSrc)
  | cvt (h : VHead) (op : CvtOp) (d : VReg) (a b : VSrc)
  | bpack (h : VHead) (d : VReg) (a b : VSrc)
  | bunpack (h : VHead) (d : VReg) (a : VSrc)
  | mand (h : VHead) (d a b : MReg)
  | mor (h : VHead) (d a b : MReg)
  | mxor (h : VHead) (d a b : MReg)
  | mnot (h : VHead) (d a : MReg)
  | mset (h : VHead) (d : MReg) (n : BitVec 5)
  | msetScalar (h : VHead) (d : MReg) (s : SReg)
  -- VX
  | rcp (h : VHead) (rm : Rm) (d : VReg) (a : VSrc)
  | rsq (h : VHead) (rm : Rm) (d : VReg) (a : VSrc)
  | sqrt (h : VHead) (rm : Rm) (d : VReg) (a : VSrc)
  | div (h : VHead) (rm : Rm) (d : VReg) (a b : VSrc)
  | exp2 (h : VHead) (rm : Rm) (d : VReg) (a : VSrc)
  | log2 (h : VHead) (rm : Rm) (d : VReg) (a : VSrc)
  | xmov (h : VHead) (d : VReg) (a : VReg) (n : Cl)
  | xbc (h : VHead) (d : VReg) (a : VReg) (n : Cl) (l : BitVec 4)
  -- VM
  | vld (h : VHead) (d : VReg) (k : SReg) (off : BitVec 9)
  | vst (h : VHead) (d : VReg) (k : SReg) (off : BitVec 9)
  | vlds (h : VHead) (d : VReg) (k j : SReg) (off : BitVec 9)
  | vsts (h : VHead) (d : VReg) (k j : SReg) (off : BitVec 9)
  | vldx (h : VHead) (d : VReg) (k : SReg) (x : VReg) (off : BitVec 9)
  | vstx (h : VHead) (d : VReg) (k : SReg) (x : VReg) (off : BitVec 9)
  | vlda (h : VHead) (d : VReg) (k : SReg) (off : BitVec 9)
  | vsta (h : VHead) (d : VReg) (k : SReg) (off : BitVec 9)
  -- S0 and S1
  | add (g : Guard) (d a b : SReg)
  | sub (g : Guard) (d a b : SReg)
  | addi (g : Guard) (d a : SReg) (imm : BitVec 16)
  | mul (g : Guard) (d a b : SReg)
  | mulhu (g : Guard) (d a b : SReg)
  | mulhs (g : Guard) (d a b : SReg)
  | divu (g : Guard) (d a b : SReg)
  | divuRem (g : Guard) (d a b : SReg)
  | divs (g : Guard) (d a b : SReg)
  | divsRem (g : Guard) (d a b : SReg)
  | and (g : Guard) (d a b : SReg)
  | or (g : Guard) (d a b : SReg)
  | xor (g : Guard) (d a b : SReg)
  | andn (g : Guard) (d a b : SReg)
  | shl (g : Guard) (d a b : SReg)
  | shr (g : Guard) (d a b : SReg)
  | sar (g : Guard) (d a b : SReg)
  | shli (g : Guard) (d a : SReg) (sh : BitVec 6)
  | shri (g : Guard) (d a : SReg) (sh : BitVec 6)
  | sari (g : Guard) (d a : SReg) (sh : BitVec 6)
  | min (g : Guard) (d a b : SReg)
  | max (g : Guard) (d a b : SReg)
  | minu (g : Guard) (d a b : SReg)
  | maxu (g : Guard) (d a b : SReg)
  | clz (g : Guard) (d a : SReg)
  | popc (g : Guard) (d a : SReg)
  | movi (g : Guard) (d : SReg) (imm : BitVec 16)
  | movhi (g : Guard) (d a : SReg) (imm : BitVec 16) (j : BitVec 2)
  | cmp (g : Guard) (cc : SCond) (d : PReg) (a b : SReg)
  | cmpi (g : Guard) (cc : SCond) (d : PReg) (a : SReg) (imm : BitVec 16)
  | sel (g : Guard) (d a b : SReg) (c : PReg)
  | pand (g : Guard) (d a b : PReg) (ia ib : Bool)
  | por (g : Guard) (d a b : PReg) (ia ib : Bool)
  | pxor (g : Guard) (d a b : PReg) (ia ib : Bool)
  | aadd (g : Guard) (d a : AReg) (b : SReg)
  | aaddi (g : Guard) (d a : AReg) (imm : BitVec 16)
  | alea (g : Guard) (d a : AReg) (b : SReg) (sh : BitVec 3)
  | aleaSeg (g : Guard) (d : AReg) (b : SReg) (off : BitVec 15)
  | amov (g : Guard) (d : AReg) (a : SReg)
  | smova (g : Guard) (d : SReg) (a : AReg)
  -- SY
  | br (g : Guard) (disp : BitVec 16)
  | brc (g : Guard) (d : SReg) (disp : BitVec 16)
  | jmp (g : Guard) (a : SReg)
  | call (g : Guard) (d : AReg) (n : BitVec 6) (disp : BitVec 16)
  | calli (g : Guard) (d : AReg) (a : SReg) (n : BitVec 6)
  | ret (g : Guard) (a : AReg) (n : BitVec 6)
  | loop (g : Guard) (k : NReg) (levels : BitVec 3) (len : BitVec 6)
  | loopx (g : Guard) (a : SReg) (len : BitVec 6)
  | setfmt (g : Guard) (v : Byte)
  | fence (g : Guard) (sc : Scope) (nmask : BitVec 16)
  | xfence (g : Guard)
  | ifence (g : Guard)
  | bar (g : Guard) (sc : Scope)
  | setf (g : Guard) (grp : BitVec 2) (mask : BitVec 16)
  | clrf (g : Guard) (grp : BitVec 2) (mask : BitVec 16)
  | waitgcc (g : Guard) (a : SReg)
  | rdsys (g : Guard) (d : SReg) (num : BitVec 4)
  | wrsys (g : Guard) (num : BitVec 4) (a : SReg)
  | trap (g : Guard) (imm : BitVec 16)
  | brk (g : Guard) (imm : BitVec 16)
  | halt (g : Guard)
  | unit (g : Guard) (d : SReg) (k : WReg)
  | unitS (g : Guard) (a : SReg)
  -- AQ
  | pushld (g : Guard) (p : PushArgs)
  | pushlds (g : Guard) (p : PushArgs) (b : SReg)
  | pushldx (g : Guard) (p : PushArgs) (b : SReg)
  | stg (g : Guard) (p : StgArgs)
  | stgs (g : Guard) (p : StgArgs) (b : SReg)
  | stgx (g : Guard) (p : StgArgs) (x : VReg)
  | lds (g : Guard) (d : SReg) (a : AReg) (cls : BitVec 4) (off : BitVec 12) (sx : Bool) (z : Size)
  | ldsL (g : Guard) (d : SReg) (a : AReg) (cls : BitVec 4) (off : BitVec 12) (sx : Bool) (z : Size)
  | sts (g : Guard) (a : AReg) (b : SReg) (cls : BitVec 4) (off : BitVec 12) (z : Size)
  | stsL (g : Guard) (a : AReg) (b : SReg) (cls : BitVec 4) (off : BitVec 12) (z : Size)
  | ldacq (g : Guard) (d : SReg) (a : AReg) (sc : Scope) (nmask : BitVec 16)
  | strel (g : Guard) (a : AReg) (b : SReg) (sc : Scope) (nmask : BitVec 16)
  | amoAdd (g : Guard) (p : AmoArgs)
  | amoFadd (g : Guard) (p : AmoArgs)
  | amoMin (g : Guard) (p : AmoArgs)
  | amoMax (g : Guard) (p : AmoArgs)
  | amoMinu (g : Guard) (p : AmoArgs)
  | amoMaxu (g : Guard) (p : AmoArgs)
  | amoAnd (g : Guard) (p : AmoArgs)
  | amoOr (g : Guard) (p : AmoArgs)
  | amoXor (g : Guard) (p : AmoArgs)
  | amoXchg (g : Guard) (p : AmoArgs)
  | cas (g : Guard) (p : AmoArgs) (nw : SReg)
  | tlook (g : Guard) (d : SReg) (a : AReg)
  | tset (g : Guard) (a : AReg) (b : SReg) (way : BitVec 3)
  | tclr (g : Guard) (a : SReg)
  | nxu (g : Guard)
  -- MX
  | mma (g : Guard) (a b : SReg) (m : MmaArgs)
  | mmag (g : Guard) (base b list : SReg) (m : MmaArgs)
  | latch (g : Guard) (a b : SReg) (l : LReg) (done : FlagRef) (cls : BitVec 4)
  | latcht (g : Guard) (a b : SReg) (l : LReg) (done : FlagRef) (cls : BitVec 4) (w : LWidth)
  | accz (g : Guard) (r : RowArgs)
  | accwr (g : Guard) (a : SReg) (r : RowArgs) (add : Bool)
  | accrd (g : Guard) (a : SReg) (r : RowArgs) (tgt : AccTgt)
  -- CP
  | nestld (g : Guard) (d : NReg) (cl : Cl) (j : VReg)
  | cpy (g : Guard) (p : CpyArgs)
  | cpyt (g : Guard) (p : CpyArgs) (ts : SReg)
  | cpym (g : Guard) (p : CpyArgs) (ms : SReg) (rflag : FlagRef) (rctx : CtxId)
  | cpsend (g : Guard) (p : CpyArgs) (port : Port)
  | cparm (g : Guard) (ch : Chan) (lo hi : SReg)
  | cpstat (g : Guard) (d : SReg) (ch : Chan)
  | cpstatClr (g : Guard) (d : SReg) (ch : Chan)
  | buse (g : Guard) (a : SReg) (n : BitVec 11)
  | bfree (g : Guard) (a : SReg) (n : BitVec 11)
  | launch (g : Guard) (a : AReg) (q : BitVec 4)
  | relaunch (g : Guard) (a : AReg) (b : SReg) (q : BitVec 4)
  | trexcl (g : Guard) (a : AReg) (b : SReg) (slot : BitVec 2)
  -- events of the last two rows
  | portDown (p : Port)
  | supplyRestored (d : DieId)
  -- the clock, the resets, and the commands that take their data from a command register
  -- of the driver page (R299, R314, R283) or from the sensors (R347)
  | gccTick
  | powerOnReset
  | driverReset
  | preempt
  | resume
  | abort
  | scrub
  | stampreset
  | coresave
  | coreload
  | shootdown
  | finishRequest
  | finishRemove
  | powerWindowEnd
  deriving DecidableEq, Repr

end Sys2Proof
end

