-- ==== Sys2Proof/WellFormed.lean ====
section
/-! DEFINITION. The static checks of an operation that its operand types do not already carry: register codes above
319, mask destinations m0, counts and codes that an instruction chapter declares illegal, fields that an op form
does not use (R118, R119, R122, R169 and the rules of each op). -/
namespace Sys2Proof

/-- A format-V destination or data register: 0 to 319 (R119). -/
def VReg.ok (r : VReg) : Bool := r.toNat < 320

/-- A format-V source: registers 0 to 319 (R119). -/
def VSrc.ok : VSrc → Bool
  | .v r => VReg.ok r
  | _ => true

/-- The conversions that insert into a copy of vb; the others leave VB unused (R182). -/
def CvtOp.inserts : CvtOp → Bool
  | .f32h _ _ | .f32l16 _ | .f32l8 _ | .i32i16 _ | .i32i8 _ => true
  | _ => false

/-- A class mask is encoded inverted; 0xFFFF names no class and is illegal (R156). -/
def nmaskOk (m : BitVec 16) : Bool := m != 0xFFFF#16

/-- With ORD 0 the scope and the mask are unused (R216); otherwise the mask names a class (R156). -/
def AmoArgs.ok (p : AmoArgs) : Bool :=
  match p.ord with
  | .relaxed => p.scope == .pkg && p.nmask == 0#16
  | _ => nmaskOk p.nmask

/-- The system registers a WRSYS may name (R161). -/
def sysWritable (n : BitVec 4) : Bool :=
  n == 4#4 || n == 5#4 || n == 7#4 || n == 9#4 || n == 10#4

/-- An instruction that an encoding of spec/06 to spec/10 can stand for; every event is well formed but MEASEXT,
which names meas6 to meas15 (R336). -/
def WellFormed : Instr → Bool
  | .fadd _ _ _ d a b | .fsub _ _ _ d a b | .fmul _ _ _ d a b => VReg.ok d && a.ok && b.ok
  | .fma _ _ _ d a b c | .fms _ _ _ d a b c | .fnma _ _ _ d a b c | .dot2 _ _ _ d a b c =>
    VReg.ok d && a.ok && b.ok && c.ok
  | .fmin _ _ d a b | .fmax _ _ d a b => VReg.ok d && a.ok && b.ok
  | .fabs _ _ d a | .fneg _ _ d a => VReg.ok d && a.ok
  | .fcmp _ _ _ d a b => d != 0#3 && a.ok && b.ok
  | .iadd _ _ _ d a b | .isub _ _ _ d a b => VReg.ok d && a.ok && b.ok
  | .imul _ _ d a b | .imulh _ _ d a b | .imin _ _ d a b | .imax _ _ d a b | .iminu _ _ d a b
  | .imaxu _ _ d a b | .vand _ _ d a b | .vor _ _ d a b | .vxor _ _ d a b | .vandn _ _ d a b
  | .vshl _ _ d a b | .vshr _ _ d a b | .vsar _ _ d a b => VReg.ok d && a.ok && b.ok
  | .imad _ _ d a b c => VReg.ok d && a.ok && b.ok && c.ok
  | .icmp _ _ _ d a b | .icmpu _ _ _ d a b => d != 0#3 && a.ok && b.ok
  | .lmul _ _ d a b => VReg.ok d && a.ok && b.ok
  | .lrcp _ _ d a | .lsqrt _ _ d a => VReg.ok d && a.ok
  | .mov _ d a => VReg.ok d && a.ok
  | .vmovi _ d _ => VReg.ok d
  | .vsel _ d a b _ => VReg.ok d && a.ok && b.ok
  | .shuf _ d a b => VReg.ok d && a.ok && b.ok
  | .rot _ d a _ | .hadd _ d a | .hmax _ d a | .bunpack _ d a => VReg.ok d && a.ok
  | .cvt _ op d a b => VReg.ok d && a.ok && b.ok && (op.inserts || b == .v 0#9)
  | .bpack _ d a b => VReg.ok d && a.ok && b.ok
  | .mand _ d _ _ | .mor _ d _ _ | .mxor _ d _ _ | .mnot _ d _ | .msetScalar _ d _ => d != 0#3
  | .mset _ d n => d != 0#3 && n.toNat ≤ 16
  | .rcp _ _ d a | .rsq _ _ d a | .sqrt _ _ d a | .exp2 _ _ d a | .log2 _ _ d a => VReg.ok d && a.ok
  | .div _ _ d a b => VReg.ok d && a.ok && b.ok
  | .xmov _ d a _ | .xbc _ d a _ _ => VReg.ok d && VReg.ok a
  | .vld _ d _ _ | .vst _ d _ _ | .vlda _ d _ _ | .vsta _ d _ _ => VReg.ok d
  | .vlds _ d _ _ _ | .vsts _ d _ _ _ => VReg.ok d
  | .vldx _ d _ x _ | .vstx _ d _ x _ => VReg.ok d && VReg.ok x
  | .call _ _ n _ | .calli _ _ _ n | .ret _ _ n => n.toNat ≤ 48
  | .loop _ _ lv len => 1 ≤ lv.toNat && lv.toNat ≤ 6 && 1 ≤ len.toNat && len.toNat ≤ 32
  | .loopx _ _ len => 1 ≤ len.toNat && len.toNat ≤ 32
  | .fence _ _ m => nmaskOk m
  | .bar _ sc => sc != .ctx && sc != .sys
  | .setf _ _ m | .clrf _ _ m => m != 0#16
  | .rdsys _ _ n => n.toNat ≤ 14
  | .wrsys _ n _ => sysWritable n
  | .pushldx _ p _ => p.n.toNat ≤ 3
  | .stg _ p | .stgs _ p _ => VReg.ok p.data
  | .stgx _ p x => VReg.ok p.data && VReg.ok x
  | .lds _ _ _ _ _ sx z | .ldsL _ _ _ _ _ sx z => !(sx && z == .d)
  | .ldacq _ _ _ _ m | .strel _ _ _ _ m => nmaskOk m
  | .amoAdd _ p | .amoFadd _ p | .amoMin _ p | .amoMax _ p | .amoMinu _ p | .amoMaxu _ p | .amoAnd _ p
  | .amoOr _ p | .amoXor _ p | .amoXchg _ p | .cas _ p _ => p.ok
  | .nestld _ _ _ j => VReg.ok j
  | .buse _ _ n | .bfree _ _ n => n.toNat ≤ 1535
  | .measext n _ => 6 ≤ n.toNat
  | _ => true

end Sys2Proof
end

