-- ==== Sys2Proof/Decode.lean ====
section
/-! DEFINITION. Bundles and op words (spec/06): the decoder, total on any bytes, and after it the encoder, written
from the same encoding tables. -/
namespace Sys2Proof

/-! ### Fields -/

/-- The fields of a format-S op word (R116). -/
structure SWord where
  opc : BitVec 8
  n : Bool
  pred : BitVec 4
  e : Bool
  d : BitVec 6
  a : BitVec 6
  b : BitVec 6
  imm : BitVec 16
  deriving DecidableEq, Repr

/-- The fields of a format-V op word (R117). -/
structure VWord where
  opc : BitVec 8
  msk : BitVec 3
  e : Bool
  vd : BitVec 9
  va : BitVec 9
  vb : BitVec 9
  vc : BitVec 9
  deriving DecidableEq, Repr

/-- The fields of a format-S word at the bits of R116. -/
def sFields (w : BitVec 48) : SWord :=
  ⟨w.extractLsb' 40 8, w.getLsbD 39, w.extractLsb' 35 4, w.getLsbD 34, w.extractLsb' 28 6,
    w.extractLsb' 22 6, w.extractLsb' 16 6, w.extractLsb' 0 16⟩

/-- The fields of a format-V word at the bits of R117. -/
def vFields (w : BitVec 48) : VWord :=
  ⟨w.extractLsb' 40 8, w.extractLsb' 37 3, w.getLsbD 36, w.extractLsb' 27 9, w.extractLsb' 18 9,
    w.extractLsb' 9 9, w.extractLsb' 0 9⟩

/-- The format-S word of its fields (R116). -/
def sBits (x : SWord) : BitVec 48 :=
  x.opc ++ BitVec.ofBool x.n ++ x.pred ++ BitVec.ofBool x.e ++ x.d ++ x.a ++ x.b ++ x.imm

/-- The format-V word of its fields (R117). -/
def vBits (x : VWord) : BitVec 48 :=
  x.opc ++ x.msk ++ BitVec.ofBool x.e ++ x.vd ++ x.va ++ x.vb ++ x.vc

/-! ### What one op word decodes to -/

/-- Why an op word is no instruction: an unused field that is nonzero makes the bundle illegal (0x01), anything
else makes the op illegal (0x02) (R122). -/
inductive OpErr
  | unused
  | illegal
  deriving DecidableEq, Repr

/-- An op word's instruction, or why there is none. -/
abbrev OpRes := Except OpErr Instr

/-- The unused fields come first: a bundle with both kinds of fault reports the illegal bundle (R122). -/
def chk (unusedZero legal : Bool) (i : Instr) : OpRes :=
  if !unusedZero then .error .unused else if !legal then .error .illegal else .ok i

/-- As `chk`, for an instruction that one more field must name (a code that may be illegal). -/
def chkO (unusedZero : Bool) (i : Option Instr) : OpRes :=
  if !unusedZero then .error .unused else
    match i with
    | some i => if WellFormed i then .ok i else .error .illegal
    | none => .error .illegal

/-- Predicate numbers in a 6-bit field: 0 to 15 (R118). -/
def pNum (f : BitVec 6) : Option PReg := if f.toNat < 16 then some (f.setWidth 4) else none
/-- Address register numbers: 0 to 31 (R118). -/
def aNum (f : BitVec 6) : Option AReg := if f.toNat < 32 then some (f.setWidth 5) else none
/-- Nest register numbers: 0 to 7 (R118). -/
def nNum (f : BitVec 6) : Option NReg := if f.toNat < 8 then some (f.setWidth 3) else none
/-- Work register numbers: 0 to 3 (R118). -/
def wNum (f : BitVec 6) : Option WReg := if f.toNat < 4 then some (f.setWidth 2) else none

/-- The guard of a format-S word. -/
def SWord.g (x : SWord) : Guard := ⟨x.pred, x.n⟩

/-- The codes of R119 that a source field may hold. -/
def srcOf (f : BitVec 9) : Option VSrc :=
  let n := f.toNat
  if n < 320 then some (.v f)
  else if n = 320 then some .ldq
  else if n = 321 then some .vzero
  else if n = 322 then some .lane
  else if n = 323 then some .clid
  else if 384 ≤ n ∧ n < 448 then some (.s (f.setWidth 6))
  else none

/-- The scalar of a scalar-only field (R169). -/
def scalarOf (f : BitVec 9) : Option SReg :=
  if 384 ≤ f.toNat ∧ f.toNat < 448 then some (f.setWidth 6) else none

/-- The code of a source (R119). -/
def srcCode : VSrc → BitVec 9
  | .v r => r
  | .ldq => 320#9
  | .vzero => 321#9
  | .lane => 322#9
  | .clid => 323#9
  | .s r => 384#9 + r.setWidth 9

/-- The code of a broadcast scalar (R119). -/
def scalarCode (r : SReg) : BitVec 9 := 384#9 + r.setWidth 9

/-- Rounding codes (R170). -/
def rmOf (f : BitVec 2) : Rm :=
  if f = 0#2 then .rne else if f = 1#2 then .rtz else if f = 2#2 then .rup else .rdn
/-- Rounding codes (R170). -/
def rmCode : Rm → BitVec 2
  | .rne => 0 | .rtz => 1 | .rup => 2 | .rdn => 3

/-- Scope codes (R156). -/
def scopeOf (f : BitVec 6) : Option Scope :=
  match f.toNat with
  | 0 => some .pkg | 1 => some .ctx | 2 => some .core | 3 => some .group | 4 => some .die | 5 => some .sys
  | _ => none
/-- Scope codes (R156). -/
def scopeCode : Scope → BitVec 6
  | .pkg => 0 | .ctx => 1 | .core => 2 | .group => 3 | .die => 4 | .sys => 5

/-- Condition codes of CMP and CMPI (R146). -/
def scondOf (f : BitVec 4) : Option SCond :=
  match f.toNat with
  | 0 => some .eq | 1 => some .ne | 2 => some .lt | 3 => some .le | 4 => some .gt | 5 => some .ge
  | 6 => some .ltu | 7 => some .leu | 8 => some .gtu | 9 => some .geu | _ => none
/-- Condition codes of CMP and CMPI (R146). -/
def scondCode : SCond → BitVec 4
  | .eq => 0 | .ne => 1 | .lt => 2 | .le => 3 | .gt => 4 | .ge => 5 | .ltu => 6 | .leu => 7 | .gtu => 8 | .geu => 9

/-- Condition codes of FCMP (R173). -/
def fcondOf (f : BitVec 3) : FCond :=
  match f.toNat with
  | 0 => .eq | 1 => .ne | 2 => .lt | 3 => .le | 4 => .gt | 5 => .ge | 6 => .un | _ => .or
/-- Condition codes of FCMP (R173). -/
def fcondCode : FCond → BitVec 3
  | .eq => 0 | .ne => 1 | .lt => 2 | .le => 3 | .gt => 4 | .ge => 5 | .un => 6 | .or => 7

/-- Condition codes of ICMP and ICMPU (R176). -/
def icondOf (f : BitVec 3) : Option ICond :=
  match f.toNat with
  | 0 => some .eq | 1 => some .ne | 2 => some .lt | 3 => some .le | 4 => some .gt | 5 => some .ge | _ => none
/-- Condition codes of ICMP and ICMPU (R176). -/
def icondCode : ICond → BitVec 3
  | .eq => 0 | .ne => 1 | .lt => 2 | .le => 3 | .gt => 4 | .ge => 5

/-- The FP types of t (R126). -/
def ftyOf (t : BitVec 2) : Option FTy :=
  if t = 0#2 then some .f32 else if t = 1#2 then some .f16 else if t = 2#2 then some .bf16 else none
/-- The FP types of t (R126). -/
def ftyCode : FTy → BitVec 2
  | .f32 => 0 | .f16 => 1 | .bf16 => 2
/-- The integer types of t (R126). -/
def ityOf (t : BitVec 2) : Option ITy :=
  if t = 0#2 then some .i32 else if t = 1#2 then some .i16 else if t = 2#2 then some .i8 else none
/-- The integer types of t (R126). -/
def ityCode : ITy → BitVec 2
  | .i32 => 0 | .i16 => 1 | .i8 => 2
/-- The log types of t (R126). -/
def ltyOf (t : BitVec 2) : Option LTy :=
  if t = 1#2 then some .l16 else if t = 2#2 then some .l8 else none
/-- The log types of t (R126). -/
def ltyCode : LTy → BitVec 2
  | .l16 => 1 | .l8 => 2
/-- DOT2 takes F16 or BF16 (R174). -/
def htyOf (t : BitVec 2) : Option HTy :=
  if t = 1#2 then some .f16 else if t = 2#2 then some .bf16 else none
/-- DOT2 takes F16 or BF16 (R174). -/
def htyCode : HTy → BitVec 2
  | .f16 => 1 | .bf16 => 2

/-- The saturation codes of IADD and ISUB (R175). -/
def satOf (f : BitVec 2) : Option Sat :=
  if f = 0#2 then some .wrap else if f = 1#2 then some .sat else if f = 2#2 then some .satn else none
/-- The saturation codes of IADD and ISUB (R175). -/
def satCode : Sat → BitVec 2
  | .wrap => 0 | .sat => 1 | .satn => 2

/-- The sizes of LDS and STS (R214). -/
def sizeOf2 (f : BitVec 2) : Size :=
  if f = 0#2 then .b else if f = 1#2 then .h else if f = 2#2 then .w else .d
/-- The sizes of LDS and STS (R214). -/
def sizeCode : Size → BitVec 2
  | .b => 0 | .h => 1 | .w => 2 | .d => 3

/-- ORD of R216. -/
def ordOf (f : BitVec 2) : Ord :=
  if f = 0#2 then .relaxed else if f = 1#2 then .acq else if f = 2#2 then .rel else .ar
/-- ORD of R216. -/
def ordCode : Ord → BitVec 2
  | .relaxed => 0 | .acq => 1 | .rel => 2 | .ar => 3

/-- The conversion of VC[7:0] (R182): its code in VC[5:0] and, where the table says rm, the mode in VC[7:6]. -/
def cvtOf (vc : BitVec 9) : Option CvtOp :=
  let n := (vc.extractLsb' 0 6).toNat
  let rm := rmOf (vc.extractLsb' 6 2)
  if n = 0 then some (.f32i32 rm)
  else if n = 1 then some (.f32n32 rm)
  else if n = 2 then some (.i32f32 rm)
  else if n = 3 then some (.n32f32 rm)
  else if n < 6 then some (.f32h (BitVec.ofNat 1 (n - 4)) rm)
  else if n < 8 then some (.hf32 (BitVec.ofNat 1 (n - 6)))
  else if n < 10 then some (.f32l16 (BitVec.ofNat 1 (n - 8)))
  else if n < 12 then some (.l16f32 (BitVec.ofNat 1 (n - 10)))
  else if n < 16 then some (.f32l8 (BitVec.ofNat 2 (n - 12)))
  else if n < 20 then some (.l8f32 (BitVec.ofNat 2 (n - 16)))
  else if n < 24 then some (.lb4f32 (BitVec.ofNat 2 (n - 20)))
  else if n < 26 then some (.i16i32 (BitVec.ofNat 1 (n - 24)))
  else if n < 28 then some (.n16i32 (BitVec.ofNat 1 (n - 26)))
  else if n < 32 then some (.i8i32 (BitVec.ofNat 2 (n - 28)))
  else if n < 36 then some (.n8i32 (BitVec.ofNat 2 (n - 32)))
  else if n < 38 then some (.i32i16 (BitVec.ofNat 1 (n - 36)))
  else if n < 42 then some (.i32i8 (BitVec.ofNat 2 (n - 38)))
  else none

/-- Whether the conversion takes a rounding code (R182). -/
def CvtOp.rounds : CvtOp → Bool
  | .f32i32 _ | .f32n32 _ | .i32f32 _ | .n32f32 _ | .f32h _ _ => true
  | _ => false

/-- The code of a conversion, as it stands in VC[8:0] (R182). -/
def cvtCode : CvtOp → BitVec 9
  | .f32i32 rm => (rmCode rm).setWidth 9 <<< 6
  | .f32n32 rm => (rmCode rm).setWidth 9 <<< 6 ||| 1#9
  | .i32f32 rm => (rmCode rm).setWidth 9 <<< 6 ||| 2#9
  | .n32f32 rm => (rmCode rm).setWidth 9 <<< 6 ||| 3#9
  | .f32h j rm => (rmCode rm).setWidth 9 <<< 6 ||| (4#9 + j.setWidth 9)
  | .hf32 j => 6#9 + j.setWidth 9
  | .f32l16 j => 8#9 + j.setWidth 9
  | .l16f32 j => 10#9 + j.setWidth 9
  | .f32l8 j => 12#9 + j.setWidth 9
  | .l8f32 j => 16#9 + j.setWidth 9
  | .lb4f32 j => 20#9 + j.setWidth 9
  | .i16i32 j => 24#9 + j.setWidth 9
  | .n16i32 j => 26#9 + j.setWidth 9
  | .i8i32 j => 28#9 + j.setWidth 9
  | .n8i32 j => 32#9 + j.setWidth 9
  | .i32i16 j => 36#9 + j.setWidth 9
  | .i32i8 j => 38#9 + j.setWidth 9

/-! ### Format V -/

/-- Three sources or fewer, resolved together. -/
def src1 (f : BitVec 9) (k : VSrc → Instr) : Option Instr := (srcOf f).map k
/-- Two sources. -/
def src2 (f g : BitVec 9) (k : VSrc → VSrc → Instr) : Option Instr :=
  (srcOf f).bind fun a => (srcOf g).map fun b => k a b
/-- Three sources. -/
def src3 (f g h : BitVec 9) (k : VSrc → VSrc → VSrc → Instr) : Option Instr :=
  (srcOf f).bind fun a => (srcOf g).bind fun b => (srcOf h).map fun c => k a b c

/-- The rounding code of FMA, FMS, FNMA and DOT2: in the extension word, taken exactly when E is set (R170). The
extension word's bits [31:2] are reserved. -/
def rmExt (x : VWord) (ext : Word) : Option Rm :=
  if x.e then some (rmOf (ext.extractLsb' 0 2)) else none
/-- The reserved bits of that extension word. -/
def rmExtZero (x : VWord) (ext : Word) : Bool := !x.e || ext.extractLsb' 2 30 == 0#30

/-- The mask number of a field that names a mask (R169). -/
def mNum (f : BitVec 9) : MReg := f.extractLsb' 0 3
/-- The unused bits of a field that names a mask (R169). -/
def mZero (f : BitVec 9) : Bool := f.extractLsb' 3 6 == 0#6

/-- A type that the operation does not allow is an illegal operation, whatever the other fields hold (R122, R126). -/
def withTy {α : Type} (t : Option α) (k : α → OpRes) : OpRes :=
  match t with
  | some t => k t
  | none => .error .illegal

/-- The VA/VB map (R126, with the fields of R171 to R185). -/
def decVab (cl : Cl) (x : VWord) (ext : Word) : OpRes :=
  let h : VHead := ⟨cl, x.msk⟩
  let t : BitVec 2 := x.opc.extractLsb' 0 2
  let ne := !x.e
  let rm := rmOf (x.vc.extractLsb' 0 2)
  let vcHi := x.vc.extractLsb' 2 7 == 0#7
  let z := fun (f : BitVec 9) => f == 0#9
  let m3 := fun (f : BitVec 9) => f.extractLsb' 3 6 == 0#6
  match (x.opc.extractLsb' 2 6).toNat with
  | 0 => if x.opc == 0#8 then
      chkO (ne && x.msk == 0#3 && z x.vd && z x.va && z x.vb && z x.vc) (some (.nop .vab)) else .error .illegal
  | 1 => withTy (ftyOf t) fun t => chkO (ne && vcHi) (src2 x.va x.vb (.fadd h t rm x.vd))
  | 2 => withTy (ftyOf t) fun t => chkO (ne && vcHi) (src2 x.va x.vb (.fsub h t rm x.vd))
  | 3 => withTy (ftyOf t) fun t => chkO (ne && vcHi) (src2 x.va x.vb (.fmul h t rm x.vd))
  | 4 => withTy (ftyOf t) fun t => chkO (rmExtZero x ext) (src3 x.va x.vb x.vc (.fma h t (rmExt x ext) x.vd))
  | 5 => withTy (ftyOf t) fun t => chkO (rmExtZero x ext) (src3 x.va x.vb x.vc (.fms h t (rmExt x ext) x.vd))
  | 6 => withTy (ftyOf t) fun t => chkO (rmExtZero x ext) (src3 x.va x.vb x.vc (.fnma h t (rmExt x ext) x.vd))
  | 7 => withTy (ftyOf t) fun t => chkO (ne && z x.vc) (src2 x.va x.vb (.fmin h t x.vd))
  | 8 => withTy (ftyOf t) fun t => chkO (ne && z x.vc) (src2 x.va x.vb (.fmax h t x.vd))
  | 9 => withTy (ftyOf t) fun t => chkO (ne && z x.vb && z x.vc) (src1 x.va (.fabs h t x.vd))
  | 10 => withTy (ftyOf t) fun t => chkO (ne && z x.vb && z x.vc) (src1 x.va (.fneg h t x.vd))
  | 11 => withTy (ftyOf t) fun t => chkO (ne && m3 x.vc && mZero x.vd)
      (src2 x.va x.vb (.fcmp h t (fcondOf (x.vc.extractLsb' 0 3)) (mNum x.vd)))
  | 12 => withTy (htyOf t) fun t => chkO (rmExtZero x ext) (src3 x.va x.vb x.vc (.dot2 h t (rmExt x ext) x.vd))
  | 17 => withTy (ityOf t) fun t => chkO (ne && vcHi) ((satOf (x.vc.extractLsb' 0 2)).bind fun sa =>
      src2 x.va x.vb (.iadd h t sa x.vd))
  | 18 => withTy (ityOf t) fun t => chkO (ne && vcHi) ((satOf (x.vc.extractLsb' 0 2)).bind fun sa =>
      src2 x.va x.vb (.isub h t sa x.vd))
  | 19 => withTy (ityOf t) fun t => chkO (ne && z x.vc) (src2 x.va x.vb (.imul h t x.vd))
  | 20 => withTy (ityOf t) fun t => chkO (ne && z x.vc) (src2 x.va x.vb (.imulh h t x.vd))
  | 21 => withTy (ityOf t) fun t => chkO ne (src3 x.va x.vb x.vc (.imad h t x.vd))
  | 22 => withTy (ityOf t) fun t => chkO (ne && z x.vc) (src2 x.va x.vb (.imin h t x.vd))
  | 23 => withTy (ityOf t) fun t => chkO (ne && z x.vc) (src2 x.va x.vb (.imax h t x.vd))
  | 24 => withTy (ityOf t) fun t => chkO (ne && z x.vc) (src2 x.va x.vb (.iminu h t x.vd))
  | 25 => withTy (ityOf t) fun t => chkO (ne && z x.vc) (src2 x.va x.vb (.imaxu h t x.vd))
  | 26 => withTy (ityOf t) fun t => chkO (ne && z x.vc) (src2 x.va x.vb (.vand h t x.vd))
  | 27 => withTy (ityOf t) fun t => chkO (ne && z x.vc) (src2 x.va x.vb (.vor h t x.vd))
  | 28 => withTy (ityOf t) fun t => chkO (ne && z x.vc) (src2 x.va x.vb (.vxor h t x.vd))
  | 29 => withTy (ityOf t) fun t => chkO (ne && z x.vc) (src2 x.va x.vb (.vandn h t x.vd))
  | 30 => withTy (ityOf t) fun t => chkO (ne && z x.vc) (src2 x.va x.vb (.vshl h t x.vd))
  | 31 => withTy (ityOf t) fun t => chkO (ne && z x.vc) (src2 x.va x.vb (.vshr h t x.vd))
  | 32 => withTy (ityOf t) fun t => chkO (ne && z x.vc) (src2 x.va x.vb (.vsar h t x.vd))
  | 33 => withTy (ityOf t) fun t => chkO (ne && m3 x.vc && mZero x.vd) ((icondOf (x.vc.extractLsb' 0 3)).bind fun cc =>
      src2 x.va x.vb (.icmp h t cc (mNum x.vd)))
  | 34 => withTy (ityOf t) fun t => chkO (ne && m3 x.vc && mZero x.vd) ((icondOf (x.vc.extractLsb' 0 3)).bind fun cc =>
      src2 x.va x.vb (.icmpu h t cc (mNum x.vd)))
  | 37 => withTy (ltyOf t) fun t => chkO (ne && z x.vc) (src2 x.va x.vb (.lmul h t x.vd))
  | 38 => withTy (ltyOf t) fun t => chkO (ne && z x.vb && z x.vc) (src1 x.va (.lrcp h t x.vd))
  | 39 => withTy (ltyOf t) fun t => chkO (ne && z x.vb && z x.vc) (src1 x.va (.lsqrt h t x.vd))
  | n =>
    if t ≠ 0#2 then .error .illegal else
    match n with
    | 41 => chkO (ne && z x.vb && z x.vc) (src1 x.va (.mov h x.vd))
    | 42 => chkO (ne && z x.va && z x.vb) (some (.vmovi h x.vd x.vc))
    | 43 => chkO (ne && mZero x.vc) (src2 x.va x.vb fun a b => .vsel h x.vd a b (mNum x.vc))
    | 44 => chkO (ne && z x.vc) (src2 x.va x.vb (.shuf h x.vd))
    | 45 => chkO (ne && z x.vb && x.vc.extractLsb' 4 5 == 0#5)
        (src1 x.va fun a => .rot h x.vd a (x.vc.extractLsb' 0 4))
    | 46 => chkO (ne && z x.vb && z x.vc) (src1 x.va (.hadd h x.vd))
    | 47 => chkO (ne && z x.vb && z x.vc) (src1 x.va (.hmax h x.vd))
    | 48 => match cvtOf x.vc with
        | none => chkO (ne && !x.vc.getLsbD 8) none
        | some op => chkO (ne && !x.vc.getLsbD 8 && (op.rounds || x.vc.extractLsb' 6 2 == 0#2) &&
            (op.inserts || z x.vb)) (src2 x.va x.vb (.cvt h op x.vd))
    | 50 => chkO (ne && z x.vc) (src2 x.va x.vb (.bpack h x.vd))
    | 51 => chkO (ne && z x.vb && z x.vc) (src1 x.va (.bunpack h x.vd))
    | 52 => chkO (ne && mZero x.vd && mZero x.va && mZero x.vb && z x.vc)
        (some (.mand h (mNum x.vd) (mNum x.va) (mNum x.vb)))
    | 53 => chkO (ne && mZero x.vd && mZero x.va && mZero x.vb && z x.vc)
        (some (.mor h (mNum x.vd) (mNum x.va) (mNum x.vb)))
    | 54 => chkO (ne && mZero x.vd && mZero x.va && mZero x.vb && z x.vc)
        (some (.mxor h (mNum x.vd) (mNum x.va) (mNum x.vb)))
    | 55 => chkO (ne && mZero x.vd && mZero x.va && z x.vb && z x.vc) (some (.mnot h (mNum x.vd) (mNum x.va)))
    | 56 =>
      if x.vc.getLsbD 8 then
        chkO (ne && mZero x.vd && x.vc.extractLsb' 0 8 == 0#8 && z x.vb)
          ((scalarOf x.va).map fun s => .msetScalar h (mNum x.vd) s)
      else
        chkO (ne && mZero x.vd && x.vc.extractLsb' 5 3 == 0#3 && z x.va && z x.vb)
          (some (.mset h (mNum x.vd) (x.vc.extractLsb' 0 5)))
    | _ => .error .illegal

/-- The VX map (R127, R186, R187). -/
def decVx (cl : Cl) (x : VWord) : OpRes :=
  let h : VHead := ⟨cl, x.msk⟩
  let ne := !x.e
  let rm := rmOf (x.vc.extractLsb' 0 2)
  let u1 := ne && x.vc.extractLsb' 2 7 == 0#7
  let z := fun (f : BitVec 9) => f == 0#9
  match x.opc.toNat with
  | 0 => chkO (ne && x.msk == 0#3 && z x.vd && z x.va && z x.vb && z x.vc) (some (.nop .vx))
  | 1 => chkO (u1 && z x.vb) (src1 x.va (.rcp h rm x.vd))
  | 2 => chkO (u1 && z x.vb) (src1 x.va (.rsq h rm x.vd))
  | 3 => chkO (u1 && z x.vb) (src1 x.va (.sqrt h rm x.vd))
  | 4 => chkO u1 (src2 x.va x.vb (.div h rm x.vd))
  | 5 => chkO (u1 && z x.vb) (src1 x.va (.exp2 h rm x.vd))
  | 6 => chkO (u1 && z x.vb) (src1 x.va (.log2 h rm x.vd))
  | 8 => chkO (ne && z x.vb && x.vc.extractLsb' 3 6 == 0#6) (some (.xmov h x.vd x.va (x.vc.extractLsb' 0 3)))
  | 9 => chkO (ne && z x.vb && x.vc.extractLsb' 7 2 == 0#2)
      (some (.xbc h x.vd x.va (x.vc.extractLsb' 0 3) (x.vc.extractLsb' 3 4)))
  | _ => .error .illegal

/-- The VM map (R127, R188). -/
def decVm (cl : Cl) (x : VWord) : OpRes :=
  let h : VHead := ⟨cl, x.msk⟩
  let ne := !x.e
  let z := fun (f : BitVec 9) => f == 0#9
  let k1 := fun (f : SReg → Instr) => (scalarOf x.va).map f
  let k2 := fun (f : SReg → SReg → Instr) => (scalarOf x.va).bind fun a => (scalarOf x.vb).map fun b => f a b
  match x.opc.toNat with
  | 0 => chkO (ne && x.msk == 0#3 && z x.vd && z x.va && z x.vb && z x.vc) (some (.nop .vm))
  | 1 => chkO (ne && z x.vb) (k1 fun k => .vld h x.vd k x.vc)
  | 2 => chkO (ne && z x.vb) (k1 fun k => .vst h x.vd k x.vc)
  | 3 => chkO ne (k2 fun k j => .vlds h x.vd k j x.vc)
  | 4 => chkO ne (k2 fun k j => .vsts h x.vd k j x.vc)
  | 5 => chkO ne (k1 fun k => .vldx h x.vd k x.vb x.vc)
  | 6 => chkO ne (k1 fun k => .vstx h x.vd k x.vb x.vc)
  | 7 => chkO (ne && z x.vb) (k1 fun k => .vlda h x.vd k x.vc)
  | 8 => chkO (ne && z x.vb) (k1 fun k => .vsta h x.vd k x.vc)
  | _ => .error .illegal

/-! ### Format S -/

/-- NOP: opcode 0x00 with all other fields zero (R123). -/
def decNop (m : OpMap) (x : SWord) : OpRes :=
  chkO (!x.n && x.pred == 0#4 && !x.e && x.d == 0#6 && x.a == 0#6 && x.b == 0#6 && x.imm == 0#16) (some (.nop m))

/-- The S map (R128, R143 to R148). -/
def decS (x : SWord) : OpRes :=
  let g := x.g
  let ne := !x.e
  let iz := x.imm == 0#16
  let az := x.a == 0#6
  let bz := x.b == 0#6
  let rrr := fun (f : Guard → SReg → SReg → SReg → Instr) => chkO (ne && iz) (some (f g x.d x.a x.b))
  let shi := fun (f : Guard → SReg → SReg → BitVec 6 → Instr) =>
    chkO (ne && bz && x.imm.extractLsb' 6 10 == 0#10) (some (f g x.d x.a (x.imm.extractLsb' 0 6)))
  let ppp := fun (f : Guard → PReg → PReg → PReg → Bool → Bool → Instr) =>
    chkO (ne && x.imm.extractLsb' 2 14 == 0#14) ((pNum x.d).bind fun d => (pNum x.a).bind fun a =>
      (pNum x.b).map fun b => f g d a b (x.imm.getLsbD 0) (x.imm.getLsbD 1))
  match x.opc.toNat with
  | 0x00 => decNop .s x
  | 0x01 => rrr .add
  | 0x02 => rrr .sub
  | 0x03 => chkO (ne && bz) (some (.addi g x.d x.a x.imm))
  | 0x04 => rrr .mul
  | 0x05 => rrr .mulhu
  | 0x06 => rrr .mulhs
  | 0x07 => chkO (ne && x.imm.extractLsb' 1 15 == 0#15)
      (some (if x.imm.getLsbD 0 then .divuRem g x.d x.a x.b else .divu g x.d x.a x.b))
  | 0x08 => chkO (ne && x.imm.extractLsb' 1 15 == 0#15)
      (some (if x.imm.getLsbD 0 then .divsRem g x.d x.a x.b else .divs g x.d x.a x.b))
  | 0x09 => rrr .and
  | 0x0A => rrr .or
  | 0x0B => rrr .xor
  | 0x0C => rrr .andn
  | 0x0D => rrr .shl
  | 0x0E => rrr .shr
  | 0x0F => rrr .sar
  | 0x10 => shi .shli
  | 0x11 => shi .shri
  | 0x12 => shi .sari
  | 0x13 => rrr .min
  | 0x14 => rrr .max
  | 0x15 => rrr .minu
  | 0x16 => rrr .maxu
  | 0x17 => chkO (ne && iz && bz) (some (.clz g x.d x.a))
  | 0x18 => chkO (ne && iz && bz) (some (.popc g x.d x.a))
  | 0x19 => chkO (ne && az && bz) (some (.movi g x.d x.imm))
  | 0x1A => chkO ne (if x.b.toNat ≤ 3 then some (.movhi g x.d x.a x.imm (x.b.setWidth 2)) else none)
  | 0x1B => chkO (ne && x.imm.extractLsb' 4 12 == 0#12) ((scondOf (x.imm.extractLsb' 0 4)).bind fun cc =>
      (pNum x.d).map fun d => .cmp g cc d x.a x.b)
  | 0x1C => chkO (ne && x.b.extractLsb' 4 2 == 0#2) ((scondOf (x.b.extractLsb' 0 4)).bind fun cc =>
      (pNum x.d).map fun d => .cmpi g cc d x.a x.imm)
  | 0x1D => chkO (ne && x.imm.extractLsb' 4 12 == 0#12) (some (.sel g x.d x.a x.b (x.imm.extractLsb' 0 4)))
  | 0x1E => ppp .pand
  | 0x1F => ppp .por
  | 0x20 => ppp .pxor
  | 0x21 => chkO (ne && iz) ((aNum x.d).bind fun d => (aNum x.a).map fun a => .aadd g d a x.b)
  | 0x22 => chkO (ne && bz) ((aNum x.d).bind fun d => (aNum x.a).map fun a => .aaddi g d a x.imm)
  | 0x23 =>
    if x.imm.getLsbD 15 then
      chkO (ne && az) ((aNum x.d).map fun d => .aleaSeg g d x.b (x.imm.extractLsb' 0 15))
    else
      chkO (ne && x.imm.extractLsb' 3 13 == 0#13) ((aNum x.d).bind fun d => (aNum x.a).map fun a =>
        .alea g d a x.b (x.imm.extractLsb' 0 3))
  | 0x24 => chkO (ne && iz && bz) ((aNum x.d).map fun d => .amov g d x.a)
  | 0x25 => chkO (ne && iz && bz) ((aNum x.a).map fun a => .smova g x.d a)
  | _ => .error .illegal

/-- The SY map (R130, R149 to R166). -/
def decSy (x : SWord) : OpRes :=
  let g := x.g
  let ne := !x.e
  let iz := x.imm == 0#16
  let dz := x.d == 0#6
  let az := x.a == 0#6
  let bz := x.b == 0#6
  let len := if x.imm.toNat < 64 then some (x.imm.extractLsb' 0 6) else none
  let num := if x.imm.toNat < 16 then some (x.imm.extractLsb' 0 4) else none
  match x.opc.toNat with
  | 0x00 => decNop .sy x
  | 0x01 => chkO (ne && dz && az && bz) (some (.br g x.imm))
  | 0x02 => chkO (ne && az && bz) (some (.brc g x.d x.imm))
  | 0x03 => chkO (ne && dz && bz && iz) (some (.jmp g x.a))
  | 0x04 => chkO (ne && az) ((aNum x.d).map fun d => .call g d x.b x.imm)
  | 0x05 => chkO (ne && iz) ((aNum x.d).map fun d => .calli g d x.a x.b)
  | 0x06 => chkO (ne && dz && iz) ((aNum x.a).map fun a => .ret g a x.b)
  | 0x07 => chkO (ne && dz) ((nNum x.a).bind fun k => len.bind fun l =>
      if x.b.toNat < 8 then some (.loop g k (x.b.setWidth 3) l) else none)
  | 0x08 => chkO (ne && dz && bz) (len.map fun l => .loopx g x.a l)
  | 0x09 => chkO (ne && dz && az && bz && x.imm.extractLsb' 8 8 == 0#8) (some (.setfmt g (x.imm.extractLsb' 0 8)))
  | 0x0A => chkO (ne && dz && bz) ((scopeOf x.a).map fun sc => .fence g sc x.imm)
  | 0x0B => chkO (ne && dz && az && bz && iz) (some (.xfence g))
  | 0x0C => chkO (ne && dz && az && bz && iz) (some (.ifence g))
  | 0x0D => chkO (ne && dz && bz && iz) ((scopeOf x.a).map fun sc => .bar g sc)
  | 0x0E => chkO (ne && dz && bz) (if x.a.toNat ≤ 3 then some (.setf g (x.a.setWidth 2) x.imm) else none)
  | 0x0F => chkO (ne && dz && bz) (if x.a.toNat ≤ 3 then some (.clrf g (x.a.setWidth 2) x.imm) else none)
  | 0x10 => chkO (ne && dz && bz && iz) (some (.waitgcc g x.a))
  | 0x11 => chkO (ne && az && bz) (num.map fun n => .rdsys g x.d n)
  | 0x12 => chkO (ne && dz && bz) (num.map fun n => .wrsys g n x.a)
  | 0x13 => chkO (ne && dz && az && bz) (some (.trap g x.imm))
  | 0x14 => chkO (ne && dz && az && bz) (some (.brk g x.imm))
  | 0x15 => chkO (ne && dz && az && bz && iz) (some (.halt g))
  | 0x16 =>
    if x.b = 0#6 then chkO (ne && iz) ((wNum x.a).map fun k => .unit g x.d k)
    else if x.b = 1#6 then chkO (ne && dz && iz) (some (.unitS g x.a))
    else chkO (ne && iz) none
  | _ => .error .illegal

/-- The fields of a push (R211). -/
def pushArgs (x : SWord) (a : AReg) : PushArgs :=
  ⟨x.d.extractLsb' 0 3, x.d.extractLsb' 3 3, a, x.imm.extractLsb' 0 12, x.imm.extractLsb' 12 4⟩

/-- The fields of a global vector store and its extension word (R213). -/
def stgArgs (x : SWord) (ext : Word) (a : AReg) : StgArgs :=
  ⟨a, x.imm.extractLsb' 12 4, ext.extractLsb' 0 9, ext.extractLsb' 9 3, ext.extractLsb' 12 3⟩

/-- The fields of AMO and CAS (R216). -/
def amoArgs (x : SWord) (ext : Word) (a : AReg) (sc : Scope) : AmoArgs :=
  ⟨x.d, a, x.b, ordOf (ext.extractLsb' 4 2), sc, x.imm⟩

/-- With ORD 0, SCOPE and the mask are unused (R216). -/
def amoUnused (x : SWord) (ext : Word) : Bool :=
  ext.extractLsb' 4 2 != 0#2 || (ext.extractLsb' 6 6 == 0#6 && x.imm == 0#16)

/-- The kinds of AMO (R216). -/
def amoKind (g : Guard) (k : BitVec 4) (p : AmoArgs) : Option Instr :=
  match k.toNat with
  | 0 => some (.amoAdd g p) | 1 => some (.amoFadd g p) | 2 => some (.amoMin g p) | 3 => some (.amoMax g p)
  | 4 => some (.amoMinu g p) | 5 => some (.amoMaxu g p) | 6 => some (.amoAnd g p) | 7 => some (.amoOr g p)
  | 8 => some (.amoXor g p) | 9 => some (.amoXchg g p) | _ => none

/-- An op that needs an extension word and has E clear is illegal, but an unused field of its word that is nonzero still
makes the bundle illegal (R121, R122). `r` is what the word gives with its extension word, zero where there is none. -/
def needExt (x : SWord) (r : OpRes) : OpRes :=
  if x.e then r else
    match r with
    | .error .unused => .error .unused
    | _ => .error .illegal

/-- The AQ map (R129, R211 to R219). An op that needs an extension word and has E clear is illegal (R121). -/
def decAq (x : SWord) (ext : Word) : OpRes :=
  let g := x.g
  let ne := !x.e
  let iz := x.imm == 0#16
  let dz := x.d == 0#6
  let bz := x.b == 0#6
  let loc := x.imm.getLsbD 12
  let sx := x.imm.getLsbD 13
  let z := sizeOf2 (x.imm.extractLsb' 14 2)
  let off := x.imm.extractLsb' 0 12
  match x.opc.toNat with
  | 0x00 => decNop .aq x
  | 0x01 => chkO (ne && bz) ((aNum x.a).map fun a => .pushld g (pushArgs x a))
  | 0x02 => chkO ne ((aNum x.a).map fun a => .pushlds g (pushArgs x a) x.b)
  | 0x03 => chkO ne ((aNum x.a).map fun a => .pushldx g (pushArgs x a) x.b)
  | 0x04 => needExt x (chkO (dz && bz && x.imm.extractLsb' 0 12 == 0#12 && ext.extractLsb' 15 17 == 0#17)
      ((aNum x.a).map fun a => .stg g (stgArgs x ext a)))
  | 0x05 => needExt x (chkO (dz && x.imm.extractLsb' 0 12 == 0#12 && ext.extractLsb' 15 17 == 0#17)
      ((aNum x.a).map fun a => .stgs g (stgArgs x ext a) x.b))
  | 0x06 => needExt x (chkO (dz && bz && x.imm.extractLsb' 0 12 == 0#12 && !ext.getLsbD 15 &&
      ext.extractLsb' 25 7 == 0#7) ((aNum x.a).map fun a => .stgx g (stgArgs x ext a) (ext.extractLsb' 16 9)))
  | 0x08 => chkO (ne && x.b.extractLsb' 4 2 == 0#2) ((aNum x.a).map fun a =>
      if loc then .ldsL g x.d a (x.b.extractLsb' 0 4) off sx z else .lds g x.d a (x.b.extractLsb' 0 4) off sx z)
  | 0x09 => chkO (ne && !sx && x.d.extractLsb' 4 2 == 0#2) ((aNum x.a).map fun a =>
      if loc then .stsL g a x.b (x.d.extractLsb' 0 4) off z else .sts g a x.b (x.d.extractLsb' 0 4) off z)
  | 0x0A => chkO ne ((aNum x.a).bind fun a => (scopeOf x.b).map fun sc => .ldacq g x.d a sc x.imm)
  | 0x0B => chkO ne ((aNum x.a).bind fun a => (scopeOf x.d).map fun sc => .strel g a x.b sc x.imm)
  | 0x0C => if !x.e then .error .illegal else chkO (ext.extractLsb' 12 20 == 0#20 && amoUnused x ext)
      ((aNum x.a).bind fun a =>
        (scopeOf (ext.extractLsb' 6 6)).bind fun sc => amoKind g (ext.extractLsb' 0 4) (amoArgs x ext a sc))
  | 0x0D => if !x.e then .error .illegal else
      chkO (ext.extractLsb' 0 4 == 0#4 && ext.extractLsb' 18 14 == 0#14 && amoUnused x ext)
        ((aNum x.a).bind fun a => (scopeOf (ext.extractLsb' 6 6)).map fun sc =>
          .cas g (amoArgs x ext a sc) (ext.extractLsb' 12 6))
  | 0x0E => chkO (ne && bz && iz) ((aNum x.a).map fun a => .tlook g x.d a)
  | 0x0F => chkO (ne && dz && x.imm.extractLsb' 3 13 == 0#13) ((aNum x.a).map fun a =>
      .tset g a x.b (x.imm.extractLsb' 0 3))
  | 0x10 => chkO (ne && dz && bz && iz) (some (.tclr g x.a))
  | 0x11 => chkO (ne && dz && x.a == 0#6 && bz && iz) (some (.nxu g))
  | _ => .error .illegal

/-- The fields MMA and MMAG share (R200); MODE 3 is illegal. -/
def mmaArgs (x : SWord) (ext : Word) : Option MmaArgs :=
  let mk := fun (m : AccMode) => some (⟨x.imm.extractLsb' 8 2, x.imm.extractLsb' 0 8, m, ext.extractLsb' 0 11,
    ext.getLsbD 11, ext.extractLsb' 12 4, ⟨ext.extractLsb' 16 6, ext.getLsbD 22⟩,
    ⟨ext.extractLsb' 23 6, ext.getLsbD 29⟩⟩ : MmaArgs)
  match (x.imm.extractLsb' 10 2).toNat with
  | 0 => mk .dflt | 1 => mk .ovw | 2 => mk .add | _ => none

/-- The fields ACCZ, ACCWR and ACCRD share (R205). -/
def rowArgs (x : SWord) : RowArgs :=
  ⟨x.d, x.b, ⟨x.imm.extractLsb' 3 6, x.imm.getLsbD 9⟩, x.imm.extractLsb' 10 4⟩

/-- The MX map (R131, R200 to R207). -/
def decMx (x : SWord) (ext : Word) : OpRes :=
  let g := x.g
  let ne := !x.e
  let ihi := x.imm.extractLsb' 12 4 == 0#4
  let ehi := ext.extractLsb' 30 2 == 0#2
  let lf : FlagRef := ⟨x.imm.extractLsb' 2 6, x.imm.getLsbD 8⟩
  match x.opc.toNat with
  | 0x00 => decNop .mx x
  | 0x01 => needExt x (chkO (x.d == 0#6 && ihi && ehi) ((mmaArgs x ext).map fun m => .mma g x.a x.b m))
  | 0x02 => needExt x (chkO (ihi && ehi) ((mmaArgs x ext).map fun m => .mmag g x.d x.b x.a m))
  | 0x03 => chkO (ne && x.d == 0#6 && x.imm.extractLsb' 13 3 == 0#3)
      (some (.latch g x.a x.b (x.imm.extractLsb' 0 2) lf (x.imm.extractLsb' 9 4)))
  | 0x04 => chkO (ne && x.d == 0#6 && !x.imm.getLsbD 15) (match (x.imm.extractLsb' 13 2).toNat with
      | 0 => some (.latcht g x.a x.b (x.imm.extractLsb' 0 2) lf (x.imm.extractLsb' 9 4) .w1)
      | 1 => some (.latcht g x.a x.b (x.imm.extractLsb' 0 2) lf (x.imm.extractLsb' 9 4) .w2)
      | 2 => some (.latcht g x.a x.b (x.imm.extractLsb' 0 2) lf (x.imm.extractLsb' 9 4) .w4)
      | _ => none)
  | 0x05 => chkO (ne && x.a == 0#6 && x.imm.extractLsb' 0 3 == 0#3 && x.imm.extractLsb' 14 2 == 0#2)
      (some (.accz g (rowArgs x)))
  | 0x06 => chkO (ne && x.imm.extractLsb' 14 2 == 0#2) (match (x.imm.extractLsb' 0 3).toNat with
      | 0 => some (.accrd g x.a (rowArgs x) .f32)
      | 1 => some (.accrd g x.a (rowArgs x) .half)
      | 2 => some (.accrd g x.a (rowArgs x) .l16)
      | 3 => some (.accrd g x.a (rowArgs x) .l8)
      | 4 => some (.accrd g x.a (rowArgs x) .i32)
      | _ => none)
  | 0x07 => chkO (ne && x.imm.extractLsb' 1 2 == 0#2 && x.imm.extractLsb' 14 2 == 0#2)
      (some (.accwr g x.a (rowArgs x) (x.imm.getLsbD 0)))
  | _ => .error .illegal

/-- The fields the copy commands share (R221). -/
def cpyArgs (x : SWord) (s d : AReg) : CpyArgs :=
  ⟨x.d.extractLsb' 0 3, s, d, x.imm.extractLsb' 0 4, ⟨x.imm.extractLsb' 4 6, x.imm.getLsbD 10⟩,
    x.imm.extractLsb' 11 4⟩

/-- The CP map (R131, R220 to R232). -/
def decCp (x : SWord) (ext : Word) : OpRes :=
  let g := x.g
  let ne := !x.e
  let dz := x.d == 0#6
  let az := x.a == 0#6
  let bz := x.b == 0#6
  let chOnly := x.imm.extractLsb' 4 12 == 0#12
  let ch : Chan := x.imm.extractLsb' 0 4
  let cz := x.d.extractLsb' 3 3 == 0#3 && !x.imm.getLsbD 15
  let sd := fun (k : CpyArgs → Instr) => (aNum x.a).bind fun s => (aNum x.b).map fun d => k (cpyArgs x s d)
  match x.opc.toNat with
  | 0x00 => decNop .cp x
  | 0x01 => chkO (ne && az && bz && x.imm.extractLsb' 12 4 == 0#4) ((nNum x.d).map fun d =>
      .nestld g d (x.imm.extractLsb' 9 3) (x.imm.extractLsb' 0 9))
  | 0x02 => chkO (ne && cz) (sd fun p => .cpy g p)
  | 0x03 => needExt x (chkO (cz && ext.extractLsb' 6 26 == 0#26) (sd fun p => .cpyt g p (ext.extractLsb' 0 6)))
  | 0x04 => needExt x (chkO (cz && ext.extractLsb' 15 17 == 0#17) (sd fun p =>
      .cpym g p (ext.extractLsb' 0 6) ⟨ext.extractLsb' 6 6, ext.getLsbD 12⟩ (ext.extractLsb' 13 2)))
  | 0x05 => needExt x (chkO (cz && ext.extractLsb' 4 28 == 0#28) (sd fun p => .cpsend g p (ext.extractLsb' 0 4)))
  | 0x06 => chkO (ne && dz && chOnly) (some (.cparm g ch x.a x.b))
  | 0x07 => chkO (ne && az && bz && x.imm.extractLsb' 5 11 == 0#11)
      (some (if x.imm.getLsbD 4 then .cpstatClr g x.d ch else .cpstat g x.d ch))
  | 0x08 => chkO (ne && dz && bz && x.imm.extractLsb' 11 5 == 0#5) (some (.buse g x.a (x.imm.extractLsb' 0 11)))
  | 0x09 => chkO (ne && dz && bz && x.imm.extractLsb' 11 5 == 0#5) (some (.bfree g x.a (x.imm.extractLsb' 0 11)))
  | 0x0A => chkO (ne && dz && bz && chOnly) ((aNum x.a).map fun a => .launch g a (x.imm.extractLsb' 0 4))
  | 0x0B => chkO (ne && dz && chOnly) ((aNum x.a).map fun a => .relaunch g a x.b (x.imm.extractLsb' 0 4))
  | 0x0C => chkO (ne && dz && x.imm.extractLsb' 2 14 == 0#14) ((aNum x.a).map fun a =>
      .trexcl g a x.b (x.imm.extractLsb' 0 2))
  | _ => .error .illegal

/-- The op word of a slot, in the slot's map (R125). Slots 0 to 5 are S0, S1, AQ, MX, CP, SY and 6 + 4c + j is VA,
VB, VX or VM of cluster c (the positions of R316). `ext` is the op's extension word, zero when E is clear. -/
def decodeOp (slot : Nat) (w : BitVec 48) (ext : Word) : OpRes :=
  match slot with
  | 0 => decS (sFields w)
  | 1 => decS (sFields w)
  | 2 => decAq (sFields w) ext
  | 3 => decMx (sFields w) ext
  | 4 => decCp (sFields w) ext
  | 5 => decSy (sFields w)
  | n + 6 =>
    let cl : Cl := BitVec.ofNat 3 (n / 4)
    match n % 4 with
    | 0 => decVab cl (vFields w) ext
    | 1 => decVab cl (vFields w) ext
    | 2 => decVx cl (vFields w)
    | _ => decVm cl (vFields w)

/-- Whether the op word has its E bit set: bit 34 in format S, bit 36 in format V (R116, R117). -/
def opHasExt (slot : Nat) (w : BitVec 48) : Bool := if slot < 6 then w.getLsbD 34 else w.getLsbD 36

/-! ### Bundles -/

/-- The little-endian number of some bytes (R5). -/
def leNat : List Byte → Nat
  | [] => 0
  | b :: bs => b.toNat + 256 * leNat bs

/-- The first n bytes of a number, least significant first (R5). -/
def leBytes : Nat → Nat → List Byte
  | 0, _ => []
  | n + 1, v => BitVec.ofNat 8 v :: leBytes n (v / 256)

/-- One op of a bundle: its slot, its word and its extension word (R112). -/
structure RawOp where
  slot : Nat
  w : BitVec 48
  ext : Word
  deriving DecidableEq, Repr

/-- A bundle laid out: its options, sync word, ops in mask order, and length in bytes (R112, R113). -/
structure Bundle where
  p : Bool
  y : Bool
  sync : Option Word
  ops : List RawOp
  len : Nat
  deriving DecidableEq, Repr

/-- Why bytes are no bundle: too few of them, or an illegal bundle (R122). -/
inductive BundleErr
  | short
  | illegal
  deriving DecidableEq, Repr

/-- The slots of a header's mask, in mask order from bit 63 downward (R113). -/
def maskSlots (h : BitVec 64) : List Nat := (List.range 38).filter fun i => h.getLsbD (63 - i)

/-- One op word of six bytes for each slot. -/
def takeWords : List Nat → List Byte → List (Nat × BitVec 48)
  | [], _ => []
  | sl :: sls, bs => (sl, BitVec.ofNat 48 (leNat (bs.take 6))) :: takeWords sls (bs.drop 6)

/-- The extension words of the ops whose E bit is set, in the same order as the ops (R112, R121). -/
def takeExts : List (Nat × BitVec 48) → List Byte → List RawOp
  | [], _ => []
  | (sl, w) :: ops, bs =>
    if opHasExt sl w then ⟨sl, w, BitVec.ofNat 32 (leNat (bs.take 4))⟩ :: takeExts ops (bs.drop 4)
    else ⟨sl, w, 0#32⟩ :: takeExts ops bs

/-- The length a bundle has by its header and its op words' E bits (R112); `none` when the bytes end before they
decide it. -/
def bundleLen (bs : List Byte) : Option Nat :=
  if bs.length < 8 then none else
    let h := BitVec.ofNat 64 (leNat (bs.take 8))
    let n := (maskSlots h).length
    let pre := if h.getLsbD 23 then 12 else 8
    if bs.length < pre + 6 * n then none else
      let ws := takeWords (maskSlots h) (bs.drop pre)
      let e := (ws.filter fun x => opHasExt x.1 x.2).length
      some ((pre + 6 * n + 4 * e + 7) / 8 * 8)

/-- A bundle at the head of some bytes (R112 to R115): the layout checks of R122 for header, COUNT, sync word and
padding. -/
def decodeBundle (bs : List Byte) : Except BundleErr Bundle :=
  match bundleLen bs with
  | none => .error .short
  | some len =>
    if bs.length < len then .error .short else
      let h := BitVec.ofNat 64 (leNat (bs.take 8))
      let slots := maskSlots h
      let q := h.getLsbD 23
      let pre := if q then 12 else 8
      let sync := BitVec.ofNat 32 (leNat ((bs.drop 8).take 4))
      let ws := takeWords slots (bs.drop pre)
      let ops := takeExts ws (bs.drop (pre + 6 * slots.length))
      let e := (ws.filter fun x => opHasExt x.1 x.2).length
      let pad := (bs.take len).drop (pre + 6 * slots.length + 4 * e)
      if h.extractLsb' 0 17 ≠ 0#17 then .error .illegal
      else if (h.extractLsb' 17 6).toNat ≠ slots.length then .error .illegal
      else if q && (sync.extractLsb' 0 12 ≠ 0#12 || sync.extractLsb' 14 16 = 0#16) then .error .illegal
      else if pad.any (· ≠ 0#8) then .error .illegal
      else .ok ⟨h.getLsbD 25, h.getLsbD 24, if q then some sync else none, ops, len⟩

/-- A destination register, for the duplicate check of R122. -/
inductive DestReg
  | s (r : SReg)
  | a (r : AReg)
  | p (r : PReg)
  | n (r : NReg)
  | v (cl : Cl) (r : VReg)
  | m (cl : Cl) (r : MReg)
  deriving DecidableEq, Repr

/-- The destinations an instruction names, whether it performs or not (R122, R169, R200, R210). -/
def dests : Instr → List DestReg
  | .fadd h _ _ d _ _ | .fsub h _ _ d _ _ | .fmul h _ _ d _ _ => [.v h.cl d]
  | .fma h _ _ d _ _ _ | .fms h _ _ d _ _ _ | .fnma h _ _ d _ _ _ | .dot2 h _ _ d _ _ _ => [.v h.cl d]
  | .fmin h _ d _ _ | .fmax h _ d _ _ | .fabs h _ d _ | .fneg h _ d _ => [.v h.cl d]
  | .fcmp h _ _ d _ _ | .icmp h _ _ d _ _ | .icmpu h _ _ d _ _ => [.m h.cl d]
  | .iadd h _ _ d _ _ | .isub h _ _ d _ _ => [.v h.cl d]
  | .imul h _ d _ _ | .imulh h _ d _ _ | .imad h _ d _ _ _ | .imin h _ d _ _ | .imax h _ d _ _
  | .iminu h _ d _ _ | .imaxu h _ d _ _ | .vand h _ d _ _ | .vor h _ d _ _ | .vxor h _ d _ _
  | .vandn h _ d _ _ | .vshl h _ d _ _ | .vshr h _ d _ _ | .vsar h _ d _ _ => [.v h.cl d]
  | .lmul h _ d _ _ | .lrcp h _ d _ | .lsqrt h _ d _ => [.v h.cl d]
  | .mov h d _ | .vmovi h d _ | .vsel h d _ _ _ | .shuf h d _ _ | .rot h d _ _ | .hadd h d _ | .hmax h d _
  | .cvt h _ d _ _ | .bpack h d _ _ | .bunpack h d _ => [.v h.cl d]
  | .mand h d _ _ | .mor h d _ _ | .mxor h d _ _ | .mnot h d _ | .mset h d _ | .msetScalar h d _ => [.m h.cl d]
  | .rcp h _ d _ | .rsq h _ d _ | .sqrt h _ d _ | .div h _ d _ _ | .exp2 h _ d _ | .log2 h _ d _
  | .xmov h d _ _ | .xbc h d _ _ _ => [.v h.cl d]
  | .vld h d _ _ | .vlds h d _ _ _ | .vldx h d _ _ _ | .vlda h d _ _ => [.v h.cl d]
  | .add _ d _ _ | .sub _ d _ _ | .addi _ d _ _ | .mul _ d _ _ | .mulhu _ d _ _ | .mulhs _ d _ _
  | .divu _ d _ _ | .divuRem _ d _ _ | .divs _ d _ _ | .divsRem _ d _ _ | .and _ d _ _ | .or _ d _ _
  | .xor _ d _ _ | .andn _ d _ _ | .shl _ d _ _ | .shr _ d _ _ | .sar _ d _ _ | .shli _ d _ _ | .shri _ d _ _
  | .sari _ d _ _ | .min _ d _ _ | .max _ d _ _ | .minu _ d _ _ | .maxu _ d _ _ | .clz _ d _ | .popc _ d _
  | .movi _ d _ | .movhi _ d _ _ _ | .sel _ d _ _ _ | .smova _ d _ | .brc _ d _ | .rdsys _ d _ | .unit _ d _
  | .lds _ d _ _ _ _ _ | .ldsL _ d _ _ _ _ _ | .ldacq _ d _ _ _ | .tlook _ d _ | .cpstat _ d _
  | .cpstatClr _ d _ => [.s d]
  | .amoAdd _ p | .amoFadd _ p | .amoMin _ p | .amoMax _ p | .amoMinu _ p | .amoMaxu _ p | .amoAnd _ p
  | .amoOr _ p | .amoXor _ p | .amoXchg _ p | .cas _ p _ => [.s p.d]
  | .cmp _ _ d _ _ | .cmpi _ _ d _ _ | .pand _ d _ _ _ _ | .por _ d _ _ _ _ | .pxor _ d _ _ _ _ => [.p d]
  | .aadd _ d _ _ | .aaddi _ d _ _ | .alea _ d _ _ _ | .aleaSeg _ d _ _ | .amov _ d _ | .call _ d _ _
  | .calli _ d _ _ => [.a d]
  | .nestld _ d _ _ => [.n d]
  | _ => []

/-- s0 and p0 are exempt from the duplicate check (R122). -/
def DestReg.exempt : DestReg → Bool
  | .s r => r == 0#6
  | .p r => r == 0#4
  | _ => false

/-- Whether a list of destinations names one twice. -/
def dupDest : List DestReg → Bool
  | [] => false
  | d :: ds => (!d.exempt && ds.contains d) || dupDest ds

/-- A decoded bundle: for each op its slot and its instruction, or `none` for an illegal operation (R122). -/
structure Decoded where
  p : Bool
  y : Bool
  sync : Option Word
  ops : List (Nat × Option Instr)
  len : Nat
  deriving DecidableEq, Repr

/-- The fields of an op that say nothing about which register its field D names: a type in format V, its E bit, and the codes
of its sources VA and VB. -/
structure PlainFields where
  ty : BitVec 2 := 0
  e : Bool := false
  va : BitVec 9 := 0
  vb : BitVec 9 := 0
  deriving DecidableEq, Repr

/-- Fields under some of which each instruction that has a destination is legal: every type, with and without extension word;
and the scalar-only sources of VLD, VLDS, VLDX and VLDA. -/
def plainFields : List PlainFields :=
  (([0, 1, 2, 3] : List (BitVec 2)).flatMap fun t => [{ ty := t }, { ty := t, e := true }]) ++
    [{ va := 384 }, { va := 384, vb := 384 }]

/-- An op's word with opcode, lane mask, guard and destination kept and every other field plain; `d` is the destination of a
format-V op. -/
def plainWord (slot : Nat) (w : BitVec 48) (d : BitVec 9) (f : PlainFields) : BitVec 48 :=
  if slot < 6 then let x := sFields w; sBits ⟨x.opc, x.n, x.pred, f.e, x.d, 0, 0, 0⟩
  else
    let x := vFields w
    let opc := if (slot - 6) % 4 < 2 then x.opc.extractLsb' 2 6 ++ f.ty else x.opc
    vBits ⟨opc, x.msk, f.e, d, f.va, f.vb, 0⟩

/-- The destinations of the plain forms of an op with a given destination field. -/
def plainDests (o : RawOp) (d : BitVec 9) : Option (List DestReg) :=
  plainFields.findSome? fun f => match decodeOp o.slot (plainWord o.slot o.w d f) 0 with
    | .ok i => some (dests i)
    | .error _ => none

/-- The destinations an op names (R122, R210). DEDUCED (log 45): an op that is illegal only in its other fields or in its
type names the destination its field D names; m0, which no op may write, is named like any other lane mask. -/
def rawDests (o : RawOp) : List DestReg :=
  match decodeOp o.slot o.w o.ext with
  | .ok i => dests i
  | .error _ =>
    let d := (vFields o.w).vd
    match plainDests o d with
    | some ds => ds
    | none =>
      if 6 ≤ o.slot && d == 0 then ((plainDests o 1).getD []).filterMap fun r => match r with | .m cl _ => some (.m cl 0) | _ => none
      else []

/-- The result of decoding one op of a bundle, `none` inside for an illegal operation; an unused field that is not
zero makes the whole bundle illegal. -/
def decodeRaw (o : RawOp) : Option (Nat × Option Instr) :=
  match decodeOp o.slot o.w o.ext with
  | .ok i => some (o.slot, some i)
  | .error .illegal => some (o.slot, none)
  | .error .unused => none

/-- The decoder of R122: the bundle and its ops; any illegal-bundle condition comes before every illegal
operation. -/
def decode (bs : List Byte) : Except BundleErr Decoded :=
  match decodeBundle bs with
  | .error e => .error e
  | .ok b =>
    match b.ops.mapM decodeRaw with
    | none => .error .illegal
    | some ops =>
      if dupDest (b.ops.flatMap rawDests) then .error .illegal
      else .ok ⟨b.p, b.y, b.sync, ops, b.len⟩

/-- The one instruction of a bundle that holds exactly one op, no sync word and no options. -/
def soleInstr (b : Decoded) : Option Instr :=
  match b.ops with
  | [(_, some i)] => some i
  | _ => none

/-- The instruction the decoder reads from an instruction whose bits are w: the words of a whole bundle (R112), laid
out little-endian from its header on, with `nbits` bits given and zero bytes after them. The opcode table gives its
rows no bits; an op word is an instruction only inside a bundle. -/
def decodeTableWord (nbits w : Nat) : Option Instr :=
  match decode (leBytes (max 400 (nbits / 8)) w) with
  | .ok b => soleInstr b
  | .error _ => none

/-! ### The encoder -/

/-- A format-S word and its extension word, if any. -/
def sw (opc : Nat) (g : Guard) (d a b : BitVec 6) (imm : BitVec 16) (ext : Option Word := none) :
    BitVec 48 × Option Word :=
  (sBits ⟨BitVec.ofNat 8 opc, g.neg, g.pred, ext.isSome, d, a, b, imm⟩, ext)

/-- A format-V word. -/
def vw (opc : Nat) (h : VHead) (vd va vb vc : BitVec 9) (ext : Option Word := none) : BitVec 48 × Option Word :=
  (vBits ⟨BitVec.ofNat 8 opc, h.msk, ext.isSome, vd, va, vb, vc⟩, ext)

/-- The opcode of the VA/VB map (R126): 4·(n + 1) + t, here with n + 1. -/
def vop (n : Nat) (t : BitVec 2) : Nat := 4 * n + t.toNat

/-- A mask number in a 9-bit field. -/
def mf (m : MReg) : BitVec 9 := m.setWidth 9

/-- The extension word of FMA, FMS, FNMA and DOT2 (R170). -/
def rmWord (rm : Option Rm) : Option Word := rm.map fun r => (rmCode r).setWidth 32

/-- A flag and its valid bit, flag first (R200, R205). -/
def flagBits (f : FlagRef) : BitVec 7 := BitVec.ofBool f.v ++ f.f

/-- IMM16 of LDS and STS (R214). -/
def ldsImm (z : Size) (sx loc : Bool) (off : BitVec 12) : BitVec 16 :=
  sizeCode z ++ BitVec.ofBool sx ++ BitVec.ofBool loc ++ off

/-- The extension word of STG, STGS and STGX (R213). -/
def stgExt (p : StgArgs) (x : VReg) : Word := 0#7 ++ x ++ 0#1 ++ p.msk ++ p.cl ++ p.data

/-- The extension word of AMO and CAS (R216). -/
def amoExt (p : AmoArgs) (kind : BitVec 4) (nw : SReg) : Word :=
  0#14 ++ nw ++ scopeCode p.scope ++ ordCode p.ord ++ kind

/-- MODE of an MMA (R200). -/
def modeCode : AccMode → BitVec 2
  | .dflt => 0 | .ovw => 1 | .add => 2

/-- IMM16 of MMA and MMAG (R200). -/
def mmaImm (m : MmaArgs) : BitVec 16 := 0#4 ++ modeCode m.mode ++ m.latch ++ m.nb

/-- The extension word of MMA and MMAG (R200). -/
def mmaExt (m : MmaArgs) : Word :=
  0#2 ++ flagBits m.cons ++ flagBits m.done ++ m.cls ++ BitVec.ofBool m.colh ++ m.row

/-- IMM16 of LATCH and LATCHT (R204). -/
def latchImm (w : BitVec 2) (l : LReg) (f : FlagRef) (cls : BitVec 4) : BitVec 16 :=
  0#1 ++ w ++ cls ++ flagBits f ++ l

/-- IMM16 of ACCZ, ACCWR and ACCRD (R205). -/
def rowImm (r : RowArgs) (lo : BitVec 3) : BitVec 16 := 0#2 ++ r.cls ++ flagBits r.done ++ lo

/-- IMM16 of the copy commands (R221). -/
def cpyImm (p : CpyArgs) : BitVec 16 := 0#1 ++ p.cls ++ flagBits p.done ++ p.ch

/-- A copy command's word (R221). -/
def cpyw (opc : Nat) (g : Guard) (p : CpyArgs) (ext : Option Word) : BitVec 48 × Option Word :=
  sw opc g (p.nest.setWidth 6) (p.src.setWidth 6) (p.dst.setWidth 6) (cpyImm p) ext

/-- A push's word (R211). -/
def pushw (opc : Nat) (g : Guard) (p : PushArgs) (b : SReg) : BitVec 48 × Option Word :=
  sw opc g (p.n ++ p.cl) (p.a.setWidth 6) b (p.cls ++ p.land)

/-- A global vector store's word (R213). -/
def stgw (opc : Nat) (g : Guard) (p : StgArgs) (b : SReg) (x : VReg) : BitVec 48 × Option Word :=
  sw opc g 0#6 (p.a.setWidth 6) b (p.cls ++ 0#12) (some (stgExt p x))

/-- An AMO's word (R216). -/
def amow (g : Guard) (p : AmoArgs) (kind : BitVec 4) : BitVec 48 × Option Word :=
  sw 0x0C g p.d (p.a.setWidth 6) p.b p.nmask (some (amoExt p kind 0#6))

/-- A predicate op's word (R147). -/
def predw (opc : Nat) (g : Guard) (d a b : PReg) (ia ib : Bool) : BitVec 48 × Option Word :=
  sw opc g (d.setWidth 6) (a.setWidth 6) (b.setWidth 6) (0#14 ++ BitVec.ofBool ib ++ BitVec.ofBool ia)

/-- The op word and extension word of an operation; an event has none. -/
def encode : Instr → Option (BitVec 48 × Option Word)
  | .nop .s | .nop .aq | .nop .mx | .nop .cp | .nop .sy | .nop .vab | .nop .vx | .nop .vm => some (0#48, none)
  | .fadd h t rm d a b => some (vw (vop 1 (ftyCode t)) h d (srcCode a) (srcCode b) ((rmCode rm).setWidth 9))
  | .fsub h t rm d a b => some (vw (vop 2 (ftyCode t)) h d (srcCode a) (srcCode b) ((rmCode rm).setWidth 9))
  | .fmul h t rm d a b => some (vw (vop 3 (ftyCode t)) h d (srcCode a) (srcCode b) ((rmCode rm).setWidth 9))
  | .fma h t rm d a b c => some (vw (vop 4 (ftyCode t)) h d (srcCode a) (srcCode b) (srcCode c) (rmWord rm))
  | .fms h t rm d a b c => some (vw (vop 5 (ftyCode t)) h d (srcCode a) (srcCode b) (srcCode c) (rmWord rm))
  | .fnma h t rm d a b c => some (vw (vop 6 (ftyCode t)) h d (srcCode a) (srcCode b) (srcCode c) (rmWord rm))
  | .fmin h t d a b => some (vw (vop 7 (ftyCode t)) h d (srcCode a) (srcCode b) 0#9)
  | .fmax h t d a b => some (vw (vop 8 (ftyCode t)) h d (srcCode a) (srcCode b) 0#9)
  | .fabs h t d a => some (vw (vop 9 (ftyCode t)) h d (srcCode a) 0#9 0#9)
  | .fneg h t d a => some (vw (vop 10 (ftyCode t)) h d (srcCode a) 0#9 0#9)
  | .fcmp h t cc d a b => some (vw (vop 11 (ftyCode t)) h (mf d) (srcCode a) (srcCode b) ((fcondCode cc).setWidth 9))
  | .dot2 h t rm d a b c => some (vw (vop 12 (htyCode t)) h d (srcCode a) (srcCode b) (srcCode c) (rmWord rm))
  | .iadd h t sa d a b => some (vw (vop 17 (ityCode t)) h d (srcCode a) (srcCode b) ((satCode sa).setWidth 9))
  | .isub h t sa d a b => some (vw (vop 18 (ityCode t)) h d (srcCode a) (srcCode b) ((satCode sa).setWidth 9))
  | .imul h t d a b => some (vw (vop 19 (ityCode t)) h d (srcCode a) (srcCode b) 0#9)
  | .imulh h t d a b => some (vw (vop 20 (ityCode t)) h d (srcCode a) (srcCode b) 0#9)
  | .imad h t d a b c => some (vw (vop 21 (ityCode t)) h d (srcCode a) (srcCode b) (srcCode c))
  | .imin h t d a b => some (vw (vop 22 (ityCode t)) h d (srcCode a) (srcCode b) 0#9)
  | .imax h t d a b => some (vw (vop 23 (ityCode t)) h d (srcCode a) (srcCode b) 0#9)
  | .iminu h t d a b => some (vw (vop 24 (ityCode t)) h d (srcCode a) (srcCode b) 0#9)
  | .imaxu h t d a b => some (vw (vop 25 (ityCode t)) h d (srcCode a) (srcCode b) 0#9)
  | .vand h t d a b => some (vw (vop 26 (ityCode t)) h d (srcCode a) (srcCode b) 0#9)
  | .vor h t d a b => some (vw (vop 27 (ityCode t)) h d (srcCode a) (srcCode b) 0#9)
  | .vxor h t d a b => some (vw (vop 28 (ityCode t)) h d (srcCode a) (srcCode b) 0#9)
  | .vandn h t d a b => some (vw (vop 29 (ityCode t)) h d (srcCode a) (srcCode b) 0#9)
  | .vshl h t d a b => some (vw (vop 30 (ityCode t)) h d (srcCode a) (srcCode b) 0#9)
  | .vshr h t d a b => some (vw (vop 31 (ityCode t)) h d (srcCode a) (srcCode b) 0#9)
  | .vsar h t d a b => some (vw (vop 32 (ityCode t)) h d (srcCode a) (srcCode b) 0#9)
  | .icmp h t cc d a b => some (vw (vop 33 (ityCode t)) h (mf d) (srcCode a) (srcCode b) ((icondCode cc).setWidth 9))
  | .icmpu h t cc d a b => some (vw (vop 34 (ityCode t)) h (mf d) (srcCode a) (srcCode b) ((icondCode cc).setWidth 9))
  | .lmul h t d a b => some (vw (vop 37 (ltyCode t)) h d (srcCode a) (srcCode b) 0#9)
  | .lrcp h t d a => some (vw (vop 38 (ltyCode t)) h d (srcCode a) 0#9 0#9)
  | .lsqrt h t d a => some (vw (vop 39 (ltyCode t)) h d (srcCode a) 0#9 0#9)
  | .mov h d a => some (vw 0xA4 h d (srcCode a) 0#9 0#9)
  | .vmovi h d imm => some (vw 0xA8 h d 0#9 0#9 imm)
  | .vsel h d a b k => some (vw 0xAC h d (srcCode a) (srcCode b) (mf k))
  | .shuf h d a b => some (vw 0xB0 h d (srcCode a) (srcCode b) 0#9)
  | .rot h d a k => some (vw 0xB4 h d (srcCode a) 0#9 (k.setWidth 9))
  | .hadd h d a => some (vw 0xB8 h d (srcCode a) 0#9 0#9)
  | .hmax h d a => some (vw 0xBC h d (srcCode a) 0#9 0#9)
  | .cvt h op d a b => some (vw 0xC0 h d (srcCode a) (srcCode b) (cvtCode op))
  | .bpack h d a b => some (vw 0xC8 h d (srcCode a) (srcCode b) 0#9)
  | .bunpack h d a => some (vw 0xCC h d (srcCode a) 0#9 0#9)
  | .mand h d a b => some (vw 0xD0 h (mf d) (mf a) (mf b) 0#9)
  | .mor h d a b => some (vw 0xD4 h (mf d) (mf a) (mf b) 0#9)
  | .mxor h d a b => some (vw 0xD8 h (mf d) (mf a) (mf b) 0#9)
  | .mnot h d a => some (vw 0xDC h (mf d) (mf a) 0#9 0#9)
  | .mset h d n => some (vw 0xE0 h (mf d) 0#9 0#9 (n.setWidth 9))
  | .msetScalar h d s => some (vw 0xE0 h (mf d) (scalarCode s) 0#9 0x100#9)
  | .rcp h rm d a => some (vw 1 h d (srcCode a) 0#9 ((rmCode rm).setWidth 9))
  | .rsq h rm d a => some (vw 2 h d (srcCode a) 0#9 ((rmCode rm).setWidth 9))
  | .sqrt h rm d a => some (vw 3 h d (srcCode a) 0#9 ((rmCode rm).setWidth 9))
  | .div h rm d a b => some (vw 4 h d (srcCode a) (srcCode b) ((rmCode rm).setWidth 9))
  | .exp2 h rm d a => some (vw 5 h d (srcCode a) 0#9 ((rmCode rm).setWidth 9))
  | .log2 h rm d a => some (vw 6 h d (srcCode a) 0#9 ((rmCode rm).setWidth 9))
  | .xmov h d a n => some (vw 8 h d a 0#9 (n.setWidth 9))
  | .xbc h d a n l => some (vw 9 h d a 0#9 (0#2 ++ l ++ n))
  | .vld h d k off => some (vw 1 h d (scalarCode k) 0#9 off)
  | .vst h d k off => some (vw 2 h d (scalarCode k) 0#9 off)
  | .vlds h d k j off => some (vw 3 h d (scalarCode k) (scalarCode j) off)
  | .vsts h d k j off => some (vw 4 h d (scalarCode k) (scalarCode j) off)
  | .vldx h d k x off => some (vw 5 h d (scalarCode k) x off)
  | .vstx h d k x off => some (vw 6 h d (scalarCode k) x off)
  | .vlda h d k off => some (vw 7 h d (scalarCode k) 0#9 off)
  | .vsta h d k off => some (vw 8 h d (scalarCode k) 0#9 off)
  | .add g d a b => some (sw 0x01 g d a b 0#16)
  | .sub g d a b => some (sw 0x02 g d a b 0#16)
  | .addi g d a imm => some (sw 0x03 g d a 0#6 imm)
  | .mul g d a b => some (sw 0x04 g d a b 0#16)
  | .mulhu g d a b => some (sw 0x05 g d a b 0#16)
  | .mulhs g d a b => some (sw 0x06 g d a b 0#16)
  | .divu g d a b => some (sw 0x07 g d a b 0#16)
  | .divuRem g d a b => some (sw 0x07 g d a b 1#16)
  | .divs g d a b => some (sw 0x08 g d a b 0#16)
  | .divsRem g d a b => some (sw 0x08 g d a b 1#16)
  | .and g d a b => some (sw 0x09 g d a b 0#16)
  | .or g d a b => some (sw 0x0A g d a b 0#16)
  | .xor g d a b => some (sw 0x0B g d a b 0#16)
  | .andn g d a b => some (sw 0x0C g d a b 0#16)
  | .shl g d a b => some (sw 0x0D g d a b 0#16)
  | .shr g d a b => some (sw 0x0E g d a b 0#16)
  | .sar g d a b => some (sw 0x0F g d a b 0#16)
  | .shli g d a sh => some (sw 0x10 g d a 0#6 (sh.setWidth 16))
  | .shri g d a sh => some (sw 0x11 g d a 0#6 (sh.setWidth 16))
  | .sari g d a sh => some (sw 0x12 g d a 0#6 (sh.setWidth 16))
  | .min g d a b => some (sw 0x13 g d a b 0#16)
  | .max g d a b => some (sw 0x14 g d a b 0#16)
  | .minu g d a b => some (sw 0x15 g d a b 0#16)
  | .maxu g d a b => some (sw 0x16 g d a b 0#16)
  | .clz g d a => some (sw 0x17 g d a 0#6 0#16)
  | .popc g d a => some (sw 0x18 g d a 0#6 0#16)
  | .movi g d imm => some (sw 0x19 g d 0#6 0#6 imm)
  | .movhi g d a imm j => some (sw 0x1A g d a (j.setWidth 6) imm)
  | .cmp g cc d a b => some (sw 0x1B g (d.setWidth 6) a b ((scondCode cc).setWidth 16))
  | .cmpi g cc d a imm => some (sw 0x1C g (d.setWidth 6) a ((scondCode cc).setWidth 6) imm)
  | .sel g d a b c => some (sw 0x1D g d a b (c.setWidth 16))
  | .pand g d a b ia ib => some (predw 0x1E g d a b ia ib)
  | .por g d a b ia ib => some (predw 0x1F g d a b ia ib)
  | .pxor g d a b ia ib => some (predw 0x20 g d a b ia ib)
  | .aadd g d a b => some (sw 0x21 g (d.setWidth 6) (a.setWidth 6) b 0#16)
  | .aaddi g d a imm => some (sw 0x22 g (d.setWidth 6) (a.setWidth 6) 0#6 imm)
  | .alea g d a b sh => some (sw 0x23 g (d.setWidth 6) (a.setWidth 6) b (sh.setWidth 16))
  | .aleaSeg g d b off => some (sw 0x23 g (d.setWidth 6) 0#6 b (1#1 ++ off))
  | .amov g d a => some (sw 0x24 g (d.setWidth 6) a 0#6 0#16)
  | .smova g d a => some (sw 0x25 g d (a.setWidth 6) 0#6 0#16)
  | .br g disp => some (sw 0x01 g 0#6 0#6 0#6 disp)
  | .brc g d disp => some (sw 0x02 g d 0#6 0#6 disp)
  | .jmp g a => some (sw 0x03 g 0#6 a 0#6 0#16)
  | .call g d n disp => some (sw 0x04 g (d.setWidth 6) 0#6 n disp)
  | .calli g d a n => some (sw 0x05 g (d.setWidth 6) a n 0#16)
  | .ret g a n => some (sw 0x06 g 0#6 (a.setWidth 6) n 0#16)
  | .loop g k lv len => some (sw 0x07 g 0#6 (k.setWidth 6) (lv.setWidth 6) (len.setWidth 16))
  | .loopx g a len => some (sw 0x08 g 0#6 a 0#6 (len.setWidth 16))
  | .setfmt g v => some (sw 0x09 g 0#6 0#6 0#6 (v.setWidth 16))
  | .fence g sc m => some (sw 0x0A g 0#6 (scopeCode sc) 0#6 m)
  | .xfence g => some (sw 0x0B g 0#6 0#6 0#6 0#16)
  | .ifence g => some (sw 0x0C g 0#6 0#6 0#6 0#16)
  | .bar g sc => some (sw 0x0D g 0#6 (scopeCode sc) 0#6 0#16)
  | .setf g grp m => some (sw 0x0E g 0#6 (grp.setWidth 6) 0#6 m)
  | .clrf g grp m => some (sw 0x0F g 0#6 (grp.setWidth 6) 0#6 m)
  | .waitgcc g a => some (sw 0x10 g 0#6 a 0#6 0#16)
  | .rdsys g d n => some (sw 0x11 g d 0#6 0#6 (n.setWidth 16))
  | .wrsys g n a => some (sw 0x12 g 0#6 a 0#6 (n.setWidth 16))
  | .trap g imm => some (sw 0x13 g 0#6 0#6 0#6 imm)
  | .brk g imm => some (sw 0x14 g 0#6 0#6 0#6 imm)
  | .halt g => some (sw 0x15 g 0#6 0#6 0#6 0#16)
  | .unit g d k => some (sw 0x16 g d (k.setWidth 6) 0#6 0#16)
  | .unitS g a => some (sw 0x16 g 0#6 a 1#6 0#16)
  | .pushld g p => some (pushw 0x01 g p 0#6)
  | .pushlds g p b => some (pushw 0x02 g p b)
  | .pushldx g p b => some (pushw 0x03 g p b)
  | .stg g p => some (stgw 0x04 g p 0#6 0#9)
  | .stgs g p b => some (stgw 0x05 g p b 0#9)
  | .stgx g p x => some (stgw 0x06 g p 0#6 x)
  | .lds g d a cls off sx z => some (sw 0x08 g d (a.setWidth 6) (cls.setWidth 6) (ldsImm z sx false off))
  | .ldsL g d a cls off sx z => some (sw 0x08 g d (a.setWidth 6) (cls.setWidth 6) (ldsImm z sx true off))
  | .sts g a b cls off z => some (sw 0x09 g (cls.setWidth 6) (a.setWidth 6) b (ldsImm z false false off))
  | .stsL g a b cls off z => some (sw 0x09 g (cls.setWidth 6) (a.setWidth 6) b (ldsImm z false true off))
  | .ldacq g d a sc m => some (sw 0x0A g d (a.setWidth 6) (scopeCode sc) m)
  | .strel g a b sc m => some (sw 0x0B g (scopeCode sc) (a.setWidth 6) b m)
  | .amoAdd g p => some (amow g p 0#4)
  | .amoFadd g p => some (amow g p 1#4)
  | .amoMin g p => some (amow g p 2#4)
  | .amoMax g p => some (amow g p 3#4)
  | .amoMinu g p => some (amow g p 4#4)
  | .amoMaxu g p => some (amow g p 5#4)
  | .amoAnd g p => some (amow g p 6#4)
  | .amoOr g p => some (amow g p 7#4)
  | .amoXor g p => some (amow g p 8#4)
  | .amoXchg g p => some (amow g p 9#4)
  | .cas g p nw => some (sw 0x0D g p.d (p.a.setWidth 6) p.b p.nmask (some (amoExt p 0#4 nw)))
  | .tlook g d a => some (sw 0x0E g d (a.setWidth 6) 0#6 0#16)
  | .tset g a b way => some (sw 0x0F g 0#6 (a.setWidth 6) b (way.setWidth 16))
  | .tclr g a => some (sw 0x10 g 0#6 a 0#6 0#16)
  | .nxu g => some (sw 0x11 g 0#6 0#6 0#6 0#16)
  | .mma g a b m => some (sw 0x01 g 0#6 a b (mmaImm m) (some (mmaExt m)))
  | .mmag g base b list m => some (sw 0x02 g base list b (mmaImm m) (some (mmaExt m)))
  | .latch g a b l f cls => some (sw 0x03 g 0#6 a b (latchImm 0#2 l f cls))
  | .latcht g a b l f cls w =>
    some (sw 0x04 g 0#6 a b (latchImm (match w with | .w1 => 0#2 | .w2 => 1#2 | .w4 => 2#2) l f cls))
  | .accz g r => some (sw 0x05 g r.row 0#6 r.n (rowImm r 0#3))
  | .accwr g a r add => some (sw 0x07 g r.row a r.n (rowImm r (0#2 ++ BitVec.ofBool add)))
  | .accrd g a r tgt => some (sw 0x06 g r.row a r.n (rowImm r (match tgt with
      | .f32 => 0#3 | .half => 1#3 | .l16 => 2#3 | .l8 => 3#3 | .i32 => 4#3)))
  | .nestld g d cl j => some (sw 0x01 g (d.setWidth 6) 0#6 0#6 (0#4 ++ cl ++ j))
  | .cpy g p => some (cpyw 0x02 g p none)
  | .cpyt g p ts => some (cpyw 0x03 g p (some (ts.setWidth 32)))
  | .cpym g p ms rf rc => some (cpyw 0x04 g p (some (0#17 ++ rc ++ flagBits rf ++ ms)))
  | .cpsend g p port => some (cpyw 0x05 g p (some (port.setWidth 32)))
  | .cparm g ch lo hi => some (sw 0x06 g 0#6 lo hi (ch.setWidth 16))
  | .cpstat g d ch => some (sw 0x07 g d 0#6 0#6 (ch.setWidth 16))
  | .cpstatClr g d ch => some (sw 0x07 g d 0#6 0#6 (0#11 ++ 1#1 ++ ch))
  | .buse g a n => some (sw 0x08 g 0#6 a 0#6 (n.setWidth 16))
  | .bfree g a n => some (sw 0x09 g 0#6 a 0#6 (n.setWidth 16))
  | .launch g a q => some (sw 0x0A g 0#6 (a.setWidth 6) 0#6 (q.setWidth 16))
  | .relaunch g a b q => some (sw 0x0B g 0#6 (a.setWidth 6) b (q.setWidth 16))
  | .trexcl g a b slot => some (sw 0x0C g 0#6 (a.setWidth 6) b (slot.setWidth 16))
  | _ => none

/-- The slot whose map decodes an operation: the first slot of its map (R125). -/
def slotOf : Instr → Nat
  | .nop .s => 0
  | .nop .aq => 2
  | .nop .mx => 3
  | .nop .cp => 4
  | .nop .sy => 5
  | .nop .vab => 6
  | .nop .vx => 8
  | .nop .vm => 9
  | .rcp h _ _ _ | .rsq h _ _ _ | .sqrt h _ _ _ | .div h _ _ _ _ | .exp2 h _ _ _ | .log2 h _ _ _
  | .xmov h _ _ _ | .xbc h _ _ _ _ => 8 + 4 * h.cl.toNat
  | .vld h _ _ _ | .vst h _ _ _ | .vlds h _ _ _ _ | .vsts h _ _ _ _ | .vldx h _ _ _ _ | .vstx h _ _ _ _
  | .vlda h _ _ _ | .vsta h _ _ _ => 9 + 4 * h.cl.toNat
  | .br _ _ | .brc _ _ _ | .jmp _ _ | .call _ _ _ _ | .calli _ _ _ _ | .ret _ _ _ | .loop _ _ _ _ | .loopx _ _ _
  | .setfmt _ _ | .fence _ _ _ | .xfence _ | .ifence _ | .bar _ _ | .setf _ _ _ | .clrf _ _ _ | .waitgcc _ _
  | .rdsys _ _ _ | .wrsys _ _ _ | .trap _ _ | .brk _ _ | .halt _ | .unit _ _ _ | .unitS _ _ => 5
  | .pushld _ _ | .pushlds _ _ _ | .pushldx _ _ _ | .stg _ _ | .stgs _ _ _ | .stgx _ _ _ | .lds _ _ _ _ _ _ _
  | .ldsL _ _ _ _ _ _ _ | .sts _ _ _ _ _ _ | .stsL _ _ _ _ _ _ | .ldacq _ _ _ _ _ | .strel _ _ _ _ _
  | .amoAdd _ _ | .amoFadd _ _ | .amoMin _ _ | .amoMax _ _ | .amoMinu _ _ | .amoMaxu _ _ | .amoAnd _ _
  | .amoOr _ _ | .amoXor _ _ | .amoXchg _ _ | .cas _ _ _ | .tlook _ _ _ | .tset _ _ _ _ | .tclr _ _ | .nxu _ => 2
  | .mma _ _ _ _ | .mmag _ _ _ _ _ | .latch _ _ _ _ _ _ | .latcht _ _ _ _ _ _ _ | .accz _ _ | .accwr _ _ _ _
  | .accrd _ _ _ _ => 3
  | .nestld _ _ _ _ | .cpy _ _ | .cpyt _ _ _ | .cpym _ _ _ _ _ | .cpsend _ _ _ | .cparm _ _ _ _ | .cpstat _ _ _
  | .cpstatClr _ _ _ | .buse _ _ _ | .bfree _ _ _ | .launch _ _ _ | .relaunch _ _ _ _ | .trexcl _ _ _ _ => 4
  | .fadd h _ _ _ _ _ | .fsub h _ _ _ _ _ | .fmul h _ _ _ _ _ | .fma h _ _ _ _ _ _ | .fms h _ _ _ _ _ _
  | .fnma h _ _ _ _ _ _ | .fmin h _ _ _ _ | .fmax h _ _ _ _ | .fabs h _ _ _ | .fneg h _ _ _ | .fcmp h _ _ _ _ _
  | .dot2 h _ _ _ _ _ _ | .iadd h _ _ _ _ _ | .isub h _ _ _ _ _ | .imul h _ _ _ _ | .imulh h _ _ _ _
  | .imad h _ _ _ _ _ | .imin h _ _ _ _ | .imax h _ _ _ _ | .iminu h _ _ _ _ | .imaxu h _ _ _ _ | .vand h _ _ _ _
  | .vor h _ _ _ _ | .vxor h _ _ _ _ | .vandn h _ _ _ _ | .vshl h _ _ _ _ | .vshr h _ _ _ _ | .vsar h _ _ _ _
  | .icmp h _ _ _ _ _ | .icmpu h _ _ _ _ _ | .lmul h _ _ _ _ | .lrcp h _ _ _ | .lsqrt h _ _ _ | .mov h _ _
  | .vmovi h _ _ | .vsel h _ _ _ _ | .shuf h _ _ _ | .rot h _ _ _ | .hadd h _ _ | .hmax h _ _ | .cvt h _ _ _ _
  | .bpack h _ _ _ | .bunpack h _ _ | .mand h _ _ _ | .mor h _ _ _ | .mxor h _ _ _ | .mnot h _ _ | .mset h _ _
  | .msetScalar h _ _ => 6 + 4 * h.cl.toNat
  | _ => 0

/-- The header of a bundle whose one op stands in the given slot (R113): the slot's mask bit and COUNT = 1. -/
def soleHeader (slot : Nat) : Nat := 2 ^ (63 - slot) + 2 ^ 17

/-- The bytes of the bundle that holds one op word, in its slot (R112). -/
def soleBytes (slot : Nat) (w : BitVec 48) (ext : Option Word) : List Byte :=
  leBytes 8 (soleHeader slot) ++ leBytes 6 w.toNat ++
    (match ext with
     | some e => leBytes 4 e.toNat ++ leBytes 6 0
     | none => leBytes 2 0)

/-- The bundle that holds one operation and nothing else. -/
def encodeBundle (i : Instr) : Option (List Byte) := (encode i).map fun w => soleBytes (slotOf i) w.1 w.2

end Sys2Proof
end

