-- ==== Sys2Proof/Machine/State.lean ====
section
/-! DEFINITION. The state of the ZV8 as plain data, and its value after module reset. Large parts that are mostly
at their reset value (cores, contexts, register files) are held as lists of (index, value) pairs sorted by index; an
index that is not listed has its default. -/
namespace Sys2Proof.Machine

/-- Why the machine stops. -/
inductive Fault
  /-- Raised by an event of the machine that the agenda names while the spec's condition for that event does not
  hold: no agent can take this step now. Safe: the hardware takes no such step. -/
  | notEnabled
  deriving DecidableEq, Repr

/-- Why a step has no meaning. -/
inductive Refusal
  /-- Raised by an arm of `exec` whose instruction has no meaning yet. Safe. -/
  | notModelled (mnemonic : String)
  deriving DecidableEq, Repr

/-! ### Accesses and what is known of them (R92 to R111) -/

/-- The path of an access (R92): a local or global access of a program, an access of an engine command by its unit (a
channel's number, or 16 for the matrix engine) and number, an instruction fetch, an access through one stream of the
host (by its function) or of a peer (64 and its port), or one of the module itself. -/
inductive Path
  | loc
  | glob
  | eng (unit id : Nat)
  | code
  | host (stream : Nat)
  | mod
  deriving DecidableEq, Repr

/-- An access as the order of R94 to R104 sees it: its path, the context it is for, its launch, its classes (bit i set:
class i), its place in program order, and, for an engine command or a fetch, the place after that of the XFENCE or
IFENCE that covers it. `bulk` says that a bulk copy engine of the die makes it (R13), `iter` is the iteration of a copy
command that it belongs to (R103). -/
structure Who where
  path : Path
  core : CoreId := 0
  ctx : CtxId := 0
  launch : Word := 0
  cls : BitVec 16 := 0
  pos : Nat := 0
  xfence : Nat := 0
  bulk : Bool := false
  iter : Nat := 0
  deriving DecidableEq, Repr

/-- A limit of an order that a fence made: it binds reads of parties inside a scope as seen from a context (R95). -/
structure Lim where
  core : CoreId
  ctx : CtxId
  scope : Scope
  deriving DecidableEq, Repr

/-- Whose accesses a write happens before (R97): a context's program accesses of some classes from a place on, local
ones too when `loc` says so (`via` names the global read that brought the knowledge, until it is consumed, R94); the
commands of a unit after one of them (R101); every access of a launch (R107); a release (R96); reads of the host
(R110). -/
inductive To
  | ctx (core : CoreId) (ctx : CtxId) (start : Nat) (cls : BitVec 16) (loc : Bool) (via : Option Nat)
  | unit (core : CoreId) (unit id : Nat)
  | launch (id : Word)
  | rel (id : Nat)
  | host
  deriving DecidableEq, Repr

/-- One way in which a write happens before later accesses, with its limits. -/
structure Know where
  dest : To
  lims : List Lim
  deriving DecidableEq, Repr

/-- A write that has performed, for the reads that need not see it (R93, R98): its number, whose it is, the bytes that stand
before its own in the bytes' modification orders, for each word of it the releases whose sequences held the value it
replaced (R96), and what it happens before. A write that has come to stand at different places in the orders of its
bytes has an entry for each, all with its number. An entry without bytes stands for a read of a write to come (R98). -/
structure Past where
  id : Nat
  who : Who
  cells : List Host.Cell
  heads : List (Nat × List Nat)
  know : List Know
  deriving DecidableEq, Repr

/-- A release that has performed (R96): its number, whose it is, its scope, and the word it wrote with the value. -/
structure Rel where
  id : Nat
  who : Who
  scope : Scope
  word : Nat
  val : Word
  deriving DecidableEq, Repr

/-- A write to come that reads may return before it performs (R98): the bytes it will write, its number once a read has
returned it, and the numbers under which those reads stand among the past writes. -/
structure Promise where
  cells : List Host.Cell
  num : Option Nat := none
  readers : List Nat := []
  deriving DecidableEq, Repr

/-! ### Contexts -/

/-- What a context is doing (R36, R42, R302, R320). -/
inductive Run
  | idle | starting | running | halted | held | stopped | saved
  deriving DecidableEq, Repr

/-- A register that a result is bound for. Scalars are named physically: 1 to 15, and 16 + e for window entry e
(R138, R139). SETF and CLRF land a mask of flags (R159). -/
inductive Dest
  | s (e : Nat)
  | a (r : Nat)
  | p (r : Nat)
  | n (r : Nat)
  | v (cl r : Nat)
  | m (cl r : Nat)
  | flagSet
  | flagClr
  deriving DecidableEq, Repr

/-- A fixed-latency result in flight (R39): its value, the lanes that have not landed, the lanes that carry poison
(R323), the arithmetic flags that land with it (R66), and when it issued. -/
structure Pend where
  dest : Dest
  val : Line
  lanes : BitVec 16
  poison : BitVec 16
  flags : Byte
  cycle : Nat
  bundle : Nat
  lat : Nat
  deriving DecidableEq, Repr

/-- Where a scoreboarded result is bound (R38): a scalar, a work register (R33), or a vector register under
compatibility mode (R191). -/
inductive SbDest
  | s (e : Nat)
  | w (k : WReg)
  | v (cl r : Nat) (lanes : BitVec 16)
  deriving DecidableEq, Repr

/-- A scoreboarded result in flight: the request that brings it, its destination, the cycle by which it lands where
the spec gives one (R33, R144), and once it has arrived its value, poisoned lanes, flags and, for a global load, the
address of its line. A cancelled result is
dropped when it arrives (R142). -/
structure Sb where
  id : Nat
  dest : SbDest
  due : Option Nat
  arrived : Bool
  val : Line
  poison : BitVec 16
  flags : Byte
  cancelled : Bool
  va : Addr := 0
  deriving DecidableEq, Repr

/-- A fault as its record will describe it (R316, R317); `gcc` is the tick it was raised in where it was not taken
then. -/
structure FaultInfo where
  code : Byte
  strad : Bool := false
  eng : Bool := false
  chan : Option Chan := none
  slot : Byte := 0xFF
  detail : Byte := 0
  va : Addr := 0
  imm : BitVec 16 := 0
  pc : Option Addr := none
  gcc : Option Dword := none
  deriving DecidableEq, Repr

/-- The fields of the running segment's header (R135), where its tables lie, and the names its signature block gives
(R340). -/
structure Seg where
  va : Addr := 0
  compat : Bool := false
  codeOff : Word := 0
  codeLen : Word := 0
  nent : Byte := 0
  ntgt : BitVec 16 := 0
  splo : Word := 0
  sphi : Word := 0
  segid : Word := 0
  kgen : Word := 0
  deriving DecidableEq, Repr

/-- A loop in the loop buffer (R151 to R153): start and end of the body, the count of each level, the indices of
the pass that runs, innermost first, and the body's bytes while the buffer holds them. -/
structure Loop where
  body : Addr
  stop : Addr
  counts : List Nat
  idx : List Nat
  code : Option (List Host.Cell) := none
  deriving DecidableEq, Repr


/-- A leaf translation (R310, R311, R313): virtual page base and size as a power of two, physical base, R, W, X. -/
structure Tlb where
  va : Nat
  lg : Nat
  pa : Nat
  r : Bool
  w : Bool
  x : Bool
  deriving DecidableEq, Repr

/-- A primary bundle that has begun service (R70): the accesses already served, by their place in service order, the
lines its reads captured, for the lines it both reads and writes their bytes before the bundle (R71), the poisoned
words of the captured lines, and the leaf translations that its checks found, with which it performs its accesses
whatever becomes of the TLB. -/
structure Part where
  served : List Nat := []
  captured : List (Nat × Line) := []
  before : List (Nat × Line) := []
  poison : List Nat := []
  tlb : List Tlb := []
  deriving DecidableEq, Repr

/-- A fence of the context: its position, class mask (bit i set: class i is ordered) and scope (R94, R95). -/
structure FenceRec where
  pos : Nat
  mask : BitVec 16
  scope : Scope
  deriving DecidableEq, Repr

/-- A scalar bound by a global read that no bundle has read yet (R94): the request's number, the scalar's place, and the
read's place in program order and class. -/
structure Unread where
  id : Nat
  dest : Nat
  pos : Nat
  cls : BitVec 4
  deriving DecidableEq, Repr

/-- The command whose completion set a flag, and, for a multicast, the receiving core (R102); `reads` says that it is an
A-consumed flag, which speaks of the command's reads alone (R105). -/
structure FlagSrc where
  flag : Nat
  who : Who
  recv : Option CoreId := none
  reads : Bool := false
  deriving DecidableEq, Repr

/-- An exclusion slot (R231). -/
structure Excl where
  base : Dword
  len : Dword
  deriving DecidableEq, Repr

/-- One hardware context (R31, R138). `npc` is the address of the bundle that follows the one being issued; `ending`
marks a run whose HALT bundle is committing; `xfer` a spill (true) or fill (false) of the scalar window under way and
the BOT it leads to (R139); `pos` the place in program order; `bundles` the bundles issued; `begun` says that the run has read its entry
(R353); `xafter` and `iafter` list the accesses that the last XFENCE and IFENCE cover and that had yet to perform (R100,
R108); `stepReq` asks for a stop after one bundle, `stepStop` says
that bundle has issued (R320, R321); `setNow` the flags that
SETFs landing in the present cycle set (R115); `sPoison` and `ldsPoison` the scalars that hold
poison, the latter from a global LDS with its line (R214, R323), `rPoison` the other registers that do; `stall` says that a
parity rebuild freezes the context for a cycle (R322); `stopTick` is the tick a failing launch asked the context to stop
in (R27, R42); `pendFaults` the faults pending, each with the cycle it was raised in
(R318). -/
structure Ctx where
  run : Run := .idle
  runId : Nat := 0
  launch : Word := 0
  pc : Addr := 0
  npc : Addr := 0
  ending : Bool := false
  seg : Seg := {}
  scal : List (Nat × Dword) := []
  areg : List (Nat × Dword) := []
  preds : BitVec 16 := 1
  flags : BitVec 64 := 0
  setNow : BitVec 64 := 0
  nests : List (Nat × Line) := []
  works : List (Nat × Dword) := []
  nxuCount : Nat := 0
  arith : Byte := 0
  fmts : Byte := 0
  fmtPend : List (Byte × Nat) := []
  clmask : Byte := 0
  nctx : BitVec 2 := 0
  bsa : Dword := 0
  fb : Word := 0
  bot : Word := 0
  splo : Dword := 0
  sphi : Dword := 0x600000
  trapinfo : BitVec 9 := 0
  domain : Dword := 0
  pend : List Pend := []
  sbs : List Sb := []
  sPoison : List Nat := []
  ldsPoison : List (Nat × Addr) := []
  rPoison : List Nat := []
  stall : Bool := false
  loop : Option Loop := none
  waitGcc : Option Dword := none
  barWait : Option (Scope × Nat) := none
  barCount : List (Nat × Nat) := []
  xfer : Option (Bool × Nat) := none
  part : Option Part := none
  delay : Nat := 0
  fetchMiss : List Nat := []
  blocks : List Nat := []
  code : List Host.Cell := []
  fetchFail : List (Nat × FaultInfo) := []
  segOk : Bool := false
  segFail : Bool := false
  fences : List FenceRec := []
  unread : List Unread := []
  flagSrc : List FlagSrc := []
  ifence : Nat := 0
  iafter : List Nat := []
  xfence : Nat := 0
  xafter : List Nat := []
  pos : Nat := 0
  bundles : Nat := 0
  excl : List (Nat × Excl) := []
  unit : Option (BitVec 24) := none
  startUnit : Option (BitVec 24) := none
  begun : Bool := false
  pendFaults : List (Nat × FaultInfo) := []
  stopReq : Bool := false
  stopTick : Dword := 0
  preempt : Bool := false
  preemptAddr : Nat := 0
  pmbCount : Nat := 0
  heldCode : Byte := 0
  stepReq : Bool := false
  stepStop : Bool := false
  skipBp : Bool := false
  breaks : List (Nat × Dword) := []
  deriving DecidableEq, Repr

/-! ### Engines of a core -/

/-- An entry of a load-address queue: the line once the request has performed at its home, and whether it has landed
in the queue (R79, R81, R82). A dropped entry is freed when its line lands (R165). -/
structure LaqEntry where
  id : Nat
  va : Addr
  pa : Nat
  line : Option Line
  landed : Bool
  poison : Bool
  dropped : Bool
  pos : Nat := 0
  cls : BitVec 4 := 0
  deriving DecidableEq, Repr

/-- An in-use bit that is set: the context that last set it and its launch (R74). -/
structure InUse where
  ctx : CtxId
  launch : Word
  deriving DecidableEq, Repr

/-- The kinds of copy command (R221). -/
inductive CopyKind
  | cpy
  | timed (t : Dword)
  | multi (mask : Word) (rflag : Option FReg) (rctx : CtxId)
  | send (port : Port)
  deriving DecidableEq, Repr

/-- A copy command with its operands as read at issue (R221). `after` lists the accesses an XFENCE before it covers
(R100). -/
structure CopyCmd where
  id : Nat
  ctx : CtxId
  runId : Nat
  launch : Word
  kind : CopyKind
  nest : Line
  src : Dword
  dst : Dword
  done : Option FReg
  cls : BitVec 4
  after : List Nat
  pos : Nat
  xfence : Nat
  unit : Option (BitVec 24)
  excl : List (Nat × Excl)
  deriving DecidableEq, Repr

/-- The command a channel is running: the first iteration not yet completed, for each iteration from there on the
bytes already copied, the guarded range it holds (R86), the line and fault it is stopped at (R85), the receiving cores
whose dropped line has already been recorded (R75), and those that lost a line. -/
structure CopyRun where
  cmd : CopyCmd
  lo : Nat
  prog : List (Nat × Nat)
  armed : Option (Nat × Nat)
  stop : Option FaultInfo
  recorded : List Nat
  lost : List Nat := []
  deriving DecidableEq, Repr

/-- A copy channel (R85, R86, R225). -/
structure CopyChan where
  queue : List CopyCmd := []
  run : Option CopyRun := none
  armNext : Option (Nat × Nat) := none
  landErr : Bool := false
  rillErr : Bool := false
  deriving DecidableEq, Repr

/-- The kinds of matrix command, with their operands as read at issue (R200 to R207). -/
inductive MxKind
  | mma (base : Nat) (stride : Int) (rows : Nat) (beats : Nat) (latch : LReg) (add colh : Bool) (row : Nat)
      (cons : Option FReg)
  | mmag (base : Nat) (stride : Int) (list : Nat) (rows : Nat) (beats : Nat) (latch : LReg) (add colh : Bool)
      (row : Nat) (cons : Option FReg)
  | latch (base : Nat) (stride : Int) (latch : LReg) (width : Option LWidth)
  | accz (row n : Nat)
  | accwr (addr : Nat) (row n : Nat) (add : Bool)
  | accrd (addr : Nat) (row n : Nat) (tgt : AccTgt)
  deriving DecidableEq, Repr

/-- A matrix command: the FMTS in force at its issue (R201), its done flag, the issuing run, the cycle of its issue,
the beats done, the cycle of its next beat or of its completion, the lines the beat under way has still to read (R197),
the flags it has raised (R63), the index list of an MMAG as read, and for each line read the writes already seen
(R104). -/
structure MxCmd where
  id : Nat
  ctx : CtxId
  runId : Nat
  launch : Word
  kind : MxKind
  fmts : Byte
  done : Option FReg
  cls : BitVec 4
  issued : Nat
  pos : Nat
  xfence : Nat
  after : List Nat
  splo : Nat
  sphi : Nat
  started : Bool
  beat : Nat
  next : Nat
  left : List Nat
  flags : Byte
  list : List Nat
  seen : List (Nat × List Nat)
  consumed : Bool
  deriving DecidableEq, Repr

/-- An access at the end of the array's eight-cycle pipeline (R198): words that a row of a beat, of ACCZ or of ACCWR
writes or adds from a column on; a row that ACCRD reads, with its FMTS; and the scratchpad write of what it read. -/
inductive AccAct
  | put (row col : Nat) (add : Bool) (words : List Word)
  | get (row addr : Nat) (fmts : Byte) (tgt : AccTgt)
  | land (addr : Nat) (bytes : List Byte)
  deriving DecidableEq, Repr

/-- One access in the pipeline: its cycle, the number and run of its command, whose access it is, and the flags that its
beat has raised before it (R63). -/
structure AccOp where
  due : Nat
  cmd : Nat
  runId : Nat
  who : Who
  act : AccAct
  flags : Byte := 0
  deriving DecidableEq, Repr

/-- A reservation of the matrix engine (R195): the parts it holds, the latch with whether it is written, and the last
cycle it is held in. -/
structure MxRes where
  ctx : CtxId
  runId : Nat
  array : Bool
  gather : Bool
  loader : Bool
  latch : Option (LReg × Bool)
  last : Nat
  deriving DecidableEq, Repr

/-- A walk of a page (R313): the page's number in units of 64 KiB, who waits for it (a context by its number, a channel
by 4 and its number), and its place in the order of arrival once it is one of the core's outstanding walks. -/
structure Walk where
  page : Nat
  waiters : List Nat
  seq : Option Nat := none
  tick : Dword := 0
  deriving DecidableEq, Repr

/-- A walk that has failed: its page, its level and kind of failure, and whom of those who waited it has still to
stop (R312, R313). -/
structure WalkFail where
  page : Nat
  code : Nat × Nat
  waiters : List Nat
  deriving DecidableEq, Repr

/-- One core (R14, R295). `usePend` holds the changes of in-use bits that take effect in the next cycle (R226), `heir` the
context a forced pass goes to (R36), `engBusy` the edges of the die's clock with the scratchpad lines that their engine
phases serve for beats, and `engWait` those they serve for other accesses, which come after the beats' (R19, R197),
`lastCh` the channel served last, `accTold` the commands whose dropped landing has its record
(R75), `mPoison`, `tagPoison` and `latchPoison` the lane masks, tag-table entries and 64-bit words of the latches that hold
poison (R322). -/
structure Core where
  tenant : Tenant := 0
  v : Bool := false
  zbusy : Bool := false
  saved : Bool := false
  runmax : Word := 4096
  pmb : Word := 65536
  cycle : Nat := 0
  primary : CtxId := 0
  primCycles : Nat := 0
  vregs : List (Nat × Line) := []
  vpoison : List (Nat × BitVec 16) := []
  masks : List (Nat × BitVec 16) := []
  laqs : List (Nat × List LaqEntry) := []
  latches : List Host.Cell := []
  tags : List (Nat × Dword) := []
  ptrs : List (Nat × BitVec 3) := []
  inuse : List (Nat × InUse) := []
  mx : List MxCmd := []
  accPipe : List AccOp := []
  res : List MxRes := []
  chans : List (Nat × CopyChan) := []
  tlb : List Tlb := []
  walks : List Walk := []
  walkFail : List WalkFail := []
  usePend : List (Nat × Option InUse) := []
  heir : Option CtxId := none
  engBusy : List (Nat × Nat) := []
  engWait : List (Nat × Nat) := []
  lastCh : Nat := 15
  accTold : List Nat := []
  mPoison : List Nat := []
  tagPoison : List Nat := []
  latchPoison : List Nat := []
  ctxs : List (Nat × Ctx) := []
  deriving DecidableEq, Repr

/-! ### Launches, queues and requests -/

/-- A ring descriptor (R315). -/
structure Ring where
  base : Addr := 0
  log2n : BitVec 4 := 0
  en : Bool := false
  tail : Word := 0
  head : Word := 0
  lost : Word := 0
  deriving DecidableEq, Repr

/-- Where a RELAUNCH's status words go (R232): the address, and its translation; a shootdown of the address's page translates
it anew, and finds none where the new table leads to no accumulator store (R314). -/
structure StatusAt where
  va : Addr
  pa : Option Nat
  deriving DecidableEq, Repr

/-- A launch-queue descriptor (R288), the round-robin mark it is visited by, and the entries reserved but not yet
appended (R227): the record address, for a RELAUNCH its status address and its translation, the accesses its XFENCE
covers, and whose it is. -/
structure Reserve where
  record : Addr
  status : Option StatusAt
  after : List Nat
  who : Who
  deriving DecidableEq, Repr

/-- A launch queue of one tenant on one die (R288, R291). `passes` names the entries of the ring that are RELAUNCHes,
by entry number, with their status addresses (R232). -/
structure Queue where
  base : Addr := 0
  log2n : BitVec 4 := 0
  en : Bool := false
  dev : Bool := false
  err : Bool := false
  tailw : BitVec 26 := 0
  head : Word := 0
  reserved : List Reserve := []
  passes : List (Nat × StatusAt) := []
  deriving DecidableEq, Repr

/-- One die: the edges its arithmetic clock has produced, its stretch (R20, R347), the slot table with the writes
waiting for the next frame (R297), the current slot, and the queues, keyed by 16·tenant + queue. `sagTicks` counts
the ticks of a supply sag from 1 on, and is 0 when none is to be met; `temp` is what its temperature sensor reads in the present tick, in 1/16 °C. -/
structure Die where
  cycle : Nat := 0
  sag : Bool := false
  sagTicks : Nat := 0
  temp : Nat := 0
  stage : BitVec 2 := 0
  sinceLoss : Nat := 49
  breach : Bool := false
  slots : List (Nat × Byte) := []
  slotPend : List (Nat × Byte) := []
  slot : BitVec 6 := 0
  queues : List (Nat × Queue) := []
  rr : List (Nat × Nat) := []
  deriving DecidableEq, Repr

/-- How far a record taken from a queue has come (R28, R29). -/
inductive Phase
  | waiting | admitted | failing | ended
  deriving DecidableEq, Repr

/-- A pending launch or pass (R25 to R29, R41, R228 to R233, R292 to R294). `predLost` and `doneLost` say that the core
of a predecessor's or of its own word changed owner; `started` says that it
has been admitted; `next` counts the units dealt, `sel` names a pass's units;
`members` are the contexts started for it; `dealStop` the cores nothing more is dealt to; `holding` the units each
context holds, `finished` those whose context has halted; `lastDie` the die last served, `dealBase` the die the round
of tick `dealTick` starts at (R294); `badSave` says that a RESUME has reported BADSAVE, and `faulted`
holds the contexts that NFLT counts (R27); `dealKey` is the place of the request last served in `dealTick`. -/
structure Launch where
  id : Word
  die : DieId
  tenant : Tenant
  queue : BitVec 4
  recordVa : Addr
  record : Line
  pass : Option StatusAt
  passNo : BitVec 16
  phase : Phase
  started : Bool
  status : Byte
  faulted : List (CoreId × CtxId)
  predLost : BitVec 3
  doneLost : Bool
  next : Nat
  sel : Option (List Nat)
  members : List (Nat × Nat)
  startedCores : List Nat
  dealStop : List Nat
  tick : Dword
  p : Word
  reads : List (Nat × List Nat)
  readsAll : List Nat
  unattr : Bool
  holding : List (Nat × List Nat)
  finished : List Nat
  lastDie : DieId
  dealTick : Dword
  dealBase : DieId
  dealKey : Nat
  badSave : Bool
  deriving DecidableEq, Repr

/-- What a global access of the AQ slot does at its home (R92, R211 to R216). -/
inductive ReqKind
  | line (q : Cl)
  | load (size : Nat) (sx : Bool)
  | store (bytes : List Byte)
  | ldacq
  | strel (w : Word)
  | amo (kind : BitVec 4) (op : Word)
  | cas (exp new : Word)
  deriving DecidableEq, Repr

/-- A global access on its way to its home: who issued it, its place in the program, its class, its physical address
and length, its deadline, and its release and acquire masks with their scope (R94 to R96, R211 to R216). -/
structure Req where
  id : Nat
  core : CoreId
  ctx : CtxId
  runId : Nat
  launch : Word
  tenant : Tenant
  pos : Nat
  lane : Nat
  cls : BitVec 4
  va : Addr
  pa : Nat
  len : Nat
  kind : ReqKind
  deadline : Dword
  rel : Option (BitVec 16)
  acq : Option (BitVec 16)
  scope : Scope
  unit : Option (BitVec 24)
  record : Bool
  deriving DecidableEq, Repr

/-- An NXU request that has reached its launch's home scheduler (R33, R219). -/
structure NxuReq where
  launch : Word
  core : CoreId
  ctx : CtxId
  runId : Nat
  sb : Nat
  deriving DecidableEq, Repr

/-! ### The package -/

/-- A finished segment in a tenant's cache (R281, R283): flow body hash, mask, run and CBASE of its placing. -/
structure CacheEntry where
  hash : Dword
  mask : Byte
  cbase : Addr
  off : Nat
  units : Nat
  deriving DecidableEq, Repr

/-- What the module holds for one tenant (R310, R315, R338, R339, R341, R349). -/
structure TenantSt where
  ttroot : Dword := 0
  faultRing : Ring := {}
  auditRing : Ring := {}
  allow : List (Nat × Byte) := []
  locked : Bool := false
  terr : Bool := false
  seq : Dword := 0
  taddr : Dword := 0
  tval : Dword := 0
  tseq : Dword := 0
  tmac : BitVec 384 := 0
  tokkey : BitVec 384 := 0
  codeKey : BitVec 256 := 0
  kgen : Word := 0
  signHash : BitVec 384 := 0
  verified : List (Word × Word × BitVec 384) := []
  dataKey : Option (BitVec 512) := none
  cache : List CacheEntry := []
  deriving DecidableEq, Repr

/-- A rill port (R332). -/
structure RillPort where
  up : Bool := false
  en : Bool := false
  tmask : BitVec 16 := 0
  int : Tenant := 0
  inen : Bool := false
  peerid : Byte := 0
  pbase : BitVec 10 := 0
  deriving DecidableEq, Repr

/-- A host function: its session, its IDE stream and its access log (R325, R327, R331, R337). -/
structure FnSt where
  session : Bool := false
  exportKey : BitVec 384 := 0
  keyed : Bool := false
  insecure : Bool := false
  log : Ring := {}
  deriving DecidableEq, Repr

/-- A context saved by PREEMPT (R302 to R304): the record's address, the context as it stopped, its vector registers
and masks, the lines in its load-address queues (none at a pmark, R255), its unstarted commands, the number of the image
that its core has since been written to (R306), and the flags set for it since. -/
structure Save where
  id : Nat
  core : CoreId
  ctx : CtxId
  launch : Word
  addr : Nat
  tenant : Tenant
  snap : Ctx
  vregs : List (Nat × Line)
  vpoison : List (Nat × BitVec 16)
  masks : List (Nat × BitVec 16)
  mPoison : List Nat
  laqs : List (Nat × List LaqEntry)
  cmds : List (Nat × CopyCmd)
  away : Option Nat
  pendf : BitVec 64
  deriving DecidableEq, Repr

/-- A core image written by CORESAVE: its address and number, the core, its tag table and in-use bits (R306). -/
structure Image where
  addr : Nat
  id : Nat
  core : CoreId
  tags : List (Nat × Dword)
  ptrs : List (Nat × BitVec 3)
  inuse : List (Nat × InUse)
  deriving DecidableEq, Repr

/-- A PREEMPT or ABORT whose result word is still to be written (R300 to R302); `bound` says that a context took fault
0x0E. -/
structure Running where
  op : BitVec 4
  tenant : Tenant
  launch : Word
  cmask : BitVec 128
  resw : BitVec 26
  nctx : Nat
  bound : Bool
  deriving DecidableEq, Repr

/-- What a host or peer access was answered (R328, R333): the data, whether it is poisoned, and whether the completion says
Unsupported Request. -/
structure Answer where
  data : List Byte
  poisoned : Bool
  ur : Bool
  deriving DecidableEq, Repr

/-- An HDM decoder of CXL.mem (R325): the host's range, the device addresses skipped before it, and whether it is
committed. PRESUMED (log 61): the fields are those of the CXL family. -/
structure Hdm where
  base : Dword := 0
  size : Dword := 0
  skip : Dword := 0
  on : Bool := false
  deriving DecidableEq, Repr

/-- Boot (R335): the next stage, the failed stage if any, and the fuses. -/
structure Boot where
  stage : Nat := 0
  failed : Option Nat := none
  slots : List (Nat × BitVec 384) := []
  revoked : BitVec 4 := 0
  minSvn : List (Nat × Byte) := []
  lifecycle : Byte := 0
  deriving DecidableEq, Repr

/-- The rings the module writes its records to (R315, R324, R331, R349). -/
inductive Log
  | fault (t : Tenant)
  | audit (t : Tenant)
  | error
  | access (f : Fn)
  deriving DecidableEq, Repr

/-- A record that waits to be written to a ring; an error-log entry's says which core is involved, if any (R348). -/
structure LateRec where
  log : Log
  bytes : List Byte
  core : Option CoreId := none
  deriving DecidableEq, Repr

/-- The state of the package and of the model's own bookkeeping. -/
structure State where
  /-- The steps that come next; the model's own. -/
  agenda : List Instr
  /-- The core and context an operation on its own is issued for; the model's own (log 2). -/
  cur : CoreId × CtxId
  /-- The counter free values are applied to; the model's own (log 3). -/
  freeCtr : Nat
  /-- The next number of a request, command or run; the model's own (log 3). -/
  nextId : Nat
  /-- Answers to host and peer reads, latest first; the model's own. -/
  answers : List Answer
  /-- What the events to come that read memory and name no error of their own meet, one each (R322); the model's own, as the
  agenda is (log 37). -/
  nextErrs : List ReadErr
  gcc : Dword
  mem : List Host.Cell
  poison : List Nat
  /-- The writes that some later read may still miss, latest first, and the number of the next one (R98). -/
  pasts : List Past
  pastCtr : Nat
  /-- The writes to come that reads may return; the model's own, as the agenda is (log 11). -/
  promises : List Promise
  /-- The releases, and for each word those whose sequences hold its present value (R96). -/
  rels : List Rel
  heads : List (Nat × List Nat)
  owners : List (Nat × Tenant)
  cores : List (Nat × Core)
  dies : List (Nat × Die)
  tenants : List (Nat × TenantSt)
  fns : List (Nat × FnSt)
  ports : List (Nat × RillPort)
  /-- The HDM decoders of CXL.mem (R325). -/
  hdms : List (Nat × Hdm)
  launches : List Launch
  nextLaunch : Word
  /-- The completion words whose write was dropped, each with its tenant: they count as failed (R29). -/
  lostWords : List (Nat × Tenant)
  /-- For each traced launch's record, the releases its word and its passes' words were written with (R107). -/
  passRels : List (Nat × List Nat)
  reqs : List Req
  nxus : List NxuReq
  saves : List Save
  /-- Core images written by CORESAVE (R306). -/
  images : List Image
  running : List Running
  /-- The command register (R299), shootdown register (R314) and finisher request register (R283). -/
  cmdReg : Line
  sdReg : BitVec 256
  finReg : Line
  /-- The records written to each that have not been done, in order. -/
  cmdQ : List Line
  sdQ : List (BitVec 256)
  finQ : List Line
  /-- Records that wait for a share of their die's DRAM ports, in order (R91). -/
  late : List LateRec
  errorLog : Ring
  stbase : Dword
  sc : Word
  pkgid : Byte
  cap : BitVec 11
  tlim : BitVec 7
  rstcause : BitVec 2
  counters : List (Nat × Dword)
  sensors : PowerSample
  boot : Boot
  /-- The attestation key, once boot has derived it (R337). -/
  attest : Option (BitVec 384)
  meas : List (Nat × BitVec 384)
  measgen : Word
  segCounter : BitVec 31
  /-- The tick of the last power window's end (R347). -/
  window : Dword
  sessions : Nat
  deriving DecidableEq, Repr

/-- The machine right after module reset. Registers whose reset value the spec does not give hold the values named
in logs 1 to 10. -/
def State.reset : State where
  agenda := []
  cur := (0, 0)
  freeCtr := 0
  nextId := 0
  answers := []
  nextErrs := []
  gcc := 0
  mem := []
  poison := []
  pasts := []
  pastCtr := 0
  promises := []
  rels := []
  heads := []
  owners := []
  cores := []
  dies := []
  tenants := []
  fns := []
  ports := []
  hdms := []
  launches := []
  nextLaunch := 1
  lostWords := []
  passRels := []
  reqs := []
  nxus := []
  saves := []
  images := []
  running := []
  cmdReg := 0
  sdReg := 0
  finReg := 0
  cmdQ := []
  sdQ := []
  finQ := []
  late := []
  errorLog := {}
  stbase := 0
  sc := 0
  pkgid := 0
  cap := 1800
  tlim := 95
  rstcause := 0
  counters := []
  sensors := ⟨0, 0, 0, 0, 0, 0, 0, 0, 0⟩
  boot := {}
  attest := none
  meas := []
  measgen := 0
  segCounter := 0
  window := 0
  sessions := 0

end Sys2Proof.Machine
end

