-- ==== Sys2Proof/Machine/Ops.lean ====
section
/-! DEFINITION. The named operations every meaning is written with: access to cores, contexts and launches; the
physical memory with its stamps and poison; translation; rings and fault records; taking a fault, holding a context
and letting it go on; results in flight. -/
namespace Sys2Proof.Machine

/-- The outcome type of a step. -/
abbrev Out := Host.Outcome State Fault Refusal

/-- An event that cannot happen in this state (see `Fault.notEnabled`); `some` is its next state. -/
def enabled (o : Option State) : Out :=
  match o with
  | some s => .next s
  | none => .fault .notEnabled

/-! ### Cores, contexts, dies, tenants, launches -/

/-- Core k. -/
def State.core (s : State) (k : CoreId) : Core := aget s.cores k.toNat {}
/-- Replaces core k. -/
def State.setCore (s : State) (k : CoreId) (c : Core) : State := { s with cores := ains s.cores k.toNat c }
/-- Changes core k. -/
def State.modCore (s : State) (k : CoreId) (f : Core → Core) : State := s.setCore k (f (s.core k))
/-- Context c of a core. -/
def Core.ctx (x : Core) (c : CtxId) : Ctx := aget x.ctxs c.toNat {}
/-- Replaces context c of a core. -/
def Core.setCtx (x : Core) (c : CtxId) (y : Ctx) : Core := { x with ctxs := ains x.ctxs c.toNat y }
/-- Context c of core k. -/
def State.ctx (s : State) (k : CoreId) (c : CtxId) : Ctx := (s.core k).ctx c
/-- Replaces context c of core k. -/
def State.setCtx (s : State) (k : CoreId) (c : CtxId) (y : Ctx) : State := s.modCore k fun x => x.setCtx c y
/-- Changes context c of core k. -/
def State.modCtx (s : State) (k : CoreId) (c : CtxId) (f : Ctx → Ctx) : State := s.setCtx k c (f (s.ctx k c))
/-- The context an operation is issued for. -/
def State.me (s : State) : Ctx := s.ctx s.cur.1 s.cur.2
/-- Its core. -/
def State.here (s : State) : Core := s.core s.cur.1
/-- Changes the context an operation is issued for. -/
def State.modMe (s : State) (f : Ctx → Ctx) : State := s.modCtx s.cur.1 s.cur.2 f
/-- Changes its core. -/
def State.modHere (s : State) (f : Core → Core) : State := s.modCore s.cur.1 f
/-- Die d. -/
def State.die (s : State) (d : DieId) : Die := aget s.dies d.toNat {}
/-- Changes die d. -/
def State.modDie (s : State) (d : DieId) (f : Die → Die) : State := { s with dies := amod s.dies d.toNat {} f }
/-- What the module holds for tenant t. -/
def State.tenant (s : State) (t : Tenant) : TenantSt := aget s.tenants t.toNat {}
/-- Changes what the module holds for tenant t. -/
def State.modTenant (s : State) (t : Tenant) (f : TenantSt → TenantSt) : State :=
  { s with tenants := amod s.tenants t.toNat {} f }
/-- Function f. -/
def State.fn (s : State) (f : Fn) : FnSt := aget s.fns f.toNat {}
/-- Changes function f. -/
def State.modFn (s : State) (f : Fn) (g : FnSt → FnSt) : State := { s with fns := amod s.fns f.toNat {} g }
/-- Rill port p. -/
def State.port (s : State) (p : Port) : RillPort := aget s.ports p.toNat {}
/-- Changes rill port p. -/
def State.modPort (s : State) (p : Port) (g : RillPort → RillPort) : State :=
  { s with ports := amod s.ports p.toNat {} g }
/-- The pending launch or pass with this identifier. -/
def State.launch (s : State) (id : Word) : Option Launch := s.launches.find? fun l => l.id == id
/-- Changes the pending launch with this identifier. -/
def State.modLaunch (s : State) (id : Word) (f : Launch → Launch) : State :=
  { s with launches := lmodFirst (fun l => l.id == id) f s.launches }
/-- The die of a core (R12). -/
def dieOf (k : CoreId) : DieId := k.extractLsb' 5 2
/-- The group of a core (R12). -/
def groupOf (k : CoreId) : Nat := k.toNat / 4
/-- All cores. -/
def allCores : List CoreId := (List.range 128).map (BitVec.ofNat 7)
/-- All contexts of a core. -/
def allCtxs : List CtxId := [0, 1, 2, 3]
/-- All contexts. -/
def allContexts : List (CoreId × CtxId) := allCores.flatMap fun k => allCtxs.map fun c => (k, c)
/-- The number of a context in the package. -/
def ctxKey (k : CoreId) (c : CtxId) : Nat := 4 * k.toNat + c.toNat
/-- A fresh number for a request, command or run. -/
def State.fresh (s : State) : Nat × State := (s.nextId, { s with nextId := s.nextId + 1 })
/-- Takes one free value. -/
def State.free (s : State) : Nat × State := (s.freeCtr, { s with freeCtr := s.freeCtr + 1 })

/-! ### Physical memory -/

/-- Memory in canonical form: addresses strictly rising, no listed byte zero (an unlisted byte reads zero, log 1). -/
def Memory.wf : List Host.Cell → Bool
  | [] => true
  | [(_, b)] => b != 0
  | (a, b) :: (a', b') :: t => b != 0 && a < a' && Memory.wf ((a', b') :: t)

/-- The byte at a physical address. -/
def rd (m : List Host.Cell) (a : Nat) : Byte := aget m a 0
/-- The n bytes from a physical address on. -/
def rdBytes (m : List Host.Cell) (a : Nat) : Nat → List Byte
  | 0 => []
  | n + 1 => rd m a :: rdBytes m (a + 1) n
/-- The little-endian number in n bytes. -/
def rdNat (m : List Host.Cell) (a n : Nat) : Nat := leNat (rdBytes m a n)
/-- A line of 64 bytes. -/
def rdLine (m : List Host.Cell) (a : Nat) : Line := BitVec.ofNat 512 (rdNat m a 64)
/-- A word. -/
def rdWord (m : List Host.Cell) (a : Nat) : Word := BitVec.ofNat 32 (rdNat m a 4)
/-- A doubleword. -/
def rdDword (m : List Host.Cell) (a : Nat) : Dword := BitVec.ofNat 64 (rdNat m a 8)
/-- Writes one byte, keeping the canonical form. -/
def wr (m : List Host.Cell) (a : Nat) (b : Byte) : List Host.Cell := aput m a b 0
/-- Writes bytes from an address on. -/
def wrBytes (m : List Host.Cell) (a : Nat) : List Byte → List Host.Cell
  | [] => m
  | b :: bs => wrBytes (wr m a b) (a + 1) bs
/-- Clears the n bytes from an address on. -/
def clearRange (m : List Host.Cell) (a n : Nat) : List Host.Cell := m.filter fun x => x.1 < a || a + n ≤ x.1

/-- What lies at a physical address (R78). -/
inductive Home
  | dram
  | spm (k off : Nat)
  | acc (k off : Nat)
  | peer (p off : Nat)
  | host (off : Nat)
  | hole
  deriving DecidableEq, Repr

/-- The physical address of byte x of core k's scratchpad (R78). -/
def spmPa (k x : Nat) : Nat := 0x010000000000 + k * 0x01000000 + x
/-- The physical address of byte x of core k's accumulator store (R78). -/
def accPa (k x : Nat) : Nat := 0x020000000000 + k * 0x00200000 + x
/-- The physical address of word (row, col) of core k's accumulator store (R76). -/
def accWordPa (k row col : Nat) : Nat := accPa k (row * 1024 + col * 4)
/-- The address of the word a TAILW, DONEW or RESW field names: core [25:19], row [18:8], column [7:0] (R26, R288). -/
def tailPa (w : BitVec 26) : Nat :=
  accWordPa (w.extractLsb' 19 7).toNat (w.extractLsb' 8 11).toNat (w.extractLsb' 0 8).toNat
/-- The core such a field names. -/
def tailCore (w : BitVec 26) : CoreId := w.extractLsb' 19 7

/-- The window a physical address lies in (R78). -/
def homeOf (pa : Nat) : Home :=
  if pa < 0x008000000000 then .dram
  else if 0x010000000000 ≤ pa ∧ pa < 0x010080000000 then
    let k := (pa - 0x010000000000) / 0x01000000
    let o := pa % 0x01000000
    if o < 0x600000 then .spm k o else .hole
  else if 0x020000000000 ≤ pa ∧ pa < 0x020010000000 then
    .acc ((pa - 0x020000000000) / 0x00200000) (pa % 0x00200000)
  else if 0x040000000000 ≤ pa ∧ pa < 0x080000000000 then
    .peer ((pa - 0x040000000000) / 0x004000000000) (pa % 0x004000000000)
  else if 0x080000000000 ≤ pa ∧ pa < 0x100000000000 then .host (pa - 0x080000000000)
  else .hole

/-- The owner of the 2 MiB block of a DRAM address (R298). -/
def State.ownerOf (s : State) (pa : Nat) : Option Tenant :=
  if ahas s.owners (pa / 0x200000) then some (aget s.owners (pa / 0x200000) 0) else none

/-- Whether tenant t may reach a core's windows (R295, R296). -/
def Core.owned (x : Core) (t : Tenant) : Bool := x.v && x.tenant == t && !x.zbusy

/-- Whether a device access of tenant t may reach a physical address (R78, R296, R298, R333). -/
def State.reach (s : State) (t : Tenant) (pa : Nat) : Bool :=
  match homeOf pa with
  | .dram => s.ownerOf pa == some t
  | .spm k _ | .acc k _ => (s.core (BitVec.ofNat 7 k)).owned t
  | .peer p _ => let q := s.port (BitVec.ofNat 4 p); q.en && q.up && q.tmask.getLsbD t.toNat
  | .host _ => true
  | .hole => false

/-- The stamp table's base (R307). -/
def State.stampBase (s : State) : Nat := (s.stbase.extractLsb' 29 10).toNat * 0x20000000
/-- Whether stamping and tracing are enabled (R307). -/
def State.stampOn (s : State) : Bool := s.stbase.getLsbD 63
/-- The stamp of a granule (R307). -/
def State.stampOf (s : State) (g : Nat) : Word := rdWord s.mem (s.stampBase + 4 * g)

/-- Stores SC into the stamp of each of n granules from g on (R228). -/
def stampRange (m : List Host.Cell) (base : Nat) (sc : Word) (g : Nat) : Nat → List Host.Cell
  | 0 => m
  | n + 1 => stampRange (wrBytes m (base + 4 * g) (leBytes 4 sc.toNat)) base sc (g + 1) n

/-- The stamps of a write of n bytes: only DRAM outside the stamp table is stamped (R228, R307). -/
def State.stamped (s : State) (m : List Host.Cell) (pa n : Nat) : List Host.Cell :=
  let b := s.stampBase
  if s.stampOn && n != 0 && pa < 0x008000000000 && !(b ≤ pa && pa < b + 0x20000000) then
    stampRange m b s.sc (pa / 4096) ((pa + n - 1) / 4096 + 1 - pa / 4096)
  else m

/-- A write that performs at its home: the bytes, the stamps, and the poison of each 64-bit word it replaces whole
(R228, R322, R323). -/
def State.put (s : State) (pa : Nat) (bs : List Byte) : State :=
  { s with
    mem := s.stamped (wrBytes s.mem pa bs) pa bs.length
    poison := s.poison.filter fun w => !(pa ≤ 8 * w && 8 * w + 8 ≤ pa + bs.length) }

/-- The past writes without the n bytes from an address on: no read misses what now stands there. -/
def forgetCells (ps : List Past) (pa n : Nat) : List Past :=
  ps.filterMap fun e =>
    let cs := e.cells.filter fun x => x.1 < pa || pa + n ≤ x.1
    if cs.isEmpty && !e.cells.isEmpty then none else some { e with cells := cs }

/-- Forgets what n bytes from an address on held before, and the releases whose sequences held it (R93, R96). -/
def State.forget (s : State) (pa n : Nat) : State :=
  { s with
    pasts := forgetCells s.pasts pa n
    heads := s.heads.filter fun h => h.1 + 4 ≤ pa || pa + n ≤ h.1 }

/-- A write of the module itself, which every later read sees (log 47). -/
def State.write (s : State) (pa : Nat) (bs : List Byte) : State := (s.forget pa bs.length).put pa bs

/-- Clears n bytes, stamping them. -/
def State.clear (s : State) (pa n : Nat) : State :=
  { s.forget pa n with
    rels := s.rels.filter fun x => x.word + 4 ≤ pa || pa + n ≤ x.word
    mem := s.stamped (clearRange s.mem pa n) pa n
    poison := s.poison.filter fun w => !(pa ≤ 8 * w && 8 * w + 8 ≤ pa + n) }

/-- Whether any of the n bytes from an address on is poisoned (R323). -/
def State.poisoned (s : State) (pa n : Nat) : Bool := s.poison.any fun w => pa < 8 * w + 8 && 8 * w < pa + n

/-- Marks the words of n bytes as poisoned. -/
def State.addPoison (s : State) (pa n : Nat) : State :=
  { s with poison := (List.range ((pa + n + 7) / 8 - pa / 8)).foldl (fun p i => sinsert (pa / 8 + i) p) s.poison }

/-- A word of the accumulator store written as a release by the module itself. -/
def State.writeWord (s : State) (pa : Nat) (w : Word) : State := s.write pa (leBytes 4 w.toNat)

/-! ### Rings, logs and counters -/

/-- Counter c (R348). -/
def State.counter (s : State) (c : Nat) : Dword := aget s.counters c 0
/-- Steps counter c by n. -/
def State.count (s : State) (c n : Nat) : State :=
  { s with counters := ains s.counters c (s.counter c + BitVec.ofNat 64 n) }
/-- Sets counter c. -/
def State.setCounter (s : State) (c n : Nat) : State := { s with counters := ains s.counters c (BitVec.ofNat 64 n) }

/-- Whether a ring takes another record (R315). -/
def Ring.open (r : Ring) : Bool := r.en && (r.tail - r.head).toNat < 2 ^ r.log2n.toNat
/-- A ring after a record was dropped. -/
def Ring.drop (r : Ring) : Ring := { r with lost := if r.lost = 0xFFFFFFFF#32 then r.lost else r.lost + 1 }
/-- A ring after a record was written. -/
def Ring.push (r : Ring) : Ring := { r with tail := r.tail + 1 }
/-- Where the next record goes. -/
def Ring.slot (r : Ring) (size : Nat) : Nat := r.base.toNat + size * (r.tail.toNat % 2 ^ r.log2n.toNat)

/-! ### Shares of a die's DRAM ports (R90, R91) -/

/-- Whether a die's DRAM ports serve a party at all: a tenant in its own entries of the slot table or, when it has none, in
those of no tenant; what is no tenant's only in those (R90, R91). -/
def State.portServes (s : State) (d : DieId) (t : Option Tenant) : Bool :=
  let es := (s.die d).slots.filter fun v => v.2.getLsbD 4
  (match t with | some t => es.any (fun v => v.2.extractLsb' 0 4 == t) | none => false) || es.length < 64

/-- The share of a die's ports in which a tenant's requests are served: its own, or the common one (R91). -/
def State.shareOf (s : State) (d : DieId) (t : Tenant) : Option Tenant :=
  if (s.die d).slots.any fun v => v.2.getLsbD 4 && v.2.extractLsb' 0 4 == t then some t else none

/-- The die of a DRAM address (R17). -/
def dramDie (pa : Nat) : DieId := BitVec.ofNat 2 (pa / 2 ^ 37)

/-- Whether a party's access to a physical address is served: one to DRAM has its share (R90, R91). -/
def State.dramOpen (s : State) (t : Option Tenant) (pa : Nat) : Bool := homeOf pa != .dram || s.portServes (dramDie pa) t

/-- Whether a party's write to a physical address is served, with the write of its granule's stamp (R91, R307). -/
def State.storeOpen (s : State) (t : Option Tenant) (pa : Nat) : Bool :=
  let b := s.stampBase
  s.dramOpen t pa && (!s.stampOn || homeOf pa != .dram || (b ≤ pa && pa < b + 0x20000000) || s.dramOpen t (b + pa / 4096 * 4))

/-- Whether the accesses to n bytes are served: those to the first byte in each die (R91). -/
def spanOpen (served : Nat → Bool) (pa n : Nat) : Bool :=
  (List.range 4).all fun d => let lo := max pa (d * 2 ^ 37); pa + n ≤ lo || (d + 1) * 2 ^ 37 ≤ lo || served lo

/-! ### Records -/

/-- A log's ring. -/
def State.ringOf (s : State) (l : Log) : Ring :=
  match l with
  | .fault t => (s.tenant t).faultRing
  | .audit t => (s.tenant t).auditRing
  | .error => s.errorLog
  | .access f => (s.fn f).log
/-- Replaces a log's ring. -/
def State.setRing (s : State) (l : Log) (r : Ring) : State :=
  match l with
  | .fault t => s.modTenant t fun x => { x with faultRing := r }
  | .audit t => s.modTenant t fun x => { x with auditRing := r }
  | .error => { s with errorLog := r }
  | .access f => s.modFn f fun x => { x with log := r }
/-- Whose share of the DRAM ports a log's records are written in (R91). -/
def Log.party : Log → Option Tenant
  | .audit t => some t
  | _ => none

/-- The error counters step when the error log writes its entry or loses it: those of all errors, and those of the core
involved, if any (R348). -/
def State.countError (s : State) (bs : List Byte) (core : Option CoreId) : State :=
  let ue := if (bs.getD 0 0).getLsbD 4 then 1 else 0
  (match core with | some k => s.count (16 * k.toNat + 6 + ue) 1 | none => s).count (2065 + ue) 1

/-- A record is appended to its log, or lost; an audit entry is lost too where its block is not the tenant's (R349). An
error-log entry is counted, and so is its loss (R348). -/
def State.writeLog (s : State) (l : Log) (bs : List Byte) (core : Option CoreId := none) : State :=
  let r := s.ringOf l
  let own := match l with | .audit t => s.ownerOf (r.slot bs.length) == some t | _ => true
  let s1 := if l == .error then s.countError bs core else s
  if own && r.open then (s1.write (r.slot bs.length) bs).setRing l r.push
  else (s1.setRing l r.drop).count 2068 (if l == .error then 1 else 0)

/-- A record goes to its log; one that the DRAM ports do not serve waits, and those after it too (R91). -/
def State.logTo (s : State) (l : Log) (bs : List Byte) (core : Option CoreId := none) : State :=
  let r := s.ringOf l
  if r.open && (s.late.any (·.log == l) || !spanOpen (s.storeOpen l.party) (r.slot bs.length) bs.length) then
    { s with late := s.late ++ [⟨l, bs, core⟩] }
  else s.writeLog l bs core

/-- The records that wait are tried again, in order. -/
def State.flushLate (s : State) : State := s.late.foldl (fun t e => t.logTo e.log e.bytes e.core) { s with late := [] }

/-- The code of WHERE (R324). -/
def errNum : ErrAt → Nat
  | .dram => 0 | .spm => 1 | .acc => 2 | .regs => 3 | .latch => 4 | .fetch => 5 | .walk => 6 | .queue => 7

/-- The running launch of a core, or 0 (R324). -/
def State.launchOn (s : State) (k : CoreId) : Word :=
  match (allCtxs.map (s.ctx k)).find? fun x => x.run != .idle with
  | some x => x.launch
  | none => 0

/-- An error is logged (R324), with the core involved, if any: `flags` are the bits UE, CONS and REB. -/
def State.logEntry (s : State) (w : ErrAt) (flags : Nat) (k : Option CoreId) (addr : Nat) : State :=
  let v := errNum w + flags * 2 ^ 4 + (k.getD 0).toNat * 2 ^ 16 + (addr % 2 ^ 48) * 2 ^ 32 +
    (match k with | some k => (s.launchOn k).toNat * 2 ^ 96 | none => 0) + s.gcc.toNat * 2 ^ 128
  s.logTo .error (leBytes 32 v) k

/-- An uncorrectable error. -/
def State.logError (s : State) (w : ErrAt) (consumed : Bool) (k : Option CoreId) (addr : Nat) : State :=
  s.logEntry w (if consumed then 3 else 1) k addr

/-- An error that was corrected, in flight or by a parity rebuild (R322). -/
def State.logCorrected (s : State) (w : ErrAt) (rebuilt : Bool) (k : Option CoreId) (addr : Nat) : State :=
  s.logEntry w (if rebuilt then 4 else 0) k addr

/-- An uncorrectable error in a 64-bit word of memory poisons it; a word is logged once, when it is found, with whether a
fault consumed it (R322, R324). -/
def State.spoil (s : State) (w : ErrAt) (k : Option CoreId) (pa addr : Nat) (consumed : Bool := false) : State :=
  if s.poisoned pa 8 then s else (s.addPoison pa 8).logError w consumed k addr

/-- The 64-bit words that n bytes from an address on lie in. -/
def wordsOf (pa n : Nat) : List Nat := (List.range ((pa + n + 7) / 8 - pa / 8)).map fun i => 8 * (pa / 8 + i)

/-- Where an error in a word is logged: the array, the core involved, and the physical or local address (R324); `as`
names the place when a walk or a fetch found it. A peer's memory and the host's are not the module's. -/
def errPlace (as : Option ErrAt) (k : Option CoreId) (a : Nat) : Option (ErrAt × Option CoreId × Nat) :=
  match homeOf a, as with
  | .dram, none => some (.dram, k, a)
  | .spm j off, none => some (.spm, some (BitVec.ofNat 7 j), off)
  | .acc j off, none => some (.acc, some (BitVec.ofNat 7 j), off)
  | .dram, some w => some (w, k, a)
  | .spm _ _, some w => some (w, k, a)
  | .acc _ _, some w => some (w, k, a)
  | _, _ => none

/-- Whether a scratchpad line of core j can be rebuilt: the other three data banks of its group read clean (R69, R322). -/
def State.rebuildable (s : State) (j ln : Nat) : Bool :=
  (List.range 4).all fun i => 4 * (ln / 4) + i == ln || !s.poisoned (spmPa j (64 * (4 * (ln / 4) + i))) 64

/-- What a read of some words of memory meets (R322); none where no such error can be. `used` says that a fault consumes an
uncorrectable one at once (R324). -/
def State.meet (s : State) (as : Option ErrAt) (k : Option CoreId) (words : List Nat) (err : ReadErr) (used : Bool := false) :
    Option State :=
  match err with
  | .clean => some s
  | .corrected w => (words[w]?.bind (errPlace as k)).map fun p => s.logCorrected p.1 false p.2.1 p.2.2
  | .rebuilt =>
    (words[0]?.bind (errPlace none k)).bind fun p =>
      if p.1 == .spm && s.rebuildable (p.2.1.getD 0).toNat (p.2.2 / 64) then some (s.logCorrected .spm true p.2.1 (p.2.2 / 64 * 64))
      else none
  | .bad w => words[w]?.bind fun a => (errPlace as k a).map fun p => s.spoil p.1 p.2.1 a p.2.2 used

/-- What the reads of an event that names no error meet: the next of the errors to come, where it can be in what is read
(R322, log 37). -/
def State.meetNext (s : State) (as : Option ErrAt) (k : Option CoreId) (words : List Nat) (used : Bool := false) : State :=
  { (s.meet as k words (s.nextErrs.headD .clean) used).getD s with nextErrs := s.nextErrs.tail }

/-- A refused host access is appended to its function's access log (R328, R331). -/
def State.logAccess (s : State) (f : Fn) (bar : BitVec 3) (off : Addr) (wr tee : Bool) : State :=
  let v := off.toNat + bar.toNat * 2 ^ 48 + (if wr then 2 ^ 51 else 0) + (if tee then 2 ^ 52 else 0) +
    s.gcc.toNat * 2 ^ 64
  s.logTo (.access f) (leBytes 16 v)

/-! ### Translation -/

/-- What an access needs of its page (R311). -/
inductive Need
  | read | write | both | fetch
  deriving DecidableEq, Repr

/-- Whether a leaf grants it (R311). -/
def Tlb.grants (e : Tlb) : Need → Bool
  | .read => e.r
  | .write => e.w
  | .both => e.r && e.w
  | .fetch => e.x

/-- The levels of a walk: number, lowest index bit, index bits, leaf page size as a power of two (R310). -/
def walkLevels : List (Nat × Nat × Nat × Nat) := [(0, 39, 9, 0), (1, 30, 9, 30), (2, 21, 9, 21), (3, 16, 5, 16)]

/-- A walk from the table at `base` on: the leaf, or the level and kind of its failure (R310 to R312). -/
def walkFrom (s : State) (va : Nat) : List (Nat × Nat × Nat × Nat) → Nat → Except (Nat × Nat) Tlb
  | [], _ => .error (3, 1)
  | (lvl, sh, bits, lg) :: rest, base =>
    let a := base + 8 * ((va >>> sh) % 2 ^ bits)
    let e := rdDword s.mem a
    let pa := (e.extractLsb' 12 36).toNat * 4096
    if s.poisoned a 8 then .error (lvl, 1)
    else if !e.getLsbD 0 then .error (lvl, 0)
    else if e.extractLsb' 5 7 != 0#7 || e.extractLsb' 48 16 != 0#16 then .error (lvl, 1)
    else if e.getLsbD 1 then
      if lvl == 0 || pa % 2 ^ lg != 0 || (e.getLsbD 3 && e.getLsbD 4) then .error (lvl, 1)
      else .ok ⟨va / 2 ^ lg * 2 ^ lg, lg, pa, e.getLsbD 2, e.getLsbD 3, e.getLsbD 4⟩
    else walkFrom s va rest pa

/-- A whole walk under a tenant's root (R310). -/
def State.walk (s : State) (t : Tenant) (va : Nat) : Except (Nat × Nat) Tlb :=
  let r := (s.tenant t).ttroot
  if r.getLsbD 0 then walkFrom s va walkLevels ((r.extractLsb' 12 36).toNat * 4096) else .error (0, 0)

/-- The table entries that a walk from the table at `base` on reads. -/
def walkCells (s : State) (va : Nat) : List (Nat × Nat × Nat × Nat) → Nat → List Nat
  | [], _ => []
  | (_, sh, bits, _) :: rest, base =>
    let a := base + 8 * ((va >>> sh) % 2 ^ bits)
    let e := rdDword s.mem a
    if s.poisoned a 8 || !e.getLsbD 0 || e.getLsbD 1 then [a]
    else a :: walkCells s va rest ((e.extractLsb' 12 36).toNat * 4096)

/-- The table entries that the walk of an address of a tenant reads (R310). -/
def State.tableWords (s : State) (t : Tenant) (va : Nat) : List Nat :=
  let root := (s.tenant t).ttroot
  if root.getLsbD 0 then walkCells s va walkLevels ((root.extractLsb' 12 36).toNat * 4096) else []

/-- The level a leaf of this size stands at (R310). -/
def lvlOf (lg : Nat) : Nat := if lg = 30 then 1 else if lg = 21 then 2 else 3

/-- The outcome of a translation: a physical address, a TLB miss on a page, or a failure with level and kind
(R312). -/
inductive Xl
  | ok (pa : Nat)
  | miss (page : Nat)
  | bad (lvl kind : Nat)
  deriving DecidableEq, Repr

/-- Whether a leaf covers a virtual address. -/
def Tlb.covers (e : Tlb) (va : Nat) : Bool := va / 2 ^ e.lg * 2 ^ e.lg == e.va

/-- Who waits for a walk: a context, or a channel (R313). -/
def ctxWaiter (c : CtxId) : Nat := c.toNat
def chanWaiter (ch : Chan) : Nat := 4 + ch.toNat

/-- The failure a party's walk of a page has found. -/
def Core.failed (y : Core) (u page : Nat) : Option (Nat × Nat) :=
  (y.walkFail.find? fun w => w.page == page && w.waiters.contains u).map (·.code)

/-- Translation of one address for party u of a core: by the TLB, or by a walk of its own that has failed (R209, R310 to
R313). -/
def State.xlate (s : State) (k : CoreId) (u : Nat) (t : Tenant) (va : Nat) (need : Need) : Xl :=
  if 2 ^ 48 ≤ va then .bad 0 3
  else
    match (s.core k).tlb.find? fun e => e.covers va with
    | some e =>
      let pa := e.pa + va % 2 ^ e.lg
      if !e.grants need then .bad (lvlOf e.lg) 2
      else if !s.reach t pa then .bad (lvlOf e.lg) 3
      else .ok pa
    | none =>
      match (s.core k).failed u (va / 65536) with
      | some d => .bad d.1 d.2
      | none => .miss (va / 65536)

/-- The fault of a failed data access (R312, R317). -/
def dataFault (slot : Byte) (va : Nat) (lvl kind : Nat) (wr : Bool) : FaultInfo where
  code := if kind < 2 then 0x07 else 0x08
  slot := slot
  detail := BitVec.ofNat 8 (lvl + 4 * kind + if wr then 16 else 0)
  va := BitVec.ofNat 48 va

/-- The fault of a failed fetch (R312, R317). -/
def fetchFault (slot : Byte) (va : Nat) (lvl kind : Nat) : FaultInfo where
  code := if kind < 2 then 0x04 else 0x05
  slot := slot
  detail := BitVec.ofNat 8 (lvl + 4 * kind)
  va := BitVec.ofNat 48 va

/-- The distinct misses a core may have outstanding (R313). -/
def missLimit : Nat := 16

/-- The first walks of a core become outstanding, in order of arrival (R313). -/
def State.startWalks (s : State) (k : CoreId) : State :=
  let ws := (s.core k).walks
  let new := ((List.range ws.length).zip ws).map fun iw =>
    if iw.1 < missLimit && iw.2.seq.isNone then { iw.2 with seq := some (s.nextId + iw.1), tick := s.gcc } else iw.2
  if (ws.take missLimit).any (·.seq.isNone) then
    { s with nextId := s.nextId + missLimit }.modCore k fun y => { y with walks := new }
  else s

/-- Whether a walk of one 64 KiB unit brings the page of another (R313). -/
def State.samePage (s : State) (t : Tenant) (p q : Nat) : Bool :=
  p == q || match s.walk t (p * 65536) with | .ok e => e.covers (q * 65536) | .error _ => false

/-- Party u of a core asks for walks of pages that missed; misses to one page merge (R313). -/
def State.askWalks (s : State) (k : CoreId) (u : Nat) (pages : List Nat) : State :=
  let t := (s.core k).tenant
  let ask := fun (ws : List Walk) (p : Nat) =>
    if ws.any fun w => s.samePage t w.page p then
      lmodFirst (fun w => s.samePage t w.page p) (fun w => { w with waiters := sinsert u w.waiters }) ws
    else ws ++ [{ page := p, waiters := [u] }]
  (s.modCore k fun y => { y with walks := pages.foldl ask y.walks }).startWalks k

/-- A party no longer waits for any walk. -/
def State.dropWaiter (s : State) (k : CoreId) (u : Nat) : State :=
  s.modCore k fun y =>
    { y with
      walks := y.walks.map fun w => { w with waiters := w.waiters.filter (· != u) }
      walkFail := (y.walkFail.map fun w => { w with waiters := w.waiters.filter (· != u) }).filter fun w => !w.waiters.isEmpty }

/-! ### Results in flight -/

/-- Merges the chosen lanes of a new line into an old one. -/
def mergeLanes (old new : Line) (lanes : BitVec 16) : Line :=
  (List.range 16).foldl (fun acc i => acc ||| (((if lanes.getLsbD i then new else old).extractLsb' (32 * i) 32).setWidth
    512 <<< (32 * i))) 0

/-- The key of vector register r of cluster cl. -/
def vkey (cl r : Nat) : Nat := 320 * cl + r
/-- The key of lane mask m of cluster cl. -/
def mkey (cl m : Nat) : Nat := 8 * cl + m

/-- The keys of a context's address, predicate, nest and work registers among those that hold poison. -/
def keyA (r : Nat) : Nat := r
def keyP (r : Nat) : Nat := 64 + r
def keyN (r : Nat) : Nat := 128 + r
def keyW (r : Nat) : Nat := 192 + r

/-- Writes a result to its register (R138, R167, R168, R323); a write of s0 or p0 is discarded (R118), and m0 always
holds all lanes. -/
def State.land (s : State) (k : CoreId) (c : CtxId) (d : Dest) (val : Line) (lanes poison : BitVec 16) : State :=
  match d with
  | .s 0 | .p 0 | .m _ 0 => s
  | .s e => s.modCtx k c fun x =>
      { x with
        scal := ains x.scal e (val.setWidth 64)
        sPoison := if poison == 0 then x.sPoison.filter (· != e) else sinsert e x.sPoison
        ldsPoison := adel x.ldsPoison e }
  | .a r => s.modCtx k c fun x => { x with areg := ains x.areg r (val.setWidth 64), rPoison := x.rPoison.filter (· != keyA r) }
  | .p r => s.modCtx k c fun x =>
      { x with
        preds := if val.getLsbD 0 then x.preds ||| (1#16 <<< r) else x.preds &&& ~~~(1#16 <<< r)
        rPoison := x.rPoison.filter (· != keyP r) }
  | .n r => s.modCtx k c fun x => { x with nests := ains x.nests r val, rPoison := x.rPoison.filter (· != keyN r) }
  | .v cl r => s.modCore k fun x =>
      { x with
        vregs := ains x.vregs (vkey cl r) (mergeLanes (aget x.vregs (vkey cl r) 0) val lanes)
        vpoison := ains x.vpoison (vkey cl r) ((aget x.vpoison (vkey cl r) 0 &&& ~~~lanes) ||| (poison &&& lanes)) }
  | .m cl r => s.modCore k fun x =>
      let old := aget x.masks (mkey cl r) 0xFFFF
      { x with
        masks := ains x.masks (mkey cl r) ((old &&& ~~~lanes) ||| (val.setWidth 16 &&& lanes))
        mPoison := x.mPoison.filter (· != mkey cl r) }
  | .flagSet => s.modCtx k c fun x =>
      { x with flags := x.flags ||| val.setWidth 64, setNow := x.setNow ||| val.setWidth 64 }
  | .flagClr => s.modCtx k c fun x =>
      { x with flags := x.flags &&& ~~~(val.setWidth 64), flagSrc := x.flagSrc.filter fun f => !val.getLsbD f.flag }

/-- ORs arithmetic flags into a context's FLAGS (R65, R66). -/
def State.orFlags (s : State) (k : CoreId) (c : CtxId) (f : Byte) : State :=
  if f = 0 then s else s.modCtx k c fun x => { x with arith := x.arith ||| f }

/-- Lands the chosen lanes of a result in flight, which stays in flight for the others; its flags land with the last of
them (R39, R66, R248). -/
def State.landPend (s : State) (k : CoreId) (c : CtxId) (p : Pend) (lanes : BitVec 16) : State :=
  (s.land k c p.dest p.val (lanes &&& p.lanes) p.poison).orFlags k c (if p.lanes &&& ~~~lanes = 0 then p.flags else 0)

/-- Lands every result whose window has ended: L cycles or L bundles after its issue (R39). -/
def State.landDue (s : State) (k : CoreId) (c : CtxId) : State :=
  let x := s.ctx k c
  let now := (s.core k).cycle
  let due := fun (p : Pend) => p.cycle + p.lat ≤ now || p.bundle + p.lat ≤ x.bundles
  (x.pend.filter due).foldl (fun t p => t.landPend k c p p.lanes)
    (s.modCtx k c fun x => { x with pend := x.pend.filter fun p => !due p })

/-- Where a scoreboarded result goes when it lands. -/
def State.landSbDest (s : State) (k : CoreId) (c : CtxId) (b : Sb) : State :=
  match b.dest with
  | .s e =>
    let s1 := s.land k c (.s e) b.val 0xFFFF 0
    if b.poison == 0 || e == 0 then s1 else s1.modCtx k c fun x => { x with ldsPoison := ains x.ldsPoison e b.va }
  | .w w => s.modCtx k c fun x =>
      { x with works := ains x.works w.toNat (b.val.setWidth 64), rPoison := x.rPoison.filter (· != keyW w.toNat) }
  | .v cl r lanes => s.land k c (.v cl r) b.val lanes b.poison

/-- Lands a scoreboarded result; a cancelled one is discarded, but its flags land (R66, R142). -/
def State.landSb (s : State) (k : CoreId) (c : CtxId) (b : Sb) : State :=
  (if b.cancelled then s else s.landSbDest k c b).orFlags k c b.flags

/-- Lands every scoreboarded result that has arrived. -/
def State.landSbs (s : State) (k : CoreId) (c : CtxId) : State :=
  let x := s.ctx k c
  (x.sbs.filter (·.arrived)).foldl (fun t b => t.landSb k c b)
    (s.modCtx k c fun x => { x with sbs := x.sbs.filter fun b => !b.arrived })

/-- Lands everything in flight that has a value (R320: before a context is held). -/
def State.landAll (s : State) (k : CoreId) (c : CtxId) : State :=
  let x := s.ctx k c
  (x.pend.foldl (fun t p => t.landPend k c p p.lanes) (s.modCtx k c fun x => { x with pend := [] })).landSbs k c

/-- A scoreboarded result arrives: the entry takes its value (R38). -/
def Ctx.arrive (x : Ctx) (id : Nat) (val : Line) (poison : BitVec 16) (flags : Byte) (va : Addr := 0) : Ctx :=
  let f := fun (b : Sb) => { b with arrived := true, val := val, poison := poison, flags := flags, va := va }
  { x with sbs := lmodFirst (fun b => b.id == id) f x.sbs }

/-- The present edge of a core's die (R20). -/
def State.edge (s : State) (k : CoreId) : Nat := (s.die (dieOf k)).cycle

/-- An engine or multicast sets a flag of a context (R102); in a cycle whose issue stage is still to come, the flag is one
set in the issue cycle (R115). -/
def State.setFlag (s : State) (k : CoreId) (c : CtxId) (f : FReg) (src : FlagSrc) : State :=
  let m : BitVec 64 := 1#64 <<< f.toNat
  let now : BitVec 64 := if (s.core k).cycle < s.edge k then m else 0
  s.modCtx k c fun x => { x with flags := x.flags ||| m, setNow := x.setNow ||| now, flagSrc := x.flagSrc ++ [src] }

/-! ### Fault records, holding and failing -/

/-- The bytes of a fault record (R316, R317). -/
def faultRecord (f : FaultInfo) (held : Bool) (lid : Word) (k : CoreId) (c : CtxId) (unit : Option (BitVec 24))
    (pc : Addr) (gcc : Dword) : List Byte :=
  let b := fun (x : Bool) (n : Nat) => if x then 2 ^ n else 0
  leBytes 64 (f.code.toNat + b f.strad 8 + b held 9 + b f.eng 10 + b f.chan.isSome 11 +
    (f.chan.getD 0).toNat * 2 ^ 12 + f.slot.toNat * 2 ^ 16 + f.detail.toNat * 2 ^ 24 + lid.toNat * 2 ^ 32 +
    k.toNat * 2 ^ 64 + c.toNat * 2 ^ 71 + (unit.getD 0).toNat * 2 ^ 80 + b unit.isSome 104 + pc.toNat * 2 ^ 128 +
    f.va.toNat * 2 ^ 192 + f.imm.toNat * 2 ^ 256 + gcc.toNat * 2 ^ 320)

/-- Appends a record to a tenant's fault ring (R315). -/
def State.ringFault (s : State) (t : Tenant) (bs : List Byte) : State := s.logTo (.fault t) bs

/-- The record of a fault of context c of core k; a consumed uncorrectable error is counted (R315 to R317, R348). -/
def State.recordFault (s : State) (k : CoreId) (c : CtxId) (f : FaultInfo) (held : Bool) : State :=
  let x := s.ctx k c
  let t := (s.core k).tenant
  let s1 := s.ringFault t (faultRecord f held x.launch k c x.unit (f.pc.getD x.pc) (f.gcc.getD s.gcc))
  if f.code = 0x0D then s1.count (2080 + t.toNat) 1 else s1

/-- A fault becomes pending: in the order raised, and in ascending code order within a cycle (R318); its record will name
the tick it was raised in (R316). -/
def Ctx.pushFault (x : Ctx) (now : Nat) (gcc : Dword) (f : FaultInfo) : Ctx :=
  let f := { f with gcc := some gcc }
  let pre := x.pendFaults.filter fun e => e.1 < now || (e.1 == now && e.2.code.toNat ≤ f.code.toNat)
  let post := x.pendFaults.filter fun e => !(e.1 < now || (e.1 == now && e.2.code.toNat ≤ f.code.toNat))
  { x with pendFaults := pre ++ [(now, f)] ++ post }

/-- A launch starts to fail with a status: nothing more is dealt, and every context of it stops at its next bundle
boundary (R42, R301); what a context presents in this very tick it still presents (R27). The first cause decides the
status. -/
def State.failLaunch (s : State) (id : Word) (status : Byte) : State :=
  match s.launch id with
  | none => s
  | some l =>
    if l.phase == .failing || l.phase == .ended then s
    else
      let s1 := s.modLaunch id fun l =>
        { l with phase := .failing, status := status }
      l.members.foldl (fun t m => t.modCtx (BitVec.ofNat 7 m.1) (BitVec.ofNat 2 m.2) fun x =>
        if x.launch == id then { x with stopReq := true, stopTick := s.gcc } else x) s1

/-- A context of the launch counts in NFLT, once, while the launch fails with FAULT (R27). -/
def State.countFault (s : State) (k : CoreId) (c : CtxId) (id : Word) : State :=
  s.modLaunch id fun l =>
    if l.status == 0x07 && !l.badSave && !l.faulted.contains (k, c) then { l with faulted := (k, c) :: l.faulted } else l

/-- The clusters of a context. -/
def Ctx.clusters (x : Ctx) : List Nat := (List.range 8).filter fun cl => x.clmask.getLsbD cl

/-- The poison of some clusters' registers is discarded (R31, R165). -/
def Core.cleanse (y : Core) (own : List Nat) : Core :=
  { y with
    vpoison := y.vpoison.filter fun v => !own.contains (v.1 / 320)
    mPoison := y.mPoison.filter fun m => !own.contains (m / 8) }

/-- The clusters of a context whose run has ended: landed lines of their queues are freed and outstanding ones will be
dropped, and the poison of their registers is discarded (R165). -/
def State.releaseClusters (s : State) (k : CoreId) (c : CtxId) : State :=
  let own := (s.ctx k c).clusters
  let drop := fun (es : List LaqEntry) => (es.filter fun e => !e.landed).map fun e => { e with dropped := true }
  s.modCore k fun y => { y.cleanse own with laqs := own.foldl (fun l cl => ains l cl (drop (aget l cl []))) y.laqs }

/-- A PREEMPT under way for a launch that the pre-emption bound fails will answer BOUND (R300, R302). -/
def State.noteBound (s : State) (id : Word) (code : Byte) : State :=
  let cause := code == 0x0E && match s.launch id with | some l => l.phase != .failing | none => false
  if cause then { s with running := s.running.map fun r => if r.launch == id then { r with bound := true } else r } else s

/-- A context stops for good: the faults still pending for it are never taken (R42). -/
def Ctx.stopNow (x : Ctx) : Ctx :=
  { x with run := .stopped, stopReq := false, preempt := false, pendFaults := [], heldCode := 0, xfer := none }

/-- TAKING A FAULT, at or before a bundle, which commits nothing (R42, R315 to R320). The record is written; a fault
0x04 or 0x07 holds the context for the driver, every result in flight landing first; any other fault stops the
context and fails its launch. -/
def State.takeFault (s : State) (k : CoreId) (c : CtxId) (f : FaultInfo) : State :=
  let held := (f.code == 0x04 || f.code == 0x07) && !(s.ctx k c).stopReq
  let s1 := ((s.recordFault k c f held).landAll k c).dropWaiter k (ctxWaiter c)
  let id := (s.ctx k c).launch
  if held then
    s1.modCtx k c fun x => { x with run := .held, heldCode := f.code }
  else
    ((((s1.noteBound id f.code).failLaunch id 0x07).countFault k c id).releaseClusters k c).modCtx k c Ctx.stopNow

/-- A debug stop: held with code 0x10, failing nothing (R321). -/
def State.debugStop (s : State) (k : CoreId) (c : CtxId) (detail : Byte) : State :=
  let f : FaultInfo := { code := 0x10, detail := detail }
  ((s.recordFault k c f true).landAll k c).modCtx k c fun x =>
    { x with run := .held, heldCode := 0x10, stepStop := false }

/-- RETURNING FROM A HELD FAULT: GO lets the context go on. Its fetch buffer is discarded, the bundle is presented
again, and TRAPINFO records the code (R320, R321, R163). -/
def State.resumeHeld (s : State) (k : CoreId) (c : CtxId) (step : Bool) : State :=
  (s.modCtx k c fun x =>
    { x with
      run := if x.begun then .running else .starting
      heldCode := 0
      trapinfo := if x.heldCode == 0x10 then x.trapinfo else 0x100#9 ||| x.heldCode.setWidth 9
      blocks := []
      code := []
      fetchFail := []
      segFail := false
      skipBp := x.heldCode == 0x10
      stepReq := step
      stepStop := false }).dropWaiter k (ctxWaiter c)

end Sys2Proof.Machine
end

