-- ==== Sys2Proof/Machine/Views.lean ====
section
/-! DEFINITION. What a read may return (spec/05, R92 to R111). Memory holds the last write of each byte in its modification
order; beside it stand the writes that later reads may still miss, with the bytes before them in that order and what each
of them happens before. A read that such a write does not happen before may return the bytes before it (R98), or those of
a write to come; which it returns is a free value, and so is the place of a write in the order of a byte, among the
writes that do not happen before it (R93). The changes of happens-before are one operation, `learnAll`: past writes learn
of accesses they happen before. -/
namespace Sys2Proof.Machine

/-! ### Scopes (R13, R95) -/

/-- Whether two cores lie in one domain of a level. -/
def sameDomain (sc : Scope) (a b : CoreId) : Bool :=
  match sc with
  | .core => a == b
  | .group => groupOf a == groupOf b
  | .die => dieOf a == dieOf b
  | _ => true

/-- Whether the party that makes an access lies inside a scope as seen from a context. DESIGN CHOICE (log 62): the module
itself, with its launch schedulers, lies inside PKG and SYS and inside no narrower scope. -/
def inScope (sc : Scope) (k : CoreId) (c : CtxId) (q : Who) : Bool :=
  match q.path with
  | .host _ => sc == .sys
  | .mod => sc == .pkg || sc == .sys
  | .eng _ _ => sc != .ctx && !(q.bulk && (sc == .core || sc == .group)) && sameDomain sc k q.core
  | _ => if sc == .ctx then q.core == k && q.ctx == c else sameDomain sc k q.core

/-! ### Happens-before between a write and an access -/

/-- Whether two accesses are of one context. -/
def Who.sameCtx (a b : Who) : Bool := a.core == b.core && a.ctx == b.ctx

/-- Whether a write happens before an access to a byte it wrote, by program order (R94), the engines' order (R100, R101,
R104), an IFENCE (R108) or the order of a stream (R109) alone. -/
def Who.before (w q : Who) : Bool :=
  match w.path, q.path with
  | .loc, .loc => w.sameCtx q
  | .glob, .glob => w.sameCtx q
  | .loc, .glob => w.sameCtx q && w.cls &&& q.cls != 0 && w.pos < q.pos
  | .loc, .eng u _ => w.sameCtx q && (w.pos + 1 < q.xfence || (u == 16 && w.pos < q.pos))
  | .glob, .eng _ _ => w.sameCtx q && w.pos + 1 < q.xfence
  | .loc, .code => w.sameCtx q && w.pos + 1 < q.xfence
  | .glob, .code => w.sameCtx q && w.pos + 1 < q.xfence
  | .eng u i, .eng v j => w.core == q.core && u == v && i ≤ j
  | .host m, .host n => m == n
  | _, _ => false

/-- Whether what a write happens before takes in an access, limits apart. -/
def To.takes (t : To) (q : Who) : Bool :=
  match t with
  | .ctx k c f m loc _ =>
    q.core == k && q.ctx == c &&
      match q.path with
      | .loc => loc && f ≤ q.pos && m &&& q.cls != 0
      | .glob => f ≤ q.pos && m &&& q.cls != 0
      | .eng _ _ | .code => f < q.xfence
      | _ => false
  | .unit k u i => match q.path with | .eng v j => q.core == k && u == v && i < j | _ => false
  | .launch l => (match q.path with | .host _ | .mod | .code => false | _ => true) && q.launch == l
  | .rel _ => false
  | .host => match q.path with | .host n => n < 64 | _ => false

/-- Whether a way of happening before takes in an access, its fences' scopes holding the reader (R95). -/
def Know.reaches (t : Know) (q : Who) : Bool := t.dest.takes q && t.lims.all fun l => inScope l.scope l.core l.ctx q

/-- Whether a past write happens before an access. -/
def Past.known (e : Past) (q : Who) : Bool := e.who.before q || e.know.any (·.reaches q)

/-- Whether a past write wrote some of n bytes. -/
def Past.hits (e : Past) (pa n : Nat) : Bool := e.cells.any fun x => pa ≤ x.1 && x.1 < pa + n

/-! ### What past writes learn -/

/-- Whether one way of happening before says all that another says. -/
def Know.implies (a b : Know) : Bool :=
  a.lims.all b.lims.contains &&
    match a.dest, b.dest with
    | .ctx k c f m l v, .ctx k' c' f' m' l' v' =>
      k == k' && c == c' && f ≤ f' && m' &&& ~~~m == 0 && (l || (!l' && (v'.isNone || v == v')))
    | x, y => x == y

/-- A past write that also happens before these. -/
def Past.learn (e : Past) (ks : List Know) : Past :=
  { e with know := ks.foldl (fun l t => if l.any (·.implies t) then l else l ++ [t]) e.know }

/-- Every past write learns what f gives it. -/
def State.learnAll (s : State) (f : Past → List Know) : State :=
  { s with pasts := s.pasts.map fun e => e.learn (f e) }

/-- The limits under which a past write happens before an access; none where it does not. -/
def Past.limsTo (e : Past) (q : Who) : List (List Lim) :=
  (if e.who.before q then [[]] else []) ++ (e.know.filter fun t => t.dest.takes q).map (·.lims)

/-- The limits under which a past write happens before, or is, an access that context c of core k makes before a place,
in one of some classes (R94). -/
def Past.limsBy (e : Past) (k : CoreId) (c : CtxId) (pos : Nat) (cls : BitVec 16) : List (List Lim) :=
  let own := e.who.core == k && e.who.ctx == c && e.who.pos < pos && e.who.cls &&& cls != 0 &&
    (e.who.path == .loc || e.who.path == .glob)
  (if own then [[]] else []) ++ e.know.filterMap fun t =>
    match t.dest with
    | .ctx k' c' f m _ _ => if k' == k && c' == c && f ≤ pos && m &&& cls != 0 then some t.lims else none
    | _ => none

/-- What a fence of context c of core k makes known (R94, R95). -/
def FenceRec.know (f : FenceRec) (k : CoreId) (c : CtxId) (e : Past) : List Know :=
  let lim : List Lim := if f.scope == .sys then [] else [⟨k, c, f.scope⟩]
  let next := fun (loc : Bool) (via : Option Nat) => To.ctx k c (f.pos + 1) f.mask loc via
  let own := e.who.core == k && e.who.ctx == c && e.who.pos ≤ f.pos && e.who.cls &&& f.mask != 0
  if f.scope == .ctx then [] else
    (if own && e.who.path == .loc then [⟨next true none, lim⟩] else []) ++
      (if own && e.who.path == .glob then [⟨next false none, lim⟩] else []) ++
      e.know.filterMap fun t =>
        match t.dest with
        | .ctx k' c' g m loc via =>
          if k' == k && c' == c && g ≤ f.pos && m &&& f.mask != 0 then
            some ⟨next loc via, t.lims ++ lim.filter fun l => !t.lims.contains l⟩
          else none
        | _ => none

/-- A past write learns what the fences of a context make known, in their order. -/
def Past.fenced (e : Past) (fs : List FenceRec) (k : CoreId) (c : CtxId) : Past :=
  fs.foldl (fun e f => e.learn (f.know k c e)) e

/-- The accesses of a context's later bundles that come after an access of it at a place, given the classes that those come
in at once: their first place, their classes, and the limits under which they do; a fence passes the order on (R94,
R95). -/
def onward (fs : List FenceRec) (k : CoreId) (c : CtxId) (pos : Nat) (cls : BitVec 16) : List (Nat × BitVec 16 × List Lim) :=
  fs.foldl (fun l f =>
    let lim : List Lim := if f.scope == .sys then [] else [⟨k, c, f.scope⟩]
    if f.scope == .ctx || f.pos < pos then l
    else l ++ (l.filter fun x => x.2.1 &&& f.mask != 0).map fun x => (f.pos + 1, f.mask, x.2.2 ++ lim.filter fun y => !x.2.2.contains y))
    [(pos + 1, cls, [])]

/-- The limits under which a past write happens before an access to n bytes, which releases some classes (R94, R97). -/
def Past.limsAt (e : Past) (q : Who) (rel : BitVec 16) (pa n : Nat) : List (List Lim) :=
  (if e.who.path == q.path && e.who.sameCtx q && e.who.pos < q.pos && e.hits pa n then [[]] else []) ++
    e.limsBy q.core q.ctx q.pos (q.cls ||| rel)

/-- An access of a context passes the order on (R97): what happens before it happens before the context's later accesses
that come after it in some classes, local ones too if it is local, otherwise once its result is consumed (R94). -/
def State.passOn (s : State) (q : Who) (cls : BitVec 16) (via : Option Nat) (lims : Past → List (List Lim)) : State :=
  let ons := onward (s.ctx q.core q.ctx).fences q.core q.ctx q.pos cls
  s.learnAll fun e => (lims e).flatMap fun l =>
    ons.map fun o => ⟨.ctx q.core q.ctx o.1 o.2.1 (q.path == .loc) via, l ++ o.2.2.filter fun y => !l.contains y⟩

/-- A local access to n bytes comes after the context's earlier local writes of them, of whatever class, and so do its
later accesses of the access's class (R94, R97). -/
def State.touch (s : State) (q : Who) (pa n : Nat) : State :=
  let own := fun (e : Past) => e.who.path == .loc && e.who.sameCtx q && e.hits pa n && e.who.cls &&& q.cls == 0
  if s.pasts.any own then s.passOn q q.cls none fun e => if own e then [[]] else [] else s

/-! ### Reads (R93, R98) -/

/-- The writes to n bytes that a read may miss, latest first, each with the bytes for which it may: those that no later
write which the read must see covers. `seen` names more writes that it must see. -/
def State.missable (s : State) (q : Who) (pa n : Nat) (seen : List Nat := []) : List Past :=
  (s.pasts.foldl (fun (r : List Past × List Nat) e =>
    let cs := e.cells.filter fun x => pa ≤ x.1 && x.1 < pa + n && !r.2.contains x.1
    if cs.isEmpty then r
    else if e.known q || seen.contains e.id then (r.1, r.2 ++ cs.map (·.1))
    else (r.1 ++ [{ e with cells := cs }], r.2)) ([], [])).1

/-- Bytes from an address on as a read finds them that misses some of these writes: each byte as the last write left it
that the read does not miss. -/
def unsee (es : List Past) (miss : Past → Bool) (pa : Nat) (bs : List Byte) : List Byte :=
  (es.foldl (fun (r : List Byte × List Nat) e =>
    if miss e then
      (((List.range bs.length).zip r.1).map fun ib => if r.2.contains (pa + ib.1) then ib.2 else aget e.cells (pa + ib.1) ib.2, r.2)
    else (r.1, r.2 ++ e.cells.map (·.1))) (bs, [])).1

/-- Whether a read misses one of the writes that it may miss: one free bit for each write. -/
def State.misses (s : State) (es : List Past) (e : Past) : Bool :=
  Config.freeBit (s.freeCtr + (es.takeWhile (·.id != e.id)).length)

/-- Whether a write to come writes some of n bytes that reads may return before it performs; words of the accumulator store
are read in the order of their accesses (R77). -/
def Promise.hits (p : Promise) (pa n : Nat) : Bool :=
  (match homeOf pa with | .acc _ _ => false | _ => true) && p.cells.any fun x => pa ≤ x.1 && x.1 < pa + n

/-- Whether a read of n bytes returns what stands in memory: it can miss no write to any of them, and none is to come that
it may return. -/
def State.sure (s : State) (q : Who) (pa n : Nat) : Bool :=
  (s.pasts.all fun e => !e.hits pa n || e.known q) && !(s.promises.any (·.hits pa n))

/-- A read that returns bytes of a write to come, if one may: its bytes, the numbers of such writes, and the state, in which
the read stands among the past writes, so that it is known what it happens before (R98). -/
def State.foresee (s : State) (q : Who) (pa : Nat) (seen : List Nat) (bs : List Byte) : List Byte × List Nat × State :=
  match s.promises.filter (·.hits pa bs.length) with
  | [] => (bs, [], s)
  | ps =>
    match (ps.find? fun p => p.num.any seen.contains).or ps[Config.freeNat s.freeCtr % (ps.length + 1)]? with
    | none => (bs, [], s.free.2)
    | some p =>
      let n := p.num.getD s.pastCtr
      let e : Past := { id := s.pastCtr + 1, who := q, cells := [], heads := [], know := [] }
      (((List.range bs.length).zip bs).map fun ib => aget p.cells (pa + ib.1) ib.2, [n],
        { s.free.2 with
          promises := lmodFirst (· == p) (fun p => { p with num := some n, readers := (s.pastCtr + 1) :: p.readers }) s.promises
          pasts := e.fenced (s.ctx q.core q.ctx).fences q.core q.ctx :: s.pasts
          pastCtr := s.pastCtr + 2 })

/-- An indivisible read of n bytes: of each write to them it finds all or nothing. Answers the bytes, the numbers of the
writes it found of those it could miss, and the state with the free values taken. -/
def State.look (s : State) (q : Who) (pa n : Nat) (seen : List Nat := []) : List Byte × List Nat × State :=
  let es := s.missable q pa n seen
  let d := ({ s with freeCtr := s.freeCtr + es.length } : State).foresee q pa seen (unsee es (s.misses es) pa (rdBytes s.mem pa n))
  (d.1, (es.filter fun e => !s.misses es e).map (·.id) ++ d.2.1, d.2.2)

/-- An indivisible read of n bytes. -/
def State.see (s : State) (q : Who) (pa n : Nat) : List Byte × State := let d := s.look q pa n; (d.1, d.2.2)

/-- A read of n units of w bytes, each indivisible. -/
def State.seeUnits (s : State) (q : Who) (w : Nat) : Nat → Nat → List Byte × State
  | _, 0 => ([], s)
  | pa, n + 1 =>
    let d := s.see q pa w
    let r := d.2.seeUnits q w (pa + w) n
    (d.1 ++ r.1, r.2)

/-- A read of n bytes, none larger than a byte indivisible. -/
def State.seeBytes (s : State) (q : Who) (pa n : Nat) : List Byte × State :=
  if s.sure q pa n then (rdBytes s.mem pa n, s) else s.seeUnits q 1 pa n

/-- A read of n bytes in aligned lanes of w bytes. -/
def State.seeLanes (s : State) (q : Who) (w pa n : Nat) : List Byte × State :=
  if s.sure q pa n then (rdBytes s.mem pa n, s) else s.seeUnits q w pa (n / w)

/-- A read of a word of the accumulator store, as one of the accesses to it left it (R77): the word, and the releases
whose sequences hold the value read (R96). -/
def State.seeWord (s : State) (q : Who) (pa : Nat) : Word × List Nat × State :=
  let es := s.missable q pa 4
  let ms := es.takeWhile (s.misses es)
  (BitVec.ofNat 32 (leNat (unsee ms (fun _ => true) pa (rdBytes s.mem pa 4))),
    match ms.getLast? with | some e => aget e.heads pa [] | none => aget s.heads pa [],
    { s with freeCtr := s.freeCtr + es.length })

/-! ### Writes -/

/-- The writes to n bytes that a write may come before in their modification orders: the last ones of which none happens
before it (R93). The accesses to a word of the accumulator store stand in the order they perform in (R77). -/
def State.over (s : State) (w : Who) (pa n : Nat) : List Past :=
  match homeOf pa with
  | .acc _ _ => []
  | _ => (s.pasts.filter (·.hits pa n)).takeWhile fun e => !e.known w

/-- Puts a write into a list of past writes below the first j that wrote some of n bytes. -/
def insertUnder (pa n : Nat) (e : Past) : Nat → List Past → List Past
  | 0, ps => e :: ps
  | _ + 1, [] => [e]
  | j + 1, p :: ps => p :: insertUnder pa n e (if p.hits pa n then j else j + 1) ps

/-- The lowest of some past writes, latest first, that wrote a byte. -/
def lowest (es : List Past) (a : Nat) : Option Past := es.reverse.find? fun e => ahas e.cells a

/-- A write of bytes that stands before the writes `es`, the last ones to these bytes, in their modification orders: where
one of those wrote a byte, the byte in memory stays. -/
def State.writeUnder (s : State) (w : Who) (id : Nat) (es : List Past) (pa : Nat) (bs : List Byte) : State :=
  let n := bs.length
  let e : Past :=
    { id := id, who := w, heads := s.heads.filter fun h => pa < h.1 + 4 && h.1 < pa + n, know := []
      cells := (List.range n).map fun i =>
        (pa + i, match lowest es (pa + i) with | some p => aget p.cells (pa + i) 0 | none => rd s.mem (pa + i)) }
  let lift := fun (p : Past) => { p with cells := p.cells.map fun x =>
    if pa ≤ x.1 && x.1 < pa + n && (lowest es x.1).any (·.id == p.id) then (x.1, bs.getD (x.1 - pa) 0) else x }
  let s1 : State :=
    if es.isEmpty then s.put pa bs
    else
      { s with mem := s.stamped ((((List.range n).zip bs).filter fun ib => (lowest es (pa + ib.1)).isNone).foldl
          (fun m ib => wr m (pa + ib.1) ib.2) s.mem) pa n }
  { s1 with
    pasts := insertUnder pa n (e.fenced (s.ctx w.core w.ctx).fences w.core w.ctx) es.length
      (if es.isEmpty then s.pasts else s.pasts.map lift) }

/-- Whether a write keeps a promise: it writes the promised bytes, and no read that returned them happens before it (R98). -/
def State.keeps (s : State) (w : Who) (cells : List Host.Cell) (p : Promise) : Bool :=
  p.cells.all cells.contains && s.pasts.all fun e => !p.readers.contains e.id || !e.known w

/-- Bytes from an address on in units of u bytes, each with its address; 0 makes one unit of all. The first number bounds
the units. -/
def unitsOfBytes (u : Nat) : Nat → Nat → List Byte → List (Nat × List Byte)
  | 0, _, _ => []
  | k + 1, pa, bs =>
    if bs.isEmpty then [] else if u = 0 then [(pa, bs)] else (pa, bs.take u) :: unitsOfBytes u k (pa + u) (bs.drop u)

/-- A write performs in indivisible units, each of which takes a place of its own in the modification order of its bytes,
behind every write that happens before it (R93). A unit that keeps a promise comes last. A poisoned word whose bytes are
all new holds no poison (R323). -/
def State.writeUnits (s : State) (w : Who) (us : List (Nat × List Byte)) : State :=
  let cells := us.flatMap fun u => ((List.range u.2.length).zip u.2).map fun ib => (u.1 + ib.1, ib.2)
  let kept := s.promises.filter (s.keeps w cells)
  let id := (kept.findSome? (·.num)).getD s.pastCtr
  let s0 : State := { s with pastCtr := s.pastCtr + 1, promises := s.promises.filter fun p => !s.keeps w cells p }
  let one := fun (t : State) (u : Nat × List Byte) =>
    let es := if kept.any (·.cells.any fun x => u.1 ≤ x.1 && x.1 < u.1 + u.2.length) then [] else t.over w u.1 u.2.length
    if es.isEmpty then t.writeUnder w id [] u.1 u.2
    else (t.free.2).writeUnder w id (es.take (Config.freeNat t.freeCtr % (es.length + 1))) u.1 u.2
  let t := us.foldl one s0
  let new := fun (a : Nat) => cells.any (·.1 == a) && ((t.pasts.find? fun e => ahas e.cells a).any (·.id == id))
  { t with poison := t.poison.filter fun p => !((List.range 8).all fun i => new (8 * p + i)) }

/-- Whether two writes are of one party, for a release's sequence: of one context, or of one stream (R96, R109). -/
def Who.sameParty (a b : Who) : Bool :=
  match a.path, b.path with
  | .host m, .host n => m == n
  | .host _, _ => false
  | .mod, _ => false
  | _, .host _ => false
  | _, .mod => false
  | _, _ => a.sameCtx b

/-- The releases of a word whose sequences hold it after a write to it: those of the writing party, and all that held it
before when the write is a read-modify-write (R96). -/
def State.headsAfter (s : State) (w : Who) (rmw : Bool) (z : Nat) : List Nat :=
  let own := (s.rels.filter fun x => x.word == z && x.who.sameParty w).map (·.id)
  own ++ if rmw then (aget s.heads z []).filter fun r => !own.contains r else []

/-- The release sequences after a write of n bytes. -/
def State.headsWrite (s : State) (w : Who) (rmw : Bool) (pa n : Nat) : List (Nat × List Nat) :=
  ((s.heads.map (·.1) ++ s.rels.map (·.word)).eraseDups.filter fun z => pa < z + 4 && z < pa + n).foldl (fun h z =>
    let l := s.headsAfter w rmw z
    if l.isEmpty then adel h z else ains h z l) s.heads

/-- A write by a party other than the module: it performs, in units of `unit` bytes (0: as a whole), and reads it does not
happen before may still miss it. -/
def State.writeBy (s : State) (w : Who) (pa : Nat) (bs : List Byte) (rmw : Bool := false) (unit : Nat := 0) : State :=
  if bs.isEmpty then s
  else if (s.over w pa bs.length).isEmpty && s.promises.isEmpty then
    { ({ s with pastCtr := s.pastCtr + 1 } : State).writeUnder w s.pastCtr [] pa bs with heads := s.headsWrite w rmw pa bs.length }
  else
    { s.writeUnits w (unitsOfBytes unit bs.length pa bs) with heads := s.headsWrite w rmw pa bs.length }

/-- A release of a word performs: what happens before it learns of it. Answers its number. -/
def State.release (s : State) (w : Who) (sc : Scope) (word : Nat) (val : Word) (lims : Past → List (List Lim)) : Nat × State :=
  let r := s.pastCtr
  (r, { s.learnAll (fun e => (lims e).map (⟨.rel r, ·⟩)) with
        rels := ⟨r, w, sc, word, val⟩ :: s.rels
        pastCtr := s.pastCtr + 1 })

/-- The module writes a word as a release at SYS scope (R29, R96). -/
def State.publish (s : State) (pa : Nat) (w : Word) (lims : Past → List (List Lim)) : State :=
  let r := (s.writeWord pa w).release { path := .mod } .sys pa w lims
  { r.2 with heads := ains r.2.heads pa [r.1] }

/-- Whether a release synchronises with an acquire of a context at a scope: each party inside the other's scope
(R95). -/
def Rel.syncs (x : Rel) (q : Who) (sc : Scope) : Bool :=
  inScope x.scope x.who.core x.who.ctx q && inScope sc q.core q.ctx x.who

/-- An acquire that has read a value of some releases' sequences (R95, R96): what happens before them happens before the
context's later accesses of the mask, local ones once the read's result is consumed (R94). -/
def State.acquire (s : State) (q : Who) (sc : Scope) (mask : BitVec 16) (hs : List Nat) (via : Nat) : State :=
  let ok := hs.filter fun r => s.rels.any fun x => x.id == r && x.syncs q sc
  s.passOn q (mask ||| q.cls) (some via) fun e => e.know.filterMap fun t =>
    match t.dest with | .rel r => if ok.contains r then some t.lims else none | _ => none

/-- A bundle of context c of core k, at a place, consumes the result of a global read (R94): what happens before the read
happens before the local accesses that come after it, from there on. -/
def State.consume (s : State) (k : CoreId) (c : CtxId) (pos : Nat) (u : Unread) : State :=
  s.learnAll fun e => e.know.filterMap fun t =>
    match t.dest with
    | .ctx k' c' f m false (some v) =>
      if k' == k && c' == c && v == u.id then some ⟨.ctx k c (max pos f) m true none, t.lims⟩ else none
    | _ => none

/-- A sync word of a context's bundle is satisfied by a flag (R102): the command's writes, and all that happens before
its accesses, happen before the bundle's accesses and all later ones; of a multicast, what it landed in the context's
core; of an A-consumed flag, only the command's reads do (R105). -/
def State.observe (s : State) (k : CoreId) (c : CtxId) (pos : Nat) (f : FlagSrc) : State :=
  s.learnAll fun e =>
    let ls := match f.recv with
      | none =>
        if f.reads then (if e.cells.isEmpty && e.who.path == f.who.path && e.who.core == f.who.core then [[]] else [])
        else e.limsTo f.who
      | some d => if e.who.path == f.who.path && e.who.core == f.who.core &&
          e.cells.any (fun x => match homeOf x.1 with | .spm j _ => j == d.toNat | _ => false) then [[]] else []
    ls.map (⟨.ctx k c pos 0xFFFF true none, ·⟩)

/-- A command of an engine starts, all that happens before its accesses having performed: it happens before those of the
unit's later commands too (R101). -/
def State.unitBegins (s : State) (w : Who) : State :=
  match w.path with
  | .eng u i => s.learnAll fun e =>
      if e.who.before { w with path := .eng u (i + 1), pos := 0, xfence := 0 } then []
      else (e.limsTo w).map (⟨.unit w.core u i, ·⟩)
  | _ => s

/-- A barrier of a scope completes (R158): what its members, each with its place, did and knew happens before all they do
from there on. Copies of a member have completed. -/
def State.meetAt (s : State) (sc : Scope) (ms : List (CoreId × CtxId × Nat)) : State :=
  s.learnAll fun e =>
    let ls := ms.flatMap fun m =>
      e.limsBy m.1 m.2.1 m.2.2 0xFFFF ++
        (match e.who.path with | .eng u _ => if u < 16 && e.who.core == m.1 && e.who.ctx == m.2.1 then [[]] else [] | _ => [])
    ms.flatMap fun m => ls.map fun l => ⟨.ctx m.1 m.2.1 m.2.2 0xFFFF true none, ⟨m.1, m.2.1, sc⟩ :: l⟩

/-- A launch is admitted after some releases (R107): what happens before them happens before every access of it. -/
def State.launchAfter (s : State) (id : Word) (hs : List Nat) : State :=
  s.learnAll fun e => e.know.filterMap fun t =>
    match t.dest with | .rel r => if hs.contains r then some ⟨.launch id, t.lims⟩ else none | _ => none

/-- The host has read a value of some releases' sequences (R110). -/
def State.hostAcquire (s : State) (hs : List Nat) : State :=
  let ok := hs.filter fun r => s.rels.any fun x => x.id == r && x.scope == .sys
  s.learnAll fun e => e.know.filterMap fun t =>
    match t.dest with | .rel r => if ok.contains r then some ⟨.host, t.lims⟩ else none | _ => none

/-- What a launch did and knew (R29, R107): its own writes, what happens before all its accesses, and what its contexts,
each with its place, know. -/
def Past.limsOf (e : Past) (id : Word) (ms : List (CoreId × CtxId × Nat)) : List (List Lim) :=
  (if e.who.launch == id && (match e.who.path with | .loc | .glob | .eng _ _ => true | _ => false) then [[]] else []) ++
    (e.know.filterMap fun t => match t.dest with | .launch l => if l == id then some t.lims else none | _ => none) ++
    ms.flatMap fun m => e.limsBy m.1 m.2.1 m.2.2 0xFFFF

end Sys2Proof.Machine
end

