-- ==== Sys2Proof/Machine/Operands.lean ====
section
/-! DEFINITION. Operands of operations, and the plan of an operation: what it reads, whether it freezes, its issue
checks in its own order, its accesses to the scratchpad, and what it commits. A plan is formed from one state, the
state before the bundle, so that no result of a bundle is visible to its own operations (R120). -/
namespace Sys2Proof.Machine

/-! ### Registers -/

/-- The physical place of scalar r: 1 to 15, or 16 + e for window entry e (R138, R139). -/
def Ctx.phys (x : Ctx) (r : SReg) : Nat :=
  if r.toNat < 16 then r.toNat else 16 + (x.fb.toNat + (r.toNat - 16)) % 256

/-- S[r]; s0 reads zero (R118). -/
def Ctx.s (x : Ctx) (r : SReg) : Dword := if r = 0 then 0 else aget x.scal (x.phys r) 0
/-- A[r]. -/
def Ctx.a (x : Ctx) (r : AReg) : Dword := aget x.areg r.toNat 0
/-- P[r]; p0 reads true (R138). -/
def Ctx.p (x : Ctx) (r : PReg) : Bool := r == 0 || x.preds.getLsbD r.toNat
/-- N[r]. -/
def Ctx.n (x : Ctx) (r : NReg) : Line := aget x.nests r.toNat 0
/-- W[r], NULL at start (R31, R34). -/
def Ctx.w (x : Ctx) (r : WReg) : Dword := aget x.works r.toNat (1#64 <<< 63)
/-- V[cl][r]. -/
def Core.v' (x : Core) (cl : Cl) (r : VReg) : Line := aget x.vregs (vkey cl.toNat r.toNat) 0
/-- M[cl][r]; m0 is all lanes. -/
def Core.m (x : Core) (cl : Cl) (r : MReg) : BitVec 16 :=
  if r = 0 then 0xFFFF else aget x.masks (mkey cl.toNat r.toNat) 0xFFFF
/-- Lane i of a line. -/
def lane (l : Line) (i : Nat) : Word := l.extractLsb' (32 * i) 32
/-- The line whose lane i is f i. -/
def mkLine (f : Nat → Word) : Line :=
  (List.range 16).foldl (fun acc i => acc ||| ((f i).setWidth 512 <<< (32 * i))) 0
/-- The same word in every lane. -/
def bcast (w : Word) : Line := mkLine fun _ => w

/-- Whether an operation under this guard performs (R116). -/
def performs (g : Guard) (x : Ctx) : Bool := x.p g.pred != g.neg

/-- Whether a context owns a cluster (R163). -/
def Ctx.owns (x : Ctx) (cl : Cl) : Bool := x.clmask.getLsbD cl.toNat

/-- The channels a context holds, by the launch's contexts per core (R30). -/
def Ctx.holds (x : Ctx) (c : CtxId) (ch : Chan) : Bool :=
  let n := match x.nctx.toNat with | 0 => 16 | 1 => 8 | 2 => 5 | _ => 4
  c.toNat * n ≤ ch.toNat && ch.toNat < c.toNat * n + n

/-! ### Checks and plans -/

/-- The outcome of an operation's own issue checks, in its own order: passed, a fault, not decided before the walks of
some pages end (R212, R318), waiting for the fetch of a code block (R151), or waiting for a spill (true) or fill
(false) of the scalar window to a new BOT (R139). -/
inductive Check
  | ok
  | fault (f : FaultInfo)
  | miss (pages : List Nat)
  | fetch (blk : Nat)
  | xfer (spill : Bool) (bot : Nat)
  deriving DecidableEq, Repr

/-- The second check is made when the first passes. -/
def Check.and (a b : Check) : Check :=
  match a with
  | .ok => b
  | _ => a

/-- An illegal operation when the condition holds (0x02). -/
def illegalIf (b : Bool) : Check := if b then .fault { code := 0x02 } else .ok
/-- A fault with this code at this address when the condition holds. -/
def faultIf (b : Bool) (code : Byte) (va : Nat) (detail : Byte := 0) : Check :=
  if b then .fault { code := code, va := BitVec.ofNat 48 va, detail := detail } else .ok

/-- A line access of the program phase (R69): the line's local address divided by 64, whether it writes, its class, and
the bytes that a read takes indivisibly (R93). -/
structure LAcc where
  line : Nat
  wr : Bool
  cls : BitVec 4 := 0
  unit : Nat := 4
  deriving DecidableEq, Repr

/-- The plan of an operation that performs. `reads` are its sources with the lanes it reads, for the freezes of R38
and the poison of R323; `works` the work registers it reads; `pops` the queues it pops, in order; `held` says that another run's
reservation holds it (R196); `touch` the local
bytes it accesses, for the watermark guards of R86; `stores` the local bytes it writes in the program phase, and `cls`
their class. -/
structure Plan where
  reads : List (Dest × BitVec 16) := []
  works : List Nat := []
  pops : List Cl := []
  frozen : Bool := false
  held : Bool := false
  check : Check := .ok
  touch : List (Nat × Nat) := []
  lacc : List LAcc := []
  stores : List (Nat × Byte) := []
  cls : BitVec 4 := 0
  commit : State → State := id

/-- Reading predicate p (R116); p0 is no register. -/
def rP (r : PReg) : List (Dest × BitVec 16) := if r = 0 then [] else [(.p r.toNat, 0xFFFF)]
/-- Reading address register a. -/
def rA (r : AReg) : List (Dest × BitVec 16) := [(.a r.toNat, 0xFFFF)]
/-- Reading nest register n. -/
def rN (r : NReg) : List (Dest × BitVec 16) := [(.n r.toNat, 0xFFFF)]
/-- Reading lane mask m of a cluster; m0 is no register. -/
def rM (cl : Cl) (r : MReg) : List (Dest × BitVec 16) := if r = 0 then [] else [(.m cl.toNat r.toNat, 0xFFFF)]

/-- A plan that also reads these. -/
def Plan.reading (p : Plan) (rs : List (Dest × BitVec 16)) : Plan := { p with reads := rs ++ p.reads }

/-- The plan of an operation with a guard: it reads its predicate, and does nothing at all when it does not perform
(R116). -/
def gplan (g : Guard) (s : State) (f : Ctx → Plan) : Plan :=
  (if performs g s.me then f s.me else {}).reading (rP g.pred)

/-- Reading scalar r. -/
def rS (x : Ctx) (r : SReg) : List (Dest × BitVec 16) := if r = 0 then [] else [(.s (x.phys r), 0xFFFF)]

/-- An operation that would write s2 to s7 inside a loop is illegal (R153). -/
def loopDest (x : Ctx) (d : SReg) : Check := illegalIf (x.loop.isSome && 2 ≤ d.toNat && d.toNat ≤ 7)

/-! ### Issuing results -/

/-- Cancels the landing of a scoreboarded result bound for the same register (R142), of a vector in the lanes that the
later operation enables (R191). -/
def Sb.cancel (b : Sb) (d : Dest) (lanes : BitVec 16) : Sb :=
  match b.dest, d with
  | .s e, .s e' => if e == e' then { b with cancelled := true } else b
  | .v cl r l, .v cl' r' =>
    if cl == cl' && r == r' then
      { b with dest := .v cl r (l &&& ~~~lanes), cancelled := b.cancelled || l &&& ~~~lanes == 0 }
    else b
  | _, _ => b

/-- Cancels what an operation's result replaces; a scalar that it replaces unread is never consumed (R94). -/
def Ctx.cancel (x : Ctx) (d : Dest) (lanes : BitVec 16 := 0xFFFF) : Ctx :=
  { x with
    sbs := x.sbs.map fun b => b.cancel d lanes
    unread := match d with | .s e => x.unread.filter fun u => u.dest != e | _ => x.unread }

/-- Issues a fixed-latency result (R39). -/
def State.result (s : State) (d : Dest) (val : Line) (lat : Nat) (lanes : BitVec 16 := 0xFFFF)
    (poison : BitVec 16 := 0) (flags : Byte := 0) : State :=
  let now := s.here.cycle
  s.modMe fun x =>
    let y := x.cancel d lanes
    { y with pend := y.pend ++ [⟨d, val, lanes, poison, flags, now, y.bundles, lat⟩] }

/-- Issues a scalar result. -/
def putS (x : Ctx) (d : SReg) (v : Dword) (lat : Nat) (s : State) : State :=
  s.result (.s (x.phys d)) (v.setWidth 512) lat

/-- Issues a scoreboarded result that will arrive under a number (R38). -/
def State.awaitSb (s : State) (id : Nat) (d : SbDest) (due : Option Nat := none) : State :=
  s.modMe fun x =>
    let y := match d with
      | .s e => x.cancel (.s e)
      | .v cl r lanes => x.cancel (.v cl r) lanes
      | .w _ => x
    { y with sbs := y.sbs ++ [⟨id, d, due, false, 0, 0, 0, false, 0⟩] }

/-! ### Local addresses -/

/-- The bytes of a scratchpad (R67). -/
def spmSize : Nat := 0x600000

/-- The bound check of R67 for the n bytes from local address a on: within SPLO and SPHI, and within the scratchpad. -/
def boundCheck (x : Ctx) (a n : Nat) : Check :=
  let hi := min x.sphi.toNat spmSize
  if x.splo.toNat ≤ a ∧ a + n ≤ hi then .ok
  else .fault { code := 0x09, va := BitVec.ofNat 48 (if a < x.splo.toNat then a else max a hi) }

/-- The lines that n bytes from local address a on touch. -/
def linesOf (a n : Nat) : List Nat := (List.range ((a + n + 63) / 64 - a / 64)).map fun i => a / 64 + i

/-- Byte x of the scratchpad of the core an operation is issued on. -/
def State.spm (s : State) (x : Nat) : Byte := rd s.mem (spmPa s.cur.1.toNat x)

/-- A program access of the context an operation is issued for, by its path and classes (R92). -/
def State.access (s : State) (path : Path) (cls : BitVec 16) : Who :=
  { path := path, core := s.cur.1, ctx := s.cur.2, launch := s.me.launch, cls := cls, pos := s.me.pos }

/-- The mask of one class. -/
def clsBit (c : BitVec 4) : BitVec 16 := 1#16 <<< c.toNat

/-- Some bytes, each with its address, in units: those that follow each other in one aligned piece of u bytes. -/
def joinUnits (u : Nat) : List Host.Cell → List (Nat × List Byte)
  | [] => []
  | (a, b) :: t =>
    match joinUnits u t with
    | (a', bs) :: r => if a' = a + 1 && a / u = a' / u then (a, b :: bs) :: r else (a, [b]) :: (a', bs) :: r
    | [] => [(a, [b])]

/-- Writes local bytes, in the order given; reads that the store does not happen before may still miss it, and its units
take their places among the writes that do not happen before it (R71, R93, R98, R100). -/
def State.storeLocal (s : State) (ws : List (Nat × Byte)) (cls : BitVec 4 := 0) (unit : Nat := 4) : State :=
  let k := s.cur.1.toNat
  let w := s.access .loc (clsBit cls)
  let us := joinUnits unit (ws.map fun (b : Nat × Byte) => (spmPa k b.1, b.2))
  let e : Past :=
    { id := s.pastCtr, who := w
      cells := ws.map fun (w : Nat × Byte) => (spmPa k w.1, rd s.mem (spmPa k w.1)), heads := [], know := [] }
  let whole := fun (p : Nat) => (List.range 8).all fun i => ws.any fun (w : Nat × Byte) => spmPa k w.1 == 8 * p + i
  let t := us.foldl (fun t u => t.touch w u.1 u.2.length) s
  if ws.isEmpty then s
  else if s.promises.isEmpty && us.all fun u => (s.over w u.1 u.2.length).isEmpty then
    { t with
      mem := ws.foldl (fun m (w : Nat × Byte) => wr m (spmPa k w.1) w.2) s.mem
      poison := s.poison.filter fun p => !whole p
      pasts := e :: t.pasts
      pastCtr := s.pastCtr + 1 }
  else t.writeUnits w us

/-! ### Nests -/

/-- CNTl + 1 (R83). -/
def nestCnt (n : Line) (l : Nat) : Nat := (n.extractLsb' (16 * l) 16).toNat + 1
/-- SSl (R83). -/
def nestSS (n : Line) (l : Nat) : Int := (n.extractLsb' (32 * l + 96) 32).toInt
/-- DSl (R83). -/
def nestDS (n : Line) (l : Nat) : Int := (n.extractLsb' (32 * l + 288) 32).toInt
/-- ELEN + 1 (R83). -/
def nestLen (n : Line) : Nat := (n.extractLsb' 480 16).toNat + 1
/-- The levels of a nest. -/
def nestLevels : List Nat := [0, 1, 2, 3, 4, 5]
/-- The number of innermost iterations (R84). -/
def nestTotal (n : Line) : Nat := nestLevels.foldl (fun t l => t * nestCnt n l) 1
/-- The offset of iteration j with the given strides, i0 fastest (R84). -/
def nestOff (cnt : Nat → Nat) (str : Nat → Int) : List Nat → Nat → Int
  | [], _ => 0
  | l :: ls, j => ((j % cnt l : Nat) : Int) * str l + nestOff cnt str ls (j / cnt l)
/-- The source address of iteration j, modulo 2^64. -/
def nestSrc (n : Line) (src : Dword) (j : Nat) : Nat :=
  ((src.toNat : Int) + nestOff (nestCnt n) (nestSS n) nestLevels j).emod (2 ^ 64) |>.toNat
/-- The destination address of iteration j, modulo 2^64. -/
def nestDst (n : Line) (dst : Dword) (j : Nat) : Nat :=
  ((dst.toNat : Int) + nestOff (nestCnt n) (nestDS n) nestLevels j).emod (2 ^ 64) |>.toNat
/-- The least and the greatest offset of any iteration (R84). -/
def nestSpan (cnt : Nat → Nat) (str : Nat → Int) : List Nat → Int × Int
  | [] => (0, 0)
  | l :: ls =>
    let (lo, hi) := nestSpan cnt str ls
    let e := ((cnt l - 1 : Nat) : Int) * str l
    if 0 ≤ e then (lo, hi + e) else (lo + e, hi)

/-- Whether an iteration of a nest covers an address: levels are given from the outermost in. -/
def nestHas (len : Nat) (cnt : Nat → Nat) (str : Nat → Int) : List Nat → Int → Bool
  | [], d => 0 ≤ d && d < len
  | l :: inner, d =>
    let sp := nestSpan cnt str inner
    (List.range (cnt l)).any fun i =>
      let e := d - i * str l
      decide (sp.1 ≤ e) && decide (e < sp.2 + len) && nestHas len cnt str inner e

/-- Whether a command writes byte y of core k's scratchpad: some iteration's destination covers it (R84, R221). -/
def CopyCmd.writesLocal (c : CopyCmd) (k : CoreId) (y : Nat) : Bool :=
  c.nest.getLsbD 498 &&
    (match c.kind with | .multi m _ _ => m.getLsbD (k.toNat % 32) | .send _ => false | _ => true) &&
    nestHas (nestLen c.nest) (nestCnt c.nest) (nestDS c.nest) nestLevels.reverse ((y : Int) - c.dst.toNat)

/-- The bytes already copied of an iteration. -/
def CopyRun.done (r : CopyRun) (j : Nat) : Nat := if j < r.lo then nestLen r.cmd.nest else aget r.prog j 0

/-- The watermark of a running command: the destination address of its first iteration not yet completed (R86), and once
every iteration is, the end of the range it guards. -/
def CopyRun.watermark (r : CopyRun) : Nat :=
  if nestTotal r.cmd.nest ≤ r.lo then (match r.armed with | some g => g.2 | none => nestDst r.cmd.nest r.cmd.dst 0)
  else nestDst r.cmd.nest r.cmd.dst r.lo

/-- The guards of a channel: the range armed for the next command, whose watermark is lo, and the range the running
command holds (R86). -/
def CopyChan.guards (c : CopyChan) : List (Nat × Nat × Nat) :=
  (match c.armNext with | some (lo, hi) => [(lo, hi, lo)] | none => []) ++
    (match c.run with
     | some r => match r.armed with | some (lo, hi) => [(lo, hi, r.watermark)] | none => []
     | none => [])

/-! ### What an operation waits for -/

/-- Whether a source still waits for a scoreboarded result (R38, R142). -/
def Ctx.awaits (x : Ctx) (d : Dest) : Bool :=
  x.sbs.any fun b => !b.cancelled &&
    match b.dest, d with
    | .s e, .s e' => e == e'
    | .v cl r _, .v cl' r' => cl == cl' && r == r'
    | _, _ => false

/-- The live entries of a load-data queue: those of the present run (R165). -/
def Core.laq (x : Core) (cl : Cl) : List LaqEntry := aget x.laqs cl.toNat []
/-- The entries a pop may take. -/
def Core.live (x : Core) (cl : Cl) : List LaqEntry := (x.laq cl).filter fun e => !e.dropped

/-- The entry that pop i of an operation takes, pops of one cluster in order (R81, R119). -/
def popEntry (x : Core) (pops : List Cl) (i : Nat) : Option LaqEntry :=
  match pops[i]? with
  | none => none
  | some cl => (x.live cl)[((pops.take i).filter (· == cl)).length]?

/-- Whether an armed guard holds some of these local bytes: an address in the range at or above the watermark
(R86). -/
def Core.guardHolds (x : Core) (touch : List (Nat × Nat)) : Bool :=
  x.chans.any fun c => c.2.guards.any fun g => touch.any fun t =>
    let lo := max (max g.1 g.2.2) t.1
    lo < min g.2.1 (t.1 + t.2)

/-- Whether a running command still has to write byte y of a scratchpad: some iteration that covers it has not come to it. -/
def CopyRun.owes (r : CopyRun) (y : Nat) : Bool :=
  (List.range (nestTotal r.cmd.nest)).any fun j =>
    let b := nestDst r.cmd.nest r.cmd.dst j
    r.lo ≤ j && b + r.done j ≤ y && y < b + nestLen r.cmd.nest

/-- Whether some of these local bytes lie below the watermark of a command with an armed guard that is still to write them:
an access sees them as the command writes them (R103). DEDUCED (log 55): it waits for that write, which can be outstanding
only where destination strides descend. -/
def State.guardOwes (s : State) (k : CoreId) (touch : List (Nat × Nat)) : Bool :=
  !touch.isEmpty && (s.core k).chans.any fun ch =>
    match ch.2.run with
    | some r => r.armed.isSome && touch.any fun t => (List.range t.2).any fun i =>
        t.1 + i < r.watermark && r.cmd.writesLocal k (t.1 + i) && r.owes (t.1 + i)
    | none => false

end Sys2Proof.Machine
end

