-- ==== Sys2Proof/Machine/Plan.lean ====
section
/-! DEFINITION. What becomes of a plan: the freezes of R38, the issue checks of R318, the commit. `runPlan` is an
operation issued on its own for the context `cur`; whole bundles are issued by Machine/Bundle.lean. -/
namespace Sys2Proof.Machine

/-- Whether a work register still waits for its NXU (R33). -/
def Ctx.awaitsW (x : Ctx) (k : Nat) : Bool := x.sbs.any fun b => match b.dest with | .w w => w.toNat == k | _ => false

/-- Whether an operation freezes its context before the bundle issues, TLB misses apart (R38). -/
def Plan.freezes (p : Plan) (s : State) : Bool :=
  p.frozen || p.reads.any (fun r => s.me.awaits r.1) || p.works.any s.me.awaitsW ||
    (List.range p.pops.length).any (fun i => match popEntry s.here p.pops i with
      | some e => !e.landed
      | none => false) ||
    s.here.guardHolds p.touch || s.guardOwes s.cur.1 p.touch

/-- Queue underflow: a pop from a queue that holds no entry (R81). -/
def Plan.popCheck (p : Plan) (s : State) : Check :=
  faultIf ((List.range p.pops.length).any fun i => (popEntry s.here p.pops i).isNone) 0x0A 0

/-- Whether a source is poisoned in a lane that is read (R323). -/
def State.srcPoisoned (s : State) (r : Dest × BitVec 16) : Bool :=
  match r.1 with
  | .s e => s.me.sPoison.contains e
  | .v cl v => aget s.here.vpoison (vkey cl v) 0 &&& r.2 != 0
  | .m cl m => s.here.mPoison.contains (mkey cl m)
  | .a a => s.me.rPoison.contains (keyA a)
  | .p p => s.me.rPoison.contains (keyP p)
  | .n n => s.me.rPoison.contains (keyN n)
  | _ => false

/-- The poisoned line a pop would take, if any (R82). -/
def Plan.poisonedPop (p : Plan) (s : State) : Option LaqEntry :=
  ((List.range p.pops.length).filterMap fun i => popEntry s.here p.pops i).find? fun e => e.poison

/-- Poison is checked last (R82, R318, R323). -/
def Plan.poisonCheck (p : Plan) (s : State) : Check :=
  match p.poisonedPop s with
  | some e => .fault { code := 0x0D, va := e.va }   -- a pushed line's own address (R317)
  | none =>
    match p.reads.find? fun r => match r.1 with | .s e => ahas s.me.ldsPoison e | _ => false with
    | some (.s e, _) => .fault { code := 0x0D, detail := 1, va := aget s.me.ldsPoison e 0 }
    | _ =>
      if p.reads.any s.srcPoisoned || p.works.any (fun w => s.me.rPoison.contains (keyW w)) then
        .fault { code := 0x0D, detail := 2 }
      else .ok

/-- All issue checks of an operation, in order (R318). -/
def Plan.checks (p : Plan) (s : State) : Check := (p.check.and (p.popCheck s)).and (p.poisonCheck s)

/-- Removes the first live entry of a queue. -/
def popOne (x : Core) (cl : Cl) : Core :=
  { x with laqs := ains x.laqs cl.toNat (ldelFirst (fun e => !e.dropped) (x.laq cl)) }

/-- Removes the entries that some pops take (R81). -/
def State.popAll (s : State) (pops : List Cl) : State :=
  if pops.isEmpty then s else s.modHere fun x => pops.foldl popOne x

/-- Scalars that a bundle reads, and lines that it pops, are consumed: local accesses from it on are ordered after the
global reads that brought them (R94). -/
def State.consumeAll (s : State) (reads : List (Dest × BitVec 16)) (popped : List LaqEntry) : State :=
  let k := s.cur.1
  let c := s.cur.2
  let hit := fun (u : Unread) => reads.any fun r => r.1 == .s u.dest
  let us := s.me.unread.filter hit ++ popped.map fun e => ⟨e.id, 0, e.pos, e.cls⟩
  if us.isEmpty then s else
    us.foldl (fun t u => t.consume k c s.me.pos u)
      (s.modMe fun x => { x with unread := x.unread.filter fun u => !hit u })

/-- The entries some pops take. -/
def popped (x : Core) (pops : List Cl) : List LaqEntry := (List.range pops.length).filterMap (popEntry x pops)

/-- The bytes that an operation's local stores write indivisibly (R93). -/
def Plan.unit (p : Plan) : Nat := (p.lacc.foldl (fun m a => max m a.unit) 4)

/-- Everything an operation does when its bundle issues. -/
def Plan.apply (p : Plan) (s : State) : State :=
  let t := s.consumeAll p.reads (popped s.here p.pops)
  p.commit ((t.storeLocal p.stores p.cls p.unit).popAll p.pops)

/-- The end of a run after its HALT bundle has committed (R165): results in flight are discarded, landed lines are
freed and outstanding ones will be dropped, poison is discarded, and the units the context held count as finished
(R233). -/
def State.endRun (s : State) (k : CoreId) (c : CtxId) : State :=
  let x := s.ctx k c
  let s1 := s.releaseClusters k c
  let s2 := s1.modCtx k c fun x =>
    { x with
      run := .halted, ending := false, pend := [], sbs := [], unread := [], sPoison := [], ldsPoison := [], rPoison := []
      loop := none, barWait := none }
  s2.modLaunch x.launch fun l =>
    { l with
      finished := (aget l.holding (ctxKey k c) []).foldl (fun f u => sinsert u f) l.finished
      holding := adel l.holding (ctxKey k c) }

/-- What follows the commits of an operation or a bundle: the place in program order advances, fences with nothing
left to order are forgotten, and a run that halts ends. -/
def State.finish (s : State) : State :=
  let k := s.cur.1
  let c := s.cur.2
  let quiet := !(s.reqs.any fun r => r.core == k && r.ctx == c)
  let s1 := s.modMe fun x => { x with pos := x.pos + 1, fences := if quiet then [] else x.fences }
  if s1.me.ending then s1.endRun k c else s1

/-- What an undecided check asks for: walks, a code block, a spill or a fill. -/
def State.await (s : State) : Check → State
  | .miss pages => s.askWalks s.cur.1 (ctxWaiter s.cur.2) pages
  | .fetch blk => s.modMe fun x => { x with fetchMiss := sinsert blk x.fetchMiss }
  | .xfer spill bot => s.modMe fun x => { x with xfer := some (spill, bot) }
  | _ => s

/-- Before a context is held every result in flight to it lands (R320): a fault or stop that holds it waits for those
that have not arrived. -/
def Ctx.holdsBack (x : Ctx) : Bool := x.sbs.any fun b => !b.arrived

/-- Whether a fault of a context will hold it. -/
def Ctx.wouldHold (x : Ctx) (f : FaultInfo) : Bool := (f.code == 0x04 || f.code == 0x07) && !x.stopReq

/-- An operation issued on its own: it waits, takes its fault, or commits. A fault that holds the context waits until
nothing in flight to it is outstanding (R320). -/
def runPlan (slot : Nat) (p : Plan) (s : State) : Out :=
  if p.freezes s || p.held then .next s
  else
    match p.checks s with
    | .fault f =>
      if s.me.wouldHold f && s.me.holdsBack then .next s
      else .next (s.takeFault s.cur.1 s.cur.2 { f with slot := BitVec.ofNat 8 slot })
    | .ok => .next (p.apply s).finish
    | c => .next (s.await c)

end Sys2Proof.Machine
end

