-- ==== Sys2Proof/Machine/Code.lean ====
section
/-! DEFINITION. Reading the fetch buffer: the verified code of a context (R149, R318, R319, R341). -/
namespace Sys2Proof.Machine

/-- The first address of the code (R149). -/
def Seg.codeBase (g : Seg) : Nat := g.va.toNat + g.codeOff.toNat
/-- The first address beyond the code. -/
def Seg.codeEnd (g : Seg) : Nat := g.codeBase + g.codeLen.toNat
/-- The 1 KiB code blocks. -/
def Seg.blocks (g : Seg) : Nat := (g.codeLen.toNat + 1023) / 1024
/-- SIGOFF: the end of the tag array, which is padded to 1 KiB (R340). -/
def Seg.sigOff (g : Seg) : Nat := g.codeOff.toNat + g.codeLen.toNat + (16 * g.blocks + 1023) / 1024 * 1024
/-- Whether an address lies in the code range. -/
def Seg.inCode (g : Seg) (va : Nat) : Bool := g.codeBase ≤ va && va < g.codeEnd
/-- The 1 KiB block of an address, counted from the start of the code (R340). -/
def Seg.block (g : Seg) (va : Nat) : Nat := (va - g.codeBase) / 1024

/-- What reading some code bytes gives: the bytes, a block still to be fetched, a fetch failure with the first byte of the
bundle it concerns, or an address outside the code range. -/
inductive Fetch
  | ok (bs : List Byte)
  | need (blk : Nat)
  | fail (f : FaultInfo) (byte : Nat)
  | out (va : Nat)
  deriving DecidableEq, Repr

/-- The first block of a list that is not in the fetch buffer. -/
def Ctx.missing (x : Ctx) (blks : List Nat) : Option Nat := blks.find? fun b => !x.blocks.contains b

/-- The failure of a block, as it concerns a bundle that starts at pc (R317, R319); one of its tag concerns the block. -/
def failAt (g : Seg) (pc : Nat) (blk : Nat) (f : FaultInfo) : Fetch :=
  let va := max pc (if f.code = 0x06 || g.codeEnd ≤ f.va.toNat then g.codeBase + 1024 * blk else f.va.toNat)
  .fail (if f.code = 0x04 ∨ f.code = 0x05 then { f with va := BitVec.ofNat 48 va } else f) va

/-- The bytes of the loop buffer at va, when all n of them are the running loop's body (R152). -/
def Ctx.replay (x : Ctx) (va n : Nat) : Option (List Byte) :=
  x.loop.bind fun l => l.code.bind fun b =>
    if l.body.toNat ≤ va && va + n ≤ l.stop.toNat then some (rdBytes b va n) else none

/-- The n code bytes at va, for a bundle that starts at pc: from the loop buffer, or from the fetch buffer. -/
def Ctx.fetchAt (x : Ctx) (pc va n : Nat) : Fetch :=
  let g := x.seg
  if let some bs := x.replay va n then .ok bs
  else if !g.inCode va then .out va
  else if g.codeEnd < va + n then .out g.codeEnd
  else
    let b0 := g.block va
    match x.missing ((List.range (g.block (va + n - 1) + 1 - b0)).map fun i => b0 + i) with
    | some b => if ahas x.fetchFail b then failAt g pc b (aget x.fetchFail b { code := 0x04 }) else .need b
    | none => .ok (rdBytes x.code va n)

/-- The next stage of reading a bundle. -/
def Fetch.bind (f : Fetch) (g : List Byte → Fetch) : Fetch :=
  match f with
  | .ok bs => g bs
  | r => r

/-- The whole bundle at pc: header, then op words, then the rest (R112). -/
def Ctx.bundleAt (x : Ctx) (pc : Nat) : Fetch :=
  (x.fetchAt pc pc 8).bind fun hb =>
    let h := BitVec.ofNat 64 (leNat hb)
    let n := (if h.getLsbD 23 then 12 else 8) + 6 * (maskSlots h).length
    (x.fetchAt pc pc n).bind fun bs =>
      match bundleLen bs with
      | some len => x.fetchAt pc pc len
      | none => .out pc

/-- The end of the n bundles that start at va, or why it is not known yet (R151). -/
def Ctx.bodyEnd (x : Ctx) : Nat → Nat → Except Fetch Nat
  | va, 0 => .ok va
  | va, n + 1 =>
    match x.bundleAt va with
    | .ok bs => x.bodyEnd (va + bs.length) n
    | r => .error r

end Sys2Proof.Machine
end

