-- ==== Sys2Proof/Machine/Landing.lean ====
section
/-! DEFINITION. What engines do to contexts: faults they raise, flags they set, landings in a scratchpad with their
in-use bits (R74, R75), the engine phase of the scratchpad banks (R19, R197), and the lines a beat reads while writes
are not yet ordered before it (R100, R104). -/
namespace Sys2Proof.Machine

/-- Whether a context's run has started and not ended: a context that has stopped for a pre-emption counts; one that has
halted and waits for another unit does not. -/
def Ctx.live (x : Ctx) : Bool :=
  x.run == .running || x.run == .held || x.run == .starting || (x.run == .stopped && x.preempt)

/-- Whether a context is in a run of the given number that has not ended. -/
def Ctx.inRun (x : Ctx) (runId : Nat) : Bool := x.runId == runId && x.live

/-- Whether all accesses of some numbers have performed (R100). -/
def State.performed (s : State) (ids : List Nat) : Bool := !(s.reqs.any fun r => ids.contains r.id)

/-- A fault of an engine command: pending for its context, or, when the run that issued it has ended, recorded with
HELD clear and failing the launch (R85, R165, R203, R323). A fault that so fails the launch counts in NFLT (R27). -/
def State.engineFault (s : State) (k : CoreId) (c : CtxId) (runId : Nat) (id : Word) (f : FaultInfo) : State :=
  let x := s.ctx k c
  if x.inRun runId then s.modCtx k c fun y => y.pushFault (s.core k).cycle s.gcc f
  else
    let t := (s.core k).tenant
    let cause : Bool := match s.launch id with | some l => l.phase != .failing && l.phase != .ended | none => false
    let s1 := (s.ringFault t (faultRecord f false id k c none 0 s.gcc)).failLaunch id 0x07
    let s2 := if cause then s1.countFault k c id else s1
    if f.code = 0x0D then s2.count (2080 + t.toNat) 1 else s2

/-- Sets a flag of a saved context: it is ORed into PENDF, in its record too (R303, R304). -/
def State.pendFlag (s : State) (p : Save → Bool) (f : FReg) (src : FlagSrc) : State :=
  s.saves.foldl (fun t v =>
    if p v then
      let w := { v with
        pendf := v.pendf ||| (1#64 <<< f.toNat), snap := { v.snap with flagSrc := v.snap.flagSrc ++ [src] } }
      let t1 : State := { t with saves := t.saves.map fun (u : Save) => if u.id == v.id then w else u }
      t1.write (v.addr + 24) (leBytes 8 w.pendf.toNat)
    else t) s

/-- A flag the command of an engine sets for the run that issued it; a run that has ended takes none (R102, R165), a saved
one takes it at RESUME (R304). -/
def State.raiseFlag (s : State) (k : CoreId) (c : CtxId) (runId : Nat) (f : Option FReg) (w : Who)
    (reads : Bool := false) : State :=
  match f with
  | some n =>
    let src : FlagSrc := { flag := n.toNat, who := w, reads := reads }
    if (s.ctx k c).inRun runId then s.setFlag k c n src
    else s.pendFlag (fun v => v.core == k && v.ctx == c && v.snap.runId == runId) n src
  | none => s

/-- The arithmetic flags of an engine command reach the run that issued it; a run that has ended takes none (R63, R66,
R165). A context is saved only when its commands have none to come (R303). -/
def State.engFlags (s : State) (k : CoreId) (c : CtxId) (runId : Nat) (f : Byte) : State :=
  if (s.ctx k c).inRun runId then s.orFlags k c f else s

/-- Whether a context is resident for a launch (R75). DESIGN CHOICE (log 48): a context that has halted between two
dispatch units is not, for it runs no bundle that could take the fault. -/
def Ctx.residentFor (x : Ctx) (id : Word) : Bool :=
  x.launch == id && x.live

/-- A landing line met a set in-use bit (R75): the recorded context takes 0x0B, at resume if it is saved; otherwise one
record is written for the operation. Answers the state and whether the operation now has its record. -/
def State.overrun (s : State) (k : CoreId) (u : InUse) (line : Nat) (recorded : Bool) : State × Bool :=
  let f : FaultInfo := { code := 0x0B, eng := true, va := BitVec.ofNat 48 line }
  let push := fun (x : Ctx) => x.pushFault (s.core k).cycle s.gcc f
  if s.saves.any fun v => v.core == k && v.ctx == u.ctx && v.launch == u.launch then
    ({ s with saves := s.saves.map fun v =>
        if v.core == k && v.ctx == u.ctx && v.launch == u.launch then { v with snap := push v.snap } else v }, recorded)
  else if (s.ctx k u.ctx).residentFor u.launch then (s.modCtx k u.ctx push, recorded)
  else if recorded then (s, true)
  else
    let g := { f with detail := 1 }
    (s.ringFault (s.core k).tenant (faultRecord g false u.launch k u.ctx none 0 s.gcc), true)

/-- Some bytes of one line that a party writes land in a scratchpad at local address x, in units of `unit` bytes. Answers the state, whether the
line was dropped, and whether the operation has its record. -/
def State.landSpm (s : State) (w : Who) (k : CoreId) (x : Nat) (bs : List Byte) (recorded : Bool)
    (unit : Nat := 0) : State × Bool × Bool :=
  if ahas (s.core k).inuse (x / 4096) then
    let r := s.overrun k (aget (s.core k).inuse (x / 4096) ⟨0, 0⟩) (x / 64 * 64) recorded
    (r.1, true, r.2)
  else (s.writeBy w (spmPa k.toNat x) bs (unit := unit), false, recorded)

/-! ### Beats of a matrix command (R197) -/

/-- The beats of a command. -/
def MxKind.beats : MxKind → Nat
  | .mma _ _ _ b _ _ _ _ _ => b
  | .mmag _ _ _ _ b _ _ _ _ _ => b
  | .latch _ _ _ _ => 64
  | .accz _ n => n
  | .accwr _ _ n _ => n
  | .accrd _ _ n _ => n

/-- Whether a command has done all its beats. -/
def MxCmd.beaten (c : MxCmd) : Bool := c.kind.beats ≤ c.beat

/-! ### Engine phase (R19, R197) -/

/-- The scratchpad lines that n bytes from a physical address on lie in: core and line. -/
def spmLines (pa n : Nat) : List (CoreId × Nat) :=
  match homeOf pa with
  | .spm k off => (linesOf off n).map fun ln => (BitVec.ofNat 7 k, ln)
  | _ => []

/-- The lines listed for an edge. -/
def linesAt (l : List (Nat × Nat)) (edge : Nat) : List Nat := (l.filter (·.1 == edge)).map (·.2)

/-- Whether a phase that serves some lines can serve a line besides: its bank serves no other. -/
def bankFree (ls : List Nat) (ln : Nat) : Bool := ls.all fun m => m == ln || m % 32 != ln % 32

/-- Whether the engine phase of an edge can serve a line of a beat. -/
def Core.beatFree (y : Core) (edge ln : Nat) : Bool := bankFree (linesAt y.engBusy edge) ln

/-- Whether it can serve a line of another access, which comes after those of the beats (R197). -/
def Core.engFree (y : Core) (edge ln : Nat) : Bool := bankFree (linesAt (y.engBusy ++ y.engWait) edge) ln

/-- A line of an access other than a beat's takes its bank in the first phase, from an edge on, in which the bank serves no
other line. -/
def Core.book (y : Core) (edge ln : Nat) : Core :=
  let i := ((List.range (y.engWait.length + 1)).find? fun i => y.engFree (edge + i) ln).getD (y.engWait.length + 1)
  { y with engWait := y.engWait ++ [(edge + i, ln)] }

/-- A line of a beat takes its bank in an edge; lines of other accesses listed for it move on (R197). -/
def Core.beatTake (y : Core) (edge ln : Nat) : Core :=
  let moves := fun (w : Nat × Nat) => w.1 == edge && !bankFree [ln] w.2
  ((y.engWait.filter moves).map (·.2)).foldl (fun y m => y.book (edge + 1) m)
    { y with
      engBusy := (y.engBusy.filter fun b => edge ≤ b.1) ++ [(edge, ln)]
      engWait := y.engWait.filter fun w => edge ≤ w.1 && !moves w }

/-- The lines of an access other than a beat's take their banks, from the present edge on: of each bank one line in a
phase (R19). -/
def State.engTake (s : State) (ls : List (CoreId × Nat)) : State :=
  ls.foldl (fun t kl =>
    let e := t.edge kl.1
    t.modCore kl.1 fun y => { y with engWait := y.engWait.filter fun w => e ≤ w.1 }.book e kl.2) s

/-! ### Scratchpad lines read by the matrix engine (R104) -/

/-- Reads one line for a beat: entirely as some writes left it, and each write that an earlier beat of the command saw is
seen. Answers the line's bytes, the writes that have now been seen, and the state with the free values taken. -/
def State.mxLine (s : State) (k : CoreId) (q : Who) (seen : List Nat) (ln : Nat) : List Byte × List Nat × State :=
  s.look q (spmPa k.toNat (64 * ln)) 64 seen

/-- Reads the lines of a beat, each line once; answers the bytes of each and the command with what it has seen. -/
def State.mxLines (s : State) (k : CoreId) (q : Who) (lns : List Nat) (cmd : MxCmd) : List (Nat × List Byte) × MxCmd × State :=
  lns.foldl (fun r ln =>
    if ahas r.1 ln then r
    else
      let old := aget r.2.1.seen ln []
      let v := r.2.2.mxLine k q old ln
      (ains r.1 ln v.1,
        { r.2.1 with seen := if v.2.1.isEmpty then r.2.1.seen else ains r.2.1.seen ln (old ++ v.2.1) }, v.2.2)) ([], cmd, s)

/-- A byte of some lines. -/
def lineByte (ls : List (Nat × List Byte)) (a : Nat) : Byte := (aget ls (a / 64) []).getD (a % 64) 0

end Sys2Proof.Machine
end

