-- ==== Sys2Proof/Machine/Scalar.lean ====
section
/-! DEFINITION. The operations of the S map: scalar, predicate and address arithmetic (spec/07, R143 to R148), with
the latencies of R128. Each has its plan and its meaning. -/
namespace Sys2Proof.Machine

/-- A scalar result of a function of scalars and other registers. -/
def planAluR (g : Guard) (d : SReg) (src : List SReg) (more : List (Dest × BitVec 16)) (lat : Nat) (f : Ctx → Dword)
    (s : State) : Plan :=
  gplan g s fun x =>
    { reads := src.flatMap (rS x) ++ more, check := loopDest x d, commit := putS x d (f x) lat }

/-- A scalar result of a function of scalars. -/
def planAlu (g : Guard) (d : SReg) (src : List SReg) (lat : Nat) (f : Ctx → Dword) : State → Plan :=
  planAluR g d src [] lat f

/-- A predicate result of a function of scalars and other registers. -/
def planPred (g : Guard) (d : PReg) (src : List SReg) (more : List (Dest × BitVec 16)) (f : Ctx → Bool) (s : State) :
    Plan :=
  gplan g s fun x =>
    { reads := src.flatMap (rS x) ++ more
      commit := fun t => t.result (.p d.toNat) ((BitVec.ofBool (f x)).setWidth 512) 1 }

/-- An address result of a function of scalars and address registers. -/
def planAddr (g : Guard) (d : AReg) (src : List SReg) (more : List (Dest × BitVec 16)) (f : Ctx → Dword) (s : State) :
    Plan :=
  gplan g s fun x =>
    { reads := src.flatMap (rS x) ++ more
      commit := fun t => t.result (.a d.toNat) ((f x).setWidth 512) 1 }

/-- The sign-extended immediate. -/
def sext16 (imm : BitVec 16) : Dword := imm.signExtend 64

/-! ### Integer arithmetic and logic (R143) -/

def planAdd (g : Guard) (d a b : SReg) : State → Plan := planAlu g d [a, b] 1 fun x => x.s a + x.s b
def planSub (g : Guard) (d a b : SReg) : State → Plan := planAlu g d [a, b] 1 fun x => x.s a - x.s b
def planAddi (g : Guard) (d a : SReg) (imm : BitVec 16) : State → Plan :=
  planAlu g d [a] 1 fun x => x.s a + sext16 imm
def planMul (g : Guard) (d a b : SReg) : State → Plan := planAlu g d [a, b] 3 fun x => x.s a * x.s b
/-- floor(U(S[a])·U(S[b]) / 2^64). -/
def planMulhu (g : Guard) (d a b : SReg) : State → Plan :=
  planAlu g d [a, b] 3 fun x => BitVec.ofNat 64 ((x.s a).toNat * (x.s b).toNat / 2 ^ 64)
/-- floor(Sg(S[a])·Sg(S[b]) / 2^64) mod 2^64. -/
def planMulhs (g : Guard) (d a b : SReg) : State → Plan :=
  planAlu g d [a, b] 3 fun x => BitVec.ofInt 64 (((x.s a).toInt * (x.s b).toInt) / 2 ^ 64)
def planAnd (g : Guard) (d a b : SReg) : State → Plan := planAlu g d [a, b] 1 fun x => x.s a &&& x.s b
def planOr (g : Guard) (d a b : SReg) : State → Plan := planAlu g d [a, b] 1 fun x => x.s a ||| x.s b
def planXor (g : Guard) (d a b : SReg) : State → Plan := planAlu g d [a, b] 1 fun x => x.s a ^^^ x.s b
def planAndn (g : Guard) (d a b : SReg) : State → Plan := planAlu g d [a, b] 1 fun x => x.s a &&& ~~~(x.s b)
/-- Shift counts use only bits [5:0]. -/
def planShl (g : Guard) (d a b : SReg) : State → Plan :=
  planAlu g d [a, b] 1 fun x => x.s a <<< ((x.s b).toNat % 64)
def planShr (g : Guard) (d a b : SReg) : State → Plan :=
  planAlu g d [a, b] 1 fun x => x.s a >>> ((x.s b).toNat % 64)
def planSar (g : Guard) (d a b : SReg) : State → Plan :=
  planAlu g d [a, b] 1 fun x => (x.s a).sshiftRight ((x.s b).toNat % 64)
def planShli (g : Guard) (d a : SReg) (sh : BitVec 6) : State → Plan := planAlu g d [a] 1 fun x => x.s a <<< sh.toNat
def planShri (g : Guard) (d a : SReg) (sh : BitVec 6) : State → Plan := planAlu g d [a] 1 fun x => x.s a >>> sh.toNat
def planSari (g : Guard) (d a : SReg) (sh : BitVec 6) : State → Plan :=
  planAlu g d [a] 1 fun x => (x.s a).sshiftRight sh.toNat
def planMin (g : Guard) (d a b : SReg) : State → Plan :=
  planAlu g d [a, b] 1 fun x => if (x.s a).toInt ≤ (x.s b).toInt then x.s a else x.s b
def planMax (g : Guard) (d a b : SReg) : State → Plan :=
  planAlu g d [a, b] 1 fun x => if (x.s a).toInt ≤ (x.s b).toInt then x.s b else x.s a
def planMinu (g : Guard) (d a b : SReg) : State → Plan :=
  planAlu g d [a, b] 1 fun x => if (x.s a).toNat ≤ (x.s b).toNat then x.s a else x.s b
def planMaxu (g : Guard) (d a b : SReg) : State → Plan :=
  planAlu g d [a, b] 1 fun x => if (x.s a).toNat ≤ (x.s b).toNat then x.s b else x.s a

/-- The number of leading zero bits, looking at the lowest n bits. -/
def leadZeros (v : Dword) : Nat → Nat
  | 0 => 0
  | n + 1 => if v.getLsbD n then 0 else 1 + leadZeros v n
/-- The number of set bits. -/
def popCount {w : Nat} (v : BitVec w) : Nat := ((List.range w).filter fun i => v.getLsbD i).length

def planClz (g : Guard) (d a : SReg) : State → Plan :=
  planAlu g d [a] 1 fun x => BitVec.ofNat 64 (leadZeros (x.s a) 64)
def planPopc (g : Guard) (d a : SReg) : State → Plan := planAlu g d [a] 1 fun x => BitVec.ofNat 64 (popCount (x.s a))

/-! ### Division (R144): scoreboarded, within 20 cycles; DZ lands with the result -/

/-- The DZ flag of FLAGS (R64). -/
def flagDZ : Byte := 0x02

/-- A division: the result and its flags. -/
def planDiv (g : Guard) (d a b : SReg) (f : Dword → Dword → Dword) (s : State) : Plan :=
  gplan g s fun x =>
    { reads := rS x a ++ rS x b
      check := loopDest x d
      commit := fun t =>
        let r := f (x.s a) (x.s b)
        let fl := if x.s b = 0 then flagDZ else 0
        let t1 := t.fresh.2.awaitSb t.nextId (.s (x.phys d)) (some (t.here.cycle + 20))
        t1.modMe fun y => y.arrive t.nextId (r.setWidth 512) 0 fl }

/-- The unsigned quotient; 2^64 − 1 for a zero divisor. -/
def divuQ (a b : Dword) : Dword := if b = 0 then BitVec.allOnes 64 else a / b
/-- The unsigned remainder; the dividend for a zero divisor. -/
def divuR (a b : Dword) : Dword := if b = 0 then a else a % b
/-- The signed quotient, truncated toward zero; −1 for a zero divisor; −2^63 by −1 gives −2^63. -/
def divsQ (a b : Dword) : Dword := if b = 0 then BitVec.allOnes 64 else BitVec.ofInt 64 (a.toInt.tdiv b.toInt)
/-- The signed remainder, with the dividend's sign. -/
def divsR (a b : Dword) : Dword := if b = 0 then a else BitVec.ofInt 64 (a.toInt.tmod b.toInt)

def planDivu (g : Guard) (d a b : SReg) : State → Plan := planDiv g d a b divuQ
def planDivuRem (g : Guard) (d a b : SReg) : State → Plan := planDiv g d a b divuR
def planDivs (g : Guard) (d a b : SReg) : State → Plan := planDiv g d a b divsQ
def planDivsRem (g : Guard) (d a b : SReg) : State → Plan := planDiv g d a b divsR

/-! ### Constants (R145), compares, selection and predicates (R146, R147) -/

def planMovi (g : Guard) (d : SReg) (imm : BitVec 16) : State → Plan := planAlu g d [] 1 fun _ => sext16 imm

/-- S[a] with bits [16j+15:16j] replaced. -/
def insert16 (v : Dword) (imm : BitVec 16) (j : Nat) : Dword :=
  (v &&& ~~~(0xFFFF#64 <<< (16 * j))) ||| (imm.setWidth 64 <<< (16 * j))

def planMovhi (g : Guard) (d a : SReg) (imm : BitVec 16) (j : BitVec 2) : State → Plan :=
  planAlu g d [a] 1 fun x => insert16 (x.s a) imm j.toNat

/-- The condition of a compare (R146). -/
def scond (cc : SCond) (a b : Dword) : Bool :=
  match cc with
  | .eq => a == b
  | .ne => a != b
  | .lt => decide (a.toInt < b.toInt)
  | .le => decide (a.toInt ≤ b.toInt)
  | .gt => decide (b.toInt < a.toInt)
  | .ge => decide (b.toInt ≤ a.toInt)
  | .ltu => decide (a.toNat < b.toNat)
  | .leu => decide (a.toNat ≤ b.toNat)
  | .gtu => decide (b.toNat < a.toNat)
  | .geu => decide (b.toNat ≤ a.toNat)

def planCmp (g : Guard) (cc : SCond) (d : PReg) (a b : SReg) : State → Plan :=
  planPred g d [a, b] [] fun x => scond cc (x.s a) (x.s b)
def planCmpi (g : Guard) (cc : SCond) (d : PReg) (a : SReg) (imm : BitVec 16) : State → Plan :=
  planPred g d [a] [] fun x => scond cc (x.s a) (sext16 imm)
def planSel (g : Guard) (d a b : SReg) (c : PReg) : State → Plan :=
  planAluR g d [a, b] (rP c) 1 fun x => if x.p c then x.s a else x.s b
def planPand (g : Guard) (d a b : PReg) (ia ib : Bool) : State → Plan :=
  planPred g d [] (rP a ++ rP b) fun x => (x.p a != ia) && (x.p b != ib)
def planPor (g : Guard) (d a b : PReg) (ia ib : Bool) : State → Plan :=
  planPred g d [] (rP a ++ rP b) fun x => (x.p a != ia) || (x.p b != ib)
def planPxor (g : Guard) (d a b : PReg) (ia ib : Bool) : State → Plan :=
  planPred g d [] (rP a ++ rP b) fun x => (x.p a != ia) != (x.p b != ib)

/-! ### Address registers (R148) -/

def planAadd (g : Guard) (d a : AReg) (b : SReg) : State → Plan := planAddr g d [b] (rA a) fun x => x.a a + x.s b
def planAaddi (g : Guard) (d a : AReg) (imm : BitVec 16) : State → Plan :=
  planAddr g d [] (rA a) fun x => x.a a + sext16 imm
def planAlea (g : Guard) (d a : AReg) (b : SReg) (sh : BitVec 3) : State → Plan :=
  planAddr g d [b] (rA a) fun x => x.a a + (x.s b <<< sh.toNat)
def planAleaSeg (g : Guard) (d : AReg) (b : SReg) (off : BitVec 15) : State → Plan :=
  planAddr g d [b] [] fun x => x.seg.va.setWidth 64 + x.s b + off.setWidth 64
def planAmov (g : Guard) (d : AReg) (a : SReg) : State → Plan := planAddr g d [a] [] fun x => x.s a
def planSmova (g : Guard) (d : SReg) (a : AReg) : State → Plan := planAluR g d [] (rA a) 1 fun x => x.a a

/-! ### The meanings -/

def execAdd (g : Guard) (d a b : SReg) (s : State) : Out :=
  runPlan 0 (planAdd g d a b s) s
def execSub (g : Guard) (d a b : SReg) (s : State) : Out :=
  runPlan 0 (planSub g d a b s) s
def execAddi (g : Guard) (d a : SReg) (imm : BitVec 16) (s : State) : Out :=
  runPlan 0 (planAddi g d a imm s) s
def execMul (g : Guard) (d a b : SReg) (s : State) : Out :=
  runPlan 0 (planMul g d a b s) s
def execMulhu (g : Guard) (d a b : SReg) (s : State) : Out :=
  runPlan 0 (planMulhu g d a b s) s
def execMulhs (g : Guard) (d a b : SReg) (s : State) : Out :=
  runPlan 0 (planMulhs g d a b s) s
def execAnd (g : Guard) (d a b : SReg) (s : State) : Out :=
  runPlan 0 (planAnd g d a b s) s
def execOr (g : Guard) (d a b : SReg) (s : State) : Out :=
  runPlan 0 (planOr g d a b s) s
def execXor (g : Guard) (d a b : SReg) (s : State) : Out :=
  runPlan 0 (planXor g d a b s) s
def execAndn (g : Guard) (d a b : SReg) (s : State) : Out :=
  runPlan 0 (planAndn g d a b s) s
def execShl (g : Guard) (d a b : SReg) (s : State) : Out :=
  runPlan 0 (planShl g d a b s) s
def execShr (g : Guard) (d a b : SReg) (s : State) : Out :=
  runPlan 0 (planShr g d a b s) s
def execSar (g : Guard) (d a b : SReg) (s : State) : Out :=
  runPlan 0 (planSar g d a b s) s
def execShli (g : Guard) (d a : SReg) (sh : BitVec 6) (s : State) : Out :=
  runPlan 0 (planShli g d a sh s) s
def execShri (g : Guard) (d a : SReg) (sh : BitVec 6) (s : State) : Out :=
  runPlan 0 (planShri g d a sh s) s
def execSari (g : Guard) (d a : SReg) (sh : BitVec 6) (s : State) : Out :=
  runPlan 0 (planSari g d a sh s) s
def execMin (g : Guard) (d a b : SReg) (s : State) : Out :=
  runPlan 0 (planMin g d a b s) s
def execMax (g : Guard) (d a b : SReg) (s : State) : Out :=
  runPlan 0 (planMax g d a b s) s
def execMinu (g : Guard) (d a b : SReg) (s : State) : Out :=
  runPlan 0 (planMinu g d a b s) s
def execMaxu (g : Guard) (d a b : SReg) (s : State) : Out :=
  runPlan 0 (planMaxu g d a b s) s
def execClz (g : Guard) (d a : SReg) (s : State) : Out :=
  runPlan 0 (planClz g d a s) s
def execPopc (g : Guard) (d a : SReg) (s : State) : Out :=
  runPlan 0 (planPopc g d a s) s
def execDivu (g : Guard) (d a b : SReg) (s : State) : Out :=
  runPlan 0 (planDivu g d a b s) s
def execDivuRem (g : Guard) (d a b : SReg) (s : State) : Out :=
  runPlan 0 (planDivuRem g d a b s) s
def execDivs (g : Guard) (d a b : SReg) (s : State) : Out :=
  runPlan 0 (planDivs g d a b s) s
def execDivsRem (g : Guard) (d a b : SReg) (s : State) : Out :=
  runPlan 0 (planDivsRem g d a b s) s
def execMovi (g : Guard) (d : SReg) (imm : BitVec 16) (s : State) : Out :=
  runPlan 0 (planMovi g d imm s) s
def execMovhi (g : Guard) (d a : SReg) (imm : BitVec 16) (j : BitVec 2) (s : State) : Out :=
  runPlan 0 (planMovhi g d a imm j s) s
def execCmp (g : Guard) (cc : SCond) (d : PReg) (a b : SReg) (s : State) : Out :=
  runPlan 0 (planCmp g cc d a b s) s
def execCmpi (g : Guard) (cc : SCond) (d : PReg) (a : SReg) (imm : BitVec 16) (s : State) : Out :=
  runPlan 0 (planCmpi g cc d a imm s) s
def execSel (g : Guard) (d a b : SReg) (c : PReg) (s : State) : Out :=
  runPlan 0 (planSel g d a b c s) s
def execPand (g : Guard) (d a b : PReg) (ia ib : Bool) (s : State) : Out :=
  runPlan 0 (planPand g d a b ia ib s) s
def execPor (g : Guard) (d a b : PReg) (ia ib : Bool) (s : State) : Out :=
  runPlan 0 (planPor g d a b ia ib s) s
def execPxor (g : Guard) (d a b : PReg) (ia ib : Bool) (s : State) : Out :=
  runPlan 0 (planPxor g d a b ia ib s) s
def execAadd (g : Guard) (d a : AReg) (b : SReg) (s : State) : Out :=
  runPlan 0 (planAadd g d a b s) s
def execAaddi (g : Guard) (d a : AReg) (imm : BitVec 16) (s : State) : Out :=
  runPlan 0 (planAaddi g d a imm s) s
def execAlea (g : Guard) (d a : AReg) (b : SReg) (sh : BitVec 3) (s : State) : Out :=
  runPlan 0 (planAlea g d a b sh s) s
def execAleaSeg (g : Guard) (d : AReg) (b : SReg) (off : BitVec 15) (s : State) : Out :=
  runPlan 0 (planAleaSeg g d b off s) s
def execAmov (g : Guard) (d : AReg) (a : SReg) (s : State) : Out :=
  runPlan 0 (planAmov g d a s) s
def execSmova (g : Guard) (d : SReg) (a : AReg) (s : State) : Out :=
  runPlan 0 (planSmova g d a s) s

end Sys2Proof.Machine
end

