-- ==== Sys2Proof/Machine/Control.lean ====
section
/-! DEFINITION. The operations of the SY map: transfers, loops, formats, fences, barriers, flags, time, system
registers, traps and ending (spec/07, R149 to R166). -/
namespace Sys2Proof.Machine

/-- The SY slot (R316). -/
def slotSY : Nat := 5

/-! ### Transfers (R149, R150) -/

/-- Transfers are illegal inside a loop (R153). -/
def loopFree (x : Ctx) : Check := illegalIf x.loop.isSome

/-- A target outside the code range takes 0x0C, DETAIL 0 (R149, R317). -/
def targetCheck (x : Ctx) (va : Nat) : Check := faultIf (!x.seg.inCode va) 0x0C va

/-- The target of a direct transfer: PC + 8·Sext(IMM16) (R150). -/
def direct (x : Ctx) (disp : BitVec 16) : Addr := x.pc + (disp.signExtend 48 <<< 3)

/-- A transfer to va: the target is not in the fetch buffer for `wait` cycles (R149). -/
def goTo (va : Addr) (wait : Nat) (s : State) : State := s.modMe fun x => { x with npc := va, delay := wait }

/-- The address of the target table's word at index i (R135, R150). -/
def Ctx.tableVa (x : Ctx) (i : Nat) : Nat := x.seg.va.toNat + 0x40 + 4 * (x.seg.nent.toNat + 1 + i)

/-- Whether the word of the target table waits for its share of the DRAM ports (R91). -/
def tableShut (s : State) (x : Ctx) (i : Dword) : Bool :=
  decide (i.toNat < x.seg.ntgt.toNat) &&
    match s.xlate s.cur.1 (ctxWaiter s.cur.2) s.here.tenant (x.tableVa i.toNat) .fetch with
    | .ok pa => !s.dramOpen (some s.here.tenant) pa
    | _ => false

/-- The entry of the target table at index i, read as a fetch: its check and the target (R150, R317, R353); poison names its
line (R317). DESIGN CHOICE (log 63): a target within the code range that is no multiple of 8 takes no fault, and the
bundle at it runs. -/
def tableEntry (s : State) (x : Ctx) (i : Dword) : Check × Addr :=
  if x.seg.ntgt.toNat ≤ i.toNat then
    (.fault { code := 0x0C, detail := 1, va := i.setWidth 48 }, 0)
  else
    let va := x.tableVa i.toNat
    match s.xlate s.cur.1 (ctxWaiter s.cur.2) s.here.tenant va .fetch with
    | .miss pg => (.miss [pg], 0)
    | .bad l k => (.fault (fetchFault 0 va l k), 0)
    | .ok pa => (faultIf (s.poisoned pa 4) 0x0D (va / 64 * 64) 4, x.seg.va + (rdWord s.mem pa).setWidth 48)

def planBr (g : Guard) (disp : BitVec 16) (s : State) : Plan :=
  gplan g s fun x =>
    { check := (loopFree x).and (targetCheck x (direct x disp).toNat), commit := goTo (direct x disp) 2 }

/-- BRC counts a scalar down and branches while it is not zero (R150). -/
def planBrc (g : Guard) (d : SReg) (disp : BitVec 16) (s : State) : Plan :=
  gplan g s fun x =>
    let v := x.s d - 1
    { reads := rS x d
      check := (loopFree x).and (if v = 0 then .ok else targetCheck x (direct x disp).toNat)
      commit := fun t => putS x d v 1 (if v = 0 then t else goTo (direct x disp) 2 t) }

def planJmp (g : Guard) (a : SReg) (s : State) : Plan :=
  gplan g s fun x =>
    let e := tableEntry s x (x.s a)
    { reads := rS x a
      frozen := tableShut s x (x.s a)
      check := ((loopFree x).and e.1).and (targetCheck x e.2.toNat)
      commit := goTo e.2 3 }

/-! ### The scalar window (R139, R140) -/

/-- The BOT a CALL with slide n leads to when it must spill. -/
def callBot (x : Ctx) (n : Nat) : Option Nat :=
  let top := x.fb.toNat + n + 48
  if x.bot.toNat + 256 < top then some (8 * ((top - 256 + 7) / 8)) else none

/-- The BOT a RET with slide n leads to when it must fill. -/
def retBot (x : Ctx) (n : Nat) : Option Nat :=
  let fb := x.fb.toNat - n
  if fb < x.bot.toNat then some (8 * (fb / 8)) else none

/-- The backing store's base (R163). -/
def Ctx.bsaBase (x : Ctx) : Nat := (x.bsa.extractLsb' 12 36).toNat * 4096
/-- The backing store's size in 4 KiB units (R163). -/
def Ctx.bsaLen (x : Ctx) : Nat := (x.bsa.extractLsb' 48 16).toNat

/-- The entries a transfer moves: from the lower to the upper BOT. -/
def xferEntries (lo hi : Nat) : List Nat := (List.range (hi - lo)).map fun i => lo + i

/-- The checks of a transfer, entry by entry (R140). -/
def xferCheck (s : State) (x : Ctx) (need : Need) (js : List Nat) : Check :=
  js.foldl (fun c j => c.and (
    let va := x.bsaBase + 8 * j
    if need == .write && 512 * x.bsaLen ≤ j then .fault { code := 0x12, va := BitVec.ofNat 48 va }
    else
      match s.xlate s.cur.1 (ctxWaiter s.cur.2) s.here.tenant va need with
      | .ok _ => .ok
      | .miss pg => .miss [pg]
      | .bad _ _ => .fault { code := 0x12, va := BitVec.ofNat 48 va })) .ok

/-- The check of a CALL's slide: a spill that is needed must be possible, and is then waited for. -/
def callCheck (s : State) (x : Ctx) (n : Nat) : Check :=
  match callBot x n with
  | none => .ok
  | some b =>
    ((faultIf (x.bsaLen == 0) 0x12 0).and (xferCheck s x .write (xferEntries x.bot.toNat b))).and (.xfer true b)

/-- The check of a RET's slide. -/
def retCheck (s : State) (x : Ctx) (n : Nat) : Check :=
  (faultIf (x.fb.toNat < n) 0x12 0).and
    (match retBot x n with
     | none => .ok
     | some b => (xferCheck s x .read (xferEntries b x.bot.toNat)).and (.xfer false b))

/-- Sliding the window up by n: the n entries that become reachable are fresh, and their values are free (R150) and carry
no poison (R8). -/
def slideUp (n : Nat) (s : State) : State :=
  let fb := s.me.fb.toNat
  let fresh := (List.range n).map fun i => (fb + 48 + i) % 256
  let c0 := s.freeCtr
  { s with freeCtr := c0 + n }.modMe fun x =>
    { x with
      fb := x.fb + BitVec.ofNat 32 n
      scal := (List.range n).foldl (fun m i => ains m (16 + fresh.getD i 0) (Config.freeDword (c0 + i))) x.scal
      sPoison := x.sPoison.filter fun e => !fresh.contains (e - 16) || e < 16
      ldsPoison := x.ldsPoison.filter fun e => !fresh.contains (e.1 - 16) || e.1 < 16 }

def planCall (g : Guard) (d : AReg) (n : BitVec 6) (disp : BitVec 16) (s : State) : Plan :=
  gplan g s fun x =>
    { check := (((loopFree x).and (illegalIf (48 < n.toNat))).and (targetCheck x (direct x disp).toNat)).and
        (callCheck s x n.toNat)
      commit := fun t =>
        goTo (direct x disp) 2 ((slideUp n.toNat t).result (.a d.toNat) ((x.npc.setWidth 64 : Dword).setWidth 512) 1) }

def planCalli (g : Guard) (d : AReg) (a : SReg) (n : BitVec 6) (s : State) : Plan :=
  gplan g s fun x =>
    let e := tableEntry s x (x.s a)
    { reads := rS x a
      frozen := tableShut s x (x.s a)
      check := ((((loopFree x).and (illegalIf (48 < n.toNat))).and e.1).and (targetCheck x e.2.toNat)).and
        (callCheck s x n.toNat)
      commit := fun t =>
        goTo e.2 3 ((slideUp n.toNat t).result (.a d.toNat) ((x.npc.setWidth 64 : Dword).setWidth 512) 1) }

def planRet (g : Guard) (a : AReg) (n : BitVec 6) (s : State) : Plan :=
  gplan g s fun x =>
    let va := (x.a a).toNat
    { reads := rA a
      check := (((loopFree x).and (illegalIf (48 < n.toNat))).and (faultIf (va % 8 != 0) 0x0C va)).and
        ((targetCheck x va).and (retCheck s x n.toNat))
      commit := fun t =>
        goTo (BitVec.ofNat 48 va) 2 (t.modMe fun y => { y with fb := y.fb - BitVec.ofNat 32 n.toNat }) }

/-! ### Loops (R151 to R153) -/

/-- The fetch of a loop's body: waited for, or failed (R151). -/
def bodyFetch (x : Ctx) (len : Nat) : Check :=
  match x.bodyEnd x.npc.toNat len with
  | .error (.need b) => .fetch b
  | .error (.fail f _) => .fault f
  | _ => .ok

/-- The size and range of a loop's body, and its end. -/
def bodyRange (x : Ctx) (len : Nat) : Check × Addr :=
  match x.bodyEnd x.npc.toNat len with
  | .ok va => (illegalIf (4096 < va - x.npc.toNat), BitVec.ofNat 48 va)
  | .error (.out va) => (faultIf true 0x0C va, 0)
  | .error _ => (.ok, 0)

/-- The checks of a loop: the fetch of its body first (R151), then that no loop runs (R153) and that its operands are
legal, then the body's size and range. -/
def bodyCheck (x : Ctx) (len : Nat) (bad : Bool) : Check × Addr :=
  ((((bodyFetch x len).and (loopFree x)).and (illegalIf bad)).and (bodyRange x len).1, (bodyRange x len).2)

/-- Starts a loop with these counts, its body in the loop buffer (R152); a count of zero skips the body. -/
def startLoop (counts : List Nat) (stop : Addr) (s : State) : State :=
  s.modMe fun x =>
    let a := x.npc.toNat
    if counts.any (· == 0) then { x with npc := stop }
    else { x with loop := some ⟨x.npc, stop, counts, counts.map fun _ => 0, some (wrBytes [] a (rdBytes x.code a (stop.toNat - a)))⟩ }

def planLoop (g : Guard) (k : NReg) (levels : BitVec 3) (len : BitVec 6) (s : State) : Plan :=
  gplan g s fun x =>
    let b := bodyCheck x len.toNat (levels.toNat < 1 || 6 < levels.toNat || len.toNat < 1 || 32 < len.toNat)
    { reads := rN k
      check := b.1
      commit := startLoop ((List.range levels.toNat).map (nestCnt (x.n k))) b.2 }

def planLoopx (g : Guard) (a : SReg) (len : BitVec 6) (s : State) : Plan :=
  gplan g s fun x =>
    let b := bodyCheck x len.toNat (len.toNat < 1 || 32 < len.toNat || 2 ^ 32 ≤ (x.s a).toNat)
    { reads := rS x a
      check := b.1
      commit := startLoop [(x.s a).toNat] b.2 }

/-! ### Formats and fences -/

/-- A write of FMTS: its bundle and the three after it use the old value (R155). -/
def writeFmts (v : Byte) (s : State) : State := s.modMe fun x => { x with fmtPend := x.fmtPend ++ [(v, 4)] }

def planSetfmt (g : Guard) (v : Byte) (s : State) : Plan := gplan g s fun _ => { commit := writeFmts v }

/-- FENCE: at CTX scope it orders nothing beyond the other items of R94 (R94, R95, R157). The mask is encoded
inverted (R156). -/
def planFence (g : Guard) (sc : Scope) (nmask : BitVec 16) (s : State) : Plan :=
  gplan g s fun _ =>
    { check := illegalIf (!nmaskOk nmask)
      commit := fun t =>
        let f : FenceRec := ⟨t.me.pos, ~~~nmask, sc⟩
        if sc == .ctx then t
        else (t.modMe fun x => { x with fences := x.fences ++ [f] }).learnAll (f.know t.cur.1 t.cur.2) }

/-- The global accesses of the issuing context before a place that have yet to perform. -/
def State.earlier (s : State) (pos : Nat) : List Nat :=
  (s.reqs.filter fun r => r.core == s.cur.1 && r.ctx == s.cur.2 && r.pos < pos).map (·.id)

/-- XFENCE: engine commands issued after it start once the accesses it covers have performed, and every access that happens
before it happens before theirs (R100, R157). -/
def planXfence (g : Guard) (s : State) : Plan :=
  gplan g s fun x =>
    { commit := fun t =>
        let ids := t.earlier x.pos
        t.modMe fun y => { y with xfence := x.pos + 1, xafter := ids } }

/-- IFENCE discards the fetch buffer and the loop buffer; what is fetched after it comes from writes that happen before it,
or later ones, and so waits for the context's earlier global writes to perform (R108, R157). -/
def planIfence (g : Guard) (s : State) : Plan :=
  gplan g s fun x =>
    { check := loopFree x
      commit := fun t =>
        let ids := t.earlier x.pos
        t.modMe fun y => { y with blocks := [], code := [], fetchFail := [], ifence := x.pos + 1, iafter := ids } }

/-! ### Barriers, flags and time -/

/-- The number of a scope, for counting barriers. -/
def scopeNum : Scope → Nat
  | .pkg => 0 | .ctx => 1 | .core => 2 | .group => 3 | .die => 4 | .sys => 5

/-- Whether the running launch is co-resident (R26, R41). -/
def State.coResident (s : State) (id : Word) : Bool :=
  match s.launch id with
  | some l => l.record.getLsbD 117
  | none => false

/-- BAR: the member arrives, and freezes before its next bundle until the instance completes (R158). -/
def planBar (g : Guard) (sc : Scope) (s : State) : Plan :=
  gplan g s fun x =>
    { check := (illegalIf (sc == .ctx || sc == .sys)).and (faultIf (!s.coResident x.launch) 0x13 0)
      commit := fun t => t.modMe fun y =>
        let n := aget y.barCount (scopeNum sc) 0 + 1
        { y with barCount := ains y.barCount (scopeNum sc) n, barWait := some (sc, n) } }

/-- The flags a SETF or CLRF names (R159). -/
def flagMask (grp : BitVec 2) (mask : BitVec 16) : BitVec 64 := mask.setWidth 64 <<< (16 * grp.toNat)

def planSetf (g : Guard) (grp : BitVec 2) (mask : BitVec 16) (s : State) : Plan :=
  gplan g s fun _ =>
    { check := illegalIf (mask == 0), commit := fun t => t.result .flagSet ((flagMask grp mask).setWidth 512) 1 }

def planClrf (g : Guard) (grp : BitVec 2) (mask : BitVec 16) (s : State) : Plan :=
  gplan g s fun _ =>
    { check := illegalIf (mask == 0), commit := fun t => t.result .flagClr ((flagMask grp mask).setWidth 512) 1 }

def planWaitgcc (g : Guard) (a : SReg) (s : State) : Plan :=
  gplan g s fun x =>
    { reads := rS x a, commit := fun t => t.modMe fun y => { y with waitGcc := some (x.s a) } }

/-! ### System registers (R161 to R163) -/

/-- DOMAIN: the scheduler's part, with the group and die of the core (R40). -/
def domainOf (x : Ctx) (k : CoreId) : Dword := x.domain ||| (k.toNat / 4 + (k.toNat / 32) * 32 : Nat)

/-- The value of a system register. -/
def sysReg (s : State) (x : Ctx) (n : Nat) : Dword :=
  match n with
  | 0 => s.gcc
  | 1 => BitVec.ofNat 64 (s.cur.2.toNat + 4 * s.cur.1.toNat)
  | 2 => x.clmask.setWidth 64
  | 3 => domainOf x s.cur.1
  | 4 => x.arith.setWidth 64
  | 5 => x.fmts.setWidth 64
  | 6 => x.fb.setWidth 64 ||| (x.bot.setWidth 64 <<< 32)
  | 7 => x.bsa
  | 8 => s.here.pmb.setWidth 64
  | 9 => x.splo
  | 10 => x.sphi
  | 11 => x.trapinfo.setWidth 64
  | 12 => x.launch.setWidth 64
  | 13 => s.here.tenant.setWidth 64
  | 14 => s.here.runmax.setWidth 64
  | _ => 0

def planRdsys (g : Guard) (d : SReg) (num : BitVec 4) (s : State) : Plan :=
  gplan g s fun x =>
    { check := (illegalIf (14 < num.toNat)).and (loopDest x d), commit := putS x d (sysReg s x num.toNat) 1 }

/-- The bound a WRSYS of SPLO or SPHI sets: bits [22:6] (R68). -/
def boundOf (v : Dword) : Dword := v &&& 0x7FFFC0

/-- The checks of a WRSYS (R162): read-only numbers, BSA with entries spilled, bounds beyond the header's. -/
def wrsysCheck (x : Ctx) (n : Nat) (v : Dword) : Check :=
  match n with
  | 4 | 5 => .ok
  | 7 => illegalIf (0 < x.bot.toNat)
  | 9 => faultIf ((boundOf v).toNat < x.seg.splo.toNat) 0x08 0
  | 10 => faultIf (x.seg.sphi.toNat < (boundOf v).toNat) 0x08 0
  | _ => illegalIf true

/-- A write of FLAGS replaces what lands in its cycle or earlier (R66): the flags, too, of the context's matrix commands that
complete in the cycle. -/
def writeFlags (v : Byte) (s : State) : State :=
  let r := s.me.runId
  (s.modMe fun x => { x with arith := v }).modHere fun y =>
    { y with mx := y.mx.map fun c =>
        if c.ctx == s.cur.2 && c.runId == r && c.beaten && c.next ≤ y.cycle then { c with flags := 0 } else c }

/-- The effect of a WRSYS; reserved bits are ignored (R162). -/
def wrsysDo (n : Nat) (v : Dword) (s : State) : State :=
  match n with
  | 4 => writeFlags (v.setWidth 8) s
  | 5 => writeFmts (v.setWidth 8) s
  | 7 => s.modMe fun x => { x with bsa := v &&& 0xFFFFFFFFFFFFF000 }
  | 9 => s.modMe fun x => { x with splo := boundOf v }
  | 10 => s.modMe fun x => { x with sphi := boundOf v }
  | _ => s

def planWrsys (g : Guard) (num : BitVec 4) (a : SReg) (s : State) : Plan :=
  gplan g s fun x =>
    { reads := rS x a, check := wrsysCheck x num.toNat (x.s a), commit := wrsysDo num.toNat (x.s a) }

/-! ### Traps, ending, naming the unit -/

/-- TRAP and BRK raise their faults at their bundle; the record carries IMM16 (R164). -/
def planTrap (g : Guard) (imm : BitVec 16) (s : State) : Plan :=
  gplan g s fun _ => { check := .fault { code := 0x0F, imm := imm } }
def planBrk (g : Guard) (imm : BitVec 16) (s : State) : Plan :=
  gplan g s fun _ => { check := .fault { code := 0x10, imm := imm } }

/-- HALT ends the run after its bundle commits (R165). -/
def planHalt (g : Guard) (s : State) : Plan :=
  gplan g s fun x => { check := loopFree x, commit := fun t => t.modMe fun y => { y with ending := true } }

/-- W of the running launch (R26). -/
def State.unitCount (s : State) (id : Word) : Nat :=
  match s.launch id with
  | some l => (l.record.extractLsb' 128 32).toNat
  | none => 0

/-- The current unit a work-register value names: none when NULL (bit 63) is set (R35, R166). -/
def unitOf (w : Dword) : Option (BitVec 24) := if w.getLsbD 63 then none else some (w.setWidth 24)

/-- A unit index not less than W is illegal (R166). -/
def unitCheck (s : State) (x : Ctx) (w : Dword) : Check :=
  illegalIf (!w.getLsbD 63 && s.unitCount x.launch ≤ (w.setWidth 24).toNat)

def planUnit (g : Guard) (d : SReg) (k : WReg) (s : State) : Plan :=
  gplan g s fun x =>
    { works := [k.toNat]
      check := (unitCheck s x (x.w k)).and (loopDest x d)
      commit := fun t => putS x d (x.w k) 1 (t.modMe fun y => { y with unit := unitOf (x.w k) }) }

def planUnitS (g : Guard) (a : SReg) (s : State) : Plan :=
  gplan g s fun x =>
    { reads := rS x a
      check := unitCheck s x (x.s a)
      commit := fun t => t.modMe fun y => { y with unit := unitOf (x.s a) } }

/-! ### The meanings -/

def execBr (g : Guard) (disp : BitVec 16) (s : State) : Out :=
  runPlan slotSY (planBr g disp s) s
def execBrc (g : Guard) (d : SReg) (disp : BitVec 16) (s : State) : Out :=
  runPlan slotSY (planBrc g d disp s) s
def execJmp (g : Guard) (a : SReg) (s : State) : Out :=
  runPlan slotSY (planJmp g a s) s
def execCall (g : Guard) (d : AReg) (n : BitVec 6) (disp : BitVec 16) (s : State) : Out :=
  runPlan slotSY (planCall g d n disp s) s
def execCalli (g : Guard) (d : AReg) (a : SReg) (n : BitVec 6) (s : State) : Out :=
  runPlan slotSY (planCalli g d a n s) s
def execRet (g : Guard) (a : AReg) (n : BitVec 6) (s : State) : Out :=
  runPlan slotSY (planRet g a n s) s
def execLoop (g : Guard) (k : NReg) (levels : BitVec 3) (len : BitVec 6) (s : State) : Out :=
  runPlan slotSY (planLoop g k levels len s) s
def execLoopx (g : Guard) (a : SReg) (len : BitVec 6) (s : State) : Out :=
  runPlan slotSY (planLoopx g a len s) s
def execSetfmt (g : Guard) (v : Byte) (s : State) : Out :=
  runPlan slotSY (planSetfmt g v s) s
def execFence (g : Guard) (sc : Scope) (nmask : BitVec 16) (s : State) : Out :=
  runPlan slotSY (planFence g sc nmask s) s
def execXfence (g : Guard) (s : State) : Out :=
  runPlan slotSY (planXfence g s) s
def execIfence (g : Guard) (s : State) : Out :=
  runPlan slotSY (planIfence g s) s
def execBar (g : Guard) (sc : Scope) (s : State) : Out :=
  runPlan slotSY (planBar g sc s) s
def execSetf (g : Guard) (grp : BitVec 2) (mask : BitVec 16) (s : State) : Out :=
  runPlan slotSY (planSetf g grp mask s) s
def execClrf (g : Guard) (grp : BitVec 2) (mask : BitVec 16) (s : State) : Out :=
  runPlan slotSY (planClrf g grp mask s) s
def execWaitgcc (g : Guard) (a : SReg) (s : State) : Out :=
  runPlan slotSY (planWaitgcc g a s) s
def execRdsys (g : Guard) (d : SReg) (num : BitVec 4) (s : State) : Out :=
  runPlan slotSY (planRdsys g d num s) s
def execWrsys (g : Guard) (num : BitVec 4) (a : SReg) (s : State) : Out :=
  runPlan slotSY (planWrsys g num a s) s
def execTrap (g : Guard) (imm : BitVec 16) (s : State) : Out :=
  runPlan slotSY (planTrap g imm s) s
def execBrk (g : Guard) (imm : BitVec 16) (s : State) : Out :=
  runPlan slotSY (planBrk g imm s) s
def execHalt (g : Guard) (s : State) : Out :=
  runPlan slotSY (planHalt g s) s
def execUnit (g : Guard) (d : SReg) (k : WReg) (s : State) : Out :=
  runPlan slotSY (planUnit g d k s) s
def execUnitS (g : Guard) (a : SReg) (s : State) : Out :=
  runPlan slotSY (planUnitS g a s) s

end Sys2Proof.Machine
end

