-- ==== Sys2Proof/Machine/Flags.lean ====
section
/-! DEFINITION. The arithmetic flags of FLAGS (R64). -/
namespace Sys2Proof.Machine

/-- Invalid. -/
def fNV : Byte := 0x01
/-- Divide-by-zero. -/
def fDZ : Byte := 0x02
/-- Overflow. -/
def fOF : Byte := 0x04
/-- Underflow. -/
def fUF : Byte := 0x08
/-- Inexact. -/
def fNX : Byte := 0x10
/-- Log saturation. -/
def fLSAT : Byte := 0x20
/-- Log underflow. -/
def fLUNF : Byte := 0x40
/-- LNS product overflow. -/
def fLOVF : Byte := 0x80

/-- A flag that is set when a condition holds. -/
def flagIf (b : Bool) (f : Byte) : Byte := if b then f else 0

/-- The OR of some flags (R65). -/
def orAll (fs : List Byte) : Byte := fs.foldl (fun a b => a ||| b) 0

end Sys2Proof.Machine
end

