-- ==== Sys2Proof/Machine/Num.lean ====
section
/-! DEFINITION. Number formats (spec/03): exact values, rounding, FP32, FP16, BF16, the log formats and their
conversions. Results are bit patterns with the flags they raise. -/
namespace Sys2Proof.Machine

/-! ### Floating point (R45 to R48) -/

/-- A binary format: exponent bits, fraction bits, and whether subnormal results are kept (R45, R47). -/
structure Fmt where
  eb : Nat
  fb : Nat
  gradual : Bool
  deriving DecidableEq, Repr

def f32 : Fmt := ⟨8, 23, true⟩
def f16 : Fmt := ⟨5, 10, false⟩
def bf16 : Fmt := ⟨8, 7, false⟩

/-- The half-precision choice HALF of FMTS (R57). -/
def halfFmt (half : Bool) : Fmt := if half then bf16 else f16

/-- The exponent bias. -/
def Fmt.bias (F : Fmt) : Nat := 2 ^ (F.eb - 1) - 1
/-- The canonical quiet NaN (R46). -/
def Fmt.qnan (F : Fmt) : Nat := (2 ^ F.eb - 1) * 2 ^ F.fb + 2 ^ (F.fb - 1)
/-- The sign bit. -/
def Fmt.sgn (F : Fmt) (neg : Bool) : Nat := if neg then 2 ^ (F.eb + F.fb) else 0
/-- Infinity. -/
def Fmt.inf (F : Fmt) (neg : Bool) : Nat := F.sgn neg + (2 ^ F.eb - 1) * 2 ^ F.fb

/-- A number read from a format, or an exact intermediate value (−1)^neg · m · 2^e; m = 0 is a signed zero. -/
inductive FNum
  | nan (sig : Bool)
  | inf (neg : Bool)
  | num (neg : Bool) (m : Nat) (e : Int)
  deriving DecidableEq, Repr

/-- Reads a bit pattern; with `flush` a subnormal is read as zero of its sign (R47). -/
def Fmt.read (F : Fmt) (flush : Bool) (w : Nat) : FNum :=
  let neg := w / 2 ^ (F.eb + F.fb) % 2 == 1
  let ex := w / 2 ^ F.fb % 2 ^ F.eb
  let fr := w % 2 ^ F.fb
  if ex == 2 ^ F.eb - 1 then (if fr == 0 then .inf neg else .nan (fr < 2 ^ (F.fb - 1)))
  else if ex == 0 then .num neg (if flush then 0 else fr) (1 - F.bias - F.fb)
  else .num neg (2 ^ F.fb + fr) ((ex : Int) - F.bias - F.fb)

/-- Whether rounding moves the magnitude up, from the kept part's parity and the part cut off (R48). -/
def roundUp (rm : Rm) (neg : Bool) (odd : Bool) (rem half : Nat) : Bool :=
  match rm with
  | .rne => half < rem || (rem == half && odd)
  | .rtz => false
  | .rup => !neg && rem != 0
  | .rdn => neg && rem != 0

/-- m · 2^e rounded to an integer multiple of 2^q: the multiple, and whether it is inexact. -/
def roundAt (rm : Rm) (neg : Bool) (m : Nat) (e q : Int) : Nat × Bool :=
  if q ≤ e then (m * 2 ^ (e - q).toNat, false)
  else
    let d := (q - e).toNat
    let n := m / 2 ^ d
    let rem := m % 2 ^ d
    (if roundUp rm neg (n % 2 == 1) rem (2 ^ (d - 1)) then n + 1 else n, rem != 0)

/-- Round(x, rm) of an exact nonzero value, with the flags of R48 (R47, R48). -/
def Fmt.round (F : Fmt) (rm : Rm) (neg : Bool) (m : Nat) (e : Int) : Nat × Byte :=
  let top := e + Nat.log2 m
  let emin : Int := 1 - F.bias
  let u := roundAt rm neg m e (top - F.fb)
  let tiny : Bool := decide ((top - F.fb) + Nat.log2 u.1 < emin)
  if tiny && !F.gradual then (F.sgn neg, fUF ||| fNX)
  else
    let q := max top emin - F.fb
    let r := roundAt rm neg m e q
    let bits := ((q + F.fb + F.bias) * 2 ^ F.fb + r.1 - 2 ^ F.fb).toNat
    if (2 ^ F.eb - 1) * 2 ^ F.fb ≤ bits then
      let toInf := match rm with | .rne => true | .rtz => false | .rup => !neg | .rdn => neg
      (if toInf then F.inf neg else F.inf neg - 1, fOF ||| fNX)
    else (F.sgn neg + bits, flagIf r.2 fNX ||| flagIf (tiny && r.2) fUF)

/-- Delivers an exact value in a format (R46, R48). -/
def Fmt.deliver (F : Fmt) (rm : Rm) (v : FNum) (fl : Byte) : Nat × Byte :=
  match v with
  | .nan _ => (F.qnan, fl)
  | .inf neg => (F.inf neg, fl)
  | .num neg m e =>
    if m = 0 then (F.sgn neg, fl) else
      let r := F.round rm neg m e
      (r.1, r.2 ||| fl)

/-- An exact zero under the sign R48 gives it outside an addition: −0 under RDN, else +0. -/
def FNum.zeroFor (rm : Rm) : FNum → FNum
  | .num neg m e => if m = 0 then .num (rm == .rdn) 0 0 else .num neg m e
  | v => v

/-- Round(x, rm) of an exact value that no addition gave: an exact zero takes R48's sign. -/
def Fmt.roundTo (F : Fmt) (rm : Rm) (v : FNum) (fl : Byte) : Nat × Byte := F.deliver rm (v.zeroFor rm) fl

/-- Invalid for a signalling NaN (R46). -/
def sigFlag : FNum → Byte
  | .nan sig => flagIf sig fNV
  | _ => 0

/-- The opposite value. -/
def FNum.neg : FNum → FNum
  | .nan s => .nan s
  | .inf n => .inf (!n)
  | .num n m e => .num (!n) m e

/-- The exact sum; the sign of an exact zero follows R48. -/
def addN (rm : Rm) (x y : FNum) : FNum × Byte :=
  let fl := sigFlag x ||| sigFlag y
  match x, y with
  | .nan _, _ => (.nan false, fl)
  | _, .nan _ => (.nan false, fl)
  | .inf a, .inf b => if a == b then (.inf a, 0) else (.nan false, fNV)
  | .inf a, _ => (.inf a, 0)
  | _, .inf b => (.inf b, 0)
  | .num a m e, .num b n f =>
    if m = 0 ∧ n = 0 then (.num (if a == b then a else rm == .rdn) 0 0, 0)
    else
      let q := min e f
      let p : Int := (m * 2 ^ (e - q).toNat : Nat)
      let r : Int := (n * 2 ^ (f - q).toNat : Nat)
      let t := (if a then -p else p) + (if b then -r else r)
      if t = 0 then (.num (rm == .rdn) 0 0, 0) else (.num (decide (t < 0)) t.natAbs q, 0)

/-- The exact product (R171). -/
def mulN (x y : FNum) : FNum × Byte :=
  let fl := sigFlag x ||| sigFlag y
  match x, y with
  | .nan _, _ => (.nan false, fl)
  | _, .nan _ => (.nan false, fl)
  | .inf a, .inf b => (.inf (a != b), 0)
  | .inf a, .num b n _ => if n = 0 then (.nan false, fNV) else (.inf (a != b), 0)
  | .num a m _, .inf b => if m = 0 then (.nan false, fNV) else (.inf (a != b), 0)
  | .num a m e, .num b n f => (.num (a != b) (m * n) (e + f), 0)

/-- Round(x + y). -/
def Fmt.add (F : Fmt) (rm : Rm) (x y : FNum) : Nat × Byte :=
  let s := addN rm x y
  F.deliver rm s.1 s.2

/-- Round(x · y) (R48, R171). -/
def Fmt.mul (F : Fmt) (rm : Rm) (x y : FNum) : Nat × Byte :=
  let p := mulN x y
  F.roundTo rm p.1 p.2

/-- Round(±x·y + z), rounded once (R171). -/
def Fmt.fma (F : Fmt) (rm : Rm) (negP : Bool) (x y z : FNum) : Nat × Byte :=
  let p := mulN x y
  let s := addN rm (if negP then p.1.neg else p.1) z
  F.deliver rm s.1 (p.2 ||| s.2)

/-- FP32 addition under RNE with gradual underflow, on bit patterns (R61, R62, R180, R216). -/
def add32 (x y : Word) : Word × Byte :=
  let r := f32.add .rne (f32.read false x.toNat) (f32.read false y.toNat)
  (BitVec.ofNat 32 r.1, r.2)

/-- Comparison of two values that are not NaN, −0 equal to +0. -/
def cmpN (x y : FNum) : Ordering :=
  let v : FNum → Int → Int := fun x q =>
    match x with
    | .num n m e => let p : Int := (m * 2 ^ (e - q).toNat : Nat); if n then -p else p
    | _ => 0
  match x, y with
  | .inf a, .inf b => if a == b then .eq else if a then .lt else .gt
  | .inf a, _ => if a then .lt else .gt
  | _, .inf b => if b then .gt else .lt
  | .num _ _ e, .num _ _ f => compare (v x (min e f)) (v y (min e f))
  | _, _ => .eq

/-- Whether a value is a NaN. -/
def FNum.isNan : FNum → Bool
  | .nan _ => true
  | _ => false

/-- The sign of a value. -/
def FNum.isNeg : FNum → Bool
  | .nan _ => false
  | .inf n => n
  | .num n _ _ => n

/-- The bit pattern as an exact operation reads it: a subnormal flushed when the format flushes (R47). -/
def Fmt.flushed (F : Fmt) (w : Nat) : Nat :=
  if !F.gradual && w / 2 ^ F.fb % 2 ^ F.eb == 0 then F.sgn (w / 2 ^ (F.eb + F.fb) % 2 == 1) else w

/-- FMIN and FMAX: exact; −0 below +0; a single NaN yields the other operand (R172). -/
def Fmt.minMax (F : Fmt) (mx : Bool) (a b : Nat) : Nat × Byte :=
  let x := F.read (!F.gradual) a
  let y := F.read (!F.gradual) b
  let fl := sigFlag x ||| sigFlag y
  if x.isNan && y.isNan then (F.qnan, fl)
  else if x.isNan then (F.flushed b, fl)
  else if y.isNan then (F.flushed a, fl)
  else
    let less := match cmpN x y with | .lt => true | .gt => false | .eq => x.isNeg
    (if less != mx then F.flushed a else F.flushed b, fl)

/-- FABS and FNEG (R172). -/
def Fmt.signOp (F : Fmt) (negate : Bool) (a : Nat) : Nat × Byte :=
  let x := F.read (!F.gradual) a
  let b := F.flushed a
  let top := 2 ^ (F.eb + F.fb)
  if x.isNan then (F.qnan, sigFlag x)
  else (if negate then (if top ≤ b then b - top else b + top) else b % top, 0)

/-- FCMP's condition and flag (R173). -/
def Fmt.cond (F : Fmt) (cc : FCond) (a b : Nat) : Bool × Byte :=
  let x := F.read (!F.gradual) a
  let y := F.read (!F.gradual) b
  let un := x.isNan || y.isNan
  let sig := sigFlag x ||| sigFlag y
  let any := flagIf un fNV
  let o := cmpN x y
  match cc with
  | .eq => (!un && o == .eq, sig)
  | .ne => (un || o != .eq, sig)
  | .lt => (!un && o == .lt, any)
  | .le => (!un && o != .gt, any)
  | .gt => (!un && o == .gt, any)
  | .ge => (!un && o != .lt, any)
  | .un => (un, sig)
  | .or => (!un, sig)

/-! ### Integers and floating point (R182, R183) -/

/-- F32.I32 and F32.N32: rounded, then clamped to lo..hi (R183). -/
def toInt (rm : Rm) (lo hi : Int) (x : FNum) : Int × Byte :=
  match x with
  | .nan _ => (0, fNV)
  | .inf neg => (if neg then lo else hi, fNV)
  | .num neg m e =>
    let r := roundAt rm neg m e 0
    let v : Int := if neg then -(r.1 : Int) else r.1
    if v < lo then (lo, fNV) else if hi < v then (hi, fNV) else (v, flagIf r.2 fNX)

/-- FP32 from an integer (R48, R182). -/
def ofInt32 (rm : Rm) (v : Int) : Nat × Byte := f32.roundTo rm (.num (decide (v < 0)) v.natAbs 0) 0

/-! ### Division, square roots (R186): exact quotients and roots with a sticky bit -/

/-- The integer square root, bit by bit from 2^b down. -/
def isqrtGo (n : Nat) : Nat → Nat → Nat
  | 0, r => r
  | b + 1, r => if (r + 2 ^ b) * (r + 2 ^ b) ≤ n then isqrtGo n b (r + 2 ^ b) else isqrtGo n b r
/-- The integer square root. -/
def isqrt (n : Nat) : Nat := isqrtGo n (Nat.log2 n / 2 + 1) 0

/-- A magnitude with a sticky bit below it. -/
def sticky (neg : Bool) (m : Nat) (e : Int) (s : Bool) : FNum := .num neg (2 * m + if s then 1 else 0) (e - 1)

/-- The quotient of two finite nonzero values. -/
def quot (neg : Bool) (m : Nat) (e : Int) (n : Nat) (f : Int) : FNum :=
  let k := 64 + Nat.log2 n
  sticky neg (m * 2 ^ k / n) (e - f - k) (m * 2 ^ k % n != 0)

/-- DIV (R186); a zero over a finite number is an exact zero (R48). -/
def divF (rm : Rm) (x y : FNum) : Nat × Byte :=
  let fl := sigFlag x ||| sigFlag y
  match x, y with
  | .nan _, _ => (f32.qnan, fl)
  | _, .nan _ => (f32.qnan, fl)
  | .inf _, .inf _ => (f32.qnan, fNV)
  | .inf a, .num b _ _ => (f32.inf (a != b), 0)
  | .num a _ _, .inf b => (f32.sgn (a != b), 0)
  | .num a m e, .num b n f =>
    if m = 0 ∧ n = 0 then (f32.qnan, fNV)
    else if n = 0 then (f32.inf (a != b), fDZ)
    else if m = 0 then f32.roundTo rm (.num (a != b) 0 0) 0
    else f32.deliver rm (quot (a != b) m e n f) 0

/-- RCP (R186). -/
def rcpF (rm : Rm) (x : FNum) : Nat × Byte := divF rm (.num false 1 0) x

/-- The root of a positive finite value. -/
def rootN (m : Nat) (e : Int) : FNum :=
  let k : Nat := 64 + (if (e + 64) % 2 == 0 then 0 else 1)
  let n := m * 2 ^ k
  let r := isqrt n
  sticky false r ((e - k) / 2) (r * r != n)

/-- SQRT (R186). -/
def sqrtF (rm : Rm) (x : FNum) : Nat × Byte :=
  match x with
  | .nan s => (f32.qnan, flagIf s fNV)
  | .inf neg => if neg then (f32.qnan, fNV) else (f32.inf false, 0)
  | .num neg m e =>
    if m = 0 then (f32.sgn neg, 0) else if neg then (f32.qnan, fNV) else f32.deliver rm (rootN m e) 0

/-- The reciprocal root of a positive finite value m · 2^e. -/
def rsqrtN (m : Nat) (e : Int) : FNum :=
  let n := if e % 2 == 0 then m else 2 * m
  let h := (if e % 2 == 0 then e else e - 1) / 2
  let r := isqrt (2 ^ 200 / n)
  sticky false r (-100 - h) (r * r * n != 2 ^ 200)

/-- RSQ (R186). -/
def rsqF (rm : Rm) (x : FNum) : Nat × Byte :=
  match x with
  | .nan s => (f32.qnan, flagIf s fNV)
  | .inf neg => if neg then (f32.qnan, fNV) else (0, 0)
  | .num neg m e =>
    if m = 0 then (f32.inf neg, fDZ) else if neg then (f32.qnan, fNV) else f32.deliver rm (rsqrtN m e) 0

/-! ### Powers and logarithms of two (R186) -/

/-- The product, in units of 2^−128, of 2^(2^−i) over the set bits of a fraction n / 2^t, from the bit of weight
2^−i down: `c` is 2^(2^−(i−1)). Each factor and product is cut, so the result is at most 2^10 units below the exact
value; the exact value of 2^f is irrational, and no FP32 operand brings it that near to a rounding boundary. -/
def exp2Go (n t : Nat) : Nat → Nat → Nat → Nat
  | 0, _, acc => acc
  | i + 1, c, acc =>
    let c' := isqrt (c * 2 ^ 128)
    let bit := n / 2 ^ i % 2
    exp2Go n t i c' (if bit = 1 then acc * c' / 2 ^ 128 else acc)

/-- 2^(n / 2^t) for 0 < n < 2^t, in units of 2^−128. -/
def exp2Frac (n t : Nat) : Nat := exp2Go n t t (2 ^ 129) (2 ^ 128)

/-- EXP2 (R186). -/
def exp2F (rm : Rm) (x : FNum) : Nat × Byte :=
  match x with
  | .nan s => (f32.qnan, flagIf s fNV)
  | .inf neg => if neg then (0, 0) else (f32.inf false, 0)
  | .num neg m e =>
    if m = 0 then f32.deliver rm (.num false 1 0) 0
    else
      let top := e + Nat.log2 m
      if 8 ≤ top then f32.deliver rm (if neg then sticky false 1 (-300) true else .num false 1 300) 0
      else if top < -26 then
        f32.deliver rm (.num false (if neg then 2 ^ 40 - 1 else 2 ^ 40 + 1) (-40)) 0
      else
        let t := (-e).toNat
        let v : Int := (m * 2 ^ (e + t).toNat : Nat)
        let a := if neg then -v else v
        let i := a / 2 ^ t
        let n := (a % 2 ^ t).toNat
        if n = 0 then f32.deliver rm (.num false 1 i) 0
        else f32.deliver rm (sticky false (exp2Frac n t) (i - 128) true) 0

/-- The first n bits of log2 y after the point, y in [1, 2) in units of 2^−512, appended to acc. -/
def log2Go : Nat → Nat → Nat → Nat
  | 0, _, acc => acc
  | n + 1, y, acc =>
    let z := y * y / 2 ^ 512
    if 2 ^ 513 ≤ z then log2Go n (z / 2) (2 * acc + 1) else log2Go n z (2 * acc)

/-- LOG2 (R186). -/
def log2F (rm : Rm) (x : FNum) : Nat × Byte :=
  match x with
  | .nan s => (f32.qnan, flagIf s fNV)
  | .inf neg => if neg then (f32.qnan, fNV) else (f32.inf false, 0)
  | .num neg m e =>
    if m = 0 then (f32.inf true, fDZ)
    else if neg then (f32.qnan, fNV)
    else
      let l := Nat.log2 m
      let i := e + l
      if m = 2 ^ l then f32.deliver rm (.num (decide (i < 0)) i.natAbs 0) 0
      else
        let t := i * 2 ^ 160 + (log2Go 160 (m * 2 ^ 512 / 2 ^ l) 0 : Nat)
        if 0 ≤ t then f32.deliver rm (sticky false t.natAbs (-160) true) 0
        else f32.deliver rm (sticky true (t.natAbs - 1) (-160) true) 0

/-! ### The log formats (R50 to R56) -/

/-- T16 (R54). -/
def t16 : List Nat :=
  [0x800000, 0x80B1ED, 0x8164D2, 0x8218AF, 0x82CD87, 0x838359, 0x843A29, 0x84F1F6] ++
  [0x85AAC3, 0x866491, 0x871F62, 0x87DB35, 0x88980F, 0x8955EE, 0x8A14D5, 0x8AD4C6] ++
  [0x8B95C2, 0x8C57CA, 0x8D1ADF, 0x8DDF04, 0x8EA43A, 0x8F6A81, 0x9031DC, 0x90FA4D] ++
  [0x91C3D3, 0x928E72, 0x935A2B, 0x9426FF, 0x94F4F0, 0x95C3FF, 0x96942D, 0x97657D] ++
  [0x9837F0, 0x990B88, 0x99E046, 0x9AB62B, 0x9B8D3A, 0x9C6573, 0x9D3EDA, 0x9E196E] ++
  [0x9EF532, 0x9FD228, 0xA0B051, 0xA18FAF, 0xA27043, 0xA3520F, 0xA43516, 0xA51958] ++
  [0xA5FED7, 0xA6E595, 0xA7CD94, 0xA8B6D5, 0xA9A15B, 0xAA8D26, 0xAB7A3A, 0xAC6897] ++
  [0xAD583F, 0xAE4934, 0xAF3B79, 0xB02F0E, 0xB123F6, 0xB21A32, 0xB311C4, 0xB40AAF] ++
  [0xB504F3, 0xB60094, 0xB6FD92, 0xB7FBF0, 0xB8FBAF, 0xB9FCD2, 0xBAFF5B, 0xBC034A] ++
  [0xBD08A4, 0xBE0F68, 0xBF179A, 0xC0213B, 0xC12C4D, 0xC238D2, 0xC346CD, 0xC4563F] ++
  [0xC5672A, 0xC67991, 0xC78D75, 0xC8A2D8, 0xC9B9BE, 0xCAD226, 0xCBEC15, 0xCD078C] ++
  [0xCE248C, 0xCF4319, 0xD06334, 0xD184DF, 0xD2A81E, 0xD3CCF1, 0xD4F35B, 0xD61B5E] ++
  [0xD744FD, 0xD87039, 0xD99D16, 0xDACB94, 0xDBFBB8, 0xDD2D82, 0xDE60F5, 0xDF9613] ++
  [0xE0CCDF, 0xE2055B, 0xE33F89, 0xE47B6D, 0xE5B907, 0xE6F85B, 0xE8396A, 0xE97C38] ++
  [0xEAC0C7, 0xEC0719, 0xED4F30, 0xEE9910, 0xEFE4BA, 0xF13231, 0xF28177, 0xF3D290] ++
  [0xF5257D, 0xF67A41, 0xF7D0DF, 0xF9295A, 0xFA83B3, 0xFBDFED, 0xFD3E0C, 0xFE9E11]

/-- T16 and T8: T8[F] = T16[16F] (R53, R54). -/
def logTab (q F : Nat) : Nat := t16.getD (if q = 8 then 16 * F else F) 0

/-- A log-domain number: NaN, zero, or a sign with a log field in steps of 1/q. -/
inductive LNum
  | nan
  | zero
  | log (neg : Bool) (lam : Int)
  deriving DecidableEq, Repr

/-- A log format: bits of the e field; L16 has 15, L8 has 7 (R50). -/
def lBias (eb : Nat) : Nat := 2 ^ (eb - 1)
/-- Steps per octave (R50). -/
def lSteps (eb : Nat) : Nat := if eb = 15 then 128 else 8

/-- Reads an L16 or L8 code (R50, R52). -/
def readL (eb : Nat) (w : Nat) : LNum :=
  let neg := w / 2 ^ eb % 2 == 1
  let e := w % 2 ^ eb
  if e == 0 then (if neg then .nan else .zero) else .log neg ((e : Int) - lBias eb)

/-- Element j of an LB4 record, its log field in eighths with the scale included (R51). -/
def readLB4 (rec : Word) (j : Nat) : LNum :=
  let s : Int := (rec.extractLsb' 24 8).toNat
  let x := (rec.extractLsb' 16 8).toNat
  let c := (rec.extractLsb' (4 * j) 4).toNat
  if s = 255 then .nan
  else if c = 0 then .zero
  else if c = 8 then
    match readL 7 x with
    | .log neg lam => .log neg (lam + 8 * (s - 127))
    | r => r
  else .log (decide (8 ≤ c)) (4 * ((c % 8 : Nat) - 4 : Int) + 8 * (s - 127))

/-- LogToLin: the exact linear value (R55). -/
def logToLin (q : Nat) (x : LNum) : FNum :=
  match x with
  | .nan => .nan false
  | .zero => .num false 0 0
  | .log neg lam => .num neg (logTab q (lam % q).toNat) (lam / q - 23)

/-- Delivers a log number as FP32 under RNE; a reserved code is invalid (R52, R55). -/
def logTo32 (q : Nat) (x : LNum) : Nat × Byte := f32.deliver .rne (logToLin q x) (flagIf (x == .nan) fNV)

/-- The rounding mode LROUND names (R57). -/
def lroundOf (fmts : Byte) : Rm :=
  match (fmts.extractLsb' 5 2).toNat with
  | 0 => .rne | 1 => .rtz | 2 => .rup | _ => .rdn

/-- A code from its sign and e field. -/
def lCode (eb : Nat) (neg : Bool) (e : Nat) : Nat := (if neg then 2 ^ eb else 0) + e

/-- A magnitude above the largest code: that code, LSAT and inexact (R56). -/
def lAbove (eb : Nat) (neg : Bool) : Nat × Byte := (lCode eb neg (2 ^ eb - 1), fLSAT ||| fNX)

/-- A magnitude below the smallest code; `near` says it is at least half a step below it at most (R56). -/
def lBelow (eb : Nat) (rm : Rm) (neg near : Bool) : Nat × Byte :=
  let small := match rm with | .rne => near | .rtz => false | .rup => !neg | .rdn => neg
  if small then (lCode eb neg 1, fNX) else (0, fNX ||| fLUNF)

/-- LinToLog: the code is chosen by comparing log2|x| exactly with the code points. With f = M / 2^23 in [1, 2),
floor(2q·log2 f) is floor(log2 (M^(2q))) − 46q (R56). -/
def linToLog (eb : Nat) (rm : Rm) (x : FNum) : Nat × Byte :=
  let q := lSteps eb
  let b : Int := lBias eb
  match x with
  | .nan _ => (2 ^ eb, fNV)
  | .inf neg => lAbove eb neg
  | .num neg m e =>
    if m = 0 then (0, 0)
    else
      let l := Nat.log2 m
      let n2 : Int := 2 * q * (e + l) + ((Nat.log2 (m ^ (2 * q)) : Int) - 2 * q * l)
      let lam := n2 / 2
      let exact := m == 2 ^ l
      if b ≤ lam || (lam == b - 1 && !exact) then lAbove eb neg
      else if lam < 1 - b then lBelow eb rm neg (decide (2 * (1 - b) - 1 ≤ n2))
      else if exact then (lCode eb neg (lam + b).toNat, 0)
      else
        let up := match rm with | .rne => n2 % 2 == 1 | .rtz => false | .rup => !neg | .rdn => neg
        (lCode eb neg (lam + b + if up then 1 else 0).toNat, fNX)

end Sys2Proof.Machine
end

