-- ==== Sys2Proof/Machine/Vector.lean ====
section
/-! DEFINITION. The operations of the VA and VB slots (spec/08, R167 to R185), with the latencies of R126. Each has
its plan and its meaning. -/
namespace Sys2Proof.Machine

/-! ### Sources and lanes (R119, R167, R168) -/

/-- The slots VA, VX and VM of a cluster (R316). -/
def slotVA (cl : Cl) : Nat := 6 + 4 * cl.toNat
def slotVX (cl : Cl) : Nat := 8 + 4 * cl.toNat
def slotVM (cl : Cl) : Nat := 9 + 4 * cl.toNat

/-- A source that is not a pop. -/
def srcLine (s : State) (cl : Cl) : VSrc → Line
  | .v r => s.here.v' cl r
  | .ldq => 0
  | .vzero => 0
  | .lane => mkLine fun i => BitVec.ofNat 32 i
  | .clid => bcast (cl.setWidth 32)
  | .s r => bcast ((s.me.s r).setWidth 32)

/-- The lines of some sources, pops taken in their order (R119). -/
def readSrcs (s : State) (cl : Cl) : List VSrc → List Cl → List Line
  | [], _ => []
  | .ldq :: t, pops =>
    (((popEntry s.here (pops ++ [cl]) pops.length).bind (·.line)).getD 0) :: readSrcs s cl t (pops ++ [cl])
  | v :: t, pops => srcLine s cl v :: readSrcs s cl t pops

/-- The registers a source reads. -/
def srcReads (x : Ctx) (cl : Cl) (lanes : BitVec 16) : VSrc → List (Dest × BitVec 16)
  | .v r => [(.v cl.toNat r.toNat, lanes)]
  | .s r => rS x r
  | _ => []

/-- The pops of some sources. -/
def srcPops (cl : Cl) (src : List VSrc) : List Cl := src.filterMap fun v => if v == .ldq then some cl else none

/-- A plan of format V, which reads its lane mask: the cluster must be the context's own (R30). -/
def vplan (h : VHead) (src : List VSrc) (lanes : BitVec 16) (chk : Check) (f : List Line → State → State)
    (s : State) : Plan :=
  { reads := rM h.cl h.msk ++ src.flatMap (srcReads s.me h.cl lanes)
    pops := srcPops h.cl src
    check := (illegalIf (!s.me.owns h.cl)).and chk
    commit := f (readSrcs s h.cl src []) }

/-- The enabled lanes (R167). -/
def laneMask (h : VHead) (s : State) : BitVec 16 := s.here.m h.cl h.msk

/-- The lanes of a result, and the OR of the flags of the enabled ones (R65, R167). -/
def laneResults (en : BitVec 16) (f : Nat → Word × Byte) : Line × Byte :=
  let rs := (List.range 16).map fun i => if en.getLsbD i then f i else (0, 0)
  (mkLine fun i => (rs.getD i (0, 0)).1, orAll (rs.map (·.2)))

/-- An operation that acts lane by lane. -/
def planLanes (h : VHead) (d : VReg) (src : List VSrc) (lat : Nat) (f : Ctx → List Word → Word × Byte) (s : State) :
    Plan :=
  let en := laneMask h s
  vplan h src en .ok (fun ls t =>
    let r := laneResults en fun i => f s.me (ls.map fun l => lane l i)
    t.result (.v h.cl.toNat d.toNat) r.1 lat en 0 r.2) s

/-- An operation whose result is a lane mask; m0 is no destination (R169). -/
def planMask (h : VHead) (d : MReg) (src : List VSrc) (lat : Nat) (f : List Word → Bool × Byte) (s : State) : Plan :=
  let en := laneMask h s
  vplan h src en (illegalIf (d == 0)) (fun ls t =>
    let r := laneResults en fun i =>
      let b := f (ls.map fun l => lane l i)
      ((BitVec.ofBool b.1).setWidth 32, b.2)
    let m : BitVec 16 := BitVec.ofNat 16 ((List.range 16).foldl (fun a i => a + (lane r.1 i).toNat * 2 ^ i) 0)
    t.result (.m h.cl.toNat d.toNat) (m.setWidth 512) lat en 0 r.2) s

/-! ### Elements (R49) -/

/-- Element j of width w of a word. -/
def elem (w : Nat) (v : Word) (j : Nat) : Nat := v.toNat / 2 ^ (w * j) % 2 ^ w
/-- The element indices of width w. -/
def elems (w : Nat) : List Nat := List.range (32 / w)
/-- A word from its elements. -/
def ofElems (w : Nat) (vs : List Nat) : Word :=
  BitVec.ofNat 32 ((elems w).foldl (fun a j => a + (vs.getD j 0 % 2 ^ w) * 2 ^ (w * j)) 0)
/-- A word with element j replaced. -/
def insElem (w : Nat) (v : Word) (j n : Nat) : Word :=
  ofElems w ((elems w).map fun i => if i = j then n else elem w v i)

/-- A function of elements applied to each. -/
def perElem (w : Nat) (f : List Nat → Nat × Byte) (ws : List Word) : Word × Byte :=
  let rs := (elems w).map fun j => f (ws.map fun v => elem w v j)
  (ofElems w (rs.map (·.1)), orAll (rs.map (·.2)))

/-- The signed value of a w-bit number. -/
def sgn (w n : Nat) : Int := if 2 ^ (w - 1) ≤ n then (n : Int) - 2 ^ w else n
/-- An integer modulo 2^w. -/
def wrapTo (w : Nat) (i : Int) : Nat := (i.emod (2 ^ w)).toNat
/-- An integer moved to the nearest end of a range. -/
def clampTo (lo hi i : Int) : Int := if i < lo then lo else if hi < i then hi else i

/-- Width of an element of a floating-point type. -/
def fWidth : FTy → Nat
  | .f32 => 32 | .f16 => 16 | .bf16 => 16
/-- Format of a floating-point type. -/
def fFmt : FTy → Fmt
  | .f32 => f32 | .f16 => f16 | .bf16 => bf16
/-- Width of an integer type. -/
def iWidth : ITy → Nat
  | .i32 => 32 | .i16 => 16 | .i8 => 8
/-- Bits of the e field of a log type. -/
def lBits : LTy → Nat
  | .l16 => 15 | .l8 => 7

/-- The k-th of some elements. -/
def nth (l : List Nat) (k : Nat) : Nat := l.getD k 0
/-- The k-th of some words. -/
def nthW (l : List Word) (k : Nat) : Word := l.getD k 0

/-! ### Floating point (R171 to R174) -/

/-- Reads an element of an arithmetic operation (R47). -/
def Fmt.arg (F : Fmt) (n : Nat) : FNum := F.read (!F.gradual) n

/-- A floating-point operation on elements. -/
def planFp (h : VHead) (t : FTy) (d : VReg) (src : List VSrc) (lat : Nat) (f : Fmt → List Nat → Nat × Byte) :
    State → Plan :=
  planLanes h d src lat fun _ ws => perElem (fWidth t) (f (fFmt t)) ws

def planFadd (h : VHead) (t : FTy) (rm : Rm) (d : VReg) (a b : VSrc) : State → Plan :=
  planFp h t d [a, b] 3 fun F e => F.add rm (F.arg (nth e 0)) (F.arg (nth e 1))
def planFsub (h : VHead) (t : FTy) (rm : Rm) (d : VReg) (a b : VSrc) : State → Plan :=
  planFp h t d [a, b] 3 fun F e => F.add rm (F.arg (nth e 0)) (F.arg (nth e 1)).neg
def planFmul (h : VHead) (t : FTy) (rm : Rm) (d : VReg) (a b : VSrc) : State → Plan :=
  planFp h t d [a, b] 5 fun F e => F.mul rm (F.arg (nth e 0)) (F.arg (nth e 1))
/-- The rounding of FMA, FMS, FNMA and DOT2: RNE without an extension word (R170). -/
def rmOr (rm : Option Rm) : Rm := rm.getD .rne
def planFma (h : VHead) (t : FTy) (rm : Option Rm) (d : VReg) (a b c : VSrc) : State → Plan :=
  planFp h t d [a, b, c] 5 fun F e => F.fma (rmOr rm) false (F.arg (nth e 0)) (F.arg (nth e 1)) (F.arg (nth e 2))
def planFms (h : VHead) (t : FTy) (rm : Option Rm) (d : VReg) (a b c : VSrc) : State → Plan :=
  planFp h t d [a, b, c] 5 fun F e => F.fma (rmOr rm) false (F.arg (nth e 0)) (F.arg (nth e 1)) (F.arg (nth e 2)).neg
def planFnma (h : VHead) (t : FTy) (rm : Option Rm) (d : VReg) (a b c : VSrc) : State → Plan :=
  planFp h t d [a, b, c] 5 fun F e => F.fma (rmOr rm) true (F.arg (nth e 0)) (F.arg (nth e 1)) (F.arg (nth e 2))
def planFmin (h : VHead) (t : FTy) (d : VReg) (a b : VSrc) : State → Plan :=
  planFp h t d [a, b] 3 fun F e => F.minMax false (nth e 0) (nth e 1)
def planFmax (h : VHead) (t : FTy) (d : VReg) (a b : VSrc) : State → Plan :=
  planFp h t d [a, b] 3 fun F e => F.minMax true (nth e 0) (nth e 1)
def planFabs (h : VHead) (t : FTy) (d : VReg) (a : VSrc) : State → Plan :=
  planFp h t d [a] 1 fun F e => F.signOp false (nth e 0)
def planFneg (h : VHead) (t : FTy) (d : VReg) (a : VSrc) : State → Plan :=
  planFp h t d [a] 1 fun F e => F.signOp true (nth e 0)

/-- FCMP: a pair's bit is set only when the condition holds for both elements (R173). -/
def planFcmp (h : VHead) (t : FTy) (cc : FCond) (d : MReg) (a b : VSrc) : State → Plan :=
  planMask h d [a, b] 3 fun ws =>
    let rs := (elems (fWidth t)).map fun j => (fFmt t).cond cc (elem (fWidth t) (nthW ws 0) j) (elem (fWidth t) (nthW ws 1) j)
    (rs.all (·.1), orAll (rs.map (·.2)))

/-- a0·b0 + a1·b1 + C, rounded once to FP32 (R174). -/
def dot2 (F : Fmt) (rm : Rm) (a b c : Word) : Nat × Byte :=
  let p := fun j => mulN (F.arg (elem 16 a j)) (F.arg (elem 16 b j))
  let s := addN rm (p 0).1 (p 1).1
  let r := addN rm s.1 (f32.read false c.toNat)
  f32.deliver rm r.1 (orAll [(p 0).2, (p 1).2, s.2, r.2])

/-- The format of a half-precision type. -/
def hFmt : HTy → Fmt
  | .f16 => f16
  | .bf16 => bf16

def planDot2 (h : VHead) (t : HTy) (rm : Option Rm) (d : VReg) (a b c : VSrc) : State → Plan :=
  planLanes h d [a, b, c] 5 fun _ ws =>
    let r := dot2 (hFmt t) (rmOr rm) (nthW ws 0) (nthW ws 1) (nthW ws 2)
    (BitVec.ofNat 32 r.1, r.2)

/-! ### Integers (R175, R176) -/

/-- An integer operation on elements, which sets no flag; f is given the width. -/
def planInt (h : VHead) (t : ITy) (d : VReg) (src : List VSrc) (lat : Nat) (f : Nat → List Nat → Nat) : State → Plan :=
  planLanes h d src lat fun _ ws => perElem (iWidth t) (fun e => (f (iWidth t) e, 0)) ws

/-- IADD and ISUB under their saturation (R175). -/
def satOp (sa : Sat) (w : Nat) (op : Int → Int → Int) (a b : Nat) : Nat :=
  match sa with
  | .wrap => wrapTo w (op a b)
  | .sat => wrapTo w (clampTo (-(2 ^ (w - 1))) (2 ^ (w - 1) - 1) (op (sgn w a) (sgn w b)))
  | .satn => wrapTo w (clampTo 0 (2 ^ w - 1) (op a b))

def planIadd (h : VHead) (t : ITy) (sa : Sat) (d : VReg) (a b : VSrc) : State → Plan :=
  planInt h t d [a, b] 1 fun w e => satOp sa w (· + ·) (nth e 0) (nth e 1)
def planIsub (h : VHead) (t : ITy) (sa : Sat) (d : VReg) (a b : VSrc) : State → Plan :=
  planInt h t d [a, b] 1 fun w e => satOp sa w (· - ·) (nth e 0) (nth e 1)
def planImul (h : VHead) (t : ITy) (d : VReg) (a b : VSrc) : State → Plan :=
  planInt h t d [a, b] 3 fun w e => nth e 0 * nth e 1 % 2 ^ w
def planImulh (h : VHead) (t : ITy) (d : VReg) (a b : VSrc) : State → Plan :=
  planInt h t d [a, b] 3 fun w e => wrapTo w (sgn w (nth e 0) * sgn w (nth e 1) / 2 ^ w)
def planImad (h : VHead) (t : ITy) (d : VReg) (a b c : VSrc) : State → Plan :=
  planInt h t d [a, b, c] 3 fun w e => (nth e 0 * nth e 1 + nth e 2) % 2 ^ w
def planImin (h : VHead) (t : ITy) (d : VReg) (a b : VSrc) : State → Plan :=
  planInt h t d [a, b] 1 fun w e => if sgn w (nth e 0) ≤ sgn w (nth e 1) then nth e 0 else nth e 1
def planImax (h : VHead) (t : ITy) (d : VReg) (a b : VSrc) : State → Plan :=
  planInt h t d [a, b] 1 fun w e => if sgn w (nth e 0) ≤ sgn w (nth e 1) then nth e 1 else nth e 0
def planIminu (h : VHead) (t : ITy) (d : VReg) (a b : VSrc) : State → Plan :=
  planInt h t d [a, b] 1 fun _ e => min (nth e 0) (nth e 1)
def planImaxu (h : VHead) (t : ITy) (d : VReg) (a b : VSrc) : State → Plan :=
  planInt h t d [a, b] 1 fun _ e => max (nth e 0) (nth e 1)
def planVand (h : VHead) (t : ITy) (d : VReg) (a b : VSrc) : State → Plan :=
  planInt h t d [a, b] 1 fun _ e => nth e 0 &&& nth e 1
def planVor (h : VHead) (t : ITy) (d : VReg) (a b : VSrc) : State → Plan :=
  planInt h t d [a, b] 1 fun _ e => nth e 0 ||| nth e 1
def planVxor (h : VHead) (t : ITy) (d : VReg) (a b : VSrc) : State → Plan :=
  planInt h t d [a, b] 1 fun _ e => nth e 0 ^^^ nth e 1
def planVandn (h : VHead) (t : ITy) (d : VReg) (a b : VSrc) : State → Plan :=
  planInt h t d [a, b] 1 fun w e => nth e 0 &&& (2 ^ w - 1 - nth e 1)
/-- Shift counts use the low log2(w) bits of the element. -/
def planVshl (h : VHead) (t : ITy) (d : VReg) (a b : VSrc) : State → Plan :=
  planInt h t d [a, b] 1 fun w e => nth e 0 * 2 ^ (nth e 1 % w) % 2 ^ w
def planVshr (h : VHead) (t : ITy) (d : VReg) (a b : VSrc) : State → Plan :=
  planInt h t d [a, b] 1 fun w e => nth e 0 / 2 ^ (nth e 1 % w)
def planVsar (h : VHead) (t : ITy) (d : VReg) (a b : VSrc) : State → Plan :=
  planInt h t d [a, b] 1 fun w e => wrapTo w (sgn w (nth e 0) / 2 ^ (nth e 1 % w))

/-- A condition on two integers (R176). -/
def icond (cc : ICond) (a b : Int) : Bool :=
  match cc with
  | .eq => a == b
  | .ne => a != b
  | .lt => decide (a < b)
  | .le => decide (a ≤ b)
  | .gt => decide (b < a)
  | .ge => decide (b ≤ a)

def planIcmp (h : VHead) (t : ITy) (cc : ICond) (d : MReg) (a b : VSrc) : State → Plan :=
  planMask h d [a, b] 1 fun ws => ((elems (iWidth t)).all fun j =>
    icond cc (sgn (iWidth t) (elem (iWidth t) (nthW ws 0) j)) (sgn (iWidth t) (elem (iWidth t) (nthW ws 1) j)), 0)
def planIcmpu (h : VHead) (t : ITy) (cc : ICond) (d : MReg) (a b : VSrc) : State → Plan :=
  planMask h d [a, b] 1 fun ws => ((elems (iWidth t)).all fun j =>
    icond cc (elem (iWidth t) (nthW ws 0) j) (elem (iWidth t) (nthW ws 1) j), 0)

/-! ### Log-domain operations (R177) -/

/-- An operation on log codes, under LROUND. -/
def planLog (h : VHead) (t : LTy) (d : VReg) (src : List VSrc) (f : Nat → Rm → List LNum → Nat × Byte) : State → Plan :=
  planLanes h d src 2 fun x ws =>
    perElem (lBits t + 1) (fun e => f (lBits t) (lroundOf x.fmts) (e.map (readL (lBits t)))) ws

/-- A code with its log field, wherever it lies: beyond the range it is delivered by R56. -/
def codeAt (eb : Nat) (rm : Rm) (neg : Bool) (e : Int) : Nat × Byte :=
  if e < 1 then lBelow eb rm neg false
  else if 2 ^ eb ≤ e then lAbove eb neg
  else (lCode eb neg e.toNat, 0)

/-- LMUL of two codes. -/
def lmul2 (eb : Nat) (rm : Rm) (a b : LNum) : Nat × Byte :=
  match a, b with
  | .nan, _ => (2 ^ eb, fNV)
  | _, .nan => (2 ^ eb, fNV)
  | .zero, _ => (0, 0)
  | _, .zero => (0, 0)
  | .log s l, .log t m => codeAt eb rm (s != t) (l + m + lBias eb)

/-- LRCP of a code. -/
def lrcp1 (eb : Nat) (a : LNum) : Nat × Byte :=
  match a with
  | .nan => (2 ^ eb, fNV)
  | .zero => (2 ^ eb - 1, fDZ ||| fLSAT)
  | .log s l => (lCode eb s (lBias eb - l).toNat, 0)

/-- LSQRT of a code: an odd λ lies halfway between two codes. -/
def lsqrt1 (eb : Nat) (rm : Rm) (a : LNum) : Nat × Byte :=
  match a with
  | .nan => (2 ^ eb, fNV)
  | .zero => (0, 0)
  | .log s l =>
    let e := (l / 2 + lBias eb).toNat
    if s then (2 ^ eb, fNV)
    else if l % 2 = 0 then (e, 0)
    else
      let up := match rm with | .rne => e % 2 == 1 | .rup => true | .rtz | .rdn => false
      (if up then e + 1 else e, fNX)

def planLmul (h : VHead) (t : LTy) (d : VReg) (a b : VSrc) : State → Plan :=
  planLog h t d [a, b] fun eb rm e => lmul2 eb rm (e.getD 0 .zero) (e.getD 1 .zero)
def planLrcp (h : VHead) (t : LTy) (d : VReg) (a : VSrc) : State → Plan :=
  planLog h t d [a] fun eb _ e => lrcp1 eb (e.getD 0 .zero)
def planLsqrt (h : VHead) (t : LTy) (d : VReg) (a : VSrc) : State → Plan :=
  planLog h t d [a] fun eb rm e => lsqrt1 eb rm (e.getD 0 .zero)

/-! ### Moves, permutes and reductions (R178 to R180) -/

def planMov (h : VHead) (d : VReg) (a : VSrc) : State → Plan := planLanes h d [a] 1 fun _ ws => (nthW ws 0, 0)
def planVmovi (h : VHead) (d : VReg) (imm : BitVec 9) : State → Plan :=
  planLanes h d [] 1 fun _ _ => (imm.signExtend 32, 0)

/-- A result given line by line. -/
def planLine (h : VHead) (d : VReg) (src : List VSrc) (lat : Nat) (lanes : BitVec 16) (f : List Line → Nat → Word)
    (s : State) : Plan :=
  let en := laneMask h s
  vplan h src lanes .ok (fun ls t => t.result (.v h.cl.toNat d.toNat) (mkLine (f ls)) lat en) s

/-- The k-th of some lines. -/
def nthL (l : List Line) (k : Nat) : Line := l.getD k 0

def planVsel (h : VHead) (d : VReg) (a b : VSrc) (k : MReg) (s : State) : Plan :=
  (planLine h d [a, b] 1 (laneMask h s) (fun ls i =>
    if (s.here.m h.cl k).getLsbD i then lane (nthL ls 0) i else lane (nthL ls 1) i) s).reading (rM h.cl k)

/-- SHUF reads all 16 lanes of va whatever the mask (R179), and the enabled lanes of vb. -/
def planShuf (h : VHead) (d : VReg) (a b : VSrc) (s : State) : Plan :=
  let p := planLine h d [a, b] 2 (laneMask h s) (fun ls i => lane (nthL ls 0) ((lane (nthL ls 1) i).toNat % 16)) s
  { p with reads := rM h.cl h.msk ++ srcReads s.me h.cl 0xFFFF a ++ srcReads s.me h.cl (laneMask h s) b }
def planRot (h : VHead) (d : VReg) (a : VSrc) (k : BitVec 4) : State → Plan :=
  planLine h d [a] 2 0xFFFF fun ls i => lane (nthL ls 0) ((i + k.toNat) % 16)

/-- One level of the fixed tree over present and absent values (R61, R180). -/
def treeLevel {α : Type} (op : α → α → α) : List (Option α) → List (Option α)
  | some a :: some b :: t => some (op a b) :: treeLevel op t
  | some a :: none :: t => some a :: treeLevel op t
  | none :: b :: t => b :: treeLevel op t
  | l => l
/-- The root of a tree over 16 leaves. -/
def treeRoot {α : Type} (op : α → α → α) (l : List (Option α)) : Option α :=
  ((treeLevel op (treeLevel op (treeLevel op (treeLevel op l)))).head?).join

/-- HADD and HMAX: the mask selects the lanes that contribute; every lane is written (R180). DEDUCED (log 46): R180
passes the operand of a node with one operand present unchanged; a lane that reaches the root so and holds a NaN gives
the canonical NaN, and a signalling NaN of an enabled lane sets invalid (R46). -/
def planReduce (h : VHead) (d : VReg) (a : VSrc) (op : Word → Word → Word × Byte) (none : Word) (s : State) : Plan :=
  let en := laneMask h s
  vplan h [a] en .ok (fun ls t =>
    let leaf := (List.range 16).map fun i =>
      if en.getLsbD i then
        let w := lane (nthL ls 0) i
        some (w, sigFlag (f32.read false w.toNat))
      else Option.none
    let r := (treeRoot (fun (p q : Word × Byte) => let r := op p.1 q.1; (r.1, r.2 ||| p.2 ||| q.2)) leaf).getD (none, 0)
    let root := if (f32.read false r.1.toNat).isNan then BitVec.ofNat 32 f32.qnan else r.1
    t.result (.v h.cl.toNat d.toNat) (bcast root) 6 0xFFFF 0 r.2) s

def planHadd (h : VHead) (d : VReg) (a : VSrc) : State → Plan := planReduce h d a add32 0
def planHmax (h : VHead) (d : VReg) (a : VSrc) : State → Plan :=
  planReduce h d a (fun x y => let r := f32.minMax true x.toNat y.toNat; (BitVec.ofNat 32 r.1, r.2)) 0xFF800000

/-! ### Conversions (R182, R183) -/

/-- A conversion of va's lane, vb's lane being the one an insert form copies. -/
def convert (fmts : Byte) (op : CvtOp) (a b : Word) : Word × Byte :=
  let H := halfFmt (fmts.getLsbD 7)
  let lr := lroundOf fmts
  let x := f32.read false a.toNat
  let w := fun (r : Nat × Byte) => (BitVec.ofNat 32 r.1, r.2)
  let i := fun (r : Int × Byte) => (BitVec.ofInt 32 r.1, r.2)
  let ins := fun (width j : Nat) (r : Nat × Byte) => (insElem width b j r.1, r.2)
  match op with
  | .f32i32 rm => i (toInt rm (-(2 ^ 31)) (2 ^ 31 - 1) x)
  | .f32n32 rm => i (toInt rm 0 (2 ^ 32 - 1) x)
  | .i32f32 rm => w (ofInt32 rm a.toInt)
  | .n32f32 rm => w (ofInt32 rm a.toNat)
  | .f32h j rm => ins 16 j.toNat (H.roundTo rm x (sigFlag x))
  | .hf32 j => let y := H.read false (elem 16 a j.toNat); w (f32.deliver .rne y (sigFlag y))
  | .f32l16 j => ins 16 j.toNat (linToLog 15 lr x)
  | .l16f32 j => w (logTo32 128 (readL 15 (elem 16 a j.toNat)))
  | .f32l8 j => ins 8 j.toNat (linToLog 7 lr x)
  | .l8f32 j => w (logTo32 8 (readL 7 (elem 8 a j.toNat)))
  | .lb4f32 j => w (logTo32 8 (readLB4 a j.toNat))
  | .i16i32 j => i (sgn 16 (elem 16 a j.toNat), 0)
  | .n16i32 j => w (elem 16 a j.toNat, 0)
  | .i8i32 j => i (sgn 8 (elem 8 a j.toNat), 0)
  | .n8i32 j => w (elem 8 a j.toNat, 0)
  | .i32i16 j => ins 16 j.toNat (wrapTo 16 (clampTo (-(2 ^ 15)) (2 ^ 15 - 1) a.toInt), 0)
  | .i32i8 j => ins 8 j.toNat (wrapTo 8 (clampTo (-(2 ^ 7)) (2 ^ 7 - 1) a.toInt), 0)

/-- Whether a conversion reads vb (the insert forms). -/
def cvtInserts : CvtOp → Bool
  | .f32h _ _ | .f32l16 _ | .f32l8 _ | .i32i16 _ | .i32i8 _ => true
  | _ => false

def planCvt (h : VHead) (op : CvtOp) (d : VReg) (a b : VSrc) : State → Plan :=
  planLanes h d (if cvtInserts op then [a, b] else [a]) 3 fun x ws => convert x.fmts op (nthW ws 0) (nthW ws 1)

/-! ### LB4 records (R184, R185) -/

/-- GridRound: the element code of sign s and log field μ in eighths, and its flags. -/
def gridRound (rm : Rm) (s : Bool) (mu : Int) : Nat × Byte :=
  let pt := fun (e : Nat) => (if s then 8 else 0) + e
  if 12 < mu then (pt 7, fLSAT ||| fNX)
  else if mu < -12 then
    let small := match rm with | .rne => decide (-14 ≤ mu) | .rtz => false | .rup => !s | .rdn => s
    if small then (pt 1, fNX) else (0, fNX ||| fLUNF)
  else
    let e := (mu / 4 + 4).toNat
    let r := mu % 4
    if r = 0 then (pt e, 0)
    else
      let up := match rm with
        | .rne => decide (2 < r) || (r == 2 && e % 2 == 1)
        | .rtz => false
        | .rup => !s
        | .rdn => s
      (pt (if up then e + 1 else e), fNX)

/-- The state of packing a record: X, whether it is free, the codes so far, the flags. -/
structure Pack where
  x : Nat
  xfree : Bool
  code : Nat
  fl : Byte
  deriving DecidableEq, Repr

/-- Packs element j of a quad under scale S (R184). -/
def packElem (rm : Rm) (S : Nat) (q : Word) (p : Pack) (j : Nat) : Pack :=
  let b := elem 8 q j
  let put := fun (c : Nat) (f : Byte) => { p with code := p.code + c * 2 ^ (4 * j), fl := p.fl ||| f }
  if b = 0x80 then put 8 fNV
  else if b % 128 = 0 then put 0 0
  else
    let mu : Int := ((b % 128 : Nat) - 64 : Int) - 8 * ((S : Int) - 127)
    if mu % 4 = 0 ∧ -12 ≤ mu ∧ mu ≤ 12 then put (b / 128 * 8 + (mu / 4 + 4).toNat) 0
    else if p.xfree ∧ 1 ≤ mu + 64 ∧ mu + 64 ≤ 127 then
      { put 8 0 with x := b / 128 * 128 + (mu + 64).toNat, xfree := false }
    else
      let r := gridRound rm (b / 128 == 1) mu
      put r.1 r.2

/-- BPACK of one lane. -/
def bpack (rm : Rm) (q sc : Word) : Word × Byte :=
  let S := (sc.extractLsb' 24 8).toNat
  if S = 255 then (0xFF000000, 0)
  else
    let nar := (elems 8).any fun j => elem 8 q j == 0x80
    let p := (elems 8).foldl (packElem rm S q) ⟨if nar then 0x80 else 0, !nar, 0, 0⟩
    (BitVec.ofNat 32 (S * 2 ^ 24 + p.x * 2 ^ 16 + p.code), p.fl)

/-- BUNPACK of one element. -/
def bunpackElem (rm : Rm) (rec : Word) (j : Nat) : Nat × Byte :=
  match readLB4 rec j with
  | .nan => (0x80, fNV)
  | .zero => (0, 0)
  | .log s l => codeAt 7 rm s (l + 64)

def planBpack (h : VHead) (d : VReg) (a b : VSrc) : State → Plan :=
  planLanes h d [a, b] 4 fun x ws => bpack (lroundOf x.fmts) (nthW ws 0) (nthW ws 1)
def planBunpack (h : VHead) (d : VReg) (a : VSrc) : State → Plan :=
  planLanes h d [a] 4 fun x ws =>
    let rs := (elems 8).map (bunpackElem (lroundOf x.fmts) (nthW ws 0))
    (ofElems 8 (rs.map (·.1)), orAll (rs.map (·.2)))

/-! ### Lane masks (R181) -/

/-- A mask operation. -/
def planMaskOp (h : VHead) (d : MReg) (reads : List (Dest × BitVec 16)) (v : BitVec 16) (s : State) : Plan :=
  { reads := rM h.cl h.msk ++ reads
    check := (illegalIf (!s.me.owns h.cl)).and (illegalIf (d == 0))
    commit := fun t => t.result (.m h.cl.toNat d.toNat) (v.setWidth 512) 1 (laneMask h s) }

def planMand (h : VHead) (d a b : MReg) (s : State) : Plan :=
  planMaskOp h d (rM h.cl a ++ rM h.cl b) (s.here.m h.cl a &&& s.here.m h.cl b) s
def planMor (h : VHead) (d a b : MReg) (s : State) : Plan :=
  planMaskOp h d (rM h.cl a ++ rM h.cl b) (s.here.m h.cl a ||| s.here.m h.cl b) s
def planMxor (h : VHead) (d a b : MReg) (s : State) : Plan :=
  planMaskOp h d (rM h.cl a ++ rM h.cl b) (s.here.m h.cl a ^^^ s.here.m h.cl b) s
def planMnot (h : VHead) (d a : MReg) (s : State) : Plan := planMaskOp h d (rM h.cl a) (~~~(s.here.m h.cl a)) s
def planMset (h : VHead) (d : MReg) (n : BitVec 5) (s : State) : Plan :=
  let p := planMaskOp h d [] (BitVec.ofNat 16 (2 ^ n.toNat - 1)) s
  { p with check := p.check.and (illegalIf (16 < n.toNat)) }
def planMsetScalar (h : VHead) (d : MReg) (r : SReg) (s : State) : Plan :=
  planMaskOp h d (rS s.me r) ((s.me.s r).setWidth 16) s

/-! ### The meanings -/

def execFadd (h : VHead) (t : FTy) (rm : Rm) (d : VReg) (a b : VSrc) (s : State) : Out :=
  runPlan (slotVA h.cl) (planFadd h t rm d a b s) s
def execFsub (h : VHead) (t : FTy) (rm : Rm) (d : VReg) (a b : VSrc) (s : State) : Out :=
  runPlan (slotVA h.cl) (planFsub h t rm d a b s) s
def execFmul (h : VHead) (t : FTy) (rm : Rm) (d : VReg) (a b : VSrc) (s : State) : Out :=
  runPlan (slotVA h.cl) (planFmul h t rm d a b s) s
def execFma (h : VHead) (t : FTy) (rm : Option Rm) (d : VReg) (a b c : VSrc) (s : State) : Out :=
  runPlan (slotVA h.cl) (planFma h t rm d a b c s) s
def execFms (h : VHead) (t : FTy) (rm : Option Rm) (d : VReg) (a b c : VSrc) (s : State) : Out :=
  runPlan (slotVA h.cl) (planFms h t rm d a b c s) s
def execFnma (h : VHead) (t : FTy) (rm : Option Rm) (d : VReg) (a b c : VSrc) (s : State) : Out :=
  runPlan (slotVA h.cl) (planFnma h t rm d a b c s) s
def execFmin (h : VHead) (t : FTy) (d : VReg) (a b : VSrc) (s : State) : Out :=
  runPlan (slotVA h.cl) (planFmin h t d a b s) s
def execFmax (h : VHead) (t : FTy) (d : VReg) (a b : VSrc) (s : State) : Out :=
  runPlan (slotVA h.cl) (planFmax h t d a b s) s
def execFabs (h : VHead) (t : FTy) (d : VReg) (a : VSrc) (s : State) : Out :=
  runPlan (slotVA h.cl) (planFabs h t d a s) s
def execFneg (h : VHead) (t : FTy) (d : VReg) (a : VSrc) (s : State) : Out :=
  runPlan (slotVA h.cl) (planFneg h t d a s) s
def execFcmp (h : VHead) (t : FTy) (cc : FCond) (d : MReg) (a b : VSrc) (s : State) : Out :=
  runPlan (slotVA h.cl) (planFcmp h t cc d a b s) s
def execDot2 (h : VHead) (t : HTy) (rm : Option Rm) (d : VReg) (a b c : VSrc) (s : State) : Out :=
  runPlan (slotVA h.cl) (planDot2 h t rm d a b c s) s
def execIadd (h : VHead) (t : ITy) (sa : Sat) (d : VReg) (a b : VSrc) (s : State) : Out :=
  runPlan (slotVA h.cl) (planIadd h t sa d a b s) s
def execIsub (h : VHead) (t : ITy) (sa : Sat) (d : VReg) (a b : VSrc) (s : State) : Out :=
  runPlan (slotVA h.cl) (planIsub h t sa d a b s) s
def execImul (h : VHead) (t : ITy) (d : VReg) (a b : VSrc) (s : State) : Out :=
  runPlan (slotVA h.cl) (planImul h t d a b s) s
def execImulh (h : VHead) (t : ITy) (d : VReg) (a b : VSrc) (s : State) : Out :=
  runPlan (slotVA h.cl) (planImulh h t d a b s) s
def execImad (h : VHead) (t : ITy) (d : VReg) (a b c : VSrc) (s : State) : Out :=
  runPlan (slotVA h.cl) (planImad h t d a b c s) s
def execImin (h : VHead) (t : ITy) (d : VReg) (a b : VSrc) (s : State) : Out :=
  runPlan (slotVA h.cl) (planImin h t d a b s) s
def execImax (h : VHead) (t : ITy) (d : VReg) (a b : VSrc) (s : State) : Out :=
  runPlan (slotVA h.cl) (planImax h t d a b s) s
def execIminu (h : VHead) (t : ITy) (d : VReg) (a b : VSrc) (s : State) : Out :=
  runPlan (slotVA h.cl) (planIminu h t d a b s) s
def execImaxu (h : VHead) (t : ITy) (d : VReg) (a b : VSrc) (s : State) : Out :=
  runPlan (slotVA h.cl) (planImaxu h t d a b s) s
def execVand (h : VHead) (t : ITy) (d : VReg) (a b : VSrc) (s : State) : Out :=
  runPlan (slotVA h.cl) (planVand h t d a b s) s
def execVor (h : VHead) (t : ITy) (d : VReg) (a b : VSrc) (s : State) : Out :=
  runPlan (slotVA h.cl) (planVor h t d a b s) s
def execVxor (h : VHead) (t : ITy) (d : VReg) (a b : VSrc) (s : State) : Out :=
  runPlan (slotVA h.cl) (planVxor h t d a b s) s
def execVandn (h : VHead) (t : ITy) (d : VReg) (a b : VSrc) (s : State) : Out :=
  runPlan (slotVA h.cl) (planVandn h t d a b s) s
def execVshl (h : VHead) (t : ITy) (d : VReg) (a b : VSrc) (s : State) : Out :=
  runPlan (slotVA h.cl) (planVshl h t d a b s) s
def execVshr (h : VHead) (t : ITy) (d : VReg) (a b : VSrc) (s : State) : Out :=
  runPlan (slotVA h.cl) (planVshr h t d a b s) s
def execVsar (h : VHead) (t : ITy) (d : VReg) (a b : VSrc) (s : State) : Out :=
  runPlan (slotVA h.cl) (planVsar h t d a b s) s
def execIcmp (h : VHead) (t : ITy) (cc : ICond) (d : MReg) (a b : VSrc) (s : State) : Out :=
  runPlan (slotVA h.cl) (planIcmp h t cc d a b s) s
def execIcmpu (h : VHead) (t : ITy) (cc : ICond) (d : MReg) (a b : VSrc) (s : State) : Out :=
  runPlan (slotVA h.cl) (planIcmpu h t cc d a b s) s
def execLmul (h : VHead) (t : LTy) (d : VReg) (a b : VSrc) (s : State) : Out :=
  runPlan (slotVA h.cl) (planLmul h t d a b s) s
def execLrcp (h : VHead) (t : LTy) (d : VReg) (a : VSrc) (s : State) : Out :=
  runPlan (slotVA h.cl) (planLrcp h t d a s) s
def execLsqrt (h : VHead) (t : LTy) (d : VReg) (a : VSrc) (s : State) : Out :=
  runPlan (slotVA h.cl) (planLsqrt h t d a s) s
def execMov (h : VHead) (d : VReg) (a : VSrc) (s : State) : Out :=
  runPlan (slotVA h.cl) (planMov h d a s) s
def execVmovi (h : VHead) (d : VReg) (imm : BitVec 9) (s : State) : Out :=
  runPlan (slotVA h.cl) (planVmovi h d imm s) s
def execVsel (h : VHead) (d : VReg) (a b : VSrc) (k : MReg) (s : State) : Out :=
  runPlan (slotVA h.cl) (planVsel h d a b k s) s
def execShuf (h : VHead) (d : VReg) (a b : VSrc) (s : State) : Out :=
  runPlan (slotVA h.cl) (planShuf h d a b s) s
def execRot (h : VHead) (d : VReg) (a : VSrc) (k : BitVec 4) (s : State) : Out :=
  runPlan (slotVA h.cl) (planRot h d a k s) s
def execHadd (h : VHead) (d : VReg) (a : VSrc) (s : State) : Out :=
  runPlan (slotVA h.cl) (planHadd h d a s) s
def execHmax (h : VHead) (d : VReg) (a : VSrc) (s : State) : Out :=
  runPlan (slotVA h.cl) (planHmax h d a s) s
def execCvt (h : VHead) (op : CvtOp) (d : VReg) (a b : VSrc) (s : State) : Out :=
  runPlan (slotVA h.cl) (planCvt h op d a b s) s
def execBpack (h : VHead) (d : VReg) (a b : VSrc) (s : State) : Out :=
  runPlan (slotVA h.cl) (planBpack h d a b s) s
def execBunpack (h : VHead) (d : VReg) (a : VSrc) (s : State) : Out :=
  runPlan (slotVA h.cl) (planBunpack h d a s) s
def execMand (h : VHead) (d a b : MReg) (s : State) : Out :=
  runPlan (slotVA h.cl) (planMand h d a b s) s
def execMor (h : VHead) (d a b : MReg) (s : State) : Out :=
  runPlan (slotVA h.cl) (planMor h d a b s) s
def execMxor (h : VHead) (d a b : MReg) (s : State) : Out :=
  runPlan (slotVA h.cl) (planMxor h d a b s) s
def execMnot (h : VHead) (d a : MReg) (s : State) : Out :=
  runPlan (slotVA h.cl) (planMnot h d a s) s
def execMset (h : VHead) (d : MReg) (n : BitVec 5) (s : State) : Out :=
  runPlan (slotVA h.cl) (planMset h d n s) s
def execMsetScalar (h : VHead) (d : MReg) (r : SReg) (s : State) : Out :=
  runPlan (slotVA h.cl) (planMsetScalar h d r s) s

end Sys2Proof.Machine
end

