-- ==== Sys2Proof/Machine/Beat.lean ====
section
/-! DEFINITION. The arithmetic of one matrix beat (spec/03, R57 to R63) and of ACCRD's conversions (R207). -/
namespace Sys2Proof.Machine

/-- Whether an MMA may use the pair of formats codes (R58). -/
def pairOk (a b : Nat) : Bool := (a < 2 && b < 2) || (a == 2 && b == 2)
/-- Steps per octave of a pair (R58). -/
def pairSteps (a : Nat) : Nat := if a = 2 then 128 else 8
/-- A rows per beat (R201). -/
def rowsPerBeat (a b : Nat) : Nat := if a = 1 ∧ b = 1 then 2 else 1
/-- Output columns (R201). -/
def outCols (a : Nat) : Nat := if a = 2 then 128 else 256
/-- Bytes of an A row, or of a latch column (R193, R194). -/
def kBytes (f : Nat) : Nat := if f = 2 then 512 else 256

/-- Element k of a run of bytes in a matrix format: an A row, or a column of a latch image (R193, R194). -/
def kElem (f : Nat) (byte : Nat → Byte) (k : Nat) : LNum :=
  match f with
  | 0 => readL 7 (byte k).toNat
  | 1 => readLB4 (BitVec.ofNat 32 (leNat ((List.range 4).map fun i => byte (4 * (k / 4) + i)))) (k % 4)
  | _ => readL 15 ((byte (2 * k)).toNat + 256 * (byte (2 * k + 1)).toNat)

/-- One product (R59): its kind, and for a finite one its sign, I and T[F]. -/
inductive Prod
  | nan
  | zero
  | inf (neg : Bool)
  | num (neg : Bool) (i : Int) (t : Nat)
  deriving DecidableEq, Repr

/-- The product of two elements (R59). -/
def product (q : Nat) (a b : LNum) : Prod × Byte :=
  match a, b with
  | .nan, _ => (.nan, fNV)
  | _, .nan => (.nan, fNV)
  | .zero, _ => (.zero, 0)
  | _, .zero => (.zero, 0)
  | .log s l, .log t m =>
    let i := (l + m) / q
    if 128 ≤ i then (.inf (s != t), fLOVF) else (.num (s != t) i (logTab q ((l + m) % q).toNat), 0)

/-- The largest I of some products. -/
def emax (ps : List Prod) : Option Int :=
  ps.foldl (fun m p => match p, m with
    | .num _ i _, some e => some (max e i)
    | .num _ i _, none => some i
    | _, _ => m) none

/-- Truncate(prod, 2^(Emax − 47)), in units of 2^(Emax − 47), and whether it discarded a bit (R60). -/
def truncProd (e : Int) : Prod → Int × Bool
  | .num neg i t =>
    let d := (e - i).toNat
    let v := if d ≤ 24 then t * 2 ^ (24 - d) else t / 2 ^ (d - 24)
    let lost := 24 < d && t % 2 ^ (d - 24) != 0
    (if neg then -(v : Int) else v, lost)
  | _ => (0, false)

/-- The partial of one group of products (R60). -/
def groupPart (ps : List Prod) : Word × Byte :=
  let has := fun (p : Prod) => ps.contains p
  if has .nan then (BitVec.ofNat 32 f32.qnan, 0)
  else if has (.inf false) && has (.inf true) then (BitVec.ofNat 32 f32.qnan, fNV)
  else if has (.inf false) then (BitVec.ofNat 32 (f32.inf false), 0)
  else if has (.inf true) then (BitVec.ofNat 32 (f32.inf true), 0)
  else
    match emax ps with
    | none => (0, 0)
    | some e =>
      let ts := ps.map (truncProd e)
      let nx := flagIf (ts.any (·.2)) fNX
      let v : Int := ts.foldl (fun a t => a + t.1) 0
      if v = 0 then (0, nx)
      else
        let r := f32.round .rne (decide (v < 0)) v.natAbs (e - 47)
        (BitVec.ofNat 32 r.1, r.2 ||| nx)

/-- The value t of a beat for one column, from its 256 pairs (R59 to R61). -/
def beatValue (q : Nat) (a b : Nat → LNum) : Word × Byte :=
  let part := fun (g : Nat) =>
    let ps := (List.range 16).map fun i => product q (a (16 * g + i)) (b (16 * g + i))
    let r := groupPart (ps.map (·.1))
    (r.1, orAll (r.2 :: ps.map (·.2)))
  let leaf := (List.range 16).map fun g => some (part g)
  (treeRoot (fun (p r : Word × Byte) => let s := add32 p.1 r.1; (s.1, s.2 ||| p.2 ||| r.2)) leaf).getD (0, 0)

/-- The word written: overwrite or add (R62). -/
def accumulate (add : Bool) (old t : Word) : Word × Byte := if add then add32 old t else (t, 0)

/-- The bytes of an element of ACCRD's target (R207). -/
def tgtBytes : AccTgt → Nat
  | .f32 => 4 | .half => 2 | .l16 => 2 | .l8 => 1 | .i32 => 4

/-- ACCRD's conversion of a word under an FMTS value (R207). -/
def accConv (fmts : Byte) (t : AccTgt) (w : Word) : Nat × Byte :=
  let x := f32.read false w.toNat
  match t with
  | .f32 => (w.toNat, 0)
  | .half => (halfFmt (fmts.getLsbD 7)).roundTo .rne x (sigFlag x)
  | .l16 => linToLog 15 (lroundOf fmts) x
  | .l8 => linToLog 7 (lroundOf fmts) x
  | .i32 => let r := toInt .rne (-(2 ^ 31)) (2 ^ 31 - 1) x; (wrapTo 32 r.1, r.2)

end Sys2Proof.Machine
end

