-- ==== Sys2Proof/Machine/Special.lean ====
section
/-! DEFINITION. The operations of the VX and VM slots (spec/08, R186 to R191), with the latencies of R127. -/
namespace Sys2Proof.Machine

/-! ### Special functions (R186) -/

/-- A special function of FP32 lanes. -/
def planSpecial (h : VHead) (d : VReg) (src : List VSrc) (lat : Nat) (f : List FNum → Nat × Byte) : State → Plan :=
  planLanes h d src lat fun _ ws =>
    let r := f (ws.map fun w => f32.read false w.toNat)
    (BitVec.ofNat 32 r.1, r.2)

/-- The k-th of some numbers. -/
def nthF (l : List FNum) (k : Nat) : FNum := l.getD k (.num false 0 0)

def planRcp (h : VHead) (rm : Rm) (d : VReg) (a : VSrc) : State → Plan :=
  planSpecial h d [a] 14 fun e => rcpF rm (nthF e 0)
def planRsq (h : VHead) (rm : Rm) (d : VReg) (a : VSrc) : State → Plan :=
  planSpecial h d [a] 14 fun e => rsqF rm (nthF e 0)
def planSqrt (h : VHead) (rm : Rm) (d : VReg) (a : VSrc) : State → Plan :=
  planSpecial h d [a] 14 fun e => sqrtF rm (nthF e 0)
def planDivF (h : VHead) (rm : Rm) (d : VReg) (a b : VSrc) : State → Plan :=
  planSpecial h d [a, b] 14 fun e => divF rm (nthF e 0) (nthF e 1)
def planExp2 (h : VHead) (rm : Rm) (d : VReg) (a : VSrc) : State → Plan :=
  planSpecial h d [a] 10 fun e => exp2F rm (nthF e 0)
def planLog2 (h : VHead) (rm : Rm) (d : VReg) (a : VSrc) : State → Plan :=
  planSpecial h d [a] 10 fun e => log2F rm (nthF e 0)

/-! ### Between clusters (R187) -/

/-- A register of another cluster of the context, which must own it. DEDUCED (log 49): that the named cluster is the
context's is an issue check of the operation (R122, R187). -/
def planCross (h : VHead) (d a : VReg) (n : Cl) (lat : Nat) (lanes : BitVec 16) (f : Line → Nat → Word) (s : State) :
    Plan :=
  let en := laneMask h s
  let src := s.here.v' n a
  { reads := rM h.cl h.msk ++ [(.v n.toNat a.toNat, lanes)]
    check := (illegalIf (!s.me.owns h.cl)).and (illegalIf (!s.me.owns n || 320 ≤ a.toNat))
    commit := fun t => t.result (.v h.cl.toNat d.toNat) (mkLine (f src)) lat en }

def planXmov (h : VHead) (d a : VReg) (n : Cl) (s : State) : Plan := planCross h d a n 1 (laneMask h s) lane s
/-- The source lane is read once (R187). -/
def planXbc (h : VHead) (d a : VReg) (n : Cl) (l : BitVec 4) (s : State) : Plan :=
  planCross h d a n 2 (if laneMask h s = 0 then 0 else 1#16 <<< l.toNat) (fun v _ => lane v l.toNat) s

/-! ### Scratchpad accesses (R188, R189) -/

/-- The enabled lanes of a mask. -/
def laneList (en : BitVec 16) : List Nat := (List.range 16).filter fun i => en.getLsbD i

/-- The first address of a list that is not a multiple of n takes 0x11 (R189). -/
def alignCheck (as : List Int) (n : Int) : Check :=
  match as.find? fun a => a % n != 0 with
  | some a => .fault { code := 0x11, va := BitVec.ofInt 48 a }
  | none => .ok

/-- The bound check of one lane's four bytes (R67). -/
def laneBound (x : Ctx) (a : Int) : Check :=
  if a < 0 then .fault { code := 0x09, va := BitVec.ofInt 48 a } else boundCheck x a.toNat 4

/-- The bound checks of some lanes, in lane order. -/
def lanesBound (x : Ctx) (as : List Int) : Check := as.foldl (fun c a => c.and (laneBound x a)) .ok

/-- Lines in order of first mention (R69). -/
def lineOrder (as : List Int) (wr : Bool) : List LAcc :=
  ((as.foldl (fun (l : List Nat) a => let n := a.toNat / 64; if l.contains n then l else l ++ [n]) [])).map fun n => { line := n, wr := wr }

/-- A word at a local address. -/
def State.spmWord (s : State) (a : Int) : Word := rdWord s.mem (spmPa s.cur.1.toNat a.toNat)

/-- The lanes whose word at a local address is poisoned. -/
def spmPoison (s : State) (en : BitVec 16) (at_ : Nat → Int) : BitVec 16 :=
  if s.poison.isEmpty then 0 else
    BitVec.ofNat 16 (((laneList en).filter fun i => s.poisoned (spmPa s.cur.1.toNat (at_ i).toNat) 4).foldl
      (fun m i => m + 2 ^ i) 0)

/-- The unsigned base scalar of R188. -/
def vmBase (x : Ctx) (k : SReg) : Int := ((x.s k).setWidth 32).toNat

/-- What the forms of scratchpad access share: the registers read, the address checked for alignment first, its
alignment, and the address of each lane. -/
structure VmForm where
  reads : List (Dest × BitVec 16)
  base : List Int
  align : Int
  at_ : Nat → Int

/-- base + 64·off + 4i. -/
def formPlain (x : Ctx) (en : BitVec 16) (k : SReg) (off : BitVec 9) : VmForm :=
  let b := vmBase x k + 64 * off.toInt
  { reads := rS x k, base := if en = 0 then [] else [b], align := 64, at_ := fun i => b + 4 * (i : Int) }
/-- base + 4·off + i·stride. -/
def formStride (x : Ctx) (en : BitVec 16) (k j : SReg) (off : BitVec 9) : VmForm :=
  let at_ := fun (i : Nat) => vmBase x k + 4 * off.toInt + (i : Int) * ((x.s j).setWidth 32 : Word).toInt
  { reads := rS x k ++ rS x j, base := (laneList en).map at_, align := 4, at_ := at_ }
/-- base + 4·off + V[c][b][i]. -/
def formIndex (s : State) (h : VHead) (en : BitVec 16) (k : SReg) (r : VReg) (off : BitVec 9) : VmForm :=
  let at_ := fun (i : Nat) => vmBase s.me k + 4 * off.toInt + ((lane (s.here.v' h.cl r) i).toNat : Int)
  { reads := rS s.me k ++ [(.v h.cl.toNat r.toNat, en)], base := (laneList en).map at_, align := 4, at_ := at_ }

/-- The checks of a scratchpad access (R188, R189): ownership, an index register that is none, alignment, bounds. -/
def vmCheck (s : State) (h : VHead) (bad : Bool) (en : BitVec 16) (f : VmForm) : Check :=
  ((illegalIf (!s.me.owns h.cl)).and (illegalIf bad)).and
    ((alignCheck f.base f.align).and (lanesBound s.me ((laneList en).map f.at_)))

/-- A vector load: captured at issue, landing within 6 cycles, scoreboarded in compatibility mode (R189, R191). -/
def planVload (h : VHead) (d : VReg) (bad : Bool) (f : VmForm) (s : State) : Plan :=
  let en := laneMask h s
  let as := (laneList en).map f.at_
  let val := mkLine fun i => if en.getLsbD i then s.spmWord (f.at_ i) else 0
  let poi := spmPoison s en f.at_
  { reads := rM h.cl h.msk ++ f.reads
    check := vmCheck s h bad en f
    touch := as.map fun a => (a.toNat, 4)
    lacc := lineOrder as false
    commit := fun t =>
      if s.me.seg.compat then
        let t1 := t.fresh.2.awaitSb t.nextId (.v h.cl.toNat d.toNat en) (some (t.here.cycle + 6))
        t1.modMe fun y => y.arrive t.nextId val poi 0
      else t.result (.v h.cl.toNat d.toNat) val 6 en poi }

/-- A vector store: its lanes' bytes in lane order. -/
def planVstore (h : VHead) (d : VReg) (bad : Bool) (f : VmForm) (s : State) : Plan :=
  let en := laneMask h s
  let as := (laneList en).map f.at_
  let v := s.here.v' h.cl d
  { reads := rM h.cl h.msk ++ (.v h.cl.toNat d.toNat, en) :: f.reads
    check := vmCheck s h bad en f
    touch := as.map fun a => (a.toNat, 4)
    lacc := lineOrder as true
    stores := (laneList en).flatMap fun i =>
      (List.range 4).map fun b => ((f.at_ i).toNat + b, (lane v i).extractLsb' (8 * b) 8) }

def planVld (h : VHead) (d : VReg) (k : SReg) (off : BitVec 9) (s : State) : Plan :=
  planVload h d false (formPlain s.me (laneMask h s) k off) s
def planVst (h : VHead) (d : VReg) (k : SReg) (off : BitVec 9) (s : State) : Plan :=
  planVstore h d false (formPlain s.me (laneMask h s) k off) s
def planVlds (h : VHead) (d : VReg) (k j : SReg) (off : BitVec 9) (s : State) : Plan :=
  planVload h d false (formStride s.me (laneMask h s) k j off) s
def planVsts (h : VHead) (d : VReg) (k j : SReg) (off : BitVec 9) (s : State) : Plan :=
  planVstore h d false (formStride s.me (laneMask h s) k j off) s
def planVldx (h : VHead) (d : VReg) (k : SReg) (x : VReg) (off : BitVec 9) (s : State) : Plan :=
  planVload h d (320 ≤ x.toNat) (formIndex s h (laneMask h s) k x off) s
def planVstx (h : VHead) (d : VReg) (k : SReg) (x : VReg) (off : BitVec 9) (s : State) : Plan :=
  planVstore h d (320 ≤ x.toNat) (formIndex s h (laneMask h s) k x off) s

/-! ### Accumulator-store accesses (R190) -/

/-- The accumulator byte of R188. -/
def accY (x : Ctx) (k : SReg) (off : BitVec 9) : Int := vmBase x k + 64 * off.toInt

/-- The checks of R190, made only when a lane is enabled; DETAIL [4] says that it writes (R317). -/
def accCheck (s : State) (h : VHead) (en : BitVec 16) (y : Int) (wr : Bool) : Check :=
  (illegalIf (!s.me.owns h.cl)).and
    (if en = 0 then .ok
     else (alignCheck [y] 64).and
       (if y < 0 ∨ 0x00200000 < y + 64 then .fault { code := 0x08, va := BitVec.ofInt 48 y, detail := if wr then 0x10 else 0 }
       else .ok))

/-- The words of some lanes at an address of the accumulator store, each read indivisibly (R77, R98, R106). -/
def State.seeAcc (s : State) (pa : Nat) (en : BitVec 16) : Line × State :=
  let q := s.access .loc 1
  if s.sure q pa 64 then (mkLine fun i => if en.getLsbD i then rdWord s.mem (pa + 4 * i) else 0, s)
  else (laneList en).foldl (fun r i =>
    let d := r.2.see q (pa + 4 * i) 4
    (r.1 ||| (BitVec.ofNat 512 (leNat d.1) <<< (32 * i)), d.2)) (0, s)

/-- VLDA reads at issue, in slot order with the bundle's VSTAs (R77). -/
def planVlda (h : VHead) (d : VReg) (k : SReg) (off : BitVec 9) (s : State) : Plan :=
  let en := laneMask h s
  let y := accY s.me k off
  { reads := rM h.cl h.msk ++ rS s.me k
    check := accCheck s h en y false
    commit := fun t =>
      let pa := accPa t.cur.1.toNat y.toNat
      let poi := if t.poison.isEmpty then 0 else
        BitVec.ofNat 16 (((laneList en).filter fun i => t.poisoned (pa + 4 * i) 4).foldl (fun m i => m + 2 ^ i) 0)
      let r := t.seeAcc pa en
      r.2.result (.v h.cl.toNat d.toNat) r.1 8 en poi }

/-- VSTA writes at issue; each lane's word indivisibly. -/
def planVsta (h : VHead) (d : VReg) (k : SReg) (off : BitVec 9) (s : State) : Plan :=
  let en := laneMask h s
  let y := accY s.me k off
  let v := s.here.v' h.cl d
  { reads := rM h.cl h.msk ++ (.v h.cl.toNat d.toNat, en) :: rS s.me k
    check := accCheck s h en y true
    commit := fun t => (laneList en).foldl
      (fun u i => u.writeBy (u.access .loc 1) (accPa u.cur.1.toNat (y.toNat + 4 * i)) (leBytes 4 (lane v i).toNat)) t }

/-! ### The meanings -/

def execRcp (h : VHead) (rm : Rm) (d : VReg) (a : VSrc) (s : State) : Out :=
  runPlan (slotVX h.cl) (planRcp h rm d a s) s
def execRsq (h : VHead) (rm : Rm) (d : VReg) (a : VSrc) (s : State) : Out :=
  runPlan (slotVX h.cl) (planRsq h rm d a s) s
def execSqrt (h : VHead) (rm : Rm) (d : VReg) (a : VSrc) (s : State) : Out :=
  runPlan (slotVX h.cl) (planSqrt h rm d a s) s
def execDiv (h : VHead) (rm : Rm) (d : VReg) (a b : VSrc) (s : State) : Out :=
  runPlan (slotVX h.cl) (planDivF h rm d a b s) s
def execExp2 (h : VHead) (rm : Rm) (d : VReg) (a : VSrc) (s : State) : Out :=
  runPlan (slotVX h.cl) (planExp2 h rm d a s) s
def execLog2 (h : VHead) (rm : Rm) (d : VReg) (a : VSrc) (s : State) : Out :=
  runPlan (slotVX h.cl) (planLog2 h rm d a s) s
def execXmov (h : VHead) (d a : VReg) (n : Cl) (s : State) : Out :=
  runPlan (slotVX h.cl) (planXmov h d a n s) s
def execXbc (h : VHead) (d a : VReg) (n : Cl) (l : BitVec 4) (s : State) : Out :=
  runPlan (slotVX h.cl) (planXbc h d a n l s) s
def execVld (h : VHead) (d : VReg) (k : SReg) (off : BitVec 9) (s : State) : Out :=
  runPlan (slotVM h.cl) (planVld h d k off s) s
def execVst (h : VHead) (d : VReg) (k : SReg) (off : BitVec 9) (s : State) : Out :=
  runPlan (slotVM h.cl) (planVst h d k off s) s
def execVlds (h : VHead) (d : VReg) (k j : SReg) (off : BitVec 9) (s : State) : Out :=
  runPlan (slotVM h.cl) (planVlds h d k j off s) s
def execVsts (h : VHead) (d : VReg) (k j : SReg) (off : BitVec 9) (s : State) : Out :=
  runPlan (slotVM h.cl) (planVsts h d k j off s) s
def execVldx (h : VHead) (d : VReg) (k : SReg) (x : VReg) (off : BitVec 9) (s : State) : Out :=
  runPlan (slotVM h.cl) (planVldx h d k x off s) s
def execVstx (h : VHead) (d : VReg) (k : SReg) (x : VReg) (off : BitVec 9) (s : State) : Out :=
  runPlan (slotVM h.cl) (planVstx h d k x off s) s
def execVlda (h : VHead) (d : VReg) (k : SReg) (off : BitVec 9) (s : State) : Out :=
  runPlan (slotVM h.cl) (planVlda h d k off s) s
def execVsta (h : VHead) (d : VReg) (k : SReg) (off : BitVec 9) (s : State) : Out :=
  runPlan (slotVM h.cl) (planVsta h d k off s) s

end Sys2Proof.Machine
end

