-- ==== Sys2Proof/Machine/Matrix.lean ====
section
/-! DEFINITION. The matrix engine (spec/09, R192 to R208): the operations of the MX map and the events of the array,
the gather unit and the loader. A beat reads its lines in the engine phases of one cycle or more (R197), puts its
accumulator access into the array's pipeline, and the core's cycle eight cycles later performs it (R198). -/
namespace Sys2Proof.Machine

/-- The MX slot (R316). -/
def slotMX : Nat := 3

/-! ### Reservations (R195, R196) -/

/-- Whether two reservations hold a common part, or one latch that one of them writes. -/
def MxRes.conflicts (a b : MxRes) : Bool :=
  (a.array && b.array) || (a.gather && b.gather) || (a.loader && b.loader) ||
    (match a.latch, b.latch with
     | some (l, wa), some (m, wb) => l == m && (wa || wb)
     | _, _ => false)

/-- A matrix command's issue: its illegal conditions, the schedule fault of its own run's reservations, then the
remaining checks; another run's reservation holds the bundle (R165, R196). -/
def planMx (g : Guard) (s : State) (f : Ctx → List (Dest × BitVec 16) × Check × (Nat → MxRes) × Check × MxKind ×
    FlagRef × BitVec 4) : Plan :=
  gplan g s fun x =>
    let r := f x
    let now := s.here.cycle
    let res := r.2.2.1 now
    let held := s.here.res.filter fun q => now ≤ q.last && q.conflicts res
    let own := held.any fun q => q.ctx == s.cur.2 && q.runId == x.runId
    let ill := r.2.1
    { reads := r.1
      held := !held.isEmpty && !own
      check := (ill.and (faultIf own 0x03 0)).and r.2.2.2.1
      commit := fun t =>
        let cmd : MxCmd :=
          ⟨t.nextId, t.cur.2, x.runId, x.launch, r.2.2.2.2.1, x.fmts,
            if r.2.2.2.2.2.1.v then some r.2.2.2.2.2.1.f else none, r.2.2.2.2.2.2, now, x.pos, x.xfence, x.xafter,
            x.splo.toNat, x.sphi.toNat, false, 0, 0, [], 0, [], [], false⟩
        t.fresh.2.modHere fun y =>
          { y with
            mx := y.mx ++ [cmd]
            res := (y.res.filter fun q => now < q.last) ++ [res] } }

/-- A reservation of n beats from the cycle after now on. -/
def mxRes (s : State) (x : Ctx) (array gather loader : Bool) (latch : Option (LReg × Bool)) (n now : Nat) : MxRes :=
  ⟨s.cur.2, x.runId, array, gather, loader, latch, now + n⟩

/-- The bound check of n bytes at an exact address (R67). -/
def spanBound (x : Ctx) (n : Nat) (a : Int) : Check :=
  if a < 0 then .fault { code := 0x09, va := BitVec.ofInt 48 a } else boundCheck x a.toNat n

/-- The bound checks of some runs of n bytes, in order. -/
def spansBound (x : Ctx) (n : Nat) (as : List Int) : Check := as.foldl (fun c a => c.and (spanBound x n a)) .ok

/-! ### MMA and MMAG (R200 to R203) -/

/-- AFMT, BFMT of an FMTS value (R154). -/
def aFmt (fmts : Byte) : Nat := (fmts.extractLsb' 0 2).toNat
def bFmt (fmts : Byte) : Nat := (fmts.extractLsb' 2 2).toNat

/-- Whether a command adds (R201). -/
def mmaAdds (m : AccMode) (fmts : Byte) : Bool :=
  match m with
  | .dflt => fmts.getLsbD 4
  | .ovw => false
  | .add => true

/-- The illegal conditions of R202, item 1, apart from the pair-stride condition. -/
def mmaIllegal (x : Ctx) (m : MmaArgs) : Bool :=
  let a := aFmt x.fmts
  let b := bFmt x.fmts
  !pairOk a b || (m.colh && a != 2) || 2048 < m.row.toNat + rowsPerBeat a b * (m.nb.toNat + 1)

/-- The pair-stride condition of R202: the two rows of a beat would lie in one bank. -/
def badStride (x : Ctx) (stride : Int) : Bool :=
  rowsPerBeat (aFmt x.fmts) (bFmt x.fmts) == 2 && [0, 1, 2, 3, 29, 30, 31].contains ((stride / 64) % 32)

/-- A scalar's low word, unsigned and signed. -/
def lowU (x : Ctx) (r : SReg) : Nat := ((x.s r).setWidth 32).toNat
def lowS (x : Ctx) (r : SReg) : Int := ((x.s r).setWidth 32 : Word).toInt

def planMma (g : Guard) (a b : SReg) (m : MmaArgs) (s : State) : Plan :=
  planMx g s fun x =>
    let base := lowU x a
    let st := lowS x b
    let n := rowsPerBeat (aFmt x.fmts) (bFmt x.fmts) * (m.nb.toNat + 1)
    (rS x a ++ rS x b, illegalIf (mmaIllegal x m || badStride x st),
      mxRes s x true false false (some (m.latch, false)) (m.nb.toNat + 1),
      (alignCheck [(base : Int), base + st] 64).and
        (spansBound x (kBytes (aFmt x.fmts)) ((List.range n).map fun i => (base : Int) + i * st)),
      .mma base st n (m.nb.toNat + 1) m.latch (mmaAdds m.mode x.fmts) m.colh m.row.toNat
        (if m.cons.v then some m.cons.f else none), m.done, m.cls)

def planMmag (g : Guard) (base b list : SReg) (m : MmaArgs) (s : State) : Plan :=
  planMx g s fun x =>
    let bs := lowU x base
    let st := lowS x b
    let ls := lowU x list
    let n := rowsPerBeat (aFmt x.fmts) (bFmt x.fmts) * (m.nb.toNat + 1)
    (rS x base ++ rS x b ++ rS x list, illegalIf (mmaIllegal x m),
      mxRes s x true true false (some (m.latch, false)) (m.nb.toNat + 2),
      (alignCheck [(bs : Int), bs + st, ls] 64).and (spanBound x (2 * n) ls),
      .mmag bs st ls n (m.nb.toNat + 1) m.latch (mmaAdds m.mode x.fmts) m.colh m.row.toNat
        (if m.cons.v then some m.cons.f else none), m.done, m.cls)

/-! ### LATCH and LATCHT (R204) -/

/-- A latch load. -/
def planLoad (g : Guard) (a b : SReg) (l : LReg) (done : FlagRef) (cls : BitVec 4) (w : Option LWidth) (s : State) :
    Plan :=
  planMx g s fun x =>
    let base := (x.s a).toNat
    let st := lowS x b
    (rS x a ++ rS x b, .ok, mxRes s x false false true (some (l, true)) 64,
      (alignCheck [(base : Int), base + st] 64).and
        (spansBound x 256 ((List.range 256).map fun c => (base : Int) + c * st)),
      .latch base st l w, done, cls)

def planLatch (g : Guard) (a b : SReg) (l : LReg) (done : FlagRef) (cls : BitVec 4) (s : State) : Plan :=
  planLoad g a b l done cls none s
def planLatcht (g : Guard) (a b : SReg) (l : LReg) (done : FlagRef) (cls : BitVec 4) (w : LWidth) (s : State) : Plan :=
  planLoad g a b l done cls (some w) s

/-! ### ACCZ, ACCWR and ACCRD (R205) -/

/-- Rows beyond the store take 0x08 (R205); DETAIL [4] says that they are written (R317). -/
def rowCheck (x : Ctx) (r : RowArgs) (wr : Bool) : Check :=
  faultIf (2048 < (x.s r.row).toNat + r.n.toNat + 1) 0x08 0 (if wr then 0x10 else 0)

def planAccz (g : Guard) (r : RowArgs) (s : State) : Plan :=
  planMx g s fun x =>
    (rS x r.row, .ok, mxRes s x true false false none (r.n.toNat + 1), rowCheck x r true,
      .accz (x.s r.row).toNat (r.n.toNat + 1), r.done, r.cls)
def planAccwr (g : Guard) (a : SReg) (r : RowArgs) (add : Bool) (s : State) : Plan :=
  planMx g s fun x =>
    let n := r.n.toNat + 1
    let ad := (x.s a).toNat
    (rS x r.row ++ rS x a, .ok, mxRes s x true false false none n,
      ((rowCheck x r true).and (alignCheck [(ad : Int)] 64)).and (spanBound x (1024 * n) ad),
      .accwr ad (x.s r.row).toNat n add, r.done, r.cls)
def planAccrd (g : Guard) (a : SReg) (r : RowArgs) (tgt : AccTgt) (s : State) : Plan :=
  planMx g s fun x =>
    let n := r.n.toNat + 1
    let ad := (x.s a).toNat
    (rS x r.row ++ rS x a, .ok, mxRes s x true false true none (n + 9),
      ((rowCheck x r false).and (alignCheck [(ad : Int)] 64)).and (spanBound x (256 * tgtBytes tgt * n) ad),
      .accrd ad (x.s r.row).toNat n tgt, r.done, r.cls)

/-! ### Starting (R197) -/

/-- Whether it uses the array, and whether it uses the loader. -/
def MxKind.onArray : MxKind → Bool
  | .latch _ _ _ _ => false
  | _ => true
def MxKind.onLoader : MxKind → Bool
  | .latch _ _ _ _ | .accrd _ _ _ _ => true
  | _ => false
/-- The latch it uses, and whether it writes it. -/
def MxKind.latchUse : MxKind → Option (LReg × Bool)
  | .mma _ _ _ _ l _ _ _ _ => some (l, false)
  | .mmag _ _ _ _ _ l _ _ _ _ => some (l, false)
  | .latch _ _ l _ => some (l, true)
  | _ => none
/-- The A-consumed flag it raises. -/
def MxKind.cons : MxKind → Option FReg
  | .mma _ _ _ _ _ _ _ _ c => c
  | .mmag _ _ _ _ _ _ _ _ _ c => c
  | _ => none

/-- A command's accesses. Local stores of its context are ordered before those of an MMA, an MMAG or a latch load in
program order (R104), before those of a row command only by an XFENCE (R206). -/
def MxCmd.who (c : MxCmd) (k : CoreId) : Who :=
  { path := .eng 16 c.id, core := k, ctx := c.ctx, launch := c.launch, cls := clsBit c.cls, xfence := c.xfence
    pos := match c.kind with | .mma .. | .mmag .. | .latch .. => c.pos | _ => 0 }

/-- Whether a command has ended its work in its parts (R197): all its beats are done and, of an ACCRD, which holds the loader
for it (R195), its last row has landed. -/
def MxCmd.partDone (c : MxCmd) (now : Nat) : Bool :=
  c.beaten && match c.kind with | .accrd .. => decide (c.next ≤ now) | _ => true

/-- Whether an earlier command keeps a later one from starting (R197). DEDUCED (log 52): a LATCH beats beside an earlier
MMA that has neither its loader nor its latch (R196), and what R101 asks of their order is kept by their flags. -/
def MxCmd.blocks (e c : MxCmd) (now : Nat) : Bool :=
  !e.partDone now && ((e.kind.onArray && c.kind.onArray) || (e.kind.onLoader && c.kind.onLoader) ||
    (match e.kind.latchUse, c.kind.latchUse with
     | some (l, wl), some (m, wm) => l == m && (wl || wm)
     | _, _ => false))

/-- The first command of a core that can start in its cycle `now`. -/
def startable (s : State) (now : Nat) : List MxCmd → List MxCmd → Option MxCmd
  | _, [] => none
  | pre, c :: t =>
    if !c.started && !(pre.any fun e => e.blocks c now) && s.performed c.after then some c
    else startable s now (pre ++ [c]) t

/-- Changes the matrix command of a number. -/
def State.modMx (s : State) (k : CoreId) (id : Nat) (f : MxCmd → MxCmd) : State :=
  s.modCore k fun x => { x with mx := lmodFirst (fun c => c.id == id) f x.mx }
/-- Removes it. -/
def State.delMx (s : State) (k : CoreId) (id : Nat) : State :=
  s.modCore k fun x => { x with mx := ldelFirst (fun c => c.id == id) x.mx }

/-- MATRIX_COMMAND_START: the first beat is in the next cycle. -/
def matrixStart (k : CoreId) (s : State) : Option State :=
  (startable s (s.core k).cycle [] (s.core k).mx).map fun cmd =>
    (s.unitBegins (cmd.who k)).modMx k cmd.id fun c => { c with started := true, next := (s.core k).cycle + 1 }

/-! ### Beats -/

/-- Serves the lines of a beat that the present engine phase can: those left over, and the state (R19, R197). -/
def State.beatServe (s : State) (k : CoreId) (lns : List Nat) : List Nat × State :=
  lns.foldl (fun r ln =>
    if (r.2.core k).beatFree (r.2.edge k) ln then (r.1, r.2.modCore k fun y => y.beatTake (r.2.edge k) ln) else (r.1 ++ [ln], r.2)) ([], s)

/-- One cycle of a beat over some lines: a line whose bank is taken waits for the next cycle, and the beat is done with
its last line (R197). -/
def State.beatCycle (s : State) (k : CoreId) (cmd : MxCmd) (lns : List Nat) (go : State → State) : State :=
  let r := s.beatServe k (if cmd.left.isEmpty then lns.eraseDups else cmd.left)
  if r.1.isEmpty then go r.2
  else r.2.modMx k cmd.id fun c => { c with left := r.1, next := (s.core k).cycle + 1 }

/-- A beat is done; after the last one the completion follows by `tail` cycles (R197, R198). Every beat of the engine is
counted (R348). -/
def State.beatDone (s : State) (k : CoreId) (cmd : MxCmd) (tail : Nat) : State :=
  let now := (s.core k).cycle
  let b := cmd.beat + 1
  (s.modMx k cmd.id fun _ => { cmd with beat := b, left := [], next := if cmd.kind.beats ≤ b then now + tail else now + 1 }).count
    (16 * k.toNat + 3) 1

/-- A command that reads poisoned data, or gathers a row out of bounds, stops before the beat: earlier writes stand and
no done or consumed flag is set (R203, R323); the arithmetic flags of its beats reach its context (R63). -/
def State.beatFault (s : State) (k : CoreId) (cmd : MxCmd) (f : FaultInfo) : State :=
  ((s.delMx k cmd.id).engFlags k cmd.ctx cmd.runId cmd.flags).engineFault k cmd.ctx cmd.runId cmd.launch f

/-- The poisoned line among some scratchpad lines. -/
def State.poisonLine (s : State) (k : CoreId) (lns : List Nat) : Option Nat :=
  lns.find? fun ln => s.poisoned (spmPa k.toNat (64 * ln)) 64

/-- Poison read by an engine (R323). -/
def poisonFault (va : Nat) : FaultInfo := { code := 0x0D, eng := true, detail := 3, va := BitVec.ofNat 48 va }

/-- Accumulator accesses enter the pipeline in the last cycle of a beat (R197, R198), each with the flags that the beat has
raised for it. -/
def State.pipe (s : State) (k : CoreId) (cmd : MxCmd) (acts : List (AccAct × Byte)) : State :=
  s.modCore k fun x =>
    { x with accPipe := x.accPipe ++ acts.map fun a => ⟨x.cycle + 8, cmd.id, cmd.runId, cmd.who k, a.1, a.2⟩ }

/-- Whether a word of a latch holds poison (R322). -/
def Core.latchBad (y : Core) (l : LReg) : Bool := y.latchPoison.any fun w => w / 8192 == l.toNat

/-- One row of a beat: every column's value (R201). Answers the access and the flags. -/
def State.mmaRow (s : State) (k : CoreId) (fmts : Byte) (latch : LReg) (add colh : Bool) (row : Nat)
    (byte : Nat → Byte) : AccAct × Byte :=
  let a := aFmt fmts
  let b := bFmt fmts
  let img := (s.core k).latches
  let av := fun (i : Nat) => kElem a byte i
  let ts := (List.range (outCols a)).map fun n =>
    beatValue (pairSteps a) av fun i => kElem b (fun y => rd img (65536 * latch.toNat + kBytes b * n + y)) i
  (.put row (if colh then 128 else 0) add (ts.map (·.1)), orAll (ts.map (·.2)))

/-- A beat over the rows that start at some addresses, the first going to accumulator row `row`. -/
def State.mmaBeat (s : State) (k : CoreId) (cmd : MxCmd) (latch : LReg) (add colh : Bool) (row : Nat)
    (rows : List Nat) : State :=
  let len := kBytes (aFmt cmd.fmts)
  let lns := rows.flatMap fun x => linesOf x len
  s.beatCycle k cmd lns fun s =>
    match s.poisonLine k lns, (s.core k).latchBad latch with
    | some ln, _ => s.beatFault k cmd (poisonFault (64 * ln))
    | none, true => s.beatFault k cmd (poisonFault 0)
    | none, false =>
      let r := s.mxLines k (cmd.who k) lns cmd
      let ws := ((List.range rows.length).zip rows).map fun ix =>
        s.mmaRow k cmd.fmts latch add colh (row + ix.1) fun y => lineByte r.1 (ix.2 + y)
      (r.2.2.pipe k cmd ws).beatDone k r.2.1 8

/-- The local addresses of the rows, or of the loader's chunks, that a command's next beat reads. -/
def MxCmd.rows (c : MxCmd) : List Int :=
  let rho := rowsPerBeat (aFmt c.fmts) (bFmt c.fmts)
  let idx := fun (n : Nat) => (List.range n).map fun j => n * c.beat + j
  match c.kind with
  | .mma base st .. => (idx rho).map fun i => (base : Int) + i * st
  | .mmag base st .. => (idx rho).map fun i => (base : Int) + (c.list.getD i 0 : Nat) * st
  | .latch base st .. => (idx 4).map fun i => (base : Int) + i * st
  | _ => []

/-- The scratchpad lines a command's next beat reads. -/
def MxCmd.lines (c : MxCmd) : List Nat :=
  match c.kind with
  | .mma .. => c.rows.flatMap fun x => linesOf x.toNat (kBytes (aFmt c.fmts))
  | .mmag _ _ list n .. =>
    if c.list.isEmpty then linesOf list (2 * n) else c.rows.flatMap fun x => linesOf x.toNat (kBytes (aFmt c.fmts))
  | .latch .. => c.rows.flatMap fun x => linesOf x.toNat 256
  | .accwr addr .. => linesOf (addr + 1024 * c.beat) 1024
  | _ => []

/-- The bounds a gathered row is checked against: the context's own when its address is computed, those at issue once the
run has ended (R203). -/
def MxCmd.bounds (c : MxCmd) (s : State) (k : CoreId) : Ctx :=
  let x := s.ctx k c.ctx
  if x.inRun c.runId then x else { splo := BitVec.ofNat 64 c.splo, sphi := BitVec.ofNat 64 c.sphi }

/-- The bound check of the rows that a command's next beat gathers (R203). -/
def MxCmd.gather (c : MxCmd) (s : State) (k : CoreId) : Check :=
  match c.kind with
  | .mmag .. => if c.list.isEmpty then .ok else spansBound (c.bounds s k) (kBytes (aFmt c.fmts)) c.rows
  | _ => .ok

/-- Whether a command's next beat reads a 64-bit word of the accumulator store: it adds, or reads rows out. -/
def MxCmd.accReads (c : MxCmd) (w : Nat) : Bool :=
  let r := w / 128
  let n := rowsPerBeat (aFmt c.fmts) (bFmt c.fmts)
  match c.kind with
  | .mma _ _ _ _ _ add _ row _ | .mmag _ _ _ _ _ _ add _ row _ => add && row + n * c.beat ≤ r && r < row + n * (c.beat + 1)
  | .accwr _ row _ add => add && r == row + c.beat
  | .accrd _ row _ _ => r == row + c.beat
  | _ => false

/-- The latch a command's next beat reads, all of it. -/
def MxCmd.readsLatch (c : MxCmd) : Option LReg :=
  match c.kind with
  | .mma _ _ _ _ l .. => some l
  | .mmag _ _ _ _ _ l .. => if c.list.isEmpty then none else some l
  | _ => none

/-- What a command's beat meets (R322, R323): a rebuilt line delays the beat by a cycle; an uncorrectable error that it
reads ends the command before the beat, and is logged as consumed (R324). None where no such error can be. -/
def State.beatMeets (s : State) (k : CoreId) (cmd : MxCmd) (err : BeatErr) (go : State → Option State) : Option State :=
  let lns := match cmd.gather s k with | .ok => cmd.lines | _ => []
  match err with
  | .clean => go s
  | .corrected ln => if lns.contains ln then go (s.logCorrected .spm false k (64 * ln)) else none
  | .correctedLatch => if cmd.readsLatch.isSome then go (s.logCorrected .latch false k 0) else none
  | .rebuilt ln =>
    if lns.contains ln && s.rebuildable k.toNat ln then
      some ((s.logCorrected .spm true k (64 * ln)).modMx k cmd.id fun c => { c with next := (s.core k).cycle + 1 })
    else none
  | .badSpm w => if lns.contains (w / 8) then go (s.spoil .spm k (spmPa k.toNat (8 * w)) (8 * w) true) else none
  | .badAcc w =>
    if w < 0x40000 then go (s.spoil .acc k (accPa k.toNat (8 * w)) (8 * w) (cmd.accReads w)) else none
  | .badLatch w =>
    cmd.readsLatch.bind fun l =>
      if 8192 ≤ w then none
      else
        let i := 8192 * l.toNat + w
        if (s.core k).latchPoison.contains i then go s
        else go ((s.logError .latch true k 0).modCore k fun y => { y with latchPoison := sinsert i y.latchPoison })

/-- The beat of an MMA or MMAG. The gather unit first reads its index list, and then checks each row it gathers
(R203). -/
def State.arrayBeat (s : State) (k : CoreId) (cmd : MxCmd) : Option State :=
  let rho := rowsPerBeat (aFmt cmd.fmts) (bFmt cmd.fmts)
  match cmd.kind with
  | .mma _ _ _ _ l add colh row _ =>
    some (s.mmaBeat k cmd l add colh (row + rho * cmd.beat) (cmd.rows.map Int.toNat))
  | .mmag _ _ list n _ l add colh row _ =>
    if cmd.list.isEmpty then
      let lns := linesOf list (2 * n)
      some (s.beatCycle k cmd lns fun s =>
        match s.poisonLine k lns with
        | some ln => s.beatFault k cmd (poisonFault (64 * ln))
        | none =>
          let r := s.mxLines k (cmd.who k) lns cmd
          let ix := (List.range n).map fun i =>
            (lineByte r.1 (list + 2 * i)).toNat + 256 * (lineByte r.1 (list + 2 * i + 1)).toNat
          r.2.2.modMx k cmd.id fun _ => { r.2.1 with list := ix, left := [], next := (s.core k).cycle + 1 })
    else
      match cmd.gather s k with
      | .fault f => some (s.beatFault k cmd { f with eng := true, slot := BitVec.ofNat 8 slotMX })
      | _ => some (s.mmaBeat k cmd l add colh (row + rho * cmd.beat) (cmd.rows.map Int.toNat))
  | _ => none

/-- Whether a command is due for its next beat. -/
def MxCmd.due (c : MxCmd) (now : Nat) : Bool := c.started && !c.beaten && c.next ≤ now

/-- MATRIX_BEAT: the beat of the MMA or MMAG that is due. -/
def matrixBeat (k : CoreId) (err : BeatErr) (s : State) : Option State :=
  ((s.core k).mx.find? fun c => c.due (s.core k).cycle && (match c.kind with
    | .mma .. | .mmag .. => true
    | _ => false)).bind fun cmd => s.beatMeets k cmd err fun t => t.arrayBeat k cmd

/-- The place in the image of byte y of the source (R204). -/
def latchPlace (w : Option LWidth) (y : Nat) : Nat :=
  match w with
  | none => y
  | some .w1 => (y % 256) * 256 + y / 256
  | some .w2 => (y / 2 % 128) * 512 + 2 * (y / 256) + y % 2
  | some .w4 => (y / 4 % 256) * 256 + 4 * (y / 1024) + y % 4

/-- A beat of the loader: four chunks into the latch (R204); a word whose bytes the beat writes, and every word once the image
is complete, holds no poison (R322). -/
def State.chunkBeat (s : State) (k : CoreId) (cmd : MxCmd) : Option State :=
  match cmd.kind with
  | .latch base st l w =>
    let at_ := fun (c : Nat) => ((base : Int) + c * st).toNat
    let cs := (List.range 4).map fun j => 4 * cmd.beat + j
    let lns := cmd.lines
    some (s.beatCycle k cmd lns fun s =>
      match s.poisonLine k lns with
      | some ln => s.beatFault k cmd (poisonFault (64 * ln))
      | none =>
        let r := s.mxLines k (cmd.who k) lns cmd
        let img := cs.foldl (fun m c => (List.range 256).foldl (fun m i =>
          wr m (65536 * l.toNat + latchPlace w (256 * c + i)) (lineByte r.1 (at_ c + i))) m) (s.core k).latches
        let ps := cs.flatMap fun c => (List.range 256).map fun i => latchPlace w (256 * c + i)
        (r.2.2.modCore k fun x => { x with
          latches := img
          latchPoison := x.latchPoison.filter fun i =>
            !(i / 8192 == l.toNat && (cmd.beat == 63 || (List.range 8).all fun b => ps.contains (8 * (i % 8192) + b))) }).beatDone
          k r.2.1 0)
  | _ => none

/-- LOADER_BEAT: the loader's beat that is due, after the array's beat of the cycle (R197). -/
def loaderBeat (k : CoreId) (err : BeatErr) (s : State) : Option State :=
  let x := s.core k
  if x.mx.any fun c => c.due x.cycle && c.kind.onArray then none
  else
    (x.mx.find? fun c => c.due x.cycle && !c.kind.onArray).bind fun cmd =>
      s.beatMeets k cmd err fun t => t.chunkBeat k cmd

/-- Some lines of a row land one after another (R208). -/
def State.landRow (s : State) (w : Who) (k : CoreId) (rec : Bool) : Nat → List Byte → Nat → State × Bool
  | _, _, 0 => (s, rec)
  | a, bs, n + 1 =>
    let r := s.landSpm w k a (bs.take 64) rec (unit := 1)
    r.1.landRow w k r.2.2 (a + 64) (bs.drop 64) n

/-- One row of ACCZ, ACCWR or ACCRD (R206, R207). -/
def State.rowBeat (s : State) (k : CoreId) (cmd : MxCmd) : Option State :=
  let i := cmd.beat
  match cmd.kind with
  | .accz row _ =>
    some ((s.pipe k cmd [(.put (row + i) 0 false (List.replicate 256 0), 0)]).beatDone k cmd 8)
  | .accwr addr row _ add =>
    let a := addr + 1024 * i
    let lns := cmd.lines
    some (s.beatCycle k cmd lns fun s =>
      match s.poisonLine k lns with
      | some ln => s.beatFault k cmd (poisonFault (64 * ln))
      | none =>
        let r := s.seeLanes (cmd.who k) 4 (spmPa k.toNat a) 1024
        let ws : List Word := (List.range 256).map fun c => BitVec.ofNat 32 (leNat ((r.1.drop (4 * c)).take 4))
        (r.2.pipe k cmd [(.put (row + i) 0 add ws, 0)]).beatDone k cmd 8)
  | .accrd addr row _ tgt =>
    let rb := 256 * tgtBytes tgt
    some ((s.pipe k cmd [(.get (row + i) (addr + rb * i) cmd.fmts tgt, 0)]).beatDone k cmd 9)
  | _ => none

/-- ACC_ROW_BEAT: the row of an accumulator command that is due. -/
def accRowBeat (k : CoreId) (err : BeatErr) (s : State) : Option State :=
  ((s.core k).mx.find? fun c => c.due (s.core k).cycle && (match c.kind with
    | .accz .. | .accwr .. | .accrd .. => true
    | _ => false)).bind fun cmd => s.beatMeets k cmd err fun t => t.rowBeat k cmd

/-! ### The end of the pipeline (R77, R198) -/

/-- Whether an access is a scratchpad write. -/
def AccOp.lands (o : AccOp) : Bool := match o.act with | .land _ _ => true | _ => false

/-- The flags of an access's arithmetic: kept for its command's completion, or given to its context once the command has
ended (R63, R66). -/
def State.accFlags (s : State) (k : CoreId) (o : AccOp) (f : Byte) : State :=
  if (s.core k).mx.any fun c => c.id == o.cmd then s.modMx k o.cmd fun c => { c with flags := c.flags ||| f }
  else s.engFlags k o.who.ctx o.runId f

/-- The first accumulator row that an access, or another of its beat, reads with poison in it (R323). -/
def State.accPoison (s : State) (k : CoreId) (o : AccOp) : Option Nat :=
  (o :: (s.core k).accPipe.filter fun p => p.cmd == o.cmd && p.due == o.due).findSome? fun p =>
    match p.act with
    | .put row col add ws => if add && s.poisoned (accWordPa k.toNat row col) (4 * ws.length) then some row else none
    | .get row _ _ _ => if s.poisoned (accWordPa k.toNat row 0) 1024 then some row else none
    | .land _ _ => none

/-- An access of a beat that meets poison: its command ends there, with its accesses not yet performed; earlier writes
stand (R323). -/
def State.accFault (s : State) (k : CoreId) (o : AccOp) (row : Nat) : State :=
  let s1 := s.modCore k fun y => { y with accPipe := y.accPipe.filter fun p => p.cmd != o.cmd || p.lands }
  match (s.core k).mx.find? fun c => c.id == o.cmd with
  | some cmd => s1.beatFault k cmd (poisonFault (row * 1024))
  | none => s1

/-- One access is performed (R62, R206 to R208); what ACCRD writes goes to the scratchpad one cycle later. -/
def State.accAccess (s : State) (k : CoreId) (o : AccOp) : State :=
  match s.accPoison k o with
  | some row => s.accFault k o row
  | none =>
    match o.act with
    | .put row col add ws =>
      let pa := accWordPa k.toNat row col
      let rs := ((List.range ws.length).zip ws).map fun iw => accumulate add (rdWord s.mem (pa + 4 * iw.1)) iw.2
      (s.writeBy o.who pa (rs.flatMap fun w => leBytes 4 w.1.toNat) add 4).accFlags k o (o.flags ||| orAll (rs.map (·.2)))
    | .get row addr fmts tgt =>
      let r := s.seeLanes o.who 4 (accWordPa k.toNat row 0) 1024
      let vs := (List.range 256).map fun c => accConv fmts tgt (BitVec.ofNat 32 (leNat ((r.1.drop (4 * c)).take 4)))
      let bs := vs.flatMap fun v => leBytes (tgtBytes tgt) v.1
      (r.2.modCore k fun y => { y with accPipe := y.accPipe ++ [{ o with due := o.due + 1, act := .land addr bs }] }).accFlags
        k o (orAll (vs.map (·.2)))
    | .land addr bs =>
      let r := s.landRow o.who k ((s.core k).accTold.contains o.cmd) addr bs (bs.length / 64)
      r.1.modCore k fun y =>
        { y with accTold := (if r.2 then sinsert o.cmd y.accTold else y.accTold).filter fun i =>
            y.mx.any (fun c => c.id == i) || y.accPipe.any fun p => p.cmd == i }

/-- The lines a scratchpad write of ACCRD takes. -/
def AccOp.lines (o : AccOp) : List Nat := match o.act with | .land addr bs => linesOf addr bs.length | _ => []

/-- Whether a write of ACCRD waits for the next cycle (R19, R197): a beat that is due, or another access, has a bank that it
takes, or an earlier write still waits. -/
def Core.landWaits (y : Core) (edge : Nat) (o : AccOp) : Bool :=
  (y.mx.any fun c => c.started && !c.beaten && c.next ≤ y.cycle &&
    (if c.left.isEmpty then c.lines else c.left).any fun ln => !o.lines.all (bankFree [ln])) ||
    !(o.lines.all (y.engFree edge)) || (y.accPipe.takeWhile (· != o)).any (·.lands)

/-- A write of ACCRD moves to the next cycle, and its command's completion with it. -/
def State.delayLand (s : State) (k : CoreId) (o : AccOp) : State :=
  (s.modCore k fun y => { y with accPipe := lmodFirst (fun p => p == o) (fun p => { p with due := y.cycle + 1 }) y.accPipe }).modMx
    k o.cmd fun c => { c with next := max c.next ((s.core k).cycle + 1) }

/-- One access leaves the pipeline and is performed; a scratchpad write is one of the engine phase (R19). -/
def State.accPerform (s : State) (k : CoreId) (o : AccOp) : State :=
  if !(s.core k).accPipe.contains o then s
  else if o.lands && (s.core k).landWaits (s.edge k) o then s.delayLand k o
  else
    ((s.engTake (o.lines.map (k, ·))).modCore k fun y => { y with accPipe := ldelFirst (fun p => p == o) y.accPipe }).accAccess k o

/-- The accumulator accesses, or the scratchpad writes, of the core's cycle are performed in order. -/
def State.accAccesses (s : State) (k : CoreId) (lands : Bool) : State :=
  let y := s.core k
  (y.accPipe.filter fun o => decide (o.due ≤ y.cycle) && o.lands == lands).foldl (fun t o => t.accPerform k o) s

/-! ### Completion (R198) -/

/-- Whether an accumulator access of a command that is still to come finds poison (R323). -/
def State.accDirty (s : State) (k : CoreId) (id : Nat) : Bool :=
  ((s.core k).accPipe.filter (·.cmd == id)).any fun o => (s.accPoison k o).isSome

/-- The command whose A-consumed flag is to be set: at the end of its last beat (R198), or, while an access of it that is to
come finds poison, once that access has found none (log 52). -/
def State.consuming (s : State) (k : CoreId) : Option MxCmd :=
  (s.core k).mx.find? fun c => c.beaten && c.kind.cons.isSome && !c.consumed && !s.accDirty k c.id

/-- A_CONSUMED: the last A row has been read (R105). -/
def aConsumed (k : CoreId) (s : State) : Option State :=
  (s.consuming k).map fun cmd =>
    (s.raiseFlag k cmd.ctx cmd.runId cmd.kind.cons (cmd.who k) true).modMx k cmd.id fun c => { c with consumed := true }

/-- Whether a command's completion is due. -/
def MxCmd.complete (c : MxCmd) (now : Nat) : Bool :=
  c.beaten && c.next ≤ now && (c.kind.cons.isNone || c.consumed)

/-- Whether a command has made all its accesses. -/
def Core.quiet (y : Core) (c : MxCmd) : Bool := c.beaten && !(y.accPipe.any (·.cmd == c.id))

/-- The command that completes: one that is due, all earlier ones having made their accesses (R101, R102). -/
def Core.finishing (y : Core) : Option MxCmd := (y.mx.takeWhile y.quiet).find? (·.complete y.cycle)

/-- MATRIX_COMMAND_DONE: the flags land and the done flag is set (R63, R66, R198). DESIGN CHOICE (log 53): R66 lets a
command's arithmetic flags land at any time up to its done flag; all of them land here. DEDUCED (log 52): the done flag of
a command that overtakes an earlier one waits for that one's last access, since whoever observes it must find the earlier
one's writes (R102). -/
def matrixDone (k : CoreId) (s : State) : Option State :=
  (s.core k).finishing.map fun cmd =>
    ((s.engFlags k cmd.ctx cmd.runId cmd.flags).raiseFlag k cmd.ctx cmd.runId cmd.done (cmd.who k)).delMx k cmd.id

/-- Whether the engine has nothing left to do in this cycle. -/
def mxIdle (k : CoreId) (s : State) : Bool :=
  let x := s.core k
  (startable s x.cycle [] x.mx).isNone && x.finishing.isNone && (s.consuming k).isNone && !(x.mx.any (·.due x.cycle))

/-! ### The events -/

def execMatrixCommandStart (k : CoreId) (s : State) : Out := enabled (matrixStart k s)
def execMatrixBeat (k : CoreId) (err : BeatErr) (s : State) : Out := enabled (matrixBeat k err s)
def execLoaderBeat (k : CoreId) (err : BeatErr) (s : State) : Out := enabled (loaderBeat k err s)
def execAccRowBeat (k : CoreId) (err : BeatErr) (s : State) : Out := enabled (accRowBeat k err s)
def execMatrixCommandDone (k : CoreId) (s : State) : Out := enabled (matrixDone k s)
def execAConsumed (k : CoreId) (s : State) : Out := enabled (aConsumed k s)

/-! ### The meanings -/

def execMma (g : Guard) (a b : SReg) (m : MmaArgs) (s : State) : Out :=
  runPlan slotMX (planMma g a b m s) s
def execMmag (g : Guard) (base b list : SReg) (m : MmaArgs) (s : State) : Out :=
  runPlan slotMX (planMmag g base b list m s) s
def execLatch (g : Guard) (a b : SReg) (l : LReg) (done : FlagRef) (cls : BitVec 4) (s : State) : Out :=
  runPlan slotMX (planLatch g a b l done cls s) s
def execLatcht (g : Guard) (a b : SReg) (l : LReg) (done : FlagRef) (cls : BitVec 4) (w : LWidth) (s : State) : Out :=
  runPlan slotMX (planLatcht g a b l done cls w s) s
def execAccz (g : Guard) (r : RowArgs) (s : State) : Out :=
  runPlan slotMX (planAccz g r s) s
def execAccwr (g : Guard) (a : SReg) (r : RowArgs) (add : Bool) (s : State) : Out :=
  runPlan slotMX (planAccwr g a r add s) s
def execAccrd (g : Guard) (a : SReg) (r : RowArgs) (tgt : AccTgt) (s : State) : Out :=
  runPlan slotMX (planAccrd g a r tgt s) s

end Sys2Proof.Machine
end

