-- ==== Sys2Proof/Machine/Queue.lean ====
section
/-! DEFINITION. The operations of the AQ map (spec/10, R209 to R219): pushed loads, global stores, scalar loads and
stores, acquire, release and atomics, the tag table, and NXU. What the requests do at their homes is in
Machine/Memory.lean. -/
namespace Sys2Proof.Machine

/-- The AQ slot (R316). -/
def slotAQ : Nat := 2

/-! ### Addresses and checks (R209, R212) -/

/-- The translations of some addresses. -/
def State.xlates (s : State) (need : Need) (vas : List Nat) : List (Nat × Xl) :=
  vas.map fun a => (a, s.xlate s.cur.1 (ctxWaiter s.cur.2) s.here.tenant a need)

/-- The pages that missed. -/
def xlMisses (xs : List (Nat × Xl)) : List Nat :=
  xs.filterMap fun x => match x.2 with | .miss p => some p | _ => none

/-- The first failure whose kind satisfies p, as a fault. -/
def xlFail (wr : Bool) (p : Nat → Bool) (xs : List (Nat × Xl)) : Option FaultInfo :=
  (xs.find? fun x => match x.2 with | .bad _ k => p k | _ => false).bind fun x =>
    match x.2 with
    | .bad l k => some (dataFault 0 x.1 l k wr)
    | _ => none

/-- Translation misses freeze; then permission over all requests, then translation (R212). -/
def xlCheck (wr : Bool) (xs : List (Nat × Xl)) : Check :=
  if !(xlMisses xs).isEmpty then .miss (xlMisses xs)
  else
    match xlFail wr (2 ≤ ·) xs with
    | some f => .fault f
    | none => match xlFail wr (· < 2) xs with | some f => .fault f | none => .ok

/-- The first address that is not a multiple of n takes 0x11. -/
def misaligned (vas : List Nat) (n : Nat) : Check :=
  match vas.find? fun a => a % n != 0 with
  | some a => .fault { code := 0x11, va := BitVec.ofNat 48 a }
  | none => .ok

/-- The physical address of a translation that passed. -/
def xlPa : Xl → Nat
  | .ok pa => pa
  | _ => 0

/-- Whether a physical address lies in an accumulator-store window. -/
def isAcc (pa : Nat) : Bool := match homeOf pa with | .acc _ _ => true | _ => false

/-- The walk level of the leaf that translates an address. -/
def State.leafLvl (s : State) (va : Nat) : Nat :=
  match s.here.tlb.find? fun e => e.covers va with
  | some e => lvlOf e.lg
  | none => 0

/-- Translation of an address that must land in an accumulator-store window (R77, R217). -/
def State.xlAcc (s : State) (need : Need) (va : Nat) : Nat × Xl :=
  match s.xlate s.cur.1 (ctxWaiter s.cur.2) s.here.tenant va need with
  | .ok pa => (va, if isAcc pa then .ok pa else .bad (s.leafLvl va) 3)
  | x => (va, x)

/-! ### Requests -/

/-- Whether the union of a context's exclusion slots holds all n bytes at va (R229, R231). -/
def excluded (ex : List (Nat × Excl)) (va n : Nat) : Bool :=
  (List.range n).all fun i => ex.any fun e =>
    e.2.base.toNat ≤ va + i && va + i < e.2.base.toNat + e.2.len.toNat

/-- Whether the launch records its reads (R26). -/
def State.traced (s : State) (id : Word) : Bool :=
  match s.launch id with
  | some l => l.record.getLsbD 119
  | none => false

/-- A request of the context an operation is issued for. -/
def mkReq (s : State) (x : Ctx) (lane : Nat) (cls : BitVec 4) (va pa len : Nat) (kind : ReqKind)
    (deadline : Dword) (read : Bool) : Req where
  id := 0
  core := s.cur.1
  ctx := s.cur.2
  runId := x.runId
  launch := x.launch
  tenant := s.here.tenant
  pos := x.pos
  lane := lane
  cls := cls
  va := BitVec.ofNat 48 va
  pa := pa
  len := len
  kind := kind
  deadline := deadline
  rel := none
  acq := none
  scope := .pkg
  unit := x.unit
  record := read && s.traced x.launch && !excluded x.excl va len

/-- Sends a request. -/
def State.send (s : State) (r : Req) : State :=
  { s.fresh.2 with reqs := s.reqs ++ [{ r with id := s.nextId }] }

/-! ### Pushed loads (R211, R212, R79 to R81) -/

/-- The entries of a load-address queue. -/
def laqSize : Nat := 1024

/-- Pushes one request into a queue. -/
def pushOne (q : Cl) (r : Req) (s : State) : State :=
  let e : LaqEntry := ⟨s.nextId, r.va, r.pa, none, false, false, false, r.pos, r.cls⟩
  (s.modHere fun x => { x with laqs := ains x.laqs q.toNat (x.laq q ++ [e]) }).send r

/-- A push of n lines at the given addresses. -/
def planPush (g : Guard) (p : PushArgs) (reads : Ctx → List (Dest × BitVec 16)) (bad : Bool)
    (addr : Ctx → Nat → Dword) (s : State) : Plan :=
  gplan g s fun x =>
    let n := p.n.toNat + 1
    let vas := (List.range n).map fun i => (addr x i).toNat
    let xs := s.xlates .read vas
    let q := s.here.laq p.cl
    let full := laqSize - n < (q.filter fun e => e.landed && !e.dropped).length
    { reads := rA p.a ++ reads x
      frozen := laqSize < q.length + n && !full
      check := (((illegalIf (!x.owns p.cl || bad)).and (misaligned vas 64)).and (xlCheck false xs)).and
        (faultIf full 0x0A 0 1)
      commit := fun t => ((List.range n).zip xs).foldl (fun u ix =>
        pushOne p.cl (mkReq t x ix.1 p.cls ix.2.1 (xlPa ix.2.2) 64 (.line p.cl)
          (t.gcc + p.land.setWidth 64) true) u) t }

def planPushld (g : Guard) (p : PushArgs) (s : State) : Plan :=
  planPush g p (fun _ => []) false (fun x i => x.a p.a + BitVec.ofNat 64 (64 * i)) s
def planPushlds (g : Guard) (p : PushArgs) (b : SReg) (s : State) : Plan :=
  planPush g p (rS · b) false (fun x i => x.a p.a + BitVec.ofNat 64 i * x.s b) s
def planPushldx (g : Guard) (p : PushArgs) (b : SReg) (s : State) : Plan :=
  planPush g p (rS · b) (4 ≤ p.n.toNat)
    (fun x i => x.a p.a + (((x.s b).extractLsb' (16 * i) 16).setWidth 64 <<< 6)) s

/-! ### Global stores (R213) -/

/-- A store of the enabled lanes of a vector register: the register to be read besides, the alignment, the address of
each lane. DESIGN CHOICE (log 50): the deadline of a request that is no push is its issue's tick, D being 0. DEDUCED
(log 49): a cluster it names that the context does not own is an issue check of the operation. -/
def planStg' (g : Guard) (p : StgArgs) (reads : Ctx → BitVec 16 → List (Dest × BitVec 16)) (bad : Bool) (align : Nat)
    (addr : Ctx → Nat → Dword) (s : State) : Plan :=
  gplan g s fun x =>
    let en := s.here.m p.cl p.msk
    let lanes := laneList en
    let v := s.here.v' p.cl p.data
    let xs := s.xlates .write (lanes.map fun i => (addr x i).toNat)
    let mis := if align = 64 then (if (x.a p.a).toNat % 64 = 0 then .ok else
        match lanes with
        | [] => .ok
        | i :: _ => .fault { code := 0x11, va := (addr x i).setWidth 48 })
      else misaligned (xs.map (·.1)) align
    { reads := rA p.a ++ rM p.cl p.msk ++ (.v p.cl.toNat p.data.toNat, en) :: reads x en
      check := ((illegalIf (!x.owns p.cl || 320 ≤ p.data.toNat || bad)).and mis).and (xlCheck true xs)
      commit := fun t => (lanes.zip xs).foldl (fun u ix =>
        u.send (mkReq t x ix.1 p.cls ix.2.1 (xlPa ix.2.2) 4 (.store (leBytes 4 (lane v ix.1).toNat)) t.gcc false)) t }

def planStg (g : Guard) (p : StgArgs) (s : State) : Plan :=
  planStg' g p (fun _ _ => []) false 64 (fun x i => x.a p.a + BitVec.ofNat 64 (4 * i)) s
def planStgs (g : Guard) (p : StgArgs) (b : SReg) (s : State) : Plan :=
  planStg' g p (fun x _ => rS x b) false 4 (fun x i => x.a p.a + BitVec.ofNat 64 i * x.s b) s
def planStgx (g : Guard) (p : StgArgs) (r : VReg) (s : State) : Plan :=
  planStg' g p (fun _ en => [(.v p.cl.toNat r.toNat, en)]) (320 ≤ r.toNat) 4
    (fun x i => x.a p.a + (lane (s.here.v' p.cl r) i).setWidth 64) s

/-! ### Scalar loads and stores (R214) -/

/-- The bytes of a size. -/
def sizeBytes : Size → Nat
  | .b => 1 | .h => 2 | .w => 4 | .d => 8

/-- The address of LDS and STS. -/
def scalarAddr (x : Ctx) (a : AReg) (off : BitVec 12) : Nat := (x.a a + off.signExtend 64).toNat

/-- A loaded value of n bytes, extended to 64 bits. -/
def extend (n : Nat) (sx : Bool) (v : Nat) : Dword :=
  if sx && 2 ^ (8 * n - 1) ≤ v then BitVec.ofInt 64 ((v : Int) - 2 ^ (8 * n)) else BitVec.ofNat 64 v

/-- Sends a request whose result is a scoreboarded scalar, to be consumed by the first bundle that reads it (R94). -/
def awaitScalar (x : Ctx) (d : SReg) (r : Req) (t : State) : State :=
  ((t.send r).awaitSb t.nextId (.s (x.phys d))).modMe fun y =>
    { y with unread := y.unread ++ [⟨t.nextId, x.phys d, r.pos, r.cls⟩] }

def planLds (g : Guard) (d : SReg) (a : AReg) (cls : BitVec 4) (off : BitVec 12) (sx : Bool) (z : Size) (s : State) :
    Plan :=
  gplan g s fun x =>
    let va := scalarAddr x a off
    let n := sizeBytes z
    let xs := s.xlates .read [va]
    { reads := rA a
      check := (((illegalIf (sx && z == .d)).and (loopDest x d)).and (misaligned [va] n)).and (xlCheck false xs)
      commit := fun t =>
        awaitScalar x d (mkReq t x 0 cls va (xlPa (s.xlate s.cur.1 (ctxWaiter s.cur.2) s.here.tenant va .read)) n (.load n sx) t.gcc true) t }

/-- The local form: served in the AQ position of the program phase, with latency 6. -/
def planLdsL (g : Guard) (d : SReg) (a : AReg) (cls : BitVec 4) (off : BitVec 12) (sx : Bool) (z : Size)
    (s : State) : Plan :=
  gplan g s fun x =>
    let va := scalarAddr x a off
    let n := sizeBytes z
    let pa := spmPa s.cur.1.toNat va
    let v := extend n sx (rdNat s.mem pa n)
    let poi : BitVec 16 := if s.poisoned pa n then 1 else 0
    { reads := rA a
      check := (((illegalIf (sx && z == .d)).and (loopDest x d)).and (misaligned [va] n)).and (boundCheck x va n)
      touch := [(va, n)]
      lacc := [{ line := va / 64, wr := false, cls := cls, unit := 8 }]
      commit := fun t => t.result (.s (x.phys d)) (v.setWidth 512) 6 0xFFFF poi }

def planSts (g : Guard) (a : AReg) (b : SReg) (cls : BitVec 4) (off : BitVec 12) (z : Size) (s : State) : Plan :=
  gplan g s fun x =>
    let va := scalarAddr x a off
    let n := sizeBytes z
    let xs := s.xlates .write [va]
    { reads := rA a ++ rS x b
      check := (misaligned [va] n).and (xlCheck true xs)
      commit := fun t =>
        t.send (mkReq t x 0 cls va (xlPa (s.xlate s.cur.1 (ctxWaiter s.cur.2) s.here.tenant va .write)) n
          (.store (leBytes n (x.s b).toNat)) t.gcc false) }

def planStsL (g : Guard) (a : AReg) (b : SReg) (cls : BitVec 4) (off : BitVec 12) (z : Size) (s : State) : Plan :=
  gplan g s fun x =>
    let va := scalarAddr x a off
    let n := sizeBytes z
    { reads := rA a ++ rS x b
      check := (misaligned [va] n).and (boundCheck x va n)
      touch := [(va, n)]
      cls := cls
      lacc := [{ line := va / 64, wr := true, cls := cls, unit := 8 }]
      stores := ((List.range n).zip (leBytes n (x.s b).toNat)).map fun ib => (va + ib.1, ib.2) }

/-! ### Acquire, release and atomics (R215 to R217) -/

/-- The checks of the accumulator-store operations (R217). -/
def accOpCheck (bad : Bool) (va : Nat) (wr : Bool) (xa : Nat × Xl) : Check :=
  ((illegalIf bad).and (misaligned [va] 4)).and (xlCheck wr [xa])

def planLdacq (g : Guard) (d : SReg) (a : AReg) (sc : Scope) (nmask : BitVec 16) (s : State) : Plan :=
  gplan g s fun x =>
    let va := (x.a a).toNat
    let xa := s.xlAcc .read va
    { reads := rA a
      check := (loopDest x d).and (accOpCheck (!nmaskOk nmask) va false xa)
      commit := fun t =>
        awaitScalar x d
          { mkReq t x 0 0 va (xlPa xa.2) 4 .ldacq t.gcc false with acq := some (~~~nmask), scope := sc } t }

def planStrel (g : Guard) (a : AReg) (b : SReg) (sc : Scope) (nmask : BitVec 16) (s : State) : Plan :=
  gplan g s fun x =>
    let va := (x.a a).toNat
    let xa := s.xlAcc .write va
    { reads := rA a ++ rS x b
      check := accOpCheck (!nmaskOk nmask) va true xa
      commit := fun t =>
        t.send { mkReq t x 0 0 va (xlPa xa.2) 4 (.strel ((x.s b).setWidth 32)) t.gcc false with
          rel := some (~~~nmask), scope := sc } }

/-- Whether the ordering form acquires, and whether it releases (R216). -/
def ordAcq : Ord → Bool
  | .acq | .ar => true
  | _ => false
def ordRel : Ord → Bool
  | .rel | .ar => true
  | _ => false

/-- AMO and CAS: a scoreboarded read-modify-write of one word. -/
def planRmw (g : Guard) (p : AmoArgs) (reads : Ctx → List (Dest × BitVec 16)) (kind : Ctx → ReqKind) (s : State) :
    Plan :=
  gplan g s fun x =>
    let va := (x.a p.a).toNat
    let xa := s.xlAcc .both va
    { reads := rA p.a ++ reads x
      check := ((illegalIf (p.ord != .relaxed && !nmaskOk p.nmask)).and (loopDest x p.d)).and
        (accOpCheck false va true xa)
      commit := fun t =>
        awaitScalar x p.d
          { mkReq t x 0 0 va (xlPa xa.2) 4 (kind x) t.gcc false with
            acq := if ordAcq p.ord then some (~~~p.nmask) else none
            rel := if ordRel p.ord then some (~~~p.nmask) else none
            scope := p.scope } t }

/-- The ten kinds of AMO. -/
def planAmo (k : BitVec 4) (g : Guard) (p : AmoArgs) (s : State) : Plan :=
  planRmw g p (rS · p.b) (fun x => .amo k ((x.s p.b).setWidth 32)) s

def planAmoAdd (g : Guard) (p : AmoArgs) (s : State) : Plan := planAmo 0 g p s
def planAmoFadd (g : Guard) (p : AmoArgs) (s : State) : Plan := planAmo 1 g p s
def planAmoMin (g : Guard) (p : AmoArgs) (s : State) : Plan := planAmo 2 g p s
def planAmoMax (g : Guard) (p : AmoArgs) (s : State) : Plan := planAmo 3 g p s
def planAmoMinu (g : Guard) (p : AmoArgs) (s : State) : Plan := planAmo 4 g p s
def planAmoMaxu (g : Guard) (p : AmoArgs) (s : State) : Plan := planAmo 5 g p s
def planAmoAnd (g : Guard) (p : AmoArgs) (s : State) : Plan := planAmo 6 g p s
def planAmoOr (g : Guard) (p : AmoArgs) (s : State) : Plan := planAmo 7 g p s
def planAmoXor (g : Guard) (p : AmoArgs) (s : State) : Plan := planAmo 8 g p s
def planAmoXchg (g : Guard) (p : AmoArgs) (s : State) : Plan := planAmo 9 g p s

def planCas (g : Guard) (p : AmoArgs) (nw : SReg) (s : State) : Plan :=
  planRmw g p (fun x => rS x p.b ++ rS x nw)
    (fun x => .cas ((x.s p.b).setWidth 32) ((x.s nw).setWidth 32)) s

/-! ### The tag table (R72, R73, R218) -/

/-- The set of an address. -/
def tagSet (x : Dword) : Nat := (x.extractLsb' 12 9).toNat
/-- The entry of a slot. -/
def Core.tag (x : Core) (slot : Nat) : Dword := aget x.tags slot 0
/-- The replacement pointer of a set. -/
def Core.ptr (x : Core) (set : Nat) : BitVec 3 := aget x.ptrs set 0
/-- The valid bit of an entry. -/
def tagV (e : Dword) : Bool := e.getLsbD 27

/-- The result word of TLOOK. -/
def tlook (x : Core) (a : Dword) : Dword :=
  let set := tagSet a
  let hit := (List.range 8).find? fun w =>
    let e := x.tag (8 * set + w)
    tagV e && e.extractLsb' 0 27 == a.extractLsb' 21 27
  let vict := match (List.range 8).find? fun w => !tagV (x.tag (8 * set + w)) with
    | some w => 8 * set + w
    | none => 8 * set + (x.ptr set).toNat
  match hit with
  | some w => BitVec.ofNat 64 (8 * set + w + vict * 2 ^ 16 +
      ((x.tag (8 * set + w)).extractLsb' 32 16).toNat * 2 ^ 32)
  | none => BitVec.ofNat 64 (0xFFFF + vict * 2 ^ 16)

/-- The effect of TSET. -/
def tset (x : Core) (a : Dword) (data : BitVec 16) (way : BitVec 3) : Core :=
  let set := tagSet a
  let e : Dword := (a.extractLsb' 21 27).setWidth 64 ||| (1#64 <<< 27) ||| (data.setWidth 64 <<< 32)
  { x with
    tags := ains x.tags (8 * set + way.toNat) e
    ptrs := ains x.ptrs set (way + 1)
    tagPoison := x.tagPoison.filter (· != 8 * set + way.toNat) }

/-- The effect of TCLR. -/
def tclr (x : Core) (slot : Nat) : Core := { x with tags := ains x.tags slot (x.tag slot &&& ~~~(1#64 <<< 27)) }

/-- DEDUCED (log 51): the result of a TLOOK of a set that holds a poisoned entry is poisoned (R322, R323). -/
def tlookPoison (x : Core) (a : Dword) : BitVec 16 :=
  if x.tagPoison.any fun e => e / 8 == tagSet a then 1 else 0

def planTlook (g : Guard) (d : SReg) (a : AReg) (s : State) : Plan :=
  gplan g s fun x =>
    { reads := rA a
      check := loopDest x d
      commit := fun t =>
        t.result (.s (x.phys d)) ((tlook t.here (x.a a)).setWidth 512) 2 0xFFFF (tlookPoison t.here (x.a a)) }
def planTset (g : Guard) (a : AReg) (b : SReg) (way : BitVec 3) (s : State) : Plan :=
  gplan g s fun x =>
    { reads := rA a ++ rS x b, commit := fun t => t.modHere fun y => tset y (x.a a) ((x.s b).setWidth 16) way }
def planTclr (g : Guard) (a : SReg) (s : State) : Plan :=
  gplan g s fun x =>
    { reads := rS x a
      check := illegalIf (4096 ≤ (x.s a).toNat)
      commit := fun t => t.modHere fun y => tclr y (x.s a).toNat }

/-! ### NXU (R33, R219) -/

/-- Whether the running launch is persistent (R26). -/
def State.persistent (s : State) (id : Word) : Bool :=
  match s.launch id with
  | some l => l.record.getLsbD 118
  | none => false

/-- NXU asks for the next unit; the answer lands in w(k mod 4) within 12 cycles. -/
def planNxu (g : Guard) (s : State) : Plan :=
  gplan g s fun x =>
    let w := x.nxuCount % 4
    { frozen := x.awaitsW w
      check := illegalIf (!s.persistent x.launch)
      commit := fun t =>
        let id := t.nextId
        let t1 := t.fresh.2.awaitSb id (.w (BitVec.ofNat 2 w)) (some (t.here.cycle + 12))
        let r : NxuReq := ⟨x.launch, t.cur.1, t.cur.2, x.runId, id⟩
        { t1 with nxus := t1.nxus ++ [r] }.modMe fun y => { y with nxuCount := y.nxuCount + 1 } }

/-! ### The meanings -/

def execPushld (g : Guard) (p : PushArgs) (s : State) : Out :=
  runPlan slotAQ (planPushld g p s) s
def execPushlds (g : Guard) (p : PushArgs) (b : SReg) (s : State) : Out :=
  runPlan slotAQ (planPushlds g p b s) s
def execPushldx (g : Guard) (p : PushArgs) (b : SReg) (s : State) : Out :=
  runPlan slotAQ (planPushldx g p b s) s
def execStg (g : Guard) (p : StgArgs) (s : State) : Out :=
  runPlan slotAQ (planStg g p s) s
def execStgs (g : Guard) (p : StgArgs) (b : SReg) (s : State) : Out :=
  runPlan slotAQ (planStgs g p b s) s
def execStgx (g : Guard) (p : StgArgs) (r : VReg) (s : State) : Out :=
  runPlan slotAQ (planStgx g p r s) s
def execLds (g : Guard) (d : SReg) (a : AReg) (cls : BitVec 4) (off : BitVec 12) (sx : Bool) (z : Size) (s : State) : Out :=
  runPlan slotAQ (planLds g d a cls off sx z s) s
def execLdsL (g : Guard) (d : SReg) (a : AReg) (cls : BitVec 4) (off : BitVec 12) (sx : Bool) (z : Size) (s : State) : Out :=
  runPlan slotAQ (planLdsL g d a cls off sx z s) s
def execSts (g : Guard) (a : AReg) (b : SReg) (cls : BitVec 4) (off : BitVec 12) (z : Size) (s : State) : Out :=
  runPlan slotAQ (planSts g a b cls off z s) s
def execStsL (g : Guard) (a : AReg) (b : SReg) (cls : BitVec 4) (off : BitVec 12) (z : Size) (s : State) : Out :=
  runPlan slotAQ (planStsL g a b cls off z s) s
def execLdacq (g : Guard) (d : SReg) (a : AReg) (sc : Scope) (nmask : BitVec 16) (s : State) : Out :=
  runPlan slotAQ (planLdacq g d a sc nmask s) s
def execStrel (g : Guard) (a : AReg) (b : SReg) (sc : Scope) (nmask : BitVec 16) (s : State) : Out :=
  runPlan slotAQ (planStrel g a b sc nmask s) s
def execAmoAdd (g : Guard) (p : AmoArgs) (s : State) : Out :=
  runPlan slotAQ (planAmoAdd g p s) s
def execAmoFadd (g : Guard) (p : AmoArgs) (s : State) : Out :=
  runPlan slotAQ (planAmoFadd g p s) s
def execAmoMin (g : Guard) (p : AmoArgs) (s : State) : Out :=
  runPlan slotAQ (planAmoMin g p s) s
def execAmoMax (g : Guard) (p : AmoArgs) (s : State) : Out :=
  runPlan slotAQ (planAmoMax g p s) s
def execAmoMinu (g : Guard) (p : AmoArgs) (s : State) : Out :=
  runPlan slotAQ (planAmoMinu g p s) s
def execAmoMaxu (g : Guard) (p : AmoArgs) (s : State) : Out :=
  runPlan slotAQ (planAmoMaxu g p s) s
def execAmoAnd (g : Guard) (p : AmoArgs) (s : State) : Out :=
  runPlan slotAQ (planAmoAnd g p s) s
def execAmoOr (g : Guard) (p : AmoArgs) (s : State) : Out :=
  runPlan slotAQ (planAmoOr g p s) s
def execAmoXor (g : Guard) (p : AmoArgs) (s : State) : Out :=
  runPlan slotAQ (planAmoXor g p s) s
def execAmoXchg (g : Guard) (p : AmoArgs) (s : State) : Out :=
  runPlan slotAQ (planAmoXchg g p s) s
def execCas (g : Guard) (p : AmoArgs) (nw : SReg) (s : State) : Out :=
  runPlan slotAQ (planCas g p nw s) s
def execTlook (g : Guard) (d : SReg) (a : AReg) (s : State) : Out :=
  runPlan slotAQ (planTlook g d a s) s
def execTset (g : Guard) (a : AReg) (b : SReg) (way : BitVec 3) (s : State) : Out :=
  runPlan slotAQ (planTset g a b way s) s
def execTclr (g : Guard) (a : SReg) (s : State) : Out :=
  runPlan slotAQ (planTclr g a s) s
def execNxu (g : Guard) (s : State) : Out :=
  runPlan slotAQ (planNxu g s) s

end Sys2Proof.Machine
end

