-- ==== Sys2Proof/Machine/Copy.lean ====
section
/-! DEFINITION. The copy engine (spec/10, R220 to R232; spec/04, R83 to R91): the operations of the CP map and the
events of the channels. -/
namespace Sys2Proof.Machine

/-- The CP slot (R316). -/
def slotCP : Nat := 4

/-! ### Memory behind a physical address -/

/-- The memory cell behind a physical address: an aperture byte of port p is the byte of that peer's own physical
space, which the model keeps above the 48-bit space (R333, log 1). -/
def State.cell (s : State) (pa : Nat) : Nat :=
  match homeOf pa with
  | .peer p off => 2 ^ 48 * (p + 1) + (s.port (BitVec.ofNat 4 p)).pbase.toNat * 2 ^ 38 + off
  | _ => pa

/-- The cell of byte y of port p's peer. -/
def peerCell (p : Port) (y : Nat) : Nat := 2 ^ 48 * (p.toNat + 1) + y % 2 ^ 48

/-- A DRAM read of a traced launch is recorded in the entry of its unit; a read of host or peer memory sets ALL, a read
with no unit sets UNATTR (R35, R229). -/
def State.noteRead (s : State) (id : Word) (unit : Option (BitVec 24)) (pa n : Nat) : State :=
  let gs := (List.range ((pa + n - 1) / 4096 + 1 - pa / 4096)).map fun i => pa / 4096 + i
  let add := fun (l : Launch) (u : Nat) (all : Bool) =>
    if all then { l with readsAll := sinsert u l.readsAll }
    else { l with reads := ains l.reads u (gs.foldl (fun r g => sinsert g r) (aget l.reads u [])) }
  let note := fun (all : Bool) => s.modLaunch id fun l =>
    match unit with
    | some u => add l u.toNat all
    | none => { l with unattr := true }
  match homeOf pa with
  | .dram => note false
  | .host _ | .peer _ _ => note true
  | _ => s

/-! ### The engine phase (R19, R197) -/

/-- Whether a core has work that its cycles move on. -/
def Core.active (y : Core) : Bool :=
  !y.mx.isEmpty || !y.accPipe.isEmpty || !y.usePend.isEmpty ||
    y.ctxs.any fun x => x.2.run == .running || x.2.run == .starting || x.2.run == .held

/-- Whether the engine phase of a core's present edge has come to the accesses that are not the matrix engine's: they are
served last (R197). -/
def State.engReady (s : State) (k : CoreId) : Bool :=
  let y := s.core k
  !y.active || (y.cycle == s.edge k && mxIdle k s)

/-- Whether the engine phases of the present edge can serve some lines; of those in one bank the phases that follow serve the
others (R19). -/
def State.engOk (s : State) (ls : List (CoreId × Nat)) : Bool :=
  ls.all fun kl => s.engReady kl.1 && (s.core kl.1).engFree (s.edge kl.1) kl.2

/-! ### Nest checks (R84, R222) -/

/-- The fields of a nest (R83). -/
def nestZsrc (n : Line) : Bool := n.getLsbD 496
def nestSloc (n : Line) : Bool := n.getLsbD 497
def nestDloc (n : Line) : Bool := n.getLsbD 498
def nestBulk (n : Line) : Bool := n.getLsbD 499
def nestReserved (n : Line) : Bool := n.extractLsb' 500 12 != 0#12

/-- The least i for which base + i·str leaves [lo, hi), the rest of the nest spanning a to b beyond it. -/
def firstOut (lo hi base str a b : Int) : Nat :=
  if base + a < lo ∨ hi < base + b then 0
  else if 0 < str then ((hi - (base + b)) / str + 1).toNat
  else if str < 0 then ((base + a - lo) / (-str) + 1).toNat
  else 0

/-- The address of the first iteration, in order, that leaves [lo, hi): levels are given from the outermost in. -/
def firstOutAddr (lo hi : Int) (len : Nat) (cnt : Nat → Nat) (str : Nat → Int) : List Nat → Int → Int
  | [], base => base
  | l :: inner, base =>
    let sp := nestSpan cnt str inner
    let i := min (firstOut lo hi base (str l) sp.1 (sp.2 + len)) (cnt l - 1)
    firstOutAddr lo hi len cnt str inner (base + i * str l)

/-- The full bound check of a command's local addresses (R84); VA names the first byte out of bounds. -/
def nestBound (x : Ctx) (n : Line) (base : Dword) (str : Nat → Int) : Check :=
  let lo : Int := x.splo.toNat
  let hi : Int := min x.sphi.toNat spmSize
  let len := nestLen n
  let sp := nestSpan (nestCnt n) str nestLevels
  let b : Int := base.toNat
  if lo ≤ b + sp.1 ∧ b + sp.2 + len ≤ hi then .ok
  else
    let a := firstOutAddr lo hi len (nestCnt n) str nestLevels.reverse b
    .fault { code := 0x09, va := BitVec.ofInt 48 (if a < lo then a else max a hi) }

/-- A global base address with bits [63:48] set (R209, R222). -/
def baseCheck (wr : Bool) (a : Dword) : Check :=
  if 2 ^ 48 ≤ a.toNat then .fault (dataFault 0 a.toNat 0 3 wr) else .ok

/-! ### The operations -/

/-- NESTLD (R220). DEDUCED (log 49): that the named cluster is the context's is an issue check of the operation (R122). -/
def planNestld (g : Guard) (d : NReg) (cl : Cl) (j : VReg) (s : State) : Plan :=
  gplan g s fun x =>
    { reads := [(.v cl.toNat j.toNat, 0xFFFF)]
      check := illegalIf (!x.owns cl || 320 ≤ j.toNat)
      commit := fun t => t.result (.n d.toNat) (s.here.v' cl j) 4 }

/-- Channel ch of a core. -/
def Core.chan (x : Core) (ch : Chan) : CopyChan := aget x.chans ch.toNat {}
/-- Changes a channel. -/
def State.modChan (s : State) (k : CoreId) (ch : Chan) (f : CopyChan → CopyChan) : State :=
  s.modCore k fun x => { x with chans := ains x.chans ch.toNat (f (x.chan ch)) }

/-- The cores a multicast names: bit i is core 32·die + i (R221). -/
def multiCores (k : CoreId) (mask : Word) : List CoreId :=
  ((List.range 32).filter fun i => mask.getLsbD i).map fun i => BitVec.ofNat 7 (32 * (k.toNat / 32) + i)

/-- A copy command's checks and its queueing (R221, R222). DESIGN CHOICE (log 64): neither a CPSEND's destination, an address of
the peer's space taken modulo 2^48, nor the source base of a command with ZSRC, which reads none, is checked for bits
[63:48]. -/
def planCopy (g : Guard) (p : CpyArgs) (reads : Ctx → List (Dest × BitVec 16)) (kind : Ctx → CopyKind) (s : State) :
    Plan :=
  gplan g s fun x =>
    let n := x.n p.nest
    let src := x.a p.src
    let dst := x.a p.dst
    let kd := kind x
    let bad := match kd with
      | .multi mask _ _ => !nestDloc n || nestBulk n || mask == 0
      | .send _ => nestDloc n || nestBulk n
      | _ => false
    let global := match kd with
      | .multi mask _ _ =>
        if (multiCores s.cur.1 mask).any fun k => !(s.core k).owned s.here.tenant
        then .fault (dataFault 0 0 0 3 true) else .ok
      | .send _ => .ok
      | _ => if nestDloc n then .ok else baseCheck true dst
    { reads := rN p.nest ++ rA p.src ++ rA p.dst ++ reads x
      check := ((((illegalIf (!x.holds s.cur.2 p.ch || nestReserved n ||
            (nestBulk n && (nestSloc n || nestDloc n)) || bad)).and
          (faultIf (16 ≤ (s.here.chan p.ch).queue.length) 0x0A 0 2)).and
          ((if nestZsrc n || nestSloc n then .ok else baseCheck false src).and global)).and
          (if nestSloc n && !nestZsrc n then nestBound x n src (nestSS n) else .ok)).and
          (if nestDloc n then nestBound x n dst (nestDS n) else .ok)
      commit := fun t =>
        let cmd : CopyCmd :=
          ⟨t.nextId, t.cur.2, x.runId, x.launch, kd, n, src, dst, if p.done.v then some p.done.f else none, p.cls,
            x.xafter, x.pos, x.xfence, x.unit, x.excl⟩
        t.fresh.2.modChan t.cur.1 p.ch fun c => { c with queue := c.queue ++ [cmd] } }

def planCpy (g : Guard) (p : CpyArgs) (s : State) : Plan := planCopy g p (fun _ => []) (fun _ => .cpy) s
def planCpyt (g : Guard) (p : CpyArgs) (ts : SReg) (s : State) : Plan :=
  planCopy g p (rS · ts) (fun x => .timed (x.s ts)) s
def planCpym (g : Guard) (p : CpyArgs) (ms : SReg) (rflag : FlagRef) (rctx : CtxId) (s : State) : Plan :=
  planCopy g p (rS · ms)
    (fun x => .multi ((x.s ms).setWidth 32) (if rflag.v then some rflag.f else none) rctx) s
def planCpsend (g : Guard) (p : CpyArgs) (port : Port) (s : State) : Plan :=
  planCopy g p (fun _ => []) (fun _ => .send port) s

/-- CPARM (R224). -/
def planCparm (g : Guard) (ch : Chan) (lo hi : SReg) (s : State) : Plan :=
  gplan g s fun x =>
    let l := (x.s lo).toNat
    let h := (x.s hi).toNat
    { reads := rS x lo ++ rS x hi
      check := illegalIf (!x.holds s.cur.2 ch || l % 64 != 0 || h % 64 != 0 || h ≤ l || 0x600000 < h)
      commit := fun t => t.modChan t.cur.1 ch fun c => { c with armNext := some (l, h) } }

/-- The status word of CPSTAT (R225). -/
def chanStatus (c : CopyChan) : Dword :=
  let b := fun (x : Bool) (n : Nat) => if x then 2 ^ n else 0
  let held := match c.run with | some r => r.armed.isSome | none => false
  let stop := match c.run with | some r => r.stop.isSome | none => false
  let wm := match c.run with | some r => if held then r.watermark % 2 ^ 32 else 0 | none => 0
  BitVec.ofNat 64 (c.queue.length + b c.run.isSome 5 + b c.armNext.isSome 6 + b held 7 + b c.landErr 8 + b c.rillErr 9 +
    b stop 10 + wm * 2 ^ 32)

/-- CPSTAT and CPSTAT.CLR (R225). -/
def planStat (g : Guard) (d : SReg) (ch : Chan) (clr : Bool) (s : State) : Plan :=
  gplan g s fun x =>
    { check := (illegalIf (!x.holds s.cur.2 ch)).and (loopDest x d)
      commit := fun t =>
        let t1 := putS x d (chanStatus (t.here.chan ch)) 2 t
        if clr then t1.modChan t.cur.1 ch fun c => { c with landErr := false, rillErr := false } else t1 }

def planCpstat (g : Guard) (d : SReg) (ch : Chan) (s : State) : Plan := planStat g d ch false s
def planCpstatClr (g : Guard) (d : SReg) (ch : Chan) (s : State) : Plan := planStat g d ch true s

/-- BUSE and BFREE: in force from the next cycle on (R226). -/
def planUse (g : Guard) (a : SReg) (n : BitVec 11) (set : Bool) (s : State) : Plan :=
  gplan g s fun x =>
    let b := (x.s a).toNat
    let m := n.toNat + 1
    { reads := rS x a
      check := (misaligned [b] 4096).and ((boundCheck x b (4096 * m)).and
        (faultIf (0x600000 < b + 4096 * m) 0x09 (max b 0x600000)))
      commit := fun t => t.modHere fun y =>
        { y with
          usePend := y.usePend ++ (List.range m).map fun i =>
            (b / 4096 + i, if set then some ⟨t.cur.2, x.launch⟩ else none) } }

def planBuse (g : Guard) (a : SReg) (n : BitVec 11) (s : State) : Plan := planUse g a n true s
def planBfree (g : Guard) (a : SReg) (n : BitVec 11) (s : State) : Plan := planUse g a n false s

/-- The changes of in-use bits that a new cycle brings into force. -/
def Core.applyUse (x : Core) : Core :=
  { x with
    usePend := []
    inuse := x.usePend.foldl (fun m u => match u.2 with | some v => ains m u.1 v | none => adel m u.1) x.inuse }

/-! ### Launching (R227, R232) -/

/-- The key of queue q of tenant t on its die. -/
def qkey (t : Tenant) (q : BitVec 4) : Nat := 16 * t.toNat + q.toNat
/-- A launch queue. -/
def State.queue (s : State) (d : DieId) (t : Tenant) (q : BitVec 4) : Queue := aget (s.die d).queues (qkey t q) {}
/-- Changes a launch queue. -/
def State.modQueue (s : State) (d : DieId) (t : Tenant) (q : BitVec 4) (f : Queue → Queue) : State :=
  s.modDie d fun x => { x with queues := ains x.queues (qkey t q) (f (aget x.queues (qkey t q) {})) }
/-- The tail of a queue: the value of its tail word (R288, R289). -/
def State.qtail (s : State) (q : Queue) : Word := rdWord s.mem (tailPa q.tailw)

/-- Whether a device-fed queue has no free entry (R227, R291). -/
def State.queueFull (s : State) (q : Queue) : Bool :=
  !q.en || !q.dev || q.err || 2 ^ q.log2n.toNat ≤ (s.qtail q - q.head).toNat + q.reserved.length

/-- LAUNCH and RELAUNCH reserve an entry of the queue. -/
def planEnqueue (g : Guard) (a : AReg) (reads : Ctx → List (Dest × BitVec 16)) (status : Ctx → Option Nat)
    (q : BitVec 4) (s : State) : Plan :=
  gplan g s fun x =>
    let rec_ := (x.a a).toNat
    let d := dieOf s.cur.1
    let t := s.here.tenant
    let xr := s.xlates .read [rec_]
    let xs := match status x with | some v => [s.xlAcc .write v] | none => []
    let mis := (misaligned [rec_] 64).and (match status x with | some v => misaligned [v] 8 | none => .ok)
    { reads := rA a ++ reads x
      check := (mis.and ((xlCheck false xr).and (xlCheck true xs))).and
        (faultIf (s.queueFull (s.queue d t q)) 0x0A 0 3)
      commit := fun u =>
        let r : Reserve := ⟨(x.a a).setWidth 48, (xs.head?).map fun v => (⟨BitVec.ofNat 48 v.1, some (xlPa v.2)⟩ : StatusAt), x.xafter,
          { u.access (.eng 99 0) 0 with xfence := x.xfence }⟩
        u.modQueue d t q fun y => { y with reserved := y.reserved ++ [r] } }

def planLaunch (g : Guard) (a : AReg) (q : BitVec 4) (s : State) : Plan :=
  planEnqueue g a (fun _ => []) (fun _ => none) q s
def planRelaunch (g : Guard) (a : AReg) (b : SReg) (q : BitVec 4) (s : State) : Plan :=
  planEnqueue g a (rS · b) (fun x => some (x.s b).toNat) q s

/-- TREXCL (R231): in a launch without TRACE it does nothing. -/
def planTrexcl (g : Guard) (a : AReg) (b : SReg) (slot : BitVec 2) (s : State) : Plan :=
  gplan g s fun x =>
    { reads := rA a ++ rS x b
      commit := fun t =>
        if s.traced x.launch then
          t.modMe fun y =>
            { y with excl := if x.s b = 0 then adel y.excl slot.toNat
                else ains y.excl slot.toNat ⟨x.a a, x.s b⟩ }
        else t }

/-! ### Starting a command (R85 to R87, R223) -/

/-- Whether a port takes what tenant t sends (R333). -/
def State.portOpen (s : State) (p : Port) (t : Tenant) : Bool :=
  let q := s.port p
  q.en && q.up && q.tmask.getLsbD t.toNat

/-- A command's accesses, by its channel and number (R92); a BULK one's are those of an engine of the die (R13, R89). -/
def CopyCmd.who (c : CopyCmd) (k : CoreId) (ch : Chan) : Who :=
  { path := .eng ch.toNat c.id, core := k, ctx := c.ctx, launch := c.launch, cls := clsBit c.cls, pos := c.pos
    xfence := c.xfence, bulk := nestBulk c.nest }

/-- The numbers of the BULK commands that run on a die, are not stopped, and are served in the same slots as tenant t's: in
its own slots only those of the tenant, in the others those of every tenant with no slot (R90, R91). -/
def State.bulkRuns (s : State) (d : DieId) (t : Tenant) : List Nat :=
  s.cores.flatMap fun y =>
    if dieOf (BitVec.ofNat 7 y.1) == d && s.shareOf d y.2.tenant == s.shareOf d t then
      y.2.chans.filterMap fun c => c.2.run.bind fun r =>
        if nestBulk r.cmd.nest && r.stop.isNone && r.lo < nestTotal r.cmd.nest then some r.cmd.id else none
    else []

/-- The bulk copy engines of a die (R16, R89). -/
def bulkEngines : Nat := 4

/-- COPY_COMMAND_START: the next command of a channel whose earlier ones have completed, once the accesses its XFENCE
covers have performed, a timed one's tick has come and a BULK one has an engine. A CPSEND whose port is unusable then
completes at once. A channel of a context stopped by a pre-emption starts nothing (R302). -/
def copyStart (k : CoreId) (ch : Chan) (s : State) : Option State :=
  let c := (s.core k).chan ch
  match c.run, c.queue with
  | none, cmd :: rest =>
    let x := s.ctx k cmd.ctx
    let timed := match cmd.kind with | .timed t => t.toNat ≤ s.gcc.toNat | _ => true
    let engine := !nestBulk cmd.nest || (s.bulkRuns (dieOf k) (s.core k).tenant).length < bulkEngines
    if s.performed cmd.after && timed && engine &&
        !((x.run == .stopped || x.run == .held) && x.preempt && x.launch == cmd.launch) then
      let shut := match cmd.kind with | .send p => !s.portOpen p (s.core k).tenant | _ => false
      let lo := if shut then nestTotal cmd.nest else 0
      let r : CopyRun := { cmd := cmd, lo := lo, prog := [], armed := c.armNext, stop := none, recorded := [] }
      some ((s.unitBegins (cmd.who k ch)).modChan k ch fun c =>
        { c with queue := rest, run := some r, armNext := none, rillErr := c.rillErr || shut })
    else none
  | _, _ => none

/-! ### Overlap (R84) -/

/-- The virtual addresses under which the table at `base` maps a physical byte. -/
def mapsTo (s : State) (pa : Nat) : List (Nat × Nat × Nat × Nat) → Nat → Nat → List Nat
  | [], _, _ => []
  | (_, sh, bits, lg) :: rest, base, va =>
    (List.range (2 ^ bits)).flatMap fun i =>
      let e := rdDword s.mem (base + 8 * i)
      let p := (e.extractLsb' 12 36).toNat * 4096
      let v := va + i * 2 ^ sh
      if !e.getLsbD 0 then []
      else if e.getLsbD 1 then (if p ≤ pa && pa < p + 2 ^ lg then [v + (pa - p)] else [])
      else mapsTo s pa rest p v

/-- The virtual addresses at which core k may reach a physical byte: through its TLB and through its tenant's tables. -/
def State.vasOf (s : State) (k : CoreId) (pa : Nat) : List Nat :=
  let r := (s.tenant (s.core k).tenant).ttroot
  ((s.core k).tlb.filterMap fun e => if e.pa ≤ pa && pa < e.pa + 2 ^ e.lg then some (e.va + (pa - e.pa)) else none) ++
    (if r.getLsbD 0 then mapsTo s pa walkLevels ((r.extractLsb' 12 36).toNat * 4096) 0 else [])

/-- The physical address behind which a memory cell stands: a peer's byte is reached through its port's aperture, where it
lies in it (R333). -/
def State.paOf (s : State) (cell : Nat) : Option Nat :=
  if cell < 2 ^ 48 then some cell
  else
    let p := cell / 2 ^ 48 - 1
    let lo := (s.port (BitVec.ofNat 4 p)).pbase.toNat * 2 ^ 38
    if lo ≤ cell % 2 ^ 48 && cell % 2 ^ 48 < lo + 2 ^ 38 then some (0x040000000000 + p * 2 ^ 38 + (cell % 2 ^ 48 - lo)) else none

/-- The virtual addresses at which core k may reach a memory cell. -/
def State.cellVas (s : State) (k : CoreId) (cell : Nat) : List Nat := ((s.paOf cell).map (s.vasOf k)).getD []

/-- The addresses, in the terms of a command's source, of the byte in a memory cell. -/
def CopyCmd.sourceVas (c : CopyCmd) (s : State) (k : CoreId) (cell : Nat) : List Nat :=
  if nestZsrc c.nest then []
  else if nestSloc c.nest then
    (match homeOf cell with | .spm j off => if j == k.toNat then [off] else [] | _ => [])
  else s.cellVas k cell

/-- The addresses, in the terms of a command's destination, of the byte in a memory cell, besides the one it is written by;
addresses of a peer's space are taken modulo 2^48 (log 64). -/
def CopyCmd.destVas (c : CopyCmd) (s : State) (k : CoreId) (cell : Nat) : List Nat :=
  match c.kind with
  | .send _ => []
  | _ => if nestDloc c.nest then [] else s.cellVas k cell

/-- Whether a source of a command covers an address of its own terms. -/
def CopyCmd.covers (c : CopyCmd) (va : Nat) : Bool :=
  nestHas (nestLen c.nest) (nestCnt c.nest) (nestSS c.nest) nestLevels.reverse ((va : Int) - c.src.toNat)

/-! ### One line (R84, R85, R222) -/

/-- The iteration served next: any that is not complete (R85). -/
def CopyRun.pick (r : CopyRun) (f : Nat) : Nat :=
  let j := r.lo + f % (nestTotal r.cmd.nest - r.lo)
  if r.done j < nestLen r.cmd.nest then j else r.lo

/-- Whether a later iteration has already written the destination byte at one of some addresses; those of a peer's space are
taken modulo 2^48. -/
def CopyRun.later (r : CopyRun) (j : Nat) (as : List Nat) : Bool :=
  let peer := match r.cmd.kind with | .send _ => true | _ => false
  r.prog.any fun p => j < p.1 &&
    let b := nestDst r.cmd.nest r.cmd.dst p.1
    as.any fun a => if peer then (a + 2 ^ 48 - b % 2 ^ 48) % 2 ^ 48 < p.2 else b ≤ a && a < b + p.2

/-- Moves the first incomplete iteration past completed ones. -/
def CopyRun.advance (r : CopyRun) : List (Nat × Nat) → CopyRun
  | [] => r
  | _ :: t =>
    if aget r.prog r.lo 0 = nestLen r.cmd.nest then { r with lo := r.lo + 1, prog := adel r.prog r.lo }.advance t else r

/-- The run after n more bytes of iteration j. -/
def CopyRun.step (r : CopyRun) (j n : Nat) : CopyRun :=
  let q := { r with prog := ains r.prog j (r.done j + n) }
  q.advance q.prog

/-- Where a piece comes from or goes to. -/
inductive Side
  | zero
  | spm (off : Nat)
  | phys (pa : Nat)
  | peer (cell : Nat)
  | ask (page : Nat)
  | stop (f : FaultInfo)
  | drop
  deriving DecidableEq, Repr

/-- The outcome of a line's translation (R222); its fault names the line (R317). -/
def sideOf (s : State) (k : CoreId) (ch : Chan) (va : Nat) (wr : Bool) : Side :=
  match s.xlate k (chanWaiter ch) (s.core k).tenant va (if wr then .write else .read) with
  | .ok pa => .phys pa
  | .miss pg => .ask pg
  | .bad l kind =>
    if wr && kind == 3 then .drop
    else .stop { dataFault 0xFF (va / 64 * 64) l kind wr with eng := true }

/-- The cell of byte 0 of a side, where it is one. -/
def Side.cell (sd : Side) (s : State) (k : CoreId) : Option Nat :=
  match sd with
  | .spm off => some (spmPa k.toNat off)
  | .phys pa => some (s.cell pa)
  | .peer c => some c
  | _ => none

/-- Whether a side lies in a peer. -/
def Side.isPeer : Side → Bool
  | .phys pa => (match homeOf pa with | .peer _ _ => true | _ => false)
  | .peer _ => true
  | _ => false

/-- The next piece of a command: its iteration, its source and destination addresses and length, and where they lie. It
lies in one source line and one destination line. -/
structure Piece where
  j : Nat
  sa : Nat
  da : Nat
  len : Nat
  src : Side
  dst : Side
  deriving DecidableEq, Repr

/-- The addresses and length of iteration j's next piece. -/
def CopyRun.piece (r : CopyRun) (j : Nat) : Nat × Nat × Nat :=
  let n := r.cmd.nest
  let p := r.done j
  let sa := (nestSrc n r.cmd.src j + p) % 2 ^ 64
  let da := (nestDst n r.cmd.dst j + p) % 2 ^ 64
  let left := min (64 - da % 64) (nestLen n - p)
  (sa, da, if nestZsrc n then left else min left (64 - sa % 64))

/-- The piece a command serves next. -/
def State.nextPiece (s : State) (k : CoreId) (ch : Chan) (r : CopyRun) : Piece :=
  let n := r.cmd.nest
  let j := r.pick (Config.freeNat s.freeCtr)
  let p := r.piece j
  { j := j, sa := p.1, da := p.2.1, len := p.2.2
    src := if nestZsrc n then .zero else if nestSloc n then .spm p.1 else sideOf s k ch p.1 false
    dst := match r.cmd.kind with
      | .send q => .peer (peerCell q p.2.1)
      | _ => if nestDloc n then .spm p.2.1 else sideOf s k ch p.2.1 true }

/-- The cores whose scratchpads a local destination lies in (R221). -/
def CopyCmd.receivers (c : CopyCmd) (k : CoreId) : List CoreId :=
  match c.kind with
  | .multi mask _ _ => multiCores k mask
  | _ => [k]

/-- The scratchpad lines a piece reads and writes. -/
def Piece.lines (p : Piece) (s : State) (k : CoreId) (c : CopyCmd) : List (CoreId × Nat) :=
  (match p.src with
   | .spm off => spmLines (spmPa k.toNat off) p.len
   | .phys pa => spmLines pa p.len
   | _ => []) ++
  (match p.dst with
   | .spm off => ((c.receivers k).filter fun d => (s.core d).owned (s.core k).tenant).flatMap fun d =>
      spmLines (spmPa d.toNat off) p.len
   | .phys pa => spmLines pa p.len
   | _ => [])

/-- Whether a piece can be served: the engine phases of the present edge have its lines' banks free, and the DRAM ports
serve the tenant (R19, R90, R91). A piece whose translation is not there, or fails, needs neither. -/
def State.pieceOk (s : State) (k : CoreId) (r : CopyRun) (p : Piece) : Bool :=
  match p.src, p.dst with
  | .ask _, _ | .stop _, _ | _, .ask _ | _, .stop _ => true
  | a, b =>
    let t := (s.core k).tenant
    s.engOk (p.lines s k r.cmd) && (match a with | .phys pa => s.dramOpen (some t) pa | _ => true) &&
      (match b with | .phys pa => s.storeOpen (some t) pa | _ => true)

/-- Whether the die's bulk engines serve tenant t's commands in the current slot (R90, R91). -/
def State.bulkServes (s : State) (d : DieId) (t : Tenant) : Bool :=
  let x := s.die d
  let e := aget x.slots x.slot.toNat 0
  if e.getLsbD 4 then e.extractLsb' 0 4 == t
  else !(x.slots.any fun v => v.2.getLsbD 4 && v.2.extractLsb' 0 4 == t)

/-- Whether a command has an engine to serve it now: the core's, or one of the die's four in a slot of its tenant (R85,
R89, R90). -/
def State.hasEngine (s : State) (k : CoreId) (c : CopyCmd) : Bool :=
  let d := dieOf k
  let t := (s.core k).tenant
  !nestBulk c.nest || (s.bulkServes d t && ((s.bulkRuns d t).filter (· < c.id)).length < bulkEngines)

/-- The command of a channel that can be served now, with its next piece. -/
def State.servable (s : State) (k : CoreId) (ch : Chan) : Option (CopyRun × Piece) :=
  ((s.core k).chan ch).run.bind fun r =>
    let p := s.nextPiece k ch r
    if r.stop.isNone && r.lo < nestTotal r.cmd.nest && s.hasEngine k r.cmd && s.pieceOk k r p then some (r, p) else none

/-- Whether it is a channel's turn: the core's engine serves its channels round-robin, one line at a time, passing over
those it cannot serve (R85). -/
def State.copyTurn (s : State) (k : CoreId) (ch : Chan) (r : CopyRun) : Bool :=
  let next := fun (i : Nat) => BitVec.ofNat 4 ((s.core k).lastCh + 1 + i)
  nestBulk r.cmd.nest || ((List.range 16).takeWhile fun i => next i != ch).all fun i =>
    match s.servable k (next i) with
    | some q => nestBulk q.1.cmd.nest
    | none => true

/-- The source bytes of a piece, whether they are poisoned, and the state with the free values taken; a peer may refuse a
read, which then returns poisoned (R333). -/
def State.srcBytes (s : State) (k : CoreId) (w : Who) (sd : Side) (n : Nat) : List Byte × Bool × State :=
  match sd.cell s k with
  | none => (List.replicate n 0, false, s)
  | some c =>
    let d := s.seeBytes w c n
    if sd.isPeer then (d.1, Config.freeBit d.2.freeCtr, d.2.free.2) else (d.1, s.poisoned c n, d.2)

/-- Writes the bytes of a piece that no later iteration has written, whatever address that one wrote them by; a byte that
the command also reads as a source is free (R84). No larger piece than a byte is indivisible (R93). -/
def State.putBytes (s : State) (k : CoreId) (w : Who) (r : CopyRun) (j a cell : Nat) (bs : List Byte) : State :=
  let vas := r.cmd.sourceVas s k cell
  let own := fun (i : Nat) => vas.any fun v => r.cmd.covers (v + i)
  let dst := if r.prog.any (fun p => j < p.1) then a % 2 ^ 64 :: r.cmd.destVas s k cell else []
  let keep := ((List.range bs.length).zip bs).filter fun ib => !r.later j (dst.map (· + ib.1))
  let val := fun (ib : Nat × Byte) => if own ib.1 then Config.freeByte (s.freeCtr + ib.1) else ib.2
  let s1 := if keep.any fun ib => own ib.1 then { s with freeCtr := s.freeCtr + bs.length } else s
  if keep.length == bs.length then s1.writeBy w cell (keep.map val) (unit := 1)
  else keep.foldl (fun t ib => t.writeBy w (cell + ib.1) [val ib]) s1

/-- Bytes land in a scratchpad line, or are dropped by its in-use bit (R75). Answers whether they were dropped. -/
def State.landPiece (s : State) (k : CoreId) (w : Who) (r : CopyRun) (j a : Nat) (d : CoreId) (off : Nat) (bs : List Byte)
    (poi : Bool) : State × CopyRun × Bool :=
  if ahas (s.core d).inuse (off / 4096) then
    let u := aget (s.core d).inuse (off / 4096) ⟨0, 0⟩
    let o := s.overrun d u (off / 64 * 64) (r.recorded.contains d.toNat)
    (o.1, { r with recorded := if o.2 then sinsert d.toNat r.recorded else r.recorded, lost := sinsert d.toNat r.lost }, true)
  else
    let s1 := s.putBytes k w r j a (spmPa d.toNat off) bs
    (if poi then s1.addPoison (spmPa d.toNat off) bs.length else s1, r, false)

/-- Writes a piece to its destination; poison is never written to host memory or a peer, and a peer may refuse a write
(R323, R333). Answers the state, the run, the lines written, and whether a line was dropped. -/
def State.putPiece (s : State) (r : CopyRun) (k : CoreId) (w : Who) (p : Piece) (bs : List Byte) (poi : Bool) :
    State × CopyRun × Nat × Bool :=
  let land := fun (u : State × CopyRun × Nat × Bool) (d : CoreId) (off : Nat) =>
    let v := u.1.landPiece k w u.2.1 p.j p.da d off bs poi
    (v.1, v.2.1, u.2.2.1 + (if v.2.2 then 0 else 1), u.2.2.2 || v.2.2)
  match p.dst with
  | .spm off => (r.cmd.receivers k).foldl (fun u d =>
      if (s.core d).owned (s.core k).tenant then land u d off
      else (u.1, { u.2.1 with lost := sinsert d.toNat u.2.1.lost }, u.2.2.1, true)) (s, r, 0, false)
  | .phys pa =>
    match homeOf pa with
    | .spm d off => land (s, r, 0, false) (BitVec.ofNat 7 d) off
    | .host _ => if poi then (s, r, 0, true) else (s.putBytes k w r p.j p.da pa bs, r, 1, false)
    | .peer _ _ =>
      if poi || Config.freeBit s.freeCtr then (s.free.2, r, 0, true)
      else (s.free.2.putBytes k w r p.j p.da (s.cell pa) bs, r, 1, false)
    | _ =>
      let s1 := s.putBytes k w r p.j p.da pa bs
      (if poi then s1.addPoison pa bs.length else s1, r, 1, false)
  | .peer cell =>
    if poi || Config.freeBit s.freeCtr then (s.free.2, r, 0, true)
    else (s.free.2.putBytes k w r p.j p.da cell bs, r, 1, false)
  | _ => (s, r, 0, true)

/-- The kind of access a piece is refused or stopped by goes to the context with its channel (R85). -/
def stopChan (s : State) (k : CoreId) (ch : Chan) (r : CopyRun) (f : FaultInfo) : State :=
  let g := { f with chan := some ch }
  (s.modChan k ch fun c => { c with run := some { r with stop := some g } }).engineFault k r.cmd.ctx r.cmd.runId
    r.cmd.launch g

/-- The 64-bit words the next piece of a channel reads. -/
def copyWords (k : CoreId) (ch : Chan) (s : State) : List Nat :=
  match s.servable k ch with
  | none => []
  | some (_, p) =>
    match p.src with
    | .spm off => wordsOf (spmPa k.toNat off) p.len
    | .phys pa => wordsOf pa p.len
    | _ => []

/-- The flag of a multicast's receiver, if its context runs one of the issuing launch (R223, R304). -/
def receiverFlag (s : State) (w : Who) (f : FReg) (rctx : CtxId) (d : CoreId) : State :=
  let src : FlagSrc := { flag := f.toNat, who := w, recv := some d }
  if (s.ctx d rctx).residentFor w.launch then s.setFlag d rctx f src
  else s.pendFlag (fun v => v.core == d && v.ctx == rctx && v.launch == w.launch) f src

/-- A multicast's flag is set in each receiver whose lines have all been written, with its last line (R223). -/
def receiverFlags (s : State) (k : CoreId) (w : Who) (r : CopyRun) : State :=
  match r.cmd.kind with
  | .multi mask (some f) rctx =>
    if r.lo < nestTotal r.cmd.nest then s
    else ((multiCores k mask).filter fun d => !r.lost.contains d.toNat).foldl (fun t d => receiverFlag t w f rctx d) s
  | _ => s

/-- A piece is read and written; each line written is counted (R348). -/
def State.copyPiece (s : State) (k : CoreId) (ch : Chan) (r : CopyRun) (p : Piece) : State :=
  let w := { r.cmd.who k ch with iter := p.j }
  let s0 := (s.free.2.engTake (p.lines s k r.cmd)).modCore k fun y =>
    { y with lastCh := if nestBulk r.cmd.nest then y.lastCh else ch.toNat }
  let b := s0.srcBytes k w p.src p.len
  let s1 := match p.src with
    | .phys pa =>
      if s.traced r.cmd.launch && !excluded r.cmd.excl p.sa p.len then b.2.2.noteRead r.cmd.launch r.cmd.unit pa p.len
      else b.2.2
    | _ => b.2.2
  let d := s1.putPiece r k w p b.1 b.2.1
  let full : Bool := (p.da + p.len) % 64 == 0 || r.done p.j + p.len == nestLen r.cmd.nest
  let q := d.2.1.step p.j p.len
  receiverFlags
    ((d.1.count (16 * k.toNat + 4) (if full then d.2.2.1 else 0)).modChan k ch fun c =>
      { c with run := some q, landErr := c.landErr || d.2.2.2 }) k w q

/-- COPY_LINE: the channel whose turn it is serves its next piece, asks for a translation, or stops at a fault. -/
def copyLine (k : CoreId) (ch : Chan) (s : State) : Option State :=
  match s.servable k ch with
  | none => none
  | some (r, p) =>
    let turn := fun (t : State) => t.modCore k fun y => { y with lastCh := if nestBulk r.cmd.nest then y.lastCh else ch.toNat }
    if !s.copyTurn k ch r then none
    else
      match p.src, p.dst with
      | .ask pg, _ => some (turn (s.askWalks k (chanWaiter ch) [pg]))
      | .stop f, _ => some (turn ((stopChan s k ch r f).dropWaiter k (chanWaiter ch)))
      | _, .ask pg => some (turn (s.askWalks k (chanWaiter ch) [pg]))
      | _, .stop f => some (turn ((stopChan s k ch r f).dropWaiter k (chanWaiter ch)))
      | _, _ => some ((s.copyPiece k ch r p).dropWaiter k (chanWaiter ch))

/-! ### Completion (R223) -/

/-- COPY_COMPLETE: every write has performed. -/
def copyComplete (k : CoreId) (ch : Chan) (s : State) : Option State :=
  match ((s.core k).chan ch).run with
  | none => none
  | some r =>
    if r.lo < nestTotal r.cmd.nest then none
    else some ((s.modChan k ch fun c => { c with run := none }).raiseFlag k r.cmd.ctx r.cmd.runId r.cmd.done (r.cmd.who k ch))

/-- BULK_FRAME_SLOT: a slot of 64 ticks begins; the table's writes take effect at the start of a frame (R90, R297), and
records that waited for a share of the ports are tried again (R91). -/
def bulkSlot (d : DieId) (s : State) : Option State :=
  let sl : BitVec 6 := s.gcc.extractLsb' 6 6
  if (s.die d).slot = sl then none
  else some (s.modDie d fun x =>
    if sl = 0 then { x with slot := 0, slots := x.slotPend.foldl (fun m e => ains m e.1 e.2) x.slots, slotPend := [] }
    else { x with slot := sl }).flushLate

/-! ### The events -/

def execCopyCommandStart (k : CoreId) (ch : Chan) (s : State) : Out := enabled (copyStart k ch s)
def execCopyLine (k : CoreId) (ch : Chan) (err : ReadErr) (s : State) : Out :=
  enabled ((s.meet none k (copyWords k ch s) err).bind (copyLine k ch))
def execCopyComplete (k : CoreId) (ch : Chan) (s : State) : Out := enabled (copyComplete k ch s)
def execBulkFrameSlot (d : DieId) (s : State) : Out := enabled (bulkSlot d s)

/-! ### The meanings -/

def execNestld (g : Guard) (d : NReg) (cl : Cl) (j : VReg) (s : State) : Out :=
  runPlan slotCP (planNestld g d cl j s) s
def execCpy (g : Guard) (p : CpyArgs) (s : State) : Out :=
  runPlan slotCP (planCpy g p s) s
def execCpyt (g : Guard) (p : CpyArgs) (ts : SReg) (s : State) : Out :=
  runPlan slotCP (planCpyt g p ts s) s
def execCpym (g : Guard) (p : CpyArgs) (ms : SReg) (rflag : FlagRef) (rctx : CtxId) (s : State) : Out :=
  runPlan slotCP (planCpym g p ms rflag rctx s) s
def execCpsend (g : Guard) (p : CpyArgs) (port : Port) (s : State) : Out :=
  runPlan slotCP (planCpsend g p port s) s
def execCparm (g : Guard) (ch : Chan) (lo hi : SReg) (s : State) : Out :=
  runPlan slotCP (planCparm g ch lo hi s) s
def execCpstat (g : Guard) (d : SReg) (ch : Chan) (s : State) : Out :=
  runPlan slotCP (planCpstat g d ch s) s
def execCpstatClr (g : Guard) (d : SReg) (ch : Chan) (s : State) : Out :=
  runPlan slotCP (planCpstatClr g d ch s) s
def execBuse (g : Guard) (a : SReg) (n : BitVec 11) (s : State) : Out :=
  runPlan slotCP (planBuse g a n s) s
def execBfree (g : Guard) (a : SReg) (n : BitVec 11) (s : State) : Out :=
  runPlan slotCP (planBfree g a n s) s
def execLaunch (g : Guard) (a : AReg) (q : BitVec 4) (s : State) : Out :=
  runPlan slotCP (planLaunch g a q s) s
def execRelaunch (g : Guard) (a : AReg) (b : SReg) (q : BitVec 4) (s : State) : Out :=
  runPlan slotCP (planRelaunch g a b q s) s
def execTrexcl (g : Guard) (a : AReg) (b : SReg) (slot : BitVec 2) (s : State) : Out :=
  runPlan slotCP (planTrexcl g a b slot s) s

end Sys2Proof.Machine
end

