-- ==== Sys2Proof/Machine/PlanOf.lean ====
section
/-! DEFINITION. The plan of every operation, and the meaning of NOP (R123). Events have no plan: they are no part of a
bundle. -/
namespace Sys2Proof.Machine

/-- The plan of an operation for the context `cur`. -/
def planOf (i : Instr) (s : State) : Plan :=
  match i with
  | .fadd a b c d e f => planFadd a b c d e f s
  | .fsub a b c d e f => planFsub a b c d e f s
  | .fmul a b c d e f => planFmul a b c d e f s
  | .fma a b c d e f g => planFma a b c d e f g s
  | .fms a b c d e f g => planFms a b c d e f g s
  | .fnma a b c d e f g => planFnma a b c d e f g s
  | .fmin a b c d e => planFmin a b c d e s
  | .fmax a b c d e => planFmax a b c d e s
  | .fabs a b c d => planFabs a b c d s
  | .fneg a b c d => planFneg a b c d s
  | .fcmp a b c d e f => planFcmp a b c d e f s
  | .dot2 a b c d e f g => planDot2 a b c d e f g s
  | .iadd a b c d e f => planIadd a b c d e f s
  | .isub a b c d e f => planIsub a b c d e f s
  | .imul a b c d e => planImul a b c d e s
  | .imulh a b c d e => planImulh a b c d e s
  | .imad a b c d e f => planImad a b c d e f s
  | .imin a b c d e => planImin a b c d e s
  | .imax a b c d e => planImax a b c d e s
  | .iminu a b c d e => planIminu a b c d e s
  | .imaxu a b c d e => planImaxu a b c d e s
  | .vand a b c d e => planVand a b c d e s
  | .vor a b c d e => planVor a b c d e s
  | .vxor a b c d e => planVxor a b c d e s
  | .vandn a b c d e => planVandn a b c d e s
  | .vshl a b c d e => planVshl a b c d e s
  | .vshr a b c d e => planVshr a b c d e s
  | .vsar a b c d e => planVsar a b c d e s
  | .icmp a b c d e f => planIcmp a b c d e f s
  | .icmpu a b c d e f => planIcmpu a b c d e f s
  | .lmul a b c d e => planLmul a b c d e s
  | .lrcp a b c d => planLrcp a b c d s
  | .lsqrt a b c d => planLsqrt a b c d s
  | .mov a b c => planMov a b c s
  | .vmovi a b c => planVmovi a b c s
  | .vsel a b c d e => planVsel a b c d e s
  | .shuf a b c d => planShuf a b c d s
  | .rot a b c d => planRot a b c d s
  | .hadd a b c => planHadd a b c s
  | .hmax a b c => planHmax a b c s
  | .cvt a b c d e => planCvt a b c d e s
  | .bpack a b c d => planBpack a b c d s
  | .bunpack a b c => planBunpack a b c s
  | .mand a b c d => planMand a b c d s
  | .mor a b c d => planMor a b c d s
  | .mxor a b c d => planMxor a b c d s
  | .mnot a b c => planMnot a b c s
  | .mset a b c => planMset a b c s
  | .msetScalar a b c => planMsetScalar a b c s
  | .rcp a b c d => planRcp a b c d s
  | .rsq a b c d => planRsq a b c d s
  | .sqrt a b c d => planSqrt a b c d s
  | .div a b c d e => planDivF a b c d e s
  | .exp2 a b c d => planExp2 a b c d s
  | .log2 a b c d => planLog2 a b c d s
  | .xmov a b c d => planXmov a b c d s
  | .xbc a b c d e => planXbc a b c d e s
  | .vld a b c d => planVld a b c d s
  | .vst a b c d => planVst a b c d s
  | .vlds a b c d e => planVlds a b c d e s
  | .vsts a b c d e => planVsts a b c d e s
  | .vldx a b c d e => planVldx a b c d e s
  | .vstx a b c d e => planVstx a b c d e s
  | .vlda a b c d => planVlda a b c d s
  | .vsta a b c d => planVsta a b c d s
  | .add a b c d => planAdd a b c d s
  | .sub a b c d => planSub a b c d s
  | .addi a b c d => planAddi a b c d s
  | .mul a b c d => planMul a b c d s
  | .mulhu a b c d => planMulhu a b c d s
  | .mulhs a b c d => planMulhs a b c d s
  | .divu a b c d => planDivu a b c d s
  | .divuRem a b c d => planDivuRem a b c d s
  | .divs a b c d => planDivs a b c d s
  | .divsRem a b c d => planDivsRem a b c d s
  | .and a b c d => planAnd a b c d s
  | .or a b c d => planOr a b c d s
  | .xor a b c d => planXor a b c d s
  | .andn a b c d => planAndn a b c d s
  | .shl a b c d => planShl a b c d s
  | .shr a b c d => planShr a b c d s
  | .sar a b c d => planSar a b c d s
  | .shli a b c d => planShli a b c d s
  | .shri a b c d => planShri a b c d s
  | .sari a b c d => planSari a b c d s
  | .min a b c d => planMin a b c d s
  | .max a b c d => planMax a b c d s
  | .minu a b c d => planMinu a b c d s
  | .maxu a b c d => planMaxu a b c d s
  | .clz a b c => planClz a b c s
  | .popc a b c => planPopc a b c s
  | .movi a b c => planMovi a b c s
  | .movhi a b c d e => planMovhi a b c d e s
  | .cmp a b c d e => planCmp a b c d e s
  | .cmpi a b c d e => planCmpi a b c d e s
  | .sel a b c d e => planSel a b c d e s
  | .pand a b c d e f => planPand a b c d e f s
  | .por a b c d e f => planPor a b c d e f s
  | .pxor a b c d e f => planPxor a b c d e f s
  | .aadd a b c d => planAadd a b c d s
  | .aaddi a b c d => planAaddi a b c d s
  | .alea a b c d e => planAlea a b c d e s
  | .aleaSeg a b c d => planAleaSeg a b c d s
  | .amov a b c => planAmov a b c s
  | .smova a b c => planSmova a b c s
  | .br a b => planBr a b s
  | .brc a b c => planBrc a b c s
  | .jmp a b => planJmp a b s
  | .call a b c d => planCall a b c d s
  | .calli a b c d => planCalli a b c d s
  | .ret a b c => planRet a b c s
  | .loop a b c d => planLoop a b c d s
  | .loopx a b c => planLoopx a b c s
  | .setfmt a b => planSetfmt a b s
  | .fence a b c => planFence a b c s
  | .xfence a => planXfence a s
  | .ifence a => planIfence a s
  | .bar a b => planBar a b s
  | .setf a b c => planSetf a b c s
  | .clrf a b c => planClrf a b c s
  | .waitgcc a b => planWaitgcc a b s
  | .rdsys a b c => planRdsys a b c s
  | .wrsys a b c => planWrsys a b c s
  | .trap a b => planTrap a b s
  | .brk a b => planBrk a b s
  | .halt a => planHalt a s
  | .unit a b c => planUnit a b c s
  | .unitS a b => planUnitS a b s
  | .pushld a b => planPushld a b s
  | .pushlds a b c => planPushlds a b c s
  | .pushldx a b c => planPushldx a b c s
  | .stg a b => planStg a b s
  | .stgs a b c => planStgs a b c s
  | .stgx a b c => planStgx a b c s
  | .lds a b c d e f g => planLds a b c d e f g s
  | .ldsL a b c d e f g => planLdsL a b c d e f g s
  | .sts a b c d e f => planSts a b c d e f s
  | .stsL a b c d e f => planStsL a b c d e f s
  | .ldacq a b c d e => planLdacq a b c d e s
  | .strel a b c d e => planStrel a b c d e s
  | .amoAdd a b => planAmoAdd a b s
  | .amoFadd a b => planAmoFadd a b s
  | .amoMin a b => planAmoMin a b s
  | .amoMax a b => planAmoMax a b s
  | .amoMinu a b => planAmoMinu a b s
  | .amoMaxu a b => planAmoMaxu a b s
  | .amoAnd a b => planAmoAnd a b s
  | .amoOr a b => planAmoOr a b s
  | .amoXor a b => planAmoXor a b s
  | .amoXchg a b => planAmoXchg a b s
  | .cas a b c => planCas a b c s
  | .tlook a b c => planTlook a b c s
  | .tset a b c d => planTset a b c d s
  | .tclr a b => planTclr a b s
  | .nxu a => planNxu a s
  | .mma a b c d => planMma a b c d s
  | .mmag a b c d e => planMmag a b c d e s
  | .latch a b c d e f => planLatch a b c d e f s
  | .latcht a b c d e f g => planLatcht a b c d e f g s
  | .accz a b => planAccz a b s
  | .accwr a b c d => planAccwr a b c d s
  | .accrd a b c d => planAccrd a b c d s
  | .nestld a b c d => planNestld a b c d s
  | .cpy a b => planCpy a b s
  | .cpyt a b c => planCpyt a b c s
  | .cpym a b c d e => planCpym a b c d e s
  | .cpsend a b c => planCpsend a b c s
  | .cparm a b c d => planCparm a b c d s
  | .cpstat a b c => planCpstat a b c s
  | .cpstatClr a b c => planCpstatClr a b c s
  | .buse a b c => planBuse a b c s
  | .bfree a b c => planBfree a b c s
  | .launch a b c => planLaunch a b c s
  | .relaunch a b c d => planRelaunch a b c d s
  | .trexcl a b c d => planTrexcl a b c d s
  | .nop _ | .issueCycle _ | .runmaxExpiry _ | .bundleIssue _ _ _ | .bankConflictRetry _ _ | .fetchComplete _ _ _ _
  | .segmentCheck _ _ | .fixedLatencyLanding _ _ _ _ | .scoreboardLanding _ _ _ | .tlbWalkComplete _ _ _
  | .memRequestService _ _ | .loadLineLands _ _ _ _ | .globalAccessPerform _ _ | .spillFillComplete _ _
  | .waitgccWake _ _ | .laqEntryFree _ _ | .copyCommandStart _ _ | .copyLine _ _ _ | .copyComplete _ _
  | .bulkFrameSlot _ | .matrixCommandStart _ | .matrixBeat _ _ | .loaderBeat _ _ | .accRowBeat _ _
  | .matrixCommandDone _ | .aConsumed _ | .barrierComplete _ _ _ | .takeRecord _ _ | .admitLaunch _
  | .coreAssign _ | .contextStart _ _ | .dispatchRestart _ _ | .nxuService _ _ | .launchAppend _ _ _
  | .launchFail _ | .completionWrite _ | .passStart _ | .passEnd _ | .pmarkStop _ _ | .contextSaved _ _
  | .pmbExpiry _ _ | .zeroingDone _ | .hostWrite _ _ | .hostRead _ _ | .ideIntegrityFail _ | .peerInbound _ _ _ _
  | .portTrain _ _ | .queueDescriptorWrite _ _ _ _ | .coreConfigWrite _ _ | .slotTableWrite _ _ _ | .ttrootWrite _ _
  | .go _ _ | .goStep _ _ | .decline _ _ | .measext _ _ | .tlockWrite _ _ _ | .tgo _ | .counterRead _
  | .registerWrite _ _ | .supplySag _ | .thermalTrip _ | .bootStage _ _ | .getMeasurements _ _ | .keyExchange _
  | .keyUpdate _ | .endSession _ | .vendorDefinedRequest _ _ _ | .ideKm _ | .portDown _ | .supplyRestored _
  | .gccTick | .powerOnReset | .driverReset | .preempt | .resume | .abort | .scrub | .stampreset | .coresave
  | .coreload | .shootdown | .finishRequest | .finishRemove | .powerWindowEnd => {}


/-- NOP occupies its slot and does nothing else (R123). -/
def execNop (_m : OpMap) (s : State) : Out := runPlan 0 {} s

end Sys2Proof.Machine
end

