-- ==== Sys2Proof/Machine/Bundle.lean ====
section
/-! DEFINITION. Bundles: what becomes of a context's next bundle (R36 to R38, R112 to R122, R318), the program phase
of the scratchpad (R69 to R71), and the commit of a whole bundle (R37, R115, R120). -/
namespace Sys2Proof.Machine

/-! ### Preparing a context for a cycle -/

/-- The indices of a loop's pass take their values at its first bundle (R152): nothing that is still in flight to
them lands later. -/
def Ctx.setIdx (x : Ctx) : Ctx :=
  match x.loop with
  | none => x
  | some l =>
    let used := (List.range l.idx.length).map (2 + ·)
    let y := used.foldl (fun y e => y.cancel (.s e)) x
    { y with
      scal := (List.range l.idx.length).foldl (fun m i => ains m (2 + i) (BitVec.ofNat 64 (l.idx.getD i 0))) x.scal
      pend := x.pend.filter fun p => match p.dest with | .s e => !used.contains e | _ => true
      sPoison := x.sPoison.filter fun e => !used.contains e
      ldsPoison := x.ldsPoison.filter fun e => !used.contains e.1 }

/-- Whether a scoreboarded result has arrived and must land by now. -/
def Sb.dueBy (b : Sb) (now : Nat) : Bool := b.arrived && (match b.due with | some d => d ≤ now | none => false)

/-- Lands the scoreboarded results that must land by now (R144, R191). -/
def State.landSbsDue (s : State) (k : CoreId) (c : CtxId) : State :=
  let now := (s.core k).cycle
  ((s.ctx k c).sbs.filter (·.dueBy now)).foldl (fun t b => t.landSb k c b)
    (s.modCtx k c fun x => { x with sbs := x.sbs.filter fun b => !b.dueBy now })

/-- Results whose window has ended land, unless the context's bundle has begun service; then the loop indices. -/
def State.prep (s : State) (k : CoreId) (c : CtxId) : State :=
  let s1 := if (s.ctx k c).part.isSome then s else (s.landDue k c).landSbsDue k c
  s1.modCtx k c Ctx.setIdx

/-! ### The next bundle (R318) -/

/-- What becomes of a context's next bundle. `wide` are the core-wide slots it uses. -/
inductive Verdict
  /-- The context runs no bundle. -/
  | idle
  /-- It stops at this pmark bundle (R254). -/
  | pmark
  /-- It waits for fetch or verification, having asked for it. -/
  | wait (c : Check)
  /-- It is frozen, having asked for what it waits for (R38). -/
  | frozen (c : Check)
  /-- It is held by another run's reservation (R196). -/
  | held
  /-- It is held only by its sync word (R115). -/
  | sync
  /-- It is held only by the freeze after a BAR (R158). -/
  | bar
  /-- A fault that is taken whether or not the bundle is presented: pending, or of the fetch. -/
  | early (f : FaultInfo)
  /-- The presented bundle makes a debug stop (R321). -/
  | stop (detail : Byte) (wide : List Nat)
  /-- The presented bundle faults. -/
  | fault (f : FaultInfo) (wide : List Nat)
  /-- It can issue. -/
  | go (b : Decoded)

/-- Whether a context with this verdict is ready (R36). One that another run's reservation holds is, unless it is the
primary (R196). -/
def Verdict.ready : Verdict → Bool
  | .stop _ _ | .fault _ _ | .go _ | .held => true
  | _ => false

/-- Whether a context with this verdict is ready as the primary (R36, R196). -/
def Verdict.presents : Verdict → Bool
  | .stop _ _ | .fault _ _ | .go _ => true
  | _ => false

/-- The core-wide slots of a bundle (R36). -/
def wideSlots (b : Decoded) : List Nat := (b.ops.map (·.1)).filter (· < 6)

/-- The first illegal operation of a bundle, in mask order: one that does not decode, or in a slot of a cluster that the
context does not own (R122). -/
def illegalSlot (x : Ctx) (b : Decoded) : Option Nat :=
  (b.ops.find? fun o => o.2.isNone || (6 ≤ o.1 && !x.clmask.getLsbD ((o.1 - 6) / 4))).map (·.1)

/-- The operations of a bundle. -/
def opsOf (b : Decoded) : List (Nat × Instr) := b.ops.filterMap fun o => o.2.map fun i => (o.1, i)

/-- The plans of a bundle's operations in mask order, each formed after the pops of those before it (R81), with the
state each was formed from. -/
def plansOf : List (Nat × Instr) → State → List (Nat × Plan × State)
  | [], _ => []
  | (sl, i) :: t, s =>
    let p := planOf i s
    (sl, p, s) :: plansOf t (s.popAll p.pops)

/-- The flags a sync word names (R115). -/
def syncMask (w : Word) : BitVec 64 := flagMask (w.extractLsb' 30 2) (w.extractLsb' 14 16)

/-- Whether a sync word is satisfied. -/
def syncMet (x : Ctx) (w : Word) : Bool :=
  let m := syncMask w
  if w.getLsbD 12 then x.flags &&& m != 0 else x.flags &&& m == m

/-- The issue checks of a bundle: the first in mask order that does not pass, with its slot (R318). -/
def firstCheck : List (Nat × Plan × State) → Check
  | [] => .ok
  | (sl, p, s) :: t =>
    match p.checks s with
    | .ok => firstCheck t
    | .fault f => .fault { f with slot := BitVec.ofNat 8 sl }
    | c => c

/-- The state a bundle's operations are planned in: the bundle after it is the next one in program order. -/
def State.present (s : State) (k : CoreId) (c : CtxId) (len : Nat) : State :=
  { s with cur := (k, c) }.modCtx k c fun x => { x with npc := x.pc + BitVec.ofNat 48 len }

/-- The two conditions of R255 that the core checks. -/
def pmarkOk (s : State) (k : CoreId) (c : CtxId) : Bool :=
  let y := s.core k
  let x := y.ctx c
  ((List.range 8).all fun cl => !x.clmask.getLsbD cl || (aget y.laqs cl []).isEmpty) &&
    !(y.res.any fun r => r.ctx == c && r.runId == x.runId && y.cycle ≤ r.last) &&
    !(y.mx.any fun m => m.ctx == c && m.runId == x.runId && m.started && !m.beaten)

/-- The enabled breakpoint that names an address (R321). -/
def breakAt (x : Ctx) (pc : Addr) : Option Nat :=
  (x.breaks.find? fun b => b.2.getLsbD 0 && b.2.extractLsb' 3 45 == pc.extractLsb' 3 45).map (·.1)

/-- Decode and what follows it, for a bundle whose bytes are there. DESIGN CHOICE (log 66): a pmark bundle that nothing holds
can issue (R254), also in a cycle whose core gives it no turn or whose banks would refuse it an access. -/
def judgeBundle (s : State) (k : CoreId) (c : CtxId) (bs : List Byte) : Verdict :=
  let x := s.ctx k c
  match decode bs with
  | .error _ => .fault { code := 0x01, slot := 0xFF } []
  | .ok b =>
    let wide := wideSlots b
    match illegalSlot x b with
    | some sl => .fault { code := 0x02, slot := BitVec.ofNat 8 sl } wide
    | none =>
      let ps := plansOf (opsOf b) (s.present k c b.len)
      let gcc := match x.waitGcc with | some v => s.gcc.toNat < v.toNat | none => false
      let sync := match b.sync with | some w => !syncMet x w | none => false
      let bar := x.barWait.isSome
      let hard := gcc || x.xfer.isSome || ps.any fun q => q.2.1.freezes q.2.2
      let held := ps.any fun q => q.2.1.held
      let stops := b.p && x.preempt && pmarkOk s k c && !held
      if hard || (sync && bar) then .frozen .ok
      else if sync then (if stops then .pmark else .sync)
      else if bar then (if stops then .pmark else .bar)
      else if held then .held
      else
        match firstCheck ps with
        | .ok => if stops then .pmark else .go b
        | .fault f => .fault f wide
        | .fetch blk => .wait (.fetch blk)
        | ch => .frozen ch

/-- The end of the page that holds an address: the page of the leaf that translates it, in the TLB or in the tables
(R316). -/
def State.pageEnd (s : State) (k : CoreId) (va : Nat) : Nat :=
  let lg := match (s.core k).tlb.find? fun e => e.covers va with
    | some e => e.lg
    | none => match s.walk (s.core k).tenant va with | .ok e => e.lg | .error _ => 16
  (va / 2 ^ lg + 1) * 2 ^ lg

/-- A verdict that would hold its context waits until nothing in flight is outstanding (R320). -/
def Verdict.settled (v : Verdict) (x : Ctx) : Verdict :=
  let waits := x.holdsBack && match v with
    | .early f | .fault f _ => x.wouldHold f
    | .stop _ _ => true
    | _ => false
  if waits then .frozen .ok else v

/-- What becomes of the next bundle of context c of core k, what is in flight to it apart. -/
def judgeNext (s : State) (k : CoreId) (c : CtxId) : Verdict :=
  let x := s.ctx k c
  if x.run != .running then .idle
  else
    match x.part with
    | some _ =>
      match x.bundleAt x.pc.toNat with
      | .ok bs => match decode bs with | .ok b => .go b | .error _ => .idle
      | _ => .idle
    | none =>
      if x.stopReq && x.stopTick != s.gcc then .idle
      else if x.stall then .frozen .ok
      else
        match x.pendFaults with
        | f :: _ => .early f.2
        | [] =>
          if 0 < x.delay then .wait .ok
          else if x.segFail then
            .early { code := 0x06, slot := 0xFF, va := BitVec.ofNat 48 (x.seg.va.toNat + x.seg.sigOff) }
          else if !x.segOk then .wait .ok
          else
            match x.bundleAt x.pc.toNat with
            | .need blk => .wait (.fetch blk)
            | .fail f byte => .early { f with slot := 0xFF, strad := decide (s.pageEnd k x.pc.toNat ≤ byte) }
            | .out va => .early { code := 0x0C, slot := 0xFF, va := BitVec.ofNat 48 va }
            | .ok bs =>
              let wide := match decode bs with | .ok b => wideSlots b | .error _ => []
              if x.stepStop && !x.skipBp then .stop 0xFF wide
              else
                match if x.skipBp then none else breakAt x x.pc with
                | some n => .stop (0x80#8 ||| BitVec.ofNat 8 n) wide
                | none => judgeBundle s k c bs

/-- What becomes of the next bundle of context c of core k. -/
def judge (s : State) (k : CoreId) (c : CtxId) : Verdict := (judgeNext s k c).settled (s.ctx k c)

/-! ### The program phase (R69 to R71) -/

/-- The banks one cycle's accesses have taken (data bank b, or 32 + g for the parity bank of group g) and the lines
read. -/
structure Banks where
  taken : List Nat := []
  read : List Nat := []
  deriving DecidableEq, Repr

/-- One line access: served, or refused (R69). -/
def Banks.serve (p : Banks) (a : LAcc) : Option Banks :=
  let b := a.line % 32
  let g := b / 4
  let free := fun (n : Nat) => !p.taken.contains n
  let rest := ((List.range 4).map (4 * g + ·)).filter (· != b) ++ [32 + g]
  if a.wr then (if free b && free (32 + g) then some { p with taken := b :: (32 + g) :: p.taken } else none)
  else if p.read.contains a.line then some p
  else if free b then some ⟨b :: p.taken, a.line :: p.read⟩
  else if rest.all free then some ⟨rest ++ p.taken, a.line :: p.read⟩
  else none

/-- Serves the accesses of a bundle that are not yet served, in order: the phase after it and the places served. -/
def Banks.serveAll (p : Banks) (done : List Nat) : Nat → List LAcc → Banks × List Nat
  | _, [] => (p, [])
  | i, a :: t =>
    if done.contains i then p.serveAll done (i + 1) t
    else
      match p.serve a with
      | some q => let r := q.serveAll done (i + 1) t; (r.1, i :: r.2)
      | none => p.serveAll done (i + 1) t

/-- The line accesses of a bundle in service order, each with the bytes it writes. -/
def accsOf (ps : List (Nat × Plan × State)) : List (LAcc × List (Nat × Byte)) :=
  (ps.filter (6 ≤ ·.1) ++ ps.filter (·.1 < 6)).flatMap fun q =>
    q.2.1.lacc.map fun a => (a, if a.wr then q.2.1.stores.filter (·.1 / 64 == a.line) else [])

/-- A line of the scratchpad of the current core. -/
def State.spmLine (s : State) (ln : Nat) : Line := rdLine s.mem (spmPa s.cur.1.toNat (64 * ln))

/-- The poisoned words of a line. -/
def State.linePoison (s : State) (ln : Nat) : List Nat :=
  s.poison.filter fun w => spmPa s.cur.1.toNat (64 * ln) ≤ 8 * w && 8 * w < spmPa s.cur.1.toNat (64 * ln) + 64

/-- The lines a bundle both reads and writes. -/
def mixedLines (as : List (LAcc × List (Nat × Byte))) : List Nat :=
  ((as.filter fun a => !a.1.wr && as.any fun b => b.1.wr && b.1.line == a.1.line).map (·.1.line)).eraseDups

/-- The lines some accesses of a bundle read, each once, with the classes of its reads and the bytes they take
indivisibly. -/
def readLines (as : List LAcc) : List (Nat × BitVec 16 × Nat) :=
  (as.filter fun a => !a.wr).foldl (fun m a =>
    let e := aget m a.line (0, 4)
    ains m a.line (e.1 ||| clsBit a.cls, max e.2 a.unit)) []

/-- Reads a line of the scratchpad for a bundle (R93, R98). -/
def State.seeLine (s : State) (r : Nat × BitVec 16 × Nat) : Line × State :=
  let d := s.seeLanes (s.access .loc r.2.1) r.2.2 (spmPa s.cur.1.toNat (64 * r.1)) 64
  (BitVec.ofNat 512 (leNat d.1), d.2)

/-- Reads some lines, each line once. -/
def State.seeLines (s : State) (rs : List (Nat × BitVec 16 × Nat)) (m : List (Nat × Line)) : List (Nat × Line) × State :=
  rs.foldl (fun q r => let d := q.2.seeLine r; (ains q.1 r.1 d.1, d.2)) (m, s)

/-- What a bundle holds when its service begins: the translations its checks found are among it (R70). -/
def Part.start (s : State) (as : List (LAcc × List (Nat × Byte))) : Part × State :=
  let r := s.seeLines ((readLines (as.map (·.1))).filter fun e => (mixedLines as).contains e.1) []
  ({ before := r.1, tlb := s.here.tlb }, r.2)

/-- The state as the plans of a partly served bundle see it: with the translations it began with (R70). -/
def State.asBegun (s : State) (k : CoreId) (c : CtxId) : State :=
  match (s.ctx k c).part with
  | some p => s.modCore k fun y => { y with tlb := p.tlb }
  | none => s

/-- Performs the accesses served in a cycle: reads capture their lines, writes update the memory. -/
def performServed (as : List (LAcc × List (Nat × Byte))) (now : List Nat) (p : Part) (s : State) : Part × State :=
  let got := now.filterMap fun i => as[i]?
  let rs := readLines (got.map (·.1))
  let r := s.seeLines rs p.captured
  ({ p with
      served := p.served ++ now
      captured := r.1
      poison := rs.foldl (fun l e => l ++ s.linePoison e.1) p.poison },
    got.foldl (fun t a => t.storeLocal a.2 a.1.cls a.1.unit) r.2)

/-- The scratchpad as the reads of a bundle saw it, with the translations it began with. A line that the bundle also writes is
seen either as it was before the bundle or as the bundle left it (R71). -/
def Part.view (p : Part) (s : State) : State :=
  let pick := fun (i : Nat) (e : Nat × Line) => if Config.freeBit (s.freeCtr + i) then e.2 else s.spmLine e.1
  let mixed := ((List.range p.before.length).zip p.before).map fun ie => (ie.2.1, pick ie.1 ie.2)
  let lines := (p.captured.filter fun e => !ahas p.before e.1) ++ mixed
  let k := s.cur.1.toNat
  { s.modCore s.cur.1 fun y => { y with tlb := p.tlb } with
    mem := lines.foldl (fun m e => wrBytes m (spmPa k (64 * e.1)) (leBytes 64 e.2.toNat)) s.mem
    poison := (s.poison.filter fun w => !(lines.any fun e => (s.linePoison e.1).contains w)) ++ p.poison }

/-! ### The commit (R37, R115, R152, R155) -/

/-- A named flag that was set is cleared on pass, unless a SETF or an engine set it in this very cycle (R115). -/
def Ctx.passSync (x : Ctx) (sync : Option Word) : Ctx :=
  match sync with
  | some w =>
    if w.getLsbD 13 then
      let m := syncMask w &&& ~~~x.setNow
      { x with flags := x.flags &&& ~~~m, flagSrc := x.flagSrc.filter fun f => !m.getLsbD f.flag }
    else x
  | none => x

/-- A satisfied sync word observes the commands that set its flags (R102). -/
def State.observeSync (s : State) (k : CoreId) (c : CtxId) (sync : Option Word) : State :=
  match sync with
  | some w =>
    let x := s.ctx k c
    ((x.flagSrc.filter fun f => (syncMask w).getLsbD f.flag).foldl (fun t f => t.observe k c x.pos f) s)
  | none => s

/-- The local bytes of some ranges that lie below the watermark of a running command and that it writes (R103). -/
def CopyRun.below (r : CopyRun) (k : CoreId) (touch : List (Nat × Nat)) : List Nat :=
  touch.flatMap fun t => ((List.range t.2).map (t.1 + ·)).filter fun y => y < r.watermark && r.cmd.writesLocal k y

/-- A local access to bytes that an armed command writes below its watermark comes after the command's writes of them and
those of its iterations before the watermark, and after all that happens before the command (R103). -/
def State.guardKnow (s : State) (touch : List (Nat × Nat)) : State :=
  let k := s.cur.1
  s.here.chans.foldl (fun t ch =>
    match ch.2.run with
    | some r =>
      let ys := if r.armed.isSome then r.below k touch else []
      if ys.isEmpty then t
      else t.learnAll fun e =>
        let own := e.who.path == .eng ch.1 r.cmd.id && e.who.core == k
        let ls := if own then (if e.who.iter < r.lo || ys.any (fun y => ahas e.cells (spmPa k.toNat y)) then [[]] else [])
          else e.limsTo (r.cmd.who k (BitVec.ofNat 4 ch.1))
        ls.map (⟨.ctx k t.cur.2 t.me.pos 0xFFFF true none, ·⟩)
    | none => t) s

/-- The local accesses of a bundle come after the context's earlier local writes of the same bytes, of whatever class
(R94). -/
def State.touchAll (s : State) (ps : List (Nat × Plan × State)) : State :=
  ps.foldl (fun t q =>
    let cls := q.2.1.lacc.foldl (fun m a => m ||| clsBit a.cls) 0
    q.2.1.touch.foldl (fun t a => t.touch (t.access .loc cls) (spmPa t.cur.1.toNat a.1) a.2) t) s

/-- What a bundle learns before its accesses: of the commands whose flags its sync word observes, of the global reads it
consumes, of the copies whose watermark its accesses lie below, and of its context's writes to the bytes it accesses (R94,
R102, R103). -/
def State.learnBundle (s : State) (b : Decoded) (ps : List (Nat × Plan × State)) : State :=
  (((s.observeSync s.cur.1 s.cur.2 b.sync).consumeAll (ps.flatMap fun q => q.2.1.reads)
    (ps.flatMap fun q => popped q.2.2.here q.2.1.pops)).guardKnow (ps.flatMap fun q => q.2.1.touch)).touchAll ps

/-- The next index tuple, innermost first; none after the last (R152). -/
def nextIdx : List Nat → List Nat → Option (List Nat)
  | [], _ => none
  | _, [] => none
  | c :: cs, i :: is => if i + 1 < c then some ((i + 1) :: is) else (nextIdx cs is).map (0 :: ·)

/-- The end of a bundle: the loop's next pass, formats whose fourth bundle comes next, and the next bundle. -/
def Ctx.endBundle (x : Ctx) : Ctx :=
  let y := match x.loop with
    | some l =>
      if x.npc = l.stop then
        match nextIdx l.counts l.idx with
        | some ix => { x with loop := some { l with idx := ix }, npc := l.body }
        | none => { x with loop := none }
      else x
    | none => x
  let fs := y.fmtPend.map fun e => (e.1, e.2 - 1)
  { y with
    fmts := (fs.filter (·.2 == 0)).foldl (fun _ e => e.1) y.fmts
    fmtPend := fs.filter (·.2 != 0)
    bundles := y.bundles + 1
    pc := y.npc
    skipBp := false
    stepReq := false
    stepStop := y.stepStop || y.stepReq }

/-- Commits a bundle whose accesses have all been served. -/
def State.commitBundle (s : State) (k : CoreId) (c : CtxId) (b : Decoded) (p : Part) : State :=
  let s0 := (s.present k c b.len).modCtx k c fun x =>
    { x with part := none, waitGcc := none, barWait := none, xfer := none }
  let ps := plansOf (opsOf b) (p.view s0)
  let s1 := ({ s0 with freeCtr := s0.freeCtr + p.before.length }).modCtx k c (·.passSync b.sync)
  let s2 := ps.foldl (fun t q => q.2.1.commit (t.popAll q.2.1.pops)) s1
  let s3 := s2.modCtx k c Ctx.endBundle
  ((s3.count (16 * k.toNat) 1).dropWaiter k (ctxWaiter c)).finish

/-- One program phase of a context's bundle: the phase after it, the state, and whether the bundle issued. `whole`
demands that every access be served, or nothing is done (R70: a merged bundle). -/
def State.serveBundle (s : State) (k : CoreId) (c : CtxId) (b : Decoded) (ph : Banks) (whole : Bool) :
    Banks × State × Bool :=
  let s0 := s.present k c b.len
  let ps := plansOf (opsOf b) (s0.asBegun k c)
  let as := accsOf ps
  let s1 := s0.learnBundle b ps
  let p := match (s.ctx k c).part with | some p => (p, s1) | none => Part.start s1 as
  let r := ph.serveAll p.1.served 0 (as.map (·.1))
  if r.2.length + p.1.served.length == as.length then
    let d := performServed as r.2 p.1 p.2
    (r.1, d.2.commitBundle k c b d.1, true)
  else if whole then (ph, s, false)
  else
    let d := performServed as r.2 p.1 p.2
    (r.1, d.2.modCtx k c fun x => { x with part := some d.1 }, false)

end Sys2Proof.Machine
end

