-- ==== Sys2Proof/Machine/Issue.lean ====
section
/-! DEFINITION. The issue stage of a core (R36, R38, R70, R196, R256, R318), the landings of results (R38, R39), and the
clock (R20, R21). -/
namespace Sys2Proof.Machine

/-- The outcome of an event that happens when a condition holds. -/
def enabledIf (b : Bool) (s : State) : Out := if b then .next s else .fault .notEnabled

/-! ### What a verdict brings -/

/-- A fault that waits for no presentation is taken, and what a waiting bundle asks for is asked for. -/
def State.settle (s : State) (k : CoreId) (c : CtxId) (v : Verdict) : State :=
  match v with
  | .early f => (s.modCtx k c fun x => { x with pendFaults := x.pendFaults.drop 1 }).takeFault k c f
  | .wait ch | .frozen ch => { ({ s with cur := (k, c) } : State).await ch with cur := s.cur }
  | _ => s

/-- A presented bundle that faults or makes a debug stop. -/
def State.takePresented (s : State) (k : CoreId) (c : CtxId) (v : Verdict) : State :=
  match v with
  | .fault f _ => s.takeFault k c f
  | .stop d _ => s.debugStop k c d
  | _ => s

/-- The contexts after c, in the order of R36. -/
def ctxsAfter (c : CtxId) : List CtxId := [c + 1, c + 2, c + 3]

/-- The next ready context after c (R36). -/
def nextReady (s : State) (k : CoreId) (c : CtxId) : Option CtxId :=
  (ctxsAfter c).find? fun d => (judge s k d).ready

/-- A cycle's bank-conflict freeze (R70, R348). -/
def State.countConflict (s : State) (k : CoreId) : State := s.count (16 * k.toNat + 2) 1

/-! ### One cycle (R36) -/

/-- What the primary did in a cycle: whether it issued, with Y, whether it was not ready or was refused a bank, and the
core-wide slots it used. -/
structure PrimaryDid where
  issued : Bool := false
  y : Bool := false
  stood : Bool := false
  wide : List Nat := []

/-- The primary's part of a cycle. DESIGN CHOICE (log 65): a primary whose bundle faults or makes a debug stop uses no core-wide
slot against the merge, and keeps primacy for the cycle. -/
def State.primaryPart (s : State) (k : CoreId) (c : CtxId) : Banks × State × PrimaryDid :=
  match judge s k c with
  | .go b =>
    let r := s.serveBundle k c b {} false
    (r.1, if r.2.2 then r.2.1 else r.2.1.countConflict k,
      if r.2.2 then { issued := true, y := b.y, wide := wideSlots b } else { stood := true })
  | v => ({}, s.takePresented k c v, { stood := !v.presents })

/-- Whether a merged bundle's core-wide slots are free (R36). -/
def slotsFree (used wide : List Nat) : Bool := !(wide.any used.contains)

/-- The merge: only the next ready context is tried (R36, R70). -/
def State.mergePart (s : State) (k : CoreId) (c : CtxId) (ph : Banks) (used : List Nat) : State × Bool :=
  match judge s k c with
  | .go b =>
    if slotsFree used (wideSlots b) then
      let r := s.serveBundle k c b ph true
      (r.2.1, r.2.2)
    else (s, false)
  | .fault f w => if slotsFree used w then (s.takePresented k c (.fault f w), false) else (s, false)
  | .stop d w => if slotsFree used w then (s.takePresented k c (.stop d w), false) else (s, false)
  | _ => (s, false)

/-- Whether a verdict is a freeze of R38, and whether it is a wait for fetch. -/
def Verdict.isFrozen : Verdict → Bool
  | .frozen _ | .sync | .bar => true
  | _ => false
def Verdict.isWaiting : Verdict → Bool
  | .wait _ => true
  | _ => false

/-- The end of a cycle for one context: the fetch delay, the pre-emption count (R256), the flags set in the cycle, and a
rebuild's freeze. -/
def Ctx.endCycle (x : Ctx) (v : Verdict) (waited issued : Bool) : Ctx :=
  let counts := x.run == .starting || (x.run == .running && (issued || v.isFrozen || v.isWaiting))
  { x with
    delay := if waited then x.delay - 1 else x.delay
    setNow := 0
    stall := false
    pmbCount := if x.preempt && counts then x.pmbCount + 1 else x.pmbCount }

/-- A core's cycle begins, the die's clock having made the edge number `now`: the changes of in-use bits come into force,
the array's accumulator accesses come before the program's (R77), and results that are due land. -/
def State.cycleStart (s : State) (k : CoreId) (now : Nat) : State :=
  allCtxs.foldl (fun t c => t.prep k c) ((s.modCore k fun y => { y.applyUse with cycle := now }).accAccesses k false)

/-- The issue stage of a cycle (R36): the primary's bundle, and the merge with the next ready context's. What ACCRD writes
lands in the engine phase, after it. -/
def State.issueStage (s : State) (k : CoreId) : State :=
  let vs := allCtxs.map fun c => (c, judge s k c)
  let s1 := vs.foldl (fun t cv => t.settle k cv.1 cv.2) s
  let p := (s.core k).primary
  let next := (ctxsAfter p).find? fun d => vs.any fun cv => cv.1 == d && cv.2.ready
  let r := s1.primaryPart k p
  let m := match next with
    | some d => r.2.1.mergePart k d r.1 r.2.2.wide
    | none => (r.2.1, false)
  let heir := if r.2.2.y || r.2.2.stood then next.getD p else p
  let issued := fun (c : CtxId) => (c == p && r.2.2.issued) || (next == some c && m.2)
  let s2 := vs.foldl (fun t cv => t.modCtx k cv.1 fun x => x.endCycle
    (if cv.1 == p && x.part.isSome then .frozen .ok else cv.2) (0 < (s.ctx k cv.1).delay) (issued cv.1)) m.1
  let frozen := (vs.filter fun cv => cv.2.isFrozen || (cv.1 == p && (s2.ctx k p).part.isSome)).length
  let s3 := (s2.count (16 * k.toNat + 1) frozen).modCore k fun y =>
    { y with primary := heir, primCycles := if heir == p then y.primCycles + 1 else 0, heir := next }
  { s3.accAccesses k true with cur := s.cur }

/-- One cycle of a core. -/
def State.cycleBody (s : State) (k : CoreId) (now : Nat) : State := (s.cycleStart k now).issueStage k

/-! ### When a cycle may come -/

/-- Whether a result that must have landed by now has not arrived: it is served first (R33). -/
def Ctx.overdue (x : Ctx) (now : Nat) : Bool :=
  x.sbs.any fun b => !b.arrived && (match b.due with | some d => d ≤ now | none => false)

/-- The primary has been so for RUNMAX cycles, and the last of them had a next ready context (R36). -/
def runmaxDue (s : State) (k : CoreId) : Bool :=
  let y := s.core k
  y.runmax.toNat ≤ y.primCycles && y.heir.isSome

/-- The pre-emption bound has been reached (R256). -/
def pmbDue (s : State) (k : CoreId) (c : CtxId) : Bool :=
  let x := s.ctx k c
  x.preempt && (x.run == .running || x.run == .starting) && (s.core k).pmb.toNat ≤ x.pmbCount

/-- The state a core's next cycle begins in. -/
def State.preview (s : State) (k : CoreId) : State := s.cycleStart k (s.edge k)

/-- A context is to stop at its next bundle, a pmark bundle, as the next cycle finds it (R254). -/
def pmarkDue (s : State) (k : CoreId) (c : CtxId) : Bool :=
  (s.ctx k c).preempt && decide ((s.core k).cycle < s.edge k) &&
    match judge (s.preview k) k c with | .pmark => true | _ => false

/-- ISSUE_CYCLE can happen: the die has made an edge the core has not used, and nothing of the present cycle is
outstanding. -/
def cycleReady (s : State) (k : CoreId) : Bool :=
  let y := s.core k
  y.cycle < s.edge k && mxIdle k s && !runmaxDue s k &&
    allCtxs.all fun c => !(y.ctx c).overdue y.cycle && !pmbDue s k c && !pmarkDue s k c

/-- ISSUE_CYCLE. Results that are due land first. -/
def execIssueCycle (k : CoreId) (s : State) : Out :=
  enabledIf (cycleReady s k) (s.cycleBody k (s.edge k))

/-- RUNMAX_EXPIRY: the forced pass, to the next ready context of the cycle it follows (R36). -/
def runmaxPass (k : CoreId) (s : State) : State :=
  s.modCore k fun y => { y with primary := y.heir.getD y.primary, primCycles := 0, heir := none }

def execRunmaxExpiry (k : CoreId) (s : State) : Out := enabledIf (runmaxDue s k) (runmaxPass k s)

/-- PMB_EXPIRY: the context takes 0x0E before its next bundle (R256). -/
def pmbExpire (k : CoreId) (c : CtxId) (s : State) : State :=
  s.modCtx k c fun x =>
    { x.pushFault (s.core k).cycle s.gcc { code := 0x0E, eng := true, slot := 0xFF } with preempt := false, pmbCount := 0 }

def execPmbExpiry (k : CoreId) (c : CtxId) (s : State) : Out := enabledIf (pmbDue s k c) (pmbExpire k c s)

/-! ### A cycle in which a context presents its bundle (R37, R322) -/

/-- Whether a context presents its next bundle in the core's next cycle, that is, it is the ready primary, or the next
ready context (R36); s is the state that cycle begins in. -/
def presentsIn (s : State) (k : CoreId) (c : CtxId) : Bool :=
  let y := s.core k
  if c == y.primary then (judge s k c).presents else nextReady s k y.primary == some c

/-- The operations of a context's next bundle that it can issue. -/
def nextOps (s : State) (k : CoreId) (c : CtxId) : List (Nat × Plan × State) × List (Nat × Instr) :=
  match judge s k c with
  | .go b => (plansOf (opsOf b) (s.present k c b.len), opsOf b)
  | _ => ([], [])

/-- Whether a context's next bundle can issue and reads scratchpad line ln. -/
def readsLine (s : State) (k : CoreId) (c : CtxId) (ln : Nat) : Bool :=
  (accsOf (nextOps s k c).1).any fun a => !a.1.wr && a.1.line == ln

/-- The physical address of the target-table word that a context's next bundle reads. -/
def targetWord (s : State) (k : CoreId) (c : CtxId) : Option Nat :=
  let x := s.ctx k c
  (nextOps s k c).2.findSome? fun o =>
    let at_ := fun (g : Guard) (a : SReg) =>
      let i := (x.s a).toNat
      if performs g x && i < x.seg.ntgt.toNat then
        (match s.xlate k (ctxWaiter c) (s.core k).tenant (x.seg.va.toNat + 0x40 + 4 * (x.seg.nent.toNat + 1 + i)) .fetch with
         | .ok pa => some pa
         | _ => none)
      else none
    match o.2 with
    | .jmp g a => at_ g a
    | .calli g _ a _ => at_ g a
    | _ => none

/-- The key under which a register that is not a scalar or a vector holds poison. -/
def regKey : RegName → Nat
  | .a r => keyA r.toNat
  | .p r => keyP r.toNat
  | .n r => keyN r.toNat
  | .w r => keyW r.toNat
  | .m cl r => mkey cl.toNat r.toNat

/-- An uncorrectable error marks what holds the word, unless it is marked already: the state, and where it is logged
(R322, R324). PRESUMED (log 37): an error of the tag table is logged as one of a register file. -/
def State.markCell (s : State) (k : CoreId) (c : CtxId) (err : CellErr) : State × Option (ErrAt × Nat) :=
  let x := s.ctx k c
  let y := s.core k
  let word := fun (w : ErrAt) (pa a : Nat) => if s.poisoned pa 8 then (s, none) else (s.addPoison pa 8, some (w, a))
  let once := fun (known : Bool) (t : State) => if known then (s, none) else (t, some (ErrAt.regs, 0))
  match err with
  | .badSpm w => word .spm (spmPa k.toNat (8 * w)) (8 * w)
  | .badAcc w => word .acc (accPa k.toNat (8 * w)) (8 * w)
  | .badTarget => (match targetWord s k c with | some pa => word .fetch (pa / 8 * 8) (pa / 8 * 8) | none => (s, none))
  | .badLane cl r lane =>
    let old := aget y.vpoison (vkey cl.toNat r.toNat) 0
    once (old.getLsbD lane.toNat)
      (s.modCore k fun y => { y with vpoison := ains y.vpoison (vkey cl.toNat r.toNat) (old ||| (1#16 <<< lane.toNat)) })
  | .badScalar r =>
    once (x.sPoison.contains (x.phys r)) (s.modCtx k c fun x => { x with sPoison := sinsert (x.phys r) x.sPoison })
  | .badReg (.m cl r) =>
    once (y.mPoison.contains (mkey cl.toNat r.toNat))
      (s.modCore k fun y => { y with mPoison := sinsert (mkey cl.toNat r.toNat) y.mPoison })
  | .badReg r => once (x.rPoison.contains (regKey r)) (s.modCtx k c fun x => { x with rPoison := sinsert (regKey r) x.rPoison })
  | .badTag e => once (y.tagPoison.contains e.toNat) (s.modCore k fun y => { y with tagPoison := sinsert e.toNat y.tagPoison })
  | .badEntry cl i =>
    (match (y.laq cl)[i]? with
     | some e =>
       if e.poison then (s, none)
       else (s.modCore k fun y => { y with laqs := ains y.laqs cl.toNat (lset (y.laq cl) i { e with poison := true }) },
         some (.queue, e.pa))
     | none => (s, none))
  | _ => (s, none)

/-- The fault 0x0D that a context's next bundle takes (R323). -/
def poisonTaken (s : State) (k : CoreId) (c : CtxId) : Option FaultInfo :=
  match judge s k c with | .early f | .fault f _ => if f.code = 0x0D then some f else none | _ => none

/-- Whether an accumulator access of the coming cycle reads a 64-bit word of the core's store. -/
def Core.pipeReads (y : Core) (edge w : Nat) : Bool :=
  y.accPipe.any fun o => decide (o.due ≤ edge) &&
    match o.act with
    | .put row col add ws => add && row * 1024 + 4 * col < 8 * w + 8 && 8 * w < row * 1024 + 4 * col + 4 * ws.length
    | .get row _ _ _ => w / 128 == row
    | .land _ _ => false

/-- What an error in one of the core's arrays leaves, found in the cycle in which a context presents its bundle: a
corrected one is logged; a rebuilt line costs the bundle a freeze cycle; any other marks what holds the word, and its entry
says whether the cycle consumes it: the bundle takes a fault 0x0D that it would not take without the mark, or an access of
the array reads the word (R70, R322, R324). -/
def State.cellErr (s : State) (k : CoreId) (c : CtxId) (err : CellErr) : State :=
  match err with
  | .clean => s
  | .corrected w a => s.logCorrected w false k a.toNat
  | .rebuilt ln => ((s.logCorrected .spm true k (64 * ln)).countConflict k).modCtx k c fun x => { x with stall := true }
  | e =>
    let m := s.markCell k c e
    match m.2 with
    | none => s
    | some p =>
      let f := poisonTaken (m.1.preview k) k c
      let used := (f.isSome && f != poisonTaken (s.preview k) k c) ||
        match e with | .badAcc w => (s.core k).pipeReads (s.edge k) w | _ => false
      m.1.logError p.1 used k p.2

/-- Whether an error can come with a context's next bundle; s is the state its cycle begins in. -/
def cellErrOk (s : State) (k : CoreId) (c : CtxId) (err : CellErr) : Bool :=
  match err with
  | .rebuilt ln => readsLine s k c ln && s.rebuildable k.toNat ln
  | .badSpm w => w < 0xC0000
  | .badAcc w => w < 0x40000
  | .badScalar r => r != 0
  | .badReg (.p r) => r != 0
  | .badReg (.m _ r) => r != 0
  | .badTarget => (targetWord s k c).isSome
  | .badEntry cl i => match ((s.core k).laq cl)[i]? with | some e => e.landed | none => false
  | .corrected w _ => w == .spm || w == .acc || w == .regs || w == .latch || w == .queue
  | _ => true

/-- BUNDLE_ISSUE: the core's cycle in which a context presents its bundle, with an error one of the core's arrays shows
in it (R37, R322). -/
def execBundleIssue (k : CoreId) (c : CtxId) (err : CellErr) (s : State) : Out :=
  let v := s.preview k
  enabledIf (cycleReady s k && (s.ctx k c).part.isNone && presentsIn v k c && cellErrOk v k c err)
    ((s.cellErr k c err).cycleBody k (s.edge k))

/-- BANK_CONFLICT_RETRY: the core's cycle in which a context presents the refused accesses again (R70). -/
def execBankConflictRetry (k : CoreId) (c : CtxId) (s : State) : Out :=
  enabledIf (cycleReady s k && (s.ctx k c).part.isSome && presentsIn (s.preview k) k c) (s.cycleBody k (s.edge k))

/-! ### Landings (R38, R39, R248) -/

/-- The lanes a landing may name: some of those in flight of a vector result, all of any other. -/
def landable (p : Pend) (lanes : BitVec 16) : Bool :=
  match p.dest with
  | .v _ _ | .m _ _ => lanes &&& p.lanes != 0
  | _ => true

/-- Result i of a context lands, in whole or in the lanes named. -/
def State.landOne (s : State) (k : CoreId) (c : CtxId) (i : Nat) (lanes : BitVec 16) : State :=
  match (s.ctx k c).pend[i]? with
  | none => s
  | some p =>
    let all := match p.dest with | .v _ _ | .m _ _ => lanes | _ => p.lanes
    let left := p.lanes &&& ~~~all
    (s.modCtx k c fun x =>
      { x with pend := if left = 0 then x.pend.eraseIdx i else lset x.pend i { p with lanes := left } }).landPend k c p all

/-- FIXED_LATENCY_LANDING. -/
def execFixedLatencyLanding (k : CoreId) (c : CtxId) (i : Nat) (lanes : BitVec 16) (s : State) : Out :=
  let x := s.ctx k c
  enabledIf (x.part.isNone && match x.pend[i]? with | some p => landable p lanes | none => false)
    (s.landOne k c i lanes)

/-- Scoreboarded result i of a context lands. -/
def State.landSbOne (s : State) (k : CoreId) (c : CtxId) (i : Nat) : State :=
  match (s.ctx k c).sbs[i]? with
  | none => s
  | some b => (s.modCtx k c fun x => { x with sbs := x.sbs.eraseIdx i }).landSb k c b

/-- SCOREBOARD_LANDING. -/
def execScoreboardLanding (k : CoreId) (c : CtxId) (i : Nat) (s : State) : Out :=
  let x := s.ctx k c
  enabledIf (x.part.isNone && match x.sbs[i]? with | some b => b.arrived | none => false) (s.landSbOne k c i)

/-- WAITGCC_WAKE (R160). -/
def execWaitgccWake (k : CoreId) (c : CtxId) (s : State) : Out :=
  enabledIf (match (s.ctx k c).waitGcc with | some v => v.toNat ≤ s.gcc.toNat | none => false)
    (s.modCtx k c fun x => { x with waitGcc := none })

/-! ### The clock (R20, R21) -/

/-- The ticks of a power window. -/
def windowTicks : Nat := 1050000

/-- Whether a power window ends in the present tick and has not been handled. -/
def windowDue (s : State) : Bool := s.gcc.toNat % windowTicks == 0 && s.window != s.gcc

/-- The temperature at which a die resets the module, in 1/16 °C (R347). -/
def tripTemp : Nat := 16 * 120

/-- Whether everything the present tick has brought has been done: every active core has used its die's edges, every
die's slot is the tick's (R90), a power window that ends has been handled, and
no die is hot enough to reset the module (R347). -/
def tickReady (s : State) : Bool :=
  (s.cores.all fun y => !y.2.active ||
      (decide (s.edge (BitVec.ofNat 7 y.1) ≤ y.2.cycle) && mxIdle (BitVec.ofNat 7 y.1) s)) &&
    ([(0 : DieId), 1, 2, 3].all fun d => (s.die d).slot == s.gcc.extractLsb' 6 6 && decide ((s.die d).temp < tripTemp)) &&
    !windowDue s

/-- A die's edge in a tick: one is removed in every 50 in stage 1, and in a sag too, from some tick within 50 of the sag on,
whether or not it has ended by then (R20, R347). -/
def Die.tick (d : Die) (lose : Bool) : Die × Bool :=
  if 49 ≤ d.sinceLoss && (d.stage != 0 || (d.sagTicks != 0 && (lose || 50 ≤ d.sagTicks))) then
    ({ d with sinceLoss := 0, sagTicks := if d.sag then 51 else 0 }, true)
  else
    ({ d with
       cycle := d.cycle + 1, sinceLoss := d.sinceLoss + 1, sagTicks := if d.sagTicks = 0 then 0 else d.sagTicks + 1 }, false)

/-- A tick of one die: an edge removed is counted (R348), and its temperature is measured (log 35). -/
def State.tickDie (s : State) (d : DieId) : State :=
  let r := (s.die d).tick (Config.freeBit s.freeCtr)
  let s1 := { s with freeCtr := s.freeCtr + 1 }.modDie d fun _ => { r.1 with temp := Config.freeNat s.freeCtr }
  if r.2 then s1.count (2048 + 4 * d.toNat + 2) 1 else s1

/-- GCC_TICK. -/
def State.tick (s : State) : State :=
  [(0 : DieId), 1, 2, 3].foldl State.tickDie { s with gcc := s.gcc + 1 }

def execGccTick (s : State) : Out := enabledIf (tickReady s) s.tick

end Sys2Proof.Machine
end

