-- ==== Sys2Proof/Machine/Fetch.lean ====
section
/-! DEFINITION. The order of a context's requests (R94), page-table walks (R310 to R313), fetch with its integrity check (R318, R319, R340, R341), and the check
of a segment (R341). -/
namespace Sys2Proof.Machine

/-! ### Order (R94) -/

/-- Whether two accesses touch a common byte. -/
def Req.meets (a b : Req) : Bool := a.pa < b.pa + b.len && b.pa < a.pa + a.len

/-- Whether a fence of the context orders access a before a later access b. DEDUCED (log 73): the accesses of the fence's own
bundle come before it. -/
def fenced (fs : List FenceRec) (a b : Req) : Bool :=
  fs.any fun f => a.pos ≤ f.pos && f.pos < b.pos && f.mask.getLsbD a.cls.toNat && f.mask.getLsbD b.cls.toNat

/-- Whether access a of a context is ordered before its access b, which was issued after it (R94). -/
def orderedBefore (fs : List FenceRec) (a b : Req) : Bool :=
  (a.cls == b.cls && a.pos < b.pos) || a.meets b || fenced fs a b ||
    (match b.rel with | some m => m.getLsbD a.cls.toNat | none => false) ||
    (match a.acq with | some m => m.getLsbD b.cls.toNat && a.pos < b.pos | none => false)

/-- Whether request i must wait for an earlier one of its context. -/
def reqBlocked (s : State) (i : Nat) (r : Req) : Bool :=
  (s.reqs.take i).any fun a =>
    a.core == r.core && a.ctx == r.ctx && orderedBefore (s.ctx r.core r.ctx).fences a r

/-- Whether a request's home is DRAM. -/
def Req.inDram (r : Req) : Bool := homeOf r.pa == .dram

/-! ### Walks (R313) -/

/-- The leaf translations a core's TLB holds. -/
def tlbSize : Nat := 2048
/-- Puts a leaf into a TLB; a full one loses an entry. -/
def tlbInsert (l : List Tlb) (e : Tlb) (f : Nat) : List Tlb :=
  if l.length < tlbSize then l ++ [e] else l.eraseIdx (f % l.length) ++ [e]

/-- The entries the walk of a page reads. -/
def State.walkWords (s : State) (k : CoreId) (va : Addr) : List Nat :=
  s.tableWords (s.core k).tenant (va.toNat / 65536 * 65536)

/-- The walk slots of a die that a share has: those of the tenant's entries, or those of no tenant's (R313). -/
def Die.walkSlots (x : Die) (sh : Option Tenant) : Nat :=
  let es := x.slots.filter fun v => v.2.getLsbD 4
  match sh with
  | some t => (es.filter fun v => v.2.extractLsb' 0 4 == t).length
  | none => 64 - es.length

/-- The outstanding walks of a share on a die that arrived before one. -/
def State.walksBefore (s : State) (d : DieId) (sh : Option Tenant) (seq : Nat) : Nat :=
  ((s.cores.filter fun y => dieOf (BitVec.ofNat 7 y.1) == d && s.shareOf d y.2.tenant == sh).flatMap fun y =>
    y.2.walks.filter fun w => match w.seq with | some n => n < seq | none => false).length

/-- Whether no request that a controller holds for the walk's share of a die it reads goes first (R80, R313). DEDUCED (log
75): a walk counts by the deadline of its first read, the tick in which it became outstanding. -/
def State.walkFirst (s : State) (t : Tenant) (ws : List Nat) (tick : Dword) (seq : Nat) : Bool :=
  ((List.range s.reqs.length).zip s.reqs).all fun ja =>
    let a := ja.2
    let d := dramDie a.pa
    !(a.inDram && ws.any (fun w => dramDie w == d) && s.shareOf d a.tenant == s.shareOf d t && !reqBlocked s ja.1 a) ||
      tick.toNat < a.deadline.toNat || (tick == a.deadline && seq < a.id)

/-- Whether the walk of an address's page is outstanding, has a slot of its die, its reads are served in its tenant's share,
and no request goes first (R80, R91, R313). -/
def walkReady (s : State) (k : CoreId) (va : Addr) : Bool :=
  let d := dieOf k
  let t := (s.core k).tenant
  let sh := s.shareOf d t
  (s.core k).walks.any fun w => w.page == va.toNat / 65536 &&
    (match w.seq with
     | some n => decide (s.walksBefore d sh n < (s.die d).walkSlots sh) && s.walkFirst t (s.walkWords k va) w.tick n
     | none => false) &&
    (s.walkWords k va).all (s.dramOpen (some t))

/-- The end of a walk: a leaf enters the TLB, which ends every walk of its page; a failure is kept for those who wait for
this walk, and for nobody else. -/
def State.endWalk (s : State) (k : CoreId) (va : Addr) : State :=
  let p := va.toNat / 65536
  match s.walk (s.core k).tenant (p * 65536) with
  | .ok e =>
    (s.free.2.modCore k fun x =>
      { x with
        walks := x.walks.filter fun w => !e.covers (w.page * 65536)
        tlb := tlbInsert x.tlb e (Config.freeNat s.freeCtr) }).startWalks k
  | .error d =>
    (s.modCore k fun x =>
      let us := (x.walks.filter (·.page == p)).flatMap (·.waiters)
      { x with
        walks := x.walks.filter (·.page != p)
        walkFail := if us.isEmpty then x.walkFail else ⟨p, d, us⟩ :: x.walkFail }).startWalks k

/-- TLB_WALK_COMPLETE. -/
def execTlbWalkComplete (k : CoreId) (va : Addr) (err : ReadErr) (s : State) : Out :=
  enabled (if walkReady s k va then (s.meet (some .walk) k (s.walkWords k va) err).map fun t => t.endWalk k va else none)

/-! ### Reading code -/

/-- The n bytes from va on, cut at 64 KiB pages: starts and lengths. -/
def pagePieces (va n : Nat) : List (Nat × Nat) :=
  (List.range ((va + n + 65535) / 65536 - va / 65536)).map fun i =>
    let a := max va ((va / 65536 + i) * 65536)
    (a, min (va + n) ((va / 65536 + i + 1) * 65536) - a)

/-- What a fetch of some bytes brings: where they lie, piece by piece. -/
inductive CodeRead
  | ok (at_ : List (Nat × Nat))
  | miss (pages : List Nat)
  | bad (f : FaultInfo)

/-- The first byte of a read that lies in a poisoned line: va is read at pa. -/
def State.firstPoison (s : State) (va pa n : Nat) : Option Nat :=
  ((List.range n).find? fun i => s.poisoned (pa + i) 1).map fun i => max va ((va + i) / 64 * 64)

/-- Translates the bytes of a fetch: translation, execute permission, then poison (R311, R312, R318, R323). The failing
byte is the first one, and of a poisoned line the first one read (R317, R353). -/
def State.fetchRead (s : State) (k : CoreId) (c : CtxId) (va n : Nat) : CodeRead :=
  let t := (s.core k).tenant
  let xs := (pagePieces va n).map fun p => (p, s.xlate k (ctxWaiter c) t p.1 .fetch)
  let bad := fun (q : Nat → Bool) => xs.find? fun x => match x.2 with | .bad _ kind => q kind | _ => false
  let miss := xs.filterMap fun x => match x.2 with | .miss p => some p | _ => none
  let fault := fun (x : (Nat × Nat) × Xl) => match x.2 with
    | .bad l kind => fetchFault 0xFF x.1.1 l kind
    | _ => fetchFault 0xFF x.1.1 0 0
  if !miss.isEmpty then .miss miss
  else
    match bad (· < 2) with
    | some x => .bad (fault x)
    | none =>
      match bad (2 ≤ ·) with
      | some x => .bad (fault x)
      | none =>
        match xs.findSome? fun x => s.firstPoison x.1.1 (s.cell (xlPa x.2)) x.1.2 with
        | some a => .bad { code := 0x0D, slot := 0xFF, detail := 4, va := BitVec.ofNat 48 a }
        | none => .ok (xs.map fun x => (s.cell (xlPa x.2), x.1.2))

/-- A fetch of a context, as the order of its reads sees it (R108). -/
def Ctx.fetches (x : Ctx) (k : CoreId) (c : CtxId) : Who :=
  { path := .code, core := k, ctx := c, launch := x.launch, cls := 0xFFFF, pos := x.pos, xfence := x.ifence }

/-- Reads the bytes of a fetch where they lie: each as a write left it that no write it must see has replaced (R108). -/
def State.fetchBytes (s : State) (w : Who) (at_ : List (Nat × Nat)) : List Byte × State :=
  at_.foldl (fun r p => let d := r.2.seeBytes w p.1 p.2; (r.1 ++ d.1, d.2)) ([], s)

/-- The initialisation vector of a code block (R340). -/
def blockIv (g : Seg) (blk : Nat) : BitVec 96 :=
  BitVec.ofNat 96 (g.segid.toNat + g.kgen.toNat * 2 ^ 32 + blk * 2 ^ 64)

/-- The 64-bit words that hold some bytes of a core's tenant, where their pages are in the TLB. -/
def State.codeWords (s : State) (k : CoreId) (c : CtxId) (va n : Nat) : List Nat :=
  (pagePieces va n).flatMap fun p =>
    match s.xlate k (ctxWaiter c) (s.core k).tenant p.1 .fetch with
    | .ok pa => wordsOf (s.cell pa) p.2
    | _ => []

/-- The words that hold a block of the context's code and its tag. -/
def State.blockWords (s : State) (k : CoreId) (c : CtxId) (blk : Nat) : List Nat :=
  let g := (s.ctx k c).seg
  let va := g.codeBase + 1024 * blk
  s.codeWords k c va (min 1024 (g.codeEnd - va)) ++ s.codeWords k c (g.codeEnd + 16 * blk) 16

/-- Whether a context waits for a block that lies in its code, its accesses before its last IFENCE have performed (R108), and
the DRAM ports serve its tenant. DESIGN CHOICE: a block is fetched once a bundle needs it, and never before (log 56). -/
def fetchReady (s : State) (k : CoreId) (c : CtxId) (blk : Nat) : Bool :=
  let x := s.ctx k c
  x.run == .running && x.segOk && x.fetchMiss.contains blk && blk < x.seg.blocks && s.performed x.iafter &&
    (s.blockWords k c blk).all (s.dramOpen (some (s.core k).tenant))

/-- A block arrives: it is translated, its tag is verified, and its bundles may issue; or its failure is kept for the
bundle that needs it. -/
def State.fetchBlock (s : State) (k : CoreId) (c : CtxId) (blk : Nat) : State :=
  let x := s.ctx k c
  let g := x.seg
  let va := g.codeBase + 1024 * blk
  let n := min 1024 (g.codeEnd - va)
  let fail := fun (t : State) (f : FaultInfo) => t.modCtx k c fun x =>
    { x with fetchMiss := x.fetchMiss.filter (· != blk), fetchFail := ains x.fetchFail blk f }
  let line := fun (f : FaultInfo) => if f.code = 0x0D then { f with va := f.va &&& ~~~63#48 } else f
  match s.fetchRead k c va n, s.fetchRead k c (g.codeEnd + 16 * blk) 16 with
  | .miss p, _ => s.askWalks k (ctxWaiter c) p
  | .bad f, _ => fail s (line f)
  | .ok _, .miss p => s.askWalks k (ctxWaiter c) p
  | .ok _, .bad f => fail s (if f.code = 0x0D then line f else { f with va := BitVec.ofNat 48 va })
  | .ok code, .ok tag =>
    let w := x.fetches k c
    let bs := s.fetchBytes w code
    let tg := bs.2.fetchBytes w tag
    match Config.gcmOpen (s.tenant (s.core k).tenant).codeKey (blockIv g blk) bs.1 (BitVec.ofNat 128 (leNat tg.1)) with
    | none => fail tg.2 { code := 0x06, slot := 0xFF, va := BitVec.ofNat 48 va }
    | some pt => tg.2.modCtx k c fun x =>
        { x with
          fetchMiss := x.fetchMiss.filter (· != blk)
          blocks := sinsert blk x.blocks
          code := wrBytes x.code va pt }

/-- A block is read and arrives. An uncorrectable error in it is consumed when the context's bundle then takes a fault 0x0D
that it would not take without (R324). -/
def State.fetchMeets (s : State) (k : CoreId) (c : CtxId) (blk : Nat) (err : ReadErr) : Option State :=
  let read := fun (used : Bool) => (s.meet (some .fetch) k (s.blockWords k c blk) err used).map fun t => t.fetchBlock k c blk
  let f := (read false).bind fun t => poisonTaken t k c
  read (f.isSome && f != poisonTaken (s.fetchBlock k c blk) k c)

/-- FETCH_COMPLETE. -/
def execFetchComplete (k : CoreId) (c : CtxId) (blk : BitVec 38) (err : ReadErr) (s : State) : Out :=
  enabled (if fetchReady s k c blk.toNat then s.fetchMeets k c blk.toNat err else none)

/-! ### The segment check (R341) -/

/-- Bytes of a tenant's virtual space, read by the module itself; none where they do not translate or the tenant may not
reach them. -/
def State.vread (s : State) (t : Tenant) (va n : Nat) : Option (List Byte) :=
  (pagePieces va n).foldl (fun acc p => acc.bind fun bs =>
    match s.walk t p.1 with
    | .ok e =>
      let pa := e.pa + p.1 % 2 ^ e.lg
      if s.reach t pa then some (bs ++ rdBytes s.mem (s.cell pa) p.2) else none
    | .error _ => none) (some [])

/-- A field of some bytes. -/
def bitsAt (bs : List Byte) (off w : Nat) : Nat := leNat ((bs.drop (off / 8)).take ((w + 7) / 8))

/-- The entries of a tenant's verified list. -/
def verifiedSize : Nat := 256

/-- Enters a segment on a verified list; the list keeps its latest entries. -/
def TenantSt.verify (x : TenantSt) (e : Word × Word × BitVec 384) : TenantSt :=
  { x with verified := (x.verified ++ [e]).drop ((x.verified.length + 1) - verifiedSize) }

/-- The check of the segment a context is about to execute: on the verified list, or signed by the tenant's key over the
bytes that are there. -/
def State.checkSegment (s : State) (k : CoreId) (c : CtxId) : State :=
  let x := s.ctx k c
  let g := x.seg
  let t := (s.core k).tenant
  let ten := s.tenant t
  let bad := s.modCtx k c fun x => { x with segFail := true }
  match s.vread t (g.va.toNat + g.sigOff) 1024 with
  | none => bad
  | some sb =>
    let id : Word := BitVec.ofNat 32 (bitsAt sb 32 32)
    let kg : Word := BitVec.ofNat 32 (bitsAt sb 64 32)
    let dg : BitVec 384 := BitVec.ofNat 384 (bitsAt sb 512 384)
    let pass := fun (u : State) => u.modCtx k c fun x => { x with segOk := true, seg := { x.seg with segid := id, kgen := kg } }
    if ten.verified.contains (id, kg, dg) then pass s
    else
      match s.vread t g.va.toNat g.sigOff with
      | none => bad
      | some bs =>
        let pub : BitVec 768 := BitVec.ofNat 768 (bitsAt sb 896 768)
        let sig : BitVec 768 := BitVec.ofNat 768 (bitsAt sb 1664 768)
        if Config.sha384 (leBytes 96 pub.toNat) == ten.signHash && Config.ecdsaVerifyDigest pub sig dg &&
            Config.sha384 bs == dg then
          pass (s.modTenant t fun y => y.verify (id, kg, dg))
        else bad

/-- The words that n bytes of a tenant's virtual space lie in. -/
def State.vwords (s : State) (t : Tenant) (va n : Nat) : List Nat :=
  (pagePieces va n).flatMap fun p => match s.walk t p.1 with | .ok e => wordsOf (s.cell (e.pa + p.1 % 2 ^ e.lg)) p.2 | .error _ => []

/-- The table entries that the module reads to find n bytes of a tenant's virtual space. -/
def State.vtables (s : State) (t : Tenant) (va n : Nat) : List Nat := (pagePieces va n).flatMap fun p => s.tableWords t p.1

/-- The words a segment check reads: the signature block's, then the segment's. -/
def State.segWords (s : State) (k : CoreId) (c : CtxId) : List Nat :=
  let g := (s.ctx k c).seg
  let t := (s.core k).tenant
  s.vwords t (g.va.toNat + g.sigOff) 1024 ++ s.vwords t g.va.toNat g.sigOff

/-- The table entries that a segment check reads. -/
def State.segTables (s : State) (k : CoreId) (c : CtxId) : List Nat :=
  let g := (s.ctx k c).seg
  let t := (s.core k).tenant
  s.vtables t (g.va.toNat + g.sigOff) 1024 ++ s.vtables t g.va.toNat g.sigOff

/-- Whether a running context's segment still has to be checked, and the DRAM ports serve its tenant (R91). -/
def checkReady (s : State) (k : CoreId) (c : CtxId) : Bool :=
  let x := s.ctx k c
  x.run == .running && !x.segOk && !x.segFail &&
    (s.segTables k c ++ s.segWords k c).all (s.dramOpen (some (s.core k).tenant))

/-- SEGMENT_CHECK. -/
def execSegmentCheck (k : CoreId) (c : CtxId) (s : State) : Out :=
  enabledIf (checkReady s k c)
    (((s.meetNext (some .walk) k (s.segTables k c)).meetNext (some .fetch) k (s.segWords k c)).checkSegment k c)

end Sys2Proof.Machine
end

