-- ==== Sys2Proof/Machine/Memory.lean ====
section
/-! DEFINITION. Global accesses at their homes (R77, R80, R92 to R96, R211 to R217), pushed lines (R81, R82), spills and
fills (R139), and barriers (R158). -/
namespace Sys2Proof.Machine

/-! ### Deadlines (R80, R90) -/

/-- Whether no request that a controller holds for the same share of a die's ports goes first: earlier deadlines go first,
equal ones in order of arrival (R80, R90, R91). -/
def deadlineFirst (s : State) (i : Nat) (r : Req) : Bool :=
  let d := dramDie r.pa
  ((List.range s.reqs.length).zip s.reqs).all fun ja =>
    let a := ja.2
    !(a.inDram && dramDie a.pa == d && s.shareOf d a.tenant == s.shareOf d r.tenant && !reqBlocked s ja.1 a) ||
      r.deadline.toNat < a.deadline.toNat || (r.deadline == a.deadline && i ≤ ja.1)

/-! ### Performing -/

/-- The word an AMO leaves, and its flags (R216). -/
def amoNew (kind : BitVec 4) (old op : Word) : Word × Byte :=
  match kind.toNat with
  | 0 => (old + op, 0)
  | 1 => accumulate true old op
  | 2 => (if old.toInt ≤ op.toInt then old else op, 0)
  | 3 => (if old.toInt ≤ op.toInt then op else old, 0)
  | 4 => (if old.toNat ≤ op.toNat then old else op, 0)
  | 5 => (if old.toNat ≤ op.toNat then op else old, 0)
  | 6 => (old &&& op, 0)
  | 7 => (old ||| op, 0)
  | 8 => (old ^^^ op, 0)
  | _ => (op, 0)

/-- The scalar result of a request reaches its context. -/
def State.answer (s : State) (r : Req) (v : Dword) (poison : Bool) (flags : Byte) : State :=
  s.modCtx r.core r.ctx fun x => x.arrive r.id (v.setWidth 512) (if poison then 1 else 0) flags (r.va &&& ~~~63#48)

/-- A request as the order of accesses sees it (R92). -/
def Req.who (r : Req) : Who :=
  { path := .glob, core := r.core, ctx := r.ctx, launch := r.launch, cls := clsBit r.cls, pos := r.pos }

/-- A pushed line reaches its queue's core. -/
def State.bringLine (s : State) (r : Req) (q : Cl) (l : Line) (poison : Bool) : State :=
  s.modCore r.core fun x =>
    { x with laqs := ains x.laqs q.toNat (lmodFirst (fun e => e.id == r.id)
        (fun e => { e with line := some l, poison := poison }) (x.laq q)) }

/-- Later requests of the same store op have the op's one landing record behind them (R75). -/
def State.markRecord (s : State) (r : Req) : State :=
  { s with reqs := s.reqs.map fun a =>
      if a.core == r.core && a.ctx == r.ctx && a.pos == r.pos && a.id != r.id then { a with record := true } else a }

/-- A store performs at its home; into a scratchpad it is a landing (R74, R213). -/
def State.storeAt (s : State) (r : Req) (bs : List Byte) : State :=
  match homeOf r.pa with
  | .spm k off =>
    let w := s.landSpm r.who (BitVec.ofNat 7 k) off bs r.record
    if w.2.2 then w.1.markRecord r else w.1
  | .peer _ _ => if Config.freeBit s.freeCtr then s.free.2 else s.free.2.writeBy r.who (s.cell r.pa) bs
  | _ => s.writeBy r.who r.pa bs

/-- A read's bytes, in units of w bytes each indivisible (R93), and whether they are poisoned; a peer may refuse a read
(R333). -/
def State.readAt (s : State) (r : Req) (w : Nat) : List Byte × Bool × State :=
  let d := s.seeLanes r.who w (s.cell r.pa) r.len
  match homeOf r.pa with
  | .peer _ _ => (d.1, Config.freeBit d.2.freeCtr, d.2.free.2)
  | _ => (d.1, s.poisoned r.pa r.len, d.2)

/-- A recorded read of a traced launch (R229). -/
def State.traceReq (s : State) (r : Req) : State :=
  if r.record then s.noteRead r.launch r.unit r.pa r.len else s

/-- The releases that an acquire of a request synchronises with, of those whose sequences hold the value it read
(R95, R96). -/
def State.synced (s : State) (r : Req) (hs : List Nat) : List Nat :=
  if r.acq.isSome then hs.filter fun n => s.rels.any fun x => x.id == n && x.syncs r.who r.scope else []

/-- A request that acquires has read a value of some releases' sequences. -/
def State.acquired (s : State) (r : Req) (hs : List Nat) : State :=
  match r.acq with
  | some m => s.acquire r.who r.scope m hs r.id
  | none => s

/-- A write of an accumulator-store word at its home: it heads a release's sequence if it releases (R96). What happened
before the releases it synchronised with happens before it too. -/
def State.storeWord (s : State) (r : Req) (w : Word) (rmw : Bool) (hs : List Nat) : State :=
  match r.rel with
  | some m =>
    let ok := s.synced r hs
    (s.release r.who r.scope r.pa w fun e =>
      e.limsAt r.who m r.pa r.len ++
        e.know.filterMap fun t => match t.dest with | .rel n => if ok.contains n then some t.lims else none | _ => none).2.writeBy
      r.who r.pa (leBytes 4 w.toNat) rmw
  | none => s.writeBy r.who r.pa (leBytes 4 w.toNat) rmw

/-- A read-modify-write of an accumulator-store word: it reads the word's latest value, whatever that is (R77), and
writes another if f gives one. -/
def State.rmw (s : State) (r : Req) (f : Word → Option Word × Byte) : State :=
  let old := rdWord s.mem r.pa
  let hs := aget s.heads r.pa []
  let n := f old
  let s1 := (s.answer r (old.setWidth 64) (s.poisoned r.pa 4) n.2).acquired r hs
  match n.1 with
  | some w => s1.storeWord r w true hs
  | none => s1

/-- What a request does at its home. DESIGN CHOICE (log 71): a pushed line is read byte by byte, for the spec names no access
of 64 bytes among the indivisible ones (R93). -/
def State.act (s : State) (r : Req) : State :=
  match r.kind with
  | .line q =>
    let d := s.readAt r 1
    (d.2.2.bringLine r q (BitVec.ofNat 512 (leNat d.1)) d.2.1).traceReq r
  | .load n sx =>
    let d := s.readAt r n
    (d.2.2.answer r (extend n sx (leNat d.1)) d.2.1 0).traceReq r
  | .store bs => s.storeAt r bs
  | .ldacq =>
    let d := s.seeWord r.who r.pa
    (d.2.2.answer r (d.1.setWidth 64) (s.poisoned r.pa 4) 0).acquired r d.2.1
  | .strel w => s.storeWord r w false []
  | .amo kind op => s.rmw r fun old => let n := amoNew kind old op; (some n.1, n.2)
  | .cas exp new => s.rmw r fun old => (if old == exp then some new else none, 0)

/-- A request performs: what happens before it happens before its context's later accesses of its class, and of those its
acquire or its release orders (R94, R97). -/
def State.perform (s : State) (r : Req) : State :=
  (s.act r).passOn r.who (clsBit r.cls ||| r.acq.getD 0) (some r.id) fun e =>
    (if r.acq.isSome && e.who == r.who then [[]] else []) ++ e.limsAt r.who (r.rel.getD 0) r.pa r.len

/-- Request i leaves the list and performs. -/
def State.performAt (s : State) (i : Nat) : State :=
  match s.reqs[i]? with
  | none => s
  | some r => ({ s with reqs := s.reqs.eraseIdx i }.engTake (spmLines r.pa r.len)).perform r

/-- Whether a memory controller may serve request i. -/
def serveReady (s : State) (i : Nat) : Bool :=
  match s.reqs[i]? with
  | some r =>
    r.inDram && !reqBlocked s i r && deadlineFirst s i r &&
      (match r.kind with | .store _ => s.storeOpen (some r.tenant) r.pa | _ => s.dramOpen (some r.tenant) r.pa)
  | none => false

/-- The 64-bit words that a request reads at its home. -/
def Req.words (r : Req) : List Nat :=
  match r.kind with
  | .store _ | .strel _ => []
  | _ => wordsOf r.pa r.len

/-- Request i performs; an error its read meets is found first (R322). -/
def State.serve (s : State) (i : Nat) (err : ReadErr) : Option State :=
  s.reqs[i]?.bind fun r => (s.meet none r.core r.words err).map fun t => t.performAt i

/-- MEM_REQUEST_SERVICE: DRAM requests. -/
def execMemRequestService (i : Nat) (err : ReadErr) (s : State) : Out :=
  enabled (if serveReady s i then s.serve i err else none)

/-- Whether request i may perform at a home other than DRAM: in a scratchpad, in the engine phase of its core (R19). -/
def homeReady (s : State) (i : Nat) : Bool :=
  match s.reqs[i]? with
  | some r => !r.inDram && !reqBlocked s i r && s.engOk (spmLines r.pa r.len)
  | none => false

/-- GLOBAL_ACCESS_PERFORM: requests to core windows, host and peers. -/
def execGlobalAccessPerform (i : Nat) (err : ReadErr) (s : State) : Out :=
  enabled (if homeReady s i then s.serve i err else none)

/-! ### Load-data queues (R81, R82, R165) -/

/-- The entry of a queue whose line may land. -/
def landReady (s : State) (k : CoreId) (q : Cl) (i : Nat) : Bool :=
  match ((s.core k).laq q)[i]? with
  | some e => e.line.isSome && !e.landed
  | none => false

/-- A line lands in its entry, perhaps with an uncorrectable error, which is logged (R82, R324). -/
def State.landLine (s : State) (k : CoreId) (q : Cl) (i : Nat) (ue : Bool) : State :=
  let es := (s.core k).laq q
  match es[i]? with
  | none => s
  | some e =>
    let s1 := s.modCore k fun x =>
      { x with laqs := ains x.laqs q.toNat (lset es i { e with landed := true, poison := e.poison || ue }) }
    if ue && !e.poison then s1.logError .queue false k e.pa else s1

/-- LOAD_LINE_LANDS. -/
def execLoadLineLands (k : CoreId) (q : Cl) (i : Nat) (ue : Bool) (s : State) : Out :=
  enabledIf (landReady s k q i) (s.landLine k q i ue)

/-- LAQ_ENTRY_FREE: a line that no run will pop gives its entry back (R165). -/
def execLaqEntryFree (k : CoreId) (q : Cl) (s : State) : Out :=
  let gone := fun (e : LaqEntry) => e.dropped && e.landed
  enabledIf (((s.core k).laq q).any gone)
    (s.modCore k fun x => { x with laqs := ains x.laqs q.toNat (ldelFirst gone (x.laq q)) })

/-! ### Spills and fills (R139, R140) -/

/-- The physical entries a transfer moves. -/
def xferPhys (lo hi : Nat) : List Nat := (xferEntries lo hi).map fun j => 16 + j % 256

/-- The entries between two BOTs. -/
def xferRange (x : Ctx) (bot : Nat) : Nat × Nat := if x.bot.toNat ≤ bot then (x.bot.toNat, bot) else (bot, x.bot.toNat)

/-- Where a transfer's entries lie in memory. -/
def State.xferCells (s : State) (k : CoreId) (c : CtxId) (spill : Bool) (js : List Nat) : List Nat :=
  js.filterMap fun j =>
    match s.xlate k (ctxWaiter c) (s.core k).tenant ((s.ctx k c).bsaBase + 8 * j) (if spill then .write else .read) with
    | .ok pa => some (s.cell pa)
    | _ => none

/-- The words a context's transfer reads: those of a fill. -/
def State.xferWords (s : State) (k : CoreId) (c : CtxId) : List Nat :=
  let x := s.ctx k c
  match x.xfer with
  | some (false, bot) => let r := xferRange x bot; s.xferCells k c false (xferEntries r.1 r.2)
  | _ => []

/-- Whether every outstanding landing into the affected entries has been made, and the places the entries go to or come
from serve the context. -/
def xferReady (s : State) (k : CoreId) (c : CtxId) : Bool :=
  let x := s.ctx k c
  match x.xfer with
  | some (spill, bot) =>
    let r := xferRange x bot
    let es := xferPhys r.1 r.2
    let ps := s.xferCells k c spill (xferEntries r.1 r.2)
    s.engOk (ps.flatMap fun p => spmLines p 8) && ps.all (if spill then s.storeOpen (some (s.core k).tenant) else s.dramOpen (some (s.core k).tenant)) &&
      !(x.pend.any fun p => match p.dest with | .s e => es.contains e | _ => false) &&
      !(x.sbs.any fun b => match b.dest with | .s e => es.contains e | _ => false)
  | none => false

/-- A spill or fill of a context, which carries no class (R139). -/
def Ctx.xferWho (x : Ctx) (k : CoreId) (c : CtxId) : Who :=
  { path := .glob, core := k, ctx := c, launch := x.launch, pos := x.pos }

/-- Moves one entry of the window to or from the backing store. DEDUCED (log 57): the store takes the plain value of a
poisoned scalar. DEDUCED (log 58): each entry that a set in-use bit drops is a landing operation of its own (R75). -/
def State.moveEntry (k : CoreId) (c : CtxId) (spill : Bool) (s : State) (j : Nat) : State :=
  let x := s.ctx k c
  let va := x.bsaBase + 8 * j
  let e := 16 + j % 256
  let w := x.xferWho k c
  match s.xlate k (ctxWaiter c) (s.core k).tenant va (if spill then .write else .read) with
  | .ok pa =>
    if spill then
      let bs := leBytes 8 (aget x.scal e 0).toNat
      match homeOf pa with
      | .spm d off => (s.landSpm w (BitVec.ofNat 7 d) off bs false).1
      | _ => s.writeBy w (s.cell pa) bs
    else
      let d := s.see w (s.cell pa) 8
      d.2.land k c (.s e) (BitVec.ofNat 512 (leNat d.1)) 0xFFFF (if s.poisoned (s.cell pa) 8 then 1 else 0)
  | _ => s

/-- The transfer: every entry moves and BOT follows; when an address no longer translates, the CALL or RET is presented
again and finds it. DEDUCED (log 57): all addresses are checked before any entry moves, so a transfer that fails has copied
none (R140). -/
def State.doXfer (s : State) (k : CoreId) (c : CtxId) : State :=
  let x := s.ctx k c
  match x.xfer with
  | none => s
  | some (spill, bot) =>
    let r := xferRange x bot
    let js := xferEntries r.1 r.2
    let s0 := { s with cur := (k, c) }
    match xferCheck s0 x (if spill then .write else .read) js with
    | .ok => 
        let ls := (s.xferCells k c spill js).flatMap fun p => spmLines p 8
        (js.foldl (State.moveEntry k c spill) (s.engTake ls)).modCtx k c fun x =>
          { x with xfer := none, bot := BitVec.ofNat 32 bot }
    | .miss pages => s.askWalks k (ctxWaiter c) pages
    | _ => s.modCtx k c fun x => { x with xfer := none }

/-- SPILL_FILL_COMPLETE. -/
def execSpillFillComplete (k : CoreId) (c : CtxId) (s : State) : Out :=
  enabledIf (xferReady s k c) ((s.meetNext none k (s.xferWords k c)).doXfer k c)

/-! ### Barriers (R41, R158, R254) -/

/-- The saved context of a launch's member, if it is saved. -/
def State.savedAs (s : State) (k : CoreId) (c : CtxId) (lid : Word) : Option Save :=
  s.saves.find? fun v => v.core == k && v.ctx == c && v.launch == lid

/-- The context of a member as it stands: live, or as saved. -/
def State.memberCtx (s : State) (lid : Word) (m : Nat × Nat) : Ctx :=
  let k : CoreId := BitVec.ofNat 7 m.1
  let c : CtxId := BitVec.ofNat 2 m.2
  match s.savedAs k c lid with
  | some v => v.snap
  | none => s.ctx k c

/-- Whether an access is a remote write or a remote atomic. -/
def Req.isWrite (r : Req) : Bool :=
  match r.kind with
  | .store _ | .ldacq | .strel _ | .amo _ _ | .cas _ _ => true
  | _ => false

/-- Whether a member has no copy, remote write or remote atomic outstanding. -/
def State.memberQuiet (s : State) (lid : Word) (m : Nat × Nat) : Bool :=
  let k : CoreId := BitVec.ofNat 7 m.1
  let c : CtxId := BitVec.ofNat 2 m.2
  let mine := fun (q : CopyCmd) => q.ctx == c && q.launch == lid
  !((s.core k).chans.any fun ch => ch.2.queue.any mine || (match ch.2.run with | some r => mine r.cmd | none => false)) &&
    !(s.reqs.any fun r => r.core == k && r.ctx == c && r.launch == lid && r.isWrite) &&
    (match s.savedAs k c lid with | some v => v.cmds.isEmpty | none => true)

/-- The members of a launch in the domain of core k. -/
def State.barMembers (s : State) (lid : Word) (sc : Scope) (k : CoreId) : List (Nat × Nat) :=
  match s.launch lid with
  | some l => l.members.filter fun m => sameDomain sc k (BitVec.ofNat 7 m.1)
  | none => []

/-- The instances that members of a set wait for. -/
def State.barWaits (s : State) (lid : Word) (sc : Scope) (ms : List (Nat × Nat)) : List Nat :=
  ms.filterMap fun m => match (s.memberCtx lid m).barWait with | some (t, n) => if t == sc then some n else none | none => none

/-- The instance that can complete: every member has arrived at it or halted, and every member's writes are done. A
member whose context now runs another launch had halted. -/
def State.barInstance (s : State) (lid : Word) (sc : Scope) (k : CoreId) : Option Nat :=
  let ms := s.barMembers lid sc k
  (s.barWaits lid sc ms).find? fun n => ms.all fun m =>
    let x := s.memberCtx lid m
    (x.launch != lid || x.run == .halted || n ≤ aget x.barCount (scopeNum sc) 0) && s.memberQuiet lid m

/-- Frees the members that wait for an instance; a saved member is freed in its record. -/
def State.barFree (s : State) (lid : Word) (sc : Scope) (k : CoreId) (n : Nat) : State :=
  let free := fun (x : Ctx) => if x.barWait == some (sc, n) then { x with barWait := none } else x
  let s1 := { s with saves := s.saves.map fun v =>
    if v.launch == lid && sameDomain sc k v.core then { v with snap := free v.snap } else v }
  (s.barMembers lid sc k).foldl (fun t m =>
    t.modCtx (BitVec.ofNat 7 m.1) (BitVec.ofNat 2 m.2) fun x => if x.launch == lid then free x else x) s1

/-- The members of a launch in the domain of core k that are still its, each with its place. -/
def State.barPlaces (s : State) (lid : Word) (sc : Scope) (k : CoreId) : List (CoreId × CtxId × Nat) :=
  (s.barMembers lid sc k).filterMap fun m =>
    let x := s.memberCtx lid m
    if x.launch == lid then some (BitVec.ofNat 7 m.1, BitVec.ofNat 2 m.2, x.pos) else none

/-- BARRIER_COMPLETE: what the members did before their BARs happens before what they do after them, and they go on. -/
def execBarrierComplete (lid : Word) (sc : Scope) (k : CoreId) (s : State) : Out :=
  match s.barInstance lid sc k with
  | some n => enabledIf (s.coResident lid) ((s.meetAt sc (s.barPlaces lid sc k)).barFree lid sc k n)
  | none => .fault .notEnabled

end Sys2Proof.Machine
end

