-- ==== Sys2Proof/Machine/Sched.lean ====
section
/-! DEFINITION. The launch schedulers (R25 to R42, R227 to R233, R288 to R294, R307 to R309, R353). -/
namespace Sys2Proof.Machine

/-! ### Launch records (R26) -/

def recSeg (r : Line) : Nat := (r.extractLsb' 0 48).toNat
def recEntry (r : Line) : Nat := (r.extractLsb' 48 8).toNat
def recParam (r : Line) : Nat := (r.extractLsb' 64 48).toNat
def recPrio (r : Line) : Nat := (r.extractLsb' 112 3).toNat
/-- Contexts per core. -/
def recCtxs (r : Line) : Nat := (r.extractLsb' 115 2).toNat + 1
def recCores (r : Line) : Bool := r.getLsbD 117
def recPers (r : Line) : Bool := r.getLsbD 118
def recTrace (r : Line) : Bool := r.getLsbD 119
def recW (r : Line) : Nat := (r.extractLsb' 128 32).toNat
/-- The X extent. -/
def recX (r : Line) : Nat := (r.extractLsb' 160 16).toNat + 1
/-- The cluster mask of context i. -/
def recMask (r : Line) (i : Nat) : Byte := r.extractLsb' (192 + 8 * i) 8
def recDonew (r : Line) : BitVec 26 := r.extractLsb' 224 26
/-- The cores of CSET, ascending. -/
def recCset (r : Line) : List Nat := (List.range 128).filter fun k => r.getLsbD (256 + k)
def recTbuf (r : Line) : Nat := (r.extractLsb' 384 48).toNat
/-- The valid predecessors' words. -/
def recPreds (r : Line) : List (BitVec 26) :=
  (if r.getLsbD 479 then [r.extractLsb' 448 26] else []) ++ (if r.getLsbD 511 then [r.extractLsb' 480 26] else [])

/-- Whether a reserved field is nonzero (R28). -/
def recReserved (r : Line) : Bool :=
  [(56, 8), (120, 8), (176, 16), (250, 6), (432, 16), (474, 5), (506, 5)].any fun f =>
    (r.toNat >>> f.1) % 2 ^ f.2 != 0

/-- Whether the cluster masks break R28. -/
def recMasksBad (r : Line) : Bool :=
  let n := recCtxs r
  ((List.range n).any fun i => (List.range i).any fun j => recMask r i &&& recMask r j != 0) ||
    ((List.range 4).any fun i => n ≤ i && recMask r i != 0)

/-- Whether tenant t owns a core. -/
def State.ownsCore (s : State) (t : Tenant) (k : CoreId) : Bool := (s.core k).v && (s.core k).tenant == t

/-- Whether stamping is enabled and SC has room for a launch or pass (R307, R308). -/
def State.traceUsable (s : State) : Bool := s.stampOn && s.sc.toNat ≤ 0xFFFFFFFC

/-- The checks of R28, with those of R232 and R307; 0 when all pass. -/
def State.recordCheck (s : State) (t : Tenant) (r : Line) (pass : Bool) : Byte :=
  let bad := recReserved r || recMasksBad r || (recCset r).isEmpty ||
    ((recCset r).any fun k => !s.ownsCore t (BitVec.ofNat 7 k)) ||
    (recTrace r && (recTbuf r == 0 || recTbuf r % 4096 != 0)) ||
    ((recPreds r).any fun w => !s.ownsCore t (tailCore w)) ||
    (pass && !recTrace r) || ((pass || recTrace r) && !s.traceUsable)
  if bad then 0x05
  else if 2 ^ 24 < recW r || (recCores r && !recPers r && recCtxs r * (recCset r).length < recW r) then 0x03
  else if 65536 < (recW r + recX r - 1) / recX r then 0x04
  else 0

/-! ### Status words (R27, R29, R233) -/

/-- Whether a status is a success. -/
def isSuccess (st : Byte) : Bool := st == 0x01 || st == 0x02

/-- The core of an accumulator-store address. -/
def accCore (pa : Nat) : CoreId := match homeOf pa with | .acc k _ => BitVec.ofNat 7 k | _ => 0

/-- The key of a tenant's launch record. -/
def passKey (t : Tenant) (va : Addr) : Nat := t.toNat * 2 ^ 48 + va.toNat

/-- The contexts a launch was started on that still run it, each with its place. -/
def State.places (s : State) (l : Launch) : List (CoreId × CtxId × Nat) :=
  l.members.filterMap fun m =>
    let k : CoreId := BitVec.ofNat 7 m.1
    let c : CtxId := BitVec.ofNat 2 m.2
    if (s.ctx k c).launch == l.id then some (k, c, (s.ctx k c).pos) else none

/-- Writes a word as the release of all that a launch did (R29, R107). -/
def State.publishFor (s : State) (l : Launch) (pa : Nat) (w : Word) : State :=
  let old := if l.pass.isSome then aget s.passRels (passKey l.tenant l.recordVa) [] else []
  { s.publish pa w (fun e => e.limsOf l.id (s.places l)) with
    passRels := ains s.passRels (passKey l.tenant l.recordVa) (s.pastCtr :: old) }

/-- The completion word of a launch: not written where its core has changed owner, which counts as a failure (R29). -/
def State.writeDone (s : State) (l : Launch) (w : Word) : State :=
  let pa := tailPa (recDonew l.record)
  if l.doneLost || !s.ownsCore l.tenant (tailCore (recDonew l.record)) then
    { s with lostWords := (pa, l.tenant) :: s.lostWords }
  else s.publishFor l pa w

/-- The two status words of a pass, word 1 first, while their core is the tenant's (R233). -/
def State.writePass (s : State) (l : Launch) (at_ : StatusAt) (w0 w1 : Word) : State :=
  match at_.pa with
  | some pa => if s.ownsCore l.tenant (accCore pa) then (s.writeWord (pa + 4) w1).publishFor l pa w0 else s
  | none => s

/-- The completion word of a launch, or the status words of a pass. -/
def State.writeStatus (s : State) (l : Launch) (st : Byte) (nflt : Nat) (again : Bool) (nsel : Nat) : State :=
  match l.pass with
  | none => s.writeDone l (BitVec.ofNat 32 (st.toNat + min nflt 0xFFFF * 2 ^ 16))
  | some at_ =>
    s.writePass l at_ (BitVec.ofNat 32 (st.toNat + (if again then 256 else 0) + l.passNo.toNat * 2 ^ 16)) (BitVec.ofNat 32 nsel)

/-- Removes a launch from the pending ones. -/
def State.dropLaunch (s : State) (id : Word) : State := { s with launches := s.launches.filter fun l => l.id != id }

/-! ### Taking a record (R28, R289, R290, R292) -/

/-- The number of a tenant's pending records that a die keeps. -/
def pendingOn (s : State) (d : DieId) (t : Tenant) : Nat :=
  (s.launches.filter fun l => l.die == d && l.tenant == t).length

/-- Whether a queue has something for the scheduler. -/
def State.queueHas (s : State) (q : Queue) : Bool := q.en && !q.err && s.qtail q != q.head

/-- The queue visited next: the first with entries, from the round-robin mark on (R292). -/
def visitNext (s : State) (d : DieId) (t : Tenant) : Option (BitVec 4) :=
  let m := aget (s.die d).rr t.toNat 0
  ((List.range 16).map fun i => BitVec.ofNat 4 (m + i)).find? fun q => s.queueHas (s.queue d t q)

/-- A new pending record. -/
def newLaunch (s : State) (d : DieId) (t : Tenant) (q : BitVec 4) (va : Addr) (r : Line) (pass : Option StatusAt) : Launch where
  id := s.nextLaunch
  die := d
  tenant := t
  queue := q
  recordVa := va
  record := r
  pass := pass
  passNo := 0
  phase := .waiting
  started := false
  status := 0
  faulted := []
  predLost := 0
  doneLost := false
  next := 0
  sel := none
  members := []
  startedCores := []
  dealStop := []
  tick := 0
  p := 0
  reads := []
  readsAll := []
  unattr := false
  holding := []
  finished := []
  lastDie := d + 3
  dealTick := 0
  dealBase := d
  dealKey := 0
  badSave := false

/-- A record that ends at once: its status is written and nothing runs. The number of a pass that ends before it reads
its trace is not stated: it is a free value. -/
def State.endAtOnce (s : State) (l : Launch) (st : Byte) : State :=
  match l.pass with
  | none => s.writeStatus l st 0 false 0
  | some _ =>
    let l1 := { l with passNo := BitVec.ofNat 16 (Config.freeNat s.freeCtr) }
    { s with freeCtr := s.freeCtr + 1 }.writeStatus l1 st 0 false 0

/-- The places at which a record names a word: as its first or second predecessor's, or, of a pass, as its launch's. -/
def Launch.naming (l : Launch) (pa : Nat) : BitVec 3 :=
  let r := l.record
  (if r.getLsbD 479 && tailPa (r.extractLsb' 448 26) == pa then 1 else 0) |||
    (if r.getLsbD 511 && tailPa (r.extractLsb' 480 26) == pa then 2 else 0) |||
    (if l.pass.isSome && tailPa (recDonew r) == pa then 4 else 0)

/-- A launch that is taken makes its completion word new: what an earlier launch's loss or passes left no longer counts, but
for the records taken before it that name the word (R27, R29). -/
def State.newWord (s : State) (l : Launch) : State :=
  let pa := tailPa (recDonew l.record)
  if l.pass.isSome then s
  else
    { s with
      launches := if s.lostWords.contains (pa, l.tenant) then
          s.launches.map fun m => if m.tenant == l.tenant then { m with predLost := m.predLost ||| m.naming pa } else m
        else s.launches
      lostWords := s.lostWords.filter fun w => w != (tailPa (recDonew l.record), l.tenant)
      passRels := adel s.passRels (passKey l.tenant l.recordVa) }

/-- The releases of a queue's tail that come before all accesses of the launch whose entry is at the head: those whose
sequences hold the tail that is read, and the release that first covered the entry (R107, R109). -/
def State.tailReleases (s : State) (y : Queue) : List Nat :=
  let z := tailPa y.tailw
  let covers := fun (r : Rel) => let n := (r.val - y.head).toNat; 0 < n && n ≤ 2 ^ y.log2n.toNat
  let first := ((s.rels.filter (·.word == z)).takeWhile covers).getLast?
  aget s.heads z [] ++ (first.map (·.id)).toList

/-- The scheduler takes the head entry of a queue: it stops the queue, writes a rejection, or keeps the record. Its read of
the tail is an acquire, after which all accesses of the launch come (R107, R109). -/
def State.takeEntry (s : State) (d : DieId) (t : Tenant) (q : BitVec 4) : State :=
  let y := s.queue d t q
  let s0 := s.modDie d fun x => { x with rr := ains x.rr t.toNat ((q.toNat + 1) % 16) }
  let stop := s0.modQueue d t q fun y => { y with err := true }
  if 2 ^ y.log2n.toNat < (s.qtail y - y.head).toNat then stop
  else
    match s.vread t (y.base.toNat + 8 * (y.head.toNat % 2 ^ y.log2n.toNat)) 8 with
    | none => stop
    | some eb =>
      let e := leNat eb
      if 2 ^ 48 ≤ e || e % 64 != 0 then stop
      else
        match s.vread t e 64 with
        | none => stop
        | some rb =>
          let r : Line := BitVec.ofNat 512 (leNat rb)
          if !s.ownsCore t (tailCore (recDonew r)) then stop
          else
            let pass := if ahas y.passes y.head.toNat then some (aget y.passes y.head.toNat ⟨0, none⟩) else none
            let l := newLaunch s d t q (BitVec.ofNat 48 e) r pass
            let s1 := ((({ s0 with nextLaunch := s.nextLaunch + 1 }).newWord l).launchAfter l.id
              (s.tailReleases y)).modQueue d t q fun y => { y with head := y.head + 1, passes := adel y.passes y.head.toNat }
            let st := s.recordCheck t r pass.isSome
            if st != 0 then s1.endAtOnce l st else { s1 with launches := s1.launches ++ [l] }

/-- The words a scheduler reads to take a queue's head entry: the tail, the entry, and the record it names. -/
def State.takeWords (s : State) (d : DieId) (t : Tenant) (q : BitVec 4) : List Nat :=
  let y := s.queue d t q
  let va := y.base.toNat + 8 * (y.head.toNat % 2 ^ y.log2n.toNat)
  [tailPa y.tailw / 8 * 8] ++ s.vwords t va 8 ++
    (match s.vread t va 8 with | some eb => if leNat eb < 2 ^ 48 then s.vwords t (leNat eb) 64 else [] | none => [])

/-- The table entries it reads to find them. -/
def State.takeTables (s : State) (d : DieId) (t : Tenant) (q : BitVec 4) : List Nat :=
  let y := s.queue d t q
  let va := y.base.toNat + 8 * (y.head.toNat % 2 ^ y.log2n.toNat)
  s.vtables t va 8 ++ (match s.vread t va 8 with | some eb => if leNat eb < 2 ^ 48 then s.vtables t (leNat eb) 64 else [] | none => [])

/-- Whether a die's scheduler can take a record for a tenant, in whose share of the ports it reads (R91). -/
def takeReady (s : State) (d : DieId) (t : Tenant) : Bool :=
  pendingOn s d t < 64 &&
    match visitNext s d t with
    | some q => (s.takeTables d t q ++ s.takeWords d t q).all (s.dramOpen (some t))
    | none => false

/-- TAKE_RECORD. -/
def execTakeRecord (d : DieId) (t : Tenant) (s : State) : Out :=
  match visitNext s d t with
  | some q => enabledIf (takeReady s d t)
      (((s.meetNext (some .walk) none (s.takeTables d t q)).meetNext none none (s.takeWords d t q)).takeEntry d t q)
  | none => .fault .notEnabled

/-! ### Admission (R28, R107, R228, R347) -/

/-- The status a predecessor's word shows: none while it is not written, a failure when its core changed owner while the
record waited, or when its write was dropped (R28, R29). -/
def predStatus (s : State) (l : Launch) (i : Nat) (w : BitVec 26) : Option Byte :=
  if l.predLost.getLsbD i || s.lostWords.contains (tailPa w, l.tenant) then some 0x06
  else
    let v := rdWord s.mem (tailPa w)
    if v = 0 then none else some (v.setWidth 8)

/-- The predecessors' statuses. DESIGN CHOICE (log 67): they are read together, when the launch is admitted; a word seen nonzero
before does not count once it is reused. -/
def predStatuses (s : State) (l : Launch) : List (Option Byte) :=
  let ps := recPreds l.record
  ((List.range ps.length).zip ps).map fun iw =>
    predStatus s l (if l.record.getLsbD 479 then iw.1 else 1) iw.2

/-- Whether a traced launch or pass is running (R228). -/
def State.traceBusy (s : State) : Bool := s.launches.any fun l => l.started && recTrace l.record

/-- What admission comes to. -/
inductive Admission
  | wait
  | end_ (st : Byte)
  | empty
  | accept
  deriving DecidableEq, Repr

/-- The decision on a pending launch (R28, R228, R308, R347). -/
def admission (s : State) (l : Launch) : Admission :=
  let ps := predStatuses s l
  if l.phase != .waiting || l.pass.isSome || ps.any (·.isNone) then .wait
  else if ps.any fun p => !isSuccess (p.getD 0) then .end_ 0x06
  else if recTrace l.record && s.traceBusy then .wait
  else if recTrace l.record && !s.traceUsable then .end_ 0x05
  else if recW l.record == 0 then .empty
  else if (s.die l.die).stage == 2 then .wait
  else .accept

/-- A launch or pass starts: SC advances to P when it is traced (R228). -/
def State.beginLaunch (s : State) (id : Word) : State :=
  match s.launch id with
  | none => s
  | some l =>
    let s1 := if recTrace l.record then { s with sc := s.sc + 1 } else s
    s1.modLaunch id fun l => { l with phase := .admitted, started := true, tick := s.gcc, p := s1.sc }

/-! ### Trace buffers (R229, R230, R232, R309) -/

/-- The physical pieces of a range of a tenant's virtual space that grants what is needed. -/
def State.vpieces (s : State) (t : Tenant) (va n : Nat) (need : Need) : Option (List (Nat × Nat)) :=
  (pagePieces va n).foldl (fun acc p => acc.bind fun ps =>
    match s.walk t p.1 with
    | .ok e =>
      let pa := e.pa + p.1 % 2 ^ e.lg
      if e.grants need && s.reach t pa then some (ps ++ [(pa, p.2)]) else none
    | .error _ => none) (some [])

/-- A write of the module to one line of a tenant's space: into a scratchpad it is a landing (R74, R75). -/
def State.modWrite (s : State) (pa : Nat) (bs : List Byte) : State :=
  match homeOf pa with
  | .spm k off => (s.landSpm { path := .mod } (BitVec.ofNat 7 k) off bs false).1
  | _ => s.write (s.cell pa) bs

/-- Writes bytes from a physical address on, line by line; n bounds the lines. -/
def State.modWrites (s : State) : Nat → Nat → List Byte → State
  | 0, _, _ => s
  | n + 1, pa, bs =>
    let m := 64 - pa % 64
    if bs.isEmpty then s else (s.modWrite pa (bs.take m)).modWrites n (pa + m) (bs.drop m)

/-- Writes bytes at pieces. -/
def State.writePieces (s : State) : List (Nat × Nat) → List Byte → State
  | [], _ => s
  | (pa, n) :: t, bs => (s.modWrites (n / 64 + 2) pa (bs.take n)).writePieces t (bs.drop n)

/-- Reads a permitted range. -/
def State.tread (s : State) (t : Tenant) (va n : Nat) : Option (List Byte) :=
  (s.vpieces t va n .read).map fun ps => ps.flatMap fun p => rdBytes s.mem (s.cell p.1) p.2

/-- Writes some blocks of bytes, all or none. -/
def State.twrite (s : State) (t : Tenant) (ws : List (Nat × List Byte)) : Option State :=
  if ws.all fun w => (s.vpieces t w.1 w.2.length .write).isSome then
    some (ws.foldl (fun u w => match u.vpieces t w.1 w.2.length .write with
      | some ps => u.writePieces ps w.2
      | none => u) s)
  else none

/-- Maximal runs of consecutive numbers in a sorted list. -/
def runsOf : List Nat → List (Nat × Nat)
  | [] => []
  | g :: t =>
    match runsOf t with
    | (a, b) :: r => if a = g + 1 then (g, b) :: r else (g, g) :: (a, b) :: r
    | [] => [(g, g)]

/-- The 128 bytes of a unit's entry (R229, R230). -/
def entryBytes (p : Word) (gs : List Nat) (all : Bool) : List Byte :=
  let rs := runsOf gs
  if all || 15 < rs.length then leBytes 128 (p.toNat + 2 ^ 36)
  else leBytes 8 (p.toNat + rs.length * 2 ^ 32) ++
    (List.range 15).flatMap fun j => match rs[j]? with
      | some r => leBytes 8 (r.1 + r.2 * 2 ^ 27)
      | none => leBytes 8 0

/-- A unit's entry as read: SCREC, ALL, and its runs. -/
structure Entry where
  screc : Nat
  all : Bool
  runs : List (Nat × Nat)

/-- Parses an entry. -/
def parseEntry (bs : List Byte) : Entry :=
  let h := leNat (bs.take 8)
  { screc := h % 2 ^ 32
    all := h / 2 ^ 36 % 2 == 1
    runs := (List.range (h / 2 ^ 32 % 16)).map fun j =>
      let v := leNat ((bs.drop (8 * j + 8)).take 8)
      (v % 2 ^ 27, v / 2 ^ 27 % 2 ^ 27) }

/-- Whether some granule of a range has a stamp that satisfies p; granules never stamped have stamp 0. -/
def State.stampIn (s : State) (a b : Nat) (p : Nat → Bool) : Bool :=
  let base := s.stampBase
  s.mem.any fun c => base + 4 * a ≤ c.1 && c.1 < base + 4 * b + 4 && p (s.stampOf ((c.1 - base) / 4)).toNat

/-- The address of unit x's entry. -/
def entryVa (l : Launch) (x : Nat) : Nat := recTbuf l.record + 128 * (x + 1)

/-- Whether a pass selects unit x (R232); none when its entry cannot be read. -/
def State.selects (s : State) (l : Launch) (unattr : Bool) (x : Nat) : Option Bool :=
  (s.tread l.tenant (entryVa l x) 128).map fun bs =>
    let e := parseEntry bs
    unattr || e.all || e.runs.any fun r => s.stampIn r.1 r.2 (e.screc < ·)

/-- The units a pass selects. -/
def State.selection (s : State) (l : Launch) (unattr : Bool) : Option (List Nat) :=
  (List.range (recW l.record)).foldl (fun acc x => acc.bind fun us =>
    (s.selects l unattr x).map fun b => if b then us ++ [x] else us) (some [])

/-- The units a launch or pass deals, in order. -/
def unitsOf (l : Launch) : List Nat := match l.sel with | some us => us | none => List.range (recW l.record)

/-- The units whose entries are written: those that ran, or, of a failed pass, those that finished (R230, R233). -/
def entryUnits (l : Launch) : List Nat :=
  if l.pass.isSome && l.phase == .failing then l.finished
  else if recCores l.record && !recPers l.record then (if l.members.isEmpty then [] else unitsOf l)
  else (unitsOf l).take l.next

/-- Writes the header and the entries; none when a trace write is not permitted (R309). -/
def State.writeTrace (s : State) (l : Launch) : Option State :=
  let head := recW l.record + (if l.unattr then 2 ^ 25 else 0) + l.passNo.toNat * 2 ^ 32
  s.twrite l.tenant ((recTbuf l.record, leBytes 128 head) :: (entryUnits l).map fun u =>
    (entryVa l u, entryBytes l.p (aget l.reads u []) (l.readsAll.contains u)))

/-- AGAIN: a granule stamped P lies in a run of an entry whose SCREC is below P (R232). DESIGN CHOICE (log 68): an entry marked
ALL counts as a run of every granule. -/
def State.againFor (s : State) (l : Launch) : Bool :=
  (List.range (recW l.record)).any fun x =>
    match s.tread l.tenant (entryVa l x) 128 with
    | none => false
    | some bs =>
      let e := parseEntry bs
      decide (e.screc < l.p.toNat) &&
        (if e.all then s.stampIn 0 (2 ^ 27 - 1) (· == l.p.toNat) else e.runs.any fun r => s.stampIn r.1 r.2 (· == l.p.toNat))

/-! ### The end of a launch or pass (R29, R230, R233, R309) -/

/-- The walks of a core as those still there wait for them: the contexts that run and the channels with a command. -/
def Core.forgetIdle (y : Core) : Core :=
  let here := fun (u : Nat) =>
    if u < 4 then (y.ctx (BitVec.ofNat 2 u)).live else (y.chan (BitVec.ofNat 4 (u - 4))).run.isSome
  { y with
    walks := y.walks.map fun w => { w with waiters := w.waiters.filter here }
    walkFail := (y.walkFail.map fun w => { w with waiters := w.waiters.filter here }).filter fun w => !w.waiters.isEmpty }

/-- Its contexts and engines are let go: nothing of the launch is left on its cores. -/
def State.releaseCores (s : State) (l : Launch) : State :=
  let keep := fun (q : CopyCmd) => q.launch != l.id
  let ks := (l.members.map (·.1)).eraseDups
  ks.foldl (fun t k => t.modCore (BitVec.ofNat 7 k) fun y => Core.forgetIdle
    { y with
      chans := y.chans.map fun ch => (ch.1, { ch.2 with
        queue := ch.2.queue.filter keep
        run := match ch.2.run with | some r => if keep r.cmd then some r else none | none => none })
      ctxs := y.ctxs.map fun x => (x.1, if x.2.launch == l.id then
        { x.2 with run := .idle, stopReq := false, preempt := false, pmbCount := 0, pendFaults := [], heldCode := 0 }
        else x.2) }) s

/-- A command's result is written as a release at SYS scope, after all that the launch it names has done (R300). -/
def State.resultWord (s : State) (resw : BitVec 26) (res : Byte) (nctx : Nat) (id : Word := 0) : State :=
  let ps := match s.launch id with | some l => s.places l | none => []
  s.publish (tailPa resw) (BitVec.ofNat 32 (res.toNat + nctx * 2 ^ 16)) fun e => e.limsOf id ps

/-- The commands that waited for a launch end with it: ABORT with DONE; PREEMPT with FAILED or BOUND when the launch
failed, and with DONE when its contexts halted. -/
def State.endCommands (s : State) (id : Word) (failed : Bool) : State :=
  let s1 := { s with running := s.running.filter fun r => r.launch != id }
  (s.running.filter fun r => r.launch == id).foldl (fun t r =>
    t.resultWord r.resw (if r.op == 3 || !failed then 0x01 else if r.bound then 0x26 else 0x27) r.nctx id) s1

/-- A launch or pass ends: its trace, SC, its word or words, and what waited for it. -/
def State.endLaunch (s : State) (l : Launch) (st : Byte) : State :=
  let traced := l.started && recTrace l.record
  let tr := if traced then s.writeTrace l else some s
  let s1 := tr.getD s
  let failed := l.phase == .failing
  let st1 : Byte := if tr.isNone && !failed then 0x07 else st
  let nflt := if st1 == 0x07 && failed then l.faulted.length else 0
  let again := l.pass.isSome && traced && s1.againFor l
  let s2 := (s1.writeStatus l st1 nflt again (match l.sel with | some us => us.length | none => 0))
  let s3 := if traced then { s2 with sc := s2.sc + 1 } else s2
  ((s3.releaseCores l).dropLaunch l.id).endCommands l.id (failed || tr.isNone)

/-- The words of the predecessors of a launch. -/
def predCells (l : Launch) : List Nat := (recPreds l.record).map tailPa

/-- ADMIT_LAUNCH (R28): what happens before its predecessors' words happens before all its accesses (R107). -/
def State.accept (s : State) (l : Launch) : State :=
  let after := s.launchAfter l.id ((predCells l).flatMap fun pa => aget s.heads pa [])
  match admission s l with
  | .wait => s
  | .end_ st => (after.writeStatus l st 0 false 0).dropLaunch l.id
  | .empty =>
    let s1 := after.beginLaunch l.id
    match s1.launch l.id with | some m => s1.endLaunch m 0x02 | none => s1
  | .accept => after.beginLaunch l.id

/-- The words of a launch's trace buffer: its header's and its entries'. -/
def State.traceWords (s : State) (l : Launch) (units : List Nat) : List Nat :=
  if recTrace l.record then
    s.vwords l.tenant (recTbuf l.record) 128 ++ units.flatMap fun u => s.vwords l.tenant (entryVa l u) 128
  else []

/-- The table entries that the module reads to find them. -/
def State.traceTables (s : State) (l : Launch) (units : List Nat) : List Nat :=
  if recTrace l.record then
    s.vtables l.tenant (recTbuf l.record) 128 ++ units.flatMap fun u => s.vtables l.tenant (entryVa l u) 128
  else []

/-- The units whose entries the end of a launch or pass reads or writes. -/
def endUnits (l : Launch) : List Nat := if l.pass.isSome then List.range (recW l.record) else entryUnits l

/-- Whether the DRAM ports serve what the end of a launch or pass reads and writes (R91). -/
def traceOpen (s : State) (l : Launch) : Bool :=
  (s.traceTables l (endUnits l)).all (s.dramOpen (some l.tenant)) && (s.traceWords l (endUnits l)).all (s.storeOpen (some l.tenant))

/-- What ADMIT_LAUNCH reads may show an error: the predecessors' words, and the tables of an empty trace. -/
def execAdmitLaunch (lid : Word) (s : State) : Out :=
  match s.launch lid with
  | some l =>
    let ts := if admission s l == .empty then s.traceTables l [] else []
    enabledIf (admission s l != .wait && (admission s l != .empty || traceOpen s l))
      (((s.meetNext (some .walk) none ts).meetNext none none ((predCells l).map (· / 8 * 8))).accept l)
  | none => .fault .notEnabled

/-! ### Relaunch passes (R232, R233) -/

/-- The decision on a pending pass: the launch's word and every earlier pass's words come first. A launch's word whose write
was dropped is no success. DESIGN CHOICE (log 69): of two passes of one record in different queues the earlier is the one
whose record was taken first. -/
def passAdmission (s : State) (l : Launch) : Admission :=
  let pa := tailPa (recDonew l.record)
  let w := if l.predLost.getLsbD 2 || s.lostWords.contains (pa, l.tenant) then 0x06 else rdWord s.mem pa
  let earlier := s.launches.any fun m =>
    m.tenant == l.tenant && m.recordVa == l.recordVa && m.id != l.id && m.id.toNat < l.id.toNat
  if l.phase != .waiting || l.pass.isNone || w == 0 || earlier then .wait
  else if !isSuccess (w.setWidth 8) then .end_ 0x06
  else if s.traceBusy then .wait
  else if !s.traceUsable then .end_ 0x05
  else if (s.die l.die).stage == 2 then .wait
  else .accept

/-- PASS_START: SC advances and the units are selected; a selection read that fails ends the pass (R232, R309). What
happens before the words of the launch and of its earlier passes happens before all accesses of the pass (R107). -/
def State.startPass (s : State) (l : Launch) : State :=
  let after := s.launchAfter l.id (aget s.passRels (passKey l.tenant l.recordVa) [])
  match passAdmission s l with
  | .end_ st => (after.endAtOnce l st).dropLaunch l.id
  | .accept =>
    let s1 := after.beginLaunch l.id
    match s1.tread l.tenant (recTbuf l.record) 128 with
    | none =>
      ((({ s1 with sc := s1.sc + 1 }).endAtOnce l 0x07).dropLaunch l.id).endCommands l.id true
    | some hb =>
      let h := leNat (hb.take 8)
      let no : BitVec 16 := BitVec.ofNat 16 (min (h / 2 ^ 32 % 2 ^ 16 + 1) 0xFFFF)
      match s1.selection l (h / 2 ^ 25 % 2 == 1) with
      | none =>
        ((({ s1 with sc := s1.sc + 1 }).writeStatus { l with passNo := no } 0x07 0 false 0).dropLaunch l.id).endCommands l.id true
      | some us => s1.modLaunch l.id fun m => { m with passNo := no, sel := some us }
  | _ => s

def execPassStart (lid : Word) (s : State) : Out :=
  match s.launch lid with
  | some l =>
    let us := List.range (recW l.record)
    let runs := passAdmission s l == .accept
    let ws := if runs then s.traceWords l us else []
    let ts := if runs then s.traceTables l us else []
    enabledIf (passAdmission s l != .wait && (ts ++ ws).all (s.dramOpen (some l.tenant)))
      (((s.meetNext (some .walk) none ts).meetNext none none ws).startPass l)
  | none => .fault .notEnabled

/-! ### Dealing (R32, R33, R41, R293, R294) -/

/-- The next undealt unit. -/
def nextUnit (l : Launch) : Option Nat := if l.sel.isSome then (unitsOf l)[l.next]? else if l.next < recW l.record then some l.next else none

/-- The places of a co-resident launch: core, context, unit (R32, R41). -/
def coPlan (l : Launch) : List (Nat × Nat × Option Nat) :=
  let slots := (recCset l.record).flatMap fun k => (List.range (recCtxs l.record)).map fun c => (k, c)
  if l.sel == some [] then []
  else if recPers l.record then slots.map fun kc => (kc.1, kc.2, none)
  else (unitsOf l).filterMap fun u => (slots[u]?).map fun kc => (kc.1, kc.2, some u)

/-- Whether a launch still needs core k (R293). -/
def needsCore (l : Launch) (k : CoreId) : Bool :=
  l.phase == .admitted && (recCset l.record).contains k.toNat && !l.dealStop.contains k.toNat &&
    (if recCores l.record then l.startedCores.isEmpty && (coPlan l).any fun p => p.1 == k.toNat
     else if recPers l.record then !l.startedCores.contains k.toNat && l.sel != some []
     else (nextUnit l).isSome)

/-- The order of service (R293). -/
def servedBefore (a b : Launch) : Bool :=
  let key := fun (l : Launch) => [recPrio l.record, l.tick.toNat, l.die.toNat, l.queue.toNat, l.id.toNat]
  decide (List.lex (key a) (key b) (fun x y => decide (x < y)) = true)

/-- The launch a free core goes to. -/
def firstFor (s : State) (k : CoreId) : Option Launch :=
  s.launches.foldl (fun acc l =>
    if needsCore l k then
      match acc with
      | some m => if servedBefore l m then some l else some m
      | none => some l
    else acc) none

/-- Whether a halted context of a dispatch launch will restart (R32, R294). -/
def wantsRestart (s : State) (k : CoreId) (c : CtxId) : Bool :=
  let x := s.ctx k c
  x.run == .halted &&
    match s.launch x.launch with
    | some l =>
      l.phase == .admitted && !recPers l.record && !recCores l.record && (nextUnit l).isSome &&
        !l.dealStop.contains k.toNat &&
        !(s.launches.any fun m => m.id != l.id && needsCore m k && servedBefore m l)
    | none => false

/-- Whether a core is free (R293). -/
def coreFree (s : State) (k : CoreId) : Bool :=
  let y := s.core k
  y.v && !y.zbusy && allCtxs.all fun c =>
    let x := y.ctx c
    x.run == .idle || x.run == .saved || (x.run == .halted && !wantsRestart s k c) || (x.run == .stopped && !x.preempt)

/-- What of a context outlasts its runs: its place in program order with the fences that stand in it, which accesses not
yet performed still answer to (R94, R100, R108), and the debugger's breakpoints. -/
def Ctx.fresh (x : Ctx) : Ctx :=
  { pos := x.pos, fences := x.fences, xfence := x.xfence, xafter := x.xafter, ifence := x.ifence, iafter := x.iafter
    breaks := x.breaks }

/-- A context that starts a run of a launch, perhaps on a unit. -/
def startCtx (s : State) (l : Launch) (k : CoreId) (c : CtxId) (u : Option Nat) : State :=
  let n := u.map (BitVec.ofNat 24)
  (({ s with nextId := s.nextId + 1 }).setCtx k c
    { (s.ctx k c).fresh with
      run := .starting, runId := s.nextId, launch := l.id, unit := n, startUnit := n
      clmask := recMask l.record c.toNat, nctx := BitVec.ofNat 2 (recCtxs l.record - 1) }).modLaunch l.id fun m =>
    { m with
      members := if m.members.contains (k.toNat, c.toNat) then m.members else m.members ++ [(k.toNat, c.toNat)]
      holding := match u with | some v => ains m.holding (ctxKey k c) [v] | none => m.holding }

/-- The place of a context's request among those that reach a launch's scheduler in one tick: die by die from the one after
the die last served for the launch before it, then by core and context (R294). -/
def dealOrder (s : State) (l : Launch) (k : CoreId) (c : CtxId) : Nat :=
  let base := if l.dealTick == s.gcc then l.dealBase else l.lastDie + 1
  512 * (dieOf k - base).toNat + ctxKey k c

/-- Whether a context's request can be served now: none that comes after it in the order of the tick has been (R294).
DESIGN CHOICE (log 59): a request reaches the scheduler in the tick it is served in. -/
def dealInOrder (s : State) (l : Launch) (k : CoreId) (c : CtxId) : Bool :=
  l.dealTick != s.gcc || l.dealKey ≤ dealOrder s l k c

/-- A request of a context has been served, with the next unit if there is one to deal (R294). -/
def State.noteDeal (s : State) (id : Word) (k : CoreId) (c : CtxId) (deal : Bool := true) : State :=
  s.modLaunch id fun m =>
    { m with
      next := if deal then m.next + 1 else m.next
      lastDie := dieOf k
      dealTick := s.gcc
      dealBase := if m.dealTick == s.gcc then m.dealBase else m.lastDie + 1
      dealKey := dealOrder s m k c }

/-- The core is set up for a launch: contexts not started hold nothing, and the lowest started one is primary (R36). -/
def State.takeCore (s : State) (l : Launch) (k : CoreId) (cs : List Nat) : State :=
  (s.modCore k fun y => Core.forgetIdle
    { y with
      cycle := (s.die (dieOf k)).cycle
      primary := BitVec.ofNat 2 (cs.foldl min 3)
      primCycles := 0
      heir := none
      ctxs := y.ctxs.map fun x => (x.1, x.2.fresh) }).modLaunch l.id fun m =>
    { m with startedCores := sinsert k.toNat m.startedCores }

/-- Deals units to the contexts of a core, in order. -/
def State.dealCore (s : State) (id : Word) (k : CoreId) : List Nat → State
  | [] => s
  | c :: cs =>
    match s.launch id with
    | some l =>
      match nextUnit l with
      | some u => ((startCtx s l k (BitVec.ofNat 2 c) (some u)).noteDeal id k (BitVec.ofNat 2 c)).dealCore id k cs
      | none => s
    | none => s

/-- Whether core k can be given to launch l now. -/
def canAssign (s : State) (l : Launch) (k : CoreId) : Bool :=
  if recCores l.record then
    (coPlan l).all fun p =>
      let j : CoreId := BitVec.ofNat 7 p.1
      coreFree s j && (match firstFor s j with | some m => m.id == l.id | none => false)
  else if recPers l.record then true
  else dealInOrder s l k 0 && (recCset l.record).all fun j =>
    let j' : CoreId := BitVec.ofNat 7 j
    dealOrder s l k 0 ≤ dealOrder s l j' 0 || !coreFree s j' ||
      (match firstFor s j' with | some m => m.id != l.id | none => true)

/-- Whether CORE_ASSIGN can happen. -/
def assignReady (s : State) (k : CoreId) : Bool :=
  coreFree s k && match firstFor s k with | some l => canAssign s l k | none => false

/-- CORE_ASSIGN: a core, or all the cores of a co-resident launch, start their contexts (R293). -/
def State.assign (s : State) (k : CoreId) : State :=
  match firstFor s k with
  | none => s
  | some l =>
    if recCores l.record then
      let plan := coPlan l
      let s1 := ((plan.map (·.1)).eraseDups).foldl (fun t j =>
        t.takeCore l (BitVec.ofNat 7 j) ((plan.filter fun p => p.1 == j).map (·.2.1))) s
      plan.foldl (fun t p => startCtx t l (BitVec.ofNat 7 p.1) (BitVec.ofNat 2 p.2.1) p.2.2) s1
    else
      let cs := List.range (recCtxs l.record)
      let s1 := s.takeCore l k cs
      if recPers l.record then cs.foldl (fun t c => startCtx t l k (BitVec.ofNat 2 c) none) s1
      else s1.dealCore l.id k cs

def execCoreAssign (k : CoreId) (s : State) : Out := enabledIf (assignReady s k) (s.assign k)

/-! ### Starting a context (R31, R40, R353) -/

/-- The x and y of a unit (R25). -/
def unitXY (r : Line) (u : Nat) : Nat × Nat := (u % recX r, u / recX r)

/-- The work-register value of a unit (R34). -/
def unitWord (r : Line) (u : Nat) : Dword :=
  BitVec.ofNat 64 (u + (unitXY r u).1 * 2 ^ 24 + (unitXY r u).2 * 2 ^ 40)

/-- DOMAIN without the group and die of the core (R40). -/
def startDomain (s : State) (l : Launch) (k : CoreId) : Dword :=
  let n := fun (p : CoreId → Bool) => (l.members.filter fun m => p (BitVec.ofNat 7 m.1)).length
  BitVec.ofNat 64 (s.pkgid.toNat * 2 ^ 8 + (if recCores l.record then
    2 ^ 7 + n (fun j => groupOf j == groupOf k) * 2 ^ 16 + n (fun j => dieOf j == dieOf k) * 2 ^ 21 + n (fun _ => true) * 2 ^ 29
    else 0))

/-- The scalars of a context that starts (R31). -/
def startScalars (l : Launch) (u : Option (BitVec 24)) : List (Nat × Dword) :=
  let r := l.record
  let v := (u.getD 0).toNat
  let xy := match u with | some w => unitXY r w.toNat | none => (0, 0)
  [(1, BitVec.ofNat 64 v), (8, BitVec.ofNat 64 (recParam r)), (9, BitVec.ofNat 64 (recW r)),
    (10, BitVec.ofNat 64 (xy.2 * 65536 + xy.1)), (11, l.id.setWidth 64), (12, l.passNo.setWidth 64)]

/-- The header of a segment (R135). -/
def parseHeader (va : Addr) (h : Line) : Seg where
  va := va
  compat := h.getLsbD 40
  codeOff := h.extractLsb' 64 32
  codeLen := h.extractLsb' 96 32
  nent := h.extractLsb' 256 8
  ntgt := h.extractLsb' 264 16
  splo := h.extractLsb' 288 32
  sphi := h.extractLsb' 320 32

/-- The context enters the segment at an address (R31, R68); no register of it is poisoned. -/
def State.enter (s : State) (l : Launch) (k : CoreId) (c : CtxId) (g : Seg) (pc : Addr) : State :=
  let own := (s.ctx k c).clusters
  (s.modCore k fun y => { y.cleanse own with masks := y.masks.filter fun m => !own.contains (m.1 / 8) }).modCtx k c fun x =>
    { x with
      run := .running
      begun := true
      pc := pc
      npc := pc
      seg := g
      scal := startScalars l x.startUnit
      domain := startDomain s l k
      splo := boundOf (g.splo.setWidth 64)
      sphi := boundOf (g.sphi.setWidth 64) }

/-- CONTEXT_START: the header and the entry word are read as fetches and checked in the order of R353, after a fault that is
pending for the context (R318). -/
def State.startContext (s : State) (k : CoreId) (c : CtxId) : State :=
  let x := s.ctx k c
  match s.launch x.launch with
  | none => s
  | some l =>
    let seg := recSeg l.record
    let ew := seg + 0x40 + 4 * recEntry l.record
    let fault := fun (f : FaultInfo) => s.takeFault k c { f with pc := some (BitVec.ofNat 48 seg), slot := 0xFF }
    if let some f := x.pendFaults.head? then
      (s.modCtx k c fun x => { x with pendFaults := x.pendFaults.drop 1 }).takeFault k c { f.2 with pc := some (BitVec.ofNat 48 seg) }
    else
    match s.fetchRead k c seg 64, s.fetchRead k c ew 4 with
    | .miss p, .miss q => s.askWalks k (ctxWaiter c) (p ++ q)
    | .miss p, _ => s.askWalks k (ctxWaiter c) p
    | .bad f, _ => fault f
    | .ok _, .miss p => s.askWalks k (ctxWaiter c) p
    | .ok _, .bad f => fault f
    | .ok ha, .ok ea =>
      let hr := s.fetchBytes (x.fetches k c) ha
      let er := hr.2.fetchBytes (x.fetches k c) ea
      let hb := hr.1
      let eb := er.1
      let s := er.2
      let fault := fun (f : FaultInfo) => s.takeFault k c { f with pc := some (BitVec.ofNat 48 seg), slot := 0xFF }
      let h : Line := BitVec.ofNat 512 (leNat hb)
      let g := parseHeader (BitVec.ofNat 48 seg) h
      let pc := seg + leNat eb
      if h.extractLsb' 0 32 != 0x4753565A || h.extractLsb' 32 8 != 0x01 || g.nent.toNat < recEntry l.record then
        fault { code := 0x0C, detail := 2, va := BitVec.ofNat 48 ew }
      else if !g.inCode pc || pc % 8 != 0 then fault { code := 0x0C, va := BitVec.ofNat 48 pc }
      else s.enter l k c g (BitVec.ofNat 48 pc)

/-- Whether a context is to start: also in the tick in which its launch began to fail (R27), and once its accesses before its
last IFENCE have performed (R108). -/
def startReady (s : State) (k : CoreId) (c : CtxId) : Bool :=
  let x := s.ctx k c
  x.run == .starting && (!x.stopReq || x.stopTick == s.gcc) && s.performed x.iafter

/-- The words that hold the header and the entry word of a context that starts; one with a fault pending reads none. -/
def State.startWords (s : State) (k : CoreId) (c : CtxId) : List Nat :=
  match s.launch (s.ctx k c).launch with
  | some l =>
    let seg := recSeg l.record
    if (s.ctx k c).pendFaults.isEmpty then s.codeWords k c seg 64 ++ s.codeWords k c (seg + 0x40 + 4 * recEntry l.record) 4 else []
  | none => []

def execContextStart (k : CoreId) (c : CtxId) (s : State) : Out :=
  let ws := s.startWords k c
  enabledIf (startReady s k c && ws.all (s.dramOpen (some (s.core k).tenant)))
    ((s.meetNext (some .fetch) k ws true).startContext k c)

/-- Whether a halted context restarts now: its home die's scheduler is not in a hold (R347). -/
def restartReady (s : State) (k : CoreId) (c : CtxId) : Bool :=
  wantsRestart s k c && match s.launch (s.ctx k c).launch with
    | some l => (s.die l.die).stage != 2 && dealInOrder s l k c
    | none => false

/-- DISPATCH_RESTART: the context is dealt the next unit (R32, R294). -/
def State.restart (s : State) (k : CoreId) (c : CtxId) : State :=
  match s.launch (s.ctx k c).launch with
  | some l =>
    match nextUnit l with
    | some u => (startCtx s l k c (some u)).noteDeal l.id k c
    | none => s
  | none => s

def execDispatchRestart (k : CoreId) (c : CtxId) (s : State) : Out := enabledIf (restartReady s k c) (s.restart k c)

/-! ### NXU (R33, R219) -/

/-- A context's first request at the scheduler. -/
def nxuOf (s : State) (k : CoreId) (c : CtxId) : Option NxuReq := s.nxus.find? fun r => r.core == k && r.ctx == c

/-- NXU_SERVICE: the next undealt unit, or the null flag, lands in the work register. A request whose run has ended is
dropped. DEDUCED (log 60): a context of a core to which the scheduler deals nothing further (R302) is answered all the same
within its 12 cycles (R33), with the null flag. -/
def State.serveNxu (s : State) (r : NxuReq) : State :=
  let s0 := { s with nxus := ldelFirst (fun q => q == r) s.nxus }
  let land := fun (t : State) (v : Dword) =>
    let t1 := t.modCtx r.core r.ctx fun x => x.arrive r.sb (v.setWidth 512) 0 0
    match ((t1.ctx r.core r.ctx).sbs.find? fun b => b.id == r.sb) with
    | some b => (t1.modCtx r.core r.ctx fun x => { x with sbs := ldelFirst (fun q => q.id == r.sb) x.sbs }).landSb r.core r.ctx b
    | none => t1
  if !(s.ctx r.core r.ctx).inRun r.runId then s0
  else
    match s.launch r.launch with
    | some l =>
      match if l.phase == .admitted && !l.dealStop.contains r.core.toNat then nextUnit l else none with
      | some u => land ((s0.noteDeal l.id r.core r.ctx).modLaunch l.id fun m =>
          { m with holding := amod m.holding (ctxKey r.core r.ctx) [] (· ++ [u]) }) (unitWord l.record u)
      | none => land (s0.noteDeal l.id r.core r.ctx false) (1#64 <<< 63)
    | none => land s0 (1#64 <<< 63)

/-- Whether a context's first request can be served in its place of the tick (R294). -/
def nxuReady (s : State) (r : NxuReq) : Bool :=
  match s.launch r.launch with | some l => dealInOrder s l r.core r.ctx | none => true

def execNxuService (k : CoreId) (c : CtxId) (s : State) : Out :=
  match nxuOf s k c with
  | some r => enabledIf (nxuReady s r) (s.serveNxu r)
  | none => .fault .notEnabled

/-! ### Appending (R227, R291) -/

/-- Where the next entry of a queue goes. -/
def State.appendAt (s : State) (t : Tenant) (y : Queue) : Option (List (Nat × Nat)) :=
  s.vpieces t (y.base.toNat + 8 * ((s.qtail y).toNat % 2 ^ y.log2n.toNat)) 8 .write

/-- The table entries that the module reads to find it. -/
def State.appendTables (s : State) (t : Tenant) (y : Queue) : List Nat :=
  s.vtables t (y.base.toNat + 8 * ((s.qtail y).toNat % 2 ^ y.log2n.toNat)) 8

/-- The first reservation of a queue whose XFENCE accesses have performed; the entry is written in the tenant's share of the
ports (R91). -/
def appendReady (s : State) (d : DieId) (t : Tenant) (q : BitVec 4) : Bool :=
  let y := s.queue d t q
  match y.reserved with
  | r :: _ => s.performed r.after && (s.appendTables t y).all (s.dramOpen (some t)) &&
      ((s.appendAt t y).getD []).all fun p => s.storeOpen (some t) p.1
  | [] => false

/-- The tail word of a queue is written as a release, after all that happens before the launcher's XFENCE (R107, R291). The
scheduler that reads it acquires the earlier ones too. -/
def State.publishTail (s : State) (pa : Nat) (w : Word) (r : Reserve) : State :=
  let old := aget s.heads pa []
  let t := s.publish pa w (fun e => e.limsTo r.who)
  { t with heads := amod t.heads pa [] (· ++ old) }

/-- LAUNCH_APPEND: the entry, then the new tail; an entry address that does not translate stops the queue (R290). -/
def State.appendEntry (s : State) (d : DieId) (t : Tenant) (q : BitVec 4) : State :=
  let y := s.queue d t q
  match y.reserved with
  | [] => s
  | r :: rest =>
    let s0 := s.modQueue d t q fun y => { y with reserved := rest }
    let tail := s.qtail y
    match s.appendAt t y with
    | none => s0.modQueue d t q fun y => { y with err := true }
    | some ps =>
      let s1 := (s0.writePieces ps (leBytes 8 r.record.toNat)).publishTail (tailPa y.tailw) (tail + 1) r
      match r.status with
      | some pa => s1.modQueue d t q fun y => { y with passes := ains y.passes tail.toNat pa }
      | none => s1

def execLaunchAppend (d : DieId) (t : Tenant) (q : BitVec 4) (s : State) : Out :=
  enabledIf (appendReady s d t q) ((s.meetNext (some .walk) none (s.appendTables t (s.queue d t q))).appendEntry d t q)

/-! ### Failing (R27, R42, R301, R302) -/

/-- Whether a context of a failing launch is to stop now: a bundle that has begun service issues first (R70), and what the
context presents in the tick in which the launch began to fail it still presents (R27). -/
def stopsNow (gcc : Dword) (id : Word) (x : Ctx) : Bool :=
  x.launch == id && x.stopReq && x.stopTick != gcc && x.part.isNone &&
    (x.run == .running || x.run == .starting || x.run == .held || x.run == .stopped)

/-- The members of a failing launch that stop now. -/
def stopping (s : State) (id : Word) : List (CoreId × CtxId) :=
  match s.launch id with
  | some l => (l.members.map fun m => ((BitVec.ofNat 7 m.1 : CoreId), (BitVec.ofNat 2 m.2 : CtxId))).filter fun m =>
      stopsNow s.gcc id (s.ctx m.1 m.2)
  | none => []

/-- One context of a failing launch stops. A pending fault is taken first and counts, as does one still held (R27). -/
def State.stopCtx (id : Word) (s : State) (m : CoreId × CtxId) : State :=
  let x : Ctx := s.ctx m.1 m.2
  let s1 : State := match x.pendFaults with
    | f :: _ => (s.recordFault m.1 m.2 f.2 false).countFault m.1 m.2 id
    | [] => if x.run == Run.held && x.heldCode != 0x10 then s.countFault m.1 m.2 id else s
  ((s1.landAll m.1 m.2).releaseClusters m.1 m.2).modCtx m.1 m.2 Ctx.stopNow

/-- Contexts saved by PREEMPT are discarded with their launch, and SAVED clears (R301, R302). -/
def State.dropSaves (s : State) (id : Word) : State :=
  let ks := ((s.saves.filter fun v => v.launch == id).map (·.core)).eraseDups
  let s1 := { s with saves := s.saves.filter fun v => v.launch != id }
  ks.foldl (fun t k => t.modCore k fun y => { y with saved := t.saves.any fun v => v.core == k && v.away.isNone }) s1

/-- Whether LAUNCH_FAIL has something to stop. -/
def failReady (s : State) (id : Word) : Bool :=
  match s.launch id with
  | some l => l.phase == .failing && (!(stopping s id).isEmpty || s.saves.any fun v => v.launch == id)
  | none => false

/-- LAUNCH_FAIL. -/
def State.stopLaunch (s : State) (id : Word) : State := ((stopping s id).foldl (State.stopCtx id) s).dropSaves id

def execLaunchFail (lid : Word) (s : State) : Out := enabledIf (failReady s lid) (s.stopLaunch lid)

/-! ### Completion (R29, R42) -/

/-- Whether a member's context has ended; one that is saved has, once its record is gone. -/
def memberEnded (s : State) (l : Launch) (m : Nat × Nat) : Bool :=
  let k : CoreId := BitVec.ofNat 7 m.1
  let c : CtxId := BitVec.ofNat 2 m.2
  let x := s.ctx k c
  x.launch != l.id || x.run == .idle || x.run == .saved || (x.run == .stopped && !x.preempt) ||
    (x.run == .halted && (l.phase == .failing || !wantsRestart s k c))

/-- Whether a launch's own work is all done; in a failed launch a channel stopped at a fault is given up. -/
def workDone (s : State) (l : Launch) : Bool :=
  let stuck := fun (ch : CopyChan) => l.phase == .failing && (match ch.run with | some r => r.stop.isSome | none => false)
  ((l.members.map (·.1)).eraseDups.all fun k =>
      let y := s.core (BitVec.ofNat 7 k)
      !(y.mx.any fun m => m.launch == l.id) && !(y.accPipe.any fun o => o.who.launch == l.id) &&
        y.chans.all fun ch => stuck ch.2 ||
          (!(ch.2.queue.any fun q => q.launch == l.id) && (match ch.2.run with | some r => r.cmd.launch != l.id | none => true))) &&
    !(s.reqs.any fun r => r.launch == l.id)

/-- Whether everything the launch is to start has started. -/
def allStarted (l : Launch) : Bool :=
  if recCores l.record then !l.startedCores.isEmpty || (coPlan l).isEmpty
  else if recPers l.record then l.sel == some [] || (recCset l.record).all fun k => l.startedCores.contains k
  else (nextUnit l).isNone

/-- Whether a launch's or pass's word can be written. -/
def completes (s : State) (l : Launch) : Bool :=
  (l.phase == .failing || (l.phase == .admitted && allStarted l)) && l.members.all (memberEnded s l) && workDone s l &&
    !(s.saves.any fun v => v.launch == l.id)

/-- The status a launch or pass ends with. -/
def finalStatus (l : Launch) : Byte :=
  if l.phase == .failing then l.status else if l.sel == some [] then 0x02 else 0x01

/-- COMPLETION_WRITE: the tables read for the trace may show an error. -/
def execCompletionWrite (lid : Word) (s : State) : Out :=
  match s.launch lid with
  | some l => enabledIf (l.pass.isNone && completes s l && traceOpen s l)
      ((s.meetNext (some .walk) none (s.traceTables l (endUnits l))).endLaunch l (finalStatus l))
  | none => .fault .notEnabled

/-- PASS_END: the tables, and the entries read for AGAIN, may show an error. -/
def execPassEnd (lid : Word) (s : State) : Out :=
  match s.launch lid with
  | some l =>
    enabledIf (l.pass.isSome && completes s l && traceOpen s l)
      (((s.meetNext (some .walk) none (s.traceTables l (endUnits l))).meetNext none none (s.traceWords l (endUnits l))).endLaunch l
        (finalStatus l))
  | none => .fault .notEnabled

end Sys2Proof.Machine
end

