-- ==== Sys2Proof/Machine/Driver.lean ====
section
/-! DEFINITION. The driver's part: holding and resuming (R320, R321), driver commands (R299 to R308), shootdown (R314),
the registers of the driver page, the scheduler pages and the tenant pages (R288, R295, R297, R310, R315, R332, R338,
R346, R349), counters (R348 to R350), power (R346, R347) and the resets. -/
namespace Sys2Proof.Machine

/-! ### GO and DECLINE (R320) -/

/-- The channels of a context go on, except those stopped by a fault that is still pending (R85). -/
def State.freeChans (s : State) (k : CoreId) (c : CtxId) : State :=
  let x := s.ctx k c
  let waits := fun (ch : Nat) => x.pendFaults.any fun f => f.2.chan == some (BitVec.ofNat 4 ch)
  let go := fun (ch : Nat) (r : CopyRun) =>
    if r.cmd.ctx == c && r.cmd.runId == x.runId && !waits ch then { r with stop := none } else r
  s.modCore k fun y => { y with chans := y.chans.map fun ch => (ch.1, { ch.2 with run := ch.2.run.map (go ch.1) }) }

/-- A write of GO: ignored when the context is not held. -/
def State.goOn (s : State) (k : CoreId) (c : CtxId) (step : Bool) : State :=
  if (s.ctx k c).run == .held then (s.freeChans k c).resumeHeld k c step else s

/-- A write of DECLINE: the launch fails; ignored when the context is not held. -/
def State.decline (s : State) (k : CoreId) (c : CtxId) : State :=
  if (s.ctx k c).run == .held then s.failLaunch (s.ctx k c).launch 0x07 else s

/-! ### Pre-emption (R254 to R256, R302 to R305) -/

/-- The register of a result that had not landed at the stop takes a free value (R254); its arithmetic flags are not lost
(R66). -/
def State.scramble (k : CoreId) (c : CtxId) (s : State) (p : Pend) : State :=
  let f := Config.freeLine s.freeCtr
  let s1 := s.free.2.orFlags k c p.flags
  match p.dest with
  | .flagSet | .flagClr =>
    let m : BitVec 64 := p.val.setWidth 64
    s1.modCtx k c fun x => { x with flags := (x.flags &&& ~~~m) ||| (f.setWidth 64 &&& m) }
  | d => s1.land k c d f p.lanes 0

/-- PMARK_STOP: the context stops at its pmark bundle, which does not issue. Results whose window has ended by the cycle it
stops in land first (R39). -/
def State.pmarkStop (s : State) (k : CoreId) (c : CtxId) : State :=
  let now := (s.core k).cycle
  let s1 := ((s.modCore k fun y => { y with cycle := s.edge k }).landDue k c).modCore k fun y => { y with cycle := now }
  ((s1.ctx k c).pend.foldl (State.scramble k c) s1).modCtx k c fun x => { x with run := .stopped, pend := [] }

/-- Not once the count has reached the bound first (R256). -/
def execPmarkStop (k : CoreId) (c : CtxId) (s : State) : Out :=
  enabledIf (pmarkDue s k c && !pmbDue s k c) (s.pmarkStop k c)

/-- Whether a command is one of context c for a launch, in whatever run it issued it (R165, R302). -/
def CopyCmd.of (q : CopyCmd) (c : CtxId) (id : Word) : Bool := q.ctx == c && q.launch == id

/-- A channel whose command a fault has stopped gives the command back to its queue, for the resumed context to start
again. -/
def CopyChan.giveBack (ch : CopyChan) (c : CtxId) (id : Word) : CopyChan :=
  match ch.run with
  | some r =>
    if r.cmd.of c id then { ch with run := none, queue := r.cmd :: ch.queue, armNext := r.armed } else ch
  | none => ch

/-- The bytes of a record's header (R303). -/
def Save.header (v : Save) : List Byte :=
  leBytes 64 (0x53564543 + 2 ^ 32 + v.snap.clmask.toNat * 2 ^ 40 + v.core.toNat * 2 ^ 48 + v.ctx.toNat * 2 ^ 55 +
    v.launch.toNat * 2 ^ 64 + v.cmds.length * 2 ^ 96 + v.snap.pc.toNat * 2 ^ 128 + v.pendf.toNat * 2 ^ 192)

/-- The length of a record (R303). -/
def Save.size (v : Save) : Nat :=
  4096 + 20480 * ((List.range 8).filter fun cl => v.snap.clmask.getLsbD cl).length + 96 * v.cmds.length

/-- The bytes of a record: the header, and the opaque part with its tag, whose contents no software may read. -/
def Save.bytes (v : Save) : List Byte :=
  v.header ++ (List.range (v.size - 64)).map fun i => Config.saveByte v.id i

/-- Keeps the entries of a sparse table for the clusters of a mask; `per` entries for each cluster. -/
def ownEntries {α : Type} (mask : Byte) (per : Nat) (m : List (Nat × α)) : List (Nat × α) :=
  m.filter fun e => mask.getLsbD (e.1 / per)

/-- What is saved of a context. -/
def saveOf (s : State) (k : CoreId) (c : CtxId) : Save :=
  let y := s.core k
  let x := y.ctx c
  let back := fun (ch : Nat) => match (aget y.chans ch {}).run with
    | some r => r.cmd.of c x.launch
    | none => false
  { id := s.nextId
    core := k
    ctx := c
    launch := x.launch
    addr := x.preemptAddr
    tenant := y.tenant
    snap := { x with
      preempt := false
      pmbCount := 0
      pend := []
      pendFaults := x.pendFaults.filter fun f => !(match f.2.chan with | some ch => back ch.toNat | none => false) }
    vregs := ownEntries x.clmask 320 y.vregs
    vpoison := ownEntries x.clmask 320 y.vpoison
    masks := ownEntries x.clmask 8 y.masks
    mPoison := y.mPoison.filter fun m => x.clmask.getLsbD (m / 8)
    laqs := (ownEntries x.clmask 1 y.laqs).map fun q => (q.1, q.2.filter fun e => !e.dropped)
    cmds := y.chans.flatMap fun ch =>
      ((ch.2.giveBack c x.launch).queue.filter fun q => q.of c x.launch).map fun q => (ch.1, q)
    away := none
    pendf := 0 }

/-- Whether a context that is to be saved can be saved: its started commands have completed, apart from those that a
fault has stopped, and those of the matrix engine, whose flags are its (R66); every result in flight to it has landed, and
so have the lines pushed for it; and the ports serve its tenant the record (R91). -/
def saveReady (s : State) (k : CoreId) (c : CtxId) : Bool :=
  let y := s.core k
  let x := y.ctx c
  x.preempt && !x.stopReq && (x.run == .stopped || x.run == .held) && x.sbs.isEmpty &&
    !(y.chans.any fun ch => match ch.2.run with
      | some r => r.cmd.of c x.launch && r.stop.isNone
      | none => false) &&
    !(y.mx.any fun m => m.ctx == c && m.runId == x.runId) &&
    !(y.accPipe.any fun o => o.who.ctx == c && o.runId == x.runId) &&
    spanOpen (s.storeOpen (some y.tenant)) x.preemptAddr (saveOf s k c).size &&
    ((List.range 8).all fun cl => !x.clmask.getLsbD cl || (aget y.laqs cl []).all fun e => e.landed || e.dropped)

/-- CONTEXT_SAVED: the record is written, the unstarted commands leave the queues, and the core lets the context go. -/
def State.saveContext (s : State) (k : CoreId) (c : CtxId) : State :=
  let x := s.ctx k c
  let v := saveOf s k c
  let s1 := ({ s with nextId := s.nextId + 1, saves := s.saves ++ [v] } : State).write v.addr v.bytes
  let s2 := s1.modCore k fun y =>
    { y.cleanse x.clusters with
      saved := true
      laqs := y.laqs.map fun q => (q.1, if x.clmask.getLsbD q.1 then q.2.filter (·.dropped) else q.2)
      chans := y.chans.map fun ch =>
        let d := ch.2.giveBack c x.launch
        (ch.1, { d with queue := d.queue.filter fun q => !q.of c x.launch }) }
  let s3 := s2.setCtx k c { x.fresh with run := .saved, launch := x.launch }
  { s3 with running := s3.running.map fun r => if r.launch == x.launch then { r with nctx := r.nctx + 1 } else r }

def execContextSaved (k : CoreId) (c : CtxId) (s : State) : Out := enabledIf (saveReady s k c) (s.saveContext k c)

/-! ### Driver commands (R299, R300) -/

def cmdOp (r : Line) : BitVec 4 := r.extractLsb' 0 4
def cmdTenant (r : Line) : Tenant := r.extractLsb' 4 4
def cmdNoown (r : Line) : Bool := r.getLsbD 8
def cmdLaunch (r : Line) : Word := r.extractLsb' 32 32
/-- The cores of CMASK, ascending. -/
def cmdCores (r : Line) : List Nat := (List.range 128).filter fun k => r.getLsbD (64 + k)
def cmdAddr (r : Line) : Nat := (r.extractLsb' 192 48).toNat
def cmdLen (r : Line) : Nat := (r.extractLsb' 256 32).toNat
def cmdResw (r : Line) : BitVec 26 := r.extractLsb' 288 26

/-- Whether OP names a command. -/
def cmdKnown (r : Line) : Bool := cmdOp r != 0 && (cmdOp r).toNat ≤ 7

/-- BADOP (R300). -/
def cmdBad (r : Line) : Bool :=
  !cmdKnown r || r.extractLsb' 9 23 != 0 || r.extractLsb' 240 16 != 0 || r.extractLsb' 314 198 != 0 ||
    (cmdNoown r && (cmdOp r != 4 || cmdTenant r != 0)) || (cmdOp r == 4 && cmdLen r == 0)

/-- Whether n bytes of DRAM from an address on lie in blocks that tenant t owns. -/
def State.areaOwned (s : State) (t : Tenant) (a n : Nat) : Bool :=
  a + n ≤ 0x8000000000 &&
    (n == 0 || (List.range ((a + n - 1) / 0x200000 + 1 - a / 0x200000)).all fun i =>
      s.ownerOf (a + i * 0x200000) == some t)

/-- BADADDR of an area of `per` bytes for each core of CMASK (R300). -/
def State.areaBad (s : State) (r : Line) (per : Nat) : Bool :=
  cmdAddr r % 0x10000 != 0 || !s.areaOwned (cmdTenant r) (cmdAddr r) (per * (cmdCores r).length)

/-- A command's result word. -/
def State.result' (s : State) (r : Line) (res : Byte) (n : Nat) : State := s.resultWord (cmdResw r) res n

/-- The next command, when none is running: a rejected one answers BADOP, whichever command's step takes it when its OP
names none. -/
def State.nextCommand (s : State) (op : BitVec 4) (f : Line → State → State) : Out :=
  match s.cmdQ with
  | r :: rest =>
    let s1 := { s with cmdQ := rest }
    if !s.running.isEmpty || (cmdKnown r && cmdOp r != op) then .fault .notEnabled
    else .next (if cmdBad r then s1.result' r 0x20 0 else f r s1)
  | [] => .fault .notEnabled

/-- The pending launch a command names. -/
def cmdTarget (s : State) (r : Line) : Option Launch :=
  match s.launch (cmdLaunch r) with
  | some l => if l.tenant == cmdTenant r then some l else none
  | none => none

/-- The place of core k among the set bits of CMASK. -/
def coreIndex (r : Line) (k : Nat) : Nat := ((cmdCores r).filter fun j => j < k).length

/-- Where the record of context c of core k goes (R302). -/
def saveSlot (r : Line) (k : Nat) (c : CtxId) : Nat := cmdAddr r + 0x30000 * (4 * coreIndex r k + c.toNat)

/-- PREEMPT makes a pre-emption pending for every context of the launch on the cores in CMASK. -/
def State.startPreempt (r : Line) (s : State) : State :=
  match cmdTarget s r with
  | none => s.result' r 0x21 0
  | some l =>
    let ks := cmdCores r
    if recCores l.record && l.startedCores.any fun k => !ks.contains k then s.result' r 0x22 0
    else if s.areaBad r 0xC0000 then s.result' r 0x23 0
    else
      let s1 := s.modLaunch l.id fun l => { l with dealStop := ks.foldl (fun d k => sinsert k d) l.dealStop }
      let s2 := l.members.foldl (fun t m =>
        let k : CoreId := BitVec.ofNat 7 m.1
        let c : CtxId := BitVec.ofNat 2 m.2
        let x := t.ctx k c
        if ks.contains m.1 && x.launch == l.id && x.live && l.phase != .failing then
          t.modCtx k c fun x => { x with preempt := true, pmbCount := 0, preemptAddr := saveSlot r m.1 c }
        else t) s1
      { s2 with running := [⟨1, l.tenant, l.id, r.extractLsb' 64 128, cmdResw r, 0, false⟩] }

/-- Whether every context a PREEMPT waits for has been saved or has halted. -/
def preemptDone (s : State) (p : Running) : Bool :=
  match s.launch p.launch with
  | some l => l.phase != .failing && l.members.all fun m =>
      let x := s.ctx (BitVec.ofNat 7 m.1) (BitVec.ofNat 2 m.2)
      !p.cmask.getLsbD m.1 || x.launch != l.id || !x.live
  | none => true

/-- PREEMPT: the command starts, or its result word follows (R302). -/
def execPreempt (s : State) : Out :=
  match s.running with
  | [p] =>
    enabledIf (p.op == 1 && preemptDone s p) ({ s with running := [] }.resultWord p.resw 0x01 p.nctx p.launch)
  | _ => s.nextCommand 1 State.startPreempt

/-- The lowest context restored to a core becomes its primary (R36); a core without work goes on in the present cycle of its
die. -/
def State.wakeCore (s : State) (k : CoreId) (c : CtxId) : State :=
  let now := (s.die (dieOf k)).cycle
  s.modCore k fun y =>
    let z := if y.ctxs.any fun x => x.2.live then y else { y with primary := c, primCycles := 0, heir := none }
    if y.active then z else { z with cycle := now }

/-- One context comes back from its record (R305). -/
def State.restore (s : State) (v : Save) : State :=
  let s1 := { s with saves := s.saves.filter fun u => u.id != v.id }.wakeCore v.core v.ctx
  let old := s1.ctx v.core v.ctx
  let merge := fun {α : Type} (old new : List (Nat × α)) => new.foldl (fun m e => ains m e.1 e.2) old
  (s1.dropWaiter v.core (ctxWaiter v.ctx)).modCore v.core fun y =>
    { y with
      saved := s1.saves.any fun u => u.core == v.core && u.away.isNone
      tlb := []
      vregs := merge (y.vregs.filter fun e => !v.snap.clmask.getLsbD (e.1 / 320)) v.vregs
      vpoison := merge (y.vpoison.filter fun e => !v.snap.clmask.getLsbD (e.1 / 320)) v.vpoison
      masks := merge (y.masks.filter fun e => !v.snap.clmask.getLsbD (e.1 / 8)) v.masks
      mPoison := (y.mPoison.filter fun m => !v.snap.clmask.getLsbD (m / 8)) ++ v.mPoison
      laqs := v.laqs.foldl (fun m q => ains m q.1 (aget m q.1 [] ++ q.2)) y.laqs
      chans := v.cmds.foldr (fun q m => amod m q.1 {} fun ch => { ch with queue := q.2 :: ch.queue }) y.chans
      ctxs := ains y.ctxs v.ctx.toNat { v.snap with
        run := if v.snap.begun then .running else .starting
        flags := v.snap.flags ||| v.pendf
        pos := max v.snap.pos old.pos
        fences := old.fences
        xfence := max v.snap.xfence old.xfence
        xafter := v.snap.xafter ++ old.xafter
        ifence := max v.snap.ifence old.ifence
        iafter := v.snap.iafter ++ old.iafter
        setNow := 0
        breaks := old.breaks
        heldCode := 0
        blocks := []
        code := []
        fetchFail := []
        fetchMiss := []
        segFail := false
        skipBp := false
        delay := 0 } }

/-- Restores records in turn until one fails its check; answers how many were restored and whether all were. -/
def State.restoreAll (r : Line) (s : State) : List Save → State × Nat × Bool
  | [] => (s, 0, true)
  | v :: t =>
    let a := saveSlot r v.core.toNat v.ctx
    if rdBytes s.mem a v.size != v.bytes || s.poisoned a v.size then (s, 0, false)
    else
      let q := State.restoreAll r (s.restore v) t
      (q.1, q.2.1 + 1, q.2.2)

/-- The order of restoring: by core and context. -/
def savesOn (s : State) (id : Word) (ks : List Nat) : List Save :=
  ks.flatMap fun k => allCtxs.flatMap fun c =>
    s.saves.filter fun v => v.launch == id && v.core.toNat == k && v.ctx == c

/-- Whether a core's owner, a resident context of another launch, one that waits for its next unit among them, or an image
not yet loaded keeps RESUME from it (R305). -/
def resumeBusy (s : State) (r : Line) (id : Word) : Bool :=
  (cmdCores r).any fun k =>
    let j : CoreId := BitVec.ofNat 7 k
    (allCtxs.any fun c => ((s.ctx j c).live || wantsRestart s j c) && (s.ctx j c).launch != id) ||
      s.saves.any fun v => v.launch == id && v.core == j && (v.away.isSome || !s.ownsCore v.tenant j)

/-- RESUME (R305). -/
def State.resume (r : Line) (s : State) : State :=
  let target : Option Launch := match cmdTarget s r with
    | some l => if l.phase == Phase.admitted && !(savesOn s l.id (cmdCores r)).isEmpty then some l else none
    | none => none
  match target with
  | none => s.result' r 0x21 0
  | some l =>
    if s.areaBad r 0xC0000 then s.result' r 0x23 0
    else if resumeBusy s r l.id then s.result' r 0x24 0
    else
      let q := State.restoreAll r s (savesOn s l.id (cmdCores r))
      if q.2.2 then
        (q.1.modLaunch l.id fun l => { l with dealStop := l.dealStop.filter fun k => !(cmdCores r).contains k }).result' r
          0x01 q.2.1
      else
        ((q.1.failLaunch l.id 0x07).modLaunch l.id fun l => { l with badSave := true, faulted := [] }).result' r 0x25 q.2.1

/-- A command that reads memory, which may show an error. -/
def State.nextReading (s : State) (op : BitVec 4) (words : Line → List Nat) (f : Line → State → State) : Out :=
  (s.meetNext none none (match s.cmdQ with | r :: _ => words r | [] => [])).nextCommand op f

/-- The words of the records a RESUME reads. -/
def resumeWords (s : State) (r : Line) : List Nat :=
  (savesOn s (cmdLaunch r) (cmdCores r)).flatMap fun v => wordsOf (saveSlot r v.core.toNat v.ctx) v.size

/-- Whether the DRAM ports serve the accesses that the next command makes (R91). -/
def State.cmdServed (s : State) (served : Line → Bool) : Bool :=
  match s.cmdQ with
  | r :: _ => cmdBad r || served r
  | [] => true

/-- The records a RESUME reads; one that is rejected reads none. -/
def State.resumeServed (s : State) (r : Line) : Bool :=
  s.areaBad r 0xC0000 || resumeBusy s r (cmdLaunch r) || (savesOn s (cmdLaunch r) (cmdCores r)).all fun v =>
    spanOpen (s.dramOpen (some (cmdTenant r))) (saveSlot r v.core.toNat v.ctx) v.size

def execResume (s : State) : Out :=
  if s.cmdServed s.resumeServed then s.nextReading 2 (resumeWords s) State.resume else .fault .notEnabled

/-- ABORT (R301): a launch not yet admitted runs nothing; any other fails, and the result follows its completion. -/
def State.abort (r : Line) (s : State) : State :=
  match cmdTarget s r with
  | none => s.result' r 0x21 0
  | some l =>
    if l.phase == .waiting then (((s.endAtOnce l 0x08).dropLaunch l.id)).result' r 0x01 0
    else
      { s.failLaunch l.id 0x08 with running := [⟨3, l.tenant, l.id, 0, cmdResw r, 0, false⟩] }

def execAbort (s : State) : Out := s.nextCommand 3 State.abort

/-- The blocks of a range get an owner, or none. -/
def State.own (s : State) (t : Option Tenant) (b n : Nat) : State :=
  { s with owners := (List.range n).foldl (fun m i => match t with
      | some u => ains m (b + i) u
      | none => adel m (b + i)) s.owners }

/-- The first block a tenant receives brings its data key (R339). -/
def State.drawDataKey (s : State) (t : Tenant) : State :=
  if (s.tenant t).dataKey.isSome then s
  else { s with freeCtr := s.freeCtr + 1 }.modTenant t fun x => { x with dataKey := some (Config.random512 s.freeCtr) }

/-- BADADDR of a SCRUB (R300). -/
def State.scrubBad (s : State) (r : Line) : Bool :=
  let a := cmdAddr r
  let n := cmdLen r * 0x200000
  a % 0x200000 != 0 || 0x8000000000 < a + n || (s.stampOn && a < s.stampBase + 0x20000000 && s.stampBase < a + n)

/-- SCRUB (R298). -/
def State.scrub (r : Line) (s : State) : State :=
  let a := cmdAddr r
  let n := cmdLen r * 0x200000
  let t := cmdTenant r
  if s.scrubBad r then s.result' r 0x23 0
  else
    let s1 := (s.own none (a / 0x200000) (cmdLen r)).clear a n
    (if cmdNoown r then s1 else (s1.drawDataKey t).own (some t) (a / 0x200000) (cmdLen r)).result' r 0x01 0

/-- The range a SCRUB writes, in its new owner's share. -/
def State.scrubServed (s : State) (r : Line) : Bool :=
  spanOpen (s.storeOpen (if cmdNoown r then none else some (cmdTenant r))) (cmdAddr r) (cmdLen r * 0x200000)

def execScrub (s : State) : Out :=
  if s.cmdServed fun r => s.scrubBad r || s.scrubServed r then s.nextCommand 4 State.scrub else .fault .notEnabled

/-- STAMPRESET (R308): every stamp of the table at STBASE, and SC, become 0. -/
def State.stampReset (r : Line) (s : State) : State :=
  if s.launches.any fun l => recTrace l.record then s.result' r 0x24 0
  else
    { s.forget s.stampBase 0x20000000 with sc := 0, mem := clearRange s.mem s.stampBase 0x20000000 }.result' r 0x01 0

def execStampreset (s : State) : Out :=
  if s.cmdServed fun _ => (s.launches.any fun l => recTrace l.record) || s.dramOpen none s.stampBase then
    s.nextCommand 5 State.stampReset
  else .fault .notEnabled

/-- Copies n bytes, all that are there, with the poison of their words. -/
def State.copyMem (s : State) (src dst n : Nat) : State :=
  (s.poison.filter fun w => src ≤ 8 * w && 8 * w < src + n).foldl (fun t w => t.addPoison (8 * w - src + dst) 8)
    ((s.mem.filter fun c => src ≤ c.1 && c.1 < src + n).foldl (fun t c => t.write (c.1 - src + dst) [c.2]) (s.clear dst n))

/-- The layout of a core image: scratchpad, accumulator store, and the rest, which is opaque. -/
def imgAcc : Nat := 0x600000
def imgRest : Nat := 0x800000
def imgRestLen : Nat := 0x10000
def imgLen : Nat := 0x810000

/-- One core is written to its image. -/
def State.saveCore (s : State) (k : CoreId) (a : Nat) : State :=
  let y := s.core k
  let s1 := (s.copyMem (spmPa k.toNat 0) a imgAcc).copyMem (accPa k.toNat 0) (a + imgAcc) 0x200000
  let s2 := s1.write (a + imgRest) ((List.range imgRestLen).map fun i => Config.saveByte s.nextId i)
  let s3 : State := { s2 with
    nextId := s.nextId + 1
    images := (s2.images.filter fun (g : Image) => g.addr != a) ++ [⟨a, s.nextId, k, y.tags, y.ptrs, y.inuse⟩]
    saves := s2.saves.map fun (v : Save) => if v.core == k && v.away.isNone then { v with away := some s.nextId } else v }
  s3.modCore k fun y => { y with saved := false }

/-- BUSY of a CORESAVE (R306). -/
def State.saveBusy (s : State) (r : Line) : Bool :=
  (cmdCores r).any fun k => !(s.core (BitVec.ofNat 7 k)).saved || !s.ownsCore (cmdTenant r) (BitVec.ofNat 7 k)

/-- CORESAVE (R306). -/
def State.coreSave (r : Line) (s : State) : State :=
  if s.areaBad r imgLen then s.result' r 0x23 0
  else if s.saveBusy r then s.result' r 0x24 0
  else
    ((cmdCores r).foldl (fun t k => t.saveCore (BitVec.ofNat 7 k) (cmdAddr r + imgLen * coreIndex r k)) s).result' r 0x01 0

/-- Whether the array's pipelines of the cores of the next command are empty: an image holds every access of the matrix
commands before it. -/
def saveDrained (s : State) : Bool :=
  match s.cmdQ with
  | r :: _ => cmdBad r || (cmdCores r).all fun k => (s.core (BitVec.ofNat 7 k)).accPipe.isEmpty
  | [] => true

/-- The words an image is read from: those of the cores, or of the area. -/
def coreWords (r : Line) : List Nat :=
  (cmdCores r).flatMap fun k => wordsOf (spmPa k 0) imgAcc ++ wordsOf (accPa k 0) 0x200000
def imageWords (r : Line) : List Nat :=
  (cmdCores r).flatMap fun k => wordsOf (cmdAddr r + imgLen * coreIndex r k) imgLen

/-- The area of a CORESAVE or CORELOAD. -/
def areaServed (served : Nat → Bool) (r : Line) : Bool := spanOpen served (cmdAddr r) (imgLen * (cmdCores r).length)

def execCoresave (s : State) : Out :=
  if saveDrained s && s.cmdServed fun r => s.areaBad r imgLen || s.saveBusy r ||
      areaServed (s.storeOpen (some (cmdTenant r))) r then s.nextReading 6 coreWords State.coreSave else .fault .notEnabled

/-- The image of a core that an area holds whole. -/
def State.imageAt (s : State) (k : CoreId) (a : Nat) : Option Image :=
  s.images.find? fun g => g.addr == a && g.core == k &&
    rdBytes s.mem (a + imgRest) imgRestLen == (List.range imgRestLen).map fun i => Config.saveByte g.id i

/-- The tag table, pointers and in-use bits of an image: those written there, or free values where the area holds no
image of the core that is still whole. -/
def State.imageRest (s : State) (k : CoreId) (a : Nat) :
    List (Nat × Dword) × List (Nat × BitVec 3) × List (Nat × InUse) :=
  match s.imageAt k a with
  | some g => (g.tags, g.ptrs, g.inuse)
  | none =>
    let n := s.freeCtr
    ((List.range 4096).map fun i => (i, Config.freeDword (n + i)),
      (List.range 512).map fun i => (i, (Config.freeDword (n + 4096 + i)).setWidth 3),
      ((List.range 1536).filter fun i => Config.freeBit (n + i)).map fun i =>
        (i, ⟨(Config.freeDword (n + 4608 + i)).setWidth 2, (Config.freeDword (n + 6144 + i)).setWidth 32⟩))

/-- One core is restored from its image, to which the contexts belong that were saved when it was written. -/
def State.loadCore (s : State) (k : CoreId) (a : Nat) : State :=
  let g := s.imageRest k a
  let id := (s.imageAt k a).map (·.id)
  let s1 := (s.copyMem a (spmPa k.toNat 0) imgAcc).copyMem (a + imgAcc) (accPa k.toNat 0) 0x200000
  let s2 : State := { s1 with
    freeCtr := s1.freeCtr + 7680
    saves := s1.saves.map fun (v : Save) => if v.core == k && v.away == id then { v with away := none } else v }
  s2.modCore k fun y => { y with tags := g.1, ptrs := g.2.1, inuse := g.2.2, saved := true }

/-- BUSY of a CORELOAD (R306). -/
def State.loadBusy (s : State) (r : Line) : Bool :=
  (cmdCores r).any fun k => !s.ownsCore (cmdTenant r) (BitVec.ofNat 7 k) || !coreFree s (BitVec.ofNat 7 k)

/-- CORELOAD (R306). -/
def State.coreLoad (r : Line) (s : State) : State :=
  if s.areaBad r imgLen then s.result' r 0x23 0
  else if s.loadBusy r then s.result' r 0x24 0
  else
    ((cmdCores r).foldl (fun t k => t.loadCore (BitVec.ofNat 7 k) (cmdAddr r + imgLen * coreIndex r k)) s).result' r 0x01 0

def execCoreload (s : State) : Out :=
  if s.cmdServed fun r => s.areaBad r imgLen || s.loadBusy r || areaServed (s.dramOpen (some (cmdTenant r))) r then
    s.nextReading 7 imageWords State.coreLoad
  else .fault .notEnabled

/-! ### Shootdown (R314) -/

/-- The tenant and the range of a shootdown record. -/
def sdTenant (r : BitVec 256) : Tenant := r.extractLsb' 0 4
def sdAll (r : BitVec 256) : Bool := r.getLsbD 4
def sdLo (r : BitVec 256) : Nat := if sdAll r then 0 else (r.extractLsb' 16 32).toNat * 65536
def sdHi (r : BitVec 256) : Nat := if sdAll r then 2 ^ 48 else sdLo r + (r.extractLsb' 64 32).toNat * 65536
def sdResw (r : BitVec 256) : BitVec 26 := r.extractLsb' 96 26

/-- BADOP. -/
def sdBad (r : BitVec 256) : Bool :=
  r.extractLsb' 5 11 != 0 || r.extractLsb' 48 16 != 0 || r.extractLsb' 122 134 != 0 ||
    (!sdAll r && r.extractLsb' 64 32 == 0)

/-- Whether a range meets n bytes at an address. -/
def sdMeets (r : BitVec 256) (a n : Nat) : Bool := a < sdHi r && sdLo r < a + n

/-- The cores of a tenant. -/
def State.coresOf (s : State) (t : Tenant) : List CoreId := allCores.filter fun k => s.ownsCore t k

/-- Whether every access under an old translation has performed, those of partly served bundles among them (R70). -/
def sdDrained (s : State) (r : BitVec 256) : Bool :=
  let t := sdTenant r
  !(s.reqs.any fun q => q.tenant == t && sdMeets r q.va.toNat q.len) &&
    (s.coresOf t).all fun k => (s.core k).ctxs.all (fun x => x.2.part.isNone) &&
      (s.core k).laqs.all fun l => l.2.all fun e => e.landed || !sdMeets r e.va.toNat 64

/-- A context's fetch buffer is discarded if it holds a block from the range, and so is its loop buffer. -/
def Ctx.dropCode (x : Ctx) (r : BitVec 256) : Ctx :=
  let hit := fun (b : Nat) => sdMeets r (x.seg.codeBase + 1024 * b) 1024
  let x := if x.blocks.any hit then { x with blocks := [], code := [], fetchFail := [] } else x
  { x with loop := x.loop.map fun l =>
      if sdMeets r l.body.toNat (l.stop.toNat - l.body.toNat) then { l with code := none } else l }

/-- A core loses the translations of the range and what was fetched through them. -/
def Core.shoot (y : Core) (r : BitVec 256) : Core :=
  { y with
    tlb := y.tlb.filter fun e => !sdMeets r e.va (2 ^ e.lg)
    walkFail := y.walkFail.filter fun w => !sdMeets r (w.page * 65536) 65536
    ctxs := y.ctxs.map fun x => (x.1, x.2.dropCode r) }

/-- A pass's status address in the range is translated anew. -/
def StatusAt.anew (s : State) (r : BitVec 256) (a : StatusAt) : StatusAt :=
  let t := sdTenant r
  if sdMeets r a.va.toNat 8 then
    { a with pa := match s.walk t a.va.toNat with
        | .ok e =>
          let pa := e.pa + a.va.toNat % 2 ^ e.lg
          if e.grants .write && s.reach t pa && isAcc pa then some pa else none
        | .error _ => none }
  else a

/-- No pass of the tenant writes its status through an old translation of the range. -/
def State.shootStatus (s : State) (r : BitVec 256) : State :=
  let t := sdTenant r
  let again := StatusAt.anew s r
  let queue := fun (q : Queue) =>
    { q with
      reserved := q.reserved.map fun v => { v with status := v.status.map again }
      passes := q.passes.map fun p => (p.1, again p.2) }
  { s with
    launches := s.launches.map fun l => if l.tenant == t then { l with pass := l.pass.map again } else l
    dies := s.dies.map fun d => (d.1, { d.2 with
      queues := d.2.queues.map fun q => (q.1, if q.1 / 16 == t.toNat then queue q.2 else q.2) }) }

/-- The contexts of a tenant that are saved lose what they hold of the range's code too. -/
def State.shootSaves (s : State) (r : BitVec 256) : State :=
  { s with saves := s.saves.map fun v => if v.tenant == sdTenant r then { v with snap := v.snap.dropCode r } else v }

/-- SHOOTDOWN: the next record, once what it must wait for is done. -/
def execShootdown (s : State) : Out :=
  match s.sdQ with
  | r :: rest =>
    let s1 := { s with sdQ := rest }
    if sdBad r then .next (s1.resultWord (sdResw r) 0x20 0)
    else enabledIf (sdDrained s r)
      (((s.coresOf (sdTenant r)).foldl (fun t k => t.modCore k fun y => y.shoot r) ((s1.shootStatus r).shootSaves r)).resultWord (sdResw r) 0x01 0)
  | [] => .fault .notEnabled

end Sys2Proof.Machine
end

