-- ==== Sys2Proof/Machine/Flow.lean ====
section
/-! DEFINITION. Flow form (R261 to R269): the flow segment and its regions as the finisher reads them, what an operation
reads and writes, its latency, and what makes the finisher refuse a region. -/
namespace Sys2Proof.Machine

/-! ### Registers of flow operations (R267) -/

/-- A register as the finisher names it: `v c r` is virtual register r of virtual cluster c; `x c r` is a physical
vector register and `m c r` a lane mask of a cluster. -/
inductive Nm
  | s (r : Nat)
  | a (r : Nat)
  | p (r : Nat)
  | n (r : Nat)
  | w (r : Nat)
  | v (c r : Nat)
  | x (c r : Nat)
  | m (c r : Nat)
  deriving DecidableEq, Repr

/-- A virtual register. -/
def Nm.virt : Nm → Bool
  | .v _ _ => true
  | _ => false

/-- s0, p0 and m0 are constants, no registers (R118, R167). -/
def Nm.const : Nm → Bool
  | .s 0 | .p 0 | .m _ 0 => true
  | _ => false

/-- The register fields that can hold a vector register (R117, R213). -/
inductive Fld
  | vd | va | vb | vc | xd | xi
  deriving DecidableEq, Repr

/-- Where a field stands: in the extension word, and its lowest bit; each is nine bits wide. -/
def Fld.place : Fld → Bool × Nat
  | .vd => (false, 27)
  | .va => (false, 18)
  | .vb => (false, 9)
  | .vc => (false, 0)
  | .xd => (true, 0)
  | .xi => (true, 16)

/-- The fields of an operation that hold vector registers or sources of R119, with whether the operation writes the
register. -/
def vecFields : Instr → List (Fld × Bool)
  | .fma .. | .fms .. | .fnma .. | .dot2 .. | .imad .. => [(.vd, true), (.va, false), (.vb, false), (.vc, false)]
  | .fadd .. | .fsub .. | .fmul .. | .fmin .. | .fmax .. | .iadd .. | .isub .. | .imul .. | .imulh .. | .imin ..
  | .imax .. | .iminu .. | .imaxu .. | .vand .. | .vor .. | .vxor .. | .vandn .. | .vshl .. | .vshr .. | .vsar ..
  | .lmul .. | .shuf .. | .bpack .. | .div .. | .vsel .. => [(.vd, true), (.va, false), (.vb, false)]
  | .fabs .. | .fneg .. | .lrcp .. | .lsqrt .. | .mov .. | .rot .. | .hadd .. | .hmax .. | .bunpack .. | .rcp ..
  | .rsq .. | .sqrt .. | .exp2 .. | .log2 .. | .xmov .. | .xbc .. => [(.vd, true), (.va, false)]
  | .cvt _ op _ _ _ => if op.inserts then [(.vd, true), (.va, false), (.vb, false)] else [(.vd, true), (.va, false)]
  | .fcmp .. | .icmp .. | .icmpu .. => [(.va, false), (.vb, false)]
  | .msetScalar .. => [(.va, false)]
  | .vmovi .. => [(.vd, true)]
  | .vld .. | .vlda .. => [(.vd, true), (.va, false)]
  | .vlds .. | .vldx .. => [(.vd, true), (.va, false), (.vb, false)]
  | .vst .. | .vsta .. => [(.vd, false), (.va, false)]
  | .vsts .. | .vstx .. => [(.vd, false), (.va, false), (.vb, false)]
  | .stg .. | .stgs .. => [(.xd, false)]
  | .stgx .. => [(.xd, false), (.xi, false)]
  | _ => []

/-- Where an operation names a cluster: in the extension word, and the lowest of the three bits (R187, R211, R213,
R220). -/
def clusterField : Instr → Option (Bool × Nat)
  | .xmov .. | .xbc .. => some (false, 0)
  | .pushld .. | .pushlds .. | .pushldx .. => some (false, 28)
  | .stg .. | .stgs .. | .stgx .. => some (true, 9)
  | .nestld .. => some (false, 9)
  | _ => none

/-- The scalar, address, predicate, nest, work and mask registers an operation reads apart from its guard and its vector
fields; `c` is its cluster and `k` the cluster it names. -/
def plainReads (c k : Nat) : Instr → List Nm
  | .vsel _ _ _ _ r => [.m c r.toNat]
  | .mand _ _ a b | .mor _ _ a b | .mxor _ _ a b => [.m c a.toNat, .m c b.toNat]
  | .mnot _ _ a => [.m c a.toNat]
  | .add _ _ a b | .sub _ _ a b | .mul _ _ a b | .mulhu _ _ a b | .mulhs _ _ a b | .divu _ _ a b | .divuRem _ _ a b
  | .divs _ _ a b | .divsRem _ _ a b | .and _ _ a b | .or _ _ a b | .xor _ _ a b | .andn _ _ a b | .shl _ _ a b
  | .shr _ _ a b | .sar _ _ a b | .min _ _ a b | .max _ _ a b | .minu _ _ a b | .maxu _ _ a b | .cmp _ _ _ a b =>
    [.s a.toNat, .s b.toNat]
  | .addi _ _ a _ | .shli _ _ a _ | .shri _ _ a _ | .sari _ _ a _ | .clz _ _ a | .popc _ _ a | .movhi _ _ a _ _
  | .cmpi _ _ _ a _ | .amov _ _ a | .jmp _ a | .calli _ _ a _ | .loopx _ a _ | .waitgcc _ a | .wrsys _ _ a | .unitS _ a
  | .tclr _ a | .buse _ a _ | .bfree _ a _ => [.s a.toNat]
  | .sel _ _ a b r => [.s a.toNat, .s b.toNat, .p r.toNat]
  | .pand _ _ a b _ _ | .por _ _ a b _ _ | .pxor _ _ a b _ _ => [.p a.toNat, .p b.toNat]
  | .aadd _ _ a b | .alea _ _ a b _ => [.a a.toNat, .s b.toNat]
  | .aaddi _ _ a _ | .smova _ _ a | .ret _ a _ | .ldacq _ _ a _ _ | .tlook _ _ a | .launch _ a _
  | .lds _ _ a _ _ _ _ | .ldsL _ _ a _ _ _ _ => [.a a.toNat]
  | .aleaSeg _ _ b _ => [.s b.toNat]
  | .brc _ d _ => [.s d.toNat]
  | .loop _ r _ _ => [.n r.toNat]
  | .unit _ _ r => [.w r.toNat]
  | .pushld _ p => [.a p.a.toNat]
  | .pushlds _ p b | .pushldx _ p b => [.a p.a.toNat, .s b.toNat]
  | .stg _ p | .stgx _ p _ => [.a p.a.toNat, .m k p.msk.toNat]
  | .stgs _ p b => [.a p.a.toNat, .s b.toNat, .m k p.msk.toNat]
  | .sts _ a b _ _ _ | .stsL _ a b _ _ _ | .strel _ a b _ _ | .tset _ a b _ | .relaunch _ a b _ | .trexcl _ a b _ =>
    [.a a.toNat, .s b.toNat]
  | .amoAdd _ p | .amoFadd _ p | .amoMin _ p | .amoMax _ p | .amoMinu _ p | .amoMaxu _ p | .amoAnd _ p | .amoOr _ p
  | .amoXor _ p | .amoXchg _ p => [.a p.a.toNat, .s p.b.toNat]
  | .cas _ p nw => [.a p.a.toNat, .s p.b.toNat, .s nw.toNat]
  | .mma _ a b _ | .latch _ a b _ _ _ | .latcht _ a b _ _ _ _ | .cparm _ _ a b => [.s a.toNat, .s b.toNat]
  | .mmag _ a b l _ => [.s a.toNat, .s b.toNat, .s l.toNat]
  | .accz _ r => [.s r.row.toNat]
  | .accwr _ a r _ | .accrd _ a r _ => [.s r.row.toNat, .s a.toNat]
  | .nestld _ _ _ j => [.x k j.toNat]
  | .cpy _ p | .cpsend _ p _ => [.n p.nest.toNat, .a p.src.toNat, .a p.dst.toNat]
  | .cpyt _ p t => [.n p.nest.toNat, .a p.src.toNat, .a p.dst.toNat, .s t.toNat]
  | .cpym _ p t _ _ => [.n p.nest.toNat, .a p.src.toNat, .a p.dst.toNat, .s t.toNat]
  | _ => []

/-- The latency of an operation (R126 to R131) as R272 counts it. -/
def flowLat : Instr → Nat
  | .fadd .. | .fsub .. | .fmin .. | .fmax .. | .fcmp .. | .imul .. | .imulh .. | .imad .. | .cvt .. | .mul .. | .mulhu ..
  | .mulhs .. => 3
  | .fmul .. | .fma .. | .fms .. | .fnma .. | .dot2 .. => 5
  | .lmul .. | .lrcp .. | .lsqrt .. | .shuf .. | .rot .. | .xbc .. | .tlook .. | .cpstat .. | .cpstatClr .. => 2
  | .hadd .. | .hmax .. | .vld .. | .vlds .. | .vldx .. | .ldsL .. => 6
  | .bpack .. | .bunpack .. | .nestld .. => 4
  | .rcp .. | .rsq .. | .sqrt .. | .div .. => 14
  | .exp2 .. | .log2 .. => 10
  | .vlda .. => 8
  | .divu .. | .divuRem .. | .divs .. | .divsRem .. => 20
  | .nxu .. => 12
  | .setf .. | .clrf .. => 1
  | i => if (dests i).isEmpty then 0 else 1

/-! ### Operations -/

/-- One operation of a region (R266): map, virtual cluster, op word, extension word, and the instruction; SYNC has
none. -/
structure FlowOp where
  map : Nat
  vcl : Nat
  w : BitVec 48
  ext : Option Word
  instr : Option Instr
  deriving DecidableEq, Repr

/-- Whether it stands in a vector map. -/
def FlowOp.vec (o : FlowOp) : Bool := 5 ≤ o.map && o.map ≤ 7

/-- A field of an operation. -/
def FlowOp.get (o : FlowOp) (p : Bool × Nat) (n : Nat) : Nat :=
  if p.1 then (match o.ext with | some x => x.toNat / 2 ^ p.2 % 2 ^ n | none => 0) else o.w.toNat / 2 ^ p.2 % 2 ^ n

/-- Replaces a field of n bits of a number. -/
def putField (x lo n v : Nat) : Nat := x / 2 ^ (lo + n) * 2 ^ (lo + n) + v % 2 ^ n * 2 ^ lo + x % 2 ^ lo

/-- Replaces a field of an operation. -/
def FlowOp.put (o : FlowOp) (p : Bool × Nat) (n v : Nat) : FlowOp :=
  if p.1 then { o with ext := o.ext.map fun x => BitVec.ofNat 32 (putField x.toNat p.2 n v) }
  else { o with w := BitVec.ofNat 48 (putField o.w.toNat p.2 n v) }

/-- The cluster an operation names, or its own. -/
def FlowOp.named (o : FlowOp) : Nat :=
  match o.instr.bind clusterField with
  | some p => o.get p 3
  | none => o.vcl

/-- The cluster of a field's register: a written register is the operation's own. -/
def FlowOp.fieldCl (o : FlowOp) (wr : Bool) : Nat := if wr then o.vcl else o.named

/-- What a field's code names (R119, R267). -/
def codeName (c code : Nat) : List Nm :=
  if code < 256 then [.v c code] else if code < 320 then [.x c code] else if 384 ≤ code && code < 448 then [.s (code - 384)] else []

/-- The vector names of an operation's read or written fields. -/
def FlowOp.fieldNames (o : FlowOp) (wr : Bool) : List Nm :=
  match o.instr with
  | none => []
  | some i => ((vecFields i).filter fun f => f.2 == wr).flatMap fun f => codeName (o.fieldCl f.2) (o.get f.1.place 9)

/-- The guard an operation reads: its predicate, or its lane mask. -/
def FlowOp.guard (o : FlowOp) : List Nm :=
  if o.vec then [.m o.vcl (o.get (false, 37) 3)] else if o.map < 5 then [.p (o.get (false, 35) 4)] else []

/-- The registers an operation reads (R271). -/
def FlowOp.reads (o : FlowOp) : List Nm :=
  match o.instr with
  | none | some (.nop _) => []
  | some i => (o.guard ++ o.fieldNames false ++ plainReads o.vcl o.named i).filter fun x => !x.const

/-- A destination as the finisher names it. -/
def destName (c : Nat) : DestReg → List Nm
  | .s r => [.s r.toNat]
  | .a r => [.a r.toNat]
  | .p r => [.p r.toNat]
  | .n r => [.n r.toNat]
  | .v _ r => codeName c r.toNat
  | .m _ r => [.m c r.toNat]

/-- The registers an operation writes. DEDUCED (log 74): which work register an NXU writes is known only when it runs (R33), so
it counts as writing each. -/
def FlowOp.writes (o : FlowOp) : List Nm :=
  match o.instr with
  | none => []
  | some (.nxu ..) => [.w 0, .w 1, .w 2, .w 3]
  | some i => ((dests i).flatMap (destName o.vcl)).filter fun x => !x.const

/-- The pops of the load-data queue an operation makes (R119). -/
def FlowOp.pops (o : FlowOp) : Nat :=
  match o.instr with
  | none => 0
  | some i => ((vecFields i).filter fun f => !f.2 && !f.1.place.1 && o.get f.1.place 9 == 320).length

/-- Whether it pushes. -/
def FlowOp.pushes (o : FlowOp) : Bool :=
  match o.instr with
  | some (.pushld ..) | some (.pushlds ..) | some (.pushldx ..) => true
  | _ => false

/-- Its latency. -/
def FlowOp.lat (o : FlowOp) : Nat := match o.instr with | some i => flowLat i | none => 0

/-- A transfer (R269). -/
def FlowOp.xfer (o : FlowOp) : Bool :=
  match o.instr with
  | some (.br ..) | some (.brc ..) | some (.jmp ..) | some (.call ..) | some (.calli ..) | some (.ret ..)
  | some (.halt ..) => true
  | _ => false

/-- A transfer whose IMM16 names a region (R269, R280). -/
def FlowOp.toRegion (o : FlowOp) : Bool :=
  match o.instr with
  | some (.br ..) | some (.brc ..) | some (.call ..) => true
  | _ => false

/-- The window of an MX operation (R195, R272); NOP holds nothing. -/
def FlowOp.mxWindow (o : FlowOp) : Option Nat :=
  match o.instr with
  | some (.mma _ _ _ m) => some (m.nb.toNat + 1)
  | some (.mmag _ _ _ _ m) => some (m.nb.toNat + 2)
  | some (.latch ..) | some (.latcht ..) => some 64
  | some (.accz _ r) | some (.accwr _ _ r _) => some (r.n.toNat + 1)
  | some (.accrd _ _ r _) => some (r.n.toNat + 10)
  | _ => none

/-! ### Regions (R265, R268) -/

/-- An induction: its scalar and step. -/
structure Induct where
  reg : Nat
  step : Int
  deriving DecidableEq, Repr

/-- A dependence record. -/
structure DepRec where
  prod : Nat
  cons : Nat
  dist : Nat
  kind : Nat
  reserved : Nat
  deriving DecidableEq, Repr

/-- A region as read. -/
structure Region where
  kind : Nat
  pm : Bool
  anno : Bool
  trip : Nat
  tripReg : Nat
  kReg : Nat
  minTrip : Nat
  iv0 : Option Induct
  iv1 : Option Induct
  hashOk : Bool
  ops : List FlowOp
  prio : List Nat
  deps : List DepRec
  recur : List Nat
  colour : List Nat
  deriving DecidableEq, Repr

/-- A loop region. -/
def Region.loop (r : Region) : Bool := r.kind != 0
/-- The valid inductions, each with the S slot it uses (R274). -/
def Region.ivs (r : Region) : List (Nat × Induct) :=
  (match r.iv0 with | some i => [(0, i)] | none => []) ++ (match r.iv1 with | some i => [(1, i)] | none => [])

/-- The number in n bytes of some bytes at an offset. -/
def numAt (bs : List Byte) (off n : Nat) : Nat := leNat ((bs.drop off).take n)

/-- FNV-1a of some bytes (R268). -/
def fnv1a (bs : List Byte) : Dword :=
  bs.foldl (fun h b => (h ^^^ b.setWidth 64) * 0x100000001B3) 0xCBF29CE484222325

/-- The slot an op word of a map is decoded for; vector operations are decoded for cluster 0. -/
def mapSlot (m : Nat) : Nat :=
  match m with
  | 0 => 0 | 1 => 2 | 2 => 3 | 3 => 4 | 4 => 5 | 5 => 6 | 6 => 8 | _ => 9

/-- Why a region is refused (R269). -/
inductive Refuse
  | illegal | struct | noclus | far | vdef | undef
  deriving DecidableEq, Repr

/-- The code of R269. -/
def Refuse.code : Refuse → Nat
  | .illegal => 0x40 | .struct => 0x41 | .noclus => 0x42 | .far => 0x43 | .vdef => 0x44 | .undef => 0x45

/-- Whether a sync word is illegal (R122). -/
def syncIllegal (w : Word) : Bool := w.extractLsb' 0 12 != 0 || w.extractLsb' 14 16 == 0

/-- One operation; `none` when its word is illegal. -/
def flowOp (map vcl : Nat) (w : BitVec 48) (ext : Option Word) : Option FlowOp :=
  if map == 8 then if syncIllegal (w.setWidth 32) then none else some ⟨map, vcl, w, ext, none⟩
  else
    match decodeOp (mapSlot map) w (ext.getD 0) with
    | .ok i => some ⟨map, vcl, w, ext, some i⟩
    | .error _ => none

/-- The flow words of a region, as numbers (R266). -/
def flowOps : List Nat → Except Refuse (List (Option FlowOp))
  | [] => .ok []
  | x :: t =>
    let map := x / 2 ^ 60 % 16
    let vcl := x / 2 ^ 56 % 16
    let w : BitVec 48 := BitVec.ofNat 48 x
    if x / 2 ^ 48 % 256 != 0 || 9 ≤ map || (vcl != 0 && !(5 ≤ map && map ≤ 7)) || (map == 8 && w.extractLsb' 32 16 != 0) then
      .error .struct
    else if map < 8 && opHasExt (mapSlot map) w then
      match t with
      | [] => .error .struct
      | y :: u =>
        if y / 2 ^ 60 % 16 != 15 || y / 2 ^ 32 % 2 ^ 28 != 0 then .error .struct
        else (flowOps u).map fun r => flowOp map vcl w (some (BitVec.ofNat 32 y)) :: r
    else (flowOps t).map fun r => flowOp map vcl w none :: r

/-- An induction of a region header. -/
def inductOf (x : Nat) : Option Induct :=
  if x / 64 % 2 == 1 then some ⟨x % 64, (BitVec.ofNat 24 (x / 256)).toInt⟩ else none

/-- A table of 16-bit entries takes a multiple of 8 bytes. -/
def tabLen (n : Nat) : Nat := (2 * n + 7) / 8 * 8
/-- The entries of such a table. -/
def tab16 (bs : List Byte) (off n : Nat) : List Nat := (List.range n).map fun i => numAt bs (off + 2 * i) 2

/-- A dependence record. -/
def depOf (x : Nat) : DepRec :=
  ⟨x % 2 ^ 16, x / 2 ^ 16 % 2 ^ 16, x / 2 ^ 32 % 256, x / 2 ^ 40 % 4, x / 2 ^ 42⟩

/-- Whether a region header is malformed (R265). -/
def headerBad (h : Nat) : Bool :=
  let f := fun (lo n : Nat) => h / 2 ^ lo % 2 ^ n
  f 0 2 == 3 || f 4 12 != 0 || f 48 16 != 0 || f 108 4 != 0 || f 135 1 != 0 || f 167 1 != 0 || f 304 208 != 0 ||
    f 16 16 == 0 || 4096 < f 16 16 || (f 0 2 == 0 && f 64 128 != 0) || (f 0 2 != 0 && f 64 32 == 0 && f 112 16 == 0)

/-- The scalars a loop's operations must not write (R269). -/
def ownedScalars (r : Region) : List Nm :=
  ([2, 3, 4, 5, 6, 7, r.kReg] ++ r.ivs.map fun i => i.2.reg).map fun x => .s x

/-- Whether the operations of a region break its structure (R269). -/
def opsBad (r : Region) (nreg : Nat) : Bool :=
  let n := r.ops.length
  ((List.range n).zip r.ops).any fun jo =>
    (match jo.2.instr with | some (.loop ..) | some (.loopx ..) => true | _ => false) ||
      (jo.2.xfer && (r.loop || jo.1 + 1 != n)) || (r.loop && jo.2.writes.any fun x => (ownedScalars r).contains x) ||
      (jo.2.toRegion && nreg ≤ jo.2.get (false, 0) 16)

/-- Reads a region of `nreg` from its bytes (R265 to R269). DESIGN CHOICE (log 70): where several cases of R269 hold at once, the
code is that of the first in this order: a STRUCT of the header and the flow words, ILLEGAL, any other STRUCT, then NOCLUS,
VDEF and UNDEF (`refusal`), and of what is emitted ILLEGAL before FAR. -/
def parseRegion (bs : List Byte) (nreg : Nat) : Except Refuse Region :=
  let h := numAt bs 0 64
  let f := fun (lo n : Nat) => h / 2 ^ lo % 2 ^ n
  let nops := f 16 16
  let nw := f 32 16
  let anno := f 3 1 == 1
  let ndep := f 256 16
  let rcl := f 272 16
  let ncol := f 288 16
  let tabs := 64 + 8 * nw
  if bs.length < 64 || headerBad h ||
      bs.length != tabs + (if anno then tabLen nops + 8 * ndep + tabLen rcl + tabLen ncol else 0) then .error .struct
  else
    match flowOps ((List.range nw).map fun i => numAt bs (64 + 8 * i) 8) with
    | .error e => .error e
    | .ok os =>
      if os.length != nops then .error .struct
      else
        match os.mapM id with
        | none => .error .illegal
        | some ops =>
          let deps := tabs + tabLen nops
          let recs := deps + 8 * ndep
          let r : Region :=
            { kind := f 0 2, pm := f 2 1 == 1, anno := anno, trip := f 64 32, tripReg := f 96 6, kReg := f 102 6,
              minTrip := f 112 16, iv0 := inductOf (f 128 32), iv1 := inductOf (f 160 32),
              hashOk := fnv1a ((bs.drop 64).take (8 * nw)) == BitVec.ofNat 64 (f 192 64), ops := ops,
              prio := if anno then tab16 bs tabs nops else [],
              deps := if anno then (List.range ndep).map fun i => depOf (numAt bs (deps + 8 * i) 8) else [],
              recur := if anno then tab16 bs recs rcl else [],
              colour := if anno then tab16 bs (recs + tabLen rcl) ncol else [] }
          if opsBad r nreg then .error .struct else .ok r

/-- The virtual registers an operation names. -/
def FlowOp.virts (o : FlowOp) : List Nm := (o.reads ++ o.writes).filter Nm.virt
/-- The virtual registers of a region. -/
def Region.virts (r : Region) : List Nm := (r.ops.flatMap FlowOp.virts).eraseDups
/-- The virtual registers its operations write. -/
def Region.defs (r : Region) : List Nm := r.ops.flatMap fun o => o.writes.filter Nm.virt

/-- What refuses a region for a mask, apart from what its bytes show (R269). -/
def refusal (r : Region) (mask : Byte) : Option Refuse :=
  if mask == 0 && r.ops.any FlowOp.vec then some .noclus
  else if r.defs.eraseDups.length != r.defs.length then some .vdef
  else if !r.loop && r.virts.any fun v => !r.defs.contains v then some .undef
  else none

/-! ### Flow segments (R264) -/

/-- The header of a flow segment, its tables of region indices, and its directory: offset and length of each region. All
regions lie with the directory between CODEOFF and CODEOFF + CODELEN. -/
structure FlowSeg where
  codeOff : Nat
  codeLen : Nat
  constOff : Nat
  constLen : Nat
  dataOff : Nat
  dataLen : Nat
  nent : Nat
  entries : List Nat
  splo : Nat
  sphi : Nat
  dir : List Nat
  deriving DecidableEq, Repr

/-- A section of constants or data is absent, with offset 0, or stands whole at a 64 KiB boundary (R135). -/
def sectionBad (bs : List Byte) (off len : Nat) : Bool :=
  if len == 0 then off != 0 else off % 65536 != 0 || bs.length < off + len

/-- Reads the header and directory of a flow segment; `none` when they are malformed. -/
def parseFlow (bs : List Byte) : Option FlowSeg :=
  let h := numAt bs 0 64
  let f := fun (lo n : Nat) => h / 2 ^ lo % 2 ^ n
  let co := f 64 32
  let n := f 256 8 + 1 + f 264 16
  let nreg := numAt bs co 2
  let es := (List.range n).map fun i => numAt bs (0x40 + 4 * i) 4
  if bs.length < 64 || f 0 32 != 0x4753565A || f 32 8 != 1 || f 40 24 != 0 || f 280 8 != 0 || f 352 160 != 0 ||
      co < 0x40 + 4 * n || co % 1024 != 0 || sectionBad bs (f 128 32) (f 160 32) || sectionBad bs (f 192 32) (f 224 32) || bs.length < co + 8 || numAt bs co 8 / 2 ^ 16 != 0 || nreg == 0 ||
      bs.length < co + f 96 32 || f 96 32 < 8 + 16 * nreg || es.any (nreg ≤ ·) then none
  else some
    { codeOff := co, codeLen := f 96 32, constOff := f 128 32, constLen := f 160 32, dataOff := f 192 32, dataLen := f 224 32,
      nent := f 256 8 + 1, entries := es, splo := f 288 32, sphi := f 320 32,
      dir := (List.range nreg).map fun i => numAt bs (co + 8 + 16 * i) 16 }

/-- Reads region i of a flow segment. -/
def readRegion (bs : List Byte) (g : FlowSeg) (i : Nat) : Except Refuse Region :=
  let e := g.dir.getD i 0
  let off := e % 2 ^ 32
  let len := e / 2 ^ 32 % 2 ^ 32
  if e / 2 ^ 64 != 0 || off % 64 != 0 || off < g.codeOff || g.codeOff + g.codeLen < off + len then .error .struct
  else parseRegion ((bs.drop off).take len) g.dir.length

end Sys2Proof.Machine
end

