-- ==== Sys2Proof/Machine/Place.lean ====
section
/-! DEFINITION. The finisher's pass over a region (R271 to R276): dependences, the checks of R270 that need no placement,
the first initiation interval, placement, and register allocation. -/
namespace Sys2Proof.Machine

/-- The owned clusters of an arrangement, lowest first (R267). -/
def ownedCls (mask : Byte) : List Nat := (List.range 8).filter fun c => mask.getLsbD c

/-- The owned cluster a virtual cluster runs on (R267). -/
def mappedCl (mask : Byte) (x : Nat) : Nat := (ownedCls mask).getD (x % (ownedCls mask).length) x

/-- CPOPS (R270): a cluster-parallel loop that cannot be scheduled fast. -/
def Region.cpops (r : Region) : Bool := r.kind == 2 && (r.trip == 0 || r.ops.any fun o => !o.vec || o.vcl != 0)

/-- The owned cluster a virtual cluster of a region counts as in the scan of R271: the one it runs on; but all copies of a
cluster-parallel loop, which is written for virtual cluster 0, count as one. -/
def Region.clusterAs (r : Region) (mask : Byte) (x : Nat) : Nat := mappedCl mask (if r.kind == 2 && !r.cpops then 0 else x)

/-- A name with physical registers under their mapped cluster. -/
def Region.nameOf (g : Region) (mask : Byte) : Nm → Nm
  | .x c r => .x (g.clusterAs mask c) r
  | .m c r => .m (g.clusterAs mask c) r
  | .s r => .s r | .a r => .a r | .p r => .p r | .n r => .n r | .w r => .w r | .v c r => .v c r

/-- A quotient rounded up. -/
def cdiv (a b : Nat) : Nat := (a + b - 1) / b

/-! ### Dependences (R271, R272) -/

/-- What an operation of a region reads and writes. -/
structure Use where
  ix : Nat
  op : FlowOp
  reads : List Nm
  writes : List Nm
  deriving DecidableEq, Repr

/-- A dependence, with its delay; `reg` marks the register dependences, which records must cover. -/
structure Dep where
  prod : Nat
  cons : Nat
  dist : Nat
  delay : Nat
  reg : Bool
  deriving DecidableEq, Repr

/-- The operations of a region with their registers. -/
def Region.uses (r : Region) (mask : Byte) : List Use :=
  ((List.range r.ops.length).zip r.ops).map fun io =>
    ⟨io.1, io.2, (io.2.reads.map (r.nameOf mask)).eraseDups, (io.2.writes.map (r.nameOf mask)).eraseDups⟩

/-- RAW: from the nearest earlier writer, or in a loop from the last writer of the iteration before. -/
def rawDeps (loop : Bool) (us : List Use) : List Dep :=
  us.flatMap fun u => u.reads.flatMap fun x =>
    match ((us.take u.ix).filter fun p => p.writes.contains x).getLast? with
    | some p => [⟨p.ix, u.ix, 0, p.op.lat, true⟩]
    | none =>
      match (us.filter fun p => p.writes.contains x).getLast? with
      | some p => if loop then [⟨p.ix, u.ix, 1, p.op.lat, true⟩] else []
      | none => []

/-- WAR and WAW within an iteration: from each read and each write of a physical register to the next write. -/
def nextWrites (us : List Use) : List Dep :=
  us.flatMap fun u =>
    let hs : List (Nm × Nat) := (u.reads.map fun x => (x, 0)) ++ u.writes.map fun x => (x, u.op.lat)
    hs.flatMap fun xd =>
      match (us.drop (u.ix + 1)).find? fun (q : Use) => q.writes.contains xd.1 with
      | some q => if xd.1.virt then [] else [⟨u.ix, q.ix, 0, xd.2, true⟩]
      | none => []

/-- WAR and WAW across iterations: from the last read and the last write of a physical register to its first write. -/
def wrapWrites (us : List Use) : List Dep :=
  (((us.flatMap (·.writes)).filter fun x => !x.virt).eraseDups).flatMap fun x =>
    match us.find? (·.writes.contains x) with
    | none => []
    | some q =>
      (match (us.filter (·.reads.contains x)).getLast? with | some p => [⟨p.ix, q.ix, 1, 0, true⟩] | none => []) ++
      (match (us.filter (·.writes.contains x)).getLast? with | some p => [⟨p.ix, q.ix, 1, p.op.lat, true⟩] | none => [])

/-- The delay a SYNC or SY operation keeps to the operations around it. -/
def FlowOp.orderDelay (o : FlowOp) : Option Nat := if o.map == 8 then some 0 else if o.map == 4 then some 1 else none

/-- The implicit edges of SYNC and SY operations. -/
def orderDeps (us : List Use) : List Dep :=
  us.flatMap fun u =>
    match u.op.orderDelay with
    | none => []
    | some d => us.filterMap fun v =>
        if v.ix < u.ix then some ⟨v.ix, u.ix, 0, d, false⟩ else if u.ix < v.ix then some ⟨u.ix, v.ix, 0, d, false⟩ else none

/-- The pushes and pops of one mapped cluster's load-data queue: operation and whether it pushes. -/
def Region.queueOps (r : Region) (mask : Byte) (us : List Use) (c : Nat) : List (Nat × Bool) :=
  us.flatMap fun u =>
    (if u.op.pushes && r.clusterAs mask u.op.named == c then [(u.ix, true)] else []) ++
    (if 0 < u.op.pops && r.clusterAs mask u.op.vcl == c then [(u.ix, false)] else [])

/-- The implicit edges of the load-data queues. -/
def Region.ldqDeps (r : Region) (mask : Byte) (us : List Use) : List Dep :=
  (List.range 16).flatMap fun c =>
    let q := r.queueOps mask us c
    let same := q.flatMap fun a => q.filterMap fun b =>
      if a.1 < b.1 && (a.2 == b.2 || a.2) then some ⟨a.1, b.1, 0, 1, false⟩ else none
    let wrap := fun (k : Bool) =>
      match q.find? (·.2 == k), (q.filter (·.2 == k)).getLast? with
      | some a, some b => [(⟨b.1, a.1, 1, 1, false⟩ : Dep)]
      | _, _ => []
    same ++ if r.loop then wrap true ++ wrap false else []

/-- Every dependence of R271. -/
def Region.allDeps (r : Region) (mask : Byte) : List Dep :=
  let us := r.uses mask
  rawDeps r.loop us ++ nextWrites us ++ (if r.loop then wrapWrites us else []) ++ orderDeps us ++ r.ldqDeps mask us

/-- Whether a record covers a dependence (R270). -/
def DepRec.covers (x : DepRec) (d : Dep) : Bool :=
  x.kind == 0 && x.prod == d.prod && x.cons == d.cons && x.dist == d.dist

/-- The delay of a record (R270, R272). -/
def DepRec.delay (ds : List Dep) (x : DepRec) : Nat :=
  if x.kind == 0 then (ds.filter fun d => d.reg && x.covers d).foldl (fun m d => max m d.delay) 0 else 1

/-- The edges placement obeys: the dependences, and the records as written. -/
def Region.edges (r : Region) (ds : List Dep) : List Dep :=
  ds ++ r.deps.map fun x => ⟨x.prod, x.cons, x.dist, x.delay ds, false⟩

/-! ### The checks of R270 before placement -/

/-- The recurrences of a recurrence list, as record indices. -/
def recurrences : Nat → List Nat → Option (List (List Nat))
  | _, [] => some []
  | 0, _ => none
  | f + 1, m :: t =>
    if m < 2 || 64 < m || t.length < m then none else (recurrences f (t.drop m)).map fun r => t.take m :: r

/-- The recurrences of a region. -/
def Region.cycles (r : Region) : Option (List (List Nat)) := recurrences r.recur.length r.recur

/-- Whether records form a cycle whose distances do not sum to zero. -/
def isCycle (rs : List DepRec) : Bool :=
  match rs with
  | [] => false
  | a :: t => (rs.zip (t ++ [a])).all (fun p => p.1.cons == p.2.prod) && rs.any fun x => x.dist != 0

/-- The virtual register a colouring entry names. -/
def colourName (x : Nat) : Nm := .v (x / 256 % 16) (x % 256)

/-- The position of an operation in a priority list. -/
def prioPos (r : Region) (o : Nat) : Nat := r.prio.findIdx (· == o)

/-- PERM. -/
def permBad (r : Region) (ds : List Dep) : Bool :=
  let n := r.ops.length
  let zero := (ds.filterMap fun d => if d.dist == 0 then some (d.prod, d.cons) else none) ++
    r.deps.filterMap fun x => if x.dist == 0 && x.prod < n && x.cons < n then some (x.prod, x.cons) else none
  (List.range n).any (fun o => r.prio.count o != 1) || zero.any fun pc => prioPos r pc.2 < prioPos r pc.1

/-- BADREF. -/
def refBad (r : Region) : Bool :=
  let n := r.ops.length
  let vs := r.virts
  r.deps.any (fun x => n ≤ x.prod || n ≤ x.cons || x.kind == 3 || x.reserved != 0) ||
    (match r.cycles with | some cs => cs.any fun c => c.any (r.deps.length ≤ ·) | none => false) ||
    r.colour.any fun x => 4096 ≤ x || !vs.contains (colourName x)

/-- RECUR. -/
def recurBad (r : Region) : Bool :=
  match r.cycles with
  | none => true
  | some cs => cs.any fun c => !isCycle (c.filterMap fun i => r.deps[i]?)

/-- The first check of R270 that holds before placement. -/
def staticCode (r : Region) (ds : List Dep) : Option Nat :=
  if !r.hashOk then some 1
  else if !r.anno then some 2
  else if ds.any fun d => d.reg && !r.deps.any (·.covers d) then some 3
  else if permBad r ds then some 4
  else if refBad r then some 5
  else if recurBad r then some 6
  else if r.virts.any fun v => (r.colour.map colourName).count v != 1 then some 7
  else none

/-- Whether an operation reads an induction scalar other than as the base of a VM operation (INDUSE). -/
def FlowOp.misuses (o : FlowOp) (s : Nat) : Bool :=
  (if o.map == 7 && o.get Fld.va.place 9 == 384 + s then 1 else 0) < o.reads.count (.s s)

/-- The checks of R270 that follow those of placement. -/
def lateCode (r : Region) (mask : Byte) : Option Nat :=
  if r.ivs.any fun i => r.ops.any (·.misuses i.2.reg) then some 0x0C
  else if r.cpops then some 0x0D
  else if r.kind == 2 && r.trip % (ownedCls mask).length != 0 then some 0x0E
  else none

/-! ### The first initiation interval (R273) -/

/-- The iterations that make one group. -/
def Region.unroll (r : Region) (mask : Byte) : Nat := if r.kind == 2 then max 1 (ownedCls mask).length else 1

/-- The cluster whose slots an operation is placed in. -/
def Region.clusterOf (r : Region) (mask : Byte) (o : FlowOp) : Nat := r.clusterAs mask o.vcl

/-- The sync word, as a slot of its own. -/
def syncSlot : Nat := 38

/-- The slots an operation may take, in order (R266). -/
def Region.slots (r : Region) (mask : Byte) (o : FlowOp) : List Nat :=
  let b := 6 + 4 * r.clusterOf mask o
  match o.map with
  | 0 => [0, 1] | 1 => [2] | 2 => [3] | 3 => [4] | 4 => [5] | 5 => [b, b + 1] | 6 => [b + 2] | 7 => [b + 3]
  | _ => [syncSlot]

/-- ResII. -/
def resII (r : Region) (mask : Byte) : Nat :=
  let ss := r.ops.map (r.slots mask)
  let each := ss.eraseDups.map fun c => cdiv (ss.count c + if c == [0, 1] then r.ivs.length else 0) c.length
  let mx := r.ops.foldl (fun n o => match o.mxWindow with | some w => n + w + 1 | none => n) 0
  (each ++ [cdiv r.ivs.length 2, mx]).foldl max 0

/-- RecII. -/
def recII (r : Region) (ds es : List Dep) : Nat :=
  let loops := ((r.cycles.getD []).map fun c =>
    let rs := c.filterMap fun i => r.deps[i]?
    cdiv ((rs.map (·.delay ds)).sum) (rs.map (·.dist)).sum)
  let selfs := es.filterMap fun d => if d.prod == d.cons && d.dist != 0 then some (cdiv d.delay d.dist) else none
  (loops ++ selfs).foldl max 0

/-! ### Placement (R274, R275) -/

/-- The reservation table and the operations placed: number, time and slot. -/
structure Grid where
  ops : List (Nat × Nat × Nat) := []
  used : List (Nat × Nat) := []
  mx : List Nat := []
  deriving DecidableEq, Repr

/-- The time of a placed operation. -/
def Grid.time? (g : Grid) (o : Nat) : Option Nat := (g.ops.find? (·.1 == o)).map (·.2.1)
/-- The time of an operation once all are placed. -/
def Grid.time (g : Grid) (o : Nat) : Nat := (g.time? o).getD 0
/-- Its slot. -/
def Grid.slot (g : Grid) (o : Nat) : Nat := ((g.ops.find? (·.1 == o)).map (·.2.2)).getD 0

/-- Places an operation at time t when a slot and its engine rows are free; with ii = 0 the table is linear. -/
def Grid.put (g : Grid) (r : Region) (mask : Byte) (ii o t : Nat) : Option Grid :=
  match r.ops[o]? with
  | none => none
  | some f =>
    let rows := match f.mxWindow with | some n => (List.range (n + 1)).map fun j => (t + j) % ii | none => []
    match (r.slots mask f).find? fun c => !g.used.contains (t % ii, c) with
    | none => none
    | some c =>
      if rows.eraseDups.length != rows.length || rows.any g.mx.contains then none
      else some { ops := g.ops ++ [(o, t, c)], used := (t % ii, c) :: g.used, mx := rows ++ g.mx }

/-- Places an operation at the first of `n` times from t on that takes it. -/
def Grid.putFrom (g : Grid) (r : Region) (mask : Byte) (ii o : Nat) : Nat → Nat → Option Grid
  | 0, _ => none
  | n + 1, t =>
    match g.put r mask ii o t with
    | some h => some h
    | none => g.putFrom r mask ii o n (t + 1)

/-- The times after which a linear table surely takes an operation. -/
def Grid.reachLen (g : Grid) (r : Region) (o : Nat) : Nat :=
  let n := ((r.ops[o]?).bind FlowOp.mxWindow).getD 0
  g.used.length + g.mx.length * (n + 1) + 1

/-- The earliest time the placed predecessors allow. -/
def Grid.earliest (g : Grid) (es : List Dep) (ii o : Nat) : Nat :=
  es.foldl (fun m d =>
    if d.cons == o && d.prod != o then
      match g.time? d.prod with | some t => max m (t + d.delay - ii * d.dist) | none => m
    else m) 0

/-- The latest time the placed successors allow, within n times from e on: how many of them. -/
def Grid.room (g : Grid) (es : List Dep) (ii o e n : Nat) : Nat :=
  es.foldl (fun m d =>
    if d.prod == o && d.cons != o then
      match g.time? d.cons with | some t => min m (t + ii * d.dist + 1 - (e + d.delay)) | none => m
    else m) n

/-- Modulo placement at one initiation interval (R274). -/
def Region.modulo (r : Region) (mask : Byte) (es : List Dep) (ii : Nat) : Option Grid :=
  r.prio.foldl (fun (g : Option Grid) o => g.bind fun g =>
    let e := g.earliest es ii o
    g.putFrom r mask ii o (g.room es ii o e ii) e) (some { used := r.ivs.map fun i => (0, i.1) })

/-- The end of an operation's result window, or of the operation itself. -/
def FlowOp.lastCycle (o : FlowOp) (t : Nat) : Nat := t + max o.lat 1 - 1

/-- The end point of the placed operations (R275). -/
def Grid.endPoint (g : Grid) (r : Region) : Nat :=
  g.ops.foldl (fun m p => match r.ops[p.1]? with | some f => max m (f.lastCycle p.2.1) | none => m) 0

/-- The transfer a straight region ends in. -/
def Region.transfer (r : Region) : Option Nat :=
  match r.ops.getLast? with
  | some o => if !r.loop && o.xfer then some (r.ops.length - 1) else none
  | none => none

/-- Puts an operation into a linear table at the first time from e on. -/
def Grid.linear (g : Grid) (r : Region) (mask : Byte) (o e : Nat) : Grid :=
  (g.putFrom r mask 0 o (g.reachLen r o) e).getD g

/-- Placement of a straight region (R274, R275). -/
def Region.straight (r : Region) (mask : Byte) (es : List Dep) : Grid :=
  let g := (r.prio.filter fun o => some o != r.transfer).foldl (fun g o => g.linear r mask o (g.earliest es 0 o)) {}
  match r.transfer with
  | some o => g.linear r mask o (max (g.endPoint r) (g.earliest es 0 o))
  | none => g

/-! ### Register allocation (R276) -/

/-- The operation that writes a virtual register. -/
def Region.writer (r : Region) (v : Nm) : Option Nat :=
  let i := r.ops.findIdx fun o => o.writes.contains v
  if i < r.ops.length then some i else none

/-- The iteration distance at which operation o reads a virtual register (R271). -/
def Region.readDist (r : Region) (v : Nm) (o : Nat) : Nat :=
  match r.writer v with
  | some p => if r.loop && o ≤ p then 1 else 0
  | none => 0

/-- From the producer's time to the last time a virtual register is needed. -/
def Region.life (r : Region) (g : Grid) (ii : Nat) (v : Nm) : Nat × Nat :=
  match r.writer v with
  | none => (0, 0)
  | some p =>
    let t := g.time p
    let lat := match r.ops[p]? with | some f => f.lat | none => 0
    let ends := ((List.range r.ops.length).zip r.ops).filterMap fun io =>
      if io.2.reads.contains v then some (g.time io.1 + ii * r.readDist v io.1) else none
    (t, ends.foldl max (t + lat))

/-- The mapped cluster of a virtual register's register file. -/
def Region.fileOf (r : Region) (mask : Byte) : Nm → Nat
  | .v c _ => r.clusterAs mask c
  | _ => 0

/-- A register assignment: virtual register, first physical number, copies. -/
abbrev Alloc := List (Nm × Nat × Nat)

/-- The copies a virtual register of a loop needs. -/
def Region.copies (r : Region) (g : Grid) (ii : Nat) (v : Nm) : Nat :=
  let l := r.life g ii v
  max 1 (cdiv (l.2 - l.1) ii)

/-- The least common multiple of all copy counts. -/
def Alloc.period (a : Alloc) : Nat := a.foldl (fun k x => Nat.lcm k x.2.2) 1

/-- Allocation in a loop: the next k numbers upward; `none` when the registers do not fit. -/
def Region.allocLoop (r : Region) (mask : Byte) (g : Grid) (ii : Nat) : Option Alloc :=
  let a := (r.colour.map colourName).foldl (fun (a : Alloc) v =>
    let used := (a.filter fun x => r.fileOf mask x.1 == r.fileOf mask v).foldl (fun n x => n + x.2.2) 0
    a ++ [(v, used, r.copies g ii v)]) []
  if 8 < a.period || a.any fun x => 256 < x.2.1 + x.2.2 then none else some a

/-- Allocation in a straight region: the lowest number whose intervals do not meet; `none` when none fits. -/
def Region.allocStraight (r : Region) (mask : Byte) (g : Grid) : Option Alloc :=
  (r.colour.map colourName).foldl (fun (a : Option Alloc) v => a.bind fun a =>
    let l := r.life g 0 v
    let clash := fun (q : Nat) => a.any fun x =>
      let m := r.life g 0 x.1
      x.2.1 == q && r.fileOf mask x.1 == r.fileOf mask v && m.1 + 1 ≤ l.2 && l.1 + 1 ≤ m.2
    match (List.range 256).find? fun q => !clash q with
    | some q => some (a ++ [(v, q, 1)])
    | none => none) (some [])

/-- What placement found: the interval, the raises made, and the placed operations with their registers, or `none` when
four raises were not enough. -/
structure Placing where
  ii : Nat
  raises : Nat
  grid : Option (Grid × Option Alloc)
  deriving DecidableEq, Repr

/-- Tries one interval after another (R274): `left` more raises may be made. -/
def Region.placeLoop (r : Region) (mask : Byte) (es : List Dep) : (left raises ii : Nat) → Placing
  | 0, raises, ii =>
    match r.modulo mask es ii with
    | none => ⟨ii, raises, none⟩
    | some g =>
      if r.trip == 0 && r.virts.any fun v => 1 < r.copies g ii v then ⟨ii, raises, none⟩
      else ⟨ii, raises, some (g, r.allocLoop mask g ii)⟩
  | n + 1, raises, ii =>
    match r.modulo mask es ii with
    | none => r.placeLoop mask es n (raises + 1) (ii + 1)
    | some g =>
      if r.trip == 0 && r.virts.any fun v => 1 < r.copies g ii v then r.placeLoop mask es n (raises + 1) (ii + 1)
      else ⟨ii, raises, some (g, r.allocLoop mask g ii)⟩

/-- Placement and allocation of a region (R273 to R276). -/
def Region.place (r : Region) (mask : Byte) (ds : List Dep) : Placing :=
  let es := r.edges ds
  if r.loop then r.placeLoop mask es 4 0 (max 1 (max (resII r mask) (recII r ds es)))
  else
    let g := r.straight mask es
    ⟨0, 0, some (g, r.allocStraight mask g)⟩

end Sys2Proof.Machine
end

