-- ==== Sys2Proof/Machine/Emit.lean ====
section
/-! DEFINITION. What the finisher emits (R277 to R280, R354): fast, flat, straight and safe schedules, and the native
segment with its displacements, tags and signature block. -/
namespace Sys2Proof.Machine

/-! ### Bundles -/

/-- What a transfer's IMM16 leads to: a region, or a bundle of its own region. -/
inductive Target
  | region (i : Nat)
  | bundle (i : Nat)
  deriving DecidableEq, Repr

/-- A bundle being emitted: its op words by slot, sync word, pmark, and the target of its transfer. -/
structure Emit where
  ops : List (Nat × BitVec 48 × Option Word) := []
  sync : Option Word := none
  pm : Bool := false
  target : Option Target := none
  deriving DecidableEq, Repr

/-- Adds an op word. -/
def Emit.add (b : Emit) (slot : Nat) (w : BitVec 48 × Option Word) : Emit :=
  if slot == syncSlot then { b with sync := some (w.1.setWidth 32) } else { b with ops := ains b.ops slot w }

/-- Adds an instruction that the finisher writes itself. -/
def Emit.addInstr (b : Emit) (slot : Nat) (i : Instr) : Emit :=
  match encode i with
  | some w => b.add slot w
  | none => b

/-- The header of a bundle (R113). -/
def Emit.header (b : Emit) : Nat :=
  (b.ops.map fun o => 2 ^ (63 - o.1)).sum + (if b.pm then 2 ^ 25 else 0) + (if b.sync.isSome then 2 ^ 23 else 0) +
    2 ^ 17 * b.ops.length

/-- The bytes of a bundle (R112). -/
def Emit.bytes (b : Emit) : List Byte :=
  let bs := leBytes 8 b.header ++ (match b.sync with | some w => leBytes 4 w.toNat | none => []) ++
    (b.ops.flatMap fun o => leBytes 6 o.2.1.toNat) ++
    b.ops.flatMap fun o => match o.2.2 with | some x => leBytes 4 x.toNat | none => []
  bs ++ List.replicate (cdiv bs.length 8 * 8 - bs.length) 0

/-- Whether a bundle is legal under R122, as the finisher checks what it assembles (R124). -/
def Emit.legal (b : Emit) : Bool :=
  match decode b.bytes with
  | .ok d => d.ops.all fun o => o.2.isSome
  | .error _ => false

/-- The guard of an operation that always performs. -/
def always : Guard := ⟨0, false⟩

/-! ### Operations as emitted (R267, R276, R277) -/

/-- The physical number of virtual register v as group j's operation o reads or writes it; without an assignment its own
number (R279). -/
def Region.number (r : Region) (al : Option Alloc) (v : Nm) (code o j : Nat) (wr : Bool) : Nat :=
  match al.bind fun a => a.find? fun x => x.1 == v with
  | none => code
  | some (_, base, k) => base + (if wr then j else j + k - r.readDist v o) % k

/-- An operation's words with physical registers and clusters, in a copy whose virtual cluster 0 is the cluster `home`: a
cluster-parallel loop runs iteration i, written for virtual cluster 0, in owned cluster i mod P (R267). -/
def Region.words (r : Region) (mask : Byte) (home : Nat) (al : Option Alloc) (o j : Nat) (f : FlowOp) : FlowOp :=
  match f.instr with
  | none => f
  | some i =>
    let g := (vecFields i).foldl (fun (g : FlowOp) x =>
      let code := f.get x.1.place 9
      if code < 256 then
        g.put x.1.place 9 (r.number al (.v (f.fieldCl x.2) code) code o j x.2)
      else g) f
    match clusterField i with
    | some p => g.put p 3 (if f.get p 3 == 0 then home else mappedCl mask (f.get p 3))
    | none => g

/-- The bytes one step of a VM operation's offset stands for (R277). -/
def FlowOp.unit (f : FlowOp) : Int :=
  match f.instr with
  | some (.vld ..) | some (.vst ..) | some (.vlda ..) | some (.vsta ..) => 64
  | _ => 4

/-- Δ of R277 for the copy of cluster c of a VM operation placed at time t. -/
def Region.shift (r : Region) (u ii t c : Nat) (f : FlowOp) : Int :=
  if f.map == 7 then
    ((r.ivs.filter fun i => f.get Fld.va.place 9 == 384 + i.2.reg).map fun i =>
      let n : Nat := if t == 0 then 0 else (t - 1) / ii + 1
      (c : Int) * i.2.step - (n : Int) * (u : Int) * i.2.step).sum
  else 0

/-- The imm9 of a VM operation. -/
def FlowOp.imm9 (f : FlowOp) : Int := (BitVec.ofNat 9 (f.get Fld.vc.place 9)).toInt

/-- Whether every step and offset of R277 can be written. -/
def Region.shiftsFit (r : Region) (mask : Byte) (g : Grid) (ii : Nat) : Bool :=
  let u := r.unroll mask
  (r.ivs.all fun i => decide (-32768 ≤ (u : Int) * i.2.step) && decide ((u : Int) * i.2.step ≤ 32767)) &&
    ((List.range r.ops.length).zip r.ops).all fun io => (List.range u).all fun c =>
      let d := r.shift u ii (g.time io.1) c io.2
      d == 0 || (d % io.2.unit == 0 && decide (-256 ≤ io.2.imm9 + d / io.2.unit) && decide (io.2.imm9 + d / io.2.unit ≤ 255))

/-- Adds group j's operation o to a bundle: in a fast cluster-parallel loop its copy in every owned cluster. `ii` is 0 where
no induction step is emitted. -/
def Region.addOp (r : Region) (mask : Byte) (g : Grid) (al : Option Alloc) (ii j o : Nat) (b : Emit) : Emit :=
  match r.ops[o]? with
  | none => b
  | some f =>
    let u := if f.vec && al.isSome then r.unroll mask else 1
    let own := ownedCls mask
    let b1 := (List.range u).foldl (fun (b : Emit) c =>
      let w := r.words mask (own.getD c 0) al o j f
      let d := if ii == 0 then 0 else r.shift (r.unroll mask) ii (g.time o) c f
      let x := if d == 0 then w else w.put Fld.vc.place 9 (BitVec.ofInt 9 (f.imm9 + d / f.unit)).toNat
      b.add (g.slot o + 4 * (own.getD c 0 - own.getD 0 0)) (x.w, x.ext)) b
    if f.toRegion then { b1 with target := some (.region (f.get (false, 0) 16)) } else b1

/-! ### Fast schedules (R274, R275, R278, R354) -/

/-- The bundles of a linear schedule, times 0 to the end point. -/
def Region.linearBundles (r : Region) (mask : Byte) (g : Grid) (al : Option Alloc) : List Emit :=
  (List.range (g.endPoint r + 1)).map fun t =>
    (g.ops.filter fun p => p.2.1 == t).foldl (fun b p => r.addOp mask g al 0 0 p.1 b) {}

/-- The induction steps of a fast loop (R277). -/
def Region.addSteps (r : Region) (mask : Byte) (b : Emit) : Emit :=
  r.ivs.foldl (fun (b : Emit) i =>
    b.addInstr i.1 (.addi always (BitVec.ofNat 6 i.2.reg) (BitVec.ofNat 6 i.2.reg)
      (BitVec.ofInt 16 ((r.unroll mask : Int) * i.2.step)))) b

/-- The bundle of schedule time t, with the groups below `top`. -/
def Region.bundleAt (r : Region) (mask : Byte) (g : Grid) (al : Option Alloc) (ii top t : Nat) : Emit :=
  let b0 : Emit := if t % ii == 0 then r.addSteps mask {} else {}
  g.ops.foldl (fun b p =>
    if p.2.1 ≤ t && (t - p.2.1) % ii == 0 && (t - p.2.1) / ii < top then
      r.addOp mask g al ii ((t - p.2.1) / ii) p.1 b
    else b) b0

/-- The bundles of n schedule times from t on. -/
def Region.bundlesFrom (r : Region) (mask : Byte) (g : Grid) (al : Option Alloc) (ii top t n : Nat) : List Emit :=
  (List.range n).map fun i => r.bundleAt mask g al ii top (t + i)

/-- Loads an unsigned count into KREG (R354). -/
def loadCount (kreg c : Nat) : List Emit :=
  let k := BitVec.ofNat 6 kreg
  let one := fun (i : Instr) => (({} : Emit).addInstr 0 i)
  [one (.movi always k (BitVec.ofNat 16 c))] ++
    (if 32767 < c then [one (.movhi always k k (BitVec.ofNat 16 (c / 65536)) 1)] else []) ++
    if c / 32768 % 2 == 1 then [one (.movhi always k k 0 2), one (.movhi always k k 0 3)] else []

/-- The stages of a fast loop (R274). -/
def Grid.stages (g : Grid) (ii : Nat) : Nat := g.ops.foldl (fun m p => max m p.2.1) 0 / ii + 1

/-- The groups of a loop; for a run-time trip count enough of them for any bundle to hold what it always holds. -/
def Region.groups (r : Region) (mask : Byte) (g : Grid) (ii : Nat) : Nat :=
  if r.trip == 0 then g.stages ii else r.trip / r.unroll mask

/-- The kernel (R278). -/
def Region.kernel (r : Region) (mask : Byte) (g : Grid) (al : Alloc) (ii : Nat) : List Emit :=
  let s := g.stages ii
  r.bundlesFrom mask g (some al) ii (s + al.period) ((s - 1) * ii) (al.period * ii)

/-- Whether a fast loop has a kernel (R278). -/
def Region.hasKernel (r : Region) (mask : Byte) (g : Grid) (ii : Nat) : Bool :=
  r.trip == 0 || g.stages ii ≤ r.groups mask g ii

/-- A fast loop (R278). -/
def Region.fastLoop (r : Region) (mask : Byte) (g : Grid) (al : Alloc) (ii : Nat) : List Emit :=
  let s := g.stages ii
  let n := r.groups mask g ii
  let last := (n - 1) * ii + g.endPoint r
  let kp := n + 1 - s
  let run := r.bundlesFrom mask g (some al) ii
  let k := BitVec.ofNat 6 r.kReg
  if !r.hasKernel mask g ii then run n 0 (last + 1)
  else
    let header :=
      if r.trip == 0 then
        [({} : Emit).addInstr 0 (.addi always k (BitVec.ofNat 6 r.tripReg) (BitVec.ofInt 16 (1 - (s : Int))))]
      else loadCount r.kReg (kp / al.period)
    let rest := if r.trip == 0 then [] else
      run n ((s - 1) * ii + kp / al.period * al.period * ii) (kp % al.period * ii)
    header ++ run n 0 ((s - 1) * ii) ++
      [({} : Emit).addInstr 5 (.loopx always k (BitVec.ofNat 6 (al.period * ii)))] ++
      r.kernel mask g al ii ++ rest ++ run n (n * ii) (last + 1 - n * ii)

/-! ### The safe schedule (R279) -/

/-- Whether later operations stand a cycle after this one in a safe schedule. -/
def FlowOp.serial (f : FlowOp) : Bool := f.map == 1 || f.map == 2 || f.map == 3 || f.map == 4 || f.map == 7 || f.map == 8

/-- The first cycle the operations placed before allow operation o. -/
def Region.safeFrom (r : Region) (mask : Byte) (g : Grid) (ds : List Dep) (o : Nat) (f : FlowOp) : Nat :=
  let before := g.ops.foldl (fun m p =>
    match r.ops[p.1]? with
    | none => m
    | some q =>
      let pops := f.vec && 0 < q.pops && r.clusterOf mask q == r.clusterOf mask f
      max m (if q.serial || pops then p.2.1 + 1 else p.2.1)) 0
  let e := max before (g.earliest ds 0 o)
  if r.transfer == some o then max e (g.endPoint r) else e

/-- The safe placement: region order, distance-0 dependences. -/
def Region.safeGrid (r : Region) (mask : Byte) (ds : List Dep) : Grid :=
  let zero := ds.filter fun d => d.dist == 0
  ((List.range r.ops.length).zip r.ops).foldl (fun g io => g.linear r mask io.1 (r.safeFrom mask g zero io.1 io.2)) {}

/-- The steps of an induction in a safe loop: `none` where one step suffices. -/
def splitStep (st : Int) : Option (List Int) :=
  if -32768 ≤ st ∧ st ≤ 32767 then none
  else
    let n := cdiv st.natAbs 32767
    let sg : Int := if st < 0 then -1 else 1
    some (List.replicate (n - 1) (sg * 32767) ++ [sg * ((st.natAbs : Int) - 32767 * ((n : Int) - 1))])

/-- The bundles of a safe loop after its body: induction steps and BRC. -/
def Region.safeTail (r : Region) (start : Nat) : List Emit :=
  let parts := r.ivs.map fun i => (i, splitStep i.2.step)
  let n := parts.foldl (fun m p => max m (match p.2 with | some l => l.length | none => 1)) 1
  (List.range n).map fun b =>
    let steps := parts.foldl (fun (e : Emit) p =>
      let st := match p.2 with
        | some l => l[b]?
        | none => if b + 1 == n then some p.1.2.step else none
      match st with
      | some x => e.addInstr p.1.1
          (.addi always (BitVec.ofNat 6 p.1.2.reg) (BitVec.ofNat 6 p.1.2.reg) (BitVec.ofInt 16 x))
      | none => e) {}
    if b + 1 == n then
      { steps.addInstr 5 (.brc always (BitVec.ofNat 6 r.kReg) 0) with target := some (.bundle start) }
    else steps

/-- A region scheduled safely. -/
def Region.safe (r : Region) (mask : Byte) (ds : List Dep) : List Emit :=
  let g := r.safeGrid mask ds
  let body := r.linearBundles mask g none
  if r.loop then
    let header :=
      if r.trip == 0 then
        [({} : Emit).addInstr 0 (.add always (BitVec.ofNat 6 r.kReg) (BitVec.ofNat 6 r.tripReg) 0)]
      else loadCount r.kReg r.trip
    header ++ body ++ r.safeTail header.length
  else body

/-! ### A region (R262, R270) -/

/-- A finished region: its bundles, and what the log says of it (R282). -/
structure FinRegion where
  bundles : List Emit
  code : Nat
  ii : Nat
  raises : Nat
  stages : Nat
  deriving DecidableEq, Repr

/-- The check of R270 that a placed region fails, if any. -/
def Region.placedCode (r : Region) (mask : Byte) (p : Placing) : Option Nat :=
  match p.grid with
  | none => some 8
  | some (g, al) =>
    if r.loop && !r.shiftsFit mask g p.ii then some 8
    else
      match al with
      | none => some 9
      | some a =>
        let k := r.kernel mask g a p.ii
        if r.loop && r.trip == 0 && r.minTrip + 1 < g.stages p.ii then some 0x0A
        else if r.loop && r.hasKernel mask g p.ii && (32 < k.length || 4096 < (k.map (·.bytes.length)).sum) then some 0x0B
        else lateCode r mask

/-- The bundles of a placed region that no check holds back. -/
def Region.fastBundles (r : Region) (mask : Byte) (p : Placing) : List Emit :=
  match p.grid with
  | some (g, some al) => if r.loop then r.fastLoop mask g al p.ii else r.linearBundles mask g (some al)
  | _ => []

/-- Sets pmark on the first bundle (R265). -/
def markFirst (pm : Bool) : List Emit → List Emit
  | [] => []
  | b :: t => { b with pm := pm } :: t

/-- Finishes a region: fast when no check of R270 holds, else safely. -/
def Region.finish (r : Region) (mask : Byte) : FinRegion :=
  let ds := r.allDeps mask
  let safe := fun (code raises : Nat) => (⟨markFirst r.pm (r.safe mask ds), code, 0, raises, 0⟩ : FinRegion)
  match staticCode r ds with
  | some c => safe c 0
  | none =>
    let p := r.place mask ds
    match r.placedCode mask p with
    | some c => safe c p.raises
    | none =>
      ⟨markFirst r.pm (r.fastBundles mask p), 0, p.ii, p.raises,
        match p.grid with | some (g, _) => if r.loop then g.stages p.ii else 0 | none => 0⟩

/-! ### The segment (R280, R340) -/

/-- An entry of the finisher's log (R282). -/
structure LogEntry where
  region : Nat
  code : Nat
  ii : Nat
  raises : Nat
  stages : Nat
  deriving DecidableEq, Repr

/-- Running sums of sizes from a start. -/
def offsets (start : Nat) : List Nat → List Nat
  | [] => []
  | n :: t => start :: offsets (start + n) t

/-- A region's displacement-fixed bundles: `base` is the offset of its first bundle, `starts` those of all regions; `none`
when a displacement does not fit (FAR). -/
def fixRegion (starts : List Nat) (base : Nat) (bs : List Emit) : Option (List Emit) :=
  let offs := offsets base (bs.map (·.bytes.length))
  (offs.zip bs).mapM fun (ob : Nat × Emit) =>
    match ob.2.target with
    | none => some ob.2
    | some t =>
      let dest := match t with | .region i => starts.getD i 0 | .bundle i => offs.getD i 0
      let d : Int := ((dest : Int) - (ob.1 : Int)) / 8
      if d < -32768 ∨ 32767 < d then none
      else some { ob.2 with ops := ob.2.ops.map fun o =>
        if o.1 == 5 then (o.1, BitVec.ofNat 48 (putField o.2.1.toNat 0 16 (BitVec.ofInt 16 d).toNat), o.2.2) else o }

/-- Exactly n of some bytes. -/
def exactly (n : Nat) (bs : List Byte) : List Byte := (bs.take n) ++ List.replicate (n - bs.length) 0

/-- Writes bytes over others at an offset. -/
def overlay (base : List Byte) (off : Nat) (bs : List Byte) : List Byte :=
  (exactly off base) ++ bs ++ base.drop (off + bs.length)

/-- The regions of a flow segment, finished in order; a refused one, one of whose assembled bundles is illegal among them
(R124), ends the list with its entry. -/
def finishRegions (bs : List Byte) (g : FlowSeg) (mask : Byte) :
    List Nat → List FinRegion → Except (List LogEntry) (List FinRegion)
  | [], acc => .ok acc
  | i :: t, acc =>
    let logs := ((List.range acc.length).zip acc).map fun x => (⟨x.1, x.2.code, x.2.ii, x.2.raises, x.2.stages⟩ : LogEntry)
    match readRegion bs g i with
    | .error e => .error (logs ++ [⟨i, e.code, 0, 0, 0⟩])
    | .ok r =>
      match refusal r mask with
      | some e => .error (logs ++ [⟨i, e.code, 0, 0, 0⟩])
      | none =>
        let f := r.finish mask
        if f.bundles.all Emit.legal then finishRegions bs g mask t (acc ++ [f])
        else .error (logs ++ [⟨i, Refuse.illegal.code, 0, 0, 0⟩])

/-- The code of finished regions, with the offset of each region's first bundle, all counted from the code's start. -/
def regionCode (fs : List FinRegion) (starts : List Nat) :
    List (Nat × FinRegion) → List LogEntry → List Byte → Except (List LogEntry) (List LogEntry × List Byte)
  | [], logs, code => .ok (logs, code)
  | (i, f) :: t, logs, code =>
    match fixRegion starts (starts.getD i 0) f.bundles with
    | none => .error (logs ++ [⟨i, Refuse.far.code, 0, 0, 0⟩])
    | some bs =>
      regionCode fs starts t (logs ++ [⟨i, f.code, f.ii, f.raises, f.stages⟩]) (code ++ bs.flatMap Emit.bytes)

/-- A finished segment before encryption: header fields, tables and padded code. -/
structure NativeSeg where
  flow : FlowSeg
  codeOff : Nat
  code : List Byte
  starts : List Nat
  logs : List LogEntry
  deriving DecidableEq, Repr

/-- Finishes a flow variant for a mask; when it is refused, what the log receives. -/
def finishSegment (bs : List Byte) (mask : Byte) : Except (List LogEntry) NativeSeg :=
  match parseFlow bs with
  | none => .error [⟨0, Refuse.struct.code, 0, 0, 0⟩]
  | some g =>
    match finishRegions bs g mask (List.range g.dir.length) [] with
    | .error l => .error l
    | .ok fs =>
      let starts := offsets 0 (fs.map fun f => (f.bundles.map (·.bytes.length)).sum)
      match regionCode fs starts ((List.range fs.length).zip fs) [] [] with
      | .error l => .error l
      | .ok (logs, raw) =>
        let code := exactly (cdiv raw.length 1024 * 1024) raw
        let span := code.length + cdiv (16 * (code.length / 1024)) 1024 * 1024 + 1024
        let secs := (if g.constLen == 0 then [] else [(g.constOff, g.constLen)]) ++
          if g.dataLen == 0 then [] else [(g.dataOff, g.dataLen)]
        let off := if secs.all fun s => g.codeOff + span ≤ s.1 then g.codeOff
          else cdiv ((secs.map fun s => s.1 + s.2).foldl max 0) 65536 * 65536
        .ok ⟨g, off, code, starts, logs⟩

/-- The offset of the tag array (R340). -/
def NativeSeg.tagOff (n : NativeSeg) : Nat := n.codeOff + n.code.length
/-- The offset of the signature block (R340). -/
def NativeSeg.sigOff (n : NativeSeg) : Nat := n.tagOff + cdiv (16 * (n.code.length / 1024)) 1024 * 1024
/-- The length of the segment. -/
def NativeSeg.length (n : NativeSeg) : Nat :=
  max (n.sigOff + 1024) (max (n.flow.constOff + n.flow.constLen) (n.flow.dataOff + n.flow.dataLen))

/-- The header of the native segment (R135, R280). -/
def NativeSeg.header (n : NativeSeg) : Nat :=
  let g := n.flow
  0x4753565A + 2 ^ 32 + n.codeOff * 2 ^ 64 + n.code.length * 2 ^ 96 + g.constOff * 2 ^ 128 + g.constLen * 2 ^ 160 +
    g.dataOff * 2 ^ 192 + g.dataLen * 2 ^ 224 + (g.nent - 1) * 2 ^ 256 + (g.entries.length - g.nent) * 2 ^ 264 +
    g.splo * 2 ^ 288 + g.sphi * 2 ^ 320

/-- The native segment in clear: header, tables, code, and the sections of the flow body at their own offsets. -/
def NativeSeg.plain (n : NativeSeg) (bs : List Byte) : List Byte :=
  let g := n.flow
  let b0 := exactly n.length (leBytes 64 n.header ++ g.entries.flatMap fun r => leBytes 4 (n.codeOff + n.starts.getD r 0))
  let b1 := overlay b0 n.codeOff n.code
  let b2 := if g.constLen == 0 then b1 else overlay b1 g.constOff ((bs.drop g.constOff).take g.constLen)
  if g.dataLen == 0 then b2 else overlay b2 g.dataOff ((bs.drop g.dataOff).take g.dataLen)

/-- The stored segment: each code block sealed under the code key, its tag, and the signature block with PUB and SIG zero
(R340, R341); with it, its digest. -/
def NativeSeg.sealed (n : NativeSeg) (bs : List Byte) (key : BitVec 256) (segid kgen : Word) :
    List Byte × BitVec 384 :=
  let img := (List.range (n.code.length / 1024)).foldl (fun (b : List Byte) i =>
    let iv : BitVec 96 := BitVec.ofNat 96 (segid.toNat + kgen.toNat * 2 ^ 32 + i * 2 ^ 64)
    let c := Config.gcmSeal key iv ((n.code.drop (1024 * i)).take 1024)
    overlay (overlay b (n.codeOff + 1024 * i) (exactly 1024 c.1)) (n.tagOff + 16 * i) (leBytes 16 c.2.toNat)) (n.plain bs)
  let dg := Config.sha384 (img.take n.sigOff)
  (overlay img n.sigOff (leBytes 1024 (0x53474E31 + segid.toNat * 2 ^ 32 + kgen.toNat * 2 ^ 64 + dg.toNat * 2 ^ 512)), dg)

end Sys2Proof.Machine
end

