-- ==== Sys2Proof/Machine/Finisher.lean ====
section
/-! DEFINITION. The finisher's request register (R281 to R283): cache, log ring and result words; and the selector by which
a loader chooses a variant (R284). -/
namespace Sys2Proof.Machine

/-! ### Requests (R283) -/

/-- The fields of a request record. -/
def finTenant (r : Line) : Tenant := r.extractLsb' 0 4
def finRm (r : Line) : Bool := r.getLsbD 4
def finMask (r : Line) : Byte := r.extractLsb' 8 8
def finVa (r : Line) : Nat := (r.extractLsb' 16 48).toNat
def finLen (r : Line) : Nat := (r.extractLsb' 64 32).toNat
def finCbase (r : Line) : Nat := (r.extractLsb' 96 48).toNat
def finClen (r : Line) : Nat := (r.extractLsb' 144 16).toNat
def finLbase (r : Line) : Nat := (r.extractLsb' 160 48).toNat
def finLog2n (r : Line) : Nat := (r.extractLsb' 208 4).toNat
def finStart (r : Line) : Nat := (r.extractLsb' 224 32).toNat
def finResw (r : Line) : BitVec 26 := r.extractLsb' 256 26

/-- BADOP. -/
def finBad (r : Line) : Bool :=
  r.extractLsb' 5 3 != 0 || r.extractLsb' 212 12 != 0 || r.extractLsb' 282 230 != 0 || finLog2n r < 4 || 12 < finLog2n r ||
    finClen r == 0

/-- Whether n bytes of DRAM from an address on lie in blocks that have no owner. -/
def State.areaOwnerless (s : State) (a n : Nat) : Bool :=
  a + n ≤ 0x8000000000 &&
    (n == 0 || (List.range ((a + n - 1) / 0x200000 + 1 - a / 0x200000)).all fun i => s.ownerOf (a + i * 0x200000) == none)

/-- The flow variant body, when every page of it translates for reading. -/
def State.flowBody (s : State) (r : Line) : Option (List Byte) :=
  let readable := (pagePieces (finVa r) (finLen r)).all fun p =>
    match s.walk (finTenant r) p.1 with | .ok e => e.r | .error _ => false
  if finVa r + finLen r ≤ 2 ^ 48 && readable then s.vread (finTenant r) (finVa r) (finLen r) else none

/-- BADADDR, apart from the body. -/
def State.finMisplaced (s : State) (r : Line) : Bool :=
  finVa r % 65536 != 0 || finCbase r % 65536 != 0 || finLbase r % 4096 != 0 ||
    !s.areaOwned (finTenant r) (finCbase r) (65536 * finClen r) || !s.areaOwnerless (finLbase r) (16 * 2 ^ finLog2n r)

/-- Word 1 and then word 0 of a result, as a release at SYS scope. -/
def State.finResult (s : State) (r : Line) (res : Nat) (hit : Bool) (nlog off : Nat) : State :=
  (s.writeWord (tailPa (finResw r) + 4) (BitVec.ofNat 32 off)).publish (tailPa (finResw r))
    (BitVec.ofNat 32 (res + (if hit then 256 else 0) + 65536 * min nlog 0xFFFF)) fun _ => []

/-- The bytes of a log entry (R282). -/
def LogEntry.bytes (e : LogEntry) (mask : Byte) (va : Nat) : List Byte :=
  leBytes 16 (e.region % 65536 + e.code * 2 ^ 16 + mask.toNat * 2 ^ 24 + e.ii % 256 * 2 ^ 32 + e.raises % 256 * 2 ^ 40 +
    e.stages % 65536 * 2 ^ 48 + va * 2 ^ 64)

/-- Writes the entries of a request to its log ring (R282). -/
def State.finLog (s : State) (r : Line) (es : List LogEntry) : State :=
  ((List.range es.length).zip es).foldl (fun t x =>
    t.write (finLbase r + 16 * ((finStart r + x.1) % 2 ^ finLog2n r)) (x.2.bytes (finMask r) (finVa r))) s

/-- The cache entry of a key (R281). -/
def TenantSt.cached (x : TenantSt) (hash : Dword) (mask : Byte) : Option CacheEntry :=
  x.cache.find? fun e => e.hash == hash && e.mask == mask

/-- Whether a run of n units from unit i of the area at `cbase` is free. -/
def runFree (cache : List CacheEntry) (cbase n i : Nat) : Bool :=
  let a := cbase + 65536 * i
  cache.all fun e =>
    let b := e.cbase.toNat + 65536 * e.off
    a + 65536 * n ≤ b || b + 65536 * e.units ≤ a

/-- The lowest free run of n units in an area of `len` units. -/
def freeRun (cache : List CacheEntry) (cbase len n : Nat) : Option Nat :=
  (List.range (len + 1 - n)).find? fun i => runFree cache cbase n i

/-- Places a finished segment: stored, cached and verified; NOSPACE when no run holds it (R281, R283, R341). -/
def State.placeSegment (s : State) (r : Line) (bs : List Byte) (n : NativeSeg) : State :=
  let t := finTenant r
  let x := s.tenant t
  let units := cdiv n.length 65536
  let s1 := s.finLog r n.logs
  match freeRun x.cache (finCbase r) (finClen r) units with
  | none => s1.finResult r 0x2A false n.logs.length 0
  | some i =>
    let id : Word := 1#1 ++ s.segCounter
    let img := n.sealed bs x.codeKey id x.kgen
    let e : CacheEntry := ⟨fnv1a bs, finMask r, BitVec.ofNat 48 (finCbase r), i, units⟩
    let s2 := { s1 with segCounter := s.segCounter + 1 }
    let s3 := (s2.write (finCbase r + 65536 * i) img.1).modTenant t fun y =>
      { y with cache := y.cache ++ [e] }.verify (id, x.kgen, img.2)
    s3.finResult r 0x01 false n.logs.length i

/-- Finishes, returns or removes the segment of a request. DEDUCED (log 72): the word of a removal leaves HIT clear. -/
def State.finServe (s : State) (r : Line) : State :=
  let t := finTenant r
  if finBad r then s.finResult r 0x20 false 0 0
  else if s.finMisplaced r then s.finResult r 0x23 false 0 0
  else
    match s.flowBody r with
    | none => s.finResult r 0x23 false 0 0
    | some bs =>
      match (s.tenant t).cached (fnv1a bs) (finMask r) with
      | some e =>
        if finRm r then
          (s.modTenant t fun y => { y with cache := y.cache.filter (· != e) }).finResult r 0x01 false 0 0
        else s.finResult r 0x01 true 0 e.off
      | none =>
        if finRm r then s.finResult r 0x2B false 0 0
        else
          match finishSegment bs (finMask r) with
          | .error es => (s.finLog r es).finResult r 0x29 false es.length 0
          | .ok n => s.placeSegment r bs n

/-- The words of the body that a request reads. -/
def State.finWords (s : State) (r : Line) : List Nat :=
  if finBad r || s.finMisplaced r then [] else s.vwords (finTenant r) (finVa r) (finLen r)

/-- The table entries that the module reads to find it. -/
def State.finTables (s : State) (r : Line) : List Nat :=
  if finBad r || s.finMisplaced r then [] else s.vtables (finTenant r) (finVa r) (finLen r)

/-- Whether the DRAM ports serve a request: its body and its cache area in the tenant's share, its log in no tenant's
(R91). -/
def State.finOpen (s : State) (r : Line) : Bool :=
  let t := some (finTenant r)
  finBad r || s.finMisplaced r ||
    ((s.finTables r ++ s.finWords r).all (s.dramOpen t) &&
      (finRm r || (spanOpen (s.storeOpen t) (finCbase r) (65536 * finClen r) &&
        spanOpen (s.storeOpen none) (finLbase r) (16 * 2 ^ finLog2n r))))

/-- The next request, when it asks for this service; its reads of the tables and of the body may show an error. -/
def State.nextFinish (s : State) (rm : Bool) : Out :=
  match s.finQ with
  | r :: rest => enabledIf (finRm r == rm && s.finOpen r)
      ({ (s.meetNext (some .walk) none (s.finTables r)).meetNext none none (s.finWords r) with finQ := rest }.finServe r)
  | [] => .fault .notEnabled

/-- FINISH_REQUEST. -/
def execFinishRequest (s : State) : Out := s.nextFinish false
/-- FINISH_REMOVE. -/
def execFinishRemove (s : State) : Out := s.nextFinish true

/-! ### The selector (R284) -/

/-- Field patterns under which every listed opcode has an encoding: none, a one in the destination field, in the immediate or
the third source, or in the second source, with and without an extension word. -/
def opPatterns (m : Nat) : List Nat :=
  let e := if 5 ≤ m then 2 ^ 36 else 2 ^ 34
  let ps := [0, 2 ^ 27, 1, 4, 2 ^ 27 + 1, 2 ^ 16 + 1, 2 ^ 9, 384 * 2 ^ 18, 2 ^ 27 + 384 * 2 ^ 18, 384 * 2 ^ 18 + 384 * 2 ^ 9]
  ps ++ ps.map (· + e)

/-- LAT: the latency of opcode o in the map of code m; `none` when it is not listed. -/
def selLat (m o : Nat) : Option Nat :=
  if 8 ≤ m then none
  else (opPatterns m).findSome? fun p =>
    match decodeOp (mapSlot m) (BitVec.ofNat 48 (o * 2 ^ 40 + p)) 0 with
    | .ok i => some (flowLat i)
    | .error _ => none

/-- The quantities QUERY pushes. -/
abbrev SelQuery := Nat → Option Word

/-- What QUERY pushes for an arrangement, scratchpad bytes and contexts per core of a launch. -/
def selQuery (mask : Byte) (spm ctxs : Nat) : SelQuery
  | 0 => some (BitVec.ofNat 32 (ownedCls mask).length)
  | 1 => some (BitVec.ofNat 32 spm)
  | 2 | 3 => some 256
  | 4 => some 8
  | 5 => some (BitVec.ofNat 32 ctxs)
  | _ => none

/-- The result of a two-operand operation. -/
def selBinary (op : Nat) (x y : Word) : Option Word :=
  match op with
  | 0x10 => some (x + y)
  | 0x11 => some (x - y)
  | 0x12 => some (x * y)
  | 0x13 => some (if x.slt y then x else y)
  | 0x14 => some (if x.slt y then y else x)
  | 0x18 => some (if x.slt y then 1 else 0)
  | 0x19 => some (if x.sle y then 1 else 0)
  | 0x1A => some (if x == y then 1 else 0)
  | _ => none

/-- Runs a selector on the bytes that are left and a stack, top first; `none` when it fails. -/
def selRun (q : SelQuery) : Nat → List Byte → List Word → Option Word
  | 0, _, _ => none
  | _ + 1, [], _ => none
  | f + 1, b :: t, st =>
    let push := fun (v : Word) (rest : List Byte) (st : List Word) =>
      if st.length < 16 then selRun q f rest (v :: st) else none
    if b == 0x00 then (match st with | [v] => some v | _ => none)
    else if b == 0x01 then (match t with | x :: y :: r => push ((y ++ x).signExtend 32) r st | _ => none)
    else if b == 0x02 then (match t with | x :: r => (q x.toNat).bind fun v => push v r st | _ => none)
    else if b == 0x03 then
      (match t with | x :: y :: r => (selLat x.toNat y.toNat).bind fun n => push (BitVec.ofNat 32 n) r st | _ => none)
    else if b == 0x1C then (match st with | v :: a :: c :: r => push (if c != 0 then a else v) t r | _ => none)
    else (match st with | y :: x :: r => (selBinary b.toNat x y).bind fun v => push v t r | _ => none)

/-! ### Tyine objects (R263) -/

/-- A variant of an object: its body, and whether it is a flow segment. -/
structure Variant where
  flow : Bool
  body : List Byte
  deriving DecidableEq, Repr

/-- An entry of the variant table. -/
def variantAt (bs : List Byte) (off : Nat) : Option Variant :=
  let e := numAt bs off 16
  let vo := e % 2 ^ 64
  let vl := e / 2 ^ 64 % 2 ^ 32
  if e / 2 ^ 97 != 0 || vo % 65536 != 0 || bs.length < vo + vl then none
  else some ⟨e / 2 ^ 96 % 2 == 1, (bs.drop vo).take vl⟩

/-- An object as a loader reads it: its selector and its variants; `none` when its header or its table is malformed. -/
def parseTyo (bs : List Byte) : Option (List Byte × List Variant) :=
  let h := numAt bs 0 64
  let f := fun (lo n : Nat) => h / 2 ^ lo % 2 ^ n
  let nvar := f 40 4
  let vt := f 128 32
  if bs.length < 64 || f 0 32 != 0x54594F31 || f 32 8 != 1 || f 44 20 != 0 || f 104 24 != 0 || f 160 352 != 0 || vt % 8 != 0 ||
      bs.length < vt + 16 * (nvar + 1) || bs.length < f 64 32 + f 96 8 + 1 then none
  else ((List.range (nvar + 1)).mapM fun i => variantAt bs (vt + 16 * i)).map fun vs =>
    ((bs.drop (f 64 32)).take (f 96 8 + 1), vs)

/-- The variant a selector chooses among `nvar` + 1 (R284). -/
def selectVariant (prog : List Byte) (q : SelQuery) (nvar : Nat) : Nat :=
  match selRun q (prog.length + 1) prog [] with
  | some v => if v.toNat ≤ nvar then v.toNat else 0
  | none => 0

/-- The variant of an object that a loader chooses (R263, R284). -/
def loadVariant (bs : List Byte) (q : SelQuery) : Option Variant :=
  match parseTyo bs with
  | some o => o.2[selectVariant o.1 q (o.2.length - 1)]?
  | none => none

end Sys2Proof.Machine
end

