-- ==== Sys2Proof/Machine/Regs.lean ====
section
/-! DEFINITION. The registers of the driver page, the scheduler pages and the tenant pages (R288, R295, R297, R299, R307,
R310, R314, R315, R320, R321, R324, R330 to R334, R336, R338, R346, R348, R349): where each lies, what it reads as, what
a write does, and the locked sets (R338). -/
namespace Sys2Proof.Machine

/-- A register of the host's pages. -/
inductive HReg
  | plain (r : HostReg)
  | ttroot (t : Tenant)
  | shootdown
  | command
  | finisher
  | sc
  | measext (n : BitVec 4)
  | rstcause
  | core (k : CoreId)
  | control (k : CoreId) (c : CtxId)
  | counter (c : Nat)
  | queue (d : DieId) (t : Tenant) (q : BitVec 4)
  | slot (d : DieId) (j : BitVec 6)
  | tlock (t : Tenant)
  | tstat (t : Tenant)
  | tgo (t : Tenant)
  deriving DecidableEq, Repr

/-- The bytes a register takes. -/
def HReg.size : HReg → Nat
  | .plain (.faultRing _) | .plain .errorLog | .plain (.accessLog _) | .plain (.auditRing _) | .plain (.hdm _) | .shootdown => 32
  | .plain (.allowByte _ _) | .slot _ _ => 1
  | .plain (.rill _) | .core _ | .queue _ _ _ | .tstat _ => 16
  | .command | .finisher => 64
  | .plain (.tokenMac _) | .measext _ => 48
  | _ => 8

/-! ### Where registers lie -/

/-- A range of a page that holds registers of one kind: start, stride, count, and the register of an index. -/
structure RegRange where
  base : Nat
  stride : Nat
  count : Nat
  reg : Nat → HReg

/-- The ranges of PF0 BAR0 (R310, R314, R315, R299, R307, R334, R283, R324, R331, R332, R336, R346, R295, R320, R321,
R348). -/
def bar0Ranges : List RegRange :=
  [⟨0x10000, 8, 16, fun i => .ttroot (BitVec.ofNat 4 i)⟩, ⟨0x10100, 32, 1, fun _ => .shootdown⟩,
    ⟨0x10200, 0x20, 16, fun i => .plain (.faultRing (BitVec.ofNat 4 i))⟩, ⟨0x10400, 64, 1, fun _ => .command⟩,
    ⟨0x10480, 8, 1, fun _ => .plain .stbase⟩, ⟨0x10488, 8, 1, fun _ => .sc⟩, ⟨0x10490, 8, 1, fun _ => .plain .pkgcfg⟩,
    ⟨0x10500, 64, 1, fun _ => .finisher⟩, ⟨0x10600, 32, 1, fun _ => .plain .errorLog⟩,
    ⟨0x10700, 0x20, 17, fun i => .plain (.accessLog (BitVec.ofNat 5 i))⟩,
    ⟨0x11000, 0x20, 16, fun i => .plain (.rill (BitVec.ofNat 4 i))⟩,
    ⟨0x12000, 0x40, 10, fun i => .measext (BitVec.ofNat 4 (i + 6))⟩, ⟨0x13000, 8, 1, fun _ => .plain .pwrctl⟩,
    ⟨0x13008, 8, 1, fun _ => .rstcause⟩, ⟨0x20000, 0x10, 128, fun i => .core (BitVec.ofNat 7 i)⟩,
    ⟨0x21000, 0x80, 512, fun i => .control (BitVec.ofNat 7 (i / 4)) (BitVec.ofNat 2 i)⟩] ++
  ((List.range 8).map fun n => ⟨0x21040 + 8 * n, 0x80, 512, fun i =>
    .plain (.breakpoint (BitVec.ofNat 7 (i / 4)) (BitVec.ofNat 2 i) (BitVec.ofNat 3 n))⟩) ++
  [⟨0x34000, 8, 6144, fun i => .counter i⟩]

/-- The ranges of PF0 BAR2, die d's scheduler page at 0x4000·d (R288, R297). -/
def bar2Ranges : List RegRange :=
  [(0 : DieId), 1, 2, 3].flatMap fun d =>
    [⟨0x4000 * d.toNat + 0x1000, 0x10, 256, fun i => .queue d (BitVec.ofNat 4 (i / 16)) (BitVec.ofNat 4 i)⟩,
      ⟨0x4000 * d.toNat + 0x3000, 1, 64, fun i => .slot d (BitVec.ofNat 6 i)⟩]

/-- The ranges of tenant t's pages, VF(t+1) BAR0 (R330, R338, R349). -/
def vfRanges (t : Tenant) : List RegRange :=
  [⟨0, 0x10, 64, fun i => .queue (BitVec.ofNat 2 (i / 16)) t (BitVec.ofNat 4 i)⟩, ⟨0x400, 8, 1, fun _ => .tlock t⟩,
    ⟨0x500, 1, 768, fun i => .plain (.allowByte t (BitVec.ofNat 10 i))⟩,
    ⟨0x800, 32, 1, fun _ => .plain (.auditRing t)⟩, ⟨0x1000, 16, 1, fun _ => .tstat t⟩,
    ⟨0x1040, 8, 1, fun _ => .plain (.tokenAddr t)⟩, ⟨0x1048, 8, 1, fun _ => .plain (.tokenVal t)⟩,
    ⟨0x1050, 8, 1, fun _ => .plain (.tokenSeq t)⟩, ⟨0x1058, 48, 1, fun _ => .plain (.tokenMac t)⟩,
    ⟨0x1088, 8, 1, fun _ => .tgo t⟩]

/-- The index of the register of a range that holds a byte. -/
def RegRange.find (r : RegRange) (o : Nat) : Option Nat :=
  if r.base ≤ o then
    let i := (o - r.base) / r.stride
    if i < r.count && (o - r.base) % r.stride < (r.reg i).size then some i else none
  else none

/-- The register that holds a byte, and where it starts; a byte of no register is reserved. -/
def regIn (rs : List RegRange) (o : Nat) : Option (HReg × Nat) :=
  rs.findSome? fun r => (r.find o).map fun i => (r.reg i, r.base + i * r.stride)

/-- The registers of a function's BAR. -/
def rangesOf (f : Fn) (bar : BitVec 3) : List RegRange :=
  if f = 0 then (if bar = 0 then bar0Ranges else if bar = 2 then bar2Ranges else [])
  else if bar = 0 && f.toNat ≤ 16 then vfRanges (BitVec.ofNat 4 (f.toNat - 1)) else []

/-- Where the driver reaches a register of its pages: BAR and offset. An HDM decoder lies in none of them (log 61). -/
def HReg.addr : HReg → BitVec 3 × Nat
  | .ttroot t => (0, 0x10000 + 8 * t.toNat)
  | .plain (.faultRing t) => (0, 0x10200 + 0x20 * t.toNat)
  | .core k => (0, 0x20000 + 0x10 * k.toNat)
  | .control k c => (0, 0x21000 + 0x80 * ctxKey k c)
  | .plain (.breakpoint k c n) => (0, 0x21040 + 0x80 * ctxKey k c + 8 * n.toNat)
  | .queue d t q => (2, 0x4000 * d.toNat + 0x1000 + 0x100 * t.toNat + 0x10 * q.toNat)
  | .slot d j => (2, 0x4000 * d.toNat + 0x3000 + j.toNat)
  | _ => (0, 0x400)

/-! ### What registers read as -/

/-- A Bool as a bit. -/
def bit (b : Bool) (n : Nat) : Nat := if b then 2 ^ n else 0

/-- A ring's descriptor (R315). -/
def Ring.value (r : Ring) : Nat :=
  r.base.toNat + r.log2n.toNat * 2 ^ 48 + bit r.en 52 + r.tail.toNat * 2 ^ 64 + r.head.toNat * 2 ^ 96 +
    r.lost.toNat * 2 ^ 128

/-- A queue's descriptor (R288). -/
def Queue.value (q : Queue) : Nat :=
  q.base.toNat + q.log2n.toNat * 2 ^ 48 + bit q.en 52 + bit q.dev 53 + bit q.err 54 + q.tailw.toNat * 2 ^ 64 +
    q.head.toNat * 2 ^ 96

/-- Whether a stage of R347 is in force on some die. -/
def State.anyStage (s : State) (n : Nat) : Bool := [(0 : DieId), 1, 2, 3].any fun d => n ≤ (s.die d).stage.toNat

/-- What a plain register reads as. -/
def State.plainValue (s : State) : HostReg → Nat
  | .faultRing t => (s.tenant t).faultRing.value
  | .errorLog => s.errorLog.value
  | .accessLog f => (s.fn f).log.value
  | .auditRing t => (s.tenant t).auditRing.value
  | .allowByte t i => (aget (s.tenant t).allow i.toNat 0).toNat
  | .stbase => s.stbase.toNat
  | .pkgcfg => s.pkgid.toNat
  | .rill p =>
    let q := s.port p
    bit q.up 0 + bit q.en 1 + q.tmask.toNat * 4 + q.int.toNat * 2 ^ 18 + bit q.inen 22 + q.peerid.toNat * 2 ^ 23 +
      q.pbase.toNat * 2 ^ 102
  | .pwrctl => s.cap.toNat + s.tlim.toNat * 2 ^ 16 + bit (s.anyStage 2) 32 + bit (s.anyStage 1) 33
  | .breakpoint k c n => (aget (s.ctx k c).breaks n.toNat 0).toNat
  | .tokenAddr t => (s.tenant t).taddr.toNat
  | .tokenVal t => (s.tenant t).tval.toNat
  | .tokenSeq t => (s.tenant t).tseq.toNat
  | .tokenMac t => (s.tenant t).tmac.toNat
  | .hdm i =>
    let h := aget s.hdms i.toNat {}
    h.base.toNat + h.size.toNat * 2 ^ 64 + h.skip.toNat * 2 ^ 128 + bit h.on 192

/-- What a register reads as, the counters apart. -/
def State.regValue (s : State) : HReg → Nat
  | .plain r => s.plainValue r
  | .ttroot t => (s.tenant t).ttroot.toNat
  | .shootdown => s.sdReg.toNat
  | .command => s.cmdReg.toNat
  | .finisher => s.finReg.toNat
  | .sc => s.sc.toNat
  | .measext _ => 0
  | .rstcause => s.rstcause.toNat
  | .core k =>
    let y := s.core k
    y.tenant.toNat + bit y.v 4 + bit y.zbusy 5 + bit y.saved 6 + y.runmax.toNat * 2 ^ 32 + y.pmb.toNat * 2 ^ 64
  | .control k c => if (s.ctx k c).run == .held then (s.ctx k c).heldCode.toNat + 256 else 0
  | .counter _ => 0
  | .queue d t q => (s.queue d t q).value
  | .slot d j => (aget (s.die d).slots j.toNat 0).toNat
  | .tlock t => bit (s.tenant t).locked 0
  | .tstat t => bit (s.tenant t).locked 0 + bit (s.tenant t).terr 1 + s.measgen.toNat * 2 ^ 32 + (s.tenant t).seq.toNat * 2 ^ 64
  | .tgo _ => 0

/-! ### What writes do -/

/-- A write of a ring's descriptor: TAIL and LOST are read only (R315). -/
def Ring.rewrite (r : Ring) (v : Nat) : Ring :=
  { r with
    base := BitVec.ofNat 48 v
    log2n := BitVec.ofNat 4 (v / 2 ^ 48)
    en := (v / 2 ^ 52) % 2 == 1
    head := BitVec.ofNat 32 (v / 2 ^ 96) }

/-- The writable fields of a rill port (R332). -/
def RillPort.rewrite (q : RillPort) (v : Nat) : RillPort :=
  { q with
    en := (v / 2) % 2 == 1
    tmask := BitVec.ofNat 16 (v / 4)
    int := BitVec.ofNat 4 (v / 2 ^ 18)
    inen := (v / 2 ^ 22) % 2 == 1
    pbase := BitVec.ofNat 10 (v / 2 ^ 102) }

/-- A write of a register that has no behaviour of its own: its writable fields are stored. -/
def State.plainWrite (s : State) (r : HostReg) (v : Nat) : State :=
  match r with
  | .faultRing t => s.modTenant t fun x => { x with faultRing := x.faultRing.rewrite v }
  | .errorLog => { s with errorLog := s.errorLog.rewrite v }
  | .accessLog f => s.modFn f fun x => { x with log := x.log.rewrite v }
  | .auditRing t => s.modTenant t fun x => { x with auditRing := x.auditRing.rewrite v }
  | .allowByte t i =>
    if i.toNat < 768 then s.modTenant t fun x => { x with allow := aput x.allow i.toNat (BitVec.ofNat 8 v) 0 } else s
  | .stbase =>
    if s.launches.any fun l => recTrace l.record then s
    else { s with stbase := BitVec.ofNat 64 v &&& 0x8000007FE0000000 }
  | .pkgcfg => { s with pkgid := BitVec.ofNat 8 v }
  | .rill p => s.modPort p fun q => q.rewrite v
  | .pwrctl =>
    let c := v % 2 ^ 11
    let t := v / 2 ^ 16 % 2 ^ 7
    { s with
      cap := if 600 ≤ c ∧ c ≤ 1800 then BitVec.ofNat 11 c else s.cap
      tlim := if 60 ≤ t ∧ t ≤ 110 then BitVec.ofNat 7 t else s.tlim }
  | .breakpoint k c n => s.modCtx k c fun x =>
      { x with breaks := aput x.breaks n.toNat (BitVec.ofNat 64 v &&& 0x0000FFFFFFFFFFF9) 0 }
  | .tokenAddr t => s.modTenant t fun x => { x with taddr := BitVec.ofNat 64 v }
  | .tokenVal t => s.modTenant t fun x => { x with tval := BitVec.ofNat 64 v }
  | .tokenSeq t => s.modTenant t fun x => { x with tseq := BitVec.ofNat 64 v }
  | .tokenMac t => s.modTenant t fun x => { x with tmac := BitVec.ofNat 384 v }
  | .hdm i =>
    let f := fun (n : Nat) => BitVec.ofNat 64 (v / 2 ^ (64 * n))
    { s with hdms := ains s.hdms i.toNat ⟨f 0, f 1, f 2, (v / 2 ^ 192) % 2 == 1⟩ }

/-- Whether a context is resident on a core. -/
def coreResident (s : State) (k : CoreId) : Bool := allCtxs.any fun c => (s.ctx k c).live || wantsRestart s k c

/-- A core changes owner: pending launches lose the words that lie there (R28, R29). -/
def Launch.loseCore (l : Launch) (k : CoreId) : Launch :=
  let at_ := fun (i : Nat) => l.record.getLsbD (479 + 32 * i) && tailCore (l.record.extractLsb' (448 + 32 * i) 26) == k
  { l with
    predLost := l.predLost ||| (if at_ 0 then 1 else 0) ||| (if at_ 1 then 2 else 0)
    doneLost := l.doneLost || (l.pass.isNone && tailCore (recDonew l.record) == k) }

/-- A write of a core's configuration block (R295). -/
def State.coreWrite (s : State) (k : CoreId) (v : Nat) : State :=
  let y := s.core k
  let t : Tenant := BitVec.ofNat 4 v
  let o := (v / 16) % 2 == 1
  let rm := v / 2 ^ 32 % 2 ^ 32
  let pm := v / 2 ^ 64 % 2 ^ 32
  let change := t != y.tenant || o != y.v
  if change && (coreResident s k || y.zbusy || y.saved) then s
  else
    let s1 := s.modCore k fun y =>
      { y with
        tenant := t
        v := o
        zbusy := y.zbusy || change
        runmax := if 64 ≤ rm ∧ rm ≤ 2 ^ 20 then BitVec.ofNat 32 rm else y.runmax
        pmb := if 16384 ≤ pm ∧ pm ≤ 2 ^ 24 then BitVec.ofNat 32 pm else y.pmb }
    if change then { s1 with launches := s1.launches.map fun l => l.loseCore k } else s1

/-- Zeroing ends: everything the core holds reads zero or as at reset; RUNMAX, PMB and the driver's breakpoints stay
(R295). -/
def State.zeroCore (s : State) (k : CoreId) : State :=
  let y := s.core k
  let z : Core := { tenant := y.tenant, v := y.v, runmax := y.runmax, pmb := y.pmb, cycle := y.cycle,
                    ctxs := y.ctxs.map fun x => (x.1, x.2.fresh) }
  ((s.setCore k z).clear (spmPa k.toNat 0) 0x600000).clear (accPa k.toNat 0) 0x200000

def execZeroingDone (k : CoreId) (s : State) : Out := enabledIf (s.core k).zbusy (s.zeroCore k)

/-- A write of a queue's descriptor: the queue then holds no entries, and its reservations are discarded (R227, R288). -/
def State.queueWrite (s : State) (d : DieId) (t : Tenant) (q : BitVec 4) (v : Nat) : State :=
  let lg := v / 2 ^ 48 % 16
  let en := v / 2 ^ 52 % 2 == 1
  let bad := en && !(4 ≤ lg && lg ≤ 12)
  let y : Queue :=
    { base := BitVec.ofNat 48 v, log2n := BitVec.ofNat 4 lg, en := en && !bad, dev := v / 2 ^ 53 % 2 == 1, err := bad,
      tailw := BitVec.ofNat 26 (v / 2 ^ 64) }
  s.modQueue d t q fun _ => { y with head := s.qtail y }

/-- A write of a slot-table entry takes effect at the next frame (R297). -/
def State.slotWrite (s : State) (d : DieId) (j : BitVec 6) (v : Byte) : State :=
  s.modDie d fun x => { x with slotPend := x.slotPend ++ [(j.toNat, v &&& 0x1F)] }

/-- Whether a tenant has a context that has started and not ended, or a driver command running (R310). -/
def tenantBusy (s : State) (t : Tenant) : Bool :=
  ((s.coresOf t).any fun k => allCtxs.any fun c => (s.ctx k c).live) || (s.saves.any fun v => v.tenant == t) ||
    s.running.any fun r => r.tenant == t

/-- A write of TTROOT (R310). -/
def State.ttrootWrite (s : State) (t : Tenant) (v : Dword) : State :=
  if tenantBusy s t then s
  else (s.coresOf t).foldl (fun u k => u.modCore k fun y => { y with tlb := [], walkFail := [] })
    (s.modTenant t fun x => { x with ttroot := v &&& 0x0000FFFFFFFFF001 })

/-- A write of a context's control block: GO and DECLINE at once do nothing (R320). -/
def State.controlWrite (s : State) (k : CoreId) (c : CtxId) (v : Nat) : State :=
  let go := v / 2 ^ 9 % 2 == 1
  let dec := v / 2 ^ 10 % 2 == 1
  if go && !dec then s.goOn k c (v / 2 ^ 11 % 2 == 1) else if dec && !go then s.decline k c else s

/-! ### Measurements and locks (R336, R338) -/

/-- A measurement register is extended (R336). -/
def State.extend (s : State) (n : Nat) (h : BitVec 384) : State :=
  { s with meas := ains s.meas n (Config.sha384 (leBytes 48 (aget s.meas n 0).toNat ++ leBytes 48 h.toNat)) }

/-- The tenant whose locked set a register is in (R338). -/
def State.lockOwner (s : State) : HReg → Option Tenant
  | .queue _ t _ | .ttroot t | .plain (.faultRing t) | .tlock t => some t
  | .core k | .control k _ | .plain (.breakpoint k _ _) => if (s.core k).v then some (s.core k).tenant else none
  | .slot d j => let e := aget (s.die d).slots j.toNat 0; if e.getLsbD 4 then some (e.extractLsb' 0 4) else none
  | _ => none

/-- Whether a write of a register without a token is dropped (R338). -/
def State.isLocked (s : State) (r : HReg) : Bool :=
  match s.lockOwner r with
  | some t => (s.tenant t).locked
  | none => false

/-- The locked registers of tenant t, in address order (R338). -/
def State.lockedSet (s : State) (t : Tenant) : List HReg :=
  let ks := s.coresOf t
  let slots := [(0 : DieId), 1, 2, 3].flatMap fun d => ((List.range 64).filter fun j =>
    s.lockOwner (.slot d (BitVec.ofNat 6 j)) == some t).map fun j => (d, j)
  [.ttroot t, .plain (.faultRing t)] ++ ks.map (fun k => .core k) ++
    (ks.flatMap fun k => allCtxs.flatMap fun c =>
      HReg.control k c :: (List.range 8).map fun n => .plain (.breakpoint k c (BitVec.ofNat 3 n))) ++
    ([(0 : DieId), 1, 2, 3].flatMap fun d => (List.range 16).map (fun q => HReg.queue d t (BitVec.ofNat 4 q)) ++
      ((slots.filter fun e => e.1 == d).map fun e => HReg.slot e.1 (BitVec.ofNat 6 e.2))) ++ [.tlock t]

/-- A tenant's registers are locked, and what they hold is measured into meas4 (R336). -/
def State.lock (s : State) (t : Tenant) : State :=
  let bs := leBytes 1 t.toNat ++ (s.lockedSet t).flatMap fun r => leBytes r.size (s.regValue r)
  (s.extend 4 (Config.sha384 bs)).modTenant t fun x => { x with locked := true }

/-- A trusted write of TLOCK, or the one that a token makes: 1 locks an unlocked tenant, 0 unlocks. -/
def State.tlockWrite (s : State) (t : Tenant) (v : Nat) : State :=
  if v % 2 == 1 then (if (s.tenant t).locked then s else s.lock t)
  else s.modTenant t fun x => { x with locked := false }

/-! ### One write -/

/-- A write that reaches a register and is not dropped; v is the register's whole new value. `full` says that the write
holds the register's last byte. The token window's TGO is presented elsewhere. -/
def State.regWrite (s : State) (r : HReg) (v : Nat) (full : Bool) : State :=
  match r with
  | .plain p => s.plainWrite p v
  | .ttroot t => s.ttrootWrite t (BitVec.ofNat 64 v)
  | .shootdown =>
    let w : BitVec 256 := BitVec.ofNat 256 v
    { s with sdReg := w, sdQ := if full then s.sdQ ++ [w] else s.sdQ }
  | .command =>
    let w : Line := BitVec.ofNat 512 v
    { s with cmdReg := w, cmdQ := if full then s.cmdQ ++ [w] else s.cmdQ }
  | .finisher =>
    let w : Line := BitVec.ofNat 512 v
    { s with finReg := w, finQ := if full then s.finQ ++ [w] else s.finQ }
  | .measext n => s.extend n.toNat (BitVec.ofNat 384 v)
  | .core k => s.coreWrite k v
  | .control k c => s.controlWrite k c v
  | .queue d t q => s.queueWrite d t q v
  | .slot d j => s.slotWrite d j (BitVec.ofNat 8 v)
  | .tlock t => s.tlockWrite t v
  | .sc | .rstcause | .counter _ | .tstat _ | .tgo _ => s

/-- A driver's write of a register of its pages: into a locked set it is dropped and logged (R338); a module whose boot has
stopped takes none (R335). -/
def State.driverWrite (s : State) (r : HReg) (v : Nat) : State :=
  if s.boot.failed.isSome then s
  else if s.isLocked r then s.logAccess 0 r.addr.1 (BitVec.ofNat 48 r.addr.2) true false else s.regWrite r v true

/-! ### The events -/

def execQueueDescriptorWrite (d : DieId) (t : Tenant) (q : BitVec 4) (v : BitVec 128) (s : State) : Out :=
  .next (s.driverWrite (.queue d t q) v.toNat)
def execCoreConfigWrite (k : CoreId) (v : BitVec 128) (s : State) : Out := .next (s.driverWrite (.core k) v.toNat)
def execSlotTableWrite (d : DieId) (j : BitVec 6) (v : Byte) (s : State) : Out :=
  .next (s.driverWrite (.slot d j) v.toNat)
def execTtrootWrite (t : Tenant) (v : Dword) (s : State) : Out := .next (s.driverWrite (.ttroot t) v.toNat)
def execRegisterWrite (r : HostReg) (v : BitVec 384) (s : State) : Out := .next (s.driverWrite (.plain r) v.toNat)
/-- GO (R320). -/
def execGo (k : CoreId) (c : CtxId) (s : State) : Out := .next (s.driverWrite (.control k c) 0x200)
/-- GO with STEP (R320, R321). -/
def execGoStep (k : CoreId) (c : CtxId) (s : State) : Out := .next (s.driverWrite (.control k c) 0xA00)
/-- DECLINE (R320). -/
def execDecline (k : CoreId) (c : CtxId) (s : State) : Out := .next (s.driverWrite (.control k c) 0x400)
/-- MEASEXT (R336): the registers below meas6 have no such window. -/
def execMeasext (n : BitVec 4) (h : BitVec 384) (s : State) : Out :=
  .next (if 6 ≤ n.toNat && s.boot.failed.isNone then s.extend n.toNat h else s)
/-- A write of TLOCK: an untrusted one gets the error response (R328, R329), one without a token while the tenant is
locked is dropped and logged. -/
def execTlockWrite (t : Tenant) (trusted : Bool) (v : Dword) (s : State) : Out :=
  let f : Fn := BitVec.ofNat 5 (t.toNat + 1)
  .next (if s.boot.failed.isSome then s else if !trusted || s.isLocked (.tlock t) then s.logAccess f 0 0x400 true trusted else s.tlockWrite t v.toNat)

end Sys2Proof.Machine
end

