-- ==== Sys2Proof/Machine/Power.lean ====
section
/-! DEFINITION. Counters and their allow-list (R348 to R350), power and temperature (R20, R346, R347), and the resets of
the module (R346). -/
namespace Sys2Proof.Machine

/-! ### Counters (R348 to R350) -/

/-- The tenant that owns a counter. -/
def State.counterOwner (s : State) (c : Nat) : Option Tenant :=
  if c < 2048 then
    let y := s.core (BitVec.ofNat 7 (c / 16))
    if y.v && c % 16 < 8 then some y.tenant else none
  else if 2080 ≤ c && c < 2096 then some (BitVec.ofNat 4 (c - 2080))
  else none

/-- The owner's allow bit (R349). -/
def TenantSt.allows (x : TenantSt) (c : Nat) : Bool := (aget x.allow (c / 8) 0).getLsbD (c % 8)

/-- An entry of a tenant's audit ring (R349). -/
def State.audit (s : State) (t : Tenant) (c : Nat) : State := s.logTo (.audit t) (leBytes 16 (c + s.gcc.toNat * 2 ^ 64))

/-- A PF0 read of a counter, decided as it arrives: its value, or zero and an audit entry (R349, R350). -/
def State.readCounter (s : State) (c : Nat) : Dword × State :=
  match s.counterOwner c with
  | none => (s.counter c, s)
  | some t => if (s.tenant t).allows c then (s.counter c, s) else (0, s.audit t c)

/-- An answer goes out. -/
def State.reply (s : State) (bs : List Byte) (poisoned : Bool := false) (ur : Bool := false) : State :=
  { s with answers := ⟨bs, poisoned, ur⟩ :: s.answers }

/-- COUNTER_READ: zero once boot has stopped (R335). -/
def execCounterRead (c : BitVec 13) (s : State) : Out :=
  let r := if c.toNat < 6144 && s.boot.failed.isNone then s.readCounter c.toNat else (0, s)
  .next (r.2.reply (leBytes 8 r.1.toNat))

/-! ### Power and temperature (R347) -/

/-- What is measured at a window's end: power is a free value, and temperatures are what the dies' sensors read. -/
def State.sample (s : State) : PowerSample :=
  let f := fun (i : Nat) => Config.freeNat (s.freeCtr + i)
  let t := fun (d : DieId) => (s.die d).temp
  ⟨f 0, f 1, f 2, f 3, f 4, t 0, t 1, t 2, t 3⟩

/-- Power in mW and temperature in 1/16 °C of a die. -/
def sampleOf (p : PowerSample) (d : DieId) : Nat × Nat :=
  match d with
  | 0 => (p.mw0, p.t0)
  | 1 => (p.mw1, p.t1)
  | 2 => (p.mw2, p.t2)
  | _ => (p.mw3, p.t3)

/-- All dies. -/
def allDies : List DieId := [0, 1, 2, 3]

/-- A die's stage at the end of a window. -/
def Die.window (x : Die) (breach calm : Bool) : Die :=
  { x with
    breach := breach
    stage := if calm then 0 else if x.stage == 0 then (if breach then 1 else 0)
      else if breach && x.breach then 2 else x.stage }

/-- A window's measurements in the telemetry (R348); the hotspots of the cores are measured too. -/
def State.countWindow (s : State) (p : PowerSample) : State :=
  let s1 := allDies.foldl (fun t d =>
    let u := (t.setCounter (2048 + 4 * d.toNat) (sampleOf p d).2).setCounter (2048 + 4 * d.toNat + 1) (sampleOf p d).1
    if (s.die d).stage == 2 then u.count (2048 + 4 * d.toNat + 3) 1 else u) (s.setCounter 2064 p.mw)
  allCores.foldl (fun t k =>
    ({ t with freeCtr := t.freeCtr + 1 } : State).setCounter (16 * k.toNat + 5) (Config.freeNat t.freeCtr)) s1

/-- What the end of a window does to the dies' stages. -/
def State.stageWindow (s : State) : State :=
  let p := s.sample
  let s1 := ({ s with freeCtr := s.freeCtr + 5, sensors := p, window := s.gcc } : State).countWindow p
  let cap := s.cap.toNat
  let tl := s.tlim.toNat
  let calm := p.mw ≤ (cap - 50) * 1000 && allDies.all fun d => (sampleOf p d).2 ≤ 16 * (tl - 5)
  allDies.foldl (fun t d => t.modDie d fun x =>
    x.window (cap * 1000 < p.mw || 16 * tl ≤ (sampleOf p d).2) calm) s1

/-- SUPPLY_SAG and SUPPLY_RESTORED (R20, R347): the stretch begins within 50 ticks of the sag, one that has ended by then
too. -/
def execSupplySag (d : DieId) (s : State) : Out :=
  .next (s.modDie d fun x => { x with sag := true, sagTicks := max 1 x.sagTicks })
def execSupplyRestored (d : DieId) (s : State) : Out := .next (s.modDie d fun x => { x with sag := false, sagTicks := if 50 < x.sagTicks then 0 else x.sagTicks })

/-! ### Resets (R346) -/

/-- What lies outside the module: host memory and the peers' memories (R78). -/
def outsideMem (m : List Host.Cell) : List Host.Cell := m.filter fun c => 0x080000000000 ≤ c.1

/-- A module reset: everything of the module is as at reset but the fuses, and what the model itself counts with. -/
def State.moduleReset (s : State) (cause : BitVec 2) : State :=
  { State.reset with
    agenda := s.agenda
    nextErrs := s.nextErrs
    freeCtr := s.freeCtr
    nextId := s.nextId
    answers := s.answers
    mem := outsideMem s.mem
    rstcause := cause
    sessions := s.sessions
    boot := { s.boot with stage := 0, failed := none } }

/-- POWER_ON_RESET. -/
def execPowerOnReset (s : State) : Out := .next (s.moduleReset 0)

/-- Any other reset leaves every counter as it was (R348). -/
def State.warmReset (s : State) (cause : BitVec 2) : State := { s.moduleReset cause with counters := s.counters }

/-- DRIVER_RESET. -/
def execDriverReset (s : State) : Out := .next (s.warmReset 1)

/-- POWER_WINDOW_END: a die measured at 120 °C or more resets the module (R347). -/
def State.endWindow (s : State) : State :=
  if allDies.any fun d => tripTemp ≤ (s.die d).temp then s.stageWindow.warmReset 2 else s.stageWindow

def execPowerWindowEnd (s : State) : Out := enabledIf (windowDue s) s.endWindow

/-- THERMAL_TRIP: a die that reaches 120 °C resets the module (R347). -/
def execThermalTrip (d : DieId) (s : State) : Out := enabledIf (tripTemp ≤ (s.die d).temp) (s.warmReset 2)

end Sys2Proof.Machine
end

