-- ==== Sys2Proof/Machine/Secure.lean ====
section
/-! DEFINITION. Boot and measurement (R335, R336), the SPDM sessions with the keys that travel over them (R325, R337,
R339), and write tokens (R338). -/
namespace Sys2Proof.Machine

/-! ### Boot (R335) -/

/-- The fuse state that meas2 is extended with: key slots, minimum SVNs and lifecycle. -/
def Boot.fuseBytes (b : Boot) : List Byte :=
  ((List.range 4).flatMap fun i => leBytes 48 (aget b.slots i 0).toNat) ++ ((List.range 3).map fun i => aget b.minSvn i 0) ++
    [b.lifecycle]

/-- The measurement register of a stage. -/
def stageMeas (n : Nat) : Nat := match n with | 0 => 0 | 1 => 1 | _ => 3

/-- The bytes an image is signed and measured over: header bytes 0 to 159, then the body. -/
def signedBytes (hdr : BitVec 2048) (body : List Byte) : List Byte := (leBytes 256 hdr.toNat).take 160 ++ body

/-- Whether an image is accepted as the stage that comes next. -/
def Boot.accepts (b : Boot) (hdr : BitVec 2048) (body : List Byte) : Bool :=
  let slot := (hdr.extractLsb' 36 2).toNat
  let pub : BitVec 768 := hdr.extractLsb' 512 768
  hdr.extractLsb' 0 32 == 0x5A424F54 && (hdr.extractLsb' 32 4).toNat == b.stage && hdr.extractLsb' 38 2 == 0 &&
    hdr.extractLsb' 48 16 == 0 && hdr.extractLsb' 96 416 == 0 && (hdr.extractLsb' 64 32).toNat == body.length &&
    Config.sha384 (leBytes 96 pub.toNat) == aget b.slots slot 0 && !b.revoked.getLsbD slot &&
    (aget b.minSvn b.stage 0).toNat ≤ (hdr.extractLsb' 40 8).toNat &&
    Config.ecdsaVerify pub (hdr.extractLsb' 1280 768) (signedBytes hdr body)

/-- The ROM measures the fuses before it checks the first image. -/
def State.measureFuses (s : State) : State :=
  if s.boot.stage == 0 then s.extend 2 (Config.sha384 s.boot.fuseBytes) else s

/-- The attestation key is derived once meas0 to meas3 are fixed (R337). -/
def State.deriveAttest (s : State) : State :=
  if s.boot.stage == 3 then { s with attest := some (Config.attestKey ((List.range 4).map fun i => aget s.meas i 0)) } else s

/-- The image of the next stage is checked: it is measured and runs, or boot stops. -/
def State.bootNext (s : State) (hdr : BitVec 2048) (body : List Byte) : State :=
  let s1 := s.measureFuses
  if s.boot.accepts hdr body then
    let s2 := s1.extend (stageMeas s.boot.stage) (Config.sha384 (signedBytes hdr body))
    ({ s2 with boot := { s.boot with stage := s.boot.stage + 1 } } : State).deriveAttest
  else { s1 with boot := { s.boot with failed := some s.boot.stage } }

/-- BOOT_STAGE: until the last stage runs or one fails. -/
def execBootStage (hdr : BitVec 2048) (body : List Byte) (s : State) : Out :=
  enabledIf (s.boot.stage < 3 && s.boot.failed.isNone) (s.bootNext hdr body)

/-! ### Sessions (R337 to R339) -/

/-- The tenant of a function: t for VF(t+1). -/
def tenantOf (f : Fn) : Option Tenant := if 1 ≤ f.toNat && f.toNat ≤ 16 then some (BitVec.ofNat 4 (f.toNat - 1)) else none

/-- The bytes of the name TOKKEY is derived with. -/
def tokenName : List Byte := "ZV8 write token".toList.map fun c => BitVec.ofNat 8 c.toNat

/-- The key a tenant's tokens are checked with. -/
def tokenKey (export_ : BitVec 384) : BitVec 384 := Config.hmac384 export_ tokenName

/-- A function gets a new export key, and its tenant a new TOKKEY. -/
def State.newExport (s : State) (f : Fn) (open_ : Bool) : State :=
  let k := Config.exportKey s.sessions
  let s1 := ({ s with sessions := s.sessions + 1 } : State).modFn f fun x => { x with session := open_, exportKey := k }
  match tenantOf f with
  | some t => s1.modTenant t fun x => { x with tokkey := tokenKey k }
  | none => s1

/-- A request of a function that the module answers: a module whose boot has failed answers none but PF0's reads. -/
def State.asked (s : State) (f : Fn) (ok : Bool) (t : State) : Out :=
  .next (if f.toNat ≤ 16 && s.boot.failed.isNone && ok then t else s)

/-- GET_MEASUREMENTS: the measurements an index names. -/
def State.measurements (s : State) (ix : Byte) : List Byte :=
  let reg := fun (n : Nat) => leBytes 48 (aget s.meas n 0).toNat
  if ix = 0xFF then (List.range 16).flatMap reg ++ leBytes 4 s.measgen.toNat
  else if ix = 17 then leBytes 4 s.measgen.toNat
  else if 1 ≤ ix.toNat && ix.toNat ≤ 16 then reg (ix.toNat - 1)
  else []

/-- What the SPDM responder answers (R337): the measurements of an index, signed over the nonce when there is one; the
certificate chain; or the chain's digest, signed over the nonce. PRESUMED (log 31): what a signature covers. Before boot has
derived the attestation key, nothing that needs it is answered. -/
def State.spdmAnswer (s : State) (ask : SpdmAsk) : Option (List Byte) :=
  match ask, s.attest with
  | .meas ix none, _ => some (s.measurements ix)
  | .meas ix (some n), some k =>
    let bs := s.measurements ix
    some (bs ++ leBytes 96 (Config.attestSign k (leBytes 32 n.toNat ++ bs)).toNat)
  | .cert, some k => some (Config.certChain k)
  | .challenge n, some k =>
    let bs := leBytes 48 (Config.sha384 (Config.certChain k)).toNat
    some (bs ++ leBytes 96 (Config.attestSign k (leBytes 32 n.toNat ++ bs)).toNat)
  | _, none => none

def execGetMeasurements (f : Fn) (ask : SpdmAsk) (s : State) : Out :=
  s.asked f (s.spdmAnswer ask).isSome (s.reply ((s.spdmAnswer ask).getD []))

/-- KEY_EXCHANGE: a function that has a session gets no second one. -/
def execKeyExchange (f : Fn) (s : State) : Out := s.asked f (!(s.fn f).session) (s.newExport f true)

/-- KEY_UPDATE. -/
def execKeyUpdate (f : Fn) (s : State) : Out := s.asked f (s.fn f).session (s.newExport f true)

/-- END_SESSION: no one holds the key that replaces TOKKEY. -/
def execEndSession (f : Fn) (s : State) : Out := s.asked f (s.fn f).session (s.newExport f false)

/-- A tenant's code key or signing-key hash. -/
def TenantSt.supply (x : TenantSt) (sign : Bool) (v : BitVec 384) : TenantSt :=
  { x with
    codeKey := if sign then x.codeKey else v.setWidth 256
    signHash := if sign then v else x.signHash
    kgen := x.kgen + 1
    cache := []
    verified := [] }

/-- VENDOR_DEFINED_REQUEST, over the tenant's session. -/
def execVendorDefinedRequest (t : Tenant) (sign : Bool) (v : BitVec 384) (s : State) : Out :=
  let f : Fn := BitVec.ofNat 5 (t.toNat + 1)
  s.asked f (s.fn f).session (s.modTenant t fun x => x.supply sign v)

/-- IDE_KM keys or rekeys a function's stream over its session. -/
def execIdeKm (f : Fn) (s : State) : Out :=
  s.asked f (s.fn f).session (s.modFn f fun x => { x with keyed := true, insecure := false })

/-! ### Write tokens (R338) -/

/-- The ranges and the offset a token's TADDR names. -/
def tokenTarget (a : Dword) : List RegRange × Nat :=
  let f : Fn := (a.extractLsb' 56 8).setWidth 5
  if 16 < (a.extractLsb' 56 8).toNat then ([], 0)
  else if f = 0 && a.getLsbD 55 then (bar2Ranges, (a.extractLsb' 0 55).toNat)
  else (rangesOf f 0, (a.extractLsb' 0 56).toNat)

/-- Bytes of a register's new value when some bytes are written from a page offset on; `start` is the register's own. -/
def mergeReg (old : List Byte) (start off : Nat) (bs : List Byte) : List Byte :=
  ((List.range old.length).zip old).map fun x =>
    if off ≤ start + x.1 && start + x.1 < off + bs.length then bs.getD (start + x.1 - off) 0 else x.2

/-- The registers that some bytes of a page lie in, each with its start. -/
def regsIn (rs : List RegRange) (off n : Nat) : List (HReg × Nat) :=
  ((List.range n).filterMap fun i => regIn rs (off + i)).eraseDups

/-- The value a register has after the write of some bytes. -/
def State.merged (s : State) (e : HReg × Nat) (off : Nat) (bs : List Byte) : Nat :=
  leNat (mergeReg (leBytes e.1.size (s.regValue e.1)) e.2 off bs)

/-- Whether a write of n bytes from an offset on holds a register's last byte, or all of it. -/
def holdsLast (e : HReg × Nat) (off n : Nat) : Bool := off < e.2 + e.1.size && e.2 + e.1.size ≤ off + n
def holdsAll (e : HReg × Nat) (off n : Nat) : Bool := off ≤ e.2 && e.2 + e.1.size ≤ off + n

/-- A token's message. -/
def TenantSt.message (x : TenantSt) : List Byte := leBytes 8 x.taddr.toNat ++ leBytes 8 x.tval.toNat ++ leBytes 8 x.tseq.toNat

/-- Whether the token in a tenant's window is accepted. -/
def State.tokenOk (s : State) (t : Tenant) : Bool :=
  let x := s.tenant t
  let g := tokenTarget x.taddr
  x.tseq == x.seq && x.tmac == Config.hmac384 x.tokkey x.message && g.2 % 8 == 0 &&
    match regIn g.1 g.2 with
    | some e => s.lockOwner e.1 == some t
    | none => false

/-- The write an accepted token makes: its doubleword, in the registers of the tenant's locked set. -/
def State.tokenWrite (s : State) (t : Tenant) : State :=
  let x := s.tenant t
  let g := tokenTarget x.taddr
  let bs := leBytes 8 x.tval.toNat
  ((regsIn g.1 g.2 8).filter fun e => s.lockOwner e.1 == some t).foldl (fun u e =>
    u.regWrite e.1 (u.merged e g.2 bs) (holdsLast e g.2 8)) s

/-- TGO: the token is checked; an accepted one performs and is measured. -/
def State.presentToken (s : State) (t : Tenant) : State :=
  if s.tokenOk t then
    let s1 := (s.tokenWrite t).extend 5 (Config.sha384 (s.tenant t).message)
    ({ s1 with measgen := s.measgen + 1 } : State).modTenant t fun x => { x with seq := x.seq + 1, terr := false }
  else s.modTenant t fun x => { x with terr := true }

/-- A module whose boot has stopped takes no token (R335). -/
def execTgo (t : Tenant) (s : State) : Out := .next (if s.boot.failed.isSome then s else s.presentToken t)

end Sys2Proof.Machine
end

