-- ==== Sys2Proof/Machine/Host.lean ====
section
/-! DEFINITION. The host link and the rill ports: host reads and writes (R109, R110, R325 to R331, R338), the failure of a
stream's integrity check (R327), and the ports with inbound peer accesses (R332, R333). -/
namespace Sys2Proof.Machine

/-! ### Where a host access goes (R326) -/

/-- What a BAR of a function leads to. -/
inductive HostDest
  | page
  | window (t : Option Tenant)
  deriving DecidableEq, Repr

/-- What a CXL.mem access at a host physical address reaches by the first decoder that takes it (R325). PRESUMED (log 61): each
decoder's device addresses follow those of the decoders before it. -/
def State.cxlTarget (s : State) (hpa : Nat) : Option Nat :=
  let go := fun (acc : Nat × Option Nat) (i : Nat) =>
    let h := aget s.hdms i {}
    let dpa := acc.1 + h.skip.toNat
    if h.on then
      (dpa + h.size.toNat, match acc.2 with
        | some a => some a
        | none => if h.base.toNat ≤ hpa && hpa < h.base.toNat + h.size.toNat then some (dpa + (hpa - h.base.toNat)) else none)
    else acc
  ((List.range 4).foldl go (0, none)).2

/-- An access as its BAR takes it: one of CXL.mem as an access of its function's window, in DRAM only (R325, log 61). -/
def State.decoded (s : State) (h : HostAcc) (n : Nat) : Option HostAcc :=
  if h.cxl then
    match s.cxlTarget h.off.toNat, s.cxlTarget (h.off.toNat + n - 1) with
    | some a, some b =>
      if a + n = b + 1 ∧ b < 0x8000000000 then some { h with bar := if h.fn = 0 then 4 else 2, off := BitVec.ofNat 48 a } else none
    | _, _ => none
  else some h

/-- The destination of an access of n bytes; `none` when no BAR takes it. -/
def hostDest (h : HostAcc) (n : Nat) : Option HostDest :=
  let last := h.off.toNat + n
  if h.fn = 0 then
    if h.bar = 0 then (if last ≤ 0x40000 then some .page else none)
    else if h.bar = 2 then (if last ≤ 0x10000 then some .page else none)
    else if h.bar = 4 then (if last ≤ 0x100000000000 then some (.window none) else none)
    else none
  else
    match tenantOf h.fn with
    | none => none
    | some t =>
      if h.bar = 0 then (if last ≤ 0x2000 then some .page else none)
      else if h.bar = 2 then (if last ≤ 0x100000000000 then some (.window (some t)) else none)
      else none

/-- A trusted access arrives on the stream of the function it targets, with TEE set (R329). -/
def trustedAcc (h : HostAcc) : Bool := h.stream == some h.fn && h.tee

/-- An access that arrives on a stream which is not keyed or is insecure is discarded (R327). -/
def State.discards (s : State) (h : HostAcc) : Bool :=
  match h.stream with
  | some g => !(s.fn g).keyed || (s.fn g).insecure
  | none => false

/-- Whether a page serves an access: a tenant's private page serves trusted ones only (R329). -/
def pageServed (h : HostAcc) : Bool := h.fn = 0 || 0x1000 ≤ h.off.toNat || trustedAcc h

/-- Whether a window serves an access to the line at pa (R295, R326, R329). -/
def State.lineServed (s : State) (h : HostAcc) (t : Option Tenant) (pa : Nat) : Bool :=
  pa < 0x040000000000 &&
    match homeOf pa with
    | .dram =>
      match t with
      | none => s.ownerOf pa == none
      | some t => s.ownerOf pa == some t && trustedAcc h
    | .spm k _ | .acc k _ =>
      let y := s.core (BitVec.ofNat 7 k)
      !y.zbusy && match t with
        | none => !y.v
        | some t => y.v && y.tenant == t && trustedAcc h
    | _ => false

/-- The pieces of n bytes at pa that lie in one aligned unit of w bytes each: start and length. -/
def unitPieces (w pa n : Nat) : List (Nat × Nat) :=
  (List.range ((pa + n + w - 1) / w - pa / w)).map fun i =>
    let a := max pa ((pa / w + i) * w)
    (a, min (pa + n) ((pa / w + i + 1) * w) - a)

/-- The pieces that lie in one line each. -/
def linePieces (pa n : Nat) : List (Nat × Nat) := unitPieces 64 pa n

/-- Whether an access is served as a whole. -/
def State.hostServed (s : State) (h : HostAcc) (d : HostDest) (n : Nat) : Bool :=
  match d with
  | .page => pageServed h
  | .window t => (linePieces h.off.toNat n).all fun p => s.lineServed h t p.1

/-- The pieces of memory that an access to a window reaches: none where it is discarded or refused, or boot has stopped. -/
def State.hostCells (s : State) (h : HostAcc) (d : HostDest) (n : Nat) : List (Nat × Nat) :=
  match d with
  | .window _ =>
    if s.discards h || s.boot.failed.isSome || !s.hostServed h d n then [] else linePieces h.off.toNat n
  | .page => []

/-- Whether pieces of memory are served now: DRAM in its share of the ports (R91), scratchpads in their engine phase (R19). -/
def State.piecesOpen (s : State) (t : Option Tenant) (ps : List (Nat × Nat)) : Bool :=
  s.engOk (ps.flatMap fun p => spmLines p.1 p.2) && ps.all fun p => s.dramOpen t p.1

/-- Whether writes to pieces of memory are served now, with their stamps. -/
def State.writesOpen (s : State) (t : Option Tenant) (ps : List (Nat × Nat)) : Bool :=
  s.piecesOpen t ps && ps.all fun p => s.storeOpen t p.1

/-- The engine phases serve some pieces. -/
def State.piecesTake (s : State) (ps : List (Nat × Nat)) : State := s.engTake (ps.flatMap fun p => spmLines p.1 p.2)

/-- A host access as the order of accesses sees it: each IDE stream, and the other traffic of each function, is a stream
(R109, R327). -/
def hostWho (h : HostAcc) : Who :=
  { path := .host (match h.stream with | some g => g.toNat | none => 32 + h.fn.toNat) }

/-- A peer's access: each rill port is a stream of its own (R109). -/
def peerWho (p : Port) : Who := { path := .host (64 + p.toNat) }

/-- The error response's entry (R328, R331). -/
def State.refuseHost (s : State) (h : HostAcc) (wr : Bool) : State := s.logAccess h.fn h.bar h.off wr h.tee

/-! ### Writes -/

/-- A write to one register of a page: dropped and logged when it is locked (R338). -/
def State.hostReg (s : State) (h : HostAcc) (bs : List Byte) (e : HReg × Nat) : State :=
  let off := h.off.toNat
  if s.isLocked e.1 then s.refuseHost h true
  else
    let v := s.merged e off bs
    match e.1 with
    | .tgo t => if v % 2 == 1 then s.presentToken t else s
    | .measext n => if holdsAll e off bs.length then s.extend n.toNat (BitVec.ofNat 384 v) else s
    | r => s.regWrite r v (holdsLast e off bs.length)

/-- A write to a page, register by register. -/
def State.hostPage (s : State) (h : HostAcc) (bs : List Byte) : State :=
  (regsIn (rangesOf h.fn h.bar) h.off.toNat bs.length).foldl (fun u e => u.hostReg h bs e) s

/-- A write of a stream to an accumulator-store word is a release at SYS scope, after every write that arrived before it on
the stream (R109). -/
def State.releaseAt (s : State) (w : Who) (pa : Nat) (bs : List Byte) : State :=
  let z := pa / 4 * 4
  (s.release w .sys z (rdWord (wrBytes s.mem pa bs) z) fun e => if e.who.path == w.path then [[]] else []).2.writeBy w pa bs

/-- One piece of a write that came from outside is written: into a scratchpad a landing, in the accumulator store word by word;
`recorded` and the answer say whether the write has its landing record (R74, R75). No larger piece than a byte of any other
write is indivisible (R93). -/
def State.storeFrom (s : State) (w : Who) (pa : Nat) (bs : List Byte) (recorded : Bool) : State × Bool :=
  match homeOf pa with
  | .spm k off => let r := s.landSpm w (BitVec.ofNat 7 k) off bs recorded 1; (r.1, r.2.2)
  | .acc _ _ =>
    ((unitPieces 4 pa bs.length).foldl (fun u c => u.releaseAt w c.1 ((bs.drop (c.1 - pa)).take c.2)) s, recorded)
  | _ => (s.writeBy w (s.cell pa) bs (unit := 1), recorded)

/-- The pieces of a write that came from outside are written, with at most one landing record (R75). -/
def State.putPieces (s : State) (w : Who) (pa : Nat) (bs : List Byte) (ps : List (Nat × Nat)) : State :=
  (ps.foldl (fun (u : State × Bool) p => u.1.storeFrom w p.1 ((bs.drop (p.1 - pa)).take p.2) u.2) (s.piecesTake ps, false)).1

/-- A non-posted write is completed (R328). -/
def State.complete (s : State) (h : HostAcc) (ur : Bool) : State := if h.posted then s else s.reply [] false ur

/-- A host write as it performs. -/
def State.hostWrite (s : State) (h : HostAcc) (d : HostDest) (bs : List Byte) : State :=
  if s.boot.failed.isSome then (if h.fn = 0 then s.complete h false else s)
  else if !s.hostServed h d bs.length then (s.refuseHost h true).complete h true
  else
    (match d with
      | .page => s.hostPage h bs
      | .window _ => s.putPieces (hostWho h) h.off.toNat bs (linePieces h.off.toNat bs.length)).complete h false

/-- HOST_WRITE. -/
def execHostWrite (h : HostAcc) (data : List Byte) (s : State) : Out :=
  match s.decoded h data.length with
  | none => .fault .notEnabled
  | some h =>
    match hostDest h data.length with
    | none => .fault .notEnabled
    | some d =>
      enabledIf (s.writesOpen (tenantOf h.fn) (s.hostCells h d data.length))
        (if s.discards h then s else s.hostWrite h d data)

/-! ### Reads -/

/-- The byte a page holds at an offset, the counters apart; reserved bytes read zero. -/
def State.pageByte (s : State) (rs : List RegRange) (off : Nat) : Byte :=
  match regIn rs off with
  | some e => (leBytes e.1.size (s.regValue e.1)).getD (off - e.2) 0
  | none => 0

/-- Reads of the counters among some registers: each is decided as it arrives (R349, R350). -/
def State.readCounters (s : State) : List (HReg × Nat) → List (Nat × List Byte) × State
  | [] => ([], s)
  | (.counter c, o) :: t =>
    let r := s.readCounter c
    let u := r.2.readCounters t
    ((o, leBytes 8 r.1.toNat) :: u.1, u.2)
  | _ :: t => s.readCounters t

/-- A read of a page. -/
def State.readPage (s : State) (h : HostAcc) (n : Nat) : List Byte × State :=
  let rs := rangesOf h.fn h.bar
  let cs := s.readCounters (regsIn rs h.off.toNat n)
  ((List.range n).map fun i =>
    match cs.1.find? fun c => c.1 ≤ h.off.toNat + i && h.off.toNat + i < c.1 + 8 with
    | some c => c.2.getD (h.off.toNat + i - c.1) 0
    | none => s.pageByte rs (h.off.toNat + i), cs.2)

/-- What a module whose boot has stopped shows in PF0: the failing stage in BAR0's first doubleword (R335). -/
def bootBytes (stage : Nat) (h : HostAcc) (n : Nat) : List Byte :=
  (List.range n).map fun i => if h.bar = 0 && h.off.toNat + i == 0 then BitVec.ofNat 8 (stage + 1) else 0

/-- A read from outside of the bytes of a piece: words of the accumulator store are indivisible, and the host's reads of them
acquire at SYS scope (R93, R110). -/
def State.getPiece (s : State) (w : Who) (acq : Bool) (p : Nat × Nat) : List Byte × State :=
  match homeOf p.1 with
  | .acc _ _ =>
    (unitPieces 4 p.1 p.2).foldl (fun (r : List Byte × State) c =>
      let d := r.2.seeWord w (c.1 / 4 * 4)
      (r.1 ++ ((leBytes 4 d.1.toNat).drop (c.1 % 4)).take c.2, if acq then d.2.2.hostAcquire d.2.1 else d.2.2)) ([], s)
  | _ => s.seeBytes w (s.cell p.1) p.2

/-- A read from outside of some pieces. -/
def State.getPieces (s : State) (w : Who) (acq : Bool) (ps : List (Nat × Nat)) : List Byte × State :=
  ps.foldl (fun (r : List Byte × State) p => let d := r.2.getPiece w acq p; (r.1 ++ d.1, d.2)) ([], s.piecesTake ps)

/-- A host read as it is answered. -/
def State.hostRead (s : State) (h : HostAcc) (d : HostDest) (n : Nat) : State :=
  match s.boot.failed with
  | some st => if h.fn = 0 then s.reply (bootBytes st h n) else s
  | none =>
    if !s.hostServed h d n then (s.refuseHost h false).reply (List.replicate n 0) true
    else
      match d with
      | .page => let r := s.readPage h n; r.2.reply r.1
      | .window _ =>
        let r := s.getPieces (hostWho h) true (linePieces h.off.toNat n)
        r.2.reply r.1 (s.poisoned h.off.toNat n)

/-- The words that pieces of memory lie in. -/
def pieceWords (ps : List (Nat × Nat)) : List Nat := ps.flatMap fun p => wordsOf p.1 p.2

/-- HOST_READ. -/
def execHostRead (h : HostAcc) (len : Nat) (s : State) : Out :=
  match s.decoded h len with
  | none => .fault .notEnabled
  | some h =>
    match hostDest h len with
    | none => .fault .notEnabled
    | some d =>
      let ps := s.hostCells h d len
      enabledIf (s.piecesOpen (tenantOf h.fn) ps)
        (if s.discards h then s else (s.meetNext none none (pieceWords ps)).hostRead h d len)

/-- IDE_INTEGRITY_FAIL: the TLP is discarded and the stream is insecure until IDE_KM rekeys it (R327, R348). -/
def execIdeIntegrityFail (f : Fn) (s : State) : Out :=
  .next ((s.modFn f fun x => { x with insecure := true }).count 2067 1)

/-! ### Rill ports (R332 to R334) -/

/-- PORT_TRAIN: link keys are agreed and the peer reports its number. -/
def execPortTrain (p : Port) (peer : Byte) (s : State) : Out := .next (s.modPort p fun q => { q with up := true, peerid := peer })

/-- PORT_DOWN. -/
def execPortDown (p : Port) (s : State) : Out := .next (s.modPort p fun q => { q with up := false })

/-- Whether an inbound access to the line at y is accepted (R333). -/
def State.inboundOk (s : State) (p : Port) (y : Nat) : Bool := (s.port p).inen && s.reach (s.port p).int y

/-- The lines of an inbound access that are accepted; a refused line is not written (R333). -/
def State.inboundCells (s : State) (p : Port) (a n : Nat) : List (Nat × Nat) :=
  (linePieces a n).filter fun l => s.inboundOk p l.1

/-- An inbound read: an answer for each line, poisoned where the line is refused or holds poison. -/
def State.peerRead (s : State) (p : Port) (a n : Nat) : State :=
  (linePieces a n).foldl (fun (u : State) l =>
    if u.inboundOk p l.1 then
      let r := u.getPieces (peerWho p) false [l]
      r.2.reply r.1 (u.poisoned (u.cell l.1) l.2)
    else
      ({ u with freeCtr := u.freeCtr + l.2 } : State).reply
        ((List.range l.2).map fun i => Config.freeByte (u.freeCtr + i)) true) s

/-- PEER_INBOUND: a read or a write of as many bytes as `data` holds arrives on a port that is up, and is made as a device
access of the port's tenant (R333). A module whose boot has stopped answers none and writes nothing (R335). -/
def execPeerInbound (p : Port) (wr : Bool) (a : Addr) (data : List Byte) (s : State) : Out :=
  let ps := s.inboundCells p a.toNat data.length
  let t := some (s.port p).int
  if s.boot.failed.isSome then enabledIf (s.port p).up s
  else
    enabledIf ((s.port p).up && if wr then s.writesOpen t ps else s.piecesOpen t ps)
      (if wr then s.putPieces (peerWho p) a.toNat data ps
      else (s.meetNext none none (pieceWords ps)).peerRead p a.toNat data.length)

end Sys2Proof.Machine
end

