-- ==== Sys2Proof/Machine/Dispatch.lean ====
section
/-! DEFINITION. What each step does: one arm for each constructor of `Instr`. -/
namespace Sys2Proof.Machine

/-- The meaning of one step. -/
def exec (i : Instr) (s : State) : Host.Outcome State Fault Refusal :=
  match i with
  | .issueCycle k => Sys2Proof.Machine.execIssueCycle k s
  | .runmaxExpiry k => Sys2Proof.Machine.execRunmaxExpiry k s
  | .bundleIssue k c err => Sys2Proof.Machine.execBundleIssue k c err s
  | .bankConflictRetry k c => Sys2Proof.Machine.execBankConflictRetry k c s
  | .fetchComplete k c blk err => Sys2Proof.Machine.execFetchComplete k c blk err s
  | .segmentCheck k c => Sys2Proof.Machine.execSegmentCheck k c s
  | .fixedLatencyLanding k c n lanes => Sys2Proof.Machine.execFixedLatencyLanding k c n lanes s
  | .scoreboardLanding k c n => Sys2Proof.Machine.execScoreboardLanding k c n s
  | .tlbWalkComplete k va err => Sys2Proof.Machine.execTlbWalkComplete k va err s
  | .memRequestService n err => Sys2Proof.Machine.execMemRequestService n err s
  | .loadLineLands k q n ue => Sys2Proof.Machine.execLoadLineLands k q n ue s
  | .globalAccessPerform n err => Sys2Proof.Machine.execGlobalAccessPerform n err s
  | .spillFillComplete k c => Sys2Proof.Machine.execSpillFillComplete k c s
  | .waitgccWake k c => Sys2Proof.Machine.execWaitgccWake k c s
  | .laqEntryFree k q => Sys2Proof.Machine.execLaqEntryFree k q s
  | .copyCommandStart k ch => Sys2Proof.Machine.execCopyCommandStart k ch s
  | .copyLine k ch err => Sys2Proof.Machine.execCopyLine k ch err s
  | .copyComplete k ch => Sys2Proof.Machine.execCopyComplete k ch s
  | .bulkFrameSlot d => Sys2Proof.Machine.execBulkFrameSlot d s
  | .matrixCommandStart k => Sys2Proof.Machine.execMatrixCommandStart k s
  | .matrixBeat k err => Sys2Proof.Machine.execMatrixBeat k err s
  | .loaderBeat k err => Sys2Proof.Machine.execLoaderBeat k err s
  | .accRowBeat k err => Sys2Proof.Machine.execAccRowBeat k err s
  | .matrixCommandDone k => Sys2Proof.Machine.execMatrixCommandDone k s
  | .aConsumed k => Sys2Proof.Machine.execAConsumed k s
  | .barrierComplete lid sc k => Sys2Proof.Machine.execBarrierComplete lid sc k s
  | .takeRecord d t => Sys2Proof.Machine.execTakeRecord d t s
  | .admitLaunch lid => Sys2Proof.Machine.execAdmitLaunch lid s
  | .coreAssign k => Sys2Proof.Machine.execCoreAssign k s
  | .contextStart k c => Sys2Proof.Machine.execContextStart k c s
  | .dispatchRestart k c => Sys2Proof.Machine.execDispatchRestart k c s
  | .nxuService k c => Sys2Proof.Machine.execNxuService k c s
  | .launchAppend d t q => Sys2Proof.Machine.execLaunchAppend d t q s
  | .launchFail lid => Sys2Proof.Machine.execLaunchFail lid s
  | .completionWrite lid => Sys2Proof.Machine.execCompletionWrite lid s
  | .passStart lid => Sys2Proof.Machine.execPassStart lid s
  | .passEnd lid => Sys2Proof.Machine.execPassEnd lid s
  | .pmarkStop k c => Sys2Proof.Machine.execPmarkStop k c s
  | .contextSaved k c => Sys2Proof.Machine.execContextSaved k c s
  | .pmbExpiry k c => Sys2Proof.Machine.execPmbExpiry k c s
  | .zeroingDone k => Sys2Proof.Machine.execZeroingDone k s
  | .hostWrite h data => Sys2Proof.Machine.execHostWrite h data s
  | .hostRead h len => Sys2Proof.Machine.execHostRead h len s
  | .ideIntegrityFail f => Sys2Proof.Machine.execIdeIntegrityFail f s
  | .peerInbound p wr a data => Sys2Proof.Machine.execPeerInbound p wr a data s
  | .portTrain p peer => Sys2Proof.Machine.execPortTrain p peer s
  | .queueDescriptorWrite d t q v => Sys2Proof.Machine.execQueueDescriptorWrite d t q v s
  | .coreConfigWrite k v => Sys2Proof.Machine.execCoreConfigWrite k v s
  | .slotTableWrite d j v => Sys2Proof.Machine.execSlotTableWrite d j v s
  | .ttrootWrite t v => Sys2Proof.Machine.execTtrootWrite t v s
  | .go k c => Sys2Proof.Machine.execGo k c s
  | .goStep k c => Sys2Proof.Machine.execGoStep k c s
  | .decline k c => Sys2Proof.Machine.execDecline k c s
  | .measext n h => Sys2Proof.Machine.execMeasext n h s
  | .tlockWrite t trusted v => Sys2Proof.Machine.execTlockWrite t trusted v s
  | .tgo t => Sys2Proof.Machine.execTgo t s
  | .counterRead c => Sys2Proof.Machine.execCounterRead c s
  | .registerWrite r v => Sys2Proof.Machine.execRegisterWrite r v s
  | .supplySag d => Sys2Proof.Machine.execSupplySag d s
  | .thermalTrip d => Sys2Proof.Machine.execThermalTrip d s
  | .bootStage hdr body => Sys2Proof.Machine.execBootStage hdr body s
  | .getMeasurements f ask => Sys2Proof.Machine.execGetMeasurements f ask s
  | .keyExchange f => Sys2Proof.Machine.execKeyExchange f s
  | .keyUpdate f => Sys2Proof.Machine.execKeyUpdate f s
  | .endSession f => Sys2Proof.Machine.execEndSession f s
  | .vendorDefinedRequest t sign v => Sys2Proof.Machine.execVendorDefinedRequest t sign v s
  | .ideKm f => Sys2Proof.Machine.execIdeKm f s
  | .nop m => Sys2Proof.Machine.execNop m s
  | .fadd h t rm d a b => Sys2Proof.Machine.execFadd h t rm d a b s
  | .fsub h t rm d a b => Sys2Proof.Machine.execFsub h t rm d a b s
  | .fmul h t rm d a b => Sys2Proof.Machine.execFmul h t rm d a b s
  | .fma h t rm d a b c => Sys2Proof.Machine.execFma h t rm d a b c s
  | .fms h t rm d a b c => Sys2Proof.Machine.execFms h t rm d a b c s
  | .fnma h t rm d a b c => Sys2Proof.Machine.execFnma h t rm d a b c s
  | .fmin h t d a b => Sys2Proof.Machine.execFmin h t d a b s
  | .fmax h t d a b => Sys2Proof.Machine.execFmax h t d a b s
  | .fabs h t d a => Sys2Proof.Machine.execFabs h t d a s
  | .fneg h t d a => Sys2Proof.Machine.execFneg h t d a s
  | .fcmp h t cc d a b => Sys2Proof.Machine.execFcmp h t cc d a b s
  | .dot2 h t rm d a b c => Sys2Proof.Machine.execDot2 h t rm d a b c s
  | .iadd h t sa d a b => Sys2Proof.Machine.execIadd h t sa d a b s
  | .isub h t sa d a b => Sys2Proof.Machine.execIsub h t sa d a b s
  | .imul h t d a b => Sys2Proof.Machine.execImul h t d a b s
  | .imulh h t d a b => Sys2Proof.Machine.execImulh h t d a b s
  | .imad h t d a b c => Sys2Proof.Machine.execImad h t d a b c s
  | .imin h t d a b => Sys2Proof.Machine.execImin h t d a b s
  | .imax h t d a b => Sys2Proof.Machine.execImax h t d a b s
  | .iminu h t d a b => Sys2Proof.Machine.execIminu h t d a b s
  | .imaxu h t d a b => Sys2Proof.Machine.execImaxu h t d a b s
  | .vand h t d a b => Sys2Proof.Machine.execVand h t d a b s
  | .vor h t d a b => Sys2Proof.Machine.execVor h t d a b s
  | .vxor h t d a b => Sys2Proof.Machine.execVxor h t d a b s
  | .vandn h t d a b => Sys2Proof.Machine.execVandn h t d a b s
  | .vshl h t d a b => Sys2Proof.Machine.execVshl h t d a b s
  | .vshr h t d a b => Sys2Proof.Machine.execVshr h t d a b s
  | .vsar h t d a b => Sys2Proof.Machine.execVsar h t d a b s
  | .icmp h t cc d a b => Sys2Proof.Machine.execIcmp h t cc d a b s
  | .icmpu h t cc d a b => Sys2Proof.Machine.execIcmpu h t cc d a b s
  | .lmul h t d a b => Sys2Proof.Machine.execLmul h t d a b s
  | .lrcp h t d a => Sys2Proof.Machine.execLrcp h t d a s
  | .lsqrt h t d a => Sys2Proof.Machine.execLsqrt h t d a s
  | .mov h d a => Sys2Proof.Machine.execMov h d a s
  | .vmovi h d imm => Sys2Proof.Machine.execVmovi h d imm s
  | .vsel h d a b k => Sys2Proof.Machine.execVsel h d a b k s
  | .shuf h d a b => Sys2Proof.Machine.execShuf h d a b s
  | .rot h d a k => Sys2Proof.Machine.execRot h d a k s
  | .hadd h d a => Sys2Proof.Machine.execHadd h d a s
  | .hmax h d a => Sys2Proof.Machine.execHmax h d a s
  | .cvt h op d a b => Sys2Proof.Machine.execCvt h op d a b s
  | .bpack h d a b => Sys2Proof.Machine.execBpack h d a b s
  | .bunpack h d a => Sys2Proof.Machine.execBunpack h d a s
  | .mand h d a b => Sys2Proof.Machine.execMand h d a b s
  | .mor h d a b => Sys2Proof.Machine.execMor h d a b s
  | .mxor h d a b => Sys2Proof.Machine.execMxor h d a b s
  | .mnot h d a => Sys2Proof.Machine.execMnot h d a s
  | .mset h d n => Sys2Proof.Machine.execMset h d n s
  | .msetScalar h d r => Sys2Proof.Machine.execMsetScalar h d r s
  | .rcp h rm d a => Sys2Proof.Machine.execRcp h rm d a s
  | .rsq h rm d a => Sys2Proof.Machine.execRsq h rm d a s
  | .sqrt h rm d a => Sys2Proof.Machine.execSqrt h rm d a s
  | .div h rm d a b => Sys2Proof.Machine.execDiv h rm d a b s
  | .exp2 h rm d a => Sys2Proof.Machine.execExp2 h rm d a s
  | .log2 h rm d a => Sys2Proof.Machine.execLog2 h rm d a s
  | .xmov h d a n => Sys2Proof.Machine.execXmov h d a n s
  | .xbc h d a n l => Sys2Proof.Machine.execXbc h d a n l s
  | .vld h d k off => Sys2Proof.Machine.execVld h d k off s
  | .vst h d k off => Sys2Proof.Machine.execVst h d k off s
  | .vlds h d k j off => Sys2Proof.Machine.execVlds h d k j off s
  | .vsts h d k j off => Sys2Proof.Machine.execVsts h d k j off s
  | .vldx h d k x off => Sys2Proof.Machine.execVldx h d k x off s
  | .vstx h d k x off => Sys2Proof.Machine.execVstx h d k x off s
  | .vlda h d k off => Sys2Proof.Machine.execVlda h d k off s
  | .vsta h d k off => Sys2Proof.Machine.execVsta h d k off s
  | .add g d a b => Sys2Proof.Machine.execAdd g d a b s
  | .sub g d a b => Sys2Proof.Machine.execSub g d a b s
  | .addi g d a imm => Sys2Proof.Machine.execAddi g d a imm s
  | .mul g d a b => Sys2Proof.Machine.execMul g d a b s
  | .mulhu g d a b => Sys2Proof.Machine.execMulhu g d a b s
  | .mulhs g d a b => Sys2Proof.Machine.execMulhs g d a b s
  | .divu g d a b => Sys2Proof.Machine.execDivu g d a b s
  | .divuRem g d a b => Sys2Proof.Machine.execDivuRem g d a b s
  | .divs g d a b => Sys2Proof.Machine.execDivs g d a b s
  | .divsRem g d a b => Sys2Proof.Machine.execDivsRem g d a b s
  | .and g d a b => Sys2Proof.Machine.execAnd g d a b s
  | .or g d a b => Sys2Proof.Machine.execOr g d a b s
  | .xor g d a b => Sys2Proof.Machine.execXor g d a b s
  | .andn g d a b => Sys2Proof.Machine.execAndn g d a b s
  | .shl g d a b => Sys2Proof.Machine.execShl g d a b s
  | .shr g d a b => Sys2Proof.Machine.execShr g d a b s
  | .sar g d a b => Sys2Proof.Machine.execSar g d a b s
  | .shli g d a sh => Sys2Proof.Machine.execShli g d a sh s
  | .shri g d a sh => Sys2Proof.Machine.execShri g d a sh s
  | .sari g d a sh => Sys2Proof.Machine.execSari g d a sh s
  | .min g d a b => Sys2Proof.Machine.execMin g d a b s
  | .max g d a b => Sys2Proof.Machine.execMax g d a b s
  | .minu g d a b => Sys2Proof.Machine.execMinu g d a b s
  | .maxu g d a b => Sys2Proof.Machine.execMaxu g d a b s
  | .clz g d a => Sys2Proof.Machine.execClz g d a s
  | .popc g d a => Sys2Proof.Machine.execPopc g d a s
  | .movi g d imm => Sys2Proof.Machine.execMovi g d imm s
  | .movhi g d a imm j => Sys2Proof.Machine.execMovhi g d a imm j s
  | .cmp g cc d a b => Sys2Proof.Machine.execCmp g cc d a b s
  | .cmpi g cc d a imm => Sys2Proof.Machine.execCmpi g cc d a imm s
  | .sel g d a b c => Sys2Proof.Machine.execSel g d a b c s
  | .pand g d a b ia ib => Sys2Proof.Machine.execPand g d a b ia ib s
  | .por g d a b ia ib => Sys2Proof.Machine.execPor g d a b ia ib s
  | .pxor g d a b ia ib => Sys2Proof.Machine.execPxor g d a b ia ib s
  | .aadd g d a b => Sys2Proof.Machine.execAadd g d a b s
  | .aaddi g d a imm => Sys2Proof.Machine.execAaddi g d a imm s
  | .alea g d a b sh => Sys2Proof.Machine.execAlea g d a b sh s
  | .aleaSeg g d b off => Sys2Proof.Machine.execAleaSeg g d b off s
  | .amov g d a => Sys2Proof.Machine.execAmov g d a s
  | .smova g d a => Sys2Proof.Machine.execSmova g d a s
  | .br g disp => Sys2Proof.Machine.execBr g disp s
  | .brc g d disp => Sys2Proof.Machine.execBrc g d disp s
  | .jmp g a => Sys2Proof.Machine.execJmp g a s
  | .call g d n disp => Sys2Proof.Machine.execCall g d n disp s
  | .calli g d a n => Sys2Proof.Machine.execCalli g d a n s
  | .ret g a n => Sys2Proof.Machine.execRet g a n s
  | .loop g k levels len => Sys2Proof.Machine.execLoop g k levels len s
  | .loopx g a len => Sys2Proof.Machine.execLoopx g a len s
  | .setfmt g v => Sys2Proof.Machine.execSetfmt g v s
  | .fence g sc nmask => Sys2Proof.Machine.execFence g sc nmask s
  | .xfence g => Sys2Proof.Machine.execXfence g s
  | .ifence g => Sys2Proof.Machine.execIfence g s
  | .bar g sc => Sys2Proof.Machine.execBar g sc s
  | .setf g grp mask => Sys2Proof.Machine.execSetf g grp mask s
  | .clrf g grp mask => Sys2Proof.Machine.execClrf g grp mask s
  | .waitgcc g a => Sys2Proof.Machine.execWaitgcc g a s
  | .rdsys g d num => Sys2Proof.Machine.execRdsys g d num s
  | .wrsys g num a => Sys2Proof.Machine.execWrsys g num a s
  | .trap g imm => Sys2Proof.Machine.execTrap g imm s
  | .brk g imm => Sys2Proof.Machine.execBrk g imm s
  | .halt g => Sys2Proof.Machine.execHalt g s
  | .unit g d k => Sys2Proof.Machine.execUnit g d k s
  | .unitS g a => Sys2Proof.Machine.execUnitS g a s
  | .pushld g p => Sys2Proof.Machine.execPushld g p s
  | .pushlds g p b => Sys2Proof.Machine.execPushlds g p b s
  | .pushldx g p b => Sys2Proof.Machine.execPushldx g p b s
  | .stg g p => Sys2Proof.Machine.execStg g p s
  | .stgs g p b => Sys2Proof.Machine.execStgs g p b s
  | .stgx g p x => Sys2Proof.Machine.execStgx g p x s
  | .lds g d a cls off sx z => Sys2Proof.Machine.execLds g d a cls off sx z s
  | .ldsL g d a cls off sx z => Sys2Proof.Machine.execLdsL g d a cls off sx z s
  | .sts g a b cls off z => Sys2Proof.Machine.execSts g a b cls off z s
  | .stsL g a b cls off z => Sys2Proof.Machine.execStsL g a b cls off z s
  | .ldacq g d a sc nmask => Sys2Proof.Machine.execLdacq g d a sc nmask s
  | .strel g a b sc nmask => Sys2Proof.Machine.execStrel g a b sc nmask s
  | .amoAdd g p => Sys2Proof.Machine.execAmoAdd g p s
  | .amoFadd g p => Sys2Proof.Machine.execAmoFadd g p s
  | .amoMin g p => Sys2Proof.Machine.execAmoMin g p s
  | .amoMax g p => Sys2Proof.Machine.execAmoMax g p s
  | .amoMinu g p => Sys2Proof.Machine.execAmoMinu g p s
  | .amoMaxu g p => Sys2Proof.Machine.execAmoMaxu g p s
  | .amoAnd g p => Sys2Proof.Machine.execAmoAnd g p s
  | .amoOr g p => Sys2Proof.Machine.execAmoOr g p s
  | .amoXor g p => Sys2Proof.Machine.execAmoXor g p s
  | .amoXchg g p => Sys2Proof.Machine.execAmoXchg g p s
  | .cas g p nw => Sys2Proof.Machine.execCas g p nw s
  | .tlook g d a => Sys2Proof.Machine.execTlook g d a s
  | .tset g a b way => Sys2Proof.Machine.execTset g a b way s
  | .tclr g a => Sys2Proof.Machine.execTclr g a s
  | .nxu g => Sys2Proof.Machine.execNxu g s
  | .mma g a b m => Sys2Proof.Machine.execMma g a b m s
  | .mmag g base b list m => Sys2Proof.Machine.execMmag g base b list m s
  | .latch g a b l done cls => Sys2Proof.Machine.execLatch g a b l done cls s
  | .latcht g a b l done cls w => Sys2Proof.Machine.execLatcht g a b l done cls w s
  | .accz g r => Sys2Proof.Machine.execAccz g r s
  | .accwr g a r add => Sys2Proof.Machine.execAccwr g a r add s
  | .accrd g a r tgt => Sys2Proof.Machine.execAccrd g a r tgt s
  | .nestld g d cl j => Sys2Proof.Machine.execNestld g d cl j s
  | .cpy g p => Sys2Proof.Machine.execCpy g p s
  | .cpyt g p ts => Sys2Proof.Machine.execCpyt g p ts s
  | .cpym g p ms rflag rctx => Sys2Proof.Machine.execCpym g p ms rflag rctx s
  | .cpsend g p port => Sys2Proof.Machine.execCpsend g p port s
  | .cparm g ch lo hi => Sys2Proof.Machine.execCparm g ch lo hi s
  | .cpstat g d ch => Sys2Proof.Machine.execCpstat g d ch s
  | .cpstatClr g d ch => Sys2Proof.Machine.execCpstatClr g d ch s
  | .buse g a n => Sys2Proof.Machine.execBuse g a n s
  | .bfree g a n => Sys2Proof.Machine.execBfree g a n s
  | .launch g a q => Sys2Proof.Machine.execLaunch g a q s
  | .relaunch g a b q => Sys2Proof.Machine.execRelaunch g a b q s
  | .trexcl g a b slot => Sys2Proof.Machine.execTrexcl g a b slot s
  | .portDown p => Sys2Proof.Machine.execPortDown p s
  | .supplyRestored d => Sys2Proof.Machine.execSupplyRestored d s
  | .gccTick => Sys2Proof.Machine.execGccTick s
  | .powerOnReset => Sys2Proof.Machine.execPowerOnReset s
  | .driverReset => Sys2Proof.Machine.execDriverReset s
  | .preempt => Sys2Proof.Machine.execPreempt s
  | .resume => Sys2Proof.Machine.execResume s
  | .abort => Sys2Proof.Machine.execAbort s
  | .scrub => Sys2Proof.Machine.execScrub s
  | .stampreset => Sys2Proof.Machine.execStampreset s
  | .coresave => Sys2Proof.Machine.execCoresave s
  | .coreload => Sys2Proof.Machine.execCoreload s
  | .shootdown => Sys2Proof.Machine.execShootdown s
  | .finishRequest => Sys2Proof.Machine.execFinishRequest s
  | .finishRemove => Sys2Proof.Machine.execFinishRemove s
  | .powerWindowEnd => Sys2Proof.Machine.execPowerWindowEnd s

end Sys2Proof.Machine
end

