-- ==== Sys2Proof/Machine/Round.lean ====
section
/-! DEFINITION. What the machine does when nobody names its next step: the events of the machine's own agents, in one
fixed order, of which the first that can happen is taken. -/
namespace Sys2Proof.Machine

/-- The events of one context. -/
def ctxEvents (s : State) (k : CoreId) (c : CtxId) : List Instr :=
  let x := s.ctx k c
  [.contextStart k c, .dispatchRestart k c, .segmentCheck k c] ++
    x.fetchMiss.map (fun b => .fetchComplete k c (BitVec.ofNat 38 b) .clean) ++
    [.spillFillComplete k c, .waitgccWake k c, .scoreboardLanding k c (x.sbs.findIdx (·.arrived)), .nxuService k c,
      .pmbExpiry k c, .pmarkStop k c, .contextSaved k c]

/-- The lines of a cluster's queue that have come back. -/
def lineEvents (s : State) (k : CoreId) (q : Cl) : List Instr :=
  [.loadLineLands k q ((aget (s.core k).laqs q.toNat []).findIdx fun e => e.line.isSome && !e.landed) false, .laqEntryFree k q]

/-- The events of one core. -/
def coreEvents (s : State) (k : CoreId) : List Instr :=
  let y := s.core k
  [.zeroingDone k] ++ y.walks.map (fun w => .tlbWalkComplete k (BitVec.ofNat 48 (w.page * 65536)) .clean) ++
    (y.ctxs.flatMap fun x => ctxEvents s k (BitVec.ofNat 2 x.1)) ++
    (y.laqs.flatMap fun x => lineEvents s k (BitVec.ofNat 3 x.1)) ++
    (y.chans.flatMap fun x =>
      let ch : Chan := BitVec.ofNat 4 x.1
      [.copyCommandStart k ch, .copyLine k ch .clean, .copyComplete k ch]) ++
    [.matrixCommandStart k, .matrixBeat k .clean, .loaderBeat k .clean, .accRowBeat k .clean, .aConsumed k, .matrixCommandDone k, .coreAssign k,
      .runmaxExpiry k, .issueCycle k]

/-- The requests for units of one launch, in the order in which those of one tick are served (R294). -/
def dealEvents (s : State) (l : Launch) : List Instr :=
  let base := if l.dealTick == s.gcc then l.dealBase else l.lastDie + 1
  [(0 : DieId), 1, 2, 3].flatMap fun i =>
    ((recCset l.record).filter fun k => dieOf (BitVec.ofNat 7 k) == base + i).flatMap fun k =>
      let j : CoreId := BitVec.ofNat 7 k
      allCtxs.flatMap fun c => [.dispatchRestart j c, .nxuService j c] ++ (if c = 0 then [.coreAssign j] else [])

/-- The events of one launch. -/
def launchEvents (s : State) (l : Launch) : List Instr :=
  [.admitLaunch l.id, .passStart l.id, .launchFail l.id, .completionWrite l.id, .passEnd l.id] ++
    dealEvents s l ++
    l.members.flatMap fun m =>
      let k : CoreId := BitVec.ofNat 7 m.1
      [.barrierComplete l.id .core k, .barrierComplete l.id .group k, .barrierComplete l.id .die k, .barrierComplete l.id .pkg k]

/-- The events of the queues. -/
def queueEvents (s : State) : List Instr :=
  s.dies.flatMap fun d => d.2.queues.flatMap fun q =>
    let die : DieId := BitVec.ofNat 2 d.1
    let t : Tenant := BitVec.ofNat 4 (q.1 / 16)
    [.launchAppend die t (BitVec.ofNat 4 q.1), .takeRecord die t]

/-- The events of the management core. -/
def managementEvents : List Instr :=
  [.preempt, .resume, .abort, .scrub, .stampreset, .coresave, .coreload, .shootdown,
    .finishRequest, .finishRemove, .powerWindowEnd, .thermalTrip 0, .thermalTrip 1, .thermalTrip 2, .thermalTrip 3, .bulkFrameSlot 0, .bulkFrameSlot 1, .bulkFrameSlot 2, .bulkFrameSlot 3]

/-- Every event of the machine's own agents but the tick, in the order of the default round. -/
def State.candidates (s : State) : List Instr :=
  managementEvents ++ (List.range s.reqs.length).flatMap (fun i => [.memRequestService i .clean, .globalAccessPerform i .clean]) ++
    queueEvents s ++ s.launches.flatMap (launchEvents s) ++ (s.cores.flatMap fun y => coreEvents s (BitVec.ofNat 7 y.1)) ++
    (if s.launches.isEmpty then [] else allCores.map .coreAssign)

/-- The first event of a list that can happen, else the next tick. -/
def firstEnabled (s : State) : List Instr → Host.Outcome State Fault Refusal
  | [] => exec .gccTick s
  | i :: t =>
    match exec i s with
    | .next u => .next u
    | _ => firstEnabled s t

end Sys2Proof.Machine
end

