-- ==== Sys2Proof/Machine/Step.lean ====
section
/-! DEFINITION. One step of the machine. -/
namespace Sys2Proof.Machine

/-- One step: the step the agenda names, or, when it names none, the default round (log 12). -/
def step (s : State) : Host.Outcome State Fault Refusal :=
  match s.agenda with
  | i :: rest => exec i { s with agenda := rest }
  | [] => firstEnabled s s.candidates

/-- The segment a single bundle is placed in: one code block, at address 0x400. -/
def fetchSeg : Seg := { va := 0, codeOff := 0x400, codeLen := 0x400, splo := 0, sphi := 0x600000 }

/-- The state with the bundle whose bits are w in the fetch buffer of context 0 of core 0, where that context runs alone and
presents it in the core's next cycle, which is the next step (log 12). -/
def State.withFetchWord (s : State) (nbits w : Nat) : State :=
  let x : Ctx :=
    { s.ctx 0 0 with
      run := .running, begun := true, pc := 0x400, npc := 0x400, seg := fetchSeg, segOk := true, segFail := false, delay := 0,
      blocks := [0], fetchMiss := [], fetchFail := [], part := none, loop := none, waitGcc := none, barWait := none,
      xfer := none, stopReq := false, preempt := false, pendFaults := [], breaks := [], stepReq := false, stepStop := false,
      clmask := 0xFF, code := wrBytes [] 0x400 (leBytes (max 400 (nbits / 8)) w) }
  let y : Core :=
    { s.core 0 with
      v := true, zbusy := false, primary := 0, primCycles := 0, heir := none, mx := [], accPipe := [],
      res := [], usePend := [], ctxs := [(0, x)] }
  { (s.setCore 0 y).modDie 0 fun d => { d with cycle := y.cycle + 1 } with agenda := [.bundleIssue 0 0 .clean] }

end Sys2Proof.Machine
end

