-- ==== Sys2Proof/Safety.lean ====
section
/-! DEFINITION. What claims are stated in: completion of a step, when an operation issues, the invariants of a state,
and the rows of the spec's tables as the spec writes them. -/
namespace Sys2Proof

open Machine

/-- A step that can happen: it answers a next state. -/
def Completes (i : Instr) (s : State) : Prop := ∃ t, exec i s = .next t

/-- The memory of the package is in its canonical form. -/
def MemInv (s : State) : Prop := Memory.wf s.mem = true

/-- A step that answers a next state keeps a property. -/
def Keeps (P : State → Prop) : Prop := ∀ s t, P s → step s = .next t → P t

/-- An operation of one of the eight opcode maps, as against an event of the machine. -/
abbrev IsOperation (i : Instr) : Prop := (encode i).isSome = true

/-- An operation's bundle issues (R36, R38, R318): nothing it needs is awaited, no other run's reservation holds it, and
every issue check passes. -/
abbrev Issues (i : Instr) (s : State) : Prop :=
  (planOf i s).freezes s = false ∧ (planOf i s).held = false ∧ (planOf i s).checks s = .ok

/-- A scalar source that can be read at issue: s0, or a register that awaits no scoreboarded result (R38) and holds no
poison (R323). -/
abbrev ScalarReady (s : State) (r : SReg) : Prop :=
  r = 0 ∨ (s.me.awaits (.s (s.me.phys r)) = false ∧ s.me.sPoison.contains (s.me.phys r) = false ∧
    ahas s.me.ldsPoison (s.me.phys r) = false)

/-- A scalar destination that R153 allows: inside a loop, none of s2 to s7. -/
abbrev LoopAllows (s : State) (d : SReg) : Prop := s.me.loop = none ∨ d.toNat < 2 ∨ 7 < d.toNat

/-- A predicate register that holds no poison (R323); p0 never does. -/
abbrev PredReady (s : State) (p : PReg) : Prop := p = 0 ∨ s.me.rPoison.contains (keyP p.toNat) = false

/-- An address register that holds no poison (R323). -/
abbrev AddrReady (s : State) (a : AReg) : Prop := s.me.rPoison.contains (keyA a.toNat) = false

/-- A nest register that holds no poison (R323). -/
abbrev NestReady (s : State) (n : NReg) : Prop := s.me.rPoison.contains (keyN n.toNat) = false

/-- An operation under this guard performs, and the guard's predicate can be read (R116, R323). -/
abbrev Performs (g : Guard) (s : State) : Prop := performs g s.me = true ∧ PredReady s g.pred

/-- The keys of a predicate that is read. -/
def predKey (p : PReg) : List Nat := if p = 0 then [] else [keyP p.toNat]

/-- The predicate and address registers that a scalar, predicate or address operation reads besides its guard. -/
def regsOf : Instr → List Nat
  | .sel _ _ _ _ c => predKey c
  | .smova _ _ a => [keyA a.toNat]
  | .pand _ _ a b _ _ => predKey a ++ predKey b
  | .por _ _ a b _ _ => predKey a ++ predKey b
  | .pxor _ _ a b _ _ => predKey a ++ predKey b
  | .aadd _ _ a _ => [keyA a.toNat]
  | .aaddi _ _ a _ => [keyA a.toNat]
  | .alea _ _ a _ _ => [keyA a.toNat]
  | _ => []

/-- None of those registers holds poison (R323). -/
abbrev RegsReady (i : Instr) (s : State) : Prop := ∀ q ∈ regsOf i, s.me.rPoison.contains q = false

/-- The state once an operation's bundle has consumed what the operation reads and pops: local accesses from there on are
ordered after the global reads that brought them (R94). -/
def heard (i : Instr) (s : State) : State := s.consumeAll (planOf i s).reads (popped s.here (planOf i s).pops)

/-- The root of a tree over leaves: node j of a level joins nodes 2j and 2j + 1 of the level below, and passes a node
whose partner is absent (R61, R180). -/
def treeOf (op : Word → Word → Word) (leaf : Nat → Option Word) : Nat → Nat → Option Word
  | 0, j => leaf j
  | n + 1, j =>
    match treeOf op leaf n (2 * j), treeOf op leaf n (2 * j + 1) with
    | some a, some b => some (op a b)
    | some a, none => some a
    | none, r => r

/-- Whether an FP32 pattern is a NaN (R46). -/
def isNaN32 (w : Word) : Bool := w.toNat / 2 ^ 23 % 2 ^ 8 == 255 && w.toNat % 2 ^ 23 != 0
/-- Whether an FP32 pattern is infinity of some sign. -/
def isInf32 (w : Word) : Bool := w.toNat % 2 ^ 31 == 255 * 2 ^ 23
/-- Whether an FP32 pattern is a zero of some sign. -/
def isZero32 (w : Word) : Bool := w.toNat % 2 ^ 31 == 0
/-- Invalid when one of some FP32 patterns is a signalling NaN (R46). -/
def nvOf (ws : List Word) : Byte := if ws.any fun w => isNaN32 w && w.toNat % 2 ^ 23 < 2 ^ 22 then 0x01 else 0

/-- The scratchpad lines of a beat can be read as memory holds them: the command must see every write to them. -/
abbrev LinesSure (s : State) (k : CoreId) (cmd : MxCmd) (lns : List Nat) : Prop :=
  ∀ ln ∈ lns, s.sure (cmd.who k) (spmPa k.toNat (64 * ln)) 64 = true

/-- The lines of a beat under way that the engine phase has still to serve (R197). -/
def linesLeft (cmd : MxCmd) (lns : List Nat) : List Nat := if cmd.left.isEmpty then lns.eraseDups else cmd.left

/-- The accumulator accesses of a beat over the rows that start at some local addresses: row i of them goes to accumulator
row `row + i`, whose columns from 0 or 128 on each take the beat's value for the row and that column of the latch (R201), and
bears the flags that those values raise (R63). -/
def beatPuts (s : State) (k : CoreId) (cmd : MxCmd) (latch : LReg) (add colh : Bool) (row : Nat) (xs : List Nat) :
    List AccOp :=
  let a := aFmt cmd.fmts
  let b := bFmt cmd.fmts
  let value (i n : Nat) : Word × Byte :=
    beatValue (pairSteps a) (fun e => kElem a (fun y => rd s.mem (spmPa k.toNat (xs.getD i 0 + y))) e)
      (fun e => kElem b (fun y => rd (s.core k).latches (65536 * latch.toNat + kBytes b * n + y)) e)
  (List.range xs.length).map fun i =>
    { due := (s.core k).cycle + 8, cmd := cmd.id, runId := cmd.runId, who := cmd.who k
      act := .put (row + i) (if colh then 128 else 0) add ((List.range (outCols a)).map fun n => (value i n).1)
      flags := orAll ((List.range (outCols a)).map fun n => (value i n).2) }

/-- The vector source of a format-V operation awaits nothing and holds no poison in the lanes that are read. -/
abbrev LineReady (s : State) (cl : Cl) (r : VReg) (lanes : BitVec 16) : Prop :=
  s.me.awaits (.v cl.toNat r.toNat) = false ∧ aget s.here.vpoison (vkey cl.toNat r.toNat) 0 &&& lanes = 0

/-- The fault an operation takes at its bundle, in the slot with this number. -/
def faultsAs (s : State) (slot : Nat) (f : FaultInfo) : Out :=
  .next (s.takeFault s.cur.1 s.cur.2 { f with slot := BitVec.ofNat 8 slot })

/-- A write of n bytes stands last in their order: every write to them that has performed happens before it, and no read has
taken bytes of a write to come (R93, R98). -/
abbrev Lasts (s : State) (w : Who) (pa n : Nat) : Prop := s.over w pa n = [] ∧ s.promises = []

/-- A fault that will hold its context while results in flight to it are still due: it waits for them (R320). -/
abbrev HoldWaits (s : State) (f : FaultInfo) : Prop :=
  (f.code = 0x04 ∨ f.code = 0x07) ∧ s.me.stopReq = false ∧ ∃ b ∈ s.me.sbs, b.arrived = false

/-- The guard of an operation of format S (R116). -/
def guardOf : Instr → Option Guard
  | .add g _ _ _ => some g
  | .sub g _ _ _ => some g
  | .addi g _ _ _ => some g
  | .mul g _ _ _ => some g
  | .mulhu g _ _ _ => some g
  | .mulhs g _ _ _ => some g
  | .divu g _ _ _ => some g
  | .divuRem g _ _ _ => some g
  | .divs g _ _ _ => some g
  | .divsRem g _ _ _ => some g
  | .and g _ _ _ => some g
  | .or g _ _ _ => some g
  | .xor g _ _ _ => some g
  | .andn g _ _ _ => some g
  | .shl g _ _ _ => some g
  | .shr g _ _ _ => some g
  | .sar g _ _ _ => some g
  | .shli g _ _ _ => some g
  | .shri g _ _ _ => some g
  | .sari g _ _ _ => some g
  | .min g _ _ _ => some g
  | .max g _ _ _ => some g
  | .minu g _ _ _ => some g
  | .maxu g _ _ _ => some g
  | .clz g _ _ => some g
  | .popc g _ _ => some g
  | .movi g _ _ => some g
  | .movhi g _ _ _ _ => some g
  | .cmp g _ _ _ _ => some g
  | .cmpi g _ _ _ _ => some g
  | .sel g _ _ _ _ => some g
  | .pand g _ _ _ _ _ => some g
  | .por g _ _ _ _ _ => some g
  | .pxor g _ _ _ _ _ => some g
  | .aadd g _ _ _ => some g
  | .aaddi g _ _ _ => some g
  | .alea g _ _ _ _ => some g
  | .aleaSeg g _ _ _ => some g
  | .amov g _ _ => some g
  | .smova g _ _ => some g
  | .br g _ => some g
  | .brc g _ _ => some g
  | .jmp g _ => some g
  | .call g _ _ _ => some g
  | .calli g _ _ _ => some g
  | .ret g _ _ => some g
  | .loop g _ _ _ => some g
  | .loopx g _ _ => some g
  | .setfmt g _ => some g
  | .fence g _ _ => some g
  | .xfence g => some g
  | .ifence g => some g
  | .bar g _ => some g
  | .setf g _ _ => some g
  | .clrf g _ _ => some g
  | .waitgcc g _ => some g
  | .rdsys g _ _ => some g
  | .wrsys g _ _ => some g
  | .trap g _ => some g
  | .brk g _ => some g
  | .halt g => some g
  | .unit g _ _ => some g
  | .unitS g _ => some g
  | .pushld g _ => some g
  | .pushlds g _ _ => some g
  | .pushldx g _ _ => some g
  | .stg g _ => some g
  | .stgs g _ _ => some g
  | .stgx g _ _ => some g
  | .lds g _ _ _ _ _ _ => some g
  | .ldsL g _ _ _ _ _ _ => some g
  | .sts g _ _ _ _ _ => some g
  | .stsL g _ _ _ _ _ => some g
  | .ldacq g _ _ _ _ => some g
  | .strel g _ _ _ _ => some g
  | .amoAdd g _ => some g
  | .amoFadd g _ => some g
  | .amoMin g _ => some g
  | .amoMax g _ => some g
  | .amoMinu g _ => some g
  | .amoMaxu g _ => some g
  | .amoAnd g _ => some g
  | .amoOr g _ => some g
  | .amoXor g _ => some g
  | .amoXchg g _ => some g
  | .cas g _ _ => some g
  | .tlook g _ _ => some g
  | .tset g _ _ _ => some g
  | .tclr g _ => some g
  | .nxu g => some g
  | .mma g _ _ _ => some g
  | .mmag g _ _ _ _ => some g
  | .latch g _ _ _ _ _ => some g
  | .latcht g _ _ _ _ _ _ => some g
  | .accz g _ => some g
  | .accwr g _ _ _ => some g
  | .accrd g _ _ _ => some g
  | .nestld g _ _ _ => some g
  | .cpy g _ => some g
  | .cpyt g _ _ => some g
  | .cpym g _ _ _ _ => some g
  | .cpsend g _ _ => some g
  | .cparm g _ _ _ => some g
  | .cpstat g _ _ => some g
  | .cpstatClr g _ _ => some g
  | .buse g _ _ => some g
  | .bfree g _ _ => some g
  | .launch g _ _ => some g
  | .relaunch g _ _ _ => some g
  | .trexcl g _ _ _ => some g
  | _ => none

/-- The cluster and lane mask of an operation of format V (R117). -/
def headOf : Instr → Option VHead
  | .fadd g _ _ _ _ _ => some g
  | .fsub g _ _ _ _ _ => some g
  | .fmul g _ _ _ _ _ => some g
  | .fma g _ _ _ _ _ _ => some g
  | .fms g _ _ _ _ _ _ => some g
  | .fnma g _ _ _ _ _ _ => some g
  | .fmin g _ _ _ _ => some g
  | .fmax g _ _ _ _ => some g
  | .fabs g _ _ _ => some g
  | .fneg g _ _ _ => some g
  | .fcmp g _ _ _ _ _ => some g
  | .dot2 g _ _ _ _ _ _ => some g
  | .iadd g _ _ _ _ _ => some g
  | .isub g _ _ _ _ _ => some g
  | .imul g _ _ _ _ => some g
  | .imulh g _ _ _ _ => some g
  | .imad g _ _ _ _ _ => some g
  | .imin g _ _ _ _ => some g
  | .imax g _ _ _ _ => some g
  | .iminu g _ _ _ _ => some g
  | .imaxu g _ _ _ _ => some g
  | .vand g _ _ _ _ => some g
  | .vor g _ _ _ _ => some g
  | .vxor g _ _ _ _ => some g
  | .vandn g _ _ _ _ => some g
  | .vshl g _ _ _ _ => some g
  | .vshr g _ _ _ _ => some g
  | .vsar g _ _ _ _ => some g
  | .icmp g _ _ _ _ _ => some g
  | .icmpu g _ _ _ _ _ => some g
  | .lmul g _ _ _ _ => some g
  | .lrcp g _ _ _ => some g
  | .lsqrt g _ _ _ => some g
  | .mov g _ _ => some g
  | .vmovi g _ _ => some g
  | .vsel g _ _ _ _ => some g
  | .shuf g _ _ _ => some g
  | .rot g _ _ _ => some g
  | .hadd g _ _ => some g
  | .hmax g _ _ => some g
  | .cvt g _ _ _ _ => some g
  | .bpack g _ _ _ => some g
  | .bunpack g _ _ => some g
  | .mand g _ _ _ => some g
  | .mor g _ _ _ => some g
  | .mxor g _ _ _ => some g
  | .mnot g _ _ => some g
  | .mset g _ _ => some g
  | .msetScalar g _ _ => some g
  | .rcp g _ _ _ => some g
  | .rsq g _ _ _ => some g
  | .sqrt g _ _ _ => some g
  | .div g _ _ _ _ => some g
  | .exp2 g _ _ _ => some g
  | .log2 g _ _ _ => some g
  | .xmov g _ _ _ => some g
  | .xbc g _ _ _ _ => some g
  | .vld g _ _ _ => some g
  | .vst g _ _ _ => some g
  | .vlds g _ _ _ _ => some g
  | .vsts g _ _ _ _ => some g
  | .vldx g _ _ _ _ => some g
  | .vstx g _ _ _ _ => some g
  | .vlda g _ _ _ => some g
  | .vsta g _ _ _ => some g
  | _ => none

/-- A row of a table of scalar results: guard, destination, scalar sources, latency, value. -/
structure ScalarRow where
  guard : Guard
  dest : SReg
  srcs : List SReg
  lat : Nat
  val : Ctx → Dword

/-- The unsigned value of a scalar. -/
def uS (x : Ctx) (r : SReg) : Nat := (x.s r).toNat
/-- The signed value of a scalar. -/
def iS (x : Ctx) (r : SReg) : Int := (x.s r).toInt

/-- The single-result scalar operations with the latencies of R128 (R143, R145, R147, R148). -/
def scalarRow : Instr → Option ScalarRow
  | .add g d a b => some ⟨g, d, [a, b], 1, fun x => BitVec.ofNat 64 (uS x a + uS x b)⟩
  | .sub g d a b => some ⟨g, d, [a, b], 1, fun x => BitVec.ofInt 64 (iS x a - iS x b)⟩
  | .addi g d a imm => some ⟨g, d, [a], 1, fun x => BitVec.ofInt 64 (iS x a + imm.toInt)⟩
  | .mul g d a b => some ⟨g, d, [a, b], 3, fun x => BitVec.ofNat 64 (uS x a * uS x b)⟩
  | .mulhu g d a b => some ⟨g, d, [a, b], 3, fun x => BitVec.ofNat 64 (uS x a * uS x b / 2 ^ 64)⟩
  | .mulhs g d a b => some ⟨g, d, [a, b], 3, fun x => BitVec.ofInt 64 (iS x a * iS x b / 2 ^ 64)⟩
  | .and g d a b => some ⟨g, d, [a, b], 1, fun x => BitVec.ofNat 64 (uS x a &&& uS x b)⟩
  | .or g d a b => some ⟨g, d, [a, b], 1, fun x => BitVec.ofNat 64 (uS x a ||| uS x b)⟩
  | .xor g d a b => some ⟨g, d, [a, b], 1, fun x => BitVec.ofNat 64 (uS x a ^^^ uS x b)⟩
  | .andn g d a b => some ⟨g, d, [a, b], 1, fun x => BitVec.ofNat 64 (uS x a &&& (2 ^ 64 - 1 - uS x b))⟩
  | .shl g d a b => some ⟨g, d, [a, b], 1, fun x => BitVec.ofNat 64 (uS x a * 2 ^ (uS x b % 64))⟩
  | .shr g d a b => some ⟨g, d, [a, b], 1, fun x => BitVec.ofNat 64 (uS x a / 2 ^ (uS x b % 64))⟩
  | .sar g d a b => some ⟨g, d, [a, b], 1, fun x => BitVec.ofInt 64 (iS x a / 2 ^ (uS x b % 64))⟩
  | .shli g d a sh => some ⟨g, d, [a], 1, fun x => BitVec.ofNat 64 (uS x a * 2 ^ sh.toNat)⟩
  | .shri g d a sh => some ⟨g, d, [a], 1, fun x => BitVec.ofNat 64 (uS x a / 2 ^ sh.toNat)⟩
  | .sari g d a sh => some ⟨g, d, [a], 1, fun x => BitVec.ofInt 64 (iS x a / 2 ^ sh.toNat)⟩
  | .min g d a b => some ⟨g, d, [a, b], 1, fun x => BitVec.ofInt 64 (Min.min (iS x a) (iS x b))⟩
  | .max g d a b => some ⟨g, d, [a, b], 1, fun x => BitVec.ofInt 64 (Max.max (iS x a) (iS x b))⟩
  | .minu g d a b => some ⟨g, d, [a, b], 1, fun x => BitVec.ofNat 64 (Min.min (uS x a) (uS x b))⟩
  | .maxu g d a b => some ⟨g, d, [a, b], 1, fun x => BitVec.ofNat 64 (Max.max (uS x a) (uS x b))⟩
  | .clz g d a => some ⟨g, d, [a], 1, fun x => BitVec.ofNat 64 (if uS x a = 0 then 64 else 63 - (uS x a).log2)⟩
  | .popc g d a => some ⟨g, d, [a], 1, fun x => BitVec.ofNat 64 ((List.range 64).countP fun i => (x.s a).getLsbD i)⟩
  | .movi g d imm => some ⟨g, d, [], 1, fun _ => BitVec.ofInt 64 imm.toInt⟩
  | .movhi g d a imm j => some ⟨g, d, [a], 1, fun x => BitVec.ofNat 64 (uS x a % 2 ^ (16 * j.toNat) +
      imm.toNat * 2 ^ (16 * j.toNat) + uS x a / 2 ^ (16 * j.toNat + 16) * 2 ^ (16 * j.toNat + 16))⟩
  | .sel g d a b c => some ⟨g, d, [a, b], 1, fun x => if x.p c then x.s a else x.s b⟩
  | .smova g d a => some ⟨g, d, [], 1, fun x => x.a a⟩
  | _ => none

/-- A row of a table of predicate results: guard, destination, scalar sources, value. -/
structure PredRow where
  guard : Guard
  dest : PReg
  srcs : List SReg
  val : Ctx → Bool

/-- The conditions of R146. -/
def condOf (c : SCond) (a b : Dword) : Bool :=
  match c with
  | .eq => decide (a.toNat = b.toNat)
  | .ne => decide (a.toNat ≠ b.toNat)
  | .lt => a.slt b
  | .le => a.sle b
  | .gt => b.slt a
  | .ge => b.sle a
  | .ltu => a.ult b
  | .leu => a.ule b
  | .gtu => b.ult a
  | .geu => b.ule a

/-- The operations that write a predicate (R147). -/
def predRow : Instr → Option PredRow
  | .cmp g c d a b => some ⟨g, d, [a, b], fun x => condOf c (x.s a) (x.s b)⟩
  | .cmpi g c d a imm => some ⟨g, d, [a], fun x => condOf c (x.s a) (BitVec.ofInt 64 imm.toInt)⟩
  | .pand g d a b ia ib => some ⟨g, d, [], fun x => xor (x.p a) ia && xor (x.p b) ib⟩
  | .por g d a b ia ib => some ⟨g, d, [], fun x => xor (x.p a) ia || xor (x.p b) ib⟩
  | .pxor g d a b ia ib => some ⟨g, d, [], fun x => xor (xor (x.p a) ia) (xor (x.p b) ib)⟩
  | _ => none

/-- A row of a table of address results: guard, destination, scalar sources, value modulo 2^64. -/
structure AddrRow where
  guard : Guard
  dest : AReg
  srcs : List SReg
  val : Ctx → Int

/-- The operations that write an address register (R148). -/
def addrRow : Instr → Option AddrRow
  | .aadd g d a b => some ⟨g, d, [b], fun x => (x.a a).toNat + uS x b⟩
  | .aaddi g d a imm => some ⟨g, d, [], fun x => (x.a a).toNat + imm.toInt⟩
  | .alea g d a b sh => some ⟨g, d, [b], fun x => (x.a a).toNat + uS x b * 2 ^ sh.toNat⟩
  | .aleaSeg g d b off => some ⟨g, d, [b], fun x => x.seg.va.toNat + uS x b + off.toNat⟩
  | .amov g d a => some ⟨g, d, [a], fun x => uS x a⟩
  | _ => none

/-- A row of the division table: guard, destination, dividend, divisor, result. -/
structure DivRow where
  guard : Guard
  dest : SReg
  num : SReg
  den : SReg
  val : Ctx → Dword

/-- The four forms of division with the corners of R144. -/
def divRow : Instr → Option DivRow
  | .divu g d a b => some ⟨g, d, a, b, fun x => if x.s b = 0 then BitVec.ofInt 64 (-1) else BitVec.ofNat 64 (uS x a / uS x b)⟩
  | .divuRem g d a b => some ⟨g, d, a, b, fun x => if x.s b = 0 then x.s a else BitVec.ofNat 64 (uS x a % uS x b)⟩
  | .divs g d a b => some ⟨g, d, a, b, fun x =>
      if x.s b = 0 then BitVec.ofInt 64 (-1)
      else if iS x a = -2 ^ 63 ∧ iS x b = -1 then BitVec.ofInt 64 (-2 ^ 63)
      else BitVec.ofInt 64 (Int.sign (iS x a) * Int.sign (iS x b) * ((iS x a).natAbs / (iS x b).natAbs : Nat))⟩
  | .divsRem g d a b => some ⟨g, d, a, b, fun x =>
      if x.s b = 0 then x.s a else BitVec.ofInt 64 (Int.sign (iS x a) * ((iS x a).natAbs % (iS x b).natAbs : Nat))⟩
  | _ => none

/-- A row of the lane table: cluster and mask, destination, sources, latency, and what an enabled lane becomes with the
flags it raises. -/
structure LaneRow where
  head : VHead
  dest : VReg
  srcs : List VSrc
  lat : Nat
  val : Ctx → List Word → Word × Byte

/-- An integer operation on the elements of two lanes, the result modulo 2^w; it sets no flag (R175). -/
def intElems (t : ITy) (f : Nat → Nat → Nat → Int) (ws : List Word) : Word × Byte :=
  perElem (iWidth t) (fun e => ((f (iWidth t) (nth e 0) (nth e 1) % 2 ^ iWidth t).toNat, 0)) ws

/-- A sum or difference under its saturation: signed value i, unsigned value n (R175). -/
def intSum (sa : Sat) (w : Nat) (i n : Int) : Int :=
  match sa with
  | .wrap => n
  | .sat => Max.max (-(2 ^ (w - 1))) (Min.min (2 ^ (w - 1) - 1) i)
  | .satn => Max.max 0 (Min.min (2 ^ w - 1) n)

/-- A word of four 8-bit elements with their flags. -/
def perElemOf8 (f : Nat → Nat × Byte) : Word × Byte :=
  (ofElems 8 ((List.range 4).map fun j => (f j).1), orAll ((List.range 4).map fun j => (f j).2))

/-- An FP32 result. -/
def word32 (r : Nat × Byte) : Word × Byte := (BitVec.ofNat 32 r.1, r.2)

/-- The operations that act lane by lane, with the latencies of R126 and R127 (R171, R172, R174, R175, R177, R178, R182,
R184 to R186). -/
def laneRow : Instr → Option LaneRow
  | .fadd h t rm d a b => some ⟨h, d, [a, b], 3,
      fun _ ws => perElem (fWidth t) (fun e => (fFmt t).add rm ((fFmt t).arg (nth e 0)) ((fFmt t).arg (nth e 1))) ws⟩
  | .fsub h t rm d a b => some ⟨h, d, [a, b], 3,
      fun _ ws => perElem (fWidth t) (fun e => (fFmt t).add rm ((fFmt t).arg (nth e 0)) (FNum.neg ((fFmt t).arg (nth e 1)))) ws⟩
  | .fmul h t rm d a b => some ⟨h, d, [a, b], 5,
      fun _ ws => perElem (fWidth t) (fun e => (fFmt t).mul rm ((fFmt t).arg (nth e 0)) ((fFmt t).arg (nth e 1))) ws⟩
  | .fma h t rm d a b c => some ⟨h, d, [a, b, c], 5,
      fun _ ws => perElem (fWidth t) (fun e => (fFmt t).fma (rm.getD .rne) false ((fFmt t).arg (nth e 0)) ((fFmt t).arg (nth e 1)) ((fFmt t).arg (nth e 2))) ws⟩
  | .fms h t rm d a b c => some ⟨h, d, [a, b, c], 5,
      fun _ ws => perElem (fWidth t) (fun e => (fFmt t).fma (rm.getD .rne) false ((fFmt t).arg (nth e 0)) ((fFmt t).arg (nth e 1)) (FNum.neg ((fFmt t).arg (nth e 2)))) ws⟩
  | .fnma h t rm d a b c => some ⟨h, d, [a, b, c], 5,
      fun _ ws => perElem (fWidth t) (fun e => (fFmt t).fma (rm.getD .rne) true ((fFmt t).arg (nth e 0)) ((fFmt t).arg (nth e 1)) ((fFmt t).arg (nth e 2))) ws⟩
  | .fmin h t d a b => some ⟨h, d, [a, b], 3,
      fun _ ws => perElem (fWidth t) (fun e => (fFmt t).minMax false (nth e 0) (nth e 1)) ws⟩
  | .fmax h t d a b => some ⟨h, d, [a, b], 3,
      fun _ ws => perElem (fWidth t) (fun e => (fFmt t).minMax true (nth e 0) (nth e 1)) ws⟩
  | .fabs h t d a => some ⟨h, d, [a], 1,
      fun _ ws => perElem (fWidth t) (fun e => (fFmt t).signOp false (nth e 0)) ws⟩
  | .fneg h t d a => some ⟨h, d, [a], 1,
      fun _ ws => perElem (fWidth t) (fun e => (fFmt t).signOp true (nth e 0)) ws⟩
  | .dot2 h t rm d a b c => some ⟨h, d, [a, b, c], 5,
      fun _ ws => let r := dot2 (hFmt t) (rm.getD .rne) (nthW ws 0) (nthW ws 1) (nthW ws 2); (BitVec.ofNat 32 r.1, r.2)⟩
  | .iadd h t sa d a b => some ⟨h, d, [a, b], 1,
      fun _ ws => intElems t (fun w a b => intSum sa w (sgn w a + sgn w b) (a + b)) ws⟩
  | .isub h t sa d a b => some ⟨h, d, [a, b], 1,
      fun _ ws => intElems t (fun w a b => intSum sa w (sgn w a - sgn w b) ((a : Int) - b)) ws⟩
  | .imul h t d a b => some ⟨h, d, [a, b], 3,
      fun _ ws => intElems t (fun _ a b => ((a * b : Nat) : Int)) ws⟩
  | .imulh h t d a b => some ⟨h, d, [a, b], 3,
      fun _ ws => intElems t (fun w a b => sgn w a * sgn w b / 2 ^ w) ws⟩
  | .imad h t d a b c => some ⟨h, d, [a, b, c], 3,
      fun _ ws => perElem (iWidth t) (fun e => ((nth e 0 * nth e 1 + nth e 2) % 2 ^ iWidth t, 0)) ws⟩
  | .imin h t d a b => some ⟨h, d, [a, b], 1,
      fun _ ws => intElems t (fun w a b => Min.min (sgn w a) (sgn w b)) ws⟩
  | .imax h t d a b => some ⟨h, d, [a, b], 1,
      fun _ ws => intElems t (fun w a b => Max.max (sgn w a) (sgn w b)) ws⟩
  | .iminu h t d a b => some ⟨h, d, [a, b], 1,
      fun _ ws => intElems t (fun _ a b => ((Min.min a b : Nat) : Int)) ws⟩
  | .imaxu h t d a b => some ⟨h, d, [a, b], 1,
      fun _ ws => intElems t (fun _ a b => ((Max.max a b : Nat) : Int)) ws⟩
  | .vand h t d a b => some ⟨h, d, [a, b], 1,
      fun _ ws => intElems t (fun _ a b => ((a &&& b : Nat) : Int)) ws⟩
  | .vor h t d a b => some ⟨h, d, [a, b], 1,
      fun _ ws => intElems t (fun _ a b => ((a ||| b : Nat) : Int)) ws⟩
  | .vxor h t d a b => some ⟨h, d, [a, b], 1,
      fun _ ws => intElems t (fun _ a b => ((a ^^^ b : Nat) : Int)) ws⟩
  | .vandn h t d a b => some ⟨h, d, [a, b], 1,
      fun _ ws => intElems t (fun w a b => ((a &&& (2 ^ w - 1 - b) : Nat) : Int)) ws⟩
  | .vshl h t d a b => some ⟨h, d, [a, b], 1,
      fun _ ws => intElems t (fun w a b => ((a * 2 ^ (b % w) : Nat) : Int)) ws⟩
  | .vshr h t d a b => some ⟨h, d, [a, b], 1,
      fun _ ws => intElems t (fun w a b => ((a / 2 ^ (b % w) : Nat) : Int)) ws⟩
  | .vsar h t d a b => some ⟨h, d, [a, b], 1,
      fun _ ws => intElems t (fun w a b => sgn w a / 2 ^ (b % w)) ws⟩
  | .lmul h t d a b => some ⟨h, d, [a, b], 2,
      fun x ws => perElem (lBits t + 1) (fun e => lmul2 (lBits t) (lroundOf x.fmts) (readL (lBits t) (nth e 0)) (readL (lBits t) (nth e 1))) ws⟩
  | .lrcp h t d a => some ⟨h, d, [a], 2,
      fun _ ws => perElem (lBits t + 1) (fun e => lrcp1 (lBits t) (readL (lBits t) (nth e 0))) ws⟩
  | .lsqrt h t d a => some ⟨h, d, [a], 2,
      fun x ws => perElem (lBits t + 1) (fun e => lsqrt1 (lBits t) (lroundOf x.fmts) (readL (lBits t) (nth e 0))) ws⟩
  | .mov h d a => some ⟨h, d, [a], 1,
      fun _ ws => (nthW ws 0, 0)⟩
  | .vmovi h d imm => some ⟨h, d, [], 1,
      fun _ _ => (BitVec.ofInt 32 imm.toInt, 0)⟩
  | .cvt h op d a b => some ⟨h, d, if cvtInserts op then [a, b] else [a], 3,
      fun x ws => convert x.fmts op (nthW ws 0) (nthW ws 1)⟩
  | .bpack h d a b => some ⟨h, d, [a, b], 4,
      fun x ws => bpack (lroundOf x.fmts) (nthW ws 0) (nthW ws 1)⟩
  | .bunpack h d a => some ⟨h, d, [a], 4,
      fun x ws => perElemOf8 (bunpackElem (lroundOf x.fmts) (nthW ws 0))⟩
  | .rcp h rm d a => some ⟨h, d, [a], 14,
      fun _ ws => word32 (divF rm (.num false 1 0) (f32.read false (nthW ws 0).toNat))⟩
  | .rsq h rm d a => some ⟨h, d, [a], 14,
      fun _ ws => word32 (rsqF rm (f32.read false (nthW ws 0).toNat))⟩
  | .sqrt h rm d a => some ⟨h, d, [a], 14,
      fun _ ws => word32 (sqrtF rm (f32.read false (nthW ws 0).toNat))⟩
  | .div h rm d a b => some ⟨h, d, [a, b], 14,
      fun _ ws => word32 (divF rm (f32.read false (nthW ws 0).toNat) (f32.read false (nthW ws 1).toNat))⟩
  | .exp2 h rm d a => some ⟨h, d, [a], 10,
      fun _ ws => word32 (exp2F rm (f32.read false (nthW ws 0).toNat))⟩
  | .log2 h rm d a => some ⟨h, d, [a], 10,
      fun _ ws => word32 (log2F rm (f32.read false (nthW ws 0).toNat))⟩
  | _ => none

/-- A row of the table of compares: cluster and mask, destination mask, sources, latency, what an enabled lane's bit
becomes, with the flags it raises. -/
structure MaskRow where
  head : VHead
  dest : MReg
  srcs : List VSrc
  lat : Nat
  val : List Word → Bool × Byte

/-- The compares that write a lane mask: the condition must hold for every element (R173, R176). -/
def maskRow : Instr → Option MaskRow
  | .fcmp h t c d a b => some ⟨h, d, [a, b], 3, fun ws =>
      let r := fun j => (fFmt t).cond c (elem (fWidth t) (nthW ws 0) j) (elem (fWidth t) (nthW ws 1) j)
      ((elems (fWidth t)).all fun j => (r j).1, orAll ((elems (fWidth t)).map fun j => (r j).2))⟩
  | .icmp h t c d a b => some ⟨h, d, [a, b], 1, fun ws =>
      ((elems (iWidth t)).all fun j =>
        icond c (sgn (iWidth t) (elem (iWidth t) (nthW ws 0) j)) (sgn (iWidth t) (elem (iWidth t) (nthW ws 1) j)), 0)⟩
  | .icmpu h t c d a b => some ⟨h, d, [a, b], 1, fun ws =>
      ((elems (iWidth t)).all fun j => icond c (elem (iWidth t) (nthW ws 0) j) (elem (iWidth t) (nthW ws 1) j), 0)⟩
  | _ => none

/-- A row of the table of mask operations: cluster and mask, destination, what bit l of it becomes. -/
structure MaskOpRow where
  head : VHead
  dest : MReg
  val : State → Nat → Bool

/-- The operations on lane masks (R181). -/
def maskOpRow : Instr → Option MaskOpRow
  | .mand h d a b => some ⟨h, d, fun s l => (s.here.m h.cl a).getLsbD l && (s.here.m h.cl b).getLsbD l⟩
  | .mor h d a b => some ⟨h, d, fun s l => (s.here.m h.cl a).getLsbD l || (s.here.m h.cl b).getLsbD l⟩
  | .mxor h d a b => some ⟨h, d, fun s l => xor ((s.here.m h.cl a).getLsbD l) ((s.here.m h.cl b).getLsbD l)⟩
  | .mnot h d a => some ⟨h, d, fun s l => !(s.here.m h.cl a).getLsbD l⟩
  | .mset h d n => some ⟨h, d, fun _ l => decide (l < n.toNat)⟩
  | .msetScalar h d r => some ⟨h, d, fun s l => (s.me.s r).getLsbD l⟩
  | _ => none

end Sys2Proof
end

