-- ==== Sys2Proof/Certificates/Slice0/Obligations.lean ====
section
/-! DEFINITION. The statements for the provers. A claim names the rules of spec/ it formalises; an obligation is one claim or several claims about one part of the machine. -/
open Sys2Proof Sys2Proof.Machine

/-! ### Every operation -/

/-- R36, R38, R318: an operation whose sources are there and whose checks all pass commits, and the run goes on. This is
the completion of every operation whose effect is not itself a fault. -/
def Sys2Proof.Claim.OperationsComplete : Prop :=
  ∀ i s, IsOperation i → Issues i s → exec i s = .next ((planOf i s).apply s).finish

/-- R38: a frozen or held operation commits nothing at all. -/
def Sys2Proof.Claim.FrozenOperationsWait : Prop :=
  ∀ i s, IsOperation i → ((planOf i s).freezes s = true ∨ (planOf i s).held = true) → exec i s = .next s

/-- R42, R318, R320: an operation whose checks find a fault takes it, and commits nothing; one that is to hold its context
while results are still due waits for them first. -/
def Sys2Proof.Claim.OperationsTakeFaults : Prop :=
  ∀ i s f, IsOperation i → (planOf i s).freezes s = false → (planOf i s).held = false → (planOf i s).checks s = .fault f →
    (¬ HoldWaits s f → ∃ slot, exec i s = faultsAs s slot f) ∧ (HoldWaits s f → exec i s = .next s)

/-- R116: an operation of format S whose guard is false, and whose predicate can be read, has no effect. -/
def Sys2Proof.Claim.FalseGuardNoEffect : Prop :=
  ∀ i g s, guardOf i = some g → performs g s.me = false → PredReady s g.pred → exec i s = .next s.finish

/-- R322, R323: an operation whose guard reads a poisoned predicate takes fault 0x0D with DETAIL 2, though it would not
perform. -/
def Sys2Proof.Claim.PoisonedGuardsStop : Prop :=
  ∀ i g s, guardOf i = some g → performs g s.me = false → ¬ PredReady s g.pred →
    ∃ slot, exec i s = faultsAs s slot { code := 0x0D, detail := 2 }

/-- R94: what an operation's bundle consumes changes nothing but which accesses past writes are known to happen before,
which only become more, and which global reads of the context are still unread. -/
def Sys2Proof.Claim.ConsumptionIsQuiet : Prop :=
  ∀ i (s : State),
    let t : State := heard i s
    { t with pasts := s.pasts, cores := s.cores } = s ∧
    (∀ k, { t.core k with ctxs := [] } = { s.core k with ctxs := [] }) ∧
    (∀ k c, (k, c) ≠ s.cur → t.ctx k c = s.ctx k c) ∧ { t.me with unread := s.me.unread } = s.me ∧
    t.pasts.map (fun e => (e.id, e.who, e.cells, e.heads)) = s.pasts.map (fun e => (e.id, e.who, e.cells, e.heads)) ∧
    ∀ (n : Nat) (e : Past), s.pasts[n]? = some e → ∃ e' : Past, t.pasts[n]? = some e' ∧ ∀ w ∈ e.know, w ∈ e'.know


/-! ### Scalar, predicate and address operations -/

/-- R143, R145, R147, R148 with the latencies of R128: what each single-result scalar operation puts in flight for its
destination, and nothing else. The destination is the place its register named when it issued (R138). -/
def Sys2Proof.Claim.ScalarResults : Prop :=
  ∀ i r s, scalarRow i = some r → Performs r.guard s → (∀ q ∈ r.srcs, ScalarReady s q) → RegsReady i s →
    LoopAllows s r.dest →
    exec i s = .next ((heard i s).result (.s (s.me.phys r.dest)) ((r.val s.me).setWidth 512) r.lat).finish

/-- R38, R153, R323: the same operations wait for a source that is still awaited; inside a loop they may not write s2 to
s7; a source that holds poison is a fault, with DETAIL 1 and its line for one that was loaded so. -/
def Sys2Proof.Claim.ScalarStops : Prop :=
  ∀ i r s, scalarRow i = some r → performs r.guard s.me = true →
    ((∃ q ∈ r.srcs, q ≠ 0 ∧ s.me.awaits (.s (s.me.phys q)) = true) → exec i s = .next s) ∧
    ((∀ q ∈ r.srcs, ScalarReady s q) → s.me.loop.isSome = true → 2 ≤ r.dest.toNat → r.dest.toNat ≤ 7 →
      exec i s = faultsAs s 0 { code := 0x02 }) ∧
    ((∀ q ∈ r.srcs, s.me.awaits (.s (s.me.phys q)) = false ∧ ahas s.me.ldsPoison (s.me.phys q) = false) →
      LoopAllows s r.dest → ((∃ q ∈ r.srcs, q ≠ 0 ∧ s.me.sPoison.contains (s.me.phys q) = true) ∨ ¬ RegsReady i s ∨
        ¬ PredReady s r.guard.pred) →
      exec i s = faultsAs s 0 { code := 0x0D, detail := 2 }) ∧
    ((∀ q ∈ r.srcs, s.me.awaits (.s (s.me.phys q)) = false) → LoopAllows s r.dest →
      (∃ q ∈ r.srcs, q ≠ 0 ∧ ahas s.me.ldsPoison (s.me.phys q) = true) →
      ∃ q ∈ r.srcs, q ≠ 0 ∧ ahas s.me.ldsPoison (s.me.phys q) = true ∧
        exec i s = faultsAs s 0 { code := 0x0D, detail := 1, va := aget s.me.ldsPoison (s.me.phys q) 0 })


/-- R146, R147: the compares and the predicate operations, all with latency 1. -/
def Sys2Proof.Claim.PredicateResults : Prop :=
  ∀ i r s, predRow i = some r → Performs r.guard s → (∀ q ∈ r.srcs, ScalarReady s q) → RegsReady i s →
    exec i s = .next ((heard i s).result (.p r.dest.toNat) (if r.val s.me then 1 else 0) 1).finish

/-- R148: the address operations, modulo 2^64, with latency 1. -/
def Sys2Proof.Claim.AddressResults : Prop :=
  ∀ i r s, addrRow i = some r → Performs r.guard s → (∀ q ∈ r.srcs, ScalarReady s q) → RegsReady i s →
    exec i s = .next ((heard i s).result (.a r.dest.toNat) ((BitVec.ofInt 64 (r.val s.me)).setWidth 512) 1).finish

/-- R118, R138, R167: s0, p0 and m0 discard what lands in them; any other register takes its value, a vector register or
a mask only in the enabled lanes. -/
def Sys2Proof.Claim.LandingWrites : Prop :=
  ∀ (s : State) k c (v : Line) (lanes : BitVec 16),
    s.land k c (.s 0) v lanes 0 = s ∧ s.land k c (.p 0) v lanes 0 = s ∧ (∀ cl, s.land k c (.m cl 0) v lanes 0 = s) ∧
    (∀ e, e ≠ 0 → aget ((s.land k c (.s e) v lanes 0).ctx k c).scal e 0 = v.setWidth 64 ∧
      ∀ e', e' ≠ e → aget ((s.land k c (.s e) v lanes 0).ctx k c).scal e' 0 = aget (s.ctx k c).scal e' 0) ∧
    (∀ r, ((s.land k c (.a r) v lanes 0).ctx k c).areg = ains (s.ctx k c).areg r (v.setWidth 64)) ∧
    (∀ r, r ≠ 0 → r < 16 → ∀ q, q < 16 → ((s.land k c (.p r) v lanes 0).ctx k c).preds.getLsbD q =
      if q = r then v.getLsbD 0 else (s.ctx k c).preds.getLsbD q) ∧
    (∀ cl r l, l < 16 → lane (aget ((s.land k c (.v cl r) v lanes 0).core k).vregs (vkey cl r) 0) l =
      if lanes.getLsbD l then lane v l else lane (aget (s.core k).vregs (vkey cl r) 0) l) ∧
    (∀ cl r l, r ≠ 0 → l < 16 → (aget ((s.land k c (.m cl r) v lanes 0).core k).masks (mkey cl r) 0xFFFF).getLsbD l =
      if lanes.getLsbD l then v.getLsbD l else (aget (s.core k).masks (mkey cl r) 0xFFFF).getLsbD l)

/-! ### Transfers, calls and loops -/

/-- R149, R150, R153, R317: BR transfers to PC + 8·Sext(IMM16), whose bundle is not there for 2 cycles; outside the code
range it takes fault 0x0C; inside a loop it is an illegal operation. -/
def Sys2Proof.Claim.BranchTransfers : Prop :=
  ∀ g disp s, Performs g s →
    let va : Addr := BitVec.ofInt 48 (s.me.pc.toNat + 8 * disp.toInt)
    (s.me.loop = none → s.me.seg.inCode va.toNat = true →
      exec (.br g disp) s = .next (s.modMe fun x => { x with npc := va, delay := 2 }).finish) ∧
    (s.me.loop = none → s.me.seg.inCode va.toNat = false →
      exec (.br g disp) s = faultsAs s 5 { code := 0x0C, va := va }) ∧
    (s.me.loop.isSome = true → exec (.br g disp) s = faultsAs s 5 { code := 0x02 })

/-- R150: BRC writes S[d] − 1 with latency 1, and transfers while that is not zero. -/
def Sys2Proof.Claim.BranchCounts : Prop :=
  ∀ g d disp s, Performs g s → ScalarReady s d → s.me.loop = none →
    let va : Addr := BitVec.ofInt 48 (s.me.pc.toNat + 8 * disp.toInt)
    let v : Dword := BitVec.ofInt 64 ((s.me.s d).toInt - 1)
    let t := heard (.brc g d disp) s
    (v = 0 → exec (.brc g d disp) s = .next (t.result (.s (s.me.phys d)) (v.setWidth 512) 1).finish) ∧
    (v ≠ 0 → s.me.seg.inCode va.toNat = true → exec (.brc g d disp) s =
      .next ((t.modMe fun x => { x with npc := va, delay := 2 }).result (.s (s.me.phys d)) (v.setWidth 512) 1).finish) ∧
    (v ≠ 0 → s.me.seg.inCode va.toNat = false → exec (.brc g d disp) s = faultsAs s 5 { code := 0x0C, va := va })

/-- R91, R150, R317: JMP transfers to the label its table entry names, whose bundle is not there for 3 cycles; a label
outside the code range takes fault 0x0C, and an index not less than NTGT takes it with DETAIL 1; a poisoned entry is fault
0x0D at its line, and an entry whose die has no share left for the tenant is waited for. That a label inside the code range
needs not be a multiple of 8 is the model's reading (log 63). -/
def Sys2Proof.Claim.JumpThroughTable : Prop :=
  ∀ g a s, Performs g s → ScalarReady s a → s.me.loop = none →
    (∀ pa, (s.me.s a).toNat < s.me.seg.ntgt.toNat →
      let entry := s.me.seg.va.toNat + 0x40 + 4 * (s.me.seg.nent.toNat + 1 + (s.me.s a).toNat)
      s.xlate s.cur.1 (ctxWaiter s.cur.2) s.here.tenant entry .fetch = .ok pa →
      let va : Addr := s.me.seg.va + (rdWord s.mem pa).setWidth 48
      (s.dramOpen (some s.here.tenant) pa = false → exec (.jmp g a) s = .next s) ∧
      (s.dramOpen (some s.here.tenant) pa = true →
        (s.poisoned pa 4 = true → exec (.jmp g a) s =
          faultsAs s 5 { code := 0x0D, detail := 4, va := BitVec.ofNat 48 (64 * (entry / 64)) }) ∧
        (s.poisoned pa 4 = false →
          (s.me.seg.inCode va.toNat = true → exec (.jmp g a) s =
            .next ((heard (.jmp g a) s).modMe fun x => { x with npc := va, delay := 3 }).finish) ∧
          (s.me.seg.inCode va.toNat = false → exec (.jmp g a) s = faultsAs s 5 { code := 0x0C, va := va })))) ∧
    (s.me.seg.ntgt.toNat ≤ (s.me.s a).toNat →
      exec (.jmp g a) s = faultsAs s 5 { code := 0x0C, detail := 1, va := (s.me.s a).setWidth 48 })

/-- R139, R140, R150: a CALL whose window needs no spill transfers, slides the window by n and puts the return address in
flight for A[d]; one that needs a spill whose pages take it asks for that and commits nothing yet. With no backing store,
or where the first place that cannot take its entry lies past the backing store or does not translate, it takes fault
0x12. -/
def Sys2Proof.Claim.CallSlides : Prop :=
  ∀ g d n disp s, Performs g s → s.me.loop = none → n.toNat ≤ 48 →
    let va : Addr := BitVec.ofInt 48 (s.me.pc.toNat + 8 * disp.toInt)
    let top := s.me.fb.toNat + n.toNat + 48
    let bot := 8 * ((top - 256 + 7) / 8)
    s.me.seg.inCode va.toNat = true →
    (top ≤ s.me.bot.toNat + 256 → exec (.call g d n disp) s =
      .next (((slideUp n.toNat s).result (.a d.toNat) (s.me.npc.setWidth 512) 1).modMe fun x =>
        { x with npc := va, delay := 2 }).finish) ∧
    (s.me.bot.toNat + 256 < top → s.me.bsaLen ≠ 0 →
      (∀ j, s.me.bot.toNat ≤ j → j < bot → j < 512 * s.me.bsaLen ∧
        ∃ pa, s.xlate s.cur.1 (ctxWaiter s.cur.2) s.here.tenant (s.me.bsaBase + 8 * j) .write = .ok pa) →
      exec (.call g d n disp) s = .next (s.modMe fun x => { x with xfer := some (true, bot) })) ∧
    (s.me.bot.toNat + 256 < top → s.me.bsaLen = 0 → exec (.call g d n disp) s = faultsAs s 5 { code := 0x12 }) ∧
    (∀ j, s.me.bot.toNat + 256 < top → s.me.bsaLen ≠ 0 → s.me.bot.toNat ≤ j → j < bot →
      (∀ i, s.me.bot.toNat ≤ i → i < j → i < 512 * s.me.bsaLen ∧
        ∃ pa, s.xlate s.cur.1 (ctxWaiter s.cur.2) s.here.tenant (s.me.bsaBase + 8 * i) .write = .ok pa) →
      (512 * s.me.bsaLen ≤ j ∨
        ∃ lv kd, s.xlate s.cur.1 (ctxWaiter s.cur.2) s.here.tenant (s.me.bsaBase + 8 * j) .write = .bad lv kd) →
      exec (.call g d n disp) s = faultsAs s 5 { code := 0x12, va := BitVec.ofNat 48 (s.me.bsaBase + 8 * j) })

/-- R150: CALLI is as CALL, through the target table, with 3 cycles. That a label inside the code range needs not be a
multiple of 8 is the model's reading (log 63). -/
def Sys2Proof.Claim.CallThroughTable : Prop :=
  ∀ g d a n s pa, Performs g s → ScalarReady s a → s.me.loop = none → n.toNat ≤ 48 →
    (s.me.s a).toNat < s.me.seg.ntgt.toNat →
    s.xlate s.cur.1 (ctxWaiter s.cur.2) s.here.tenant
      (s.me.seg.va.toNat + 0x40 + 4 * (s.me.seg.nent.toNat + 1 + (s.me.s a).toNat)) .fetch = .ok pa →
    s.dramOpen (some s.here.tenant) pa = true → s.poisoned pa 4 = false →
    let va : Addr := s.me.seg.va + (rdWord s.mem pa).setWidth 48
    s.me.seg.inCode va.toNat = true → s.me.fb.toNat + n.toNat + 48 ≤ s.me.bot.toNat + 256 →
    exec (.calli g d a n) s =
      .next (((slideUp n.toNat (heard (.calli g d a n) s)).result (.a d.toNat) (s.me.npc.setWidth 512) 1).modMe fun x =>
        { x with npc := va, delay := 3 }).finish

/-- R8, R150: after a slide by n the caller's s(16 + n) and the scalars above it are the callee's s16 and on; s0 to s15 are
the same registers, the n new entries carry no poison, and memory is as before. -/
def Sys2Proof.Claim.CallKeepsScalars : Prop :=
  ∀ (s : State) n, n ≤ 48 →
    (slideUp n s).me.fb = s.me.fb + BitVec.ofNat 32 n ∧ (slideUp n s).mem = s.mem ∧
    (∀ r : SReg, r.toNat < 16 → (slideUp n s).me.s r = s.me.s r) ∧
    (∀ r q : SReg, 16 ≤ q.toNat → q.toNat + n = r.toNat → (slideUp n s).me.s q = s.me.s r) ∧
    (∀ i, i < n → let e := 16 + (s.me.fb.toNat + 48 + i) % 256
      (slideUp n s).me.sPoison.contains e = false ∧ ahas (slideUp n s).me.ldsPoison e = false)

/-- R139, R140, R150: a RET to a multiple of 8 inside the code range slides the window back; an address that is not one,
or lies outside that range, takes fault 0x0C; one whose window goes below BOT asks for a fill; n greater than FB, and a
fill whose first place that cannot be read does not translate, take fault 0x12. -/
def Sys2Proof.Claim.ReturnSlidesBack : Prop :=
  ∀ g a n s, Performs g s → AddrReady s a → s.me.loop = none → n.toNat ≤ 48 →
    ((s.me.a a).toNat % 8 ≠ 0 ∨ s.me.seg.inCode (s.me.a a).toNat = false →
      exec (.ret g a n) s = faultsAs s 5 { code := 0x0C, va := (s.me.a a).setWidth 48 }) ∧
    ((s.me.a a).toNat % 8 = 0 → s.me.seg.inCode (s.me.a a).toNat = true →
      (s.me.fb.toNat < n.toNat → exec (.ret g a n) s = faultsAs s 5 { code := 0x12 }) ∧
      (n.toNat ≤ s.me.fb.toNat → s.me.bot.toNat ≤ s.me.fb.toNat - n.toNat → exec (.ret g a n) s =
        .next (s.modMe fun x =>
          { x with fb := x.fb - BitVec.ofNat 32 n.toNat, npc := (s.me.a a).setWidth 48, delay := 2 }).finish) ∧
      (n.toNat ≤ s.me.fb.toNat → s.me.fb.toNat - n.toNat < s.me.bot.toNat →
        (∀ j, 8 * ((s.me.fb.toNat - n.toNat) / 8) ≤ j → j < s.me.bot.toNat →
          ∃ pa, s.xlate s.cur.1 (ctxWaiter s.cur.2) s.here.tenant (s.me.bsaBase + 8 * j) .read = .ok pa) →
        exec (.ret g a n) s =
          .next (s.modMe fun x => { x with xfer := some (false, 8 * ((s.me.fb.toNat - n.toNat) / 8)) })) ∧
      (∀ j lv kd, n.toNat ≤ s.me.fb.toNat → 8 * ((s.me.fb.toNat - n.toNat) / 8) ≤ j → j < s.me.bot.toNat →
        s.me.fb.toNat - n.toNat < s.me.bot.toNat →
        (∀ i, 8 * ((s.me.fb.toNat - n.toNat) / 8) ≤ i → i < j →
          ∃ pa, s.xlate s.cur.1 (ctxWaiter s.cur.2) s.here.tenant (s.me.bsaBase + 8 * i) .read = .ok pa) →
        s.xlate s.cur.1 (ctxWaiter s.cur.2) s.here.tenant (s.me.bsaBase + 8 * j) .read = .bad lv kd →
        exec (.ret g a n) s = faultsAs s 5 { code := 0x12, va := BitVec.ofNat 48 (s.me.bsaBase + 8 * j) }))

/-- R151 to R153: a loop whose body of at most 4 KiB has been read starts with its counts, all indices zero and its body in
the loop buffer; a count of zero goes on behind the body. A failing fetch of the body is the first of its faults, a loop
in a loop the next. -/
def Sys2Proof.Claim.LoopsStart : Prop :=
  ∀ (s : State) (len : BitVec 6), 1 ≤ len.toNat → len.toNat ≤ 32 →
    let at_ := s.me.npc.toNat
    let body (e : Addr) := some (wrBytes [] at_ (rdBytes s.me.code at_ (e.toNat - at_)))
    (∀ stop, s.me.bodyEnd at_ len.toNat = .ok stop → stop - at_ ≤ 4096 → s.me.loop = none →
      let e : Addr := BitVec.ofNat 48 stop
      (∀ g k (levels : BitVec 3), Performs g s → NestReady s k → 1 ≤ levels.toNat → levels.toNat ≤ 6 →
        exec (.loop g k levels len) s = .next (s.modMe fun x =>
          { x with loop := some ⟨x.npc, e,
              (List.range levels.toNat).map fun l => ((s.me.n k).extractLsb' (16 * l) 16).toNat + 1,
              List.replicate levels.toNat 0, body e⟩ }).finish) ∧
      (∀ g a, Performs g s → ScalarReady s a → (s.me.s a).toNat < 2 ^ 32 →
        let t := heard (.loopx g a len) s
        ((s.me.s a) ≠ 0 → exec (.loopx g a len) s = .next (t.modMe fun x =>
          { x with loop := some ⟨x.npc, e, [(s.me.s a).toNat], [0], body e⟩ }).finish) ∧
        ((s.me.s a) = 0 → exec (.loopx g a len) s = .next (t.modMe fun x => { x with npc := e }).finish))) ∧
    (∀ f b g k levels, s.me.bodyEnd at_ len.toNat = .error (.fail f b) → performs g s.me = true → ¬ HoldWaits s f →
      exec (.loop g k levels len) s = faultsAs s 5 f) ∧
    (∀ stop g k levels, s.me.bodyEnd at_ len.toNat = .ok stop → s.me.loop.isSome = true → performs g s.me = true →
      exec (.loop g k levels len) s = faultsAs s 5 { code := 0x02 })

/-- R152: at the first bundle of a pass s2 and on read the indices of the pass, innermost first, whatever was in flight to
them or poisoned there; and the passes go through the index tuples in order, the innermost index fastest. -/
def Sys2Proof.Claim.LoopIndices : Prop :=
  (∀ (x : Ctx) l, x.loop = some l → l.idx.length ≤ 6 →
    (∀ n (r : SReg), n < l.idx.length → r.toNat = 2 + n → x.setIdx.s r = BitVec.ofNat 64 (l.idx.getD n 0) ∧
      x.setIdx.sPoison.contains (2 + n) = false ∧ ahas x.setIdx.ldsPoison (2 + n) = false ∧
      (∀ p ∈ x.setIdx.pend, p.dest ≠ .s (2 + n)) ∧ x.setIdx.awaits (.s (2 + n)) = false) ∧
    (∀ r : SReg, r.toNat < 2 ∨ 2 + l.idx.length ≤ r.toNat → x.setIdx.s r = x.s r)) ∧
  (∀ c cs i is, nextIdx (c :: cs) (i :: is) = if i + 1 < c then some ((i + 1) :: is) else (nextIdx cs is).map (0 :: ·)) ∧
  ∀ (x : Ctx) l ix, x.loop = some l → x.npc = l.stop → nextIdx l.counts l.idx = some ix →
    x.endBundle.pc = l.body ∧ x.endBundle.loop = some { l with idx := ix }

/-! ### Formats, fences, flags, time and system registers -/

/-- R155: SETFMT's value waits out its own bundle and the three after it. -/
def Sys2Proof.Claim.SetfmtWrites : Prop :=
  ∀ g v s, Performs g s →
    exec (.setfmt g v) s = .next (s.modMe fun x => { x with fmtPend := x.fmtPend ++ [(v, 4)] }).finish

/-- R94, R95, R100, R108, R156, R157: what the three fences record, and that a fence tells past writes of its mask's
classes whom they now happen before; the class mask is encoded inverted and may not exclude every class. -/
def Sys2Proof.Claim.FencesRecord : Prop :=
  ∀ g s, Performs g s →
    (∀ sc nmask, nmask ≠ 0xFFFF →
      (sc = .ctx → exec (.fence g sc nmask) s = .next s.finish) ∧
      (sc ≠ .ctx → exec (.fence g sc nmask) s =
        .next ((s.modMe fun x => { x with fences := x.fences ++ [⟨s.me.pos, ~~~nmask, sc⟩] }).learnAll
          (FenceRec.know ⟨s.me.pos, ~~~nmask, sc⟩ s.cur.1 s.cur.2)).finish)) ∧
    (∀ sc, exec (.fence g sc 0xFFFF) s = faultsAs s 5 { code := 0x02 }) ∧
    (s.me.ending = false → ∃ t, exec (.xfence g) s = .next t ∧ t.me.xfence = s.me.pos + 1 ∧
      (∀ n, n ∈ t.me.xafter ↔ ∃ r ∈ s.reqs, r.id = n ∧ r.core = s.cur.1 ∧ r.ctx = s.cur.2 ∧ r.pos < s.me.pos) ∧
      t.mem = s.mem ∧ t.me.scal = s.me.scal ∧ t.me.flags = s.me.flags ∧ t.me.pend = s.me.pend) ∧
    (s.me.loop = none → exec (.ifence g) s =
      .next (s.modMe fun x =>
        { x with
          blocks := []
          code := []
          fetchFail := []
          ifence := s.me.pos + 1
          iafter := (s.reqs.filter fun r => r.core == s.cur.1 && r.ctx == s.cur.2 && decide (r.pos < s.me.pos)).map (·.id)
        }).finish)

/-- R41, R158: a BAR of a co-resident launch arrives at its instance and waits for it; CTX and SYS are illegal, and a
launch that is not co-resident takes fault 0x13. -/
def Sys2Proof.Claim.BarrierArrives : Prop :=
  ∀ g sc s, Performs g s →
    (sc ≠ .ctx → sc ≠ .sys → s.coResident s.me.launch = true → exec (.bar g sc) s = .next (s.modMe fun x =>
      { x with
        barCount := ains x.barCount (scopeNum sc) (aget x.barCount (scopeNum sc) 0 + 1)
        barWait := some (sc, aget x.barCount (scopeNum sc) 0 + 1) }).finish) ∧
    (sc ≠ .ctx → sc ≠ .sys → s.coResident s.me.launch = false → exec (.bar g sc) s = faultsAs s 5 { code := 0x13 }) ∧
    (sc = .ctx ∨ sc = .sys → exec (.bar g sc) s = faultsAs s 5 { code := 0x02 })

/-- R159: SETF and CLRF name flags 16·group + i for the set bits i of a mask that is not zero, with latency 1; landing,
the one sets and the other clears exactly those. -/
def Sys2Proof.Claim.FlagOperations : Prop :=
  ∀ g grp mask s, Performs g s →
    (mask = 0 → exec (.setf g grp mask) s = faultsAs s 5 { code := 0x02 } ∧
      exec (.clrf g grp mask) s = faultsAs s 5 { code := 0x02 }) ∧
    (mask ≠ 0 → ∃ v : BitVec 512, (∀ f, f < 64 → v.getLsbD f =
        (decide (16 * grp.toNat ≤ f) && decide (f < 16 * grp.toNat + 16) && mask.getLsbD (f - 16 * grp.toNat))) ∧
      exec (.setf g grp mask) s = .next (s.result .flagSet v 1).finish ∧
      exec (.clrf g grp mask) s = .next (s.result .flagClr v 1).finish ∧
      ∀ k c f, f < 64 →
        ((s.land k c .flagSet v 0xFFFF 0).ctx k c).flags.getLsbD f = ((s.ctx k c).flags.getLsbD f || v.getLsbD f) ∧
        ((s.land k c .flagClr v 0xFFFF 0).ctx k c).flags.getLsbD f = ((s.ctx k c).flags.getLsbD f && !v.getLsbD f))

/-- R160: WAITGCC freezes the context after its bundle until GCC reaches S[a]. -/
def Sys2Proof.Claim.WaitgccWaits : Prop :=
  ∀ g a s, Performs g s → ScalarReady s a →
    exec (.waitgcc g a) s = .next ((heard (.waitgcc g a) s).modMe fun x => { x with waitGcc := some (s.me.s a) }).finish

/-- R40, R161 to R163: RDSYS gives the register its number names, with latency 1; a number above 14 is illegal. -/
def Sys2Proof.Claim.SystemReads : Prop :=
  ∀ g d (num : BitVec 4) s, Performs g s → LoopAllows s d →
    let put (n : Nat) (v : Nat) := num.toNat = n →
      exec (.rdsys g d num) s = .next (s.result (.s (s.me.phys d)) (BitVec.ofNat 512 v) 1).finish
    put 0 s.gcc.toNat ∧ put 1 (s.cur.2.toNat + 4 * s.cur.1.toNat) ∧ put 2 s.me.clmask.toNat ∧
    put 3 (s.me.domain ||| BitVec.ofNat 64 (s.cur.1.toNat / 4 + 32 * (s.cur.1.toNat / 32))).toNat ∧
    put 4 s.me.arith.toNat ∧ put 5 s.me.fmts.toNat ∧ put 6 (s.me.fb.toNat + 2 ^ 32 * s.me.bot.toNat) ∧
    put 7 s.me.bsa.toNat ∧ put 8 s.here.pmb.toNat ∧ put 9 s.me.splo.toNat ∧ put 10 s.me.sphi.toNat ∧
    put 11 s.me.trapinfo.toNat ∧ put 12 s.me.launch.toNat ∧ put 13 s.here.tenant.toNat ∧ put 14 s.here.runmax.toNat ∧
    (num.toNat = 15 → exec (.rdsys g d num) s = faultsAs s 5 { code := 0x02 })

/-- R66, R68, R155, R162: WRSYS of each writable register, that of FLAGS replacing the flags of the context's matrix
commands that complete in the cycle too; read-only registers and BSA with entries spilled are illegal; bounds outside the header's take fault 0x08. That the record of this fault holds VA 0 is the model's reading (log 21). -/
def Sys2Proof.Claim.SystemWrites : Prop :=
  ∀ g (num : BitVec 4) a s, Performs g s → ScalarReady s a →
    let v := s.me.s a
    let bound : Dword := BitVec.ofNat 64 (v.toNat % 2 ^ 23 / 64 * 64)
    let i : Instr := .wrsys g num a
    let t := heard i s
    (num.toNat = 4 → exec i s = .next ((t.modMe fun x => { x with arith := v.setWidth 8 }).modHere fun y =>
      { y with mx := y.mx.map fun c =>
          if c.ctx = s.cur.2 ∧ c.runId = s.me.runId ∧ c.beaten = true ∧ c.next ≤ s.here.cycle then { c with flags := 0 }
          else c }).finish) ∧
    (num.toNat = 5 → exec i s = .next (t.modMe fun x => { x with fmtPend := x.fmtPend ++ [(v.setWidth 8, 4)] }).finish) ∧
    (num.toNat = 7 → s.me.bot = 0 →
      exec i s = .next (t.modMe fun x => { x with bsa := BitVec.ofNat 64 (v.toNat / 4096 * 4096) }).finish) ∧
    (num.toNat = 7 → s.me.bot ≠ 0 → exec i s = faultsAs s 5 { code := 0x02 }) ∧
    (num.toNat = 9 → s.me.seg.splo.toNat ≤ bound.toNat →
      exec i s = .next (t.modMe fun x => { x with splo := bound }).finish) ∧
    (num.toNat = 9 → bound.toNat < s.me.seg.splo.toNat → exec i s = faultsAs s 5 { code := 0x08 }) ∧
    (num.toNat = 10 → bound.toNat ≤ s.me.seg.sphi.toNat →
      exec i s = .next (t.modMe fun x => { x with sphi := bound }).finish) ∧
    (num.toNat = 10 → s.me.seg.sphi.toNat < bound.toNat → exec i s = faultsAs s 5 { code := 0x08 }) ∧
    (num.toNat ∉ [4, 5, 7, 9, 10] → exec i s = faultsAs s 5 { code := 0x02 })


/-- R153, R165: HALT ends the run: results in flight and poison are discarded, and memory is as it was; inside a loop it is
illegal. -/
def Sys2Proof.Claim.HaltEndsRun : Prop :=
  ∀ g s, Performs g s →
    (s.me.loop = none → ∃ t, exec (.halt g) s = .next t ∧ t.me.run = .halted ∧ t.me.pend = [] ∧ t.me.sbs = [] ∧
      t.me.sPoison = [] ∧ t.me.rPoison = [] ∧ t.me.unread = [] ∧ t.me.ending = false ∧ t.mem = s.mem ∧
      (∀ cl e, s.me.clmask.getLsbD cl = true → e ∈ aget t.here.laqs cl [] → e.dropped = true ∧ e.landed = false)) ∧
    (s.me.loop.isSome = true → exec (.halt g) s = faultsAs s 5 { code := 0x02 })

/-- R35, R166: UNIT moves a work register that has landed to a scalar and makes it the current unit; UNIT.S takes a
scalar; an index not less than W is illegal. -/
def Sys2Proof.Claim.UnitNamed : Prop :=
  ∀ g s, Performs g s →
    (∀ d k, s.me.awaitsW k.toNat = false → s.me.rPoison.contains (keyW k.toNat) = false → LoopAllows s d →
      ((s.me.w k).getLsbD 63 = true ∨ ((s.me.w k).setWidth 24).toNat < s.unitCount s.me.launch) →
      exec (.unit g d k) s = .next ((s.modMe fun y =>
        { y with unit := if (s.me.w k).getLsbD 63 then none else some ((s.me.w k).setWidth 24) }).result
          (.s (s.me.phys d)) ((s.me.w k).setWidth 512) 1).finish) ∧
    (∀ d k, s.me.awaitsW k.toNat = true → exec (.unit g d k) s = .next s) ∧
    (∀ a, ScalarReady s a →
      ((s.me.s a).getLsbD 63 = true ∨ ((s.me.s a).setWidth 24).toNat < s.unitCount s.me.launch →
        exec (.unitS g a) s = .next ((heard (.unitS g a) s).modMe fun y =>
          { y with unit := if (s.me.s a).getLsbD 63 then none else some ((s.me.s a).setWidth 24) }).finish) ∧
      ((s.me.s a).getLsbD 63 = false → s.unitCount s.me.launch ≤ ((s.me.s a).setWidth 24).toNat →
        exec (.unitS g a) s = faultsAs s 5 { code := 0x02 }))

/-! ### Vector operations -/

/-- R81, R119, R168: what each kind of vector source gives lane l. Each load-data-queue source takes one entry of its
cluster's queue, the first pop the oldest, and so on in the order of the sources. -/
def Sys2Proof.Claim.VectorSources : Prop :=
  ∀ (s : State) cl l, l < 16 →
    (∀ r, lane (srcLine s cl (.v r)) l = (aget s.here.vregs (320 * cl.toNat + r.toNat) 0).extractLsb' (32 * l) 32) ∧
    lane (srcLine s cl .vzero) l = 0 ∧ lane (srcLine s cl .lane) l = BitVec.ofNat 32 l ∧
    lane (srcLine s cl .clid) l = BitVec.ofNat 32 cl.toNat ∧
    (∀ r, lane (srcLine s cl (.s r)) l = (s.me.s r).setWidth 32) ∧
    (∀ b pops x, popEntry s.here (pops ++ [cl]) pops.length = some x →
      readSrcs s cl (.ldq :: b) pops = x.line.getD 0 :: readSrcs s cl b (pops ++ [cl])) ∧
    (∀ v b pops, v ≠ .ldq → readSrcs s cl (v :: b) pops = srcLine s cl v :: readSrcs s cl b pops) ∧
    (∀ n, popEntry s.here (List.replicate (n + 1) cl) n = ((s.here.laq cl).filter fun e => !e.dropped)[n]?)

/-- R46 to R48, R171 to R173, R177, R182, R183: the corners of FP32 arithmetic and of the conversions. A NaN operand gives
the canonical NaN, a signalling one with invalid; so do opposite infinities added and infinity times zero. An exact zero
has the sign of its mode, a product by 1.0 is exact, and the worked examples of the spec come out. -/
def Sys2Proof.Claim.FloatCorners : Prop :=
  ∀ (h : VHead) (d : VReg) (a b c : VSrc) (x : Ctx) (rm : Rm) (u v w : Word),
    let f (i : Instr) (ws : List Word) := (laneRow i).map fun r => r.val x ws
    let zero : Word := if rm = .rdn then 0x80000000 else 0
    (isNaN32 u = true ∨ isNaN32 v = true →
      f (.fadd h .f32 rm d a b) [u, v] = some (0x7FC00000, nvOf [u, v]) ∧
      f (.fsub h .f32 rm d a b) [u, v] = some (0x7FC00000, nvOf [u, v]) ∧
      f (.fmul h .f32 rm d a b) [u, v] = some (0x7FC00000, nvOf [u, v]) ∧
      f (.div h rm d a b) [u, v] = some (0x7FC00000, nvOf [u, v]) ∧
      f (.fma h .f32 (some rm) d a b c) [u, v, w] = some (0x7FC00000, nvOf [u, v, w])) ∧
    (isInf32 u = true → v = u ^^^ 0x80000000 → f (.fadd h .f32 rm d a b) [u, v] = some (0x7FC00000, 0x01)) ∧
    (isInf32 u = true → isZero32 v = true → f (.fmul h .f32 rm d a b) [u, v] = some (0x7FC00000, 0x01)) ∧
    (isNaN32 u = false → isInf32 u = false →
      f (.fsub h .f32 rm d a b) [u, u] = some (zero, 0) ∧
      (isZero32 v = true → f (.fmul h .f32 rm d a b) [u, v] = some (zero, 0))) ∧
    (isNaN32 u = false → isZero32 u = false → f (.fmul h .f32 rm d a b) [u, 0x3F800000] = some (u, 0)) ∧
    (isNaN32 u = true → isNaN32 v = false →
      f (.fmin h .f32 d a b) [u, v] = some (v, nvOf [u]) ∧ f (.fmax h .f32 d a b) [v, u] = some (v, nvOf [u])) ∧
    f (.fmin h .f32 d a b) [0, 0x80000000] = some (0x80000000, 0) ∧
    f (.fmax h .f32 d a b) [0x80000000, 0] = some (0, 0) ∧
    (isNaN32 u = false → f (.fabs h .f32 d a) [u] = some (u &&& 0x7FFFFFFF, 0) ∧
      f (.fneg h .f32 d a) [u] = some (u ^^^ 0x80000000, 0)) ∧
    f (.fabs h .f16 d a) [0x8001] = some (0, 0) ∧
    f (.fadd h .f32 .rne d a b) [0x7F7FFFFF, 0x7F7FFFFF] = some (0x7F800000, 0x14) ∧
    f (.fadd h .f32 .rtz d a b) [0x7F7FFFFF, 0x7F7FFFFF] = some (0x7F7FFFFF, 0x14) ∧
    f (.cvt h (.i32f32 rm) d a b) [0] = some (zero, 0) ∧
    (isNaN32 u = true → f (.cvt h (.f32i32 rm) d a b) [u] = some (0, 0x01)) ∧
    f (.cvt h (.f32i32 .rne) d a b) [0x40200000] = some (2, 0x10) ∧
    f (.cvt h (.f32i32 rm) d a b) [0x4F32D05E] = some (0x7FFFFFFF, 0x01) ∧
    f (.cvt h (.f32n32 .rtz) d a b) [0xBE800000] = some (0, 0x10) ∧
    f (.cvt h (.f32n32 rm) d a b) [0xBF800000] = some (0, 0x01) ∧
    f (.lmul h .l8 d a b) [0x55, 0xC8] = some (0xDD, 0) ∧ f (.lmul h .l8 d a b) [0x7F, 0x7F] = some (0x7F, 0x30) ∧
    (x.fmts.extractLsb' 5 2 = 0 → f (.lsqrt h .l8 d a) [0x43] = some (0x42, 0x10))

/-- R126, R127, R167: an operation that acts lane by lane puts in flight, for the enabled lanes alone, each lane's
result, and the flags of the enabled lanes together; it pops the lines it names. -/
def Sys2Proof.Claim.LaneResults : Prop :=
  ∀ i r s, laneRow i = some r → Issues i s →
    let en := s.here.m r.head.cl r.head.msk
    let got (l : Nat) := r.val s.me ((readSrcs s r.head.cl r.srcs []).map fun x => lane x l)
    ∃ v fl, exec i s =
        .next (((heard i s).popAll (srcPops r.head.cl r.srcs)).result (.v r.head.cl.toNat r.dest.toNat) v r.lat en 0 fl).finish ∧
      (∀ l, l < 16 → en.getLsbD l = true → lane v l = (got l).1) ∧
      ∀ b, fl.getLsbD b = true ↔ ∃ l, l < 16 ∧ en.getLsbD l = true ∧ (got l).2.getLsbD b = true

/-- R173, R176: the vector compares put in flight one bit for each enabled lane. -/
def Sys2Proof.Claim.CompareMasks : Prop :=
  ∀ i r s, maskRow i = some r → Issues i s →
    let en := s.here.m r.head.cl r.head.msk
    let got (l : Nat) := r.val ((readSrcs s r.head.cl r.srcs []).map fun x => lane x l)
    ∃ v fl, exec i s =
        .next (((heard i s).popAll (srcPops r.head.cl r.srcs)).result (.m r.head.cl.toNat r.dest.toNat) v r.lat en 0 fl).finish ∧
      (∀ l, l < 16 → en.getLsbD l = true → v.getLsbD l = (got l).1) ∧
      ∀ b, fl.getLsbD b = true ↔ ∃ l, l < 16 ∧ en.getLsbD l = true ∧ (got l).2.getLsbD b = true

/-- R30, R181: the mask operations, with latency 1 in the enabled lanes; a cluster the context does not own and a
destination m0 are illegal. -/
def Sys2Proof.Claim.MaskOperations : Prop :=
  ∀ i r s, maskOpRow i = some r →
    (Issues i s → ∃ v, exec i s =
        .next ((heard i s).result (.m r.head.cl.toNat r.dest.toNat) v 1 (s.here.m r.head.cl r.head.msk)).finish ∧
      ∀ l, l < 16 → v.getLsbD l = r.val s l) ∧
    ((planOf i s).freezes s = false → (s.me.clmask.getLsbD r.head.cl.toNat = false ∨ r.dest = 0) →
      ∃ slot, exec i s = faultsAs s slot { code := 0x02 })

/-- R178 to R180, R187: selection, permutes within a cluster and moves between clusters, in the enabled lanes. -/
def Sys2Proof.Claim.PermutesMove : Prop :=
  ∀ (h : VHead) (d : VReg) (s : State),
    let en := s.here.m h.cl h.msk
    let out (i : Instr) (src : List VSrc) (lat : Nat) (f : List Line → Nat → Word) := Issues i s →
      ∃ v, exec i s = .next (((heard i s).popAll (srcPops h.cl src)).result (.v h.cl.toNat d.toNat) v lat en).finish ∧
        ∀ l, l < 16 → en.getLsbD l = true → lane v l = f (readSrcs s h.cl src []) l
    (∀ a b k, out (.vsel h d a b k) [a, b] 1 fun ls l =>
      lane (ls.getD (if (s.here.m h.cl k).getLsbD l then 0 else 1) 0) l) ∧
    (∀ a b, out (.shuf h d a b) [a, b] 2 fun ls l => lane (ls.getD 0 0) ((lane (ls.getD 1 0) l).toNat % 16)) ∧
    (∀ a k, out (.rot h d a k) [a] 2 fun ls l => lane (ls.getD 0 0) ((l + k.toNat) % 16)) ∧
    (∀ a n, out (.xmov h d a n) [] 1 fun _ l => lane (aget s.here.vregs (320 * n.toNat + a.toNat) 0) l) ∧
    (∀ a n j, out (.xbc h d a n j) [] 2 fun _ _ => lane (aget s.here.vregs (320 * n.toNat + a.toNat) 0) j.toNat)

/-- R61, R180: HADD and HMAX give all 16 lanes the root of the fixed tree over the enabled lanes, a node with one operand
passing it on: of no lanes +0 or −∞, of one lane that lane's value. That a NaN which reaches the root so becomes the
canonical NaN, and that a signalling one sets invalid (R46), is the model's reading (log 46). -/
def Sys2Proof.Claim.ReductionsBroadcast : Prop :=
  ∀ (h : VHead) (d : VReg) (a : VSrc) (s : State),
    let en := s.here.m h.cl h.msk
    let src := (readSrcs s h.cl [a] []).getD 0 0
    let leaf (l : Nat) := if en.getLsbD l then some (lane src l) else none
    let out (i : Instr) (op : Word → Word → Word) (none : Word) := Issues i s → ∃ w fl,
      exec i s = .next (((heard i s).popAll (srcPops h.cl [a])).result (.v h.cl.toNat d.toNat) (bcast w) 6 0xFFFF 0 fl).finish ∧
      (w = match treeOf op leaf 4 0 with
        | some v => if isNaN32 v then 0x7FC00000 else v
        | Option.none => none) ∧
      (en = 0 → w = none ∧ fl = 0) ∧
      (∀ l, l < 16 → en = 1#16 <<< l → fl = nvOf [lane src l] ∧ (isNaN32 (lane src l) = false → w = lane src l))
    out (.hadd h d a) (fun x y => (add32 x y).1) 0 ∧
      out (.hmax h d a) (fun x y => BitVec.ofNat 32 (f32.minMax true x.toNat y.toNat).1) 0xFF800000


/-! ### The scratchpad and the accumulator store -/

/-- R188: the local address of lane l of each scratchpad form, exact. -/
def laneAddr (s : State) : Instr → Option (VHead × VReg × (Nat → Int))
  | .vld h d k off | .vst h d k off => some (h, d, fun l => ((s.me.s k).toNat % 2 ^ 32 : Nat) + 64 * off.toInt + 4 * l)
  | .vlds h d k j off | .vsts h d k j off =>
    some (h, d, fun l => ((s.me.s k).toNat % 2 ^ 32 : Nat) + 4 * off.toInt + l * ((s.me.s j).setWidth 32 : Word).toInt)
  | .vldx h d k x off | .vstx h d k x off => some (h, d, fun l =>
      ((s.me.s k).toNat % 2 ^ 32 : Nat) + 4 * off.toInt + ((lane (aget s.here.vregs (320 * h.cl.toNat + x.toNat) 0) l).toNat : Nat))
  | _ => none

/-- Whether an instruction is one of the three vector loads from the scratchpad. -/
def isVload : Instr → Bool
  | .vld .. | .vlds .. | .vldx .. => true
  | _ => false

/-- R188, R189, R191: a vector load captures its lanes' words at issue, to land within 6 cycles in the enabled lanes; in
a compatibility segment it is scoreboarded. Nothing else changes. -/
def Sys2Proof.Claim.VectorLoads : Prop :=
  ∀ i h d at_ s, isVload i = true → laneAddr s i = some (h, d, at_) → Issues i s →
    let en := s.here.m h.cl h.msk
    ∃ v poi, (∀ l, l < 16 → en.getLsbD l = true → lane v l = rdWord s.mem (spmPa s.cur.1.toNat (at_ l).toNat)) ∧
      (s.poison = [] → poi = 0) ∧
      (s.me.seg.compat = false → exec i s = .next ((heard i s).result (.v h.cl.toNat d.toNat) v 6 en poi).finish) ∧
      (s.me.seg.compat = true → exec i s = .next ((((heard i s).fresh.2.awaitSb s.nextId (.v h.cl.toNat d.toNat en)
        (some (s.here.cycle + 6))).modMe fun y => y.arrive s.nextId v poi 0).finish))

/-- Whether a scratchpad form is the one over a whole line, whose base alone must be aligned (R188). -/
def isPlainVm : Instr → Bool
  | .vld .. | .vst .. => true
  | _ => false

/-- Whether the index register of a scratchpad form exists (R188). -/
def indexExists : Instr → Bool
  | .vldx _ _ _ x _ | .vstx _ _ _ x _ => decide (x.toNat < 320)
  | _ => true

/-- R67, R188 to R190, R317: a vector access to a cluster that is not the context's, or with an index register that does not
exist, is an illegal operation. An unaligned one takes fault 0x11 at its base or at its first unaligned lane, and one of
which a lane lies outside SPLO to SPHI takes fault 0x09 at the first such lane, before anything is read or written. Of the
accumulator store, a place that is not aligned takes fault 0x11, and one outside it fault 0x08, with DETAIL [4] for a
write. An address below zero is reported modulo 2^48, which is the model's reading (log 21). -/
def Sys2Proof.Claim.VectorAccessFaults : Prop :=
  (∀ i h d at_ s, laneAddr s i = some (h, d, at_) → (planOf i s).freezes s = false →
    let en := s.here.m h.cl h.msk
    let bad (a : Int) := a < s.me.splo.toNat ∨ (Min.min s.me.sphi.toNat 0x600000 : Nat) ≤ a
    let stops (f : FaultInfo) := exec i s = faultsAs s (9 + 4 * h.cl.toNat) f
    (s.me.clmask.getLsbD h.cl.toNat = false ∨ indexExists i = false → stops { code := 0x02 }) ∧
    (s.me.clmask.getLsbD h.cl.toNat = true → indexExists i = true →
      (isPlainVm i = true → en ≠ 0 → at_ 0 % 64 ≠ 0 → stops { code := 0x11, va := BitVec.ofInt 48 (at_ 0) }) ∧
      (isPlainVm i = false → ∀ l, l < 16 → en.getLsbD l = true → at_ l % 4 ≠ 0 →
        (∀ l', l' < l → en.getLsbD l' = true → at_ l' % 4 = 0) →
        stops { code := 0x11, va := BitVec.ofInt 48 (at_ l) }) ∧
      (∀ l, l < 16 → en.getLsbD l = true → bad (at_ l) → (∀ l', l' < l → en.getLsbD l' = true → ¬ bad (at_ l')) →
        (if isPlainVm i = true then at_ 0 % 64 = 0 else ∀ l', l' < 16 → en.getLsbD l' = true → at_ l' % 4 = 0) →
        (∀ l', l' < l → en.getLsbD l' = true → at_ l' + 4 ≤ (Min.min s.me.sphi.toNat 0x600000 : Nat)) →
        stops { code := 0x09, va := BitVec.ofInt 48 (at_ l) }))) ∧
  ∀ (h : VHead) d k (off : BitVec 9) s, s.me.clmask.getLsbD h.cl.toNat = true → s.here.m h.cl h.msk ≠ 0 →
    let y : Int := ((s.me.s k).toNat % 2 ^ 32 : Nat) + 64 * off.toInt
    let stops (i : Instr) (f : FaultInfo) := (planOf i s).freezes s = false →
      exec i s = faultsAs s (9 + 4 * h.cl.toNat) { f with va := BitVec.ofInt 48 y }
    (y % 64 ≠ 0 → stops (.vlda h d k off) { code := 0x11 } ∧ stops (.vsta h d k off) { code := 0x11 }) ∧
    (y % 64 = 0 → y < 0 ∨ 0x200000 ≤ y →
      stops (.vlda h d k off) { code := 0x08 } ∧ stops (.vsta h d k off) { code := 0x08, detail := 0x10 })

/-- R71, R93, R188, R189: a vector store writes its enabled lanes' words, a later lane over an earlier one, and no other
byte of memory; it puts nothing in flight and changes no register. The words stand in memory where every write to them
that has performed happens before the store, and no read has taken a write to come; elsewhere the order of the writes is
open (log 11). -/
def Sys2Proof.Claim.VectorStores : Prop :=
  ∀ i h d at_ s, isVload i = false → laneAddr s i = some (h, d, at_) → Issues i s → s.me.ending = false →
    let en := s.here.m h.cl h.msk
    let pa (l : Nat) := spmPa s.cur.1.toNat (at_ l).toNat
    ∃ t, exec i s = .next t ∧
      ((∀ l, l < 16 → en.getLsbD l = true → Lasts (heard i s) ((heard i s).access .loc 1) (pa l) 4) →
        ∀ l b, l < 16 → en.getLsbD l = true → b < 4 →
        (∀ l', l < l' → l' < 16 → en.getLsbD l' = true → ¬ (pa l' ≤ pa l + b ∧ pa l + b < pa l' + 4)) →
        rd t.mem (pa l + b) = (lane (aget s.here.vregs (320 * h.cl.toNat + d.toNat) 0) l).extractLsb' (8 * b) 8) ∧
      (∀ a, (∀ l, l < 16 → en.getLsbD l = true → ¬ (pa l ≤ a ∧ a < pa l + 4)) → rd t.mem a = rd s.mem a) ∧
      t.me.pend = s.me.pend ∧ t.me.scal = s.me.scal ∧ t.me.flags = s.me.flags ∧ t.here.vregs = s.here.vregs ∧
      t.reqs = s.reqs

/-- R77, R98, R190: VLDA reads a row's lanes at issue with latency 8, VSTA writes them at issue; neither touches another
byte of memory. VLDA's words are those memory holds where it can miss no write to them. -/
def Sys2Proof.Claim.AccumulatorAccesses : Prop :=
  ∀ (h : VHead) d k (off : BitVec 9) s,
    let en := s.here.m h.cl h.msk
    let y : Int := ((s.me.s k).toNat % 2 ^ 32 : Nat) + 64 * off.toInt
    let pa := accPa s.cur.1.toNat y.toNat
    (Issues (.vlda h d k off) s →
      let u := heard (.vlda h d k off) s
      (u.sure (u.access .loc 1) pa 64 = true → ∃ v poi, (s.poison = [] → poi = 0) ∧
        (∀ l, l < 16 → en.getLsbD l = true → lane v l = rdWord s.mem (pa + 4 * l)) ∧
        exec (.vlda h d k off) s = .next (u.result (.v h.cl.toNat d.toNat) v 8 en poi).finish) ∧
      ∃ v poi n, exec (.vlda h d k off) s =
        .next (({ u with freeCtr := n } : State).result (.v h.cl.toNat d.toNat) v 8 en poi).finish) ∧
    (Issues (.vsta h d k off) s → s.me.ending = false → ∃ t, exec (.vsta h d k off) s = .next t ∧
      (∀ l, l < 16 → en.getLsbD l = true →
        rdWord t.mem (pa + 4 * l) = lane (aget s.here.vregs (320 * h.cl.toNat + d.toNat) 0) l) ∧
      (∀ a, (∀ l, l < 16 → en.getLsbD l = true → ¬ (pa + 4 * l ≤ a ∧ a < pa + 4 * l + 4)) → rd t.mem a = rd s.mem a) ∧
      t.me.pend = s.me.pend ∧ t.me.scal = s.me.scal ∧ t.here.vregs = s.here.vregs)

/-- R93, R214: the local forms of LDS and STS. The load's value is extended to 64 bits and lands with latency 6; the store
writes the low bytes of its scalar, and no other byte; they stand in memory where it is the last write to them. -/
def Sys2Proof.Claim.LocalScalarAccesses : Prop :=
  ∀ g a cls (off : BitVec 12) z s, performs g s.me = true →
    let va := (BitVec.ofInt 64 ((s.me.a a).toNat + off.toInt)).toNat
    let n := sizeBytes z
    let pa := spmPa s.cur.1.toNat va
    (∀ d sx, Issues (.ldsL g d a cls off sx z) s →
      let raw := rdNat s.mem pa n
      let v : Dword := if sx then BitVec.ofInt 64 (BitVec.ofNat (8 * n) raw).toInt else BitVec.ofNat 64 raw
      exec (.ldsL g d a cls off sx z) s =
        .next (s.result (.s (s.me.phys d)) (v.setWidth 512) 6 0xFFFF (if s.poisoned pa n then 1 else 0)).finish) ∧
    (∀ b, Issues (.stsL g a b cls off z) s → s.me.ending = false → ∃ t, exec (.stsL g a b cls off z) s = .next t ∧
      (Lasts (heard (.stsL g a b cls off z) s) ((heard (.stsL g a b cls off z) s).access .loc (clsBit cls)) pa n →
        ∀ i, i < n → rd t.mem (pa + i) = (s.me.s b).extractLsb' (8 * i) 8) ∧
      (∀ x, ¬ (pa ≤ x ∧ x < pa + n) → rd t.mem x = rd s.mem x) ∧
      t.me.scal = s.me.scal ∧ t.me.pend = s.me.pend ∧ t.reqs = s.reqs)

/-! ### Queues, global accesses and atomics -/

/-- The pushes: what each sends, and the scalar its addresses take (R211). -/
def pushRow : Instr → Option (Guard × PushArgs × (Ctx → Nat → Nat))
  | .pushld g p => some (g, p, fun x i => (x.a p.a).toNat + 64 * i)
  | .pushlds g p b => some (g, p, fun x i => (x.a p.a).toNat + i * (x.s b).toNat)
  | .pushldx g p b => some (g, p, fun x i => (x.a p.a).toNat + 64 * ((x.s b).toNat / 2 ^ (16 * i) % 2 ^ 16))
  | _ => none

/-- R79, R80, R211: a push sends one request for a line at each of its addresses, in order, due LAND ticks from now, and
adds an entry for each at the end of its cluster's queue; it changes no memory and no register. -/
def Sys2Proof.Claim.PushesRequestLines : Prop :=
  ∀ i g p f s, pushRow i = some (g, p, f) → performs g s.me = true → Issues i s → s.me.ending = false →
    ∃ t rs es, exec i s = .next t ∧ t.reqs = s.reqs ++ rs ∧ t.here.laq p.cl = s.here.laq p.cl ++ es ∧
      rs.map (fun r => (r.va.toNat, r.len, r.kind, r.deadline, r.core, r.ctx, r.cls)) =
        (List.range (p.n.toNat + 1)).map (fun j => (f s.me j % 2 ^ 64 % 2 ^ 48, 64, ReqKind.line p.cl,
          s.gcc + p.land.setWidth 64, s.cur.1, s.cur.2, p.cls)) ∧
      es.map (fun e => (e.id, e.landed, e.dropped)) = rs.map (fun r => (r.id, false, false)) ∧
      t.mem = s.mem ∧ t.me.scal = s.me.scal ∧ t.me.pend = s.me.pend ∧ t.here.vregs = s.here.vregs

/-- R81: a push that cannot fit beside the landed lines no pop has taken takes fault 0x0A with DETAIL 1; one that only
outstanding lines keep out waits. -/
def Sys2Proof.Claim.PushQueueFull : Prop :=
  ∀ g p s, performs g s.me = true → s.me.owns p.cl = true → (s.me.a p.a).toNat % 64 = 0 →
    (s.xlates .read ((List.range (p.n.toNat + 1)).map fun i => (s.me.a p.a + BitVec.ofNat 64 (64 * i)).toNat)).all
      (fun x => match x.2 with | .ok _ => true | _ => false) = true →
    let q := s.here.laq p.cl
    let landed := (q.filter fun e => e.landed && !e.dropped).length
    (1024 < landed + (p.n.toNat + 1) → exec (.pushld g p) s = faultsAs s 2 { code := 0x0A, detail := 1 }) ∧
    (landed + (p.n.toNat + 1) ≤ 1024 → 1024 < q.length + (p.n.toNat + 1) → exec (.pushld g p) s = .next s)

/-- The global vector stores: the address of lane l (R213). -/
def stgRow (s : State) : Instr → Option (Guard × StgArgs × (Nat → Nat))
  | .stg g p => some (g, p, fun l => (s.me.a p.a).toNat + 4 * l)
  | .stgs g p b => some (g, p, fun l => (s.me.a p.a).toNat + l * (s.me.s b).toNat)
  | .stgx g p x => some (g, p, fun l => (s.me.a p.a).toNat + (lane (aget s.here.vregs (320 * p.cl.toNat + x.toNat) 0) l).toNat)
  | _ => none

/-- R213: a global vector store sends one 4-byte store for each enabled lane, in lane order; no memory changes before it
performs at its home. -/
def Sys2Proof.Claim.GlobalVectorStores : Prop :=
  ∀ i g p f s, stgRow s i = some (g, p, f) → performs g s.me = true → Issues i s → s.me.ending = false →
    let lanes := (List.range 16).filter fun l => (s.here.m p.cl p.msk).getLsbD l
    ∃ t rs, exec i s = .next t ∧ t.reqs = s.reqs ++ rs ∧
      rs.map (fun r => (r.va.toNat, r.len, r.kind, r.core, r.ctx, r.cls)) = lanes.map (fun l =>
        (f l % 2 ^ 64 % 2 ^ 48, 4,
          ReqKind.store (leBytes 4 (lane (aget s.here.vregs (320 * p.cl.toNat + p.data.toNat) 0) l).toNat),
          s.cur.1, s.cur.2, p.cls)) ∧
      t.mem = s.mem ∧ t.me.scal = s.me.scal ∧ t.me.pend = s.me.pend ∧ t.here.vregs = s.here.vregs

/-- R94, R214: a global LDS sends a load and awaits it for its scalar, to be consumed by the first bundle that reads it; a
global STS sends a store of its scalar's low bytes. -/
def Sys2Proof.Claim.GlobalScalarAccesses : Prop :=
  ∀ g a cls (off : BitVec 12) z s, performs g s.me = true →
    let va := (BitVec.ofInt 64 ((s.me.a a).toNat + off.toInt)).toNat
    let sent (r : Req) := r.va.toNat = va % 2 ^ 48 ∧ r.len = sizeBytes z ∧ r.core = s.cur.1 ∧ r.ctx = s.cur.2 ∧ r.cls = cls ∧
      r.pos = s.me.pos
    (∀ d sx, Issues (.lds g d a cls off sx z) s → ∃ r : Req, r.kind = .load (sizeBytes z) sx ∧ sent r ∧
      s.xlate s.cur.1 (ctxWaiter s.cur.2) s.here.tenant va .read = .ok r.pa ∧
      exec (.lds g d a cls off sx z) s =
        .next (((s.send r).awaitSb s.nextId (.s (s.me.phys d))).modMe fun y =>
          { y with unread := y.unread ++ [⟨s.nextId, s.me.phys d, s.me.pos, cls⟩] }).finish) ∧
    (∀ b, Issues (.sts g a b cls off z) s → ∃ r : Req, r.kind = .store (leBytes (sizeBytes z) (s.me.s b).toNat) ∧ sent r ∧
      s.xlate s.cur.1 (ctxWaiter s.cur.2) s.here.tenant va .write = .ok r.pa ∧
      exec (.sts g a b cls off z) s = .next ((heard (.sts g a b cls off z) s).send r).finish)

/-- R94, R156, R215, R217: LDACQ and STREL send their acquire and release with the classes their inverted masks name, to
a word of an accumulator store. -/
def Sys2Proof.Claim.AcquireAndRelease : Prop :=
  ∀ g a sc nmask s, performs g s.me = true →
    let sent (r : Req) := r.scope = sc ∧ r.len = 4 ∧ isAcc r.pa = true ∧ (s.me.a a).toNat % 4 = 0 ∧ nmask ≠ 0xFFFF ∧
      r.pos = s.me.pos ∧ r.cls = 0
    (∀ d, Issues (.ldacq g d a sc nmask) s → ∃ r : Req, r.kind = .ldacq ∧ r.acq = some (~~~nmask) ∧ r.rel = none ∧ sent r ∧
      s.xlate s.cur.1 (ctxWaiter s.cur.2) s.here.tenant (s.me.a a).toNat .read = .ok r.pa ∧
      exec (.ldacq g d a sc nmask) s =
        .next (((s.send r).awaitSb s.nextId (.s (s.me.phys d))).modMe fun y =>
          { y with unread := y.unread ++ [⟨s.nextId, s.me.phys d, s.me.pos, 0⟩] }).finish) ∧
    (∀ b, Issues (.strel g a b sc nmask) s → ∃ r : Req, r.kind = .strel ((s.me.s b).setWidth 32) ∧ r.rel = some (~~~nmask) ∧
      r.acq = none ∧ sent r ∧
      s.xlate s.cur.1 (ctxWaiter s.cur.2) s.here.tenant (s.me.a a).toNat .write = .ok r.pa ∧
      exec (.strel g a b sc nmask) s = .next ((heard (.strel g a b sc nmask) s).send r).finish)

/-- The atomics: their fields, and what each does to the word old with its operands (R216). -/
def amoRow (x : Ctx) : Instr → Option (Guard × AmoArgs × (Word → Word))
  | .amoAdd g p => some (g, p, fun o => o + (x.s p.b).setWidth 32)
  | .amoFadd g p => some (g, p, fun o => (add32 o ((x.s p.b).setWidth 32)).1)
  | .amoMin g p => some (g, p, fun o => if o.sle ((x.s p.b).setWidth 32) then o else (x.s p.b).setWidth 32)
  | .amoMax g p => some (g, p, fun o => if o.sle ((x.s p.b).setWidth 32) then (x.s p.b).setWidth 32 else o)
  | .amoMinu g p => some (g, p, fun o => if o.ule ((x.s p.b).setWidth 32) then o else (x.s p.b).setWidth 32)
  | .amoMaxu g p => some (g, p, fun o => if o.ule ((x.s p.b).setWidth 32) then (x.s p.b).setWidth 32 else o)
  | .amoAnd g p => some (g, p, fun o => o &&& (x.s p.b).setWidth 32)
  | .amoOr g p => some (g, p, fun o => o ||| (x.s p.b).setWidth 32)
  | .amoXor g p => some (g, p, fun o => o ^^^ (x.s p.b).setWidth 32)
  | .amoXchg g p => some (g, p, fun _ => (x.s p.b).setWidth 32)
  | .cas g p nw => some (g, p, fun o => if o = (x.s p.b).setWidth 32 then (x.s nw).setWidth 32 else o)
  | _ => none

/-- R216, R217: each atomic sends one read-modify-write of a word of an accumulator store, with the acquire and release
its form names, and awaits the old word for its scalar; performing, it leaves the word its operation gives and brings its
context the word that stood there. -/
def Sys2Proof.Claim.Atomics : Prop :=
  ∀ i g p f s, amoRow s.me i = some (g, p, f) → performs g s.me = true → Issues i s →
    ∃ r : Req, isAcc r.pa = true ∧ r.len = 4 ∧
      s.xlate s.cur.1 (ctxWaiter s.cur.2) s.here.tenant (s.me.a p.a).toNat .both = .ok r.pa ∧
      r.acq = (if p.ord = .acq ∨ p.ord = .ar then some (~~~p.nmask) else none) ∧
      r.rel = (if p.ord = .rel ∨ p.ord = .ar then some (~~~p.nmask) else none) ∧ r.scope = p.scope ∧
      exec i s = .next ((((heard i s).send r).awaitSb s.nextId (.s (s.me.phys p.d))).modMe fun y =>
        { y with unread := y.unread ++ [⟨s.nextId, s.me.phys p.d, s.me.pos, 0⟩] }).finish ∧
      ∀ u : State, rdWord (u.perform r).mem r.pa = f (rdWord u.mem r.pa) ∧
        ∀ b, b ∈ (u.ctx r.core r.ctx).sbs → b.id = r.id → (∀ e ∈ (u.ctx r.core r.ctx).sbs, e.id = r.id → e = b) →
          ∃ b' ∈ ((u.perform r).ctx r.core r.ctx).sbs, b'.id = r.id ∧ b'.arrived = true ∧
            b'.val = (rdWord u.mem r.pa).setWidth 512

/-- R72, R73, R218: TLOOK's word names the first way that holds the address's tag and that way's data, or 0xFFFF; TSET
writes a valid entry and moves the pointer; TCLR clears a valid bit. -/
def Sys2Proof.Claim.TagTable : Prop :=
  ∀ g s, Performs g s →
    let slot (a : AReg) (w : Nat) := 8 * ((s.me.a a).toNat / 4096 % 512) + w
    let hit (a : AReg) (w : Nat) := (aget s.here.tags (slot a w) 0).getLsbD 27 = true ∧
      (aget s.here.tags (slot a w) 0).toNat % 2 ^ 27 = (s.me.a a).toNat / 2 ^ 21 % 2 ^ 27
    (∀ d a, AddrReady s a → LoopAllows s d → ∃ (v : Dword) (poi : BitVec 16),
      exec (.tlook g d a) s = .next (s.result (.s (s.me.phys d)) (v.setWidth 512) 2 0xFFFF poi).finish ∧
      (s.here.tagPoison = [] → poi = 0) ∧
      (∀ w, w < 8 → hit a w → (∀ w', w' < w → ¬ hit a w') → v.toNat % 2 ^ 16 = slot a w ∧
        v.toNat / 2 ^ 32 = (aget s.here.tags (slot a w) 0).toNat / 2 ^ 32 % 2 ^ 16) ∧
      ((∀ w, w < 8 → ¬ hit a w) → v.toNat % 2 ^ 16 = 0xFFFF)) ∧
    (∀ a b (way : BitVec 3), AddrReady s a → ScalarReady s b → s.me.ending = false →
      ∃ t, exec (.tset g a b way) s = .next t ∧
      aget t.here.tags (slot a way.toNat) 0 = BitVec.ofNat 64
        ((s.me.a a).toNat / 2 ^ 21 % 2 ^ 27 + 2 ^ 27 + (s.me.s b).toNat % 2 ^ 16 * 2 ^ 32) ∧
      aget t.here.ptrs ((s.me.a a).toNat / 4096 % 512) 0 = way + 1 ∧
      (∀ k, k ≠ slot a way.toNat → aget t.here.tags k 0 = aget s.here.tags k 0) ∧ t.mem = s.mem ∧ t.me.scal = s.me.scal) ∧
    (∀ a, ScalarReady s a → ((s.me.s a).toNat < 4096 → s.me.ending = false → ∃ t, exec (.tclr g a) s = .next t ∧
      (aget t.here.tags (s.me.s a).toNat 0).getLsbD 27 = false ∧
      (∀ k, k ≠ (s.me.s a).toNat → aget t.here.tags k 0 = aget s.here.tags k 0) ∧ t.mem = s.mem) ∧
      (4096 ≤ (s.me.s a).toNat → exec (.tclr g a) s = faultsAs s 2 { code := 0x02 }))

/-- R33, R219: NXU of a persistent launch asks its scheduler for the next unit; the answer is awaited in work register
k mod 4 within 12 cycles; in any other launch it is an illegal operation. -/
def Sys2Proof.Claim.NextUnitAsked : Prop :=
  ∀ g s, Performs g s → s.me.awaitsW (s.me.nxuCount % 4) = false →
    (s.persistent s.me.launch = true → s.me.ending = false → ∃ t, exec (.nxu g) s = .next t ∧
      t.nxus = s.nxus ++ [⟨s.me.launch, s.cur.1, s.cur.2, s.me.runId, s.nextId⟩] ∧ t.nextId = s.nextId + 1 ∧
      t.me.nxuCount = s.me.nxuCount + 1 ∧
      t.me.sbs = s.me.sbs ++ [⟨s.nextId, .w (BitVec.ofNat 2 (s.me.nxuCount % 4)), some (s.here.cycle + 12), false, 0, 0, 0,
        false, 0⟩] ∧ t.mem = s.mem ∧ t.me.scal = s.me.scal ∧ t.me.works = s.me.works) ∧
    (s.persistent s.me.launch = false → exec (.nxu g) s = faultsAs s 2 { code := 0x02 })

/-! ### The matrix engine's and the copy engine's commands -/

/-- R200 to R207: the command each operation of the MX map queues. -/
def mxRow (x : Ctx) : Instr → Option (Guard × MxKind × FlagRef × BitVec 4)
  | .mma g a b m => some (g, .mma ((x.s a).toNat % 2 ^ 32) ((x.s b).setWidth 32 : Word).toInt
      (rowsPerBeat (aFmt x.fmts) (bFmt x.fmts) * (m.nb.toNat + 1)) (m.nb.toNat + 1) m.latch
      (match m.mode with | .dflt => x.fmts.getLsbD 4 | .ovw => false | .add => true) m.colh m.row.toNat
      (if m.cons.v then some m.cons.f else none), m.done, m.cls)
  | .mmag g a b l m => some (g, .mmag ((x.s a).toNat % 2 ^ 32) ((x.s b).setWidth 32 : Word).toInt ((x.s l).toNat % 2 ^ 32)
      (rowsPerBeat (aFmt x.fmts) (bFmt x.fmts) * (m.nb.toNat + 1)) (m.nb.toNat + 1) m.latch
      (match m.mode with | .dflt => x.fmts.getLsbD 4 | .ovw => false | .add => true) m.colh m.row.toNat
      (if m.cons.v then some m.cons.f else none), m.done, m.cls)
  | .latch g a b l done cls => some (g, .latch (x.s a).toNat ((x.s b).setWidth 32 : Word).toInt l none, done, cls)
  | .latcht g a b l done cls w => some (g, .latch (x.s a).toNat ((x.s b).setWidth 32 : Word).toInt l (some w), done, cls)
  | .accz g r => some (g, .accz (x.s r.row).toNat (r.n.toNat + 1), r.done, r.cls)
  | .accwr g a r add => some (g, .accwr (x.s a).toNat (x.s r.row).toNat (r.n.toNat + 1) add, r.done, r.cls)
  | .accrd g a r tgt => some (g, .accrd (x.s a).toNat (x.s r.row).toNat (r.n.toNat + 1) tgt, r.done, r.cls)
  | _ => none

/-- R195, R200 to R207: an MX operation queues its command, with the operands and the FMTS of its issue, behind the
engine's other commands, takes a reservation, and touches neither memory nor any register. Which part of a scalar an
operand is, the low word of an MMA's and MMAG's and the whole scalar of a LATCH's and a row command's, is the model's
reading (log 24). -/
def Sys2Proof.Claim.MatrixCommandsQueue : Prop :=
  ∀ i g kind done cls s, mxRow s.me i = some (g, kind, done, cls) → performs g s.me = true → Issues i s →
    s.me.ending = false →
    ∃ t cmd r, exec i s = .next t ∧ t.here.mx = s.here.mx ++ [cmd] ∧ cmd.kind = kind ∧ cmd.id = s.nextId ∧
      cmd.fmts = s.me.fmts ∧ cmd.ctx = s.cur.2 ∧ cmd.runId = s.me.runId ∧ cmd.cls = cls ∧
      cmd.done = (if done.v then some done.f else none) ∧ cmd.issued = s.here.cycle ∧ cmd.started = false ∧ cmd.beat = 0 ∧
      t.here.res = (s.here.res.filter fun q => s.here.cycle < q.last) ++ [r] ∧ r.ctx = s.cur.2 ∧ r.runId = s.me.runId ∧
      t.mem = s.mem ∧ t.me.scal = s.me.scal ∧ t.me.flags = s.me.flags ∧ t.me.pend = s.me.pend ∧
      t.here.latches = s.here.latches ∧ t.here.vregs = s.here.vregs

/-- R165, R196: an ACCZ whose array is reserved waits when another run holds it, and takes the schedule fault when its own
run does. -/
def Sys2Proof.Claim.ReservationsHold : Prop :=
  ∀ g r s q, performs g s.me = true → ScalarReady s r.row → s.here.res = [q] → s.here.cycle ≤ q.last → q.array = true →
    (¬ (q.ctx = s.cur.2 ∧ q.runId = s.me.runId) → exec (.accz g r) s = .next s) ∧
    (q.ctx = s.cur.2 → q.runId = s.me.runId → exec (.accz g r) s = faultsAs s 3 { code := 0x03 })

/-- R221: the kind of each copy command. -/
def copyRow (x : Ctx) : Instr → Option (Guard × CpyArgs × CopyKind)
  | .cpy g p => some (g, p, .cpy)
  | .cpyt g p ts => some (g, p, .timed (x.s ts))
  | .cpym g p ms f c => some (g, p, .multi ((x.s ms).setWidth 32) (if f.v then some f.f else none) c)
  | .cpsend g p port => some (g, p, .send port)
  | _ => none

/-- R85, R221: a copy operation queues its command at the end of its channel, with the nest and the addresses of its
issue; nothing is copied yet. -/
def Sys2Proof.Claim.CopyCommandsQueue : Prop :=
  ∀ i g p kind s, copyRow s.me i = some (g, p, kind) → performs g s.me = true → Issues i s → s.me.ending = false →
    ∃ t cmd, exec i s = .next t ∧ (t.here.chan p.ch).queue = (s.here.chan p.ch).queue ++ [cmd] ∧
      (t.here.chan p.ch).run = (s.here.chan p.ch).run ∧ cmd.kind = kind ∧ cmd.id = s.nextId ∧ cmd.nest = s.me.n p.nest ∧
      cmd.src = s.me.a p.src ∧ cmd.dst = s.me.a p.dst ∧ cmd.cls = p.cls ∧ cmd.ctx = s.cur.2 ∧ cmd.runId = s.me.runId ∧
      cmd.unit = s.me.unit ∧ cmd.after = s.me.xafter ∧ cmd.done = (if p.done.v then some p.done.f else none) ∧
      (∀ ch, ch ≠ p.ch → t.here.chan ch = s.here.chan ch) ∧
      t.mem = s.mem ∧ t.me.scal = s.me.scal ∧ t.me.flags = s.me.flags ∧ t.me.pend = s.me.pend

/-- R30, R85: a channel that the context does not hold is illegal, and one with 16 commands waiting takes fault 0x0A with
DETAIL 2. -/
def Sys2Proof.Claim.CopyQueueLimit : Prop :=
  ∀ g p s, performs g s.me = true →
    let n := s.me.n p.nest
    (s.me.holds s.cur.2 p.ch = false → exec (.cpy g p) s = faultsAs s 4 { code := 0x02 }) ∧
    (s.me.holds s.cur.2 p.ch = true → nestReserved n = false → nestBulk n = false →
      16 ≤ (s.here.chan p.ch).queue.length → exec (.cpy g p) s = faultsAs s 4 { code := 0x0A, detail := 2 })

/-- R220, R224, R225: NESTLD puts a vector register in flight for its nest register with latency 4; CPARM arms its guard
for the channel's next command; CPSTAT reads the status of its channel with latency 2, and its .CLR form clears the two
error bits after reading them. -/
def Sys2Proof.Claim.CopyRegisters : Prop :=
  ∀ g s, Performs g s →
    (∀ d cl j, Issues (.nestld g d cl j) s → exec (.nestld g d cl j) s =
      .next (s.result (.n d.toNat) (aget s.here.vregs (320 * cl.toNat + j.toNat) 0) 4).finish) ∧
    (∀ ch lo hi, ScalarReady s lo → ScalarReady s hi → s.me.holds s.cur.2 ch = true →
      (s.me.s lo).toNat % 64 = 0 → (s.me.s hi).toNat % 64 = 0 → (s.me.s lo).toNat < (s.me.s hi).toNat →
      (s.me.s hi).toNat ≤ 0x600000 →
      exec (.cparm g ch lo hi) s = .next ((heard (.cparm g ch lo hi) s).modChan s.cur.1 ch fun c =>
        { c with armNext := some ((s.me.s lo).toNat, (s.me.s hi).toNat) }).finish) ∧
    (∀ d ch, s.me.holds s.cur.2 ch = true → LoopAllows s d → ∃ v : Dword,
      exec (.cpstat g d ch) s = .next (s.result (.s (s.me.phys d)) (v.setWidth 512) 2).finish ∧
      exec (.cpstatClr g d ch) s = .next ((s.result (.s (s.me.phys d)) (v.setWidth 512) 2).modChan s.cur.1 ch fun c =>
        { c with landErr := false, rillErr := false }).finish ∧
      ((s.here.chan ch).queue.length < 32 → v.toNat % 32 = (s.here.chan ch).queue.length ∧
        v.getLsbD 5 = (s.here.chan ch).run.isSome ∧ v.getLsbD 6 = (s.here.chan ch).armNext.isSome ∧
        v.getLsbD 8 = (s.here.chan ch).landErr ∧ v.getLsbD 9 = (s.here.chan ch).rillErr)) ∧
    (∀ d ch, s.me.holds s.cur.2 ch = false → exec (.cpstat g d ch) s = faultsAs s 4 { code := 0x02 })

/-- R74, R226: BUSE and BFREE change the in-use bits of their pages from the next cycle on; R231: TREXCL sets or clears
an exclusion slot of a traced launch, with its whole base address, and does nothing in any other. -/
def Sys2Proof.Claim.InUseAndExclusions : Prop :=
  ∀ g s, Performs g s →
    (∀ a n, Issues (.buse g a n) s → s.me.ending = false → ∃ t, exec (.buse g a n) s = .next t ∧
      t.here.inuse = s.here.inuse ∧ t.mem = s.mem ∧ t.here.usePend = s.here.usePend ++ (List.range (n.toNat + 1)).map fun i =>
        ((s.me.s a).toNat / 4096 + i, some ⟨s.cur.2, s.me.launch⟩)) ∧
    (∀ a n, Issues (.bfree g a n) s → s.me.ending = false → ∃ t, exec (.bfree g a n) s = .next t ∧
      t.here.inuse = s.here.inuse ∧ t.mem = s.mem ∧ t.here.usePend = s.here.usePend ++ (List.range (n.toNat + 1)).map fun i =>
        ((s.me.s a).toNat / 4096 + i, none)) ∧
    (∀ a b slot, AddrReady s a → ScalarReady s b → s.traced s.me.launch = false →
      exec (.trexcl g a b slot) s = .next (heard (.trexcl g a b slot) s).finish) ∧
    (∀ a b slot, AddrReady s a → ScalarReady s b → s.traced s.me.launch = true →
      exec (.trexcl g a b slot) s = .next ((heard (.trexcl g a b slot) s).modMe fun y =>
        { y with excl := if s.me.s b = 0 then adel y.excl slot.toNat
            else ains y.excl slot.toNat ⟨s.me.a a, s.me.s b⟩ }).finish)

/-- R227, R232: LAUNCH and RELAUNCH reserve the next entry of a device-fed queue of their own die and tenant; a queue
with no free entry takes fault 0x0A with DETAIL 3. -/
def Sys2Proof.Claim.DeviceLaunchesReserve : Prop :=
  ∀ g a q s, performs g s.me = true →
    let d := dieOf s.cur.1
    let t := s.here.tenant
    let who : Who := { s.access (.eng 99 0) 0 with xfence := s.me.xfence }
    (Issues (.launch g a q) s → exec (.launch g a q) s = .next (s.modQueue d t q fun y =>
      { y with reserved := y.reserved ++ [⟨(s.me.a a).setWidth 48, none, s.me.xafter, who⟩] }).finish) ∧
    (∀ b, Issues (.relaunch g a b q) s → ∃ pa, isAcc pa = true ∧
      s.xlate s.cur.1 (ctxWaiter s.cur.2) t (s.me.s b).toNat .write = .ok pa ∧
      exec (.relaunch g a b q) s = .next ((heard (.relaunch g a b q) s).modQueue d t q fun y =>
        { y with reserved := y.reserved ++
          [⟨(s.me.a a).setWidth 48, some ⟨(s.me.s b).setWidth 48, some pa⟩, s.me.xafter, who⟩] }).finish) ∧
    (∀ pa, (s.me.a a).toNat % 64 = 0 → s.xlate s.cur.1 (ctxWaiter s.cur.2) t (s.me.a a).toNat .read = .ok pa →
      s.queueFull (s.queue d t q) = true → exec (.launch g a q) s = faultsAs s 4 { code := 0x0A, detail := 3 })

/-! ### Frames -/

/-- The operations that store to memory at issue. -/
def storesAtIssue : Instr → Bool
  | .vst .. | .vsts .. | .vstx .. | .vsta .. | .stsL .. => true
  | _ => false

/-- R71, R92, R120: an operation that is no local store leaves every byte of memory as it was: global stores, atomics and
engine commands change it only when their events perform them. -/
def Sys2Proof.Claim.OperationsKeepMemory : Prop :=
  ∀ i s t a, IsOperation i → Issues i s → storesAtIssue i = false → exec i s = .next t → rd t.mem a = rd s.mem a

/-- R39, R138: when an operation issues, no scalar, address, predicate or nest register, no flag of the context and no
vector register or mask changes: results land later. The exceptions are the fresh window entries of CALL and CALLI. -/
def Sys2Proof.Claim.RegistersChangeByLanding : Prop :=
  ∀ i s t, IsOperation i → Issues i s → exec i s = .next t →
    ((∀ g d n x, i ≠ .call g d n x) → (∀ g d a n, i ≠ .calli g d a n) → t.me.scal = s.me.scal) ∧
    t.me.areg = s.me.areg ∧ t.me.preds = s.me.preds ∧ t.me.nests = s.me.nests ∧ t.me.flags = s.me.flags ∧
    t.me.works = s.me.works ∧ t.here.vregs = s.here.vregs ∧ t.here.masks = s.here.masks

/-- R64 to R66, R154, R161 to R163: which operations write the context's status registers at issue: FLAGS, BSA, SPLO and
SPHI only a WRSYS, FB only CALL, CALLI and RET, and none BOT, CLMASK, FMTS, TRAPINFO or the tenant. -/
def Sys2Proof.Claim.StatusRegistersKept : Prop :=
  ∀ i s t, IsOperation i → Issues i s → exec i s = .next t →
    ((∀ g n a, i ≠ .wrsys g n a) →
      t.me.arith = s.me.arith ∧ t.me.bsa = s.me.bsa ∧ t.me.splo = s.me.splo ∧ t.me.sphi = s.me.sphi) ∧
    ((∀ g d n x, i ≠ .call g d n x) → (∀ g d a n, i ≠ .calli g d a n) → (∀ g a n, i ≠ .ret g a n) → t.me.fb = s.me.fb) ∧
    t.me.bot = s.me.bot ∧ t.me.clmask = s.me.clmask ∧ t.me.fmts = s.me.fmts ∧ t.me.trapinfo = s.me.trapinfo ∧
    t.here.tenant = s.here.tenant ∧ t.gcc = s.gcc

/-- R30, R31: issuing an operation leaves every other context of the package, every other core, every tenant's tables
and the owners of memory as they were. -/
def Sys2Proof.Claim.OperationsStayInContext : Prop :=
  ∀ i s t, IsOperation i → Issues i s → exec i s = .next t →
    (∀ k c, (k, c) ≠ s.cur → t.ctx k c = s.ctx k c) ∧ (∀ k, k ≠ s.cur.1 → t.core k = s.core k) ∧
    t.tenants = s.tenants ∧ t.owners = s.owners ∧ t.ports = s.ports ∧ t.saves = s.saves

/-! ### Taking a fault and going on -/

/-- R316, R317: where each field of a fault record lies in its 64 bytes. -/
def Sys2Proof.Claim.FaultRecordLayout : Prop :=
  ∀ (f : FaultInfo) held (lid : Word) (k : CoreId) (c : CtxId) unit (pc : Addr) (gcc : Dword),
    let bs := faultRecord f held lid k c unit pc gcc
    let v := leNat bs
    bs.length = 64 ∧ v % 2 ^ 8 = f.code.toNat ∧ v / 2 ^ 8 % 2 = f.strad.toNat ∧ v / 2 ^ 9 % 2 = held.toNat ∧
    v / 2 ^ 10 % 2 = f.eng.toNat ∧ v / 2 ^ 11 % 2 = f.chan.isSome.toNat ∧ v / 2 ^ 12 % 2 ^ 4 = (f.chan.getD 0).toNat ∧
    v / 2 ^ 16 % 2 ^ 8 = f.slot.toNat ∧ v / 2 ^ 24 % 2 ^ 8 = f.detail.toNat ∧ v / 2 ^ 32 % 2 ^ 32 = lid.toNat ∧
    v / 2 ^ 64 % 2 ^ 7 = k.toNat ∧ v / 2 ^ 71 % 2 ^ 2 = c.toNat ∧ v / 2 ^ 80 % 2 ^ 24 = (unit.getD 0).toNat ∧
    v / 2 ^ 104 % 2 = unit.isSome.toNat ∧ v / 2 ^ 128 % 2 ^ 48 = pc.toNat ∧ v / 2 ^ 192 % 2 ^ 48 = f.va.toNat ∧
    v / 2 ^ 256 % 2 ^ 16 = f.imm.toNat ∧ v / 2 ^ 320 % 2 ^ 64 = gcc.toNat

/-- R42, R91, R315, R318, R320: taking a fault appends its record to the tenant's fault ring, where the DRAM ports serve all
of it and none waits before it, and lands what was in flight. A translation fault 0x04 or 0x07 holds the context at its bundle
and fails nothing; any other stops the context and fails its launch with FAULT. -/
def Sys2Proof.Claim.FaultsTaken : Prop :=
  ∀ (s : State) k c (f : FaultInfo),
    let x := s.ctx k c
    let t := s.takeFault k c f
    let held := (f.code == 0x04 || f.code == 0x07) && !x.stopReq
    let own := (s.core k).tenant
    let ring := (s.tenant own).faultRing
    let at_ := ring.base.toNat + 64 * (ring.tail.toNat % 2 ^ ring.log2n.toNat)
    let record := faultRecord f held x.launch k c x.unit (f.pc.getD x.pc) (f.gcc.getD s.gcc)
    let served := s.late.any (fun e => e.log == .fault own) = false ∧ spanOpen (s.storeOpen none) at_ 64 = true
    (held = true → (t.ctx k c).run = .held ∧ (t.ctx k c).heldCode = f.code ∧ t.launches = s.launches) ∧
    (held = false → (t.ctx k c).run = .stopped ∧ (t.ctx k c).pendFaults = [] ∧
      ∀ l, s.launch x.launch = some l → l.phase ≠ .failing → l.phase ≠ .ended →
        ∃ l', t.launch x.launch = some l' ∧ l'.phase = .failing ∧ l'.status = 0x07) ∧
    (t.ctx k c).pc = x.pc ∧ (t.ctx k c).pend = [] ∧
    (ring.open = true → served → (t.tenant own).faultRing = { ring with tail := ring.tail + 1 }) ∧
    (ring.open = true → served → s.stampOn = false →
      rdBytes t.mem at_ 64 = record ∧ ∀ a, ¬ (at_ ≤ a ∧ a < at_ + 64) → rd t.mem a = rd s.mem a) ∧
    (ring.open = true → ¬ served → t.late = s.late ++ [⟨.fault own, record, none⟩] ∧ t.mem = s.mem ∧
      (t.tenant own).faultRing = ring) ∧
    (ring.open = false → t.mem = s.mem ∧ ((t.tenant own).faultRing).tail = ring.tail)

/-- R313, R320, R321: GO lets a held context go on at the bundle it was held at. Its fetch buffer is discarded, TRAPINFO
says which fault it was, and a page-table failure it met will be walked again; GO_STEP asks besides for a stop after one
bundle. -/
def Sys2Proof.Claim.HeldContextsResume : Prop :=
  ∀ (s : State) k c st, (s.ctx k c).heldCode ≠ 0x10 → (s.ctx k c).begun = true →
    let t := s.resumeHeld k c st
    (t.ctx k c).run = .running ∧ (t.ctx k c).pc = (s.ctx k c).pc ∧
    (t.ctx k c).trapinfo.getLsbD 8 = true ∧ (t.ctx k c).trapinfo.setWidth 8 = (s.ctx k c).heldCode ∧
    (t.ctx k c).blocks = [] ∧ (t.ctx k c).loop = (s.ctx k c).loop ∧ (t.ctx k c).stepReq = st ∧
    (∀ page, (t.core k).failed (ctxWaiter c) page = none) ∧
    (t.ctx k c).scal = (s.ctx k c).scal ∧ (t.ctx k c).areg = (s.ctx k c).areg ∧ (t.ctx k c).preds = (s.ctx k c).preds ∧
    t.mem = s.mem ∧ ∀ k' c', (k', c') ≠ (k, c) → t.ctx k' c' = s.ctx k' c'

/-! ### Bundles and results -/

/-- A step runs what its agenda names first. -/
def Sys2Proof.Claim.StepRunsAgenda : Prop :=
  ∀ s i r, s.agenda = i :: r → step s = exec i { s with agenda := r }

/-- R36, R37, R120: the core's cycle in which its primary presents a bundle of one operation, which can issue and takes no
part in the program phase, no other context of the core running: the operation is read in the state before the bundle,
its effects are committed, and the run goes on behind the bundle. -/
def Sys2Proof.Claim.StepIssuesBundle : Prop :=
  ∀ (s : State) k c r b sl i, s.agenda = .bundleIssue k c .clean :: r →
    let u := ({ s with agenda := r } : State).preview k
    cycleReady { s with agenda := r } k = true → (s.ctx k c).part = none → (u.core k).primary = c →
    (∀ d, d ≠ c → (u.ctx k d).run ≠ .running) → judge u k c = .go b → opsOf b = [(sl, i)] → (u.ctx k c).part = none →
    let v := u.present k c b.len
    (planOf i v).lacc = [] →
    let w := ((v.learnBundle b [(sl, planOf i v, v)]).present k c b.len).modCtx k c fun x =>
      { x with part := none, waitGcc := none, barWait := none, xfer := none }
    let done := (((((planOf i w).commit ((w.modCtx k c (·.passSync b.sync)).popAll (planOf i w).pops)).modCtx k c
      Ctx.endBundle).count (16 * k.toNat) 1).dropWaiter k (ctxWaiter c)).finish
    let rest := (allCtxs.foldl (fun t d => t.modCtx k d fun x =>
      x.endCycle (if d = c then .go b else .idle) (0 < (u.ctx k d).delay) (d == c)) done).count (16 * k.toNat + 1) 0
    step s = .next { (rest.modCore k fun y =>
      { y with primary := c, primCycles := y.primCycles + 1, heir := none }).accAccesses k true with cur := u.cur }

/-- R36, R37, R70, R322, R348: BUNDLE_ISSUE and BANK_CONFLICT_RETRY are the core's cycle in which a context presents its bundle,
or presents the accesses that were refused; at any other time the event cannot happen. A scratchpad line that the parity
rebuilds, the other banks of its group reading clean, costs its context a freeze cycle, which is counted; it counts as
corrected when the error log writes it or loses it, not while its entry waits (R348). -/
def Sys2Proof.Claim.PresentationsHappen : Prop :=
  ∀ k c s,
    let v := s.preview k
    (cycleReady s k = true → (s.ctx k c).part = none → presentsIn v k c = true →
      exec (.bundleIssue k c .clean) s = .next (s.cycleBody k (s.edge k)) ∧
      ∀ ln, readsLine v k c ln = true → v.rebuildable k.toNat ln = true →
        exec (.bundleIssue k c (.rebuilt ln)) s = .next ((s.cellErr k c (.rebuilt ln)).cycleBody k (s.edge k))) ∧
    (∀ ln, let t := s.cellErr k c (.rebuilt ln)
      let waits := s.errorLog.open = true ∧ (s.late.any (fun e => e.log == .error) = true ∨
        spanOpen (s.storeOpen none) (s.errorLog.slot 32) 32 = false)
      (t.ctx k c).stall = true ∧ t.counter (16 * k.toNat + 2) = s.counter (16 * k.toNat + 2) + 1 ∧
      (¬ waits → t.counter 2065 = s.counter 2065 + 1 ∧ t.counter (16 * k.toNat + 6) = s.counter (16 * k.toNat + 6) + 1) ∧
      (waits → t.counter 2065 = s.counter 2065 ∧ t.counter (16 * k.toNat + 6) = s.counter (16 * k.toNat + 6)) ∧
      (s.errorLog.open = false ∨ waits → t.mem = s.mem)) ∧
    ((s.ctx k c).run = .running → (s.ctx k c).part = none → (s.ctx k c).stopReq = false → (s.ctx k c).stall = true →
      judge s k c = .frozen .ok) ∧
    (cycleReady s k = true → (s.ctx k c).part ≠ none → presentsIn v k c = true →
      exec (.bankConflictRetry k c) s = .next (s.cycleBody k (s.edge k))) ∧
    (cycleReady s k = false ∨ presentsIn v k c = false → (∀ err, exec (.bundleIssue k c err) s = .fault .notEnabled) ∧
      exec (.bankConflictRetry k c) s = .fault .notEnabled)

/-- R36: which context is primary after a cycle (for a matrix op see R196). It stays so while it issues without Y, or presents a bundle that
faults or makes a debug stop; otherwise primacy passes to the next ready context, the first of c + 1, c + 2 and c + 3 that
is ready, where there is one. -/
def Sys2Proof.Claim.PrimacyPasses : Prop :=
  ∀ (s : State) k,
    let p := (s.core k).primary
    let u := (allCtxs.map fun c => (c, judge s k c)).foldl (fun t cv => t.settle k cv.1 cv.2) s
    let heir := (nextReady s k p).getD p
    (∀ c, nextReady s k c =
      if (judge s k (c + 1)).ready then some (c + 1) else if (judge s k (c + 2)).ready then some (c + 2)
      else if (judge s k (c + 3)).ready then some (c + 3) else none) ∧
    ((s.issueStage k).core k).primary = match judge u k p with
      | .go b => if (u.serveBundle k p b {} false).2.2 && !b.y then p else heir
      | .fault _ _ => p
      | .stop _ _ => p
      | _ => heir

/-- R36, R37, R70: a bundle merges only when none of its core-wide slots is used and all of its line accesses are served,
and otherwise does nothing; a primary's bundle, alone in its cycle, that is refused an access performs those served and
does not issue. -/
def Sys2Proof.Claim.BundlesMerge : Prop :=
  ∀ (s : State) k c ph used b,
    let as := accsOf (plansOf (opsOf b) (s.present k c b.len))
    let served := (ph.serveAll [] 0 (as.map (·.1))).2
    (judge s k c = .go b → (∃ w ∈ wideSlots b, w ∈ used) → s.mergePart k c ph used = (s, false)) ∧
    (judge s k c = .go b → (∀ w ∈ wideSlots b, w ∉ used) →
      s.mergePart k c ph used = ((s.serveBundle k c b ph true).2.1, (s.serveBundle k c b ph true).2.2)) ∧
    ((s.ctx k c).part = none → served.length ≠ as.length →
      s.serveBundle k c b ph true = (ph, s, false) ∧
      ∃ q t, s.serveBundle k c b ph false = ((ph.serveAll [] 0 (as.map (·.1))).1, t, false) ∧
        (t.ctx k c).part = some q ∧ q.served = served ∧ (t.ctx k c).pc = (s.ctx k c).pc) ∧
    ((s.ctx k c).part = none → served.length = as.length → (s.serveBundle k c b ph true).2.2 = true ∧
      (s.serveBundle k c b ph false).2.2 = true)

/-- R69: the banks of a cycle. A write takes its line's data bank and its group's parity bank; a read takes its data bank,
or, where that is taken, the group's other data banks and the parity bank, or nothing for a line already read; an access
that finds them taken is refused. -/
def Sys2Proof.Claim.BanksServe : Prop :=
  ∀ (p : Banks) (a : LAcc),
    let b := a.line % 32
    let g := b / 4
    let busy (n : Nat) := n ∈ p.taken
    let others (n : Nat) := (n = 4 * g ∨ n = 4 * g + 1 ∨ n = 4 * g + 2 ∨ n = 4 * g + 3 ∨ n = 32 + g) ∧ n ≠ b
    (a.wr = true → (busy b ∨ busy (32 + g) → p.serve a = none) ∧
      (¬ busy b → ¬ busy (32 + g) → p.serve a = some { p with taken := b :: (32 + g) :: p.taken })) ∧
    (a.wr = false → (a.line ∈ p.read → p.serve a = some p) ∧
      (a.line ∉ p.read → ¬ busy b → p.serve a = some ⟨b :: p.taken, a.line :: p.read⟩) ∧
      (a.line ∉ p.read → busy b → (∀ n, others n → ¬ busy n) → ∃ q, p.serve a = some q ∧ q.read = a.line :: p.read ∧
        ∀ n, n ∈ q.taken ↔ n ∈ p.taken ∨ others n) ∧
      (a.line ∉ p.read → busy b → (∃ n, others n ∧ busy n) → p.serve a = none))

/-- R115: a sync word is met when all the flags it names are set, or with ANY one of them; a bundle whose word is not met
does not issue; passing with CLR clears the named flags but those that were set in this very cycle. -/
def Sys2Proof.Claim.SyncWordsHold : Prop :=
  ∀ (x : Ctx) (w : Word),
    let named (f : Nat) := f / 16 = w.toNat / 2 ^ 30 ∧ w.getLsbD (14 + f % 16) = true
    (w.getLsbD 12 = false → (syncMet x w = true ↔ ∀ f, f < 64 → named f → x.flags.getLsbD f = true)) ∧
    (w.getLsbD 12 = true → (syncMet x w = true ↔ ∃ f, f < 64 ∧ named f ∧ x.flags.getLsbD f = true)) ∧
    (w.getLsbD 13 = false → x.passSync (some w) = x) ∧
    (w.getLsbD 13 = true → ∀ f, f < 64 →
      ((x.passSync (some w)).flags.getLsbD f = true ↔ x.flags.getLsbD f = true ∧ ¬ (named f ∧ x.setNow.getLsbD f = false))) ∧
    ∀ (s : State) k c bs b b', s.ctx k c = x → decode bs = .ok b → b.sync = some w → syncMet x w = false →
      judgeBundle s k c bs ≠ .go b'

/-- R112, R149, R152: the pc after a bundle is the next bundle's address, unless a transfer or a loop's next pass says otherwise; a
format write comes into force after its fourth bundle (R155). -/
def Sys2Proof.Claim.BundlesAdvance : Prop :=
  ∀ x : Ctx,
    (x.loop = none → x.endBundle.pc = x.npc) ∧ x.endBundle.bundles = x.bundles + 1 ∧
    (∀ l, x.loop = some l → x.npc ≠ l.stop → x.endBundle.pc = x.npc ∧ x.endBundle.loop = some l) ∧
    (∀ l n i, x.loop = some l → x.npc = l.stop → l.counts = [n] → l.idx = [i] →
      (i + 1 < n → x.endBundle.pc = l.body ∧ x.endBundle.loop = some { l with idx := [i + 1] }) ∧
      (n ≤ i + 1 → x.endBundle.pc = l.stop ∧ x.endBundle.loop = none)) ∧
    (∀ v n, x.loop = none → x.fmtPend = [(v, n + 1)] →
      (n = 0 → x.endBundle.fmts = v ∧ x.endBundle.fmtPend = []) ∧
      (n ≠ 0 → x.endBundle.fmts = x.fmts ∧ x.endBundle.fmtPend = [(v, n)]))

/-- R36, R256: the core's cycle, the forced pass of primacy after RUNMAX and the fault of the pre-emption bound each come
when they are due. -/
def Sys2Proof.Claim.CycleEventsHappen : Prop :=
  ∀ k s,
    (cycleReady s k = true → exec (.issueCycle k) s = .next (s.cycleBody k (s.die (dieOf k)).cycle)) ∧
    (runmaxDue s k = true → ∃ d, (s.core k).heir = some d ∧
      exec (.runmaxExpiry k) s = .next (s.modCore k fun y => { y with primary := d, primCycles := 0, heir := none })) ∧
    ((s.core k).runmax.toNat ≤ (s.core k).primCycles → (s.core k).heir.isSome = true → runmaxDue s k = true ∧
      exec (.issueCycle k) s = .fault .notEnabled) ∧
    (∀ c, pmbDue s k c = true → ∃ t, exec (.pmbExpiry k c) s = .next t ∧ (t.ctx k c).preempt = false ∧
      (∃ n f, (n, f) ∈ (t.ctx k c).pendFaults ∧ f.code = 0x0E) ∧ t.mem = s.mem ∧ (t.ctx k c).scal = (s.ctx k c).scal)

/-- R20, R21, R347: a tick counts GCC, and each die's clock makes its edge: always when the die is not stretched, one edge
in 50 lost in stage 1, and for a sag, which counts its ticks until it is met, one lost by the fiftieth. That no tick comes
before a die at 120 °C has reset the module, at which tick a sag is met, and that two lost edges are 50 apart then too, is
the model's reading (log 35). -/
def Sys2Proof.Claim.ClockTicks : Prop :=
  ∀ s, ((∃ d, 16 * 120 ≤ (s.die d).temp) → exec .gccTick s = .fault .notEnabled) ∧
    (tickReady s = true → ∃ t, exec .gccTick s = .next t ∧ t.gcc = s.gcc + 1 ∧ t.mem = s.mem ∧ t.cores = s.cores ∧
    ∀ d, ((s.die d).stage = 0 → (s.die d).sagTicks = 0 →
        (t.die d).cycle = (s.die d).cycle + 1 ∧ (t.die d).sinceLoss = (s.die d).sinceLoss + 1) ∧
      ((s.die d).stage ≠ 0 ∨ 50 ≤ (s.die d).sagTicks → 49 ≤ (s.die d).sinceLoss →
        (t.die d).cycle = (s.die d).cycle ∧ (t.die d).sinceLoss = 0) ∧
      ((s.die d).sinceLoss < 49 → (t.die d).cycle = (s.die d).cycle + 1) ∧
      ((t.die d).cycle = (s.die d).cycle + 1 →
        (t.die d).sagTicks = if (s.die d).sagTicks = 0 then 0 else (s.die d).sagTicks + 1))

/-- R38, R39, R66, R248: a fixed-latency result lands in its register with its flags, a vector result in the lanes named,
and stays in flight for the others, its flags landing with the last. That a vector lands lane by lane, at any moment
named, is the model's reading (log 15). -/
def Sys2Proof.Claim.FixedLatencyLands : Prop :=
  ∀ (s : State) k c n (lanes : BitVec 16) p, (s.ctx k c).part = none → (s.ctx k c).pend[n]? = some p →
    ((∀ cl r, p.dest ≠ .v cl r ∧ p.dest ≠ .m cl r) → exec (.fixedLatencyLanding k c n lanes) s =
      .next (((s.modCtx k c fun x => { x with pend := x.pend.eraseIdx n }).land k c p.dest p.val p.lanes p.poison).orFlags k c p.flags)) ∧
    ((∃ cl r, p.dest = .v cl r ∨ p.dest = .m cl r) → lanes &&& p.lanes ≠ 0 →
      (p.lanes &&& ~~~lanes = 0 → exec (.fixedLatencyLanding k c n lanes) s =
        .next (((s.modCtx k c fun x => { x with pend := x.pend.eraseIdx n }).land k c p.dest p.val (lanes &&& p.lanes) p.poison).orFlags
          k c p.flags)) ∧
      (p.lanes &&& ~~~lanes ≠ 0 → exec (.fixedLatencyLanding k c n lanes) s =
        .next ((s.modCtx k c fun x => { x with pend := lset x.pend n { p with lanes := p.lanes &&& ~~~lanes } }).land k c p.dest
          p.val (lanes &&& p.lanes) p.poison)))

/-- R33, R38, R66, R142, R191: a scoreboarded result that has arrived lands in its scalar or work register, or in the lanes
of its vector register that nothing replaced, with its flags; a cancelled one lands only its flags. -/
def Sys2Proof.Claim.ScoreboardLands : Prop :=
  ∀ (s : State) k c n b, (s.ctx k c).part = none → (s.ctx k c).sbs[n]? = some b → b.arrived = true →
    let u := s.modCtx k c fun x => { x with sbs := x.sbs.eraseIdx n }
    (b.cancelled = true → exec (.scoreboardLanding k c n) s = .next (u.orFlags k c b.flags)) ∧
    (∀ e, b.cancelled = false → b.dest = .s e → b.poison = 0 →
      exec (.scoreboardLanding k c n) s = .next ((u.land k c (.s e) b.val 0xFFFF 0).orFlags k c b.flags)) ∧
    (∀ w, b.cancelled = false → b.dest = .w w → exec (.scoreboardLanding k c n) s =
      .next ((u.modCtx k c fun x => { x with
        works := ains x.works w.toNat (b.val.setWidth 64)
        rPoison := x.rPoison.filter (· != keyW w.toNat) }).orFlags k c b.flags)) ∧
    (∀ cl r lanes, b.cancelled = false → b.dest = .v cl r lanes → exec (.scoreboardLanding k c n) s =
      .next ((u.land k c (.v cl r) b.val lanes b.poison).orFlags k c b.flags))

/-- R160, R165: WAITGCC's freeze ends once GCC has reached its value, and a landed line that no run will pop gives its
queue entry back. -/
def Sys2Proof.Claim.WaitsEnd : Prop :=
  ∀ (s : State) k,
    (∀ c v, (s.ctx k c).waitGcc = some v →
      (v.toNat ≤ s.gcc.toNat → exec (.waitgccWake k c) s = .next (s.modCtx k c fun x => { x with waitGcc := none })) ∧
      (s.gcc.toNat < v.toNat → exec (.waitgccWake k c) s = .fault .notEnabled)) ∧
    (∀ q pre e post, (s.core k).laq q = pre ++ e :: post → (∀ d ∈ pre, (d.dropped && d.landed) = false) →
      e.dropped = true → e.landed = true →
      exec (.laqEntryFree k q) s = .next (s.modCore k fun x => { x with laqs := ains x.laqs q.toNat (pre ++ post) }))

/-! ### Translation and fetch -/

/-- R310, R311, R313: a walk that ends brings its leaf into the TLB, which ends every walk of its page; a failure is kept
for the accesses that wait for it, and for no other. -/
def Sys2Proof.Claim.WalksComplete : Prop :=
  ∀ (s : State) k va, walkReady s k va = true →
    let page := va.toNat / 65536
    ∃ t, exec (.tlbWalkComplete k va .clean) s = .next t ∧ t.mem = s.mem ∧ (t.core k).ctxs = (s.core k).ctxs ∧
      (∀ e, s.walk (s.core k).tenant (page * 65536) = .ok e → e ∈ (t.core k).tlb ∧
        ∀ w ∈ (t.core k).walks, e.covers (w.page * 65536) = false) ∧
      (∀ d, s.walk (s.core k).tenant (page * 65536) = .error d → (t.core k).tlb = (s.core k).tlb ∧
        (∀ w ∈ (t.core k).walks, w.page ≠ page) ∧
        (∀ w ∈ (s.core k).walks, w.page = page → ∀ n ∈ w.waiters, (t.core k).failed n page = some d) ∧
        ∀ n, (∀ w ∈ (s.core k).walks, w.page = page → n ∉ w.waiters) → (t.core k).failed n page = (s.core k).failed n page)

/-- R310, R312: what a walk finds: a leaf of 1 GiB, 2 MiB or 64 KiB that is present, aligned, has no reserved bit set and is
not both writable and executable; no root entry, or a leaf that is both. -/
def Sys2Proof.Claim.WalkReadsLeaf : Prop :=
  ∀ (s : State) t (va : Nat), s.poison = [] → (s.tenant t).ttroot.getLsbD 0 = true →
    let base (e : Dword) := (e.extractLsb' 12 36).toNat * 4096
    let entry (b sh n : Nat) := rdDword s.mem (b + 8 * (va / 2 ^ sh % n))
    let good (e : Dword) := e.getLsbD 0 = true ∧ e.extractLsb' 5 7 = 0 ∧ e.extractLsb' 48 16 = 0
    let node (e : Dword) := good e ∧ e.getLsbD 1 = false
    let leaf (e : Dword) (lg : Nat) := good e ∧ e.getLsbD 1 = true ∧ base e % 2 ^ lg = 0 ∧ (e.getLsbD 3 && e.getLsbD 4) = false
    let found (e : Dword) (lg : Nat) : Except (Nat × Nat) Tlb :=
      .ok ⟨va / 2 ^ lg * 2 ^ lg, lg, base e, e.getLsbD 2, e.getLsbD 3, e.getLsbD 4⟩
    let e0 := entry (((s.tenant t).ttroot.extractLsb' 12 36).toNat * 4096) 39 512
    let e1 := entry (base e0) 30 512
    let e2 := entry (base e1) 21 512
    let e3 := entry (base e2) 16 32
    (e0.getLsbD 0 = false → s.walk t va = .error (0, 0)) ∧
    (node e0 → leaf e1 30 → s.walk t va = found e1 30) ∧
    (node e0 → node e1 → leaf e2 21 → s.walk t va = found e2 21) ∧
    (node e0 → node e1 → node e2 → leaf e3 16 → s.walk t va = found e3 16) ∧
    (node e0 → good e1 → e1.getLsbD 1 = true → (e1.getLsbD 3 && e1.getLsbD 4) = true → s.walk t va = .error (1, 1))

/-- R209, R311 to R313: a TLB leaf that covers an address translates it where it grants the access and the tenant may reach
the place; it refuses one it does not grant with kind 2; an address of 2^48 or more is never translated, whose level 0 is
the model's reading (log 21); a party whose walk has failed takes that failure, any other asks for a walk. -/
def Sys2Proof.Claim.TranslationRules : Prop :=
  ∀ (s : State) k u t va need,
    (2 ^ 48 ≤ va → s.xlate k u t va need = .bad 0 3) ∧
    (∀ e, va < 2 ^ 48 → (s.core k).tlb.find? (fun e => e.covers va) = some e →
      (e.grants need = false → ∃ l, s.xlate k u t va need = .bad l 2) ∧
      (e.grants need = true → s.reach t (e.pa + va % 2 ^ e.lg) = true →
        s.xlate k u t va need = .ok (e.pa + va % 2 ^ e.lg)) ∧
      (e.grants need = true → s.reach t (e.pa + va % 2 ^ e.lg) = false → ∃ l, s.xlate k u t va need = .bad l 3)) ∧
    (va < 2 ^ 48 → (s.core k).tlb.find? (fun e => e.covers va) = none →
      ((s.core k).failed u (va / 65536) = none → s.xlate k u t va need = .miss (va / 65536)) ∧
      ∀ d, (s.core k).failed u (va / 65536) = some d → s.xlate k u t va need = .bad d.1 d.2)

/-- R108, R340, R341: a block that arrives and verifies enters the fetch buffer as plain code; one whose tag fails is kept as
fault 0x06. A segment passes its check when its signature block is on the tenant's verified list, or when PUB's hash is the
tenant's, SIG verifies over DIGEST and DIGEST is that of the segment's bytes; it then stands on the list. Otherwise it
fails; that it does where its signature block cannot be read is the model's reading (log 26). -/
def Sys2Proof.Claim.FetchVerifies : Prop :=
  ∀ (s : State) k c,
    let g := (s.ctx k c).seg
    let own := (s.core k).tenant
    (∀ (blk : BitVec 38) code tag, fetchReady s k c blk.toNat = true →
      let va := g.codeBase + 1024 * blk.toNat
      s.fetchRead k c va (Min.min 1024 (g.codeEnd - va)) = .ok code → s.fetchRead k c (g.codeEnd + 16 * blk.toNat) 16 = .ok tag →
      let who := (s.ctx k c).fetches k c
      let bs := s.fetchBytes who code
      let tg := bs.2.fetchBytes who tag
      let got := Config.gcmOpen (s.tenant own).codeKey
        (BitVec.ofNat 96 (g.segid.toNat + g.kgen.toNat * 2 ^ 32 + blk.toNat * 2 ^ 64)) bs.1 (BitVec.ofNat 128 (leNat tg.1))
      ∃ t, exec (.fetchComplete k c blk .clean) s = .next t ∧ t.mem = s.mem ∧ ¬ blk.toNat ∈ (t.ctx k c).fetchMiss ∧
        (∀ pt, got = some pt → blk.toNat ∈ (t.ctx k c).blocks ∧ (t.ctx k c).code = wrBytes (s.ctx k c).code va pt) ∧
        (got = none → (aget (t.ctx k c).fetchFail blk.toNat { code := 0 }).code = 0x06 ∧ (t.ctx k c).code = (s.ctx k c).code)) ∧
    (∀ who at_, (∀ p ∈ at_, s.sure who p.1 p.2 = true) →
      s.fetchBytes who at_ = (at_.flatMap fun p => rdBytes s.mem p.1 p.2, s)) ∧
    (checkReady s k c = true → s.nextErrs = [] → ∃ t, exec (.segmentCheck k c) s = .next t ∧ t.mem = s.mem ∧
      (t.ctx k c).pc = (s.ctx k c).pc ∧ (t.ctx k c).scal = (s.ctx k c).scal ∧
      ((t.ctx k c).segOk = true ∨ (t.ctx k c).segFail = true) ∧
      (s.vread own (g.va.toNat + g.sigOff) 1024 = none → (t.ctx k c).segFail = true) ∧
      ∀ sb, s.vread own (g.va.toNat + g.sigOff) 1024 = some sb →
        let field (off n : Nat) := leNat ((sb.drop off).take n)
        let id : Word := BitVec.ofNat 32 (field 4 4)
        let kgen : Word := BitVec.ofNat 32 (field 8 4)
        let digest : BitVec 384 := BitVec.ofNat 384 (field 64 48)
        let pub : BitVec 768 := BitVec.ofNat 768 (field 112 96)
        let sig : BitVec 768 := BitVec.ofNat 768 (field 208 96)
        ((id, kgen, digest) ∈ (s.tenant own).verified → (t.ctx k c).segOk = true) ∧
        ((id, kgen, digest) ∉ (s.tenant own).verified → ∀ bs, s.vread own g.va.toNat g.sigOff = some bs →
          let right := Config.sha384 (leBytes 96 pub.toNat) = (s.tenant own).signHash ∧
            Config.ecdsaVerifyDigest pub sig digest = true ∧ Config.sha384 bs = digest
          (right → (t.ctx k c).segOk = true ∧ (id, kgen, digest) ∈ (t.tenant own).verified) ∧
          (¬ right → (t.ctx k c).segFail = true)))

/-! ### Global accesses at their homes -/

/-- R80, R90, R92 to R94: a DRAM request is served once no earlier access of its context is ordered before it and none of
its tenant with an earlier deadline waits at the controller; a request to another home needs only the order, and in a
scratchpad the engine phase of its line's bank. An error that is corrected in flight is counted and changes nothing else;
an uncorrectable one poisons its word (R322). -/
def Sys2Proof.Claim.RequestsPerform : Prop :=
  ∀ (s : State) n r, s.reqs[n]? = some r →
    (serveReady s n = true →
      exec (.memRequestService n .clean) s = .next ({ s with reqs := s.reqs.eraseIdx n }.perform r)) ∧
    (∀ w a, serveReady s n = true → ((∃ z sx, r.kind = .load z sx) ∨ ∃ q, r.kind = .line q) → r.words[w]? = some a →
      homeOf a = .dram → s.errorLog.open = false →
      (∃ t, exec (.memRequestService n (.corrected w)) s = .next t ∧ t.mem = s.mem ∧ t.poison = s.poison ∧
        t.reqs = s.reqs.eraseIdx n ∧ t.counter 2065 = s.counter 2065 + 1) ∧
      (∃ t, exec (.memRequestService n (.bad w)) s = .next t ∧ t.mem = s.mem ∧ t.poisoned a 8 = true ∧
        t.reqs = s.reqs.eraseIdx n)) ∧
    (homeReady s n = true →
      exec (.globalAccessPerform n .clean) s =
        .next (({ s with reqs := s.reqs.eraseIdx n }.engTake (spmLines r.pa r.len)).perform r)) ∧
    (homeOf r.pa ≠ .dram → ∀ err, exec (.memRequestService n err) s = .fault .notEnabled)

/-- R94: no access of a context performs before an earlier one to a common byte, one of its class, or one that a fence
between them orders. That a fence comes after the accesses of its own bundle is the model's reading (log 73). -/
def Sys2Proof.Claim.OrderedAccessesWait : Prop :=
  ∀ (s : State) m n a r, s.reqs[m]? = some a → s.reqs[n]? = some r → m < n → a.core = r.core → a.ctx = r.ctx →
    ((a.pa < r.pa + r.len ∧ r.pa < a.pa + a.len) ∨ (a.cls = r.cls ∧ a.pos < r.pos) ∨
      (∃ f ∈ (s.ctx r.core r.ctx).fences, a.pos ≤ f.pos ∧ f.pos < r.pos ∧ f.mask.getLsbD a.cls.toNat = true ∧
        f.mask.getLsbD r.cls.toNat = true)) →
    ∀ err, exec (.memRequestService n err) s = .fault .notEnabled ∧ exec (.globalAccessPerform n err) s = .fault .notEnabled

/-- R77, R92, R93, R213, R214: a store to DRAM or an accumulator store writes its bytes at its home and no others, stamping
apart, and they stand in memory where it is the last write to them; a load or a pushed line that can miss no write changes no memory and brings its context, or its queue entry, the
bytes there. -/
def Sys2Proof.Claim.HomesAnswer : Prop :=
  ∀ (s : State) r, (homeOf r.pa = .dram ∨ isAcc r.pa = true) →
    (∀ bs, r.kind = .store bs → s.stampOn = false →
      (Lasts s r.who r.pa bs.length → ∀ i, i < bs.length → some (rd (s.perform r).mem (r.pa + i)) = bs[i]?) ∧
      (∀ a, ¬ (r.pa ≤ a ∧ a < r.pa + bs.length) → rd (s.perform r).mem a = rd s.mem a)) ∧
    (∀ z sx b, r.kind = .load z sx → r.record = false → s.sure r.who r.pa r.len = true →
      b ∈ (s.ctx r.core r.ctx).sbs → b.id = r.id → (∀ d ∈ (s.ctx r.core r.ctx).sbs, d.id = r.id → d = b) →
      (s.perform r).mem = s.mem ∧ ∃ b' ∈ ((s.perform r).ctx r.core r.ctx).sbs, b'.id = r.id ∧ b'.dest = b.dest ∧
        b'.arrived = true ∧ b'.val = (extend z sx (rdNat s.mem r.pa r.len)).setWidth 512 ∧
        b'.poison = if s.poisoned r.pa r.len then 1 else 0) ∧
    (∀ (q : Cl) (j : Nat) (e : LaqEntry), r.kind = .line q → r.record = false → r.len = 64 → s.sure r.who r.pa 64 = true →
      ((s.core r.core).laq q)[j]? = some e → e.id = r.id → (∀ (i : Nat) (d : LaqEntry), i < j → ((s.core r.core).laq q)[i]? = some d → d.id ≠ r.id) →
      (s.perform r).mem = s.mem ∧ (((s.perform r).core r.core).laq q)[j]? =
        some { e with line := some (rdLine s.mem r.pa), poison := s.poisoned r.pa 64 })

/-- R93, R94, R96 to R98: what a read may return. Where no write to its bytes is one it may miss, and none to come is one
it may return, an indivisible read returns memory's bytes. Otherwise it misses some of the writes it may miss, each as a
whole, and finds each byte as the last write left it that it does not miss, or finds a write to come; after one write to
bytes whose other writes a reader must see, the reader finds the new bytes, or the old ones unless the write happens before
it. This form of a read, memory with missed writes beside it, is the model's choice (log 11), as is that a write to come is
returned only where it is promised (log 42). What a context did, in the classes of its release or of the release's mask,
happens before the accesses of a context that acquired from it. -/
def Sys2Proof.Claim.ReadsReturnWrites : Prop :=
  (∀ (s : State) q pa n, s.sure q pa n = true → s.see q pa n = (rdBytes s.mem pa n, s)) ∧
  (∀ (s : State) q pa n, (s.see q pa n).2.mem = s.mem ∧
    ∃ miss : Past → Bool,
      let found (a : Nat) : Byte := match (((s.missable q pa n).filter fun e => ahas e.cells a).takeWhile miss).getLast? with
        | some e => aget e.cells a 0
        | none => rd s.mem a
      ((∀ p ∈ s.promises, p.hits pa n = false) → (s.see q pa n).2.pasts = s.pasts ∧
        ∀ i, i < n → (s.see q pa n).1[i]? = some (found (pa + i))) ∧
      ∃ cells : List Host.Cell, (cells = [] ∨ ∃ p ∈ s.promises, p.hits pa n = true ∧ cells = p.cells) ∧
        ∀ i, i < n → (s.see q pa n).1[i]? = some (aget cells (pa + i) (found (pa + i)))) ∧
  (∀ (s : State) w q pa bs, s.stampOn = false → 0 < bs.length → s.sure q pa bs.length = true → Lasts s w pa bs.length →
    let t := s.writeBy w pa bs
    rdBytes t.mem pa bs.length = bs ∧
    ((t.see q pa bs.length).1 = bs ∨ (t.see q pa bs.length).1 = rdBytes s.mem pa bs.length) ∧
    (w.before q = true → (t.see q pa bs.length).1 = bs)) ∧
  (∀ (s : State) (r a : Req) m v m' hs i (e e' : Past), r.kind = .strel v → r.rel = some m → isAcc r.pa = true →
    inScope r.scope r.core r.ctx (Req.who a) = true → inScope a.scope a.core a.ctx r.who = true →
    s.pastCtr ∈ hs → s.pasts[i]? = some e → (e.who.path = .loc ∨ e.who.path = .glob) → e.who.core = r.core →
    e.who.ctx = r.ctx → e.who.pos < r.pos → e.who.cls &&& (m ||| clsBit r.cls) ≠ 0 →
    ((s.perform r).acquire a.who a.scope m' hs a.id).pasts[i + 1]? = some e' →
    s.pastCtr ∈ aget (s.perform r).heads r.pa [] ∧
    ∀ q : Who, q.path = .glob → q.core = a.core → q.ctx = a.ctx → a.pos < q.pos → q.cls &&& (m' ||| clsBit a.cls) ≠ 0 →
      e'.known q = true)

/-- R82, R324: a line that has come lands in its queue entry; with an uncorrectable error it lands poisoned. -/
def Sys2Proof.Claim.LinesLand : Prop :=
  ∀ (s : State) k q n e, ((s.core k).laq q)[n]? = some e → e.line.isSome = true → e.landed = false →
    exec (.loadLineLands k q n false) s = .next (s.modCore k fun x =>
      { x with laqs := ains x.laqs q.toNat (lset ((s.core k).laq q) n { e with landed := true }) }) ∧
    ∃ t, exec (.loadLineLands k q n true) s = .next t ∧
      (t.core k).laq q = lset ((s.core k).laq q) n { e with landed := true, poison := true } ∧ (t.core k).ctxs = (s.core k).ctxs

/-- R93, R139, R140: a spill whose places translate and are free of in-use bits and of landings under way writes each entry
it moves at BASE + 8j, and no other byte; the entry stands in memory where this is the last write to its bytes. A fill, whose
reads can miss no write, sets each entry it moves to the word there and no other scalar, an entry read poisoned holding
poison. BOT follows, and the context presents its bundle again. Where a place has since come to be one that takes fault
0x12, nothing moves, and the bundle that is presented again finds it. -/
def Sys2Proof.Claim.WindowTransfers : Prop :=
  ∀ (s : State) k c spill bot, s.nextErrs = [] → xferReady s k c = true → (s.ctx k c).xfer = some (spill, bot) → bot < 2 ^ 32 →
    let x := s.ctx k c
    let need : Need := if spill then .write else .read
    let js := xferEntries (Min.min x.bot.toNat bot) (Max.max x.bot.toNat bot)
    let moves (j cell : Nat) : Prop :=
      j ∈ js ∧ ∃ pa, s.xlate k (ctxWaiter c) (s.core k).tenant (x.bsaBase + 8 * j) need = .ok pa ∧ s.cell pa = cell
    (∀ f, xferCheck { s with cur := (k, c) } x need js = .fault f →
      exec (.spillFillComplete k c) s = .next (s.modCtx k c fun x => { x with xfer := none })) ∧
    (xferCheck { s with cur := (k, c) } x need js = .ok →
    ∃ t, exec (.spillFillComplete k c) s = .next t ∧ (t.ctx k c).bot.toNat = bot ∧ (t.ctx k c).xfer = none ∧
      (t.ctx k c).fb = x.fb ∧ (t.ctx k c).pc = x.pc ∧
      (spill = true → (t.ctx k c).scal = x.scal ∧
        (s.stampOn = false →
          (∀ j a d off, moves j a → homeOf a = .spm d off → ahas (s.core (BitVec.ofNat 7 d)).inuse (off / 4096) = false) →
          (∀ j a, moves j a → (∀ i b, moves i b → i ≠ j → a + 8 ≤ b ∨ b + 8 ≤ a) → Lasts s (x.xferWho k c) a 8 →
            rdNat t.mem a 8 = (aget x.scal (16 + j % 256) 0).toNat) ∧
          ∀ z, (∀ j a, moves j a → z < a ∨ a + 8 ≤ z) → rd t.mem z = rd s.mem z)) ∧
      (spill = false → t.mem = s.mem ∧
        (js.length ≤ 256 → ∀ j a, moves j a → (∀ i b, moves i b → s.sure (x.xferWho k c) b 8 = true) →
          aget (t.ctx k c).scal (16 + j % 256) 0 = rdDword s.mem a ∧
          (t.ctx k c).sPoison.contains (16 + j % 256) = s.poisoned a 8) ∧
        ∀ e, (∀ j ∈ js, e ≠ 16 + j % 256) → aget (t.ctx k c).scal e 0 = aget x.scal e 0))

/-- R41, R158: an instance of a co-resident launch whose members have all arrived, and whose writes are done, completes:
every live member that waits for it goes on. -/
def Sys2Proof.Claim.BarriersComplete : Prop :=
  ∀ (s : State) lid sc k n, s.barInstance lid sc k = some n → s.coResident lid = true →
    ∃ t, exec (.barrierComplete lid sc k) s = .next t ∧ t.mem = s.mem ∧ t.reqs = s.reqs ∧
      (∀ m ∈ s.barMembers lid sc k, (s.ctx (BitVec.ofNat 7 m.1) (BitVec.ofNat 2 m.2)).launch = lid →
        (s.ctx (BitVec.ofNat 7 m.1) (BitVec.ofNat 2 m.2)).barWait = some (sc, n) →
        (t.ctx (BitVec.ofNat 7 m.1) (BitVec.ofNat 2 m.2)).barWait = none)

/-! ### Engines -/

/-- R85, R87, R89, R100, R102, R221, R223: a channel with no command running starts the next one of its queue, once its
XFENCE's accesses have performed, its tick has come and a BULK one has an engine, with the guard that was armed for it; a
CPSEND whose port is unusable then has no line left to copy and reports RILLERR. -/
def Sys2Proof.Claim.CopyStarts : Prop :=
  ∀ (s : State) k ch cmd rest, ((s.core k).chan ch).run = none → ((s.core k).chan ch).queue = cmd :: rest →
    (s.performed cmd.after = true → (∀ v, cmd.kind = .timed v → v.toNat ≤ s.gcc.toNat) →
      (nestBulk cmd.nest = true → (s.bulkRuns (dieOf k) (s.core k).tenant).length < 4) → (s.ctx k cmd.ctx).preempt = false →
      ((∀ p, cmd.kind = .send p → s.portOpen p (s.core k).tenant = true) →
        ∃ t, exec (.copyCommandStart k ch) s = .next t ∧ ((t.core k).chan ch).queue = rest ∧
          ((t.core k).chan ch).run = some ⟨cmd, 0, [], ((s.core k).chan ch).armNext, none, [], []⟩ ∧
          ((t.core k).chan ch).armNext = none ∧ t.mem = s.mem ∧ (t.core k).ctxs = (s.core k).ctxs) ∧
      (∀ p, cmd.kind = .send p → s.portOpen p (s.core k).tenant = false →
        ∃ t r, exec (.copyCommandStart k ch) s = .next t ∧ ((t.core k).chan ch).run = some r ∧ r.cmd = cmd ∧
          r.lo = nestTotal cmd.nest ∧ ((t.core k).chan ch).rillErr = true ∧ t.mem = s.mem)) ∧
    (s.performed cmd.after = false → exec (.copyCommandStart k ch) s = .fault .notEnabled) ∧
    (∀ v, cmd.kind = .timed v → s.gcc.toNat < v.toNat → exec (.copyCommandStart k ch) s = .fault .notEnabled)

/-- R84, R221 to R223: the piece a command copies next lies in one source line and one destination line, at the addresses
of its iteration. Its bytes, zeros or those of its source, go to its destination and nothing else of memory changes: to a
local address in every receiving core (for CPY and CPYT the channel's own), to a global address, or to a peer, which may
refuse the write and then LANDERR is set. They stand in memory where this is the last write to them (R93), no later
iteration has written them and the command reads none of them as a source. A destination line refused by the window check is dropped with LANDERR; a line
whose translation fails stops the channel. -/
def Sys2Proof.Claim.CopyMovesBytes : Prop :=
  ∀ (s : State) k ch r p, s.servable k ch = some (r, p) → s.copyTurn k ch r = true → s.stampOn = false → s.saves = [] →
    let n := r.cmd.nest
    let w : Who := { r.cmd.who k ch with iter := p.j }
    (r.done r.lo < nestLen n → r.lo ≤ p.j ∧ p.j < nestTotal n ∧ 0 < p.len ∧ r.done p.j + p.len ≤ nestLen n ∧
      p.sa = (nestSrc n r.cmd.src p.j + r.done p.j) % 2 ^ 64 ∧ p.da = (nestDst n r.cmd.dst p.j + r.done p.j) % 2 ^ 64 ∧
      p.da % 64 + p.len ≤ 64 ∧ (nestZsrc n = false → p.sa % 64 + p.len ≤ 64)) ∧
    (∀ f, p.src = .stop f → ∃ t, exec (.copyLine k ch .clean) s = .next t ∧
      ((t.core k).chan ch).run = some { r with stop := some { f with chan := some ch } }) ∧
    ∀ bs, ((p.src = .zero ∧ bs = List.replicate p.len 0) ∨ ∃ c, p.src.cell s k = some c ∧ p.src.isPeer = false ∧
        s.sure w c p.len = true ∧ s.poisoned c p.len = false ∧ bs = rdBytes s.mem c p.len) →
      let open_ (cell : Nat) : Prop := Lasts s w cell p.len ∧
        (∀ i, i < p.len → r.later p.j ((p.da :: r.cmd.destVas s k cell).map (· + i)) = false) ∧
        ∀ v ∈ r.cmd.sourceVas s k cell, ∀ i, i < p.len → r.cmd.covers (v + i) = false
      let moved (t : State) (cells : List Nat) : Prop := (∀ c ∈ cells, rdBytes t.mem c p.len = bs) ∧
        (∀ a, (∀ c ∈ cells, a < c ∨ c + p.len ≤ a) → rd t.mem a = rd s.mem a) ∧
        ((t.core k).chan ch).run = some (r.step p.j p.len)
      (∀ off, p.dst = .spm off → off + p.len ≤ 0x600000 →
        ((r.cmd.receivers k).length = 1 ∨ nestSloc n = true ∨ nestZsrc n = true) →
        (∀ d ∈ r.cmd.receivers k, (s.core d).owned (s.core k).tenant = true ∧
          ahas (s.core d).inuse (off / 4096) = false ∧ open_ (spmPa d.toNat off)) →
        ∃ t, exec (.copyLine k ch .clean) s = .next t ∧ moved t ((r.cmd.receivers k).map fun d => spmPa d.toNat off)) ∧
      (∀ pa, p.dst = .phys pa → (∀ q off, homeOf pa ≠ .peer q off) →
        (∀ d off, homeOf pa = .spm d off → ahas (s.core (BitVec.ofNat 7 d)).inuse (off / 4096) = false) → open_ pa →
        ∃ t, exec (.copyLine k ch .clean) s = .next t ∧ moved t [pa]) ∧
      (∀ c, p.dst = .peer c → open_ c → ∃ t, exec (.copyLine k ch .clean) s = .next t ∧
        (moved t [c] ∨ (t.mem = s.mem ∧ ((t.core k).chan ch).landErr = true))) ∧
      (p.dst = .drop → ∃ t, exec (.copyLine k ch .clean) s = .next t ∧ t.mem = s.mem ∧
        ((t.core k).chan ch).landErr = true ∧ ((t.core k).chan ch).run = some (r.step p.j p.len))

/-- R19, R84, R85, R220: a piece of a command whose nest writes zeros to local memory goes, in its channel's turn and when
the engine phase has its bank, to a scratchpad line whose in-use bit is clear: its bytes, and no others, become zero, where
this is the last write to them (R93). -/
def Sys2Proof.Claim.CopyWritesZeros : Prop :=
  ∀ (s : State) k ch r, ((s.core k).chan ch).run = some r → r.stop = none → r.cmd.kind = .cpy →
    nestZsrc r.cmd.nest = true → nestDloc r.cmd.nest = true → nestBulk r.cmd.nest = false →
    nestTotal r.cmd.nest = 1 → r.lo = 0 → r.prog = [] → s.stampOn = false →
    let da := r.cmd.dst.toNat
    let m := Min.min (64 - da % 64) (nestLen r.cmd.nest)
    ahas (s.core k).inuse (da / 4096) = false → (s.core k).owned (s.core k).tenant = true →
    s.engOk (spmLines (spmPa k.toNat da) m) = true → s.copyTurn k ch r = true →
    ∃ t, exec (.copyLine k ch .clean) s = .next t ∧
      (Lasts s { r.cmd.who k ch with iter := 0 } (spmPa k.toNat da) m →
        ∀ i, i < m → rd t.mem (spmPa k.toNat (da + i)) = 0) ∧
      (∀ a, ¬ (spmPa k.toNat da ≤ a ∧ a < spmPa k.toNat da + m) → rd t.mem a = rd s.mem a) ∧
      ∃ r', ((t.core k).chan ch).run = some r' ∧ r'.cmd = r.cmd ∧ r'.done 0 = m

/-- R90, R102, R223, R297: a command all of whose iterations are done leaves its channel and sets its done flag for the
run that issued it; the bulk engines' slot follows GCC, and what was written to the slot table is in force from the next
frame on. -/
def Sys2Proof.Claim.CopyEnds : Prop :=
  ∀ (s : State),
    (∀ k ch r f, ((s.core k).chan ch).run = some r → nestTotal r.cmd.nest ≤ r.lo → r.cmd.done = some f →
      (s.ctx k r.cmd.ctx).inRun r.cmd.runId = true →
      ∃ t, exec (.copyComplete k ch) s = .next t ∧ ((t.core k).chan ch).run = none ∧ t.mem = s.mem ∧
        (t.ctx k r.cmd.ctx).flags = (s.ctx k r.cmd.ctx).flags ||| (1#64 <<< f.toNat)) ∧
    (∀ d, (s.die d).slot ≠ s.gcc.extractLsb' 6 6 →
      ∃ t, exec (.bulkFrameSlot d) s = .next t ∧ (t.die d).slot = s.gcc.extractLsb' 6 6 ∧ t.cores = s.cores ∧
        (s.late = [] → t.mem = s.mem) ∧
        (s.gcc.extractLsb' 6 6 ≠ 0 → (t.die d).slots = (s.die d).slots ∧ (t.die d).slotPend = (s.die d).slotPend) ∧
        (s.gcc.extractLsb' 6 6 = 0 → (t.die d).slotPend = [] ∧
          ((s.die d).slotPend = [] → (t.die d).slots = (s.die d).slots) ∧
          ∀ i v, (s.die d).slotPend = [(i, v)] → aget (t.die d).slots i 0 = v))

/-- R100, R195, R197: a command waits while an earlier one that has beats to do, or an ACCRD that has rows to land, holds a
part it needs: the array, the loader, or a latch that one of them writes; and for the accesses its XFENCE covers. The first that can start has its first beat in the
next cycle. That a LATCH may start beside an earlier MMA with neither its loader nor its latch is the model's reading
(log 52). -/
def Sys2Proof.Claim.MatrixStarts : Prop :=
  ∀ (s : State) k pre cmd post, (s.core k).mx = pre ++ cmd :: post → (∀ e ∈ pre, e.started = true ∧ e.id ≠ cmd.id) →
    let shares (e : MxCmd) : Prop := (e.kind.onArray = true ∧ cmd.kind.onArray = true) ∨
      (e.kind.onLoader = true ∧ cmd.kind.onLoader = true) ∨
      ∃ l a b, e.kind.latchUse = some (l, a) ∧ cmd.kind.latchUse = some (l, b) ∧ (a = true ∨ b = true)
    let ended (e : MxCmd) : Prop := e.kind.beats ≤ e.beat ∧
      ((∃ a row n tgt, e.kind = .accrd a row n tgt) → e.next ≤ (s.core k).cycle)
    cmd.started = false →
    (s.performed cmd.after = true → (∀ e ∈ pre, ended e ∨ ¬ shares e) →
      ∃ t, exec (.matrixCommandStart k) s = .next t ∧ t.mem = s.mem ∧
        (t.core k).mx = pre ++ { cmd with started := true, next := (s.core k).cycle + 1 } :: post) ∧
    (post = [] → s.performed cmd.after = false ∨ (∃ e ∈ pre, ¬ ended e ∧ shares e) →
      exec (.matrixCommandStart k) s = .fault .notEnabled)

/-- R198, R206: a beat of ACCZ puts its row's access into the pipeline, eight cycles ahead, and changes no memory; the
access clears one row of 1,024 bytes of the accumulator store, and nothing else of memory. -/
def Sys2Proof.Claim.AcczClearsRow : Prop :=
  ∀ (s : State) k cmd row n, (s.core k).mx = [cmd] → cmd.kind = .accz row n → cmd.due (s.core k).cycle = true →
    s.poison = [] →
    let o : AccOp := ⟨(s.core k).cycle + 8, cmd.id, cmd.runId, cmd.who k, .put (row + cmd.beat) 0 false (List.replicate 256 0), 0⟩
    let pa := accPa k.toNat ((row + cmd.beat) * 1024)
    (∃ t c', exec (.accRowBeat k .clean) s = .next t ∧ t.mem = s.mem ∧ (t.core k).accPipe = (s.core k).accPipe ++ [o] ∧
      (t.core k).mx = [c'] ∧ c'.beat = cmd.beat + 1 ∧ c'.kind = cmd.kind) ∧
    (∀ i, i < 1024 → rd (s.accAccess k o).mem (pa + i) = 0) ∧
    (∀ a, ¬ (pa ≤ a ∧ a < pa + 1024) → rd (s.accAccess k o).mem a = rd s.mem a)

/-- R62, R77, R198, R206 to R208: the accumulator accesses of a core's cycle are those of the pipeline that are due, none
before its time; words are stored or added to what the row holds; what ACCRD reads, converted, lands in the scratchpad one
cycle later. -/
def Sys2Proof.Claim.PipelineDrains : Prop :=
  ∀ (s : State) k,
    (∀ b, (∀ o ∈ (s.core k).accPipe, (s.core k).cycle < o.due) → s.accAccesses k b = s) ∧
    (s.poison = [] →
      (∀ (o : AccOp) row col add ws, o.act = .put row col add ws →
        (∀ i w, ws[i]? = some w → rdWord (s.accAccess k o).mem (accWordPa k.toNat row col + 4 * i) =
          (accumulate add (rdWord s.mem (accWordPa k.toNat row col + 4 * i)) w).1) ∧
        (∀ a, ¬ (accWordPa k.toNat row col ≤ a ∧ a < accWordPa k.toNat row col + 4 * ws.length) →
          rd (s.accAccess k o).mem a = rd s.mem a)) ∧
      (∀ (o : AccOp) row addr fmts tgt, o.act = .get row addr fmts tgt →
        (s.accAccess k o).mem = s.mem ∧ ∃ bs, bs.length = 256 * tgtBytes tgt ∧
          ((s.accAccess k o).core k).accPipe = (s.core k).accPipe ++ [{ o with due := o.due + 1, act := .land addr bs }] ∧
          (s.sure o.who (accWordPa k.toNat row 0) 1024 = true → bs = (List.range 256).flatMap fun c =>
            leBytes (tgtBytes tgt) (accConv fmts tgt (rdWord s.mem (accWordPa k.toNat row c))).1)) ∧
      (∀ (o : AccOp) addr bs, o.act = .land addr bs → addr % 64 = 0 → bs.length % 64 = 0 → addr + bs.length ≤ 0x600000 →
        (∀ p, ahas (s.core k).inuse p = false) →
        (∀ i, i < bs.length → rd (s.accAccess k o).mem (spmPa k.toNat (addr + i)) = bs.getD i 0) ∧
        (∀ a, ¬ (spmPa k.toNat addr ≤ a ∧ a < spmPa k.toNat addr + bs.length) → rd (s.accAccess k o).mem a = rd s.mem a)))

/-- R193, R194, R197, R198, R200 to R207: a beat whose lines the engine phase cannot all serve goes on in the next cycle
with those left. One that it can is done and counted: of an MMA or MMAG it puts, eight cycles ahead, each of its rows'
columns' values for the accumulator row they go to, with the flags they raise; MMAG first reads its index list; of a LATCH it fills the image's bytes
of four chunks, transposed by width, and no others; of ACCWR it puts the words of its line, of ACCRD the row to read.
Memory stays as it is. The command's reads can miss no write and nothing is poisoned. A line that the parity rebuilds delays
the beat by a cycle (R322, as log 37 has it met). -/
def Sys2Proof.Claim.MatrixBeatsDone : Prop :=
  ∀ (s : State) k cmd, (s.core k).mx = [cmd] → cmd.due (s.core k).cycle = true → s.poison = [] → (s.core k).latchPoison = [] →
    let lns := linesLeft cmd cmd.lines
    let rho := rowsPerBeat (aFmt cmd.fmts) (bFmt cmd.fmts)
    let served := (s.beatServe k lns).1 = []
    let put (a : AccAct) : AccOp := ⟨(s.core k).cycle + 8, cmd.id, cmd.runId, cmd.who k, a, 0⟩
    let done (t : State) (os : List AccOp) : Prop := t.mem = s.mem ∧ (t.core k).accPipe = (s.core k).accPipe ++ os ∧
      (t.core k).ctxs = (s.core k).ctxs ∧ ∃ c', (t.core k).mx = [c'] ∧ c'.beat = cmd.beat + 1 ∧ c'.id = cmd.id ∧ c'.kind = cmd.kind
    let waits (t : State) : Prop := t.mem = s.mem ∧ (t.core k).accPipe = (s.core k).accPipe ∧
      (t.core k).mx = [{ cmd with left := (s.beatServe k lns).1, next := (s.core k).cycle + 1 }]
    (∀ base st rows b l add colh row cons, cmd.kind = .mma base st rows b l add colh row cons →
      (¬ served → ∃ t, exec (.matrixBeat k .clean) s = .next t ∧ waits t) ∧
      (served → pairOk (aFmt cmd.fmts) (bFmt cmd.fmts) = true → LinesSure s k cmd cmd.lines →
        ∃ t, exec (.matrixBeat k .clean) s = .next t ∧ (t.core k).latches = (s.core k).latches ∧
          done t (beatPuts s k cmd l add colh (row + rho * cmd.beat)
            ((List.range rho).map fun i => Int.toNat (base + (rho * cmd.beat + i : Nat) * st))))) ∧
    (∀ base st list n b l add colh row cons, cmd.kind = .mmag base st list n b l add colh row cons → served →
      LinesSure s k cmd cmd.lines →
      (cmd.list = [] → ∃ t c', exec (.matrixBeat k .clean) s = .next t ∧ t.mem = s.mem ∧ (t.core k).mx = [c'] ∧
        c'.beat = cmd.beat ∧ c'.next = (s.core k).cycle + 1 ∧ (t.core k).accPipe = (s.core k).accPipe ∧
        c'.list = (List.range n).map fun i => rdNat s.mem (spmPa k.toNat (list + 2 * i)) 2) ∧
      (cmd.list ≠ [] → cmd.gather s k = .ok → pairOk (aFmt cmd.fmts) (bFmt cmd.fmts) = true →
        ∃ t, exec (.matrixBeat k .clean) s = .next t ∧
          done t (beatPuts s k cmd l add colh (row + rho * cmd.beat)
            ((List.range rho).map fun i => Int.toNat (base + (cmd.list.getD (rho * cmd.beat + i) 0 : Nat) * st))))) ∧
    (∀ base st l w, cmd.kind = .latch base st l w →
      (¬ served → ∃ t, exec (.loaderBeat k .clean) s = .next t ∧ waits t) ∧
      (served → LinesSure s k cmd cmd.lines →
        ∃ t, exec (.loaderBeat k .clean) s = .next t ∧ done t [] ∧
          let at_ (y : Nat) : Nat := 65536 * l.toNat + (match w with
            | none => y
            | some .w1 => (y % 256) * 256 + y / 256
            | some .w2 => (y / 2 % 128) * 512 + 2 * (y / 256) + y % 2
            | some .w4 => (y / 4 % 256) * 256 + 4 * (y / 1024) + y % 4)
          (∀ c i, 4 * cmd.beat ≤ c → c < 4 * cmd.beat + 4 → i < 256 → c < 256 →
            rd (t.core k).latches (at_ (256 * c + i)) = rd s.mem (spmPa k.toNat (Int.toNat (base + c * st) + i))) ∧
          (∀ z, (∀ c i, 4 * cmd.beat ≤ c → c < 4 * cmd.beat + 4 → i < 256 → z ≠ at_ (256 * c + i)) →
            rd (t.core k).latches z = rd (s.core k).latches z))) ∧
    (∀ addr row n add, cmd.kind = .accwr addr row n add → served →
      s.sure (cmd.who k) (spmPa k.toNat (addr + 1024 * cmd.beat)) 1024 = true →
      ∃ t, exec (.accRowBeat k .clean) s = .next t ∧ done t [put (.put (row + cmd.beat) 0 add ((List.range 256).map fun c =>
        rdWord s.mem (spmPa k.toNat (addr + 1024 * cmd.beat + 4 * c))))]) ∧
    (∀ addr row n tgt, cmd.kind = .accrd addr row n tgt →
      ∃ t, exec (.accRowBeat k .clean) s = .next t ∧
        done t [put (.get (row + cmd.beat) (addr + 256 * tgtBytes tgt * cmd.beat) cmd.fmts tgt)]) ∧
    (∀ base st rows b l add colh row cons ln, cmd.kind = .mma base st rows b l add colh row cons →
      cmd.lines.contains ln = true → s.errorLog.open = false →
      ∃ t c', exec (.matrixBeat k (.rebuilt ln)) s = .next t ∧ (t.core k).mx = [c'] ∧ c'.beat = cmd.beat ∧
        c'.next = (s.core k).cycle + 1 ∧ t.mem = s.mem ∧ (t.core k).accPipe = (s.core k).accPipe)

/-- R63, R66, R101, R102, R105, R198: the A-consumed flag comes once, when the last beat is over and nothing is poisoned that
the command has still to access (log 52); the completion, when it is due and all the command's accesses have been made, lands
its flags (all of them then, as the model chose: log 53) and sets its done flag for the run that issued it. -/
def Sys2Proof.Claim.MatrixEnds : Prop :=
  ∀ (s : State) k cmd f, (s.core k).mx = [cmd] → (s.ctx k cmd.ctx).inRun cmd.runId = true →
    (cmd.beaten = true → cmd.kind.cons = some f → cmd.consumed = false → s.poison = [] →
      ∃ t, exec (.aConsumed k) s = .next t ∧ (t.core k).mx = [{ cmd with consumed := true }] ∧ t.mem = s.mem ∧
        (t.ctx k cmd.ctx).flags = (s.ctx k cmd.ctx).flags ||| (1#64 <<< f.toNat)) ∧
    (cmd.complete (s.core k).cycle = true → cmd.done = some f → (∀ o ∈ (s.core k).accPipe, o.cmd ≠ cmd.id) →
      ∃ t, exec (.matrixCommandDone k) s = .next t ∧ (t.core k).mx = [] ∧ t.mem = s.mem ∧
        (t.ctx k cmd.ctx).arith = (s.ctx k cmd.ctx).arith ||| cmd.flags ∧
        (t.ctx k cmd.ctx).flags = (s.ctx k cmd.ctx).flags ||| (1#64 <<< f.toNat))

/-! ### Launches -/

/-- R28, R289, R290, R292: the scheduler takes the head entry of the next queue with entries while fewer than 64 records of
the tenant are pending. A ring that claims more entries than it has, an entry that cannot be read or is no record address,
or a completion word on a core that is not the tenant's stops the queue. Otherwise the head moves on, and the record becomes a
waiting launch with the next LAUNCHID, or, when a check of R28 fails, ends at once with that check's status in its word; of
a launch whose word an earlier one has lost, the records taken before it that name the word count it as lost (R29). -/
def Sys2Proof.Claim.RecordsTaken : Prop :=
  ∀ (s : State) d t q, s.nextErrs = [] → visitNext s d t = some q → takeReady s d t = true →
    let y := s.queue d t q
    ∃ u, exec (.takeRecord d t) s = .next u ∧ aget (u.die d).rr t.toNat 0 = (q.toNat + 1) % 16 ∧ u.cores = s.cores ∧
      (2 ^ y.log2n.toNat < (s.qtail y - y.head).toNat →
        (u.queue d t q).err = true ∧ (u.queue d t q).head = y.head ∧ u.launches = s.launches ∧ u.mem = s.mem) ∧
      ((s.qtail y - y.head).toNat ≤ 2 ^ y.log2n.toNat →
        let ev := s.vread t (y.base.toNat + 8 * (y.head.toNat % 2 ^ y.log2n.toNat)) 8
        (ev = none → (u.queue d t q).err = true ∧ u.launches = s.launches ∧ u.mem = s.mem) ∧
        ∀ eb, ev = some eb →
          (2 ^ 48 ≤ leNat eb ∨ leNat eb % 64 ≠ 0 → (u.queue d t q).err = true ∧ u.launches = s.launches ∧ u.mem = s.mem) ∧
          ∀ rb, leNat eb < 2 ^ 48 → leNat eb % 64 = 0 → s.vread t (leNat eb) 64 = some rb →
            let r : Line := BitVec.ofNat 512 (leNat rb)
            let st := s.recordCheck t r (ahas y.passes y.head.toNat)
            let word := tailPa (recDonew r)
            let others := if ahas y.passes y.head.toNat = false ∧ (word, t) ∈ s.lostWords then
                s.launches.map fun m => if m.tenant = t then { m with predLost := m.predLost ||| m.naming word } else m
              else s.launches
            (s.ownsCore t (tailCore (recDonew r)) = false →
              (u.queue d t q).err = true ∧ u.launches = s.launches ∧ u.mem = s.mem) ∧
            (s.ownsCore t (tailCore (recDonew r)) = true → (u.queue d t q).head = y.head + 1 ∧
              (u.queue d t q).err = y.err ∧ u.nextLaunch = s.nextLaunch + 1 ∧
              (st = 0 → u.mem = s.mem ∧ ∃ l, u.launches = others ++ [l] ∧ l.id = s.nextLaunch ∧ l.record = r ∧
                l.tenant = t ∧ l.die = d ∧ l.queue = q ∧ l.recordVa.toNat = leNat eb ∧ l.phase = .waiting ∧
                l.pass.isSome = ahas y.passes y.head.toNat) ∧
              (st ≠ 0 → u.launches = others) ∧
              (st ≠ 0 → ahas y.passes y.head.toNat = false → rdWord u.mem word = st.setWidth 32 ∧
                ∀ a, ¬ (word ≤ a ∧ a < word + 4) → rd u.mem a = rd s.mem a)))

/-- R28, R29, R107, R228, R229, R232: a launch waits while the word of a predecessor is zero. Once none is, it is admitted at the
present tick when all their statuses are OK or EMPTY, and otherwise ends with 0x06, PREDFAIL, and runs nothing; a word whose
core changed owner, or whose write was dropped, counts as a failure, also of a pass's launch; one with no units ends with 0x02. A traced launch
advances SC, and so does a pass, which starts after its launch's word with the pass number after that in the trace header,
and selects the units whose entries it can tell are stale. -/
def Sys2Proof.Claim.LaunchesAdmitted : Prop :=
  ∀ (s : State) lid l, s.nextErrs = [] → s.launch lid = some l → l.phase = .waiting →
    let r := l.record
    let pred (i : Nat) (w : BitVec 26) : Prop := (i = 0 ∧ r.getLsbD 479 = true ∧ w = r.extractLsb' 448 26) ∨
      (i = 1 ∧ r.getLsbD 511 = true ∧ w = r.extractLsb' 480 26)
    let lost (i : Nat) (w : BitVec 26) : Prop := l.predLost.getLsbD i = true ∨ (tailPa w, l.tenant) ∈ s.lostWords
    let written (i : Nat) (w : BitVec 26) : Prop := lost i w ∨ rdWord s.mem (tailPa w) ≠ 0
    let good (i : Nat) (w : BitVec 26) : Prop := ¬ lost i w ∧ (rdWord s.mem (tailPa w)).toNat % 256 ∈ [1, 2]
    let word := tailPa (recDonew r)
    let ends (u : State) (st : Word) : Prop := u.launch lid = none ∧
      (l.doneLost = false → s.ownsCore l.tenant (tailCore (recDonew r)) = true → rdWord u.mem word = st ∧
        ∀ a, ¬ (word ≤ a ∧ a < word + 4) → rd u.mem a = rd s.mem a)
    (l.pass = none →
      ((∃ i w, pred i w ∧ ¬ written i w) → exec (.admitLaunch lid) s = .fault .notEnabled) ∧
      ((∀ i w, pred i w → written i w) → (∃ i w, pred i w ∧ ¬ good i w) →
        ∃ u, exec (.admitLaunch lid) s = .next u ∧ ends u 0x06 ∧ u.cores = s.cores) ∧
      ((∀ i w, pred i w → good i w) → recTrace r = false → recW r = 0 → (∀ q ∈ s.running, q.launch ≠ lid) → l.members = [] →
        ∃ u, exec (.admitLaunch lid) s = .next u ∧ ends u 0x02) ∧
      ((∀ i w, pred i w → good i w) → 0 < recW r → (s.die l.die).stage ≠ 2 →
        (recTrace r = true → s.traceBusy = false ∧ s.traceUsable = true) →
        ∃ u l', exec (.admitLaunch lid) s = .next u ∧ u.launch lid = some l' ∧ l'.phase = .admitted ∧
          l'.started = true ∧ l'.tick = s.gcc ∧ u.mem = s.mem ∧ u.cores = s.cores ∧
          (recTrace r = true → u.sc = s.sc + 1 ∧ l'.p = s.sc + 1))) ∧
    let gone : Prop := l.predLost.getLsbD 2 = true ∨ (word, l.tenant) ∈ s.lostWords
    (∀ at_, l.pass = some at_ → (∀ m ∈ s.launches, m.tenant = l.tenant → m.recordVa = l.recordVa → ¬ m.id.toNat < l.id.toNat) →
      (rdWord s.mem word = 0 → ¬ gone → exec (.passStart lid) s = .fault .notEnabled) ∧
      (gone ∨ (rdWord s.mem word ≠ 0 ∧ (rdWord s.mem word).toNat % 256 ∉ [1, 2]) →
        ∃ u, exec (.passStart lid) s = .next u ∧ u.launch lid = none ∧ u.cores = s.cores ∧
          ∀ pa, at_.pa = some pa → isAcc pa = true → pa % 4 = 0 → s.ownsCore l.tenant (accCore pa) = true →
            (rdWord u.mem pa).toNat % 65536 = 0x06) ∧
      ∀ hb us, recTrace r = true → (rdWord s.mem word).toNat % 256 ∈ [1, 2] → ¬ gone → s.traceBusy = false →
        s.traceUsable = true → (s.die l.die).stage ≠ 2 →
        (s.traceTables l (List.range (recW r)) ++ s.traceWords l (List.range (recW r))).all (s.dramOpen (some l.tenant)) = true →
        s.tread l.tenant (recTbuf r) 128 = some hb → s.selection l (leNat (hb.take 8) / 2 ^ 25 % 2 == 1) = some us →
        (∃ u l', exec (.passStart lid) s = .next u ∧ u.launch lid = some l' ∧ l'.phase = .admitted ∧
          l'.passNo.toNat = Min.min (leNat (hb.take 8) / 2 ^ 32 % 2 ^ 16 + 1) 65535 ∧ l'.sel = some us ∧
          u.sc = s.sc + 1 ∧ l'.p = s.sc + 1 ∧ u.mem = s.mem) ∧
        ∀ x, x ∈ us ↔ x < recW r ∧ (leNat (hb.take 8) / 2 ^ 25 % 2 = 1 ∨ ∃ bs, s.tread l.tenant (recTbuf r + 128 * (x + 1)) 128 = some bs ∧
          ((parseEntry bs).all = true ∨ ∃ g ∈ (parseEntry bs).runs, ∃ h, g.1 ≤ h ∧ h ≤ g.2 ∧
            (parseEntry bs).screc < (s.stampOf h).toNat)))

/-- R31, R32, R41, R293, R294: a free core that a persistent launch needs starts all the launch's contexts on it; one that a
dispatch launch needs starts them on the launch's next units, one each while there are any; a co-resident launch starts all
its contexts at once, a dispatch one unit by unit over its cores' contexts in order. -/
def Sys2Proof.Claim.CoresAssigned : Prop :=
  ∀ (s : State) k l, assignReady s k = true → firstFor s k = some l → s.launch l.id = some l →
    let n := recCtxs l.record
    let starts (u : State) (j : CoreId) (c : CtxId) (v : Option Nat) : Prop := (u.ctx j c).run = .starting ∧
      (u.ctx j c).launch = l.id ∧ (u.ctx j c).clmask = recMask l.record c.toNat ∧ (u.ctx j c).unit = v.map (BitVec.ofNat 24)
    ∃ u, exec (.coreAssign k) s = .next u ∧ u.mem = s.mem ∧ u.gcc = s.gcc ∧
      (recCores l.record = false → (u.core k).cycle = (s.die (dieOf k)).cycle) ∧
      (recCores l.record = false → recPers l.record = true → ∀ c : CtxId, c.toNat < n → starts u k c none) ∧
      (recCores l.record = false → recPers l.record = false → l.sel = none →
        (∀ c : CtxId, c.toNat < n → l.next + c.toNat < recW l.record → starts u k c (some (l.next + c.toNat))) ∧
        ∃ l', u.launch l.id = some l' ∧ l'.next = Min.min (l.next + n) (Max.max l.next (recW l.record))) ∧
      (recCores l.record = true → recPers l.record = true → l.sel = none →
        ∀ j ∈ recCset l.record, ∀ c : CtxId, c.toNat < n → starts u (BitVec.ofNat 7 j) c none) ∧
      (recCores l.record = true → recPers l.record = false → l.sel = none →
        ∀ x j, x < recW l.record → (recCset l.record)[x / n]? = some j →
          starts u (BitVec.ofNat 7 j) (BitVec.ofNat 2 (x % n)) (some x))

/-- R31, R68, R318, R353: a context for which a fault is pending takes that first, at its segment's address. Another whose header and entry are read, as it must see them, and valid starts at its entry with its
scalars set: the unit, its x and y, PARAM, W, the LAUNCHID and the pass number; a malformed header takes fault 0x0C,
DETAIL 2. -/
def Sys2Proof.Claim.ContextsStart : Prop :=
  ∀ (s : State) k c l, s.nextErrs = [] → startReady s k c = true → s.launch (s.ctx k c).launch = some l →
    (∀ n f rest, (s.ctx k c).pendFaults = (n, f) :: rest → exec (.contextStart k c) s =
      .next ((s.modCtx k c fun x => { x with pendFaults := rest }).takeFault k c
        { f with pc := some (BitVec.ofNat 48 (recSeg l.record)) })) ∧
    ∀ ha ea, (s.ctx k c).pendFaults = [] →
    (s.startWords k c).all (s.dramOpen (some (s.core k).tenant)) = true →
    s.fetchRead k c (recSeg l.record) 64 = .ok ha →
    s.fetchRead k c (recSeg l.record + 0x40 + 4 * recEntry l.record) 4 = .ok ea →
    (∀ p ∈ ha ++ ea, s.sure ((s.ctx k c).fetches k c) p.1 p.2 = true) →
    let bytes (at_ : List (Nat × Nat)) := leNat (at_.flatMap fun p => rdBytes s.mem p.1 p.2)
    let h : Line := BitVec.ofNat 512 (bytes ha)
    let pc := recSeg l.record + bytes ea
    let g := parseHeader (BitVec.ofNat 48 (recSeg l.record)) h
    let v := ((s.ctx k c).startUnit.getD 0).toNat
    (h.extractLsb' 0 32 = 0x4753565A → h.extractLsb' 32 8 = 0x01 → recEntry l.record ≤ g.nent.toNat →
      g.inCode pc = true → pc % 8 = 0 →
      ∃ u, exec (.contextStart k c) s = .next u ∧ (u.ctx k c).run = .running ∧ (u.ctx k c).pc.toNat = pc % 2 ^ 48 ∧
        (u.ctx k c).s 1 = BitVec.ofNat 64 v ∧ (u.ctx k c).s 8 = BitVec.ofNat 64 (recParam l.record) ∧
        (u.ctx k c).s 9 = BitVec.ofNat 64 (recW l.record) ∧
        (u.ctx k c).s 10 = (if (s.ctx k c).startUnit.isSome then
          BitVec.ofNat 64 (v % recX l.record + v / recX l.record * 65536) else 0) ∧
        (u.ctx k c).s 11 = l.id.setWidth 64 ∧ (u.ctx k c).s 12 = l.passNo.setWidth 64 ∧
        (u.ctx k c).splo.toNat = g.splo.toNat % 2 ^ 23 / 64 * 64 ∧ u.mem = s.mem) ∧
    (h.extractLsb' 0 32 ≠ 0x4753565A → exec (.contextStart k c) s = .next (s.takeFault k c
      { code := 0x0C, detail := 2, slot := 0xFF, pc := some (BitVec.ofNat 48 (recSeg l.record))
        va := BitVec.ofNat 48 (recSeg l.record + 0x40 + 4 * recEntry l.record) }))

/-- R32, R33, R34, R294: units are dealt in order, each once: to a halted context of a dispatch launch that restarts, and
to an NXU request served in its place of the tick, whose work register takes the unit's index; when none is left it takes
the null flag. That it takes the null flag, too, on a core to which the scheduler deals nothing further (R302) is the model's
reading (log 60). -/
def Sys2Proof.Claim.UnitsDealt : Prop :=
  ∀ (s : State) k c,
    (∀ l n, restartReady s k c = true → s.launch (s.ctx k c).launch = some l → nextUnit l = some n →
      ∃ u l', exec (.dispatchRestart k c) s = .next u ∧ (u.ctx k c).run = .starting ∧
        (u.ctx k c).unit = some (BitVec.ofNat 24 n) ∧ (u.ctx k c).clmask = recMask l.record c.toNat ∧
        u.launch l.id = some l' ∧ l'.next = l.next + 1 ∧ u.mem = s.mem) ∧
    (∀ r l b, nxuOf s k c = some r → nxuReady s r = true → (s.ctx k c).inRun r.runId = true →
      s.launch r.launch = some l → (s.ctx k c).sbs = [b] → b.id = r.sb → b.cancelled = false → (∃ w, b.dest = .w w) →
      l.phase = .admitted →
      (∀ n, nextUnit l = some n → k.toNat ∉ l.dealStop → ∃ u l' w, b.dest = .w w ∧ exec (.nxuService k c) s = .next u ∧
        aget (u.ctx k c).works w.toNat 0 = BitVec.ofNat 64
          (n + n % recX l.record * 2 ^ 24 + n / recX l.record * 2 ^ 40) ∧
        u.launch l.id = some l' ∧ l'.next = l.next + 1 ∧ (u.ctx k c).sbs = []) ∧
      (nextUnit l = none ∨ k.toNat ∈ l.dealStop → ∃ u w, b.dest = .w w ∧ exec (.nxuService k c) s = .next u ∧
        (aget (u.ctx k c).works w.toNat 0).getLsbD 63 = true ∧ (u.ctx k c).sbs = []))

/-- R91, R227, R232, R291: an append writes its entry, then the queue's tail word one greater; a RELAUNCH's entry is
remembered with its status address. -/
def Sys2Proof.Claim.LaunchesAppended : Prop :=
  ∀ (s : State) d t q r rest pa, s.nextErrs = [] → (s.queue d t q).reserved = r :: rest → s.performed r.after = true →
    let y := s.queue d t q
    let tail := s.qtail y
    (s.appendTables t y).all (s.dramOpen (some t)) = true →
    s.vpieces t (y.base.toNat + 8 * (tail.toNat % 2 ^ y.log2n.toNat)) 8 .write = some [(pa, 8)] →
    homeOf pa = .dram → s.dramOpen (some t) pa = true → s.stampOn = false →
    ∃ u, exec (.launchAppend d t q) s = .next u ∧ rdNat u.mem pa 8 = r.record.toNat ∧
      rdWord u.mem (tailPa y.tailw) = tail + 1 ∧ (u.queue d t q).reserved = rest ∧ u.cores = s.cores ∧
      (∀ at_, r.status = some at_ → aget (u.queue d t q).passes tail.toNat ⟨0, none⟩ = at_) ∧
      ∀ a, ¬ (pa ≤ a ∧ a < pa + 8) → ¬ (tailPa y.tailw ≤ a ∧ a < tailPa y.tailw + 4) → rd u.mem a = rd s.mem a

/-- R42, R301: every context of a failing launch that may stop does, and its saved contexts are discarded. -/
def Sys2Proof.Claim.FailingLaunchesStop : Prop :=
  ∀ (s : State) lid, failReady s lid = true →
    ∃ u, exec (.launchFail lid) s = .next u ∧ (∀ m ∈ stopping s lid, (u.ctx m.1 m.2).run = .stopped) ∧
      (∀ v ∈ u.saves, v.launch ≠ lid) ∧ u.gcc = s.gcc

/-- R27, R29, R230, R232, R233: when everything of a launch is done its word is written once: OK, or its failure's status
with, for FAULT, the number of contexts that faulted up to 65,535; the launch is gone. A word whose core is no longer the
tenant's is dropped, which counts as a failure for what waits for it. A pass writes its trace, then its two words: the
number of units selected, and its status with AGAIN and the pass number; a trace write that is not permitted makes a pass
that did not fail one with status 0x07. -/
def Sys2Proof.Claim.LaunchesComplete : Prop :=
  ∀ (s : State) lid l, s.launch lid = some l → completes s l = true → (∀ r ∈ s.running, r.launch ≠ lid) →
    let word := tailPa (recDonew l.record)
    (l.pass = none → recTrace l.record = false →
      let st : Byte := if l.phase = .failing then l.status else if l.sel = some [] then 0x02 else 0x01
      let nflt := if l.phase = .failing ∧ st = 0x07 then Min.min l.faulted.length 65535 else 0
      ∃ u, exec (.completionWrite lid) s = .next u ∧ u.launch lid = none ∧
        (l.doneLost = false → s.ownsCore l.tenant (tailCore (recDonew l.record)) = true →
          rdWord u.mem word = BitVec.ofNat 32 (st.toNat + nflt * 2 ^ 16) ∧
          ∀ a, ¬ (word ≤ a ∧ a < word + 4) → rd u.mem a = rd s.mem a) ∧
        (s.ownsCore l.tenant (tailCore (recDonew l.record)) = false → u.mem = s.mem ∧ (word, l.tenant) ∈ u.lostWords)) ∧
    (l.pass = none → recTrace l.record = true → traceOpen s l = true → s.nextErrs = [] →
      ∃ u, exec (.completionWrite lid) s = .next u ∧ u.launch lid = none ∧ (l.started = true → u.sc = s.sc + 1)) ∧
    (∀ at_, l.pass = some at_ → traceOpen s l = true → recTrace l.record = true → l.started = true → s.nextErrs = [] →
      ∃ u, exec (.passEnd lid) s = .next u ∧ u.launch lid = none ∧ u.sc = s.sc + 1 ∧
        ∀ pa, at_.pa = some pa → isAcc pa = true → pa % 8 = 0 → s.ownsCore l.tenant (accCore pa) = true →
          rdWord u.mem (pa + 4) = BitVec.ofNat 32 ((l.sel.getD []).length) ∧
          (∀ s1, s.writeTrace l = some s1 → rdWord u.mem pa = BitVec.ofNat 32 ((finalStatus l).toNat +
            (if s1.againFor l then 256 else 0) + l.passNo.toNat * 2 ^ 16)) ∧
          (s.writeTrace l = none → l.phase ≠ .failing → rdWord u.mem pa = BitVec.ofNat 32 (0x07 +
            (if s.againFor l then 256 else 0) + l.passNo.toNat * 2 ^ 16))) ∧
    (l.pass ≠ none → exec (.completionWrite lid) s = .fault .notEnabled)


/-! ### Driver commands (spec/14) -/

/-- The events of the seven driver commands, in the order of OP (R299). -/
def commandEvents : List Instr := [.preempt, .resume, .abort, .scrub, .stampreset, .coresave, .coreload]

/-- R299, R300: a record whose OP names no command, whose reserved bits are not zero, or whose fields its OP forbids,
answers BADOP; its other steps do not happen. That BADOP is answered whatever other row of R300 holds too, and that any of
the seven events may take a record whose OP names none, are the model's order and form (log 19). -/
def Sys2Proof.Claim.CommandsRejected : Prop :=
  ∀ (s : State) r rest, s.running = [] → s.cmdQ = r :: rest → s.nextErrs = [] →
    let out : Out := .next (State.resultWord { s with cmdQ := rest } (cmdResw r) 0x20 0)
    ((cmdOp r = 0 ∨ 7 < (cmdOp r).toNat) → ∀ i ∈ commandEvents, exec i s = out) ∧
    (∀ n i, commandEvents[n]? = some i → (cmdOp r).toNat = n + 1 →
      (r.extractLsb' 9 23 ≠ 0 ∨ r.extractLsb' 240 16 ≠ 0 ∨ r.extractLsb' 314 198 ≠ 0 ∨
        (r.getLsbD 8 = true ∧ (n ≠ 3 ∨ r.extractLsb' 4 4 ≠ 0)) ∨ (n = 3 ∧ r.extractLsb' 256 32 = 0)) → exec i s = out) ∧
    (∀ n i, commandEvents[n]? = some i → (cmdOp r).toNat ≠ n + 1 → 1 ≤ (cmdOp r).toNat → (cmdOp r).toNat ≤ 7 →
      exec i s = .fault .notEnabled)

/-- R302: PREEMPT of an admitted launch makes a pre-emption pending for each of its live contexts on a core of CMASK,
with the record address its place gives; once every such context has been saved or has halted, the result word says how
many were saved. -/
def Sys2Proof.Claim.PreemptRuns : Prop :=
  ∀ (s : State),
    (∀ r rest l, s.running = [] → s.cmdQ = r :: rest → cmdBad r = false → cmdOp r = 1 → s.launch (cmdLaunch r) = some l →
      l.tenant = cmdTenant r → l.phase = .admitted → (recCores l.record = true → ∀ k ∈ l.startedCores, k ∈ cmdCores r) →
      s.areaBad r 0xC0000 = false →
      ∃ t l', exec .preempt s = .next t ∧ t.running = [⟨1, l.tenant, l.id, r.extractLsb' 64 128, cmdResw r, 0, false⟩] ∧
        t.cmdQ = rest ∧ t.mem = s.mem ∧ t.launch l.id = some l' ∧ (∀ k ∈ cmdCores r, k ∈ l'.dealStop) ∧
        ∀ m ∈ l.members, m.1 ∈ cmdCores r → m.2 < 4 →
          (s.ctx (BitVec.ofNat 7 m.1) (BitVec.ofNat 2 m.2)).launch = l.id →
          (s.ctx (BitVec.ofNat 7 m.1) (BitVec.ofNat 2 m.2)).live = true →
          (t.ctx (BitVec.ofNat 7 m.1) (BitVec.ofNat 2 m.2)).preempt = true ∧
          (t.ctx (BitVec.ofNat 7 m.1) (BitVec.ofNat 2 m.2)).preemptAddr =
            cmdAddr r + 0x30000 * (4 * ((cmdCores r).filter fun j => j < m.1).length + m.2)) ∧
    (∀ p, s.running = [p] → p.op = 1 → preemptDone s p = true →
      exec .preempt s = .next (State.resultWord { s with running := [] } p.resw 0x01 p.nctx p.launch))

/-- R66, R254, R256, R302, R304: a context that reaches a pmark before its bound stops there with nothing in flight: what was
due by the cycle it stops in has landed, and no arithmetic flag is lost. Once the bound has been reached, it does not. Once it may be saved, its record goes to its address and is counted,
and the core lets the context go. -/
def Sys2Proof.Claim.ContextsSaved : Prop :=
  ∀ (s : State) k c,
    (pmbDue s k c = true → exec (.pmarkStop k c) s = .fault .notEnabled) ∧
    (pmarkDue s k c = true → pmbDue s k c = false → ∃ t, exec (.pmarkStop k c) s = .next t ∧ (t.ctx k c).run = .stopped ∧ (t.ctx k c).pend = [] ∧
      (t.ctx k c).pc = (s.ctx k c).pc ∧ (t.ctx k c).preempt = (s.ctx k c).preempt ∧ t.mem = s.mem ∧
      (∀ p ∈ (s.ctx k c).pend, (t.ctx k c).arith &&& p.flags = p.flags) ∧
      ((∀ p ∈ (s.ctx k c).pend, p.cycle + p.lat ≤ s.edge k ∨ p.bundle + p.lat ≤ (s.ctx k c).bundles) →
        let u := (s.modCore k fun y => { y with cycle := s.edge k }).landDue k c
        (t.ctx k c).scal = (u.ctx k c).scal ∧ (t.ctx k c).areg = (u.ctx k c).areg ∧
          (t.ctx k c).flags = (u.ctx k c).flags)) ∧
    (saveReady s k c = true → s.stampOn = false → ∃ t v, exec (.contextSaved k c) s = .next t ∧ t.saves = s.saves ++ [v] ∧
      v.core = k ∧ v.ctx = c ∧ v.launch = (s.ctx k c).launch ∧ v.addr = (s.ctx k c).preemptAddr ∧
      v.snap.pc = (s.ctx k c).pc ∧ v.snap.scal = (s.ctx k c).scal ∧ v.snap.areg = (s.ctx k c).areg ∧
      v.snap.preds = (s.ctx k c).preds ∧ v.snap.flags = (s.ctx k c).flags ∧ v.snap.nests = (s.ctx k c).nests ∧
      (t.ctx k c).run = .saved ∧ (t.core k).saved = true ∧
      (∀ i, i < v.bytes.length → some (rd t.mem (v.addr + i)) = v.bytes[i]?) ∧
      (∀ a, ¬ (v.addr ≤ a ∧ a < v.addr + v.bytes.length) → rd t.mem a = rd s.mem a) ∧
      ∀ r, s.running = [r] → r.launch = (s.ctx k c).launch → t.running = [{ r with nctx := r.nctx + 1 }])

/-- R91, R305: RESUME of a launch with one saved context whose record is whole brings it back where it stopped, once the ports serve its bytes, with
the flags set since, and answers DONE with a count of 1. -/
def Sys2Proof.Claim.ResumeRuns : Prop :=
  ∀ (s : State) r rest l v, s.running = [] → s.cmdQ = r :: rest → cmdBad r = false → cmdOp r = 2 → s.nextErrs = [] →
    s.launch (cmdLaunch r) = some l → l.tenant = cmdTenant r → l.phase = .admitted → savesOn s l.id (cmdCores r) = [v] →
    s.areaBad r 0xC0000 = false → resumeBusy s r l.id = false →
    rdBytes s.mem (saveSlot r v.core.toNat v.ctx) v.size = v.bytes →
    s.poisoned (saveSlot r v.core.toNat v.ctx) v.size = false →
    spanOpen (s.dramOpen (some (cmdTenant r))) (saveSlot r v.core.toNat v.ctx) v.size = true →
    ∃ t, exec .resume s = .next t ∧ rdWord t.mem (tailPa (cmdResw r)) = 0x10001 ∧
      (∀ u ∈ t.saves, u ∈ s.saves ∧ u.id ≠ v.id) ∧
      (t.ctx v.core v.ctx).run = (if v.snap.begun then .running else .starting) ∧
      (t.ctx v.core v.ctx).pc = v.snap.pc ∧ (t.ctx v.core v.ctx).scal = v.snap.scal ∧
      (t.ctx v.core v.ctx).areg = v.snap.areg ∧ (t.ctx v.core v.ctx).preds = v.snap.preds ∧
      (t.ctx v.core v.ctx).nests = v.snap.nests ∧ (t.ctx v.core v.ctx).fb = v.snap.fb ∧
      (t.ctx v.core v.ctx).flags = v.snap.flags ||| v.pendf

/-- R301: ABORT of a launch that still waits ends it at once, with a result word; any other launch fails, with status
ABORTED unless it is failing already, and the command waits for it. -/
def Sys2Proof.Claim.AbortRuns : Prop :=
  ∀ (s : State) r rest l, s.running = [] → s.cmdQ = r :: rest → cmdBad r = false → cmdOp r = 3 →
    s.launch (cmdLaunch r) = some l → l.tenant = cmdTenant r →
    (l.phase = .waiting → ∃ t, exec .abort s = .next t ∧ t.launch l.id = none ∧ t.running = [] ∧ t.cores = s.cores ∧
      rdWord t.mem (tailPa (cmdResw r)) = 0x01) ∧
    (l.phase = .admitted → ∃ t l', exec .abort s = .next t ∧ t.launch l.id = some l' ∧ l'.phase = .failing ∧
      l'.status = 0x08 ∧ t.running = [⟨3, l.tenant, l.id, 0, cmdResw r, 0, false⟩] ∧ t.mem = s.mem) ∧
    (l.phase = .failing → exec .abort s =
      .next { s with cmdQ := rest, running := [⟨3, l.tenant, l.id, 0, cmdResw r, 0, false⟩] })

/-- R91, R298: SCRUB zeroes its blocks, once the ports serve its writes, and gives them to its tenant, or to none; an area that
is not aligned answers BADADDR. -/
def Sys2Proof.Claim.ScrubRuns : Prop :=
  ∀ (s : State) r rest, s.running = [] → s.cmdQ = r :: rest → cmdBad r = false → cmdOp r = 4 →
    let a := cmdAddr r
    let n := cmdLen r * 0x200000
    let served := spanOpen (s.storeOpen (if cmdNoown r then none else some (cmdTenant r))) a n
    (a % 0x200000 = 0 → a + n ≤ 0x8000000000 → s.stampOn = false → served = false → exec .scrub s = .fault .notEnabled) ∧
    (a % 0x200000 = 0 → a + n ≤ 0x8000000000 → s.stampOn = false → served = true →
      ∃ t, exec .scrub s = .next t ∧ rdWord t.mem (tailPa (cmdResw r)) = 0x01 ∧
        (∀ x, a ≤ x → x < a + n → rd t.mem x = 0 ∧
          t.ownerOf x = if cmdNoown r then none else some (cmdTenant r)) ∧
        (∀ x, ¬ (a ≤ x ∧ x < a + n) → x < 0x8000000000 → rd t.mem x = rd s.mem x ∧ t.ownerOf x = s.ownerOf x)) ∧
    (a % 0x200000 ≠ 0 → exec .scrub s = .next (State.resultWord { s with cmdQ := rest } (cmdResw r) 0x23 0))

/-- R308: STAMPRESET with no traced launch pending sets every stamp and SC to zero, whether stamping is on or not; with one
it answers BUSY. -/
def Sys2Proof.Claim.StampResetRuns : Prop :=
  ∀ (s : State) r rest, s.running = [] → s.cmdQ = r :: rest → cmdBad r = false → cmdOp r = 5 →
    ((∀ l ∈ s.launches, recTrace l.record = false) → s.dramOpen none s.stampBase = true → ∃ t, exec .stampreset s = .next t ∧ t.sc = 0 ∧
      rdWord t.mem (tailPa (cmdResw r)) = 0x01 ∧
      (∀ x, s.stampBase ≤ x → x < s.stampBase + 0x20000000 → rd t.mem x = 0)) ∧
    ((∃ l ∈ s.launches, recTrace l.record = true) →
      exec .stampreset s = .next (State.resultWord { s with cmdQ := rest } (cmdResw r) 0x24 0))

/-- R306: CORESAVE of one saved core copies its scratchpad and accumulator store to its image, and CORELOAD brings them
back. Where in the image they lie is the model's own choice (log 18). -/
def Sys2Proof.Claim.CoreImages : Prop :=
  ∀ (s : State) r rest k, s.running = [] → s.cmdQ = r :: rest → cmdBad r = false → cmdCores r = [k] → MemInv s →
    s.nextErrs = [] → s.stampOn = false → s.areaBad r imgLen = false →
    s.ownsCore (cmdTenant r) (BitVec.ofNat 7 k) = true →
    let a := cmdAddr r
    let j : CoreId := BitVec.ofNat 7 k
    (cmdOp r = 6 → (s.core j).saved = true → (s.core j).accPipe = [] → areaServed (s.storeOpen (some (cmdTenant r))) r = true →
      ∃ t, exec .coresave s = .next t ∧ rdWord t.mem (tailPa (cmdResw r)) = 0x01 ∧
      (t.core j).saved = false ∧ (∀ i, i < 0x600000 → rd t.mem (a + i) = rd s.mem (spmPa k i)) ∧
      (∀ i, i < 0x200000 → rd t.mem (a + imgAcc + i) = rd s.mem (accPa k i))) ∧
    (cmdOp r = 7 → coreFree s j = true → areaServed (s.dramOpen (some (cmdTenant r))) r = true → ∃ t, exec .coreload s = .next t ∧ rdWord t.mem (tailPa (cmdResw r)) = 0x01 ∧
      (t.core j).saved = true ∧ (∀ i, i < 0x600000 → rd t.mem (spmPa k i) = rd s.mem (a + i)) ∧
      (tailCore (cmdResw r) ≠ j → ∀ i, i < 0x200000 → rd t.mem (accPa k i) = rd s.mem (a + imgAcc + i)))

/-- R314: a shootdown whose accesses have drained leaves no translation of its range in the tenant's cores, adds none,
touches no other core, and answers DONE. -/
def Sys2Proof.Claim.ShootdownsRun : Prop :=
  ∀ (s : State) r rest, s.sdQ = r :: rest →
    (sdBad r = false → sdDrained s r = true → ∃ t, exec .shootdown s = .next t ∧ t.sdQ = rest ∧
      rdWord t.mem (tailPa (sdResw r)) = 0x01 ∧
      (∀ k, s.ownsCore (sdTenant r) k = true → ∀ e ∈ (t.core k).tlb, e ∈ (s.core k).tlb ∧
        ¬ (e.va < sdHi r ∧ sdLo r < e.va + 2 ^ e.lg)) ∧
      (∀ k, s.ownsCore (sdTenant r) k = false → t.core k = s.core k)) ∧
    (sdBad r = false → sdDrained s r = false → exec .shootdown s = .fault .notEnabled) ∧
    (sdBad r = true → exec .shootdown s = .next (State.resultWord { s with sdQ := rest } (sdResw r) 0x20 0))

/-- R281, R283: a request for a segment that is in the cache returns its place; a removal takes it out; a segment that
finishes and fits is stored at the lowest free run of its area and cached; one that does not finish is refused. That a
removal's word leaves HIT clear is the model's reading (log 72). -/
def Sys2Proof.Claim.FinisherServes : Prop :=
  ∀ (s : State) r rest bs, s.finQ = r :: rest → finBad r = false → s.finMisplaced r = false → s.flowBody r = some bs →
    s.finOpen r = true → s.nextErrs = [] → s.stampOn = false →
    let t := finTenant r
    let w := tailPa (finResw r)
    (∀ e, (s.tenant t).cached (fnv1a bs) (finMask r) = some e →
      (finRm r = false → ∃ u, exec .finishRequest s = .next u ∧ rdWord u.mem w = 0x101 ∧
        rdWord u.mem (w + 4) = BitVec.ofNat 32 e.off ∧ u.tenants = s.tenants) ∧
      (finRm r = true → ∃ u, exec .finishRemove s = .next u ∧ rdWord u.mem w = 0x01 ∧
        (u.tenant t).cache = (s.tenant t).cache.filter (· != e))) ∧
    ((s.tenant t).cached (fnv1a bs) (finMask r) = none →
      (finRm r = true → ∃ u, exec .finishRemove s = .next u ∧ rdWord u.mem w = 0x2B ∧ u.tenants = s.tenants) ∧
      (∀ n i, finRm r = false → finishSegment bs (finMask r) = .ok n →
        freeRun (s.tenant t).cache (finCbase r) (finClen r) (cdiv n.length 65536) = some i →
        ∃ u, exec .finishRequest s = .next u ∧ rdWord u.mem (w + 4) = BitVec.ofNat 32 i ∧
          (rdWord u.mem w).toNat % 2 ^ 16 = 0x01 ∧ u.segCounter = s.segCounter + 1 ∧
          (∃ e, (u.tenant t).cached (fnv1a bs) (finMask r) = some e ∧ e.off = i ∧ e.cbase.toNat = finCbase r) ∧
          ∀ j, j < (n.sealed bs (s.tenant t).codeKey (1#1 ++ s.segCounter) (s.tenant t).kgen).1.length →
            j < 65536 * finClen r →
            some (rd u.mem (finCbase r + 65536 * i + j)) =
              (n.sealed bs (s.tenant t).codeKey (1#1 ++ s.segCounter) (s.tenant t).kgen).1[j]?) ∧
      (∀ es, finRm r = false → finishSegment bs (finMask r) = .error es →
        ∃ u, exec .finishRequest s = .next u ∧ (rdWord u.mem w).toNat % 2 ^ 16 = 0x29 ∧ u.tenants = s.tenants))

/-! ### Registers of the driver and the tenants -/

/-- R338: a write of a register of a locked set, without a token, changes nothing of it and is logged; that the log names PF0 for a
driver's write is the model's reading (log 32). -/
def Sys2Proof.Claim.LockedWritesDropped : Prop :=
  ∀ (s : State), s.boot.failed = none →
    let dropped (i : Instr) (r : HReg) := s.isLocked r = true →
      exec i s = .next (s.logAccess 0 r.addr.1 (BitVec.ofNat 48 r.addr.2) true false)
    (∀ d t q v, dropped (.queueDescriptorWrite d t q v) (.queue d t q)) ∧
    (∀ k v, dropped (.coreConfigWrite k v) (.core k)) ∧ (∀ d j v, dropped (.slotTableWrite d j v) (.slot d j)) ∧
    (∀ t v, dropped (.ttrootWrite t v) (.ttroot t)) ∧ (∀ r v, dropped (.registerWrite r v) (.plain r)) ∧
    (∀ k c, dropped (.go k c) (.control k c) ∧ dropped (.goStep k c) (.control k c) ∧ dropped (.decline k c) (.control k c)) ∧
    (∀ t v, s.isLocked (.tlock t) = true → exec (.tlockWrite t true v) s =
      .next (s.logAccess (BitVec.ofNat 5 (t.toNat + 1)) 0 0x400 true true)) ∧
    (∀ t v, exec (.tlockWrite t false v) s = .next (s.logAccess (BitVec.ofNat 5 (t.toNat + 1)) 0 0x400 true false))

/-- R288, R297: a write of a queue's descriptor leaves the queue empty, with its reservations discarded, or with ERR and
not enabled where LOG2N is not 4 to 12; a write of a slot-table entry waits for the next frame. -/
def Sys2Proof.Claim.SchedulerRegisters : Prop :=
  ∀ (s : State), s.boot.failed = none →
    (∀ d t q (v : BitVec 128), s.isLocked (.queue d t q) = false → ∃ u, exec (.queueDescriptorWrite d t q v) s = .next u ∧
      u.mem = s.mem ∧ u.cores = s.cores ∧
      let bad := v.getLsbD 52 = true ∧ ¬ (4 ≤ (v.extractLsb' 48 4).toNat ∧ (v.extractLsb' 48 4).toNat ≤ 12)
      u.queue d t q = ⟨v.extractLsb' 0 48, v.extractLsb' 48 4, v.getLsbD 52 && !decide bad, v.getLsbD 53, decide bad,
        v.extractLsb' 64 26, rdWord s.mem (tailPa (v.extractLsb' 64 26)), [], []⟩ ∧
      ∀ t' q', (t', q') ≠ (t, q) → u.queue d t' q' = s.queue d t' q') ∧
    (∀ d j (v : Byte), s.isLocked (.slot d j) = false → exec (.slotTableWrite d j v) s =
      .next (s.modDie d fun x => { x with slotPend := x.slotPend ++ [(j.toNat, v &&& 0x1F)] }))

/-- R295: a write that gives a core with no resident context another owner takes it over and starts zeroing; while it is
resident, zeroing or saved the write changes nothing; zeroing ends with the core's memories at zero. -/
def Sys2Proof.Claim.CoresChangeOwner : Prop :=
  ∀ (s : State) k (v : BitVec 128), s.isLocked (.core k) = false → s.boot.failed = none →
    let change := v.extractLsb' 0 4 ≠ (s.core k).tenant ∨ v.getLsbD 4 ≠ (s.core k).v
    let busy := coreResident s k = true ∨ (s.core k).zbusy = true ∨ (s.core k).saved = true
    (change → busy → exec (.coreConfigWrite k v) s = .next s) ∧
    (change → ¬ busy → ∃ t, exec (.coreConfigWrite k v) s = .next t ∧ (t.core k).tenant = v.extractLsb' 0 4 ∧
      (t.core k).v = v.getLsbD 4 ∧ (t.core k).zbusy = true ∧ t.mem = s.mem ∧ (∀ j, j ≠ k → t.core j = s.core j)) ∧
    (¬ change → 64 ≤ (v.extractLsb' 32 32).toNat → (v.extractLsb' 32 32).toNat ≤ 2 ^ 20 →
      16384 ≤ (v.extractLsb' 64 32).toNat → (v.extractLsb' 64 32).toNat ≤ 2 ^ 24 →
      exec (.coreConfigWrite k v) s =
        .next (s.modCore k fun y => { y with runmax := v.extractLsb' 32 32, pmb := v.extractLsb' 64 32 })) ∧
    ((s.core k).zbusy = true → ∃ t, exec (.zeroingDone k) s = .next t ∧ (t.core k).zbusy = false ∧
      (t.core k).vregs = [] ∧ (t.core k).tags = [] ∧ (t.core k).tlb = [] ∧ (t.core k).tenant = (s.core k).tenant ∧
      (∀ i, i < 0x600000 → rd t.mem (spmPa k.toNat i) = 0) ∧ (∀ i, i < 0x200000 → rd t.mem (accPa k.toNat i) = 0) ∧
      ∀ c, (t.ctx k c).run = .idle)

/-- R310: a write of TTROOT sets the root and empties the TLBs of the tenant's cores, unless a context of the tenant runs
or a command for it does. -/
def Sys2Proof.Claim.RootWrites : Prop :=
  ∀ (s : State) t (v : Dword), s.isLocked (.ttroot t) = false → s.boot.failed = none →
    (tenantBusy s t = true → exec (.ttrootWrite t v) s = .next s) ∧
    (tenantBusy s t = false → ∃ u, exec (.ttrootWrite t v) s = .next u ∧
      (u.tenant t).ttroot = v &&& 0x0000FFFFFFFFF001 ∧ u.mem = s.mem ∧
      (∀ k, s.ownsCore t k = true → (u.core k).tlb = [] ∧ (u.core k).walkFail = []) ∧
      (∀ k, s.ownsCore t k = false → u.core k = s.core k))

/-- R307, R321, R334, R338, R346, R349: a plain register reads back what was written to its writable fields; so do the HDM
decoders of R325, whose fields are the model's choice (log 61). -/
def Sys2Proof.Claim.PlainRegisters : Prop :=
  ∀ (s : State) (v : BitVec 384), s.boot.failed = none →
    let put (r : HostReg) (x : Nat) := s.isLocked (.plain r) = false →
      ∃ u, exec (.registerWrite r v) s = .next u ∧ u.regValue (.plain r) = x ∧ u.mem = s.mem ∧ u.gcc = s.gcc
    put .pkgcfg (v.toNat % 2 ^ 8) ∧ (∀ t, put (.tokenAddr t) (v.toNat % 2 ^ 64) ∧ put (.tokenVal t) (v.toNat % 2 ^ 64) ∧
      put (.tokenSeq t) (v.toNat % 2 ^ 64) ∧ put (.tokenMac t) v.toNat) ∧
    (∀ t (i : BitVec 10), i.toNat < 768 → put (.allowByte t i) (v.toNat % 2 ^ 8)) ∧
    (∀ i, put (.hdm i) (v.toNat % 2 ^ 193)) ∧
    (∀ k c n, put (.breakpoint k c n) (v.toNat % 2 ^ 48 / 8 * 8 + v.toNat % 2)) ∧
    ((∀ l ∈ s.launches, recTrace l.record = false) →
      put .stbase (v.toNat % 2 ^ 39 / 2 ^ 29 * 2 ^ 29 + v.toNat / 2 ^ 63 % 2 * 2 ^ 63)) ∧
    (∀ t, put (.faultRing t) (v.toNat % 2 ^ 53 + (s.tenant t).faultRing.tail.toNat * 2 ^ 64 +
      v.toNat / 2 ^ 96 % 2 ^ 32 * 2 ^ 96 + (s.tenant t).faultRing.lost.toNat * 2 ^ 128)) ∧
    (∃ u, exec (.registerWrite .pwrctl v) s = .next u ∧
      u.cap.toNat = (if 600 ≤ v.toNat % 2 ^ 11 ∧ v.toNat % 2 ^ 11 ≤ 1800 then v.toNat % 2 ^ 11 else s.cap.toNat) ∧
      u.tlim.toNat =
        (if 60 ≤ v.toNat / 2 ^ 16 % 2 ^ 7 ∧ v.toNat / 2 ^ 16 % 2 ^ 7 ≤ 110 then v.toNat / 2 ^ 16 % 2 ^ 7 else s.tlim.toNat) ∧
      u.mem = s.mem)

/-- R320: GO and GO with STEP let a held context go on, DECLINE fails its launch with FAULT; each is ignored where the
context is not held. -/
def Sys2Proof.Claim.GoAndDecline : Prop :=
  ∀ (s : State) k c, s.isLocked (.control k c) = false → s.boot.failed = none →
    ((s.ctx k c).run = .held →
      exec (.go k c) s = .next ((s.freeChans k c).resumeHeld k c false) ∧
      exec (.goStep k c) s = .next ((s.freeChans k c).resumeHeld k c true) ∧
      exec (.decline k c) s = .next (s.failLaunch (s.ctx k c).launch 0x07)) ∧
    ((s.ctx k c).run ≠ .held →
      exec (.go k c) s = .next s ∧ exec (.goStep k c) s = .next s ∧ exec (.decline k c) s = .next s)

/-- R336, R338: a trusted write of 1 to TLOCK locks the tenant's registers and extends meas4 alone; a write of MEASEXT
extends its own register; none below meas6 can be extended so. The bytes that meas4 is extended with are read in log 32. -/
def Sys2Proof.Claim.LocksMeasured : Prop :=
  ∀ (s : State), s.boot.failed = none →
    (∀ t (v : Dword), s.isLocked (.tlock t) = false → v.toNat % 2 = 1 → ∃ u h, exec (.tlockWrite t true v) s = .next u ∧
      (u.tenant t).locked = true ∧ u.mem = s.mem ∧
      aget u.meas 4 0 = Config.sha384 (leBytes 48 (aget s.meas 4 0).toNat ++ leBytes 48 h) ∧
      ∀ n, n ≠ 4 → aget u.meas n 0 = aget s.meas n 0) ∧
    (∀ (n : BitVec 4) (h : BitVec 384),
      (6 ≤ n.toNat → ∃ u, exec (.measext n h) s = .next u ∧
        aget u.meas n.toNat 0 = Config.sha384 (leBytes 48 (aget s.meas n.toNat 0).toNat ++ leBytes 48 h.toNat) ∧
        (∀ m, m ≠ n.toNat → aget u.meas m 0 = aget s.meas m 0) ∧ u.mem = s.mem) ∧
      (n.toNat < 6 → exec (.measext n h) s = .next s))

/-- R336, R338: a token for TTROOT whose sequence number and MAC are right writes it, is counted, and extends meas5 with the
digest of its 24-byte message; a token with a wrong number or MAC sets TERR and does nothing else. -/
def Sys2Proof.Claim.TokensChecked : Prop :=
  ∀ (s : State) t, s.boot.failed = none →
    let x := s.tenant t
    let msg := leBytes 8 x.taddr.toNat ++ leBytes 8 x.tval.toNat ++ leBytes 8 x.tseq.toNat
    let good := x.tseq = x.seq ∧ x.tmac = Config.hmac384 x.tokkey msg
    (good → x.taddr.toNat = 0x10000 + 8 * t.toNat → tenantBusy s t = false → ∃ u, exec (.tgo t) s = .next u ∧
      (u.tenant t).ttroot = x.tval &&& 0x0000FFFFFFFFF001 ∧ (u.tenant t).seq = x.seq + 1 ∧ (u.tenant t).terr = false ∧
      u.measgen = s.measgen + 1 ∧ u.mem = s.mem ∧
      aget u.meas 5 0 =
        Config.sha384 (leBytes 48 (aget s.meas 5 0).toNat ++ leBytes 48 (Config.sha384 msg).toNat) ∧
      ∀ n, n ≠ 5 → aget u.meas n 0 = aget s.meas n 0) ∧
    (¬ good → exec (.tgo t) s = .next (s.modTenant t fun x => { x with terr := true }))

/-- R349, R350: a counter of no tenant, or one whose owner allows it, is answered with its value; one that its owner does
not allow is answered with zero, and the owner's audit ring takes an entry. -/
def Sys2Proof.Claim.CountersRead : Prop :=
  ∀ (s : State) (c : BitVec 13), c.toNat < 6144 → s.boot.failed = none →
    (s.counterOwner c.toNat = none ∨ (∃ t, s.counterOwner c.toNat = some t ∧
        (aget (s.tenant t).allow (c.toNat / 8) 0).getLsbD (c.toNat % 8) = true) →
      exec (.counterRead c) s = .next { s with answers := ⟨leBytes 8 (s.counter c.toNat).toNat, false, false⟩ :: s.answers }) ∧
    (∀ t, s.counterOwner c.toNat = some t → (aget (s.tenant t).allow (c.toNat / 8) 0).getLsbD (c.toNat % 8) = false →
      ∃ u, exec (.counterRead c) s = .next u ∧ u.answers = ⟨leBytes 8 0, false, false⟩ :: s.answers ∧
        (∀ n, u.counter n = s.counter n) ∧
        ((s.tenant t).auditRing.open = true → s.ownerOf ((s.tenant t).auditRing.slot 16) = some t →
          spanOpen (s.storeOpen (some t)) ((s.tenant t).auditRing.slot 16) 16 = true → (∀ e ∈ s.late, e.log ≠ .audit t) →
          (u.tenant t).auditRing = { (s.tenant t).auditRing with tail := (s.tenant t).auditRing.tail + 1 }))

/-! ### Power and reset -/

/-- R20, R347: a sag stretches its die's clock until the supply is restored, and touches no other die. The edge that it
may cost is due from its first tick on, and one whose sag is over stays due until its 50 ticks have passed (log 35). -/
def Sys2Proof.Claim.SuppliesSag : Prop :=
  ∀ (s : State) d, ∃ t u, exec (.supplySag d) s = .next t ∧ exec (.supplyRestored d) s = .next u ∧
    (t.die d).sag = true ∧ (u.die d).sag = false ∧ ((s.die d).sagTicks = 0 → (t.die d).sagTicks = 1) ∧
    ((s.die d).sagTicks ≤ 50 → (u.die d).sagTicks = (s.die d).sagTicks) ∧ (∀ e, e ≠ d → t.die e = s.die e ∧ u.die e = s.die e) ∧
    t.cores = s.cores ∧ u.cores = s.cores ∧ t.mem = s.mem ∧ u.mem = s.mem

/-- R347: at the end of a power window each die goes to stage 1 when the module is over CAP or the die at TLIM, to stage 2
when that lasts for two windows, and back to stage 0 when power and every temperature are low; a die measured at 120 °C
resets the module. The power is free, and so is what a die's sensor reads in a tick (log 35). -/
def Sys2Proof.Claim.PowerWindows : Prop :=
  ∀ (s : State), windowDue s = true →
    ∃ t, exec .powerWindowEnd s = .next t ∧
      let p := s.sample
      let trips := ∃ d, 16 * 120 ≤ (s.die d).temp
      let calm := p.mw ≤ (s.cap.toNat - 50) * 1000 ∧ ∀ e, (s.die e).temp ≤ 16 * (s.tlim.toNat - 5)
      (trips → t.rstcause = 2 ∧ t.gcc = 0 ∧ t.cores = [] ∧ t.launches = []) ∧
      (¬ trips → t.sensors = p ∧ t.window = s.gcc ∧ t.mem = s.mem ∧ t.cores = s.cores ∧
        ∀ d, let hot := s.cap.toNat * 1000 < p.mw ∨ 16 * s.tlim.toNat ≤ (s.die d).temp
          (t.die d).cycle = (s.die d).cycle ∧
          (calm → (t.die d).stage = 0) ∧ (¬ calm → (s.die d).stage = 0 → hot → (t.die d).stage = 1) ∧
          (¬ calm → (s.die d).stage = 0 → ¬ hot → (t.die d).stage = 0) ∧
          (¬ calm → (s.die d).stage ≠ 0 → hot → (s.die d).breach = true → (t.die d).stage = 2) ∧
          (¬ calm → (s.die d).stage ≠ 0 → ¬ hot → (t.die d).stage = (s.die d).stage))

/-- R346 to R348: what a reset leaves: the cause it is read as, the counters but for a power-on reset, nothing of the
module's memory, and host memory as it was; a die below 120 °C resets nothing. That memory reads zero, that a power-on
reset zeroes the counters, and what outlasts a reset beside the fuses, is the model's choice (logs 1, 5 and 36). -/
def Sys2Proof.Claim.ResetsRestore : Prop :=
  (∀ (s : State) i (cause : BitVec 2),
    (i = .powerOnReset ∧ cause = 0) ∨ (i = .driverReset ∧ cause = 1) ∨
      (∃ d, i = .thermalTrip d ∧ 16 * 120 ≤ (s.die d).temp ∧ cause = 2) →
    ∃ t, exec i s = .next t ∧ t.rstcause = cause ∧ t.gcc = 0 ∧ t.cores = [] ∧ t.launches = [] ∧ t.reqs = [] ∧
      t.tenants = [] ∧ t.owners = [] ∧ t.dies = [] ∧ t.measgen = 0 ∧ t.boot.slots = s.boot.slots ∧ t.boot.stage = 0 ∧
      t.counters = (if cause = 0 then [] else s.counters) ∧
      (∀ a, a < 0x080000000000 → rd t.mem a = 0) ∧ (∀ a, 0x080000000000 ≤ a → rd t.mem a = rd s.mem a)) ∧
  ∀ (s : State) d, (s.die d).temp < 16 * 120 → exec (.thermalTrip d) s = .fault .notEnabled

/-! ### Boot, sessions, the host link and the ports -/

/-- R335, R337: an image whose header, hash, revocation and security version pass runs as the next stage where its
signature verifies, and stops boot at its stage where it does not; a wrong magic number or an old version stops boot too;
the last stage fixes the attestation key. What a signature verifies as, and the key that measurements give, are functions
of the machine that no claim here knows (log 38). That a wrong magic number fails boot as a signature
does is the model's reading (log 30). -/
def Sys2Proof.Claim.BootAdvances : Prop :=
  ∀ (s : State) (hdr : BitVec 2048) body, s.boot.stage < 3 → s.boot.failed = none →
    (let slot := (hdr.extractLsb' 36 2).toNat
     let verified := Config.ecdsaVerify (hdr.extractLsb' 512 768) (hdr.extractLsb' 1280 768) (signedBytes hdr body)
     hdr.extractLsb' 0 32 = 0x5A424F54 → (hdr.extractLsb' 32 4).toNat = s.boot.stage → hdr.extractLsb' 38 2 = 0 →
     hdr.extractLsb' 48 16 = 0 → hdr.extractLsb' 96 416 = 0 → (hdr.extractLsb' 64 32).toNat = body.length →
     Config.sha384 (leBytes 96 (hdr.extractLsb' 512 768).toNat) = aget s.boot.slots slot 0 →
     s.boot.revoked.getLsbD slot = false → (aget s.boot.minSvn s.boot.stage 0).toNat ≤ (hdr.extractLsb' 40 8).toNat →
     ∃ t, exec (.bootStage hdr body) s = .next t ∧ t.mem = s.mem ∧
       (verified = true → t.boot.stage = s.boot.stage + 1 ∧ t.boot.failed = none ∧
         (∀ n, n ≠ 2 → n ≠ stageMeas s.boot.stage → aget t.meas n 0 = aget s.meas n 0) ∧
         t.attest = if s.boot.stage = 2 then some (Config.attestKey ((List.range 4).map fun i => aget t.meas i 0))
           else s.attest) ∧
       (verified = false → t.boot.stage = s.boot.stage ∧ t.boot.failed = some s.boot.stage)) ∧
    (hdr.extractLsb' 0 32 ≠ 0x5A424F54 → ∃ t, exec (.bootStage hdr body) s = .next t ∧ t.boot.failed = some s.boot.stage ∧
      t.boot.stage = s.boot.stage ∧ t.mem = s.mem) ∧
    ((aget s.boot.minSvn s.boot.stage 0).toNat > (hdr.extractLsb' 40 8).toNat →
      ∃ t, exec (.bootStage hdr body) s = .next t ∧ t.boot.failed = some s.boot.stage)

/-- R335: a module whose boot has stopped takes no write of its registers, no token and no request, reads its counters as
zero and boots no further; a peer's access is not answered and writes nothing. That the driver's own register writes do
nothing then is the model's reading (log 30). -/
def Sys2Proof.Claim.FailedBootAnswersNothing : Prop :=
  ∀ (s : State) st, s.boot.failed = some st →
    (∀ r v, exec (.registerWrite r v) s = .next s) ∧ (∀ d t q v, exec (.queueDescriptorWrite d t q v) s = .next s) ∧
    (∀ k v, exec (.coreConfigWrite k v) s = .next s) ∧ (∀ t v, exec (.ttrootWrite t v) s = .next s) ∧
    (∀ t, exec (.tgo t) s = .next s) ∧ (∀ f ask, exec (.getMeasurements f ask) s = .next s) ∧
    (∀ f, exec (.keyExchange f) s = .next s) ∧
    (∀ c, exec (.counterRead c) s = .next { s with answers := ⟨leBytes 8 0, false, false⟩ :: s.answers }) ∧
    (∀ p wr a data, (s.port p).up = true → exec (.peerInbound p wr a data) s = .next s) ∧
    ∀ hdr body, exec (.bootStage hdr body) s = .fault .notEnabled

/-- R337 to R339: a function's session gives its tenant a TOKKEY derived from its export key, and the supplied code key
empties the tenant's cache and steps KGEN; the measurements are answered as raw digests, and the certificate chain once
boot has fixed the attestation key. That END_SESSION replaces TOKKEY by a key nobody holds, that a supplied signing key
does the same to the cache, and the chain's bytes are the model's reading (log 31). -/
def Sys2Proof.Claim.SessionsRun : Prop :=
  ∀ (s : State) (t : Tenant), s.boot.failed = none →
    let f : Fn := BitVec.ofNat 5 (t.toNat + 1)
    let fresh (u : State) := (u.tenant t).tokkey = Config.hmac384 (u.fn f).exportKey tokenName ∧ u.sessions = s.sessions + 1 ∧
      u.mem = s.mem
    ((s.fn f).session = false → ∃ u, exec (.keyExchange f) s = .next u ∧ (u.fn f).session = true ∧ fresh u) ∧
    ((s.fn f).session = true →
      (∃ u, exec (.keyUpdate f) s = .next u ∧ (u.fn f).session = true ∧ fresh u) ∧
      (∃ u, exec (.endSession f) s = .next u ∧ (u.fn f).session = false ∧ fresh u) ∧
      exec (.ideKm f) s = .next (s.modFn f fun x => { x with keyed := true, insecure := false }) ∧
      ∀ sign v, ∃ u, exec (.vendorDefinedRequest t sign v) s = .next u ∧ (u.tenant t).kgen = (s.tenant t).kgen + 1 ∧
        (u.tenant t).cache = [] ∧ (u.tenant t).verified = [] ∧
        (if sign then (u.tenant t).signHash = v ∧ (u.tenant t).codeKey = (s.tenant t).codeKey
          else (u.tenant t).codeKey = v.setWidth 256 ∧ (u.tenant t).signHash = (s.tenant t).signHash)) ∧
    (∀ ix : Byte, 1 ≤ ix.toNat → ix.toNat ≤ 16 → exec (.getMeasurements f (.meas ix none)) s =
      .next { s with answers := ⟨leBytes 48 (aget s.meas (ix.toNat - 1) 0).toNat, false, false⟩ :: s.answers }) ∧
    (exec (.getMeasurements f .cert) s =
      match s.attest with
      | some key => .next { s with answers := ⟨Config.certChain key, false, false⟩ :: s.answers }
      | none => .next s)

/-- R326 to R331: host accesses through the DRAM windows. PF0 reaches memory that no tenant owns; a tenant's function
reaches the tenant's own memory by trusted accesses alone; any other access gets the error response and is logged. A
served access waits for its share of the DRAM ports; a read is stated where it can miss no earlier write, and what a write
leaves where it comes last in its bytes' order. That a refused
access leaves one entry in its function's log is the model's reading (log 33). -/
def Sys2Proof.Claim.HostWindows : Prop :=
  ∀ (s : State) (h : HostAcc) (t : Tenant) (data : List Byte) (n : Nat), s.boot.failed = none → s.discards h = false →
    h.cxl = false → data.length = n → 0 < n → h.off.toNat % 64 + n ≤ 64 → h.off.toNat < 0x8000000000 → s.stampOn = false →
    let a := h.off.toNat
    let served := (h.fn = 0 ∧ h.bar = 4 ∧ s.ownerOf a = none ∧ s.dramOpen none a = true) ∨
      (h.fn.toNat = t.toNat + 1 ∧ h.bar = 2 ∧ s.ownerOf a = some t ∧ h.stream = some h.fn ∧ h.tee = true ∧
        s.dramOpen (some t) a = true)
    let refused := (h.fn = 0 ∧ h.bar = 4 ∧ s.ownerOf a ≠ none) ∨
      (h.fn.toNat = t.toNat + 1 ∧ h.bar = 2 ∧ (s.ownerOf a ≠ some t ∨ h.stream ≠ some h.fn ∨ h.tee = false))
    (served →
      (∃ u, exec (.hostWrite h data) s = .next u ∧
        (Lasts s (hostWho h) a n → ∀ i, i < n → some (rd u.mem (a + i)) = data[i]?) ∧
        (∀ x, ¬ (a ≤ x ∧ x < a + n) → rd u.mem x = rd s.mem x) ∧ u.cores = s.cores ∧
        u.answers = if h.posted then s.answers else ⟨[], false, false⟩ :: s.answers) ∧
      (s.nextErrs = [] → s.sure (hostWho h) a n = true → exec (.hostRead h n) s =
        .next { s with answers := ⟨rdBytes s.mem a n, s.poisoned a n, false⟩ :: s.answers })) ∧
    (refused →
      (∃ u, exec (.hostWrite h data) s = .next u ∧ u.mem = (s.logAccess h.fn h.bar h.off true h.tee).mem ∧
        u.fns = (s.logAccess h.fn h.bar h.off true h.tee).fns ∧ u.cores = s.cores ∧
        u.answers = if h.posted then s.answers else ⟨[], false, true⟩ :: s.answers) ∧
      ∃ u, exec (.hostRead h n) s = .next u ∧ u.answers = ⟨List.replicate n 0, true, false⟩ :: s.answers)

/-- R299, R327: a host write of the whole command register queues its record; a stream that failed an integrity check is
insecure, is counted, and has its accesses discarded until it is keyed again. That a discarded access is
not answered is the model's reading (log 33). -/
def Sys2Proof.Claim.HostPages : Prop :=
  ∀ (s : State) (h : HostAcc) (data : List Byte), h.cxl = false →
    (s.boot.failed = none → h.fn = 0 → h.bar = 0 → h.off = 0x10400 → h.stream = none → data.length = 64 →
      ∃ u, exec (.hostWrite h data) s = .next u ∧ u.cmdQ = s.cmdQ ++ [BitVec.ofNat 512 (leNat data)] ∧ u.mem = s.mem) ∧
    (s.discards h = true → hostDest h data.length ≠ none →
      exec (.hostWrite h data) s = .next s ∧ exec (.hostRead h data.length) s = .next s) ∧
    (∀ f, ∃ u, exec (.ideIntegrityFail f) s = .next u ∧ (u.fn f).insecure = true ∧ u.counter 2067 = s.counter 2067 + 1 ∧
      (∀ g, h.stream = some g → g = f → u.discards h = true) ∧ u.mem = s.mem)

/-- R332, R333: a port trains and goes down; a peer's write to a line it may reach is stored, and a line it may not reach
is left alone and read as poisoned. An access it may make waits for its tenant's share of the DRAM ports; a read is
stated where it can miss no earlier write, and what a write leaves where it comes last in its bytes' order. That
accesses come over a port that is up alone, and that a refused line reads as bytes nothing fixes, is the model's
reading (log 34). -/
def Sys2Proof.Claim.PortsServe : Prop :=
  ∀ (s : State) p,
    (∀ peer, exec (.portTrain p peer) s = .next (s.modPort p fun q => { q with up := true, peerid := peer })) ∧
    exec (.portDown p) s = .next (s.modPort p fun q => { q with up := false }) ∧
    (∀ (a : Addr) data, (s.port p).up = true → s.boot.failed = none → 0 < data.length → a.toNat % 64 + data.length ≤ 64 → a.toNat < 0x8000000000 →
      s.stampOn = false →
      ((s.port p).inen = true → s.ownerOf a.toNat = some (s.port p).int →
        s.dramOpen (some (s.port p).int) a.toNat = true →
        (∃ u, exec (.peerInbound p true a data) s = .next u ∧
          (Lasts s (peerWho p) a.toNat data.length → ∀ i, i < data.length → some (rd u.mem (a.toNat + i)) = data[i]?) ∧
          (∀ x, ¬ (a.toNat ≤ x ∧ x < a.toNat + data.length) → rd u.mem x = rd s.mem x)) ∧
        (s.nextErrs = [] → s.sure (peerWho p) a.toNat data.length = true →
          ∃ u, exec (.peerInbound p false a data) s = .next u ∧
            u.answers = ⟨rdBytes s.mem a.toNat data.length, s.poisoned a.toNat data.length, false⟩ :: s.answers)) ∧
      ((s.port p).inen = false ∨ s.ownerOf a.toNat ≠ some (s.port p).int →
        exec (.peerInbound p true a data) s = .next s ∧
        ∃ u bs, exec (.peerInbound p false a data) s = .next u ∧ u.answers = ⟨bs, true, false⟩ :: s.answers ∧
          u.mem = s.mem)) ∧
    (∀ wr a data, (s.port p).up = false → exec (.peerInbound p wr a data) s = .fault .notEnabled)

/-- The opcodes that R126 lists for the VA/VB map, as first and last of a run. -/
def Sys2Proof.Claim.vabListed : List (Nat × Nat) :=
  [(0x04, 0x06), (0x08, 0x0A), (0x0C, 0x0E), (0x10, 0x12), (0x14, 0x16), (0x18, 0x1A), (0x1C, 0x1E), (0x20, 0x22),
    (0x24, 0x26), (0x28, 0x2A), (0x2C, 0x2E), (0x31, 0x32), (0x44, 0x46), (0x48, 0x4A), (0x4C, 0x4E), (0x50, 0x52),
    (0x54, 0x56), (0x58, 0x5A), (0x5C, 0x5E), (0x60, 0x62), (0x64, 0x66), (0x68, 0x6A), (0x6C, 0x6E), (0x70, 0x72),
    (0x74, 0x76), (0x78, 0x7A), (0x7C, 0x7E), (0x80, 0x82), (0x84, 0x86), (0x88, 0x8A), (0x95, 0x96), (0x99, 0x9A),
    (0x9D, 0x9E), (0xA4, 0xA4), (0xA8, 0xA8), (0xAC, 0xAC), (0xB0, 0xB0), (0xB4, 0xB4), (0xB8, 0xB8), (0xBC, 0xBC),
    (0xC0, 0xC0), (0xC8, 0xC8), (0xCC, 0xCC), (0xD0, 0xD0), (0xD4, 0xD4), (0xD8, 0xD8), (0xDC, 0xDC), (0xE0, 0xE0)]

/-! ### Encoding, reset and the whole machine -/


/-- R112, R113, R116 to R131: the bundle that holds one well-formed operation decodes to it alone, whatever follows. -/
def Sys2Proof.Claim.BundlesDecode : Prop :=
  ∀ i bs rest, WellFormed i = true → encodeBundle i = some bs →
    ∃ b, decode (bs ++ rest) = .ok b ∧ b.ops = [(slotOf i, some i)] ∧ b.len = bs.length ∧ b.sync = none ∧ b.p = false ∧
      b.y = false

/-- R122, R125 to R131: an opcode that its map does not list is an illegal operation. -/
def Sys2Proof.Claim.ReservedOpcodesIllegal : Prop :=
  ∀ (w : BitVec 48) ext,
    let o := (w.extractLsb' 40 8).toNat
    (0x25 < o → decodeOp 0 w ext = .error .illegal ∧ decodeOp 1 w ext = .error .illegal) ∧
    (o = 0x07 ∨ 0x11 < o → decodeOp 2 w ext = .error .illegal) ∧ (0x07 < o → decodeOp 3 w ext = .error .illegal) ∧
    (0x0C < o → decodeOp 4 w ext = .error .illegal) ∧ (0x16 < o → decodeOp 5 w ext = .error .illegal) ∧
    (∀ c, c < 8 →
      (o ≠ 0 ∧ (∀ r ∈ Sys2Proof.Claim.vabListed, o < r.1 ∨ r.2 < o) → decodeOp (6 + 4 * c) w ext = .error .illegal ∧
        decodeOp (7 + 4 * c) w ext = .error .illegal) ∧
      (o = 7 ∨ 9 < o → decodeOp (8 + 4 * c) w ext = .error .illegal) ∧
      (8 < o → decodeOp (9 + 4 * c) w ext = .error .illegal))

/-- Log 1: the memory of a step's next state is in canonical form where that of its state is. -/
def Sys2Proof.Claim.StepsKeepMemoryCanonical : Prop := Keeps MemInv

/-- Log 1: reset memory is in canonical form. -/
def Sys2Proof.Claim.ResetMemoryCanonical : Prop := MemInv State.reset

/-! ### Rules stated whole -/

/-- R123: an op word is NOP exactly when all its bits are zero; in the VA/VB map opcode bytes 0x01 to 0x03 are illegal
operations; and NOP does nothing: the run goes on at the next place in program order. -/
def Obligations.NopDoesNothing : Prop :=
  (∀ sl w ext, sl < 38 → ((∃ m, decodeOp sl w ext = .ok (.nop m)) ↔ w = 0)) ∧
  (∀ c (w : BitVec 48) ext, c < 8 → 1 ≤ (w.extractLsb' 40 8).toNat → (w.extractLsb' 40 8).toNat ≤ 3 →
    decodeOp (6 + 4 * c) w ext = .error .illegal ∧ decodeOp (7 + 4 * c) w ext = .error .illegal) ∧
  (∀ m s, s.me.ending = false → exec (.nop m) s = .next (s.modMe fun x =>
    { x with
      pos := x.pos + 1
      fences := if s.reqs.any (fun r => r.core == s.cur.1 && r.ctx == s.cur.2) then x.fences else [] }))

/-- R144: DIVU and DIVS with their remainder forms. The result, with DZ for a zero divisor, is scoreboarded to land within
20 cycles; opcodes 0x07 and 0x08, `.REM` in IMM16[0]. -/
def Obligations.DivisionResults : Prop :=
  (∀ i r s, divRow i = some r → Performs r.guard s → ScalarReady s r.num → ScalarReady s r.den →
    LoopAllows s r.dest →
    exec i s = .next ((((heard i s).fresh.2.awaitSb s.nextId (.s (s.me.phys r.dest)) (some (s.here.cycle + 20))).modMe fun y =>
      y.arrive s.nextId ((r.val s.me).setWidth 512) 0 (if s.me.s r.den = 0 then 0x02 else 0)).finish)) ∧
  (∀ g d a b,
    let form (i : Instr) := (encode i).map fun w => ((w.1.extractLsb' 40 8).toNat, (w.1.extractLsb' 0 16).toNat)
    form (.divu g d a b) = some (0x07, 0) ∧ form (.divuRem g d a b) = some (0x07, 1) ∧
    form (.divs g d a b) = some (0x08, 0) ∧ form (.divsRem g d a b) = some (0x08, 1))

/-- R145: MOVI writes the sign-extended immediate; MOVHI replaces bits 16j to 16j + 15 of its source; a j above 3 is an
illegal operation. Both land with latency 1. -/
def Obligations.ConstantsBuilt : Prop :=
  (∀ g d (imm : BitVec 16) s, Performs g s → LoopAllows s d →
    exec (.movi g d imm) s = .next (s.result (.s (s.me.phys d)) ((imm.signExtend 64).setWidth 512) 1).finish) ∧
  (∀ g d a (imm : BitVec 16) (j : BitVec 2) s, Performs g s → ScalarReady s a → LoopAllows s d →
    ∃ v : Dword, exec (.movhi g d a imm j) s = .next ((heard (.movhi g d a imm j) s).result (.s (s.me.phys d)) (v.setWidth 512) 1).finish ∧
      ∀ l, l < 64 → v.getLsbD l =
        if 16 * j.toNat ≤ l ∧ l < 16 * j.toNat + 16 then imm.getLsbD (l - 16 * j.toNat) else (s.me.s a).getLsbD l) ∧
  (∀ g d imm, (encode (.movi g d imm)).map (fun w => (w.1.extractLsb' 40 8).toNat) = some 0x19) ∧
  (∀ g d a imm j, (encode (.movhi g d a imm j)).map (fun w => ((w.1.extractLsb' 40 8).toNat, (w.1.extractLsb' 16 6).toNat)) =
    some (0x1A, j.toNat)) ∧
  (∀ (w : BitVec 48) ext, w.extractLsb' 40 8 = 0x1A → w.getLsbD 34 = false → 3 < (w.extractLsb' 16 6).toNat →
    decodeOp 0 w ext = .error .illegal)

/-- The condition codes of R146: code, qualifier, and when it is true. -/
def Sys2Proof.Claim.conditions : List (Nat × SCond × (Dword → Dword → Prop)) :=
  [(0, .eq, fun x y => x = y), (1, .ne, fun x y => x ≠ y), (2, .lt, fun x y => x.toInt < y.toInt),
    (3, .le, fun x y => x.toInt ≤ y.toInt), (4, .gt, fun x y => y.toInt < x.toInt), (5, .ge, fun x y => y.toInt ≤ x.toInt),
    (6, .ltu, fun x y => x.toNat < y.toNat), (7, .leu, fun x y => x.toNat ≤ y.toNat),
    (8, .gtu, fun x y => y.toNat < x.toNat), (9, .geu, fun x y => y.toNat ≤ x.toNat)]

/-- R146: the ten condition codes of CMP and CMPI; codes 10 to 15 are illegal operations. -/
def Obligations.ConditionsCompare : Prop :=
  (∀ n cc holds, (n, cc, holds) ∈ Sys2Proof.Claim.conditions →
    (∀ g d a b s, Performs g s → ScalarReady s a → ScalarReady s b →
      ∃ v : Line, exec (.cmp g cc d a b) s = .next ((heard (.cmp g cc d a b) s).result (.p d.toNat) v 1).finish ∧
        (v.getLsbD 0 = true ↔ holds (s.me.s a) (s.me.s b))) ∧
    (∀ g d a (imm : BitVec 16) s, Performs g s → ScalarReady s a →
      ∃ v : Line, exec (.cmpi g cc d a imm) s = .next ((heard (.cmpi g cc d a imm) s).result (.p d.toNat) v 1).finish ∧
        (v.getLsbD 0 = true ↔ holds (s.me.s a) (imm.signExtend 64))) ∧
    (∀ g d a b, (encode (.cmp g cc d a b)).map (fun w => (w.1.extractLsb' 0 4).toNat) = some n) ∧
    (∀ g d a imm, (encode (.cmpi g cc d a imm)).map (fun w => (w.1.extractLsb' 16 4).toNat) = some n)) ∧
  (∀ (w : BitVec 48) ext, w.getLsbD 34 = false →
    (w.extractLsb' 40 8 = 0x1B → w.extractLsb' 4 12 = 0 → 10 ≤ (w.extractLsb' 0 4).toNat →
      decodeOp 0 w ext = .error .illegal) ∧
    (w.extractLsb' 40 8 = 0x1C → w.extractLsb' 20 2 = 0 → 10 ≤ (w.extractLsb' 16 4).toNat →
      decodeOp 0 w ext = .error .illegal))

/-- R164: TRAP and BRK raise fault 0x0F and 0x10 at their bundle, which commits nothing of theirs; the record carries
IMM16, and the launch fails. -/
def Obligations.TrapsFault : Prop :=
  ∀ g (imm : BitVec 16) s, performs g s.me = true →
    let raises (i : Instr) (opc : Nat) (code : Byte) :=
      ∃ t, exec i s = .next t ∧
        t = s.takeFault s.cur.1 s.cur.2 { code := code, imm := imm, slot := 5 } ∧ t.me.pc = s.me.pc ∧
        (∀ l, s.launch s.me.launch = some l → l.phase ≠ .failing → l.phase ≠ .ended →
          ∃ l', t.launch s.me.launch = some l' ∧ l'.phase = .failing ∧ l'.status = 0x07) ∧
        (∀ held lid k c unit pc gcc, leNat (faultRecord { code := code, imm := imm, slot := 5 } held lid k c unit pc gcc) /
          2 ^ 256 % 2 ^ 16 = imm.toNat) ∧
        (encode i).map (fun w => ((w.1.extractLsb' 40 8).toNat, (w.1.extractLsb' 0 16).toNat)) = some (opc, imm.toNat)
    raises (.trap g imm) 0x13 0x0F ∧ raises (.brk g imm) 0x14 0x10

/-! ### Words and reset -/

/-- Op words that the spec's chapters write out, with their slot and extension word, and what each stands for (the
encoding tables of spec/06 to spec/12). -/
def Sys2Proof.Claim.specWords : List (Nat × BitVec 48 × Word × Instr) :=
  [(0, 0x030145000001, 0, .addi ⟨0, false⟩ 20 20 1), (0, 0x039945000001, 0, .addi ⟨3, true⟩ 20 20 1),
    (0, 0x100155000003, 0, .shli ⟨0, false⟩ 21 20 3), (0, 0x1C0024020040, 0, .cmpi ⟨0, false⟩ .lt 2 16 64),
    (5, 0x01100000FFFB, 0, .br ⟨2, false⟩ 0xFFFB), (5, 0x0401F0060004, 0, .call ⟨0, false⟩ 31 6 4),
    (5, 0x070000820005, 0, .loop ⟨0, false⟩ 2 2 5), (5, 0x0A000100FFFC, 0, .fence ⟨0, false⟩ .die 0xFFFC),
    (5, 0x090000000015, 0, .setfmt ⟨0, false⟩ 0x15), (5, 0x110140000000, 0, .rdsys ⟨0, false⟩ 20 0),
    (6, 0x0420281B2801, 0, .fadd ⟨0, 1⟩ .f32 .rtz 5 (.v 6) (.s 20)),
    (10, 0x1010502C180A, 2, .fma ⟨1, 0⟩ .f32 (some .rup) 10 (.v 11) (.v 12) (.v 10)),
    (6, 0xC0004814120E, 0, .cvt ⟨0, 0⟩ (.f32l8 2) 9 (.v 5) (.v 9)), (8, 0x0900F008003D, 0, .xbc ⟨0, 0⟩ 30 2 5 7),
    (9, 0x06803E541200, 0, .vstx ⟨0, 4⟩ 7 21 9 0), (9, 0x070006580010, 0, .vlda ⟨0, 0⟩ 0 22 16),
    (3, 0x030004800104, 0, .latch ⟨0, false⟩ 18 0 0 ⟨1, true⟩ 0),
    (3, 0x060144C0021B, 0, .accrd ⟨0, false⟩ 19 ⟨20, 0, ⟨3, true⟩, 0⟩ .l8),
    (2, 0x0101B10020C8, 0, .pushld ⟨0, false⟩ ⟨3, 3, 4, 200, 2⟩), (2, 0x040401802000, 0x1428, .stg ⟨0, false⟩ ⟨6, 2, 40, 2, 1⟩),
    (2, 0x080140C08010, 0, .lds ⟨0, false⟩ 20 3 0 16 false .w), (2, 0x0B005157FFFB, 0, .strel ⟨0, false⟩ 5 23 .sys 0xFFFB),
    (2, 0x0C0581590000, 0x30, .amoAdd ⟨0, false⟩ ⟨24, 5, 25, .ar, .pkg, 0⟩),
    (4, 0x030411061442, 0x1E, .cpyt ⟨0, false⟩ ⟨1, 4, 6, 2, ⟨4, true⟩, 2⟩ 30),
    (4, 0x0A0001C00003, 0, .launch ⟨0, false⟩ 7 3)]

/-- R113 to R131 and the encoding tables of the instruction chapters: those words decode to what they stand for. -/
def Obligations.WordsDecode : Prop :=
  ∀ x ∈ Sys2Proof.Claim.specWords, decodeOp x.1 x.2.1 x.2.2.1 = .ok x.2.2.2

/-- R21, R73, R74, R154, R256, R295, R298, R336, R338, R346, R349: the values the spec gives for reset. -/
def Sys2Proof.Claim.ResetValues : Prop :=
  let s := State.reset
  s.gcc = 0 ∧ s.sc = 0 ∧ s.cap = 1800 ∧ s.tlim = 95 ∧ s.measgen = 0 ∧ (∀ n, aget s.meas n 0 = 0) ∧
  (∀ pa, s.ownerOf pa = none) ∧
  (∀ k, (s.core k).runmax = 4096 ∧ (s.core k).pmb = 65536 ∧ (s.core k).v = false ∧ (s.core k).inuse = [] ∧
    (∀ n, aget (s.core k).ptrs n 0 = 0) ∧ ∀ c, (s.ctx k c).fmts = 0 ∧ (s.ctx k c).run = .idle) ∧
  ∀ t, (s.tenant t).seq = 0 ∧ (s.tenant t).locked = false ∧ ∀ c, (s.tenant t).allows c = false

/-! ### The obligations -/

/-- R36, R38, R42, R318, R320: an operation whose checks pass commits and the run goes on; a frozen or held one commits nothing; one whose checks find a fault takes it. -/
def Obligations.OperationsIssue : Prop :=
  Sys2Proof.Claim.OperationsComplete ∧ Sys2Proof.Claim.FrozenOperationsWait ∧ Sys2Proof.Claim.OperationsTakeFaults ∧ Sys2Proof.Claim.ConsumptionIsQuiet

/-- R38, R116, R153, R323: a false guard, an awaited source, a destination a loop forbids and a poisoned source. -/
def Obligations.GuardsAndStops : Prop :=
  Sys2Proof.Claim.FalseGuardNoEffect ∧ Sys2Proof.Claim.ScalarStops ∧ Sys2Proof.Claim.PoisonedGuardsStop

/-- R128, R143, R147, R148: the results of the scalar, predicate and address operations, with their latencies. -/
def Obligations.SingleResults : Prop :=
  Sys2Proof.Claim.ScalarResults ∧ Sys2Proof.Claim.PredicateResults ∧ Sys2Proof.Claim.AddressResults

/-- R118, R138, R167: what a result does to its register when it lands, and that s0, p0 and m0 discard it. -/
def Obligations.LandingWrites : Prop :=
  Sys2Proof.Claim.LandingWrites

/-- R149 to R153, R317: branches, jumps, the start of loops and their indices. -/
def Obligations.TransfersTaken : Prop :=
  Sys2Proof.Claim.BranchTransfers ∧ Sys2Proof.Claim.BranchCounts ∧ Sys2Proof.Claim.JumpThroughTable ∧ Sys2Proof.Claim.LoopsStart ∧ Sys2Proof.Claim.LoopIndices

/-- R139, R140, R150: calls and returns slide the scalar window, with spills and fills. -/
def Obligations.CallsAndReturns : Prop :=
  Sys2Proof.Claim.CallSlides ∧ Sys2Proof.Claim.CallThroughTable ∧ Sys2Proof.Claim.CallKeepsScalars ∧ Sys2Proof.Claim.ReturnSlidesBack ∧ Sys2Proof.Claim.WindowTransfers

/-- R100, R155 to R157, R159, R160: formats, fences, flags and waiting for a tick. -/
def Obligations.FormatsFencesFlags : Prop :=
  Sys2Proof.Claim.SetfmtWrites ∧ Sys2Proof.Claim.FencesRecord ∧ Sys2Proof.Claim.FlagOperations ∧ Sys2Proof.Claim.WaitgccWaits

/-- R41, R158: arriving at a barrier and its completion. -/
def Obligations.BarriersWait : Prop :=
  Sys2Proof.Claim.BarrierArrives ∧ Sys2Proof.Claim.BarriersComplete

/-- R66, R68, R155, R161 to R163: reading and writing every system register. -/
def Obligations.SystemRegisters : Prop :=
  Sys2Proof.Claim.SystemReads ∧ Sys2Proof.Claim.SystemWrites

/-- R35, R153, R165, R166: the end of a run and the current unit. -/
def Obligations.RunsAndUnits : Prop :=
  Sys2Proof.Claim.HaltEndsRun ∧ Sys2Proof.Claim.UnitNamed

/-- R119, R126, R127, R167, R168, R171 to R186: vector sources, the operations that act lane by lane, and the corners of their arithmetic. -/
def Obligations.LaneArithmetic : Prop :=
  Sys2Proof.Claim.VectorSources ∧ Sys2Proof.Claim.LaneResults ∧ Sys2Proof.Claim.FloatCorners

/-- R30, R173, R176, R181: vector compares and mask operations. -/
def Obligations.MasksWritten : Prop :=
  Sys2Proof.Claim.CompareMasks ∧ Sys2Proof.Claim.MaskOperations

/-- R178 to R180, R187: selection, permutes, moves between clusters and reductions. -/
def Obligations.LanesMove : Prop :=
  Sys2Proof.Claim.PermutesMove ∧ Sys2Proof.Claim.ReductionsBroadcast

/-- R67, R188 to R191, R317: vector loads from the scratchpad and the faults of a vector access. -/
def Obligations.LocalLoads : Prop :=
  Sys2Proof.Claim.VectorLoads ∧ Sys2Proof.Claim.VectorAccessFaults

/-- R71, R77, R188 to R190, R214: vector stores, and accesses to the accumulator store and by scalars. -/
def Obligations.LocalStores : Prop :=
  Sys2Proof.Claim.VectorStores ∧ Sys2Proof.Claim.AccumulatorAccesses ∧ Sys2Proof.Claim.LocalScalarAccesses

/-- R79 to R81, R211: pushes into the load-address queues, and the queue's limit. -/
def Obligations.LinesPushed : Prop :=
  Sys2Proof.Claim.PushesRequestLines ∧ Sys2Proof.Claim.PushQueueFull

/-- R213, R214: global stores and scalar accesses go out as requests. -/
def Obligations.GlobalAccessesSent : Prop :=
  Sys2Proof.Claim.GlobalVectorStores ∧ Sys2Proof.Claim.GlobalScalarAccesses

/-- R94, R156, R215 to R217: acquires, releases and atomics. -/
def Obligations.SynchronisingAccesses : Prop :=
  Sys2Proof.Claim.AcquireAndRelease ∧ Sys2Proof.Claim.Atomics

/-- R33, R72, R73, R218, R219: the tag table, and asking for the next unit. -/
def Obligations.TagsAndUnits : Prop :=
  Sys2Proof.Claim.TagTable ∧ Sys2Proof.Claim.NextUnitAsked

/-- R165, R195, R196, R200 to R207: the matrix operations queue their commands under reservations. -/
def Obligations.MatrixCommands : Prop :=
  Sys2Proof.Claim.MatrixCommandsQueue ∧ Sys2Proof.Claim.ReservationsHold

/-- R30, R85, R221: the copy operations queue their commands on their channel. -/
def Obligations.CopyCommands : Prop :=
  Sys2Proof.Claim.CopyCommandsQueue ∧ Sys2Proof.Claim.CopyQueueLimit

/-- R74, R220, R224 to R227, R231, R232: nest registers, guards, channel status, in-use bits, exclusions and device-fed launches. -/
def Obligations.EngineRegisters : Prop :=
  Sys2Proof.Claim.CopyRegisters ∧ Sys2Proof.Claim.InUseAndExclusions ∧ Sys2Proof.Claim.DeviceLaunchesReserve

/-- R71, R92, R120: an operation that is no local store leaves all of memory as it was. -/
def Obligations.OperationsKeepMemory : Prop :=
  Sys2Proof.Claim.OperationsKeepMemory

/-- R39, R64 to R66, R138, R154, R161 to R163: which registers an issuing operation leaves alone. -/
def Obligations.RegistersKept : Prop :=
  Sys2Proof.Claim.RegistersChangeByLanding ∧ Sys2Proof.Claim.StatusRegistersKept

/-- R30, R31: an issuing operation touches no other context, core, tenant or owner. -/
def Obligations.OperationsStayInContext : Prop :=
  Sys2Proof.Claim.OperationsStayInContext

/-- R42, R315 to R318, R320: the fault record, and what taking a fault does to the context and the launch. -/
def Obligations.FaultsTaken : Prop :=
  Sys2Proof.Claim.FaultRecordLayout ∧ Sys2Proof.Claim.FaultsTaken

/-- R320, R321: GO, GO with STEP and DECLINE. -/
def Obligations.HeldContextsGoOn : Prop :=
  Sys2Proof.Claim.HeldContextsResume ∧ Sys2Proof.Claim.GoAndDecline

/-- R36, R37, R120, log 12: a step runs what its agenda names, and a presented bundle of one operation commits that operation. -/
def Obligations.StepRunsDecoded : Prop :=
  Sys2Proof.Claim.StepRunsAgenda ∧ Sys2Proof.Claim.StepIssuesBundle

/-- R36, R37, R69, R70, R112, R115, R149, R152, R155, R256, R348: presentation, primacy, merging, banks, sync words, the end of a bundle, and the events of a core's cycle. -/
def Obligations.CyclesAdvance : Prop :=
  Sys2Proof.Claim.PresentationsHappen ∧ Sys2Proof.Claim.PrimacyPasses ∧ Sys2Proof.Claim.BundlesMerge ∧ Sys2Proof.Claim.BanksServe ∧ Sys2Proof.Claim.SyncWordsHold ∧ Sys2Proof.Claim.BundlesAdvance ∧ Sys2Proof.Claim.CycleEventsHappen

/-- R33, R38, R39, R66, R142, R160, R165: results land, and waits end. -/
def Obligations.ResultsLand : Prop :=
  Sys2Proof.Claim.FixedLatencyLands ∧ Sys2Proof.Claim.ScoreboardLands ∧ Sys2Proof.Claim.WaitsEnd

/-- R209, R310 to R313: walks of the page tables and what the TLB answers. -/
def Obligations.TranslationWalks : Prop :=
  Sys2Proof.Claim.WalksComplete ∧ Sys2Proof.Claim.WalkReadsLeaf ∧ Sys2Proof.Claim.TranslationRules

/-- R108, R340, R341: fetched blocks are verified before they run, and the check of a segment (log 26: an unreadable signature block). -/
def Obligations.FetchVerifies : Prop :=
  Sys2Proof.Claim.FetchVerifies

/-- R77, R80, R82, R90, R92 to R94, R213, R214, R322, R324: requests perform at their homes in the order the rules give (log 73: a FENCE's own bundle). -/
def Obligations.RequestsPerform : Prop :=
  Sys2Proof.Claim.RequestsPerform ∧ Sys2Proof.Claim.OrderedAccessesWait ∧ Sys2Proof.Claim.HomesAnswer ∧ Sys2Proof.Claim.LinesLand

/-- R84, R85, R87, R90, R100, R102, R220 to R223, R297: a copy command starts, moves its bytes and ends. -/
def Obligations.CopyEngine : Prop :=
  Sys2Proof.Claim.CopyStarts ∧ Sys2Proof.Claim.CopyMovesBytes ∧ Sys2Proof.Claim.CopyWritesZeros ∧ Sys2Proof.Claim.CopyEnds

/-- R62, R63, R66, R77, R105, R197, R198, R200 to R207: a matrix command starts, does its beats and ends; its accumulator accesses come eight cycles after their beats. -/
def Obligations.MatrixEngine : Prop :=
  Sys2Proof.Claim.MatrixStarts ∧ Sys2Proof.Claim.AcczClearsRow ∧ Sys2Proof.Claim.PipelineDrains ∧ Sys2Proof.Claim.MatrixBeatsDone ∧ Sys2Proof.Claim.MatrixEnds

/-- R28, R29, R107, R227 to R229, R232, R289 to R292: records taken from queues, admission, the start of passes, and entries the device appends. -/
def Obligations.LaunchesTaken : Prop :=
  Sys2Proof.Claim.RecordsTaken ∧ Sys2Proof.Claim.LaunchesAdmitted ∧ Sys2Proof.Claim.LaunchesAppended

/-- R31, R41, R68, R293, R353: cores are assigned and contexts start. -/
def Obligations.ContextsStart : Prop :=
  Sys2Proof.Claim.CoresAssigned ∧ Sys2Proof.Claim.ContextsStart

/-- R32 to R34, R294: units are dealt, each once (log 60: the null flag where R302 stops dealing). -/
def Obligations.UnitsDealt : Prop :=
  Sys2Proof.Claim.UnitsDealt

/-- R27, R29, R42, R230, R232, R233, R301: failing launches stop, and the words of launches and passes. -/
def Obligations.LaunchesEnd : Prop :=
  Sys2Proof.Claim.FailingLaunchesStop ∧ Sys2Proof.Claim.LaunchesComplete

/-- R254, R299, R300, R302 to R304: commands are checked (log 19: the order of R300's rows), PREEMPT, and saving contexts. -/
def Obligations.PreemptionSaves : Prop :=
  Sys2Proof.Claim.CommandsRejected ∧ Sys2Proof.Claim.PreemptRuns ∧ Sys2Proof.Claim.ContextsSaved

/-- R301, R305: RESUME and ABORT. -/
def Obligations.ResumeAndAbort : Prop :=
  Sys2Proof.Claim.ResumeRuns ∧ Sys2Proof.Claim.AbortRuns

/-- R298, R306, R308: SCRUB, STAMPRESET, CORESAVE and CORELOAD. -/
def Obligations.MemoryCommands : Prop :=
  Sys2Proof.Claim.ScrubRuns ∧ Sys2Proof.Claim.StampResetRuns ∧ Sys2Proof.Claim.CoreImages

/-- R314: a shootdown leaves no old translation. -/
def Obligations.ShootdownsRun : Prop :=
  Sys2Proof.Claim.ShootdownsRun

/-- R281, R283: what the finisher answers and stores (log 72: HIT after a removal). -/
def Obligations.FinisherServes : Prop :=
  Sys2Proof.Claim.FinisherServes

/-- R288, R297, R307, R310, R315, R321, R338, R346, R349: writes of the driver's registers. -/
def Obligations.RegisterWrites : Prop :=
  Sys2Proof.Claim.LockedWritesDropped ∧ Sys2Proof.Claim.SchedulerRegisters ∧ Sys2Proof.Claim.RootWrites ∧ Sys2Proof.Claim.PlainRegisters

/-- R295: a core's change of owner and its zeroing. -/
def Obligations.CoresChangeOwner : Prop :=
  Sys2Proof.Claim.CoresChangeOwner

/-- R336, R338, R349, R350: locks, measurements, write tokens and counters. -/
def Obligations.LocksAndTokens : Prop :=
  Sys2Proof.Claim.LocksMeasured ∧ Sys2Proof.Claim.TokensChecked ∧ Sys2Proof.Claim.CountersRead

/-- R20, R21, R346 to R348: supply, clock edges, power windows and the module's resets (log 5: the counters after power-on; log 35). -/
def Obligations.PowerAndReset : Prop :=
  Sys2Proof.Claim.SuppliesSag ∧ Sys2Proof.Claim.ClockTicks ∧ Sys2Proof.Claim.PowerWindows ∧ Sys2Proof.Claim.ResetsRestore

/-- R335, R337 to R339: boot stages, sessions and keys. -/
def Obligations.BootAndSessions : Prop :=
  Sys2Proof.Claim.BootAdvances ∧ Sys2Proof.Claim.FailedBootAnswersNothing ∧ Sys2Proof.Claim.SessionsRun

/-- R299, R326 to R333: host accesses and rill ports. -/
def Obligations.HostAndPeers : Prop :=
  Sys2Proof.Claim.HostWindows ∧ Sys2Proof.Claim.HostPages ∧ Sys2Proof.Claim.PortsServe

/-- R112, R113, R116 to R131: the bundle that holds one well-formed operation decodes to it, and an opcode that no map lists is illegal. -/
def Obligations.BundlesDecode : Prop :=
  Sys2Proof.Claim.BundlesDecode ∧ Sys2Proof.Claim.ReservedOpcodesIllegal

/-- Log 1: every step keeps memory in its canonical form. -/
def Obligations.StepsKeepMemoryCanonical : Prop :=
  Sys2Proof.Claim.StepsKeepMemoryCanonical

/-- Log 1, R21, R73, R74, R154, R256, R295, R298, R336, R338, R346, R349: reset memory is canonical, and the values the spec gives for reset hold. -/
def Obligations.ResetIsRight : Prop :=
  Sys2Proof.Claim.ResetMemoryCanonical ∧ Sys2Proof.Claim.ResetValues

/-- R93, R94, R96 to R98: what a read of memory may return, in the model's form of it (logs 11 and 42), and what a release and an acquire order. -/
def Obligations.ReadsAndWrites : Prop :=
  Sys2Proof.Claim.ReadsReturnWrites
end

