-- ==== Sys2Proof/Laws/Encoding.lean ====
section
/-! SUPPORT. Fields of words, and that every code of an operand reads back as the operand (spec/06). -/
namespace Sys2Proof.Laws

open Sys2Proof

theorem app_hi {n m s l : Nat} (x : BitVec n) (y : BitVec m) (h : m ≤ s) :
    (x ++ y).extractLsb' s l = x.extractLsb' (s - m) l := by
  apply BitVec.eq_of_getLsbD_eq; intro j hj
  simp [BitVec.getLsbD_append, hj]
  have : ¬ s + j < m := by omega
  simp [this]; congr 1; omega

theorem app_lo {n m s l : Nat} (x : BitVec n) (y : BitVec m) (h : s + l ≤ m) :
    (x ++ y).extractLsb' s l = y.extractLsb' s l := by
  apply BitVec.eq_of_getLsbD_eq; intro j hj
  simp [BitVec.getLsbD_append, hj]
  have : s + j < m := by omega
  simp [this]

theorem bit_hi {n m s : Nat} (x : BitVec n) (y : BitVec m) (h : m ≤ s) : (x ++ y).getLsbD s = x.getLsbD (s - m) := by
  have : ¬ s < m := by omega
  simp [BitVec.getLsbD_append, this]

theorem bit_lo {n m s : Nat} (x : BitVec n) (y : BitVec m) (h : s < m) : (x ++ y).getLsbD s = y.getLsbD s := by
  simp [BitVec.getLsbD_append, h]

theorem ext_self {n s : Nat} (x : BitVec n) (h : s = 0) : x.extractLsb' s n = x := by subst h; simp

theorem bool_bit {s : Nat} (b : Bool) (h : s = 0) : (BitVec.ofBool b).getLsbD s = b := by subst h; cases b <;> rfl

theorem sFields_sBits (x : SWord) : sFields (sBits x) = x := by
  obtain ⟨o, n, p, e, d, a, b, i⟩ := x
  simp (disch := omega) only [sFields, sBits, app_hi, app_lo, bit_hi, bit_lo, ext_self, bool_bit]

theorem vFields_vBits (x : VWord) : vFields (vBits x) = x := by
  obtain ⟨o, n, p, e, d, a, b⟩ := x
  simp (disch := omega) only [vFields, vBits, app_hi, app_lo, bit_hi, bit_lo, ext_self, bool_bit]

theorem zext_hi {n m s l : Nat} (x : BitVec n) (h : n ≤ s) : (x.setWidth m).extractLsb' s l = 0#l := by
  apply BitVec.eq_of_getLsbD_eq; intro j hj
  have : x.getLsbD (s + j) = false := BitVec.getLsbD_of_ge _ _ (by omega)
  simp [BitVec.getLsbD_setWidth, this]

theorem zext_lo {n m s l : Nat} (x : BitVec n) (h : s + l ≤ m) : (x.setWidth m).extractLsb' s l = x.extractLsb' s l := by
  apply BitVec.eq_of_getLsbD_eq; intro j hj
  have : s + j < m := by omega
  simp [this, hj]

theorem zext_bit_hi {n m s : Nat} (x : BitVec n) (h : n ≤ s) : (x.setWidth m).getLsbD s = false := by
  have : x.getLsbD s = false := BitVec.getLsbD_of_ge _ _ h
  simp [BitVec.getLsbD_setWidth, this]

theorem zext_bit_lo {n m s : Nat} (x : BitVec n) (h : s < m) : (x.setWidth m).getLsbD s = x.getLsbD s := by
  simp [h]

theorem zero_ext {n s l : Nat} : (0#n).extractLsb' s l = 0#l := by
  apply BitVec.eq_of_getLsbD_eq; intro j hj; simp

theorem zero_bit {n s : Nat} : (0#n).getLsbD s = false := by simp

theorem zext_back {n m : Nat} (x : BitVec n) (h : n ≤ m) : (x.setWidth m).setWidth n = x := by
  apply BitVec.eq_of_getLsbD_eq; intro j hj
  have : j < m := by omega
  simp [hj, this]

theorem pNum_back : ∀ d : BitVec 4, pNum (d.setWidth 6) = some d := by decide

theorem aNum_back : ∀ d : BitVec 5, aNum (d.setWidth 6) = some d := by decide

theorem nNum_back : ∀ d : BitVec 3, nNum (d.setWidth 6) = some d := by decide

theorem wNum_back : ∀ d : BitVec 2, wNum (d.setWidth 6) = some d := by decide

theorem rm_back (r : Rm) : rmOf (rmCode r) = r := by cases r <;> rfl

theorem scope_back (r : Scope) : scopeOf (scopeCode r) = some r := by cases r <;> rfl

theorem scond_back (r : SCond) : scondOf (scondCode r) = some r := by cases r <;> rfl

theorem fcond_back (r : FCond) : fcondOf (fcondCode r) = r := by cases r <;> rfl

theorem icond_back (r : ICond) : icondOf (icondCode r) = some r := by cases r <;> rfl

theorem fty_back (r : FTy) : ftyOf (ftyCode r) = some r := by cases r <;> rfl

theorem ity_back (r : ITy) : ityOf (ityCode r) = some r := by cases r <;> rfl

theorem lty_back (r : LTy) : ltyOf (ltyCode r) = some r := by cases r <;> rfl

theorem hty_back (r : HTy) : htyOf (htyCode r) = some r := by cases r <;> rfl

theorem sat_back (r : Sat) : satOf (satCode r) = some r := by cases r <;> rfl

theorem size_back (r : Size) : sizeOf2 (sizeCode r) = r := by cases r <;> rfl

theorem ord_back (r : Ord) : ordOf (ordCode r) = r := by cases r <;> rfl

theorem src_back (a : VSrc) (h : a.ok = true) : srcOf (srcCode a) = some a := by
  cases a with
  | v r =>
    have hr : r.toNat < 320 := by simpa [VSrc.ok, VReg.ok] using h
    simp [srcOf, srcCode, hr]
  | s r => revert r; decide
  | _ => rfl

theorem scalar_back : ∀ r : SReg, scalarOf (scalarCode r) = some r := by decide

theorem mNum_back : ∀ m : MReg, mNum (mf m) = m := by decide

theorem mZero_back : ∀ m : MReg, mZero (mf m) = true := by decide

theorem cvt_back (c : CvtOp) : cvtOf (cvtCode c) = some c := by
  cases c <;> rename_i a <;> first | (cases a <;> rfl) | (revert a; decide) | (rename_i b; revert b; cases a <;> decide)

theorem cvt_top (c : CvtOp) : (cvtCode c).getLsbD 8 = false := by
  cases c <;> rename_i a <;> first | (cases a <;> rfl) | (revert a; decide) | (rename_i b; revert b; cases a <;> decide)

theorem cvt_rounds (c : CvtOp) : (c.rounds || (cvtCode c).extractLsb' 6 2 == 0#2) = true := by
  cases c <;> rename_i a <;> first | rfl | (revert a; decide)

theorem cvt_vb (c : CvtOp) (b : VSrc) (h : (c.inserts || b == .v 0#9) = true) : (c.inserts || srcCode b == 0#9) = true := by
  cases hc : c.inserts
  · simp only [hc, Bool.false_or, beq_iff_eq] at h
    subst h
    rfl
  · rfl

theorem vab_slot (c : Cl) (w : BitVec 48) (x : Word) : decodeOp (6 + 4 * c.toNat) w x = decVab c (vFields w) x := by
  have h : ∀ n < 8, decodeOp (6 + 4 * n) w x = decVab (BitVec.ofNat 3 n) (vFields w) x := by
    intro n hn
    interval_cases n <;> rfl
  simpa using h c.toNat c.isLt

theorem vx_slot (c : Cl) (w : BitVec 48) (x : Word) : decodeOp (8 + 4 * c.toNat) w x = decVx c (vFields w) := by
  have h : ∀ n < 8, decodeOp (8 + 4 * n) w x = decVx (BitVec.ofNat 3 n) (vFields w) := by
    intro n hn
    interval_cases n <;> rfl
  simpa using h c.toNat c.isLt

theorem vm_slot (c : Cl) (w : BitVec 48) (x : Word) : decodeOp (9 + 4 * c.toNat) w x = decVm c (vFields w) := by
  have h : ∀ n < 8, decodeOp (9 + 4 * n) w x = decVm (BitVec.ofNat 3 n) (vFields w) := by
    intro n hn
    interval_cases n <;> rfl
  simpa using h c.toNat c.isLt

theorem cpyw_ext (o g p x) : (cpyw o g p x).2 = x := rfl

theorem stgw_ext (o g p b x) : (stgw o g p b x).2 = some (stgExt p x) := rfl

theorem amow_ext (g p k) : (amow g p k).2 = some (amoExt p k 0) := rfl

theorem sw_ext (o g d a b i x) : (sw o g d a b i x).2 = x := rfl

theorem vw_ext (o h d a b c x) : (vw o h d a b c x).2 = x := rfl

theorem vop_hi (n : Nat) (t : BitVec 2) : (BitVec.ofNat 8 (vop n t)).extractLsb' 2 6 = BitVec.ofNat 6 n := by
  apply BitVec.eq_of_toNat_eq
  have := t.isLt
  simp [BitVec.extractLsb'_toNat, vop, Nat.shiftRight_eq_div_pow]
  omega

theorem vop_lo (n : Nat) (t : BitVec 2) : (BitVec.ofNat 8 (vop n t)).extractLsb' 0 2 = t := by
  apply BitVec.eq_of_toNat_eq
  have := t.isLt
  simp [BitVec.extractLsb'_toNat, vop]
  omega

theorem mmaImm_parts (m : MmaArgs) : (mmaImm m).extractLsb' 12 4 = 0#4 ∧ (mmaImm m).extractLsb' 8 2 = m.latch ∧
    (mmaImm m).extractLsb' 0 8 = m.nb ∧
    (mmaImm m).extractLsb' 10 2 = modeCode m.mode := by
  simp (disch := omega) only [mmaImm, app_hi, app_lo, ext_self, and_self]

theorem mmaExt_parts (m : MmaArgs) : (mmaExt m).extractLsb' 30 2 = 0#2 ∧ (mmaExt m).extractLsb' 0 11 = m.row ∧
    (mmaExt m).getLsbD 11 = m.colh ∧ (mmaExt m).extractLsb' 12 4 = m.cls ∧ (mmaExt m).extractLsb' 16 6 = m.done.f ∧
    (mmaExt m).getLsbD 22 = m.done.v ∧ (mmaExt m).extractLsb' 23 6 = m.cons.f ∧ (mmaExt m).getLsbD 29 = m.cons.v := by
  simp (disch := omega) only [mmaExt, flagBits, app_hi, app_lo, bit_hi, bit_lo, ext_self, bool_bit, and_self]

theorem mmaArgs_back (m : MmaArgs) (o n p e d a b) : mmaArgs ⟨o, n, p, e, d, a, b, mmaImm m⟩ (mmaExt m) = some m := by
  simp only [mmaArgs, mmaImm_parts, mmaExt_parts]
  obtain ⟨_, _, mo, _, _, _, _, _⟩ := m
  cases mo <;> rfl

end Sys2Proof.Laws
end

