-- ==== Sys2Proof/Laws/Lines.lean ====
section
/-! SUPPORT. Lanes of the lines that operations build. -/
namespace Sys2Proof.Machine

theorem mkLine_fold_bit (f : Nat → Word) (k n : Nat) (hk : k ≤ 16) (hn : n < 512) :
    ((List.range k).foldl (fun acc i => acc ||| ((f i).setWidth 512 <<< (32 * i))) (0 : Line)).getLsbD n =
      (decide (n / 32 < k) && (f (n / 32)).getLsbD (n % 32)) := by
  induction k with
  | zero => simp
  | succ k ih =>
    rw [List.range_succ, List.foldl_append]
    simp only [List.foldl_cons, List.foldl_nil, BitVec.getLsbD_or, ih (by omega), BitVec.getLsbD_shiftLeft,
      BitVec.getLsbD_setWidth, hn, decide_true, Bool.true_and]
    by_cases h1 : n / 32 < k
    · simp [h1, show n / 32 < k + 1 by omega, show n < 32 * k by omega]
    · by_cases h2 : n / 32 = k
      · have h3 : n - 32 * k = n % 32 := by omega
        simp [h2, h3, show ¬ n < 32 * k by omega, show n % 32 < 512 by omega]
      · have h4 : (f k).getLsbD (n - 32 * k) = false := BitVec.getLsbD_of_ge _ _ (by omega)
        simp [h1, h4, show ¬ n / 32 < k + 1 by omega]

/-- Lane i of the line that f builds is f i. -/
theorem lane_mkLine (f : Nat → Word) {i : Nat} (hi : i < 16) : lane (mkLine f) i = f i := by
  apply BitVec.eq_of_getLsbD_eq
  intro b hb
  rw [lane, BitVec.getLsbD_extractLsb', mkLine, mkLine_fold_bit f 16 _ (by omega) (by omega)]
  simp [hb, show (32 * i + b) / 32 = i by omega, show (32 * i + b) % 32 = b by omega, hi]

theorem lane_bcast (w : Word) {i : Nat} (hi : i < 16) : lane (bcast w) i = w := lane_mkLine _ hi

end Sys2Proof.Machine
end

