-- ==== Sys2Proof/Laws/Sparse.lean ====
section
/-! SUPPORT. Reading a sparse table after changing it. -/
namespace Sys2Proof.Machine

variable {α : Type}

theorem aget_ains_same (m : List (Nat × α)) (k : Nat) (v d : α) : aget (ains m k v) k d = v := by
  induction m with
  | nil => simp [ains, aget]
  | cons x t ih =>
    obtain ⟨j, w⟩ := x
    simp only [ains]
    split
    · simp [aget]
    · split
      · simp [aget]
      · rename_i h1 h2
        simp [aget, Ne.symm h2, ih]

theorem aget_ains_ne (m : List (Nat × α)) {k j : Nat} (v d : α) (h : j ≠ k) : aget (ains m k v) j d = aget m j d := by
  induction m with
  | nil => simp [ains, aget, Ne.symm h]
  | cons x t ih =>
    obtain ⟨i, w⟩ := x
    simp only [ains]
    split
    · simp [aget, Ne.symm h]
    · split
      · rename_i h1 h2
        subst h2
        simp [aget, Ne.symm h]
      · simp [aget, ih]

@[simp] theorem aget_nil (k : Nat) (d : α) : aget ([] : List (Nat × α)) k d = d := rfl

theorem aget_ains (m : List (Nat × α)) (k j : Nat) (v d : α) :
    aget (ains m k v) j d = if j = k then v else aget m j d := by
  split
  · rename_i h; subst h; exact aget_ains_same m j v d
  · rename_i h; exact aget_ains_ne m v d h

theorem aget_adel (m : List (Nat × α)) (k j : Nat) (d : α) :
    aget (adel m k) j d = if j = k then d else aget m j d := by
  induction m with
  | nil => simp [adel]
  | cons x t ih =>
    obtain ⟨i, w⟩ := x
    simp only [adel] at ih
    by_cases hik : i = k
    · subst hik
      simp only [adel, List.filter_cons, bne_self_eq_false, Bool.false_eq_true, ↓reduceIte, ih, aget]
      split
      · rfl
      · rename_i h; simp [Ne.symm h]
    · simp only [adel, List.filter_cons, bne_iff_ne, ne_eq, hik, not_false_eq_true, ↓reduceIte, aget, ih]
      split
      · rename_i h; subst h; simp [hik]
      · rfl

theorem aget_aput [DecidableEq α] (m : List (Nat × α)) (k j : Nat) (v d : α) :
    aget (aput m k v d) j d = if j = k then v else aget m j d := by
  unfold aput
  split
  · rename_i h; subst h; rw [aget_adel]
  · rw [aget_ains]

theorem ahas_ains (m : List (Nat × α)) (k : Nat) (v : α) : ahas (ains m k v) k = true := by
  induction m with
  | nil => simp [ains, ahas]
  | cons x t ih =>
    obtain ⟨j, w⟩ := x
    simp only [ains]
    split
    · simp [ahas]
    · split
      · simp [ahas]
      · simp only [ahas, List.any_cons, Bool.or_eq_true] at ih ⊢
        exact Or.inr ih

theorem ains_ains (m : List (Nat × α)) (k : Nat) (v w : α) : ains (ains m k v) k w = ains m k w := by
  induction m with
  | nil => simp [ains]
  | cons x t ih =>
    obtain ⟨j, u⟩ := x
    simp only [ains]
    split
    · simp [ains]
    · split
      · simp [ains]
      · rename_i h1 h2
        simp [ains, h1, h2, ih]

theorem length_lset (l : List α) (i : Nat) (v : α) : (lset l i v).length = l.length := by
  induction l generalizing i with
  | nil => rfl
  | cons x t ih => cases i <;> simp [lset, ih]

end Sys2Proof.Machine
end

