-- ==== Sys2Proof/Laws/Memory.lean ====
section
/-! SUPPORT. The physical memory: reading after writing, and that every operation on it keeps the canonical form. -/
namespace Sys2Proof.Machine

/-- The canonical form, entry by entry. -/
theorem Memory.wf_cons (a : Nat) (b : Byte) (t : List Host.Cell) :
    Memory.wf ((a, b) :: t) = true ↔ b ≠ 0 ∧ (∀ x ∈ t, a < x.1) ∧ Memory.wf t = true := by
  induction t generalizing a b with
  | nil => simp [Memory.wf]
  | cons y t ih =>
    obtain ⟨a', b'⟩ := y
    simp only [Memory.wf, Bool.and_eq_true, bne_iff_ne, ne_eq, decide_eq_true_eq, List.mem_cons, forall_eq_or_imp]
    constructor
    · rintro ⟨⟨hb, ha⟩, hw⟩
      refine ⟨hb, ⟨ha, fun x hx => ?_⟩, hw⟩
      exact Nat.lt_trans ha ((ih a' b').1 hw |>.2.1 x hx)
    · rintro ⟨hb, ⟨ha, _⟩, hw⟩
      exact ⟨⟨hb, ha⟩, hw⟩

theorem Memory.wf_nil : Memory.wf [] = true := rfl

theorem Memory.mem_ains {m : List Host.Cell} {k : Nat} {v : Byte} {x : Host.Cell} (h : x ∈ ains m k v) :
    x = (k, v) ∨ x ∈ m := by
  induction m with
  | nil => simpa [ains] using h
  | cons y t ih =>
    obtain ⟨j, w⟩ := y
    simp only [ains] at h
    split at h
    · simpa using h
    · split at h
      · rcases List.mem_cons.1 h with h | h
        · exact Or.inl h
        · exact Or.inr (List.mem_cons_of_mem _ h)
      · rcases List.mem_cons.1 h with h | h
        · exact Or.inr (by simp [h])
        · exact (ih h).imp id (List.mem_cons_of_mem _)

theorem Memory.wf_ains {m : List Host.Cell} (hm : Memory.wf m = true) (k : Nat) {v : Byte} (hv : v ≠ 0) :
    Memory.wf (ains m k v) = true := by
  induction m with
  | nil => simpa [ains, Memory.wf] using hv
  | cons y t ih =>
    obtain ⟨j, w⟩ := y
    obtain ⟨hw, hlt, ht⟩ := (Memory.wf_cons j w t).1 hm
    simp only [ains]
    split
    · rename_i hk
      refine (Memory.wf_cons k v _).2 ⟨hv, fun x hx => ?_, hm⟩
      rcases List.mem_cons.1 hx with rfl | hx
      · exact hk
      · exact Nat.lt_trans hk (hlt x hx)
    · split
      · rename_i hk
        subst hk
        exact (Memory.wf_cons k v t).2 ⟨hv, hlt, ht⟩
      · rename_i h1 h2
        refine (Memory.wf_cons j w _).2 ⟨hw, fun x hx => ?_, ih ht⟩
        rcases Memory.mem_ains hx with rfl | hx
        · show j < k
          omega
        · exact hlt x hx

/-- Leaving entries out keeps the form. -/
theorem Memory.wf_filter {m : List Host.Cell} (hm : Memory.wf m = true) (p : Host.Cell → Bool) :
    Memory.wf (m.filter p) = true := by
  induction m with
  | nil => rfl
  | cons y t ih =>
    obtain ⟨j, w⟩ := y
    obtain ⟨hw, hlt, ht⟩ := (Memory.wf_cons j w t).1 hm
    simp only [List.filter_cons]
    split
    · exact (Memory.wf_cons j w _).2 ⟨hw, fun x hx => hlt x (List.mem_of_mem_filter hx), ih ht⟩
    · exact ih ht

theorem Memory.wf_wr {m : List Host.Cell} (hm : Memory.wf m = true) (a : Nat) (b : Byte) : Memory.wf (wr m a b) = true := by
  unfold wr aput
  split
  · exact Memory.wf_filter hm _
  · rename_i h; exact Memory.wf_ains hm a h

theorem Memory.wf_wrBytes {m : List Host.Cell} (hm : Memory.wf m = true) (a : Nat) (bs : List Byte) :
    Memory.wf (wrBytes m a bs) = true := by
  induction bs generalizing m a with
  | nil => exact hm
  | cons b bs ih => exact ih (Memory.wf_wr hm a b) (a + 1)

theorem Memory.wf_clearRange {m : List Host.Cell} (hm : Memory.wf m = true) (a n : Nat) :
    Memory.wf (clearRange m a n) = true := Memory.wf_filter hm _

theorem Memory.wf_stampRange {m : List Host.Cell} (hm : Memory.wf m = true) (base : Nat) (sc : Word) (g n : Nat) :
    Memory.wf (stampRange m base sc g n) = true := by
  induction n generalizing m g with
  | zero => exact hm
  | succ n ih => exact ih (Memory.wf_wrBytes hm _ _) (g + 1)

theorem Memory.wf_stamped (s : State) {m : List Host.Cell} (hm : Memory.wf m = true) (pa n : Nat) :
    Memory.wf (s.stamped m pa n) = true := by
  unfold State.stamped
  dsimp only
  split
  · exact Memory.wf_stampRange hm _ _ _ _
  · exact hm

theorem Memory.wf_write {s : State} (hm : Memory.wf s.mem = true) (pa : Nat) (bs : List Byte) :
    Memory.wf (s.write pa bs).mem = true := Memory.wf_stamped s (Memory.wf_wrBytes hm pa bs) _ _

theorem Memory.wf_clear {s : State} (hm : Memory.wf s.mem = true) (pa n : Nat) :
    Memory.wf (s.clear pa n).mem = true := Memory.wf_stamped s (Memory.wf_clearRange hm pa n) _ _

/-! ### Reading after writing -/

theorem rd_wr (m : List Host.Cell) (a j : Nat) (b : Byte) : rd (wr m a b) j = if j = a then b else rd m j :=
  aget_aput m a j b 0

theorem rd_wrBytes_out (m : List Host.Cell) (a j : Nat) (bs : List Byte) (h : j < a ∨ a + bs.length ≤ j) :
    rd (wrBytes m a bs) j = rd m j := by
  induction bs generalizing m a with
  | nil => rfl
  | cons b bs ih =>
    simp only [List.length_cons] at h
    rw [wrBytes, ih _ _ (by omega), rd_wr, if_neg (by omega)]

theorem rd_wrBytes_in (m : List Host.Cell) (a i : Nat) (bs : List Byte) (h : i < bs.length) :
    rd (wrBytes m a bs) (a + i) = bs[i] := by
  induction bs generalizing m a i with
  | nil => simp at h
  | cons b bs ih =>
    cases i with
    | zero => rw [wrBytes, rd_wrBytes_out _ _ _ _ (by omega), rd_wr]; simp
    | succ i =>
      have h2 : i < bs.length := by simpa using h
      have := ih (wr m a b) (a + 1) i h2
      rw [show a + 1 + i = a + (i + 1) by omega] at this
      simpa [wrBytes] using this

theorem rdBytes_length (m : List Host.Cell) (a n : Nat) : (rdBytes m a n).length = n := by
  induction n generalizing a with
  | zero => rfl
  | succ n ih => simp [rdBytes, ih]

theorem rdBytes_get (m : List Host.Cell) (a n i : Nat) (h : i < n) : (rdBytes m a n)[i]? = some (rd m (a + i)) := by
  induction n generalizing a i with
  | zero => omega
  | succ n ih =>
    cases i with
    | zero => rfl
    | succ i =>
      rw [rdBytes, List.getElem?_cons_succ, ih (a + 1) i (by omega)]
      congr 2
      omega

/-- Bytes that were written read back. -/
theorem rdBytes_wrBytes (m : List Host.Cell) (a : Nat) (bs : List Byte) : rdBytes (wrBytes m a bs) a bs.length = bs := by
  apply List.ext_getElem?
  intro i
  by_cases h : i < bs.length
  · rw [rdBytes_get _ _ _ _ h, rd_wrBytes_in m a i bs h, List.getElem?_eq_getElem h]
  · rw [List.getElem?_eq_none (by rw [rdBytes_length]; omega), List.getElem?_eq_none (by omega)]

theorem rd_clearRange (m : List Host.Cell) (a n j : Nat) :
    rd (clearRange m a n) j = if a ≤ j ∧ j < a + n then 0 else rd m j := by
  unfold rd clearRange
  induction m with
  | nil => simp
  | cons y t ih =>
    obtain ⟨i, w⟩ := y
    by_cases hi : i < a ∨ a + n ≤ i
    · have hk : (decide (i < a) || decide (a + n ≤ i)) = true := by simpa using hi
      simp only [List.filter_cons, hk, ↓reduceIte, aget, ih]
      by_cases hij : i = j
      · subst hij
        have : ¬ (a ≤ i ∧ i < a + n) := by omega
        simp [this]
      · simp [hij]
    · have hk : (decide (i < a) || decide (a + n ≤ i)) = false := by simpa using hi
      simp only [List.filter_cons, hk, Bool.false_eq_true, ↓reduceIte, ih, aget]
      by_cases hij : i = j
      · subst hij
        have : a ≤ i ∧ i < a + n := by omega
        simp [this]
      · simp [hij]

end Sys2Proof.Machine
end

