-- ==== Sys2Proof/Laws/PerInstr.lean ====
section
/-! SUPPORT. The family OpWord: the encoded word of a well-formed operation decodes, in the map of its slot, to that
operation (R116 to R131). -/
namespace Sys2Proof.Laws

set_option linter.unusedSimpArgs false
set_option Elab.async false

open Sys2Proof

/-- The word of a well-formed operation decodes to it; an event has no word. -/
def OpWord.Statement (i : Instr) : Prop :=
  WellFormed i = true → ∀ e, encode i = some e → decodeOp (slotOf i) e.1 (e.2.getD 0) = .ok i

theorem OpWord.issueCycle (k) : OpWord.Statement (.issueCycle k) := by
  rintro _ _ ⟨⟩

theorem OpWord.runmaxExpiry (k) : OpWord.Statement (.runmaxExpiry k) := by
  rintro _ _ ⟨⟩

theorem OpWord.bundleIssue (k c err) : OpWord.Statement (.bundleIssue k c err) := by
  rintro _ _ ⟨⟩

theorem OpWord.bankConflictRetry (k c) : OpWord.Statement (.bankConflictRetry k c) := by
  rintro _ _ ⟨⟩

theorem OpWord.fetchComplete (k c blk err) : OpWord.Statement (.fetchComplete k c blk err) := by
  rintro _ _ ⟨⟩

theorem OpWord.segmentCheck (k c) : OpWord.Statement (.segmentCheck k c) := by
  rintro _ _ ⟨⟩

theorem OpWord.fixedLatencyLanding (k c i lanes) : OpWord.Statement (.fixedLatencyLanding k c i lanes) := by
  rintro _ _ ⟨⟩

theorem OpWord.scoreboardLanding (k c i) : OpWord.Statement (.scoreboardLanding k c i) := by
  rintro _ _ ⟨⟩

theorem OpWord.tlbWalkComplete (k va err) : OpWord.Statement (.tlbWalkComplete k va err) := by
  rintro _ _ ⟨⟩

theorem OpWord.memRequestService (i err) : OpWord.Statement (.memRequestService i err) := by
  rintro _ _ ⟨⟩

theorem OpWord.loadLineLands (k q i ue) : OpWord.Statement (.loadLineLands k q i ue) := by
  rintro _ _ ⟨⟩

theorem OpWord.globalAccessPerform (i err) : OpWord.Statement (.globalAccessPerform i err) := by
  rintro _ _ ⟨⟩

theorem OpWord.spillFillComplete (k c) : OpWord.Statement (.spillFillComplete k c) := by
  rintro _ _ ⟨⟩

theorem OpWord.waitgccWake (k c) : OpWord.Statement (.waitgccWake k c) := by
  rintro _ _ ⟨⟩

theorem OpWord.laqEntryFree (k q) : OpWord.Statement (.laqEntryFree k q) := by
  rintro _ _ ⟨⟩

theorem OpWord.copyCommandStart (k ch) : OpWord.Statement (.copyCommandStart k ch) := by
  rintro _ _ ⟨⟩

theorem OpWord.copyLine (k ch err) : OpWord.Statement (.copyLine k ch err) := by
  rintro _ _ ⟨⟩

theorem OpWord.copyComplete (k ch) : OpWord.Statement (.copyComplete k ch) := by
  rintro _ _ ⟨⟩

theorem OpWord.bulkFrameSlot (d) : OpWord.Statement (.bulkFrameSlot d) := by
  rintro _ _ ⟨⟩

theorem OpWord.matrixCommandStart (k) : OpWord.Statement (.matrixCommandStart k) := by
  rintro _ _ ⟨⟩

theorem OpWord.matrixBeat (k err) : OpWord.Statement (.matrixBeat k err) := by
  rintro _ _ ⟨⟩

theorem OpWord.loaderBeat (k err) : OpWord.Statement (.loaderBeat k err) := by
  rintro _ _ ⟨⟩

theorem OpWord.accRowBeat (k err) : OpWord.Statement (.accRowBeat k err) := by
  rintro _ _ ⟨⟩

theorem OpWord.matrixCommandDone (k) : OpWord.Statement (.matrixCommandDone k) := by
  rintro _ _ ⟨⟩

theorem OpWord.aConsumed (k) : OpWord.Statement (.aConsumed k) := by
  rintro _ _ ⟨⟩

theorem OpWord.barrierComplete (lid sc k) : OpWord.Statement (.barrierComplete lid sc k) := by
  rintro _ _ ⟨⟩

theorem OpWord.takeRecord (d t) : OpWord.Statement (.takeRecord d t) := by
  rintro _ _ ⟨⟩

theorem OpWord.admitLaunch (lid) : OpWord.Statement (.admitLaunch lid) := by
  rintro _ _ ⟨⟩

theorem OpWord.coreAssign (k) : OpWord.Statement (.coreAssign k) := by
  rintro _ _ ⟨⟩

theorem OpWord.contextStart (k c) : OpWord.Statement (.contextStart k c) := by
  rintro _ _ ⟨⟩

theorem OpWord.dispatchRestart (k c) : OpWord.Statement (.dispatchRestart k c) := by
  rintro _ _ ⟨⟩

theorem OpWord.nxuService (k c) : OpWord.Statement (.nxuService k c) := by
  rintro _ _ ⟨⟩

theorem OpWord.launchAppend (d t q) : OpWord.Statement (.launchAppend d t q) := by
  rintro _ _ ⟨⟩

theorem OpWord.launchFail (lid) : OpWord.Statement (.launchFail lid) := by
  rintro _ _ ⟨⟩

theorem OpWord.completionWrite (lid) : OpWord.Statement (.completionWrite lid) := by
  rintro _ _ ⟨⟩

theorem OpWord.passStart (lid) : OpWord.Statement (.passStart lid) := by
  rintro _ _ ⟨⟩

theorem OpWord.passEnd (lid) : OpWord.Statement (.passEnd lid) := by
  rintro _ _ ⟨⟩

theorem OpWord.pmarkStop (k c) : OpWord.Statement (.pmarkStop k c) := by
  rintro _ _ ⟨⟩

theorem OpWord.contextSaved (k c) : OpWord.Statement (.contextSaved k c) := by
  rintro _ _ ⟨⟩

theorem OpWord.pmbExpiry (k c) : OpWord.Statement (.pmbExpiry k c) := by
  rintro _ _ ⟨⟩

theorem OpWord.zeroingDone (k) : OpWord.Statement (.zeroingDone k) := by
  rintro _ _ ⟨⟩

theorem OpWord.hostWrite (h data) : OpWord.Statement (.hostWrite h data) := by
  rintro _ _ ⟨⟩

theorem OpWord.hostRead (h len) : OpWord.Statement (.hostRead h len) := by
  rintro _ _ ⟨⟩

theorem OpWord.ideIntegrityFail (f) : OpWord.Statement (.ideIntegrityFail f) := by
  rintro _ _ ⟨⟩

theorem OpWord.peerInbound (p wr a data) : OpWord.Statement (.peerInbound p wr a data) := by
  rintro _ _ ⟨⟩

theorem OpWord.portTrain (p peer) : OpWord.Statement (.portTrain p peer) := by
  rintro _ _ ⟨⟩

theorem OpWord.queueDescriptorWrite (d t q v) : OpWord.Statement (.queueDescriptorWrite d t q v) := by
  rintro _ _ ⟨⟩

theorem OpWord.coreConfigWrite (k v) : OpWord.Statement (.coreConfigWrite k v) := by
  rintro _ _ ⟨⟩

theorem OpWord.slotTableWrite (d j v) : OpWord.Statement (.slotTableWrite d j v) := by
  rintro _ _ ⟨⟩

theorem OpWord.ttrootWrite (t v) : OpWord.Statement (.ttrootWrite t v) := by
  rintro _ _ ⟨⟩

theorem OpWord.go (k c) : OpWord.Statement (.go k c) := by
  rintro _ _ ⟨⟩

theorem OpWord.goStep (k c) : OpWord.Statement (.goStep k c) := by
  rintro _ _ ⟨⟩

theorem OpWord.decline (k c) : OpWord.Statement (.decline k c) := by
  rintro _ _ ⟨⟩

theorem OpWord.measext (n h) : OpWord.Statement (.measext n h) := by
  rintro _ _ ⟨⟩

theorem OpWord.tlockWrite (t trusted v) : OpWord.Statement (.tlockWrite t trusted v) := by
  rintro _ _ ⟨⟩

theorem OpWord.tgo (t) : OpWord.Statement (.tgo t) := by
  rintro _ _ ⟨⟩

theorem OpWord.counterRead (c) : OpWord.Statement (.counterRead c) := by
  rintro _ _ ⟨⟩

theorem OpWord.registerWrite (r v) : OpWord.Statement (.registerWrite r v) := by
  rintro _ _ ⟨⟩

theorem OpWord.supplySag (d) : OpWord.Statement (.supplySag d) := by
  rintro _ _ ⟨⟩

theorem OpWord.thermalTrip (d) : OpWord.Statement (.thermalTrip d) := by
  rintro _ _ ⟨⟩

theorem OpWord.bootStage (hdr body) : OpWord.Statement (.bootStage hdr body) := by
  rintro _ _ ⟨⟩

theorem OpWord.getMeasurements (f ask) : OpWord.Statement (.getMeasurements f ask) := by
  rintro _ _ ⟨⟩

theorem OpWord.keyExchange (f) : OpWord.Statement (.keyExchange f) := by
  rintro _ _ ⟨⟩

theorem OpWord.keyUpdate (f) : OpWord.Statement (.keyUpdate f) := by
  rintro _ _ ⟨⟩

theorem OpWord.endSession (f) : OpWord.Statement (.endSession f) := by
  rintro _ _ ⟨⟩

theorem OpWord.vendorDefinedRequest (t sign v) : OpWord.Statement (.vendorDefinedRequest t sign v) := by
  rintro _ _ ⟨⟩

theorem OpWord.ideKm (f) : OpWord.Statement (.ideKm f) := by
  rintro _ _ ⟨⟩

theorem OpWord.nop (m) : OpWord.Statement (.nop m) := by
  rintro _ _ he
  cases m <;> cases he <;> decide

theorem OpWord.fadd (h t rm d a b) : OpWord.Statement (.fadd h t rm d a b) := by
  rintro hW _ ⟨⟩
  rw [show slotOf _ = 6 + 4 * h.cl.toNat from rfl, vab_slot]
  show decVab _ (vFields (vBits _)) _ = _
  rw [vFields_vBits]
  unfold decVab
  simp only [vop_hi, vop_lo, BitVec.toNat_ofNat, Nat.reduceMod, Nat.reducePow, BitVec.reduceExtractLsb',
      BitVec.ofNat_eq_ofNat]
  have hw := hW
  simp only [WellFormed, Bool.and_eq_true] at hw
  simp (disch := first | omega | simp [hw]) only [SWord.g, Option.getD_some, Option.getD_none, Option.isSome_some,
      Option.isSome_none, Option.map_some, Option.map_none, Option.bind_some, app_hi, app_lo, bit_hi, bit_lo,
      zext_hi, zext_lo, zext_bit_hi, zext_bit_lo, zero_ext, zero_bit, zext_back, ext_self, bool_bit, rm_back,
      src_back, sw_ext, vw_ext, cpyw_ext, stgw_ext, amow_ext, src1, src2, src3, fty_back]
  simp [chkO, withTy, needExt, hW, hw]

theorem OpWord.fsub (h t rm d a b) : OpWord.Statement (.fsub h t rm d a b) := by
  rintro hW _ ⟨⟩
  rw [show slotOf _ = 6 + 4 * h.cl.toNat from rfl, vab_slot]
  show decVab _ (vFields (vBits _)) _ = _
  rw [vFields_vBits]
  unfold decVab
  simp only [vop_hi, vop_lo, BitVec.toNat_ofNat, Nat.reduceMod, Nat.reducePow, BitVec.reduceExtractLsb',
      BitVec.ofNat_eq_ofNat]
  have hw := hW
  simp only [WellFormed, Bool.and_eq_true] at hw
  simp (disch := first | omega | simp [hw]) only [SWord.g, Option.getD_some, Option.getD_none, Option.isSome_some,
      Option.isSome_none, Option.map_some, Option.map_none, Option.bind_some, app_hi, app_lo, bit_hi, bit_lo,
      zext_hi, zext_lo, zext_bit_hi, zext_bit_lo, zero_ext, zero_bit, zext_back, ext_self, bool_bit, rm_back,
      src_back, sw_ext, vw_ext, cpyw_ext, stgw_ext, amow_ext, src1, src2, src3, fty_back]
  simp [chkO, withTy, needExt, hW, hw]

theorem OpWord.fmul (h t rm d a b) : OpWord.Statement (.fmul h t rm d a b) := by
  rintro hW _ ⟨⟩
  rw [show slotOf _ = 6 + 4 * h.cl.toNat from rfl, vab_slot]
  show decVab _ (vFields (vBits _)) _ = _
  rw [vFields_vBits]
  unfold decVab
  simp only [vop_hi, vop_lo, BitVec.toNat_ofNat, Nat.reduceMod, Nat.reducePow, BitVec.reduceExtractLsb',
      BitVec.ofNat_eq_ofNat]
  have hw := hW
  simp only [WellFormed, Bool.and_eq_true] at hw
  simp (disch := first | omega | simp [hw]) only [SWord.g, Option.getD_some, Option.getD_none, Option.isSome_some,
      Option.isSome_none, Option.map_some, Option.map_none, Option.bind_some, app_hi, app_lo, bit_hi, bit_lo,
      zext_hi, zext_lo, zext_bit_hi, zext_bit_lo, zero_ext, zero_bit, zext_back, ext_self, bool_bit, rm_back,
      src_back, sw_ext, vw_ext, cpyw_ext, stgw_ext, amow_ext, src1, src2, src3, fty_back]
  simp [chkO, withTy, needExt, hW, hw]

theorem OpWord.fma (h t rm d a b c) : OpWord.Statement (.fma h t rm d a b c) := by
  rintro hW _ ⟨⟩
  rw [show slotOf _ = 6 + 4 * h.cl.toNat from rfl, vab_slot]
  show decVab _ (vFields (vBits _)) _ = _
  rw [vFields_vBits]
  unfold decVab
  simp only [vop_hi, vop_lo, BitVec.toNat_ofNat, Nat.reduceMod, Nat.reducePow, BitVec.reduceExtractLsb',
      BitVec.ofNat_eq_ofNat]
  have hw := hW
  simp only [WellFormed, Bool.and_eq_true] at hw
  cases rm <;> (simp (disch := first | omega | simp [hw]) only [SWord.g, Option.getD_some, Option.getD_none,
      Option.isSome_some, Option.isSome_none, Option.map_some, Option.map_none, Option.bind_some, app_hi, app_lo,
      bit_hi, bit_lo, zext_hi, zext_lo, zext_bit_hi, zext_bit_lo, zero_ext, zero_bit, zext_back, ext_self, bool_bit,
      rm_back, src_back, sw_ext, vw_ext, cpyw_ext, stgw_ext, amow_ext, src1, src2, src3, rmExt, rmExtZero, rmWord,
      fty_back]; simp [chkO, withTy, needExt, hW, hw])

theorem OpWord.fms (h t rm d a b c) : OpWord.Statement (.fms h t rm d a b c) := by
  rintro hW _ ⟨⟩
  rw [show slotOf _ = 6 + 4 * h.cl.toNat from rfl, vab_slot]
  show decVab _ (vFields (vBits _)) _ = _
  rw [vFields_vBits]
  unfold decVab
  simp only [vop_hi, vop_lo, BitVec.toNat_ofNat, Nat.reduceMod, Nat.reducePow, BitVec.reduceExtractLsb',
      BitVec.ofNat_eq_ofNat]
  have hw := hW
  simp only [WellFormed, Bool.and_eq_true] at hw
  cases rm <;> (simp (disch := first | omega | simp [hw]) only [SWord.g, Option.getD_some, Option.getD_none,
      Option.isSome_some, Option.isSome_none, Option.map_some, Option.map_none, Option.bind_some, app_hi, app_lo,
      bit_hi, bit_lo, zext_hi, zext_lo, zext_bit_hi, zext_bit_lo, zero_ext, zero_bit, zext_back, ext_self, bool_bit,
      rm_back, src_back, sw_ext, vw_ext, cpyw_ext, stgw_ext, amow_ext, src1, src2, src3, rmExt, rmExtZero, rmWord,
      fty_back]; simp [chkO, withTy, needExt, hW, hw])

theorem OpWord.fnma (h t rm d a b c) : OpWord.Statement (.fnma h t rm d a b c) := by
  rintro hW _ ⟨⟩
  rw [show slotOf _ = 6 + 4 * h.cl.toNat from rfl, vab_slot]
  show decVab _ (vFields (vBits _)) _ = _
  rw [vFields_vBits]
  unfold decVab
  simp only [vop_hi, vop_lo, BitVec.toNat_ofNat, Nat.reduceMod, Nat.reducePow, BitVec.reduceExtractLsb',
      BitVec.ofNat_eq_ofNat]
  have hw := hW
  simp only [WellFormed, Bool.and_eq_true] at hw
  cases rm <;> (simp (disch := first | omega | simp [hw]) only [SWord.g, Option.getD_some, Option.getD_none,
      Option.isSome_some, Option.isSome_none, Option.map_some, Option.map_none, Option.bind_some, app_hi, app_lo,
      bit_hi, bit_lo, zext_hi, zext_lo, zext_bit_hi, zext_bit_lo, zero_ext, zero_bit, zext_back, ext_self, bool_bit,
      rm_back, src_back, sw_ext, vw_ext, cpyw_ext, stgw_ext, amow_ext, src1, src2, src3, rmExt, rmExtZero, rmWord,
      fty_back]; simp [chkO, withTy, needExt, hW, hw])

theorem OpWord.fmin (h t d a b) : OpWord.Statement (.fmin h t d a b) := by
  rintro hW _ ⟨⟩
  rw [show slotOf _ = 6 + 4 * h.cl.toNat from rfl, vab_slot]
  show decVab _ (vFields (vBits _)) _ = _
  rw [vFields_vBits]
  unfold decVab
  simp only [vop_hi, vop_lo, BitVec.toNat_ofNat, Nat.reduceMod, Nat.reducePow, BitVec.reduceExtractLsb',
      BitVec.ofNat_eq_ofNat]
  have hw := hW
  simp only [WellFormed, Bool.and_eq_true] at hw
  simp (disch := first | omega | simp [hw]) only [SWord.g, Option.getD_some, Option.getD_none, Option.isSome_some,
      Option.isSome_none, Option.map_some, Option.map_none, Option.bind_some, app_hi, app_lo, bit_hi, bit_lo,
      zext_hi, zext_lo, zext_bit_hi, zext_bit_lo, zero_ext, zero_bit, zext_back, ext_self, bool_bit, src_back,
      sw_ext, vw_ext, cpyw_ext, stgw_ext, amow_ext, src1, src2, src3, fty_back]
  simp [chkO, withTy, needExt, hW, hw]

theorem OpWord.fmax (h t d a b) : OpWord.Statement (.fmax h t d a b) := by
  rintro hW _ ⟨⟩
  rw [show slotOf _ = 6 + 4 * h.cl.toNat from rfl, vab_slot]
  show decVab _ (vFields (vBits _)) _ = _
  rw [vFields_vBits]
  unfold decVab
  simp only [vop_hi, vop_lo, BitVec.toNat_ofNat, Nat.reduceMod, Nat.reducePow, BitVec.reduceExtractLsb',
      BitVec.ofNat_eq_ofNat]
  have hw := hW
  simp only [WellFormed, Bool.and_eq_true] at hw
  simp (disch := first | omega | simp [hw]) only [SWord.g, Option.getD_some, Option.getD_none, Option.isSome_some,
      Option.isSome_none, Option.map_some, Option.map_none, Option.bind_some, app_hi, app_lo, bit_hi, bit_lo,
      zext_hi, zext_lo, zext_bit_hi, zext_bit_lo, zero_ext, zero_bit, zext_back, ext_self, bool_bit, src_back,
      sw_ext, vw_ext, cpyw_ext, stgw_ext, amow_ext, src1, src2, src3, fty_back]
  simp [chkO, withTy, needExt, hW, hw]

theorem OpWord.fabs (h t d a) : OpWord.Statement (.fabs h t d a) := by
  rintro hW _ ⟨⟩
  rw [show slotOf _ = 6 + 4 * h.cl.toNat from rfl, vab_slot]
  show decVab _ (vFields (vBits _)) _ = _
  rw [vFields_vBits]
  unfold decVab
  simp only [vop_hi, vop_lo, BitVec.toNat_ofNat, Nat.reduceMod, Nat.reducePow, BitVec.reduceExtractLsb',
      BitVec.ofNat_eq_ofNat]
  have hw := hW
  simp only [WellFormed, Bool.and_eq_true] at hw
  simp (disch := first | omega | simp [hw]) only [SWord.g, Option.getD_some, Option.getD_none, Option.isSome_some,
      Option.isSome_none, Option.map_some, Option.map_none, Option.bind_some, app_hi, app_lo, bit_hi, bit_lo,
      zext_hi, zext_lo, zext_bit_hi, zext_bit_lo, zero_ext, zero_bit, zext_back, ext_self, bool_bit, src_back,
      sw_ext, vw_ext, cpyw_ext, stgw_ext, amow_ext, src1, src2, src3, fty_back]
  simp [chkO, withTy, needExt, hW, hw]

theorem OpWord.fneg (h t d a) : OpWord.Statement (.fneg h t d a) := by
  rintro hW _ ⟨⟩
  rw [show slotOf _ = 6 + 4 * h.cl.toNat from rfl, vab_slot]
  show decVab _ (vFields (vBits _)) _ = _
  rw [vFields_vBits]
  unfold decVab
  simp only [vop_hi, vop_lo, BitVec.toNat_ofNat, Nat.reduceMod, Nat.reducePow, BitVec.reduceExtractLsb',
      BitVec.ofNat_eq_ofNat]
  have hw := hW
  simp only [WellFormed, Bool.and_eq_true] at hw
  simp (disch := first | omega | simp [hw]) only [SWord.g, Option.getD_some, Option.getD_none, Option.isSome_some,
      Option.isSome_none, Option.map_some, Option.map_none, Option.bind_some, app_hi, app_lo, bit_hi, bit_lo,
      zext_hi, zext_lo, zext_bit_hi, zext_bit_lo, zero_ext, zero_bit, zext_back, ext_self, bool_bit, src_back,
      sw_ext, vw_ext, cpyw_ext, stgw_ext, amow_ext, src1, src2, src3, fty_back]
  simp [chkO, withTy, needExt, hW, hw]

theorem OpWord.fcmp (h t cc d a b) : OpWord.Statement (.fcmp h t cc d a b) := by
  rintro hW _ ⟨⟩
  rw [show slotOf _ = 6 + 4 * h.cl.toNat from rfl, vab_slot]
  show decVab _ (vFields (vBits _)) _ = _
  rw [vFields_vBits]
  unfold decVab
  simp only [vop_hi, vop_lo, BitVec.toNat_ofNat, Nat.reduceMod, Nat.reducePow, BitVec.reduceExtractLsb',
      BitVec.ofNat_eq_ofNat]
  have hw := hW
  simp only [WellFormed, Bool.and_eq_true] at hw
  simp (disch := first | omega | simp [hw]) only [SWord.g, Option.getD_some, Option.getD_none, Option.isSome_some,
      Option.isSome_none, Option.map_some, Option.map_none, Option.bind_some, app_hi, app_lo, bit_hi, bit_lo,
      zext_hi, zext_lo, zext_bit_hi, zext_bit_lo, zero_ext, zero_bit, zext_back, ext_self, bool_bit, fcond_back,
      mNum_back, mZero_back, src_back, sw_ext, vw_ext, cpyw_ext, stgw_ext, amow_ext, src1, src2, src3, fty_back]
  simp [chkO, withTy, needExt, hW, hw]

theorem OpWord.dot2 (h t rm d a b c) : OpWord.Statement (.dot2 h t rm d a b c) := by
  rintro hW _ ⟨⟩
  rw [show slotOf _ = 6 + 4 * h.cl.toNat from rfl, vab_slot]
  show decVab _ (vFields (vBits _)) _ = _
  rw [vFields_vBits]
  unfold decVab
  simp only [vop_hi, vop_lo, BitVec.toNat_ofNat, Nat.reduceMod, Nat.reducePow, BitVec.reduceExtractLsb',
      BitVec.ofNat_eq_ofNat]
  have hw := hW
  simp only [WellFormed, Bool.and_eq_true] at hw
  cases rm <;> (simp (disch := first | omega | simp [hw]) only [SWord.g, Option.getD_some, Option.getD_none,
      Option.isSome_some, Option.isSome_none, Option.map_some, Option.map_none, Option.bind_some, app_hi, app_lo,
      bit_hi, bit_lo, zext_hi, zext_lo, zext_bit_hi, zext_bit_lo, zero_ext, zero_bit, zext_back, ext_self, bool_bit,
      rm_back, src_back, sw_ext, vw_ext, cpyw_ext, stgw_ext, amow_ext, src1, src2, src3, rmExt, rmExtZero, rmWord,
      hty_back]; simp [chkO, withTy, needExt, hW, hw])

theorem OpWord.iadd (h t sa d a b) : OpWord.Statement (.iadd h t sa d a b) := by
  rintro hW _ ⟨⟩
  rw [show slotOf _ = 6 + 4 * h.cl.toNat from rfl, vab_slot]
  show decVab _ (vFields (vBits _)) _ = _
  rw [vFields_vBits]
  unfold decVab
  simp only [vop_hi, vop_lo, BitVec.toNat_ofNat, Nat.reduceMod, Nat.reducePow, BitVec.reduceExtractLsb',
      BitVec.ofNat_eq_ofNat]
  have hw := hW
  simp only [WellFormed, Bool.and_eq_true] at hw
  simp (disch := first | omega | simp [hw]) only [SWord.g, Option.getD_some, Option.getD_none, Option.isSome_some,
      Option.isSome_none, Option.map_some, Option.map_none, Option.bind_some, app_hi, app_lo, bit_hi, bit_lo,
      zext_hi, zext_lo, zext_bit_hi, zext_bit_lo, zero_ext, zero_bit, zext_back, ext_self, bool_bit, sat_back,
      src_back, sw_ext, vw_ext, cpyw_ext, stgw_ext, amow_ext, src1, src2, src3, ity_back]
  simp [chkO, withTy, needExt, hW, hw]

theorem OpWord.isub (h t sa d a b) : OpWord.Statement (.isub h t sa d a b) := by
  rintro hW _ ⟨⟩
  rw [show slotOf _ = 6 + 4 * h.cl.toNat from rfl, vab_slot]
  show decVab _ (vFields (vBits _)) _ = _
  rw [vFields_vBits]
  unfold decVab
  simp only [vop_hi, vop_lo, BitVec.toNat_ofNat, Nat.reduceMod, Nat.reducePow, BitVec.reduceExtractLsb',
      BitVec.ofNat_eq_ofNat]
  have hw := hW
  simp only [WellFormed, Bool.and_eq_true] at hw
  simp (disch := first | omega | simp [hw]) only [SWord.g, Option.getD_some, Option.getD_none, Option.isSome_some,
      Option.isSome_none, Option.map_some, Option.map_none, Option.bind_some, app_hi, app_lo, bit_hi, bit_lo,
      zext_hi, zext_lo, zext_bit_hi, zext_bit_lo, zero_ext, zero_bit, zext_back, ext_self, bool_bit, sat_back,
      src_back, sw_ext, vw_ext, cpyw_ext, stgw_ext, amow_ext, src1, src2, src3, ity_back]
  simp [chkO, withTy, needExt, hW, hw]

theorem OpWord.imul (h t d a b) : OpWord.Statement (.imul h t d a b) := by
  rintro hW _ ⟨⟩
  rw [show slotOf _ = 6 + 4 * h.cl.toNat from rfl, vab_slot]
  show decVab _ (vFields (vBits _)) _ = _
  rw [vFields_vBits]
  unfold decVab
  simp only [vop_hi, vop_lo, BitVec.toNat_ofNat, Nat.reduceMod, Nat.reducePow, BitVec.reduceExtractLsb',
      BitVec.ofNat_eq_ofNat]
  have hw := hW
  simp only [WellFormed, Bool.and_eq_true] at hw
  simp (disch := first | omega | simp [hw]) only [SWord.g, Option.getD_some, Option.getD_none, Option.isSome_some,
      Option.isSome_none, Option.map_some, Option.map_none, Option.bind_some, app_hi, app_lo, bit_hi, bit_lo,
      zext_hi, zext_lo, zext_bit_hi, zext_bit_lo, zero_ext, zero_bit, zext_back, ext_self, bool_bit, src_back,
      sw_ext, vw_ext, cpyw_ext, stgw_ext, amow_ext, src1, src2, src3, ity_back]
  simp [chkO, withTy, needExt, hW, hw]

theorem OpWord.imulh (h t d a b) : OpWord.Statement (.imulh h t d a b) := by
  rintro hW _ ⟨⟩
  rw [show slotOf _ = 6 + 4 * h.cl.toNat from rfl, vab_slot]
  show decVab _ (vFields (vBits _)) _ = _
  rw [vFields_vBits]
  unfold decVab
  simp only [vop_hi, vop_lo, BitVec.toNat_ofNat, Nat.reduceMod, Nat.reducePow, BitVec.reduceExtractLsb',
      BitVec.ofNat_eq_ofNat]
  have hw := hW
  simp only [WellFormed, Bool.and_eq_true] at hw
  simp (disch := first | omega | simp [hw]) only [SWord.g, Option.getD_some, Option.getD_none, Option.isSome_some,
      Option.isSome_none, Option.map_some, Option.map_none, Option.bind_some, app_hi, app_lo, bit_hi, bit_lo,
      zext_hi, zext_lo, zext_bit_hi, zext_bit_lo, zero_ext, zero_bit, zext_back, ext_self, bool_bit, src_back,
      sw_ext, vw_ext, cpyw_ext, stgw_ext, amow_ext, src1, src2, src3, ity_back]
  simp [chkO, withTy, needExt, hW, hw]

theorem OpWord.imad (h t d a b c) : OpWord.Statement (.imad h t d a b c) := by
  rintro hW _ ⟨⟩
  rw [show slotOf _ = 6 + 4 * h.cl.toNat from rfl, vab_slot]
  show decVab _ (vFields (vBits _)) _ = _
  rw [vFields_vBits]
  unfold decVab
  simp only [vop_hi, vop_lo, BitVec.toNat_ofNat, Nat.reduceMod, Nat.reducePow, BitVec.reduceExtractLsb',
      BitVec.ofNat_eq_ofNat]
  have hw := hW
  simp only [WellFormed, Bool.and_eq_true] at hw
  simp (disch := first | omega | simp [hw]) only [SWord.g, Option.getD_some, Option.getD_none, Option.isSome_some,
      Option.isSome_none, Option.map_some, Option.map_none, Option.bind_some, app_hi, app_lo, bit_hi, bit_lo,
      zext_hi, zext_lo, zext_bit_hi, zext_bit_lo, zero_ext, zero_bit, zext_back, ext_self, bool_bit, src_back,
      sw_ext, vw_ext, cpyw_ext, stgw_ext, amow_ext, src1, src2, src3, ity_back]
  simp [chkO, withTy, needExt, hW, hw]

theorem OpWord.imin (h t d a b) : OpWord.Statement (.imin h t d a b) := by
  rintro hW _ ⟨⟩
  rw [show slotOf _ = 6 + 4 * h.cl.toNat from rfl, vab_slot]
  show decVab _ (vFields (vBits _)) _ = _
  rw [vFields_vBits]
  unfold decVab
  simp only [vop_hi, vop_lo, BitVec.toNat_ofNat, Nat.reduceMod, Nat.reducePow, BitVec.reduceExtractLsb',
      BitVec.ofNat_eq_ofNat]
  have hw := hW
  simp only [WellFormed, Bool.and_eq_true] at hw
  simp (disch := first | omega | simp [hw]) only [SWord.g, Option.getD_some, Option.getD_none, Option.isSome_some,
      Option.isSome_none, Option.map_some, Option.map_none, Option.bind_some, app_hi, app_lo, bit_hi, bit_lo,
      zext_hi, zext_lo, zext_bit_hi, zext_bit_lo, zero_ext, zero_bit, zext_back, ext_self, bool_bit, src_back,
      sw_ext, vw_ext, cpyw_ext, stgw_ext, amow_ext, src1, src2, src3, ity_back]
  simp [chkO, withTy, needExt, hW, hw]

theorem OpWord.imax (h t d a b) : OpWord.Statement (.imax h t d a b) := by
  rintro hW _ ⟨⟩
  rw [show slotOf _ = 6 + 4 * h.cl.toNat from rfl, vab_slot]
  show decVab _ (vFields (vBits _)) _ = _
  rw [vFields_vBits]
  unfold decVab
  simp only [vop_hi, vop_lo, BitVec.toNat_ofNat, Nat.reduceMod, Nat.reducePow, BitVec.reduceExtractLsb',
      BitVec.ofNat_eq_ofNat]
  have hw := hW
  simp only [WellFormed, Bool.and_eq_true] at hw
  simp (disch := first | omega | simp [hw]) only [SWord.g, Option.getD_some, Option.getD_none, Option.isSome_some,
      Option.isSome_none, Option.map_some, Option.map_none, Option.bind_some, app_hi, app_lo, bit_hi, bit_lo,
      zext_hi, zext_lo, zext_bit_hi, zext_bit_lo, zero_ext, zero_bit, zext_back, ext_self, bool_bit, src_back,
      sw_ext, vw_ext, cpyw_ext, stgw_ext, amow_ext, src1, src2, src3, ity_back]
  simp [chkO, withTy, needExt, hW, hw]

theorem OpWord.iminu (h t d a b) : OpWord.Statement (.iminu h t d a b) := by
  rintro hW _ ⟨⟩
  rw [show slotOf _ = 6 + 4 * h.cl.toNat from rfl, vab_slot]
  show decVab _ (vFields (vBits _)) _ = _
  rw [vFields_vBits]
  unfold decVab
  simp only [vop_hi, vop_lo, BitVec.toNat_ofNat, Nat.reduceMod, Nat.reducePow, BitVec.reduceExtractLsb',
      BitVec.ofNat_eq_ofNat]
  have hw := hW
  simp only [WellFormed, Bool.and_eq_true] at hw
  simp (disch := first | omega | simp [hw]) only [SWord.g, Option.getD_some, Option.getD_none, Option.isSome_some,
      Option.isSome_none, Option.map_some, Option.map_none, Option.bind_some, app_hi, app_lo, bit_hi, bit_lo,
      zext_hi, zext_lo, zext_bit_hi, zext_bit_lo, zero_ext, zero_bit, zext_back, ext_self, bool_bit, src_back,
      sw_ext, vw_ext, cpyw_ext, stgw_ext, amow_ext, src1, src2, src3, ity_back]
  simp [chkO, withTy, needExt, hW, hw]

theorem OpWord.imaxu (h t d a b) : OpWord.Statement (.imaxu h t d a b) := by
  rintro hW _ ⟨⟩
  rw [show slotOf _ = 6 + 4 * h.cl.toNat from rfl, vab_slot]
  show decVab _ (vFields (vBits _)) _ = _
  rw [vFields_vBits]
  unfold decVab
  simp only [vop_hi, vop_lo, BitVec.toNat_ofNat, Nat.reduceMod, Nat.reducePow, BitVec.reduceExtractLsb',
      BitVec.ofNat_eq_ofNat]
  have hw := hW
  simp only [WellFormed, Bool.and_eq_true] at hw
  simp (disch := first | omega | simp [hw]) only [SWord.g, Option.getD_some, Option.getD_none, Option.isSome_some,
      Option.isSome_none, Option.map_some, Option.map_none, Option.bind_some, app_hi, app_lo, bit_hi, bit_lo,
      zext_hi, zext_lo, zext_bit_hi, zext_bit_lo, zero_ext, zero_bit, zext_back, ext_self, bool_bit, src_back,
      sw_ext, vw_ext, cpyw_ext, stgw_ext, amow_ext, src1, src2, src3, ity_back]
  simp [chkO, withTy, needExt, hW, hw]

theorem OpWord.vand (h t d a b) : OpWord.Statement (.vand h t d a b) := by
  rintro hW _ ⟨⟩
  rw [show slotOf _ = 6 + 4 * h.cl.toNat from rfl, vab_slot]
  show decVab _ (vFields (vBits _)) _ = _
  rw [vFields_vBits]
  unfold decVab
  simp only [vop_hi, vop_lo, BitVec.toNat_ofNat, Nat.reduceMod, Nat.reducePow, BitVec.reduceExtractLsb',
      BitVec.ofNat_eq_ofNat]
  have hw := hW
  simp only [WellFormed, Bool.and_eq_true] at hw
  simp (disch := first | omega | simp [hw]) only [SWord.g, Option.getD_some, Option.getD_none, Option.isSome_some,
      Option.isSome_none, Option.map_some, Option.map_none, Option.bind_some, app_hi, app_lo, bit_hi, bit_lo,
      zext_hi, zext_lo, zext_bit_hi, zext_bit_lo, zero_ext, zero_bit, zext_back, ext_self, bool_bit, src_back,
      scalar_back, sw_ext, vw_ext, cpyw_ext, stgw_ext, amow_ext, src1, src2, src3, ity_back]
  simp [chkO, withTy, needExt, hW, hw]

theorem OpWord.vor (h t d a b) : OpWord.Statement (.vor h t d a b) := by
  rintro hW _ ⟨⟩
  rw [show slotOf _ = 6 + 4 * h.cl.toNat from rfl, vab_slot]
  show decVab _ (vFields (vBits _)) _ = _
  rw [vFields_vBits]
  unfold decVab
  simp only [vop_hi, vop_lo, BitVec.toNat_ofNat, Nat.reduceMod, Nat.reducePow, BitVec.reduceExtractLsb',
      BitVec.ofNat_eq_ofNat]
  have hw := hW
  simp only [WellFormed, Bool.and_eq_true] at hw
  simp (disch := first | omega | simp [hw]) only [SWord.g, Option.getD_some, Option.getD_none, Option.isSome_some,
      Option.isSome_none, Option.map_some, Option.map_none, Option.bind_some, app_hi, app_lo, bit_hi, bit_lo,
      zext_hi, zext_lo, zext_bit_hi, zext_bit_lo, zero_ext, zero_bit, zext_back, ext_self, bool_bit, src_back,
      scalar_back, sw_ext, vw_ext, cpyw_ext, stgw_ext, amow_ext, src1, src2, src3, ity_back]
  simp [chkO, withTy, needExt, hW, hw]

theorem OpWord.vxor (h t d a b) : OpWord.Statement (.vxor h t d a b) := by
  rintro hW _ ⟨⟩
  rw [show slotOf _ = 6 + 4 * h.cl.toNat from rfl, vab_slot]
  show decVab _ (vFields (vBits _)) _ = _
  rw [vFields_vBits]
  unfold decVab
  simp only [vop_hi, vop_lo, BitVec.toNat_ofNat, Nat.reduceMod, Nat.reducePow, BitVec.reduceExtractLsb',
      BitVec.ofNat_eq_ofNat]
  have hw := hW
  simp only [WellFormed, Bool.and_eq_true] at hw
  simp (disch := first | omega | simp [hw]) only [SWord.g, Option.getD_some, Option.getD_none, Option.isSome_some,
      Option.isSome_none, Option.map_some, Option.map_none, Option.bind_some, app_hi, app_lo, bit_hi, bit_lo,
      zext_hi, zext_lo, zext_bit_hi, zext_bit_lo, zero_ext, zero_bit, zext_back, ext_self, bool_bit, src_back,
      scalar_back, sw_ext, vw_ext, cpyw_ext, stgw_ext, amow_ext, src1, src2, src3, ity_back]
  simp [chkO, withTy, needExt, hW, hw]

theorem OpWord.vandn (h t d a b) : OpWord.Statement (.vandn h t d a b) := by
  rintro hW _ ⟨⟩
  rw [show slotOf _ = 6 + 4 * h.cl.toNat from rfl, vab_slot]
  show decVab _ (vFields (vBits _)) _ = _
  rw [vFields_vBits]
  unfold decVab
  simp only [vop_hi, vop_lo, BitVec.toNat_ofNat, Nat.reduceMod, Nat.reducePow, BitVec.reduceExtractLsb',
      BitVec.ofNat_eq_ofNat]
  have hw := hW
  simp only [WellFormed, Bool.and_eq_true] at hw
  simp (disch := first | omega | simp [hw]) only [SWord.g, Option.getD_some, Option.getD_none, Option.isSome_some,
      Option.isSome_none, Option.map_some, Option.map_none, Option.bind_some, app_hi, app_lo, bit_hi, bit_lo,
      zext_hi, zext_lo, zext_bit_hi, zext_bit_lo, zero_ext, zero_bit, zext_back, ext_self, bool_bit, src_back,
      scalar_back, sw_ext, vw_ext, cpyw_ext, stgw_ext, amow_ext, src1, src2, src3, ity_back]
  simp [chkO, withTy, needExt, hW, hw]

theorem OpWord.vshl (h t d a b) : OpWord.Statement (.vshl h t d a b) := by
  rintro hW _ ⟨⟩
  rw [show slotOf _ = 6 + 4 * h.cl.toNat from rfl, vab_slot]
  show decVab _ (vFields (vBits _)) _ = _
  rw [vFields_vBits]
  unfold decVab
  simp only [vop_hi, vop_lo, BitVec.toNat_ofNat, Nat.reduceMod, Nat.reducePow, BitVec.reduceExtractLsb',
      BitVec.ofNat_eq_ofNat]
  have hw := hW
  simp only [WellFormed, Bool.and_eq_true] at hw
  simp (disch := first | omega | simp [hw]) only [SWord.g, Option.getD_some, Option.getD_none, Option.isSome_some,
      Option.isSome_none, Option.map_some, Option.map_none, Option.bind_some, app_hi, app_lo, bit_hi, bit_lo,
      zext_hi, zext_lo, zext_bit_hi, zext_bit_lo, zero_ext, zero_bit, zext_back, ext_self, bool_bit, src_back,
      scalar_back, sw_ext, vw_ext, cpyw_ext, stgw_ext, amow_ext, src1, src2, src3, ity_back]
  simp [chkO, withTy, needExt, hW, hw]

theorem OpWord.vshr (h t d a b) : OpWord.Statement (.vshr h t d a b) := by
  rintro hW _ ⟨⟩
  rw [show slotOf _ = 6 + 4 * h.cl.toNat from rfl, vab_slot]
  show decVab _ (vFields (vBits _)) _ = _
  rw [vFields_vBits]
  unfold decVab
  simp only [vop_hi, vop_lo, BitVec.toNat_ofNat, Nat.reduceMod, Nat.reducePow, BitVec.reduceExtractLsb',
      BitVec.ofNat_eq_ofNat]
  have hw := hW
  simp only [WellFormed, Bool.and_eq_true] at hw
  simp (disch := first | omega | simp [hw]) only [SWord.g, Option.getD_some, Option.getD_none, Option.isSome_some,
      Option.isSome_none, Option.map_some, Option.map_none, Option.bind_some, app_hi, app_lo, bit_hi, bit_lo,
      zext_hi, zext_lo, zext_bit_hi, zext_bit_lo, zero_ext, zero_bit, zext_back, ext_self, bool_bit, src_back,
      scalar_back, sw_ext, vw_ext, cpyw_ext, stgw_ext, amow_ext, src1, src2, src3, ity_back]
  simp [chkO, withTy, needExt, hW, hw]

theorem OpWord.vsar (h t d a b) : OpWord.Statement (.vsar h t d a b) := by
  rintro hW _ ⟨⟩
  rw [show slotOf _ = 6 + 4 * h.cl.toNat from rfl, vab_slot]
  show decVab _ (vFields (vBits _)) _ = _
  rw [vFields_vBits]
  unfold decVab
  simp only [vop_hi, vop_lo, BitVec.toNat_ofNat, Nat.reduceMod, Nat.reducePow, BitVec.reduceExtractLsb',
      BitVec.ofNat_eq_ofNat]
  have hw := hW
  simp only [WellFormed, Bool.and_eq_true] at hw
  simp (disch := first | omega | simp [hw]) only [SWord.g, Option.getD_some, Option.getD_none, Option.isSome_some,
      Option.isSome_none, Option.map_some, Option.map_none, Option.bind_some, app_hi, app_lo, bit_hi, bit_lo,
      zext_hi, zext_lo, zext_bit_hi, zext_bit_lo, zero_ext, zero_bit, zext_back, ext_self, bool_bit, src_back,
      scalar_back, sw_ext, vw_ext, cpyw_ext, stgw_ext, amow_ext, src1, src2, src3, ity_back]
  simp [chkO, withTy, needExt, hW, hw]

theorem OpWord.icmp (h t cc d a b) : OpWord.Statement (.icmp h t cc d a b) := by
  rintro hW _ ⟨⟩
  rw [show slotOf _ = 6 + 4 * h.cl.toNat from rfl, vab_slot]
  show decVab _ (vFields (vBits _)) _ = _
  rw [vFields_vBits]
  unfold decVab
  simp only [vop_hi, vop_lo, BitVec.toNat_ofNat, Nat.reduceMod, Nat.reducePow, BitVec.reduceExtractLsb',
      BitVec.ofNat_eq_ofNat]
  have hw := hW
  simp only [WellFormed, Bool.and_eq_true] at hw
  simp (disch := first | omega | simp [hw]) only [SWord.g, Option.getD_some, Option.getD_none, Option.isSome_some,
      Option.isSome_none, Option.map_some, Option.map_none, Option.bind_some, app_hi, app_lo, bit_hi, bit_lo,
      zext_hi, zext_lo, zext_bit_hi, zext_bit_lo, zero_ext, zero_bit, zext_back, ext_self, bool_bit, icond_back,
      mNum_back, mZero_back, src_back, sw_ext, vw_ext, cpyw_ext, stgw_ext, amow_ext, src1, src2, src3, ity_back]
  simp [chkO, withTy, needExt, hW, hw]

theorem OpWord.icmpu (h t cc d a b) : OpWord.Statement (.icmpu h t cc d a b) := by
  rintro hW _ ⟨⟩
  rw [show slotOf _ = 6 + 4 * h.cl.toNat from rfl, vab_slot]
  show decVab _ (vFields (vBits _)) _ = _
  rw [vFields_vBits]
  unfold decVab
  simp only [vop_hi, vop_lo, BitVec.toNat_ofNat, Nat.reduceMod, Nat.reducePow, BitVec.reduceExtractLsb',
      BitVec.ofNat_eq_ofNat]
  have hw := hW
  simp only [WellFormed, Bool.and_eq_true] at hw
  simp (disch := first | omega | simp [hw]) only [SWord.g, Option.getD_some, Option.getD_none, Option.isSome_some,
      Option.isSome_none, Option.map_some, Option.map_none, Option.bind_some, app_hi, app_lo, bit_hi, bit_lo,
      zext_hi, zext_lo, zext_bit_hi, zext_bit_lo, zero_ext, zero_bit, zext_back, ext_self, bool_bit, icond_back,
      mNum_back, mZero_back, src_back, sw_ext, vw_ext, cpyw_ext, stgw_ext, amow_ext, src1, src2, src3, ity_back]
  simp [chkO, withTy, needExt, hW, hw]

theorem OpWord.lmul (h t d a b) : OpWord.Statement (.lmul h t d a b) := by
  rintro hW _ ⟨⟩
  rw [show slotOf _ = 6 + 4 * h.cl.toNat from rfl, vab_slot]
  show decVab _ (vFields (vBits _)) _ = _
  rw [vFields_vBits]
  unfold decVab
  simp only [vop_hi, vop_lo, BitVec.toNat_ofNat, Nat.reduceMod, Nat.reducePow, BitVec.reduceExtractLsb',
      BitVec.ofNat_eq_ofNat]
  have hw := hW
  simp only [WellFormed, Bool.and_eq_true] at hw
  simp (disch := first | omega | simp [hw]) only [SWord.g, Option.getD_some, Option.getD_none, Option.isSome_some,
      Option.isSome_none, Option.map_some, Option.map_none, Option.bind_some, app_hi, app_lo, bit_hi, bit_lo,
      zext_hi, zext_lo, zext_bit_hi, zext_bit_lo, zero_ext, zero_bit, zext_back, ext_self, bool_bit, src_back,
      sw_ext, vw_ext, cpyw_ext, stgw_ext, amow_ext, src1, src2, src3, lty_back]
  simp [chkO, withTy, needExt, hW, hw]

theorem OpWord.lrcp (h t d a) : OpWord.Statement (.lrcp h t d a) := by
  rintro hW _ ⟨⟩
  rw [show slotOf _ = 6 + 4 * h.cl.toNat from rfl, vab_slot]
  show decVab _ (vFields (vBits _)) _ = _
  rw [vFields_vBits]
  unfold decVab
  simp only [vop_hi, vop_lo, BitVec.toNat_ofNat, Nat.reduceMod, Nat.reducePow, BitVec.reduceExtractLsb',
      BitVec.ofNat_eq_ofNat]
  have hw := hW
  simp only [WellFormed, Bool.and_eq_true] at hw
  simp (disch := first | omega | simp [hw]) only [SWord.g, Option.getD_some, Option.getD_none, Option.isSome_some,
      Option.isSome_none, Option.map_some, Option.map_none, Option.bind_some, app_hi, app_lo, bit_hi, bit_lo,
      zext_hi, zext_lo, zext_bit_hi, zext_bit_lo, zero_ext, zero_bit, zext_back, ext_self, bool_bit, src_back,
      sw_ext, vw_ext, cpyw_ext, stgw_ext, amow_ext, src1, src2, src3, lty_back]
  simp [chkO, withTy, needExt, hW, hw]

theorem OpWord.lsqrt (h t d a) : OpWord.Statement (.lsqrt h t d a) := by
  rintro hW _ ⟨⟩
  rw [show slotOf _ = 6 + 4 * h.cl.toNat from rfl, vab_slot]
  show decVab _ (vFields (vBits _)) _ = _
  rw [vFields_vBits]
  unfold decVab
  simp only [vop_hi, vop_lo, BitVec.toNat_ofNat, Nat.reduceMod, Nat.reducePow, BitVec.reduceExtractLsb',
      BitVec.ofNat_eq_ofNat]
  have hw := hW
  simp only [WellFormed, Bool.and_eq_true] at hw
  simp (disch := first | omega | simp [hw]) only [SWord.g, Option.getD_some, Option.getD_none, Option.isSome_some,
      Option.isSome_none, Option.map_some, Option.map_none, Option.bind_some, app_hi, app_lo, bit_hi, bit_lo,
      zext_hi, zext_lo, zext_bit_hi, zext_bit_lo, zero_ext, zero_bit, zext_back, ext_self, bool_bit, src_back,
      sw_ext, vw_ext, cpyw_ext, stgw_ext, amow_ext, src1, src2, src3, lty_back]
  simp [chkO, withTy, needExt, hW, hw]

theorem OpWord.mov (h d a) : OpWord.Statement (.mov h d a) := by
  rintro hW _ ⟨⟩
  rw [show slotOf _ = 6 + 4 * h.cl.toNat from rfl, vab_slot]
  show decVab _ (vFields (vBits _)) _ = _
  rw [vFields_vBits]
  unfold decVab
  simp only [vop_hi, vop_lo, BitVec.toNat_ofNat, Nat.reduceMod, Nat.reducePow, BitVec.reduceExtractLsb',
      BitVec.ofNat_eq_ofNat]
  have hw := hW
  simp only [WellFormed, Bool.and_eq_true] at hw
  simp (disch := first | omega | simp [hw]) only [SWord.g, Option.getD_some, Option.getD_none, Option.isSome_some,
      Option.isSome_none, Option.map_some, Option.map_none, Option.bind_some, app_hi, app_lo, bit_hi, bit_lo,
      zext_hi, zext_lo, zext_bit_hi, zext_bit_lo, zero_ext, zero_bit, zext_back, ext_self, bool_bit, src_back,
      sw_ext, vw_ext, cpyw_ext, stgw_ext, amow_ext, src1, src2, src3]
  simp [chkO, withTy, needExt, hW, hw]

theorem OpWord.vmovi (h d imm) : OpWord.Statement (.vmovi h d imm) := by
  rintro hW _ ⟨⟩
  rw [show slotOf _ = 6 + 4 * h.cl.toNat from rfl, vab_slot]
  show decVab _ (vFields (vBits _)) _ = _
  rw [vFields_vBits]
  unfold decVab
  simp only [vop_hi, vop_lo, BitVec.toNat_ofNat, Nat.reduceMod, Nat.reducePow, BitVec.reduceExtractLsb',
      BitVec.ofNat_eq_ofNat]
  have hw := hW
  simp only [WellFormed, Bool.and_eq_true] at hw
  simp (disch := first | omega | simp [hw]) only [SWord.g, Option.getD_some, Option.getD_none, Option.isSome_some,
      Option.isSome_none, Option.map_some, Option.map_none, Option.bind_some, app_hi, app_lo, bit_hi, bit_lo,
      zext_hi, zext_lo, zext_bit_hi, zext_bit_lo, zero_ext, zero_bit, zext_back, ext_self, bool_bit, scalar_back,
      sw_ext, vw_ext, cpyw_ext, stgw_ext, amow_ext]
  simp [chkO, withTy, needExt, hW, hw]

theorem OpWord.vsel (h d a b k) : OpWord.Statement (.vsel h d a b k) := by
  rintro hW _ ⟨⟩
  rw [show slotOf _ = 6 + 4 * h.cl.toNat from rfl, vab_slot]
  show decVab _ (vFields (vBits _)) _ = _
  rw [vFields_vBits]
  unfold decVab
  simp only [vop_hi, vop_lo, BitVec.toNat_ofNat, Nat.reduceMod, Nat.reducePow, BitVec.reduceExtractLsb',
      BitVec.ofNat_eq_ofNat]
  have hw := hW
  simp only [WellFormed, Bool.and_eq_true] at hw
  simp (disch := first | omega | simp [hw]) only [SWord.g, Option.getD_some, Option.getD_none, Option.isSome_some,
      Option.isSome_none, Option.map_some, Option.map_none, Option.bind_some, app_hi, app_lo, bit_hi, bit_lo,
      zext_hi, zext_lo, zext_bit_hi, zext_bit_lo, zero_ext, zero_bit, zext_back, ext_self, bool_bit, src_back,
      mNum_back, mZero_back, scalar_back, sw_ext, vw_ext, cpyw_ext, stgw_ext, amow_ext, src1, src2, src3]
  simp [chkO, withTy, needExt, hW, hw]

theorem OpWord.shuf (h d a b) : OpWord.Statement (.shuf h d a b) := by
  rintro hW _ ⟨⟩
  rw [show slotOf _ = 6 + 4 * h.cl.toNat from rfl, vab_slot]
  show decVab _ (vFields (vBits _)) _ = _
  rw [vFields_vBits]
  unfold decVab
  simp only [vop_hi, vop_lo, BitVec.toNat_ofNat, Nat.reduceMod, Nat.reducePow, BitVec.reduceExtractLsb',
      BitVec.ofNat_eq_ofNat]
  have hw := hW
  simp only [WellFormed, Bool.and_eq_true] at hw
  simp (disch := first | omega | simp [hw]) only [SWord.g, Option.getD_some, Option.getD_none, Option.isSome_some,
      Option.isSome_none, Option.map_some, Option.map_none, Option.bind_some, app_hi, app_lo, bit_hi, bit_lo,
      zext_hi, zext_lo, zext_bit_hi, zext_bit_lo, zero_ext, zero_bit, zext_back, ext_self, bool_bit, src_back,
      sw_ext, vw_ext, cpyw_ext, stgw_ext, amow_ext, src1, src2, src3]
  simp [chkO, withTy, needExt, hW, hw]

theorem OpWord.rot (h d a k) : OpWord.Statement (.rot h d a k) := by
  rintro hW _ ⟨⟩
  rw [show slotOf _ = 6 + 4 * h.cl.toNat from rfl, vab_slot]
  show decVab _ (vFields (vBits _)) _ = _
  rw [vFields_vBits]
  unfold decVab
  simp only [vop_hi, vop_lo, BitVec.toNat_ofNat, Nat.reduceMod, Nat.reducePow, BitVec.reduceExtractLsb',
      BitVec.ofNat_eq_ofNat]
  have hw := hW
  simp only [WellFormed, Bool.and_eq_true] at hw
  simp (disch := first | omega | simp [hw]) only [SWord.g, Option.getD_some, Option.getD_none, Option.isSome_some,
      Option.isSome_none, Option.map_some, Option.map_none, Option.bind_some, app_hi, app_lo, bit_hi, bit_lo,
      zext_hi, zext_lo, zext_bit_hi, zext_bit_lo, zero_ext, zero_bit, zext_back, ext_self, bool_bit, src_back,
      sw_ext, vw_ext, cpyw_ext, stgw_ext, amow_ext, src1, src2, src3]
  simp [chkO, withTy, needExt, hW, hw]

theorem OpWord.hadd (h d a) : OpWord.Statement (.hadd h d a) := by
  rintro hW _ ⟨⟩
  rw [show slotOf _ = 6 + 4 * h.cl.toNat from rfl, vab_slot]
  show decVab _ (vFields (vBits _)) _ = _
  rw [vFields_vBits]
  unfold decVab
  simp only [vop_hi, vop_lo, BitVec.toNat_ofNat, Nat.reduceMod, Nat.reducePow, BitVec.reduceExtractLsb',
      BitVec.ofNat_eq_ofNat]
  have hw := hW
  simp only [WellFormed, Bool.and_eq_true] at hw
  simp (disch := first | omega | simp [hw]) only [SWord.g, Option.getD_some, Option.getD_none, Option.isSome_some,
      Option.isSome_none, Option.map_some, Option.map_none, Option.bind_some, app_hi, app_lo, bit_hi, bit_lo,
      zext_hi, zext_lo, zext_bit_hi, zext_bit_lo, zero_ext, zero_bit, zext_back, ext_self, bool_bit, src_back,
      sw_ext, vw_ext, cpyw_ext, stgw_ext, amow_ext, src1, src2, src3]
  simp [chkO, withTy, needExt, hW, hw]

theorem OpWord.hmax (h d a) : OpWord.Statement (.hmax h d a) := by
  rintro hW _ ⟨⟩
  rw [show slotOf _ = 6 + 4 * h.cl.toNat from rfl, vab_slot]
  show decVab _ (vFields (vBits _)) _ = _
  rw [vFields_vBits]
  unfold decVab
  simp only [vop_hi, vop_lo, BitVec.toNat_ofNat, Nat.reduceMod, Nat.reducePow, BitVec.reduceExtractLsb',
      BitVec.ofNat_eq_ofNat]
  have hw := hW
  simp only [WellFormed, Bool.and_eq_true] at hw
  simp (disch := first | omega | simp [hw]) only [SWord.g, Option.getD_some, Option.getD_none, Option.isSome_some,
      Option.isSome_none, Option.map_some, Option.map_none, Option.bind_some, app_hi, app_lo, bit_hi, bit_lo,
      zext_hi, zext_lo, zext_bit_hi, zext_bit_lo, zero_ext, zero_bit, zext_back, ext_self, bool_bit, src_back,
      sw_ext, vw_ext, cpyw_ext, stgw_ext, amow_ext, src1, src2, src3]
  simp [chkO, withTy, needExt, hW, hw]

theorem OpWord.cvt (h op d a b) : OpWord.Statement (.cvt h op d a b) := by
  rintro hW _ ⟨⟩
  rw [show slotOf _ = 6 + 4 * h.cl.toNat from rfl, vab_slot]
  show decVab _ (vFields (vBits _)) _ = _
  rw [vFields_vBits]
  unfold decVab
  simp only [vop_hi, vop_lo, BitVec.toNat_ofNat, Nat.reduceMod, Nat.reducePow, BitVec.reduceExtractLsb',
      BitVec.ofNat_eq_ofNat]
  have hw := hW
  simp only [WellFormed, Bool.and_eq_true] at hw
  simp (disch := first | omega | simp [hw]) only [SWord.g, Option.getD_some, Option.getD_none, Option.isSome_some,
      Option.isSome_none, Option.map_some, Option.map_none, Option.bind_some, app_hi, app_lo, bit_hi, bit_lo,
      zext_hi, zext_lo, zext_bit_hi, zext_bit_lo, zero_ext, zero_bit, zext_back, ext_self, bool_bit, cvt_back,
      src_back, sw_ext, vw_ext, cpyw_ext, stgw_ext, amow_ext, src1, src2, src3]
  simp only [chkO, hW, cvt_top, cvt_rounds, cvt_vb op b hw.2]
  simp

theorem OpWord.bpack (h d a b) : OpWord.Statement (.bpack h d a b) := by
  rintro hW _ ⟨⟩
  rw [show slotOf _ = 6 + 4 * h.cl.toNat from rfl, vab_slot]
  show decVab _ (vFields (vBits _)) _ = _
  rw [vFields_vBits]
  unfold decVab
  simp only [vop_hi, vop_lo, BitVec.toNat_ofNat, Nat.reduceMod, Nat.reducePow, BitVec.reduceExtractLsb',
      BitVec.ofNat_eq_ofNat]
  have hw := hW
  simp only [WellFormed, Bool.and_eq_true] at hw
  simp (disch := first | omega | simp [hw]) only [SWord.g, Option.getD_some, Option.getD_none, Option.isSome_some,
      Option.isSome_none, Option.map_some, Option.map_none, Option.bind_some, app_hi, app_lo, bit_hi, bit_lo,
      zext_hi, zext_lo, zext_bit_hi, zext_bit_lo, zero_ext, zero_bit, zext_back, ext_self, bool_bit, src_back,
      sw_ext, vw_ext, cpyw_ext, stgw_ext, amow_ext, src1, src2, src3]
  simp [chkO, withTy, needExt, hW, hw]

theorem OpWord.bunpack (h d a) : OpWord.Statement (.bunpack h d a) := by
  rintro hW _ ⟨⟩
  rw [show slotOf _ = 6 + 4 * h.cl.toNat from rfl, vab_slot]
  show decVab _ (vFields (vBits _)) _ = _
  rw [vFields_vBits]
  unfold decVab
  simp only [vop_hi, vop_lo, BitVec.toNat_ofNat, Nat.reduceMod, Nat.reducePow, BitVec.reduceExtractLsb',
      BitVec.ofNat_eq_ofNat]
  have hw := hW
  simp only [WellFormed, Bool.and_eq_true] at hw
  simp (disch := first | omega | simp [hw]) only [SWord.g, Option.getD_some, Option.getD_none, Option.isSome_some,
      Option.isSome_none, Option.map_some, Option.map_none, Option.bind_some, app_hi, app_lo, bit_hi, bit_lo,
      zext_hi, zext_lo, zext_bit_hi, zext_bit_lo, zero_ext, zero_bit, zext_back, ext_self, bool_bit, src_back,
      sw_ext, vw_ext, cpyw_ext, stgw_ext, amow_ext, src1, src2, src3]
  simp [chkO, withTy, needExt, hW, hw]

theorem OpWord.mand (h d a b) : OpWord.Statement (.mand h d a b) := by
  rintro hW _ ⟨⟩
  rw [show slotOf _ = 6 + 4 * h.cl.toNat from rfl, vab_slot]
  show decVab _ (vFields (vBits _)) _ = _
  rw [vFields_vBits]
  unfold decVab
  simp only [vop_hi, vop_lo, BitVec.toNat_ofNat, Nat.reduceMod, Nat.reducePow, BitVec.reduceExtractLsb',
      BitVec.ofNat_eq_ofNat]
  have hw := hW
  simp only [WellFormed, Bool.and_eq_true] at hw
  simp (disch := first | omega | simp [hw]) only [SWord.g, Option.getD_some, Option.getD_none, Option.isSome_some,
      Option.isSome_none, Option.map_some, Option.map_none, Option.bind_some, app_hi, app_lo, bit_hi, bit_lo,
      zext_hi, zext_lo, zext_bit_hi, zext_bit_lo, zero_ext, zero_bit, zext_back, ext_self, bool_bit, mNum_back,
      mZero_back, sw_ext, vw_ext, cpyw_ext, stgw_ext, amow_ext]
  simp [chkO, withTy, needExt, hW, hw]

theorem OpWord.mor (h d a b) : OpWord.Statement (.mor h d a b) := by
  rintro hW _ ⟨⟩
  rw [show slotOf _ = 6 + 4 * h.cl.toNat from rfl, vab_slot]
  show decVab _ (vFields (vBits _)) _ = _
  rw [vFields_vBits]
  unfold decVab
  simp only [vop_hi, vop_lo, BitVec.toNat_ofNat, Nat.reduceMod, Nat.reducePow, BitVec.reduceExtractLsb',
      BitVec.ofNat_eq_ofNat]
  have hw := hW
  simp only [WellFormed, Bool.and_eq_true] at hw
  simp (disch := first | omega | simp [hw]) only [SWord.g, Option.getD_some, Option.getD_none, Option.isSome_some,
      Option.isSome_none, Option.map_some, Option.map_none, Option.bind_some, app_hi, app_lo, bit_hi, bit_lo,
      zext_hi, zext_lo, zext_bit_hi, zext_bit_lo, zero_ext, zero_bit, zext_back, ext_self, bool_bit, mNum_back,
      mZero_back, sw_ext, vw_ext, cpyw_ext, stgw_ext, amow_ext]
  simp [chkO, withTy, needExt, hW, hw]

theorem OpWord.mxor (h d a b) : OpWord.Statement (.mxor h d a b) := by
  rintro hW _ ⟨⟩
  rw [show slotOf _ = 6 + 4 * h.cl.toNat from rfl, vab_slot]
  show decVab _ (vFields (vBits _)) _ = _
  rw [vFields_vBits]
  unfold decVab
  simp only [vop_hi, vop_lo, BitVec.toNat_ofNat, Nat.reduceMod, Nat.reducePow, BitVec.reduceExtractLsb',
      BitVec.ofNat_eq_ofNat]
  have hw := hW
  simp only [WellFormed, Bool.and_eq_true] at hw
  simp (disch := first | omega | simp [hw]) only [SWord.g, Option.getD_some, Option.getD_none, Option.isSome_some,
      Option.isSome_none, Option.map_some, Option.map_none, Option.bind_some, app_hi, app_lo, bit_hi, bit_lo,
      zext_hi, zext_lo, zext_bit_hi, zext_bit_lo, zero_ext, zero_bit, zext_back, ext_self, bool_bit, mNum_back,
      mZero_back, sw_ext, vw_ext, cpyw_ext, stgw_ext, amow_ext]
  simp [chkO, withTy, needExt, hW, hw]

theorem OpWord.mnot (h d a) : OpWord.Statement (.mnot h d a) := by
  rintro hW _ ⟨⟩
  rw [show slotOf _ = 6 + 4 * h.cl.toNat from rfl, vab_slot]
  show decVab _ (vFields (vBits _)) _ = _
  rw [vFields_vBits]
  unfold decVab
  simp only [vop_hi, vop_lo, BitVec.toNat_ofNat, Nat.reduceMod, Nat.reducePow, BitVec.reduceExtractLsb',
      BitVec.ofNat_eq_ofNat]
  have hw := hW
  simp only [WellFormed, Bool.and_eq_true] at hw
  simp (disch := first | omega | simp [hw]) only [SWord.g, Option.getD_some, Option.getD_none, Option.isSome_some,
      Option.isSome_none, Option.map_some, Option.map_none, Option.bind_some, app_hi, app_lo, bit_hi, bit_lo,
      zext_hi, zext_lo, zext_bit_hi, zext_bit_lo, zero_ext, zero_bit, zext_back, ext_self, bool_bit, mNum_back,
      mZero_back, sw_ext, vw_ext, cpyw_ext, stgw_ext, amow_ext]
  simp [chkO, withTy, needExt, hW, hw]

theorem OpWord.mset (h d n) : OpWord.Statement (.mset h d n) := by
  rintro hW _ ⟨⟩
  rw [show slotOf _ = 6 + 4 * h.cl.toNat from rfl, vab_slot]
  show decVab _ (vFields (vBits _)) _ = _
  rw [vFields_vBits]
  unfold decVab
  simp only [vop_hi, vop_lo, BitVec.toNat_ofNat, Nat.reduceMod, Nat.reducePow, BitVec.reduceExtractLsb',
      BitVec.ofNat_eq_ofNat]
  have hw := hW
  simp only [WellFormed, Bool.and_eq_true] at hw
  simp (disch := first | omega | simp [hw]) only [SWord.g, Option.getD_some, Option.getD_none, Option.isSome_some,
      Option.isSome_none, Option.map_some, Option.map_none, Option.bind_some, app_hi, app_lo, bit_hi, bit_lo,
      zext_hi, zext_lo, zext_bit_hi, zext_bit_lo, zero_ext, zero_bit, zext_back, ext_self, bool_bit, mNum_back,
      mZero_back, sw_ext, vw_ext, cpyw_ext, stgw_ext, amow_ext]
  simp [chkO, withTy, needExt, hW, hw]

theorem OpWord.msetScalar (h d s) : OpWord.Statement (.msetScalar h d s) := by
  rintro hW _ ⟨⟩
  rw [show slotOf _ = 6 + 4 * h.cl.toNat from rfl, vab_slot]
  show decVab _ (vFields (vBits _)) _ = _
  rw [vFields_vBits]
  unfold decVab
  simp only [vop_hi, vop_lo, BitVec.toNat_ofNat, Nat.reduceMod, Nat.reducePow, BitVec.reduceExtractLsb',
      BitVec.ofNat_eq_ofNat]
  have hw := hW
  simp only [WellFormed, Bool.and_eq_true] at hw
  simp (disch := first | omega | simp [hw]) only [SWord.g, Option.getD_some, Option.getD_none, Option.isSome_some,
      Option.isSome_none, Option.map_some, Option.map_none, Option.bind_some, app_hi, app_lo, bit_hi, bit_lo,
      zext_hi, zext_lo, zext_bit_hi, zext_bit_lo, zero_ext, zero_bit, zext_back, ext_self, bool_bit, mNum_back,
      mZero_back, scalar_back, sw_ext, vw_ext, cpyw_ext, stgw_ext, amow_ext]
  simp [chkO, withTy, needExt, hW, hw]

theorem OpWord.rcp (h rm d a) : OpWord.Statement (.rcp h rm d a) := by
  rintro hW _ ⟨⟩
  rw [show slotOf _ = 8 + 4 * h.cl.toNat from rfl, vx_slot]
  show decVx _ (vFields (vBits _)) = _
  rw [vFields_vBits]
  unfold decVx
  simp only [BitVec.toNat_ofNat, Nat.reduceMod, Nat.reducePow]
  have hw := hW
  simp only [WellFormed, Bool.and_eq_true] at hw
  simp (disch := first | omega | simp [hw]) only [SWord.g, Option.getD_some, Option.getD_none, Option.isSome_some,
      Option.isSome_none, Option.map_some, Option.map_none, Option.bind_some, app_hi, app_lo, bit_hi, bit_lo,
      zext_hi, zext_lo, zext_bit_hi, zext_bit_lo, zero_ext, zero_bit, zext_back, ext_self, bool_bit, rm_back,
      src_back, sw_ext, vw_ext, cpyw_ext, stgw_ext, amow_ext, src1, src2, src3]
  simp [chkO, withTy, needExt, hW, hw]

theorem OpWord.rsq (h rm d a) : OpWord.Statement (.rsq h rm d a) := by
  rintro hW _ ⟨⟩
  rw [show slotOf _ = 8 + 4 * h.cl.toNat from rfl, vx_slot]
  show decVx _ (vFields (vBits _)) = _
  rw [vFields_vBits]
  unfold decVx
  simp only [BitVec.toNat_ofNat, Nat.reduceMod, Nat.reducePow]
  have hw := hW
  simp only [WellFormed, Bool.and_eq_true] at hw
  simp (disch := first | omega | simp [hw]) only [SWord.g, Option.getD_some, Option.getD_none, Option.isSome_some,
      Option.isSome_none, Option.map_some, Option.map_none, Option.bind_some, app_hi, app_lo, bit_hi, bit_lo,
      zext_hi, zext_lo, zext_bit_hi, zext_bit_lo, zero_ext, zero_bit, zext_back, ext_self, bool_bit, rm_back,
      src_back, sw_ext, vw_ext, cpyw_ext, stgw_ext, amow_ext, src1, src2, src3]
  simp [chkO, withTy, needExt, hW, hw]

theorem OpWord.sqrt (h rm d a) : OpWord.Statement (.sqrt h rm d a) := by
  rintro hW _ ⟨⟩
  rw [show slotOf _ = 8 + 4 * h.cl.toNat from rfl, vx_slot]
  show decVx _ (vFields (vBits _)) = _
  rw [vFields_vBits]
  unfold decVx
  simp only [BitVec.toNat_ofNat, Nat.reduceMod, Nat.reducePow]
  have hw := hW
  simp only [WellFormed, Bool.and_eq_true] at hw
  simp (disch := first | omega | simp [hw]) only [SWord.g, Option.getD_some, Option.getD_none, Option.isSome_some,
      Option.isSome_none, Option.map_some, Option.map_none, Option.bind_some, app_hi, app_lo, bit_hi, bit_lo,
      zext_hi, zext_lo, zext_bit_hi, zext_bit_lo, zero_ext, zero_bit, zext_back, ext_self, bool_bit, rm_back,
      src_back, sw_ext, vw_ext, cpyw_ext, stgw_ext, amow_ext, src1, src2, src3]
  simp [chkO, withTy, needExt, hW, hw]

theorem OpWord.div (h rm d a b) : OpWord.Statement (.div h rm d a b) := by
  rintro hW _ ⟨⟩
  rw [show slotOf _ = 8 + 4 * h.cl.toNat from rfl, vx_slot]
  show decVx _ (vFields (vBits _)) = _
  rw [vFields_vBits]
  unfold decVx
  simp only [BitVec.toNat_ofNat, Nat.reduceMod, Nat.reducePow]
  have hw := hW
  simp only [WellFormed, Bool.and_eq_true] at hw
  simp (disch := first | omega | simp [hw]) only [SWord.g, Option.getD_some, Option.getD_none, Option.isSome_some,
      Option.isSome_none, Option.map_some, Option.map_none, Option.bind_some, app_hi, app_lo, bit_hi, bit_lo,
      zext_hi, zext_lo, zext_bit_hi, zext_bit_lo, zero_ext, zero_bit, zext_back, ext_self, bool_bit, rm_back,
      src_back, sw_ext, vw_ext, cpyw_ext, stgw_ext, amow_ext, src1, src2, src3]
  simp [chkO, withTy, needExt, hW, hw]

theorem OpWord.exp2 (h rm d a) : OpWord.Statement (.exp2 h rm d a) := by
  rintro hW _ ⟨⟩
  rw [show slotOf _ = 8 + 4 * h.cl.toNat from rfl, vx_slot]
  show decVx _ (vFields (vBits _)) = _
  rw [vFields_vBits]
  unfold decVx
  simp only [BitVec.toNat_ofNat, Nat.reduceMod, Nat.reducePow]
  have hw := hW
  simp only [WellFormed, Bool.and_eq_true] at hw
  simp (disch := first | omega | simp [hw]) only [SWord.g, Option.getD_some, Option.getD_none, Option.isSome_some,
      Option.isSome_none, Option.map_some, Option.map_none, Option.bind_some, app_hi, app_lo, bit_hi, bit_lo,
      zext_hi, zext_lo, zext_bit_hi, zext_bit_lo, zero_ext, zero_bit, zext_back, ext_self, bool_bit, rm_back,
      src_back, sw_ext, vw_ext, cpyw_ext, stgw_ext, amow_ext, src1, src2, src3]
  simp [chkO, withTy, needExt, hW, hw]

theorem OpWord.log2 (h rm d a) : OpWord.Statement (.log2 h rm d a) := by
  rintro hW _ ⟨⟩
  rw [show slotOf _ = 8 + 4 * h.cl.toNat from rfl, vx_slot]
  show decVx _ (vFields (vBits _)) = _
  rw [vFields_vBits]
  unfold decVx
  simp only [BitVec.toNat_ofNat, Nat.reduceMod, Nat.reducePow]
  have hw := hW
  simp only [WellFormed, Bool.and_eq_true] at hw
  simp (disch := first | omega | simp [hw]) only [SWord.g, Option.getD_some, Option.getD_none, Option.isSome_some,
      Option.isSome_none, Option.map_some, Option.map_none, Option.bind_some, app_hi, app_lo, bit_hi, bit_lo,
      zext_hi, zext_lo, zext_bit_hi, zext_bit_lo, zero_ext, zero_bit, zext_back, ext_self, bool_bit, rm_back,
      src_back, sw_ext, vw_ext, cpyw_ext, stgw_ext, amow_ext, src1, src2, src3]
  simp [chkO, withTy, needExt, hW, hw]

theorem OpWord.xmov (h d a n) : OpWord.Statement (.xmov h d a n) := by
  rintro hW _ ⟨⟩
  rw [show slotOf _ = 8 + 4 * h.cl.toNat from rfl, vx_slot]
  show decVx _ (vFields (vBits _)) = _
  rw [vFields_vBits]
  unfold decVx
  simp only [BitVec.toNat_ofNat, Nat.reduceMod, Nat.reducePow]
  have hw := hW
  simp only [WellFormed, Bool.and_eq_true] at hw
  simp (disch := first | omega | simp [hw]) only [SWord.g, Option.getD_some, Option.getD_none, Option.isSome_some,
      Option.isSome_none, Option.map_some, Option.map_none, Option.bind_some, app_hi, app_lo, bit_hi, bit_lo,
      zext_hi, zext_lo, zext_bit_hi, zext_bit_lo, zero_ext, zero_bit, zext_back, ext_self, bool_bit, sw_ext, vw_ext,
      cpyw_ext, stgw_ext, amow_ext]
  simp [chkO, withTy, needExt, hW, hw]

theorem OpWord.xbc (h d a n l) : OpWord.Statement (.xbc h d a n l) := by
  rintro hW _ ⟨⟩
  rw [show slotOf _ = 8 + 4 * h.cl.toNat from rfl, vx_slot]
  show decVx _ (vFields (vBits _)) = _
  rw [vFields_vBits]
  unfold decVx
  simp only [BitVec.toNat_ofNat, Nat.reduceMod, Nat.reducePow]
  have hw := hW
  simp only [WellFormed, Bool.and_eq_true] at hw
  simp (disch := first | omega | simp [hw]) only [SWord.g, Option.getD_some, Option.getD_none, Option.isSome_some,
      Option.isSome_none, Option.map_some, Option.map_none, Option.bind_some, app_hi, app_lo, bit_hi, bit_lo,
      zext_hi, zext_lo, zext_bit_hi, zext_bit_lo, zero_ext, zero_bit, zext_back, ext_self, bool_bit, sw_ext, vw_ext,
      cpyw_ext, stgw_ext, amow_ext]
  simp [chkO, withTy, needExt, hW, hw]

theorem OpWord.vld (h d k off) : OpWord.Statement (.vld h d k off) := by
  rintro hW _ ⟨⟩
  rw [show slotOf _ = 9 + 4 * h.cl.toNat from rfl, vm_slot]
  show decVm _ (vFields (vBits _)) = _
  rw [vFields_vBits]
  unfold decVm
  simp only [BitVec.toNat_ofNat, Nat.reduceMod, Nat.reducePow]
  have hw := hW
  simp only [WellFormed, Bool.and_eq_true] at hw
  simp (disch := first | omega | simp [hw]) only [SWord.g, Option.getD_some, Option.getD_none, Option.isSome_some,
      Option.isSome_none, Option.map_some, Option.map_none, Option.bind_some, app_hi, app_lo, bit_hi, bit_lo,
      zext_hi, zext_lo, zext_bit_hi, zext_bit_lo, zero_ext, zero_bit, zext_back, ext_self, bool_bit, scalar_back,
      sw_ext, vw_ext, cpyw_ext, stgw_ext, amow_ext]
  simp [chkO, withTy, needExt, hW, hw]

theorem OpWord.vst (h d k off) : OpWord.Statement (.vst h d k off) := by
  rintro hW _ ⟨⟩
  rw [show slotOf _ = 9 + 4 * h.cl.toNat from rfl, vm_slot]
  show decVm _ (vFields (vBits _)) = _
  rw [vFields_vBits]
  unfold decVm
  simp only [BitVec.toNat_ofNat, Nat.reduceMod, Nat.reducePow]
  have hw := hW
  simp only [WellFormed, Bool.and_eq_true] at hw
  simp (disch := first | omega | simp [hw]) only [SWord.g, Option.getD_some, Option.getD_none, Option.isSome_some,
      Option.isSome_none, Option.map_some, Option.map_none, Option.bind_some, app_hi, app_lo, bit_hi, bit_lo,
      zext_hi, zext_lo, zext_bit_hi, zext_bit_lo, zero_ext, zero_bit, zext_back, ext_self, bool_bit, scalar_back,
      sw_ext, vw_ext, cpyw_ext, stgw_ext, amow_ext]
  simp [chkO, withTy, needExt, hW, hw]

theorem OpWord.vlds (h d k j off) : OpWord.Statement (.vlds h d k j off) := by
  rintro hW _ ⟨⟩
  rw [show slotOf _ = 9 + 4 * h.cl.toNat from rfl, vm_slot]
  show decVm _ (vFields (vBits _)) = _
  rw [vFields_vBits]
  unfold decVm
  simp only [BitVec.toNat_ofNat, Nat.reduceMod, Nat.reducePow]
  have hw := hW
  simp only [WellFormed, Bool.and_eq_true] at hw
  simp (disch := first | omega | simp [hw]) only [SWord.g, Option.getD_some, Option.getD_none, Option.isSome_some,
      Option.isSome_none, Option.map_some, Option.map_none, Option.bind_some, app_hi, app_lo, bit_hi, bit_lo,
      zext_hi, zext_lo, zext_bit_hi, zext_bit_lo, zero_ext, zero_bit, zext_back, ext_self, bool_bit, scalar_back,
      sw_ext, vw_ext, cpyw_ext, stgw_ext, amow_ext]
  simp [chkO, withTy, needExt, hW, hw]

theorem OpWord.vsts (h d k j off) : OpWord.Statement (.vsts h d k j off) := by
  rintro hW _ ⟨⟩
  rw [show slotOf _ = 9 + 4 * h.cl.toNat from rfl, vm_slot]
  show decVm _ (vFields (vBits _)) = _
  rw [vFields_vBits]
  unfold decVm
  simp only [BitVec.toNat_ofNat, Nat.reduceMod, Nat.reducePow]
  have hw := hW
  simp only [WellFormed, Bool.and_eq_true] at hw
  simp (disch := first | omega | simp [hw]) only [SWord.g, Option.getD_some, Option.getD_none, Option.isSome_some,
      Option.isSome_none, Option.map_some, Option.map_none, Option.bind_some, app_hi, app_lo, bit_hi, bit_lo,
      zext_hi, zext_lo, zext_bit_hi, zext_bit_lo, zero_ext, zero_bit, zext_back, ext_self, bool_bit, scalar_back,
      sw_ext, vw_ext, cpyw_ext, stgw_ext, amow_ext]
  simp [chkO, withTy, needExt, hW, hw]

theorem OpWord.vldx (h d k x off) : OpWord.Statement (.vldx h d k x off) := by
  rintro hW _ ⟨⟩
  rw [show slotOf _ = 9 + 4 * h.cl.toNat from rfl, vm_slot]
  show decVm _ (vFields (vBits _)) = _
  rw [vFields_vBits]
  unfold decVm
  simp only [BitVec.toNat_ofNat, Nat.reduceMod, Nat.reducePow]
  have hw := hW
  simp only [WellFormed, Bool.and_eq_true] at hw
  simp (disch := first | omega | simp [hw]) only [SWord.g, Option.getD_some, Option.getD_none, Option.isSome_some,
      Option.isSome_none, Option.map_some, Option.map_none, Option.bind_some, app_hi, app_lo, bit_hi, bit_lo,
      zext_hi, zext_lo, zext_bit_hi, zext_bit_lo, zero_ext, zero_bit, zext_back, ext_self, bool_bit, scalar_back,
      sw_ext, vw_ext, cpyw_ext, stgw_ext, amow_ext]
  simp [chkO, withTy, needExt, hW, hw]

theorem OpWord.vstx (h d k x off) : OpWord.Statement (.vstx h d k x off) := by
  rintro hW _ ⟨⟩
  rw [show slotOf _ = 9 + 4 * h.cl.toNat from rfl, vm_slot]
  show decVm _ (vFields (vBits _)) = _
  rw [vFields_vBits]
  unfold decVm
  simp only [BitVec.toNat_ofNat, Nat.reduceMod, Nat.reducePow]
  have hw := hW
  simp only [WellFormed, Bool.and_eq_true] at hw
  simp (disch := first | omega | simp [hw]) only [SWord.g, Option.getD_some, Option.getD_none, Option.isSome_some,
      Option.isSome_none, Option.map_some, Option.map_none, Option.bind_some, app_hi, app_lo, bit_hi, bit_lo,
      zext_hi, zext_lo, zext_bit_hi, zext_bit_lo, zero_ext, zero_bit, zext_back, ext_self, bool_bit, scalar_back,
      sw_ext, vw_ext, cpyw_ext, stgw_ext, amow_ext]
  simp [chkO, withTy, needExt, hW, hw]

theorem OpWord.vlda (h d k off) : OpWord.Statement (.vlda h d k off) := by
  rintro hW _ ⟨⟩
  rw [show slotOf _ = 9 + 4 * h.cl.toNat from rfl, vm_slot]
  show decVm _ (vFields (vBits _)) = _
  rw [vFields_vBits]
  unfold decVm
  simp only [BitVec.toNat_ofNat, Nat.reduceMod, Nat.reducePow]
  have hw := hW
  simp only [WellFormed, Bool.and_eq_true] at hw
  simp (disch := first | omega | simp [hw]) only [SWord.g, Option.getD_some, Option.getD_none, Option.isSome_some,
      Option.isSome_none, Option.map_some, Option.map_none, Option.bind_some, app_hi, app_lo, bit_hi, bit_lo,
      zext_hi, zext_lo, zext_bit_hi, zext_bit_lo, zero_ext, zero_bit, zext_back, ext_self, bool_bit, scalar_back,
      sw_ext, vw_ext, cpyw_ext, stgw_ext, amow_ext]
  simp [chkO, withTy, needExt, hW, hw]

theorem OpWord.vsta (h d k off) : OpWord.Statement (.vsta h d k off) := by
  rintro hW _ ⟨⟩
  rw [show slotOf _ = 9 + 4 * h.cl.toNat from rfl, vm_slot]
  show decVm _ (vFields (vBits _)) = _
  rw [vFields_vBits]
  unfold decVm
  simp only [BitVec.toNat_ofNat, Nat.reduceMod, Nat.reducePow]
  have hw := hW
  simp only [WellFormed, Bool.and_eq_true] at hw
  simp (disch := first | omega | simp [hw]) only [SWord.g, Option.getD_some, Option.getD_none, Option.isSome_some,
      Option.isSome_none, Option.map_some, Option.map_none, Option.bind_some, app_hi, app_lo, bit_hi, bit_lo,
      zext_hi, zext_lo, zext_bit_hi, zext_bit_lo, zero_ext, zero_bit, zext_back, ext_self, bool_bit, scalar_back,
      sw_ext, vw_ext, cpyw_ext, stgw_ext, amow_ext]
  simp [chkO, withTy, needExt, hW, hw]

theorem OpWord.add (g d a b) : OpWord.Statement (.add g d a b) := by
  rintro hW _ ⟨⟩
  show decS (sFields (sBits _)) = _
  rw [sFields_sBits]
  unfold decS
  simp only [BitVec.toNat_ofNat, Nat.reduceMod, Nat.reducePow]
  simp (disch := omega) only [SWord.g, Option.getD_some, Option.getD_none, Option.isSome_some, Option.isSome_none,
      Option.map_some, Option.map_none, Option.bind_some, app_hi, app_lo, bit_hi, bit_lo, zext_hi, zext_lo,
      zext_bit_hi, zext_bit_lo, zero_ext, zero_bit, zext_back, ext_self, bool_bit, sw_ext, vw_ext, cpyw_ext,
      stgw_ext, amow_ext]
  simp [chkO, withTy, needExt, hW]

theorem OpWord.sub (g d a b) : OpWord.Statement (.sub g d a b) := by
  rintro hW _ ⟨⟩
  show decS (sFields (sBits _)) = _
  rw [sFields_sBits]
  unfold decS
  simp only [BitVec.toNat_ofNat, Nat.reduceMod, Nat.reducePow]
  simp (disch := omega) only [SWord.g, Option.getD_some, Option.getD_none, Option.isSome_some, Option.isSome_none,
      Option.map_some, Option.map_none, Option.bind_some, app_hi, app_lo, bit_hi, bit_lo, zext_hi, zext_lo,
      zext_bit_hi, zext_bit_lo, zero_ext, zero_bit, zext_back, ext_self, bool_bit, sw_ext, vw_ext, cpyw_ext,
      stgw_ext, amow_ext]
  simp [chkO, withTy, needExt, hW]

theorem OpWord.addi (g d a imm) : OpWord.Statement (.addi g d a imm) := by
  rintro hW _ ⟨⟩
  show decS (sFields (sBits _)) = _
  rw [sFields_sBits]
  unfold decS
  simp only [BitVec.toNat_ofNat, Nat.reduceMod, Nat.reducePow]
  simp (disch := omega) only [SWord.g, Option.getD_some, Option.getD_none, Option.isSome_some, Option.isSome_none,
      Option.map_some, Option.map_none, Option.bind_some, app_hi, app_lo, bit_hi, bit_lo, zext_hi, zext_lo,
      zext_bit_hi, zext_bit_lo, zero_ext, zero_bit, zext_back, ext_self, bool_bit, sw_ext, vw_ext, cpyw_ext,
      stgw_ext, amow_ext]
  simp [chkO, withTy, needExt, hW]

theorem OpWord.mul (g d a b) : OpWord.Statement (.mul g d a b) := by
  rintro hW _ ⟨⟩
  show decS (sFields (sBits _)) = _
  rw [sFields_sBits]
  unfold decS
  simp only [BitVec.toNat_ofNat, Nat.reduceMod, Nat.reducePow]
  simp (disch := omega) only [SWord.g, Option.getD_some, Option.getD_none, Option.isSome_some, Option.isSome_none,
      Option.map_some, Option.map_none, Option.bind_some, app_hi, app_lo, bit_hi, bit_lo, zext_hi, zext_lo,
      zext_bit_hi, zext_bit_lo, zero_ext, zero_bit, zext_back, ext_self, bool_bit, sw_ext, vw_ext, cpyw_ext,
      stgw_ext, amow_ext]
  simp [chkO, withTy, needExt, hW]

theorem OpWord.mulhu (g d a b) : OpWord.Statement (.mulhu g d a b) := by
  rintro hW _ ⟨⟩
  show decS (sFields (sBits _)) = _
  rw [sFields_sBits]
  unfold decS
  simp only [BitVec.toNat_ofNat, Nat.reduceMod, Nat.reducePow]
  simp (disch := omega) only [SWord.g, Option.getD_some, Option.getD_none, Option.isSome_some, Option.isSome_none,
      Option.map_some, Option.map_none, Option.bind_some, app_hi, app_lo, bit_hi, bit_lo, zext_hi, zext_lo,
      zext_bit_hi, zext_bit_lo, zero_ext, zero_bit, zext_back, ext_self, bool_bit, sw_ext, vw_ext, cpyw_ext,
      stgw_ext, amow_ext]
  simp [chkO, withTy, needExt, hW]

theorem OpWord.mulhs (g d a b) : OpWord.Statement (.mulhs g d a b) := by
  rintro hW _ ⟨⟩
  show decS (sFields (sBits _)) = _
  rw [sFields_sBits]
  unfold decS
  simp only [BitVec.toNat_ofNat, Nat.reduceMod, Nat.reducePow]
  simp (disch := omega) only [SWord.g, Option.getD_some, Option.getD_none, Option.isSome_some, Option.isSome_none,
      Option.map_some, Option.map_none, Option.bind_some, app_hi, app_lo, bit_hi, bit_lo, zext_hi, zext_lo,
      zext_bit_hi, zext_bit_lo, zero_ext, zero_bit, zext_back, ext_self, bool_bit, sw_ext, vw_ext, cpyw_ext,
      stgw_ext, amow_ext]
  simp [chkO, withTy, needExt, hW]

theorem OpWord.divu (g d a b) : OpWord.Statement (.divu g d a b) := by
  rintro hW _ ⟨⟩
  show decS (sFields (sBits _)) = _
  rw [sFields_sBits]
  unfold decS
  simp only [BitVec.toNat_ofNat, Nat.reduceMod, Nat.reducePow]
  simp (disch := omega) only [SWord.g, Option.getD_some, Option.getD_none, Option.isSome_some, Option.isSome_none,
      Option.map_some, Option.map_none, Option.bind_some, app_hi, app_lo, bit_hi, bit_lo, zext_hi, zext_lo,
      zext_bit_hi, zext_bit_lo, zero_ext, zero_bit, zext_back, ext_self, bool_bit, sw_ext, vw_ext, cpyw_ext,
      stgw_ext, amow_ext]
  simp [chkO, withTy, needExt, hW]

theorem OpWord.divuRem (g d a b) : OpWord.Statement (.divuRem g d a b) := by
  rintro hW _ ⟨⟩
  show decS (sFields (sBits _)) = _
  rw [sFields_sBits]
  unfold decS
  simp only [BitVec.toNat_ofNat, Nat.reduceMod, Nat.reducePow]
  simp (disch := omega) only [SWord.g, Option.getD_some, Option.getD_none, Option.isSome_some, Option.isSome_none,
      Option.map_some, Option.map_none, Option.bind_some, app_hi, app_lo, bit_hi, bit_lo, zext_hi, zext_lo,
      zext_bit_hi, zext_bit_lo, zero_ext, zero_bit, zext_back, ext_self, bool_bit, sw_ext, vw_ext, cpyw_ext,
      stgw_ext, amow_ext]
  simp [chkO, withTy, needExt, hW]

theorem OpWord.divs (g d a b) : OpWord.Statement (.divs g d a b) := by
  rintro hW _ ⟨⟩
  show decS (sFields (sBits _)) = _
  rw [sFields_sBits]
  unfold decS
  simp only [BitVec.toNat_ofNat, Nat.reduceMod, Nat.reducePow]
  simp (disch := omega) only [SWord.g, Option.getD_some, Option.getD_none, Option.isSome_some, Option.isSome_none,
      Option.map_some, Option.map_none, Option.bind_some, app_hi, app_lo, bit_hi, bit_lo, zext_hi, zext_lo,
      zext_bit_hi, zext_bit_lo, zero_ext, zero_bit, zext_back, ext_self, bool_bit, sw_ext, vw_ext, cpyw_ext,
      stgw_ext, amow_ext]
  simp [chkO, withTy, needExt, hW]

theorem OpWord.divsRem (g d a b) : OpWord.Statement (.divsRem g d a b) := by
  rintro hW _ ⟨⟩
  show decS (sFields (sBits _)) = _
  rw [sFields_sBits]
  unfold decS
  simp only [BitVec.toNat_ofNat, Nat.reduceMod, Nat.reducePow]
  simp (disch := omega) only [SWord.g, Option.getD_some, Option.getD_none, Option.isSome_some, Option.isSome_none,
      Option.map_some, Option.map_none, Option.bind_some, app_hi, app_lo, bit_hi, bit_lo, zext_hi, zext_lo,
      zext_bit_hi, zext_bit_lo, zero_ext, zero_bit, zext_back, ext_self, bool_bit, sw_ext, vw_ext, cpyw_ext,
      stgw_ext, amow_ext]
  simp [chkO, withTy, needExt, hW]

theorem OpWord.and (g d a b) : OpWord.Statement (.and g d a b) := by
  rintro hW _ ⟨⟩
  show decS (sFields (sBits _)) = _
  rw [sFields_sBits]
  unfold decS
  simp only [BitVec.toNat_ofNat, Nat.reduceMod, Nat.reducePow]
  simp (disch := omega) only [SWord.g, Option.getD_some, Option.getD_none, Option.isSome_some, Option.isSome_none,
      Option.map_some, Option.map_none, Option.bind_some, app_hi, app_lo, bit_hi, bit_lo, zext_hi, zext_lo,
      zext_bit_hi, zext_bit_lo, zero_ext, zero_bit, zext_back, ext_self, bool_bit, sw_ext, vw_ext, cpyw_ext,
      stgw_ext, amow_ext]
  simp [chkO, withTy, needExt, hW]

theorem OpWord.or (g d a b) : OpWord.Statement (.or g d a b) := by
  rintro hW _ ⟨⟩
  show decS (sFields (sBits _)) = _
  rw [sFields_sBits]
  unfold decS
  simp only [BitVec.toNat_ofNat, Nat.reduceMod, Nat.reducePow]
  simp (disch := omega) only [SWord.g, Option.getD_some, Option.getD_none, Option.isSome_some, Option.isSome_none,
      Option.map_some, Option.map_none, Option.bind_some, app_hi, app_lo, bit_hi, bit_lo, zext_hi, zext_lo,
      zext_bit_hi, zext_bit_lo, zero_ext, zero_bit, zext_back, ext_self, bool_bit, sw_ext, vw_ext, cpyw_ext,
      stgw_ext, amow_ext]
  simp [chkO, withTy, needExt, hW]

theorem OpWord.xor (g d a b) : OpWord.Statement (.xor g d a b) := by
  rintro hW _ ⟨⟩
  show decS (sFields (sBits _)) = _
  rw [sFields_sBits]
  unfold decS
  simp only [BitVec.toNat_ofNat, Nat.reduceMod, Nat.reducePow]
  simp (disch := omega) only [SWord.g, Option.getD_some, Option.getD_none, Option.isSome_some, Option.isSome_none,
      Option.map_some, Option.map_none, Option.bind_some, app_hi, app_lo, bit_hi, bit_lo, zext_hi, zext_lo,
      zext_bit_hi, zext_bit_lo, zero_ext, zero_bit, zext_back, ext_self, bool_bit, sw_ext, vw_ext, cpyw_ext,
      stgw_ext, amow_ext]
  simp [chkO, withTy, needExt, hW]

theorem OpWord.andn (g d a b) : OpWord.Statement (.andn g d a b) := by
  rintro hW _ ⟨⟩
  show decS (sFields (sBits _)) = _
  rw [sFields_sBits]
  unfold decS
  simp only [BitVec.toNat_ofNat, Nat.reduceMod, Nat.reducePow]
  simp (disch := omega) only [SWord.g, Option.getD_some, Option.getD_none, Option.isSome_some, Option.isSome_none,
      Option.map_some, Option.map_none, Option.bind_some, app_hi, app_lo, bit_hi, bit_lo, zext_hi, zext_lo,
      zext_bit_hi, zext_bit_lo, zero_ext, zero_bit, zext_back, ext_self, bool_bit, sw_ext, vw_ext, cpyw_ext,
      stgw_ext, amow_ext]
  simp [chkO, withTy, needExt, hW]

theorem OpWord.shl (g d a b) : OpWord.Statement (.shl g d a b) := by
  rintro hW _ ⟨⟩
  show decS (sFields (sBits _)) = _
  rw [sFields_sBits]
  unfold decS
  simp only [BitVec.toNat_ofNat, Nat.reduceMod, Nat.reducePow]
  simp (disch := omega) only [SWord.g, Option.getD_some, Option.getD_none, Option.isSome_some, Option.isSome_none,
      Option.map_some, Option.map_none, Option.bind_some, app_hi, app_lo, bit_hi, bit_lo, zext_hi, zext_lo,
      zext_bit_hi, zext_bit_lo, zero_ext, zero_bit, zext_back, ext_self, bool_bit, sw_ext, vw_ext, cpyw_ext,
      stgw_ext, amow_ext]
  simp [chkO, withTy, needExt, hW]

theorem OpWord.shr (g d a b) : OpWord.Statement (.shr g d a b) := by
  rintro hW _ ⟨⟩
  show decS (sFields (sBits _)) = _
  rw [sFields_sBits]
  unfold decS
  simp only [BitVec.toNat_ofNat, Nat.reduceMod, Nat.reducePow]
  simp (disch := omega) only [SWord.g, Option.getD_some, Option.getD_none, Option.isSome_some, Option.isSome_none,
      Option.map_some, Option.map_none, Option.bind_some, app_hi, app_lo, bit_hi, bit_lo, zext_hi, zext_lo,
      zext_bit_hi, zext_bit_lo, zero_ext, zero_bit, zext_back, ext_self, bool_bit, sw_ext, vw_ext, cpyw_ext,
      stgw_ext, amow_ext]
  simp [chkO, withTy, needExt, hW]

theorem OpWord.sar (g d a b) : OpWord.Statement (.sar g d a b) := by
  rintro hW _ ⟨⟩
  show decS (sFields (sBits _)) = _
  rw [sFields_sBits]
  unfold decS
  simp only [BitVec.toNat_ofNat, Nat.reduceMod, Nat.reducePow]
  simp (disch := omega) only [SWord.g, Option.getD_some, Option.getD_none, Option.isSome_some, Option.isSome_none,
      Option.map_some, Option.map_none, Option.bind_some, app_hi, app_lo, bit_hi, bit_lo, zext_hi, zext_lo,
      zext_bit_hi, zext_bit_lo, zero_ext, zero_bit, zext_back, ext_self, bool_bit, sw_ext, vw_ext, cpyw_ext,
      stgw_ext, amow_ext]
  simp [chkO, withTy, needExt, hW]

theorem OpWord.shli (g d a sh) : OpWord.Statement (.shli g d a sh) := by
  rintro hW _ ⟨⟩
  show decS (sFields (sBits _)) = _
  rw [sFields_sBits]
  unfold decS
  simp only [BitVec.toNat_ofNat, Nat.reduceMod, Nat.reducePow]
  simp (disch := omega) only [SWord.g, Option.getD_some, Option.getD_none, Option.isSome_some, Option.isSome_none,
      Option.map_some, Option.map_none, Option.bind_some, app_hi, app_lo, bit_hi, bit_lo, zext_hi, zext_lo,
      zext_bit_hi, zext_bit_lo, zero_ext, zero_bit, zext_back, ext_self, bool_bit, sw_ext, vw_ext, cpyw_ext,
      stgw_ext, amow_ext]
  simp [chkO, withTy, needExt, hW]

theorem OpWord.shri (g d a sh) : OpWord.Statement (.shri g d a sh) := by
  rintro hW _ ⟨⟩
  show decS (sFields (sBits _)) = _
  rw [sFields_sBits]
  unfold decS
  simp only [BitVec.toNat_ofNat, Nat.reduceMod, Nat.reducePow]
  simp (disch := omega) only [SWord.g, Option.getD_some, Option.getD_none, Option.isSome_some, Option.isSome_none,
      Option.map_some, Option.map_none, Option.bind_some, app_hi, app_lo, bit_hi, bit_lo, zext_hi, zext_lo,
      zext_bit_hi, zext_bit_lo, zero_ext, zero_bit, zext_back, ext_self, bool_bit, sw_ext, vw_ext, cpyw_ext,
      stgw_ext, amow_ext]
  simp [chkO, withTy, needExt, hW]

theorem OpWord.sari (g d a sh) : OpWord.Statement (.sari g d a sh) := by
  rintro hW _ ⟨⟩
  show decS (sFields (sBits _)) = _
  rw [sFields_sBits]
  unfold decS
  simp only [BitVec.toNat_ofNat, Nat.reduceMod, Nat.reducePow]
  simp (disch := omega) only [SWord.g, Option.getD_some, Option.getD_none, Option.isSome_some, Option.isSome_none,
      Option.map_some, Option.map_none, Option.bind_some, app_hi, app_lo, bit_hi, bit_lo, zext_hi, zext_lo,
      zext_bit_hi, zext_bit_lo, zero_ext, zero_bit, zext_back, ext_self, bool_bit, sw_ext, vw_ext, cpyw_ext,
      stgw_ext, amow_ext]
  simp [chkO, withTy, needExt, hW]

theorem OpWord.min (g d a b) : OpWord.Statement (.min g d a b) := by
  rintro hW _ ⟨⟩
  show decS (sFields (sBits _)) = _
  rw [sFields_sBits]
  unfold decS
  simp only [BitVec.toNat_ofNat, Nat.reduceMod, Nat.reducePow]
  simp (disch := omega) only [SWord.g, Option.getD_some, Option.getD_none, Option.isSome_some, Option.isSome_none,
      Option.map_some, Option.map_none, Option.bind_some, app_hi, app_lo, bit_hi, bit_lo, zext_hi, zext_lo,
      zext_bit_hi, zext_bit_lo, zero_ext, zero_bit, zext_back, ext_self, bool_bit, sw_ext, vw_ext, cpyw_ext,
      stgw_ext, amow_ext]
  simp [chkO, withTy, needExt, hW]

theorem OpWord.max (g d a b) : OpWord.Statement (.max g d a b) := by
  rintro hW _ ⟨⟩
  show decS (sFields (sBits _)) = _
  rw [sFields_sBits]
  unfold decS
  simp only [BitVec.toNat_ofNat, Nat.reduceMod, Nat.reducePow]
  simp (disch := omega) only [SWord.g, Option.getD_some, Option.getD_none, Option.isSome_some, Option.isSome_none,
      Option.map_some, Option.map_none, Option.bind_some, app_hi, app_lo, bit_hi, bit_lo, zext_hi, zext_lo,
      zext_bit_hi, zext_bit_lo, zero_ext, zero_bit, zext_back, ext_self, bool_bit, sw_ext, vw_ext, cpyw_ext,
      stgw_ext, amow_ext]
  simp [chkO, withTy, needExt, hW]

theorem OpWord.minu (g d a b) : OpWord.Statement (.minu g d a b) := by
  rintro hW _ ⟨⟩
  show decS (sFields (sBits _)) = _
  rw [sFields_sBits]
  unfold decS
  simp only [BitVec.toNat_ofNat, Nat.reduceMod, Nat.reducePow]
  simp (disch := omega) only [SWord.g, Option.getD_some, Option.getD_none, Option.isSome_some, Option.isSome_none,
      Option.map_some, Option.map_none, Option.bind_some, app_hi, app_lo, bit_hi, bit_lo, zext_hi, zext_lo,
      zext_bit_hi, zext_bit_lo, zero_ext, zero_bit, zext_back, ext_self, bool_bit, sw_ext, vw_ext, cpyw_ext,
      stgw_ext, amow_ext]
  simp [chkO, withTy, needExt, hW]

theorem OpWord.maxu (g d a b) : OpWord.Statement (.maxu g d a b) := by
  rintro hW _ ⟨⟩
  show decS (sFields (sBits _)) = _
  rw [sFields_sBits]
  unfold decS
  simp only [BitVec.toNat_ofNat, Nat.reduceMod, Nat.reducePow]
  simp (disch := omega) only [SWord.g, Option.getD_some, Option.getD_none, Option.isSome_some, Option.isSome_none,
      Option.map_some, Option.map_none, Option.bind_some, app_hi, app_lo, bit_hi, bit_lo, zext_hi, zext_lo,
      zext_bit_hi, zext_bit_lo, zero_ext, zero_bit, zext_back, ext_self, bool_bit, sw_ext, vw_ext, cpyw_ext,
      stgw_ext, amow_ext]
  simp [chkO, withTy, needExt, hW]

theorem OpWord.clz (g d a) : OpWord.Statement (.clz g d a) := by
  rintro hW _ ⟨⟩
  show decS (sFields (sBits _)) = _
  rw [sFields_sBits]
  unfold decS
  simp only [BitVec.toNat_ofNat, Nat.reduceMod, Nat.reducePow]
  simp (disch := omega) only [SWord.g, Option.getD_some, Option.getD_none, Option.isSome_some, Option.isSome_none,
      Option.map_some, Option.map_none, Option.bind_some, app_hi, app_lo, bit_hi, bit_lo, zext_hi, zext_lo,
      zext_bit_hi, zext_bit_lo, zero_ext, zero_bit, zext_back, ext_self, bool_bit, sw_ext, vw_ext, cpyw_ext,
      stgw_ext, amow_ext]
  simp [chkO, withTy, needExt, hW]

theorem OpWord.popc (g d a) : OpWord.Statement (.popc g d a) := by
  rintro hW _ ⟨⟩
  show decS (sFields (sBits _)) = _
  rw [sFields_sBits]
  unfold decS
  simp only [BitVec.toNat_ofNat, Nat.reduceMod, Nat.reducePow]
  simp (disch := omega) only [SWord.g, Option.getD_some, Option.getD_none, Option.isSome_some, Option.isSome_none,
      Option.map_some, Option.map_none, Option.bind_some, app_hi, app_lo, bit_hi, bit_lo, zext_hi, zext_lo,
      zext_bit_hi, zext_bit_lo, zero_ext, zero_bit, zext_back, ext_self, bool_bit, sw_ext, vw_ext, cpyw_ext,
      stgw_ext, amow_ext]
  simp [chkO, withTy, needExt, hW]

theorem OpWord.movi (g d imm) : OpWord.Statement (.movi g d imm) := by
  rintro hW _ ⟨⟩
  show decS (sFields (sBits _)) = _
  rw [sFields_sBits]
  unfold decS
  simp only [BitVec.toNat_ofNat, Nat.reduceMod, Nat.reducePow]
  simp (disch := omega) only [SWord.g, Option.getD_some, Option.getD_none, Option.isSome_some, Option.isSome_none,
      Option.map_some, Option.map_none, Option.bind_some, app_hi, app_lo, bit_hi, bit_lo, zext_hi, zext_lo,
      zext_bit_hi, zext_bit_lo, zero_ext, zero_bit, zext_back, ext_self, bool_bit, sw_ext, vw_ext, cpyw_ext,
      stgw_ext, amow_ext]
  simp [chkO, withTy, needExt, hW]

theorem OpWord.movhi (g d a imm j) : OpWord.Statement (.movhi g d a imm j) := by
  rintro hW _ ⟨⟩
  show decS (sFields (sBits _)) = _
  rw [sFields_sBits]
  unfold decS
  simp only [BitVec.toNat_ofNat, Nat.reduceMod, Nat.reducePow]
  simp (disch := omega) only [SWord.g, Option.getD_some, Option.getD_none, Option.isSome_some, Option.isSome_none,
      Option.map_some, Option.map_none, Option.bind_some, app_hi, app_lo, bit_hi, bit_lo, zext_hi, zext_lo,
      zext_bit_hi, zext_bit_lo, zero_ext, zero_bit, zext_back, ext_self, bool_bit, sw_ext, vw_ext, cpyw_ext,
      stgw_ext, amow_ext]
  simp [chkO, withTy, needExt, hW, Nat.mod_eq_of_lt (show j.toNat < 64 by omega), show j.toNat ≤ 3 by omega]

theorem OpWord.cmp (g cc d a b) : OpWord.Statement (.cmp g cc d a b) := by
  rintro hW _ ⟨⟩
  show decS (sFields (sBits _)) = _
  rw [sFields_sBits]
  unfold decS
  simp only [BitVec.toNat_ofNat, Nat.reduceMod, Nat.reducePow]
  simp (disch := omega) only [SWord.g, Option.getD_some, Option.getD_none, Option.isSome_some, Option.isSome_none,
      Option.map_some, Option.map_none, Option.bind_some, app_hi, app_lo, bit_hi, bit_lo, zext_hi, zext_lo,
      zext_bit_hi, zext_bit_lo, zero_ext, zero_bit, zext_back, ext_self, bool_bit, scond_back, pNum_back, sw_ext,
      vw_ext, cpyw_ext, stgw_ext, amow_ext]
  simp [chkO, withTy, needExt, hW]

theorem OpWord.cmpi (g cc d a imm) : OpWord.Statement (.cmpi g cc d a imm) := by
  rintro hW _ ⟨⟩
  show decS (sFields (sBits _)) = _
  rw [sFields_sBits]
  unfold decS
  simp only [BitVec.toNat_ofNat, Nat.reduceMod, Nat.reducePow]
  simp (disch := omega) only [SWord.g, Option.getD_some, Option.getD_none, Option.isSome_some, Option.isSome_none,
      Option.map_some, Option.map_none, Option.bind_some, app_hi, app_lo, bit_hi, bit_lo, zext_hi, zext_lo,
      zext_bit_hi, zext_bit_lo, zero_ext, zero_bit, zext_back, ext_self, bool_bit, scond_back, pNum_back, sw_ext,
      vw_ext, cpyw_ext, stgw_ext, amow_ext]
  simp [chkO, withTy, needExt, hW]

theorem OpWord.sel (g d a b c) : OpWord.Statement (.sel g d a b c) := by
  rintro hW _ ⟨⟩
  show decS (sFields (sBits _)) = _
  rw [sFields_sBits]
  unfold decS
  simp only [BitVec.toNat_ofNat, Nat.reduceMod, Nat.reducePow]
  simp (disch := omega) only [SWord.g, Option.getD_some, Option.getD_none, Option.isSome_some, Option.isSome_none,
      Option.map_some, Option.map_none, Option.bind_some, app_hi, app_lo, bit_hi, bit_lo, zext_hi, zext_lo,
      zext_bit_hi, zext_bit_lo, zero_ext, zero_bit, zext_back, ext_self, bool_bit, pNum_back, sw_ext, vw_ext,
      cpyw_ext, stgw_ext, amow_ext]
  simp [chkO, withTy, needExt, hW]

theorem OpWord.pand (g d a b ia ib) : OpWord.Statement (.pand g d a b ia ib) := by
  rintro hW _ ⟨⟩
  show decS (sFields (sBits _)) = _
  rw [sFields_sBits]
  unfold decS
  simp only [BitVec.toNat_ofNat, Nat.reduceMod, Nat.reducePow]
  simp (disch := omega) only [SWord.g, Option.getD_some, Option.getD_none, Option.isSome_some, Option.isSome_none,
      Option.map_some, Option.map_none, Option.bind_some, app_hi, app_lo, bit_hi, bit_lo, zext_hi, zext_lo,
      zext_bit_hi, zext_bit_lo, zero_ext, zero_bit, zext_back, ext_self, bool_bit, pNum_back, sw_ext, vw_ext,
      cpyw_ext, stgw_ext, amow_ext]
  simp [chkO, withTy, needExt, hW]

theorem OpWord.por (g d a b ia ib) : OpWord.Statement (.por g d a b ia ib) := by
  rintro hW _ ⟨⟩
  show decS (sFields (sBits _)) = _
  rw [sFields_sBits]
  unfold decS
  simp only [BitVec.toNat_ofNat, Nat.reduceMod, Nat.reducePow]
  simp (disch := omega) only [SWord.g, Option.getD_some, Option.getD_none, Option.isSome_some, Option.isSome_none,
      Option.map_some, Option.map_none, Option.bind_some, app_hi, app_lo, bit_hi, bit_lo, zext_hi, zext_lo,
      zext_bit_hi, zext_bit_lo, zero_ext, zero_bit, zext_back, ext_self, bool_bit, pNum_back, sw_ext, vw_ext,
      cpyw_ext, stgw_ext, amow_ext]
  simp [chkO, withTy, needExt, hW]

theorem OpWord.pxor (g d a b ia ib) : OpWord.Statement (.pxor g d a b ia ib) := by
  rintro hW _ ⟨⟩
  show decS (sFields (sBits _)) = _
  rw [sFields_sBits]
  unfold decS
  simp only [BitVec.toNat_ofNat, Nat.reduceMod, Nat.reducePow]
  simp (disch := omega) only [SWord.g, Option.getD_some, Option.getD_none, Option.isSome_some, Option.isSome_none,
      Option.map_some, Option.map_none, Option.bind_some, app_hi, app_lo, bit_hi, bit_lo, zext_hi, zext_lo,
      zext_bit_hi, zext_bit_lo, zero_ext, zero_bit, zext_back, ext_self, bool_bit, pNum_back, sw_ext, vw_ext,
      cpyw_ext, stgw_ext, amow_ext]
  simp [chkO, withTy, needExt, hW]

theorem OpWord.aadd (g d a b) : OpWord.Statement (.aadd g d a b) := by
  rintro hW _ ⟨⟩
  show decS (sFields (sBits _)) = _
  rw [sFields_sBits]
  unfold decS
  simp only [BitVec.toNat_ofNat, Nat.reduceMod, Nat.reducePow]
  simp (disch := omega) only [SWord.g, Option.getD_some, Option.getD_none, Option.isSome_some, Option.isSome_none,
      Option.map_some, Option.map_none, Option.bind_some, app_hi, app_lo, bit_hi, bit_lo, zext_hi, zext_lo,
      zext_bit_hi, zext_bit_lo, zero_ext, zero_bit, zext_back, ext_self, bool_bit, aNum_back, sw_ext, vw_ext,
      cpyw_ext, stgw_ext, amow_ext]
  simp [chkO, withTy, needExt, hW]

theorem OpWord.aaddi (g d a imm) : OpWord.Statement (.aaddi g d a imm) := by
  rintro hW _ ⟨⟩
  show decS (sFields (sBits _)) = _
  rw [sFields_sBits]
  unfold decS
  simp only [BitVec.toNat_ofNat, Nat.reduceMod, Nat.reducePow]
  simp (disch := omega) only [SWord.g, Option.getD_some, Option.getD_none, Option.isSome_some, Option.isSome_none,
      Option.map_some, Option.map_none, Option.bind_some, app_hi, app_lo, bit_hi, bit_lo, zext_hi, zext_lo,
      zext_bit_hi, zext_bit_lo, zero_ext, zero_bit, zext_back, ext_self, bool_bit, aNum_back, sw_ext, vw_ext,
      cpyw_ext, stgw_ext, amow_ext]
  simp [chkO, withTy, needExt, hW]

theorem OpWord.alea (g d a b sh) : OpWord.Statement (.alea g d a b sh) := by
  rintro hW _ ⟨⟩
  show decS (sFields (sBits _)) = _
  rw [sFields_sBits]
  unfold decS
  simp only [BitVec.toNat_ofNat, Nat.reduceMod, Nat.reducePow]
  simp (disch := omega) only [SWord.g, Option.getD_some, Option.getD_none, Option.isSome_some, Option.isSome_none,
      Option.map_some, Option.map_none, Option.bind_some, app_hi, app_lo, bit_hi, bit_lo, zext_hi, zext_lo,
      zext_bit_hi, zext_bit_lo, zero_ext, zero_bit, zext_back, ext_self, bool_bit, aNum_back, sw_ext, vw_ext,
      cpyw_ext, stgw_ext, amow_ext]
  simp [chkO, withTy, needExt, hW]

theorem OpWord.aleaSeg (g d b off) : OpWord.Statement (.aleaSeg g d b off) := by
  rintro hW _ ⟨⟩
  show decS (sFields (sBits _)) = _
  rw [sFields_sBits]
  unfold decS
  simp only [BitVec.toNat_ofNat, Nat.reduceMod, Nat.reducePow]
  simp (disch := omega) only [SWord.g, Option.getD_some, Option.getD_none, Option.isSome_some, Option.isSome_none,
      Option.map_some, Option.map_none, Option.bind_some, app_hi, app_lo, bit_hi, bit_lo, zext_hi, zext_lo,
      zext_bit_hi, zext_bit_lo, zero_ext, zero_bit, zext_back, ext_self, bool_bit, aNum_back, sw_ext, vw_ext,
      cpyw_ext, stgw_ext, amow_ext]
  simp [chkO, withTy, needExt, hW]

theorem OpWord.amov (g d a) : OpWord.Statement (.amov g d a) := by
  rintro hW _ ⟨⟩
  show decS (sFields (sBits _)) = _
  rw [sFields_sBits]
  unfold decS
  simp only [BitVec.toNat_ofNat, Nat.reduceMod, Nat.reducePow]
  simp (disch := omega) only [SWord.g, Option.getD_some, Option.getD_none, Option.isSome_some, Option.isSome_none,
      Option.map_some, Option.map_none, Option.bind_some, app_hi, app_lo, bit_hi, bit_lo, zext_hi, zext_lo,
      zext_bit_hi, zext_bit_lo, zero_ext, zero_bit, zext_back, ext_self, bool_bit, aNum_back, sw_ext, vw_ext,
      cpyw_ext, stgw_ext, amow_ext]
  simp [chkO, withTy, needExt, hW]

theorem OpWord.smova (g d a) : OpWord.Statement (.smova g d a) := by
  rintro hW _ ⟨⟩
  show decS (sFields (sBits _)) = _
  rw [sFields_sBits]
  unfold decS
  simp only [BitVec.toNat_ofNat, Nat.reduceMod, Nat.reducePow]
  simp (disch := omega) only [SWord.g, Option.getD_some, Option.getD_none, Option.isSome_some, Option.isSome_none,
      Option.map_some, Option.map_none, Option.bind_some, app_hi, app_lo, bit_hi, bit_lo, zext_hi, zext_lo,
      zext_bit_hi, zext_bit_lo, zero_ext, zero_bit, zext_back, ext_self, bool_bit, aNum_back, sw_ext, vw_ext,
      cpyw_ext, stgw_ext, amow_ext]
  simp [chkO, withTy, needExt, hW]

theorem OpWord.br (g disp) : OpWord.Statement (.br g disp) := by
  rintro hW _ ⟨⟩
  show decSy (sFields (sBits _)) = _
  rw [sFields_sBits]
  unfold decSy
  simp only [BitVec.toNat_ofNat, Nat.reduceMod, Nat.reducePow]
  simp (disch := omega) only [SWord.g, Option.getD_some, Option.getD_none, Option.isSome_some, Option.isSome_none,
      Option.map_some, Option.map_none, Option.bind_some, app_hi, app_lo, bit_hi, bit_lo, zext_hi, zext_lo,
      zext_bit_hi, zext_bit_lo, zero_ext, zero_bit, zext_back, ext_self, bool_bit, sw_ext, vw_ext, cpyw_ext,
      stgw_ext, amow_ext]
  simp [chkO, withTy, needExt, hW]

theorem OpWord.brc (g d disp) : OpWord.Statement (.brc g d disp) := by
  rintro hW _ ⟨⟩
  show decSy (sFields (sBits _)) = _
  rw [sFields_sBits]
  unfold decSy
  simp only [BitVec.toNat_ofNat, Nat.reduceMod, Nat.reducePow]
  simp (disch := omega) only [SWord.g, Option.getD_some, Option.getD_none, Option.isSome_some, Option.isSome_none,
      Option.map_some, Option.map_none, Option.bind_some, app_hi, app_lo, bit_hi, bit_lo, zext_hi, zext_lo,
      zext_bit_hi, zext_bit_lo, zero_ext, zero_bit, zext_back, ext_self, bool_bit, sw_ext, vw_ext, cpyw_ext,
      stgw_ext, amow_ext]
  simp [chkO, withTy, needExt, hW]

theorem OpWord.jmp (g a) : OpWord.Statement (.jmp g a) := by
  rintro hW _ ⟨⟩
  show decSy (sFields (sBits _)) = _
  rw [sFields_sBits]
  unfold decSy
  simp only [BitVec.toNat_ofNat, Nat.reduceMod, Nat.reducePow]
  simp (disch := omega) only [SWord.g, Option.getD_some, Option.getD_none, Option.isSome_some, Option.isSome_none,
      Option.map_some, Option.map_none, Option.bind_some, app_hi, app_lo, bit_hi, bit_lo, zext_hi, zext_lo,
      zext_bit_hi, zext_bit_lo, zero_ext, zero_bit, zext_back, ext_self, bool_bit, sw_ext, vw_ext, cpyw_ext,
      stgw_ext, amow_ext]
  simp [chkO, withTy, needExt, hW]

theorem OpWord.call (g d n disp) : OpWord.Statement (.call g d n disp) := by
  rintro hW _ ⟨⟩
  show decSy (sFields (sBits _)) = _
  rw [sFields_sBits]
  unfold decSy
  simp only [BitVec.toNat_ofNat, Nat.reduceMod, Nat.reducePow]
  have hw := hW
  simp only [WellFormed, Bool.and_eq_true] at hw
  simp (disch := first | omega | simp [hw]) only [SWord.g, Option.getD_some, Option.getD_none, Option.isSome_some,
      Option.isSome_none, Option.map_some, Option.map_none, Option.bind_some, app_hi, app_lo, bit_hi, bit_lo,
      zext_hi, zext_lo, zext_bit_hi, zext_bit_lo, zero_ext, zero_bit, zext_back, ext_self, bool_bit, aNum_back,
      sw_ext, vw_ext, cpyw_ext, stgw_ext, amow_ext]
  simp [chkO, withTy, needExt, hW, hw]

theorem OpWord.calli (g d a n) : OpWord.Statement (.calli g d a n) := by
  rintro hW _ ⟨⟩
  show decSy (sFields (sBits _)) = _
  rw [sFields_sBits]
  unfold decSy
  simp only [BitVec.toNat_ofNat, Nat.reduceMod, Nat.reducePow]
  have hw := hW
  simp only [WellFormed, Bool.and_eq_true] at hw
  simp (disch := first | omega | simp [hw]) only [SWord.g, Option.getD_some, Option.getD_none, Option.isSome_some,
      Option.isSome_none, Option.map_some, Option.map_none, Option.bind_some, app_hi, app_lo, bit_hi, bit_lo,
      zext_hi, zext_lo, zext_bit_hi, zext_bit_lo, zero_ext, zero_bit, zext_back, ext_self, bool_bit, aNum_back,
      sw_ext, vw_ext, cpyw_ext, stgw_ext, amow_ext]
  simp [chkO, withTy, needExt, hW, hw]

theorem OpWord.ret (g a n) : OpWord.Statement (.ret g a n) := by
  rintro hW _ ⟨⟩
  show decSy (sFields (sBits _)) = _
  rw [sFields_sBits]
  unfold decSy
  simp only [BitVec.toNat_ofNat, Nat.reduceMod, Nat.reducePow]
  have hw := hW
  simp only [WellFormed, Bool.and_eq_true] at hw
  simp (disch := first | omega | simp [hw]) only [SWord.g, Option.getD_some, Option.getD_none, Option.isSome_some,
      Option.isSome_none, Option.map_some, Option.map_none, Option.bind_some, app_hi, app_lo, bit_hi, bit_lo,
      zext_hi, zext_lo, zext_bit_hi, zext_bit_lo, zero_ext, zero_bit, zext_back, ext_self, bool_bit, aNum_back,
      sw_ext, vw_ext, cpyw_ext, stgw_ext, amow_ext]
  simp [chkO, withTy, needExt, hW, hw]

theorem OpWord.loop (g k levels len) : OpWord.Statement (.loop g k levels len) := by
  rintro hW _ ⟨⟩
  show decSy (sFields (sBits _)) = _
  rw [sFields_sBits]
  unfold decSy
  simp only [BitVec.toNat_ofNat, Nat.reduceMod, Nat.reducePow]
  have hw := hW
  simp only [WellFormed, Bool.and_eq_true] at hw
  simp (disch := first | omega | simp [hw]) only [SWord.g, Option.getD_some, Option.getD_none, Option.isSome_some,
      Option.isSome_none, Option.map_some, Option.map_none, Option.bind_some, app_hi, app_lo, bit_hi, bit_lo,
      zext_hi, zext_lo, zext_bit_hi, zext_bit_lo, zero_ext, zero_bit, zext_back, ext_self, bool_bit, nNum_back,
      sw_ext, vw_ext, cpyw_ext, stgw_ext, amow_ext]
  simp [chkO, withTy, needExt, hW, hw, Nat.mod_eq_of_lt (show len.toNat < 65536 by omega), show len.toNat < 64 by omega,
      Nat.mod_eq_of_lt (show levels.toNat < 64 by omega), show levels.toNat < 8 by omega]

theorem OpWord.loopx (g a len) : OpWord.Statement (.loopx g a len) := by
  rintro hW _ ⟨⟩
  show decSy (sFields (sBits _)) = _
  rw [sFields_sBits]
  unfold decSy
  simp only [BitVec.toNat_ofNat, Nat.reduceMod, Nat.reducePow]
  have hw := hW
  simp only [WellFormed, Bool.and_eq_true] at hw
  simp (disch := first | omega | simp [hw]) only [SWord.g, Option.getD_some, Option.getD_none, Option.isSome_some,
      Option.isSome_none, Option.map_some, Option.map_none, Option.bind_some, app_hi, app_lo, bit_hi, bit_lo,
      zext_hi, zext_lo, zext_bit_hi, zext_bit_lo, zero_ext, zero_bit, zext_back, ext_self, bool_bit, sw_ext, vw_ext,
      cpyw_ext, stgw_ext, amow_ext]
  simp [chkO, withTy, needExt, hW, hw, Nat.mod_eq_of_lt (show len.toNat < 65536 by omega), show len.toNat < 64 by omega]

theorem OpWord.setfmt (g v) : OpWord.Statement (.setfmt g v) := by
  rintro hW _ ⟨⟩
  show decSy (sFields (sBits _)) = _
  rw [sFields_sBits]
  unfold decSy
  simp only [BitVec.toNat_ofNat, Nat.reduceMod, Nat.reducePow]
  simp (disch := omega) only [SWord.g, Option.getD_some, Option.getD_none, Option.isSome_some, Option.isSome_none,
      Option.map_some, Option.map_none, Option.bind_some, app_hi, app_lo, bit_hi, bit_lo, zext_hi, zext_lo,
      zext_bit_hi, zext_bit_lo, zero_ext, zero_bit, zext_back, ext_self, bool_bit, sw_ext, vw_ext, cpyw_ext,
      stgw_ext, amow_ext]
  simp [chkO, withTy, needExt, hW]

theorem OpWord.fence (g sc nmask) : OpWord.Statement (.fence g sc nmask) := by
  rintro hW _ ⟨⟩
  show decSy (sFields (sBits _)) = _
  rw [sFields_sBits]
  unfold decSy
  simp only [BitVec.toNat_ofNat, Nat.reduceMod, Nat.reducePow]
  have hw := hW
  simp only [WellFormed, Bool.and_eq_true] at hw
  simp (disch := first | omega | simp [hw]) only [SWord.g, Option.getD_some, Option.getD_none, Option.isSome_some,
      Option.isSome_none, Option.map_some, Option.map_none, Option.bind_some, app_hi, app_lo, bit_hi, bit_lo,
      zext_hi, zext_lo, zext_bit_hi, zext_bit_lo, zero_ext, zero_bit, zext_back, ext_self, bool_bit, scope_back,
      sw_ext, vw_ext, cpyw_ext, stgw_ext, amow_ext]
  simp [chkO, withTy, needExt, hW, hw]

theorem OpWord.xfence (g) : OpWord.Statement (.xfence g) := by
  rintro hW _ ⟨⟩
  show decSy (sFields (sBits _)) = _
  rw [sFields_sBits]
  unfold decSy
  simp only [BitVec.toNat_ofNat, Nat.reduceMod, Nat.reducePow]
  simp (disch := omega) only [SWord.g, Option.getD_some, Option.getD_none, Option.isSome_some, Option.isSome_none,
      Option.map_some, Option.map_none, Option.bind_some, app_hi, app_lo, bit_hi, bit_lo, zext_hi, zext_lo,
      zext_bit_hi, zext_bit_lo, zero_ext, zero_bit, zext_back, ext_self, bool_bit, sw_ext, vw_ext, cpyw_ext,
      stgw_ext, amow_ext]
  simp [chkO, withTy, needExt, hW]

theorem OpWord.ifence (g) : OpWord.Statement (.ifence g) := by
  rintro hW _ ⟨⟩
  show decSy (sFields (sBits _)) = _
  rw [sFields_sBits]
  unfold decSy
  simp only [BitVec.toNat_ofNat, Nat.reduceMod, Nat.reducePow]
  simp (disch := omega) only [SWord.g, Option.getD_some, Option.getD_none, Option.isSome_some, Option.isSome_none,
      Option.map_some, Option.map_none, Option.bind_some, app_hi, app_lo, bit_hi, bit_lo, zext_hi, zext_lo,
      zext_bit_hi, zext_bit_lo, zero_ext, zero_bit, zext_back, ext_self, bool_bit, sw_ext, vw_ext, cpyw_ext,
      stgw_ext, amow_ext]
  simp [chkO, withTy, needExt, hW]

theorem OpWord.bar (g sc) : OpWord.Statement (.bar g sc) := by
  rintro hW _ ⟨⟩
  show decSy (sFields (sBits _)) = _
  rw [sFields_sBits]
  unfold decSy
  simp only [BitVec.toNat_ofNat, Nat.reduceMod, Nat.reducePow]
  have hw := hW
  simp only [WellFormed, Bool.and_eq_true] at hw
  simp (disch := first | omega | simp [hw]) only [SWord.g, Option.getD_some, Option.getD_none, Option.isSome_some,
      Option.isSome_none, Option.map_some, Option.map_none, Option.bind_some, app_hi, app_lo, bit_hi, bit_lo,
      zext_hi, zext_lo, zext_bit_hi, zext_bit_lo, zero_ext, zero_bit, zext_back, ext_self, bool_bit, scope_back,
      sw_ext, vw_ext, cpyw_ext, stgw_ext, amow_ext]
  simp [chkO, withTy, needExt, hW, hw]

theorem OpWord.setf (g grp mask) : OpWord.Statement (.setf g grp mask) := by
  rintro hW _ ⟨⟩
  show decSy (sFields (sBits _)) = _
  rw [sFields_sBits]
  unfold decSy
  simp only [BitVec.toNat_ofNat, Nat.reduceMod, Nat.reducePow]
  have hw := hW
  simp only [WellFormed, Bool.and_eq_true] at hw
  simp (disch := first | omega | simp [hw]) only [SWord.g, Option.getD_some, Option.getD_none, Option.isSome_some,
      Option.isSome_none, Option.map_some, Option.map_none, Option.bind_some, app_hi, app_lo, bit_hi, bit_lo,
      zext_hi, zext_lo, zext_bit_hi, zext_bit_lo, zero_ext, zero_bit, zext_back, ext_self, bool_bit, sw_ext, vw_ext,
      cpyw_ext, stgw_ext, amow_ext]
  simp [chkO, withTy, needExt, hW, hw, Nat.mod_eq_of_lt (show grp.toNat < 64 by omega), show grp.toNat ≤ 3 by omega]

theorem OpWord.clrf (g grp mask) : OpWord.Statement (.clrf g grp mask) := by
  rintro hW _ ⟨⟩
  show decSy (sFields (sBits _)) = _
  rw [sFields_sBits]
  unfold decSy
  simp only [BitVec.toNat_ofNat, Nat.reduceMod, Nat.reducePow]
  have hw := hW
  simp only [WellFormed, Bool.and_eq_true] at hw
  simp (disch := first | omega | simp [hw]) only [SWord.g, Option.getD_some, Option.getD_none, Option.isSome_some,
      Option.isSome_none, Option.map_some, Option.map_none, Option.bind_some, app_hi, app_lo, bit_hi, bit_lo,
      zext_hi, zext_lo, zext_bit_hi, zext_bit_lo, zero_ext, zero_bit, zext_back, ext_self, bool_bit, sw_ext, vw_ext,
      cpyw_ext, stgw_ext, amow_ext]
  simp [chkO, withTy, needExt, hW, hw, Nat.mod_eq_of_lt (show grp.toNat < 64 by omega), show grp.toNat ≤ 3 by omega]

theorem OpWord.waitgcc (g a) : OpWord.Statement (.waitgcc g a) := by
  rintro hW _ ⟨⟩
  show decSy (sFields (sBits _)) = _
  rw [sFields_sBits]
  unfold decSy
  simp only [BitVec.toNat_ofNat, Nat.reduceMod, Nat.reducePow]
  simp (disch := omega) only [SWord.g, Option.getD_some, Option.getD_none, Option.isSome_some, Option.isSome_none,
      Option.map_some, Option.map_none, Option.bind_some, app_hi, app_lo, bit_hi, bit_lo, zext_hi, zext_lo,
      zext_bit_hi, zext_bit_lo, zero_ext, zero_bit, zext_back, ext_self, bool_bit, sw_ext, vw_ext, cpyw_ext,
      stgw_ext, amow_ext]
  simp [chkO, withTy, needExt, hW]

theorem OpWord.rdsys (g d num) : OpWord.Statement (.rdsys g d num) := by
  rintro hW _ ⟨⟩
  show decSy (sFields (sBits _)) = _
  rw [sFields_sBits]
  unfold decSy
  simp only [BitVec.toNat_ofNat, Nat.reduceMod, Nat.reducePow]
  have hw := hW
  simp only [WellFormed, Bool.and_eq_true] at hw
  simp (disch := first | omega | simp [hw]) only [SWord.g, Option.getD_some, Option.getD_none, Option.isSome_some,
      Option.isSome_none, Option.map_some, Option.map_none, Option.bind_some, app_hi, app_lo, bit_hi, bit_lo,
      zext_hi, zext_lo, zext_bit_hi, zext_bit_lo, zero_ext, zero_bit, zext_back, ext_self, bool_bit, sw_ext, vw_ext,
      cpyw_ext, stgw_ext, amow_ext]
  simp [chkO, withTy, needExt, hW, hw, Nat.mod_eq_of_lt (show num.toNat < 65536 by omega), show num.toNat < 16 by omega]

theorem OpWord.wrsys (g num a) : OpWord.Statement (.wrsys g num a) := by
  rintro hW _ ⟨⟩
  show decSy (sFields (sBits _)) = _
  rw [sFields_sBits]
  unfold decSy
  simp only [BitVec.toNat_ofNat, Nat.reduceMod, Nat.reducePow]
  have hw := hW
  simp only [WellFormed, Bool.and_eq_true] at hw
  simp (disch := first | omega | simp [hw]) only [SWord.g, Option.getD_some, Option.getD_none, Option.isSome_some,
      Option.isSome_none, Option.map_some, Option.map_none, Option.bind_some, app_hi, app_lo, bit_hi, bit_lo,
      zext_hi, zext_lo, zext_bit_hi, zext_bit_lo, zero_ext, zero_bit, zext_back, ext_self, bool_bit, sw_ext, vw_ext,
      cpyw_ext, stgw_ext, amow_ext]
  simp [chkO, withTy, needExt, hW, hw, Nat.mod_eq_of_lt (show num.toNat < 65536 by omega), show num.toNat < 16 by omega]

theorem OpWord.trap (g imm) : OpWord.Statement (.trap g imm) := by
  rintro hW _ ⟨⟩
  show decSy (sFields (sBits _)) = _
  rw [sFields_sBits]
  unfold decSy
  simp only [BitVec.toNat_ofNat, Nat.reduceMod, Nat.reducePow]
  simp (disch := omega) only [SWord.g, Option.getD_some, Option.getD_none, Option.isSome_some, Option.isSome_none,
      Option.map_some, Option.map_none, Option.bind_some, app_hi, app_lo, bit_hi, bit_lo, zext_hi, zext_lo,
      zext_bit_hi, zext_bit_lo, zero_ext, zero_bit, zext_back, ext_self, bool_bit, sw_ext, vw_ext, cpyw_ext,
      stgw_ext, amow_ext]
  simp [chkO, withTy, needExt, hW]

theorem OpWord.brk (g imm) : OpWord.Statement (.brk g imm) := by
  rintro hW _ ⟨⟩
  show decSy (sFields (sBits _)) = _
  rw [sFields_sBits]
  unfold decSy
  simp only [BitVec.toNat_ofNat, Nat.reduceMod, Nat.reducePow]
  simp (disch := omega) only [SWord.g, Option.getD_some, Option.getD_none, Option.isSome_some, Option.isSome_none,
      Option.map_some, Option.map_none, Option.bind_some, app_hi, app_lo, bit_hi, bit_lo, zext_hi, zext_lo,
      zext_bit_hi, zext_bit_lo, zero_ext, zero_bit, zext_back, ext_self, bool_bit, sw_ext, vw_ext, cpyw_ext,
      stgw_ext, amow_ext]
  simp [chkO, withTy, needExt, hW]

theorem OpWord.halt (g) : OpWord.Statement (.halt g) := by
  rintro hW _ ⟨⟩
  show decSy (sFields (sBits _)) = _
  rw [sFields_sBits]
  unfold decSy
  simp only [BitVec.toNat_ofNat, Nat.reduceMod, Nat.reducePow]
  simp (disch := omega) only [SWord.g, Option.getD_some, Option.getD_none, Option.isSome_some, Option.isSome_none,
      Option.map_some, Option.map_none, Option.bind_some, app_hi, app_lo, bit_hi, bit_lo, zext_hi, zext_lo,
      zext_bit_hi, zext_bit_lo, zero_ext, zero_bit, zext_back, ext_self, bool_bit, sw_ext, vw_ext, cpyw_ext,
      stgw_ext, amow_ext]
  simp [chkO, withTy, needExt, hW]

theorem OpWord.unit (g d k) : OpWord.Statement (.unit g d k) := by
  rintro hW _ ⟨⟩
  show decSy (sFields (sBits _)) = _
  rw [sFields_sBits]
  unfold decSy
  simp only [BitVec.toNat_ofNat, Nat.reduceMod, Nat.reducePow]
  simp (disch := omega) only [SWord.g, Option.getD_some, Option.getD_none, Option.isSome_some, Option.isSome_none,
      Option.map_some, Option.map_none, Option.bind_some, app_hi, app_lo, bit_hi, bit_lo, zext_hi, zext_lo,
      zext_bit_hi, zext_bit_lo, zero_ext, zero_bit, zext_back, ext_self, bool_bit, wNum_back, sw_ext, vw_ext,
      cpyw_ext, stgw_ext, amow_ext]
  simp [chkO, withTy, needExt, hW]

theorem OpWord.unitS (g a) : OpWord.Statement (.unitS g a) := by
  rintro hW _ ⟨⟩
  show decSy (sFields (sBits _)) = _
  rw [sFields_sBits]
  unfold decSy
  simp only [BitVec.toNat_ofNat, Nat.reduceMod, Nat.reducePow]
  simp (disch := omega) only [SWord.g, Option.getD_some, Option.getD_none, Option.isSome_some, Option.isSome_none,
      Option.map_some, Option.map_none, Option.bind_some, app_hi, app_lo, bit_hi, bit_lo, zext_hi, zext_lo,
      zext_bit_hi, zext_bit_lo, zero_ext, zero_bit, zext_back, ext_self, bool_bit, sw_ext, vw_ext, cpyw_ext,
      stgw_ext, amow_ext]
  simp [chkO, withTy, needExt, hW]

theorem OpWord.pushld (g p) : OpWord.Statement (.pushld g p) := by
  obtain ⟨_, _, _, _, _⟩ := p
  rintro hW _ ⟨⟩
  show decAq (sFields (sBits _)) _ = _
  rw [sFields_sBits]
  unfold decAq
  simp only [BitVec.toNat_ofNat, Nat.reduceMod, Nat.reducePow]
  simp (disch := omega) only [SWord.g, Option.getD_some, Option.getD_none, Option.isSome_some, Option.isSome_none,
      Option.map_some, Option.map_none, Option.bind_some, app_hi, app_lo, bit_hi, bit_lo, zext_hi, zext_lo,
      zext_bit_hi, zext_bit_lo, zero_ext, zero_bit, zext_back, ext_self, bool_bit, aNum_back, sw_ext, vw_ext,
      cpyw_ext, stgw_ext, amow_ext, pushArgs]
  simp [chkO, withTy, needExt, hW]

theorem OpWord.pushlds (g p b) : OpWord.Statement (.pushlds g p b) := by
  obtain ⟨_, _, _, _, _⟩ := p
  rintro hW _ ⟨⟩
  show decAq (sFields (sBits _)) _ = _
  rw [sFields_sBits]
  unfold decAq
  simp only [BitVec.toNat_ofNat, Nat.reduceMod, Nat.reducePow]
  simp (disch := omega) only [SWord.g, Option.getD_some, Option.getD_none, Option.isSome_some, Option.isSome_none,
      Option.map_some, Option.map_none, Option.bind_some, app_hi, app_lo, bit_hi, bit_lo, zext_hi, zext_lo,
      zext_bit_hi, zext_bit_lo, zero_ext, zero_bit, zext_back, ext_self, bool_bit, aNum_back, sw_ext, vw_ext,
      cpyw_ext, stgw_ext, amow_ext, pushArgs]
  simp [chkO, withTy, needExt, hW]

theorem OpWord.pushldx (g p b) : OpWord.Statement (.pushldx g p b) := by
  obtain ⟨_, _, _, _, _⟩ := p
  rintro hW _ ⟨⟩
  show decAq (sFields (sBits _)) _ = _
  rw [sFields_sBits]
  unfold decAq
  simp only [BitVec.toNat_ofNat, Nat.reduceMod, Nat.reducePow]
  have hw := hW
  simp only [WellFormed, Bool.and_eq_true] at hw
  simp (disch := first | omega | simp [hw]) only [SWord.g, Option.getD_some, Option.getD_none, Option.isSome_some,
      Option.isSome_none, Option.map_some, Option.map_none, Option.bind_some, app_hi, app_lo, bit_hi, bit_lo,
      zext_hi, zext_lo, zext_bit_hi, zext_bit_lo, zero_ext, zero_bit, zext_back, ext_self, bool_bit, aNum_back,
      sw_ext, vw_ext, cpyw_ext, stgw_ext, amow_ext, pushArgs]
  simp [chkO, withTy, needExt, hW, hw]

theorem OpWord.stg (g p) : OpWord.Statement (.stg g p) := by
  obtain ⟨_, _, _, _, _⟩ := p
  rintro hW _ ⟨⟩
  show decAq (sFields (sBits _)) _ = _
  rw [sFields_sBits]
  unfold decAq
  simp only [BitVec.toNat_ofNat, Nat.reduceMod, Nat.reducePow]
  have hw := hW
  simp only [WellFormed, Bool.and_eq_true] at hw
  simp (disch := first | omega | simp [hw]) only [SWord.g, Option.getD_some, Option.getD_none, Option.isSome_some,
      Option.isSome_none, Option.map_some, Option.map_none, Option.bind_some, app_hi, app_lo, bit_hi, bit_lo,
      zext_hi, zext_lo, zext_bit_hi, zext_bit_lo, zero_ext, zero_bit, zext_back, ext_self, bool_bit, aNum_back,
      sw_ext, vw_ext, cpyw_ext, stgw_ext, amow_ext, stgArgs, stgExt]
  simp [chkO, withTy, needExt, hW, hw]

theorem OpWord.stgs (g p b) : OpWord.Statement (.stgs g p b) := by
  obtain ⟨_, _, _, _, _⟩ := p
  rintro hW _ ⟨⟩
  show decAq (sFields (sBits _)) _ = _
  rw [sFields_sBits]
  unfold decAq
  simp only [BitVec.toNat_ofNat, Nat.reduceMod, Nat.reducePow]
  have hw := hW
  simp only [WellFormed, Bool.and_eq_true] at hw
  simp (disch := first | omega | simp [hw]) only [SWord.g, Option.getD_some, Option.getD_none, Option.isSome_some,
      Option.isSome_none, Option.map_some, Option.map_none, Option.bind_some, app_hi, app_lo, bit_hi, bit_lo,
      zext_hi, zext_lo, zext_bit_hi, zext_bit_lo, zero_ext, zero_bit, zext_back, ext_self, bool_bit, aNum_back,
      sw_ext, vw_ext, cpyw_ext, stgw_ext, amow_ext, stgArgs, stgExt]
  simp [chkO, withTy, needExt, hW, hw]

theorem OpWord.stgx (g p x) : OpWord.Statement (.stgx g p x) := by
  obtain ⟨_, _, _, _, _⟩ := p
  rintro hW _ ⟨⟩
  show decAq (sFields (sBits _)) _ = _
  rw [sFields_sBits]
  unfold decAq
  simp only [BitVec.toNat_ofNat, Nat.reduceMod, Nat.reducePow]
  have hw := hW
  simp only [WellFormed, Bool.and_eq_true] at hw
  simp (disch := first | omega | simp [hw]) only [SWord.g, Option.getD_some, Option.getD_none, Option.isSome_some,
      Option.isSome_none, Option.map_some, Option.map_none, Option.bind_some, app_hi, app_lo, bit_hi, bit_lo,
      zext_hi, zext_lo, zext_bit_hi, zext_bit_lo, zero_ext, zero_bit, zext_back, ext_self, bool_bit, aNum_back,
      sw_ext, vw_ext, cpyw_ext, stgw_ext, amow_ext, stgArgs, stgExt]
  simp [chkO, withTy, needExt, hW, hw]

theorem OpWord.lds (g d a cls off sx z) : OpWord.Statement (.lds g d a cls off sx z) := by
  rintro hW _ ⟨⟩
  show decAq (sFields (sBits _)) _ = _
  rw [sFields_sBits]
  unfold decAq
  simp only [BitVec.toNat_ofNat, Nat.reduceMod, Nat.reducePow]
  have hw := hW
  simp only [WellFormed, Bool.and_eq_true] at hw
  simp (disch := first | omega | simp [hw]) only [SWord.g, Option.getD_some, Option.getD_none, Option.isSome_some,
      Option.isSome_none, Option.map_some, Option.map_none, Option.bind_some, app_hi, app_lo, bit_hi, bit_lo,
      zext_hi, zext_lo, zext_bit_hi, zext_bit_lo, zero_ext, zero_bit, zext_back, ext_self, bool_bit, aNum_back,
      size_back, sw_ext, vw_ext, cpyw_ext, stgw_ext, amow_ext, ldsImm]
  simp [chkO, withTy, needExt, hW, hw]

theorem OpWord.ldsL (g d a cls off sx z) : OpWord.Statement (.ldsL g d a cls off sx z) := by
  rintro hW _ ⟨⟩
  show decAq (sFields (sBits _)) _ = _
  rw [sFields_sBits]
  unfold decAq
  simp only [BitVec.toNat_ofNat, Nat.reduceMod, Nat.reducePow]
  have hw := hW
  simp only [WellFormed, Bool.and_eq_true] at hw
  simp (disch := first | omega | simp [hw]) only [SWord.g, Option.getD_some, Option.getD_none, Option.isSome_some,
      Option.isSome_none, Option.map_some, Option.map_none, Option.bind_some, app_hi, app_lo, bit_hi, bit_lo,
      zext_hi, zext_lo, zext_bit_hi, zext_bit_lo, zero_ext, zero_bit, zext_back, ext_self, bool_bit, aNum_back,
      size_back, sw_ext, vw_ext, cpyw_ext, stgw_ext, amow_ext, ldsImm]
  simp [chkO, withTy, needExt, hW, hw]

theorem OpWord.sts (g a b cls off z) : OpWord.Statement (.sts g a b cls off z) := by
  rintro hW _ ⟨⟩
  show decAq (sFields (sBits _)) _ = _
  rw [sFields_sBits]
  unfold decAq
  simp only [BitVec.toNat_ofNat, Nat.reduceMod, Nat.reducePow]
  simp (disch := omega) only [SWord.g, Option.getD_some, Option.getD_none, Option.isSome_some, Option.isSome_none,
      Option.map_some, Option.map_none, Option.bind_some, app_hi, app_lo, bit_hi, bit_lo, zext_hi, zext_lo,
      zext_bit_hi, zext_bit_lo, zero_ext, zero_bit, zext_back, ext_self, bool_bit, aNum_back, size_back, sw_ext,
      vw_ext, cpyw_ext, stgw_ext, amow_ext, ldsImm]
  simp [chkO, withTy, needExt, hW]

theorem OpWord.stsL (g a b cls off z) : OpWord.Statement (.stsL g a b cls off z) := by
  rintro hW _ ⟨⟩
  show decAq (sFields (sBits _)) _ = _
  rw [sFields_sBits]
  unfold decAq
  simp only [BitVec.toNat_ofNat, Nat.reduceMod, Nat.reducePow]
  simp (disch := omega) only [SWord.g, Option.getD_some, Option.getD_none, Option.isSome_some, Option.isSome_none,
      Option.map_some, Option.map_none, Option.bind_some, app_hi, app_lo, bit_hi, bit_lo, zext_hi, zext_lo,
      zext_bit_hi, zext_bit_lo, zero_ext, zero_bit, zext_back, ext_self, bool_bit, aNum_back, size_back, sw_ext,
      vw_ext, cpyw_ext, stgw_ext, amow_ext, ldsImm]
  simp [chkO, withTy, needExt, hW]

theorem OpWord.ldacq (g d a sc nmask) : OpWord.Statement (.ldacq g d a sc nmask) := by
  rintro hW _ ⟨⟩
  show decAq (sFields (sBits _)) _ = _
  rw [sFields_sBits]
  unfold decAq
  simp only [BitVec.toNat_ofNat, Nat.reduceMod, Nat.reducePow]
  have hw := hW
  simp only [WellFormed, Bool.and_eq_true] at hw
  simp (disch := first | omega | simp [hw]) only [SWord.g, Option.getD_some, Option.getD_none, Option.isSome_some,
      Option.isSome_none, Option.map_some, Option.map_none, Option.bind_some, app_hi, app_lo, bit_hi, bit_lo,
      zext_hi, zext_lo, zext_bit_hi, zext_bit_lo, zero_ext, zero_bit, zext_back, ext_self, bool_bit, aNum_back,
      scope_back, sw_ext, vw_ext, cpyw_ext, stgw_ext, amow_ext]
  simp [chkO, withTy, needExt, hW, hw]

theorem OpWord.strel (g a b sc nmask) : OpWord.Statement (.strel g a b sc nmask) := by
  rintro hW _ ⟨⟩
  show decAq (sFields (sBits _)) _ = _
  rw [sFields_sBits]
  unfold decAq
  simp only [BitVec.toNat_ofNat, Nat.reduceMod, Nat.reducePow]
  have hw := hW
  simp only [WellFormed, Bool.and_eq_true] at hw
  simp (disch := first | omega | simp [hw]) only [SWord.g, Option.getD_some, Option.getD_none, Option.isSome_some,
      Option.isSome_none, Option.map_some, Option.map_none, Option.bind_some, app_hi, app_lo, bit_hi, bit_lo,
      zext_hi, zext_lo, zext_bit_hi, zext_bit_lo, zero_ext, zero_bit, zext_back, ext_self, bool_bit, aNum_back,
      scope_back, sw_ext, vw_ext, cpyw_ext, stgw_ext, amow_ext]
  simp [chkO, withTy, needExt, hW, hw]

theorem OpWord.amoAdd (g p) : OpWord.Statement (.amoAdd g p) := by
  obtain ⟨_, _, _, o, _, _⟩ := p
  rintro hW _ ⟨⟩
  show decAq (sFields (sBits _)) _ = _
  rw [sFields_sBits]
  unfold decAq
  simp only [BitVec.toNat_ofNat, Nat.reduceMod, Nat.reducePow]
  have hw := hW
  simp only [WellFormed, Bool.and_eq_true] at hw
  simp (disch := first | omega | simp [hw]) only [SWord.g, Option.getD_some, Option.getD_none, Option.isSome_some,
      Option.isSome_none, Option.map_some, Option.map_none, Option.bind_some, app_hi, app_lo, bit_hi, bit_lo,
      zext_hi, zext_lo, zext_bit_hi, zext_bit_lo, zero_ext, zero_bit, zext_back, ext_self, bool_bit, ord_back,
      scope_back, aNum_back, sw_ext, vw_ext, cpyw_ext, stgw_ext, amow_ext, amoArgs, amoExt, amoUnused, amoKind,
      AmoArgs.ok]
  cases o <;> simp_all [chkO, ordCode, scopeCode, AmoArgs.ok]

theorem OpWord.amoFadd (g p) : OpWord.Statement (.amoFadd g p) := by
  obtain ⟨_, _, _, o, _, _⟩ := p
  rintro hW _ ⟨⟩
  show decAq (sFields (sBits _)) _ = _
  rw [sFields_sBits]
  unfold decAq
  simp only [BitVec.toNat_ofNat, Nat.reduceMod, Nat.reducePow]
  have hw := hW
  simp only [WellFormed, Bool.and_eq_true] at hw
  simp (disch := first | omega | simp [hw]) only [SWord.g, Option.getD_some, Option.getD_none, Option.isSome_some,
      Option.isSome_none, Option.map_some, Option.map_none, Option.bind_some, app_hi, app_lo, bit_hi, bit_lo,
      zext_hi, zext_lo, zext_bit_hi, zext_bit_lo, zero_ext, zero_bit, zext_back, ext_self, bool_bit, ord_back,
      scope_back, aNum_back, sw_ext, vw_ext, cpyw_ext, stgw_ext, amow_ext, amoArgs, amoExt, amoUnused, amoKind,
      AmoArgs.ok]
  cases o <;> simp_all [chkO, ordCode, scopeCode, AmoArgs.ok]

theorem OpWord.amoMin (g p) : OpWord.Statement (.amoMin g p) := by
  obtain ⟨_, _, _, o, _, _⟩ := p
  rintro hW _ ⟨⟩
  show decAq (sFields (sBits _)) _ = _
  rw [sFields_sBits]
  unfold decAq
  simp only [BitVec.toNat_ofNat, Nat.reduceMod, Nat.reducePow]
  have hw := hW
  simp only [WellFormed, Bool.and_eq_true] at hw
  simp (disch := first | omega | simp [hw]) only [SWord.g, Option.getD_some, Option.getD_none, Option.isSome_some,
      Option.isSome_none, Option.map_some, Option.map_none, Option.bind_some, app_hi, app_lo, bit_hi, bit_lo,
      zext_hi, zext_lo, zext_bit_hi, zext_bit_lo, zero_ext, zero_bit, zext_back, ext_self, bool_bit, ord_back,
      scope_back, aNum_back, sw_ext, vw_ext, cpyw_ext, stgw_ext, amow_ext, amoArgs, amoExt, amoUnused, amoKind,
      AmoArgs.ok]
  cases o <;> simp_all [chkO, ordCode, scopeCode, AmoArgs.ok]

theorem OpWord.amoMax (g p) : OpWord.Statement (.amoMax g p) := by
  obtain ⟨_, _, _, o, _, _⟩ := p
  rintro hW _ ⟨⟩
  show decAq (sFields (sBits _)) _ = _
  rw [sFields_sBits]
  unfold decAq
  simp only [BitVec.toNat_ofNat, Nat.reduceMod, Nat.reducePow]
  have hw := hW
  simp only [WellFormed, Bool.and_eq_true] at hw
  simp (disch := first | omega | simp [hw]) only [SWord.g, Option.getD_some, Option.getD_none, Option.isSome_some,
      Option.isSome_none, Option.map_some, Option.map_none, Option.bind_some, app_hi, app_lo, bit_hi, bit_lo,
      zext_hi, zext_lo, zext_bit_hi, zext_bit_lo, zero_ext, zero_bit, zext_back, ext_self, bool_bit, ord_back,
      scope_back, aNum_back, sw_ext, vw_ext, cpyw_ext, stgw_ext, amow_ext, amoArgs, amoExt, amoUnused, amoKind,
      AmoArgs.ok]
  cases o <;> simp_all [chkO, ordCode, scopeCode, AmoArgs.ok]

theorem OpWord.amoMinu (g p) : OpWord.Statement (.amoMinu g p) := by
  obtain ⟨_, _, _, o, _, _⟩ := p
  rintro hW _ ⟨⟩
  show decAq (sFields (sBits _)) _ = _
  rw [sFields_sBits]
  unfold decAq
  simp only [BitVec.toNat_ofNat, Nat.reduceMod, Nat.reducePow]
  have hw := hW
  simp only [WellFormed, Bool.and_eq_true] at hw
  simp (disch := first | omega | simp [hw]) only [SWord.g, Option.getD_some, Option.getD_none, Option.isSome_some,
      Option.isSome_none, Option.map_some, Option.map_none, Option.bind_some, app_hi, app_lo, bit_hi, bit_lo,
      zext_hi, zext_lo, zext_bit_hi, zext_bit_lo, zero_ext, zero_bit, zext_back, ext_self, bool_bit, ord_back,
      scope_back, aNum_back, sw_ext, vw_ext, cpyw_ext, stgw_ext, amow_ext, amoArgs, amoExt, amoUnused, amoKind,
      AmoArgs.ok]
  cases o <;> simp_all [chkO, ordCode, scopeCode, AmoArgs.ok]

theorem OpWord.amoMaxu (g p) : OpWord.Statement (.amoMaxu g p) := by
  obtain ⟨_, _, _, o, _, _⟩ := p
  rintro hW _ ⟨⟩
  show decAq (sFields (sBits _)) _ = _
  rw [sFields_sBits]
  unfold decAq
  simp only [BitVec.toNat_ofNat, Nat.reduceMod, Nat.reducePow]
  have hw := hW
  simp only [WellFormed, Bool.and_eq_true] at hw
  simp (disch := first | omega | simp [hw]) only [SWord.g, Option.getD_some, Option.getD_none, Option.isSome_some,
      Option.isSome_none, Option.map_some, Option.map_none, Option.bind_some, app_hi, app_lo, bit_hi, bit_lo,
      zext_hi, zext_lo, zext_bit_hi, zext_bit_lo, zero_ext, zero_bit, zext_back, ext_self, bool_bit, ord_back,
      scope_back, aNum_back, sw_ext, vw_ext, cpyw_ext, stgw_ext, amow_ext, amoArgs, amoExt, amoUnused, amoKind,
      AmoArgs.ok]
  cases o <;> simp_all [chkO, ordCode, scopeCode, AmoArgs.ok]

theorem OpWord.amoAnd (g p) : OpWord.Statement (.amoAnd g p) := by
  obtain ⟨_, _, _, o, _, _⟩ := p
  rintro hW _ ⟨⟩
  show decAq (sFields (sBits _)) _ = _
  rw [sFields_sBits]
  unfold decAq
  simp only [BitVec.toNat_ofNat, Nat.reduceMod, Nat.reducePow]
  have hw := hW
  simp only [WellFormed, Bool.and_eq_true] at hw
  simp (disch := first | omega | simp [hw]) only [SWord.g, Option.getD_some, Option.getD_none, Option.isSome_some,
      Option.isSome_none, Option.map_some, Option.map_none, Option.bind_some, app_hi, app_lo, bit_hi, bit_lo,
      zext_hi, zext_lo, zext_bit_hi, zext_bit_lo, zero_ext, zero_bit, zext_back, ext_self, bool_bit, ord_back,
      scope_back, aNum_back, sw_ext, vw_ext, cpyw_ext, stgw_ext, amow_ext, amoArgs, amoExt, amoUnused, amoKind,
      AmoArgs.ok]
  cases o <;> simp_all [chkO, ordCode, scopeCode, AmoArgs.ok]

theorem OpWord.amoOr (g p) : OpWord.Statement (.amoOr g p) := by
  obtain ⟨_, _, _, o, _, _⟩ := p
  rintro hW _ ⟨⟩
  show decAq (sFields (sBits _)) _ = _
  rw [sFields_sBits]
  unfold decAq
  simp only [BitVec.toNat_ofNat, Nat.reduceMod, Nat.reducePow]
  have hw := hW
  simp only [WellFormed, Bool.and_eq_true] at hw
  simp (disch := first | omega | simp [hw]) only [SWord.g, Option.getD_some, Option.getD_none, Option.isSome_some,
      Option.isSome_none, Option.map_some, Option.map_none, Option.bind_some, app_hi, app_lo, bit_hi, bit_lo,
      zext_hi, zext_lo, zext_bit_hi, zext_bit_lo, zero_ext, zero_bit, zext_back, ext_self, bool_bit, ord_back,
      scope_back, aNum_back, sw_ext, vw_ext, cpyw_ext, stgw_ext, amow_ext, amoArgs, amoExt, amoUnused, amoKind,
      AmoArgs.ok]
  cases o <;> simp_all [chkO, ordCode, scopeCode, AmoArgs.ok]

theorem OpWord.amoXor (g p) : OpWord.Statement (.amoXor g p) := by
  obtain ⟨_, _, _, o, _, _⟩ := p
  rintro hW _ ⟨⟩
  show decAq (sFields (sBits _)) _ = _
  rw [sFields_sBits]
  unfold decAq
  simp only [BitVec.toNat_ofNat, Nat.reduceMod, Nat.reducePow]
  have hw := hW
  simp only [WellFormed, Bool.and_eq_true] at hw
  simp (disch := first | omega | simp [hw]) only [SWord.g, Option.getD_some, Option.getD_none, Option.isSome_some,
      Option.isSome_none, Option.map_some, Option.map_none, Option.bind_some, app_hi, app_lo, bit_hi, bit_lo,
      zext_hi, zext_lo, zext_bit_hi, zext_bit_lo, zero_ext, zero_bit, zext_back, ext_self, bool_bit, ord_back,
      scope_back, aNum_back, sw_ext, vw_ext, cpyw_ext, stgw_ext, amow_ext, amoArgs, amoExt, amoUnused, amoKind,
      AmoArgs.ok]
  cases o <;> simp_all [chkO, ordCode, scopeCode, AmoArgs.ok]

theorem OpWord.amoXchg (g p) : OpWord.Statement (.amoXchg g p) := by
  obtain ⟨_, _, _, o, _, _⟩ := p
  rintro hW _ ⟨⟩
  show decAq (sFields (sBits _)) _ = _
  rw [sFields_sBits]
  unfold decAq
  simp only [BitVec.toNat_ofNat, Nat.reduceMod, Nat.reducePow]
  have hw := hW
  simp only [WellFormed, Bool.and_eq_true] at hw
  simp (disch := first | omega | simp [hw]) only [SWord.g, Option.getD_some, Option.getD_none, Option.isSome_some,
      Option.isSome_none, Option.map_some, Option.map_none, Option.bind_some, app_hi, app_lo, bit_hi, bit_lo,
      zext_hi, zext_lo, zext_bit_hi, zext_bit_lo, zero_ext, zero_bit, zext_back, ext_self, bool_bit, ord_back,
      scope_back, aNum_back, sw_ext, vw_ext, cpyw_ext, stgw_ext, amow_ext, amoArgs, amoExt, amoUnused, amoKind,
      AmoArgs.ok]
  cases o <;> simp_all [chkO, ordCode, scopeCode, AmoArgs.ok]

theorem OpWord.cas (g p nw) : OpWord.Statement (.cas g p nw) := by
  obtain ⟨_, _, _, o, _, _⟩ := p
  rintro hW _ ⟨⟩
  show decAq (sFields (sBits _)) _ = _
  rw [sFields_sBits]
  unfold decAq
  simp only [BitVec.toNat_ofNat, Nat.reduceMod, Nat.reducePow]
  have hw := hW
  simp only [WellFormed, Bool.and_eq_true] at hw
  simp (disch := first | omega | simp [hw]) only [SWord.g, Option.getD_some, Option.getD_none, Option.isSome_some,
      Option.isSome_none, Option.map_some, Option.map_none, Option.bind_some, app_hi, app_lo, bit_hi, bit_lo,
      zext_hi, zext_lo, zext_bit_hi, zext_bit_lo, zero_ext, zero_bit, zext_back, ext_self, bool_bit, ord_back,
      scope_back, aNum_back, sw_ext, vw_ext, cpyw_ext, stgw_ext, amow_ext, amoArgs, amoExt, amoUnused, amoKind,
      AmoArgs.ok]
  cases o <;> simp_all [chkO, ordCode, scopeCode, AmoArgs.ok]

theorem OpWord.tlook (g d a) : OpWord.Statement (.tlook g d a) := by
  rintro hW _ ⟨⟩
  show decAq (sFields (sBits _)) _ = _
  rw [sFields_sBits]
  unfold decAq
  simp only [BitVec.toNat_ofNat, Nat.reduceMod, Nat.reducePow]
  simp (disch := omega) only [SWord.g, Option.getD_some, Option.getD_none, Option.isSome_some, Option.isSome_none,
      Option.map_some, Option.map_none, Option.bind_some, app_hi, app_lo, bit_hi, bit_lo, zext_hi, zext_lo,
      zext_bit_hi, zext_bit_lo, zero_ext, zero_bit, zext_back, ext_self, bool_bit, aNum_back, sw_ext, vw_ext,
      cpyw_ext, stgw_ext, amow_ext]
  simp [chkO, withTy, needExt, hW]

theorem OpWord.tset (g a b way) : OpWord.Statement (.tset g a b way) := by
  rintro hW _ ⟨⟩
  show decAq (sFields (sBits _)) _ = _
  rw [sFields_sBits]
  unfold decAq
  simp only [BitVec.toNat_ofNat, Nat.reduceMod, Nat.reducePow]
  simp (disch := omega) only [SWord.g, Option.getD_some, Option.getD_none, Option.isSome_some, Option.isSome_none,
      Option.map_some, Option.map_none, Option.bind_some, app_hi, app_lo, bit_hi, bit_lo, zext_hi, zext_lo,
      zext_bit_hi, zext_bit_lo, zero_ext, zero_bit, zext_back, ext_self, bool_bit, aNum_back, sw_ext, vw_ext,
      cpyw_ext, stgw_ext, amow_ext]
  simp [chkO, withTy, needExt, hW]

theorem OpWord.tclr (g a) : OpWord.Statement (.tclr g a) := by
  rintro hW _ ⟨⟩
  show decAq (sFields (sBits _)) _ = _
  rw [sFields_sBits]
  unfold decAq
  simp only [BitVec.toNat_ofNat, Nat.reduceMod, Nat.reducePow]
  simp (disch := omega) only [SWord.g, Option.getD_some, Option.getD_none, Option.isSome_some, Option.isSome_none,
      Option.map_some, Option.map_none, Option.bind_some, app_hi, app_lo, bit_hi, bit_lo, zext_hi, zext_lo,
      zext_bit_hi, zext_bit_lo, zero_ext, zero_bit, zext_back, ext_self, bool_bit, sw_ext, vw_ext, cpyw_ext,
      stgw_ext, amow_ext]
  simp [chkO, withTy, needExt, hW]

theorem OpWord.nxu (g) : OpWord.Statement (.nxu g) := by
  rintro hW _ ⟨⟩
  show decAq (sFields (sBits _)) _ = _
  rw [sFields_sBits]
  unfold decAq
  simp only [BitVec.toNat_ofNat, Nat.reduceMod, Nat.reducePow]
  simp (disch := omega) only [SWord.g, Option.getD_some, Option.getD_none, Option.isSome_some, Option.isSome_none,
      Option.map_some, Option.map_none, Option.bind_some, app_hi, app_lo, bit_hi, bit_lo, zext_hi, zext_lo,
      zext_bit_hi, zext_bit_lo, zero_ext, zero_bit, zext_back, ext_self, bool_bit, sw_ext, vw_ext, cpyw_ext,
      stgw_ext, amow_ext]
  simp [chkO, withTy, needExt, hW]

theorem OpWord.mma (g a b m) : OpWord.Statement (.mma g a b m) := by
  rintro hW _ ⟨⟩
  show decMx (sFields (sBits _)) _ = _
  rw [sFields_sBits]
  unfold decMx
  simp only [BitVec.toNat_ofNat, Nat.reduceMod, Nat.reducePow]
  simp (disch := omega) only [SWord.g, Option.getD_some, Option.getD_none, Option.isSome_some, Option.isSome_none,
      Option.map_some, Option.map_none, Option.bind_some, app_hi, app_lo, bit_hi, bit_lo, zext_hi, zext_lo,
      zext_bit_hi, zext_bit_lo, zero_ext, zero_bit, zext_back, ext_self, bool_bit, sw_ext, vw_ext, cpyw_ext,
      stgw_ext, amow_ext, mmaArgs_back, mmaImm_parts, mmaExt_parts]
  simp [chkO, withTy, needExt, hW]

theorem OpWord.mmag (g base b list m) : OpWord.Statement (.mmag g base b list m) := by
  rintro hW _ ⟨⟩
  show decMx (sFields (sBits _)) _ = _
  rw [sFields_sBits]
  unfold decMx
  simp only [BitVec.toNat_ofNat, Nat.reduceMod, Nat.reducePow]
  simp (disch := omega) only [SWord.g, Option.getD_some, Option.getD_none, Option.isSome_some, Option.isSome_none,
      Option.map_some, Option.map_none, Option.bind_some, app_hi, app_lo, bit_hi, bit_lo, zext_hi, zext_lo,
      zext_bit_hi, zext_bit_lo, zero_ext, zero_bit, zext_back, ext_self, bool_bit, sw_ext, vw_ext, cpyw_ext,
      stgw_ext, amow_ext, mmaArgs_back, mmaImm_parts, mmaExt_parts]
  simp [chkO, withTy, needExt, hW]

theorem OpWord.latch (g a b l done cls) : OpWord.Statement (.latch g a b l done cls) := by
  obtain ⟨_, _⟩ := done
  rintro hW _ ⟨⟩
  show decMx (sFields (sBits _)) _ = _
  rw [sFields_sBits]
  unfold decMx
  simp only [BitVec.toNat_ofNat, Nat.reduceMod, Nat.reducePow]
  simp (disch := omega) only [SWord.g, Option.getD_some, Option.getD_none, Option.isSome_some, Option.isSome_none,
      Option.map_some, Option.map_none, Option.bind_some, app_hi, app_lo, bit_hi, bit_lo, zext_hi, zext_lo,
      zext_bit_hi, zext_bit_lo, zero_ext, zero_bit, zext_back, ext_self, bool_bit, sw_ext, vw_ext, cpyw_ext,
      stgw_ext, amow_ext, latchImm, flagBits]
  simp [chkO, withTy, needExt, hW]

theorem OpWord.latcht (g a b l done cls w) : OpWord.Statement (.latcht g a b l done cls w) := by
  obtain ⟨_, _⟩ := done
  rintro hW _ ⟨⟩
  show decMx (sFields (sBits _)) _ = _
  rw [sFields_sBits]
  unfold decMx
  simp only [BitVec.toNat_ofNat, Nat.reduceMod, Nat.reducePow]
  simp (disch := omega) only [SWord.g, Option.getD_some, Option.getD_none, Option.isSome_some, Option.isSome_none,
      Option.map_some, Option.map_none, Option.bind_some, app_hi, app_lo, bit_hi, bit_lo, zext_hi, zext_lo,
      zext_bit_hi, zext_bit_lo, zero_ext, zero_bit, zext_back, ext_self, bool_bit, sw_ext, vw_ext, cpyw_ext,
      stgw_ext, amow_ext, latchImm, flagBits]
  cases w <;> simp [chkO, withTy, needExt, hW]

theorem OpWord.accz (g r) : OpWord.Statement (.accz g r) := by
  obtain ⟨_, _, ⟨_, _⟩, _⟩ := r
  rintro hW _ ⟨⟩
  show decMx (sFields (sBits _)) _ = _
  rw [sFields_sBits]
  unfold decMx
  simp only [BitVec.toNat_ofNat, Nat.reduceMod, Nat.reducePow]
  simp (disch := omega) only [SWord.g, Option.getD_some, Option.getD_none, Option.isSome_some, Option.isSome_none,
      Option.map_some, Option.map_none, Option.bind_some, app_hi, app_lo, bit_hi, bit_lo, zext_hi, zext_lo,
      zext_bit_hi, zext_bit_lo, zero_ext, zero_bit, zext_back, ext_self, bool_bit, sw_ext, vw_ext, cpyw_ext,
      stgw_ext, amow_ext, rowArgs, rowImm, flagBits]
  simp [chkO, withTy, needExt, hW]

theorem OpWord.accwr (g a r add) : OpWord.Statement (.accwr g a r add) := by
  obtain ⟨_, _, ⟨_, _⟩, _⟩ := r
  rintro hW _ ⟨⟩
  show decMx (sFields (sBits _)) _ = _
  rw [sFields_sBits]
  unfold decMx
  simp only [BitVec.toNat_ofNat, Nat.reduceMod, Nat.reducePow]
  simp (disch := omega) only [SWord.g, Option.getD_some, Option.getD_none, Option.isSome_some, Option.isSome_none,
      Option.map_some, Option.map_none, Option.bind_some, app_hi, app_lo, bit_hi, bit_lo, zext_hi, zext_lo,
      zext_bit_hi, zext_bit_lo, zero_ext, zero_bit, zext_back, ext_self, bool_bit, sw_ext, vw_ext, cpyw_ext,
      stgw_ext, amow_ext, rowArgs, rowImm, flagBits]
  simp [chkO, withTy, needExt, hW]

theorem OpWord.accrd (g a r tgt) : OpWord.Statement (.accrd g a r tgt) := by
  obtain ⟨_, _, ⟨_, _⟩, _⟩ := r
  rintro hW _ ⟨⟩
  show decMx (sFields (sBits _)) _ = _
  rw [sFields_sBits]
  unfold decMx
  simp only [BitVec.toNat_ofNat, Nat.reduceMod, Nat.reducePow]
  simp (disch := omega) only [SWord.g, Option.getD_some, Option.getD_none, Option.isSome_some, Option.isSome_none,
      Option.map_some, Option.map_none, Option.bind_some, app_hi, app_lo, bit_hi, bit_lo, zext_hi, zext_lo,
      zext_bit_hi, zext_bit_lo, zero_ext, zero_bit, zext_back, ext_self, bool_bit, sw_ext, vw_ext, cpyw_ext,
      stgw_ext, amow_ext, rowArgs, rowImm, flagBits]
  cases tgt <;> simp [chkO, withTy, needExt, hW]

theorem OpWord.nestld (g d cl j) : OpWord.Statement (.nestld g d cl j) := by
  rintro hW _ ⟨⟩
  show decCp (sFields (sBits _)) _ = _
  rw [sFields_sBits]
  unfold decCp
  simp only [BitVec.toNat_ofNat, Nat.reduceMod, Nat.reducePow]
  have hw := hW
  simp only [WellFormed, Bool.and_eq_true] at hw
  simp (disch := first | omega | simp [hw]) only [SWord.g, Option.getD_some, Option.getD_none, Option.isSome_some,
      Option.isSome_none, Option.map_some, Option.map_none, Option.bind_some, app_hi, app_lo, bit_hi, bit_lo,
      zext_hi, zext_lo, zext_bit_hi, zext_bit_lo, zero_ext, zero_bit, zext_back, ext_self, bool_bit, nNum_back,
      sw_ext, vw_ext, cpyw_ext, stgw_ext, amow_ext]
  simp [chkO, withTy, needExt, hW, hw]

theorem OpWord.cpy (g p) : OpWord.Statement (.cpy g p) := by
  obtain ⟨_, _, _, _, ⟨_, _⟩, _⟩ := p
  rintro hW _ ⟨⟩
  show decCp (sFields (sBits _)) _ = _
  rw [sFields_sBits]
  unfold decCp
  simp only [BitVec.toNat_ofNat, Nat.reduceMod, Nat.reducePow]
  simp (disch := omega) only [SWord.g, Option.getD_some, Option.getD_none, Option.isSome_some, Option.isSome_none,
      Option.map_some, Option.map_none, Option.bind_some, app_hi, app_lo, bit_hi, bit_lo, zext_hi, zext_lo,
      zext_bit_hi, zext_bit_lo, zero_ext, zero_bit, zext_back, ext_self, bool_bit, aNum_back, sw_ext, vw_ext,
      cpyw_ext, stgw_ext, amow_ext, cpyArgs, cpyImm, flagBits]
  simp [chkO, withTy, needExt, hW]

theorem OpWord.cpyt (g p ts) : OpWord.Statement (.cpyt g p ts) := by
  obtain ⟨_, _, _, _, ⟨_, _⟩, _⟩ := p
  rintro hW _ ⟨⟩
  show decCp (sFields (sBits _)) _ = _
  rw [sFields_sBits]
  unfold decCp
  simp only [BitVec.toNat_ofNat, Nat.reduceMod, Nat.reducePow]
  simp (disch := omega) only [SWord.g, Option.getD_some, Option.getD_none, Option.isSome_some, Option.isSome_none,
      Option.map_some, Option.map_none, Option.bind_some, app_hi, app_lo, bit_hi, bit_lo, zext_hi, zext_lo,
      zext_bit_hi, zext_bit_lo, zero_ext, zero_bit, zext_back, ext_self, bool_bit, aNum_back, sw_ext, vw_ext,
      cpyw_ext, stgw_ext, amow_ext, cpyArgs, cpyImm, flagBits]
  simp [chkO, withTy, needExt, hW]

theorem OpWord.cpym (g p ms rflag rctx) : OpWord.Statement (.cpym g p ms rflag rctx) := by
  obtain ⟨_, _, _, _, ⟨_, _⟩, _⟩ := p
  obtain ⟨_, _⟩ := rflag
  rintro hW _ ⟨⟩
  show decCp (sFields (sBits _)) _ = _
  rw [sFields_sBits]
  unfold decCp
  simp only [BitVec.toNat_ofNat, Nat.reduceMod, Nat.reducePow]
  simp (disch := omega) only [SWord.g, Option.getD_some, Option.getD_none, Option.isSome_some, Option.isSome_none,
      Option.map_some, Option.map_none, Option.bind_some, app_hi, app_lo, bit_hi, bit_lo, zext_hi, zext_lo,
      zext_bit_hi, zext_bit_lo, zero_ext, zero_bit, zext_back, ext_self, bool_bit, aNum_back, sw_ext, vw_ext,
      cpyw_ext, stgw_ext, amow_ext, cpyArgs, cpyImm, flagBits]
  simp [chkO, withTy, needExt, hW]

theorem OpWord.cpsend (g p port) : OpWord.Statement (.cpsend g p port) := by
  obtain ⟨_, _, _, _, ⟨_, _⟩, _⟩ := p
  rintro hW _ ⟨⟩
  show decCp (sFields (sBits _)) _ = _
  rw [sFields_sBits]
  unfold decCp
  simp only [BitVec.toNat_ofNat, Nat.reduceMod, Nat.reducePow]
  simp (disch := omega) only [SWord.g, Option.getD_some, Option.getD_none, Option.isSome_some, Option.isSome_none,
      Option.map_some, Option.map_none, Option.bind_some, app_hi, app_lo, bit_hi, bit_lo, zext_hi, zext_lo,
      zext_bit_hi, zext_bit_lo, zero_ext, zero_bit, zext_back, ext_self, bool_bit, aNum_back, sw_ext, vw_ext,
      cpyw_ext, stgw_ext, amow_ext, cpyArgs, cpyImm, flagBits]
  simp [chkO, withTy, needExt, hW]

theorem OpWord.cparm (g ch lo hi) : OpWord.Statement (.cparm g ch lo hi) := by
  rintro hW _ ⟨⟩
  show decCp (sFields (sBits _)) _ = _
  rw [sFields_sBits]
  unfold decCp
  simp only [BitVec.toNat_ofNat, Nat.reduceMod, Nat.reducePow]
  simp (disch := omega) only [SWord.g, Option.getD_some, Option.getD_none, Option.isSome_some, Option.isSome_none,
      Option.map_some, Option.map_none, Option.bind_some, app_hi, app_lo, bit_hi, bit_lo, zext_hi, zext_lo,
      zext_bit_hi, zext_bit_lo, zero_ext, zero_bit, zext_back, ext_self, bool_bit, sw_ext, vw_ext, cpyw_ext,
      stgw_ext, amow_ext]
  simp [chkO, withTy, needExt, hW]

theorem OpWord.cpstat (g d ch) : OpWord.Statement (.cpstat g d ch) := by
  rintro hW _ ⟨⟩
  show decCp (sFields (sBits _)) _ = _
  rw [sFields_sBits]
  unfold decCp
  simp only [BitVec.toNat_ofNat, Nat.reduceMod, Nat.reducePow]
  simp (disch := omega) only [SWord.g, Option.getD_some, Option.getD_none, Option.isSome_some, Option.isSome_none,
      Option.map_some, Option.map_none, Option.bind_some, app_hi, app_lo, bit_hi, bit_lo, zext_hi, zext_lo,
      zext_bit_hi, zext_bit_lo, zero_ext, zero_bit, zext_back, ext_self, bool_bit, sw_ext, vw_ext, cpyw_ext,
      stgw_ext, amow_ext]
  simp [chkO, withTy, needExt, hW]

theorem OpWord.cpstatClr (g d ch) : OpWord.Statement (.cpstatClr g d ch) := by
  rintro hW _ ⟨⟩
  show decCp (sFields (sBits _)) _ = _
  rw [sFields_sBits]
  unfold decCp
  simp only [BitVec.toNat_ofNat, Nat.reduceMod, Nat.reducePow]
  simp (disch := omega) only [SWord.g, Option.getD_some, Option.getD_none, Option.isSome_some, Option.isSome_none,
      Option.map_some, Option.map_none, Option.bind_some, app_hi, app_lo, bit_hi, bit_lo, zext_hi, zext_lo,
      zext_bit_hi, zext_bit_lo, zero_ext, zero_bit, zext_back, ext_self, bool_bit, sw_ext, vw_ext, cpyw_ext,
      stgw_ext, amow_ext]
  simp [chkO, withTy, needExt, hW]

theorem OpWord.buse (g a n) : OpWord.Statement (.buse g a n) := by
  rintro hW _ ⟨⟩
  show decCp (sFields (sBits _)) _ = _
  rw [sFields_sBits]
  unfold decCp
  simp only [BitVec.toNat_ofNat, Nat.reduceMod, Nat.reducePow]
  have hw := hW
  simp only [WellFormed, Bool.and_eq_true] at hw
  simp (disch := first | omega | simp [hw]) only [SWord.g, Option.getD_some, Option.getD_none, Option.isSome_some,
      Option.isSome_none, Option.map_some, Option.map_none, Option.bind_some, app_hi, app_lo, bit_hi, bit_lo,
      zext_hi, zext_lo, zext_bit_hi, zext_bit_lo, zero_ext, zero_bit, zext_back, ext_self, bool_bit, sw_ext, vw_ext,
      cpyw_ext, stgw_ext, amow_ext]
  simp [chkO, withTy, needExt, hW, hw]

theorem OpWord.bfree (g a n) : OpWord.Statement (.bfree g a n) := by
  rintro hW _ ⟨⟩
  show decCp (sFields (sBits _)) _ = _
  rw [sFields_sBits]
  unfold decCp
  simp only [BitVec.toNat_ofNat, Nat.reduceMod, Nat.reducePow]
  have hw := hW
  simp only [WellFormed, Bool.and_eq_true] at hw
  simp (disch := first | omega | simp [hw]) only [SWord.g, Option.getD_some, Option.getD_none, Option.isSome_some,
      Option.isSome_none, Option.map_some, Option.map_none, Option.bind_some, app_hi, app_lo, bit_hi, bit_lo,
      zext_hi, zext_lo, zext_bit_hi, zext_bit_lo, zero_ext, zero_bit, zext_back, ext_self, bool_bit, sw_ext, vw_ext,
      cpyw_ext, stgw_ext, amow_ext]
  simp [chkO, withTy, needExt, hW, hw]

theorem OpWord.launch (g a q) : OpWord.Statement (.launch g a q) := by
  rintro hW _ ⟨⟩
  show decCp (sFields (sBits _)) _ = _
  rw [sFields_sBits]
  unfold decCp
  simp only [BitVec.toNat_ofNat, Nat.reduceMod, Nat.reducePow]
  simp (disch := omega) only [SWord.g, Option.getD_some, Option.getD_none, Option.isSome_some, Option.isSome_none,
      Option.map_some, Option.map_none, Option.bind_some, app_hi, app_lo, bit_hi, bit_lo, zext_hi, zext_lo,
      zext_bit_hi, zext_bit_lo, zero_ext, zero_bit, zext_back, ext_self, bool_bit, aNum_back, sw_ext, vw_ext,
      cpyw_ext, stgw_ext, amow_ext]
  simp [chkO, withTy, needExt, hW]

theorem OpWord.relaunch (g a b q) : OpWord.Statement (.relaunch g a b q) := by
  rintro hW _ ⟨⟩
  show decCp (sFields (sBits _)) _ = _
  rw [sFields_sBits]
  unfold decCp
  simp only [BitVec.toNat_ofNat, Nat.reduceMod, Nat.reducePow]
  simp (disch := omega) only [SWord.g, Option.getD_some, Option.getD_none, Option.isSome_some, Option.isSome_none,
      Option.map_some, Option.map_none, Option.bind_some, app_hi, app_lo, bit_hi, bit_lo, zext_hi, zext_lo,
      zext_bit_hi, zext_bit_lo, zero_ext, zero_bit, zext_back, ext_self, bool_bit, aNum_back, sw_ext, vw_ext,
      cpyw_ext, stgw_ext, amow_ext]
  simp [chkO, withTy, needExt, hW]

theorem OpWord.trexcl (g a b slot) : OpWord.Statement (.trexcl g a b slot) := by
  rintro hW _ ⟨⟩
  show decCp (sFields (sBits _)) _ = _
  rw [sFields_sBits]
  unfold decCp
  simp only [BitVec.toNat_ofNat, Nat.reduceMod, Nat.reducePow]
  simp (disch := omega) only [SWord.g, Option.getD_some, Option.getD_none, Option.isSome_some, Option.isSome_none,
      Option.map_some, Option.map_none, Option.bind_some, app_hi, app_lo, bit_hi, bit_lo, zext_hi, zext_lo,
      zext_bit_hi, zext_bit_lo, zero_ext, zero_bit, zext_back, ext_self, bool_bit, aNum_back, sw_ext, vw_ext,
      cpyw_ext, stgw_ext, amow_ext]
  simp [chkO, withTy, needExt, hW]

theorem OpWord.portDown (p) : OpWord.Statement (.portDown p) := by
  rintro _ _ ⟨⟩

theorem OpWord.supplyRestored (d) : OpWord.Statement (.supplyRestored d) := by
  rintro _ _ ⟨⟩

theorem OpWord.gccTick : OpWord.Statement .gccTick := by
  rintro _ _ ⟨⟩

theorem OpWord.powerOnReset : OpWord.Statement .powerOnReset := by
  rintro _ _ ⟨⟩

theorem OpWord.driverReset : OpWord.Statement .driverReset := by
  rintro _ _ ⟨⟩

theorem OpWord.preempt : OpWord.Statement .preempt := by
  rintro _ _ ⟨⟩

theorem OpWord.resume : OpWord.Statement .resume := by
  rintro _ _ ⟨⟩

theorem OpWord.abort : OpWord.Statement .abort := by
  rintro _ _ ⟨⟩

theorem OpWord.scrub : OpWord.Statement .scrub := by
  rintro _ _ ⟨⟩

theorem OpWord.stampreset : OpWord.Statement .stampreset := by
  rintro _ _ ⟨⟩

theorem OpWord.coresave : OpWord.Statement .coresave := by
  rintro _ _ ⟨⟩

theorem OpWord.coreload : OpWord.Statement .coreload := by
  rintro _ _ ⟨⟩

theorem OpWord.shootdown : OpWord.Statement .shootdown := by
  rintro _ _ ⟨⟩

theorem OpWord.finishRequest : OpWord.Statement .finishRequest := by
  rintro _ _ ⟨⟩

theorem OpWord.finishRemove : OpWord.Statement .finishRemove := by
  rintro _ _ ⟨⟩

theorem OpWord.powerWindowEnd : OpWord.Statement .powerWindowEnd := by
  rintro _ _ ⟨⟩

end Sys2Proof.Laws
end

