-- ==== Sys2Proof/Laws/State.lean ====
section
/-! SUPPORT. What each named update of the state leaves as it was, field by field, and what reading a core or a
context after changing one gives. -/
namespace Sys2Proof.Machine

variable (s : State)

@[simp] theorem State.setCore_agenda (k : CoreId) (x : Core) : (s.setCore k x).agenda = s.agenda := rfl
@[simp] theorem State.setCore_cur (k : CoreId) (x : Core) : (s.setCore k x).cur = s.cur := rfl
@[simp] theorem State.setCore_freeCtr (k : CoreId) (x : Core) : (s.setCore k x).freeCtr = s.freeCtr := rfl
@[simp] theorem State.setCore_nextId (k : CoreId) (x : Core) : (s.setCore k x).nextId = s.nextId := rfl
@[simp] theorem State.setCore_answers (k : CoreId) (x : Core) : (s.setCore k x).answers = s.answers := rfl
@[simp] theorem State.setCore_gcc (k : CoreId) (x : Core) : (s.setCore k x).gcc = s.gcc := rfl
@[simp] theorem State.setCore_mem (k : CoreId) (x : Core) : (s.setCore k x).mem = s.mem := rfl
@[simp] theorem State.setCore_poison (k : CoreId) (x : Core) : (s.setCore k x).poison = s.poison := rfl
@[simp] theorem State.setCore_owners (k : CoreId) (x : Core) : (s.setCore k x).owners = s.owners := rfl
@[simp] theorem State.setCore_dies (k : CoreId) (x : Core) : (s.setCore k x).dies = s.dies := rfl
@[simp] theorem State.setCore_tenants (k : CoreId) (x : Core) : (s.setCore k x).tenants = s.tenants := rfl
@[simp] theorem State.setCore_fns (k : CoreId) (x : Core) : (s.setCore k x).fns = s.fns := rfl
@[simp] theorem State.setCore_ports (k : CoreId) (x : Core) : (s.setCore k x).ports = s.ports := rfl
@[simp] theorem State.setCore_launches (k : CoreId) (x : Core) : (s.setCore k x).launches = s.launches := rfl
@[simp] theorem State.setCore_nextLaunch (k : CoreId) (x : Core) : (s.setCore k x).nextLaunch = s.nextLaunch := rfl
@[simp] theorem State.setCore_reqs (k : CoreId) (x : Core) : (s.setCore k x).reqs = s.reqs := rfl
@[simp] theorem State.setCore_nxus (k : CoreId) (x : Core) : (s.setCore k x).nxus = s.nxus := rfl
@[simp] theorem State.setCore_saves (k : CoreId) (x : Core) : (s.setCore k x).saves = s.saves := rfl
@[simp] theorem State.setCore_images (k : CoreId) (x : Core) : (s.setCore k x).images = s.images := rfl
@[simp] theorem State.setCore_running (k : CoreId) (x : Core) : (s.setCore k x).running = s.running := rfl
@[simp] theorem State.setCore_cmdReg (k : CoreId) (x : Core) : (s.setCore k x).cmdReg = s.cmdReg := rfl
@[simp] theorem State.setCore_sdReg (k : CoreId) (x : Core) : (s.setCore k x).sdReg = s.sdReg := rfl
@[simp] theorem State.setCore_finReg (k : CoreId) (x : Core) : (s.setCore k x).finReg = s.finReg := rfl
@[simp] theorem State.setCore_cmdQ (k : CoreId) (x : Core) : (s.setCore k x).cmdQ = s.cmdQ := rfl
@[simp] theorem State.setCore_sdQ (k : CoreId) (x : Core) : (s.setCore k x).sdQ = s.sdQ := rfl
@[simp] theorem State.setCore_finQ (k : CoreId) (x : Core) : (s.setCore k x).finQ = s.finQ := rfl
@[simp] theorem State.setCore_errorLog (k : CoreId) (x : Core) : (s.setCore k x).errorLog = s.errorLog := rfl
@[simp] theorem State.setCore_stbase (k : CoreId) (x : Core) : (s.setCore k x).stbase = s.stbase := rfl
@[simp] theorem State.setCore_sc (k : CoreId) (x : Core) : (s.setCore k x).sc = s.sc := rfl
@[simp] theorem State.setCore_pkgid (k : CoreId) (x : Core) : (s.setCore k x).pkgid = s.pkgid := rfl
@[simp] theorem State.setCore_cap (k : CoreId) (x : Core) : (s.setCore k x).cap = s.cap := rfl
@[simp] theorem State.setCore_tlim (k : CoreId) (x : Core) : (s.setCore k x).tlim = s.tlim := rfl
@[simp] theorem State.setCore_rstcause (k : CoreId) (x : Core) : (s.setCore k x).rstcause = s.rstcause := rfl
@[simp] theorem State.setCore_counters (k : CoreId) (x : Core) : (s.setCore k x).counters = s.counters := rfl
@[simp] theorem State.setCore_sensors (k : CoreId) (x : Core) : (s.setCore k x).sensors = s.sensors := rfl
@[simp] theorem State.setCore_boot (k : CoreId) (x : Core) : (s.setCore k x).boot = s.boot := rfl
@[simp] theorem State.setCore_meas (k : CoreId) (x : Core) : (s.setCore k x).meas = s.meas := rfl
@[simp] theorem State.setCore_measgen (k : CoreId) (x : Core) : (s.setCore k x).measgen = s.measgen := rfl
@[simp] theorem State.setCore_segCounter (k : CoreId) (x : Core) : (s.setCore k x).segCounter = s.segCounter := rfl
@[simp] theorem State.setCore_window (k : CoreId) (x : Core) : (s.setCore k x).window = s.window := rfl
@[simp] theorem State.setCore_sessions (k : CoreId) (x : Core) : (s.setCore k x).sessions = s.sessions := rfl
@[simp] theorem State.setCore_nextErrs (k : CoreId) (x : Core) : (s.setCore k x).nextErrs = s.nextErrs := rfl
@[simp] theorem State.setCore_pasts (k : CoreId) (x : Core) : (s.setCore k x).pasts = s.pasts := rfl
@[simp] theorem State.setCore_pastCtr (k : CoreId) (x : Core) : (s.setCore k x).pastCtr = s.pastCtr := rfl
@[simp] theorem State.setCore_rels (k : CoreId) (x : Core) : (s.setCore k x).rels = s.rels := rfl
@[simp] theorem State.setCore_promises (k : CoreId) (x : Core) : (s.setCore k x).promises = s.promises := rfl
@[simp] theorem State.setCore_heads (k : CoreId) (x : Core) : (s.setCore k x).heads = s.heads := rfl
@[simp] theorem State.setCore_hdms (k : CoreId) (x : Core) : (s.setCore k x).hdms = s.hdms := rfl
@[simp] theorem State.setCore_lostWords (k : CoreId) (x : Core) : (s.setCore k x).lostWords = s.lostWords := rfl
@[simp] theorem State.setCore_passRels (k : CoreId) (x : Core) : (s.setCore k x).passRels = s.passRels := rfl
@[simp] theorem State.setCore_late (k : CoreId) (x : Core) : (s.setCore k x).late = s.late := rfl
@[simp] theorem State.setCore_attest (k : CoreId) (x : Core) : (s.setCore k x).attest = s.attest := rfl

@[simp] theorem State.modCore_agenda (k : CoreId) (f : Core → Core) : (s.modCore k f).agenda = s.agenda := rfl
@[simp] theorem State.modCore_cur (k : CoreId) (f : Core → Core) : (s.modCore k f).cur = s.cur := rfl
@[simp] theorem State.modCore_freeCtr (k : CoreId) (f : Core → Core) : (s.modCore k f).freeCtr = s.freeCtr := rfl
@[simp] theorem State.modCore_nextId (k : CoreId) (f : Core → Core) : (s.modCore k f).nextId = s.nextId := rfl
@[simp] theorem State.modCore_answers (k : CoreId) (f : Core → Core) : (s.modCore k f).answers = s.answers := rfl
@[simp] theorem State.modCore_gcc (k : CoreId) (f : Core → Core) : (s.modCore k f).gcc = s.gcc := rfl
@[simp] theorem State.modCore_mem (k : CoreId) (f : Core → Core) : (s.modCore k f).mem = s.mem := rfl
@[simp] theorem State.modCore_poison (k : CoreId) (f : Core → Core) : (s.modCore k f).poison = s.poison := rfl
@[simp] theorem State.modCore_owners (k : CoreId) (f : Core → Core) : (s.modCore k f).owners = s.owners := rfl
@[simp] theorem State.modCore_dies (k : CoreId) (f : Core → Core) : (s.modCore k f).dies = s.dies := rfl
@[simp] theorem State.modCore_tenants (k : CoreId) (f : Core → Core) : (s.modCore k f).tenants = s.tenants := rfl
@[simp] theorem State.modCore_fns (k : CoreId) (f : Core → Core) : (s.modCore k f).fns = s.fns := rfl
@[simp] theorem State.modCore_ports (k : CoreId) (f : Core → Core) : (s.modCore k f).ports = s.ports := rfl
@[simp] theorem State.modCore_launches (k : CoreId) (f : Core → Core) : (s.modCore k f).launches = s.launches := rfl
@[simp] theorem State.modCore_nextLaunch (k : CoreId) (f : Core → Core) : (s.modCore k f).nextLaunch = s.nextLaunch := rfl
@[simp] theorem State.modCore_reqs (k : CoreId) (f : Core → Core) : (s.modCore k f).reqs = s.reqs := rfl
@[simp] theorem State.modCore_nxus (k : CoreId) (f : Core → Core) : (s.modCore k f).nxus = s.nxus := rfl
@[simp] theorem State.modCore_saves (k : CoreId) (f : Core → Core) : (s.modCore k f).saves = s.saves := rfl
@[simp] theorem State.modCore_images (k : CoreId) (f : Core → Core) : (s.modCore k f).images = s.images := rfl
@[simp] theorem State.modCore_running (k : CoreId) (f : Core → Core) : (s.modCore k f).running = s.running := rfl
@[simp] theorem State.modCore_cmdReg (k : CoreId) (f : Core → Core) : (s.modCore k f).cmdReg = s.cmdReg := rfl
@[simp] theorem State.modCore_sdReg (k : CoreId) (f : Core → Core) : (s.modCore k f).sdReg = s.sdReg := rfl
@[simp] theorem State.modCore_finReg (k : CoreId) (f : Core → Core) : (s.modCore k f).finReg = s.finReg := rfl
@[simp] theorem State.modCore_cmdQ (k : CoreId) (f : Core → Core) : (s.modCore k f).cmdQ = s.cmdQ := rfl
@[simp] theorem State.modCore_sdQ (k : CoreId) (f : Core → Core) : (s.modCore k f).sdQ = s.sdQ := rfl
@[simp] theorem State.modCore_finQ (k : CoreId) (f : Core → Core) : (s.modCore k f).finQ = s.finQ := rfl
@[simp] theorem State.modCore_errorLog (k : CoreId) (f : Core → Core) : (s.modCore k f).errorLog = s.errorLog := rfl
@[simp] theorem State.modCore_stbase (k : CoreId) (f : Core → Core) : (s.modCore k f).stbase = s.stbase := rfl
@[simp] theorem State.modCore_sc (k : CoreId) (f : Core → Core) : (s.modCore k f).sc = s.sc := rfl
@[simp] theorem State.modCore_pkgid (k : CoreId) (f : Core → Core) : (s.modCore k f).pkgid = s.pkgid := rfl
@[simp] theorem State.modCore_cap (k : CoreId) (f : Core → Core) : (s.modCore k f).cap = s.cap := rfl
@[simp] theorem State.modCore_tlim (k : CoreId) (f : Core → Core) : (s.modCore k f).tlim = s.tlim := rfl
@[simp] theorem State.modCore_rstcause (k : CoreId) (f : Core → Core) : (s.modCore k f).rstcause = s.rstcause := rfl
@[simp] theorem State.modCore_counters (k : CoreId) (f : Core → Core) : (s.modCore k f).counters = s.counters := rfl
@[simp] theorem State.modCore_sensors (k : CoreId) (f : Core → Core) : (s.modCore k f).sensors = s.sensors := rfl
@[simp] theorem State.modCore_boot (k : CoreId) (f : Core → Core) : (s.modCore k f).boot = s.boot := rfl
@[simp] theorem State.modCore_meas (k : CoreId) (f : Core → Core) : (s.modCore k f).meas = s.meas := rfl
@[simp] theorem State.modCore_measgen (k : CoreId) (f : Core → Core) : (s.modCore k f).measgen = s.measgen := rfl
@[simp] theorem State.modCore_segCounter (k : CoreId) (f : Core → Core) : (s.modCore k f).segCounter = s.segCounter := rfl
@[simp] theorem State.modCore_window (k : CoreId) (f : Core → Core) : (s.modCore k f).window = s.window := rfl
@[simp] theorem State.modCore_sessions (k : CoreId) (f : Core → Core) : (s.modCore k f).sessions = s.sessions := rfl
@[simp] theorem State.modCore_nextErrs (k : CoreId) (f : Core → Core) : (s.modCore k f).nextErrs = s.nextErrs := rfl
@[simp] theorem State.modCore_pasts (k : CoreId) (f : Core → Core) : (s.modCore k f).pasts = s.pasts := rfl
@[simp] theorem State.modCore_pastCtr (k : CoreId) (f : Core → Core) : (s.modCore k f).pastCtr = s.pastCtr := rfl
@[simp] theorem State.modCore_rels (k : CoreId) (f : Core → Core) : (s.modCore k f).rels = s.rels := rfl
@[simp] theorem State.modCore_promises (k : CoreId) (f : Core → Core) : (s.modCore k f).promises = s.promises := rfl
@[simp] theorem State.modCore_heads (k : CoreId) (f : Core → Core) : (s.modCore k f).heads = s.heads := rfl
@[simp] theorem State.modCore_hdms (k : CoreId) (f : Core → Core) : (s.modCore k f).hdms = s.hdms := rfl
@[simp] theorem State.modCore_lostWords (k : CoreId) (f : Core → Core) : (s.modCore k f).lostWords = s.lostWords := rfl
@[simp] theorem State.modCore_passRels (k : CoreId) (f : Core → Core) : (s.modCore k f).passRels = s.passRels := rfl
@[simp] theorem State.modCore_late (k : CoreId) (f : Core → Core) : (s.modCore k f).late = s.late := rfl
@[simp] theorem State.modCore_attest (k : CoreId) (f : Core → Core) : (s.modCore k f).attest = s.attest := rfl

@[simp] theorem State.setCtx_agenda (k : CoreId) (c : CtxId) (x : Ctx) : (s.setCtx k c x).agenda = s.agenda := rfl
@[simp] theorem State.setCtx_cur (k : CoreId) (c : CtxId) (x : Ctx) : (s.setCtx k c x).cur = s.cur := rfl
@[simp] theorem State.setCtx_freeCtr (k : CoreId) (c : CtxId) (x : Ctx) : (s.setCtx k c x).freeCtr = s.freeCtr := rfl
@[simp] theorem State.setCtx_nextId (k : CoreId) (c : CtxId) (x : Ctx) : (s.setCtx k c x).nextId = s.nextId := rfl
@[simp] theorem State.setCtx_answers (k : CoreId) (c : CtxId) (x : Ctx) : (s.setCtx k c x).answers = s.answers := rfl
@[simp] theorem State.setCtx_gcc (k : CoreId) (c : CtxId) (x : Ctx) : (s.setCtx k c x).gcc = s.gcc := rfl
@[simp] theorem State.setCtx_mem (k : CoreId) (c : CtxId) (x : Ctx) : (s.setCtx k c x).mem = s.mem := rfl
@[simp] theorem State.setCtx_poison (k : CoreId) (c : CtxId) (x : Ctx) : (s.setCtx k c x).poison = s.poison := rfl
@[simp] theorem State.setCtx_owners (k : CoreId) (c : CtxId) (x : Ctx) : (s.setCtx k c x).owners = s.owners := rfl
@[simp] theorem State.setCtx_dies (k : CoreId) (c : CtxId) (x : Ctx) : (s.setCtx k c x).dies = s.dies := rfl
@[simp] theorem State.setCtx_tenants (k : CoreId) (c : CtxId) (x : Ctx) : (s.setCtx k c x).tenants = s.tenants := rfl
@[simp] theorem State.setCtx_fns (k : CoreId) (c : CtxId) (x : Ctx) : (s.setCtx k c x).fns = s.fns := rfl
@[simp] theorem State.setCtx_ports (k : CoreId) (c : CtxId) (x : Ctx) : (s.setCtx k c x).ports = s.ports := rfl
@[simp] theorem State.setCtx_launches (k : CoreId) (c : CtxId) (x : Ctx) : (s.setCtx k c x).launches = s.launches := rfl
@[simp] theorem State.setCtx_nextLaunch (k : CoreId) (c : CtxId) (x : Ctx) : (s.setCtx k c x).nextLaunch = s.nextLaunch := rfl
@[simp] theorem State.setCtx_reqs (k : CoreId) (c : CtxId) (x : Ctx) : (s.setCtx k c x).reqs = s.reqs := rfl
@[simp] theorem State.setCtx_nxus (k : CoreId) (c : CtxId) (x : Ctx) : (s.setCtx k c x).nxus = s.nxus := rfl
@[simp] theorem State.setCtx_saves (k : CoreId) (c : CtxId) (x : Ctx) : (s.setCtx k c x).saves = s.saves := rfl
@[simp] theorem State.setCtx_images (k : CoreId) (c : CtxId) (x : Ctx) : (s.setCtx k c x).images = s.images := rfl
@[simp] theorem State.setCtx_running (k : CoreId) (c : CtxId) (x : Ctx) : (s.setCtx k c x).running = s.running := rfl
@[simp] theorem State.setCtx_cmdReg (k : CoreId) (c : CtxId) (x : Ctx) : (s.setCtx k c x).cmdReg = s.cmdReg := rfl
@[simp] theorem State.setCtx_sdReg (k : CoreId) (c : CtxId) (x : Ctx) : (s.setCtx k c x).sdReg = s.sdReg := rfl
@[simp] theorem State.setCtx_finReg (k : CoreId) (c : CtxId) (x : Ctx) : (s.setCtx k c x).finReg = s.finReg := rfl
@[simp] theorem State.setCtx_cmdQ (k : CoreId) (c : CtxId) (x : Ctx) : (s.setCtx k c x).cmdQ = s.cmdQ := rfl
@[simp] theorem State.setCtx_sdQ (k : CoreId) (c : CtxId) (x : Ctx) : (s.setCtx k c x).sdQ = s.sdQ := rfl
@[simp] theorem State.setCtx_finQ (k : CoreId) (c : CtxId) (x : Ctx) : (s.setCtx k c x).finQ = s.finQ := rfl
@[simp] theorem State.setCtx_errorLog (k : CoreId) (c : CtxId) (x : Ctx) : (s.setCtx k c x).errorLog = s.errorLog := rfl
@[simp] theorem State.setCtx_stbase (k : CoreId) (c : CtxId) (x : Ctx) : (s.setCtx k c x).stbase = s.stbase := rfl
@[simp] theorem State.setCtx_sc (k : CoreId) (c : CtxId) (x : Ctx) : (s.setCtx k c x).sc = s.sc := rfl
@[simp] theorem State.setCtx_pkgid (k : CoreId) (c : CtxId) (x : Ctx) : (s.setCtx k c x).pkgid = s.pkgid := rfl
@[simp] theorem State.setCtx_cap (k : CoreId) (c : CtxId) (x : Ctx) : (s.setCtx k c x).cap = s.cap := rfl
@[simp] theorem State.setCtx_tlim (k : CoreId) (c : CtxId) (x : Ctx) : (s.setCtx k c x).tlim = s.tlim := rfl
@[simp] theorem State.setCtx_rstcause (k : CoreId) (c : CtxId) (x : Ctx) : (s.setCtx k c x).rstcause = s.rstcause := rfl
@[simp] theorem State.setCtx_counters (k : CoreId) (c : CtxId) (x : Ctx) : (s.setCtx k c x).counters = s.counters := rfl
@[simp] theorem State.setCtx_sensors (k : CoreId) (c : CtxId) (x : Ctx) : (s.setCtx k c x).sensors = s.sensors := rfl
@[simp] theorem State.setCtx_boot (k : CoreId) (c : CtxId) (x : Ctx) : (s.setCtx k c x).boot = s.boot := rfl
@[simp] theorem State.setCtx_meas (k : CoreId) (c : CtxId) (x : Ctx) : (s.setCtx k c x).meas = s.meas := rfl
@[simp] theorem State.setCtx_measgen (k : CoreId) (c : CtxId) (x : Ctx) : (s.setCtx k c x).measgen = s.measgen := rfl
@[simp] theorem State.setCtx_segCounter (k : CoreId) (c : CtxId) (x : Ctx) : (s.setCtx k c x).segCounter = s.segCounter := rfl
@[simp] theorem State.setCtx_window (k : CoreId) (c : CtxId) (x : Ctx) : (s.setCtx k c x).window = s.window := rfl
@[simp] theorem State.setCtx_sessions (k : CoreId) (c : CtxId) (x : Ctx) : (s.setCtx k c x).sessions = s.sessions := rfl
@[simp] theorem State.setCtx_nextErrs (k : CoreId) (c : CtxId) (x : Ctx) : (s.setCtx k c x).nextErrs = s.nextErrs := rfl
@[simp] theorem State.setCtx_pasts (k : CoreId) (c : CtxId) (x : Ctx) : (s.setCtx k c x).pasts = s.pasts := rfl
@[simp] theorem State.setCtx_pastCtr (k : CoreId) (c : CtxId) (x : Ctx) : (s.setCtx k c x).pastCtr = s.pastCtr := rfl
@[simp] theorem State.setCtx_rels (k : CoreId) (c : CtxId) (x : Ctx) : (s.setCtx k c x).rels = s.rels := rfl
@[simp] theorem State.setCtx_promises (k : CoreId) (c : CtxId) (x : Ctx) : (s.setCtx k c x).promises = s.promises := rfl
@[simp] theorem State.setCtx_heads (k : CoreId) (c : CtxId) (x : Ctx) : (s.setCtx k c x).heads = s.heads := rfl
@[simp] theorem State.setCtx_hdms (k : CoreId) (c : CtxId) (x : Ctx) : (s.setCtx k c x).hdms = s.hdms := rfl
@[simp] theorem State.setCtx_lostWords (k : CoreId) (c : CtxId) (x : Ctx) : (s.setCtx k c x).lostWords = s.lostWords := rfl
@[simp] theorem State.setCtx_passRels (k : CoreId) (c : CtxId) (x : Ctx) : (s.setCtx k c x).passRels = s.passRels := rfl
@[simp] theorem State.setCtx_late (k : CoreId) (c : CtxId) (x : Ctx) : (s.setCtx k c x).late = s.late := rfl
@[simp] theorem State.setCtx_attest (k : CoreId) (c : CtxId) (x : Ctx) : (s.setCtx k c x).attest = s.attest := rfl

@[simp] theorem State.modCtx_agenda (k : CoreId) (c : CtxId) (f : Ctx → Ctx) : (s.modCtx k c f).agenda = s.agenda := rfl
@[simp] theorem State.modCtx_cur (k : CoreId) (c : CtxId) (f : Ctx → Ctx) : (s.modCtx k c f).cur = s.cur := rfl
@[simp] theorem State.modCtx_freeCtr (k : CoreId) (c : CtxId) (f : Ctx → Ctx) : (s.modCtx k c f).freeCtr = s.freeCtr := rfl
@[simp] theorem State.modCtx_nextId (k : CoreId) (c : CtxId) (f : Ctx → Ctx) : (s.modCtx k c f).nextId = s.nextId := rfl
@[simp] theorem State.modCtx_answers (k : CoreId) (c : CtxId) (f : Ctx → Ctx) : (s.modCtx k c f).answers = s.answers := rfl
@[simp] theorem State.modCtx_gcc (k : CoreId) (c : CtxId) (f : Ctx → Ctx) : (s.modCtx k c f).gcc = s.gcc := rfl
@[simp] theorem State.modCtx_mem (k : CoreId) (c : CtxId) (f : Ctx → Ctx) : (s.modCtx k c f).mem = s.mem := rfl
@[simp] theorem State.modCtx_poison (k : CoreId) (c : CtxId) (f : Ctx → Ctx) : (s.modCtx k c f).poison = s.poison := rfl
@[simp] theorem State.modCtx_owners (k : CoreId) (c : CtxId) (f : Ctx → Ctx) : (s.modCtx k c f).owners = s.owners := rfl
@[simp] theorem State.modCtx_dies (k : CoreId) (c : CtxId) (f : Ctx → Ctx) : (s.modCtx k c f).dies = s.dies := rfl
@[simp] theorem State.modCtx_tenants (k : CoreId) (c : CtxId) (f : Ctx → Ctx) : (s.modCtx k c f).tenants = s.tenants := rfl
@[simp] theorem State.modCtx_fns (k : CoreId) (c : CtxId) (f : Ctx → Ctx) : (s.modCtx k c f).fns = s.fns := rfl
@[simp] theorem State.modCtx_ports (k : CoreId) (c : CtxId) (f : Ctx → Ctx) : (s.modCtx k c f).ports = s.ports := rfl
@[simp] theorem State.modCtx_launches (k : CoreId) (c : CtxId) (f : Ctx → Ctx) : (s.modCtx k c f).launches = s.launches := rfl
@[simp] theorem State.modCtx_nextLaunch (k : CoreId) (c : CtxId) (f : Ctx → Ctx) : (s.modCtx k c f).nextLaunch = s.nextLaunch := rfl
@[simp] theorem State.modCtx_reqs (k : CoreId) (c : CtxId) (f : Ctx → Ctx) : (s.modCtx k c f).reqs = s.reqs := rfl
@[simp] theorem State.modCtx_nxus (k : CoreId) (c : CtxId) (f : Ctx → Ctx) : (s.modCtx k c f).nxus = s.nxus := rfl
@[simp] theorem State.modCtx_saves (k : CoreId) (c : CtxId) (f : Ctx → Ctx) : (s.modCtx k c f).saves = s.saves := rfl
@[simp] theorem State.modCtx_images (k : CoreId) (c : CtxId) (f : Ctx → Ctx) : (s.modCtx k c f).images = s.images := rfl
@[simp] theorem State.modCtx_running (k : CoreId) (c : CtxId) (f : Ctx → Ctx) : (s.modCtx k c f).running = s.running := rfl
@[simp] theorem State.modCtx_cmdReg (k : CoreId) (c : CtxId) (f : Ctx → Ctx) : (s.modCtx k c f).cmdReg = s.cmdReg := rfl
@[simp] theorem State.modCtx_sdReg (k : CoreId) (c : CtxId) (f : Ctx → Ctx) : (s.modCtx k c f).sdReg = s.sdReg := rfl
@[simp] theorem State.modCtx_finReg (k : CoreId) (c : CtxId) (f : Ctx → Ctx) : (s.modCtx k c f).finReg = s.finReg := rfl
@[simp] theorem State.modCtx_cmdQ (k : CoreId) (c : CtxId) (f : Ctx → Ctx) : (s.modCtx k c f).cmdQ = s.cmdQ := rfl
@[simp] theorem State.modCtx_sdQ (k : CoreId) (c : CtxId) (f : Ctx → Ctx) : (s.modCtx k c f).sdQ = s.sdQ := rfl
@[simp] theorem State.modCtx_finQ (k : CoreId) (c : CtxId) (f : Ctx → Ctx) : (s.modCtx k c f).finQ = s.finQ := rfl
@[simp] theorem State.modCtx_errorLog (k : CoreId) (c : CtxId) (f : Ctx → Ctx) : (s.modCtx k c f).errorLog = s.errorLog := rfl
@[simp] theorem State.modCtx_stbase (k : CoreId) (c : CtxId) (f : Ctx → Ctx) : (s.modCtx k c f).stbase = s.stbase := rfl
@[simp] theorem State.modCtx_sc (k : CoreId) (c : CtxId) (f : Ctx → Ctx) : (s.modCtx k c f).sc = s.sc := rfl
@[simp] theorem State.modCtx_pkgid (k : CoreId) (c : CtxId) (f : Ctx → Ctx) : (s.modCtx k c f).pkgid = s.pkgid := rfl
@[simp] theorem State.modCtx_cap (k : CoreId) (c : CtxId) (f : Ctx → Ctx) : (s.modCtx k c f).cap = s.cap := rfl
@[simp] theorem State.modCtx_tlim (k : CoreId) (c : CtxId) (f : Ctx → Ctx) : (s.modCtx k c f).tlim = s.tlim := rfl
@[simp] theorem State.modCtx_rstcause (k : CoreId) (c : CtxId) (f : Ctx → Ctx) : (s.modCtx k c f).rstcause = s.rstcause := rfl
@[simp] theorem State.modCtx_counters (k : CoreId) (c : CtxId) (f : Ctx → Ctx) : (s.modCtx k c f).counters = s.counters := rfl
@[simp] theorem State.modCtx_sensors (k : CoreId) (c : CtxId) (f : Ctx → Ctx) : (s.modCtx k c f).sensors = s.sensors := rfl
@[simp] theorem State.modCtx_boot (k : CoreId) (c : CtxId) (f : Ctx → Ctx) : (s.modCtx k c f).boot = s.boot := rfl
@[simp] theorem State.modCtx_meas (k : CoreId) (c : CtxId) (f : Ctx → Ctx) : (s.modCtx k c f).meas = s.meas := rfl
@[simp] theorem State.modCtx_measgen (k : CoreId) (c : CtxId) (f : Ctx → Ctx) : (s.modCtx k c f).measgen = s.measgen := rfl
@[simp] theorem State.modCtx_segCounter (k : CoreId) (c : CtxId) (f : Ctx → Ctx) : (s.modCtx k c f).segCounter = s.segCounter := rfl
@[simp] theorem State.modCtx_window (k : CoreId) (c : CtxId) (f : Ctx → Ctx) : (s.modCtx k c f).window = s.window := rfl
@[simp] theorem State.modCtx_sessions (k : CoreId) (c : CtxId) (f : Ctx → Ctx) : (s.modCtx k c f).sessions = s.sessions := rfl
@[simp] theorem State.modCtx_nextErrs (k : CoreId) (c : CtxId) (f : Ctx → Ctx) : (s.modCtx k c f).nextErrs = s.nextErrs := rfl
@[simp] theorem State.modCtx_pasts (k : CoreId) (c : CtxId) (f : Ctx → Ctx) : (s.modCtx k c f).pasts = s.pasts := rfl
@[simp] theorem State.modCtx_pastCtr (k : CoreId) (c : CtxId) (f : Ctx → Ctx) : (s.modCtx k c f).pastCtr = s.pastCtr := rfl
@[simp] theorem State.modCtx_rels (k : CoreId) (c : CtxId) (f : Ctx → Ctx) : (s.modCtx k c f).rels = s.rels := rfl
@[simp] theorem State.modCtx_promises (k : CoreId) (c : CtxId) (f : Ctx → Ctx) : (s.modCtx k c f).promises = s.promises := rfl
@[simp] theorem State.modCtx_heads (k : CoreId) (c : CtxId) (f : Ctx → Ctx) : (s.modCtx k c f).heads = s.heads := rfl
@[simp] theorem State.modCtx_hdms (k : CoreId) (c : CtxId) (f : Ctx → Ctx) : (s.modCtx k c f).hdms = s.hdms := rfl
@[simp] theorem State.modCtx_lostWords (k : CoreId) (c : CtxId) (f : Ctx → Ctx) : (s.modCtx k c f).lostWords = s.lostWords := rfl
@[simp] theorem State.modCtx_passRels (k : CoreId) (c : CtxId) (f : Ctx → Ctx) : (s.modCtx k c f).passRels = s.passRels := rfl
@[simp] theorem State.modCtx_late (k : CoreId) (c : CtxId) (f : Ctx → Ctx) : (s.modCtx k c f).late = s.late := rfl
@[simp] theorem State.modCtx_attest (k : CoreId) (c : CtxId) (f : Ctx → Ctx) : (s.modCtx k c f).attest = s.attest := rfl

@[simp] theorem State.modMe_agenda (f : Ctx → Ctx) : (s.modMe f).agenda = s.agenda := rfl
@[simp] theorem State.modMe_cur (f : Ctx → Ctx) : (s.modMe f).cur = s.cur := rfl
@[simp] theorem State.modMe_freeCtr (f : Ctx → Ctx) : (s.modMe f).freeCtr = s.freeCtr := rfl
@[simp] theorem State.modMe_nextId (f : Ctx → Ctx) : (s.modMe f).nextId = s.nextId := rfl
@[simp] theorem State.modMe_answers (f : Ctx → Ctx) : (s.modMe f).answers = s.answers := rfl
@[simp] theorem State.modMe_gcc (f : Ctx → Ctx) : (s.modMe f).gcc = s.gcc := rfl
@[simp] theorem State.modMe_mem (f : Ctx → Ctx) : (s.modMe f).mem = s.mem := rfl
@[simp] theorem State.modMe_poison (f : Ctx → Ctx) : (s.modMe f).poison = s.poison := rfl
@[simp] theorem State.modMe_owners (f : Ctx → Ctx) : (s.modMe f).owners = s.owners := rfl
@[simp] theorem State.modMe_dies (f : Ctx → Ctx) : (s.modMe f).dies = s.dies := rfl
@[simp] theorem State.modMe_tenants (f : Ctx → Ctx) : (s.modMe f).tenants = s.tenants := rfl
@[simp] theorem State.modMe_fns (f : Ctx → Ctx) : (s.modMe f).fns = s.fns := rfl
@[simp] theorem State.modMe_ports (f : Ctx → Ctx) : (s.modMe f).ports = s.ports := rfl
@[simp] theorem State.modMe_launches (f : Ctx → Ctx) : (s.modMe f).launches = s.launches := rfl
@[simp] theorem State.modMe_nextLaunch (f : Ctx → Ctx) : (s.modMe f).nextLaunch = s.nextLaunch := rfl
@[simp] theorem State.modMe_reqs (f : Ctx → Ctx) : (s.modMe f).reqs = s.reqs := rfl
@[simp] theorem State.modMe_nxus (f : Ctx → Ctx) : (s.modMe f).nxus = s.nxus := rfl
@[simp] theorem State.modMe_saves (f : Ctx → Ctx) : (s.modMe f).saves = s.saves := rfl
@[simp] theorem State.modMe_images (f : Ctx → Ctx) : (s.modMe f).images = s.images := rfl
@[simp] theorem State.modMe_running (f : Ctx → Ctx) : (s.modMe f).running = s.running := rfl
@[simp] theorem State.modMe_cmdReg (f : Ctx → Ctx) : (s.modMe f).cmdReg = s.cmdReg := rfl
@[simp] theorem State.modMe_sdReg (f : Ctx → Ctx) : (s.modMe f).sdReg = s.sdReg := rfl
@[simp] theorem State.modMe_finReg (f : Ctx → Ctx) : (s.modMe f).finReg = s.finReg := rfl
@[simp] theorem State.modMe_cmdQ (f : Ctx → Ctx) : (s.modMe f).cmdQ = s.cmdQ := rfl
@[simp] theorem State.modMe_sdQ (f : Ctx → Ctx) : (s.modMe f).sdQ = s.sdQ := rfl
@[simp] theorem State.modMe_finQ (f : Ctx → Ctx) : (s.modMe f).finQ = s.finQ := rfl
@[simp] theorem State.modMe_errorLog (f : Ctx → Ctx) : (s.modMe f).errorLog = s.errorLog := rfl
@[simp] theorem State.modMe_stbase (f : Ctx → Ctx) : (s.modMe f).stbase = s.stbase := rfl
@[simp] theorem State.modMe_sc (f : Ctx → Ctx) : (s.modMe f).sc = s.sc := rfl
@[simp] theorem State.modMe_pkgid (f : Ctx → Ctx) : (s.modMe f).pkgid = s.pkgid := rfl
@[simp] theorem State.modMe_cap (f : Ctx → Ctx) : (s.modMe f).cap = s.cap := rfl
@[simp] theorem State.modMe_tlim (f : Ctx → Ctx) : (s.modMe f).tlim = s.tlim := rfl
@[simp] theorem State.modMe_rstcause (f : Ctx → Ctx) : (s.modMe f).rstcause = s.rstcause := rfl
@[simp] theorem State.modMe_counters (f : Ctx → Ctx) : (s.modMe f).counters = s.counters := rfl
@[simp] theorem State.modMe_sensors (f : Ctx → Ctx) : (s.modMe f).sensors = s.sensors := rfl
@[simp] theorem State.modMe_boot (f : Ctx → Ctx) : (s.modMe f).boot = s.boot := rfl
@[simp] theorem State.modMe_meas (f : Ctx → Ctx) : (s.modMe f).meas = s.meas := rfl
@[simp] theorem State.modMe_measgen (f : Ctx → Ctx) : (s.modMe f).measgen = s.measgen := rfl
@[simp] theorem State.modMe_segCounter (f : Ctx → Ctx) : (s.modMe f).segCounter = s.segCounter := rfl
@[simp] theorem State.modMe_window (f : Ctx → Ctx) : (s.modMe f).window = s.window := rfl
@[simp] theorem State.modMe_sessions (f : Ctx → Ctx) : (s.modMe f).sessions = s.sessions := rfl
@[simp] theorem State.modMe_nextErrs (f : Ctx → Ctx) : (s.modMe f).nextErrs = s.nextErrs := rfl
@[simp] theorem State.modMe_pasts (f : Ctx → Ctx) : (s.modMe f).pasts = s.pasts := rfl
@[simp] theorem State.modMe_pastCtr (f : Ctx → Ctx) : (s.modMe f).pastCtr = s.pastCtr := rfl
@[simp] theorem State.modMe_rels (f : Ctx → Ctx) : (s.modMe f).rels = s.rels := rfl
@[simp] theorem State.modMe_promises (f : Ctx → Ctx) : (s.modMe f).promises = s.promises := rfl
@[simp] theorem State.modMe_heads (f : Ctx → Ctx) : (s.modMe f).heads = s.heads := rfl
@[simp] theorem State.modMe_hdms (f : Ctx → Ctx) : (s.modMe f).hdms = s.hdms := rfl
@[simp] theorem State.modMe_lostWords (f : Ctx → Ctx) : (s.modMe f).lostWords = s.lostWords := rfl
@[simp] theorem State.modMe_passRels (f : Ctx → Ctx) : (s.modMe f).passRels = s.passRels := rfl
@[simp] theorem State.modMe_late (f : Ctx → Ctx) : (s.modMe f).late = s.late := rfl
@[simp] theorem State.modMe_attest (f : Ctx → Ctx) : (s.modMe f).attest = s.attest := rfl

@[simp] theorem State.modHere_agenda (f : Core → Core) : (s.modHere f).agenda = s.agenda := rfl
@[simp] theorem State.modHere_cur (f : Core → Core) : (s.modHere f).cur = s.cur := rfl
@[simp] theorem State.modHere_freeCtr (f : Core → Core) : (s.modHere f).freeCtr = s.freeCtr := rfl
@[simp] theorem State.modHere_nextId (f : Core → Core) : (s.modHere f).nextId = s.nextId := rfl
@[simp] theorem State.modHere_answers (f : Core → Core) : (s.modHere f).answers = s.answers := rfl
@[simp] theorem State.modHere_gcc (f : Core → Core) : (s.modHere f).gcc = s.gcc := rfl
@[simp] theorem State.modHere_mem (f : Core → Core) : (s.modHere f).mem = s.mem := rfl
@[simp] theorem State.modHere_poison (f : Core → Core) : (s.modHere f).poison = s.poison := rfl
@[simp] theorem State.modHere_owners (f : Core → Core) : (s.modHere f).owners = s.owners := rfl
@[simp] theorem State.modHere_dies (f : Core → Core) : (s.modHere f).dies = s.dies := rfl
@[simp] theorem State.modHere_tenants (f : Core → Core) : (s.modHere f).tenants = s.tenants := rfl
@[simp] theorem State.modHere_fns (f : Core → Core) : (s.modHere f).fns = s.fns := rfl
@[simp] theorem State.modHere_ports (f : Core → Core) : (s.modHere f).ports = s.ports := rfl
@[simp] theorem State.modHere_launches (f : Core → Core) : (s.modHere f).launches = s.launches := rfl
@[simp] theorem State.modHere_nextLaunch (f : Core → Core) : (s.modHere f).nextLaunch = s.nextLaunch := rfl
@[simp] theorem State.modHere_reqs (f : Core → Core) : (s.modHere f).reqs = s.reqs := rfl
@[simp] theorem State.modHere_nxus (f : Core → Core) : (s.modHere f).nxus = s.nxus := rfl
@[simp] theorem State.modHere_saves (f : Core → Core) : (s.modHere f).saves = s.saves := rfl
@[simp] theorem State.modHere_images (f : Core → Core) : (s.modHere f).images = s.images := rfl
@[simp] theorem State.modHere_running (f : Core → Core) : (s.modHere f).running = s.running := rfl
@[simp] theorem State.modHere_cmdReg (f : Core → Core) : (s.modHere f).cmdReg = s.cmdReg := rfl
@[simp] theorem State.modHere_sdReg (f : Core → Core) : (s.modHere f).sdReg = s.sdReg := rfl
@[simp] theorem State.modHere_finReg (f : Core → Core) : (s.modHere f).finReg = s.finReg := rfl
@[simp] theorem State.modHere_cmdQ (f : Core → Core) : (s.modHere f).cmdQ = s.cmdQ := rfl
@[simp] theorem State.modHere_sdQ (f : Core → Core) : (s.modHere f).sdQ = s.sdQ := rfl
@[simp] theorem State.modHere_finQ (f : Core → Core) : (s.modHere f).finQ = s.finQ := rfl
@[simp] theorem State.modHere_errorLog (f : Core → Core) : (s.modHere f).errorLog = s.errorLog := rfl
@[simp] theorem State.modHere_stbase (f : Core → Core) : (s.modHere f).stbase = s.stbase := rfl
@[simp] theorem State.modHere_sc (f : Core → Core) : (s.modHere f).sc = s.sc := rfl
@[simp] theorem State.modHere_pkgid (f : Core → Core) : (s.modHere f).pkgid = s.pkgid := rfl
@[simp] theorem State.modHere_cap (f : Core → Core) : (s.modHere f).cap = s.cap := rfl
@[simp] theorem State.modHere_tlim (f : Core → Core) : (s.modHere f).tlim = s.tlim := rfl
@[simp] theorem State.modHere_rstcause (f : Core → Core) : (s.modHere f).rstcause = s.rstcause := rfl
@[simp] theorem State.modHere_counters (f : Core → Core) : (s.modHere f).counters = s.counters := rfl
@[simp] theorem State.modHere_sensors (f : Core → Core) : (s.modHere f).sensors = s.sensors := rfl
@[simp] theorem State.modHere_boot (f : Core → Core) : (s.modHere f).boot = s.boot := rfl
@[simp] theorem State.modHere_meas (f : Core → Core) : (s.modHere f).meas = s.meas := rfl
@[simp] theorem State.modHere_measgen (f : Core → Core) : (s.modHere f).measgen = s.measgen := rfl
@[simp] theorem State.modHere_segCounter (f : Core → Core) : (s.modHere f).segCounter = s.segCounter := rfl
@[simp] theorem State.modHere_window (f : Core → Core) : (s.modHere f).window = s.window := rfl
@[simp] theorem State.modHere_sessions (f : Core → Core) : (s.modHere f).sessions = s.sessions := rfl
@[simp] theorem State.modHere_nextErrs (f : Core → Core) : (s.modHere f).nextErrs = s.nextErrs := rfl
@[simp] theorem State.modHere_pasts (f : Core → Core) : (s.modHere f).pasts = s.pasts := rfl
@[simp] theorem State.modHere_pastCtr (f : Core → Core) : (s.modHere f).pastCtr = s.pastCtr := rfl
@[simp] theorem State.modHere_rels (f : Core → Core) : (s.modHere f).rels = s.rels := rfl
@[simp] theorem State.modHere_promises (f : Core → Core) : (s.modHere f).promises = s.promises := rfl
@[simp] theorem State.modHere_heads (f : Core → Core) : (s.modHere f).heads = s.heads := rfl
@[simp] theorem State.modHere_hdms (f : Core → Core) : (s.modHere f).hdms = s.hdms := rfl
@[simp] theorem State.modHere_lostWords (f : Core → Core) : (s.modHere f).lostWords = s.lostWords := rfl
@[simp] theorem State.modHere_passRels (f : Core → Core) : (s.modHere f).passRels = s.passRels := rfl
@[simp] theorem State.modHere_late (f : Core → Core) : (s.modHere f).late = s.late := rfl
@[simp] theorem State.modHere_attest (f : Core → Core) : (s.modHere f).attest = s.attest := rfl

@[simp] theorem State.modDie_agenda (d : DieId) (f : Die → Die) : (s.modDie d f).agenda = s.agenda := rfl
@[simp] theorem State.modDie_cur (d : DieId) (f : Die → Die) : (s.modDie d f).cur = s.cur := rfl
@[simp] theorem State.modDie_freeCtr (d : DieId) (f : Die → Die) : (s.modDie d f).freeCtr = s.freeCtr := rfl
@[simp] theorem State.modDie_nextId (d : DieId) (f : Die → Die) : (s.modDie d f).nextId = s.nextId := rfl
@[simp] theorem State.modDie_answers (d : DieId) (f : Die → Die) : (s.modDie d f).answers = s.answers := rfl
@[simp] theorem State.modDie_gcc (d : DieId) (f : Die → Die) : (s.modDie d f).gcc = s.gcc := rfl
@[simp] theorem State.modDie_mem (d : DieId) (f : Die → Die) : (s.modDie d f).mem = s.mem := rfl
@[simp] theorem State.modDie_poison (d : DieId) (f : Die → Die) : (s.modDie d f).poison = s.poison := rfl
@[simp] theorem State.modDie_owners (d : DieId) (f : Die → Die) : (s.modDie d f).owners = s.owners := rfl
@[simp] theorem State.modDie_cores (d : DieId) (f : Die → Die) : (s.modDie d f).cores = s.cores := rfl
@[simp] theorem State.modDie_tenants (d : DieId) (f : Die → Die) : (s.modDie d f).tenants = s.tenants := rfl
@[simp] theorem State.modDie_fns (d : DieId) (f : Die → Die) : (s.modDie d f).fns = s.fns := rfl
@[simp] theorem State.modDie_ports (d : DieId) (f : Die → Die) : (s.modDie d f).ports = s.ports := rfl
@[simp] theorem State.modDie_launches (d : DieId) (f : Die → Die) : (s.modDie d f).launches = s.launches := rfl
@[simp] theorem State.modDie_nextLaunch (d : DieId) (f : Die → Die) : (s.modDie d f).nextLaunch = s.nextLaunch := rfl
@[simp] theorem State.modDie_reqs (d : DieId) (f : Die → Die) : (s.modDie d f).reqs = s.reqs := rfl
@[simp] theorem State.modDie_nxus (d : DieId) (f : Die → Die) : (s.modDie d f).nxus = s.nxus := rfl
@[simp] theorem State.modDie_saves (d : DieId) (f : Die → Die) : (s.modDie d f).saves = s.saves := rfl
@[simp] theorem State.modDie_images (d : DieId) (f : Die → Die) : (s.modDie d f).images = s.images := rfl
@[simp] theorem State.modDie_running (d : DieId) (f : Die → Die) : (s.modDie d f).running = s.running := rfl
@[simp] theorem State.modDie_cmdReg (d : DieId) (f : Die → Die) : (s.modDie d f).cmdReg = s.cmdReg := rfl
@[simp] theorem State.modDie_sdReg (d : DieId) (f : Die → Die) : (s.modDie d f).sdReg = s.sdReg := rfl
@[simp] theorem State.modDie_finReg (d : DieId) (f : Die → Die) : (s.modDie d f).finReg = s.finReg := rfl
@[simp] theorem State.modDie_cmdQ (d : DieId) (f : Die → Die) : (s.modDie d f).cmdQ = s.cmdQ := rfl
@[simp] theorem State.modDie_sdQ (d : DieId) (f : Die → Die) : (s.modDie d f).sdQ = s.sdQ := rfl
@[simp] theorem State.modDie_finQ (d : DieId) (f : Die → Die) : (s.modDie d f).finQ = s.finQ := rfl
@[simp] theorem State.modDie_errorLog (d : DieId) (f : Die → Die) : (s.modDie d f).errorLog = s.errorLog := rfl
@[simp] theorem State.modDie_stbase (d : DieId) (f : Die → Die) : (s.modDie d f).stbase = s.stbase := rfl
@[simp] theorem State.modDie_sc (d : DieId) (f : Die → Die) : (s.modDie d f).sc = s.sc := rfl
@[simp] theorem State.modDie_pkgid (d : DieId) (f : Die → Die) : (s.modDie d f).pkgid = s.pkgid := rfl
@[simp] theorem State.modDie_cap (d : DieId) (f : Die → Die) : (s.modDie d f).cap = s.cap := rfl
@[simp] theorem State.modDie_tlim (d : DieId) (f : Die → Die) : (s.modDie d f).tlim = s.tlim := rfl
@[simp] theorem State.modDie_rstcause (d : DieId) (f : Die → Die) : (s.modDie d f).rstcause = s.rstcause := rfl
@[simp] theorem State.modDie_counters (d : DieId) (f : Die → Die) : (s.modDie d f).counters = s.counters := rfl
@[simp] theorem State.modDie_sensors (d : DieId) (f : Die → Die) : (s.modDie d f).sensors = s.sensors := rfl
@[simp] theorem State.modDie_boot (d : DieId) (f : Die → Die) : (s.modDie d f).boot = s.boot := rfl
@[simp] theorem State.modDie_meas (d : DieId) (f : Die → Die) : (s.modDie d f).meas = s.meas := rfl
@[simp] theorem State.modDie_measgen (d : DieId) (f : Die → Die) : (s.modDie d f).measgen = s.measgen := rfl
@[simp] theorem State.modDie_segCounter (d : DieId) (f : Die → Die) : (s.modDie d f).segCounter = s.segCounter := rfl
@[simp] theorem State.modDie_window (d : DieId) (f : Die → Die) : (s.modDie d f).window = s.window := rfl
@[simp] theorem State.modDie_sessions (d : DieId) (f : Die → Die) : (s.modDie d f).sessions = s.sessions := rfl
@[simp] theorem State.modDie_nextErrs (d : DieId) (f : Die → Die) : (s.modDie d f).nextErrs = s.nextErrs := rfl
@[simp] theorem State.modDie_pasts (d : DieId) (f : Die → Die) : (s.modDie d f).pasts = s.pasts := rfl
@[simp] theorem State.modDie_pastCtr (d : DieId) (f : Die → Die) : (s.modDie d f).pastCtr = s.pastCtr := rfl
@[simp] theorem State.modDie_rels (d : DieId) (f : Die → Die) : (s.modDie d f).rels = s.rels := rfl
@[simp] theorem State.modDie_promises (d : DieId) (f : Die → Die) : (s.modDie d f).promises = s.promises := rfl
@[simp] theorem State.modDie_heads (d : DieId) (f : Die → Die) : (s.modDie d f).heads = s.heads := rfl
@[simp] theorem State.modDie_hdms (d : DieId) (f : Die → Die) : (s.modDie d f).hdms = s.hdms := rfl
@[simp] theorem State.modDie_lostWords (d : DieId) (f : Die → Die) : (s.modDie d f).lostWords = s.lostWords := rfl
@[simp] theorem State.modDie_passRels (d : DieId) (f : Die → Die) : (s.modDie d f).passRels = s.passRels := rfl
@[simp] theorem State.modDie_late (d : DieId) (f : Die → Die) : (s.modDie d f).late = s.late := rfl
@[simp] theorem State.modDie_attest (d : DieId) (f : Die → Die) : (s.modDie d f).attest = s.attest := rfl

@[simp] theorem State.modTenant_agenda (t : Tenant) (f : TenantSt → TenantSt) : (s.modTenant t f).agenda = s.agenda := rfl
@[simp] theorem State.modTenant_cur (t : Tenant) (f : TenantSt → TenantSt) : (s.modTenant t f).cur = s.cur := rfl
@[simp] theorem State.modTenant_freeCtr (t : Tenant) (f : TenantSt → TenantSt) : (s.modTenant t f).freeCtr = s.freeCtr := rfl
@[simp] theorem State.modTenant_nextId (t : Tenant) (f : TenantSt → TenantSt) : (s.modTenant t f).nextId = s.nextId := rfl
@[simp] theorem State.modTenant_answers (t : Tenant) (f : TenantSt → TenantSt) : (s.modTenant t f).answers = s.answers := rfl
@[simp] theorem State.modTenant_gcc (t : Tenant) (f : TenantSt → TenantSt) : (s.modTenant t f).gcc = s.gcc := rfl
@[simp] theorem State.modTenant_mem (t : Tenant) (f : TenantSt → TenantSt) : (s.modTenant t f).mem = s.mem := rfl
@[simp] theorem State.modTenant_poison (t : Tenant) (f : TenantSt → TenantSt) : (s.modTenant t f).poison = s.poison := rfl
@[simp] theorem State.modTenant_owners (t : Tenant) (f : TenantSt → TenantSt) : (s.modTenant t f).owners = s.owners := rfl
@[simp] theorem State.modTenant_cores (t : Tenant) (f : TenantSt → TenantSt) : (s.modTenant t f).cores = s.cores := rfl
@[simp] theorem State.modTenant_dies (t : Tenant) (f : TenantSt → TenantSt) : (s.modTenant t f).dies = s.dies := rfl
@[simp] theorem State.modTenant_fns (t : Tenant) (f : TenantSt → TenantSt) : (s.modTenant t f).fns = s.fns := rfl
@[simp] theorem State.modTenant_ports (t : Tenant) (f : TenantSt → TenantSt) : (s.modTenant t f).ports = s.ports := rfl
@[simp] theorem State.modTenant_launches (t : Tenant) (f : TenantSt → TenantSt) : (s.modTenant t f).launches = s.launches := rfl
@[simp] theorem State.modTenant_nextLaunch (t : Tenant) (f : TenantSt → TenantSt) : (s.modTenant t f).nextLaunch = s.nextLaunch := rfl
@[simp] theorem State.modTenant_reqs (t : Tenant) (f : TenantSt → TenantSt) : (s.modTenant t f).reqs = s.reqs := rfl
@[simp] theorem State.modTenant_nxus (t : Tenant) (f : TenantSt → TenantSt) : (s.modTenant t f).nxus = s.nxus := rfl
@[simp] theorem State.modTenant_saves (t : Tenant) (f : TenantSt → TenantSt) : (s.modTenant t f).saves = s.saves := rfl
@[simp] theorem State.modTenant_images (t : Tenant) (f : TenantSt → TenantSt) : (s.modTenant t f).images = s.images := rfl
@[simp] theorem State.modTenant_running (t : Tenant) (f : TenantSt → TenantSt) : (s.modTenant t f).running = s.running := rfl
@[simp] theorem State.modTenant_cmdReg (t : Tenant) (f : TenantSt → TenantSt) : (s.modTenant t f).cmdReg = s.cmdReg := rfl
@[simp] theorem State.modTenant_sdReg (t : Tenant) (f : TenantSt → TenantSt) : (s.modTenant t f).sdReg = s.sdReg := rfl
@[simp] theorem State.modTenant_finReg (t : Tenant) (f : TenantSt → TenantSt) : (s.modTenant t f).finReg = s.finReg := rfl
@[simp] theorem State.modTenant_cmdQ (t : Tenant) (f : TenantSt → TenantSt) : (s.modTenant t f).cmdQ = s.cmdQ := rfl
@[simp] theorem State.modTenant_sdQ (t : Tenant) (f : TenantSt → TenantSt) : (s.modTenant t f).sdQ = s.sdQ := rfl
@[simp] theorem State.modTenant_finQ (t : Tenant) (f : TenantSt → TenantSt) : (s.modTenant t f).finQ = s.finQ := rfl
@[simp] theorem State.modTenant_errorLog (t : Tenant) (f : TenantSt → TenantSt) : (s.modTenant t f).errorLog = s.errorLog := rfl
@[simp] theorem State.modTenant_stbase (t : Tenant) (f : TenantSt → TenantSt) : (s.modTenant t f).stbase = s.stbase := rfl
@[simp] theorem State.modTenant_sc (t : Tenant) (f : TenantSt → TenantSt) : (s.modTenant t f).sc = s.sc := rfl
@[simp] theorem State.modTenant_pkgid (t : Tenant) (f : TenantSt → TenantSt) : (s.modTenant t f).pkgid = s.pkgid := rfl
@[simp] theorem State.modTenant_cap (t : Tenant) (f : TenantSt → TenantSt) : (s.modTenant t f).cap = s.cap := rfl
@[simp] theorem State.modTenant_tlim (t : Tenant) (f : TenantSt → TenantSt) : (s.modTenant t f).tlim = s.tlim := rfl
@[simp] theorem State.modTenant_rstcause (t : Tenant) (f : TenantSt → TenantSt) : (s.modTenant t f).rstcause = s.rstcause := rfl
@[simp] theorem State.modTenant_counters (t : Tenant) (f : TenantSt → TenantSt) : (s.modTenant t f).counters = s.counters := rfl
@[simp] theorem State.modTenant_sensors (t : Tenant) (f : TenantSt → TenantSt) : (s.modTenant t f).sensors = s.sensors := rfl
@[simp] theorem State.modTenant_boot (t : Tenant) (f : TenantSt → TenantSt) : (s.modTenant t f).boot = s.boot := rfl
@[simp] theorem State.modTenant_meas (t : Tenant) (f : TenantSt → TenantSt) : (s.modTenant t f).meas = s.meas := rfl
@[simp] theorem State.modTenant_measgen (t : Tenant) (f : TenantSt → TenantSt) : (s.modTenant t f).measgen = s.measgen := rfl
@[simp] theorem State.modTenant_segCounter (t : Tenant) (f : TenantSt → TenantSt) : (s.modTenant t f).segCounter = s.segCounter := rfl
@[simp] theorem State.modTenant_window (t : Tenant) (f : TenantSt → TenantSt) : (s.modTenant t f).window = s.window := rfl
@[simp] theorem State.modTenant_sessions (t : Tenant) (f : TenantSt → TenantSt) : (s.modTenant t f).sessions = s.sessions := rfl
@[simp] theorem State.modTenant_nextErrs (t : Tenant) (f : TenantSt → TenantSt) : (s.modTenant t f).nextErrs = s.nextErrs := rfl
@[simp] theorem State.modTenant_pasts (t : Tenant) (f : TenantSt → TenantSt) : (s.modTenant t f).pasts = s.pasts := rfl
@[simp] theorem State.modTenant_pastCtr (t : Tenant) (f : TenantSt → TenantSt) : (s.modTenant t f).pastCtr = s.pastCtr := rfl
@[simp] theorem State.modTenant_rels (t : Tenant) (f : TenantSt → TenantSt) : (s.modTenant t f).rels = s.rels := rfl
@[simp] theorem State.modTenant_promises (t : Tenant) (f : TenantSt → TenantSt) : (s.modTenant t f).promises = s.promises := rfl
@[simp] theorem State.modTenant_heads (t : Tenant) (f : TenantSt → TenantSt) : (s.modTenant t f).heads = s.heads := rfl
@[simp] theorem State.modTenant_hdms (t : Tenant) (f : TenantSt → TenantSt) : (s.modTenant t f).hdms = s.hdms := rfl
@[simp] theorem State.modTenant_lostWords (t : Tenant) (f : TenantSt → TenantSt) : (s.modTenant t f).lostWords = s.lostWords := rfl
@[simp] theorem State.modTenant_passRels (t : Tenant) (f : TenantSt → TenantSt) : (s.modTenant t f).passRels = s.passRels := rfl
@[simp] theorem State.modTenant_late (t : Tenant) (f : TenantSt → TenantSt) : (s.modTenant t f).late = s.late := rfl
@[simp] theorem State.modTenant_attest (t : Tenant) (f : TenantSt → TenantSt) : (s.modTenant t f).attest = s.attest := rfl

@[simp] theorem State.modFn_agenda (n : Fn) (f : FnSt → FnSt) : (s.modFn n f).agenda = s.agenda := rfl
@[simp] theorem State.modFn_cur (n : Fn) (f : FnSt → FnSt) : (s.modFn n f).cur = s.cur := rfl
@[simp] theorem State.modFn_freeCtr (n : Fn) (f : FnSt → FnSt) : (s.modFn n f).freeCtr = s.freeCtr := rfl
@[simp] theorem State.modFn_nextId (n : Fn) (f : FnSt → FnSt) : (s.modFn n f).nextId = s.nextId := rfl
@[simp] theorem State.modFn_answers (n : Fn) (f : FnSt → FnSt) : (s.modFn n f).answers = s.answers := rfl
@[simp] theorem State.modFn_gcc (n : Fn) (f : FnSt → FnSt) : (s.modFn n f).gcc = s.gcc := rfl
@[simp] theorem State.modFn_mem (n : Fn) (f : FnSt → FnSt) : (s.modFn n f).mem = s.mem := rfl
@[simp] theorem State.modFn_poison (n : Fn) (f : FnSt → FnSt) : (s.modFn n f).poison = s.poison := rfl
@[simp] theorem State.modFn_owners (n : Fn) (f : FnSt → FnSt) : (s.modFn n f).owners = s.owners := rfl
@[simp] theorem State.modFn_cores (n : Fn) (f : FnSt → FnSt) : (s.modFn n f).cores = s.cores := rfl
@[simp] theorem State.modFn_dies (n : Fn) (f : FnSt → FnSt) : (s.modFn n f).dies = s.dies := rfl
@[simp] theorem State.modFn_tenants (n : Fn) (f : FnSt → FnSt) : (s.modFn n f).tenants = s.tenants := rfl
@[simp] theorem State.modFn_ports (n : Fn) (f : FnSt → FnSt) : (s.modFn n f).ports = s.ports := rfl
@[simp] theorem State.modFn_launches (n : Fn) (f : FnSt → FnSt) : (s.modFn n f).launches = s.launches := rfl
@[simp] theorem State.modFn_nextLaunch (n : Fn) (f : FnSt → FnSt) : (s.modFn n f).nextLaunch = s.nextLaunch := rfl
@[simp] theorem State.modFn_reqs (n : Fn) (f : FnSt → FnSt) : (s.modFn n f).reqs = s.reqs := rfl
@[simp] theorem State.modFn_nxus (n : Fn) (f : FnSt → FnSt) : (s.modFn n f).nxus = s.nxus := rfl
@[simp] theorem State.modFn_saves (n : Fn) (f : FnSt → FnSt) : (s.modFn n f).saves = s.saves := rfl
@[simp] theorem State.modFn_images (n : Fn) (f : FnSt → FnSt) : (s.modFn n f).images = s.images := rfl
@[simp] theorem State.modFn_running (n : Fn) (f : FnSt → FnSt) : (s.modFn n f).running = s.running := rfl
@[simp] theorem State.modFn_cmdReg (n : Fn) (f : FnSt → FnSt) : (s.modFn n f).cmdReg = s.cmdReg := rfl
@[simp] theorem State.modFn_sdReg (n : Fn) (f : FnSt → FnSt) : (s.modFn n f).sdReg = s.sdReg := rfl
@[simp] theorem State.modFn_finReg (n : Fn) (f : FnSt → FnSt) : (s.modFn n f).finReg = s.finReg := rfl
@[simp] theorem State.modFn_cmdQ (n : Fn) (f : FnSt → FnSt) : (s.modFn n f).cmdQ = s.cmdQ := rfl
@[simp] theorem State.modFn_sdQ (n : Fn) (f : FnSt → FnSt) : (s.modFn n f).sdQ = s.sdQ := rfl
@[simp] theorem State.modFn_finQ (n : Fn) (f : FnSt → FnSt) : (s.modFn n f).finQ = s.finQ := rfl
@[simp] theorem State.modFn_errorLog (n : Fn) (f : FnSt → FnSt) : (s.modFn n f).errorLog = s.errorLog := rfl
@[simp] theorem State.modFn_stbase (n : Fn) (f : FnSt → FnSt) : (s.modFn n f).stbase = s.stbase := rfl
@[simp] theorem State.modFn_sc (n : Fn) (f : FnSt → FnSt) : (s.modFn n f).sc = s.sc := rfl
@[simp] theorem State.modFn_pkgid (n : Fn) (f : FnSt → FnSt) : (s.modFn n f).pkgid = s.pkgid := rfl
@[simp] theorem State.modFn_cap (n : Fn) (f : FnSt → FnSt) : (s.modFn n f).cap = s.cap := rfl
@[simp] theorem State.modFn_tlim (n : Fn) (f : FnSt → FnSt) : (s.modFn n f).tlim = s.tlim := rfl
@[simp] theorem State.modFn_rstcause (n : Fn) (f : FnSt → FnSt) : (s.modFn n f).rstcause = s.rstcause := rfl
@[simp] theorem State.modFn_counters (n : Fn) (f : FnSt → FnSt) : (s.modFn n f).counters = s.counters := rfl
@[simp] theorem State.modFn_sensors (n : Fn) (f : FnSt → FnSt) : (s.modFn n f).sensors = s.sensors := rfl
@[simp] theorem State.modFn_boot (n : Fn) (f : FnSt → FnSt) : (s.modFn n f).boot = s.boot := rfl
@[simp] theorem State.modFn_meas (n : Fn) (f : FnSt → FnSt) : (s.modFn n f).meas = s.meas := rfl
@[simp] theorem State.modFn_measgen (n : Fn) (f : FnSt → FnSt) : (s.modFn n f).measgen = s.measgen := rfl
@[simp] theorem State.modFn_segCounter (n : Fn) (f : FnSt → FnSt) : (s.modFn n f).segCounter = s.segCounter := rfl
@[simp] theorem State.modFn_window (n : Fn) (f : FnSt → FnSt) : (s.modFn n f).window = s.window := rfl
@[simp] theorem State.modFn_sessions (n : Fn) (f : FnSt → FnSt) : (s.modFn n f).sessions = s.sessions := rfl
@[simp] theorem State.modFn_nextErrs (n : Fn) (f : FnSt → FnSt) : (s.modFn n f).nextErrs = s.nextErrs := rfl
@[simp] theorem State.modFn_pasts (n : Fn) (f : FnSt → FnSt) : (s.modFn n f).pasts = s.pasts := rfl
@[simp] theorem State.modFn_pastCtr (n : Fn) (f : FnSt → FnSt) : (s.modFn n f).pastCtr = s.pastCtr := rfl
@[simp] theorem State.modFn_rels (n : Fn) (f : FnSt → FnSt) : (s.modFn n f).rels = s.rels := rfl
@[simp] theorem State.modFn_promises (n : Fn) (f : FnSt → FnSt) : (s.modFn n f).promises = s.promises := rfl
@[simp] theorem State.modFn_heads (n : Fn) (f : FnSt → FnSt) : (s.modFn n f).heads = s.heads := rfl
@[simp] theorem State.modFn_hdms (n : Fn) (f : FnSt → FnSt) : (s.modFn n f).hdms = s.hdms := rfl
@[simp] theorem State.modFn_lostWords (n : Fn) (f : FnSt → FnSt) : (s.modFn n f).lostWords = s.lostWords := rfl
@[simp] theorem State.modFn_passRels (n : Fn) (f : FnSt → FnSt) : (s.modFn n f).passRels = s.passRels := rfl
@[simp] theorem State.modFn_late (n : Fn) (f : FnSt → FnSt) : (s.modFn n f).late = s.late := rfl
@[simp] theorem State.modFn_attest (n : Fn) (f : FnSt → FnSt) : (s.modFn n f).attest = s.attest := rfl

@[simp] theorem State.modPort_agenda (p : Port) (f : RillPort → RillPort) : (s.modPort p f).agenda = s.agenda := rfl
@[simp] theorem State.modPort_cur (p : Port) (f : RillPort → RillPort) : (s.modPort p f).cur = s.cur := rfl
@[simp] theorem State.modPort_freeCtr (p : Port) (f : RillPort → RillPort) : (s.modPort p f).freeCtr = s.freeCtr := rfl
@[simp] theorem State.modPort_nextId (p : Port) (f : RillPort → RillPort) : (s.modPort p f).nextId = s.nextId := rfl
@[simp] theorem State.modPort_answers (p : Port) (f : RillPort → RillPort) : (s.modPort p f).answers = s.answers := rfl
@[simp] theorem State.modPort_gcc (p : Port) (f : RillPort → RillPort) : (s.modPort p f).gcc = s.gcc := rfl
@[simp] theorem State.modPort_mem (p : Port) (f : RillPort → RillPort) : (s.modPort p f).mem = s.mem := rfl
@[simp] theorem State.modPort_poison (p : Port) (f : RillPort → RillPort) : (s.modPort p f).poison = s.poison := rfl
@[simp] theorem State.modPort_owners (p : Port) (f : RillPort → RillPort) : (s.modPort p f).owners = s.owners := rfl
@[simp] theorem State.modPort_cores (p : Port) (f : RillPort → RillPort) : (s.modPort p f).cores = s.cores := rfl
@[simp] theorem State.modPort_dies (p : Port) (f : RillPort → RillPort) : (s.modPort p f).dies = s.dies := rfl
@[simp] theorem State.modPort_tenants (p : Port) (f : RillPort → RillPort) : (s.modPort p f).tenants = s.tenants := rfl
@[simp] theorem State.modPort_fns (p : Port) (f : RillPort → RillPort) : (s.modPort p f).fns = s.fns := rfl
@[simp] theorem State.modPort_launches (p : Port) (f : RillPort → RillPort) : (s.modPort p f).launches = s.launches := rfl
@[simp] theorem State.modPort_nextLaunch (p : Port) (f : RillPort → RillPort) : (s.modPort p f).nextLaunch = s.nextLaunch := rfl
@[simp] theorem State.modPort_reqs (p : Port) (f : RillPort → RillPort) : (s.modPort p f).reqs = s.reqs := rfl
@[simp] theorem State.modPort_nxus (p : Port) (f : RillPort → RillPort) : (s.modPort p f).nxus = s.nxus := rfl
@[simp] theorem State.modPort_saves (p : Port) (f : RillPort → RillPort) : (s.modPort p f).saves = s.saves := rfl
@[simp] theorem State.modPort_images (p : Port) (f : RillPort → RillPort) : (s.modPort p f).images = s.images := rfl
@[simp] theorem State.modPort_running (p : Port) (f : RillPort → RillPort) : (s.modPort p f).running = s.running := rfl
@[simp] theorem State.modPort_cmdReg (p : Port) (f : RillPort → RillPort) : (s.modPort p f).cmdReg = s.cmdReg := rfl
@[simp] theorem State.modPort_sdReg (p : Port) (f : RillPort → RillPort) : (s.modPort p f).sdReg = s.sdReg := rfl
@[simp] theorem State.modPort_finReg (p : Port) (f : RillPort → RillPort) : (s.modPort p f).finReg = s.finReg := rfl
@[simp] theorem State.modPort_cmdQ (p : Port) (f : RillPort → RillPort) : (s.modPort p f).cmdQ = s.cmdQ := rfl
@[simp] theorem State.modPort_sdQ (p : Port) (f : RillPort → RillPort) : (s.modPort p f).sdQ = s.sdQ := rfl
@[simp] theorem State.modPort_finQ (p : Port) (f : RillPort → RillPort) : (s.modPort p f).finQ = s.finQ := rfl
@[simp] theorem State.modPort_errorLog (p : Port) (f : RillPort → RillPort) : (s.modPort p f).errorLog = s.errorLog := rfl
@[simp] theorem State.modPort_stbase (p : Port) (f : RillPort → RillPort) : (s.modPort p f).stbase = s.stbase := rfl
@[simp] theorem State.modPort_sc (p : Port) (f : RillPort → RillPort) : (s.modPort p f).sc = s.sc := rfl
@[simp] theorem State.modPort_pkgid (p : Port) (f : RillPort → RillPort) : (s.modPort p f).pkgid = s.pkgid := rfl
@[simp] theorem State.modPort_cap (p : Port) (f : RillPort → RillPort) : (s.modPort p f).cap = s.cap := rfl
@[simp] theorem State.modPort_tlim (p : Port) (f : RillPort → RillPort) : (s.modPort p f).tlim = s.tlim := rfl
@[simp] theorem State.modPort_rstcause (p : Port) (f : RillPort → RillPort) : (s.modPort p f).rstcause = s.rstcause := rfl
@[simp] theorem State.modPort_counters (p : Port) (f : RillPort → RillPort) : (s.modPort p f).counters = s.counters := rfl
@[simp] theorem State.modPort_sensors (p : Port) (f : RillPort → RillPort) : (s.modPort p f).sensors = s.sensors := rfl
@[simp] theorem State.modPort_boot (p : Port) (f : RillPort → RillPort) : (s.modPort p f).boot = s.boot := rfl
@[simp] theorem State.modPort_meas (p : Port) (f : RillPort → RillPort) : (s.modPort p f).meas = s.meas := rfl
@[simp] theorem State.modPort_measgen (p : Port) (f : RillPort → RillPort) : (s.modPort p f).measgen = s.measgen := rfl
@[simp] theorem State.modPort_segCounter (p : Port) (f : RillPort → RillPort) : (s.modPort p f).segCounter = s.segCounter := rfl
@[simp] theorem State.modPort_window (p : Port) (f : RillPort → RillPort) : (s.modPort p f).window = s.window := rfl
@[simp] theorem State.modPort_sessions (p : Port) (f : RillPort → RillPort) : (s.modPort p f).sessions = s.sessions := rfl
@[simp] theorem State.modPort_nextErrs (p : Port) (f : RillPort → RillPort) : (s.modPort p f).nextErrs = s.nextErrs := rfl
@[simp] theorem State.modPort_pasts (p : Port) (f : RillPort → RillPort) : (s.modPort p f).pasts = s.pasts := rfl
@[simp] theorem State.modPort_pastCtr (p : Port) (f : RillPort → RillPort) : (s.modPort p f).pastCtr = s.pastCtr := rfl
@[simp] theorem State.modPort_rels (p : Port) (f : RillPort → RillPort) : (s.modPort p f).rels = s.rels := rfl
@[simp] theorem State.modPort_promises (p : Port) (f : RillPort → RillPort) : (s.modPort p f).promises = s.promises := rfl
@[simp] theorem State.modPort_heads (p : Port) (f : RillPort → RillPort) : (s.modPort p f).heads = s.heads := rfl
@[simp] theorem State.modPort_hdms (p : Port) (f : RillPort → RillPort) : (s.modPort p f).hdms = s.hdms := rfl
@[simp] theorem State.modPort_lostWords (p : Port) (f : RillPort → RillPort) : (s.modPort p f).lostWords = s.lostWords := rfl
@[simp] theorem State.modPort_passRels (p : Port) (f : RillPort → RillPort) : (s.modPort p f).passRels = s.passRels := rfl
@[simp] theorem State.modPort_late (p : Port) (f : RillPort → RillPort) : (s.modPort p f).late = s.late := rfl
@[simp] theorem State.modPort_attest (p : Port) (f : RillPort → RillPort) : (s.modPort p f).attest = s.attest := rfl

@[simp] theorem State.modLaunch_agenda (id : Word) (f : Launch → Launch) : (s.modLaunch id f).agenda = s.agenda := rfl
@[simp] theorem State.modLaunch_cur (id : Word) (f : Launch → Launch) : (s.modLaunch id f).cur = s.cur := rfl
@[simp] theorem State.modLaunch_freeCtr (id : Word) (f : Launch → Launch) : (s.modLaunch id f).freeCtr = s.freeCtr := rfl
@[simp] theorem State.modLaunch_nextId (id : Word) (f : Launch → Launch) : (s.modLaunch id f).nextId = s.nextId := rfl
@[simp] theorem State.modLaunch_answers (id : Word) (f : Launch → Launch) : (s.modLaunch id f).answers = s.answers := rfl
@[simp] theorem State.modLaunch_gcc (id : Word) (f : Launch → Launch) : (s.modLaunch id f).gcc = s.gcc := rfl
@[simp] theorem State.modLaunch_mem (id : Word) (f : Launch → Launch) : (s.modLaunch id f).mem = s.mem := rfl
@[simp] theorem State.modLaunch_poison (id : Word) (f : Launch → Launch) : (s.modLaunch id f).poison = s.poison := rfl
@[simp] theorem State.modLaunch_owners (id : Word) (f : Launch → Launch) : (s.modLaunch id f).owners = s.owners := rfl
@[simp] theorem State.modLaunch_cores (id : Word) (f : Launch → Launch) : (s.modLaunch id f).cores = s.cores := rfl
@[simp] theorem State.modLaunch_dies (id : Word) (f : Launch → Launch) : (s.modLaunch id f).dies = s.dies := rfl
@[simp] theorem State.modLaunch_tenants (id : Word) (f : Launch → Launch) : (s.modLaunch id f).tenants = s.tenants := rfl
@[simp] theorem State.modLaunch_fns (id : Word) (f : Launch → Launch) : (s.modLaunch id f).fns = s.fns := rfl
@[simp] theorem State.modLaunch_ports (id : Word) (f : Launch → Launch) : (s.modLaunch id f).ports = s.ports := rfl
@[simp] theorem State.modLaunch_nextLaunch (id : Word) (f : Launch → Launch) : (s.modLaunch id f).nextLaunch = s.nextLaunch := rfl
@[simp] theorem State.modLaunch_reqs (id : Word) (f : Launch → Launch) : (s.modLaunch id f).reqs = s.reqs := rfl
@[simp] theorem State.modLaunch_nxus (id : Word) (f : Launch → Launch) : (s.modLaunch id f).nxus = s.nxus := rfl
@[simp] theorem State.modLaunch_saves (id : Word) (f : Launch → Launch) : (s.modLaunch id f).saves = s.saves := rfl
@[simp] theorem State.modLaunch_images (id : Word) (f : Launch → Launch) : (s.modLaunch id f).images = s.images := rfl
@[simp] theorem State.modLaunch_running (id : Word) (f : Launch → Launch) : (s.modLaunch id f).running = s.running := rfl
@[simp] theorem State.modLaunch_cmdReg (id : Word) (f : Launch → Launch) : (s.modLaunch id f).cmdReg = s.cmdReg := rfl
@[simp] theorem State.modLaunch_sdReg (id : Word) (f : Launch → Launch) : (s.modLaunch id f).sdReg = s.sdReg := rfl
@[simp] theorem State.modLaunch_finReg (id : Word) (f : Launch → Launch) : (s.modLaunch id f).finReg = s.finReg := rfl
@[simp] theorem State.modLaunch_cmdQ (id : Word) (f : Launch → Launch) : (s.modLaunch id f).cmdQ = s.cmdQ := rfl
@[simp] theorem State.modLaunch_sdQ (id : Word) (f : Launch → Launch) : (s.modLaunch id f).sdQ = s.sdQ := rfl
@[simp] theorem State.modLaunch_finQ (id : Word) (f : Launch → Launch) : (s.modLaunch id f).finQ = s.finQ := rfl
@[simp] theorem State.modLaunch_errorLog (id : Word) (f : Launch → Launch) : (s.modLaunch id f).errorLog = s.errorLog := rfl
@[simp] theorem State.modLaunch_stbase (id : Word) (f : Launch → Launch) : (s.modLaunch id f).stbase = s.stbase := rfl
@[simp] theorem State.modLaunch_sc (id : Word) (f : Launch → Launch) : (s.modLaunch id f).sc = s.sc := rfl
@[simp] theorem State.modLaunch_pkgid (id : Word) (f : Launch → Launch) : (s.modLaunch id f).pkgid = s.pkgid := rfl
@[simp] theorem State.modLaunch_cap (id : Word) (f : Launch → Launch) : (s.modLaunch id f).cap = s.cap := rfl
@[simp] theorem State.modLaunch_tlim (id : Word) (f : Launch → Launch) : (s.modLaunch id f).tlim = s.tlim := rfl
@[simp] theorem State.modLaunch_rstcause (id : Word) (f : Launch → Launch) : (s.modLaunch id f).rstcause = s.rstcause := rfl
@[simp] theorem State.modLaunch_counters (id : Word) (f : Launch → Launch) : (s.modLaunch id f).counters = s.counters := rfl
@[simp] theorem State.modLaunch_sensors (id : Word) (f : Launch → Launch) : (s.modLaunch id f).sensors = s.sensors := rfl
@[simp] theorem State.modLaunch_boot (id : Word) (f : Launch → Launch) : (s.modLaunch id f).boot = s.boot := rfl
@[simp] theorem State.modLaunch_meas (id : Word) (f : Launch → Launch) : (s.modLaunch id f).meas = s.meas := rfl
@[simp] theorem State.modLaunch_measgen (id : Word) (f : Launch → Launch) : (s.modLaunch id f).measgen = s.measgen := rfl
@[simp] theorem State.modLaunch_segCounter (id : Word) (f : Launch → Launch) : (s.modLaunch id f).segCounter = s.segCounter := rfl
@[simp] theorem State.modLaunch_window (id : Word) (f : Launch → Launch) : (s.modLaunch id f).window = s.window := rfl
@[simp] theorem State.modLaunch_sessions (id : Word) (f : Launch → Launch) : (s.modLaunch id f).sessions = s.sessions := rfl
@[simp] theorem State.modLaunch_nextErrs (id : Word) (f : Launch → Launch) : (s.modLaunch id f).nextErrs = s.nextErrs := rfl
@[simp] theorem State.modLaunch_pasts (id : Word) (f : Launch → Launch) : (s.modLaunch id f).pasts = s.pasts := rfl
@[simp] theorem State.modLaunch_pastCtr (id : Word) (f : Launch → Launch) : (s.modLaunch id f).pastCtr = s.pastCtr := rfl
@[simp] theorem State.modLaunch_rels (id : Word) (f : Launch → Launch) : (s.modLaunch id f).rels = s.rels := rfl
@[simp] theorem State.modLaunch_promises (id : Word) (f : Launch → Launch) : (s.modLaunch id f).promises = s.promises := rfl
@[simp] theorem State.modLaunch_heads (id : Word) (f : Launch → Launch) : (s.modLaunch id f).heads = s.heads := rfl
@[simp] theorem State.modLaunch_hdms (id : Word) (f : Launch → Launch) : (s.modLaunch id f).hdms = s.hdms := rfl
@[simp] theorem State.modLaunch_lostWords (id : Word) (f : Launch → Launch) : (s.modLaunch id f).lostWords = s.lostWords := rfl
@[simp] theorem State.modLaunch_passRels (id : Word) (f : Launch → Launch) : (s.modLaunch id f).passRels = s.passRels := rfl
@[simp] theorem State.modLaunch_late (id : Word) (f : Launch → Launch) : (s.modLaunch id f).late = s.late := rfl
@[simp] theorem State.modLaunch_attest (id : Word) (f : Launch → Launch) : (s.modLaunch id f).attest = s.attest := rfl

@[simp] theorem State.write_agenda (pa : Nat) (bs : List Byte) : (s.write pa bs).agenda = s.agenda := rfl
@[simp] theorem State.write_cur (pa : Nat) (bs : List Byte) : (s.write pa bs).cur = s.cur := rfl
@[simp] theorem State.write_freeCtr (pa : Nat) (bs : List Byte) : (s.write pa bs).freeCtr = s.freeCtr := rfl
@[simp] theorem State.write_nextId (pa : Nat) (bs : List Byte) : (s.write pa bs).nextId = s.nextId := rfl
@[simp] theorem State.write_answers (pa : Nat) (bs : List Byte) : (s.write pa bs).answers = s.answers := rfl
@[simp] theorem State.write_gcc (pa : Nat) (bs : List Byte) : (s.write pa bs).gcc = s.gcc := rfl
@[simp] theorem State.write_owners (pa : Nat) (bs : List Byte) : (s.write pa bs).owners = s.owners := rfl
@[simp] theorem State.write_cores (pa : Nat) (bs : List Byte) : (s.write pa bs).cores = s.cores := rfl
@[simp] theorem State.write_dies (pa : Nat) (bs : List Byte) : (s.write pa bs).dies = s.dies := rfl
@[simp] theorem State.write_tenants (pa : Nat) (bs : List Byte) : (s.write pa bs).tenants = s.tenants := rfl
@[simp] theorem State.write_fns (pa : Nat) (bs : List Byte) : (s.write pa bs).fns = s.fns := rfl
@[simp] theorem State.write_ports (pa : Nat) (bs : List Byte) : (s.write pa bs).ports = s.ports := rfl
@[simp] theorem State.write_launches (pa : Nat) (bs : List Byte) : (s.write pa bs).launches = s.launches := rfl
@[simp] theorem State.write_nextLaunch (pa : Nat) (bs : List Byte) : (s.write pa bs).nextLaunch = s.nextLaunch := rfl
@[simp] theorem State.write_reqs (pa : Nat) (bs : List Byte) : (s.write pa bs).reqs = s.reqs := rfl
@[simp] theorem State.write_nxus (pa : Nat) (bs : List Byte) : (s.write pa bs).nxus = s.nxus := rfl
@[simp] theorem State.write_saves (pa : Nat) (bs : List Byte) : (s.write pa bs).saves = s.saves := rfl
@[simp] theorem State.write_images (pa : Nat) (bs : List Byte) : (s.write pa bs).images = s.images := rfl
@[simp] theorem State.write_running (pa : Nat) (bs : List Byte) : (s.write pa bs).running = s.running := rfl
@[simp] theorem State.write_cmdReg (pa : Nat) (bs : List Byte) : (s.write pa bs).cmdReg = s.cmdReg := rfl
@[simp] theorem State.write_sdReg (pa : Nat) (bs : List Byte) : (s.write pa bs).sdReg = s.sdReg := rfl
@[simp] theorem State.write_finReg (pa : Nat) (bs : List Byte) : (s.write pa bs).finReg = s.finReg := rfl
@[simp] theorem State.write_cmdQ (pa : Nat) (bs : List Byte) : (s.write pa bs).cmdQ = s.cmdQ := rfl
@[simp] theorem State.write_sdQ (pa : Nat) (bs : List Byte) : (s.write pa bs).sdQ = s.sdQ := rfl
@[simp] theorem State.write_finQ (pa : Nat) (bs : List Byte) : (s.write pa bs).finQ = s.finQ := rfl
@[simp] theorem State.write_errorLog (pa : Nat) (bs : List Byte) : (s.write pa bs).errorLog = s.errorLog := rfl
@[simp] theorem State.write_stbase (pa : Nat) (bs : List Byte) : (s.write pa bs).stbase = s.stbase := rfl
@[simp] theorem State.write_sc (pa : Nat) (bs : List Byte) : (s.write pa bs).sc = s.sc := rfl
@[simp] theorem State.write_pkgid (pa : Nat) (bs : List Byte) : (s.write pa bs).pkgid = s.pkgid := rfl
@[simp] theorem State.write_cap (pa : Nat) (bs : List Byte) : (s.write pa bs).cap = s.cap := rfl
@[simp] theorem State.write_tlim (pa : Nat) (bs : List Byte) : (s.write pa bs).tlim = s.tlim := rfl
@[simp] theorem State.write_rstcause (pa : Nat) (bs : List Byte) : (s.write pa bs).rstcause = s.rstcause := rfl
@[simp] theorem State.write_counters (pa : Nat) (bs : List Byte) : (s.write pa bs).counters = s.counters := rfl
@[simp] theorem State.write_sensors (pa : Nat) (bs : List Byte) : (s.write pa bs).sensors = s.sensors := rfl
@[simp] theorem State.write_boot (pa : Nat) (bs : List Byte) : (s.write pa bs).boot = s.boot := rfl
@[simp] theorem State.write_meas (pa : Nat) (bs : List Byte) : (s.write pa bs).meas = s.meas := rfl
@[simp] theorem State.write_measgen (pa : Nat) (bs : List Byte) : (s.write pa bs).measgen = s.measgen := rfl
@[simp] theorem State.write_segCounter (pa : Nat) (bs : List Byte) : (s.write pa bs).segCounter = s.segCounter := rfl
@[simp] theorem State.write_window (pa : Nat) (bs : List Byte) : (s.write pa bs).window = s.window := rfl
@[simp] theorem State.write_sessions (pa : Nat) (bs : List Byte) : (s.write pa bs).sessions = s.sessions := rfl
@[simp] theorem State.write_nextErrs (pa : Nat) (bs : List Byte) : (s.write pa bs).nextErrs = s.nextErrs := rfl
@[simp] theorem State.write_pastCtr (pa : Nat) (bs : List Byte) : (s.write pa bs).pastCtr = s.pastCtr := rfl
@[simp] theorem State.write_rels (pa : Nat) (bs : List Byte) : (s.write pa bs).rels = s.rels := rfl
@[simp] theorem State.write_promises (pa : Nat) (bs : List Byte) : (s.write pa bs).promises = s.promises := rfl
@[simp] theorem State.write_hdms (pa : Nat) (bs : List Byte) : (s.write pa bs).hdms = s.hdms := rfl
@[simp] theorem State.write_lostWords (pa : Nat) (bs : List Byte) : (s.write pa bs).lostWords = s.lostWords := rfl
@[simp] theorem State.write_passRels (pa : Nat) (bs : List Byte) : (s.write pa bs).passRels = s.passRels := rfl
@[simp] theorem State.write_late (pa : Nat) (bs : List Byte) : (s.write pa bs).late = s.late := rfl
@[simp] theorem State.write_attest (pa : Nat) (bs : List Byte) : (s.write pa bs).attest = s.attest := rfl

@[simp] theorem State.clear_agenda (pa n : Nat) : (s.clear pa n).agenda = s.agenda := rfl
@[simp] theorem State.clear_cur (pa n : Nat) : (s.clear pa n).cur = s.cur := rfl
@[simp] theorem State.clear_freeCtr (pa n : Nat) : (s.clear pa n).freeCtr = s.freeCtr := rfl
@[simp] theorem State.clear_nextId (pa n : Nat) : (s.clear pa n).nextId = s.nextId := rfl
@[simp] theorem State.clear_answers (pa n : Nat) : (s.clear pa n).answers = s.answers := rfl
@[simp] theorem State.clear_gcc (pa n : Nat) : (s.clear pa n).gcc = s.gcc := rfl
@[simp] theorem State.clear_owners (pa n : Nat) : (s.clear pa n).owners = s.owners := rfl
@[simp] theorem State.clear_cores (pa n : Nat) : (s.clear pa n).cores = s.cores := rfl
@[simp] theorem State.clear_dies (pa n : Nat) : (s.clear pa n).dies = s.dies := rfl
@[simp] theorem State.clear_tenants (pa n : Nat) : (s.clear pa n).tenants = s.tenants := rfl
@[simp] theorem State.clear_fns (pa n : Nat) : (s.clear pa n).fns = s.fns := rfl
@[simp] theorem State.clear_ports (pa n : Nat) : (s.clear pa n).ports = s.ports := rfl
@[simp] theorem State.clear_launches (pa n : Nat) : (s.clear pa n).launches = s.launches := rfl
@[simp] theorem State.clear_nextLaunch (pa n : Nat) : (s.clear pa n).nextLaunch = s.nextLaunch := rfl
@[simp] theorem State.clear_reqs (pa n : Nat) : (s.clear pa n).reqs = s.reqs := rfl
@[simp] theorem State.clear_nxus (pa n : Nat) : (s.clear pa n).nxus = s.nxus := rfl
@[simp] theorem State.clear_saves (pa n : Nat) : (s.clear pa n).saves = s.saves := rfl
@[simp] theorem State.clear_images (pa n : Nat) : (s.clear pa n).images = s.images := rfl
@[simp] theorem State.clear_running (pa n : Nat) : (s.clear pa n).running = s.running := rfl
@[simp] theorem State.clear_cmdReg (pa n : Nat) : (s.clear pa n).cmdReg = s.cmdReg := rfl
@[simp] theorem State.clear_sdReg (pa n : Nat) : (s.clear pa n).sdReg = s.sdReg := rfl
@[simp] theorem State.clear_finReg (pa n : Nat) : (s.clear pa n).finReg = s.finReg := rfl
@[simp] theorem State.clear_cmdQ (pa n : Nat) : (s.clear pa n).cmdQ = s.cmdQ := rfl
@[simp] theorem State.clear_sdQ (pa n : Nat) : (s.clear pa n).sdQ = s.sdQ := rfl
@[simp] theorem State.clear_finQ (pa n : Nat) : (s.clear pa n).finQ = s.finQ := rfl
@[simp] theorem State.clear_errorLog (pa n : Nat) : (s.clear pa n).errorLog = s.errorLog := rfl
@[simp] theorem State.clear_stbase (pa n : Nat) : (s.clear pa n).stbase = s.stbase := rfl
@[simp] theorem State.clear_sc (pa n : Nat) : (s.clear pa n).sc = s.sc := rfl
@[simp] theorem State.clear_pkgid (pa n : Nat) : (s.clear pa n).pkgid = s.pkgid := rfl
@[simp] theorem State.clear_cap (pa n : Nat) : (s.clear pa n).cap = s.cap := rfl
@[simp] theorem State.clear_tlim (pa n : Nat) : (s.clear pa n).tlim = s.tlim := rfl
@[simp] theorem State.clear_rstcause (pa n : Nat) : (s.clear pa n).rstcause = s.rstcause := rfl
@[simp] theorem State.clear_counters (pa n : Nat) : (s.clear pa n).counters = s.counters := rfl
@[simp] theorem State.clear_sensors (pa n : Nat) : (s.clear pa n).sensors = s.sensors := rfl
@[simp] theorem State.clear_boot (pa n : Nat) : (s.clear pa n).boot = s.boot := rfl
@[simp] theorem State.clear_meas (pa n : Nat) : (s.clear pa n).meas = s.meas := rfl
@[simp] theorem State.clear_measgen (pa n : Nat) : (s.clear pa n).measgen = s.measgen := rfl
@[simp] theorem State.clear_segCounter (pa n : Nat) : (s.clear pa n).segCounter = s.segCounter := rfl
@[simp] theorem State.clear_window (pa n : Nat) : (s.clear pa n).window = s.window := rfl
@[simp] theorem State.clear_sessions (pa n : Nat) : (s.clear pa n).sessions = s.sessions := rfl
@[simp] theorem State.clear_nextErrs (pa n : Nat) : (s.clear pa n).nextErrs = s.nextErrs := rfl
@[simp] theorem State.clear_pastCtr (pa n : Nat) : (s.clear pa n).pastCtr = s.pastCtr := rfl
@[simp] theorem State.clear_promises (pa n : Nat) : (s.clear pa n).promises = s.promises := rfl
@[simp] theorem State.clear_hdms (pa n : Nat) : (s.clear pa n).hdms = s.hdms := rfl
@[simp] theorem State.clear_lostWords (pa n : Nat) : (s.clear pa n).lostWords = s.lostWords := rfl
@[simp] theorem State.clear_passRels (pa n : Nat) : (s.clear pa n).passRels = s.passRels := rfl
@[simp] theorem State.clear_late (pa n : Nat) : (s.clear pa n).late = s.late := rfl
@[simp] theorem State.clear_attest (pa n : Nat) : (s.clear pa n).attest = s.attest := rfl

@[simp] theorem State.count_agenda (c n : Nat) : (s.count c n).agenda = s.agenda := rfl
@[simp] theorem State.count_cur (c n : Nat) : (s.count c n).cur = s.cur := rfl
@[simp] theorem State.count_freeCtr (c n : Nat) : (s.count c n).freeCtr = s.freeCtr := rfl
@[simp] theorem State.count_nextId (c n : Nat) : (s.count c n).nextId = s.nextId := rfl
@[simp] theorem State.count_answers (c n : Nat) : (s.count c n).answers = s.answers := rfl
@[simp] theorem State.count_gcc (c n : Nat) : (s.count c n).gcc = s.gcc := rfl
@[simp] theorem State.count_mem (c n : Nat) : (s.count c n).mem = s.mem := rfl
@[simp] theorem State.count_poison (c n : Nat) : (s.count c n).poison = s.poison := rfl
@[simp] theorem State.count_owners (c n : Nat) : (s.count c n).owners = s.owners := rfl
@[simp] theorem State.count_cores (c n : Nat) : (s.count c n).cores = s.cores := rfl
@[simp] theorem State.count_dies (c n : Nat) : (s.count c n).dies = s.dies := rfl
@[simp] theorem State.count_tenants (c n : Nat) : (s.count c n).tenants = s.tenants := rfl
@[simp] theorem State.count_fns (c n : Nat) : (s.count c n).fns = s.fns := rfl
@[simp] theorem State.count_ports (c n : Nat) : (s.count c n).ports = s.ports := rfl
@[simp] theorem State.count_launches (c n : Nat) : (s.count c n).launches = s.launches := rfl
@[simp] theorem State.count_nextLaunch (c n : Nat) : (s.count c n).nextLaunch = s.nextLaunch := rfl
@[simp] theorem State.count_reqs (c n : Nat) : (s.count c n).reqs = s.reqs := rfl
@[simp] theorem State.count_nxus (c n : Nat) : (s.count c n).nxus = s.nxus := rfl
@[simp] theorem State.count_saves (c n : Nat) : (s.count c n).saves = s.saves := rfl
@[simp] theorem State.count_images (c n : Nat) : (s.count c n).images = s.images := rfl
@[simp] theorem State.count_running (c n : Nat) : (s.count c n).running = s.running := rfl
@[simp] theorem State.count_cmdReg (c n : Nat) : (s.count c n).cmdReg = s.cmdReg := rfl
@[simp] theorem State.count_sdReg (c n : Nat) : (s.count c n).sdReg = s.sdReg := rfl
@[simp] theorem State.count_finReg (c n : Nat) : (s.count c n).finReg = s.finReg := rfl
@[simp] theorem State.count_cmdQ (c n : Nat) : (s.count c n).cmdQ = s.cmdQ := rfl
@[simp] theorem State.count_sdQ (c n : Nat) : (s.count c n).sdQ = s.sdQ := rfl
@[simp] theorem State.count_finQ (c n : Nat) : (s.count c n).finQ = s.finQ := rfl
@[simp] theorem State.count_errorLog (c n : Nat) : (s.count c n).errorLog = s.errorLog := rfl
@[simp] theorem State.count_stbase (c n : Nat) : (s.count c n).stbase = s.stbase := rfl
@[simp] theorem State.count_sc (c n : Nat) : (s.count c n).sc = s.sc := rfl
@[simp] theorem State.count_pkgid (c n : Nat) : (s.count c n).pkgid = s.pkgid := rfl
@[simp] theorem State.count_cap (c n : Nat) : (s.count c n).cap = s.cap := rfl
@[simp] theorem State.count_tlim (c n : Nat) : (s.count c n).tlim = s.tlim := rfl
@[simp] theorem State.count_rstcause (c n : Nat) : (s.count c n).rstcause = s.rstcause := rfl
@[simp] theorem State.count_sensors (c n : Nat) : (s.count c n).sensors = s.sensors := rfl
@[simp] theorem State.count_boot (c n : Nat) : (s.count c n).boot = s.boot := rfl
@[simp] theorem State.count_meas (c n : Nat) : (s.count c n).meas = s.meas := rfl
@[simp] theorem State.count_measgen (c n : Nat) : (s.count c n).measgen = s.measgen := rfl
@[simp] theorem State.count_segCounter (c n : Nat) : (s.count c n).segCounter = s.segCounter := rfl
@[simp] theorem State.count_window (c n : Nat) : (s.count c n).window = s.window := rfl
@[simp] theorem State.count_sessions (c n : Nat) : (s.count c n).sessions = s.sessions := rfl
@[simp] theorem State.count_nextErrs (c n : Nat) : (s.count c n).nextErrs = s.nextErrs := rfl
@[simp] theorem State.count_pasts (c n : Nat) : (s.count c n).pasts = s.pasts := rfl
@[simp] theorem State.count_pastCtr (c n : Nat) : (s.count c n).pastCtr = s.pastCtr := rfl
@[simp] theorem State.count_rels (c n : Nat) : (s.count c n).rels = s.rels := rfl
@[simp] theorem State.count_promises (c n : Nat) : (s.count c n).promises = s.promises := rfl
@[simp] theorem State.count_heads (c n : Nat) : (s.count c n).heads = s.heads := rfl
@[simp] theorem State.count_hdms (c n : Nat) : (s.count c n).hdms = s.hdms := rfl
@[simp] theorem State.count_lostWords (c n : Nat) : (s.count c n).lostWords = s.lostWords := rfl
@[simp] theorem State.count_passRels (c n : Nat) : (s.count c n).passRels = s.passRels := rfl
@[simp] theorem State.count_late (c n : Nat) : (s.count c n).late = s.late := rfl
@[simp] theorem State.count_attest (c n : Nat) : (s.count c n).attest = s.attest := rfl

@[simp] theorem State.put_agenda (pa : Nat) (bs : List Byte) : (s.put pa bs).agenda = s.agenda := rfl
@[simp] theorem State.put_cur (pa : Nat) (bs : List Byte) : (s.put pa bs).cur = s.cur := rfl
@[simp] theorem State.put_freeCtr (pa : Nat) (bs : List Byte) : (s.put pa bs).freeCtr = s.freeCtr := rfl
@[simp] theorem State.put_nextId (pa : Nat) (bs : List Byte) : (s.put pa bs).nextId = s.nextId := rfl
@[simp] theorem State.put_answers (pa : Nat) (bs : List Byte) : (s.put pa bs).answers = s.answers := rfl
@[simp] theorem State.put_nextErrs (pa : Nat) (bs : List Byte) : (s.put pa bs).nextErrs = s.nextErrs := rfl
@[simp] theorem State.put_gcc (pa : Nat) (bs : List Byte) : (s.put pa bs).gcc = s.gcc := rfl
@[simp] theorem State.put_pasts (pa : Nat) (bs : List Byte) : (s.put pa bs).pasts = s.pasts := rfl
@[simp] theorem State.put_pastCtr (pa : Nat) (bs : List Byte) : (s.put pa bs).pastCtr = s.pastCtr := rfl
@[simp] theorem State.put_rels (pa : Nat) (bs : List Byte) : (s.put pa bs).rels = s.rels := rfl
@[simp] theorem State.put_promises (pa : Nat) (bs : List Byte) : (s.put pa bs).promises = s.promises := rfl
@[simp] theorem State.put_heads (pa : Nat) (bs : List Byte) : (s.put pa bs).heads = s.heads := rfl
@[simp] theorem State.put_owners (pa : Nat) (bs : List Byte) : (s.put pa bs).owners = s.owners := rfl
@[simp] theorem State.put_cores (pa : Nat) (bs : List Byte) : (s.put pa bs).cores = s.cores := rfl
@[simp] theorem State.put_dies (pa : Nat) (bs : List Byte) : (s.put pa bs).dies = s.dies := rfl
@[simp] theorem State.put_tenants (pa : Nat) (bs : List Byte) : (s.put pa bs).tenants = s.tenants := rfl
@[simp] theorem State.put_fns (pa : Nat) (bs : List Byte) : (s.put pa bs).fns = s.fns := rfl
@[simp] theorem State.put_ports (pa : Nat) (bs : List Byte) : (s.put pa bs).ports = s.ports := rfl
@[simp] theorem State.put_hdms (pa : Nat) (bs : List Byte) : (s.put pa bs).hdms = s.hdms := rfl
@[simp] theorem State.put_launches (pa : Nat) (bs : List Byte) : (s.put pa bs).launches = s.launches := rfl
@[simp] theorem State.put_nextLaunch (pa : Nat) (bs : List Byte) : (s.put pa bs).nextLaunch = s.nextLaunch := rfl
@[simp] theorem State.put_lostWords (pa : Nat) (bs : List Byte) : (s.put pa bs).lostWords = s.lostWords := rfl
@[simp] theorem State.put_passRels (pa : Nat) (bs : List Byte) : (s.put pa bs).passRels = s.passRels := rfl
@[simp] theorem State.put_reqs (pa : Nat) (bs : List Byte) : (s.put pa bs).reqs = s.reqs := rfl
@[simp] theorem State.put_nxus (pa : Nat) (bs : List Byte) : (s.put pa bs).nxus = s.nxus := rfl
@[simp] theorem State.put_saves (pa : Nat) (bs : List Byte) : (s.put pa bs).saves = s.saves := rfl
@[simp] theorem State.put_images (pa : Nat) (bs : List Byte) : (s.put pa bs).images = s.images := rfl
@[simp] theorem State.put_running (pa : Nat) (bs : List Byte) : (s.put pa bs).running = s.running := rfl
@[simp] theorem State.put_cmdReg (pa : Nat) (bs : List Byte) : (s.put pa bs).cmdReg = s.cmdReg := rfl
@[simp] theorem State.put_sdReg (pa : Nat) (bs : List Byte) : (s.put pa bs).sdReg = s.sdReg := rfl
@[simp] theorem State.put_finReg (pa : Nat) (bs : List Byte) : (s.put pa bs).finReg = s.finReg := rfl
@[simp] theorem State.put_cmdQ (pa : Nat) (bs : List Byte) : (s.put pa bs).cmdQ = s.cmdQ := rfl
@[simp] theorem State.put_sdQ (pa : Nat) (bs : List Byte) : (s.put pa bs).sdQ = s.sdQ := rfl
@[simp] theorem State.put_finQ (pa : Nat) (bs : List Byte) : (s.put pa bs).finQ = s.finQ := rfl
@[simp] theorem State.put_late (pa : Nat) (bs : List Byte) : (s.put pa bs).late = s.late := rfl
@[simp] theorem State.put_errorLog (pa : Nat) (bs : List Byte) : (s.put pa bs).errorLog = s.errorLog := rfl
@[simp] theorem State.put_stbase (pa : Nat) (bs : List Byte) : (s.put pa bs).stbase = s.stbase := rfl
@[simp] theorem State.put_sc (pa : Nat) (bs : List Byte) : (s.put pa bs).sc = s.sc := rfl
@[simp] theorem State.put_pkgid (pa : Nat) (bs : List Byte) : (s.put pa bs).pkgid = s.pkgid := rfl
@[simp] theorem State.put_cap (pa : Nat) (bs : List Byte) : (s.put pa bs).cap = s.cap := rfl
@[simp] theorem State.put_tlim (pa : Nat) (bs : List Byte) : (s.put pa bs).tlim = s.tlim := rfl
@[simp] theorem State.put_rstcause (pa : Nat) (bs : List Byte) : (s.put pa bs).rstcause = s.rstcause := rfl
@[simp] theorem State.put_counters (pa : Nat) (bs : List Byte) : (s.put pa bs).counters = s.counters := rfl
@[simp] theorem State.put_sensors (pa : Nat) (bs : List Byte) : (s.put pa bs).sensors = s.sensors := rfl
@[simp] theorem State.put_boot (pa : Nat) (bs : List Byte) : (s.put pa bs).boot = s.boot := rfl
@[simp] theorem State.put_attest (pa : Nat) (bs : List Byte) : (s.put pa bs).attest = s.attest := rfl
@[simp] theorem State.put_meas (pa : Nat) (bs : List Byte) : (s.put pa bs).meas = s.meas := rfl
@[simp] theorem State.put_measgen (pa : Nat) (bs : List Byte) : (s.put pa bs).measgen = s.measgen := rfl
@[simp] theorem State.put_segCounter (pa : Nat) (bs : List Byte) : (s.put pa bs).segCounter = s.segCounter := rfl
@[simp] theorem State.put_window (pa : Nat) (bs : List Byte) : (s.put pa bs).window = s.window := rfl
@[simp] theorem State.put_sessions (pa : Nat) (bs : List Byte) : (s.put pa bs).sessions = s.sessions := rfl

@[simp] theorem State.forget_agenda (pa n : Nat) : (s.forget pa n).agenda = s.agenda := rfl
@[simp] theorem State.forget_cur (pa n : Nat) : (s.forget pa n).cur = s.cur := rfl
@[simp] theorem State.forget_freeCtr (pa n : Nat) : (s.forget pa n).freeCtr = s.freeCtr := rfl
@[simp] theorem State.forget_nextId (pa n : Nat) : (s.forget pa n).nextId = s.nextId := rfl
@[simp] theorem State.forget_answers (pa n : Nat) : (s.forget pa n).answers = s.answers := rfl
@[simp] theorem State.forget_nextErrs (pa n : Nat) : (s.forget pa n).nextErrs = s.nextErrs := rfl
@[simp] theorem State.forget_gcc (pa n : Nat) : (s.forget pa n).gcc = s.gcc := rfl
@[simp] theorem State.forget_mem (pa n : Nat) : (s.forget pa n).mem = s.mem := rfl
@[simp] theorem State.forget_poison (pa n : Nat) : (s.forget pa n).poison = s.poison := rfl
@[simp] theorem State.forget_pastCtr (pa n : Nat) : (s.forget pa n).pastCtr = s.pastCtr := rfl
@[simp] theorem State.forget_rels (pa n : Nat) : (s.forget pa n).rels = s.rels := rfl
@[simp] theorem State.forget_promises (pa n : Nat) : (s.forget pa n).promises = s.promises := rfl
@[simp] theorem State.forget_owners (pa n : Nat) : (s.forget pa n).owners = s.owners := rfl
@[simp] theorem State.forget_cores (pa n : Nat) : (s.forget pa n).cores = s.cores := rfl
@[simp] theorem State.forget_dies (pa n : Nat) : (s.forget pa n).dies = s.dies := rfl
@[simp] theorem State.forget_tenants (pa n : Nat) : (s.forget pa n).tenants = s.tenants := rfl
@[simp] theorem State.forget_fns (pa n : Nat) : (s.forget pa n).fns = s.fns := rfl
@[simp] theorem State.forget_ports (pa n : Nat) : (s.forget pa n).ports = s.ports := rfl
@[simp] theorem State.forget_hdms (pa n : Nat) : (s.forget pa n).hdms = s.hdms := rfl
@[simp] theorem State.forget_launches (pa n : Nat) : (s.forget pa n).launches = s.launches := rfl
@[simp] theorem State.forget_nextLaunch (pa n : Nat) : (s.forget pa n).nextLaunch = s.nextLaunch := rfl
@[simp] theorem State.forget_lostWords (pa n : Nat) : (s.forget pa n).lostWords = s.lostWords := rfl
@[simp] theorem State.forget_passRels (pa n : Nat) : (s.forget pa n).passRels = s.passRels := rfl
@[simp] theorem State.forget_reqs (pa n : Nat) : (s.forget pa n).reqs = s.reqs := rfl
@[simp] theorem State.forget_nxus (pa n : Nat) : (s.forget pa n).nxus = s.nxus := rfl
@[simp] theorem State.forget_saves (pa n : Nat) : (s.forget pa n).saves = s.saves := rfl
@[simp] theorem State.forget_images (pa n : Nat) : (s.forget pa n).images = s.images := rfl
@[simp] theorem State.forget_running (pa n : Nat) : (s.forget pa n).running = s.running := rfl
@[simp] theorem State.forget_cmdReg (pa n : Nat) : (s.forget pa n).cmdReg = s.cmdReg := rfl
@[simp] theorem State.forget_sdReg (pa n : Nat) : (s.forget pa n).sdReg = s.sdReg := rfl
@[simp] theorem State.forget_finReg (pa n : Nat) : (s.forget pa n).finReg = s.finReg := rfl
@[simp] theorem State.forget_cmdQ (pa n : Nat) : (s.forget pa n).cmdQ = s.cmdQ := rfl
@[simp] theorem State.forget_sdQ (pa n : Nat) : (s.forget pa n).sdQ = s.sdQ := rfl
@[simp] theorem State.forget_finQ (pa n : Nat) : (s.forget pa n).finQ = s.finQ := rfl
@[simp] theorem State.forget_late (pa n : Nat) : (s.forget pa n).late = s.late := rfl
@[simp] theorem State.forget_errorLog (pa n : Nat) : (s.forget pa n).errorLog = s.errorLog := rfl
@[simp] theorem State.forget_stbase (pa n : Nat) : (s.forget pa n).stbase = s.stbase := rfl
@[simp] theorem State.forget_sc (pa n : Nat) : (s.forget pa n).sc = s.sc := rfl
@[simp] theorem State.forget_pkgid (pa n : Nat) : (s.forget pa n).pkgid = s.pkgid := rfl
@[simp] theorem State.forget_cap (pa n : Nat) : (s.forget pa n).cap = s.cap := rfl
@[simp] theorem State.forget_tlim (pa n : Nat) : (s.forget pa n).tlim = s.tlim := rfl
@[simp] theorem State.forget_rstcause (pa n : Nat) : (s.forget pa n).rstcause = s.rstcause := rfl
@[simp] theorem State.forget_counters (pa n : Nat) : (s.forget pa n).counters = s.counters := rfl
@[simp] theorem State.forget_sensors (pa n : Nat) : (s.forget pa n).sensors = s.sensors := rfl
@[simp] theorem State.forget_boot (pa n : Nat) : (s.forget pa n).boot = s.boot := rfl
@[simp] theorem State.forget_attest (pa n : Nat) : (s.forget pa n).attest = s.attest := rfl
@[simp] theorem State.forget_meas (pa n : Nat) : (s.forget pa n).meas = s.meas := rfl
@[simp] theorem State.forget_measgen (pa n : Nat) : (s.forget pa n).measgen = s.measgen := rfl
@[simp] theorem State.forget_segCounter (pa n : Nat) : (s.forget pa n).segCounter = s.segCounter := rfl
@[simp] theorem State.forget_window (pa n : Nat) : (s.forget pa n).window = s.window := rfl
@[simp] theorem State.forget_sessions (pa n : Nat) : (s.forget pa n).sessions = s.sessions := rfl

/-! ### Reading cores and contexts -/

theorem toNat_ne {w : Nat} {a b : BitVec w} (h : a ≠ b) : a.toNat ≠ b.toNat := fun e => h (BitVec.eq_of_toNat_eq e)

@[simp] theorem State.core_setCore (k : CoreId) (x : Core) : (s.setCore k x).core k = x := aget_ains_same _ _ _ _

theorem State.core_setCore_ne {k j : CoreId} (x : Core) (h : j ≠ k) : (s.setCore k x).core j = s.core j :=
  aget_ains_ne _ _ _ (toNat_ne h)

@[simp] theorem State.core_modCore (k : CoreId) (f : Core → Core) : (s.modCore k f).core k = f (s.core k) :=
  s.core_setCore k _

theorem State.core_modCore_ne {k j : CoreId} (f : Core → Core) (h : j ≠ k) : (s.modCore k f).core j = s.core j :=
  s.core_setCore_ne _ h

@[simp] theorem Core.ctx_setCtx (x : Core) (c : CtxId) (y : Ctx) : (x.setCtx c y).ctx c = y := aget_ains_same _ _ _ _

theorem Core.ctx_setCtx_ne (x : Core) {c d : CtxId} (y : Ctx) (h : d ≠ c) : (x.setCtx c y).ctx d = x.ctx d :=
  aget_ains_ne _ _ _ (toNat_ne h)

@[simp] theorem State.ctx_modCtx (k : CoreId) (c : CtxId) (f : Ctx → Ctx) : (s.modCtx k c f).ctx k c = f (s.ctx k c) := by
  simp [State.modCtx, State.setCtx, State.ctx]

theorem State.ctx_modCtx_ctx {k j : CoreId} {c d : CtxId} (f : Ctx → Ctx) (h : (j, d) ≠ (k, c)) :
    (s.modCtx k c f).ctx j d = s.ctx j d := by
  by_cases hj : j = k
  · subst hj
    have hd : d ≠ c := fun e => h (by rw [e])
    simp [State.modCtx, State.setCtx, State.ctx, Core.ctx_setCtx_ne _ _ hd]
  · simp [State.modCtx, State.setCtx, State.ctx, State.core_modCore_ne _ _ hj]

@[simp] theorem State.me_modMe (f : Ctx → Ctx) : (s.modMe f).me = f s.me := s.ctx_modCtx _ _ f

@[simp] theorem State.here_modHere (f : Core → Core) : (s.modHere f).here = f s.here := s.core_modCore _ f

/-- Changing a context changes nothing else of its core. -/
theorem State.core_modCtx (k : CoreId) (c : CtxId) (f : Ctx → Ctx) :
    (s.modCtx k c f).core k = (s.core k).setCtx c (f (s.ctx k c)) := s.core_modCore k _

theorem State.core_modCtx_ne {k j : CoreId} (c : CtxId) (f : Ctx → Ctx) (h : j ≠ k) :
    (s.modCtx k c f).core j = s.core j := s.core_modCore_ne _ h

@[simp] theorem State.here_modMe (f : Ctx → Ctx) : (s.modMe f).here = s.here.setCtx s.cur.2 (f s.me) :=
  s.core_modCtx _ _ f

@[simp] theorem State.tenant_modTenant (t : Tenant) (f : TenantSt → TenantSt) :
    (s.modTenant t f).tenant t = f (s.tenant t) := aget_ains_same _ _ _ _

theorem State.tenant_modTenant_ne {t u : Tenant} (f : TenantSt → TenantSt) (h : u ≠ t) :
    (s.modTenant t f).tenant u = s.tenant u := aget_ains_ne _ _ _ (toNat_ne h)

@[simp] theorem State.die_modDie (d : DieId) (f : Die → Die) : (s.modDie d f).die d = f (s.die d) := aget_ains_same _ _ _ _

theorem State.die_modDie_ne {d e : DieId} (f : Die → Die) (h : e ≠ d) : (s.modDie d f).die e = s.die e :=
  aget_ains_ne _ _ _ (toNat_ne h)

@[simp] theorem State.port_modPort (p : Port) (f : RillPort → RillPort) : (s.modPort p f).port p = f (s.port p) :=
  aget_ains_same _ _ _ _

@[simp] theorem State.fn_modFn (n : Fn) (f : FnSt → FnSt) : (s.modFn n f).fn n = f (s.fn n) := aget_ains_same _ _ _ _

end Sys2Proof.Machine
end

