-- ==== Sys2Proof/Laws/Plan.lean ====
section
/-! SUPPORT. What becomes of a plan, said once: it waits, faults, asks or commits; and the empty plan. -/
namespace Sys2Proof.Machine

theorem runPlan_commits {n : Nat} {p : Plan} {s : State} (hf : p.freezes s = false) (hh : p.held = false)
    (hc : p.checks s = .ok) : runPlan n p s = .next (p.apply s).finish := by
  simp [runPlan, hf, hh, hc]

theorem runPlan_waits {n : Nat} {p : Plan} {s : State} (hf : p.freezes s = true) : runPlan n p s = .next s := by
  simp [runPlan, hf]

theorem runPlan_held {n : Nat} {p : Plan} {s : State} (hh : p.held = true) : runPlan n p s = .next s := by
  simp [runPlan, hh]

/-- A fault is taken at once, unless it would hold a context to which something in flight is outstanding. -/
theorem runPlan_faults {n : Nat} {p : Plan} {s : State} {f : FaultInfo} (hf : p.freezes s = false)
    (hh : p.held = false) (hc : p.checks s = .fault f) (hb : (s.me.wouldHold f && s.me.holdsBack) = false) :
    runPlan n p s = .next (s.takeFault s.cur.1 s.cur.2 { f with slot := BitVec.ofNat 8 n }) := by
  simp [runPlan, hf, hh, hc, hb]

/-- Everything an operation on its own can answer. -/
theorem runPlan_cases (n : Nat) (p : Plan) (s : State) :
    runPlan n p s = .next s ∨ (∃ f, runPlan n p s = .next (s.takeFault s.cur.1 s.cur.2 f)) ∨
      runPlan n p s = .next (p.apply s).finish ∨ ∃ c, runPlan n p s = .next (s.await c) := by
  unfold runPlan
  split
  · exact .inl rfl
  · split
    · split
      · exact .inl rfl
      · exact .inr (.inl ⟨_, rfl⟩)
    · exact .inr (.inr (.inl rfl))
    · exact .inr (.inr (.inr ⟨_, rfl⟩))

/-- An operation on its own always answers a next state. -/
theorem runPlan_next (n : Nat) (p : Plan) (s : State) : ∃ t, runPlan n p s = .next t := by
  rcases runPlan_cases n p s with h | ⟨_, h⟩ | h | ⟨_, h⟩ <;> exact ⟨_, h⟩

@[simp] theorem guardHolds_nil (x : Core) : x.guardHolds [] = false := by
  simp [Core.guardHolds]

@[simp] theorem guardOwes_nil (s : State) (k : CoreId) : s.guardOwes k [] = false := rfl

@[simp] theorem Check.and_ok (c : Check) : Check.and .ok c = c := rfl

@[simp] theorem Check.and_fault (f : FaultInfo) (c : Check) : Check.and (.fault f) c = .fault f := rfl

@[simp] theorem illegalIf_false : illegalIf false = .ok := rfl

@[simp] theorem illegalIf_true : illegalIf true = .fault { code := 0x02 } := rfl

@[simp] theorem gplan_true {g : Guard} {s : State} {f : Ctx → Plan} (h : performs g s.me = true) :
    gplan g s f = (f s.me).reading (rP g.pred) := by simp [gplan, h]

@[simp] theorem gplan_false {g : Guard} {s : State} {f : Ctx → Plan} (h : performs g s.me = false) :
    gplan g s f = ({} : Plan).reading (rP g.pred) := by simp [gplan, h]

@[simp] theorem popped_nil (x : Core) : popped x [] = [] := rfl

@[simp] theorem consumeAll_nil (s : State) : s.consumeAll [] [] = s := by simp [State.consumeAll]

/-- The empty plan commits and changes nothing of its own. -/
theorem runPlan_empty (n : Nat) (s : State) : runPlan n {} s = .next s.finish := by
  simp [runPlan, Plan.freezes, Plan.checks, Plan.popCheck, Plan.poisonCheck, Plan.poisonedPop, faultIf, Plan.apply,
    State.storeLocal, State.popAll]

/-- A plan without pops, stores, works and touched bytes: only its sources can hold it back. -/
theorem freezes_reads {p : Plan} {s : State} (h1 : p.frozen = false) (h2 : p.works = []) (h3 : p.pops = [])
    (h4 : p.touch = []) : p.freezes s = p.reads.any fun r => s.me.awaits r.1 := by
  simp [Plan.freezes, h1, h2, h3, h4]

theorem checks_reads {p : Plan} {s : State} (h3 : p.pops = []) :
    p.checks s = p.check.and (p.poisonCheck s) := by
  simp [Plan.checks, Plan.popCheck, h3, faultIf]
  cases p.check <;> rfl

end Sys2Proof.Machine
end

