-- ==== Sys2Proof/Laws/Step.lean ====
section
/-! SUPPORT. What a step does with its agenda. -/
namespace Sys2Proof.Machine

theorem step_agenda {s : State} {i : Instr} {r : List Instr} (h : s.agenda = i :: r) :
    step s = exec i { s with agenda := r } := by
  simp [step, h]

theorem step_round {s : State} (h : s.agenda = []) : step s = firstEnabled s s.candidates := by
  simp [step, h]

/-- An event that may be impossible answers a next state, or the fault that says so. -/
theorem enabled_cases (o : Option State) : enabled o = .fault .notEnabled ∨ ∃ t, o = some t ∧ enabled o = .next t := by
  cases o with
  | none => exact .inl rfl
  | some t => exact .inr ⟨t, rfl, rfl⟩

theorem enabled_next {o : Option State} {t : State} (h : enabled o = .next t) : o = some t := by
  cases o with
  | none => simp [enabled] at h
  | some u => simp [enabled] at h; rw [h]

end Sys2Proof.Machine
end

