-- ==== Sys2Proof/Tests/Slice0.lean ====
section
/-! SUPPORT. The model's own tests: states that meet the hypotheses of the statements (witness_…), and small checks whose
results stand in the spec's tables and worked examples (test_…). -/
namespace Sys2Proof.Tests

open Machine

set_option Elab.async false
set_option maxRecDepth 100000

/-- A segment of one code block at 0x400, with one jump target. -/
def seg0 : Seg := { codeOff := 0x400, codeLen := 0x400, ntgt := 1, sphi := 0x600000 }

/-- A running context of launch 1 that owns every cluster. s20 holds 0x40000000, an address of the accumulator store, and
a5 too; s21 holds 64. -/
def x0 : Ctx :=
  { run := .running, runId := 1, launch := 1, pc := 0x400, npc := 0x410, seg := seg0, segOk := true, begun := true,
    blocks := [0], clmask := 0xFF, scal := [(19, 1), (20, 0x40000000), (21, 64)], areg := [(5, 0x40000000), (6, 0x400)],
    works := [(0, 3)], nests := [(1, 1#512 <<< 498)] }

/-- A persistent co-resident launch of 16 units. -/
def l0 : Launch :=
  { id := 1, die := 0, tenant := 0, queue := 0, recordVa := 0, record := BitVec.ofNat 512 (3 * 2 ^ 117 + 16 * 2 ^ 128 + 2 ^ 200 - 2 ^ 192 + 2 ^ 256)
    pass := none, passNo := 0, phase := .admitted, started := true, status := 0, faulted := [], predLost := 0, doneLost := false
    next := 0, sel := none, members := [(0, 0)], startedCores := [0], dealStop := [], tick := 0, p := 0, reads := []
    readsAll := [], unattr := false, holding := [], finished := [], lastDie := 0, dealTick := 0, dealBase := 0, dealKey := 0
    badSave := false }

/-- The core: owned by tenant 0, with two pages of 1 GiB, one of DRAM and one of the accumulator stores. -/
def y0 (x : Ctx) : Core :=
  { v := true, tlb := [⟨0, 30, 0x40000000, true, true, true⟩, ⟨0x40000000, 30, 0x020000000000, true, true, false⟩]
    ctxs := [(0, x)] }

/-- A state in which context 0 of core 0 runs. -/
def s0 (x : Ctx) : State :=
  { State.reset with
    mem := [(0x40000045, 4)]
    owners := [(512, 0)]
    launches := [l0]
    cores := [(0, y0 x)]
    dies := [(0, { queues := [(3, { en := true, dev := true, log2n := 4 })] })] }

def g0 : Guard := ⟨0, false⟩
def h0 : VHead := ⟨0, 0⟩
def mma0 : MmaArgs := ⟨0, 0, .dflt, 0, false, 0, ⟨1, true⟩, ⟨2, true⟩⟩
def row0 : RowArgs := ⟨0, 0, ⟨1, true⟩, 0⟩
def cpy0 : CpyArgs := ⟨0, 0, 0, 0, ⟨1, true⟩, 0⟩
def amo0 : AmoArgs := ⟨22, 5, 21, .ar, .pkg, 0⟩
def push0 : PushArgs := ⟨0, 3, 0, 200, 0⟩
def stg0 : StgArgs := ⟨0, 0, 1, 0, 0⟩

/-- An op word of format S, as R116 lays it out. -/
def fS (opc d a b imm : Nat) : BitVec 48 := BitVec.ofNat 48 (opc * 2 ^ 40 + d * 2 ^ 28 + a * 2 ^ 22 + b * 2 ^ 16 + imm)
/-- The same with E set. -/
def fSE (opc d a b imm : Nat) : BitVec 48 := BitVec.ofNat 48 (opc * 2 ^ 40 + 2 ^ 34 + d * 2 ^ 28 + a * 2 ^ 22 + b * 2 ^ 16 + imm)
/-- An op word of format V, as R117 lays it out; E is bit 36. -/
def fV (opc vd va vb vc : Nat) : BitVec 48 := BitVec.ofNat 48 (opc * 2 ^ 40 + vd * 2 ^ 27 + va * 2 ^ 18 + vb * 2 ^ 9 + vc)
def fVE (opc vd va vb vc : Nat) : BitVec 48 := BitVec.ofNat 48 (opc * 2 ^ 40 + 2 ^ 36 + vd * 2 ^ 27 + va * 2 ^ 18 + vb * 2 ^ 9 + vc)

/-- A word of every operation: its slot, its op word by the fields of R116 and R117 with the opcodes of R126 to R131, its
extension word, and what it stands for. Cluster 0's slots are 6 (VA), 8 (VX) and 9 (VM). -/
def words1 : List (Nat × BitVec 48 × Word × Instr) :=
  [(0, 0, 0, .nop .s), (6, fV 0x04 4 1 2 0, 0, .fadd h0 .f32 .rne 4 (.v 1) (.v 2)),
    (6, fV 0x09 4 1 405 1, 0, .fsub h0 .f16 .rtz 4 (.v 1) (.s 21)), (6, fV 0x0E 4 1 322 2, 0, .fmul h0 .bf16 .rup 4 (.v 1) .lane),
    (6, fV 0x10 4 1 2 3, 0, .fma h0 .f32 none 4 (.v 1) (.v 2) (.v 3)),
    (6, fVE 0x14 4 1 2 3, 3, .fms h0 .f32 (some .rdn) 4 (.v 1) (.v 2) (.v 3)),
    (6, fV 0x19 4 1 2 3, 0, .fnma h0 .f16 none 4 (.v 1) (.v 2) (.v 3)), (6, fV 0x1C 4 1 2 0, 0, .fmin h0 .f32 4 (.v 1) (.v 2)),
    (6, fV 0x20 4 1 2 0, 0, .fmax h0 .f32 4 (.v 1) (.v 2)), (6, fV 0x24 4 1 0 0, 0, .fabs h0 .f32 4 (.v 1)),
    (6, fV 0x28 4 1 0 0, 0, .fneg h0 .f32 4 (.v 1)), (6, fV 0x2C 3 1 2 2, 0, .fcmp h0 .f32 .lt 3 (.v 1) (.v 2)),
    (6, fV 0x31 4 1 2 3, 0, .dot2 h0 .f16 none 4 (.v 1) (.v 2) (.v 3)), (6, fV 0x44 4 1 2 1, 0, .iadd h0 .i32 .sat 4 (.v 1) (.v 2)),
    (6, fV 0x49 4 1 2 2, 0, .isub h0 .i16 .satn 4 (.v 1) (.v 2)), (6, fV 0x4E 4 1 2 0, 0, .imul h0 .i8 4 (.v 1) (.v 2)),
    (6, fV 0x50 4 1 2 0, 0, .imulh h0 .i32 4 (.v 1) (.v 2)), (6, fV 0x54 4 1 2 3, 0, .imad h0 .i32 4 (.v 1) (.v 2) (.v 3)),
    (6, fV 0x58 4 1 2 0, 0, .imin h0 .i32 4 (.v 1) (.v 2)), (6, fV 0x5C 4 1 2 0, 0, .imax h0 .i32 4 (.v 1) (.v 2)),
    (6, fV 0x60 4 1 2 0, 0, .iminu h0 .i32 4 (.v 1) (.v 2)), (6, fV 0x64 4 1 2 0, 0, .imaxu h0 .i32 4 (.v 1) (.v 2)),
    (6, fV 0x68 4 1 2 0, 0, .vand h0 .i32 4 (.v 1) (.v 2)), (6, fV 0x6C 4 1 2 0, 0, .vor h0 .i32 4 (.v 1) (.v 2)),
    (6, fV 0x70 4 1 2 0, 0, .vxor h0 .i32 4 (.v 1) (.v 2)), (6, fV 0x74 4 1 2 0, 0, .vandn h0 .i32 4 (.v 1) (.v 2)),
    (6, fV 0x78 4 1 2 0, 0, .vshl h0 .i32 4 (.v 1) (.v 2)), (6, fV 0x7C 4 1 2 0, 0, .vshr h0 .i32 4 (.v 1) (.v 2)),
    (6, fV 0x80 4 1 2 0, 0, .vsar h0 .i32 4 (.v 1) (.v 2)), (6, fV 0x84 3 1 2 5, 0, .icmp h0 .i32 .ge 3 (.v 1) (.v 2)),
    (6, fV 0x8A 3 1 2 2, 0, .icmpu h0 .i8 .lt 3 (.v 1) (.v 2)), (6, fV 0x96 4 1 2 0, 0, .lmul h0 .l8 4 (.v 1) (.v 2)),
    (6, fV 0x99 4 1 0 0, 0, .lrcp h0 .l16 4 (.v 1)), (6, fV 0x9E 4 1 0 0, 0, .lsqrt h0 .l8 4 (.v 1)),
    (6, fV 0xA4 4 323 0 0, 0, .mov h0 4 .clid), (6, fV 0xA8 4 0 0 0x1FF, 0, .vmovi h0 4 0x1FF),
    (6, fV 0xAC 4 1 321 2, 0, .vsel h0 4 (.v 1) .vzero 2), (6, fV 0xB0 4 1 322 0, 0, .shuf h0 4 (.v 1) .lane),
    (6, fV 0xB4 4 1 0 3, 0, .rot h0 4 (.v 1) 3)]

def words2 : List (Nat × BitVec 48 × Word × Instr) :=
  [(6, fV 0xB8 4 1 0 0, 0, .hadd h0 4 (.v 1)), (6, fV 0xBC 4 1 0 0, 0, .hmax h0 4 (.v 1)),
    (6, fV 0xC0 4 1 0 0, 0, .cvt h0 (.f32i32 .rne) 4 (.v 1) (.v 0)), (6, fV 0xC8 4 1 2 0, 0, .bpack h0 4 (.v 1) (.v 2)),
    (6, fV 0xCC 4 1 0 0, 0, .bunpack h0 4 (.v 1)), (6, fV 0xD0 3 1 2 0, 0, .mand h0 3 1 2), (6, fV 0xD4 3 1 2 0, 0, .mor h0 3 1 2),
    (6, fV 0xD8 3 1 2 0, 0, .mxor h0 3 1 2), (6, fV 0xDC 3 1 0 0, 0, .mnot h0 3 1), (6, fV 0xE0 3 0 0 5, 0, .mset h0 3 5),
    (6, fV 0xE0 3 405 0 0x100, 0, .msetScalar h0 3 21), (8, fV 0x01 4 1 0 0, 0, .rcp h0 .rne 4 (.v 1)),
    (8, fV 0x02 4 1 0 0, 0, .rsq h0 .rne 4 (.v 1)), (8, fV 0x03 4 1 0 0, 0, .sqrt h0 .rne 4 (.v 1)),
    (8, fV 0x04 4 1 2 0, 0, .div h0 .rne 4 (.v 1) (.v 2)), (8, fV 0x05 4 1 0 0, 0, .exp2 h0 .rne 4 (.v 1)),
    (8, fV 0x06 4 1 0 0, 0, .log2 h0 .rne 4 (.v 1)), (8, fV 0x08 4 1 0 5, 0, .xmov h0 4 1 5),
    (8, fV 0x09 4 1 0 (5 + 7 * 8), 0, .xbc h0 4 1 5 7), (9, fV 0x01 4 405 0 2, 0, .vld h0 4 21 2), (9, fV 0x02 4 405 0 2, 0, .vst h0 4 21 2),
    (9, fV 0x03 4 405 384 0, 0, .vlds h0 4 21 0 0), (9, fV 0x04 4 405 384 0, 0, .vsts h0 4 21 0 0),
    (9, fV 0x05 4 405 1 0, 0, .vldx h0 4 21 1 0), (9, fV 0x06 4 405 1 0, 0, .vstx h0 4 21 1 0),
    (9, fV 0x07 4 405 0 2, 0, .vlda h0 4 21 2), (9, fV 0x08 4 405 0 2, 0, .vsta h0 4 21 2)]

def words3 : List (Nat × BitVec 48 × Word × Instr) :=
  [(0, fS 0x01 22 20 21 0, 0, .add g0 22 20 21), (0, fS 0x02 22 20 21 0, 0, .sub g0 22 20 21), (0, fS 0x03 22 20 0 0xFFFF, 0, .addi g0 22 20 0xFFFF),
    (0, fS 0x04 22 20 21 0, 0, .mul g0 22 20 21), (0, fS 0x05 22 20 21 0, 0, .mulhu g0 22 20 21), (0, fS 0x06 22 20 21 0, 0, .mulhs g0 22 20 21),
    (0, fS 0x07 22 20 21 0, 0, .divu g0 22 20 21), (0, fS 0x07 22 20 21 1, 0, .divuRem g0 22 20 21), (0, fS 0x08 22 20 0 0, 0, .divs g0 22 20 0),
    (1, fS 0x08 22 20 21 1, 0, .divsRem g0 22 20 21), (1, fS 0x09 22 20 21 0, 0, .and g0 22 20 21), (1, fS 0x0A 22 20 21 0, 0, .or g0 22 20 21),
    (1, fS 0x0B 22 20 21 0, 0, .xor g0 22 20 21), (1, fS 0x0C 22 20 21 0, 0, .andn g0 22 20 21), (1, fS 0x0D 22 20 21 0, 0, .shl g0 22 20 21),
    (1, fS 0x0E 22 20 21 0, 0, .shr g0 22 20 21), (1, fS 0x0F 22 20 21 0, 0, .sar g0 22 20 21), (1, fS 0x10 22 20 0 3, 0, .shli g0 22 20 3),
    (1, fS 0x11 22 20 0 3, 0, .shri g0 22 20 3), (1, fS 0x12 22 20 0 3, 0, .sari g0 22 20 3), (0, fS 0x13 22 20 21 0, 0, .min g0 22 20 21),
    (0, fS 0x14 22 20 21 0, 0, .max g0 22 20 21), (0, fS 0x15 22 20 21 0, 0, .minu g0 22 20 21), (0, fS 0x16 22 20 21 0, 0, .maxu g0 22 20 21),
    (0, fS 0x17 22 20 0 0, 0, .clz g0 22 20), (0, fS 0x18 22 20 0 0, 0, .popc g0 22 20), (0, fS 0x19 22 0 0 5, 0, .movi g0 22 5),
    (0, fS 0x1A 22 20 1 5, 0, .movhi g0 22 20 5 1), (0, fS 0x1B 3 20 21 2, 0, .cmp g0 .lt 3 20 21), (0, fS 0x1C 3 20 9 7, 0, .cmpi g0 .geu 3 20 7),
    (0, fS 0x1D 22 20 21 0, 0, .sel g0 22 20 21 0), (0, fS 0x1E 3 1 2 2, 0, .pand g0 3 1 2 false true), (0, fS 0x1F 3 1 2 2, 0, .por g0 3 1 2 false true),
    (0, fS 0x20 3 1 2 2, 0, .pxor g0 3 1 2 false true), (0, fS 0x21 7 5 21 0, 0, .aadd g0 7 5 21), (0, fS 0x22 7 5 0 1, 0, .aaddi g0 7 5 1),
    (0, fS 0x23 7 5 21 2, 0, .alea g0 7 5 21 2), (0, fS 0x23 7 0 21 0x8044, 0, .aleaSeg g0 7 21 0x44), (0, fS 0x24 7 21 0 0, 0, .amov g0 7 21),
    (0, fS 0x25 22 5 0 0, 0, .smova g0 22 5)]

def words4 : List (Nat × BitVec 48 × Word × Instr) :=
  [(5, fS 0x01 0 0 0 1, 0, .br g0 1), (5, fS 0x02 21 0 0 1, 0, .brc g0 21 1), (5, fS 0x03 0 0 0 0, 0, .jmp g0 0),
    (5, fS 0x04 31 0 6 1, 0, .call g0 31 6 1), (5, fS 0x05 31 0 6 0, 0, .calli g0 31 0 6), (5, fS 0x06 0 6 0 0, 0, .ret g0 6 0),
    (5, fS 0x07 0 2 2 5, 0, .loop g0 2 2 5), (5, fS 0x08 0 21 0 5, 0, .loopx g0 21 5), (5, fS 0x09 0 0 0 0x15, 0, .setfmt g0 0x15),
    (5, fS 0x0A 0 4 0 0xFFFC, 0, .fence g0 .die 0xFFFC), (5, fS 0x0B 0 0 0 0, 0, .xfence g0), (5, fS 0x0C 0 0 0 0, 0, .ifence g0),
    (5, fS 0x0D 0 2 0 0, 0, .bar g0 .core), (5, fS 0x0E 0 1 0 3, 0, .setf g0 1 3), (5, fS 0x0F 0 1 0 3, 0, .clrf g0 1 3),
    (5, fS 0x10 0 21 0 0, 0, .waitgcc g0 21), (5, fS 0x11 22 0 0 0, 0, .rdsys g0 22 0), (5, fS 0x12 0 21 0 4, 0, .wrsys g0 4 21),
    (5, fS 0x15 0 0 0 0, 0, .halt g0), (5, fS 0x16 22 0 0 0, 0, .unit g0 22 0), (5, fS 0x16 0 0 1 0, 0, .unitS g0 0),
    (2, fS 0x01 (3 * 8) 0 0 200, 0, .pushld g0 push0), (2, fS 0x02 (3 * 8) 0 21 200, 0, .pushlds g0 push0 21),
    (2, fS 0x03 (3 * 8) 0 21 200, 0, .pushldx g0 push0 21), (2, fSE 0x04 0 0 0 0, 1, .stg g0 stg0), (2, fSE 0x05 0 0 21 0, 1, .stgs g0 stg0 21),
    (2, fSE 0x06 0 0 0 0, 1 + 1 * 2 ^ 16, .stgx g0 stg0 1), (2, fS 0x08 22 0 0 (16 + 2 * 2 ^ 14), 0, .lds g0 22 0 0 16 false .w),
    (2, fS 0x08 22 0 0 (16 + 2 ^ 12 + 2 ^ 13 + 1 * 2 ^ 14), 0, .ldsL g0 22 0 0 16 true .h),
    (2, fS 0x09 0 0 21 (16 + 3 * 2 ^ 14), 0, .sts g0 0 21 0 16 .d), (2, fS 0x09 0 0 21 (16 + 2 ^ 12), 0, .stsL g0 0 21 0 16 .b),
    (2, fS 0x0A 22 5 0 0, 0, .ldacq g0 22 5 .pkg 0), (2, fS 0x0B 5 5 21 0xFFFB, 0, .strel g0 5 21 .sys 0xFFFB),
    (2, fSE 0x0C 22 5 21 0, 0x30, .amoAdd g0 amo0), (2, fSE 0x0C 22 5 21 0, 0x31, .amoFadd g0 amo0), (2, fSE 0x0C 22 5 21 0, 0x32, .amoMin g0 amo0),
    (2, fSE 0x0C 22 5 21 0, 0x33, .amoMax g0 amo0), (2, fSE 0x0C 22 5 21 0, 0x34, .amoMinu g0 amo0), (2, fSE 0x0C 22 5 21 0, 0x35, .amoMaxu g0 amo0),
    (2, fSE 0x0C 22 5 21 0, 0x36, .amoAnd g0 amo0), (2, fSE 0x0C 22 5 21 0, 0x37, .amoOr g0 amo0), (2, fSE 0x0C 22 5 21 0, 0x38, .amoXor g0 amo0),
    (2, fSE 0x0C 22 5 21 0, 0x39, .amoXchg g0 amo0), (2, fSE 0x0D 22 5 21 0, 0x30 + 21 * 2 ^ 12, .cas g0 amo0 21),
    (2, fS 0x0E 22 5 0 0, 0, .tlook g0 22 5), (2, fS 0x0F 0 5 21 3, 0, .tset g0 5 21 3), (2, fS 0x10 0 21 0 0, 0, .tclr g0 21),
    (2, fS 0x11 0 0 0 0, 0, .nxu g0)]

/-- The MX and CP maps: L0, done=f1 and cons=f2 in the words of MMA (R200); done=f1 in the others. -/
def words5 : List (Nat × BitVec 48 × Word × Instr) :=
  [(3, fSE 0x01 0 0 0 0, 1 * 2 ^ 16 + 2 ^ 22 + 2 * 2 ^ 23 + 2 ^ 29, .mma g0 0 0 mma0),
    (3, fSE 0x02 0 0 0 0, 1 * 2 ^ 16 + 2 ^ 22 + 2 * 2 ^ 23 + 2 ^ 29, .mmag g0 0 0 0 mma0),
    (3, fS 0x03 0 0 0 (1 + 1 * 4 + 2 ^ 8), 0, .latch g0 0 0 1 ⟨1, true⟩ 0),
    (3, fS 0x04 0 0 0 (1 + 1 * 4 + 2 ^ 8 + 1 * 2 ^ 13), 0, .latcht g0 0 0 1 ⟨1, true⟩ 0 .w2),
    (3, fS 0x05 0 0 0 (1 * 8 + 2 ^ 9), 0, .accz g0 row0), (3, fS 0x07 0 0 0 (1 + 1 * 8 + 2 ^ 9), 0, .accwr g0 0 row0 true),
    (3, fS 0x06 0 0 0 (3 + 1 * 8 + 2 ^ 9), 0, .accrd g0 0 row0 .l8), (4, fS 0x01 1 0 0 8, 0, .nestld g0 1 0 8),
    (4, fS 0x02 0 0 0 (1 * 16 + 2 ^ 10), 0, .cpy g0 cpy0), (4, fSE 0x03 0 0 0 (1 * 16 + 2 ^ 10), 21, .cpyt g0 cpy0 21),
    (4, fSE 0x04 1 0 0 (1 * 16 + 2 ^ 10), 19 + 1 * 2 ^ 6 + 2 ^ 12, .cpym g0 ⟨1, 0, 0, 0, ⟨1, true⟩, 0⟩ 19 ⟨1, true⟩ 0),
    (4, fSE 0x05 0 0 0 (1 * 16 + 2 ^ 10), 1, .cpsend g0 cpy0 1), (4, fS 0x06 0 0 21 2, 0, .cparm g0 2 0 21), (4, fS 0x07 22 0 0 2, 0, .cpstat g0 22 2),
    (4, fS 0x07 22 0 0 (2 + 16), 0, .cpstatClr g0 22 2), (4, fS 0x08 0 0 0 3, 0, .buse g0 0 3), (4, fS 0x09 0 0 0 3, 0, .bfree g0 0 3),
    (4, fS 0x0A 0 0 0 3, 0, .launch g0 0 3), (4, fS 0x0B 0 0 20 3, 0, .relaunch g0 0 20 3), (4, fS 0x0C 0 0 21 1, 0, .trexcl g0 0 21 1)]

/-- TRAP and BRK, whose effect is their fault. -/
def words6 : List (Nat × BitVec 48 × Word × Instr) :=
  [(5, fS 0x13 0 0 0 0xBEEF, 0, .trap g0 0xBEEF), (5, fS 0x14 0 0 0 1, 0, .brk g0 1)]

/-- Every operation is read from the word the spec's encoding gives it. -/
theorem test_words1 : ∀ x ∈ words1, decodeOp x.1 x.2.1 x.2.2.1 = .ok x.2.2.2 := by decide +kernel
theorem test_words2 : ∀ x ∈ words2, decodeOp x.1 x.2.1 x.2.2.1 = .ok x.2.2.2 := by decide +kernel
theorem test_words3 : ∀ x ∈ words3, decodeOp x.1 x.2.1 x.2.2.1 = .ok x.2.2.2 := by decide +kernel
theorem test_words4 : ∀ x ∈ words4, decodeOp x.1 x.2.1 x.2.2.1 = .ok x.2.2.2 := by decide +kernel
theorem test_words5 : ∀ x ∈ words5, decodeOp x.1 x.2.1 x.2.2.1 = .ok x.2.2.2 := by decide +kernel
theorem test_words6 : ∀ x ∈ words6, decodeOp x.1 x.2.1 x.2.2.1 = .ok x.2.2.2 := by decide +kernel

/-- Whether an operation issues. -/
def issuesB (i : Instr) (s : State) : Bool :=
  !(planOf i s).freezes s && !(planOf i s).held && decide ((planOf i s).checks s = .ok)

theorem issues_of {i : Instr} {s : State} (h : issuesB i s = true) : Issues i s := by
  simp only [issuesB, Bool.and_eq_true, Bool.not_eq_true', decide_eq_true_eq] at h
  exact ⟨h.1.1, h.1.2, h.2⟩

theorem issues_all {l : List Instr} {s : State} (h : (l.all fun i => (encode i).isSome && issuesB i s) = true) :
    ∀ i ∈ l, IsOperation i ∧ Issues i s := by
  intro i hi
  have h1 := List.all_eq_true.mp h i hi
  simp only [Bool.and_eq_true] at h1
  exact ⟨h1.1, issues_of h1.2⟩

/-- A state in which every operation issues. -/
def t0 : State := s0 x0

/-- What a list of words stands for. -/
def opsOfWords (l : List (Nat × BitVec 48 × Word × Instr)) : List Instr := l.map fun x => x.2.2.2

/-- Every operation whose effect is no fault issues somewhere: the hypotheses of every statement that one completes. -/
theorem witness_issues1 : ∀ i ∈ opsOfWords words1, IsOperation i ∧ Issues i t0 := issues_all (by decide +kernel)
theorem witness_issues2 : ∀ i ∈ opsOfWords words2, IsOperation i ∧ Issues i t0 := issues_all (by decide +kernel)
theorem witness_issues3 : ∀ i ∈ opsOfWords words3, IsOperation i ∧ Issues i t0 := issues_all (by decide +kernel)
theorem witness_issues4 : ∀ i ∈ opsOfWords words4, IsOperation i ∧ Issues i t0 := issues_all (by decide +kernel)
theorem witness_issues5 : ∀ i ∈ opsOfWords words5, IsOperation i ∧ Issues i t0 := issues_all (by decide +kernel)

/-- The state of `s0` with a changed context. -/
def tx (f : Ctx → Ctx) : State := s0 (f x0)

/-- Whose LAUNCH an entry is. -/
def who0 : Who := { path := .eng 99 0 }

/-- An instruction under a guard that is false (p1 reads 0 here). -/
def gf : Guard := ⟨1, false⟩

/-- In a loop over 3 iterations. -/
def tLoop : State := tx fun x => { x with loop := some ⟨0x400, 0x500, [3], [0], none⟩ }
/-- s20 awaits a scoreboarded result. -/
def tWait : State := tx fun x => { x with sbs := [⟨9, .s 20, some 30, false, 0, 0, 0, false, 0⟩] }
/-- s20 is poisoned. -/
def tPoison : State := tx fun x => { x with sPoison := [20] }

/-- A state whose walk of the page at VA 0x80000000 has failed at level 1, where its translation is not present; a0 lies
there, and s30 awaits a result. -/
def tHold : State :=
  (tx fun x => { x with areg := [(0, 0x80000000)], sbs := [⟨9, .s 30, some 30, false, 0, 0, 0, false, 0⟩] }).modCore 0 fun y =>
    { y with walkFail := [⟨0x8000, (1, 0), [0]⟩] }
/-- The fault of a load of the word at a0 + 16 there. -/
def holdFault : FaultInfo := dataFault 0 0x80000010 1 0 false

/-- FrozenOperationsWait: a frozen operation, and one that another run's reservation holds. -/
theorem witness_FrozenOperationsWait : IsOperation (.add g0 22 20 21) ∧ (planOf (.add g0 22 20 21) tWait).freezes tWait = true := by
  decide +kernel

theorem witness_OperationsTakeFaults : IsOperation (.bar g0 .sys) ∧ (planOf (.bar g0 .sys) t0).freezes t0 = false ∧
    (planOf (.bar g0 .sys) t0).held = false ∧ (planOf (.bar g0 .sys) t0).checks t0 = .fault { code := 0x02 } ∧
    ¬ HoldWaits t0 { code := 0x02 } ∧
    (let s := tHold; let i : Instr := .lds g0 22 0 0 16 false .w
     (planOf i s).freezes s = false ∧ (planOf i s).held = false ∧ HoldWaits s holdFault ∧
     (planOf i s).checks s = .fault holdFault) := by decide +kernel

theorem witness_FalseGuardNoEffect : guardOf (.halt gf) = some gf ∧ performs gf t0.me = false ∧ PredReady t0 gf.pred := by
  decide +kernel

/-- p1 is poisoned, and so are a5, n2 and w0. -/
def tRegs : State := tx fun x => { x with rPoison := [keyP 1, keyA 5, keyN 2, keyW 0] }

theorem witness_PoisonedGuardsStop : guardOf (.halt gf) = some gf ∧ performs gf tRegs.me = false ∧ ¬ PredReady tRegs gf.pred := by
  decide +kernel

theorem witness_NopDoesNothing : (0 : Nat) < 38 ∧ (37 : Nat) < 38 ∧ (7 : Nat) < 8 ∧
    (∀ b : BitVec 48, b = 0x010000000000 ∨ b = 0x030000000000 →
      1 ≤ (b.extractLsb' 40 8).toNat ∧ (b.extractLsb' 40 8).toNat ≤ 3) ∧ t0.me.ending = false := by
  refine ⟨by decide, by decide, by decide, ?_, by decide +kernel⟩
  rintro b (rfl | rfl) <;> decide

/-- The hypotheses of ScalarResults, for two shapes of operation, the discarding destination among them. -/
theorem witness_ScalarResults :
    (∃ r, scalarRow (.sel g0 22 20 21 1) = some r ∧ Performs r.guard t0 ∧ (∀ q ∈ r.srcs, ScalarReady t0 q) ∧
      RegsReady (.sel g0 22 20 21 1) t0 ∧ LoopAllows t0 r.dest) ∧
    (∃ r, scalarRow (.addi g0 1 0 0xFFFF) = some r ∧ Performs r.guard tLoop ∧
      (∀ q ∈ r.srcs, ScalarReady tLoop q) ∧ RegsReady (.addi g0 1 0 0xFFFF) tLoop ∧ LoopAllows tLoop r.dest) :=
  ⟨⟨_, rfl, by decide +kernel, by decide +kernel, by decide +kernel, by decide +kernel⟩,
    _, rfl, by decide +kernel, by decide +kernel, by decide +kernel, by decide +kernel⟩

theorem witness_ScalarStops :
    (∃ r, scalarRow (.add g0 22 20 21) = some r ∧ Performs r.guard tWait ∧
      ∃ q ∈ r.srcs, q ≠ 0 ∧ tWait.me.awaits (.s (tWait.me.phys q)) = true) ∧
    (∃ r, scalarRow (.add g0 2 20 21) = some r ∧ Performs r.guard tLoop ∧
      (∀ q ∈ r.srcs, ScalarReady tLoop q) ∧ tLoop.me.loop.isSome = true ∧ 2 ≤ r.dest.toNat ∧ r.dest.toNat ≤ 7) ∧
    (∃ r, scalarRow (.add g0 7 20 21) = some r ∧ Performs r.guard tLoop ∧
      (∀ q ∈ r.srcs, ScalarReady tLoop q) ∧ 2 ≤ r.dest.toNat ∧ r.dest.toNat ≤ 7) ∧
    (∃ r, scalarRow (.add g0 22 20 21) = some r ∧ Performs r.guard tPoison ∧
      (∀ q ∈ r.srcs, tPoison.me.awaits (.s (tPoison.me.phys q)) = false ∧
        ahas tPoison.me.ldsPoison (tPoison.me.phys q) = false) ∧ LoopAllows tPoison r.dest ∧
      ∃ q ∈ r.srcs, q ≠ 0 ∧ tPoison.me.sPoison.contains (tPoison.me.phys q) = true) ∧
    (∃ r, scalarRow (.smova g0 22 5) = some r ∧ performs r.guard tRegs.me = true ∧ r.srcs = [] ∧ LoopAllows tRegs r.dest ∧
      ¬ RegsReady (.smova g0 22 5) tRegs) ∧
    (∃ r, scalarRow (.add g0 22 20 21) = some r ∧ let s := tx fun x => { x with ldsPoison := [(20, 0x1000)] }
      performs r.guard s.me = true ∧ (∀ q ∈ r.srcs, s.me.awaits (.s (s.me.phys q)) = false) ∧ LoopAllows s r.dest ∧
      ∃ q ∈ r.srcs, q ≠ 0 ∧ ahas s.me.ldsPoison (s.me.phys q) = true) :=
  ⟨⟨_, rfl, by decide +kernel, by decide +kernel⟩, ⟨_, rfl, by decide +kernel, by decide +kernel, by decide +kernel⟩,
    ⟨_, rfl, by decide +kernel, by decide +kernel, by decide +kernel⟩,
    ⟨_, rfl, by decide +kernel, by decide +kernel, by decide +kernel, by decide +kernel⟩,
    ⟨_, rfl, by decide +kernel, rfl, by decide +kernel, by decide +kernel⟩,
    _, rfl, by decide +kernel⟩

theorem witness_ConstantsBuilt : Performs g0 t0 ∧ ScalarReady t0 20 ∧ LoopAllows t0 22 ∧
    (0x1A0000040000#48).extractLsb' 40 8 = 0x1A ∧ (0x1A0000040000#48).getLsbD 34 = false ∧
    3 < ((0x1A0000040000#48).extractLsb' 16 6).toNat := by decide +kernel

theorem witness_ConditionsCompare : Performs g0 t0 ∧ ScalarReady t0 20 ∧ ScalarReady t0 0 ∧
    (let w := 0x1B000000000A#48
     w.getLsbD 34 = false ∧ w.extractLsb' 40 8 = 0x1B ∧ w.extractLsb' 4 12 = 0 ∧ 10 ≤ (w.extractLsb' 0 4).toNat) ∧
    (let w := 0x1C00000F0000#48
     w.getLsbD 34 = false ∧ w.extractLsb' 40 8 = 0x1C ∧ w.extractLsb' 20 2 = 0 ∧ 10 ≤ (w.extractLsb' 16 4).toNat) := by
  decide +kernel

theorem witness_DivisionResults :
    (∃ r, divRow (.divu g0 22 20 21) = some r ∧ Performs r.guard t0 ∧ ScalarReady t0 r.num ∧ ScalarReady t0 r.den ∧
      LoopAllows t0 r.dest) ∧
    (∃ r, divRow (.divsRem g0 22 20 0) = some r ∧ Performs r.guard t0 ∧ ScalarReady t0 r.num ∧
      ScalarReady t0 r.den ∧ LoopAllows t0 r.dest ∧ t0.me.s r.den = 0) :=
  ⟨⟨_, rfl, by decide +kernel, by decide +kernel, by decide +kernel, by decide +kernel⟩,
    _, rfl, by decide +kernel, by decide +kernel, by decide +kernel, by decide +kernel, by decide +kernel⟩

theorem witness_PredicateResults :
    ∃ r, predRow (.pand g0 3 1 2 true false) = some r ∧ Performs r.guard t0 ∧ (∀ q ∈ r.srcs, ScalarReady t0 q) ∧
      RegsReady (.pand g0 3 1 2 true false) t0 :=
  ⟨_, rfl, by decide +kernel, by decide +kernel, by decide +kernel⟩

theorem witness_AddressResults :
    ∃ r, addrRow (.alea g0 7 5 21 3) = some r ∧ Performs r.guard t0 ∧ (∀ q ∈ r.srcs, ScalarReady t0 q) ∧
      RegsReady (.alea g0 7 5 21 3) t0 :=
  ⟨_, rfl, by decide +kernel, by decide +kernel, by decide +kernel⟩

theorem witness_LandingWrites : (511 : Nat) ≠ 0 ∧ (15 : Nat) ≠ 0 ∧ (15 : Nat) < 16 ∧ (0xFFFE#16).getLsbD 0 = false ∧
    (0xFFFE#16).getLsbD 15 = true := by decide

/-- The place a BR or BRC of this state goes. -/
def target (s : State) (disp : BitVec 16) : Addr := BitVec.ofInt 48 (s.me.pc.toNat + 8 * disp.toInt)

/-- The last word of the code, the words just outside it on either side, and a loop. -/
theorem witness_BranchTransfers : Performs g0 t0 ∧ Performs g0 tLoop ∧ t0.me.loop = none ∧
    t0.me.seg.inCode (target t0 0x7F).toNat = true ∧ t0.me.seg.inCode (target t0 0).toNat = true ∧
    t0.me.seg.inCode (target t0 0x80).toNat = false ∧ t0.me.seg.inCode (target t0 0xFFFF).toNat = false ∧
    tLoop.me.loop.isSome = true := by decide +kernel

theorem witness_BranchCounts : Performs g0 t0 ∧ ScalarReady t0 19 ∧ ScalarReady t0 21 ∧ ScalarReady t0 0 ∧
    t0.me.loop = none ∧ BitVec.ofInt 64 ((t0.me.s 19).toInt - 1) = 0 ∧ BitVec.ofInt 64 ((t0.me.s 21).toInt - 1) ≠ 0 ∧
    BitVec.ofInt 64 ((t0.me.s 0).toInt - 1) ≠ 0 ∧ t0.me.seg.inCode (target t0 0x7F).toNat = true ∧
    t0.me.seg.inCode (target t0 0x80).toNat = false := by decide +kernel

/-- The address of entry j of the table of jump targets. -/
def entryVa (s : State) (j : Nat) : Nat := s.me.seg.va.toNat + 0x40 + 4 * (s.me.seg.nent.toNat + 1 + j)

/-- The slot table of die 0 given to another tenant whole: none of tenant 0's accesses to DRAM is served. -/
def taken0 : Die := { slots := (List.range 64).map fun i => (i, 0x11) }

theorem witness_JumpThroughTable : Performs g0 t0 ∧ ScalarReady t0 0 ∧ ScalarReady t0 19 ∧ t0.me.loop = none ∧
    (t0.me.s 0).toNat < t0.me.seg.ntgt.toNat ∧
    (∃ pa, t0.xlate t0.cur.1 (ctxWaiter t0.cur.2) t0.here.tenant (entryVa t0 0) .fetch = .ok pa ∧
      t0.poisoned pa 4 = false ∧ t0.me.seg.inCode (t0.me.seg.va + (rdWord t0.mem pa).setWidth 48).toNat = true ∧
      t0.dramOpen (some t0.here.tenant) pa = true ∧
      (let s : State := { t0 with dies := [(0, taken0)] }
       s.dramOpen (some s.here.tenant) pa = false) ∧
      { t0 with poison := [pa / 8] }.poisoned pa 4 = true) ∧
    t0.me.seg.ntgt.toNat ≤ (t0.me.s 19).toNat :=
  ⟨by decide +kernel, by decide +kernel, by decide +kernel, by decide +kernel, by decide +kernel,
    ⟨0x40000044, by decide +kernel⟩, by decide +kernel⟩

/-- A frame base of 201 above an empty spill area of one page, at VA 0x100000. -/
def tDeep : State := tx fun x => { x with fb := 201, bsa := 0x0001000000100000 }

theorem witness_CallSlides : Performs g0 t0 ∧ t0.me.loop = none ∧ (48 : Nat) ≤ 48 ∧
    t0.me.seg.inCode (target t0 6).toNat = true ∧ t0.me.fb.toNat + 48 + 48 ≤ t0.me.bot.toNat + 256 ∧
    Performs g0 tDeep ∧ tDeep.me.loop = none ∧ tDeep.me.seg.inCode (target tDeep 6).toNat = true ∧
    tDeep.me.bot.toNat + 256 < tDeep.me.fb.toNat + 8 + 48 ∧ tDeep.me.fb.toNat + 7 + 48 ≤ tDeep.me.bot.toNat + 256 ∧
    tDeep.me.bsaLen ≠ 0 ∧
    (∀ j, j < 8 * ((tDeep.me.fb.toNat + 8 + 48 - 256 + 7) / 8) → j < 512 * tDeep.me.bsaLen ∧
      (tDeep.xlate tDeep.cur.1 (ctxWaiter tDeep.cur.2) tDeep.here.tenant (tDeep.me.bsaBase + 8 * j) .write) = .ok (0x40100000 + 8 * j)) ∧
    (let s := tx fun x => { x with fb := 201 }
     s.me.bot.toNat + 256 < s.me.fb.toNat + 8 + 48 ∧ s.me.bsaLen = 0 ∧ s.me.seg.inCode (target s 6).toNat = true) ∧
    (let s := tx fun x => { x with fb := 713, bot := 504, bsa := 0x0001000000100000 }
     s.me.bot.toNat + 256 < s.me.fb.toNat + 8 + 48 ∧ s.me.bot.toNat ≤ 512 ∧ 512 < 8 * ((s.me.fb.toNat + 8 + 48 - 256 + 7) / 8) ∧
     512 * s.me.bsaLen ≤ 512 ∧ ∀ i, i < 512 → 504 ≤ i → s.xlate s.cur.1 (ctxWaiter s.cur.2) s.here.tenant (s.me.bsaBase + 8 * i) .write =
       .ok (0x40100000 + 8 * i)) ∧
    (let s := tHold.modMe fun x => { x with fb := 201, bsa := 0x0001000080000000 }
     s.me.bot.toNat + 256 < s.me.fb.toNat + 8 + 48 ∧ s.me.bsaLen ≠ 0 ∧
     s.xlate s.cur.1 (ctxWaiter s.cur.2) s.here.tenant (s.me.bsaBase + 8 * 0) .write = .bad 1 0) := by
  decide +kernel

theorem witness_CallThroughTable : Performs g0 t0 ∧ ScalarReady t0 0 ∧ t0.me.loop = none ∧
    (t0.me.s 0).toNat < t0.me.seg.ntgt.toNat ∧
    t0.xlate t0.cur.1 (ctxWaiter t0.cur.2) t0.here.tenant (entryVa t0 0) .fetch = .ok 0x40000044 ∧
    t0.dramOpen (some t0.here.tenant) 0x40000044 = true ∧ t0.poisoned 0x40000044 4 = false ∧
    t0.me.seg.inCode (t0.me.seg.va + (rdWord t0.mem 0x40000044).setWidth 48).toNat = true ∧
    t0.me.fb.toNat + 48 + 48 ≤ t0.me.bot.toNat + 256 := by decide +kernel

theorem witness_CallKeepsScalars : (48 : Nat) ≤ 48 ∧ (15#6).toNat < 16 ∧ 16 ≤ (16#6).toNat ∧
    (15#6).toNat + 48 = (63#6).toNat := by decide

/-- Frames: base 8, spilled up to 0, and base 8 with 8 entries spilled to the page at 0x100000. -/
def tFrame : State := tx fun x => { x with fb := 8 }
def tSpilt : State := tx fun x => { x with fb := 8, bot := 8, bsa := 0x0001000000100000 }

theorem witness_ReturnSlidesBack :
    Performs g0 tFrame ∧ tFrame.me.loop = none ∧ Performs g0 tSpilt ∧ tSpilt.me.loop = none ∧
    AddrReady tFrame 6 ∧ AddrReady tSpilt 6 ∧
    (let s := tx fun x => { x with areg := [(6, 0x401)] }
     Performs g0 s ∧ s.me.loop = none ∧ (s.me.a 6).toNat % 8 ≠ 0) ∧
    (let s := tx fun x => { x with areg := [(6, 0x800)] }
     Performs g0 s ∧ AddrReady s 6 ∧ s.me.seg.inCode (s.me.a 6).toNat = false) ∧
    (let s := tHold.modMe fun x => { x with areg := x.areg ++ [(6, 0x400)], fb := 8, bot := 8, bsa := 0x0001000080000000 }
     Performs g0 s ∧ AddrReady s 6 ∧ s.me.loop = none ∧ s.me.seg.inCode (s.me.a 6).toNat = true ∧ (1#6).toNat ≤ s.me.fb.toNat ∧
     s.me.fb.toNat - (1#6).toNat < s.me.bot.toNat ∧ 8 * ((s.me.fb.toNat - (1#6).toNat) / 8) ≤ 0 ∧
     s.xlate s.cur.1 (ctxWaiter s.cur.2) s.here.tenant (s.me.bsaBase + 8 * 0) .read = .bad 1 0) ∧
    (tFrame.me.a 6).toNat % 8 = 0 ∧ tFrame.me.seg.inCode (tFrame.me.a 6).toNat = true ∧
    tFrame.me.fb.toNat < (9#6).toNat ∧ (8#6).toNat ≤ tFrame.me.fb.toNat ∧
    tFrame.me.bot.toNat ≤ tFrame.me.fb.toNat - (8#6).toNat ∧
    (1#6).toNat ≤ tSpilt.me.fb.toNat ∧ tSpilt.me.fb.toNat - (1#6).toNat < tSpilt.me.bot.toNat ∧
    (∀ j, j < tSpilt.me.bot.toNat →
      tSpilt.xlate tSpilt.cur.1 (ctxWaiter tSpilt.cur.2) tSpilt.here.tenant (tSpilt.me.bsaBase + 8 * j) .read = .ok (0x40100000 + 8 * j)) ∧
    tSpilt.me.seg.inCode (tSpilt.me.a 6).toNat = true := by decide +kernel

/-- A body of one bundle whose code has been read. -/
def tBody : State := tx fun x => { x with npc := 0x400, code := wrBytes [] 0x400 (leBytes 64 0) }

/-- A body that fails to be read, and one that is there inside a loop. -/
def tBodyFail : State := tx fun x => { x with npc := 0x400, blocks := [], fetchFail := [(0, { code := 0x06 })] }
def tBodyLoop : State := tx fun x =>
  { x with npc := 0x400, code := wrBytes [] 0x400 (leBytes 64 0), loop := some ⟨0x400, 0x500, [3], [0], none⟩ }

/-- Whether the end of a body is found, or its reading fails. -/
def bodyFails (s : State) : Bool :=
  match s.me.bodyEnd s.me.npc.toNat 1 with
  | .error (.fail f _) => f.code == 0x06
  | _ => false

theorem witness_LoopsStart : tBody.me.loop = none ∧ Performs g0 tBody ∧ NestReady tBody 2 ∧ 0x440 - tBody.me.npc.toNat ≤ 4096 ∧
    bodyFails tBodyFail = true ∧ Performs g0 tBodyFail ∧ ¬ HoldWaits tBodyFail { code := 0x06 } ∧ tBodyLoop.me.bodyEnd tBodyLoop.me.npc.toNat 1 = .ok 0x408 ∧
    tBodyLoop.me.loop.isSome = true ∧ Performs g0 tBodyLoop ∧
    tBody.me.bodyEnd tBody.me.npc.toNat 1 = .ok 0x408 ∧ tBody.me.bodyEnd tBody.me.npc.toNat 8 = .ok 0x440 ∧
    ScalarReady tBody 21 ∧ (tBody.me.s 21).toNat < 2 ^ 32 ∧ tBody.me.s 21 ≠ 0 ∧ ScalarReady tBody 0 ∧ tBody.me.s 0 = 0 := by
  decide +kernel

/-- A pass of a loop of two levels, with s3 in flight and poisoned. -/
theorem witness_LoopIndices :
    (let x : Ctx := { x0 with
       loop := some ⟨0x400, 0x500, [3, 2], [2, 0], none⟩, npc := 0x500, sPoison := [3], ldsPoison := [(3, 0)]
       pend := [⟨.s 3, 7, 0xFFFF, 0, 0, 0, 0, 1⟩] }
     ∃ l, x.loop = some l ∧ l.idx.length ≤ 6 ∧ 1 < l.idx.length ∧ (3#6).toNat = 2 + 1 ∧ 2 + l.idx.length ≤ (4#6).toNat ∧
       x.npc = l.stop ∧ nextIdx l.counts l.idx = some [0, 1]) :=
  ⟨_, rfl, by decide, by decide, by decide, by decide, rfl, by decide⟩

theorem witness_FencesRecord : Performs g0 t0 ∧ (0xFFFE#16) ≠ 0xFFFF ∧ t0.me.ending = false ∧ t0.me.loop = none := by
  decide +kernel

theorem witness_WaitgccWaits : Performs g0 t0 ∧ ScalarReady t0 0 ∧ ScalarReady t0 21 := by decide +kernel

theorem witness_BarrierArrives : Performs g0 t0 ∧ t0.coResident t0.me.launch = true ∧
    (let s := tx fun x => { x with launch := 2 }
     Performs g0 s ∧ s.coResident s.me.launch = false) := by decide +kernel

theorem witness_FlagOperations : Performs g0 t0 ∧ (0x8000#16) ≠ 0 := by decide +kernel

theorem witness_SystemReads : Performs g0 t0 ∧ LoopAllows t0 22 ∧ LoopAllows tLoop 8 ∧ (15#4).toNat = 15 := by
  decide +kernel

/-- The value s21 of a state, and BOT. -/
def tVal (v : Dword) (bot : Word) : State :=
  tx fun x => { x with scal := [(21, v)], bot := bot, seg := { seg0 with splo := 64, sphi := 128 } }

theorem witness_SystemWrites : (∀ v bot, (v = 0 ∨ v = 64 ∨ v = 128 ∨ v = 192) → (bot = 0 ∨ bot = 8) →
      Performs g0 (tVal v bot) ∧ ScalarReady (tVal v bot) 21) ∧
    (tVal 0 0).me.bot = 0 ∧ (tVal 0 8).me.bot ≠ 0 ∧
    (let bound (s : State) : Dword := BitVec.ofNat 64 ((s.me.s 21).toNat % 2 ^ 23 / 64 * 64)
     (tVal 64 0).me.seg.splo.toNat ≤ (bound (tVal 64 0)).toNat ∧ (bound (tVal 0 0)).toNat < (tVal 0 0).me.seg.splo.toNat ∧
     (bound (tVal 128 0)).toNat ≤ (tVal 128 0).me.seg.sphi.toNat ∧
     (tVal 192 0).me.seg.sphi.toNat < (bound (tVal 192 0)).toNat) := by
  refine ⟨?_, by decide +kernel⟩
  rintro v bot (rfl | rfl | rfl | rfl) (rfl | rfl) <;> decide +kernel

theorem witness_TrapsFault : Performs g0 t0 ∧
    ∃ l, t0.launch t0.me.launch = some l ∧ l.phase ≠ .failing ∧ l.phase ≠ .ended :=
  ⟨by decide +kernel, l0, by decide +kernel, by decide +kernel, by decide +kernel⟩

theorem witness_HaltEndsRun : Performs g0 t0 ∧ t0.me.loop = none ∧ Performs g0 tLoop ∧
    tLoop.me.loop.isSome = true := by decide +kernel

theorem witness_UnitNamed : Performs g0 t0 ∧ t0.me.awaitsW 0 = false ∧ t0.me.rPoison.contains (keyW 0) = false ∧
    LoopAllows t0 22 ∧
    ((t0.me.w 0).setWidth 24).toNat < t0.unitCount t0.me.launch ∧
    (let s := tx fun x => { x with works := [(0, 0x8000000000000010)] }
     (s.me.w 0).getLsbD 63 = true ∧ s.me.awaitsW 0 = false ∧ Performs g0 s) ∧
    (let s := tx fun x => { x with sbs := [⟨9, .w 3, some 30, false, 0, 0, 0, false, 0⟩] }
     s.me.awaitsW 3 = true ∧ Performs g0 s) ∧
    (let s := tx fun x => { x with scal := [(20, 15), (21, 16), (22, 0x8000000000000000)] }
     Performs g0 s ∧ ScalarReady s 20 ∧ ScalarReady s 21 ∧ ScalarReady s 22 ∧
     ((s.me.s 20).setWidth 24).toNat < s.unitCount s.me.launch ∧ (s.me.s 22).getLsbD 63 = true ∧
     (s.me.s 21).getLsbD 63 = false ∧ s.unitCount s.me.launch ≤ ((s.me.s 21).setWidth 24).toNat) := by decide +kernel

/-- Two sources of one operation pop the two lines of cluster 0's queue. -/
theorem witness_VectorSources :
    (let s : State := { t0 with cores := [(0, { y0 x0 with
       laqs := [(0, [⟨1, 0, 0, some 7, true, false, false, 0, 0⟩, ⟨2, 0, 0, some 9, true, false, false, 0, 0⟩])] })] }
     popEntry s.here ([0] ++ [0]) [(0 : Cl)].length = some ⟨2, 0, 0, some 9, true, false, false, 0, 0⟩ ∧
     VSrc.v 5 ≠ .ldq) := by decide +kernel

/-- NaNs quiet and signalling, infinities of both signs, zeros and ordinary numbers. -/
theorem witness_FloatCorners : isNaN32 0x7FC00001 = true ∧ isNaN32 0xFF800001 = true ∧ isInf32 0xFF800000 = true ∧
    (0x7F800000 : Word) = 0xFF800000 ^^^ 0x80000000 ∧ isZero32 0x80000000 = true ∧ isNaN32 1 = false ∧ isInf32 1 = false ∧
    isZero32 1 = false ∧ x0.fmts.extractLsb' 5 2 = 0 := by decide

theorem witness_LaneResults : ∃ r, laneRow (.fadd h0 .f32 .rne 4 (.v 1) (.v 2)) = some r ∧
    Issues (.fadd h0 .f32 .rne 4 (.v 1) (.v 2)) t0 := ⟨_, rfl, issues_of (by decide +kernel)⟩

theorem witness_CompareMasks : ∃ r, maskRow (.fcmp h0 .f32 .lt 3 (.v 1) (.v 2)) = some r ∧
    Issues (.fcmp h0 .f32 .lt 3 (.v 1) (.v 2)) t0 := ⟨_, rfl, issues_of (by decide +kernel)⟩

theorem witness_MaskOperations : ∃ r, maskOpRow (.mand h0 3 1 2) = some r ∧ Issues (.mand h0 3 1 2) t0 ∧
    (∃ r, maskOpRow (.mand h0 0 1 2) = some r ∧ (planOf (.mand h0 0 1 2) t0).freezes t0 = false ∧ r.dest = 0) ∧
    (∃ r, maskOpRow (.mnot ⟨7, 0⟩ 3 1) = some r ∧ let s := tx fun x => { x with clmask := 0x7F }
      (planOf (.mnot ⟨7, 0⟩ 3 1) s).freezes s = false ∧ s.me.clmask.getLsbD r.head.cl.toNat = false) :=
  ⟨_, rfl, issues_of (by decide +kernel), ⟨_, rfl, by decide +kernel, rfl⟩, _, rfl, by decide +kernel, by decide +kernel⟩

/-- One issuing form of each clause stands in witness_issues1 and witness_issues2; here the masks of the reductions. -/
theorem witness_ReductionsBroadcast :
    (let s : State := { t0 with cores := [(0, { y0 x0 with masks := [(mkey 0 1, 0), (mkey 0 2, 0x8000)] })] }
     issuesB (.hadd ⟨0, 1⟩ 4 (.v 1)) s = true ∧ s.here.m 0 1 = 0 ∧ issuesB (.hmax ⟨0, 2⟩ 4 (.v 1)) s = true ∧
     s.here.m 0 2 = 1#16 <<< 15) := by decide +kernel

/-! ### Memory operations -/

/-- A compatibility segment. -/
def tCompat : State := tx fun x => { x with seg := { seg0 with compat := true } }

theorem witness_VectorLoads : isVload (.vld h0 4 21 2) = true ∧ isVload (.vlds h0 4 21 19 0) = true ∧
    (laneAddr t0 (.vld h0 4 21 2)).isSome = true ∧
    issuesB (.vld h0 4 21 2) t0 = true ∧ issuesB (.vlds h0 4 21 0 0) t0 = true ∧ issuesB (.vldx h0 4 21 1 0) tCompat = true ∧
    t0.poison = [] ∧ t0.me.seg.compat = false ∧ tCompat.me.seg.compat = true := by decide +kernel

/-- Lane l's address of a form. -/
def laneAt (s : State) (i : Instr) (l : Nat) : Int := ((laneAddr s i).map fun x => x.2.2 l).getD 0

/-- The line at SPHI, an unaligned one, and a cluster that is not the context's; lanes that are unaligned, below SPLO and
past SPHI, with an index register that does not exist; and the accumulator store's edges. -/
theorem witness_VectorAccessFaults :
    (let s := tx fun x => { x with scal := [(21, 0x5FFFF8), (22, 65), (23, 4), (24, 0x200000)], splo := 64 }
     (∀ i ∈ [Instr.vlds h0 4 21 23 0, .vsts h0 4 22 23 0, .vldx h0 4 22 320 0, .vlds h0 4 23 23 0, .vst h0 4 23 0],
       (laneAddr s i).isSome = true ∧ (planOf i s).freezes s = false) ∧
     isPlainVm (.vlds h0 4 21 23 0) = false ∧ indexExists (.vldx h0 4 22 320 0) = false ∧ (s.here.m 0 0) = 0xFFFF ∧
     laneAt s (.vlds h0 4 21 23 0) 1 + 4 ≤ 0x600000 ∧ (0x600000 : Int) ≤ laneAt s (.vlds h0 4 21 23 0) 2 ∧
     (∀ l, l < 16 → laneAt s (.vlds h0 4 21 23 0) l % 4 = 0) ∧ laneAt s (.vsts h0 4 22 23 0) 0 % 4 ≠ 0 ∧
     laneAt s (.vlds h0 4 23 23 0) 0 < s.me.splo.toNat ∧
     s.me.clmask.getLsbD 0 = true ∧
     (∀ i ∈ [Instr.vlda h0 4 22 0, .vsta h0 4 22 0, .vlda h0 4 24 0, .vsta h0 4 24 0], (planOf i s).freezes s = false) ∧
     ((s.me.s 22).toNat % 2 ^ 32 + 0) % 64 ≠ 0 ∧ 0x200000 ≤ (s.me.s 24).toNat % 2 ^ 32) ∧
    (let s := tx fun x => { x with scal := [(21, 0x600000), (22, 65)], clmask := 0x7F }
     (planOf (.vld h0 4 21 0) s).freezes s = false ∧ s.me.clmask.getLsbD 0 = true ∧ (s.here.m 0 0).getLsbD 0 = true ∧
     ((s.me.s 21).toNat % 2 ^ 32) % 64 = 0 ∧ s.me.sphi.toNat ≤ (s.me.s 21).toNat ∧ s.me.splo.toNat ≤ (s.me.s 21).toNat ∧
     (planOf (.vld h0 4 22 0) s).freezes s = false ∧ s.here.m 0 0 ≠ 0 ∧ (s.me.s 22).toNat % 64 ≠ 0 ∧ 0x600000 ≤ (s.me.s 21).toNat ∧
     (planOf (.vld ⟨7, 0⟩ 4 21 0) s).freezes s = false ∧ s.me.clmask.getLsbD 7 = false) := by decide +kernel

theorem witness_VectorStores : isVload (.vst h0 4 21 2) = false ∧ isVload (.vstx h0 4 21 1 0) = false ∧
    (laneAddr t0 (.vst h0 4 21 2)).isSome = true ∧
    issuesB (.vst h0 4 21 2) t0 = true ∧ issuesB (.vsts h0 4 21 0 0) t0 = true ∧ issuesB (.vstx h0 4 21 1 0) t0 = true ∧
    t0.me.ending = false ∧
    (∀ i ∈ [Instr.vst h0 4 21 2, .vsts h0 4 21 0 0], ∀ l, l < 16 →
      Lasts (heard i t0) ((heard i t0).access .loc 1) (spmPa t0.cur.1.toNat (laneAt t0 i l).toNat) 4) := by decide +kernel

theorem witness_AccumulatorAccesses : issuesB (.vlda h0 4 21 2) t0 = true ∧
    (let u := heard (.vlda h0 4 21 2) t0
     u.sure (u.access .loc 1) (accPa 0 192) 64 = true) ∧ issuesB (.vsta h0 4 21 2) t0 = true ∧
    t0.poison = [] ∧ t0.me.ending = false := by decide +kernel

theorem witness_LocalScalarAccesses : Performs g0 t0 ∧ issuesB (.ldsL g0 22 0 0 16 true .h) t0 = true ∧
    issuesB (.ldsL g0 22 0 0 24 false .d) t0 = true ∧ issuesB (.stsL g0 0 21 0 16 .b) t0 = true ∧ t0.me.ending = false ∧
    (let u := heard (.stsL g0 0 21 0 16 .b) t0
     Lasts u (u.access .loc (clsBit 0)) (spmPa 0 16) 1) := by
  decide +kernel

theorem witness_PushesRequestLines :
    (∃ x, pushRow (.pushld g0 push0) = some x ∧ performs x.1 t0.me = true) ∧
    (∃ x, pushRow (.pushldx g0 push0 21) = some x ∧ performs x.1 t0.me = true) ∧
    issuesB (.pushld g0 push0) t0 = true ∧ issuesB (.pushlds g0 push0 21) t0 = true ∧
    issuesB (.pushldx g0 push0 21) t0 = true ∧ t0.me.ending = false :=
  ⟨⟨_, rfl, by decide +kernel⟩, ⟨_, rfl, by decide +kernel⟩, by decide +kernel⟩

/-- Cluster 0's queue with n lines, landed or not. -/
def tQueue (n : Nat) (landed : Bool) : State :=
  { t0 with cores := [(0, { y0 x0 with laqs := [(0, List.replicate n ⟨1, 0, 0, some 7, landed, false, false, 0, 0⟩)] })] }

theorem witness_PushQueueFull : ∀ x ∈ [(1021, true), (1021, false), (1024, false)],
    let s := tQueue x.1 x.2
    Performs g0 s ∧ s.me.owns push0.cl = true ∧ (s.me.a push0.a).toNat % 64 = 0 ∧
    (s.xlates .read ((List.range (push0.n.toNat + 1)).map fun i => (s.me.a push0.a + BitVec.ofNat 64 (64 * i)).toNat)).all
      (fun x => match x.2 with | .ok _ => true | _ => false) = true ∧
    (let landed := ((s.here.laq push0.cl).filter fun e => e.landed && !e.dropped).length
     (x.2 = true → 1024 < landed + (push0.n.toNat + 1)) ∧
     (x.2 = false → landed + (push0.n.toNat + 1) ≤ 1024 ∧ 1024 < (s.here.laq push0.cl).length + (push0.n.toNat + 1))) := by
  decide +kernel

theorem witness_GlobalVectorStores :
    (∃ x, stgRow t0 (.stgx g0 stg0 1) = some x ∧ performs x.1 t0.me = true) ∧
    issuesB (.stg g0 stg0) t0 = true ∧ issuesB (.stgs g0 stg0 21) t0 = true ∧ issuesB (.stgx g0 stg0 1) t0 = true ∧
    t0.me.ending = false := ⟨⟨_, rfl, by decide +kernel⟩, by decide +kernel⟩

theorem witness_GlobalScalarAccesses : Performs g0 t0 ∧ issuesB (.lds g0 22 0 0 16 true .b) t0 = true ∧
    issuesB (.lds g0 22 0 0 16 false .d) t0 = true ∧ issuesB (.sts g0 0 21 0 16 .d) t0 = true := by decide +kernel

theorem witness_AcquireAndRelease : Performs g0 t0 ∧ issuesB (.ldacq g0 22 5 .pkg 0) t0 = true ∧
    issuesB (.strel g0 5 21 .sys 0xFFFE) t0 = true := by decide +kernel

theorem witness_Atomics : (∃ x, amoRow t0.me (.amoAdd g0 amo0) = some x ∧ performs x.1 t0.me = true) ∧
    (∃ x, amoRow t0.me (.cas g0 amo0 21) = some x ∧ performs x.1 t0.me = true) ∧
    issuesB (.amoAdd g0 amo0) t0 = true ∧ issuesB (.cas g0 amo0 21) t0 = true ∧
    issuesB (.amoMin g0 ⟨22, 5, 21, .rel, .pkg, 0xFFFE⟩) t0 = true ∧ issuesB (.amoFadd g0 ⟨22, 5, 21, .relaxed, .die, 0⟩) t0 = true :=
  ⟨⟨_, rfl, by decide +kernel⟩, ⟨_, rfl, by decide +kernel⟩, by decide +kernel⟩

/-- Slot 0 of the tag table holds the tag of a5 (way 0) or nothing; s22 and s23 name slots 4095 and 4096. -/
def tTags (w : Dword) : State :=
  { t0 with
    cores := [(0, { y0 { x0 with scal := [(20, 0x40000000), (21, 64), (22, 4095), (23, 4096)] } with tags := [(0, w)] })] }

theorem witness_TagTable : AddrReady (tTags 0) 5 ∧ Performs g0 (tTags 0) ∧ LoopAllows (tTags 0) 22 ∧ ScalarReady (tTags 0) 21 ∧
    (tTags 0).me.ending = false ∧ ScalarReady (tTags 0) 22 ∧ ((tTags 0).me.s 22).toNat < 4096 ∧ ScalarReady (tTags 0) 23 ∧
    4096 ≤ ((tTags 0).me.s 23).toNat ∧
    (let hit (s : State) (w : Nat) := (aget s.here.tags w 0).getLsbD 27 = true ∧
       (aget s.here.tags w 0).toNat % 2 ^ 27 = (s.me.a 5).toNat / 2 ^ 21 % 2 ^ 27
     8 * (((tTags 0).me.a 5).toNat / 4096 % 512) = 0 ∧ hit (tTags 0x08000200) 0 ∧ ∀ w, w < 8 → ¬ hit (tTags 0x00000200) w) := by
  decide +kernel

theorem witness_NextUnitAsked : Performs g0 t0 ∧ t0.me.awaitsW (t0.me.nxuCount % 4) = false ∧
    t0.persistent t0.me.launch = true ∧ t0.me.ending = false ∧
    (let s : State := { t0 with launches := [{ l0 with record := 0 }] }
     Performs g0 s ∧ s.me.awaitsW (s.me.nxuCount % 4) = false ∧ s.persistent s.me.launch = false) := by
  decide +kernel

theorem witness_MatrixCommandsQueue :
    (∃ x, mxRow t0.me (.mma g0 0 0 mma0) = some x ∧ performs x.1 t0.me = true) ∧
    (∃ x, mxRow t0.me (.accrd g0 0 row0 .l8) = some x ∧ performs x.1 t0.me = true) ∧
    issuesB (.mma g0 0 0 mma0) t0 = true ∧ issuesB (.mmag g0 0 0 0 mma0) t0 = true ∧
    issuesB (.latch g0 0 0 1 ⟨1, true⟩ 0) t0 = true ∧ issuesB (.latcht g0 0 0 1 ⟨1, true⟩ 0 .w2) t0 = true ∧
    issuesB (.accz g0 row0) t0 = true ∧ issuesB (.accwr g0 0 row0 true) t0 = true ∧ issuesB (.accrd g0 0 row0 .l8) t0 = true ∧
    t0.me.ending = false := ⟨⟨_, rfl, by decide +kernel⟩, ⟨_, rfl, by decide +kernel⟩, by decide +kernel⟩

/-- The array reserved by a run of context c. -/
def tRes (c : CtxId) : State :=
  { t0 with cores := [(0, { y0 x0 with
    res := [⟨c, 1, true, false, false, none, 0⟩] })] }

theorem witness_ReservationsHold : ∀ c ∈ [(0 : CtxId), 1], Performs g0 (tRes c) ∧ ScalarReady (tRes c) row0.row ∧
    ∃ q, (tRes c).here.res = [q] ∧ (tRes c).here.cycle ≤ q.last ∧ q.array = true ∧ q.ctx = c ∧ (tRes c).cur.2 = 0 ∧
      q.runId = (tRes c).me.runId := by
  intro c hc
  refine ⟨?_, ?_, _, rfl, ?_, rfl, rfl, ?_, ?_⟩ <;> revert c <;> decide +kernel

theorem witness_CopyCommandsQueue :
    (∃ x, copyRow t0.me (.cpsend g0 cpy0 1) = some x ∧ performs x.1 t0.me = true) ∧
    issuesB (.cpy g0 cpy0) t0 = true ∧ issuesB (.cpyt g0 cpy0 21) t0 = true ∧
    issuesB (.cpym g0 ⟨1, 0, 0, 0, ⟨1, true⟩, 0⟩ 19 ⟨1, true⟩ 0) t0 = true ∧ issuesB (.cpsend g0 cpy0 1) t0 = true ∧
    t0.me.ending = false := ⟨⟨_, rfl, by decide +kernel⟩, by decide +kernel⟩

/-- A channel that belongs to another context; 16 commands waiting. -/
def cmd0 : CopyCmd :=
  { id := 9, ctx := 0, runId := 1, kind := .cpy, nest := 0, src := 0, dst := 0, cls := 0, done := none, launch := 1, pos := 0,
    unit := none, after := [], xfence := 0, excl := [] }
theorem witness_CopyQueueLimit :
    (let s := tx fun x => { x with nctx := 3 }
     Performs g0 s ∧ s.me.holds s.cur.2 3 = true ∧ s.me.holds s.cur.2 4 = false) ∧
    (let s : State := { t0 with cores := [(0, { y0 x0 with chans := [(0, { queue := List.replicate 16 cmd0 })] })] }
     Performs g0 s ∧ s.me.holds s.cur.2 0 = true ∧ nestReserved (s.me.n 0) = false ∧ nestBulk (s.me.n 0) = false ∧
     16 ≤ (s.here.chan 0).queue.length) := by decide +kernel

theorem witness_CopyRegisters : Performs g0 t0 ∧ issuesB (.nestld g0 1 0 8) t0 = true ∧ LoopAllows t0 22 ∧
    (let s := tx fun x => { x with scal := [(21, 0x600000)], nctx := 3 }
     Performs g0 s ∧ ScalarReady s 0 ∧ ScalarReady s 21 ∧ s.me.holds s.cur.2 2 = true ∧ (s.me.s 0).toNat % 64 = 0 ∧
     (s.me.s 21).toNat % 64 = 0 ∧ (s.me.s 0).toNat < (s.me.s 21).toNat ∧ (s.me.s 21).toNat ≤ 0x600000 ∧
     s.me.holds s.cur.2 15 = false ∧ (s.here.chan 2).queue.length < 32) := by decide +kernel

theorem witness_InUseAndExclusions : AddrReady t0 0 ∧ Performs g0 t0 ∧ issuesB (.buse g0 0 3) t0 = true ∧
    issuesB (.bfree g0 0 3) t0 = true ∧ t0.me.ending = false ∧ ScalarReady t0 21 ∧ t0.traced t0.me.launch = false ∧
    (let s : State := { t0 with launches := [{ l0 with record := BitVec.ofNat 512 (2 ^ 119) }] }
     Performs g0 s ∧ ScalarReady s 0 ∧ AddrReady s 5 ∧ s.traced s.me.launch = true) := by decide +kernel

theorem witness_DeviceLaunchesReserve : Performs g0 t0 ∧ issuesB (.launch g0 0 3) t0 = true ∧
    issuesB (.relaunch g0 0 20 3) t0 = true ∧
    (let s : State := { t0 with dies := [(0, { queues := [(3, { en := true, dev := true, log2n := 0, reserved := [⟨0, none, [], who0⟩] })] })] }
     Performs g0 s ∧ (s.me.a 0).toNat % 64 = 0 ∧
     s.xlate s.cur.1 (ctxWaiter s.cur.2) s.here.tenant (s.me.a 0).toNat .read = .ok 0x40000000 ∧
     s.queueFull (s.queue (dieOf s.cur.1) s.here.tenant 3) = true) := by decide +kernel

/-- The operations that store nothing issue and answer a next state (witness_issues1 to witness_issues4 for the rest). -/
theorem witness_OperationsKeepMemory : IsOperation (.add g0 22 20 21) ∧ issuesB (.add g0 22 20 21) t0 = true ∧
    storesAtIssue (.add g0 22 20 21) = false ∧ ∃ t, exec (.add g0 22 20 21) t0 = .next t :=
  ⟨by decide, by decide +kernel, rfl, _, rfl⟩

/-! ### Faults, cycles, translation and homes -/

/-- A fault ring of 16 records at 0x40008000. -/
def ring0 : Ring := { base := 0x40008000, log2n := 4, en := true }

theorem witness_FaultsTaken :
    (∀ d ∈ [({} : Die), taken0], let s : State := { t0 with tenants := [(0, { faultRing := ring0 })], dies := [(0, d)] }
     s.stampOn = false ∧ (s.tenant (s.core 0).tenant).faultRing.open = true ∧ (s.ctx 0 0).stopReq = false ∧
     (s.late.any fun e => e.log == .fault 0) = false ∧ spanOpen (s.storeOpen none) 0x40008000 64 = d.slots.isEmpty) ∧
    (∃ l, t0.launch (t0.ctx 0 0).launch = some l ∧ l.phase ≠ .failing ∧ l.phase ≠ .ended) ∧
    (t0.tenant (t0.core 0).tenant).faultRing.open = false ∧ ((tx fun x => { x with stopReq := true }).ctx 0 0).stopReq = true :=
  ⟨by decide +kernel, ⟨l0, by decide +kernel, by decide, by decide⟩, by decide +kernel, rfl⟩

theorem witness_HeldContextsResume :
    (let s := tx fun x => { x with run := .held, heldCode := 0x04 }
     (s.ctx 0 0).heldCode ≠ 0x10 ∧ (s.ctx 0 0).begun = true) := by decide +kernel

/-- A bundle of the ADDI that spec/06 writes out (S0 and COUNT = 1 in its header), where step fetches. -/
def tAddi : State := State.reset.withFetchWord 128 0x00000301450000018000000000020000

theorem witness_StepRunsAgenda : tAddi.agenda = .bundleIssue 0 0 .clean :: [] := rfl

/-- The bundle a verdict lets go. -/
def goes : Verdict → Option Decoded
  | .go b => some b
  | _ => none

theorem of_goes {v : Verdict} {b : Decoded} (h : goes v = some b) : v = .go b := by
  cases v <;> simp [goes] at h
  rw [h]

theorem witness_StepIssuesBundle :
    let s : State := { tAddi with agenda := [] }
    let u := s.preview 0
    let i : Instr := .addi ⟨0, false⟩ 20 20 1
    cycleReady s 0 = true ∧ (tAddi.ctx 0 0).part = none ∧ (u.core 0).primary = 0 ∧
    (∀ d, d ≠ 0 → (u.ctx 0 d).run ≠ .running) ∧ (u.ctx 0 0).part = none ∧
    ∃ b, judge u 0 0 = .go b ∧ opsOf b = [(0, i)] ∧ (planOf i (u.present 0 0 b.len)).lacc = [] :=
  ⟨by decide +kernel, by decide +kernel, by decide +kernel, by decide +kernel, by decide +kernel,
    ⟨false, false, none, [(0, some (.addi ⟨0, false⟩ 20 20 1))], 16⟩, of_goes (by decide +kernel), by decide +kernel,
    by decide +kernel⟩

/-- The state with this context in which die 0 is one cycle ahead of core 0. -/
def tCyc (f : Ctx → Ctx) : State := { tx f with dies := [(0, { cycle := 1 })] }

theorem witness_PresentationsHappen :
    (let s := tCyc id
     cycleReady s 0 = true ∧ (s.ctx 0 0).part = none ∧ presentsIn (s.preview 0) 0 0 = true ∧
     presentsIn (s.preview 0) 0 1 = false) ∧
    (let s := tCyc fun x => { x with part := some {} }
     cycleReady s 0 = true ∧ (s.ctx 0 0).part ≠ none ∧ presentsIn (s.preview 0) 0 0 = true) ∧
    (let s := tCyc fun x => { x with stall := true }
     (s.ctx 0 0).run = .running ∧ (s.ctx 0 0).part = none ∧ (s.ctx 0 0).stopReq = false ∧ (s.ctx 0 0).stall = true) ∧
    cycleReady t0 0 = false := by decide +kernel

/-- A context that presents a vector load of line 1. -/
def tLoad : State := tCyc fun x => { x with code := wrBytes [] 0x400 ((encodeBundle (.vld h0 4 21 0)).getD []) }

theorem witness_PresentationsHappen_rebuilt : cycleReady tLoad 0 = true ∧ (tLoad.ctx 0 0).part = none ∧
    presentsIn (tLoad.preview 0) 0 0 = true ∧ readsLine (tLoad.preview 0) 0 0 1 = true ∧
    (tLoad.preview 0).rebuildable (0 : CoreId).toNat 1 = true ∧ tLoad.errorLog.open = false ∧
    (let s : State := { tLoad with errorLog := ring0, dies := [(0, taken0)] }
     s.errorLog.open = true ∧ spanOpen (s.storeOpen none) (s.errorLog.slot 32) 32 = false) := by
  decide +kernel

/-- The lines of the bundle of `tLoad`, all served by free banks and none where the banks of line 1's group are taken. -/
theorem witness_BundlesMerge : ∃ b, judge tLoad 0 0 = .go b ∧ (tLoad.ctx 0 0).part = none ∧
    (let as := accsOf (plansOf (opsOf b) (tLoad.present 0 0 b.len))
     ((({} : Banks).serveAll [] 0 (as.map (·.1))).2.length = as.length) ∧
     ((⟨[1, 0], []⟩ : Banks).serveAll [] 0 (as.map (·.1))).2.length ≠ as.length) ∧ (∀ w ∈ wideSlots b, w ∉ [0]) ∧
    (∃ b2, judge (tAddi.preview 0) 0 0 = .go b2 ∧ ∃ w ∈ wideSlots b2, w ∈ [0]) :=
  ⟨⟨false, false, none, [(9, some (.vld h0 4 21 0))], 16⟩, of_goes (by decide +kernel), by decide +kernel, by decide +kernel,
    by decide +kernel, ⟨false, false, none, [(0, some (.addi ⟨0, false⟩ 20 20 1))], 16⟩, of_goes (by decide +kernel),
    by decide +kernel⟩

theorem witness_BanksServe :
    (let p : Banks := ⟨[1], []⟩
     33 % 32 ∈ p.taken ∧ 33 ∉ p.read ∧ (∀ n ∈ [0, 2, 3, 32], n ∉ p.taken) ∧ 2 % 32 ∉ p.taken ∧ 32 ∉ p.taken) ∧
    (let p : Banks := ⟨[1, 32], [1]⟩
     1 ∈ p.read ∧ 33 ∉ p.read ∧ 33 % 32 ∈ p.taken ∧ 32 ∈ p.taken) := by decide

/-- The sync word of the second bundle of spec/06, and the same with ANY; flag 20 was set in this cycle, flag 21 not. -/
theorem witness_SyncWordsHold :
    (let w : Word := 0x400C2000
     w.getLsbD 12 = false ∧ w.getLsbD 13 = true ∧ (0x400C3000 : Word).getLsbD 12 = true ∧
     (0x400C0000 : Word).getLsbD 13 = false ∧ (t0.ctx 0 0) = x0 ∧ syncMet x0 w = false ∧
     ∃ b, decode [0x00, 0x00, 0x82, 0x01, 0x00, 0x00, 0x00, 0x40, 0x00, 0x20, 0x0C, 0x40, 0x00, 0x00, 0x52, 0x04, 0x01, 0x01,
       0x00, 0x00, 0x00, 0x00, 0x00, 0x00] = .ok b ∧ b.sync = some w) ∧
    (let x : Ctx := { x0 with flags := 0x300000, setNow := 0x100000 }
     syncMet x 0x400C2000 = true ∧ x.setNow.getLsbD 20 = true ∧ x.setNow.getLsbD 21 = false) :=
  ⟨⟨by decide, by decide, by decide, by decide, rfl, by decide +kernel,
    ⟨false, true, some 0x400C2000, [(1, some (.add g0 16 17 18))], 24⟩, by decide +kernel, rfl⟩, by decide +kernel⟩

theorem witness_BundlesAdvance : tLoop.me.loop = some ⟨0x400, 0x500, [3], [0], none⟩ ∧ tLoop.me.npc ≠ 0x500 ∧
    (let x : Ctx := { x0 with npc := 0x500, loop := some ⟨0x400, 0x500, [2], [0], none⟩ }
     ∃ l, x.loop = some l ∧ x.npc = l.stop ∧ l.counts = [2] ∧ l.idx = [0] ∧ 0 + 1 < 2) ∧
    (let x : Ctx := { x0 with npc := 0x500, loop := some ⟨0x400, 0x500, [2], [1], none⟩ }
     ∃ l, x.loop = some l ∧ x.npc = l.stop ∧ l.counts = [2] ∧ l.idx = [1] ∧ 2 ≤ 1 + 1) ∧
    (∀ n ∈ [0, 3], let x : Ctx := { x0 with fmtPend := [(0x15, n + 1)] }
     x.loop = none ∧ x.fmtPend = [(0x15, n + 1)]) :=
  ⟨rfl, by decide, ⟨_, rfl, rfl, rfl, rfl, by decide⟩, ⟨_, rfl, rfl, rfl, rfl, by decide⟩, fun _ _ => ⟨rfl, rfl⟩⟩

/-- Die 0 is one cycle ahead of core 0; primacy has lasted RUNMAX cycles; the pre-emption bound is over. -/
theorem witness_CycleEventsHappen : cycleReady (tCyc id) 0 = true ∧
    (let s : State := { t0 with cores := [(0, { y0 x0 with primCycles := 4096, heir := some 1 })] }
     runmaxDue s 0 = true ∧ (s.core 0).runmax.toNat ≤ (s.core 0).primCycles ∧ (s.core 0).heir.isSome = true) ∧
    pmbDue (tx fun x => { x with preempt := true, pmbCount := 65536 }) 0 0 = true := by decide +kernel

theorem witness_ClockTicks : tickReady t0 = true ∧ (t0.die 1).stage = 0 ∧ (t0.die 1).sagTicks = 0 ∧
    (let s : State := { t0 with dies := [(0, { stage := 1, sinceLoss := 49 }), (1, { stage := 1, sinceLoss := 48 }),
       (2, { sag := true, sagTicks := 50, sinceLoss := 49 })] }
     tickReady s = true ∧ (s.die 0).stage ≠ 0 ∧ 49 ≤ (s.die 0).sinceLoss ∧ (s.die 1).sinceLoss < 49 ∧
     50 ≤ (s.die 2).sagTicks ∧ 49 ≤ (s.die 2).sinceLoss) ∧
    (let s : State := { t0 with dies := [(0, { temp := 16 * 120 })] }
     16 * 120 ≤ (s.die 0).temp) := by decide +kernel

/-- A result in flight for s22 and one for lanes 0 and 1 of v4. -/
def pend1 : Pend := ⟨.s 22, 7, 0xFFFF, 0, 0, 0, 0, 1⟩
def pend2 : Pend := ⟨.v 0 4, 7, 3, 0, 0, 0, 0, 4⟩
def tPend : State := tx fun x => { x with pend := [pend1, pend2] }

theorem witness_FixedLatencyLands : (tPend.ctx 0 0).part = none ∧
    (tPend.ctx 0 0).pend[0]? = some pend1 ∧ pend1.dest = .s 22 ∧
    (tPend.ctx 0 0).pend[1]? = some pend2 ∧ pend2.dest = .v 0 4 ∧ (3 : BitVec 16) &&& pend2.lanes ≠ 0 ∧
    pend2.lanes &&& ~~~(3 : BitVec 16) = 0 ∧ pend2.lanes &&& ~~~(1 : BitVec 16) ≠ 0 ∧ (1 : BitVec 16) &&& pend2.lanes ≠ 0 := by
  decide +kernel

/-- Three results that have arrived: for s22, for w1, and a cancelled one. -/
def sb1 : Sb := ⟨1, .s 22, none, true, 5, 0, 0, false, 0⟩
def sb2 : Sb := ⟨2, .w 1, none, true, 5, 0, 0, false, 0⟩
def sb3 : Sb := ⟨3, .s 23, none, true, 5, 0, 0, true, 0⟩
/-- And one for two lanes of v4. -/
def sb4 : Sb := ⟨4, .v 0 4 3, none, true, 5, 0, 0, false, 0⟩

theorem witness_ScoreboardLands :
    (let s := tx fun x => { x with sbs := [sb1, sb2, sb3, sb4] }
     (s.ctx 0 0).part = none ∧ (s.ctx 0 0).sbs[0]? = some sb1 ∧ (s.ctx 0 0).sbs[1]? = some sb2 ∧
     (s.ctx 0 0).sbs[2]? = some sb3 ∧ (s.ctx 0 0).sbs[3]? = some sb4) ∧ sb4.arrived = true ∧ sb4.cancelled = false ∧ (sb1.arrived = true ∧ sb1.cancelled = false ∧ sb1.dest = .s 22 ∧ sb1.poison = 0) ∧
    (sb2.arrived = true ∧ sb2.cancelled = false ∧ sb2.dest = .w 1) ∧ sb3.arrived = true ∧ sb3.cancelled = true := by
  decide +kernel

theorem witness_WaitsEnd :
    (let s := tx fun x => { x with waitGcc := some 0 }
     (s.ctx 0 0).waitGcc = some 0 ∧ (0#64).toNat ≤ s.gcc.toNat) ∧
    (let s := tx fun x => { x with waitGcc := some 1 }
     (s.ctx 0 0).waitGcc = some 1 ∧ s.gcc.toNat < (1#64).toNat) ∧
    (let s : State := { t0 with cores := [(0, { y0 x0 with laqs := [(0, [⟨1, 0, 0, some 7, true, false, true, 0, 0⟩])] })] }
     ∃ e, (s.core 0).laq 0 = [] ++ e :: [] ∧ e.dropped = true ∧ e.landed = true) :=
  ⟨by decide +kernel, by decide +kernel, ⟨1, 0, 0, some 7, true, false, true, 0, 0⟩, by decide +kernel⟩

/-- A page table at 0x10000000: one directory, with a leaf of 1 GiB that is writable and one that breaks the rule. -/
def tTable : State :=
  { t0 with
    tenants := [(0, { ttroot := 0x10000001 })]
    mem := wrBytes (wrBytes (wrBytes [] 0x10000000 (leBytes 8 0x10001001)) 0x10001000 (leBytes 8 0x4000000F)) 0x10001008
      (leBytes 8 0x8000001B)
    cores := [(0, { y0 x0 with walks := [⟨0, [0], some 0, 0⟩, ⟨0x4000, [0, 1], some 1, 0⟩, ⟨0x8000, [5], some 2, 0⟩], tlb := [] })] }

theorem witness_WalksComplete : walkReady tTable 0 0 = true ∧ walkReady tTable 0 0x40000000 = true ∧ tTable.poison = [] ∧
    (∃ e, tTable.walk (tTable.core 0).tenant 0 = .ok e) ∧
    (∃ w ∈ (tTable.core 0).walks, w.page = 0x40000000 / 65536 ∧ 1 ∈ w.waiters ∧ 2 ∉ w.waiters) ∧
    tTable.walk (tTable.core 0).tenant 0x40000000 = .error (1, 1) ∧
    tTable.walk (tTable.core 0).tenant 0x80000000 = .error (1, 0) :=
  ⟨by decide +kernel, by decide +kernel, rfl, ⟨⟨0, 30, 0x40000000, true, true, false⟩, by decide +kernel⟩, by decide +kernel,
    by decide +kernel, by decide +kernel⟩

theorem witness_WalkReadsLeaf : tTable.poison = [] ∧ (tTable.tenant 0).ttroot.getLsbD 0 = true ∧
    (∀ va ∈ [0, 0x40000000], 
      let e0 := rdDword tTable.mem (((tTable.tenant 0).ttroot.extractLsb' 12 36).toNat * 4096 + 8 * (va / 2 ^ 39 % 512))
      let e1 := rdDword tTable.mem ((e0.extractLsb' 12 36).toNat * 4096 + 8 * (va / 2 ^ 30 % 512))
      e0.getLsbD 0 = true ∧ e0.getLsbD 1 = false ∧ e0.extractLsb' 5 7 = 0 ∧ e0.extractLsb' 48 16 = 0 ∧
      e1.getLsbD 0 = true ∧ e1.getLsbD 1 = true ∧ e1.extractLsb' 5 7 = 0 ∧ e1.extractLsb' 48 16 = 0 ∧
      (e1.extractLsb' 12 36).toNat * 4096 % 2 ^ 30 = 0 ∧ (e1.getLsbD 3 && e1.getLsbD 4) = decide (va ≠ 0)) := by
  decide +kernel

theorem witness_TranslationRules : (2 : Nat) ^ 48 ≤ 2 ^ 48 ∧ (2 : Nat) ^ 48 - 1 < 2 ^ 48 ∧
    (∃ e, (t0.core 0).tlb.find? (fun e => e.covers 0x1FFFFF) = some e ∧ e.grants .read = true ∧
      t0.reach 0 (e.pa + 0x1FFFFF % 2 ^ e.lg) = true) ∧
    (∃ e, (t0.core 0).tlb.find? (fun e => e.covers 0x200000) = some e ∧ e.grants .read = true ∧
      t0.reach 0 (e.pa + 0x200000 % 2 ^ e.lg) = false) ∧
    (∃ e, (t0.core 0).tlb.find? (fun e => e.covers 0x40000000) = some e ∧ e.grants .fetch = false) ∧
    (t0.core 0).tlb.find? (fun e => e.covers (2 ^ 48 - 1)) = none ∧ (t0.core 0).failed 0 ((2 ^ 48 - 1) / 65536) = none ∧
    (({ y0 x0 with walkFail := [⟨0xFFFFFFFF, (1, 1), [0]⟩] } : Core).failed 0 ((2 ^ 48 - 1) / 65536)) = some (1, 1) :=
  ⟨by decide, by decide, ⟨⟨0, 30, 0x40000000, true, true, true⟩, by decide +kernel⟩,
    ⟨⟨0, 30, 0x40000000, true, true, true⟩, by decide +kernel⟩,
    ⟨⟨0x40000000, 30, 0x020000000000, true, true, false⟩, by decide +kernel⟩, by decide +kernel, by decide +kernel,
    by decide +kernel⟩

/-- Whether a read finds its bytes. -/
def found : CodeRead → Bool
  | .ok _ => true
  | _ => false

theorem of_found {x : CodeRead} (h : found x = true) : ∃ a, x = .ok a := by
  cases x <;> simp_all [found]

def tFetch : State := tx fun x => { x with fetchMiss := [0], blocks := [] }

theorem witness_FetchVerifies : fetchReady tFetch 0 0 0 = true ∧
    (∃ bs, tFetch.fetchRead 0 0 (tFetch.ctx 0 0).seg.codeBase 1024 = .ok bs) ∧
    (∃ tag, tFetch.fetchRead 0 0 (tFetch.ctx 0 0).seg.codeEnd 16 = .ok tag) ∧
    (∀ at_ ∈ [[(0x40000400, 1024)], []], ∀ p ∈ at_, tFetch.sure ((tFetch.ctx 0 0).fetches 0 0) p.1 p.2 = true) ∧
    (let s := tx fun x => { x with segOk := false }
     checkReady s 0 0 = true ∧ s.nextErrs = [] ∧ s.vread 0 0 1024 = none) ∧
    (let s : State := { tTable with
       tenants := [(0, { ttroot := 0x10000001, verified := [(0, 0, 0)] })], cores := [(0, y0 { x0 with segOk := false })] }
     checkReady s 0 0 = true ∧ s.vread 0 0 1024 = some (List.replicate 1024 0) ∧ s.vread 0 0 0 = some [] ∧
     (0, 0, 0) ∈ (s.tenant 0).verified ∧ (0, 0, 0) ∉ (tTable.tenant 0).verified) :=
  ⟨by decide +kernel, of_found (x := tFetch.fetchRead 0 0 (tFetch.ctx 0 0).seg.codeBase 1024) (by decide +kernel),
    of_found (x := tFetch.fetchRead 0 0 (tFetch.ctx 0 0).seg.codeEnd 16) (by decide +kernel), by decide +kernel,
    by decide +kernel, by decide +kernel⟩

/-- A request of context 0 at a physical address. -/
def req0 (id pos : Nat) (cls : BitVec 4) (pa : Nat) (kind : ReqKind) : Req :=
  { id := id, core := 0, ctx := 0, runId := 1, launch := 1, tenant := 0, pos := pos, lane := 0, cls := cls, va := 0x1000, pa := pa
    len := 4, kind := kind, deadline := 0, rel := none, acq := none, scope := .ctx, unit := none, record := false }

theorem witness_RequestsPerform :
    serveReady { t0 with reqs := [req0 1 0 0 0x40000000 (.store [1, 2, 3, 4])] } 0 = true ∧
    homeReady { t0 with reqs := [req0 1 0 0 0x020000000000 (.load 4 true)] } 0 = true ∧
    homeOf 0x020000000000 ≠ .dram ∧
    (let s := { t0 with reqs := [req0 1 0 0 0x40000000 (.load 4 true)] }
     serveReady s 0 = true ∧ (req0 1 0 0 0x40000000 (.load 4 true)).words[(0#7).toNat]? = some 0x40000000 ∧
     homeOf 0x40000000 = .dram ∧ s.errorLog.open = false) := by decide +kernel

/-- The three reasons an access waits: a common byte, an earlier one of its class, a fence between them. -/
theorem witness_OrderedAccessesWait :
    (let a := req0 1 0 0 0x40000000 (.load 4 true); let r := req0 2 0 1 0x40000003 (.load 4 true)
     a.pa < r.pa + r.len ∧ r.pa < a.pa + a.len) ∧
    (let a := req0 1 0 2 0x40000000 (.load 4 true); let r := req0 2 1 2 0x40000004 (.load 4 true)
     a.cls = r.cls ∧ a.pos < r.pos) ∧
    (let s := tx fun x => { x with fences := [⟨1, 3, .pkg⟩] }
     let a := req0 1 1 0 0x40000000 (.load 4 true); let r := req0 2 2 1 0x40000004 (.load 4 true)
     ∃ f ∈ (s.ctx r.core r.ctx).fences, a.pos ≤ f.pos ∧ f.pos < r.pos ∧ f.mask.getLsbD a.cls.toNat = true ∧
        f.mask.getLsbD r.cls.toNat = true) := by decide +kernel

theorem witness_HomesAnswer : homeOf 0x40000000 = .dram ∧ isAcc 0x020000000000 = true ∧ t0.stampOn = false ∧
    (∀ pa ∈ [0x40000000, 0x020000000000], Lasts t0 (req0 1 0 0 pa (.store [1, 2, 3, 4])).who pa 4) ∧
    (let s := tx fun x => { x with sbs := [⟨1, .s 22, none, false, 0, 0, 0, false, 0⟩] }
     let r := req0 1 0 0 0x40000000 (.load 4 true)
     r.record = false ∧ ∃ b ∈ (s.ctx r.core r.ctx).sbs, b.id = r.id ∧ ∀ d ∈ (s.ctx r.core r.ctx).sbs, d.id = r.id → d = b) := by
  decide +kernel

/-- A read that may miss a write of another core to its byte, one that may not since the write is its own context's, and a
release whose sequence a later acquire finds. -/
theorem witness_ReadsReturnWrites :
    (let w : Who := { path := .glob, core := 4 }
     let own : Who := { path := .glob, core := 0, pos := 1 }
     let s := t0.writeBy w 0x40000000 [1]
     s.sure own 0x40000000 1 = false ∧ (s.missable own 0x40000000 1).length = 1 ∧ t0.sure own 0x40000000 1 = true ∧
     t0.stampOn = false ∧ Lasts t0 own 0x40000000 1 ∧ t0.promises = [] ∧ own.before { own with pos := 2 } = true) ∧
    (let r : Req := { req0 2 3 0 0x020000000000 (.strel 7) with rel := some 0xFFFF, scope := .pkg }
     let a : Req := { req0 3 5 0 0x020000000000 .ldacq with core := 4, acq := some 0xFFFF, scope := .pkg }
     let s := t0.writeBy { path := .glob, core := 0, ctx := 0, cls := 1, pos := 1 } 0x40000000 [1]
     r.pa % 4 = 0 ∧ inScope r.scope r.core r.ctx (Req.who a) = true ∧ inScope a.scope a.core a.ctx r.who = true ∧
     ∃ e, s.pasts[0]? = some e ∧ e.who.path = .glob ∧ e.who.core = r.core ∧ e.who.ctx = r.ctx ∧ e.who.pos < r.pos ∧
       e.who.cls &&& (0xFFFF ||| clsBit r.cls) ≠ 0) :=
  ⟨by decide +kernel, by decide +kernel, by decide +kernel, by decide +kernel, _, rfl, by decide +kernel⟩

theorem witness_LinesLand :
    (let s : State := { t0 with cores := [(0, { y0 x0 with laqs := [(0, [⟨1, 0, 0, some 7, false, false, false, 0, 0⟩])] })] }
     ∃ e, ((s.core 0).laq 0)[0]? = some e ∧ e.line.isSome = true ∧ e.landed = false) :=
  ⟨⟨1, 0, 0, some 7, false, false, false, 0, 0⟩, by decide +kernel⟩

/-- A spill of 8 entries to the page at 0x100000, and a fill of them. -/
theorem witness_WindowTransfers : ∀ sp ∈ [true, false],
    let s := tx fun x => { x with bsa := 0x0001000000100000, bot := if sp then 0 else 8, xfer := some (sp, if sp then 8 else 0) }
    s.nextErrs = [] ∧ xferReady s 0 0 = true ∧ (s.ctx 0 0).xfer = some (sp, if sp then 8 else 0) ∧
    xferCheck { s with cur := (0, 0) } (s.ctx 0 0) (if sp then .write else .read)
      (xferEntries (Min.min (s.ctx 0 0).bot.toNat (if sp then 8 else 0))
        (Max.max (s.ctx 0 0).bot.toNat (if sp then 8 else 0))) = .ok ∧ s.stampOn = false ∧
    homeOf 0x40100000 = .dram ∧ Lasts s ((s.ctx 0 0).xferWho 0 0) 0x40100000 8 ∧
    s.sure ((s.ctx 0 0).xferWho 0 0) 0x40100000 8 = true := by decide +kernel

/-- The spill area has shrunk since the bundle asked for its spill. -/
theorem witness_WindowTransfers_stops :
    let s := tx fun x => { x with bsa := 0x100000, xfer := some (true, 8) }
    s.nextErrs = [] ∧ xferReady s 0 0 = true ∧ (s.ctx 0 0).xfer = some (true, 8) ∧
    xferCheck { s with cur := (0, 0) } (s.ctx 0 0) .write (xferEntries 0 8) = .fault { code := 0x12, va := 0x100000 } := by
  decide +kernel

theorem witness_BarriersComplete :
    (let s := tx fun x => { x with barCount := [(scopeNum .core, 1)], barWait := some (.core, 1) }
     s.barInstance 1 .core 0 = some 1 ∧ s.coResident 1 = true ∧ (0, 0) ∈ s.barMembers 1 .core 0) := by decide +kernel

/-! ### Engines and launches -/

/-- The channel of core 0 with this state. -/
def tChan (c : CopyChan) : State := { t0 with cores := [(0, { y0 x0 with chans := [(0, c)] })], ports := [(1, { en := true, up := true, tmask := 1 })] }

/-- Three commands that start: a plain one, a timed one at this very tick, and one for a port that is open. -/
theorem witness_CopyStarts : ∀ kind ∈ [CopyKind.cpy, .timed 0, .send 1],
    let cmd := { cmd0 with kind := kind }
    let s := tChan { queue := [cmd] }
    ((s.core 0).chan 0).run = none ∧ ((s.core 0).chan 0).queue = cmd :: [] ∧ s.performed cmd.after = true ∧
    (0#64).toNat ≤ s.gcc.toNat ∧ nestBulk cmd.nest = false ∧ (s.ctx 0 cmd.ctx).preempt = false ∧
    s.portOpen 1 (s.core 0).tenant = true ∧ s.portOpen 2 (s.core 0).tenant = false := by
  decide +kernel

/-- A nest of one iteration that writes 65 bytes of zeros to local memory. -/
def run0 : CopyRun := { cmd := { cmd0 with nest := BitVec.ofNat 512 (64 * 2 ^ 480 + 2 ^ 496 + 2 ^ 498), dst := 0x1000, done := some 63 }
                        lo := 0, prog := [], armed := none, stop := none, recorded := [] }

theorem tChan_chan (c : CopyChan) : ((tChan c).core 0).chan 0 = c := rfl

/-- Iteration 0's next piece. -/
def piece0 (s : State) (k : CoreId) (ch : Chan) (r : CopyRun) : Piece :=
  let n := r.cmd.nest
  let p := r.piece 0
  { j := 0, sa := p.1, da := p.2.1, len := p.2.2
    src := if nestZsrc n then .zero else if nestSloc n then .spm p.1 else sideOf s k ch p.1 false
    dst := match r.cmd.kind with
      | .send q => .peer (peerCell q p.2.1)
      | _ => if nestDloc n then .spm p.2.1 else sideOf s k ch p.2.1 true }

theorem servable_of {s : State} {k : CoreId} {ch : Chan} {r : CopyRun} (h : ((s.core k).chan ch).run = some r)
    (hc : (r.stop.isNone && (r.lo == 0) && (nestTotal r.cmd.nest == 1) && s.hasEngine k r.cmd &&
      s.pieceOk k r (piece0 s k ch r)) = true) : s.servable k ch = some (r, piece0 s k ch r) := by
  simp only [Bool.and_eq_true, beq_iff_eq] at hc
  obtain ⟨⟨⟨⟨h1, h2⟩, h3⟩, h4⟩, h5⟩ := hc
  have hp : s.nextPiece k ch r = piece0 s k ch r := by
    have : r.pick (Config.freeNat s.freeCtr) = 0 := by unfold CopyRun.pick; simp [h2, h3, Nat.mod_one]
    rcases hk : r.cmd.kind with _ | _ | _ | _ <;> simp only [State.nextPiece, piece0, this, hk]
  unfold State.servable
  simp only [h, Option.bind_some, hp, h1, h2, h3, h4, h5]
  rfl

/-- A command of one iteration on channel 0, whose walks of the page at VA 0x80000000 have failed. -/
def tCopy (kind : CopyKind) (bits : Nat) (src dst : Dword) : State :=
  let s := tChan { run := some { run0 with cmd := { cmd0 with kind := kind, nest := BitVec.ofNat 512 (64 * 2 ^ 480 + bits * 2 ^ 496),
                                                                  src := src, dst := dst } } }
  s.modCore 0 fun y => { y with walkFail := [⟨0x8000, (1, 1), [4]⟩] }

/-- The cells of a destination. -/
def cellsOf : Side → List Nat
  | .spm off => [spmPa 0 off]
  | .phys pa => [pa]
  | .peer c => [c]
  | _ => []

/-- The cells that a piece goes to are open to it. -/
abbrev OpenCells (s : State) (r : CopyRun) (p : Piece) : Prop :=
  ∀ cell ∈ cellsOf p.dst,
    Lasts s { r.cmd.who 0 0 with iter := p.j } cell 64 ∧
    (∀ i, i < 64 → r.later p.j ((p.da :: r.cmd.destVas s 0 cell).map (· + i)) = false) ∧
    ∀ v ∈ r.cmd.sourceVas s 0 cell, ∀ i, i < 64 → r.cmd.covers (v + i) = false

/-- Zeros to local memory, local bytes to a global line, zeros to a peer, a line refused by the window check, and a source
whose translation fails. -/
def copies : List (State × Side × Side) :=
  [(tCopy .cpy 5 0 0x1000, .zero, .spm 0x1000), (tCopy .cpy 2 0x1000 0x40000000, .spm 0x1000, .phys 0x020000000000),
    (tCopy (.send 1) 1 0 0x1000, .zero, .peer (peerCell 1 0x1000)), (tCopy .cpy 1 0 0x200000, .zero, .drop),
    (tCopy .cpy 4 0x80000000 0x1000, .stop { dataFault 0xFF 0x80000000 1 1 false with eng := true }, .spm 0x1000)]

theorem witness_CopyMovesBytes : ∀ x ∈ copies, ∃ r p, x.1.servable 0 0 = some (r, p) ∧ p.src = x.2.1 ∧ p.dst = x.2.2 ∧
    x.1.copyTurn 0 0 r = true ∧ x.1.stampOn = false ∧ x.1.saves = [] ∧ r.done r.lo < nestLen r.cmd.nest ∧
    (r.cmd.receivers 0).length = 1 ∧ (x.1.core 0).owned (x.1.core 0).tenant = true ∧
    ahas (x.1.core 0).inuse (0x1000 / 4096) = false ∧ x.1.sure { r.cmd.who 0 0 with iter := p.j } (spmPa 0 0x1000) 64 = true ∧
    x.1.poisoned (spmPa 0 0x1000) 64 = false ∧ OpenCells x.1 r p := by
  intro x hx
  have h : ∃ r, ((x.1.core 0).chan 0).run = some r ∧ (r.stop.isNone && (r.lo == 0) && (nestTotal r.cmd.nest == 1) &&
      x.1.hasEngine 0 r.cmd && x.1.pieceOk 0 r (piece0 x.1 0 0 r)) = true ∧ (piece0 x.1 0 0 r).src = x.2.1 ∧
      (piece0 x.1 0 0 r).dst = x.2.2 ∧ x.1.copyTurn 0 0 r = true ∧ x.1.stampOn = false ∧ x.1.saves = [] ∧
      r.done r.lo < nestLen r.cmd.nest ∧ (r.cmd.receivers 0).length = 1 ∧ (x.1.core 0).owned (x.1.core 0).tenant = true ∧
      ahas (x.1.core 0).inuse (0x1000 / 4096) = false ∧
      x.1.sure { r.cmd.who 0 0 with iter := (piece0 x.1 0 0 r).j } (spmPa 0 0x1000) 64 = true ∧
      x.1.poisoned (spmPa 0 0x1000) 64 = false ∧ OpenCells x.1 r (piece0 x.1 0 0 r) := by
    simp only [copies, List.mem_cons, List.not_mem_nil, or_false] at hx
    rcases hx with rfl | rfl | rfl | rfl | rfl <;> exact ⟨_, rfl, by decide +kernel⟩
  obtain ⟨r, h1, h2, h3, h4, h5⟩ := h
  exact ⟨r, _, servable_of h1 h2, h3, h4, h5⟩

theorem witness_CopyWritesZeros : ((tChan { run := some run0 }).core 0).chan 0 = { run := some run0 } ∧ run0.stop = none ∧
    run0.cmd.kind = .cpy ∧ run0.lo = 0 ∧ run0.prog = [] ∧ (tChan { run := some run0 }).stampOn = false ∧
    ahas ((tChan { run := some run0 }).core 0).inuse (run0.cmd.dst.toNat / 4096) = false ∧
    nestZsrc run0.cmd.nest = true ∧ nestDloc run0.cmd.nest = true ∧ nestBulk run0.cmd.nest = false ∧
    (let s := tChan { run := some run0 }
     (s.core 0).owned (s.core 0).tenant = true ∧ s.engOk (spmLines (spmPa 0 0x1000) 64) = true ∧ s.copyTurn 0 0 run0 = true ∧
     Lasts s { run0.cmd.who 0 0 with iter := 0 } (spmPa 0 0x1000) 64) ∧
    nestTotal run0.cmd.nest = 1 ∧ nestLen run0.cmd.nest = 65 :=
  ⟨tChan_chan _, by decide +kernel⟩

/-- The same with its one iteration done. -/
def run1 : CopyRun := { run0 with lo := 1 }

theorem witness_CopyEnds : ((tChan { run := some run1 }).core 0).chan 0 = { run := some run1 } ∧
    nestTotal run1.cmd.nest ≤ run1.lo ∧ run1.cmd.kind = .cpy ∧ run1.cmd.done = some 63 ∧
    ((tChan { run := some run1 }).ctx 0 run1.cmd.ctx).inRun run1.cmd.runId = true ∧
    (let s (g : Dword) : State := { t0 with gcc := g, dies := [(0, { slot := 63 })] }
     ((s 64).die 0).slot ≠ (s 64).gcc.extractLsb' 6 6 ∧ ((s 0).die 0).slot ≠ (s 0).gcc.extractLsb' 6 6 ∧
     (s 64).late = [] ∧ (s 64).gcc.extractLsb' 6 6 ≠ 0 ∧ (s 0).gcc.extractLsb' 6 6 = 0 ∧ ((s 0).die 0).slotPend = []) ∧
    ({ slot := 63, slotPend := [(1, 0x10)] } : Die).slotPend = [(1, 0x10)] :=
  ⟨tChan_chan _, by decide +kernel⟩

/-- A command of the matrix engine. -/
def mx0 : MxCmd :=
  { id := 5, ctx := 0, runId := 1, launch := 1, kind := .accz 2047 1, fmts := 0, done := some 63, cls := 0, issued := 0, pos := 0
    xfence := 0, after := [], splo := 0, sphi := 0x600000, started := false, beat := 0, next := 0, left := [], flags := 0, list := []
    seen := [], consumed := false }

def tMx (c : MxCmd) : State := { t0 with cores := [(0, { y0 x0 with mx := [c] })] }

/-- A command behind an ACCRD that has rows to land and one whose rows have landed; a command alone; one behind a LATCH that has neither its part nor its latch; one behind an ACCZ that holds the array. -/
theorem witness_MatrixStarts :
    (∀ next ∈ [0, 9], let e := { mx0 with id := 4, started := true, kind := .accrd 0 5 1 .l8, beat := 1, next := next }
     e.kind.beats ≤ e.beat ∧ (e.next ≤ ((tMx e).core 0).cycle ↔ next = 0) ∧ e.kind.onArray = true) ∧
    ((tMx mx0).core 0).mx = [] ++ mx0 :: [] ∧ mx0.started = false ∧ (tMx mx0).performed mx0.after = true ∧
    (let e := { mx0 with id := 4, started := true, kind := .latch 0 64 1 none }
     e.started = true ∧ e.id ≠ mx0.id ∧ e.kind.onArray = false ∧ mx0.kind.onLoader = false ∧ mx0.kind.latchUse = none) ∧
    (let e := { mx0 with id := 4, started := true }
     e.started = true ∧ e.id ≠ mx0.id ∧ e.beat < e.kind.beats ∧ e.kind.onArray = true ∧ mx0.kind.onArray = true) := by
  decide +kernel

theorem witness_AcczClearsRow :
    (let c := { mx0 with started := true }
     ((tMx c).core 0).mx = [c] ∧ c.kind = .accz 2047 1 ∧ c.due ((tMx c).core 0).cycle = true ∧ (tMx c).poison = []) := by
  decide +kernel

/-- A core with this access in its array: one that is due later, a store of two words, a read of a row, and a write of a
line to the scratchpad. -/
def tAcc (act : AccAct) : State := { t0 with cores := [(0, { y0 x0 with accPipe := [⟨8, 5, 1, mx0.who 0, act, 0⟩] })] }

theorem witness_PipelineDrains :
    (∀ o ∈ ((tAcc (.put 2047 254 true [1, 2])).core 0).accPipe, ((tAcc (.put 2047 254 true [1, 2])).core 0).cycle < o.due) ∧
    (∀ add ∈ [true, false], (tAcc (.put 2047 254 add [1, 2])).poisoned (accWordPa 0 2047 254) 8 = false) ∧
    (tAcc (.get 2047 0 0 .f32)).poison = [] ∧ (tAcc (.get 2047 0 0 .f32)).sure (mx0.who 0) (accWordPa 0 2047 0) 1024 = true ∧
    (0x5FFFC0 % 64 = 0 ∧ (List.replicate 64 (1 : Byte)).length % 64 = 0 ∧
      0x5FFFC0 + (List.replicate 64 (1 : Byte)).length ≤ 0x600000 ∧
      ∀ p, ahas ((tAcc (.land 0x5FFFC0 (List.replicate 64 1))).core 0).inuse p = false) :=
  ⟨by decide +kernel, by decide +kernel, by decide +kernel, by decide +kernel, by decide, by decide, by decide, fun _ => rfl⟩

/-- MMA, MMAG before and after it has read its list, LATCH plain and transposed, ACCWR and ACCRD; and MMA where the engine
phase has served another line of its bank in this cycle. -/
theorem witness_MatrixBeatsDone : ∀ kl ∈ [(MxKind.mma 0 64 4 1 0 true false 0 none, ([] : List Nat)), (.mmag 0 64 0 4 1 0 true false 0 none, []),
      (.mmag 0 64 0 4 1 0 true false 0 none, [0, 1, 2, 3]), (.latch 0 64 0 none, []), (.latch 0 64 1 (some .w2), []),
      (.accwr 0 5 1 true, []), (.accrd 0 5 1 .l8, [])],
    let c := { mx0 with started := true, kind := kl.1, list := kl.2 }
    ((tMx c).core 0).mx = [c] ∧ c.due ((tMx c).core 0).cycle = true ∧ (tMx c).poison = [] ∧ ((tMx c).core 0).latchPoison = [] ∧
    pairOk (aFmt c.fmts) (bFmt c.fmts) = true ∧ LinesSure (tMx c) 0 c c.lines ∧
    (tMx c).sure (c.who 0) (spmPa 0 0) 1024 = true ∧ c.gather (tMx c) 0 = .ok ∧
    ((tMx c).beatServe 0 (linesLeft c (c.lines.take 1))).1 = [] := by
  decide +kernel

theorem witness_MatrixBeatsDone_waits :
    (let c := { mx0 with started := true, kind := .mma 0 2048 4 1 0 true false 0 none, fmts := 0x05 }
     ((tMx c).core 0).mx = [c] ∧ c.due ((tMx c).core 0).cycle = true ∧ (tMx c).poison = [] ∧
     ((tMx c).beatServe 0 (linesLeft c c.lines)).1 ≠ []) ∧
    (let c := { mx0 with started := true, kind := .mma 0 64 4 1 0 true false 0 none, fmts := 0x05 }
     ((tMx c).beatServe 0 (linesLeft c c.lines)).1 = []) := by decide +kernel

theorem witness_MatrixBeatsDone_rebuilt :
    { mx0 with started := true, kind := .mma 0 64 4 1 0 true false 0 none }.lines.contains 0 = true ∧
    (tMx mx0).errorLog.open = false := by decide +kernel

theorem witness_MatrixEnds :
    (let c := { mx0 with started := true, beat := 1, next := 0, kind := .mma 0 64 4 1 0 true false 0 (some 62) }
     ((tMx c).core 0).mx = [c] ∧ ((tMx c).ctx 0 c.ctx).inRun c.runId = true ∧ c.beaten = true ∧ c.kind.cons = some 62 ∧
     c.consumed = false ∧ (tMx c).poison = []) ∧
    (let c := { mx0 with started := true, beat := 1, next := 0 }
     ((tMx c).core 0).mx = [c] ∧ ((tMx c).ctx 0 c.ctx).inRun c.runId = true ∧
     c.complete ((tMx c).core 0).cycle = true ∧ c.done = some 63 ∧ ((tMx c).core 0).accPipe = []) := by decide +kernel

/-- n entries in a ring of 16 at VA 0x1000, the first of them with this value, naming l0's record at VA 0x2000. -/
def tRing (n : Nat) (entry : Nat) (table : Bool) : State :=
  { tTable with
    tenants := if table then [(0, { ttroot := 0x10000001 })] else []
    mem := wrBytes (wrBytes (wrBytes tTable.mem 0x40001000 (leBytes 8 entry)) 0x40002000 (leBytes 64 l0.record.toNat))
      0x020000000000 (leBytes 4 n)
    launches := []
    dies := [(0, { queues := [(3, { en := true, base := 0x1000, log2n := 4 })] })] }

/-- A waiting launch whose first predecessor's word is l0's. -/
def lLost : Launch :=
  { l0 with id := 2, phase := .waiting, members := [], startedCores := []
            record := BitVec.ofNat 512 ((recDonew l0.record).toNat * 2 ^ 448 + 2 ^ 479) }

theorem witness_RecordsTaken :
    (∀ x ∈ [(1, 0x2000, true), (17, 0x2000, true), (1, 0x2001, true), (1, 0x2000, false)], let s := tRing x.1 x.2.1 x.2.2
     s.nextErrs = [] ∧ visitNext s 0 0 = some 3 ∧ takeReady s 0 0 = true ∧
     (x.1 = 17 → 2 ^ (s.queue 0 0 3).log2n.toNat < (s.qtail (s.queue 0 0 3) - (s.queue 0 0 3).head).toNat) ∧
     (x.1 = 1 → (s.qtail (s.queue 0 0 3) - (s.queue 0 0 3).head).toNat ≤ 2 ^ (s.queue 0 0 3).log2n.toNat) ∧
     s.vread 0 0x1000 8 = (if x.2.2 then some (leBytes 8 x.2.1) else none)) ∧
    (let s := tRing 1 0x2000 true
     s.vread 0 0x2000 64 = some (leBytes 64 l0.record.toNat) ∧ s.recordCheck 0 l0.record false = 0 ∧
     s.recordCheck 0 l0.record true ≠ 0 ∧ s.ownsCore 0 (tailCore (recDonew l0.record)) = true) ∧
    (let s := { tRing 1 0x2000 true with launches := [lLost], lostWords := [(tailPa (recDonew l0.record), 0)] }
     ahas (s.queue 0 0 3).passes (s.queue 0 0 3).head.toNat = false ∧ (tailPa (recDonew l0.record), 0) ∈ s.lostWords ∧
     lLost.tenant = 0 ∧ lLost.naming (tailPa (recDonew l0.record)) = 1) ∧
    leNat (leBytes 8 0x2000) = 0x2000 ∧ leNat (leBytes 8 0x2001) % 64 ≠ 0 ∧
    (tRing 1 0x2000 true).ownsCore 0 (tailCore (BitVec.ofNat 26 (2 ^ 19))) = false := by decide +kernel

/-- A waiting launch with one predecessor, whose word is at row 1 of core 0, and a pass. -/
def lWait (flags : Nat) (pass : Option StatusAt) : Launch :=
  { l0 with id := 2, record := BitVec.ofNat 512 (flags + 16 * 2 ^ 128 + 2 ^ 200 - 2 ^ 192 + 2 ^ 256 + 2 ^ (448 + 8) + 2 ^ 479)
            pass := pass, phase := .waiting, started := false, members := [], startedCores := [] }
def tLaunch (l : Launch) (word : Byte) : State :=
  { t0 with launches := [l], mem := wrBytes [] 0x020000000000 (leBytes 4 word.toNat ++ List.replicate 1020 0 ++ [word]) }

/-- That launch, its completion word and its predecessor's word with this value, over the page table of `tTable`. -/
def tPass (word : Byte) : State :=
  let l := { lWait (2 ^ 119) (some ⟨0, some 0x020000000800⟩) with recordVa := 0x2000 }
  { tTable with
    launches := [l], stbase := 0x8000000000000000
    mem := wrBytes tTable.mem 0x020000000000 (leBytes 4 word.toNat) }

theorem witness_LaunchesAdmitted :
    (let r := (lWait 0 none).record
     r.getLsbD 479 = true ∧ tailPa (r.extractLsb' 448 26) = 0x020000000400 ∧ r.getLsbD 511 = false ∧ 0 < recW r) ∧
    (∀ word ∈ [0, 1, 2, 7], let s := tLaunch (lWait 0 none) word
     s.nextErrs = [] ∧ s.launch 2 = some (lWait 0 none) ∧ (lWait 0 none).phase = .waiting ∧ (lWait 0 none).predLost = 0 ∧
     s.lostWords = [] ∧ (rdWord s.mem 0x020000000400).toNat = word.toNat ∧ s.running = [] ∧ (s.die 0).stage ≠ 2 ∧
     s.ownsCore 0 (tailCore (recDonew (lWait 0 none).record)) = true) ∧
    (let l := { lWait 0 none with record := BitVec.ofNat 512 (2 ^ 256) }
     recTrace l.record = false ∧ recW l.record = 0 ∧ l.record.getLsbD 479 = false ∧ l.record.getLsbD 511 = false ∧
     l.members = []) ∧
    (let l := lWait (2 ^ 119) none
     let s := { tLaunch l 1 with stbase := 0x8000000000000000 }
     recTrace l.record = true ∧ s.traceBusy = false ∧ s.traceUsable = true) ∧
    (∀ word ∈ [0, 1, 7], let s := tPass word
     ∃ l at_, s.launch 2 = some l ∧ l.phase = .waiting ∧ l.pass = some at_ ∧ isAcc 0x020000000800 = true ∧
       at_.pa = some 0x020000000800 ∧ (∀ m ∈ s.launches, ¬ m.id.toNat < l.id.toNat) ∧
       (rdWord s.mem (tailPa (recDonew l.record))).toNat = word.toNat ∧ s.lostWords = [] ∧
       s.ownsCore l.tenant (accCore 0x020000000800) = true ∧ recTrace l.record = true ∧ s.traceBusy = false ∧
       s.traceUsable = true ∧ (s.die l.die).stage ≠ 2 ∧
       (s.traceTables l (List.range (recW l.record)) ++ s.traceWords l (List.range (recW l.record))).all
         (s.dramOpen (some l.tenant)) = true ∧ l.predLost.getLsbD 2 = false ∧
       { l with predLost := 4 }.predLost.getLsbD 2 = true ∧
       s.tread l.tenant (recTbuf l.record) 128 = some (List.replicate 128 0) ∧ s.selection l false = some []) := by
  refine ⟨by decide +kernel, by decide +kernel, by decide +kernel, by decide +kernel, fun word h => ?_⟩
  refine ⟨{ lWait (2 ^ 119) (some ⟨0, some 0x020000000800⟩) with recordVa := 0x2000 }, ⟨0, some 0x020000000800⟩, ?_⟩
  revert word
  decide +kernel

/-- An admitted persistent launch that has started nowhere, with core 0 free. -/
def lFree : Launch :=
  { l0 with record := BitVec.ofNat 512 (2 ^ 118 + 16 * 2 ^ 128 + 2 ^ 200 - 2 ^ 192 + 2 ^ 256), members := [], startedCores := [] }

/-- Persistent and dispatch launches, over cores as they come free and co-resident (PERS is bit 118, CORES bit 117). -/
theorem witness_CoresAssigned : ∀ flags ∈ [2 ^ 118, 0, 2 ^ 118 + 2 ^ 117, 2 ^ 117],
    let l := { lFree with record := BitVec.ofNat 512 (flags + 1 * 2 ^ 128 + 2 ^ 200 - 2 ^ 192 + 2 ^ 256) }
    let s : State := { t0 with launches := [l], cores := [(0, { v := true })] }
    assignReady s 0 = true ∧ firstFor s 0 = some l ∧ s.launch l.id = some l ∧ l.sel = none ∧
    recCores l.record = flags.testBit 117 ∧ recPers l.record = flags.testBit 118 ∧ (0 : CtxId).toNat < recCtxs l.record ∧
    l.next + 0 < recW l.record ∧ recCset l.record = [0] := by decide +kernel

/-- A segment's header and entry table at VA 0, its magic number right or wrong. -/
def tStart (magic : Nat) : State :=
  { tx (fun x => { x with run := .starting }) with
    mem := wrBytes [] 0x40000000 (leBytes 68 (magic + 2 ^ 32 + 0x400 * 2 ^ 64 + 0x400 * 2 ^ 96 + 0x600000 * 2 ^ 320 + 0x400 * 2 ^ 512)) }

theorem witness_ContextsStart : ∀ magic ∈ [0x4753565A, 0x4753565B],
    let s := tStart magic
    s.nextErrs = [] ∧ startReady s 0 0 = true ∧ (s.ctx 0 0).pendFaults = [] ∧ s.launch (s.ctx 0 0).launch = some l0 ∧ recEntry l0.record = 0 ∧
    (s.startWords 0 0).all (s.dramOpen (some (s.core 0).tenant)) = true ∧
    (match s.fetchRead 0 0 (recSeg l0.record) 64, s.fetchRead 0 0 (recSeg l0.record + 0x40) 4 with
     | .ok ha, .ok ea =>
       let hb := ha.flatMap fun p => rdBytes s.mem p.1 p.2
       let eb := ea.flatMap fun p => rdBytes s.mem p.1 p.2
       let h : Line := BitVec.ofNat 512 (leNat hb)
       ((ha ++ ea).all fun p => s.sure ((s.ctx 0 0).fetches 0 0) p.1 p.2) &&
       h.extractLsb' 0 32 == BitVec.ofNat 32 magic && h.extractLsb' 32 8 == 0x01 &&
         (parseHeader (BitVec.ofNat 48 (recSeg l0.record)) h).inCode (recSeg l0.record + leNat eb) && leNat eb % 8 == 0
     | _, _ => false) = true := by decide +kernel

/-- A context that is to start with a fault pending. -/
theorem witness_ContextsStart_pending :
    let f : FaultInfo := { code := 0x0E }
    let s := (tStart 0x4753565A).modCtx 0 0 fun x => { x with pendFaults := [(1, f)] }
    s.nextErrs = [] ∧ startReady s 0 0 = true ∧ s.launch (s.ctx 0 0).launch = some l0 ∧
    (s.ctx 0 0).pendFaults = (1, f) :: [] := by decide +kernel

/-- A dispatch launch whose context has halted with 15 of 16 units dealt, and a persistent one that asks. -/
theorem witness_UnitsDealt :
    (let l := { l0 with record := BitVec.ofNat 512 (16 * 2 ^ 128 + 2 ^ 200 - 2 ^ 192 + 2 ^ 256), next := 15 }
     let s := { tx (fun x => { x with run := .halted }) with launches := [l] }
     restartReady s 0 0 = true ∧ s.launch (s.ctx 0 0).launch = some l ∧ nextUnit l = some 15) ∧
    (∀ n ∈ [15, 16], let l := { l0 with next := n }
     let r : NxuReq := ⟨1, 0, 0, 1, 7⟩
     let b : Sb := ⟨7, .w 1, some 12, false, 0, 0, 0, false, 0⟩
     let s := { tx (fun x => { x with sbs := [b] }) with launches := [l], nxus := [r] }
     nxuOf s 0 0 = some r ∧ nxuReady s r = true ∧ (s.ctx 0 0).inRun r.runId = true ∧ s.launch r.launch = some l ∧ (s.ctx 0 0).sbs = [b] ∧
     b.id = r.sb ∧ b.cancelled = false ∧ b.dest = .w 1 ∧ l.phase = .admitted ∧ (0 : CoreId).toNat ∉ l.dealStop ∧
     (0 : CoreId).toNat ∈ { l with dealStop := [0] }.dealStop ∧ nextUnit l = if n = 15 then some 15 else none) := by decide +kernel

theorem witness_LaunchesAppended : ∀ st ∈ [none, some ⟨0, some 0x020000000800⟩],
    let y : Queue := { en := true, dev := true, base := 0x1000, log2n := 4, reserved := [⟨0x40, st, [], who0⟩] }
    let s : State := { tTable with dies := [(0, { queues := [(3, y)] })] }
    s.nextErrs = [] ∧ (s.queue 0 0 3).reserved = ⟨0x40, st, [], who0⟩ :: [] ∧ s.performed [] = true ∧
    (s.appendTables 0 (s.queue 0 0 3)).all (s.dramOpen (some 0)) = true ∧
    s.vpieces 0 ((s.queue 0 0 3).base.toNat + 8 * ((s.qtail (s.queue 0 0 3)).toNat % 2 ^ (s.queue 0 0 3).log2n.toNat)) 8 .write =
      some [(0x40001000, 8)] ∧ homeOf 0x40001000 = .dram ∧ s.dramOpen (some 0) 0x40001000 = true ∧ s.stampOn = false := by
  decide +kernel

theorem witness_FailingLaunchesStop :
    (let s := { tx (fun x => { x with stopReq := true, stopTick := 1 }) with launches := [{ l0 with phase := .failing, status := 0x07 }] }
     failReady s 1 = true ∧ stopping s 1 = [(0, 0)]) := by decide +kernel

/-- A launch that has done all, one that failed with two faulted contexts, traced ones, and passes whose trace may be
written and may not. -/
theorem witness_LaunchesComplete :
    (∀ x ∈ [(Phase.admitted, (0 : Nat), true), (.failing, 0, true), (.admitted, 2 ^ 119, true), (.admitted, 2 ^ 119, false)],
     ∀ pass ∈ [none, some (⟨0, some 0x020000000800⟩ : StatusAt)],
     let l := { l0 with
       pass := pass, next := 16, phase := x.1, status := 0x07, faulted := [(0, 0), (0, 1)]
       record := l0.record ||| BitVec.ofNat 512 x.2.1 }
     let s := { tx (fun x => { x with run := .halted }) with
       launches := [l], tenants := if x.2.2 then [(0, { ttroot := 0x10000001 })] else [], mem := tTable.mem }
     s.nextErrs = [] ∧ s.launch 1 = some l ∧ completes s l = true ∧ l.doneLost = false ∧ (∀ r ∈ s.running, r.launch ≠ 1) ∧
     s.ownsCore l.tenant (tailCore (recDonew l.record)) = true ∧ recTrace l.record = decide (x.2.1 ≠ 0) ∧
     l.started = true ∧ traceOpen s l = true ∧ s.ownsCore l.tenant (accCore 0x020000000800) = true ∧
     (x.2.1 ≠ 0 → (s.writeTrace l).isSome = x.2.2)) ∧
    isAcc 0x020000000800 = true ∧
    (let l := { l0 with next := 16, record := l0.record ||| BitVec.ofNat 512 (2 ^ 243) }
     let s := { tx (fun x => { x with run := .halted }) with launches := [l] }
     completes s l = true ∧ s.ownsCore l.tenant (tailCore (recDonew l.record)) = false) := by decide +kernel

/-! ### The driver, the host and the ports -/

/-- A command record: its fields by the bit each starts at (R299). -/
def record (op : Nat) (fields : List (Nat × Nat)) : Line := BitVec.ofNat 512 (op + (fields.map fun f => f.2 * 2 ^ f.1).sum)

/-- A state with one command waiting. -/
def tCmd (s : State) (r : Line) : State := { s with cmdQ := [r] }

theorem witness_CommandsRejected : t0.nextErrs = [] ∧ (tCmd t0 (record 8 [])).running = [] ∧ cmdOp (record 0 []) = 0 ∧ 7 < (cmdOp (record 8 [])).toNat ∧
    commandEvents[0]? = some .preempt ∧ (cmdOp (record 1 [])).toNat = 0 + 1 ∧ (record 1 [(9, 1)]).extractLsb' 9 23 ≠ 0 ∧
    (record 1 [(255, 1)]).extractLsb' 240 16 ≠ 0 ∧ (record 7 [(511, 1)]).extractLsb' 314 198 ≠ 0 ∧
    (record 4 [(8, 1), (4, 1)]).getLsbD 8 = true ∧ (record 4 [(8, 1), (4, 1)]).extractLsb' 4 4 ≠ 0 ∧
    commandEvents[6]? = some .coreload ∧ (cmdOp (record 7 [])).toNat = 6 + 1 ∧ (record 4 []).extractLsb' 256 32 = 0 := by
  decide +kernel

/-- PREEMPT of launch 1 on core 0, with its record area in the tenant's block. -/
def recPreempt : Line := record 1 [(32, 1), (64, 1), (192, 0x40000000)]

theorem witness_PreemptRuns : (tCmd t0 recPreempt).running = [] ∧ cmdBad recPreempt = false ∧ cmdOp recPreempt = 1 ∧
    t0.launch (cmdLaunch recPreempt) = some l0 ∧ l0.tenant = cmdTenant recPreempt ∧ l0.phase = .admitted ∧
    (∀ k ∈ l0.startedCores, k ∈ cmdCores recPreempt) ∧ (tCmd t0 recPreempt).areaBad recPreempt 0xC0000 = false ∧
    (0, 0) ∈ l0.members ∧ (t0.ctx 0 0).launch = l0.id ∧ (t0.ctx 0 0).live = true ∧
    (let p : Running := ⟨1, 0, 1, 1, 0, 1, false⟩
     preemptDone { tx (fun x => { x with run := .halted }) with running := [p] } p = true) := by decide +kernel

/-- An empty bundle with its pmark bit set, at the pc of a context that is asked to stop. -/
def tMark : State :=
  let s := State.reset.withFetchWord 64 0x02000000
  s.modCtx 0 0 fun x => { x with preempt := true }

theorem witness_ContextsSaved : pmarkDue tMark 0 0 = true ∧ pmbDue tMark 0 0 = false ∧
    pmbDue (tMark.modCtx 0 0 fun x => { x with pmbCount := 65536 }) 0 0 = true ∧
    (let s := tMark.modCtx 0 0 fun x => { x with pend := [⟨.s 22, 7, 0xFFFF, 0, 0x02, 0, 0, 1⟩] }
     pmarkDue s 0 0 = true ∧ ∀ p ∈ (s.ctx 0 0).pend, p.cycle + p.lat ≤ s.edge 0) ∧
    (let s := tx fun x => { x with run := .stopped, preempt := true, preemptAddr := 0x40000000 }
     saveReady s 0 0 = true ∧ s.stampOn = false ∧
     (let r : Running := ⟨1, 0, 1, 1, 0, 0, false⟩
      { s with running := [r] }.running = [r] ∧ r.launch = (s.ctx 0 0).launch)) := by decide +kernel

/-- A record of context 0, saved with nothing in flight. -/
def save0 : Save :=
  { id := 3, core := 0, ctx := 0, launch := 1, addr := 0x40000000, tenant := 0, snap := x0, vregs := [], vpoison := [], masks := []
    mPoison := [], laqs := [], cmds := [], away := none, pendf := 1 }
/-- RESUME of launch 1 on core 0 from that record. -/
def recResume : Line := record 2 [(32, 1), (64, 1), (192, 0x40000000)]
def tResume : State :=
  { tCmd (tx fun x => { x with run := .saved }) recResume with saves := [save0], mem := wrBytes [] 0x40000000 save0.bytes }

theorem witness_ResumeRuns : tResume.nextErrs = [] ∧ tResume.poison = [] ∧ tResume.running = [] ∧ tResume.cmdQ = recResume :: [] ∧ cmdBad recResume = false ∧
    cmdOp recResume = 2 ∧ tResume.launch (cmdLaunch recResume) = some l0 ∧ l0.tenant = cmdTenant recResume ∧
    l0.phase = .admitted ∧ savesOn tResume l0.id (cmdCores recResume) = [save0] ∧
    tResume.areaBad recResume 0xC0000 = false ∧ resumeBusy tResume recResume l0.id = false ∧
    tResume.poisoned (saveSlot recResume save0.core.toNat save0.ctx) save0.size = false ∧
    spanOpen (tResume.dramOpen (some (cmdTenant recResume))) (saveSlot recResume save0.core.toNat save0.ctx) save0.size = true ∧
    rdBytes tResume.mem (saveSlot recResume save0.core.toNat save0.ctx) save0.size = save0.bytes := by
  refine ⟨rfl, rfl, by rfl, by rfl, by decide +kernel, by decide +kernel, by decide +kernel, by decide +kernel, by decide,
    by decide +kernel, by decide +kernel, by decide +kernel, rfl, by decide +kernel, ?_⟩
  have h : save0.size = save0.bytes.length := by
    simp only [Save.bytes, List.length_append, List.length_map, List.length_range]
    decide +kernel
  have h2 : saveSlot recResume save0.core.toNat save0.ctx = 0x40000000 := by decide +kernel
  have hm : tResume.mem = wrBytes [] 0x40000000 save0.bytes := by unfold tResume; dsimp only
  rw [h, h2, hm]
  generalize save0.bytes = bs
  exact rdBytes_wrBytes _ _ _

theorem witness_AbortRuns :
    (let r := record 3 [(32, 1)]
     (tCmd t0 r).running = [] ∧ cmdBad r = false ∧ cmdOp r = 3 ∧ t0.launch (cmdLaunch r) = some l0 ∧
     l0.tenant = cmdTenant r ∧ l0.phase = .admitted ∧
     (let l := { l0 with phase := .waiting, members := [], startedCores := [] }
      { t0 with launches := [l] }.launch (cmdLaunch r) = some l ∧ l.tenant = cmdTenant r ∧ l.phase = .waiting) ∧
     (let l := { l0 with phase := .failing }
      { t0 with launches := [l] }.launch (cmdLaunch r) = some l ∧ l.tenant = cmdTenant r ∧ l.phase = .failing)) := by
  decide +kernel

/-- The last block of DRAM, and an address that is no block's. -/
theorem witness_ScrubRuns :
    (let r := record 4 [(192, 0x7FFFE00000), (256, 1)]
     cmdBad r = false ∧ cmdOp r = 4 ∧ cmdAddr r % 0x200000 = 0 ∧ cmdAddr r + cmdLen r * 0x200000 ≤ 0x8000000000 ∧
     ∀ d ∈ [({} : Die), taken0],
       spanOpen ({ t0 with dies := [(3, d)] }.storeOpen (some (cmdTenant r))) (cmdAddr r) (cmdLen r * 0x200000) = d.slots.isEmpty) ∧
    (let r := record 4 [(8, 1), (192, 0x7FFFE00000), (256, 1)]
     cmdBad r = false ∧ cmdNoown r = true) ∧
    (let r := record 4 [(192, 0x100000), (256, 1)]
     cmdBad r = false ∧ cmdOp r = 4 ∧ cmdAddr r % 0x200000 ≠ 0) ∧ t0.running = [] ∧ t0.stampOn = false := by decide +kernel

theorem witness_StampResetRuns : cmdBad (record 5 []) = false ∧ cmdOp (record 5 []) = 5 ∧
    (∀ l ∈ t0.launches, recTrace l.record = false) ∧ { t0 with stbase := 0x8000000000000000 }.stampOn = true ∧
    { t0 with cmdQ := [record 5 []] }.dramOpen none t0.stampBase = true ∧
    (let s : State := { t0 with launches := [lWait (2 ^ 119) none] }
     s.running = [] ∧ ∃ l ∈ s.launches, recTrace l.record = true) := by decide +kernel

/-- A core of tenant 0 with five blocks for its image. -/
def tImage (saved : Bool) : State :=
  { State.reset with
    mem := [(0x40000045, 4)]
    owners := [(512, 0), (513, 0), (514, 0), (515, 0), (516, 0)]
    cores := [(0, { v := true, saved := saved })] }

theorem witness_CoreImages : ∀ op ∈ [6, 7],
    let r := record op [(64, 1), (192, 0x40000000), (307, 1)]
    let s := tCmd (tImage (op = 6)) r
    s.running = [] ∧ cmdBad r = false ∧ cmdCores r = [0] ∧ MemInv s ∧ s.nextErrs = [] ∧ s.stampOn = false ∧ s.areaBad r imgLen = false ∧
    s.ownsCore (cmdTenant r) 0 = true ∧ (op = 6 → cmdOp r = 6 ∧ (s.core 0).saved = true) ∧
    (op = 6 → (s.core 0).accPipe = [] ∧ areaServed (s.storeOpen (some (cmdTenant r))) r = true) ∧
    (op = 7 → areaServed (s.dramOpen (some (cmdTenant r))) r = true) ∧ (op = 7 → cmdOp r = 7 ∧ coreFree s 0 = true ∧ tailCore (cmdResw r) ≠ 0) := by
  intro op h
  rcases List.mem_cons.mp h with rfl | h
  · unfold MemInv; decide +kernel
  · obtain rfl := List.mem_singleton.mp h
    unfold MemInv; decide +kernel

/-- A shootdown of the page at VA 0x10000 of tenant 0; a load of that page is in flight or not; a record of no page. -/
theorem witness_ShootdownsRun :
    (let r : BitVec 256 := BitVec.ofNat 256 (2 ^ 16 + 2 ^ 64)
     sdBad r = false ∧ sdDrained t0 r = true ∧ t0.ownsCore (sdTenant r) 0 = true ∧ t0.ownsCore (sdTenant r) 1 = false ∧
     (let q := { req0 1 0 0 0x40010000 (.load 4 true) with va := 0x1FFFF }
      sdDrained { t0 with reqs := [q] } r = false)) ∧
    sdBad (BitVec.ofNat 256 (2 ^ 16)) = true := by decide +kernel

/-- A flow segment of one region that only halts: the header of R135, the directory of R264, the region of R265 with the
flow word of HALT that spec/16 writes out, and its hash (R268). -/
def haltWord : List Byte := leBytes 8 0x4000150000000000
def flow0 : List Byte :=
  leBytes 64 (0x4753565A + 2 ^ 32 + 0x400 * 2 ^ 64 + 136 * 2 ^ 96 + 0x600000 * 2 ^ 320) ++ List.replicate 960 0 ++ leBytes 8 1 ++
    leBytes 16 (0x440 + 72 * 2 ^ 32) ++ List.replicate 40 0 ++
    leBytes 64 (2 ^ 16 + 2 ^ 32 + (fnv1a haltWord).toNat * 2 ^ 192) ++ haltWord

/-- A request for it, or its removal: body at VA 0, one unit at 0x40010000, log at 0x50000000. -/
def recFin (rm len : Nat) : Line :=
  BitVec.ofNat 512 (rm * 2 ^ 4 + 2 ^ 16 - 2 ^ 8 + len * 2 ^ 64 + 0x40010000 * 2 ^ 96 + 2 ^ 144 + 0x50000000 * 2 ^ 160 + 4 * 2 ^ 208)
def tFin (bs : List Byte) (cache : List CacheEntry) (rm : Nat) : State :=
  { tTable with
    tenants := [(0, { ttroot := 0x10000001, cache := cache })]
    mem := wrBytes tTable.mem 0x40000000 bs
    finQ := [recFin rm bs.length] }

/-- What `finishSegment` answers, as a Bool. -/
def finishes (bs : List Byte) (mask : Byte) : Option Nat :=
  match finishSegment bs mask with
  | .ok n => some n.length
  | .error _ => none

theorem of_finishes {bs : List Byte} {mask : Byte} {len : Nat} (h : finishes bs mask = some len) :
    ∃ n, finishSegment bs mask = .ok n ∧ n.length = len := by
  unfold finishes at h
  split at h
  · exact ⟨_, by assumption, by simpa using h⟩
  · simp at h

theorem of_refused {bs : List Byte} {mask : Byte} (h : finishes bs mask = none) : ∃ es, finishSegment bs mask = .error es := by
  unfold finishes at h
  split at h
  · simp at h
  · exact ⟨_, by assumption⟩

theorem witness_FinisherServes :
    (∀ rm ∈ [0, 1], let s := tFin flow0 [] rm
     finBad (recFin rm flow0.length) = false ∧ s.finMisplaced (recFin rm flow0.length) = false ∧
     s.flowBody (recFin rm flow0.length) = some flow0 ∧ s.finOpen (recFin rm flow0.length) = true ∧ s.nextErrs = [] ∧ s.stampOn = false ∧ finRm (recFin rm flow0.length) = decide (rm = 1) ∧
     (s.tenant 0).cached (fnv1a flow0) 0xFF = none ∧
     (let e : CacheEntry := ⟨fnv1a flow0, 0xFF, 0x40010000, 0, 1⟩
      ((tFin flow0 [e] rm).tenant 0).cached (fnv1a flow0) 0xFF = some e)) := by decide +kernel

theorem witness_FinisherFinishes : ∃ n, finishSegment flow0 0xFF = .ok n ∧
    freeRun ((tFin flow0 [] 0).tenant 0).cache 0x40010000 1 (cdiv n.length 65536) = some 0 := by
  obtain ⟨n, h, hl⟩ := of_finishes (bs := flow0) (mask := 0xFF) (len := 4096) (by decide +kernel)
  exact ⟨n, h, by rw [hl]; decide +kernel⟩

theorem witness_FinisherRefuses : ∃ es, finishSegment (leBytes 8 0) 0xFF = .error es := of_refused (by decide +kernel)

/-- Tenant 0 with its registers locked, slot 1 of die 0 its own; and a held context. -/
def tLocked (b : Bool) : State :=
  { tx (fun x => { x with run := .held }) with tenants := [(0, { locked := b })], dies := [(0, { slots := [(1, 0x10)] })] }

theorem witness_LockedWritesDropped : (tLocked true).boot.failed = none ∧ (tLocked true).isLocked (.queue 3 0 15) = true ∧ (tLocked true).isLocked (.core 0) = true ∧
    (tLocked true).isLocked (.slot 0 1) = true ∧ (tLocked true).isLocked (.ttroot 0) = true ∧
    (tLocked true).isLocked (.plain (.faultRing 0)) = true ∧ (tLocked true).isLocked (.control 0 3) = true ∧
    (tLocked true).isLocked (.tlock 0) = true := by decide +kernel

theorem witness_SchedulerRegisters : (tLocked true).boot.failed = none ∧ (tLocked false).boot.failed = none ∧
    (tLocked false).isLocked (.queue 3 0 15) = false ∧ (tLocked false).isLocked (.slot 0 1) = false ∧
    (tLocked true).isLocked (.slot 0 63) = false := by decide +kernel

theorem witness_CoresChangeOwner : t0.boot.failed = none ∧ (tImage true).boot.failed = none ∧
    (let v : BitVec 128 := 0x11
     t0.isLocked (.core 0) = false ∧ v.extractLsb' 0 4 ≠ (t0.core 0).tenant ∧ coreResident t0 0 = true) ∧
    (let s := tImage true
     s.isLocked (.core 0) = false ∧ (0x00 : BitVec 128).getLsbD 4 ≠ (s.core 0).v ∧ (s.core 0).saved = true) ∧
    (let s := tImage false
     s.isLocked (.core 0) = false ∧ coreResident s 0 = false ∧ (s.core 0).zbusy = false ∧ (s.core 0).saved = false ∧
     (∀ v : BitVec 128, v = 0x0000000001000000_0010000000000010 → ((v.extractLsb' 0 4 = (s.core 0).tenant ∧
       v.getLsbD 4 = (s.core 0).v) ∧ 64 ≤ (v.extractLsb' 32 32).toNat ∧ (v.extractLsb' 32 32).toNat ≤ 2 ^ 20 ∧
       16384 ≤ (v.extractLsb' 64 32).toNat ∧ (v.extractLsb' 64 32).toNat ≤ 2 ^ 24))) ∧
    (let s : State := { t0 with cores := [(0, { v := true, zbusy := true })] }
     (s.core 0).zbusy = true ∧ s.isLocked (.core 0) = false) := by
  refine ⟨rfl, rfl, by decide +kernel, by decide +kernel, ?_, by decide +kernel⟩
  refine ⟨by decide +kernel, by decide +kernel, by decide +kernel, by decide +kernel, ?_⟩
  rintro v rfl
  decide +kernel

theorem witness_RootWrites : t0.boot.failed = none ∧ (tImage false).boot.failed = none ∧ t0.isLocked (.ttroot 0) = false ∧ tenantBusy t0 0 = true ∧
    (tImage false).isLocked (.ttroot 0) = false ∧ tenantBusy (tImage false) 0 = false ∧
    (tImage false).ownsCore 0 0 = true ∧ (tImage false).ownsCore 0 127 = false := by decide +kernel

theorem witness_PlainRegisters : t0.boot.failed = none ∧ t0.isLocked (.plain .pkgcfg) = false ∧ t0.isLocked (.plain (.tokenMac 15)) = false ∧
    t0.isLocked (.plain (.hdm 3)) = false ∧
    (767 : BitVec 10).toNat < 768 ∧ t0.isLocked (.plain (.allowByte 0 767)) = false ∧
    t0.isLocked (.plain (.breakpoint 0 3 7)) = false ∧ t0.isLocked (.plain .stbase) = false ∧
    t0.isLocked (.plain (.faultRing 0)) = false ∧ ∀ l ∈ t0.launches, recTrace l.record = false := by decide +kernel

theorem witness_GoAndDecline : (tLocked false).boot.failed = none ∧ t0.boot.failed = none ∧ (tLocked false).isLocked (.control 0 0) = false ∧ ((tLocked false).ctx 0 0).run = .held ∧
    t0.isLocked (.control 0 0) = false ∧ (t0.ctx 0 0).run ≠ .held := by decide +kernel

theorem witness_LocksMeasured : t0.boot.failed = none ∧ t0.isLocked (.tlock 0) = false ∧ (1 : Dword).toNat % 2 = 1 ∧ 6 ≤ (6#4).toNat ∧ (5#4).toNat < 6 := by
  decide +kernel

/-- A tenant with a token for its TTROOT whose MAC is right. -/
def tToken : State :=
  { State.reset with tenants := [(0, { taddr := 0x10000, tval := 0x10000001, tmac := Config.hmac384 0 (leBytes 8 0x10000 ++ leBytes 8 0x10000001 ++ leBytes 8 0) })] }

theorem witness_TokensChecked : tToken.boot.failed = none ∧
    (let x := tToken.tenant 0
     x.tseq = x.seq ∧ x.tmac = Config.hmac384 x.tokkey (leBytes 8 x.taddr.toNat ++ leBytes 8 x.tval.toNat ++ leBytes 8 x.tseq.toNat)) ∧
    (tToken.tenant 0).taddr.toNat = 0x10000 + 8 * (0 : Tenant).toNat ∧ tenantBusy tToken 0 = false ∧
    (let s : State := { State.reset with tenants := [(0, { tseq := 1 })] }
     (s.tenant 0).tseq ≠ (s.tenant 0).seq) := ⟨rfl, ⟨rfl, rfl⟩, by decide +kernel, by decide +kernel, by decide +kernel⟩

theorem witness_CountersRead : (6143#13).toNat < 6144 ∧ t0.counterOwner 6143 = none ∧ t0.counterOwner 7 = some 0 ∧
    (aget (t0.tenant 0).allow (7 / 8) 0).getLsbD 7 = false ∧
    (let s : State := { t0 with tenants := [(0, { allow := [(0, 0x80)], auditRing := ring0 })] }
     s.counterOwner 7 = some 0 ∧ (aget (s.tenant 0).allow (7 / 8) 0).getLsbD 7 = true ∧
     s.counterOwner 6 = some 0 ∧ (aget (s.tenant 0).allow (6 / 8) 0).getLsbD 6 = false ∧
     (s.tenant 0).auditRing.open = true ∧ s.ownerOf ((s.tenant 0).auditRing.slot 16) = some 0 ∧
     spanOpen (s.storeOpen (some 0)) ((s.tenant 0).auditRing.slot 16) 16 = true ∧ s.late = [] ∧ s.boot.failed = none) := by decide +kernel

theorem witness_PowerWindows : windowDue { t0 with gcc := BitVec.ofNat 64 windowTicks } = true ∧
    (let s : State := { t0 with gcc := BitVec.ofNat 64 windowTicks, dies := [(0, { stage := 1, breach := true })] }
     windowDue s = true ∧ (s.die 0).stage ≠ 0 ∧ (s.die 0).breach = true) ∧
    (let s : State := { t0 with gcc := BitVec.ofNat 64 windowTicks, dies := [(0, { temp := 16 * 95 }), (1, { temp := 16 * 120 })] }
     windowDue s = true ∧ 16 * s.tlim.toNat ≤ (s.die 0).temp ∧ 16 * 120 ≤ (s.die 1).temp) := by decide +kernel

theorem witness_ResetsRestore :
    (let s : State := { t0 with dies := [(0, { temp := 16 * 120 })] }
     16 * 120 ≤ (s.die 0).temp ∧ (s.die 1).temp < 16 * 120) := by decide +kernel

/-- The header of a first image in slot 3, with a body of one byte. -/
def hdr0 : BitVec 2048 := BitVec.ofNat 2048 (0x5A424F54 + 3 * 2 ^ 36 + 2 * 2 ^ 40 + 2 ^ 64)
def tBoot : State :=
  { State.reset with boot := { slots := [(3, Config.sha384 (leBytes 96 (hdr0.extractLsb' 512 768).toNat))], minSvn := [(0, 2)] } }

theorem witness_BootAdvances : tBoot.boot.stage < 3 ∧ tBoot.boot.failed = none ∧ hdr0.extractLsb' 0 32 = 0x5A424F54 ∧
    (hdr0.extractLsb' 32 4).toNat = tBoot.boot.stage ∧ hdr0.extractLsb' 38 2 = 0 ∧ hdr0.extractLsb' 48 16 = 0 ∧
    hdr0.extractLsb' 96 416 = 0 ∧ (hdr0.extractLsb' 64 32).toNat = [(1 : Byte)].length ∧
    Config.sha384 (leBytes 96 (hdr0.extractLsb' 512 768).toNat) = aget tBoot.boot.slots (hdr0.extractLsb' 36 2).toNat 0 ∧
    tBoot.boot.revoked.getLsbD (hdr0.extractLsb' 36 2).toNat = false ∧
    (aget tBoot.boot.minSvn tBoot.boot.stage 0).toNat ≤ (hdr0.extractLsb' 40 8).toNat ∧
    (0 : BitVec 2048).extractLsb' 0 32 ≠ 0x5A424F54 ∧
    (aget tBoot.boot.minSvn tBoot.boot.stage 0).toNat > ((BitVec.ofNat 2048 (2 ^ 40)).extractLsb' 40 8).toNat := by
  have h : (hdr0.extractLsb' 36 2).toNat = 3 := by decide +kernel
  refine ⟨by decide, rfl, by decide +kernel, by decide +kernel, by decide +kernel, by decide +kernel, by decide +kernel,
    by decide +kernel, ?_, by decide +kernel, by decide +kernel, by decide +kernel, by decide +kernel⟩
  rw [h]; rfl

theorem witness_FailedBootAnswersNothing :
    (let s : State := { t0 with boot := { t0.boot with failed := some 1 }, ports := [(1, { up := true })] }
     s.boot.failed = some 1 ∧ (s.port 1).up = true) := by decide +kernel

theorem witness_SessionsRun : t0.boot.failed = none ∧ (t0.fn 1).session = false ∧
    ({ t0 with fns := [(1, { session := true })] }.fn 1).session = true ∧ 1 ≤ (1#8).toNat ∧ (16#8).toNat ≤ 16 := by
  decide +kernel

/-- Host accesses to DRAM: by PF0 outside any tenant's block and inside one, and by VF1 to tenant 0's, trusted or not. -/
theorem witness_HostWindows :
    (let s : State := { t0 with fns := [(1, { session := true, keyed := true })] }
     s.boot.failed = none ∧ s.stampOn = false ∧ s.nextErrs = [] ∧
     (∀ h ∈ [(⟨0, 4, 0x3FFFFFC0, none, false, false, true⟩ : HostAcc), ⟨1, 2, 0x40000000, some 1, true, false, false⟩,
         ⟨0, 4, 0x40000000, none, false, false, false⟩, ⟨1, 2, 0x40000000, none, false, false, true⟩],
       s.discards h = false ∧ h.cxl = false ∧ h.off.toNat % 64 + 64 ≤ 64 ∧ h.off.toNat < 0x8000000000 ∧
       s.sure (hostWho h) h.off.toNat 64 = true ∧ Lasts s (hostWho h) h.off.toNat 64) ∧
     s.ownerOf 0x3FFFFFC0 = none ∧ s.dramOpen none 0x3FFFFFC0 = true ∧ s.ownerOf 0x40000000 = some 0 ∧
     s.dramOpen (some 0) 0x40000000 = true) := by decide +kernel

theorem witness_HostPages : t0.boot.failed = none ∧ (leBytes 64 0).length = 64 ∧
    (let h : HostAcc := ⟨1, 2, 0x40000000, some 1, true, false, true⟩
     t0.discards h = true ∧ h.cxl = false ∧ hostDest h 64 ≠ none) ∧
    (let h : HostAcc := ⟨0, 0, 0x10400, none, false, false, true⟩
     h.cxl = false ∧ h.fn = 0 ∧ h.bar = 0 ∧ h.off = 0x10400 ∧ h.stream = none) := by decide +kernel

theorem witness_PortsServe :
    (let s (i : Bool) : State := { t0 with ports := [(1, { up := true, inen := i, int := 0 })] }
     ((s true).port 1).up = true ∧ (0x40000000#48).toNat % 64 + 64 ≤ 64 ∧ (s true).stampOn = false ∧ (s true).nextErrs = [] ∧
     (s true).dramOpen (some ((s true).port 1).int) 0x40000000 = true ∧ (s true).sure (peerWho 1) 0x40000000 64 = true ∧
     (s true).boot.failed = none ∧ Lasts (s true) (peerWho 1) 0x40000000 64 ∧
     ((s true).port 1).inen = true ∧ (s true).ownerOf 0x40000000 = some ((s true).port 1).int ∧
     ((s false).port 1).inen = false ∧ (s true).ownerOf 0x3FFFFFC0 ≠ some ((s true).port 1).int ∧ (t0.port 0).up = false) := by
  decide +kernel

/-- Well-formed operations with a bundle, one of them with an extension word. -/
theorem witness_BundlesDecode : ∀ i ∈ [Instr.addi g0 20 20 1, .stg g0 ⟨6, 2, 40, 2, 1⟩, .cvt h0 (.f32l8 2) 9 (.v 5) (.v 9)],
    WellFormed i = true ∧ (encodeBundle i).isSome = true := by decide +kernel

theorem witness_ReservedOpcodesIllegal : 0x25 < (0x26#8).toNat ∧ 0x11 < (0x12#8).toNat ∧ 0x07 < (0x08#8).toNat ∧
    0x0C < (0x0D#8).toNat ∧ 0x16 < (0x17#8).toNat ∧ 9 < (0x0A#8).toNat ∧ 8 < (0x09#8).toNat ∧
    (∀ o ∈ [0x34, 0xE4], o ≠ 0 ∧ ∀ r ∈ Sys2Proof.Claim.vabListed, o < r.1 ∨ r.2 < o) := by decide

/-- A state with canonical memory whose step answers a next state. -/
theorem witness_StepsKeepMemoryCanonical : MemInv t0 ∧ ∃ t, step { t0 with agenda := [.portDown 0] } = .next t :=
  ⟨by unfold MemInv; decide +kernel, _, rfl⟩

/-! ### The bundles of spec/06 and well-formedness -/

/-- The two bundles that spec/06 lays out at 0x0400, byte by byte. -/
def specBundles : List Byte :=
  [0x00, 0x00, 0x04, 0x02, 0x00, 0x20, 0x00, 0x80, 0x01, 0x00, 0x00, 0x45, 0x01, 0x03, 0x0A, 0x18,
    0x2C, 0x50, 0x40, 0x10, 0x00, 0x00, 0x00, 0x00, 0x00, 0x00, 0x82, 0x01, 0x00, 0x00, 0x00, 0x40,
    0x00, 0x20, 0x0C, 0x40, 0x00, 0x00, 0x52, 0x04, 0x01, 0x01, 0x00, 0x00, 0x00, 0x00, 0x00, 0x00]

theorem test_bundle0 : decode specBundles = .ok ⟨true, false, none,
    [(0, some (.addi g0 20 20 1)), (18, some (.fma ⟨3, 2⟩ .f32 none 10 (.v 11) (.v 12) (.v 10)))], 24⟩ := by decide +kernel
theorem test_bundle1 : decode (specBundles.drop 24) =
    .ok ⟨false, true, some 0x400C2000, [(1, some (.add g0 16 17 18))], 24⟩ := by decide +kernel
/-- COUNT that differs from the mask, a nonzero padding byte, and two ops with one destination (R122). -/
theorem test_illegal_bundles : decode [0, 0, 4, 0, 0, 0, 0, 0x80, 1, 0, 0, 0x45, 1, 3, 0, 0] = .error .illegal ∧
    decode [0, 0, 2, 0, 0, 0, 0, 0x80, 1, 0, 0, 0x45, 1, 3, 0, 1] = .error .illegal ∧
    decode [0, 0, 4, 0, 0, 0, 0, 0xC0, 1, 0, 0, 0x45, 1, 3, 1, 0, 0, 0x45, 1, 3, 0, 0, 0, 0] = .error .illegal := by
  decide +kernel

/-- An ill-formed term for each check of `WellFormed`, which refuses it. -/
def illFormed : List Instr :=
  [.fadd h0 .f32 .rne 320 (.v 1) (.v 2), .fadd h0 .f32 .rne 4 (.v 320) (.v 2), .fma h0 .f32 none 4 (.v 1) (.v 2) (.v 320),
    .fmin h0 .f32 320 (.v 1) (.v 2), .fabs h0 .f32 320 (.v 1), .fcmp h0 .f32 .lt 0 (.v 1) (.v 2), .iadd h0 .i32 .wrap 320 (.v 1) (.v 2),
    .imul h0 .i8 4 (.v 320) (.v 2), .imad h0 .i32 4 (.v 1) (.v 2) (.v 320), .icmp h0 .i32 .ge 0 (.v 1) (.v 2),
    .lmul h0 .l8 320 (.v 1) (.v 2), .lrcp h0 .l8 4 (.v 320), .mov h0 320 .lane, .vmovi h0 320 0, .vsel h0 4 (.v 320) .lane 1,
    .shuf h0 320 (.v 1) .lane, .rot h0 320 (.v 1) 1, .cvt h0 (.f32i32 .rne) 4 (.v 1) (.v 2), .cvt h0 (.f32l8 0) 320 (.v 1) (.v 2),
    .bpack h0 4 (.v 320) (.v 1), .mand h0 0 1 2, .mset h0 3 17, .mset h0 0 1, .msetScalar h0 0 1, .rcp h0 .rne 320 (.v 1),
    .div h0 .rne 4 (.v 1) (.v 320), .xmov h0 4 320 0, .xbc h0 320 1 0 0, .vld h0 320 1 0, .vlds h0 320 1 2 0, .vldx h0 4 1 320 0,
    .vsta h0 320 1 0, .call g0 1 49 0, .calli g0 1 1 49, .ret g0 1 49, .loop g0 0 0 1, .loop g0 0 7 1, .loop g0 0 1 0, .loop g0 0 1 33,
    .loopx g0 1 0, .loopx g0 1 33, .fence g0 .pkg 0xFFFF, .bar g0 .ctx, .bar g0 .sys, .setf g0 0 0, .clrf g0 0 0, .rdsys g0 1 15,
    .wrsys g0 0 1, .pushldx g0 ⟨0, 4, 0, 0, 0⟩ 1, .stg g0 ⟨0, 0, 320, 0, 0⟩, .stgx g0 ⟨0, 0, 1, 0, 0⟩ 320, .lds g0 1 1 0 0 true .d,
    .ldsL g0 1 1 0 0 true .d, .ldacq g0 1 1 .pkg 0xFFFF, .strel g0 1 1 .pkg 0xFFFF, .amoAdd g0 ⟨1, 1, 1, .acq, .pkg, 0xFFFF⟩,
    .amoAdd g0 ⟨1, 1, 1, .relaxed, .sys, 0⟩, .cas g0 ⟨1, 1, 1, .relaxed, .pkg, 1⟩ 1, .nestld g0 0 0 320, .buse g0 1 1536,
    .bfree g0 1 1536, .measext 5 0]

theorem test_ill_formed : ∀ i ∈ illFormed, WellFormed i = false := by decide

theorem test_well_formed : ∀ x ∈ words1 ++ words2 ++ words3 ++ words4 ++ words5 ++ words6, WellFormed x.2.2.2 = true := by
  decide +kernel

/-! ### Results from the spec's own examples -/

/-- What an operation puts in flight last: its value and its flags. -/
def got (i : Instr) (s : State) : Option (Line × Byte) :=
  match exec i s with
  | .next t => t.me.pend.getLast?.map fun p => (p.val, p.flags)
  | _ => none

/-- A state with values in v1, v2 and v3 of cluster 0 and in some scalars. -/
def tVec (a b c : Line) (sc : List (Nat × Dword)) (masks : List (Nat × BitVec 16)) : State :=
  { t0 with cores := [(0, { y0 { x0 with scal := sc } with vregs := [(1, a), (2, b), (3, c)], masks := masks })] }

/-- Lane 0 of a result, and its flags. -/
def lane0 (i : Instr) (a b c : Word) : Option (Word × Byte) :=
  (got i (tVec (a.setWidth 512) (b.setWidth 512) (c.setWidth 512) [] [(mkey 0 1, 1)])).map fun p => (lane p.1 0, p.2)

/-- Only lane 0 is enabled. -/
def h1 : VHead := ⟨0, 1⟩

/-- A scalar state. -/
def tSc (sc : List (Nat × Dword)) : State := tx fun x => { x with scal := sc }

/-- spec/07: the constant 0x0001_2345_6789 built in three steps. -/
theorem test_movi : (got (.movi g0 16 0x6789) t0).map (·.1) = some 0x6789 := by decide +kernel
theorem test_movhi : (got (.movhi g0 16 16 0x2345 1) (tSc [(16, 0x6789)])).map (·.1) = some 0x23456789 ∧
    (got (.movhi g0 16 16 0x0001 2) (tSc [(16, 0x23456789)])).map (·.1) = some 0x000123456789 := by decide +kernel
/-- spec/07: a shift by 65 shifts by 1. -/
theorem test_shl : (got (.shl g0 22 20 21) (tSc [(20, 3), (21, 65)])).map (·.1) = some 6 := by decide +kernel
/-- R143: leading zeros of zero, and the extension of ADDI's immediate. -/
theorem test_clz : (got (.clz g0 22 0) t0).map (·.1) = some 64 := by decide +kernel
theorem test_addi : (got (.addi g0 22 0 0xFFFF) t0).map (·.1) = some 0x000000000000000000000000000000000000000000000000FFFFFFFFFFFFFFFF := by
  decide +kernel
/-- R143: the high half of a signed product rounds toward minus infinity. -/
theorem test_mulhs : (got (.mulhs g0 22 20 21) (tSc [(20, 0xFFFFFFFFFFFFFFFF), (21, 1)])).map (·.1) = some 0xFFFFFFFFFFFFFFFF := by
  decide +kernel

/-- What a division brings. -/
def quot (i : Instr) (sc : List (Nat × Dword)) : Option (Line × Byte) :=
  match exec i (tSc sc) with
  | .next t => t.me.sbs.getLast?.map fun b => (b.val, b.flags)
  | _ => none

/-- The corners of R144. -/
theorem test_divs : quot (.divs g0 22 20 21) [(20, 0x8000000000000000), (21, 0xFFFFFFFFFFFFFFFF)] = some (0x8000000000000000, 0) := by
  decide +kernel
theorem test_divs_rem : quot (.divsRem g0 22 20 21) [(20, 0xFFFFFFFFFFFFFFF9), (21, 2)] = some (0xFFFFFFFFFFFFFFFF, 0) := by
  decide +kernel
theorem test_divu_zero : quot (.divu g0 22 20 21) [(20, 7)] = some (0xFFFFFFFFFFFFFFFF, 0x02) := by decide +kernel

/-- spec/08: products and roots of L8 codes. -/
theorem test_lmul : lane0 (.lmul h1 .l8 4 (.v 1) (.v 2)) 0x55 0xC8 0 = some (0xDD, 0) := by decide +kernel
theorem test_lsqrt : (lane0 (.lsqrt h1 .l8 4 (.v 1)) 0x43 0 0).map (·.1) = some 0x42 := by decide +kernel
/-- spec/08: the chain of conversions into one lane. -/
theorem test_cvt_l8 : (lane0 (.cvt h1 (.f32l8 0) 4 (.v 1) (.v 2)) 0x3F800000 0 0).map (·.1) = some 0x40 ∧
    (lane0 (.cvt h1 (.f32l8 3) 4 (.v 1) (.v 2)) 0x40C00000 0x00C83840 0).map (·.1) = some 0x55C83840 := by decide +kernel
/-- spec/08: 3.0e9 is no signed integer. -/
theorem test_cvt_i32 : (lane0 (.cvt h1 (.f32i32 .rne) 4 (.v 1) (.v 0)) 0x4F32D05E 0 0).map (·.1) = some 0x7FFFFFFF := by
  decide +kernel
/-- spec/08: a record packed and unpacked. -/
theorem test_bpack : lane0 (.bpack h1 4 (.v 1) (.v 2)) 0x55C83840 0x7F000000 0 = some (0x7F558E24, 0) ∧
    (lane0 (.bpack h1 4 (.v 1) (.v 2)) 0x55C83940 0x7F000000 0).map (·.1) = some 0x7F397E84 := by decide +kernel
theorem test_bunpack : lane0 (.bunpack h1 4 (.v 1)) 0x7F558E24 0 0 = some (0x55C83840, 0) := by decide +kernel
/-- spec/08: the reciprocal square root of 2.0, to nearest and upward. -/
theorem test_rsq : (lane0 (.rsq h1 .rne 4 (.v 1)) 0x40000000 0 0).map (·.1) = some 0x3F3504F3 ∧
    (lane0 (.rsq h1 .rup 4 (.v 1)) 0x40000000 0 0).map (·.1) = some 0x3F3504F4 := by decide +kernel
/-- R172: FABS of a subnormal of 16 bits is zero. -/
theorem test_fabs : lane0 (.fabs h1 .f16 4 (.v 1)) 0x8001 0 0 = some (0, 0) := by decide +kernel
/-- R171: 1.0 + 1.0, and a product that subtracts. -/
theorem test_fadd : lane0 (.fadd h1 .f32 .rne 4 (.v 1) (.v 2)) 0x3F800000 0x3F800000 0 = some (0x40000000, 0) := by decide +kernel
theorem test_fnma : lane0 (.fnma h1 .f32 none 4 (.v 1) (.v 2) (.v 3)) 0x3F800000 0x40000000 0x40400000 = some (0x3F800000, 0) := by
  decide +kernel
/-- R175: signed saturation of bytes, and wrapping. -/
theorem test_iadd_sat : lane0 (.iadd h1 .i8 .sat 4 (.v 1) (.v 2)) 0x7F80FF01 0x01FF0101 0 = some (0x7F800002, 0) := by decide +kernel
theorem test_isub_wrap : lane0 (.isub h1 .i16 .wrap 4 (.v 1) (.v 2)) 0x00000000 0x00010001 0 = some (0xFFFFFFFF, 0) := by
  decide +kernel
/-- spec/08: HADD of 1.0, 1.0 and 4.0 in lanes 0 to 2 gives 6.0 in every lane. -/
theorem test_hadd : (got (.hadd ⟨0, 2⟩ 4 (.v 1)) (tVec (0x3F800000 + 0x3F800000 * 2 ^ 32 + 0x40800000 * 2 ^ 64) 0 0 []
    [(mkey 0 2, 7)])).map (fun p => (lane p.1 0, lane p.1 15)) = some (0x40C00000, 0x40C00000) := by decide +kernel
/-- R179: a rotation takes lane l from lane l + k. -/
theorem test_rot : (got (.rot h0 4 (.v 1) 3) (tVec (7 * 2 ^ 96) 0 0 [] [])).map (fun p => lane p.1 0) = some 7 := by decide +kernel

/-- R188: off is in lines; a store puts its lanes at base + 64·off + 4·i in the local scratchpad. -/
theorem test_vst : (match exec (.vst h0 1 21 2) (tVec (0x11223344 + 5 * 2 ^ 32) 0 0 [(21, 64)] []) with
    | .next t => some (rdWord t.mem (spmPa 0 192), rdWord t.mem (spmPa 0 196))
    | _ => none) = some (0x11223344, 5) := by decide +kernel
/-- R64: the arithmetic flags land with the result. -/
theorem test_flags_land : (match exec (.fixedLatencyLanding 0 0 0 0xFFFF) (tx fun x =>
      { x with pend := [⟨.s 22, 7, 0xFFFF, 0, 0x02, 0, 0, 1⟩] }) with
    | .next t => some (t.me.arith, t.me.s 22)
    | _ => none) = some (0x02, 7) := by decide +kernel
/-- R218: a tag that was set is found, in its way, with its data. -/
theorem test_tset : (match exec (.tset g0 5 21 3) (tSc [(21, 0x1234)]) with
    | .next t => (got (.tlook g0 22 5) t).map fun p => (p.1.extractLsb' 0 16, p.1.extractLsb' 32 16)
    | _ => none) = some (3, 0x1234) := by decide +kernel
/-- R317: TRAP's record carries its immediate, and its launch fails. -/
theorem test_trap : (match exec (.trap g0 0xBEEF) t0 with
    | .next t => (t.launch 1).map fun l => (l.phase, l.status)
    | _ => none) = some (.failing, 0x07) := by decide +kernel

/-! ### The first step after reset -/

/-- The two names the host asks with: an ADDI bundle is decoded, and the next step runs it. -/
theorem test_table_word : decodeTableWord 128 0x00000301450000018000000000020000 = some (.addi g0 20 20 1) := by decide +kernel
theorem test_first_step : (match step tAddi with
    | .next t => some ((t.ctx 0 0).pc, (t.ctx 0 0).pend.map fun p => (p.dest, p.val))
    | _ => none) = some (0x410, [(.s 20, 1)]) := by decide +kernel

end Sys2Proof.Tests
end

section
/-! Operations that only read registers, and the checks of control operations and of transfers (R38, R116, R140, R318). -/
namespace Sys2Proof.Machine

/-! ### Operations that only read registers -/

/-- A plan that neither touches local memory nor pops a queue, and that nothing but its sources can hold back. -/
structure Plan.Plain (p : Plan) : Prop where
  works : p.works = []
  pops : p.pops = []
  frozen : p.frozen = false
  held : p.held = false
  touch : p.touch = []
  stores : p.stores = []

/-- A source that awaits nothing and holds no poison (R38, R323). -/
structure SourceReady (s : State) (r : Dest × BitVec 16) : Prop where
  awaits : s.me.awaits r.1 = false
  clean : s.srcPoisoned r = false
  loaded : ∀ e, r.1 = .s e → ahas s.me.ldsPoison e = false

variable {s : State} {p : Plan} {n : Nat}

@[simp] theorem Ctx.awaits_pred (x : Ctx) (r : Nat) : x.awaits (.p r) = false := by
  simp [Ctx.awaits]

@[simp] theorem Ctx.awaits_addr (x : Ctx) (r : Nat) : x.awaits (.a r) = false := by
  simp [Ctx.awaits]

theorem sourceReady_pred {q : PReg} (h : PredReady s q) : ∀ r ∈ rP q, SourceReady s r := by
  intro r hr
  unfold rP at hr
  split at hr
  · simp at hr
  · rename_i hq
    obtain rfl : r = _ := by simpa using hr
    exact ⟨by simp, by simpa [State.srcPoisoned] using h.resolve_left hq, by simp⟩

theorem sourceReady_addr {a : AReg} (h : AddrReady s a) : ∀ r ∈ rA a, SourceReady s r := by
  intro r hr
  obtain rfl : r = _ := by simpa [rA] using hr
  exact ⟨by simp, by simpa [State.srcPoisoned, AddrReady] using h, by simp⟩

theorem sourceReady_scalar {a : SReg} (h : ScalarReady s a) : ∀ r ∈ rS s.me a, SourceReady s r := by
  intro r hr
  unfold rS at hr
  split at hr
  · simp at hr
  · rename_i ha
    obtain rfl : r = _ := by simpa using hr
    obtain ⟨haw, hp, hl⟩ := h.resolve_left ha
    exact ⟨haw, hp, by rintro e ⟨⟩; exact hl⟩

namespace Plan.Plain

theorem reading (h : p.Plain) (rs : List (Dest × BitVec 16)) : (p.reading rs).Plain :=
  ⟨h.works, h.pops, h.frozen, h.held, h.touch, h.stores⟩

theorem freezes_ready (h : p.Plain) (hr : ∀ r ∈ p.reads, SourceReady s r) : p.freezes s = false := by
  rw [freezes_reads h.frozen h.works h.pops h.touch, List.any_eq_false]
  intro r hm
  simp [(hr r hm).awaits]

theorem poisonCheck_ready (h : p.Plain) (hr : ∀ r ∈ p.reads, SourceReady s r) : p.poisonCheck s = .ok := by
  have hpop : p.poisonedPop s = none := by simp [Plan.poisonedPop, h.pops]
  have hclean : p.reads.any s.srcPoisoned = false := by
    rw [List.any_eq_false]
    intro r hm
    simp [(hr r hm).clean]
  unfold Plan.poisonCheck
  rw [hpop]
  dsimp only
  split
  · rename_i e lanes hfind
    have hmem := List.mem_of_find?_eq_some hfind
    have hload := List.find?_some hfind
    simp [(hr _ hmem).loaded e rfl] at hload
  · simp [hclean, h.works]

theorem checks_ready (h : p.Plain) (hr : ∀ r ∈ p.reads, SourceReady s r) : p.checks s = p.check := by
  rw [checks_reads h.pops, h.poisonCheck_ready hr]
  cases p.check <;> rfl

theorem apply_eq (h : p.Plain) : p.apply s = p.commit (s.consumeAll p.reads []) := by
  simp [Plan.apply, h.pops, h.stores, State.storeLocal, State.popAll]

theorem commits (h : p.Plain) (hr : ∀ r ∈ p.reads, SourceReady s r) (hc : p.check = .ok) :
    runPlan n p s = .next (p.commit (s.consumeAll p.reads [])).finish := by
  rw [runPlan_commits (h.freezes_ready hr) h.held ((h.checks_ready hr).trans hc), h.apply_eq]

/-- A fault that does not hold the context is taken at once. -/
theorem faults (h : p.Plain) (hr : ∀ r ∈ p.reads, SourceReady s r) {f : FaultInfo} (hc : p.check = .fault f)
    (hh : (f.code == 0x04 || f.code == 0x07) = false) : runPlan n p s = faultsAs s n f :=
  runPlan_faults (h.freezes_ready hr) h.held ((h.checks_ready hr).trans hc) (by rw [Ctx.wouldHold, hh]; rfl)

/-- An operation that needs a spill or a fill asks for it, and commits nothing. -/
theorem asksTransfer (h : p.Plain) (hr : ∀ r ∈ p.reads, SourceReady s r) {sp : Bool} {b : Nat}
    (hc : p.check = .xfer sp b) : runPlan n p s = .next (s.modMe fun x => { x with xfer := some (sp, b) }) := by
  unfold runPlan
  simp only [h.freezes_ready hr, h.held, (h.checks_ready hr).trans hc, Bool.or_self, Bool.false_eq_true, ↓reduceIte,
    State.await]

end Plan.Plain

/-- Predicates and address registers that a bundle reads consume no global read (R94). -/
theorem consumeAll_noScalar {rs : List (Dest × BitVec 16)} (h : ∀ r ∈ rs, ∀ e, r.1 ≠ .s e) : s.consumeAll rs [] = s := by
  have hit : (fun u : Unread => rs.any fun r => r.1 == .s u.dest) = fun _ => false := by
    funext u
    rw [List.any_eq_false]
    intro r hr
    simpa using h r hr u.dest
  simp [State.consumeAll, hit]

theorem rP_noScalar (q : PReg) : ∀ r ∈ rP q, ∀ e, r.1 ≠ .s e := by
  intro r hr e
  unfold rP at hr
  split at hr
  · simp at hr
  · obtain rfl : r = _ := by simpa using hr
    simp

theorem rA_noScalar (a : AReg) : ∀ r ∈ rA a, ∀ e, r.1 ≠ .s e := by
  intro r hr e
  obtain rfl : r = _ := by simpa [rA] using hr
  simp

/-! ### Checks -/

@[simp] theorem Check.and_ok_right (c : Check) : c.and .ok = c := by cases c <;> rfl

@[simp] theorem faultIf_false (code : Byte) (va : Nat) (d : Byte) : faultIf false code va d = .ok := rfl

@[simp] theorem faultIf_true (code : Byte) (va : Nat) (d : Byte) :
    faultIf true code va d = .fault { code := code, va := BitVec.ofNat 48 va, detail := d } := rfl

@[simp] theorem loopFree_none {x : Ctx} (h : x.loop = none) : loopFree x = .ok := by simp [loopFree, h]

theorem targetCheck_in {x : Ctx} {va : Nat} (h : x.seg.inCode va = true) : targetCheck x va = .ok := by
  simp [targetCheck, h]

theorem targetCheck_out {x : Ctx} {va : Nat} (h : x.seg.inCode va = false) :
    targetCheck x va = .fault { code := 0x0C, va := BitVec.ofNat 48 va } := by
  simp [targetCheck, h]

/-- The target of a direct transfer, as a sum of integers (R150). -/
theorem direct_eq (x : Ctx) (disp : BitVec 16) : direct x disp = BitVec.ofInt 48 (x.pc.toNat + 8 * disp.toInt) := by
  have hs : (disp.signExtend 48 <<< 3) = BitVec.ofInt 48 (8 * disp.toInt) := by
    rw [BitVec.shiftLeft_eq_mul_twoPow, BitVec.signExtend, BitVec.mul_comm,
      show BitVec.twoPow 48 3 = BitVec.ofInt 48 8 from rfl, ← BitVec.ofInt_mul]
  rw [direct, hs, BitVec.ofInt_add]
  simp

/-- The checks of a list's entries, made one after the other, pass when each passes. -/
theorem foldl_and_ok {f : Nat → Check} {js : List Nat} (h : ∀ j ∈ js, f j = .ok) :
    js.foldl (fun (c : Check) j => c.and (f j)) .ok = .ok := by
  induction js with
  | nil => rfl
  | cons j js ih =>
    simp only [List.mem_cons, forall_eq_or_imp] at h
    simpa [h.1] using ih h.2

/-- A fault that was found stays. -/
theorem foldl_and_fault (f : Nat → Check) (js : List Nat) (x : FaultInfo) :
    js.foldl (fun (c : Check) j => c.and (f j)) (.fault x) = .fault x := by
  induction js with
  | nil => rfl
  | cons j js ih => simpa using ih

/-! ### The entries of a transfer -/

@[simp] theorem mem_xferEntries {lo hi j : Nat} : j ∈ xferEntries lo hi ↔ lo ≤ j ∧ j < hi := by
  simp only [xferEntries, List.mem_map, List.mem_range]
  constructor
  · rintro ⟨i, hi, rfl⟩; omega
  · intro h; exact ⟨j - lo, by omega, by omega⟩

theorem length_xferEntries (lo hi : Nat) : (xferEntries lo hi).length = hi - lo := by simp [xferEntries]

theorem xferEntries_split {lo hi j : Nat} (hlo : lo ≤ j) (hhi : j < hi) :
    xferEntries lo hi = xferEntries lo j ++ j :: xferEntries (j + 1) hi := by
  have range' (a b : Nat) : xferEntries a b = List.range' a (b - a) := by
    rw [xferEntries, List.range'_eq_map_range]
  rw [range', range', range', ← List.range'_succ, show hi - (j + 1) + 1 = hi - j by omega]
  have := List.range'_append_1 (s := lo) (m := j - lo) (n := hi - j)
  rw [show lo + (j - lo) = j by omega, show j - lo + (hi - j) = hi - lo by omega] at this
  exact this.symm

/-- Where an entry of the window has its place in the backing store (R139). -/
def State.entryAt (s : State) (x : Ctx) (need : Need) (j : Nat) : Xl :=
  s.xlate s.cur.1 (ctxWaiter s.cur.2) s.here.tenant (x.bsaBase + 8 * j) need

/-- Whether an entry can take its place, which translates, within the backing store if it is written (R140). -/
def EntryFits (s : State) (x : Ctx) (need : Need) (j : Nat) : Prop :=
  (need = .write → j < 512 * x.bsaLen) ∧ ∃ pa, s.entryAt x need j = .ok pa

/-- Whether an entry has no place: past the backing store, or where nothing translates. -/
def EntryFails (s : State) (x : Ctx) (need : Need) (j : Nat) : Prop :=
  (need = .write ∧ 512 * x.bsaLen ≤ j) ∨ ∃ lv kd, s.entryAt x need j = .bad lv kd

/-- One step of `xferCheck`. -/
def entryCheck (s : State) (x : Ctx) (need : Need) (j : Nat) : Check :=
  if need == .write && 512 * x.bsaLen ≤ j then .fault { code := 0x12, va := BitVec.ofNat 48 (x.bsaBase + 8 * j) }
  else
    match s.entryAt x need j with
    | .ok _ => .ok
    | .miss pg => .miss [pg]
    | .bad _ _ => .fault { code := 0x12, va := BitVec.ofNat 48 (x.bsaBase + 8 * j) }

theorem xferCheck_eq_foldl (s : State) (x : Ctx) (need : Need) (js : List Nat) :
    xferCheck s x need js = js.foldl (fun (c : Check) j => c.and (entryCheck s x need j)) .ok := rfl

variable {x : Ctx} {need : Need} {lo hi j : Nat}

theorem entryCheck_fits (h : EntryFits s x need j) : entryCheck s x need j = .ok := by
  obtain ⟨hin, pa, hpa⟩ := h
  have hno : (need == .write && decide (512 * x.bsaLen ≤ j)) = false := by
    simp only [Bool.and_eq_false_iff, beq_eq_false_iff_ne, decide_eq_false_iff_not, Nat.not_le]
    exact (Classical.em (need = .write)).symm.imp id hin
  simp [entryCheck, hno, hpa]

theorem entryCheck_fails (h : EntryFails s x need j) :
    entryCheck s x need j = .fault { code := 0x12, va := BitVec.ofNat 48 (x.bsaBase + 8 * j) } := by
  unfold entryCheck
  split
  · rfl
  · rename_i hno
    rcases h with ⟨hw, hj⟩ | ⟨lv, kd, hbad⟩
    · exact absurd (by simp [hw, hj]) hno
    · rw [hbad]

theorem xferCheck_fits (h : ∀ j, lo ≤ j → j < hi → EntryFits s x need j) :
    xferCheck s x need (xferEntries lo hi) = .ok := by
  rw [xferCheck_eq_foldl]
  exact foldl_and_ok fun j hj => entryCheck_fits (h j (mem_xferEntries.1 hj).1 (mem_xferEntries.1 hj).2)

/-- The first place that cannot take its entry decides (R140). -/
theorem xferCheck_fails (hlo : lo ≤ j) (hhi : j < hi) (before : ∀ i, lo ≤ i → i < j → EntryFits s x need i)
    (h : EntryFails s x need j) :
    xferCheck s x need (xferEntries lo hi) = .fault { code := 0x12, va := BitVec.ofNat 48 (x.bsaBase + 8 * j) } := by
  rw [xferEntries_split hlo hhi, xferCheck_eq_foldl, List.foldl_append, ← xferCheck_eq_foldl, xferCheck_fits before,
    List.foldl_cons, Check.and_ok, entryCheck_fails h, foldl_and_fault]

end Sys2Proof.Machine
end

section
/-! CALL, CALLI and RET (R139, R140, R149, R150). -/
namespace Sys2Proof.Machine

variable {s : State} {g : Guard} {f : Ctx → Plan} {k : Nat}

/-! ### Guarded operations that only read registers -/

/-- A guarded operation that performs, whose plan is plain and whose sources are ready. -/
structure PlanReady (g : Guard) (s : State) (f : Ctx → Plan) : Prop where
  performs : Performs g s
  plain : (f s.me).Plain
  sources : ∀ r ∈ (f s.me).reads, SourceReady s r

namespace PlanReady

theorem all_sources (h : PlanReady g s f) : ∀ r ∈ ((f s.me).reading (rP g.pred)).reads, SourceReady s r := by
  intro r hr
  rcases List.mem_append.1 hr with hr | hr
  · exact sourceReady_pred h.performs.2 r hr
  · exact h.sources r hr

theorem commits (h : PlanReady g s f) (hc : (f s.me).check = .ok) :
    runPlan k (gplan g s f) s = .next ((f s.me).commit (s.consumeAll (rP g.pred ++ (f s.me).reads) [])).finish := by
  rw [gplan_true h.performs.1]
  exact (h.plain.reading _).commits h.all_sources hc

/-- One that reads no scalar consumes nothing. -/
theorem commits_noScalar (h : PlanReady g s f) (hs : ∀ r ∈ (f s.me).reads, ∀ e, r.1 ≠ .s e) (hc : (f s.me).check = .ok) :
    runPlan k (gplan g s f) s = .next ((f s.me).commit s).finish := by
  rw [h.commits hc, consumeAll_noScalar]
  intro r hr
  rcases List.mem_append.1 hr with hr | hr
  · exact rP_noScalar g.pred r hr
  · exact hs r hr

theorem faults (h : PlanReady g s f) {x : FaultInfo} (hc : (f s.me).check = .fault x)
    (hh : (x.code == 0x04 || x.code == 0x07) = false) : runPlan k (gplan g s f) s = faultsAs s k x := by
  rw [gplan_true h.performs.1]
  exact (h.plain.reading _).faults h.all_sources hc hh

theorem asksTransfer (h : PlanReady g s f) {sp : Bool} {b : Nat} (hc : (f s.me).check = .xfer sp b) :
    runPlan k (gplan g s f) s = .next (s.modMe fun x => { x with xfer := some (sp, b) }) := by
  rw [gplan_true h.performs.1]
  exact (h.plain.reading _).asksTransfer h.all_sources hc

end PlanReady

/-! ### Sliding up (R139, R140, R150) -/

section Call

variable {x : Ctx} {n : Nat}

theorem callCheck_room (h : x.fb.toNat + n + 48 ≤ x.bot.toNat + 256) : callCheck s x n = .ok := by
  simp [callCheck, callBot, Nat.not_lt.2 h]

theorem callCheck_spills (h : x.bot.toNat + 256 < x.fb.toNat + n + 48) :
    callCheck s x n = ((faultIf (x.bsaLen == 0) 0x12 0).and (xferCheck s x .write (xferEntries x.bot.toNat
      (8 * ((x.fb.toNat + n + 48 - 256 + 7) / 8))))).and (.xfer true (8 * ((x.fb.toNat + n + 48 - 256 + 7) / 8))) := by
  simp only [callCheck, callBot, h, ↓reduceIte]

theorem callCheck_noStore (h : x.bot.toNat + 256 < x.fb.toNat + n + 48) (hb : x.bsaLen = 0) :
    callCheck s x n = .fault { code := 0x12 } := by
  rw [callCheck_spills h, hb]; rfl

theorem callCheck_asks (h : x.bot.toNat + 256 < x.fb.toNat + n + 48) (hb : x.bsaLen ≠ 0)
    (fits : ∀ j, x.bot.toNat ≤ j → j < 8 * ((x.fb.toNat + n + 48 - 256 + 7) / 8) → EntryFits s x .write j) :
    callCheck s x n = .xfer true (8 * ((x.fb.toNat + n + 48 - 256 + 7) / 8)) := by
  rw [callCheck_spills h, beq_false_of_ne hb, xferCheck_fits fits]; rfl

theorem callCheck_fails {j : Nat} (h : x.bot.toNat + 256 < x.fb.toNat + n + 48) (hb : x.bsaLen ≠ 0)
    (hlo : x.bot.toNat ≤ j) (hhi : j < 8 * ((x.fb.toNat + n + 48 - 256 + 7) / 8))
    (before : ∀ i, x.bot.toNat ≤ i → i < j → EntryFits s x .write i) (hj : EntryFails s x .write j) :
    callCheck s x n = .fault { code := 0x12, va := BitVec.ofNat 48 (x.bsaBase + 8 * j) } := by
  rw [callCheck_spills h, beq_false_of_ne hb, xferCheck_fails hlo hhi before hj]; rfl

end Call

theorem State.setCore_setCore (s : State) (k : CoreId) (x y : Core) : (s.setCore k x).setCore k y = s.setCore k y := by
  simp [State.setCore, ains_ains]

/-- Two changes of a context are one. -/
theorem State.modCtx_modCtx (s : State) (k : CoreId) (c : CtxId) (f h : Ctx → Ctx) :
    (s.modCtx k c f).modCtx k c h = s.modCtx k c fun x => h (f x) := by
  have hx : (s.modCtx k c f).ctx k c = f (s.ctx k c) := s.ctx_modCtx k c f
  rw [State.modCtx, hx]
  simp [State.modCtx, State.setCtx, State.modCore, State.setCore_setCore, Core.setCtx, ains_ains]

theorem State.modMe_modMe (s : State) (f h : Ctx → Ctx) : (s.modMe f).modMe h = s.modMe fun x => h (f x) :=
  s.modCtx_modCtx _ _ f h

theorem exec_call (g : Guard) (d : AReg) (n : BitVec 6) (disp : BitVec 16) (s : State) :
    exec (.call g d n disp) s = runPlan 5 (planCall g d n disp s) s := rfl

theorem exec_calli (g : Guard) (d : AReg) (a : SReg) (n : BitVec 6) (s : State) :
    exec (.calli g d a n) s = runPlan 5 (planCalli g d a n s) s := rfl

theorem exec_ret (g : Guard) (a : AReg) (n : BitVec 6) (s : State) :
    exec (.ret g a n) s = runPlan 5 (planRet g a n s) s := rfl

theorem callSlides : Sys2Proof.Claim.CallSlides := by
  intro g d n disp s hp hloop hn va top bot hin
  have hva : direct s.me disp = va := direct_eq s.me disp
  have hn' : ¬ 48 < n.toNat := Nat.not_lt.2 hn
  have checks : (((loopFree s.me).and (illegalIf (48 < n.toNat))).and (targetCheck s.me (direct s.me disp).toNat)).and
      (callCheck s s.me n.toNat) = callCheck s s.me n.toNat := by
    simp [loopFree_none hloop, hn', hva, targetCheck_in hin]
  rw [exec_call, planCall]
  have ready {c : Ctx → Check} {m : Ctx → State → State} : PlanReady g s fun x => { check := c x, commit := m x } :=
    ⟨hp, ⟨rfl, rfl, rfl, rfl, rfl, rfl⟩, by simp⟩
  refine ⟨fun hroom => ?_, fun hs hb fits => ?_, fun hs hb => ?_, fun j hs hb hlo hhi before fails => ?_⟩
  · rw [ready.commits_noScalar (by simp) (checks.trans (callCheck_room hroom))]
    simp only [goTo, hva, BitVec.setWidth_setWidth (u := 48) (v := 64) (w := 512) (by decide)]
  · exact ready.asksTransfer (checks.trans (callCheck_asks hs hb fun j h1 h2 =>
      ⟨fun _ => (fits j h1 h2).1, (fits j h1 h2).2⟩))
  · exact ready.faults (checks.trans (callCheck_noStore hs hb)) rfl
  · exact ready.faults (checks.trans (callCheck_fails hs hb hlo hhi
      (fun i h1 h2 => ⟨fun _ => (before i h1 h2).1, (before i h1 h2).2⟩)
      (fails.imp (fun h => ⟨rfl, h⟩) id))) rfl

/-! ### The target table (R150, R317) -/

section Table

variable {x : Ctx} {i : Dword} {pa : Nat}

theorem tableEntry_ok (hi : i.toNat < x.seg.ntgt.toNat)
    (hx : s.xlate s.cur.1 (ctxWaiter s.cur.2) s.here.tenant (x.tableVa i.toNat) .fetch = .ok pa) :
    tableEntry s x i = (faultIf (s.poisoned pa 4) 0x0D (x.tableVa i.toNat / 64 * 64) 4,
      x.seg.va + (rdWord s.mem pa).setWidth 48) := by
  simp [tableEntry, Nat.not_le.2 hi, hx]

theorem tableShut_open (hx : s.xlate s.cur.1 (ctxWaiter s.cur.2) s.here.tenant (x.tableVa i.toNat) .fetch = .ok pa)
    (ho : s.dramOpen (some s.here.tenant) pa = true) : tableShut s x i = false := by
  simp [tableShut, hx, ho]

end Table

theorem callThroughTable : Sys2Proof.Claim.CallThroughTable := by
  intro g d a n s pa hp ha hloop hn hi hx hopen hpois va hin hroom
  have entry : tableEntry s s.me (s.me.s a) = (.ok, va) := by
    rw [tableEntry_ok hi hx, hpois]; rfl
  have hn' : ¬ 48 < n.toNat := Nat.not_lt.2 hn
  have ready : PlanReady g s fun x =>
      { reads := rS x a
        frozen := tableShut s x (x.s a)
        check := ((((loopFree x).and (illegalIf (48 < n.toNat))).and (tableEntry s x (x.s a)).1).and
          (targetCheck x (tableEntry s x (x.s a)).2.toNat)).and (callCheck s x n.toNat)
        commit := fun t => goTo (tableEntry s x (x.s a)).2 3
          ((slideUp n.toNat t).result (.a d.toNat) ((x.npc.setWidth 64 : Dword).setWidth 512) 1) } :=
    ⟨hp, ⟨rfl, rfl, tableShut_open hx hopen, rfl, rfl, rfl⟩, sourceReady_scalar ha⟩
  have hheard : heard (.calli g d a n) s = s.consumeAll (rP g.pred ++ rS s.me a) [] := by
    simp only [heard, planOf, planCalli, gplan_true hp.1]
    rfl
  rw [exec_calli, hheard]
  refine (ready.commits ?_).trans ?_
  · simp only [entry, loopFree_none hloop, hn', decide_false, illegalIf_false, Check.and_ok, targetCheck_in hin,
      callCheck_room hroom]
  · simp only [goTo, entry, BitVec.setWidth_setWidth (u := 48) (v := 64) (w := 512) (by decide)]

/-! ### Sliding back (R139, R140, R150) -/

section Ret

variable {x : Ctx} {n : Nat}

theorem retCheck_deep (h : x.fb.toNat < n) : retCheck s x n = .fault { code := 0x12 } := by
  simp only [retCheck, h, decide_true, faultIf_true, Check.and_fault]
  rfl

theorem retCheck_there (hn : n ≤ x.fb.toNat) (h : x.bot.toNat ≤ x.fb.toNat - n) : retCheck s x n = .ok := by
  simp [retCheck, retBot, Nat.not_lt.2 hn, Nat.not_lt.2 h]

theorem retCheck_fills (hn : n ≤ x.fb.toNat) (h : x.fb.toNat - n < x.bot.toNat) :
    retCheck s x n = (xferCheck s x .read (xferEntries (8 * ((x.fb.toNat - n) / 8)) x.bot.toNat)).and
      (.xfer false (8 * ((x.fb.toNat - n) / 8))) := by
  simp only [retCheck, retBot, Nat.not_lt.2 hn, decide_false, faultIf_false, Check.and_ok, h, ↓reduceIte]

theorem entryFits_read {j : Nat} (h : ∃ pa, s.entryAt x .read j = .ok pa) : EntryFits s x .read j :=
  ⟨by simp, h⟩

end Ret

theorem returnSlidesBack : Sys2Proof.Claim.ReturnSlidesBack := by
  intro g a n s hp ha hloop hn
  have hn' : ¬ 48 < n.toNat := Nat.not_lt.2 hn
  have hva : (BitVec.ofNat 48 (s.me.a a).toNat : Addr) = (s.me.a a).setWidth 48 := by simp
  rw [exec_ret, planRet]
  have ready {c : Ctx → Check} {m : Ctx → State → State} :
      PlanReady g s fun x => { reads := rA a, check := c x, commit := m x } :=
    ⟨hp, ⟨rfl, rfl, rfl, rfl, rfl, rfl⟩, sourceReady_addr ha⟩
  refine ⟨fun hbad => ready.faults ?_ rfl, fun halign hin => ?_⟩
  · by_cases h8 : (s.me.a a).toNat % 8 = 0
    · have hout := hbad.resolve_left (not_not.2 h8)
      simp [loopFree_none hloop, hn', h8, targetCheck_out hout]
    · simp [loopFree_none hloop, hn', bne_iff_ne.2 h8]
  · have checks : (((loopFree s.me).and (illegalIf (48 < n.toNat))).and
        (faultIf ((s.me.a a).toNat % 8 != 0) 0x0C (s.me.a a).toNat)).and
        ((targetCheck s.me (s.me.a a).toNat).and (retCheck s s.me n.toNat)) = retCheck s s.me n.toNat := by
      simp [loopFree_none hloop, hn', halign, targetCheck_in hin]
    refine ⟨fun hd => ?_, fun hf ht => ?_, fun hf hb fits => ?_, fun j lv kd hf hlo hhi hb before bad => ?_⟩
    · exact ready.faults (checks.trans (retCheck_deep hd)) rfl
    · rw [ready.commits_noScalar (rA_noScalar a) (checks.trans (retCheck_there hf ht))]
      simp only [goTo, State.modMe_modMe, hva]
    · refine ready.asksTransfer (checks.trans ?_)
      rw [retCheck_fills hf hb, xferCheck_fits fun j h1 h2 => entryFits_read (fits j h1 h2)]
      rfl
    · refine ready.faults (x := { code := 0x12, va := BitVec.ofNat 48 (s.me.bsaBase + 8 * j) }) (checks.trans ?_)
        rfl
      rw [retCheck_fills hf hb, xferCheck_fails hlo hhi (fun i h1 h2 => entryFits_read (before i h1 h2)) (.inr ⟨lv, kd, bad⟩)]
      rfl

end Sys2Proof.Machine
end

section
/-! The scalar window after a slide (R8, R139, R150). -/
namespace Sys2Proof.Machine

/-! ### What the slide leaves in the window (R8, R139, R150) -/

/-- The issuing context after a slide. -/
theorem slideUp_me (s : State) (n : Nat) :
    (slideUp n s).me =
      let fresh := (List.range n).map fun i => (s.me.fb.toNat + 48 + i) % 256
      { s.me with
        fb := s.me.fb + BitVec.ofNat 32 n
        scal := (List.range n).foldl (fun m i => ains m (16 + fresh.getD i 0) (Config.freeDword (s.freeCtr + i))) s.me.scal
        sPoison := s.me.sPoison.filter fun e => !fresh.contains (e - 16) || e < 16
        ldsPoison := s.me.ldsPoison.filter fun e => !fresh.contains (e.1 - 16) || e.1 < 16 } :=
  ({ s with freeCtr := s.freeCtr + n } : State).me_modMe _

/-- A place that no insertion names keeps its value. -/
theorem aget_foldl_ains {α : Type} (place : Nat → Nat) (val : Nat → α) (is : List Nat) (m : List (Nat × α)) (e : Nat) (d : α)
    (h : ∀ i ∈ is, e ≠ place i) : aget (is.foldl (fun m i => ains m (place i) (val i)) m) e d = aget m e d := by
  induction is generalizing m with
  | nil => rfl
  | cons i is ih =>
    simp only [List.mem_cons, forall_eq_or_imp] at h
    rw [List.foldl_cons, ih _ h.2, aget_ains_ne _ _ _ h.1]

/-- A scalar outside the entries that a slide makes reachable keeps its value. -/
theorem slideUp_scal (s : State) {n e : Nat} (h : ∀ i, i < n → e ≠ 16 + (s.me.fb.toNat + 48 + i) % 256) :
    aget (slideUp n s).me.scal e 0 = aget s.me.scal e 0 := by
  rw [slideUp_me]
  refine aget_foldl_ains _ _ _ _ _ _ fun i hi => ?_
  have hi := List.mem_range.1 hi
  have := h i hi
  simpa [hi] using this

theorem phys_low {x : Ctx} {r : SReg} (h : r.toNat < 16) : x.phys r = r.toNat := by simp [Ctx.phys, h]

theorem phys_window {x : Ctx} {r : SReg} (h : 16 ≤ r.toNat) : x.phys r = 16 + (x.fb.toNat + (r.toNat - 16)) % 256 := by
  simp [Ctx.phys, Nat.not_lt.2 h]

theorem s_window {x : Ctx} {r : SReg} (h : 16 ≤ r.toNat) :
    x.s r = aget x.scal (16 + (x.fb.toNat + (r.toNat - 16)) % 256) 0 := by
  have hr : r ≠ 0 := by rintro rfl; simp at h
  rw [Ctx.s, if_neg hr, phys_window h]

theorem slideUp_keeps_low (s : State) (n : Nat) {r : SReg} (h : r.toNat < 16) : (slideUp n s).me.s r = s.me.s r := by
  unfold Ctx.s
  split
  · rfl
  · rw [phys_low h, phys_low h, slideUp_scal]
    intro i _
    omega

/-- The callee's s(q) is the caller's s(q + n). -/
theorem slideUp_renames (s : State) {n : Nat} (hn : n ≤ 48) {r q : SReg} (hq : 16 ≤ q.toNat) (hr : q.toNat + n = r.toNat) :
    (slideUp n s).me.s q = s.me.s r := by
  have hlt := r.isLt
  have hfb : (slideUp n s).me.fb.toNat = (s.me.fb.toNat + n) % 2 ^ 32 := by
    rw [slideUp_me]
    simp
  have hplace : ((slideUp n s).me.fb.toNat + (q.toNat - 16)) % 256 = (s.me.fb.toNat + (r.toNat - 16)) % 256 := by
    rw [hfb]
    omega
  rw [s_window hq, s_window (by omega), hplace, slideUp_scal]
  intro i hi
  omega

theorem callKeepsScalars : Sys2Proof.Claim.CallKeepsScalars := by
  intro s n hn
  refine ⟨by rw [slideUp_me], rfl, fun r hr => slideUp_keeps_low s n hr, fun r q hq hr => slideUp_renames s hn hq hr, ?_⟩
  intro i hi e
  have kept : (!((List.range n).map fun i => (s.me.fb.toNat + 48 + i) % 256).contains (e - 16) || decide (e < 16)) = false := by
    simp only [Bool.or_eq_false_iff, Bool.not_eq_false', decide_eq_false_iff_not, List.contains_eq_mem, decide_eq_true_eq]
    exact ⟨List.mem_map.2 ⟨i, List.mem_range.2 hi, by omega⟩, by omega⟩
  rw [slideUp_me]
  constructor
  · rw [List.contains_eq_mem, decide_eq_false_iff_not, List.mem_filter]
    rintro ⟨-, hk⟩
    exact Bool.false_ne_true (kept.symm.trans hk)
  · rw [ahas, List.any_eq_false]
    intro y hy hye
    have hk := (List.mem_filter.1 hy).2
    rw [beq_iff_eq.1 hye] at hk
    exact Bool.false_ne_true (kept.symm.trans hk)

end Sys2Proof.Machine
end

section
/-! Writes that perform as a whole: what they leave unchanged, and the place they take (R93). -/
namespace Sys2Proof.Machine

/-! ### Writes that perform as a whole (R93) -/

section Writes

variable {s : State} {w : Who} {pa : Nat} {bs : List Byte}

theorem fenced_cells (fs : List FenceRec) (k : CoreId) (c : CtxId) (e : Past) : (e.fenced fs k c).cells = e.cells := by
  unfold Past.fenced
  induction fs generalizing e with
  | nil => rfl
  | cons f fs ih => exact (ih _).trans rfl

/-- A write puts bytes at its own addresses alone. -/
theorem foldl_wr_out {ibs : List (Nat × Byte)} {z : Nat} (m : List Host.Cell) (h : ∀ ib ∈ ibs, z ≠ pa + ib.1) :
    rd (ibs.foldl (fun m ib => wr m (pa + ib.1) ib.2) m) z = rd m z := by
  induction ibs generalizing m with
  | nil => rfl
  | cons ib ibs ih =>
    simp only [List.mem_cons, forall_eq_or_imp] at h
    rw [List.foldl_cons, ih _ h.2, rd_wr, if_neg h.1]

theorem stamped_off (h : s.stampOn = false) (m : List Host.Cell) (n : Nat) : s.stamped m pa n = m := by
  simp [State.stamped, h]

theorem writeUnder_mem_out {id : Nat} {es : List Past} {z : Nat} (h : s.stampOn = false) (hz : z < pa ∨ pa + bs.length ≤ z) :
    rd (s.writeUnder w id es pa bs).mem z = rd s.mem z := by
  unfold State.writeUnder
  dsimp only
  split
  · exact (congrArg (rd · z) (stamped_off h _ _)).trans (rd_wrBytes_out _ _ _ _ hz)
  · refine (congrArg (rd · z) (stamped_off h _ _)).trans (foldl_wr_out _ fun ib hib => ?_)
    have := List.mem_range.1 (List.of_mem_zip (List.mem_of_mem_filter hib)).1
    omega

theorem writeUnder_mem_last {id : Nat} (h : s.stampOn = false) :
    (s.writeUnder w id [] pa bs).mem = wrBytes s.mem pa bs := stamped_off h _ _

/-- What a write leaves as it was, whatever place it takes in the order of its bytes. -/
structure SameButWrites (s t : State) : Prop where
  cores : t.cores = s.cores
  owners : t.owners = s.owners
  ports : t.ports = s.ports
  stbase : t.stbase = s.stbase

theorem writeUnder_same (s : State) (w : Who) (id : Nat) (es : List Past) (pa : Nat) (bs : List Byte) :
    SameButWrites s (s.writeUnder w id es pa bs) := by
  unfold State.writeUnder
  dsimp only
  split <;> exact ⟨rfl, rfl, rfl, rfl⟩

/-- How `writeUnits` places one indivisible unit of a write that keeps some promises. -/
def State.writeUnit (s : State) (w : Who) (kept : List Promise) (id : Nat) (u : Nat × List Byte) : State :=
  let es := if kept.any (·.cells.any fun x => u.1 ≤ x.1 && x.1 < u.1 + u.2.length) then [] else s.over w u.1 u.2.length
  if es.isEmpty then s.writeUnder w id [] u.1 u.2
  else (s.free.2).writeUnder w id (es.take (Config.freeNat s.freeCtr % (es.length + 1))) u.1 u.2

theorem writeUnit_places (s : State) (w : Who) (kept : List Promise) (id : Nat) (u : Nat × List Byte) :
    ∃ n es, s.writeUnit w kept id u = ({ s with freeCtr := n } : State).writeUnder w id es u.1 u.2 ∧
      (s.over w u.1 u.2.length = [] → es = []) := by
  unfold State.writeUnit
  dsimp only
  generalize hes : (if kept.any _ then [] else s.over w u.1 u.2.length) = es
  have hnil : s.over w u.1 u.2.length = [] → es = [] := fun ho => by rw [← hes, ho, ite_self]
  split
  · exact ⟨s.freeCtr, [], rfl, fun _ => rfl⟩
  · exact ⟨s.freeCtr + 1, _, rfl, fun ho => by rw [hnil ho, List.take_nil]⟩

theorem writeUnits_one (s : State) (w : Who) (u : Nat × List Byte) :
    ∃ m ps kept id po, s.writeUnits w [u] =
      { ({ s with pastCtr := m, promises := ps } : State).writeUnit w kept id u with poison := po } :=
  ⟨s.pastCtr + 1, s.promises.filter _, _, _, _, rfl⟩

/-- A write of some bytes as a whole is one write below some of those it may come before (R93); it is the last where there
are none. -/
theorem writeBy_whole (s : State) (w : Who) (pa : Nat) (h : bs ≠ []) :
    ∃ (n m id : Nat) (ps : List Promise) (es : List Past) (po : List Nat) (hd : List (Nat × List Nat)),
      s.writeBy w pa bs = { ({ s with freeCtr := n, pastCtr := m, promises := ps } : State).writeUnder w id es pa bs with
        poison := po, heads := hd } ∧
      (s.over w pa bs.length = [] → es = []) := by
  obtain ⟨b, rest, rfl⟩ := List.exists_cons_of_ne_nil h
  unfold State.writeBy
  rw [if_neg (by simp)]
  split
  · exact ⟨s.freeCtr, _, _, s.promises, [], _, _, rfl, fun _ => rfl⟩
  · obtain ⟨m, ps, kept, id, po, hone⟩ := writeUnits_one s w (pa, b :: rest)
    obtain ⟨n, es, hunit, hes⟩ := writeUnit_places { s with pastCtr := m, promises := ps } w kept id (pa, b :: rest)
    refine ⟨n, m, id, ps, es, po, s.headsWrite w false pa (b :: rest).length, ?_, hes⟩
    rw [show unitsOfBytes 0 (b :: rest).length pa (b :: rest) = [(pa, b :: rest)] from rfl, hone, hunit]

/-! ### Writes elsewhere do not come between -/

/-- The writes to some bytes that a write may come before: `over` where the bytes are no word of the accumulator store. -/
def unordered (w : Who) (pa n : Nat) (ps : List Past) : List Past := (ps.filter (·.hits pa n)).takeWhile fun e => !e.known w

theorem over_nil {t : State} {v : Who} {a n : Nat} (h : unordered v a n s.pasts = [] → unordered v a n t.pasts = []) :
    s.over v a n = [] → t.over v a n = [] := by
  unfold State.over
  split
  · exact id
  · exact h

theorem filter_insertUnder {q : Past → Bool} {e : Past} (h : q e = false) (pa n j : Nat) (ps : List Past) :
    (insertUnder pa n e j ps).filter q = ps.filter q := by
  induction ps generalizing j with
  | nil => cases j <;> simp [insertUnder, h]
  | cons p ps ih => cases j <;> simp [insertUnder, h, List.filter_cons, ih]

/-- A change of past writes that keeps their addresses and what they happen before keeps the list. -/
theorem unordered_map {f : Past → Past} {v : Who} {a n : Nat} (hh : ∀ p, (f p).hits a n = p.hits a n)
    (hk : ∀ p, (f p).known v = p.known v) (ps : List Past) :
    unordered v a n (ps.map f) = (unordered v a n ps).map f := by
  have h1 : (fun p : Past => p.hits a n) ∘ f = fun p => p.hits a n := funext hh
  have h2 : (fun p : Past => !p.known v) ∘ f = fun p => !p.known v := funext fun p => by simp [hk]
  rw [unordered, unordered, List.filter_map, List.takeWhile_map, h1, h2]

theorem hits_mapCells {f : Host.Cell → Host.Cell} (hf : ∀ x, (f x).1 = x.1) (e : Past) (a n : Nat) :
    ({ e with cells := e.cells.map f } : Past).hits a n = e.hits a n := by
  simp [Past.hits, List.any_map, Function.comp_def, hf]

/-- A write puts no other write between a writer and the bytes it does not touch. -/
theorem writeUnder_over {id : Nat} {es : List Past} {v : Who} {a n : Nat}
    (hd : a + n ≤ pa ∨ pa + bs.length ≤ a) (h : s.over v a n = []) : (s.writeUnder w id es pa bs).over v a n = [] := by
  refine over_nil (fun hs => ?_) h
  have hnew (hd' : List (Nat × List Nat)) (f : Nat → Byte) :
      (({ id := id, who := w, cells := (List.range bs.length).map fun i => (pa + i, f i), heads := hd', know := [] } : Past).fenced
        (s.ctx w.core w.ctx).fences w.core w.ctx).hits a n = false := by
    rw [Past.hits, fenced_cells, List.any_eq_false]
    intro x hx
    obtain ⟨i, hi, rfl⟩ := List.mem_map.1 hx
    have := List.mem_range.1 hi
    simp only [Bool.and_eq_true, decide_eq_true_eq]
    omega
  unfold State.writeUnder unordered
  dsimp only
  rw [filter_insertUnder (hnew _ _)]
  split
  · exact hs
  · refine (unordered_map (fun p => hits_mapCells (fun x => ?_) p a n) (fun p => rfl) s.pasts).trans (by rw [hs]; rfl)
    split <;> rfl

theorem writeBy_over {v : Who} {a n : Nat} (hd : a + n ≤ pa ∨ pa + bs.length ≤ a) (h : s.over v a n = []) :
    (s.writeBy w pa bs).over v a n = [] := by
  by_cases hb : bs = []
  · subst hb; exact h
  · obtain ⟨c, m, id, ps, es, po, hs, heq, -⟩ := writeBy_whole s w pa hb
    rw [heq]
    exact writeUnder_over (id := id) (w := w) (s := { s with freeCtr := c, pastCtr := m, promises := ps }) hd h

theorem writeBy_mem_out {z : Nat} (h : s.stampOn = false) (hz : z < pa ∨ pa + bs.length ≤ z) :
    rd (s.writeBy w pa bs).mem z = rd s.mem z := by
  by_cases hb : bs = []
  · subst hb; rfl
  · obtain ⟨c, m, id, ps, es, po, hs, heq, -⟩ := writeBy_whole s w pa hb
    rw [heq]
    exact writeUnder_mem_out (id := id) (w := w) (s := { s with freeCtr := c, pastCtr := m, promises := ps }) h hz

/-- The last write to its bytes stands in memory (R93). -/
theorem writeBy_mem_last (h : s.stampOn = false) (hb : bs ≠ []) (ho : s.over w pa bs.length = []) :
    (s.writeBy w pa bs).mem = wrBytes s.mem pa bs := by
  obtain ⟨c, m, id, ps, es, po, hs, heq, hes⟩ := writeBy_whole s w pa hb
  rw [heq, hes ho]
  exact writeUnder_mem_last (id := id) (w := w) (s := { s with freeCtr := c, pastCtr := m, promises := ps }) h

theorem writeBy_same (s : State) (w : Who) (pa : Nat) (bs : List Byte) : SameButWrites s (s.writeBy w pa bs) := by
  by_cases h : bs = []
  · subst h; exact ⟨rfl, rfl, rfl, rfl⟩
  · obtain ⟨n, m, id, ps, es, po, hd, heq, -⟩ := writeBy_whole s w pa h
    have := writeUnder_same { s with freeCtr := n, pastCtr := m, promises := ps } w id es pa bs
    rw [heq]
    exact ⟨this.cores, this.owners, this.ports, this.stbase⟩

end Writes
end Sys2Proof.Machine
end

section
/-! Reads, and what the translation of addresses and the homes of bytes depend on (R78, R93, R98, R310). -/
namespace Sys2Proof.Machine

variable {s t : State}

theorem ctx_of_cores (h : t.cores = s.cores) (k : CoreId) (c : CtxId) : t.ctx k c = s.ctx k c := by
  simp [State.ctx, State.core, h]

/-! ### Reads (R93, R98) -/

/-- A read changes only the past writes, the writes to come, and the free values taken. -/
theorem see_quiet (s : State) (q : Who) (pa n : Nat) :
    ∃ (fc pc : Nat) (ps : List Past) (pr : List Promise),
      (s.see q pa n).2 = { s with freeCtr := fc, pastCtr := pc, pasts := ps, promises := pr } := by
  unfold State.see State.look State.foresee
  dsimp only
  split
  · exact ⟨_, _, _, _, rfl⟩
  · split <;> exact ⟨_, _, _, _, rfl⟩

/-- A read may miss none of the writes to its bytes where it must see each. -/
theorem missable_nil {q : Who} {pa n : Nat} (h : ∀ e ∈ s.pasts, e.hits pa n = false ∨ e.known q = true) :
    s.missable q pa n = [] := by
  unfold State.missable
  refine (List.foldlRecOn (motive := fun r : List Past × List Nat => r.1 = []) s.pasts _ rfl fun r hr e he => ?_)
  dsimp only
  split
  · exact hr
  · rename_i hcs
    rw [if_pos]
    · exact hr
    · rcases h e he with hh | hk
      · refine absurd ?_ hcs
        rw [List.isEmpty_iff, List.filter_eq_nil_iff]
        intro x hx hin
        simp only [Bool.and_eq_true] at hin
        rw [Past.hits, List.any_eq_false] at hh
        exact hh x hx (by simp [hin.1])
      · simp [hk]

/-- A read that can miss no write, and finds none to come, returns memory's bytes and changes nothing. -/
theorem see_sure {q : Who} {pa n : Nat} (h : s.sure q pa n = true) : s.see q pa n = (rdBytes s.mem pa n, s) := by
  obtain ⟨hp, hq⟩ := Bool.and_eq_true_iff.1 h
  have hm : s.missable q pa n = [] := missable_nil fun e he => by
    simpa using List.all_eq_true.1 hp e he
  have hf : s.promises.filter (fun p => p.hits pa n) = [] := by
    rw [List.filter_eq_nil_iff]
    intro p hpm
    simpa using List.any_eq_false.1 (by simpa using hq) p hpm
  simp only [State.see, State.look, hm, unsee, List.foldl_nil, List.length_nil, Nat.add_zero, State.foresee, rdBytes_length, hf]

/-! ### Little-endian bytes (R5) -/

theorem length_leBytes (n v : Nat) : (leBytes n v).length = n := by
  induction n generalizing v with
  | zero => rfl
  | succ n ih => simp [leBytes, ih]

theorem leNat_leBytes (n v : Nat) : leNat (leBytes n v) = v % 256 ^ n := by
  induction n generalizing v with
  | zero => simp [leBytes, leNat, Nat.mod_one]
  | succ n ih =>
    rw [leBytes, leNat, ih, Nat.pow_succ', Nat.mod_mul]
    simp

/-! ### Places of the backing store -/

/-- Two states alike in all that the translation of addresses and the homes of bytes depend on. -/
structure SamePlaces (s t : State) : Prop where
  cores : ∀ k, { t.core k with ctxs := [], engWait := [] } = { s.core k with ctxs := [], engWait := [] }
  owners : t.owners = s.owners
  ports : t.ports = s.ports
  stbase : t.stbase = s.stbase

namespace SamePlaces

theorem refl (s : State) : SamePlaces s s := ⟨fun _ => rfl, rfl, rfl, rfl⟩

theorem trans {u : State} (h : SamePlaces s t) (h' : SamePlaces t u) : SamePlaces s u :=
  ⟨fun k => (h'.cores k).trans (h.cores k), h'.owners.trans h.owners, h'.ports.trans h.ports, h'.stbase.trans h.stbase⟩

theorem of_writes (h : SameButWrites s t) : SamePlaces s t :=
  ⟨fun k => by simp only [State.core, h.cores], h.owners, h.ports, h.stbase⟩

theorem field {α : Type} (h : SamePlaces s t) (k : CoreId) (f : Core → α)
    (hf : ∀ y, f y = f { y with ctxs := [], engWait := [] }) : f (t.core k) = f (s.core k) := by
  rw [hf, h.cores k, ← hf]

theorem tenant (h : SamePlaces s t) (k : CoreId) : (t.core k).tenant = (s.core k).tenant := h.field k Core.tenant fun _ => rfl

theorem inuse (h : SamePlaces s t) (k : CoreId) : (t.core k).inuse = (s.core k).inuse := h.field k Core.inuse fun _ => rfl

theorem reach (h : SamePlaces s t) (u : Tenant) (pa : Nat) : t.reach u pa = s.reach u pa := by
  have hown (k : CoreId) : (t.core k).owned u = (s.core k).owned u := h.field k (·.owned u) fun _ => rfl
  simp only [State.reach, State.ownerOf, State.port, h.owners, h.ports, hown]

theorem xlate (h : SamePlaces s t) (k : CoreId) (u : Nat) (n : Tenant) (va : Nat) (need : Need) :
    t.xlate k u n va need = s.xlate k u n va need := by
  have htlb : (t.core k).tlb = (s.core k).tlb := h.field k Core.tlb fun _ => rfl
  have hfail (page : Nat) : (t.core k).failed u page = (s.core k).failed u page := h.field k (·.failed u page) fun _ => rfl
  simp only [State.xlate, htlb, hfail, h.reach]

theorem cell (h : SamePlaces s t) (pa : Nat) : t.cell pa = s.cell pa := by
  simp only [State.cell, State.port, h.ports]

theorem stampOn (h : SamePlaces s t) : t.stampOn = s.stampOn := by simp only [State.stampOn, h.stbase]

end SamePlaces

theorem samePlaces_modCtx (s : State) (k : CoreId) (c : CtxId) (f : Ctx → Ctx) : SamePlaces s (s.modCtx k c f) := by
  refine ⟨fun j => ?_, rfl, rfl, rfl⟩
  by_cases h : j = k
  · subst h; rw [State.core_modCtx]; rfl
  · rw [State.core_modCtx_ne _ _ _ h]

/-- The engine phase's bookings change nothing but the cores' lists of lines that wait (R19). -/
theorem engTake_books (s : State) (ls : List (CoreId × Nat)) :
    ∃ cs, s.engTake ls = { s with cores := cs } ∧ ∀ k, ∃ ws, (s.engTake ls).core k = { s.core k with engWait := ws } := by
  refine (List.foldlRecOn
    (motive := fun t : State => ∃ cs, t = { s with cores := cs } ∧ ∀ k, ∃ ws, t.core k = { s.core k with engWait := ws }) ls _
    ⟨s.cores, rfl, fun k => ⟨_, rfl⟩⟩ fun t ht kl _ => ?_)
  obtain ⟨cs, rfl, hcore⟩ := ht
  refine ⟨_, rfl, fun k => ?_⟩
  by_cases hk : k = kl.1
  · subst hk
    obtain ⟨ws, hws⟩ := hcore kl.1
    rw [State.core_modCore, hws]
    exact ⟨_, rfl⟩
  · rw [State.core_modCore_ne _ _ hk]
    exact hcore k

theorem samePlaces_engTake (s : State) (ls : List (CoreId × Nat)) : SamePlaces s (s.engTake ls) := by
  obtain ⟨cs, heq, hcore⟩ := engTake_books s ls
  refine ⟨fun k => ?_, by rw [heq], by rw [heq], by rw [heq]⟩
  obtain ⟨ws, hws⟩ := hcore k
  rw [hws]

theorem engTake_ctx (s : State) (ls : List (CoreId × Nat)) (k : CoreId) (c : CtxId) : (s.engTake ls).ctx k c = s.ctx k c := by
  obtain ⟨-, -, hcore⟩ := engTake_books s ls
  obtain ⟨ws, hws⟩ := hcore k
  rw [State.ctx, hws]
  rfl

/-- A byte of a scratchpad lies at the address of its core's window (R78). -/
theorem spmPa_of_home {pa d off : Nat} (h : homeOf pa = .spm d off) : spmPa (BitVec.ofNat 7 d).toNat off = pa := by
  unfold homeOf at h
  split at h
  · simp at h
  · split at h
    · dsimp only at h
      split at h
      · obtain ⟨rfl, rfl⟩ := Home.spm.inj h
        rw [spmPa, BitVec.toNat_ofNat]
        omega
      · simp at h
    · split at h
      · simp at h
      · split at h
        · simp at h
        · split at h <;> simp at h

end Sys2Proof.Machine
end

section
/-! One entry of a spill or a fill (R75, R139, R140). -/
namespace Sys2Proof.Machine

variable {s t : State} {k : CoreId} {c : CtxId} {j a : Nat}

/-! ### A landing in a page in use (R75) -/

theorem setRing_cores (s : State) (l : Log) (r : Ring) : (s.setRing l r).cores = s.cores := by cases l <;> rfl

theorem countError_cores (s : State) (bs : List Byte) (core : Option CoreId) : (s.countError bs core).cores = s.cores := by
  cases core <;> rfl

theorem writeLog_cores (s : State) (l : Log) (bs : List Byte) (core : Option CoreId) : (s.writeLog l bs core).cores = s.cores := by
  have counted : (if l == .error then s.countError bs core else s).cores = s.cores := by
    split
    · exact countError_cores s bs core
    · rfl
  unfold State.writeLog
  dsimp only
  rw [apply_ite State.cores, setRing_cores, State.write_cores, State.count_cores, setRing_cores, counted, ite_self]

theorem ringFault_cores (s : State) (n : Tenant) (bs : List Byte) : (s.ringFault n bs).cores = s.cores := by
  unfold State.ringFault State.logTo
  dsimp only
  split
  · rfl
  · exact writeLog_cores s _ bs none

/-- An overrun gives a context at most a pending fault. -/
theorem overrun_ctx (s : State) (d : CoreId) (u : InUse) (line : Nat) (rec : Bool) (k : CoreId) (c : CtxId) :
    ∃ pf, (s.overrun d u line rec).1.ctx k c = { s.ctx k c with pendFaults := pf } := by
  unfold State.overrun
  dsimp only
  split
  · exact ⟨_, rfl⟩
  · split
    · by_cases h : (k, c) = (d, u.ctx)
      · obtain ⟨rfl, rfl⟩ := Prod.mk.inj h
        rw [State.ctx_modCtx]
        exact ⟨_, rfl⟩
      · rw [State.ctx_modCtx_ctx _ _ h]
        exact ⟨_, rfl⟩
    · split
      · exact ⟨_, rfl⟩
      · rw [ctx_of_cores (ringFault_cores s _ _)]
        exact ⟨_, rfl⟩

theorem landSpm_ctx (s : State) (w : Who) (d : CoreId) (x : Nat) (bs : List Byte) (rec : Bool) (k : CoreId) (c : CtxId) :
    ∃ pf, (s.landSpm w d x bs rec).1.ctx k c = { s.ctx k c with pendFaults := pf } := by
  unfold State.landSpm
  split
  · exact overrun_ctx s d _ _ rec k c
  · rw [ctx_of_cores (writeBy_same s w _ bs).cores]
    exact ⟨_, rfl⟩

/-! ### Moving one entry (R139, R140) -/

/-- What a transfer needs of the pages of its entries. -/
def moveNeed (spill : Bool) : Need := if spill then .write else .read

/-- Entry j of a context's window has its place in the backing store at a memory cell. -/
def MovesTo (s : State) (k : CoreId) (c : CtxId) (spill : Bool) (j cell : Nat) : Prop :=
  ∃ pa, s.xlate k (ctxWaiter c) (s.core k).tenant ((s.ctx k c).bsaBase + 8 * j) (moveNeed spill) = .ok pa ∧ s.cell pa = cell

theorem MovesTo.of_same {spill : Bool} (h : SamePlaces s t) (hb : (t.ctx k c).bsaBase = (s.ctx k c).bsaBase) :
    MovesTo t k c spill j a ↔ MovesTo s k c spill j a := by
  simp only [MovesTo, h.xlate, h.tenant, h.cell, hb]

/-- An entry that has no place stays. -/
theorem moveEntry_stays {spill : Bool} (h : ∀ a, ¬ MovesTo s k c spill j a) : State.moveEntry k c spill s j = s := by
  unfold State.moveEntry
  dsimp only
  split
  · rename_i pa hpa
    exact absurd ⟨pa, hpa, rfl⟩ (h (s.cell pa))
  · rfl

/-- The page of a memory cell is no scratchpad page in use, so that a write there is no overrun (R75). -/
def PageFree (s : State) (a : Nat) : Prop :=
  ∀ d off, homeOf a = .spm d off → ahas (s.core (BitVec.ofNat 7 d)).inuse (off / 4096) = false

/-- A spilled entry is a write of its value at its place (R139). -/
theorem moveEntry_spill (h : MovesTo s k c true j a) (free : PageFree s a) :
    State.moveEntry k c true s j =
      s.writeBy ((s.ctx k c).xferWho k c) a (leBytes 8 (aget (s.ctx k c).scal (16 + j % 256) 0).toNat) := by
  obtain ⟨pa, hpa, rfl⟩ := h
  unfold State.moveEntry
  dsimp only
  rw [show (if true then Need.write else .read) = moveNeed true from rfl, hpa]
  simp only [↓reduceIte]
  split
  · rename_i d off hd
    have hcell : s.cell pa = pa := by simp only [State.cell, hd]
    rw [hcell] at free ⊢
    rw [State.landSpm, free d off hd, spmPa_of_home hd]
    rfl
  · rfl

theorem moveEntry_spill_ctx (s : State) (k : CoreId) (c : CtxId) (j : Nat) :
    ∃ pf, (State.moveEntry k c true s j).ctx k c = { s.ctx k c with pendFaults := pf } := by
  unfold State.moveEntry
  dsimp only
  split
  · simp only [↓reduceIte]
    split
    · exact landSpm_ctx ..
    · rw [ctx_of_cores (writeBy_same s _ _ _).cores]
      exact ⟨_, rfl⟩
  · exact ⟨_, rfl⟩

/-- Landing a scalar in the window (R138, R323). -/
theorem land_window (s : State) (k : CoreId) (c : CtxId) {e : Nat} (he : e ≠ 0) (v : Line) (lanes p : BitVec 16) :
    s.land k c (.s e) v lanes p = s.modCtx k c fun x =>
      { x with
        scal := ains x.scal e (v.setWidth 64)
        sPoison := if p == 0 then x.sPoison.filter (· != e) else sinsert e x.sPoison
        ldsPoison := adel x.ldsPoison e } := by
  cases e with
  | zero => exact absurd rfl he
  | succ n => rfl

/-- A filled entry takes what a read of its place returns (R139). -/
theorem moveEntry_fill (h : MovesTo s k c false j a) :
    ∃ v : Line, ∃ p : BitVec 16, State.moveEntry k c false s j =
        ((s.see ((s.ctx k c).xferWho k c) a 8).2).land k c (.s (16 + j % 256)) v 0xFFFF p ∧
      v = BitVec.ofNat 512 (leNat (s.see ((s.ctx k c).xferWho k c) a 8).1) ∧ p = if s.poisoned a 8 then 1 else 0 := by
  obtain ⟨pa, hpa, rfl⟩ := h
  unfold State.moveEntry
  dsimp only
  rw [show (if false then Need.write else .read) = moveNeed false from rfl, hpa]
  exact ⟨_, _, rfl, rfl, rfl⟩

end Sys2Proof.Machine
end

section
/-! All entries of a spill or of a fill (R93, R139). -/
namespace Sys2Proof.Machine

variable {s t : State} {k : CoreId} {c : CtxId} {j a z : Nat} {js : List Nat}

/-! ### A spill (R93, R139) -/

theorem spill_ctx (s : State) (k : CoreId) (c : CtxId) (js : List Nat) :
    ∃ pf, (js.foldl (State.moveEntry k c true) s).ctx k c = { s.ctx k c with pendFaults := pf } := by
  refine List.foldlRecOn (motive := fun t : State => ∃ pf, t.ctx k c = { s.ctx k c with pendFaults := pf }) js _
    ⟨_, rfl⟩ fun t ht j _ => ?_
  obtain ⟨pf, hpf⟩ := ht
  obtain ⟨pf', hpf'⟩ := moveEntry_spill_ctx t k c j
  exact ⟨pf', by rw [hpf', hpf]⟩

/-- A state that a spill of a context goes through: the same places, and the same context. -/
structure Spilling (k : CoreId) (c : CtxId) (s t : State) : Prop where
  places : SamePlaces s t
  ctx : t.ctx k c = s.ctx k c

/-- The bytes of an entry that is spilled. -/
def spillBytes (x : Ctx) (j : Nat) : List Byte := leBytes 8 (aget x.scal (16 + j % 256) 0).toNat

theorem Spilling.writeBy (h : Spilling k c s t) (w : Who) (a : Nat) (bs : List Byte) : Spilling k c s (t.writeBy w a bs) := by
  have hw := writeBy_same t w a bs
  exact ⟨h.places.trans (.of_writes hw), (ctx_of_cores hw.cores k c).trans h.ctx⟩

theorem Spilling.movesTo (h : Spilling k c s t) : MovesTo t k c true j a ↔ MovesTo s k c true j a :=
  MovesTo.of_same h.places (by rw [h.ctx])

theorem Spilling.pageFree (h : Spilling k c s t) (free : PageFree s a) : PageFree t a := fun d off hd => by
  rw [h.places.inuse, free d off hd]

theorem Spilling.move (h : Spilling k c s t) (hm : MovesTo s k c true j a) (free : PageFree s a) :
    State.moveEntry k c true t j = t.writeBy ((s.ctx k c).xferWho k c) a (spillBytes (s.ctx k c) j) := by
  rw [moveEntry_spill (h.movesTo.2 hm) (h.pageFree free), h.ctx]
  rfl

/-- What every spilled entry's write keeps, the spill keeps. -/
theorem spill_keeps {P : State → Prop} (free : ∀ j ∈ js, ∀ a, MovesTo s k c true j a → PageFree s a)
    (step : ∀ t a bs, SamePlaces s t → bs.length = 8 → (∃ j ∈ js, MovesTo s k c true j a) → P t →
      P (t.writeBy ((s.ctx k c).xferWho k c) a bs))
    (h : Spilling k c s t) (hP : P t) :
    Spilling k c s (js.foldl (State.moveEntry k c true) t) ∧ P (js.foldl (State.moveEntry k c true) t) := by
  refine List.foldlRecOn (motive := fun t : State => Spilling k c s t ∧ P t) js _ ⟨h, hP⟩ fun t ht j hj => ?_
  obtain ⟨hs, hp⟩ := ht
  by_cases hm : ∃ a, MovesTo s k c true j a
  · obtain ⟨a, ha⟩ := hm
    rw [hs.move ha (free j hj a ha)]
    exact ⟨hs.writeBy _ _ _, step t a _ hs.places (length_leBytes _ _) ⟨j, hj, ha⟩ hp⟩
  · rw [moveEntry_stays fun a ha => hm ⟨a, hs.movesTo.1 ha⟩]
    exact ⟨hs, hp⟩

section Spill

variable (stamp : s.stampOn = false) (free : ∀ j ∈ js, ∀ a, MovesTo s k c true j a → PageFree s a)
include stamp free

/-- A spill writes no byte outside its entries' places. -/
theorem spill_mem_out (h : Spilling k c s t) (out : ∀ j ∈ js, ∀ a, MovesTo s k c true j a → z < a ∨ a + 8 ≤ z) :
    rd (js.foldl (State.moveEntry k c true) t).mem z = rd t.mem z := by
  refine (spill_keeps (P := fun u => rd u.mem z = rd t.mem z) free (fun u a bs hu hl hm hz => ?_) h rfl).2
  obtain ⟨j, hj, hja⟩ := hm
  rw [writeBy_mem_out (hu.stampOn.trans stamp) (by rw [hl]; exact out j hj a hja), hz]

omit stamp in
/-- Entries with other places put no write between a write and these bytes. -/
theorem spill_over {v : Who} (h : Spilling k c s t) (apart : ∀ j ∈ js, ∀ b, MovesTo s k c true j b → a + 8 ≤ b ∨ b + 8 ≤ a)
    (ho : t.over v a 8 = []) : (js.foldl (State.moveEntry k c true) t).over v a 8 = [] := by
  refine (spill_keeps (P := fun u => u.over v a 8 = []) free (fun u b bs _ hl hm hu => ?_) h ho).2
  obtain ⟨j, hj, hjb⟩ := hm
  exact writeBy_over (by rw [hl]; exact apart j hj b hjb) hu

end Spill

theorem rdBytes_congr {m m' : List Host.Cell} {n : Nat} (h : ∀ z, a ≤ z → z < a + n → rd m z = rd m' z) :
    rdBytes m a n = rdBytes m' a n := by
  induction n generalizing a with
  | zero => rfl
  | succ n ih =>
    rw [rdBytes, rdBytes, h a (Nat.le_refl a) (by omega), ih fun z h1 h2 => h z (by omega) (by omega)]

/-- An entry whose write is the last to its bytes, and whose place no other entry has, stands in memory after the
spill. -/
theorem spill_lands {pre post : List Nat} (stamp : s.stampOn = false)
    (free : ∀ i ∈ pre ++ j :: post, ∀ b, MovesTo s k c true i b → PageFree s b) (hm : MovesTo s k c true j a)
    (apart : ∀ i ∈ pre ++ post, ∀ b, MovesTo s k c true i b → a + 8 ≤ b ∨ b + 8 ≤ a)
    (last : s.over ((s.ctx k c).xferWho k c) a 8 = []) :
    rdNat ((pre ++ j :: post).foldl (State.moveEntry k c true) s).mem a 8 = (aget (s.ctx k c).scal (16 + j % 256) 0).toNat := by
  simp only [List.mem_append, List.mem_cons] at free apart
  let u := pre.foldl (State.moveEntry k c true) s
  let v := State.moveEntry k c true u j
  have start : Spilling k c s s := ⟨.refl s, rfl⟩
  have freePre : ∀ i ∈ pre, ∀ b, MovesTo s k c true i b → PageFree s b := fun i hi => free i (.inl hi)
  have hu : Spilling k c s u := (spill_keeps (P := fun _ => True) freePre (fun _ _ _ _ _ _ _ => trivial) start trivial).1
  have hover : u.over ((s.ctx k c).xferWho k c) a 8 = [] := spill_over freePre start (fun i hi => apart i (.inl hi)) last
  have hv : v = u.writeBy ((s.ctx k c).xferWho k c) a (spillBytes (s.ctx k c) j) :=
    hu.move hm (free j (.inr (.inl rfl)) a hm)
  have hlen : (spillBytes (s.ctx k c) j).length = 8 := length_leBytes _ _
  have hmem : v.mem = wrBytes u.mem a (spillBytes (s.ctx k c) j) := by
    rw [hv]
    refine writeBy_mem_last (hu.places.stampOn.trans stamp) (fun h => ?_) (by rw [hlen]; exact hover)
    rw [h] at hlen
    exact absurd hlen (by decide)
  have hvs : Spilling k c s v := hv ▸ hu.writeBy _ _ _
  have hrest : rdBytes (post.foldl (State.moveEntry k c true) v).mem a 8 = rdBytes v.mem a 8 := rdBytes_congr fun z h1 h2 =>
    spill_mem_out stamp (fun i hi => free i (.inr (.inr hi))) hvs fun i hi b hb => by
      have := apart i (.inr hi) b hb
      omega
  have hread : rdBytes v.mem a 8 = spillBytes (s.ctx k c) j := by
    rw [hmem]
    exact hlen ▸ rdBytes_wrBytes u.mem a (spillBytes (s.ctx k c) j)
  rw [List.foldl_append, List.foldl_cons, rdNat, hrest, hread, spillBytes, leNat_leBytes]
  exact Nat.mod_eq_of_lt (aget (s.ctx k c).scal (16 + j % 256) 0).isLt

/-! ### A fill (R93, R139) -/

theorem mem_sinsert {k e : Nat} {l : List Nat} : e ∈ sinsert k l ↔ e = k ∨ e ∈ l := by
  induction l with
  | nil => simp [sinsert]
  | cons i l ih =>
    simp only [sinsert]
    split
    · simp
    · split
      · rename_i h
        subst h
        simp
      · rw [List.mem_cons, ih, List.mem_cons]
        exact or_left_comm

/-- A state that a fill of some entries goes through: all but the entries and their marks is as it was. -/
structure Filling (k : CoreId) (c : CtxId) (js : List Nat) (s t : State) : Prop where
  mem : t.mem = s.mem
  ctx : { t.ctx k c with scal := [], sPoison := [], ldsPoison := [] } = { s.ctx k c with scal := [], sPoison := [], ldsPoison := [] }
  scal : ∀ e, (∀ j ∈ js, e ≠ 16 + j % 256) → aget (t.ctx k c).scal e 0 = aget (s.ctx k c).scal e 0
  marks : ∀ e, (∀ j ∈ js, e ≠ 16 + j % 256) → (t.ctx k c).sPoison.contains e = (s.ctx k c).sPoison.contains e

namespace Filling

theorem refl (k : CoreId) (c : CtxId) (js : List Nat) (s : State) : Filling k c js s s :=
  ⟨rfl, rfl, fun _ _ => rfl, fun _ _ => rfl⟩

theorem trans {u : State} (h : Filling k c js s t) (h' : Filling k c js t u) : Filling k c js s u :=
  ⟨h'.mem.trans h.mem, h'.ctx.trans h.ctx, fun e he => (h'.scal e he).trans (h.scal e he),
    fun e he => (h'.marks e he).trans (h.marks e he)⟩

theorem field {α : Type} (h : Filling k c js s t) (f : Ctx → α)
    (hf : ∀ x, f x = f { x with scal := [], sPoison := [], ldsPoison := [] }) : f (t.ctx k c) = f (s.ctx k c) := by
  rw [hf, h.ctx, ← hf]

/-- A scalar of one of the entries lands. -/
theorem land (hj : j ∈ js) (s : State) (v : Line) (lanes p : BitVec 16) :
    Filling k c js s (s.land k c (.s (16 + j % 256)) v lanes p) := by
  rw [land_window s k c (by omega)]
  refine ⟨rfl, by rw [State.ctx_modCtx], fun e he => ?_, fun e he => ?_⟩
  · rw [State.ctx_modCtx]
    exact aget_ains_ne _ _ _ (he j hj)
  · rw [State.ctx_modCtx]
    dsimp only
    split
    · simp [List.contains_eq_mem, he j hj]
    · simp [List.contains_eq_mem, mem_sinsert, he j hj]

theorem move (hj : j ∈ js) (s : State) : Filling k c js s (State.moveEntry k c false s j) := by
  by_cases hm : ∃ a, MovesTo s k c false j a
  · obtain ⟨a, ha⟩ := hm
    obtain ⟨v, p, heq, -, -⟩ := moveEntry_fill ha
    obtain ⟨fc, pc, ps, pr, hsee⟩ := see_quiet s ((s.ctx k c).xferWho k c) a 8
    have read : Filling k c js s (s.see ((s.ctx k c).xferWho k c) a 8).2 := by
      rw [hsee]
      exact ⟨rfl, rfl, fun _ _ => rfl, fun _ _ => rfl⟩
    rw [heq]
    exact read.trans (land hj _ v 0xFFFF p)
  · rw [moveEntry_stays fun a ha => hm ⟨a, ha⟩]
    exact refl k c js s

theorem moves (s : State) : Filling k c js s (js.foldl (State.moveEntry k c false) s) :=
  List.foldlRecOn (motive := fun t : State => Filling k c js s t) js _ (refl k c js s) fun t ht _ hj => ht.trans (move hj t)

end Filling

/-- A state that a fill of some entries goes through whose reads can miss no write. -/
structure SureFill (k : CoreId) (c : CtxId) (js : List Nat) (s t : State) : Prop extends Filling k c js s t where
  places : SamePlaces s t
  poison : t.poison = s.poison
  pasts : t.pasts = s.pasts
  promises : t.promises = s.promises

/-- The value and the mark that a fill brings from a place. -/
def fillValue (s : State) (a : Nat) : Line := BitVec.ofNat 512 (rdNat s.mem a 8)
def fillMark (s : State) (a : Nat) : BitVec 16 := if s.poisoned a 8 then 1 else 0

namespace SureFill

theorem refl (s : State) : SureFill k c js s s := ⟨.refl k c js s, .refl s, rfl, rfl, rfl⟩

theorem movesTo (h : SureFill k c js s t) : MovesTo t k c false j a ↔ MovesTo s k c false j a :=
  MovesTo.of_same h.places (h.field Ctx.bsaBase fun _ => rfl)

theorem move (h : SureFill k c js s t) (hm : MovesTo s k c false j a) (sure : s.sure ((s.ctx k c).xferWho k c) a 8 = true) :
    State.moveEntry k c false t j = t.land k c (.s (16 + j % 256)) (fillValue s a) 0xFFFF (fillMark s a) := by
  have hw : (t.ctx k c).xferWho k c = (s.ctx k c).xferWho k c := h.field (·.xferWho k c) fun _ => rfl
  have hsure : t.sure ((s.ctx k c).xferWho k c) a 8 = true := by
    simpa only [State.sure, h.pasts, h.promises] using sure
  obtain ⟨v, p, heq, rfl, rfl⟩ := moveEntry_fill (h.movesTo.2 hm)
  have hpoison : t.poisoned a 8 = s.poisoned a 8 := by simp only [State.poisoned, h.poison]
  rw [heq, hw, see_sure hsure, h.mem, fillMark, hpoison]
  rfl

theorem land (hj : j ∈ js) (h : SureFill k c js s t) (v : Line) (lanes p : BitVec 16) :
    SureFill k c js s (t.land k c (.s (16 + j % 256)) v lanes p) := by
  have hfill := h.toFilling.trans (.land hj t v lanes p)
  rw [land_window t k c (by omega)] at hfill ⊢
  exact ⟨hfill, h.places.trans (samePlaces_modCtx t k c _), h.poison, h.pasts, h.promises⟩

theorem moves (sure : ∀ j ∈ js, ∀ a, MovesTo s k c false j a → s.sure ((s.ctx k c).xferWho k c) a 8 = true) :
    SureFill k c js s (js.foldl (State.moveEntry k c false) s) := by
  refine List.foldlRecOn (motive := fun t : State => SureFill k c js s t) js _ (refl s) fun t ht j hj => ?_
  by_cases hm : ∃ a, MovesTo s k c false j a
  · obtain ⟨a, ha⟩ := hm
    rw [ht.move ha (sure j hj a ha)]
    exact ht.land hj _ _ _
  · rw [moveEntry_stays fun a ha => hm ⟨a, ht.movesTo.1 ha⟩]
    exact ht

end SureFill

/-- An entry that is filled holds the word at its place, and poison where that is poisoned. -/
theorem fill_lands {pre post : List Nat} (hm : MovesTo s k c false j a)
    (sure : ∀ i ∈ pre ++ j :: post, ∀ b, MovesTo s k c false i b → s.sure ((s.ctx k c).xferWho k c) b 8 = true)
    (apart : ∀ i ∈ post, 16 + j % 256 ≠ 16 + i % 256) :
    let t := (pre ++ j :: post).foldl (State.moveEntry k c false) s
    aget (t.ctx k c).scal (16 + j % 256) 0 = rdDword s.mem a ∧
      (t.ctx k c).sPoison.contains (16 + j % 256) = s.poisoned a 8 := by
  simp only [List.mem_append, List.mem_cons] at sure
  have hu : SureFill k c pre s (pre.foldl (State.moveEntry k c false) s) := .moves fun i hi => sure i (.inl hi)
  rw [List.foldl_append, List.foldl_cons, hu.move hm (sure j (.inr (.inl rfl)) a hm), land_window _ k c (by omega)]
  dsimp only
  have rest := Filling.moves (k := k) (c := c) (js := post)
  constructor
  · rw [(rest _).scal _ apart, State.ctx_modCtx, aget_ains_same]
    exact BitVec.setWidth_ofNat_of_le (by decide) _
  · rw [(rest _).marks _ apart, State.ctx_modCtx]
    by_cases hp : s.poisoned a 8 = true
    · simp [fillMark, hp, List.contains_eq_mem, mem_sinsert]
    · simp [fillMark, hp]

end Sys2Proof.Machine
end

section
/-! Spills and fills as steps, and the obligation on calls and returns (R139, R140). -/
namespace Sys2Proof.Machine

variable {s : State} {k : CoreId} {c : CtxId} {spill : Bool} {bot : Nat}

/-! ### The transfer (R139, R140) -/

/-- The entries that a transfer to a new BOT moves. -/
def movedEntries (x : Ctx) (bot : Nat) : List Nat := xferEntries (Min.min x.bot.toNat bot) (Max.max x.bot.toNat bot)

theorem meetNext_clean (as : Option ErrAt) (y : Option CoreId) (ws : List Nat) (h : s.nextErrs = []) :
    s.meetNext as y ws = s := by
  rw [State.meetNext, h]
  exact congrArg (fun e => { s with nextErrs := e }) h.symm

theorem exec_spillFillComplete (h : s.nextErrs = []) (ready : xferReady s k c = true) :
    exec (.spillFillComplete k c) s = .next (s.doXfer k c) := by
  change execSpillFillComplete k c s = _
  rw [execSpillFillComplete, ready, meetNext_clean none (some k) _ h]
  rfl

theorem xferRange_eq (x : Ctx) (bot : Nat) : xferRange x bot = (Min.min x.bot.toNat bot, Max.max x.bot.toNat bot) := by
  unfold xferRange
  split
  · rename_i h; rw [Nat.min_eq_left h, Nat.max_eq_right h]
  · rename_i h; rw [Nat.min_eq_right (by omega), Nat.max_eq_left (by omega)]

/-- A transfer whose places all take their entries moves them, and BOT follows. -/
theorem doXfer_moves (hx : (s.ctx k c).xfer = some (spill, bot))
    (hc : xferCheck { s with cur := (k, c) } (s.ctx k c) (moveNeed spill) (movedEntries (s.ctx k c) bot) = .ok) :
    ∃ ls, s.doXfer k c = ((movedEntries (s.ctx k c) bot).foldl (State.moveEntry k c spill) (s.engTake ls)).modCtx k c
      fun x => { x with xfer := none, bot := BitVec.ofNat 32 bot } := by
  unfold movedEntries moveNeed at hc
  unfold State.doXfer
  simp only [hx, xferRange_eq, hc]
  exact ⟨_, rfl⟩

/-- A transfer that finds a place which takes 0x12 moves nothing. -/
theorem doXfer_stops {f : FaultInfo} (hx : (s.ctx k c).xfer = some (spill, bot))
    (hc : xferCheck { s with cur := (k, c) } (s.ctx k c) (moveNeed spill) (movedEntries (s.ctx k c) bot) = .fault f) :
    s.doXfer k c = s.modCtx k c fun x => { x with xfer := none } := by
  unfold movedEntries moveNeed at hc
  unfold State.doXfer
  simp only [hx, xferRange_eq, hc]

/-- What a transfer moves, it moves from the state in which its lines are booked as from the state before. -/
theorem movesTo_engTake (s : State) (ls : List (CoreId × Nat)) (k : CoreId) (c : CtxId) (spill : Bool) (j a : Nat) :
    MovesTo (s.engTake ls) k c spill j a ↔ MovesTo s k c spill j a :=
  MovesTo.of_same (samePlaces_engTake s ls) (by rw [engTake_ctx])

theorem pageFree_engTake (ls : List (CoreId × Nat)) {a : Nat} (h : PageFree s a) : PageFree (s.engTake ls) a :=
  fun d off hd => by rw [(samePlaces_engTake s ls).inuse, h d off hd]

/-- A spill's own effect on memory and on the scalars (R93, R139). -/
theorem spill_effect (s : State) (k : CoreId) (c : CtxId) (lo hi : Nat) (ls : List (CoreId × Nat)) :
    let js := xferEntries lo hi
    let t := js.foldl (State.moveEntry k c true) (s.engTake ls)
    (t.ctx k c).scal = (s.ctx k c).scal ∧ (t.ctx k c).fb = (s.ctx k c).fb ∧ (t.ctx k c).pc = (s.ctx k c).pc ∧
    (s.stampOn = false → (∀ j ∈ js, ∀ a, MovesTo s k c true j a → PageFree s a) →
      (∀ j ∈ js, ∀ a, MovesTo s k c true j a →
        (∀ i ∈ js, ∀ b, MovesTo s k c true i b → i ≠ j → a + 8 ≤ b ∨ b + 8 ≤ a) →
        s.over ((s.ctx k c).xferWho k c) a 8 = [] → rdNat t.mem a 8 = (aget (s.ctx k c).scal (16 + j % 256) 0).toNat) ∧
      ∀ z, (∀ j ∈ js, ∀ a, MovesTo s k c true j a → z < a ∨ a + 8 ≤ z) → rd t.mem z = rd s.mem z) := by
  intro js t
  have hctx := engTake_ctx s ls k c
  have hplaces := samePlaces_engTake s ls
  obtain ⟨cs, htake, -⟩ := engTake_books s ls
  obtain ⟨pf, hpf⟩ := spill_ctx (s.engTake ls) k c js
  refine ⟨by rw [hpf, hctx], by rw [hpf, hctx], by rw [hpf, hctx], fun stamp free => ?_⟩
  have stamp' : (s.engTake ls).stampOn = false := hplaces.stampOn.trans stamp
  have free' : ∀ j ∈ js, ∀ a, MovesTo (s.engTake ls) k c true j a → PageFree (s.engTake ls) a := fun j hj a ha =>
    pageFree_engTake ls (free j hj a ((movesTo_engTake ..).1 ha))
  refine ⟨fun j hj a ha apart last => ?_, fun z out => ?_⟩
  · obtain ⟨hlo, hhi⟩ := mem_xferEntries.1 hj
    have hsplit : js = xferEntries lo j ++ j :: xferEntries (j + 1) hi := xferEntries_split hlo hhi
    have last' : (s.engTake ls).over (((s.engTake ls).ctx k c).xferWho k c) a 8 = [] := by
      rw [hctx, htake]
      exact last
    have := spill_lands (pre := xferEntries lo j) (post := xferEntries (j + 1) hi) stamp' (hsplit ▸ free')
      ((movesTo_engTake ..).2 ha) (fun i hi b hb => ?_) last'
    · rwa [hctx, ← hsplit] at this
    · have hne : i ≠ j := by
        rcases List.mem_append.1 hi with hi | hi
        · exact Nat.ne_of_lt (mem_xferEntries.1 hi).2
        · exact Nat.ne_of_gt (mem_xferEntries.1 hi).1
      have hmem : i ∈ js := by
        rw [hsplit, List.mem_append, List.mem_cons]
        exact (List.mem_append.1 hi).imp id .inr
      exact apart i hmem b ((movesTo_engTake ..).1 hb) hne
  · have := spill_mem_out stamp' free' ⟨.refl _, rfl⟩ fun j hj a ha => out j hj a ((movesTo_engTake ..).1 ha)
    rw [this, htake]

/-- A fill's own effect on memory and on the scalars (R93, R139). -/
theorem fill_effect (s : State) (k : CoreId) (c : CtxId) (lo hi : Nat) (ls : List (CoreId × Nat)) :
    let js := xferEntries lo hi
    let t := js.foldl (State.moveEntry k c false) (s.engTake ls)
    (t.ctx k c).fb = (s.ctx k c).fb ∧ (t.ctx k c).pc = (s.ctx k c).pc ∧ t.mem = s.mem ∧
    (js.length ≤ 256 → ∀ j ∈ js, ∀ a, MovesTo s k c false j a →
      (∀ i ∈ js, ∀ b, MovesTo s k c false i b → s.sure ((s.ctx k c).xferWho k c) b 8 = true) →
      aget (t.ctx k c).scal (16 + j % 256) 0 = rdDword s.mem a ∧
      (t.ctx k c).sPoison.contains (16 + j % 256) = s.poisoned a 8) ∧
    ∀ e, (∀ j ∈ js, e ≠ 16 + j % 256) → aget (t.ctx k c).scal e 0 = aget (s.ctx k c).scal e 0 := by
  intro js t
  have hctx := engTake_ctx s ls k c
  obtain ⟨cs, htake, -⟩ := engTake_books s ls
  have filled : Filling k c js (s.engTake ls) t := .moves _
  refine ⟨?_, ?_, ?_, fun hlen j hj a ha sure => ?_, fun e he => ?_⟩
  · rw [filled.field Ctx.fb fun _ => rfl, hctx]
  · rw [filled.field Ctx.pc fun _ => rfl, hctx]
  · rw [filled.mem, htake]
  · obtain ⟨hlo, hhi⟩ := mem_xferEntries.1 hj
    have hsplit : js = xferEntries lo j ++ j :: xferEntries (j + 1) hi := xferEntries_split hlo hhi
    have sure' : ∀ i ∈ js, ∀ b, MovesTo (s.engTake ls) k c false i b →
        (s.engTake ls).sure (((s.engTake ls).ctx k c).xferWho k c) b 8 = true := fun i hi b hb => by
      rw [hctx, htake]
      exact sure i hi b ((movesTo_engTake ..).1 hb)
    have apart : ∀ i ∈ xferEntries (j + 1) hi, 16 + j % 256 ≠ 16 + i % 256 := fun i hi => by
      have := mem_xferEntries.1 hi
      rw [length_xferEntries] at hlen
      omega
    have := fill_lands (pre := xferEntries lo j) ((movesTo_engTake ..).2 ha) (hsplit ▸ sure') apart
    have hmem : (s.engTake ls).mem = s.mem := by rw [htake]
    have hpoison : (s.engTake ls).poisoned a 8 = s.poisoned a 8 := by rw [htake]; rfl
    rwa [← hsplit, hmem, hpoison] at this
  · rw [filled.scal e he, hctx]

theorem windowTransfers : Sys2Proof.Claim.WindowTransfers := by
  intro s k c spill bot herr hready hx hbot x need js moves
  have hexec := exec_spillFillComplete herr hready
  refine ⟨fun f hf => by rw [hexec, doXfer_stops hx hf], fun hok => ?_⟩
  obtain ⟨ls, hmv⟩ := doXfer_moves hx hok
  refine ⟨_, hexec, ?_⟩
  rw [hmv, State.ctx_modCtx, State.modCtx_mem]
  refine ⟨Nat.mod_eq_of_lt hbot, rfl, ?_⟩
  cases spill with
  | true =>
    obtain ⟨hscal, hfb, hpc, hmem⟩ := spill_effect s k c (Min.min x.bot.toNat bot) (Max.max x.bot.toNat bot) ls
    refine ⟨hfb, hpc, fun _ => ⟨hscal, fun stamp free => ?_⟩, fun h => absurd h (by decide)⟩
    obtain ⟨lands, out⟩ := hmem stamp fun j hj a ha d off hd => free j a d off ⟨hj, ha⟩ hd
    exact ⟨fun j a ⟨hj, ha⟩ apart ⟨last, _⟩ => lands j hj a ha (fun i hi b hb => apart i b ⟨hi, hb⟩) last,
      fun z hz => out z fun j hj a ha => hz j a ⟨hj, ha⟩⟩
  | false =>
    obtain ⟨hfb, hpc, hmem, lands, rest⟩ := fill_effect s k c (Min.min x.bot.toNat bot) (Max.max x.bot.toNat bot) ls
    exact ⟨hfb, hpc, fun h => absurd h (by decide), fun _ => ⟨hmem,
      fun hlen j a ⟨hj, ha⟩ sure => lands hlen j hj a ha fun i hi b hb => sure i b ⟨hi, hb⟩, rest⟩⟩

/-- Settles O10: the claims on CALL and RET through the plans of the two, the claim on a slide through the window it leaves,
and the claim on a transfer by the invariants of its moves. -/
theorem callsAndReturns : Obligations.CallsAndReturns :=
  ⟨callSlides, callThroughTable, callKeepsScalars, returnSlidesBack, windowTransfers⟩

end Sys2Proof.Machine
end

section
/-! Reset, and the claims on supply, clock, power windows and resets (R20, R21, R346 to R348). -/
namespace Sys2Proof.Machine

/-! ### Reset (R21, R73, R74, R154, R256, R295, R298, R336, R338, R346, R349) -/

theorem core_reset (k : CoreId) : State.reset.core k = {} := rfl

theorem ctx_reset (k : CoreId) (c : CtxId) : State.reset.ctx k c = {} := rfl

theorem tenant_reset (t : Tenant) : State.reset.tenant t = {} := rfl

theorem allows_default (c : Nat) : ({} : TenantSt).allows c = false := BitVec.getLsbD_zero

theorem resetValues : Sys2Proof.Claim.ResetValues := by
  refine ⟨rfl, rfl, rfl, rfl, rfl, fun _ => rfl, fun _ => rfl, fun k => ?_, fun t => ?_⟩
  · rw [core_reset]
    exact ⟨rfl, rfl, rfl, rfl, fun _ => rfl, fun c => by rw [ctx_reset]; exact ⟨rfl, rfl⟩⟩
  · rw [tenant_reset]
    exact ⟨rfl, rfl, allows_default⟩

/-- Settles O59: no byte is listed at reset, and what is not listed has its default, which is the spec's reset value. -/
theorem resetIsRight : Obligations.ResetIsRight := ⟨Memory.wf_nil, resetValues⟩

/-! ### Dies in turn -/

/-- Where a change of one die leaves the others, each die of a round of changes is changed once. -/
theorem foldl_dies {op : State → DieId → State} (R : DieId → Die → Die → Prop)
    (other : ∀ s d e, e ≠ d → (op s d).die e = s.die e) (own : ∀ s d, R d (s.die d) ((op s d).die d))
    {ds : List DieId} (once : ds.Nodup) (s : State) :
    (∀ d ∈ ds, R d (s.die d) ((ds.foldl op s).die d)) ∧ ∀ d ∉ ds, (ds.foldl op s).die d = s.die d := by
  induction ds generalizing s with
  | nil => exact ⟨fun d hd => absurd hd List.not_mem_nil, fun _ _ => rfl⟩
  | cons x xs ih =>
    obtain ⟨hx, hxs⟩ := List.nodup_cons.1 once
    obtain ⟨inside, outside⟩ := ih hxs (op s x)
    refine ⟨fun d hd => ?_, fun d hd => ?_⟩
    · by_cases h : d = x
      · subst h
        rw [List.foldl_cons, outside d hx]
        exact own s d
      · rw [List.foldl_cons, ← other s x d h]
        exact inside d ((List.mem_cons.1 hd).resolve_left h)
    · rw [List.foldl_cons, outside d fun h => hd (List.mem_cons_of_mem x h)]
      exact other s x d fun h => hd (h ▸ List.mem_cons_self)

theorem mem_allDies : ∀ d : DieId, d ∈ allDies := by decide

theorem nodup_allDies : allDies.Nodup := by decide

/-! ### Supply and clock (R20, R21, R347) -/

theorem suppliesSag : Sys2Proof.Claim.SuppliesSag := by
  intro s d
  refine ⟨_, _, rfl, rfl, ?_⟩
  rw [State.die_modDie, State.die_modDie]
  refine ⟨rfl, rfl, fun h => ?_, fun h => if_neg (by omega), fun e he => ⟨s.die_modDie_ne _ he, s.die_modDie_ne _ he⟩,
    rfl, rfl, rfl, rfl⟩
  change max 1 (s.die d).sagTicks = 1
  omega

/-- Whether a die's tick takes the edge from it, where `lose` says that an edge a sag may cost is lost now. -/
def Die.loses (d : Die) (lose : Bool) : Prop :=
  49 ≤ d.sinceLoss ∧ (d.stage ≠ 0 ∨ (d.sagTicks ≠ 0 ∧ (lose = true ∨ 50 ≤ d.sagTicks)))

theorem Die.tick_loses {d : Die} {lose : Bool} (h : d.loses lose) :
    (d.tick lose).1 = { d with sinceLoss := 0, sagTicks := if d.sag then 51 else 0 } := by
  rw [Die.tick, if_pos (by simpa [Die.loses] using h)]

theorem Die.tick_keeps {d : Die} {lose : Bool} (h : ¬ d.loses lose) :
    (d.tick lose).1 = { d with
      cycle := d.cycle + 1, sinceLoss := d.sinceLoss + 1, sagTicks := if d.sagTicks = 0 then 0 else d.sagTicks + 1 } := by
  rw [Die.tick, if_neg (by simpa [Die.loses] using h)]

/-- A tick of a die is one of its clock, with a new temperature. -/
def Die.Ticks (x y : Die) : Prop := ∃ lose temp, y = { (x.tick lose).1 with temp := temp }

theorem tickDie_dies (s : State) (d : DieId) : ∃ lose temp,
    (s.tickDie d).dies = (s.modDie d fun x => { (x.tick lose).1 with temp := temp }).dies := by
  refine ⟨Config.freeBit s.freeCtr, Config.freeNat s.freeCtr, ?_⟩
  unfold State.tickDie
  dsimp only
  split <;> rfl

theorem die_of_dies {s t : State} (h : t.dies = s.dies) (d : DieId) : t.die d = s.die d := by rw [State.die, h]; rfl

theorem tickDie_other (s : State) (d e : DieId) (h : e ≠ d) : (s.tickDie d).die e = s.die e := by
  obtain ⟨lose, temp, hdies⟩ := tickDie_dies s d
  rw [die_of_dies hdies, State.die_modDie_ne _ _ h]

theorem tickDie_own (s : State) (d : DieId) : (s.die d).Ticks ((s.tickDie d).die d) := by
  obtain ⟨lose, temp, hdies⟩ := tickDie_dies s d
  exact ⟨lose, temp, by rw [die_of_dies hdies, State.die_modDie]⟩

theorem tickDie_same (s : State) (d : DieId) :
    (s.tickDie d).gcc = s.gcc ∧ (s.tickDie d).mem = s.mem ∧ (s.tickDie d).cores = s.cores := by
  unfold State.tickDie
  dsimp only
  split <;> exact ⟨rfl, rfl, rfl⟩

theorem tick_same (s : State) : s.tick.gcc = s.gcc + 1 ∧ s.tick.mem = s.mem ∧ s.tick.cores = s.cores :=
  List.foldlRecOn (motive := fun t : State => t.gcc = s.gcc + 1 ∧ t.mem = s.mem ∧ t.cores = s.cores) _ State.tickDie
    ⟨rfl, rfl, rfl⟩ fun t ⟨hgcc, hmem, hcores⟩ d _ =>
      have ⟨hgcc', hmem', hcores'⟩ := tickDie_same t d
      ⟨hgcc'.trans hgcc, hmem'.trans hmem, hcores'.trans hcores⟩

theorem tick_die (s : State) (d : DieId) : (s.die d).Ticks (s.tick.die d) :=
  (foldl_dies (fun _ => Die.Ticks) tickDie_other tickDie_own nodup_allDies { s with gcc := s.gcc + 1 }).1 d (mem_allDies d)

/-- No tick comes while a die is hot enough to reset the module. -/
theorem tickReady_cool {s : State} (h : tickReady s = true) (d : DieId) : (s.die d).temp < 16 * 120 := by
  obtain ⟨hdies, -⟩ := Bool.and_eq_true_iff.1 h
  obtain ⟨-, hdies⟩ := Bool.and_eq_true_iff.1 hdies
  obtain ⟨-, hd⟩ := Bool.and_eq_true_iff.1 (List.all_eq_true.1 hdies d (mem_allDies d))
  exact of_decide_eq_true hd

theorem clockTicks : Sys2Proof.Claim.ClockTicks := by
  intro s
  refine ⟨fun ⟨d, hot⟩ => ?_, fun ready => ⟨s.tick, if_pos ready, ?_⟩⟩
  · exact if_neg fun ready => absurd (tickReady_cool ready d) (by omega)
  obtain ⟨hgcc, hmem, hcores⟩ := tick_same s
  refine ⟨hgcc, hmem, hcores, fun d => ?_⟩
  obtain ⟨lose, temp, hd⟩ := tick_die s d
  rw [hd]
  by_cases h : (s.die d).loses lose
  · rw [Die.tick_loses h]
    obtain ⟨hlong, hwhy⟩ := h
    refine ⟨fun hstage hsag => ?_, fun _ _ => ⟨rfl, rfl⟩, fun hshort => by omega, fun hcycle => ?_⟩
    · exact absurd hwhy (by simp [hstage, hsag])
    · exact absurd hcycle (Nat.ne_of_lt (Nat.lt_succ_self _))
  · rw [Die.tick_keeps h]
    refine ⟨fun _ _ => ⟨rfl, rfl⟩, fun hwhy hlong => absurd ⟨hlong, ?_⟩ h, fun _ => rfl, fun _ => rfl⟩
    exact hwhy.imp_right fun hsag => ⟨by omega, .inr hsag⟩

/-! ### Power windows (R347) -/

theorem temp_sample (s : State) (d : DieId) : (sampleOf s.sample d).2 = (s.die d).temp := by
  have := mem_allDies d
  simp only [allDies, List.mem_cons, List.not_mem_nil, or_false] at this
  rcases this with rfl | rfl | rfl | rfl <;> rfl

/-- The telemetry changes the counters and takes free values. -/
def OnlyCounts (s t : State) : Prop := ∃ n cs, t = { s with freeCtr := n, counters := cs }

theorem OnlyCounts.count {s t : State} (h : OnlyCounts s t) (c n : Nat) : OnlyCounts s (t.count c n) := by
  obtain ⟨m, cs, rfl⟩ := h
  exact ⟨_, _, rfl⟩

theorem OnlyCounts.setCounter {s t : State} (h : OnlyCounts s t) (c n : Nat) : OnlyCounts s (t.setCounter c n) := by
  obtain ⟨m, cs, rfl⟩ := h
  exact ⟨_, _, rfl⟩

theorem OnlyCounts.free {s t : State} (h : OnlyCounts s t) : OnlyCounts s { t with freeCtr := t.freeCtr + 1 } := by
  obtain ⟨m, cs, rfl⟩ := h
  exact ⟨_, _, rfl⟩

theorem countWindow_counts (s : State) (p : PowerSample) : OnlyCounts s (s.countWindow p) := by
  unfold State.countWindow
  refine List.foldlRecOn (motive := OnlyCounts s) _ _ (List.foldlRecOn (motive := OnlyCounts s) _ _
    (OnlyCounts.setCounter ⟨_, _, rfl⟩ _ _) fun t ht d _ => ?_) fun t ht k _ => ht.free.setCounter _ _
  dsimp only
  split
  · exact ((ht.setCounter _ _).setCounter _ _).count _ _
  · exact (ht.setCounter _ _).setCounter _ _

theorem foldl_modDie (g : DieId → Die → Die) (ds : List DieId) (s : State) :
    ∃ xs, ds.foldl (fun t d => t.modDie d (g d)) s = { s with dies := xs } :=
  List.foldlRecOn (motive := fun t : State => ∃ xs, t = { s with dies := xs }) ds _ ⟨_, rfl⟩
    fun _ ⟨_, ht⟩ _ _ => ht ▸ ⟨_, rfl⟩

/-- Power and every temperature are low at the end of a window (R347). -/
def State.calmAt (s : State) : Bool :=
  s.sample.mw ≤ (s.cap.toNat - 50) * 1000 && allDies.all fun d => (sampleOf s.sample d).2 ≤ 16 * (s.tlim.toNat - 5)

/-- The module is over CAP, or the die at TLIM, at the end of a window (R347). -/
def State.hotAt (s : State) (d : DieId) : Bool :=
  s.cap.toNat * 1000 < s.sample.mw || 16 * s.tlim.toNat ≤ (sampleOf s.sample d).2

theorem calmAt_iff (s : State) : s.calmAt = true ↔
    s.sample.mw ≤ (s.cap.toNat - 50) * 1000 ∧ ∀ e, (s.die e).temp ≤ 16 * (s.tlim.toNat - 5) := by
  simp [State.calmAt, temp_sample, mem_allDies]

theorem hotAt_iff (s : State) (d : DieId) : s.hotAt d = true ↔
    s.cap.toNat * 1000 < s.sample.mw ∨ 16 * s.tlim.toNat ≤ (s.die d).temp := by
  simp [State.hotAt, temp_sample]

/-- The state in which a window's measurements stand. -/
def State.measured (s : State) : State :=
  ({ s with freeCtr := s.freeCtr + 5, sensors := s.sample, window := s.gcc } : State).countWindow s.sample

theorem measured_counts (s : State) : OnlyCounts { s with sensors := s.sample, window := s.gcc } s.measured := by
  obtain ⟨n, cs, h⟩ := countWindow_counts { s with freeCtr := s.freeCtr + 5, sensors := s.sample, window := s.gcc } s.sample
  exact ⟨n, cs, h⟩

theorem stageWindow_eq (s : State) : s.stageWindow =
    allDies.foldl (fun t d => t.modDie d fun x => x.window (s.hotAt d) s.calmAt) s.measured := rfl

theorem stageWindow_same (s : State) : s.stageWindow.sensors = s.sample ∧ s.stageWindow.window = s.gcc ∧
    s.stageWindow.mem = s.mem ∧ s.stageWindow.cores = s.cores := by
  obtain ⟨n, cs, hcount⟩ := measured_counts s
  obtain ⟨xs, hdies⟩ := foldl_modDie (fun d x => x.window (s.hotAt d) s.calmAt) allDies s.measured
  rw [stageWindow_eq, hdies, hcount]
  exact ⟨rfl, rfl, rfl, rfl⟩

theorem stageWindow_die (s : State) (d : DieId) : s.stageWindow.die d = (s.die d).window (s.hotAt d) s.calmAt := by
  obtain ⟨n, cs, hcount⟩ := measured_counts s
  have hdie : s.measured.die d = s.die d := by rw [hcount]; rfl
  rw [stageWindow_eq, ← hdie]
  exact (foldl_dies (fun d x y => y = x.window (s.hotAt d) s.calmAt) (fun t _ _ h => t.die_modDie_ne _ h)
    (fun t d => t.die_modDie d _) nodup_allDies s.measured).1 d (mem_allDies d)

theorem Die.window_calm (x : Die) (breach : Bool) : (x.window breach true).stage = 0 := rfl

theorem Die.window_first {x : Die} (h : x.stage = 0) (breach : Bool) :
    (x.window breach false).stage = if breach then 1 else 0 := by rw [Die.window, h]; rfl

theorem Die.window_later {x : Die} (h : x.stage ≠ 0) (breach : Bool) :
    (x.window breach false).stage = if breach && x.breach then 2 else x.stage := if_neg (by simpa using h)

theorem powerWindows : Sys2Proof.Claim.PowerWindows := by
  intro s due
  refine ⟨s.endWindow, if_pos due, fun ⟨d, hot⟩ => ?_, fun cool => ?_⟩
  · rw [State.endWindow, if_pos (List.any_eq_true.2 ⟨d, mem_allDies d, decide_eq_true hot⟩)]
    exact ⟨rfl, rfl, rfl, rfl⟩
  · have hend : s.endWindow = s.stageWindow := by
      refine if_neg fun hany => ?_
      obtain ⟨d, -, hot⟩ := List.any_eq_true.1 hany
      exact cool ⟨d, of_decide_eq_true hot⟩
    obtain ⟨hsensors, hwindow, hmem, hcores⟩ := stageWindow_same s
    rw [hend]
    refine ⟨hsensors, hwindow, hmem, hcores, fun d => ?_⟩
    rw [stageWindow_die, ← calmAt_iff, ← hotAt_iff]
    refine ⟨rfl, ?_⟩
    cases s.calmAt with
    | true => simp [Die.window_calm]
    | false =>
      by_cases h0 : (s.die d).stage = 0
      · rw [Die.window_first h0]
        cases s.hotAt d <;> simp [h0]
      · rw [Die.window_later h0]
        refine ⟨fun h => absurd h (by decide), fun _ h => absurd h h0, fun _ h => absurd h h0, fun _ _ hot last => ?_,
          fun _ _ cool => ?_⟩
        · rw [hot, last]; rfl
        · rw [Bool.eq_false_of_not_eq_true cool]; rfl

/-! ### Resets (R346 to R348) -/

/-- What lies outside the module is what a reset does not clear. -/
theorem rd_outsideMem (m : List Host.Cell) (a : Nat) :
    rd (outsideMem m) a = if a < 0x080000000000 then 0 else rd m a := by
  have h : outsideMem m = clearRange m 0 0x080000000000 := by simp [outsideMem, clearRange]
  rw [h, rd_clearRange]
  simp

/-- What every reset leaves, and the counters that it says. -/
theorem moduleReset_leaves (s : State) (cause : BitVec 2) {i : Instr} {cs : List (Nat × Dword)}
    (hexec : exec i s = .next { s.moduleReset cause with counters := cs })
    (hcs : cs = if cause = 0 then [] else s.counters) :
    ∃ t, exec i s = .next t ∧ t.rstcause = cause ∧ t.gcc = 0 ∧ t.cores = [] ∧ t.launches = [] ∧ t.reqs = [] ∧
      t.tenants = [] ∧ t.owners = [] ∧ t.dies = [] ∧ t.measgen = 0 ∧ t.boot.slots = s.boot.slots ∧ t.boot.stage = 0 ∧
      t.counters = (if cause = 0 then [] else s.counters) ∧
      (∀ a, a < 0x080000000000 → rd t.mem a = 0) ∧ (∀ a, 0x080000000000 ≤ a → rd t.mem a = rd s.mem a) :=
  ⟨_, hexec, rfl, rfl, rfl, rfl, rfl, rfl, rfl, rfl, rfl, rfl, rfl, hcs,
    fun a ha => (rd_outsideMem s.mem a).trans (if_pos ha), fun a ha => (rd_outsideMem s.mem a).trans (if_neg (by omega))⟩

theorem resetsRestore : Sys2Proof.Claim.ResetsRestore := by
  refine ⟨fun s i cause h => ?_, fun s d cool => if_neg ?_⟩
  · rcases h with ⟨rfl, rfl⟩ | ⟨rfl, rfl⟩ | ⟨d, rfl, hot, rfl⟩
    · exact moduleReset_leaves s 0 (cs := []) rfl rfl
    · exact moduleReset_leaves s 1 (cs := s.counters) rfl rfl
    · exact moduleReset_leaves s 2 (cs := s.counters) (if_pos (decide_eq_true hot)) rfl
  · exact fun hot => absurd (of_decide_eq_true hot) (Nat.not_le_of_lt cool)

/-- Settles O53: the claims on supply and clock die by die, the one on windows through what it does to each die's stage, and the
one on resets through what the module reset leaves. -/
theorem powerAndReset : Obligations.PowerAndReset := ⟨suppliesSag, clockTicks, powerWindows, resetsRestore⟩

end Sys2Proof.Machine
end

section
/-! Copy channels: starting and ending a command, and the slot table (R85 to R90, R100, R102, R221, R223, R297). -/
namespace Sys2Proof.Machine

/-! ### Channels -/

theorem chan_modChan (s : State) (k : CoreId) (ch : Chan) (f : CopyChan → CopyChan) :
    ((s.modChan k ch f).core k).chan ch = f ((s.core k).chan ch) := by
  simp [State.modChan, Core.chan, aget_ains_same]

theorem ctxs_modChan (s : State) (k j : CoreId) (ch : Chan) (f : CopyChan → CopyChan) :
    ((s.modChan k ch f).core j).ctxs = (s.core j).ctxs := by
  by_cases h : j = k
  · subst h; rw [State.modChan, State.core_modCore]
  · rw [State.modChan, State.core_modCore_ne _ _ h]

theorem ctx_modChan (s : State) (k j : CoreId) (ch : Chan) (f : CopyChan → CopyChan) (c : CtxId) :
    (s.modChan k ch f).ctx j c = s.ctx j c := by rw [State.ctx, Core.ctx, ctxs_modChan]; rfl

/-- Changing a context leaves every core's channels. -/
theorem chan_modCtx (s : State) (k j : CoreId) (c : CtxId) (f : Ctx → Ctx) (ch : Chan) :
    ((s.modCtx k c f).core j).chan ch = (s.core j).chan ch := by
  by_cases h : j = k
  · subst h; rw [State.core_modCtx]; rfl
  · rw [State.core_modCtx_ne _ _ _ h]

/-! ### Starting (R85, R87, R89, R100, R221, R223) -/

/-- Whether a command goes to a port that its tenant cannot use (R223). -/
def State.shut (s : State) (k : CoreId) (cmd : CopyCmd) : Bool :=
  match cmd.kind with | .send p => !s.portOpen p (s.core k).tenant | _ => false

theorem shut_send {s : State} {k : CoreId} {cmd : CopyCmd} {p : Port} (h : cmd.kind = .send p) :
    s.shut k cmd = !s.portOpen p (s.core k).tenant := by rw [State.shut, h]

theorem shut_open {s : State} {k : CoreId} {cmd : CopyCmd}
    (h : ∀ p, cmd.kind = .send p → s.portOpen p (s.core k).tenant = true) : s.shut k cmd = false := by
  unfold State.shut
  split
  · rename_i p hp; rw [h p hp]; rfl
  · rfl

/-- The tick of a command has come, if it has one (R221). -/
def CopyCmd.ripe (cmd : CopyCmd) (gcc : Dword) : Prop := ∀ v, cmd.kind = .timed v → v.toNat ≤ gcc.toNat

section Starting

variable {s : State} {k : CoreId} {ch : Chan} {cmd : CopyCmd} {rest : List CopyCmd}

theorem copyStart_starts (hrun : ((s.core k).chan ch).run = none) (hqueue : ((s.core k).chan ch).queue = cmd :: rest)
    (performed : s.performed cmd.after = true) (ripe : cmd.ripe s.gcc)
    (engine : nestBulk cmd.nest = true → (s.bulkRuns (dieOf k) (s.core k).tenant).length < 4)
    (stays : (s.ctx k cmd.ctx).preempt = false) :
    exec (.copyCommandStart k ch) s = .next ((s.unitBegins (cmd.who k ch)).modChan k ch fun c =>
      { c with
        queue := rest
        run := some ⟨cmd, if s.shut k cmd then nestTotal cmd.nest else 0, [], ((s.core k).chan ch).armNext, none, [], []⟩
        armNext := none
        rillErr := c.rillErr || s.shut k cmd }) := by
  have hengine : (!nestBulk cmd.nest || decide ((s.bulkRuns (dieOf k) (s.core k).tenant).length < bulkEngines)) = true := by
    cases h : nestBulk cmd.nest
    · rfl
    · exact decide_eq_true (engine h)
  suffices copyStart k ch s = some _ from congrArg enabled this
  unfold copyStart
  dsimp only
  rw [hrun, hqueue]
  refine (if_pos ?_).trans rfl
  simp only [Bool.and_eq_true]
  refine ⟨⟨⟨performed, ?_⟩, hengine⟩, by simp [stays]⟩
  split
  · rename_i t ht; exact decide_eq_true (ripe t ht)
  · rfl

theorem copyStart_waits (hrun : ((s.core k).chan ch).run = none) (hqueue : ((s.core k).chan ch).queue = cmd :: rest)
    (h : ¬ (s.performed cmd.after = true ∧ cmd.ripe s.gcc)) : exec (.copyCommandStart k ch) s = .fault .notEnabled := by
  suffices copyStart k ch s = none from congrArg enabled this
  unfold copyStart
  dsimp only
  rw [hrun, hqueue]
  refine if_neg fun hc => h ?_
  simp only [Bool.and_eq_true] at hc
  obtain ⟨⟨⟨performed, htime⟩, -⟩, -⟩ := hc
  exact ⟨performed, fun v hv => by rw [hv] at htime; exact of_decide_eq_true htime⟩

end Starting

theorem unitBegins_pasts (s : State) (w : Who) : ∃ ps, s.unitBegins w = { s with pasts := ps } := by
  unfold State.unitBegins
  split <;> exact ⟨_, rfl⟩

theorem copyStarts : Sys2Proof.Claim.CopyStarts := by
  intro s k ch cmd rest hrun hqueue
  refine ⟨fun performed ripe engine stays => ?_, fun waits => ?_, fun v hv late => ?_⟩
  · obtain ⟨ps, hbegins⟩ := unitBegins_pasts s (cmd.who k ch)
    rw [copyStart_starts hrun hqueue performed ripe engine stays, hbegins]
    refine ⟨fun ports => ⟨_, rfl, ?_⟩, fun p hp closed =>
      ⟨_, ⟨cmd, nestTotal cmd.nest, [], ((s.core k).chan ch).armNext, none, [], []⟩, rfl, ?_⟩⟩
    · rw [chan_modChan, ctxs_modChan, shut_open ports]
      exact ⟨rfl, rfl, rfl, rfl, rfl⟩
    · rw [chan_modChan, shut_send hp, closed]
      exact ⟨rfl, rfl, rfl, Bool.or_true _, rfl⟩
  · exact copyStart_waits hrun hqueue fun ⟨performed, _⟩ => by simp [performed] at waits
  · exact copyStart_waits hrun hqueue fun ⟨_, ripe⟩ => absurd (ripe v hv) (by omega)

/-! ### Ending (R102, R223) -/

theorem raiseFlag_inRun {s : State} {k : CoreId} {c : CtxId} {runId : Nat} (h : (s.ctx k c).inRun runId = true) (f : FReg)
    (w : Who) : s.raiseFlag k c runId (some f) w = s.setFlag k c f { flag := f.toNat, who := w } := if_pos h

theorem copyComplete_ends {s : State} {k : CoreId} {ch : Chan} {r : CopyRun} (hrun : ((s.core k).chan ch).run = some r)
    (ended : nestTotal r.cmd.nest ≤ r.lo) : exec (.copyComplete k ch) s =
      .next ((s.modChan k ch fun c => { c with run := none }).raiseFlag k r.cmd.ctx r.cmd.runId r.cmd.done (r.cmd.who k ch)) := by
  suffices copyComplete k ch s = some _ from congrArg enabled this
  unfold copyComplete
  rw [hrun]
  exact if_neg (by omega)

/-! ### The slot table (R90, R297) -/

theorem setRing_dies (s : State) (l : Log) (r : Ring) : (s.setRing l r).dies = s.dies := by cases l <;> rfl

theorem countError_dies (s : State) (bs : List Byte) (core : Option CoreId) : (s.countError bs core).dies = s.dies := by
  cases core <;> rfl

theorem writeLog_dies (s : State) (l : Log) (bs : List Byte) (core : Option CoreId) : (s.writeLog l bs core).dies = s.dies := by
  have counted : (if l == .error then s.countError bs core else s).dies = s.dies := by
    split
    · exact countError_dies s bs core
    · rfl
  unfold State.writeLog
  dsimp only
  rw [apply_ite State.dies, setRing_dies, State.write_dies, State.count_dies, setRing_dies, counted, ite_self]

/-- A record that is logged, or waits, changes no core and no die. -/
theorem logTo_same (s : State) (l : Log) (bs : List Byte) (core : Option CoreId) :
    (s.logTo l bs core).cores = s.cores ∧ (s.logTo l bs core).dies = s.dies := by
  unfold State.logTo
  dsimp only
  split
  · exact ⟨rfl, rfl⟩
  · exact ⟨writeLog_cores s l bs core, writeLog_dies s l bs core⟩

theorem flushLate_same (s : State) : s.flushLate.cores = s.cores ∧ s.flushLate.dies = s.dies :=
  List.foldlRecOn (motive := fun t : State => t.cores = s.cores ∧ t.dies = s.dies) s.late _ ⟨rfl, rfl⟩
    fun t ⟨hcores, hdies⟩ e _ =>
      have ⟨hcores', hdies'⟩ := logTo_same t e.log e.bytes e.core
      ⟨hcores'.trans hcores, hdies'.trans hdies⟩

theorem flushLate_empty {s : State} (h : s.late = []) : s.flushLate.mem = s.mem := by rw [State.flushLate, h]; rfl

/-- What a die's table is when a slot begins: at the start of a frame what was written to it is in force. -/
def Die.begin (x : Die) (slot : BitVec 6) : Die :=
  if slot = 0 then { x with slot := 0, slots := x.slotPend.foldl (fun m e => ains m e.1 e.2) x.slots, slotPend := [] }
  else { x with slot := slot }

theorem bulkSlot_begins {s : State} {d : DieId} (h : (s.die d).slot ≠ s.gcc.extractLsb' 6 6) :
    exec (.bulkFrameSlot d) s = .next (s.modDie d fun x => x.begin (s.gcc.extractLsb' 6 6)).flushLate :=
  congrArg enabled (if_neg h)

theorem copyEnds : Sys2Proof.Claim.CopyEnds := by
  intro s
  refine ⟨fun k ch r f hrun ended hdone live => ?_, fun d hslot => ⟨_, bulkSlot_begins hslot, ?_⟩⟩
  · refine ⟨_, copyComplete_ends hrun ended, ?_⟩
    rw [hdone, raiseFlag_inRun (by rwa [ctx_modChan]), State.setFlag, chan_modCtx, chan_modChan, State.ctx_modCtx, ctx_modChan]
    exact ⟨rfl, rfl, rfl⟩
  · obtain ⟨hcores, hdies⟩ := flushLate_same (s.modDie d fun x => x.begin (s.gcc.extractLsb' 6 6))
    rw [hcores, die_of_dies hdies, State.die_modDie]
    refine ⟨?_, rfl, fun h => flushLate_empty h, fun h => ?_, fun h => ?_⟩
    · unfold Die.begin
      split
      · rename_i h; exact h.symm
      · rfl
    · rw [Die.begin, if_neg h]
      exact ⟨rfl, rfl⟩
    · rw [Die.begin, if_pos h]
      refine ⟨rfl, fun hp => ?_, fun i v hp => ?_⟩
      · rw [hp]; rfl
      · rw [hp]; exact aget_ains_same _ _ _ _

end Sys2Proof.Machine
end

section
/-! Writes in units, and those that come last in their bytes' order (R93). -/
namespace Sys2Proof.Machine

/-! ### What a write in units leaves (R93) -/

section Units

variable {s : State} {w : Who} {z : Nat}

theorem unitsOfBytes_nil (u k pa : Nat) : unitsOfBytes u k pa [] = [] := by cases k <;> rfl

theorem unitsOfBytes_within {u k pa : Nat} {bs : List Byte} {x : Nat × List Byte} (h : x ∈ unitsOfBytes u k pa bs) :
    pa ≤ x.1 ∧ x.1 + x.2.length ≤ pa + bs.length := by
  induction k generalizing pa bs with
  | zero => exact absurd h List.not_mem_nil
  | succ k ih =>
    rw [unitsOfBytes] at h
    split at h
    · exact absurd h List.not_mem_nil
    · split at h
      · rw [List.mem_singleton.1 h]
        exact ⟨Nat.le_refl _, Nat.le_refl _⟩
      · rcases List.mem_cons.1 h with rfl | hrest
        · simp only [List.length_take]
          omega
        · have hlong : u < bs.length := by
            refine Nat.lt_of_not_le fun hshort => ?_
            rw [List.drop_of_length_le hshort, unitsOfBytes_nil] at hrest
            exact absurd hrest List.not_mem_nil
          have := ih hrest
          rw [List.length_drop] at this
          omega

theorem writeUnits_fold (s : State) (w : Who) (us : List (Nat × List Byte)) : ∃ m ps kept id, (s.writeUnits w us).mem =
    (us.foldl (fun t u => t.writeUnit w kept id u) ({ s with pastCtr := m, promises := ps } : State)).mem :=
  ⟨s.pastCtr + 1, s.promises.filter _, _, _, rfl⟩

theorem writeUnits_mem_out {us : List (Nat × List Byte)} (h : s.stampOn = false)
    (hz : ∀ u ∈ us, z < u.1 ∨ u.1 + u.2.length ≤ z) : rd (s.writeUnits w us).mem z = rd s.mem z := by
  obtain ⟨m, ps, kept, id, hfold⟩ := writeUnits_fold s w us
  rw [hfold]
  refine (List.foldlRecOn (motive := fun t : State => t.stampOn = false ∧ rd t.mem z = rd s.mem z) us
    (fun t u => t.writeUnit w kept id u) (b := { s with pastCtr := m, promises := ps }) ⟨h, rfl⟩
    fun t ⟨hoff, hmem⟩ u hu => ?_).2
  obtain ⟨n, es, hunit, -⟩ := writeUnit_places t w kept id u
  rw [hunit]
  refine ⟨?_, (writeUnder_mem_out (s := { t with freeCtr := n }) hoff (hz u hu)).trans hmem⟩
  rw [State.stampOn, (writeUnder_same { t with freeCtr := n } w id es u.1 u.2).stbase]
  exact hoff

theorem writeBy_units_mem_out {pa : Nat} {bs : List Byte} (u : Nat) (h : s.stampOn = false)
    (hz : z < pa ∨ pa + bs.length ≤ z) : rd (s.writeBy w pa bs (unit := u)).mem z = rd s.mem z := by
  unfold State.writeBy
  split
  · rfl
  · split
    · exact writeUnder_mem_out (s := { s with pastCtr := s.pastCtr + 1 }) (w := w) (id := s.pastCtr) h hz
    · refine writeUnits_mem_out h fun x hx => ?_
      have := unitsOfBytes_within hx
      omega

end Units

/-! ### Writes that come last (R93) -/

theorem fenced_who (fs : List FenceRec) (k : CoreId) (c : CtxId) (e : Past) : (e.fenced fs k c).who = e.who := by
  unfold Past.fenced
  induction fs generalizing e with
  | nil => rfl
  | cons f fs ih => exact (ih _).trans rfl

theorem insertUnder_zero (pa n : Nat) (e : Past) (ps : List Past) : insertUnder pa n e 0 ps = e :: ps := by cases ps <;> rfl

theorem writeUnder_pasts_last (s : State) (w : Who) (id pa : Nat) (bs : List Byte) :
    ∃ e, (s.writeUnder w id [] pa bs).pasts = e :: s.pasts ∧ e.who = w :=
  ⟨_, insertUnder_zero .., fenced_who ..⟩

/-- What the last writes of a party leave: all but memory and what is known of its writes, and to the party itself no write
comes between. -/
structure Wrote (w : Who) (s t : State) : Prop where
  rest : ∃ fc m po ps n hd, t = { s with freeCtr := fc, mem := m, poison := po, pasts := ps, pastCtr := n, heads := hd }
  lasts : ∀ a n, Lasts s w a n → Lasts t w a n

theorem Wrote.refl (w : Who) (s : State) : Wrote w s s := ⟨⟨_, _, _, _, _, _, rfl⟩, fun _ _ => id⟩

theorem Wrote.trans {w : Who} {s t u : State} (h : Wrote w s t) (h' : Wrote w t u) : Wrote w s u := by
  obtain ⟨⟨_, _, _, _, _, _, rfl⟩, hl⟩ := h
  obtain ⟨⟨_, _, _, _, _, _, rfl⟩, hl'⟩ := h'
  exact ⟨⟨_, _, _, _, _, _, rfl⟩, fun a n h => hl' a n (hl a n h)⟩

theorem wrote_free (w : Who) (s : State) : Wrote w s s.free.2 := ⟨⟨_, _, _, _, _, _, rfl⟩, fun _ _ => id⟩

/-- A write of a party comes between no bytes and the party's own writes. -/
theorem unordered_cons {w : Who} {e : Past} {ps : List Past} {a n : Nat} (he : e.known w = true)
    (h : unordered w a n ps = []) : unordered w a n (e :: ps) = [] := by
  unfold unordered at h ⊢
  rw [List.filter_cons]
  split
  · exact List.takeWhile_cons_of_neg (by simp [he])
  · exact h

/-- The last write of some bytes stands in memory, in whatever units it performs. -/
theorem writeBy_lasts {s : State} {w : Who} {pa : Nat} {bs : List Byte} (u : Nat) (off : s.stampOn = false)
    (own : w.before w = true) (last : Lasts s w pa bs.length) :
    Wrote w s (s.writeBy w pa bs (unit := u)) ∧ (s.writeBy w pa bs (unit := u)).mem = wrBytes s.mem pa bs := by
  by_cases hb : bs = []
  · subst hb
    exact ⟨Wrote.refl w s, rfl⟩
  · obtain ⟨hover, hprom⟩ := last
    unfold State.writeBy
    rw [if_neg (by simpa using hb), if_pos (by rw [hover, hprom]; rfl)]
    refine ⟨⟨⟨_, _, _, _, _, _, rfl⟩, fun a n ⟨h, hp⟩ => ⟨over_nil (fun hs => ?_) h, hp⟩⟩,
      writeUnder_mem_last (s := { s with pastCtr := s.pastCtr + 1 }) (w := w) (id := s.pastCtr) off⟩
    obtain ⟨e, hpasts, rfl⟩ := writeUnder_pasts_last { s with pastCtr := s.pastCtr + 1 } w s.pastCtr pa bs
    exact (congrArg (unordered _ a n) hpasts).trans (unordered_cons (Bool.or_eq_true_iff.2 (.inl own)) hs)

/-! ### Bytes moved to some places -/

/-- Memory with the same bytes at each of some places and as it was elsewhere. -/
def MovedTo (m m' : List Host.Cell) (cells : List Nat) (bs : List Byte) : Prop :=
  (∀ c ∈ cells, rdBytes m' c bs.length = bs) ∧ ∀ a, (∀ c ∈ cells, a < c ∨ c + bs.length ≤ a) → rd m' a = rd m a

theorem MovedTo.nil (m : List Host.Cell) (bs : List Byte) : MovedTo m m [] bs :=
  ⟨fun _ h => absurd h List.not_mem_nil, fun _ _ => rfl⟩

/-- A place that was written before the others keeps its bytes where these are the same place or lie apart from it. -/
theorem MovedTo.cons {m m' : List Host.Cell} {c : Nat} {cells : List Nat} {bs : List Byte}
    (h : MovedTo (wrBytes m c bs) m' cells bs) (apart : ∀ e ∈ cells, e = c ∨ c + bs.length ≤ e ∨ e + bs.length ≤ c) :
    MovedTo m m' (c :: cells) bs := by
  obtain ⟨hin, hout⟩ := h
  refine ⟨List.forall_mem_cons.2 ⟨?_, hin⟩, fun a ha => ?_⟩
  · by_cases hc : c ∈ cells
    · exact hin c hc
    · rw [rdBytes_congr (m' := wrBytes m c bs) fun z h1 h2 => hout z fun e he => ?_, rdBytes_wrBytes]
      rcases apart e he with rfl | h | h
      · exact absurd he hc
      · omega
      · omega
  · obtain ⟨hc, hrest⟩ := List.forall_mem_cons.1 ha
    rw [hout a hrest, rd_wrBytes_out _ _ _ _ hc]

theorem MovedTo.single (m : List Host.Cell) (c : Nat) (bs : List Byte) : MovedTo m (wrBytes m c bs) [c] bs :=
  (MovedTo.nil _ _).cons fun _ h => absurd h List.not_mem_nil

end Sys2Proof.Machine
end

section
/-! The next piece of a copy command: where it lies, what it reads, and where its bytes go (R84, R93, R221, R222). -/
namespace Sys2Proof.Machine

/-! ### The addresses behind a cell (R84) -/

/-- Two states alike in what leads from a memory cell to the addresses by which a core reaches it. -/
structure SameVas (s t : State) : Prop where
  mem : t.mem = s.mem
  tenants : t.tenants = s.tenants
  ports : t.ports = s.ports
  tlb : ∀ k, (t.core k).tlb = (s.core k).tlb
  tenant : ∀ k, (t.core k).tenant = (s.core k).tenant

theorem mapsTo_of_mem {s t : State} (h : t.mem = s.mem) (pa : Nat) (ls : List (Nat × Nat × Nat × Nat)) (base va : Nat) :
    mapsTo t pa ls base va = mapsTo s pa ls base va := by
  induction ls generalizing base va with
  | nil => rfl
  | cons l ls ih => simp only [mapsTo, h, ih]

namespace SameVas

variable {s t : State}

theorem vasOf (h : SameVas s t) (k : CoreId) (pa : Nat) : t.vasOf k pa = s.vasOf k pa := by
  simp only [State.vasOf, State.tenant, h.tenants, h.tlb, h.tenant, mapsTo_of_mem h.mem]
  rfl

theorem paOf (h : SameVas s t) (cell : Nat) : t.paOf cell = s.paOf cell := by
  have hport (p : Port) : t.port p = s.port p := by rw [State.port, h.ports]; rfl
  unfold State.paOf
  dsimp only
  rw [hport]

theorem cellVas (h : SameVas s t) (k : CoreId) (cell : Nat) : t.cellVas k cell = s.cellVas k cell := by
  rw [State.cellVas, h.paOf, funext (h.vasOf k)]
  rfl

theorem sourceVas (h : SameVas s t) (c : CopyCmd) (k : CoreId) (cell : Nat) : c.sourceVas t k cell = c.sourceVas s k cell := by
  simp only [CopyCmd.sourceVas, h.cellVas]

theorem destVas (h : SameVas s t) (c : CopyCmd) (k : CoreId) (cell : Nat) : c.destVas t k cell = c.destVas s k cell := by
  simp only [CopyCmd.destVas, h.cellVas]

end SameVas

/-- No later iteration has written the bytes of a piece at a cell, and the command reads none of them as a source (R84). -/
def Clear (s : State) (k : CoreId) (r : CopyRun) (p : Piece) (cell : Nat) : Prop :=
  (∀ i, i < p.len → r.later p.j ((p.da :: r.cmd.destVas s k cell).map (· + i)) = false) ∧
    ∀ v ∈ r.cmd.sourceVas s k cell, ∀ i, i < p.len → r.cmd.covers (v + i) = false

theorem Clear.of_vas {s t : State} {k : CoreId} {r : CopyRun} {p : Piece} {cell : Nat} (h : Clear s k r p cell)
    (src : r.cmd.sourceVas t k cell = r.cmd.sourceVas s k cell) (dst : r.cmd.destVas t k cell = r.cmd.destVas s k cell) :
    Clear t k r p cell := by rwa [Clear, src, dst]

theorem Clear.of_same {s t : State} {k : CoreId} {r : CopyRun} {p : Piece} {cell : Nat} (h : Clear s k r p cell)
    (same : SameVas s t) : Clear t k r p cell := h.of_vas (same.sourceVas ..) (same.destVas ..)

/-! ### Putting bytes (R84, R93) -/

section Putting

variable {s : State} {k : CoreId} {w : Who} {r : CopyRun} {p : Piece} {bs : List Byte}

theorem later_nil (r : CopyRun) (j : Nat) : r.later j [] = false := by simp [CopyRun.later]

theorem later_putBytes {cell i : Nat} {c : Prop} [Decidable c] (h : Clear s k r p cell) (hda : p.da < 2 ^ 64) (hi : i < p.len) :
    r.later p.j ((if c then p.da % 2 ^ 64 :: r.cmd.destVas s k cell else []).map (· + i)) = false := by
  split
  · rw [Nat.mod_eq_of_lt hda]
    exact h.1 i hi
  · exact later_nil r p.j

/-- Bytes that nothing of the command's own interferes with are written as they are. -/
theorem putBytes_clear {cell : Nat} (hlen : bs.length = p.len) (hda : p.da < 2 ^ 64) (h : Clear s k r p cell) :
    s.putBytes k w r p.j p.da cell bs = s.writeBy w cell bs (unit := 1) := by
  have hown {i : Nat} (hi : i < p.len) : ((r.cmd.sourceVas s k cell).any fun v => r.cmd.covers (v + i)) = false := by
    rw [List.any_eq_false]
    exact fun v hv => by simp [h.2 v hv i hi]
  have hindex {ib : Nat × Byte} (hib : ib ∈ (List.range bs.length).zip bs) : ib.1 < p.len := by
    rw [← hlen]
    exact List.mem_range.1 (List.of_mem_zip hib).1
  unfold State.putBytes
  dsimp only
  rw [List.filter_eq_self.2 fun ib hib => by rw [later_putBytes h hda (hindex hib)]; rfl]
  rw [if_neg (c := List.any _ _ = true) (by
    rw [Bool.not_eq_true, List.any_eq_false]
    exact fun ib hib => by rw [hown (hindex hib)]; decide)]
  rw [List.map_congr_left (g := Prod.snd) fun ib hib => if_neg (by rw [hown (hindex hib)]; decide),
    if_pos (by simp), List.map_snd_zip (by simp)]

theorem landPiece_clear {d : CoreId} {off : Nat} (hlen : bs.length = p.len) (hda : p.da < 2 ^ 64)
    (h : Clear s k r p (spmPa d.toNat off)) (free : ahas (s.core d).inuse (off / 4096) = false) :
    s.landPiece k w r p.j p.da d off bs false = (s.writeBy w (spmPa d.toNat off) bs (unit := 1), r, false) := by
  unfold State.landPiece
  simp only [free, putBytes_clear hlen hda h, Bool.false_eq_true, if_false]

end Putting

/-! ### The next piece (R84, R85, R222) -/

/-- A command is served where it has an iteration to do, an engine, and a piece that can be served. -/
theorem servable_iff {s : State} {k : CoreId} {ch : Chan} {r : CopyRun} {p : Piece} : s.servable k ch = some (r, p) ↔
    ((s.core k).chan ch).run = some r ∧ r.stop = none ∧ r.lo < nestTotal r.cmd.nest ∧ s.hasEngine k r.cmd = true ∧
      s.pieceOk k r p = true ∧ p = s.nextPiece k ch r := by
  unfold State.servable
  constructor
  · intro h
    obtain ⟨r', hrun, hserve⟩ := Option.bind_eq_some_iff.1 h
    dsimp only at hserve
    split at hserve
    · rename_i hc
      obtain ⟨rfl, rfl⟩ := Prod.mk.inj (Option.some.inj hserve)
      simp only [Bool.and_eq_true, decide_eq_true_eq, Option.isNone_iff_eq_none] at hc
      obtain ⟨⟨⟨hstop, hlo⟩, hengine⟩, hok⟩ := hc
      exact ⟨hrun, hstop, hlo, hengine, hok, rfl⟩
    · cases hserve
  · rintro ⟨hrun, hstop, hlo, hengine, hok, rfl⟩
    rw [hrun, Option.bind_some]
    exact if_pos (by simp [hstop, hlo, hengine, hok])

theorem pick_within {r : CopyRun} (h : r.lo < nestTotal r.cmd.nest) (f : Nat) :
    r.lo ≤ r.pick f ∧ r.pick f < nestTotal r.cmd.nest := by
  have := Nat.mod_lt f (Nat.sub_pos_of_lt h)
  unfold CopyRun.pick
  dsimp only
  split <;> omega

theorem pick_undone {r : CopyRun} (h : r.done r.lo < nestLen r.cmd.nest) (f : Nat) :
    r.done (r.pick f) < nestLen r.cmd.nest := by
  unfold CopyRun.pick
  dsimp only
  split
  · assumption
  · exact h

theorem piece_fits (r : CopyRun) {j : Nat} (h : r.done j < nestLen r.cmd.nest) :
    let q := r.piece j
    0 < q.2.2 ∧ r.done j + q.2.2 ≤ nestLen r.cmd.nest ∧ q.2.1 % 64 + q.2.2 ≤ 64 ∧
      (nestZsrc r.cmd.nest = false → q.1 % 64 + q.2.2 ≤ 64) := by
  unfold CopyRun.piece
  dsimp only
  split
  · rename_i hz
    refine ⟨by omega, by omega, by omega, fun h => ?_⟩
    rw [hz] at h
    cases h
  · exact ⟨by omega, by omega, by omega, fun _ => by omega⟩

theorem nextPiece_da (s : State) (k : CoreId) (ch : Chan) (r : CopyRun) : (s.nextPiece k ch r).da < 2 ^ 64 :=
  Nat.mod_lt _ (by decide)

/-- A piece that goes to local memory is of a command with DLOC, and no CPSEND's. -/
theorem nextPiece_local {s : State} {k : CoreId} {ch : Chan} {r : CopyRun} {off : Nat} (h : (s.nextPiece k ch r).dst = .spm off)
    (t : State) (cell : Nat) : r.cmd.destVas t k cell = [] := by
  unfold CopyCmd.destVas
  split
  · rfl
  · rename_i hkind
    unfold State.nextPiece at h
    dsimp only at h
    split at h
    · rename_i q hq; exact absurd hq (hkind q)
    · split at h
      · rename_i hloc; exact if_pos hloc
      · unfold sideOf at h
        split at h
        · cases h
        · cases h
        · dsimp only at h
          split at h <;> cases h

end Sys2Proof.Machine
end

section
/-! What a copy command does with its next piece (R75, R84, R85, R93, R221 to R223, R333). -/
namespace Sys2Proof.Machine

/-! ### Where the bytes of a piece go (R84, R93, R221) -/

/-- A piece's bytes are written at some cells, and the run stays as it was. -/
structure Puts (w : Who) (s : State) (r : CopyRun) (cells : List Nat) (bs : List Byte) (d : State × CopyRun × Nat × Bool) :
    Prop where
  wrote : Wrote w s d.1
  run : d.2.1 = r
  moved : MovedTo s.mem d.1.mem cells bs

theorem Wrote.cores {w : Who} {s t : State} (h : Wrote w s t) : t.cores = s.cores := by
  obtain ⟨_, _, _, _, _, _, rfl⟩ := h.rest
  rfl

theorem Wrote.stampOn {w : Who} {s t : State} (h : Wrote w s t) : t.stampOn = s.stampOn := by
  obtain ⟨_, _, _, _, _, _, rfl⟩ := h.rest
  rfl

theorem Wrote.saves {w : Who} {s t : State} (h : Wrote w s t) : t.saves = s.saves := by
  obtain ⟨_, _, _, _, _, _, rfl⟩ := h.rest
  rfl

theorem spmPa_apart {off n : Nat} (h : off + n ≤ 0x600000) (d e : Nat) :
    spmPa e off = spmPa d off ∨ spmPa d off + n ≤ spmPa e off ∨ spmPa e off + n ≤ spmPa d off := by
  unfold spmPa
  omega

section Putting

variable {s : State} {k : CoreId} {w : Who} {r : CopyRun} {p : Piece} {bs : List Byte}

/-- Last writes of the same bytes to several cores' scratchpads, one after the other: `ok` says what a core's write needs,
which the writes before it keep. -/
theorem foldl_writes {f : State × CopyRun × Nat × Bool → CoreId → State × CopyRun × Nat × Bool}
    {ok : State → CoreId → Prop} {off : Nat} (fits : off + bs.length ≤ 0x600000) (own : w.before w = true)
    (step : ∀ t n d, ok t d → f (t, r, n, false) d = (t.writeBy w (spmPa d.toNat off) bs (unit := 1), r, n + 1, false))
    {ds : List CoreId} (keeps : ds.length ≤ 1 ∨ ∀ t u d, Wrote w t u → ok t d → ok u d) (plain : s.stampOn = false)
    (ready : ∀ d ∈ ds, ok s d ∧ Lasts s w (spmPa d.toNat off) bs.length) (n : Nat) :
    Puts w s r (ds.map fun d => spmPa d.toNat off) bs (ds.foldl f (s, r, n, false)) := by
  induction ds generalizing s n with
  | nil => exact ⟨Wrote.refl w s, rfl, MovedTo.nil _ _⟩
  | cons x xs ih =>
    obtain ⟨⟨hok, hlast⟩, hrest⟩ := List.forall_mem_cons.1 ready
    obtain ⟨hwrote, hmem⟩ := writeBy_lasts 1 plain own hlast
    have hkeeps : xs = [] ∨ ∀ t u d, Wrote w t u → ok t d → ok u d :=
      keeps.imp_left fun h => List.eq_nil_of_length_eq_zero (Nat.le_zero.1 (Nat.le_of_succ_le_succ h))
    have hnext := ih (s := s.writeBy w (spmPa x.toNat off) bs (unit := 1)) (hkeeps.imp_left fun h => by simp [h])
      (hwrote.stampOn.trans plain) (fun d hd => by
        obtain ⟨hd1, hd2⟩ := hrest d hd
        refine ⟨?_, hwrote.lasts _ _ hd2⟩
        rcases hkeeps with rfl | keep
        · exact absurd hd List.not_mem_nil
        · exact keep _ _ d hwrote hd1) (n + 1)
    rw [List.foldl_cons, step s n x hok]
    refine ⟨hwrote.trans hnext.wrote, hnext.run, (hmem ▸ hnext.moved).cons fun e he => ?_⟩
    obtain ⟨d, -, rfl⟩ := List.mem_map.1 he
    exact spmPa_apart fits _ _

variable (hlen : bs.length = p.len) (hda : p.da < 2 ^ 64) (own : w.before w = true) (plain : s.stampOn = false)
include hlen hda own plain

theorem putBytes_puts {cell : Nat} (last : Lasts s w cell p.len) (clear : Clear s k r p cell) (n : Nat) (dropped : Bool) :
    Puts w s r [cell] bs (s.putBytes k w r p.j p.da cell bs, r, n, dropped) := by
  obtain ⟨hwrote, hmem⟩ := writeBy_lasts (u := 1) plain own (hlen ▸ last)
  refine ⟨?_, rfl, ?_⟩
  · rwa [putBytes_clear hlen hda clear]
  · rw [putBytes_clear hlen hda clear, hmem]
    exact MovedTo.single _ _ _

/-- To a local address, a piece goes to every receiving core (R221). -/
theorem putPiece_spm {off : Nat} (hdst : p.dst = .spm off) (fits : off + p.len ≤ 0x600000)
    (hlocal : ∀ t cell, r.cmd.destVas t k cell = [])
    (alike : (r.cmd.receivers k).length ≤ 1 ∨ ∀ t u cell, r.cmd.sourceVas t k cell = r.cmd.sourceVas u k cell)
    (ready : ∀ d ∈ r.cmd.receivers k, (s.core d).owned (s.core k).tenant = true ∧
      ahas (s.core d).inuse (off / 4096) = false ∧ Lasts s w (spmPa d.toNat off) p.len ∧ Clear s k r p (spmPa d.toNat off)) :
    Puts w s r ((r.cmd.receivers k).map fun d => spmPa d.toNat off) bs (s.putPiece r k w p bs false) := by
  unfold State.putPiece
  rw [hdst]
  refine foldl_writes (ok := fun t d => (s.core d).owned (s.core k).tenant = true ∧
    ahas (t.core d).inuse (off / 4096) = false ∧ Clear t k r p (spmPa d.toNat off)) (hlen ▸ fits) own
    (fun t n d ⟨owned, free, clear⟩ => ?_) (alike.imp_right ?_) plain (fun d hd => ?_) 0
  · dsimp only
    rw [if_pos owned, landPiece_clear hlen hda clear free]
    rfl
  · intro same t u d hwrote ⟨owned, free, clear⟩
    refine ⟨owned, ?_, clear.of_vas (same ..) (by rw [hlocal, hlocal])⟩
    rwa [State.core, hwrote.cores]
  · obtain ⟨owned, free, last, clear⟩ := ready d hd
    exact ⟨⟨owned, free, clear⟩, hlen ▸ last⟩

/-- To a global address, a piece goes to this package's memory or the host's. -/
theorem putPiece_phys {pa : Nat} (hdst : p.dst = .phys pa) (inside : ∀ q off, homeOf pa ≠ .peer q off) (free : PageFree s pa)
    (last : Lasts s w pa p.len) (clear : Clear s k r p pa) : Puts w s r [pa] bs (s.putPiece r k w p bs false) := by
  have puts := putBytes_puts hlen hda own plain last clear
  unfold State.putPiece
  rw [hdst]
  dsimp only
  split
  · rename_i d off hd
    have hpa := spmPa_of_home hd
    rw [landPiece_clear hlen hda (hpa.symm ▸ clear) (free d off hd), ← putBytes_clear hlen hda (hpa.symm ▸ clear), hpa]
    exact puts ..
  · exact puts ..
  · rename_i q off hq
    exact absurd hq (inside q off)
  · exact puts ..

/-- A peer takes the bytes or refuses them (R333). -/
theorem putPiece_peer {cell : Nat} (hdst : p.dst = .peer cell) (last : Lasts s w cell p.len) (clear : Clear s k r p cell) :
    Puts w s r [cell] bs (s.putPiece r k w p bs false) ∨ s.putPiece r k w p bs false = (s.free.2, r, 0, true) := by
  have hclear : Clear s.free.2 k r p cell := clear.of_same ⟨rfl, rfl, rfl, fun _ => rfl, fun _ => rfl⟩
  obtain ⟨hwrote, hrun, hmoved⟩ := putBytes_puts hlen hda own (s := s.free.2) plain last hclear 1 false
  unfold State.putPiece
  rw [hdst]
  dsimp only
  split
  · exact .inr rfl
  · exact .inl ⟨(wrote_free w s).trans hwrote, hrun, hmoved⟩

end Putting

/-! ### What a piece reads (R84, R222) -/

/-- The state in which a piece is put, its bytes read: free values are taken, the engine phase and the channels' turns move
on, and a traced launch notes its read. -/
structure Booked (s t : State) : Prop where
  rest : ∃ fc cs ls, t = { s with freeCtr := fc, cores := cs, launches := ls }
  cores : ∀ k, ∃ ws lc, t.core k = { s.core k with engWait := ws, lastCh := lc }

namespace Booked

variable {s t : State}

theorem mem (h : Booked s t) : t.mem = s.mem := by obtain ⟨_, _, _, rfl⟩ := h.rest; rfl

theorem stampOn (h : Booked s t) : t.stampOn = s.stampOn := by obtain ⟨_, _, _, rfl⟩ := h.rest; rfl

theorem saves (h : Booked s t) : t.saves = s.saves := by obtain ⟨_, _, _, rfl⟩ := h.rest; rfl

theorem lasts (h : Booked s t) {w : Who} {a n : Nat} (last : Lasts s w a n) : Lasts t w a n := by
  obtain ⟨_, _, _, rfl⟩ := h.rest
  exact last

theorem field {α : Type} (h : Booked s t) (k : CoreId) (f : Core → α)
    (hf : ∀ y ws lc, f { y with engWait := ws, lastCh := lc } = f y) : f (t.core k) = f (s.core k) := by
  obtain ⟨ws, lc, hcore⟩ := h.cores k
  rw [hcore, hf]

theorem sameVas (h : Booked s t) : SameVas s t := by
  refine ⟨h.mem, ?_, ?_, fun k => h.field k Core.tlb fun _ _ _ => rfl, fun k => h.field k Core.tenant fun _ _ _ => rfl⟩ <;>
  · obtain ⟨_, _, _, rfl⟩ := h.rest
    rfl

theorem noteRead (h : Booked s t) (id : Word) (unit : Option (BitVec 24)) (pa n : Nat) : Booked s (t.noteRead id unit pa n) := by
  obtain ⟨⟨_, _, _, rfl⟩, hcores⟩ := h
  unfold State.noteRead
  dsimp only
  split
  · exact ⟨⟨_, _, _, rfl⟩, hcores⟩
  · exact ⟨⟨_, _, _, rfl⟩, hcores⟩
  · exact ⟨⟨_, _, _, rfl⟩, hcores⟩
  · exact ⟨⟨_, _, _, rfl⟩, hcores⟩

end Booked

/-- A piece's bytes: zeros, or what its source in this package or the host holds, which the read cannot miss. -/
def PieceReads (s : State) (k : CoreId) (w : Who) (p : Piece) (bs : List Byte) : Prop :=
  (p.src = .zero ∧ bs = List.replicate p.len 0) ∨ ∃ c, p.src.cell s k = some c ∧ p.src.isPeer = false ∧
    s.sure w c p.len = true ∧ s.poisoned c p.len = false ∧ bs = rdBytes s.mem c p.len

theorem PieceReads.length {s : State} {k : CoreId} {w : Who} {p : Piece} {bs : List Byte} (h : PieceReads s k w p bs) :
    bs.length = p.len := by
  rcases h with ⟨-, rfl⟩ | ⟨c, -, -, -, -, rfl⟩
  · exact List.length_replicate
  · exact rdBytes_length _ _ _

theorem PieceReads.of_booked {s t : State} {k : CoreId} {w : Who} {p : Piece} {bs : List Byte} (h : PieceReads s k w p bs)
    (booked : Booked s t) : PieceReads t k w p bs := by
  obtain ⟨_, _, _, rfl⟩ := booked.rest
  exact h

theorem srcBytes_reads {s : State} {k : CoreId} {w : Who} {p : Piece} {bs : List Byte} (h : PieceReads s k w p bs) :
    s.srcBytes k w p.src p.len = (bs, false, s) := by
  rcases h with ⟨hzero, rfl⟩ | ⟨c, hcell, hpeer, hsure, hclean, rfl⟩
  · rw [hzero]; rfl
  · have hsee : s.seeBytes w c p.len = (rdBytes s.mem c p.len, s) := if_pos hsure
    unfold State.srcBytes
    rw [hcell]
    dsimp only
    rw [hpeer, hsee, hclean]
    rfl

end Sys2Proof.Machine
end

section
/-! The pieces of a copy command as steps (R84, R85, R223, R348). -/
namespace Sys2Proof.Machine

/-! ### The end of a piece (R223, R348) -/

/-- The access by which a piece is read and written. -/
def pieceWho (k : CoreId) (ch : Chan) (r : CopyRun) (p : Piece) : Who := { r.cmd.who k ch with iter := p.j }

theorem pieceWho_before (k : CoreId) (ch : Chan) (r : CopyRun) (p : Piece) :
    (pieceWho k ch r p).before (pieceWho k ch r p) = true := by simp [pieceWho, CopyCmd.who, Who.before]

theorem advance_cmd (r : CopyRun) (l : List (Nat × Nat)) : (r.advance l).cmd = r.cmd := by
  induction l generalizing r with
  | nil => rfl
  | cons x l ih =>
    rw [CopyRun.advance]
    split
    · exact ih _
    · rfl

theorem step_cmd (r : CopyRun) (j n : Nat) : (r.step j n).cmd = r.cmd := advance_cmd _ _

/-- A change that leaves memory, the saved contexts and every core's channels. -/
structure KeepsChannels (s t : State) : Prop where
  mem : t.mem = s.mem
  saves : t.saves = s.saves
  chan : ∀ k ch, ((t.core k).chan ch) = (s.core k).chan ch

theorem KeepsChannels.refl (s : State) : KeepsChannels s s := ⟨rfl, rfl, fun _ _ => rfl⟩

theorem KeepsChannels.trans {s t u : State} (h : KeepsChannels s t) (h' : KeepsChannels t u) : KeepsChannels s u :=
  ⟨h'.mem.trans h.mem, h'.saves.trans h.saves, fun k ch => (h'.chan k ch).trans (h.chan k ch)⟩

theorem keepsChannels_modCtx (s : State) (k : CoreId) (c : CtxId) (f : Ctx → Ctx) : KeepsChannels s (s.modCtx k c f) :=
  ⟨rfl, rfl, fun j ch => chan_modCtx s k j c f ch⟩

/-- A core's change that is none of its channels. -/
theorem keepsChannels_modCore (s : State) (k : CoreId) (f : Core → Core) (h : ∀ y, (f y).chans = y.chans) :
    KeepsChannels s (s.modCore k f) := by
  refine ⟨rfl, rfl, fun j ch => ?_⟩
  by_cases hj : j = k
  · subst hj; rw [State.core_modCore, Core.chan, h]; rfl
  · rw [State.core_modCore_ne _ _ hj]

theorem dropWaiter_keeps (s : State) (k : CoreId) (u : Nat) : KeepsChannels s (s.dropWaiter k u) :=
  keepsChannels_modCore s k _ fun _ => rfl

theorem setFlag_keeps (s : State) (k : CoreId) (c : CtxId) (f : FReg) (src : FlagSrc) :
    KeepsChannels s (s.setFlag k c f src) := by
  unfold State.setFlag
  exact keepsChannels_modCtx ..

theorem pendFlag_nil {s : State} (h : s.saves = []) (p : Save → Bool) (f : FReg) (src : FlagSrc) : s.pendFlag p f src = s := by
  rw [State.pendFlag, h]; rfl

theorem receiverFlag_keeps {s : State} (h : s.saves = []) (w : Who) (f : FReg) (c : CtxId) (d : CoreId) :
    KeepsChannels s (receiverFlag s w f c d) := by
  unfold receiverFlag
  dsimp only
  split
  · exact setFlag_keeps ..
  · rw [pendFlag_nil h]
    exact KeepsChannels.refl s

/-- The flags of a multicast's receivers are their contexts' alone, where none of these is saved. -/
theorem receiverFlags_keeps (s : State) (k : CoreId) (w : Who) (r : CopyRun) (h : s.saves = [] ∨ r.cmd.kind = .cpy) :
    KeepsChannels s (receiverFlags s k w r) := by
  unfold receiverFlags
  split
  · rename_i mask f c hkind
    have hs : s.saves = [] := h.resolve_right (by simp [hkind])
    split
    · exact KeepsChannels.refl s
    · exact List.foldlRecOn (motive := KeepsChannels s) _ _ (KeepsChannels.refl s) fun t ht d _ =>
        ht.trans (receiverFlag_keeps (ht.saves.trans hs) w f c d)
  · exact KeepsChannels.refl s

/-- A piece that was put is counted, line by line, and the channel's run moves on. -/
def State.pieceCounted (k : CoreId) (ch : Chan) (r : CopyRun) (p : Piece) (d : State × CopyRun × Nat × Bool) : State :=
  let full : Bool := (p.da + p.len) % 64 == 0 || r.done p.j + p.len == nestLen r.cmd.nest
  (d.1.count (16 * k.toNat + 4) (if full then d.2.2.1 else 0)).modChan k ch fun c =>
    { c with run := some (d.2.1.step p.j p.len), landErr := c.landErr || d.2.2.2 }

/-- What follows the putting of a piece: it is counted, and flags are set. -/
def State.pieceDone (k : CoreId) (ch : Chan) (r : CopyRun) (p : Piece) (d : State × CopyRun × Nat × Bool) : State :=
  receiverFlags (State.pieceCounted k ch r p d) k (pieceWho k ch r p) (d.2.1.step p.j p.len)

theorem pieceDone_leaves (k : CoreId) (ch : Chan) (r : CopyRun) (p : Piece) {d : State × CopyRun × Nat × Bool}
    (h : d.1.saves = [] ∨ d.2.1.cmd.kind = .cpy) :
    (State.pieceDone k ch r p d).mem = d.1.mem ∧
      ((State.pieceDone k ch r p d).core k).chan ch = { (d.1.core k).chan ch with
        run := some (d.2.1.step p.j p.len), landErr := ((d.1.core k).chan ch).landErr || d.2.2.2 } := by
  have quiet : (State.pieceCounted k ch r p d).saves = [] ∨ (d.2.1.step p.j p.len).cmd.kind = .cpy :=
    h.imp id fun hk => by rw [step_cmd, hk]
  obtain ⟨hmem, -, hchan⟩ := receiverFlags_keeps _ k (pieceWho k ch r p) _ quiet
  exact ⟨hmem, (hchan k ch).trans (chan_modChan ..)⟩

/-! ### A piece as a whole (R84, R85) -/

/-- A channel's turn is over (R85). -/
def State.turnOver (s : State) (k : CoreId) (ch : Chan) (r : CopyRun) : State :=
  s.modCore k fun y => { y with lastCh := if nestBulk r.cmd.nest then y.lastCh else ch.toNat }

theorem turnOver_keeps (s : State) (k : CoreId) (ch : Chan) (r : CopyRun) : KeepsChannels s (s.turnOver k ch r) :=
  keepsChannels_modCore s k _ fun _ => rfl

/-- The state in which a piece is read. -/
def State.pieceBegin (s : State) (k : CoreId) (ch : Chan) (r : CopyRun) (p : Piece) : State :=
  (s.free.2.engTake (p.lines s k r.cmd)).turnOver k ch r

/-- A traced launch notes the read of a piece in a state (R229). -/
def State.pieceNoted (s : State) (r : CopyRun) (p : Piece) (t : State) : State :=
  match p.src with
  | .phys pa =>
    if s.traced r.cmd.launch && !excluded r.cmd.excl p.sa p.len then t.noteRead r.cmd.launch r.cmd.unit pa p.len else t
  | _ => t

theorem copyPiece_eq (s : State) (k : CoreId) (ch : Chan) (r : CopyRun) (p : Piece) : s.copyPiece k ch r p =
    let b := (s.pieceBegin k ch r p).srcBytes k (pieceWho k ch r p) p.src p.len
    State.pieceDone k ch r p ((s.pieceNoted r p b.2.2).putPiece r k (pieceWho k ch r p) p b.1 b.2.1) := rfl

theorem pieceBegin_booked (s : State) (k : CoreId) (ch : Chan) (r : CopyRun) (p : Piece) : Booked s (s.pieceBegin k ch r p) := by
  obtain ⟨cs, htake, hcores⟩ := engTake_books s.free.2 (p.lines s k r.cmd)
  refine ⟨⟨s.freeCtr + 1, (s.pieceBegin k ch r p).cores, s.launches, ?_⟩, fun j => ?_⟩
  · unfold State.pieceBegin
    rw [htake]
    rfl
  · obtain ⟨ws, hws⟩ := hcores j
    unfold State.pieceBegin State.turnOver
    by_cases hj : j = k
    · subst hj
      rw [State.core_modCore, hws]
      exact ⟨_, _, rfl⟩
    · rw [State.core_modCore_ne _ _ hj, hws]
      exact ⟨_, _, rfl⟩

theorem pieceNoted_booked {s t : State} (h : Booked s t) (r : CopyRun) (p : Piece) : Booked s (s.pieceNoted r p t) := by
  unfold State.pieceNoted
  split
  · split
    · exact h.noteRead ..
    · exact h
  · exact h

/-- Nothing keeps a side of a piece from being served. -/
def Side.ready : Side → Bool
  | .ask _ | .stop _ => false
  | _ => true

theorem PieceReads.ready {s : State} {k : CoreId} {w : Who} {p : Piece} {bs : List Byte} (h : PieceReads s k w p bs) :
    p.src.ready = true := by
  rcases h with ⟨hzero, -⟩ | ⟨c, hcell, -⟩
  · rw [hzero]; rfl
  · cases hsrc : p.src with
    | ask _ | stop _ => rw [hsrc] at hcell; cases hcell
    | _ => rfl

section Serving

variable {s : State} {k : CoreId} {ch : Chan} {r : CopyRun} {p : Piece} {bs : List Byte}
  (serve : s.servable k ch = some (r, p)) (turn : s.copyTurn k ch r = true)
include serve turn

theorem copyLine_moves (src : p.src.ready = true) (dst : p.dst.ready = true) :
    exec (.copyLine k ch .clean) s = .next ((s.copyPiece k ch r p).dropWaiter k (chanWaiter ch)) := by
  suffices copyLine k ch s = some _ from congrArg enabled this
  unfold copyLine
  rw [serve]
  dsimp only
  rw [if_neg (by simp [turn])]
  split
  · rename_i h; rw [h] at src; cases src
  · rename_i h; rw [h] at src; cases src
  · rename_i h _ _; rw [h] at dst; cases dst
  · rename_i h _ _; rw [h] at dst; cases dst
  · rfl

theorem copyLine_stops {f : FaultInfo} (src : p.src = .stop f) : exec (.copyLine k ch .clean) s =
    .next (((stopChan s k ch r f).dropWaiter k (chanWaiter ch)).turnOver k ch r) := by
  suffices copyLine k ch s = some _ from congrArg enabled this
  unfold copyLine
  rw [serve]
  dsimp only
  rw [if_neg (by simp [turn]), src]
  rfl

/-- The step of a piece that can be read and written, as far as memory and the channel go. -/
theorem copyLine_puts (reads : PieceReads s k (pieceWho k ch r p) p bs) (dst : p.dst.ready = true) : ∃ t u, Booked s t ∧
    exec (.copyLine k ch .clean) s = .next u ∧ ∀ d, t.putPiece r k (pieceWho k ch r p) p bs false = d →
      (d.1.saves = [] ∨ d.2.1.cmd.kind = .cpy) → u.mem = d.1.mem ∧
        ((u.core k).chan ch).run = some (d.2.1.step p.j p.len) ∧ (d.2.2.2 = true → ((u.core k).chan ch).landErr = true) := by
  have begun := pieceBegin_booked s k ch r p
  have hsrc := srcBytes_reads (reads.of_booked begun)
  refine ⟨_, _, pieceNoted_booked begun r p, copyLine_moves serve turn reads.ready dst, ?_⟩
  rintro d rfl quiet
  rw [copyPiece_eq, hsrc]
  obtain ⟨hmem, hchan⟩ := pieceDone_leaves k ch r p quiet
  obtain ⟨hmem', -, hchan'⟩ := dropWaiter_keeps (State.pieceDone k ch r p _) k (chanWaiter ch)
  refine ⟨hmem'.trans hmem, ?_, fun hdropped => ?_⟩
  · rw [hchan', hchan]
  · rw [hchan', hchan]
    exact Bool.or_eq_true_iff.2 (.inr hdropped)

end Serving

end Sys2Proof.Machine
end

section
/-! The claims on a copy command's pieces, and the obligation on copies (R84, R85, R220 to R223, R333). -/
namespace Sys2Proof.Machine

/-! ### A line whose translation fails (R85, R222) -/

theorem failLaunch_keeps (s : State) (id : Word) (status : Byte) : KeepsChannels s (s.failLaunch id status) := by
  unfold State.failLaunch
  split
  · exact KeepsChannels.refl s
  · split
    · exact KeepsChannels.refl s
    · exact List.foldlRecOn (motive := KeepsChannels s) _ _ ⟨rfl, rfl, fun _ _ => rfl⟩ fun t ht m _ =>
        ht.trans (keepsChannels_modCtx ..)

theorem chan_of_cores {s t : State} (h : t.cores = s.cores) (k : CoreId) (ch : Chan) :
    (t.core k).chan ch = (s.core k).chan ch := by rw [State.core, h]; rfl

/-- A fault of an engine command leaves every core's channels. -/
theorem engineFault_chan (s : State) (k j : CoreId) (c : CtxId) (runId : Nat) (id : Word) (f : FaultInfo) (ch : Chan) :
    ((s.engineFault k c runId id f).core j).chan ch = (s.core j).chan ch := by
  have failed : (((s.ringFault (s.core k).tenant (faultRecord f false id k c none 0 s.gcc)).failLaunch id 0x07).core j).chan ch =
      (s.core j).chan ch := ((failLaunch_keeps _ id 0x07).chan j ch).trans (chan_of_cores (ringFault_cores ..) j ch)
  have counted (b : Bool) (t : State) : (if b then t.countFault k c id else t).cores = t.cores := by cases b <;> rfl
  unfold State.engineFault
  dsimp only
  split
  · exact chan_modCtx ..
  · split
    · exact (chan_of_cores (counted ..) j ch).trans failed
    · exact (chan_of_cores (counted ..) j ch).trans failed

theorem stopChan_run (s : State) (k : CoreId) (ch : Chan) (r : CopyRun) (f : FaultInfo) :
    (((stopChan s k ch r f).core k).chan ch).run = some { r with stop := some { f with chan := some ch } } := by
  unfold stopChan
  dsimp only
  rw [engineFault_chan, chan_modChan]

/-! ### A piece that moves (R84, R221, R333) -/

/-- A piece's bytes stand at some cells, nothing else of memory has changed, and the run is past them. -/
def PieceMoved (s : State) (k : CoreId) (ch : Chan) (r : CopyRun) (p : Piece) (bs : List Byte) (u : State) (cells : List Nat) :
    Prop :=
  (∀ c ∈ cells, rdBytes u.mem c p.len = bs) ∧
    (∀ a, (∀ c ∈ cells, a < c ∨ c + p.len ≤ a) → rd u.mem a = rd s.mem a) ∧
    ((u.core k).chan ch).run = some (r.step p.j p.len)

/-- Which of a command's source addresses lead to a cell does not depend on the page tables where the source is local, or
zeros. -/
theorem sourceVas_local {c : CopyCmd} (h : nestSloc c.nest = true ∨ nestZsrc c.nest = true) (t u : State) (k : CoreId)
    (cell : Nat) : c.sourceVas t k cell = c.sourceVas u k cell := by
  unfold CopyCmd.sourceVas
  rcases h with h | h <;> simp only [h, if_true]

section Serving

variable {s : State} {k : CoreId} {ch : Chan} {r : CopyRun} {p : Piece} {bs : List Byte}
  (serve : s.servable k ch = some (r, p)) (turn : s.copyTurn k ch r = true) (plain : s.stampOn = false) (saves : s.saves = [])
  (reads : PieceReads s k (pieceWho k ch r p) p bs)

theorem Puts.done {t u : State} {cells : List Nat} {d : State × CopyRun × Nat × Bool}
    (puts : Puts (pieceWho k ch r p) t r cells bs d) (booked : Booked s t) (hlen : bs.length = p.len)
    (hmem : u.mem = d.1.mem) (hrun : ((u.core k).chan ch).run = some (d.2.1.step p.j p.len)) :
    PieceMoved s k ch r p bs u cells := by
  obtain ⟨-, hr, hin, hout⟩ := puts
  unfold PieceMoved
  rw [hmem, hrun, hr, ← hlen, ← booked.mem]
  exact ⟨hin, hout, rfl⟩

include serve in
theorem servable_da : p.da < 2 ^ 64 := by
  obtain ⟨-, -, -, -, -, rfl⟩ := servable_iff.1 serve
  exact nextPiece_da s k ch r

include serve turn plain saves reads

theorem copyLine_spm {off : Nat} (hdst : p.dst = .spm off) (fits : off + p.len ≤ 0x600000)
    (alike : (r.cmd.receivers k).length = 1 ∨ nestSloc r.cmd.nest = true ∨ nestZsrc r.cmd.nest = true)
    (ready : ∀ d ∈ r.cmd.receivers k, (s.core d).owned (s.core k).tenant = true ∧
      ahas (s.core d).inuse (off / 4096) = false ∧ Lasts s (pieceWho k ch r p) (spmPa d.toNat off) p.len ∧
      Clear s k r p (spmPa d.toNat off)) :
    ∃ u, exec (.copyLine k ch .clean) s = .next u ∧
      PieceMoved s k ch r p bs u ((r.cmd.receivers k).map fun d => spmPa d.toNat off) := by
  obtain ⟨t, u, booked, hexec, hu⟩ := copyLine_puts serve turn reads (by rw [hdst]; rfl)
  obtain ⟨-, -, -, -, -, hp⟩ := servable_iff.1 serve
  have puts := putPiece_spm reads.length (servable_da serve) (pieceWho_before k ch r p) (booked.stampOn.trans plain) hdst fits
    (nextPiece_local (hp ▸ hdst)) (alike.imp Nat.le_of_eq fun h t u => sourceVas_local h t u k) fun d hd => by
      obtain ⟨owned, free, last, clear⟩ := ready d hd
      refine ⟨?_, ?_, booked.lasts last, clear.of_same booked.sameVas⟩
      · rw [booked.sameVas.tenant, booked.field d (·.owned _) fun _ _ _ => rfl]
        exact owned
      · rw [booked.field d Core.inuse fun _ _ _ => rfl]
        exact free
  obtain ⟨hmem, hrun, -⟩ := hu _ rfl (.inl (puts.wrote.saves.trans (booked.saves.trans saves)))
  exact ⟨u, hexec, puts.done booked reads.length hmem hrun⟩

theorem copyLine_phys {pa : Nat} (hdst : p.dst = .phys pa) (inside : ∀ q off, homeOf pa ≠ .peer q off) (free : PageFree s pa)
    (last : Lasts s (pieceWho k ch r p) pa p.len) (clear : Clear s k r p pa) :
    ∃ u, exec (.copyLine k ch .clean) s = .next u ∧ PieceMoved s k ch r p bs u [pa] := by
  obtain ⟨t, u, booked, hexec, hu⟩ := copyLine_puts serve turn reads (by rw [hdst]; rfl)
  have free' : PageFree t pa := fun d off hd => by
    rw [booked.field _ Core.inuse fun _ _ _ => rfl]
    exact free d off hd
  have puts := putPiece_phys reads.length (servable_da serve) (pieceWho_before k ch r p) (booked.stampOn.trans plain) hdst inside
    free' (booked.lasts last) (clear.of_same booked.sameVas)
  obtain ⟨hmem, hrun, -⟩ := hu _ rfl (.inl (puts.wrote.saves.trans (booked.saves.trans saves)))
  exact ⟨u, hexec, puts.done booked reads.length hmem hrun⟩

theorem copyLine_peer {c : Nat} (hdst : p.dst = .peer c) (last : Lasts s (pieceWho k ch r p) c p.len) (clear : Clear s k r p c) :
    ∃ u, exec (.copyLine k ch .clean) s = .next u ∧
      (PieceMoved s k ch r p bs u [c] ∨ (u.mem = s.mem ∧ ((u.core k).chan ch).landErr = true)) := by
  obtain ⟨t, u, booked, hexec, hu⟩ := copyLine_puts serve turn reads (by rw [hdst]; rfl)
  refine ⟨u, hexec, ?_⟩
  have saves' : t.saves = [] := booked.saves.trans saves
  rcases putPiece_peer reads.length (servable_da serve) (pieceWho_before k ch r p) (booked.stampOn.trans plain) hdst
    (booked.lasts last) (clear.of_same booked.sameVas) with puts | refused
  · obtain ⟨hmem, hrun, -⟩ := hu _ rfl (.inl (puts.wrote.saves.trans saves'))
    exact .inl (puts.done booked reads.length hmem hrun)
  · obtain ⟨hmem, -, herr⟩ := hu _ refused (.inl saves')
    exact .inr ⟨hmem.trans booked.mem, herr rfl⟩

omit plain in
theorem copyLine_drop (hdst : p.dst = .drop) : ∃ u, exec (.copyLine k ch .clean) s = .next u ∧ u.mem = s.mem ∧
    ((u.core k).chan ch).landErr = true ∧ ((u.core k).chan ch).run = some (r.step p.j p.len) := by
  obtain ⟨t, u, booked, hexec, hu⟩ := copyLine_puts serve turn reads (by rw [hdst]; rfl)
  have hput : t.putPiece r k (pieceWho k ch r p) p bs false = (t, r, 0, true) := by rw [State.putPiece, hdst]
  obtain ⟨hmem, hrun, herr⟩ := hu _ hput (.inl (booked.saves.trans saves))
  exact ⟨u, hexec, hmem.trans booked.mem, herr rfl, hrun⟩

end Serving

theorem copyMovesBytes : Sys2Proof.Claim.CopyMovesBytes := by
  intro s k ch r p serve turn plain saves
  refine ⟨fun undone => ?_, fun f hf => ⟨_, copyLine_stops serve turn hf, ?_⟩, fun bs reads =>
    ⟨fun off hdst fits alike ready => copyLine_spm serve turn plain saves reads hdst fits alike ready,
      fun pa hdst inside free ⟨last, clear⟩ => copyLine_phys serve turn plain saves reads hdst inside free last clear,
      fun c hdst ⟨last, clear⟩ => copyLine_peer serve turn plain saves reads hdst last clear,
      fun hdst => copyLine_drop serve turn saves reads hdst⟩⟩
  · obtain ⟨-, -, hlo, -, -, rfl⟩ := servable_iff.1 serve
    obtain ⟨hge, hlt⟩ := pick_within hlo (Config.freeNat s.freeCtr)
    obtain ⟨hpos, hlen, hline, hsource⟩ := piece_fits r (pick_undone undone (Config.freeNat s.freeCtr))
    exact ⟨hge, hlt, hpos, hlen, rfl, rfl, hline, hsource⟩
  · rw [(turnOver_keeps ..).chan, (dropWaiter_keeps ..).chan, stopChan_run]

/-! ### Zeros to local memory (R19, R84, R85, R220) -/

theorem nestOff_zero (cnt : Nat → Nat) (str : Nat → Int) (ls : List Nat) : nestOff cnt str ls 0 = 0 := by
  induction ls with
  | nil => rfl
  | cons l ls ih => simp [nestOff, ih]

theorem toNat_lt_dword (x : Dword) : x.toNat < 2 ^ 64 := by
  have := x.isLt
  omega

theorem nestDst_zero (n : Line) (dst : Dword) : nestDst n dst 0 = dst.toNat := by
  unfold nestDst
  have within : (dst.toNat : Int) < 2 ^ 64 := by exact_mod_cast toNat_lt_dword dst
  rw [nestOff_zero, Int.add_zero]
  exact (congrArg Int.toNat (Int.emod_eq_of_lt (Int.natCast_nonneg _) within)).trans (Int.toNat_natCast _)

section Zeros

variable {s : State} {k : CoreId} {ch : Chan} {r : CopyRun}
  (kind : r.cmd.kind = .cpy) (zsrc : nestZsrc r.cmd.nest = true) (dloc : nestDloc r.cmd.nest = true)
  (one : nestTotal r.cmd.nest = 1) (lo : r.lo = 0) (prog : r.prog = [])

include lo prog in
theorem done_fresh (j : Nat) : r.done j = 0 := by
  unfold CopyRun.done
  rw [lo, prog, if_neg (Nat.not_lt_zero j)]
  rfl

/-- What the first piece is of a command of one iteration that zeroes local memory. -/
structure ZeroPiece (r : CopyRun) (p : Piece) : Prop where
  j : p.j = 0
  da : p.da = r.cmd.dst.toNat
  len : p.len = Min.min (64 - r.cmd.dst.toNat % 64) (nestLen r.cmd.nest)
  src : p.src = .zero
  dst : p.dst = .spm r.cmd.dst.toNat

include lo prog in
theorem piece_da_zero : (r.piece 0).2.1 = r.cmd.dst.toNat := by
  unfold CopyRun.piece
  dsimp only
  rw [done_fresh lo prog, Nat.add_zero, nestDst_zero, Nat.mod_eq_of_lt (toNat_lt_dword _)]

include zsrc lo prog in
theorem piece_len_zero : (r.piece 0).2.2 = Min.min (64 - r.cmd.dst.toNat % 64) (nestLen r.cmd.nest) := by
  rw [← piece_da_zero lo prog]
  unfold CopyRun.piece
  dsimp only
  rw [if_pos zsrc, done_fresh lo prog, Nat.sub_zero]

include kind zsrc dloc one lo prog in
theorem nextPiece_zeros : ZeroPiece r (s.nextPiece k ch r) := by
  have hpick : r.pick (Config.freeNat s.freeCtr) = 0 := by
    have := pick_within (r := r) (by omega) (Config.freeNat s.freeCtr)
    omega
  have hda := piece_da_zero lo prog
  have hlen := piece_len_zero zsrc lo prog
  unfold State.nextPiece
  dsimp only
  rw [hpick]
  generalize r.piece 0 = q at hda hlen ⊢
  rw [kind, dloc, zsrc, hda]
  exact ⟨rfl, rfl, hlen, rfl, rfl⟩

include kind in
theorem ZeroPiece.lines {p : Piece} (h : ZeroPiece r p) (owned : (s.core k).owned (s.core k).tenant = true) :
    p.lines s k r.cmd = spmLines (spmPa k.toNat r.cmd.dst.toNat) p.len := by
  unfold Piece.lines CopyCmd.receivers
  rw [h.src, h.dst, kind]
  dsimp only
  rw [List.filter_cons_of_pos (a := k) owned, List.filter_nil, List.nil_append, List.flatMap_singleton]

theorem ZeroPiece.pieceOk {p : Piece} (h : ZeroPiece r p) : s.pieceOk k r p = s.engOk (p.lines s k r.cmd) := by
  unfold State.pieceOk
  rw [h.src, h.dst]
  simp

include prog zsrc in
theorem clear_fresh {p : Piece} (cell : Nat) : Clear s k r p cell :=
  ⟨fun i _ => by simp [CopyRun.later, prog], fun v hv => by simp [CopyCmd.sourceVas, zsrc] at hv⟩

include kind zsrc prog in
theorem ZeroPiece.putPiece {p : Piece} (h : ZeroPiece r p) (w : Who) {bs : List Byte} (hlen : bs.length = p.len)
    (owned : (s.core k).owned (s.core k).tenant = true) (free : ahas (s.core k).inuse (r.cmd.dst.toNat / 4096) = false) :
    s.putPiece r k w p bs false = (s.writeBy w (spmPa k.toNat r.cmd.dst.toNat) bs (unit := 1), r, 1, false) := by
  unfold State.putPiece CopyCmd.receivers
  rw [h.dst, kind]
  dsimp only
  rw [List.foldl_cons, List.foldl_nil, if_pos owned,
    landPiece_clear hlen (h.da ▸ toNat_lt_dword _) (clear_fresh zsrc prog _) free]
  rfl

include lo prog in
/-- Once that piece is written, its bytes are done. -/
theorem done_step (m : Nat) : (r.step 0 m).done 0 = m := by
  unfold CopyRun.step
  rw [done_fresh lo prog, prog, Nat.zero_add]
  show (CopyRun.advance _ [(0, m)]).done 0 = m
  rw [CopyRun.advance]
  split
  · rename_i h
    have hm : m = nestLen r.cmd.nest := by simpa [lo, ains, aget] using h
    simp [CopyRun.advance, CopyRun.done, hm]
  · simp [CopyRun.done, lo, ains, aget]

end Zeros

theorem copyWritesZeros : Sys2Proof.Claim.CopyWritesZeros := by
  intro s k ch r hrun hstop kind zsrc dloc bulk one lo prog plain da m free owned hok turn
  have zeros : ZeroPiece r (s.nextPiece k ch r) := nextPiece_zeros kind zsrc dloc one lo prog
  have serve : s.servable k ch = some (r, s.nextPiece k ch r) := servable_iff.2 ⟨hrun, hstop, by omega,
    by simp [State.hasEngine, bulk], by rw [zeros.pieceOk, zeros.lines kind owned, zeros.len]; exact hok, rfl⟩
  generalize s.nextPiece k ch r = p at zeros serve
  obtain ⟨t, u, booked, hexec, hu⟩ := copyLine_puts (bs := List.replicate p.len 0) serve turn (.inl ⟨zeros.src, rfl⟩)
    (by rw [zeros.dst]; rfl)
  have plain' := booked.stampOn.trans plain
  have hput := zeros.putPiece (s := t) (k := k) (bs := List.replicate p.len 0) kind zsrc prog (pieceWho k ch r p)
    List.length_replicate
    (by rw [booked.sameVas.tenant, booked.field k (·.owned _) fun _ _ _ => rfl]; exact owned)
    (by rw [booked.field k Core.inuse fun _ _ _ => rfl]; exact free)
  obtain ⟨hmem, hdone, -⟩ := hu _ hput (.inr kind)
  have hm : p.len = m := zeros.len
  refine ⟨u, hexec, fun last i hi => ?_, fun a ha => ?_, r.step p.j p.len, hdone, step_cmd .., ?_⟩
  · have last' : Lasts t (pieceWho k ch r p) (spmPa k.toNat da) (List.replicate p.len (0 : Byte)).length := by
      rw [List.length_replicate, hm, pieceWho, zeros.j]
      exact booked.lasts last
    have hpa : spmPa k.toNat (da + i) = spmPa k.toNat da + i := (Nat.add_assoc ..).symm
    rw [hmem, (writeBy_lasts 1 plain' (pieceWho_before ..) last').2, hpa,
      rd_wrBytes_in _ _ _ _ (by rw [List.length_replicate, hm]; exact hi), List.getElem_replicate]
  · have out : a < spmPa k.toNat da ∨ spmPa k.toNat da + (List.replicate p.len (0 : Byte)).length ≤ a := by
      rw [List.length_replicate, hm]
      omega
    rw [hmem, writeBy_units_mem_out 1 plain' out, booked.mem]
  · rw [zeros.j, hm, done_step lo prog]

/-- Settles O39: a command's start and end by what the two events do to its channel, and its pieces by what a piece reads, what
the last writes to its cells leave, and what follows them. -/
theorem copyEngine : Obligations.CopyEngine := ⟨copyStarts, copyMovesBytes, copyWritesZeros, copyEnds⟩

end Sys2Proof.Machine
end

section
/-! Every operation runs its plan (R36, R38, R42, R318), and what its bundle consumes (R94). -/
namespace Sys2Proof.Machine

/-! ### An operation runs its plan -/

/-- An operation on its own runs the plan of it, in its slot. -/
theorem exec_runsPlan {i : Instr} (h : IsOperation i) : ∃ slot, ∀ s, exec i s = runPlan slot (planOf i s) s := by
  cases i
  case issueCycle | runmaxExpiry | bundleIssue | bankConflictRetry | fetchComplete | segmentCheck | fixedLatencyLanding |
    scoreboardLanding | tlbWalkComplete | memRequestService | loadLineLands | globalAccessPerform | spillFillComplete |
    waitgccWake | laqEntryFree | copyCommandStart | copyLine | copyComplete | bulkFrameSlot | matrixCommandStart |
    matrixBeat | loaderBeat | accRowBeat | matrixCommandDone | aConsumed | barrierComplete | takeRecord | admitLaunch |
    coreAssign | contextStart | dispatchRestart | nxuService | launchAppend | launchFail | completionWrite | passStart |
    passEnd | pmarkStop | contextSaved | pmbExpiry | zeroingDone | hostWrite | hostRead | ideIntegrityFail | peerInbound |
    portTrain | queueDescriptorWrite | coreConfigWrite | slotTableWrite | ttrootWrite | go | goStep | decline | measext |
    tlockWrite | tgo | counterRead | registerWrite | supplySag | thermalTrip | bootStage | getMeasurements | keyExchange |
    keyUpdate | endSession | vendorDefinedRequest | ideKm | portDown | supplyRestored | gccTick | powerOnReset |
    driverReset | preempt | resume | abort | scrub | stampreset | coresave | coreload | shootdown | finishRequest |
    finishRemove | powerWindowEnd => exact nomatch h
  case nop => exact ⟨0, fun _ => rfl⟩
  all_goals exact ⟨_, fun _ => rfl⟩

theorem operationsComplete : Sys2Proof.Claim.OperationsComplete := by
  rintro i s hi ⟨hf, hh, hc⟩
  obtain ⟨slot, hx⟩ := exec_runsPlan hi
  rw [hx, runPlan_commits hf hh hc]

theorem frozenOperationsWait : Sys2Proof.Claim.FrozenOperationsWait := by
  rintro i s hi hw
  obtain ⟨slot, hx⟩ := exec_runsPlan hi
  rw [hx]
  exact hw.elim runPlan_waits runPlan_held

/-- Whether a fault is one that waits for results still due. -/
theorem holdWaits_iff (s : State) (f : FaultInfo) : HoldWaits s f ↔ (s.me.wouldHold f && s.me.holdsBack) = true := by
  simp [HoldWaits, Ctx.wouldHold, Ctx.holdsBack, and_assoc]

theorem operationsTakeFaults : Sys2Proof.Claim.OperationsTakeFaults := by
  intro i s f hi hf hh hc
  obtain ⟨slot, hx⟩ := exec_runsPlan hi
  simp only [holdWaits_iff, Bool.not_eq_true]
  exact ⟨fun hb => ⟨slot, (hx s).trans (runPlan_faults hf hh hc hb)⟩, fun hb => by
    simp [hx, runPlan, hf, hh, hc, hb]⟩

/-! ### What a bundle consumes (R94) -/

/-- A past write that may have come to happen before more accesses, and is otherwise as it was. -/
structure Past.Grows (e e' : Past) : Prop where
  same : (e'.id, e'.who, e'.cells, e'.heads) = (e.id, e.who, e.cells, e.heads)
  know : ∀ w ∈ e.know, w ∈ e'.know

theorem Past.Grows.refl (e : Past) : e.Grows e := ⟨rfl, fun _ h => h⟩

theorem Past.Grows.trans {e e' e'' : Past} (h : e.Grows e') (h' : e'.Grows e'') : e.Grows e'' :=
  ⟨h'.same.trans h.same, fun w hw => h'.know w (h.know w hw)⟩

/-- What a past write learns is added to what it knows. -/
theorem Past.grows_learn (e : Past) (ks : List Know) : e.Grows (e.learn ks) := by
  refine ⟨rfl, ?_⟩
  suffices h : ∀ l : List Know, ∀ w ∈ l, w ∈ ks.foldl (fun l t => if l.any (·.implies t) then l else l ++ [t]) l from h e.know
  intro l w hw
  induction ks generalizing l with
  | nil => exact hw
  | cons t ks ih =>
    refine ih _ (?_ : w ∈ if l.any (·.implies t) then l else l ++ [t])
    split
    · exact hw
    · exact List.mem_append_left _ hw

/-- Past writes as they were, but that each may know of more. -/
def PastsGrow (ps qs : List Past) : Prop := List.Forall₂ Past.Grows ps qs

theorem PastsGrow.refl (ps : List Past) : PastsGrow ps ps := List.forall₂_same.2 fun e _ => .refl e

theorem PastsGrow.trans {ps qs rs : List Past} (h : PastsGrow ps qs) (h' : PastsGrow qs rs) : PastsGrow ps rs := by
  induction h generalizing rs with
  | nil => exact h'
  | cons hd _ ih =>
    obtain ⟨hd', tl', rfl⟩ : ∃ a l, rs = a :: l := by cases h' with | cons => exact ⟨_, _, rfl⟩
    obtain ⟨h1, h2⟩ := List.forall₂_cons.1 h'
    exact .cons (hd.trans h1) (ih h2)

theorem pastsGrow_map {f : Past → List Know} (ps : List Past) : PastsGrow ps (ps.map fun e => e.learn (f e)) :=
  List.forall₂_map_right_iff.2 (List.forall₂_same.2 fun e _ => e.grows_learn _)

theorem PastsGrow.map_eq {ps qs : List Past} (h : PastsGrow ps qs) :
    qs.map (fun e => (e.id, e.who, e.cells, e.heads)) = ps.map fun e => (e.id, e.who, e.cells, e.heads) := by
  induction h with
  | nil => rfl
  | cons hd _ ih => rw [List.map_cons, List.map_cons, hd.same, ih]

theorem PastsGrow.know {ps qs : List Past} (h : PastsGrow ps qs) {n : Nat} {e : Past} (he : ps[n]? = some e) :
    ∃ e' : Past, qs[n]? = some e' ∧ ∀ w ∈ e.know, w ∈ e'.know := by
  induction h generalizing n with
  | nil => simp at he
  | cons hd _ ih =>
    cases n with
    | zero =>
      obtain rfl : _ = e := by simpa using he
      exact ⟨_, rfl, hd.know⟩
    | succ n => exact ih he

/-- Consuming global reads adds to what past writes know, and changes nothing else. -/
theorem foldl_consume (k : CoreId) (c : CtxId) (pos : Nat) (us : List Unread) (s : State) :
    ∃ ps, us.foldl (fun t u => t.consume k c pos u) s = { s with pasts := ps } ∧ PastsGrow s.pasts ps := by
  induction us generalizing s with
  | nil => exact ⟨s.pasts, rfl, .refl _⟩
  | cons u us ih =>
    obtain ⟨ps, h, hg⟩ := ih (s.consume k c pos u)
    exact ⟨ps, h, (pastsGrow_map s.pasts).trans hg⟩

/-- A context for which some reads are no longer unread. -/
def Ctx.unreadBy (f : List Unread → List Unread) (x : Ctx) : Ctx := { x with unread := f x.unread }

/-- What a bundle consumes is no longer unread, and past writes come to know of more; nothing else changes. -/
theorem consumeAll_eq (s : State) (reads : List (Dest × BitVec 16)) (es : List LaqEntry) : 
    (∃ (ps : List Past) (f : List Unread → List Unread),
      s.consumeAll reads es = { s.modMe (Ctx.unreadBy f) with pasts := ps } ∧
        PastsGrow s.pasts ps) ∨ s.consumeAll reads es = s := by
  by_cases h : (s.me.unread.filter (fun u => reads.any fun r => r.1 == .s u.dest) ++
      es.map fun e => (⟨e.id, 0, e.pos, e.cls⟩ : Unread)).isEmpty = true
  · exact .inr (if_pos h)
  · obtain ⟨ps, hp, hg⟩ := foldl_consume s.cur.1 s.cur.2 s.me.pos _
      (s.modMe fun x => { x with unread := x.unread.filter fun u => !(reads.any fun r => r.1 == .s u.dest) })
    exact .inl ⟨ps, fun us => us.filter fun u => !(reads.any fun r => r.1 == .s u.dest), (if_neg h).trans hp, hg⟩

theorem consumptionIsQuiet : Sys2Proof.Claim.ConsumptionIsQuiet := by
  intro i s
  rcases consumeAll_eq s (planOf i s).reads (popped s.here (planOf i s).pops) with ⟨ps, f, ht, hg⟩ | ht
  · have hcore : ∀ k, { (s.modMe (Ctx.unreadBy f)).core k with ctxs := [] } = { s.core k with ctxs := [] } := by
      intro k
      rcases eq_or_ne k s.cur.1 with rfl | hk
      · rw [State.modMe, s.core_modCtx]; rfl
      · rw [State.modMe, s.core_modCtx_ne _ _ hk]
    have hme : { (s.modMe (Ctx.unreadBy f)).me with unread := s.me.unread } = s.me := by rw [s.me_modMe]; rfl
    rw [show heard i s = _ from ht]
    exact ⟨rfl, hcore, fun k c h => s.ctx_modCtx_ctx (Ctx.unreadBy f) h, hme, hg.map_eq, fun n e => hg.know⟩
  · rw [show heard i s = s from ht]
    exact ⟨rfl, fun _ => rfl, fun _ _ _ => rfl, rfl, rfl, fun n e he => ⟨e, he, fun _ h => h⟩⟩

/-- Settles O1: every operation runs the plan of it, of which what waits, faults or commits is said once (`runPlan_commits`,
`runPlan_waits`, `runPlan_faults`); what is consumed only adds to what past writes know. -/
theorem operationsIssue : Obligations.OperationsIssue :=
  ⟨operationsComplete, frozenOperationsWait, operationsTakeFaults, consumptionIsQuiet⟩

end Sys2Proof.Machine
end

section
/-! Guards that are false, and what stops a scalar operation (R38, R116, R153, R322, R323). -/
namespace Sys2Proof.Machine

variable {s : State} {p : Plan} {i : Instr} {g : Guard} {n : Nat}

/-! ### Sources -/

theorem mem_rS {x : Ctx} {q : SReg} {r : Dest × BitVec 16} : r ∈ rS x q ↔ q ≠ 0 ∧ r = (.s (x.phys q), 0xFFFF) := by
  unfold rS
  split <;> simp_all

theorem mem_rP {q : PReg} {r : Dest × BitVec 16} : r ∈ rP q ↔ q ≠ 0 ∧ r = (.p q.toNat, 0xFFFF) := by
  unfold rP
  split <;> simp_all

/-- Whether a guard's predicate cannot be read (R323). -/
theorem not_predReady {q : PReg} : ¬ PredReady s q ↔ q ≠ 0 ∧ s.me.rPoison.contains (keyP q.toNat) = true := by
  simp [PredReady]

/-- A source that holds poison, but none that a global load brought. -/
def Tainted (s : State) (rs : List (Dest × BitVec 16)) : Prop := ∃ r ∈ rs, s.srcPoisoned r = true

/-- No source holds poison that a global load brought (R214). -/
def NotLoaded (s : State) (rs : List (Dest × BitVec 16)) : Prop := ∀ e lanes, (.s e, lanes) ∈ rs → ahas s.me.ldsPoison e = false

namespace Plan.Plain

theorem freezes_arrived (h : p.Plain) (hr : ∀ r ∈ p.reads, s.me.awaits r.1 = false) : p.freezes s = false := by
  rw [freezes_reads h.frozen h.works h.pops h.touch, List.any_eq_false]
  simpa using hr

theorem freezes_awaits (h : p.Plain) {r : Dest × BitVec 16} (hr : r ∈ p.reads) (ha : s.me.awaits r.1 = true) :
    p.freezes s = true := by
  rw [freezes_reads h.frozen h.works h.pops h.touch]
  exact List.any_eq_true.2 ⟨r, hr, ha⟩

theorem poisonedPop (h : p.Plain) : p.poisonedPop s = none := by simp [Plan.poisonedPop, h.pops]

/-- Poison other than that of a global load is reported without an address (R323). -/
theorem poisonCheck_tainted (h : p.Plain) (hl : NotLoaded s p.reads) (ht : Tainted s p.reads) :
    p.poisonCheck s = .fault { code := 0x0D, detail := 2 } := by
  obtain ⟨r, hr, hp⟩ := ht
  have hany : p.reads.any s.srcPoisoned = true := List.any_eq_true.2 ⟨r, hr, hp⟩
  unfold Plan.poisonCheck
  rw [h.poisonedPop]
  dsimp only
  split
  · rename_i e lanes hfind
    have hload := List.find?_some hfind
    simp [hl e lanes (List.mem_of_find?_eq_some hfind)] at hload
  · simp [hany]

/-- Poison that a global load brought is reported with its line (R214, R317). -/
theorem poisonCheck_loaded (h : p.Plain) {e : Nat} {lanes : BitVec 16} (hm : (.s e, lanes) ∈ p.reads)
    (hl : ahas s.me.ldsPoison e = true) : ∃ e' lanes', (.s e', lanes') ∈ p.reads ∧ ahas s.me.ldsPoison e' = true ∧
      p.poisonCheck s = .fault { code := 0x0D, detail := 1, va := aget s.me.ldsPoison e' 0 } := by
  unfold Plan.poisonCheck
  rw [h.poisonedPop]
  dsimp only
  split
  · rename_i e' lanes' hfind
    exact ⟨e', lanes', List.mem_of_find?_eq_some hfind, by simpa using List.find?_some hfind, rfl⟩
  · rename_i hno
    cases hfind : p.reads.find? fun r => match r.1 with | .s e => ahas s.me.ldsPoison e | _ => false with
    | none => simpa [hl] using List.find?_eq_none.1 hfind _ hm
    | some r =>
      obtain ⟨d, l⟩ := r
      have hd := List.find?_some hfind
      cases d with
      | s e' => exact absurd hfind (hno e' l)
      | _ => simp at hd

theorem faults_check (h : p.Plain) (hr : ∀ r ∈ p.reads, s.me.awaits r.1 = false) {f : FaultInfo} (hc : p.check = .fault f)
    (hh : (f.code == 0x04 || f.code == 0x07) = false) : runPlan n p s = faultsAs s n f :=
  runPlan_faults (h.freezes_arrived hr) h.held (by rw [checks_reads h.pops, hc]; rfl) (by rw [Ctx.wouldHold, hh]; rfl)

theorem faults_poison (h : p.Plain) (hr : ∀ r ∈ p.reads, s.me.awaits r.1 = false) (hc : p.check = .ok) {f : FaultInfo}
    (hp : p.poisonCheck s = .fault f) (hh : (f.code == 0x04 || f.code == 0x07) = false) : runPlan n p s = faultsAs s n f :=
  runPlan_faults (h.freezes_arrived hr) h.held (by rw [checks_reads h.pops, hc, hp]; rfl) (by rw [Ctx.wouldHold, hh]; rfl)

end Plan.Plain

/-! ### A guard that is false (R116) -/

theorem isOperation_of_guard (hg : guardOf i = some g) : IsOperation i := by
  cases i <;> cases hg <;> rfl

/-- A guarded plan whose guard is false, and one whose guard is true. -/
theorem reading_false {q : List (Dest × BitVec 16)} (h : performs g s.me = false) :
    (if performs g s.me then p else {}).reading q = ({} : Plan).reading q := by
  rw [h]; rfl

theorem reading_true {q : List (Dest × BitVec 16)} (h : performs g s.me = true) :
    (if performs g s.me then p else {}).reading q = p.reading q := by
  rw [h]; rfl

/-- Where it does not perform, an operation of format S only reads its predicate. -/
theorem planOf_false (hg : guardOf i = some g) (hp : performs g s.me = false) :
    planOf i s = ({} : Plan).reading (rP g.pred) := by
  cases i <;> cases hg <;> exact reading_false hp

theorem plain_empty : ({} : Plan).Plain := ⟨rfl, rfl, rfl, rfl, rfl, rfl⟩

theorem falseGuardNoEffect : Sys2Proof.Claim.FalseGuardNoEffect := by
  intro i g s hg hp hr
  obtain ⟨slot, hx⟩ := exec_runsPlan (isOperation_of_guard hg)
  have hreads : (({} : Plan).reading (rP g.pred)).reads = rP g.pred := List.append_nil _
  rw [hx, planOf_false hg hp, (plain_empty.reading _).commits (by rw [hreads]; exact sourceReady_pred hr) rfl, hreads,
    consumeAll_noScalar (rP_noScalar _)]
  rfl

theorem poisonedGuardsStop : Sys2Proof.Claim.PoisonedGuardsStop := by
  intro i g s hg hp hr
  obtain ⟨slot, hx⟩ := exec_runsPlan (isOperation_of_guard hg)
  obtain ⟨h0, hpo⟩ := not_predReady.1 hr
  have hreads : (({} : Plan).reading (rP g.pred)).reads = rP g.pred := List.append_nil _
  have hmem : (.p g.pred.toNat, 0xFFFF) ∈ (({} : Plan).reading (rP g.pred)).reads := by
    rw [hreads]; exact mem_rP.2 ⟨h0, rfl⟩
  have hpred : ∀ r ∈ (({} : Plan).reading (rP g.pred)).reads, r = (.p g.pred.toNat, 0xFFFF) := by
    rw [hreads]; exact fun r h => (mem_rP.1 h).2
  refine ⟨slot, ?_⟩
  rw [hx, planOf_false hg hp]
  refine (plain_empty.reading _).faults_poison (fun r h => ?_) rfl
    ((plain_empty.reading _).poisonCheck_tainted (fun e lanes h => ?_) ⟨_, hmem, hpo⟩) rfl
  · rw [hpred r h]; exact Ctx.awaits_pred _ _
  · cases hpred _ h

/-! ### Scalar operations (R38, R153, R323) -/

/-- The plan of a scalar operation that performs: it reads the sources of its row, and some registers that are never awaited and
hold poison where its row's registers do. -/
structure ScalarPlan (i : Instr) (r : ScalarRow) (s : State) (more : List (Dest × BitVec 16)) : Prop where
  plan : ∃ c, planOf i s = Plan.reading
    { reads := r.srcs.flatMap (rS s.me) ++ more, check := loopDest s.me r.dest, commit := c } (rP r.guard.pred)
  runs : exec i s = runPlan 0 (planOf i s) s
  regs : ∀ q ∈ more, s.me.awaits q.1 = false ∧ ∀ e, q.1 ≠ .s e
  taint : Tainted s more ↔ ¬ RegsReady i s

theorem tainted_pred (c : PReg) : Tainted s (rP c) ↔ ∃ q ∈ predKey c, s.me.rPoison.contains q = true := by
  by_cases h : c = 0 <;> simp [Tainted, predKey, rP, h, State.srcPoisoned]

theorem tainted_addr (a : AReg) : Tainted s (rA a) ↔ s.me.rPoison.contains (keyA a.toNat) = true := by
  simp [Tainted, rA, State.srcPoisoned]

theorem not_regsReady : ¬ RegsReady i s ↔ ∃ q ∈ regsOf i, s.me.rPoison.contains q = true := by
  simp [RegsReady]

/-- Every operation of the table of scalar results has such a plan. -/
theorem exists_scalarPlan {r : ScalarRow} (hr : scalarRow i = some r) (hp : performs r.guard s.me = true) :
    ∃ more, ScalarPlan i r s more := by
  cases i <;> cases hr
  case sel g d a b c =>
    refine ⟨rP c, ⟨_, reading_true hp⟩, rfl, fun q hq => ?_, (tainted_pred c).trans (not_regsReady (i := .sel g d a b c)).symm⟩
    rw [(mem_rP.1 hq).2]; simp
  case smova g d a =>
    refine ⟨rA a, ⟨_, reading_true hp⟩, rfl, fun q hq => ?_, (tainted_addr a).trans ?_⟩
    · obtain rfl : q = _ := by simpa [rA] using hq
      simp
    · simp [not_regsReady, regsOf]
  all_goals exact ⟨[], ⟨_, reading_true hp⟩, rfl, by simp, by simp [Tainted, regsOf]⟩

section Rows

variable {r : ScalarRow} {more : List (Dest × BitVec 16)}

theorem ScalarPlan.plain (h : ScalarPlan i r s more) : (planOf i s).Plain := by
  obtain ⟨c, hp⟩ := h.plan
  rw [hp]
  exact Plan.Plain.reading ⟨rfl, rfl, rfl, rfl, rfl, rfl⟩ _

theorem ScalarPlan.check (h : ScalarPlan i r s more) : (planOf i s).check = loopDest s.me r.dest := by
  obtain ⟨c, hp⟩ := h.plan
  rw [hp]; rfl

theorem ScalarPlan.mem_reads (h : ScalarPlan i r s more) {q : Dest × BitVec 16} : q ∈ (planOf i s).reads ↔
    q ∈ rP r.guard.pred ∨ (∃ a ∈ r.srcs, a ≠ 0 ∧ q = (.s (s.me.phys a), 0xFFFF)) ∨ q ∈ more := by
  obtain ⟨c, hp⟩ := h.plan
  rw [hp]
  simp only [Plan.reading, List.mem_append, List.mem_flatMap, mem_rS]

/-- A scalar that is read is a source of the row. -/
theorem ScalarPlan.source_of_read (h : ScalarPlan i r s more) {e : Nat} {lanes : BitVec 16}
    (hq : (.s e, lanes) ∈ (planOf i s).reads) : ∃ a ∈ r.srcs, a ≠ 0 ∧ s.me.phys a = e := by
  rcases h.mem_reads.1 hq with hq | ⟨a, ha, h0, hq⟩ | hq
  · cases (mem_rP.1 hq).2
  · cases hq; exact ⟨a, ha, h0, rfl⟩
  · exact absurd rfl ((h.regs _ hq).2 e)

/-- It waits for nothing but its scalar sources. -/
theorem ScalarPlan.arrived (h : ScalarPlan i r s more) (ha : ∀ a ∈ r.srcs, a ≠ 0 → s.me.awaits (.s (s.me.phys a)) = false) :
    ∀ q ∈ (planOf i s).reads, s.me.awaits q.1 = false := by
  intro q hq
  rcases h.mem_reads.1 hq with hq | ⟨a, hm, h0, rfl⟩ | hq
  · rw [(mem_rP.1 hq).2]; simp
  · exact ha a hm h0
  · exact (h.regs q hq).1

/-- What holds poison among its sources. -/
theorem ScalarPlan.tainted (h : ScalarPlan i r s more)
    (ht : (∃ a ∈ r.srcs, a ≠ 0 ∧ s.me.sPoison.contains (s.me.phys a) = true) ∨ ¬ RegsReady i s ∨ ¬ PredReady s r.guard.pred) :
    Tainted s (planOf i s).reads := by
  rcases ht with ⟨a, ha, h0, hp⟩ | hregs | hpred
  · exact ⟨_, h.mem_reads.2 (.inr (.inl ⟨a, ha, h0, rfl⟩)), hp⟩
  · obtain ⟨q, hq, hp⟩ := h.taint.2 hregs
    exact ⟨q, h.mem_reads.2 (.inr (.inr hq)), hp⟩
  · obtain ⟨h0, hp⟩ := not_predReady.1 hpred
    exact ⟨_, h.mem_reads.2 (.inl (mem_rP.2 ⟨h0, rfl⟩)), hp⟩

end Rows

theorem loopDest_allowed {d : SReg} (h : LoopAllows s d) : loopDest s.me d = .ok := by
  rcases h with h | h | h
  · simp [loopDest, h]
  · have : ¬ 2 ≤ d.toNat := by omega
    simp [loopDest, this]
  · have : ¬ d.toNat ≤ 7 := by omega
    simp [loopDest, this]

theorem loopDest_forbidden {x : Ctx} {d : SReg} (h : x.loop.isSome = true) (h2 : 2 ≤ d.toNat) (h7 : d.toNat ≤ 7) :
    loopDest x d = .fault { code := 0x02 } := by
  simp [loopDest, h, h2, h7]

theorem scalarStops : Sys2Proof.Claim.ScalarStops := by
  intro i r s hr hp
  obtain ⟨more, h⟩ := exists_scalarPlan hr hp
  rw [h.runs]
  refine ⟨?_, ?_, ?_, ?_⟩
  · rintro ⟨q, hq, h0, haw⟩
    exact runPlan_waits (h.plain.freezes_awaits (h.mem_reads.2 (.inr (.inl ⟨q, hq, h0, rfl⟩))) haw)
  · intro hready hl h2 h7
    exact h.plain.faults_check (h.arrived fun a ha h0 => ((hready a ha).resolve_left h0).1)
      (h.check.trans (loopDest_forbidden hl h2 h7)) rfl
  · intro hq hl ht
    refine h.plain.faults_poison (h.arrived fun a ha _ => (hq a ha).1) (h.check.trans (loopDest_allowed hl))
      (h.plain.poisonCheck_tainted (fun e lanes hm => ?_) (h.tainted ht)) rfl
    obtain ⟨a, ha, -, rfl⟩ := h.source_of_read hm
    exact (hq a ha).2
  · rintro hq hl ⟨q, hm, h0, hload⟩
    obtain ⟨e, lanes, hread, he, hc⟩ := h.plain.poisonCheck_loaded (h.mem_reads.2 (.inr (.inl ⟨q, hm, h0, rfl⟩))) hload
    obtain ⟨a, ha, ha0, rfl⟩ := h.source_of_read hread
    exact ⟨a, ha, ha0, he, h.plain.faults_poison (h.arrived fun a ha _ => hq a ha) (h.check.trans (loopDest_allowed hl)) hc rfl⟩

/-- Settles O2: a false guard leaves a plan that only reads its predicate; the plan of a scalar operation is known by what it
reads, and where it stops by the first of its reads that holds it back. -/
theorem guardsAndStops : Obligations.GuardsAndStops := ⟨falseGuardNoEffect, scalarStops, poisonedGuardsStop⟩

end Sys2Proof.Machine
end

section
/-! Barriers, and the reading of system registers (R41, R158, R161 to R163). -/
namespace Sys2Proof.Machine

variable {s : State} {g : Guard} {f : Ctx → Plan} {i : Instr} {k : Nat}

/-! ### What the issue of an operation hands to its effect -/

/-- What every step of a fold leaves as it was, the fold does. -/
theorem foldl_leaves {σ α β : Type} (g : σ → β) (op : σ → α → σ) (h : ∀ t a, g (op t a) = g t) (as : List α) (s : σ) :
    g (as.foldl op s) = g s :=
  (List.foldl_hom g (g₂ := fun x _ => x) fun t a => (h t a).symm).symm.trans (List.foldl_fixed as)

/-- A guarded operation that performs commits in the state that its bundle's consumption leaves. -/
theorem PlanReady.commits_heard (h : PlanReady g s f) (hi : planOf i s = gplan g s f) (hc : (f s.me).check = .ok) :
    runPlan k (gplan g s f) s = .next ((f s.me).commit (heard i s)).finish := by
  have hp : (gplan g s f).pops = [] := by rw [gplan_true h.performs.1]; exact h.plain.pops
  have hr : (gplan g s f).reads = rP g.pred ++ (f s.me).reads := by rw [gplan_true h.performs.1]; rfl
  rw [h.commits hc, heard, hi, hp, popped_nil, hr]

/-- A plan of a guarded operation that has no sources of its own. -/
theorem planReady_noSources (hp : Performs g s) {c : Ctx → Check} {m : Ctx → State → State} :
    PlanReady g s fun x => { check := c x, commit := m x } :=
  ⟨hp, ⟨rfl, rfl, rfl, rfl, rfl, rfl⟩, by simp⟩

/-- A plan of a guarded operation that reads one scalar. -/
theorem planReady_scalar (hp : Performs g s) {a : SReg} (ha : ScalarReady s a) {c : Ctx → Check} {m : Ctx → State → State} :
    PlanReady g s fun x => { reads := rS x a, check := c x, commit := m x } :=
  ⟨hp, ⟨rfl, rfl, rfl, rfl, rfl, rfl⟩, sourceReady_scalar ha⟩

/-! ### Barriers (R41, R158) -/

theorem exec_bar (g : Guard) (sc : Scope) (s : State) : exec (.bar g sc) s = runPlan 5 (planBar g sc s) s := rfl

theorem scope_inner {sc : Scope} (hc : sc ≠ .ctx) (hy : sc ≠ .sys) : (sc == .ctx || sc == .sys) = false := by
  cases sc <;> trivial

theorem barrierArrives : Sys2Proof.Claim.BarrierArrives := by
  intro g sc s hp
  rw [exec_bar, planBar]
  refine ⟨fun hc hy hco => ?_, fun hc hy hco => ?_, fun hb => ?_⟩
  · exact (planReady_noSources hp).commits_noScalar (by simp) (by simp [scope_inner hc hy, hco])
  · exact (planReady_noSources hp).faults (by simp [scope_inner hc hy, hco]) rfl
  · exact (planReady_noSources hp).faults (by rcases hb with rfl | rfl <;> rfl) rfl

/-- The context that a member of a launch names. -/
def memberPlace (m : Nat × Nat) : CoreId × CtxId := (BitVec.ofNat 7 m.1, BitVec.ofNat 2 m.2)

/-- Changing some contexts, where a second change of one adds nothing. -/
theorem foldl_modCtx_ctx {f : Ctx → Ctx} (hf : ∀ x, f (f x) = f x) (ps : List (CoreId × CtxId)) (s : State)
    (p : CoreId × CtxId) : (ps.foldl (fun t p => t.modCtx p.1 p.2 f) s).ctx p.1 p.2 =
      if p ∈ ps then f (s.ctx p.1 p.2) else s.ctx p.1 p.2 := by
  induction ps generalizing s with
  | nil => rfl
  | cons a ps ih =>
    rw [List.foldl_cons, ih]
    by_cases ha : p = a
    · subst ha
      simp [hf]
    · simp [State.ctx_modCtx_ctx _ _ ha, ha]

theorem foldl_modCtx_mem (f : Ctx → Ctx) (ps : List (CoreId × CtxId)) (s : State) :
    (ps.foldl (fun t p => t.modCtx p.1 p.2 f) s).mem = s.mem :=
  foldl_leaves State.mem (fun t p => t.modCtx p.1 p.2 f) (fun _ _ => rfl) ps s

theorem foldl_modCtx_reqs (f : Ctx → Ctx) (ps : List (CoreId × CtxId)) (s : State) :
    (ps.foldl (fun t p => t.modCtx p.1 p.2 f) s).reqs = s.reqs :=
  foldl_leaves State.reqs (fun t p => t.modCtx p.1 p.2 f) (fun _ _ => rfl) ps s

/-- A member of a launch goes on if it waits at a barrier that completes. -/
def Ctx.barFreed (lid : Word) (sc : Scope) (n : Nat) (x : Ctx) : Ctx :=
  if x.launch == lid then if x.barWait == some (sc, n) then { x with barWait := none } else x else x

theorem barFreed_barFreed (lid : Word) (sc : Scope) (n : Nat) (x : Ctx) :
    (x.barFreed lid sc n).barFreed lid sc n = x.barFreed lid sc n := by
  unfold Ctx.barFreed
  split
  · split <;> simp_all
  · simp_all

theorem barFreed_waiting {lid : Word} {sc : Scope} {n : Nat} {x : Ctx} (hl : x.launch = lid) (hb : x.barWait = some (sc, n)) :
    (x.barFreed lid sc n).barWait = none := by
  simp [Ctx.barFreed, hl, hb]

/-- The completion of a barrier changes its members' contexts, and the records of those that are saved. -/
theorem barFree_eq (s : State) (lid : Word) (sc : Scope) (k : CoreId) (n : Nat) : ∃ vs, s.barFree lid sc k n =
    ((s.barMembers lid sc k).map memberPlace).foldl (fun t p => t.modCtx p.1 p.2 (Ctx.barFreed lid sc n))
      { s with saves := vs } := by
  refine ⟨s.saves.map fun v => if v.launch == lid && sameDomain sc k v.core then
    { v with snap := if v.snap.barWait == some (sc, n) then { v.snap with barWait := none } else v.snap } else v, ?_⟩
  rw [List.foldl_map]
  rfl

theorem barriersComplete : Sys2Proof.Claim.BarriersComplete := by
  intro s lid sc k n hi hco
  have hx : exec (.barrierComplete lid sc k) s =
      .next ((s.meetAt sc (s.barPlaces lid sc k)).barFree lid sc k n) := by
    change execBarrierComplete lid sc k s = _
    rw [execBarrierComplete, hi]
    simp only [enabledIf, hco, ↓reduceIte]
  obtain ⟨vs, hf⟩ := barFree_eq (s.meetAt sc (s.barPlaces lid sc k)) lid sc k n
  rw [hf] at hx
  refine ⟨_, hx, foldl_modCtx_mem _ _ _, foldl_modCtx_reqs _ _ _, fun m hm hl hb => ?_⟩
  have hctx := foldl_modCtx_ctx (barFreed_barFreed lid sc n) ((s.barMembers lid sc k).map memberPlace)
    { s.meetAt sc (s.barPlaces lid sc k) with saves := vs } (memberPlace m)
  rw [if_pos (List.mem_map_of_mem hm)] at hctx
  exact (congrArg Ctx.barWait hctx).trans (barFreed_waiting hl hb)

/-- Settles O12: arriving is the commit of a plan without sources, and completing changes each member's context as far as it
waits. -/
theorem barriersWait : Obligations.BarriersWait := ⟨barrierArrives, barriersComplete⟩

end Sys2Proof.Machine
end

section
/-! System registers (R64 to R66, R155, R161 to R163). -/
namespace Sys2Proof.Machine

variable {s : State} {g : Guard} {i : Instr}

/-! ### Words under a mask -/

/-- Bits [k+l-1:l] of a number, in their place. -/
theorem and_mask (n k l : Nat) : n &&& ((2 ^ k - 1) <<< l) = n % 2 ^ (k + l) / 2 ^ l * 2 ^ l := by
  rw [← Nat.shiftRight_eq_div_pow, ← Nat.shiftLeft_eq]
  refine Nat.eq_of_testBit_eq fun j => ?_
  simp only [Nat.testBit_and, Nat.testBit_shiftLeft, Nat.testBit_two_pow_sub_one, Nat.testBit_shiftRight,
    Nat.testBit_mod_two_pow]
  by_cases h : l ≤ j
  · rw [show l + (j - l) = j by omega]
    by_cases hk : j - l < k
    · simp [h, hk, show j < k + l by omega]
    · simp [hk, show ¬ j < k + l by omega]
  · simp [h]

/-- The bound of a WRSYS (R68). -/
theorem boundOf_eq (v : Dword) : boundOf v = BitVec.ofNat 64 (v.toNat % 2 ^ 23 / 64 * 64) := by
  refine BitVec.eq_of_toNat_eq ?_
  rw [boundOf, BitVec.toNat_and, show BitVec.toNat (0x7FFFC0 : Dword) = (2 ^ 17 - 1) <<< 6 from rfl, and_mask, BitVec.toNat_ofNat]
  omega

/-- The base of the backing store as a WRSYS writes it (R162). -/
theorem bsaMask_eq (v : Dword) : v &&& 0xFFFFFFFFFFFFF000 = BitVec.ofNat 64 (v.toNat / 4096 * 4096) := by
  refine BitVec.eq_of_toNat_eq ?_
  rw [BitVec.toNat_and, show BitVec.toNat (0xFFFFFFFFFFFFF000 : Dword) = (2 ^ 52 - 1) <<< 12 from rfl, and_mask, BitVec.toNat_ofNat]
  omega

/-! ### Reading (R40, R161 to R163) -/

theorem exec_rdsys (g : Guard) (d : SReg) (num : BitVec 4) (s : State) :
    exec (.rdsys g d num) s = runPlan 5 (planRdsys g d num s) s := rfl

theorem rdsys_reads {d : SReg} {num : BitVec 4} (hp : Performs g s) (hl : LoopAllows s d) (hn : num.toNat ≤ 14) :
    exec (.rdsys g d num) s =
      .next (s.result (.s (s.me.phys d)) ((sysReg s s.me num.toNat).setWidth 512) 1).finish := by
  rw [exec_rdsys, planRdsys]
  exact (planReady_noSources hp).commits_noScalar (by simp) (by simp [loopDest_allowed hl, Nat.not_lt.2 hn])

theorem rdsys_illegal {d : SReg} {num : BitVec 4} (hp : Performs g s) (hn : num.toNat = 15) :
    exec (.rdsys g d num) s = faultsAs s 5 { code := 0x02 } := by
  rw [exec_rdsys, planRdsys]
  exact (planReady_noSources hp).faults (by simp [hn]) rfl

/-- A word as a value of 512 bits. -/
theorem setWidth_line {w : Nat} (v : BitVec w) : v.setWidth 512 = BitVec.ofNat 512 v.toNat := (BitVec.ofNat_toNat 512 v).symm

/-- A word that a system register holds in its low bits. -/
theorem setWidth_dword_line {w : Nat} (v : BitVec w) (h : w ≤ 64) : (v.setWidth 64).setWidth 512 = BitVec.ofNat 512 v.toNat := by
  rw [BitVec.setWidth_setWidth (by omega), setWidth_line]

/-- FB and BOT share a register (R161). -/
theorem toNat_window (fb bot : Word) :
    (fb.setWidth 64 ||| (bot.setWidth 64 <<< 32) : Dword).toNat = fb.toNat + 2 ^ 32 * bot.toNat := by
  have hfb := fb.isLt
  have hbot := bot.isLt
  rw [BitVec.toNat_or, BitVec.toNat_shiftLeft, BitVec.toNat_setWidth_of_le (by omega), BitVec.toNat_setWidth_of_le (by omega),
    Nat.mod_eq_of_lt (by rw [Nat.shiftLeft_eq]; omega), Nat.or_comm, ← Nat.shiftLeft_add_eq_or_of_lt hfb, Nat.shiftLeft_eq]
  omega

theorem systemReads : Sys2Proof.Claim.SystemReads := by
  intro g d num s hp hl
  have value {n v : Nat} (h14 : n ≤ 14) (hv : (sysReg s s.me n).setWidth 512 = BitVec.ofNat 512 v) (hn : num.toNat = n) :
      exec (.rdsys g d num) s = .next (s.result (.s (s.me.phys d)) (BitVec.ofNat 512 v) 1).finish := by
    rw [rdsys_reads hp hl (by omega), hn, hv]
  refine ⟨value (by decide) (setWidth_line s.gcc), value (by decide) ?_,
    value (by decide) (setWidth_dword_line s.me.clmask (by decide)), value (by decide) ?_,
    value (by decide) (setWidth_dword_line s.me.arith (by decide)), value (by decide) (setWidth_dword_line s.me.fmts (by decide)),
    value (by decide) ?_, value (by decide) (setWidth_line s.me.bsa), value (by decide) (setWidth_dword_line s.here.pmb (by decide)),
    value (by decide) (setWidth_line s.me.splo), value (by decide) (setWidth_line s.me.sphi),
    value (by decide) (setWidth_dword_line s.me.trapinfo (by decide)), value (by decide) (setWidth_dword_line s.me.launch (by decide)),
    value (by decide) (setWidth_dword_line s.here.tenant (by decide)),
    value (by decide) (setWidth_dword_line s.here.runmax (by decide)), rdsys_illegal hp⟩
  · have hk := s.cur.1.isLt
    have hc := s.cur.2.isLt
    rw [setWidth_line, sysReg, BitVec.toNat_ofNat, Nat.mod_eq_of_lt (by omega)]
  · rw [setWidth_line, sysReg, domainOf, BitVec.natCast_eq_ofNat, Nat.mul_comm 32]
  · rw [setWidth_line, sysReg, toNat_window]

/-! ### Writing (R66, R68, R155, R162) -/

theorem exec_wrsys (g : Guard) (num : BitVec 4) (a : SReg) (s : State) :
    exec (.wrsys g num a) s = runPlan 5 (planWrsys g num a s) s := rfl

section Writing

variable {num : BitVec 4} {a : SReg}

/-- A write that its checks let pass. -/
theorem wrsys_writes (hp : Performs g s) (ha : ScalarReady s a) (hc : wrsysCheck s.me num.toNat (s.me.s a) = .ok) :
    exec (.wrsys g num a) s = .next (wrsysDo num.toNat (s.me.s a) (heard (.wrsys g num a) s)).finish := by
  rw [exec_wrsys, planWrsys]
  exact (planReady_scalar hp ha).commits_heard rfl hc

theorem wrsys_faults (hp : Performs g s) (ha : ScalarReady s a) {code : Byte}
    (hc : wrsysCheck s.me num.toNat (s.me.s a) = .fault { code := code }) (hh : (code == 0x04 || code == 0x07) = false) :
    exec (.wrsys g num a) s = faultsAs s 5 { code := code } := by
  rw [exec_wrsys, planWrsys]
  exact (planReady_scalar hp ha).faults hc hh

end Writing

/-- What a bundle's consumption leaves of the context and its core. -/
theorem heard_same (i : Instr) (s : State) : (heard i s).cur = s.cur ∧ { (heard i s).me with unread := s.me.unread } = s.me ∧
    { (heard i s).here with ctxs := [] } = { s.here with ctxs := [] } := by
  obtain ⟨hs, hk, -, hme, -⟩ := consumptionIsQuiet i s
  have hcur : (heard i s).cur = s.cur := (congrArg State.cur hs :)
  exact ⟨hcur, hme, by rw [State.here, hcur]; exact hk s.cur.1⟩

theorem heard_runId (i : Instr) (s : State) : (heard i s).me.runId = s.me.runId :=
  (congrArg Ctx.runId (heard_same i s).2.1 :)

theorem heard_cycle (i : Instr) (s : State) : (heard i s).here.cycle = s.here.cycle :=
  (congrArg Core.cycle (heard_same i s).2.2 :)

/-- Two changes of a core that agree on it. -/
theorem State.modHere_congr {f h : Core → Core} (e : f s.here = h s.here) : s.modHere f = s.modHere h :=
  congrArg (s.setCore s.cur.1) e

/-- A write of FLAGS after a bundle's consumption (R66). -/
theorem writeFlags_heard (v : Byte) (i : Instr) (s : State) : writeFlags v (heard i s) =
    ((heard i s).modMe fun x => { x with arith := v }).modHere fun y =>
      { y with mx := y.mx.map fun c =>
          if c.ctx = s.cur.2 ∧ c.runId = s.me.runId ∧ c.beaten = true ∧ c.next ≤ s.here.cycle then { c with flags := 0 }
          else c } := by
  refine State.modHere_congr ?_
  have hcyc : ((heard i s).modMe fun x => { x with arith := v }).here.cycle = s.here.cycle := by
    rw [State.here_modMe]; exact heard_cycle i s
  simp only [hcyc, heard_runId, (heard_same i s).1, Bool.and_eq_true, beq_iff_eq, decide_eq_true_eq, and_assoc]

theorem systemWrites : Sys2Proof.Claim.SystemWrites := by
  intro g num a s hp ha v bound i t
  have hb : boundOf v = bound := boundOf_eq v
  have writes {n : Nat} {u : State} (hn : num.toNat = n) (hc : wrsysCheck s.me n v = .ok) (hu : wrsysDo n v t = u) :
      exec i s = .next u.finish := by
    rw [wrsys_writes hp ha (by rw [hn]; exact hc), hn]; exact congrArg (fun u : State => Host.Outcome.next u.finish) hu
  have faults {n : Nat} {code : Byte} (hn : num.toNat = n) (hc : wrsysCheck s.me n v = .fault { code := code })
      (hh : (code == 0x04 || code == 0x07) = false) : exec i s = faultsAs s 5 { code := code } :=
    wrsys_faults hp ha (by rw [hn]; exact hc) hh
  refine ⟨fun hn => writes hn rfl (writeFlags_heard _ i s), fun hn => writes hn rfl rfl, fun hn h0 => writes hn ?_ ?_,
    fun hn h0 => faults hn ?_ rfl, fun hn hlo => writes hn ?_ ?_, fun hn hlo => faults hn ?_ rfl,
    fun hn hhi => writes hn ?_ ?_, fun hn hhi => faults hn ?_ rfl, fun hn => faults rfl ?_ rfl⟩
  · simp [wrsysCheck, h0]
  · simp only [wrsysDo, bsaMask_eq]
  · have : 0 < s.me.bot.toNat := Nat.pos_of_ne_zero fun h => h0 (BitVec.eq_of_toNat_eq h)
    simp [wrsysCheck, this]
  · simp [wrsysCheck, hb, Nat.not_lt.2 hlo]
  · simp only [wrsysDo, hb]
  · simp [wrsysCheck, hb, hlo]
  · simp [wrsysCheck, hb, Nat.not_lt.2 hhi]
  · simp only [wrsysDo, hb]
  · simp [wrsysCheck, hb, hhi]
  · simp only [List.mem_cons, List.not_mem_nil, or_false, not_or] at hn
    obtain ⟨h4, h5, h7, h9, h10⟩ := hn
    unfold wrsysCheck
    split
    iterate 5 contradiction
    rfl

/-- Settles O13: each register's value in its width, and each write by its check and its effect. -/
theorem systemRegisters : Obligations.SystemRegisters := ⟨systemReads, systemWrites⟩

end Sys2Proof.Machine
end

section
/-! The end of a run, and the current unit (R35, R153, R165, R166). -/
namespace Sys2Proof.Machine

variable {s : State} {g : Guard} {i : Instr}

/-! ### The end of a run (R165) -/

/-- What is left of a context whose run has ended. -/
def Ctx.ended (x : Ctx) : Ctx :=
  { x with
    run := .halted, ending := false, pend := [], sbs := [], unread := [], sPoison := [], ldsPoison := [], rPoison := []
    loop := none, barWait := none }

theorem releaseClusters_ctx (s : State) (k : CoreId) (c : CtxId) (j : CoreId) (d : CtxId) :
    (s.releaseClusters k c).ctx j d = s.ctx j d := by
  rcases eq_or_ne j k with rfl | hj
  · rw [State.ctx, State.releaseClusters, State.core_modCore]; rfl
  · rw [State.ctx, State.releaseClusters, State.core_modCore_ne _ _ hj]; rfl

theorem endRun_ctx (s : State) (k : CoreId) (c : CtxId) : (s.endRun k c).ctx k c = (s.ctx k c).ended := by
  change ((s.releaseClusters k c).modCtx k c Ctx.ended).ctx k c = _
  rw [State.ctx_modCtx, releaseClusters_ctx]

/-- The entries of a queue that a run leaves: those that have not landed, which will be dropped. -/
def leftEntries (es : List LaqEntry) : List LaqEntry := (es.filter fun e => !e.landed).map fun e => { e with dropped := true }

theorem leftEntries_dropped {es : List LaqEntry} {e : LaqEntry} (h : e ∈ leftEntries es) :
    e.dropped = true ∧ e.landed = false := by
  obtain ⟨e', he, rfl⟩ := List.mem_map.1 h
  exact ⟨rfl, by simpa using (List.mem_filter.1 he).2⟩

/-- The queues of some clusters after a run leaves them hold entries that will be dropped. -/
theorem foldl_leftEntries {own : List Nat} {laqs : List (Nat × List LaqEntry)} {cl : Nat} {e : LaqEntry} (hcl : cl ∈ own)
    (he : e ∈ aget (own.foldl (fun l cl => ains l cl (leftEntries (aget l cl []))) laqs) cl []) :
    e.dropped = true ∧ e.landed = false := by
  induction own using List.reverseRecOn with
  | nil => cases hcl
  | append_singleton own a ih =>
    rw [List.foldl_append, List.foldl_cons, List.foldl_nil] at he
    by_cases ha : cl = a
    · subst ha
      rw [aget_ains_same] at he
      exact leftEntries_dropped he
    · rw [aget_ains_ne _ _ _ ha] at he
      exact ih (by simpa [ha] using hcl) he

theorem endRun_laqs {k : CoreId} {c : CtxId} {cl : Nat} {e : LaqEntry} (hcl : (s.ctx k c).clmask.getLsbD cl = true)
    (he : e ∈ aget ((s.endRun k c).core k).laqs cl []) : e.dropped = true ∧ e.landed = false := by
  have hlt : cl < 8 := by
    by_contra h
    rw [BitVec.getLsbD_of_ge _ _ (Nat.not_lt.1 h)] at hcl
    cases hcl
  have hown : cl ∈ (s.ctx k c).clusters := List.mem_filter.2 ⟨List.mem_range.2 hlt, hcl⟩
  have hcore : ((s.endRun k c).core k).laqs =
      (s.ctx k c).clusters.foldl (fun l cl => ains l cl (leftEntries (aget l cl []))) (s.core k).laqs := by
    change (((s.releaseClusters k c).modCtx k c Ctx.ended).core k).laqs = _
    rw [State.core_modCtx, State.releaseClusters, State.core_modCore]
    rfl
  rw [hcore] at he
  exact foldl_leftEntries hown he

/-- A context past an operation: its place in program order, and its fences, forgotten when they order nothing more. -/
def Ctx.passed (quiet : Bool) (x : Ctx) : Ctx := { x with pos := x.pos + 1, fences := if quiet then [] else x.fences }

/-- Whether nothing of the issuing context is on its way to its home. -/
def State.quietHere (s : State) : Bool := !(s.reqs.any fun r => r.core == s.cur.1 && r.ctx == s.cur.2)

/-- What follows the commits of a bundle whose run goes on. -/
theorem finish_runs (h : s.me.ending = false) : s.finish = s.modMe (Ctx.passed s.quietHere) := by
  refine if_neg ?_
  change ¬ (s.modMe (Ctx.passed s.quietHere)).me.ending = true
  rw [State.me_modMe]
  simpa [Ctx.passed] using h

/-- What follows the commits of a bundle with a HALT. -/
theorem finish_ends (h : s.me.ending = true) :
    s.finish = (s.modMe (Ctx.passed s.quietHere)).endRun s.cur.1 s.cur.2 := by
  refine if_pos ?_
  change (s.modMe (Ctx.passed s.quietHere)).me.ending = true
  rw [State.me_modMe]
  exact h

theorem finish_cases (s : State) : s.finish = s.modMe (Ctx.passed s.quietHere) ∨
    s.finish = (s.modMe (Ctx.passed s.quietHere)).endRun s.cur.1 s.cur.2 := by
  cases h : s.me.ending
  · exact .inl (finish_runs h)
  · exact .inr (finish_ends h)

theorem finish_cur (s : State) : s.finish.cur = s.cur := by
  rcases finish_cases s with h | h <;> rw [h] <;> rfl

theorem finish_mem (s : State) : s.finish.mem = s.mem := by
  rcases finish_cases s with h | h <;> rw [h] <;> rfl

/-- The issuing context after its run has ended. -/
theorem finish_ends_me (h : s.me.ending = true) : s.finish.me = (s.me.passed s.quietHere).ended := by
  rw [State.me, finish_cur, finish_ends h, endRun_ctx]
  exact congrArg Ctx.ended (s.me_modMe _)

/-- Its queues then. -/
theorem finish_ends_laqs (h : s.me.ending = true) {cl : Nat} {e : LaqEntry} (hcl : s.me.clmask.getLsbD cl = true)
    (he : e ∈ aget s.finish.here.laqs cl []) : e.dropped = true ∧ e.landed = false := by
  rw [State.here, finish_cur, finish_ends h] at he
  refine endRun_laqs ?_ he
  rw [show (s.modMe (Ctx.passed s.quietHere)).ctx s.cur.1 s.cur.2 = _ from s.me_modMe _]
  exact hcl

theorem exec_halt (g : Guard) (s : State) : exec (.halt g) s = runPlan 5 (planHalt g s) s := rfl

theorem haltEndsRun : Sys2Proof.Claim.HaltEndsRun := by
  intro g s hp
  rw [exec_halt, planHalt]
  refine ⟨fun hl => ?_, fun hl => (planReady_noSources hp).faults (by simp [loopFree, hl]) rfl⟩
  have hend : (s.modMe fun y => { y with ending := true }).me.ending = true := by rw [State.me_modMe]
  rw [(planReady_noSources hp).commits_noScalar (by simp) (loopFree_none hl)]
  refine ⟨_, rfl, ?_, ?_, ?_, ?_, ?_, ?_, ?_, finish_mem _, fun cl e hcl he => finish_ends_laqs hend ?_ he⟩
  iterate 7 (· rw [finish_ends_me hend]; rfl)
  rw [State.me_modMe]
  exact hcl

/-! ### The current unit (R35, R166) -/

theorem unitCheck_named {w : Dword} (h : w.getLsbD 63 = true ∨ (w.setWidth 24).toNat < s.unitCount s.me.launch) :
    unitCheck s s.me w = .ok := by
  rcases h with h | h
  · rw [unitCheck, h]; rfl
  · rw [unitCheck, decide_eq_false (Nat.not_le.2 h), Bool.and_false]; rfl

theorem unitCheck_beyond {w : Dword} (h : w.getLsbD 63 = false) (hw : s.unitCount s.me.launch ≤ (w.setWidth 24).toNat) :
    unitCheck s s.me w = .fault { code := 0x02 } := by
  rw [unitCheck, h, decide_eq_true hw]; rfl

theorem exec_unit (g : Guard) (d : SReg) (k : WReg) (s : State) : exec (.unit g d k) s = runPlan 5 (planUnit g d k s) s := rfl

theorem exec_unitS (g : Guard) (a : SReg) (s : State) : exec (.unitS g a) s = runPlan 5 (planUnitS g a s) s := rfl

/-- A UNIT waits for its work register. -/
theorem unit_waits {d : SReg} {k : WReg} (hp : Performs g s) (h : s.me.awaitsW k.toNat = true) :
    exec (.unit g d k) s = .next s := by
  rw [exec_unit]
  refine runPlan_waits ?_
  rw [planUnit, gplan_true hp.1]
  simp [Plan.freezes, Plan.reading, h]

/-- A UNIT whose work register has landed names its unit, if there is such a one. -/
theorem unit_names {d : SReg} {k : WReg} (hp : Performs g s) (hw : s.me.awaitsW k.toNat = false)
    (hpo : s.me.rPoison.contains (keyW k.toNat) = false) (hl : LoopAllows s d) (hc : unitCheck s s.me (s.me.w k) = .ok) :
    exec (.unit g d k) s = .next (putS s.me d (s.me.w k) 1 (s.modMe fun y => { y with unit := unitOf (s.me.w k) })).finish := by
  rw [exec_unit, planUnit, gplan_true hp.1]
  have hpred : ∀ r ∈ rP g.pred, r.1 = .p g.pred.toNat ∧ s.srcPoisoned r = false := fun r hr =>
    ⟨by rw [(mem_rP.1 hr).2], (sourceReady_pred hp.2 r hr).clean⟩
  have hfreeze : ((rP g.pred).any fun r => s.me.awaits r.1) = false := List.any_eq_false.2 fun r hr => by
    rw [(hpred r hr).1]; simp
  have hclean : (rP g.pred).any s.srcPoisoned = false := List.any_eq_false.2 fun r hr => by simp [(hpred r hr).2]
  have hload : (rP g.pred).find? (fun r => match r.1 with | .s e => ahas s.me.ldsPoison e | _ => false) = none :=
    List.find?_eq_none.2 fun r hr => by rw [(hpred r hr).1]; simp
  rw [runPlan_commits (by simp [Plan.freezes, Plan.reading, hfreeze, hw]) rfl]
  · simp only [Plan.apply, Plan.reading, List.append_nil, popped_nil, consumeAll_noScalar (rP_noScalar g.pred)]
    rfl
  · have hpoi : (s.me.rPoison.contains (keyW k.toNat)) = false := hpo
    simp only [Plan.checks, Plan.reading, List.append_nil, hc, loopDest_allowed hl, Check.and_ok, Plan.popCheck,
      List.length_nil, List.range_zero, List.any_nil, faultIf_false, Plan.poisonCheck, Plan.poisonedPop,
      List.filterMap_nil, List.find?_nil, hclean, List.any_cons, hpoi, Bool.or_self, Bool.false_eq_true, if_false]
    split
    · rename_i e lanes hfind
      exact nomatch hload.symm.trans hfind
    · rfl

theorem unitNamed : Sys2Proof.Claim.UnitNamed := by
  refine fun g s hp => ⟨fun d k hw hpo hl hu => unit_names hp hw hpo hl (unitCheck_named hu), fun d k => unit_waits hp,
    fun a ha => ⟨fun hu => ?_, fun h63 hu => ?_⟩⟩
  · rw [exec_unitS, planUnitS]
    exact (planReady_scalar hp ha).commits_heard rfl (unitCheck_named hu)
  · rw [exec_unitS, planUnitS]
    exact (planReady_scalar hp ha).faults (unitCheck_beyond h63 hu) rfl

/-- Settles O15: what a run's end leaves of its context and its queues, and the checks and effects of naming a unit. -/
theorem runsAndUnits : Obligations.RunsAndUnits := ⟨haltEndsRun, unitNamed⟩

end Sys2Proof.Machine
end

section
/-! The tag table, and asking for the next unit (R33, R72, R73, R218, R219). -/
namespace Sys2Proof.Machine

variable {s : State} {g : Guard} {i : Instr}

/-! ### The bits of a tag entry (R72) -/

theorem extractLsb'_eq_iff {x y : Dword} {i j n : Nat} :
    x.extractLsb' i n = y.extractLsb' j n ↔ x.toNat / 2 ^ i % 2 ^ n = y.toNat / 2 ^ j % 2 ^ n := by
  rw [← BitVec.toNat_inj]
  simp [Nat.shiftRight_eq_div_pow]

theorem tagSet_eq (a : Dword) : tagSet a = a.toNat / 4096 % 512 := by
  simp [tagSet, Nat.shiftRight_eq_div_pow]

/-- Whether an entry holds an address's tag. -/
theorem tagHit_iff {e a : Dword} : (tagV e && e.extractLsb' 0 27 == a.extractLsb' 21 27) = true ↔
    e.getLsbD 27 = true ∧ e.toNat % 2 ^ 27 = a.toNat / 2 ^ 21 % 2 ^ 27 := by
  rw [Bool.and_eq_true, beq_iff_eq, extractLsb'_eq_iff, Nat.pow_zero, Nat.div_one]
  rfl

/-- The way that TLOOK reports. -/
def Core.hitWay (x : Core) (a : Dword) : Option Nat :=
  (List.range 8).find? fun w => tagV (x.tag (8 * tagSet a + w)) && (x.tag (8 * tagSet a + w)).extractLsb' 0 27 == a.extractLsb' 21 27

/-- The slot that TLOOK names for replacement. -/
def Core.victim (x : Core) (a : Dword) : Nat :=
  match (List.range 8).find? fun w => !tagV (x.tag (8 * tagSet a + w)) with
  | some w => 8 * tagSet a + w
  | none => 8 * tagSet a + (x.ptr (tagSet a)).toNat

theorem tlook_eq (x : Core) (a : Dword) : tlook x a = match x.hitWay a with
    | some w => BitVec.ofNat 64 (8 * tagSet a + w + x.victim a * 2 ^ 16 +
      ((x.tag (8 * tagSet a + w)).extractLsb' 32 16).toNat * 2 ^ 32)
    | none => BitVec.ofNat 64 (0xFFFF + x.victim a * 2 ^ 16) := rfl

theorem tagSet_lt (a : Dword) : tagSet a < 512 := by rw [tagSet_eq]; omega

theorem victim_lt (x : Core) (a : Dword) : x.victim a < 4096 := by
  have ha := tagSet_lt a
  unfold Core.victim
  split
  · rename_i w hw
    have := List.mem_range.1 (List.mem_of_find?_eq_some hw)
    omega
  · have := (x.ptr (tagSet a)).isLt
    omega

/-- TLOOK's word where a way holds the tag. -/
theorem tlook_hit {x : Core} {a : Dword} {w : Nat} (hw : w < 8) (h : x.hitWay a = some w) :
    (tlook x a).toNat % 2 ^ 16 = 8 * tagSet a + w ∧
      (tlook x a).toNat / 2 ^ 32 = (x.tag (8 * tagSet a + w)).toNat / 2 ^ 32 % 2 ^ 16 := by
  have ha := tagSet_lt a
  have hv := victim_lt x a
  have hd : ((x.tag (8 * tagSet a + w)).extractLsb' 32 16).toNat = (x.tag (8 * tagSet a + w)).toNat / 2 ^ 32 % 2 ^ 16 := by
    simp [Nat.shiftRight_eq_div_pow]
  rw [tlook_eq, h]
  simp only [BitVec.toNat_ofNat, hd]
  omega

theorem tlook_miss {x : Core} {a : Dword} (h : x.hitWay a = none) : (tlook x a).toNat % 2 ^ 16 = 0xFFFF := by
  have hv := victim_lt x a
  rw [tlook_eq, h]
  simp only [BitVec.toNat_ofNat]
  omega

/-- The entry that TSET writes. -/
def tagEntry (a : Dword) (data : BitVec 16) : Dword :=
  (a.extractLsb' 21 27).setWidth 64 ||| (1#64 <<< 27) ||| (data.setWidth 64 <<< 32)

theorem tagEntry_eq (a : Dword) (data : BitVec 16) :
    tagEntry a data = BitVec.ofNat 64 (a.toNat / 2 ^ 21 % 2 ^ 27 + 2 ^ 27 + data.toNat * 2 ^ 32) := by
  refine BitVec.eq_of_toNat_eq ?_
  have htag : ((a.extractLsb' 21 27).setWidth 64).toNat = a.toNat / 2 ^ 21 % 2 ^ 27 := by
    rw [BitVec.toNat_setWidth, BitVec.extractLsb'_toNat, Nat.shiftRight_eq_div_pow]; omega
  have hdata : (data.setWidth 64 <<< 32).toNat = data.toNat * 2 ^ 32 := by
    rw [BitVec.toNat_shiftLeft, BitVec.toNat_setWidth, Nat.shiftLeft_eq]
    have := data.isLt
    omega
  have hvalid : (1#64 <<< 27).toNat = 2 ^ 27 := by decide
  have hlow : a.toNat / 2 ^ 21 % 2 ^ 27 ||| 2 ^ 27 = a.toNat / 2 ^ 21 % 2 ^ 27 + 2 ^ 27 := by
    have := Nat.two_pow_add_eq_or_of_lt (Nat.mod_lt (a.toNat / 2 ^ 21) (Nat.two_pow_pos 27)) 1
    rw [Nat.mul_one] at this
    rw [Nat.or_comm, ← this, Nat.add_comm]
  have hhigh : (a.toNat / 2 ^ 21 % 2 ^ 27 + 2 ^ 27) ||| data.toNat * 2 ^ 32 =
      a.toNat / 2 ^ 21 % 2 ^ 27 + 2 ^ 27 + data.toNat * 2 ^ 32 := by
    have := Nat.two_pow_add_eq_or_of_lt (i := 32) (b := a.toNat / 2 ^ 21 % 2 ^ 27 + 2 ^ 27) (by omega) data.toNat
    rw [Nat.or_comm, Nat.mul_comm, ← this, Nat.add_comm]
  rw [tagEntry, BitVec.toNat_or, BitVec.toNat_or, htag, hvalid, hdata, hlow, hhigh, BitVec.toNat_ofNat]
  have := data.isLt
  omega

/-! ### The table's operations -/

theorem exec_tlook (g : Guard) (d : SReg) (a : AReg) (s : State) : exec (.tlook g d a) s = runPlan 2 (planTlook g d a s) s := rfl

theorem exec_tset (g : Guard) (a : AReg) (b : SReg) (way : BitVec 3) (s : State) :
    exec (.tset g a b way) s = runPlan 2 (planTset g a b way s) s := rfl

theorem exec_tclr (g : Guard) (a : SReg) (s : State) : exec (.tclr g a) s = runPlan 2 (planTclr g a s) s := rfl

/-- The ways that hold an address's tag, in the words of the table. -/
theorem hitWay_some {x : Core} {a : Dword} {w : Nat} (hw : w < 8)
    (h : (x.tag (8 * tagSet a + w)).getLsbD 27 = true ∧ (x.tag (8 * tagSet a + w)).toNat % 2 ^ 27 = a.toNat / 2 ^ 21 % 2 ^ 27)
    (first : ∀ w', w' < w → ¬ ((x.tag (8 * tagSet a + w')).getLsbD 27 = true ∧
      (x.tag (8 * tagSet a + w')).toNat % 2 ^ 27 = a.toNat / 2 ^ 21 % 2 ^ 27)) : x.hitWay a = some w := by
  refine List.find?_range_eq_some.2 ⟨tagHit_iff.2 h, List.mem_range.2 hw, fun w' hlt => ?_⟩
  rw [Bool.not_eq_true', Bool.eq_false_iff]
  exact fun hh => first w' hlt (tagHit_iff.1 hh)

theorem hitWay_none {x : Core} {a : Dword} (h : ∀ w, w < 8 → ¬ ((x.tag (8 * tagSet a + w)).getLsbD 27 = true ∧
      (x.tag (8 * tagSet a + w)).toNat % 2 ^ 27 = a.toNat / 2 ^ 21 % 2 ^ 27)) : x.hitWay a = none :=
  List.find?_eq_none.2 fun w hw hh => h w (List.mem_range.1 hw) (tagHit_iff.1 hh)

theorem tlookPoison_clean {x : Core} {a : Dword} (h : x.tagPoison = []) : tlookPoison x a = 0 := by
  simp [tlookPoison, h]

theorem heard_tags (i : Instr) (s : State) : (heard i s).here.tags = s.here.tags :=
  (congrArg Core.tags (heard_same i s).2.2 :)

theorem heard_ending (i : Instr) (s : State) : (heard i s).me.ending = s.me.ending :=
  (congrArg Ctx.ending (heard_same i s).2.1 :)

theorem heard_scal (i : Instr) (s : State) : (heard i s).me.scal = s.me.scal :=
  (congrArg Ctx.scal (heard_same i s).2.1 :)

theorem heard_mem (i : Instr) (s : State) : (heard i s).mem = s.mem :=
  (congrArg State.mem (consumptionIsQuiet i s).1 :)

theorem exec_nxu (g : Guard) (s : State) : exec (.nxu g) s = runPlan 2 (planNxu g s) s := rfl

theorem tlook_result {d : SReg} {a : AReg} (hp : Performs g s) (ha : AddrReady s a) (hl : LoopAllows s d) :
    exec (.tlook g d a) s = .next (s.result (.s (s.me.phys d)) ((tlook s.here (s.me.a a)).setWidth 512) 2 0xFFFF
      (tlookPoison s.here (s.me.a a))).finish := by
  have ready : PlanReady g s fun x =>
      { reads := rA a
        check := loopDest x d
        commit := fun t =>
          t.result (.s (x.phys d)) ((tlook t.here (x.a a)).setWidth 512) 2 0xFFFF (tlookPoison t.here (x.a a)) } :=
    ⟨hp, ⟨rfl, rfl, rfl, rfl, rfl, rfl⟩, sourceReady_addr ha⟩
  rw [exec_tlook, planTlook]
  exact ready.commits_noScalar (rA_noScalar a) (loopDest_allowed hl)

theorem tset_writes {a : AReg} {b : SReg} {way : BitVec 3} (hp : Performs g s) (ha : AddrReady s a) (hb : ScalarReady s b) :
    exec (.tset g a b way) s = .next ((heard (.tset g a b way) s).modHere fun y =>
      tset y (s.me.a a) ((s.me.s b).setWidth 16) way).finish := by
  have ready : PlanReady g s fun x =>
      { reads := rA a ++ rS x b
        commit := fun t => t.modHere fun y => tset y (x.a a) ((x.s b).setWidth 16) way } :=
    ⟨hp, ⟨rfl, rfl, rfl, rfl, rfl, rfl⟩, fun r hr =>
      (List.mem_append.1 hr).elim (sourceReady_addr ha r) (sourceReady_scalar hb r)⟩
  rw [exec_tset, planTset]
  exact ready.commits_heard rfl rfl

/-- A change of the core that leaves its contexts leaves the issuing one. -/
theorem State.me_modHere {f : Core → Core} (h : (f s.here).ctxs = s.here.ctxs) : (s.modHere f).me = s.me := by
  rw [State.me, State.ctx, State.modHere_cur]
  change (s.modHere f).here.ctx _ = _
  rw [State.here_modHere, Core.ctx, h]
  rfl

/-- The state in which an operation that changes the tag table commits, and the table then. -/
theorem finish_modHere {t : State} {f : Core → Core} (hf : ∀ x, (f x).ctxs = x.ctxs) (he : t.me.ending = false) :
    (t.modHere f).finish.here.tags = (f t.here).tags ∧ (t.modHere f).finish.here.ptrs = (f t.here).ptrs ∧
      (t.modHere f).finish.me.scal = t.me.scal := by
  have hme : (t.modHere f).me = t.me := State.me_modHere (hf _)
  have he' : (t.modHere f).me.ending = false := by rw [hme]; exact he
  rw [finish_runs he', State.here_modMe, State.here_modHere, State.me_modMe, hme]
  exact ⟨rfl, rfl, rfl⟩

theorem tclr_clears {a : SReg} (hp : Performs g s) (ha : ScalarReady s a) (hlt : (s.me.s a).toNat < 4096) :
    exec (.tclr g a) s = .next ((heard (.tclr g a) s).modHere fun y => tclr y (s.me.s a).toNat).finish := by
  rw [exec_tclr, planTclr]
  exact (planReady_scalar hp ha).commits_heard rfl (by rw [decide_eq_false (Nat.not_le.2 hlt)]; rfl)

theorem tagTable : Sys2Proof.Claim.TagTable := by
  intro g s hp slot hit
  have hslot (a : AReg) (w : Nat) : 8 * tagSet (s.me.a a) + w = slot a w := by rw [tagSet_eq]
  refine ⟨fun d a ha hl => ⟨_, _, tlook_result hp ha hl, tlookPoison_clean, fun w hw h first => ?_, fun h => ?_⟩,
    fun a b way ha hb he => ⟨_, tset_writes hp ha hb, ?_⟩,
    fun a ha => ⟨fun hlt he => ⟨_, tclr_clears hp ha hlt, ?_⟩, fun hge => ?_⟩⟩
  · have hway : s.here.hitWay (s.me.a a) = some w := hitWay_some hw (by rw [hslot]; exact h) (by
      intro w' hlt; rw [hslot]; exact first w' hlt)
    rw [← hslot]
    exact tlook_hit hw hway
  · exact tlook_miss (hitWay_none (by intro w hw; rw [hslot]; exact h w hw))
  · obtain ⟨htags, hptrs, hscal⟩ := finish_modHere (f := fun y => tset y (s.me.a a) ((s.me.s b).setWidth 16) way)
      (fun _ => rfl) ((heard_ending (.tset g a b way) s).trans he)
    rw [htags, hptrs, hscal, heard_scal, finish_mem, ← tagSet_eq]
    refine ⟨?_, aget_ains_same _ _ _ _, fun k hk => ?_, heard_mem _ s, rfl⟩
    · rw [← hslot]
      refine (aget_ains_same _ _ _ _).trans ((tagEntry_eq _ _).trans ?_)
      rw [BitVec.toNat_setWidth]
    · rw [← hslot] at hk
      exact (aget_ains_ne _ _ _ hk).trans (by rw [heard_tags])
  · obtain ⟨htags, -, -⟩ := finish_modHere (f := fun y => tclr y (s.me.s a).toNat)
      (fun _ => rfl) ((heard_ending (.tclr g a) s).trans he)
    rw [htags, finish_mem]
    refine ⟨?_, fun k hk => (aget_ains_ne _ _ _ hk).trans (by rw [heard_tags]), heard_mem _ s⟩
    refine (congrArg (BitVec.getLsbD · 27) (aget_ains_same _ _ _ _)).trans ?_
    simp
  · rw [exec_tclr, planTclr]
    exact (planReady_scalar hp ha).faults (by rw [decide_eq_true hge]; rfl) rfl

/-! ### The next unit (R33, R219) -/

/-- What NXU asks of its scheduler. -/
def askNxu (w : Nat) (t : State) : State :=
  ({ t.fresh.2.awaitSb t.nextId (.w (BitVec.ofNat 2 w)) (some (t.here.cycle + 12)) with
      nxus := t.nxus ++ [⟨t.me.launch, t.cur.1, t.cur.2, t.me.runId, t.nextId⟩] } : State).modMe
    fun y => { y with nxuCount := y.nxuCount + 1 }

theorem askNxu_me (w : Nat) (t : State) : (askNxu w t).me = { t.me with
    nxuCount := t.me.nxuCount + 1
    sbs := t.me.sbs ++ [⟨t.nextId, .w (BitVec.ofNat 2 w), some (t.here.cycle + 12), false, 0, 0, 0, false, 0⟩] } := by
  refine (State.me_modMe _ _).trans ?_
  change (fun y : Ctx => { y with nxuCount := y.nxuCount + 1 })
    (t.fresh.2.awaitSb t.nextId (.w (BitVec.ofNat 2 w)) (some (t.here.cycle + 12))).me = _
  rw [State.awaitSb, State.me_modMe]
  rfl

theorem nxu_ready (hp : Performs g s) (hw : s.me.awaitsW (s.me.nxuCount % 4) = false) {c : Ctx → Check}
    {m : Ctx → State → State} :
    PlanReady g s fun x => { frozen := x.awaitsW (x.nxuCount % 4), check := c x, commit := m x } :=
  ⟨hp, ⟨rfl, rfl, hw, rfl, rfl, rfl⟩, by simp⟩

theorem nextUnitAsked : Sys2Proof.Claim.NextUnitAsked := by
  intro g s hp hw
  rw [exec_nxu, planNxu]
  refine ⟨fun hpe he => ⟨_, (nxu_ready hp hw).commits_noScalar (by simp) (by rw [hpe]; rfl), ?_⟩,
    fun hpe => (nxu_ready hp hw).faults (by rw [hpe]; rfl) rfl⟩
  have hme := askNxu_me (s.me.nxuCount % 4) s
  have hend : (askNxu (s.me.nxuCount % 4) s).me.ending = false := by rw [hme]; exact he
  have hfin : (askNxu (s.me.nxuCount % 4) s).finish.me = (askNxu (s.me.nxuCount % 4) s).me.passed (askNxu (s.me.nxuCount % 4) s).quietHere := by
    rw [finish_runs hend, State.me_modMe]
  rw [hme] at hfin
  refine ⟨?_, ?_, (congrArg Ctx.nxuCount hfin :), (congrArg Ctx.sbs hfin :), finish_mem _, (congrArg Ctx.scal hfin :),
    (congrArg Ctx.works hfin :)⟩
  · exact (congrArg State.nxus (finish_runs hend) :)
  · exact (congrArg State.nextId (finish_runs hend) :)

/-- Settles O24: the tag table as numbers, and NXU's request with its awaited work register. -/
theorem tagsAndUnits : Obligations.TagsAndUnits := ⟨tagTable, nextUnitAsked⟩

end Sys2Proof.Machine
end

section
/-! The copy operations queue their commands (R30, R85, R221). -/
namespace Sys2Proof.Machine

variable {s : State} {g : Guard} {i : Instr} {p : CpyArgs} {kind : CopyKind}

/-! ### What an operation that issues commits in -/

/-- An issuing operation that takes nothing from a queue and writes nothing local commits in the state that its bundle's
consumption leaves. -/
theorem issues_commits (hi : IsOperation i) (h : Issues i s) (hp : (planOf i s).pops = []) (hst : (planOf i s).stores = []) :
    exec i s = .next ((planOf i s).commit (heard i s)).finish := by
  rw [operationsComplete i s hi h, Plan.apply, hst, hp, heard, hp]
  rfl

/-! ### The command of a copy operation -/

/-- The command that a copy operation makes. -/
def copyCommand (x : Ctx) (p : CpyArgs) (kind : CopyKind) (t : State) : CopyCmd :=
  ⟨t.nextId, t.cur.2, x.runId, x.launch, kind, x.n p.nest, x.a p.src, x.a p.dst, if p.done.v then some p.done.f else none,
    p.cls, x.xafter, x.pos, x.xfence, x.unit, x.excl⟩

/-- Queueing a command on its channel. -/
def queueCopy (p : CpyArgs) (cmd : CopyCmd) (t : State) : State :=
  t.fresh.2.modChan t.cur.1 p.ch fun c => { c with queue := c.queue ++ [cmd] }

/-- A copy operation that performs only queues its command. -/
theorem copy_commits (hr : copyRow s.me i = some (g, p, kind)) (hp : performs g s.me = true) :
    IsOperation i ∧ (planOf i s).pops = [] ∧ (planOf i s).stores = [] ∧
      ∀ t, (planOf i s).commit t = queueCopy p (copyCommand s.me p kind t) t := by
  have perform {p : Plan} {q : List (Dest × BitVec 16)} : (if performs g s.me then p else {}).reading q = p.reading q :=
    reading_true hp
  cases i <;> cases hr <;> exact ⟨rfl, congrArg Plan.pops perform, congrArg Plan.stores perform, fun t => congrArg (Plan.commit · t) perform⟩

theorem chan_set (x : Core) (ch ch' : Chan) (c : CopyChan) :
    ({ x with chans := ains x.chans ch.toNat c } : Core).chan ch' = if ch' = ch then c else x.chan ch' := by
  rw [Core.chan, aget_ains]
  simp [BitVec.toNat_inj, Core.chan]

/-- The channels of the issuing context's core once a command is queued. -/
theorem queueCopy_chan (p : CpyArgs) (cmd : CopyCmd) (t : State) (ch : Chan) : (queueCopy p cmd t).here.chan ch =
    if ch = p.ch then { t.here.chan p.ch with queue := (t.here.chan p.ch).queue ++ [cmd] } else t.here.chan ch := by
  have h : (queueCopy p cmd t).here = { t.here with
      chans := ains t.here.chans p.ch.toNat { t.here.chan p.ch with queue := (t.here.chan p.ch).queue ++ [cmd] } } :=
    State.core_modCore _ _ _
  rw [h]
  exact chan_set _ _ _ _

theorem queueCopy_me (p : CpyArgs) (cmd : CopyCmd) (t : State) : (queueCopy p cmd t).me = t.me :=
  State.me_modHere (s := t.fresh.2) rfl

theorem finish_chan {t : State} (h : t.me.ending = false) (ch : Chan) : t.finish.here.chan ch = t.here.chan ch := by
  rw [finish_runs h, State.here_modMe]
  rfl

theorem heard_chans (i : Instr) (s : State) : (heard i s).here.chans = s.here.chans :=
  (congrArg Core.chans (heard_same i s).2.2 :)

theorem heard_chan (i : Instr) (s : State) (ch : Chan) : (heard i s).here.chan ch = s.here.chan ch :=
  congrArg (fun l => aget l ch.toNat ({} : CopyChan)) (heard_chans i s)

theorem copyCommandsQueue : Sys2Proof.Claim.CopyCommandsQueue := by
  intro i g p kind s hr hp hi he
  obtain ⟨hop, hpops, hstores, hcommit⟩ := copy_commits hr hp
  obtain ⟨hcur, hme, -⟩ := heard_same i s
  have hend : (queueCopy p (copyCommand s.me p kind (heard i s)) (heard i s)).me.ending = false := by
    rw [queueCopy_me, heard_ending]; exact he
  have hfin : (queueCopy p (copyCommand s.me p kind (heard i s)) (heard i s)).finish.me =
      (heard i s).me.passed (queueCopy p (copyCommand s.me p kind (heard i s)) (heard i s)).quietHere := by
    rw [finish_runs hend, State.me_modMe, queueCopy_me]
  refine ⟨_, copyCommand s.me p kind (heard i s), (issues_commits hop hi hpops hstores).trans (by rw [hcommit]), ?_, ?_, rfl,
    ?_, rfl, rfl, rfl, rfl, hcur ▸ rfl, rfl, rfl, rfl, rfl, fun ch hch => ?_, ?_, ?_, ?_, ?_⟩
  · rw [finish_chan hend, queueCopy_chan, if_pos rfl, heard_chan]
  · rw [finish_chan hend, queueCopy_chan, if_pos rfl, heard_chan]
  · exact (congrArg State.nextId (consumptionIsQuiet i s).1 :)
  · rw [finish_chan hend, queueCopy_chan, if_neg hch, heard_chan]
  · rw [finish_mem]; exact heard_mem i s
  · exact (congrArg Ctx.scal hfin :).trans (heard_scal i s)
  · exact (congrArg Ctx.flags hfin :).trans (congrArg Ctx.flags hme :)
  · exact (congrArg Ctx.pend hfin :).trans (congrArg Ctx.pend hme :)

/-! ### The channel's limits (R30, R85) -/

theorem exec_cpy (g : Guard) (p : CpyArgs) (s : State) : exec (.cpy g p) s = runPlan 4 (planCpy g p s) s := rfl

@[simp] theorem Ctx.awaits_nest (x : Ctx) (r : Nat) : x.awaits (.n r) = false := by
  unfold Ctx.awaits
  simp

/-- A copy that its channel refuses takes the fault before anything is read. -/
theorem cpy_refused {f : FaultInfo} (hp : performs g s.me = true) (hh : (f.code == 0x04 || f.code == 0x07) = false)
    (hc : (illegalIf (!s.me.holds s.cur.2 p.ch || nestReserved (s.me.n p.nest) ||
        (nestBulk (s.me.n p.nest) && (nestSloc (s.me.n p.nest) || nestDloc (s.me.n p.nest))))).and
      (faultIf (16 ≤ (s.here.chan p.ch).queue.length) 0x0A 0 2) = .fault f) :
    exec (.cpy g p) s = faultsAs s 4 f := by
  rw [exec_cpy, planCpy, planCopy, gplan_true hp]
  refine (Plan.Plain.reading ⟨rfl, rfl, rfl, rfl, rfl, rfl⟩ _).faults_check ?_ ?_ hh
  · intro r hr
    rcases List.mem_append.1 hr with hr | hr
    · rw [(mem_rP.1 hr).2, Ctx.awaits_pred]
    · simp only [rN, rA, List.cons_append, List.nil_append, List.append_nil, List.mem_cons, List.not_mem_nil, or_false] at hr
      rcases hr with rfl | rfl | rfl
      · exact Ctx.awaits_nest _ _
      · exact Ctx.awaits_addr _ _
      · exact Ctx.awaits_addr _ _
  · change ((((illegalIf (_ || false)).and _).and _).and _).and _ = _
    rw [Bool.or_false, hc]
    rfl

theorem copyQueueLimit : Sys2Proof.Claim.CopyQueueLimit := by
  intro g p s hp n
  refine ⟨fun hh => cpy_refused hp rfl ?_, fun hh hres hbulk hq => cpy_refused hp rfl ?_⟩
  · rw [hh]; rfl
  · rw [hh, hres, hbulk, decide_eq_true hq]; rfl

/-- Settles O26: the queued command, field by field, and the two refusals of a channel. -/
theorem copyCommands : Obligations.CopyCommands := ⟨copyCommandsQueue, copyQueueLimit⟩

end Sys2Proof.Machine
end

section
/-! The operations that write lane masks (R30, R173, R176, R181). -/
namespace Sys2Proof.Machine

variable {s : State} {i : Instr} {en : BitVec 16} {f : Nat → Word × Byte}

/-! ### Lane by lane (R65, R167) -/

theorem foldl_or_getLsbD (fs : List Byte) (a : Byte) (b : Nat) : (fs.foldl (fun a b => a ||| b) a).getLsbD b = true ↔
    a.getLsbD b = true ∨ ∃ x ∈ fs, x.getLsbD b = true := by
  induction fs generalizing a with
  | nil => simp
  | cons x fs ih =>
    rw [List.foldl_cons, ih, BitVec.getLsbD_or, Bool.or_eq_true, List.exists_mem_cons_iff, or_assoc]

theorem orAll_getLsbD (fs : List Byte) (b : Nat) : (orAll fs).getLsbD b = true ↔ ∃ x ∈ fs, x.getLsbD b = true := by
  rw [orAll, foldl_or_getLsbD]
  simp

theorem laneResults_lane (en : BitVec 16) (f : Nat → Word × Byte) {l : Nat} (hl : l < 16) :
    lane (laneResults en f).1 l = if en.getLsbD l then (f l).1 else 0 := by
  simp only [laneResults]
  rw [lane_mkLine _ hl, List.getD_eq_getElem?_getD, List.getElem?_map, List.getElem?_range hl, Option.map_some,
    Option.getD_some]
  exact apply_ite Prod.fst _ _ _

theorem laneResults_flags (en : BitVec 16) (f : Nat → Word × Byte) (b : Nat) : (laneResults en f).2.getLsbD b = true ↔
    ∃ l, l < 16 ∧ en.getLsbD l = true ∧ (f l).2.getLsbD b = true := by
  refine (orAll_getLsbD _ b).trans ⟨fun ⟨x, hx, hb⟩ => ?_, fun ⟨l, hl, he, hb⟩ => ?_⟩
  · obtain ⟨_, hr, rfl⟩ := List.mem_map.1 hx
    obtain ⟨l, hl, rfl⟩ := List.mem_map.1 hr
    split at hb
    · rename_i he
      exact ⟨l, List.mem_range.1 hl, he, hb⟩
    · simp at hb
  · refine ⟨_, List.mem_map_of_mem (List.mem_map_of_mem (List.mem_range.2 hl)), ?_⟩
    rw [if_pos he]
    exact hb

/-! ### A mask from its bits -/

/-- The number whose bit i, below n, is b i. -/
def bitsBelow (b : Nat → Bool) (n : Nat) : Nat := (List.range n).foldl (fun a i => a + (b i).toNat * 2 ^ i) 0

theorem bitsBelow_succ (b : Nat → Bool) (n : Nat) : bitsBelow b (n + 1) = 2 ^ n * (b n).toNat + bitsBelow b n := by
  rw [bitsBelow, List.range_succ, List.foldl_append, ← bitsBelow]
  simp [Nat.add_comm, Nat.mul_comm]

theorem bitsBelow_lt (b : Nat → Bool) (n : Nat) : bitsBelow b n < 2 ^ n := by
  induction n with
  | zero => exact Nat.one_pos
  | succ n ih =>
    rw [bitsBelow_succ, Nat.pow_succ]
    have : 2 ^ n * (b n).toNat ≤ 2 ^ n * 1 := Nat.mul_le_mul_left _ (Bool.toNat_le _)
    omega

theorem testBit_bitsBelow (b : Nat → Bool) {n l : Nat} (h : l < n) : (bitsBelow b n).testBit l = b l := by
  induction n with
  | zero => omega
  | succ n ih =>
    rw [bitsBelow_succ, Nat.testBit_two_pow_mul_add _ (bitsBelow_lt b n)]
    split
    · exact ih ‹_›
    · obtain rfl : l = n := by omega
      cases b l <;> simp

/-- The mask that a compare's lanes make. -/
def maskOfLanes (x : Line) : BitVec 16 := BitVec.ofNat 16 ((List.range 16).foldl (fun a i => a + (lane x i).toNat * 2 ^ i) 0)

theorem maskOfLanes_bit {x : Line} {b : Nat → Bool} (hx : ∀ l, l < 16 → lane x l = (BitVec.ofBool (b l)).setWidth 32) {l : Nat}
    (hl : l < 16) : (maskOfLanes x).getLsbD l = b l := by
  have h : (List.range 16).foldl (fun a i => a + (lane x i).toNat * 2 ^ i) 0 = bitsBelow b 16 := by
    refine List.foldl_ext _ _ _ fun a i hi => ?_
    rw [hx i (List.mem_range.1 hi)]
    cases b i <;> rfl
  rw [maskOfLanes, h, BitVec.getLsbD_ofNat, decide_eq_true hl, Bool.true_and, testBit_bitsBelow b hl]

/-! ### The compares (R173, R176) -/

/-- A compare runs the plan of its row. -/
theorem planOf_maskRow {r : MaskRow} (hr : maskRow i = some r) :
    IsOperation i ∧ planOf i s = planMask r.head r.dest r.srcs r.lat r.val s := by
  cases i <;> cases hr
  · refine ⟨rfl, ?_⟩
    change planFcmp _ _ _ _ _ _ s = _
    rw [planFcmp]
    simp only [List.all_map, List.map_map]
    rfl
  · exact ⟨rfl, rfl⟩
  · exact ⟨rfl, rfl⟩

/-- An issuing operation that writes nothing local commits in the state that its bundle's consumption and its pops leave. -/
theorem issues_commits_popped (hi : IsOperation i) (h : Issues i s) {q : List Cl} (hq : (planOf i s).pops = q)
    (hst : (planOf i s).stores = []) :
    exec i s = .next ((planOf i s).commit ((heard i s).popAll q)).finish := by
  rw [operationsComplete i s hi h, Plan.apply, hst, heard, hq]
  rfl

theorem compareMasks : Sys2Proof.Claim.CompareMasks := by
  intro i r s hr hi en got
  obtain ⟨hop, hplan⟩ := planOf_maskRow (s := s) hr
  have hcommit := issues_commits_popped hop hi (q := srcPops r.head.cl r.srcs) (by rw [hplan]; rfl) (by rw [hplan]; rfl)
  rw [hplan] at hcommit
  refine ⟨_, _, hcommit, fun l hl he => ?_, laneResults_flags en _⟩
  have hlane : ∀ l, l < 16 → lane (laneResults en fun l => ((BitVec.ofBool (got l).1).setWidth 32, (got l).2)).1 l =
      (BitVec.ofBool (en.getLsbD l && (got l).1)).setWidth 32 := fun l hl => by
    rw [laneResults_lane _ _ hl]
    cases en.getLsbD l <;> rfl
  rw [BitVec.getLsbD_setWidth, decide_eq_true (by omega : l < 512), Bool.true_and]
  refine (maskOfLanes_bit hlane hl).trans ?_
  rw [he, Bool.true_and]

/-! ### The mask operations (R30, R181) -/

/-- What the plan of a mask operation holds. -/
structure MaskPlan (r : MaskOpRow) (s : State) (p : Plan) : Prop where
  pops : p.pops = []
  stores : p.stores = []
  held : p.held = false
  refused : s.me.clmask.getLsbD r.head.cl.toNat = false ∨ r.dest = 0 → p.check = .fault { code := 0x02 }
  commits : ∃ v : BitVec 16, (∀ l, l < 16 → v.getLsbD l = r.val s l) ∧
    ∀ t, p.commit t = t.result (.m r.head.cl.toNat r.dest.toNat) (v.setWidth 512) 1 (s.here.m r.head.cl r.head.msk)

theorem maskPlan (r : MaskOpRow) (reads : List (Dest × BitVec 16)) {v : BitVec 16} (hv : ∀ l, l < 16 → v.getLsbD l = r.val s l) :
    MaskPlan r s (planMaskOp r.head r.dest reads v s) := by
  refine ⟨rfl, rfl, rfl, fun h => ?_, v, hv, fun t => rfl⟩
  rcases h with h | h
  · rw [planMaskOp, Ctx.owns, h]; rfl
  · rw [planMaskOp, h]
    cases s.me.owns r.head.cl <;> rfl

/-- A further check of a mask operation comes after these. -/
theorem MaskPlan.further {r : MaskOpRow} {p : Plan} (h : MaskPlan r s p) (c : Check) :
    MaskPlan r s { p with check := p.check.and c } :=
  ⟨h.pops, h.stores, h.held, fun hr => by rw [h.refused hr]; rfl, h.commits⟩

theorem planOf_maskOpRow {r : MaskOpRow} (hr : maskOpRow i = some r) : IsOperation i ∧ MaskPlan r s (planOf i s) := by
  cases i <;> cases hr <;> refine ⟨rfl, ?_⟩
  case mand => exact maskPlan _ _ fun l _ => BitVec.getLsbD_and ..
  case mor => exact maskPlan _ _ fun l _ => BitVec.getLsbD_or ..
  case mxor => exact maskPlan _ _ fun l _ => BitVec.getLsbD_xor ..
  case mnot => exact maskPlan _ _ fun l hl => by simp [hl]
  case mset h d n =>
    refine (maskPlan ⟨h, d, _⟩ _ fun l hl => ?_).further _
    rw [BitVec.getLsbD_ofNat, decide_eq_true hl, Bool.true_and, Nat.testBit_two_pow_sub_one]
  case msetScalar => exact maskPlan _ _ fun l hl => by simp [hl]

theorem maskOperations : Sys2Proof.Claim.MaskOperations := by
  intro i r s hr
  obtain ⟨hop, hplan⟩ := planOf_maskOpRow (s := s) hr
  refine ⟨fun hi => ?_, fun hf hbad => ?_⟩
  · obtain ⟨v, hv, hc⟩ := hplan.commits
    refine ⟨v.setWidth 512, (issues_commits hop hi hplan.pops hplan.stores).trans (by rw [hc]), fun l hl => ?_⟩
    rw [BitVec.getLsbD_setWidth, decide_eq_true (by omega : l < 512), Bool.true_and, hv l hl]
  · obtain ⟨slot, hx⟩ := exec_runsPlan hop
    rw [hx]
    exact ⟨slot, runPlan_faults hf hplan.held (by rw [Plan.checks, hplan.refused hbad]; rfl) rfl⟩

/-- Settles O17: the masks that compares make, bit by bit, and the mask operations with their two refusals. -/
theorem masksWritten : Obligations.MasksWritten := ⟨compareMasks, maskOperations⟩

end Sys2Proof.Machine
end

section
/-! What issuing an operation leaves alone: the frame of one step of the machine's state (R30, R31, R39, R138). -/
namespace Sys2Proof.Machine

variable {s t u : State} {i : Instr}

/-! ### Frames -/

/-- Which of the registers that some operation writes at issue are written: the scalar window, FB, and the status registers
that WRSYS names. -/
structure Written where
  window : Bool := false
  frame : Bool := false
  status : Bool := false

/-- What of a context an operation leaves alone. -/
def Ctx.kept (w : Written) (x : Ctx) :=
  (bif w.window then [] else x.scal, bif w.frame then 0 else x.fb,
    bif w.status then (0, 0, 0, 0) else (x.arith, x.bsa, x.splo, x.sphi), x.part,
    x.areg, x.preds, x.nests, x.flags, x.works, x.bot, x.clmask, x.fmts, x.trapinfo)

/-- What of a core. -/
def Core.kept (x : Core) := (x.vregs, x.masks, x.tenant)

/-- What of the package, its cores apart. -/
def State.kept (s : State) := (s.cur, s.tenants, s.owners, s.ports, s.saves, s.gcc, s.running, s.sc)

/-- A step of an issuing operation that stays in its context and leaves alone what is kept of it. -/
structure Stays (w : Written) (s t : State) : Prop where
  state : t.kept = s.kept
  here : t.here.kept = s.here.kept
  me : t.me.kept w = s.me.kept w
  others : ∀ k c, (k, c) ≠ s.cur → t.ctx k c = s.ctx k c
  cores : ∀ k, k ≠ s.cur.1 → t.core k = s.core k

namespace Stays

variable {w : Written}

theorem refl (w : Written) (s : State) : Stays w s s := ⟨rfl, rfl, rfl, fun _ _ _ => rfl, fun _ _ => rfl⟩

theorem cur (h : Stays w s t) : t.cur = s.cur := congrArg Prod.fst h.state

theorem trans (h : Stays w s t) (h' : Stays w t u) : Stays w s u := by
  have hc := h.cur
  exact ⟨h'.state.trans h.state, h'.here.trans h.here, h'.me.trans h.me,
    fun k c hk => (h'.others k c (by rwa [hc])).trans (h.others k c hk),
    fun k hk => (h'.cores k (by rwa [hc])).trans (h.cores k hk)⟩

/-- A change of the package outside its cores. -/
theorem elsewhere (hc : t.cores = s.cores) (hs : t.kept = s.kept) : Stays w s t := by
  have hcore : ∀ k, t.core k = s.core k := fun k => by rw [State.core, State.core, hc]
  have hctx : ∀ k c, t.ctx k c = s.ctx k c := ctx_of_cores hc
  have hcur : t.cur = s.cur := congrArg Prod.fst hs
  refine ⟨hs, ?_, ?_, fun k c _ => hctx k c, fun k _ => hcore k⟩
  · rw [State.here, State.here, hcur, hcore]
  · rw [State.me, State.me, hcur, hctx]

theorem modMe {f : Ctx → Ctx} (hf : ∀ x, (f x).kept w = x.kept w) : Stays w s (s.modMe f) := by
  refine ⟨rfl, ?_, ?_, fun k c h => s.ctx_modCtx_ctx f h, fun k h => s.core_modCtx_ne _ f h⟩
  · rw [State.here_modMe]; rfl
  · rw [State.me_modMe]; exact hf _

theorem modHere {f : Core → Core} (hx : ∀ x, (f x).ctxs = x.ctxs) (hf : ∀ x, (f x).kept = x.kept) :
    Stays w s (s.modHere f) := by
  refine ⟨rfl, ?_, ?_, fun k c h => ?_, fun k h => s.core_modCore_ne f h⟩
  · rw [State.here_modHere]; exact hf _
  · rw [State.me_modHere (hx _)]
  · by_cases hk : k = s.cur.1
    · subst hk
      rw [State.modHere, State.ctx, State.core_modCore, Core.ctx, hx]
      rfl
    · rw [State.modHere, State.ctx, s.core_modCore_ne f hk]
      rfl

/-- Repeated steps. -/
theorem foldl {α : Type} {op : State → α → State} (h : ∀ t a, Stays w t (op t a)) (as : List α) (s : State) :
    Stays w s (as.foldl op s) := by
  induction as generalizing s with
  | nil => exact refl w s
  | cons a as ih => exact (h s a).trans (ih _)

end Stays

/-! ### Memory's operations change no core -/

/-- What memory's operations leave as it was. -/
def State.aside (s : State) := (s.cores, s.kept)

theorem Stays.of_aside {w : Written} (h : t.aside = s.aside) : Stays w s t :=
  .elsewhere (congrArg Prod.fst h) (congrArg Prod.snd h)

theorem writeUnder_aside (s : State) (w : Who) (id : Nat) (es : List Past) (pa : Nat) (bs : List Byte) :
    (s.writeUnder w id es pa bs).aside = s.aside := by
  unfold State.writeUnder
  dsimp only
  split <;> rfl

theorem writeUnits_aside (s : State) (w : Who) (us : List (Nat × List Byte)) : (s.writeUnits w us).aside = s.aside := by
  refine foldl_leaves State.aside (fun t u => State.writeUnit t w _ _ u) (fun t u => ?_) us _
  obtain ⟨n, es, h, -⟩ := writeUnit_places t w _ _ u
  exact (congrArg State.aside h).trans (writeUnder_aside { t with freeCtr := n } w _ es u.1 u.2)

theorem writeBy_aside (s : State) (w : Who) (pa : Nat) (bs : List Byte) (rmw : Bool) (n : Nat) :
    (s.writeBy w pa bs rmw n).aside = s.aside := by
  unfold State.writeBy
  split
  · rfl
  · split
    · exact writeUnder_aside { s with pastCtr := s.pastCtr + 1 } w s.pastCtr [] pa bs
    · exact writeUnits_aside s w _

theorem touch_aside (s : State) (q : Who) (pa n : Nat) : (s.touch q pa n).aside = s.aside := by
  unfold State.touch
  dsimp only
  split <;> rfl

theorem storeLocal_aside (s : State) (ws : List (Nat × Byte)) (cls : BitVec 4) (n : Nat) :
    (s.storeLocal ws cls n).aside = s.aside := by
  unfold State.storeLocal
  dsimp only
  have htouch : ∀ us : List (Nat × List Byte),
      (us.foldl (fun t u => t.touch (s.access .loc (clsBit cls)) u.1 u.2.length) s).aside = s.aside := fun us =>
    foldl_leaves State.aside (fun (t : State) (u : Nat × List Byte) => t.touch (s.access .loc (clsBit cls)) u.1 u.2.length)
      (fun t u => touch_aside t _ _ _) us s
  split
  · rfl
  · split
    · exact htouch _
    · exact (writeUnits_aside _ _ _).trans (htouch _)

/-! ### The steps that operations are made of -/

namespace Stays

variable {w : Written}

theorem popAll (s : State) (ps : List Cl) : Stays w s (s.popAll ps) := by
  unfold State.popAll
  split
  · exact refl w s
  · exact modHere (fun x => foldl_leaves Core.ctxs popOne (fun _ _ => rfl) ps x)
      fun x => foldl_leaves Core.kept popOne (fun _ _ => rfl) ps x

theorem consumeAll (s : State) (rs : List (Dest × BitVec 16)) (es : List LaqEntry) : Stays w s (s.consumeAll rs es) := by
  rcases consumeAll_eq s rs es with ⟨ps, f, h, -⟩ | h
  · rw [h]
    exact (modMe (f := Ctx.unreadBy f) fun _ => rfl).trans (elsewhere rfl rfl)
  · rw [h]
    exact refl w s

theorem releaseClusters (s : State) : Stays w s (s.releaseClusters s.cur.1 s.cur.2) :=
  modHere (fun _ => rfl) fun _ => rfl

theorem endRun (s : State) : Stays w s (s.endRun s.cur.1 s.cur.2) :=
  ((releaseClusters s).trans (modMe (f := Ctx.ended) fun _ => rfl)).trans (elsewhere rfl rfl)

theorem finish (s : State) : Stays w s s.finish := by
  have hpass : Stays w s (s.modMe (Ctx.passed s.quietHere)) := modMe fun _ => rfl
  rcases finish_cases s with h | h <;> rw [h]
  · exact hpass
  · exact hpass.trans (endRun _)

theorem result (s : State) (d : Dest) (v : Line) (lat : Nat) (lanes poi : BitVec 16) (fl : Byte) :
    Stays w s (s.result d v lat lanes poi fl) := modMe fun _ => rfl

theorem putS (s : State) (x : Ctx) (d : SReg) (v : Dword) (lat : Nat) : Stays w s (putS x d v lat s) := result ..

theorem fresh (s : State) : Stays w s s.fresh.2 := elsewhere rfl rfl

theorem send (s : State) (r : Req) : Stays w s (s.send r) := elsewhere rfl rfl

theorem learnAll (s : State) (f : Past → List Know) : Stays w s (s.learnAll f) := elsewhere rfl rfl

theorem awaitSb (s : State) (id : Nat) (d : SbDest) (due : Option Nat) : Stays w s (s.awaitSb id d due) :=
  modMe fun x => by cases d <;> rfl

theorem arrives (s : State) (id : Nat) (v : Line) (poi : BitVec 16) (fl : Byte) :
    Stays w s (s.modMe fun y => y.arrive id v poi fl) := modMe fun _ => rfl

theorem goTo (va : Addr) (n : Nat) (s : State) : Stays w s (goTo va n s) := modMe fun _ => rfl

theorem startLoop (cs : List Nat) (stop : Addr) (s : State) : Stays w s (startLoop cs stop s) :=
  modMe fun x => by dsimp only; split <;> rfl

theorem awaitScalar (x : Ctx) (d : SReg) (r : Req) (s : State) : Stays w s (awaitScalar x d r s) :=
  ((send s r).trans (awaitSb ..)).trans (modMe fun _ => rfl)

theorem pushOne (q : Cl) (r : Req) (s : State) : Stays w s (pushOne q r s) := by
  refine .trans ?_ (send _ r)
  exact modHere (fun _ => rfl) fun _ => rfl

theorem modChan (ch : Chan) (f : CopyChan → CopyChan) (s : State) : Stays w s (s.modChan s.cur.1 ch f) :=
  modHere (fun _ => rfl) fun _ => rfl

end Stays

end Sys2Proof.Machine
end

section
/-! Every operation stays in its context and leaves the registers alone (R30, R31, R39, R64 to R66, R138, R154, R161 to
R163). -/
namespace Sys2Proof.Machine

variable {s t : State} {i : Instr} {w : Written} {g : Guard} {h : VHead} {d : VReg}

/-! ### Plans whose effect stays in its context -/

/-- A plan whose effect stays in its context and leaves alone what is kept of it. -/
def Plan.Quiet (w : Written) (p : Plan) : Prop := ∀ t, Stays w t (p.commit t)

theorem quiet_empty : ({} : Plan).Quiet w := fun t => .refl w t

theorem quiet_gplan {f : Ctx → Plan} (hf : ∀ x, (f x).Quiet w) : (gplan g s f).Quiet w := by
  unfold gplan
  split
  · exact hf _
  · exact quiet_empty

section Scalar

variable {dest : SReg} {src : List SReg} {more : List (Dest × BitVec 16)} {lat : Nat} {f : Ctx → Dword}

theorem quiet_aluR : (planAluR g dest src more lat f s).Quiet w := quiet_gplan fun _ _ => .putS ..

theorem quiet_alu : (planAlu g dest src lat f s).Quiet w := quiet_aluR

theorem quiet_pred {p : PReg} {f : Ctx → Bool} : (planPred g p src more f s).Quiet w := quiet_gplan fun _ _ => .result ..

theorem quiet_addr {a : AReg} : (planAddr g a src more f s).Quiet w := quiet_gplan fun _ _ => .result ..

theorem quiet_div {a b : SReg} {f : Dword → Dword → Dword} : (planDiv g dest a b f s).Quiet w :=
  quiet_gplan fun _ t => ((Stays.fresh t).trans (.awaitSb ..)).trans (.arrives ..)

end Scalar

section Control

variable {dest : SReg} {a : AReg} {r : SReg} {n : BitVec 6} {disp : BitVec 16}

theorem quiet_br : (planBr g disp s).Quiet w := quiet_gplan fun _ t => .goTo _ _ t

theorem quiet_brc : (planBrc g dest disp s).Quiet w := by
  refine quiet_gplan fun x t => ?_
  refine .trans ?_ (.putS _ _ _ _ _)
  split
  · exact .refl w t
  · exact .goTo _ _ t

theorem quiet_jmp : (planJmp g r s).Quiet w := quiet_gplan fun _ t => .goTo _ _ t

/-- A window that is being written may take fresh entries. -/
theorem Stays.slideUp (n : Nat) (t : State) : Stays ⟨true, true, w.status⟩ t (slideUp n t) := by
  refine (elsewhere (t := { t with freeCtr := t.freeCtr + n }) (by rfl) (by rfl)).trans ?_
  exact modMe fun _ => by rfl

theorem quiet_call : (planCall g a n disp s).Quiet ⟨true, true, w.status⟩ :=
  quiet_gplan fun _ t => ((Stays.slideUp (w := w) _ t).trans (.result ..)).trans (.goTo ..)

theorem quiet_calli : (planCalli g a r n s).Quiet ⟨true, true, w.status⟩ :=
  quiet_gplan fun _ t => ((Stays.slideUp (w := w) _ t).trans (.result ..)).trans (.goTo ..)

theorem quiet_ret : (planRet g a n s).Quiet ⟨w.window, true, w.status⟩ := by
  refine quiet_gplan fun _ t => ?_
  refine .trans ?_ (.goTo _ _ _)
  exact .modMe fun _ => by rfl

theorem quiet_loop {k : NReg} {l : BitVec 3} : (planLoop g k l n s).Quiet w := quiet_gplan fun _ t => .startLoop _ _ t

theorem quiet_loopx : (planLoopx g r n s).Quiet w := quiet_gplan fun _ t => .startLoop _ _ t

theorem Stays.writeFmts (v : Byte) (t : State) : Stays w t (writeFmts v t) := modMe fun _ => by rfl

theorem quiet_setfmt {v : Byte} : (planSetfmt g v s).Quiet w := quiet_gplan fun _ t => .writeFmts _ t

theorem quiet_fence {sc : Scope} : (planFence g sc disp s).Quiet w := by
  refine quiet_gplan fun x t => ?_
  dsimp only
  split
  · exact .refl w t
  · refine .trans ?_ (.learnAll _ _)
    exact .modMe fun _ => by rfl

theorem quiet_xfence : (planXfence g s).Quiet w := by
  refine quiet_gplan fun _ _ => ?_
  dsimp only
  exact .modMe fun _ => rfl

theorem quiet_ifence : (planIfence g s).Quiet w := by
  refine quiet_gplan fun _ _ => ?_
  dsimp only
  exact .modMe fun _ => rfl

theorem quiet_bar {sc : Scope} : (planBar g sc s).Quiet w := by
  refine quiet_gplan fun _ _ => ?_
  dsimp only
  exact .modMe fun _ => rfl

theorem quiet_setf {k : BitVec 2} : (planSetf g k disp s).Quiet w := quiet_gplan fun _ _ => .result ..

theorem quiet_clrf {k : BitVec 2} : (planClrf g k disp s).Quiet w := quiet_gplan fun _ _ => .result ..

theorem quiet_waitgcc : (planWaitgcc g r s).Quiet w := by
  refine quiet_gplan fun _ _ => ?_
  dsimp only
  exact .modMe fun _ => rfl

theorem quiet_rdsys {num : BitVec 4} : (planRdsys g dest num s).Quiet w := quiet_gplan fun _ _ => .putS ..

/-- The status registers that are being written may change. -/
theorem Stays.wrsysDo (num : Nat) (v : Dword) (t : State) : Stays ⟨w.window, w.frame, true⟩ t (wrsysDo num v t) := by
  unfold Machine.wrsysDo
  split
  · refine .trans (t := t.modMe fun x => { x with arith := v.setWidth 8 }) (modMe fun _ => by rfl) ?_
    exact modHere (fun _ => by rfl) fun _ => by rfl
  · exact .writeFmts _ t
  · exact modMe fun _ => by rfl
  · exact modMe fun _ => by rfl
  · exact modMe fun _ => by rfl
  · exact refl _ t

theorem quiet_wrsys {num : BitVec 4} : (planWrsys g num r s).Quiet ⟨w.window, w.frame, true⟩ :=
  quiet_gplan fun _ t => .wrsysDo (w := w) _ _ t

theorem quiet_trap : (planTrap g disp s).Quiet w := quiet_gplan fun _ t => .refl w t

theorem quiet_brk : (planBrk g disp s).Quiet w := quiet_gplan fun _ t => .refl w t

theorem quiet_halt : (planHalt g s).Quiet w := by
  refine quiet_gplan fun _ _ => ?_
  dsimp only
  exact .modMe fun _ => rfl

theorem quiet_unit {k : WReg} : (planUnit g dest k s).Quiet w := by
  refine quiet_gplan fun _ t => ?_
  refine .trans ?_ (.putS _ _ _ _ _)
  exact .modMe fun _ => by rfl

theorem quiet_unitS : (planUnitS g r s).Quiet w := by
  refine quiet_gplan fun _ _ => ?_
  dsimp only
  exact .modMe fun _ => rfl

end Control

section Vector

variable {src : List VSrc} {lat : Nat}

theorem quiet_lanes {f : Ctx → List Word → Word × Byte} : (planLanes h d src lat f s).Quiet w := fun _ => .result ..

theorem quiet_mask {m : MReg} {f : List Word → Bool × Byte} : (planMask h m src lat f s).Quiet w := fun _ => .result ..

theorem quiet_line {en : BitVec 16} {f : List Line → Nat → Word} : (planLine h d src lat en f s).Quiet w := fun _ => .result ..

theorem quiet_vsel {a b : VSrc} {k : MReg} : (planVsel h d a b k s).Quiet w := fun _ => .result ..

theorem quiet_shuf {a b : VSrc} : (planShuf h d a b s).Quiet w := fun _ => .result ..

theorem quiet_reduce {a : VSrc} {op : Word → Word → Word × Byte} {v : Word} : (planReduce h d a op v s).Quiet w :=
  fun _ => .result ..

theorem quiet_maskOp {m : MReg} {rs : List (Dest × BitVec 16)} {v : BitVec 16} : (planMaskOp h m rs v s).Quiet w :=
  fun _ => .result ..

theorem quiet_mset {m : MReg} {n : BitVec 5} : (planMset h m n s).Quiet w := fun _ => .result ..

theorem quiet_cross {a : VReg} {n : Cl} {en : BitVec 16} {f : Line → Nat → Word} : (planCross h d a n lat en f s).Quiet w :=
  fun _ => .result ..

theorem quiet_vload {bad : Bool} {f : VmForm} : (planVload h d bad f s).Quiet w := by
  intro t
  dsimp only [planVload]
  split
  · exact ((Stays.fresh t).trans (.awaitSb ..)).trans (.arrives ..)
  · exact .result ..

theorem quiet_vstore {bad : Bool} {f : VmForm} : (planVstore h d bad f s).Quiet w := fun t => .refl w t

theorem seeAcc_aside (t : State) (pa : Nat) (en : BitVec 16) : (t.seeAcc pa en).2.aside = t.aside := by
  have hsee (r : State) (i : Nat) : (r.see (t.access .loc 1) (pa + 4 * i) 4).2.aside = r.aside := by
    obtain ⟨fc, pc, ps, pr, h⟩ := see_quiet r (t.access .loc 1) (pa + 4 * i) 4
    rw [h]
    rfl
  unfold State.seeAcc
  dsimp only
  split
  · rfl
  · exact foldl_leaves (fun r : Line × State => r.2.aside)
      (fun r i => (r.1 ||| (BitVec.ofNat 512 (leNat (r.2.see (t.access .loc 1) (pa + 4 * i) 4).1) <<< (32 * i)),
        (r.2.see (t.access .loc 1) (pa + 4 * i) 4).2)) (fun r i => hsee r.2 i) (laneList en) (0, t)

theorem quiet_vlda {k : SReg} {off : BitVec 9} : (planVlda h d k off s).Quiet w :=
  fun t => (Stays.of_aside (seeAcc_aside t _ _)).trans (.result ..)

theorem quiet_vsta {k : SReg} {off : BitVec 9} : (planVsta h d k off s).Quiet w :=
  fun t => .foldl (fun _ _ => .of_aside (writeBy_aside ..)) _ t

end Vector

section Memory

theorem quiet_mx {f : Ctx → List (Dest × BitVec 16) × Check × (Nat → MxRes) × Check × MxKind × FlagRef × BitVec 4} :
    (planMx g s f).Quiet w := by
  refine quiet_gplan fun x t => (Stays.fresh t).trans ?_
  dsimp only
  exact .modHere (fun _ => rfl) fun _ => rfl

theorem quiet_push {p : PushArgs} {rs : Ctx → List (Dest × BitVec 16)} {bad : Bool} {at_ : Ctx → Nat → Dword} :
    (planPush g p rs bad at_ s).Quiet w := quiet_gplan fun _ t => .foldl (fun _ _ => .pushOne ..) _ t

theorem quiet_stg {p : StgArgs} {rs : Ctx → BitVec 16 → List (Dest × BitVec 16)} {bad : Bool} {n : Nat}
    {at_ : Ctx → Nat → Dword} : (planStg' g p rs bad n at_ s).Quiet w :=
  quiet_gplan fun _ t => .foldl (fun _ _ => .send ..) _ t

variable {dest b : SReg} {a : AReg} {cls : BitVec 4} {off : BitVec 12} {sx : Bool} {z : Size} {sc : Scope} {nm : BitVec 16}

theorem quiet_lds : (planLds g dest a cls off sx z s).Quiet w := quiet_gplan fun _ _ => .awaitScalar ..

theorem quiet_ldsL : (planLdsL g dest a cls off sx z s).Quiet w := quiet_gplan fun _ _ => .result ..

theorem quiet_sts : (planSts g a b cls off z s).Quiet w := quiet_gplan fun _ _ => .send ..

theorem quiet_stsL : (planStsL g a b cls off z s).Quiet w := quiet_gplan fun _ t => .refl w t

theorem quiet_ldacq : (planLdacq g dest a sc nm s).Quiet w := quiet_gplan fun _ _ => .awaitScalar ..

theorem quiet_strel : (planStrel g a b sc nm s).Quiet w := quiet_gplan fun _ _ => .send ..

theorem quiet_rmw {p : AmoArgs} {rs : Ctx → List (Dest × BitVec 16)} {k : Ctx → ReqKind} : (planRmw g p rs k s).Quiet w :=
  quiet_gplan fun _ _ => .awaitScalar ..

theorem quiet_tlook : (planTlook g dest a s).Quiet w := quiet_gplan fun _ _ => .result ..

theorem quiet_tset {way : BitVec 3} : (planTset g a b way s).Quiet w := by
  refine quiet_gplan fun _ _ => ?_
  dsimp only
  exact .modHere (fun _ => rfl) fun _ => rfl

theorem quiet_tclr : (planTclr g b s).Quiet w := by
  refine quiet_gplan fun _ _ => ?_
  dsimp only
  exact .modHere (fun _ => rfl) fun _ => rfl

theorem quiet_nxu : (planNxu g s).Quiet w := by
  refine quiet_gplan fun x t => ?_
  dsimp only
  refine .trans ((Stays.fresh t).trans
    (.awaitSb _ t.nextId (.w (BitVec.ofNat 2 (x.nxuCount % 4))) (some (t.here.cycle + 12)))) ?_
  refine .trans (.elsewhere (by rfl) (by rfl)) (.modMe fun _ => ?_)
  rfl

end Memory

section Copies

variable {dest a b : SReg} {ch : Chan}

theorem quiet_nestld {k : NReg} {cl : Cl} {j : VReg} : (planNestld g k cl j s).Quiet w := quiet_gplan fun _ _ => .result ..

theorem quiet_copy {p : CpyArgs} {rs : Ctx → List (Dest × BitVec 16)} {k : Ctx → CopyKind} : (planCopy g p rs k s).Quiet w := by
  refine quiet_gplan fun _ t => (Stays.fresh t).trans ?_
  dsimp only
  exact .modChan _ _ t.fresh.2

theorem quiet_cparm : (planCparm g ch a b s).Quiet w := by
  refine quiet_gplan fun _ t => ?_
  dsimp only
  exact .modChan _ _ t

theorem quiet_stat {clr : Bool} : (planStat g dest ch clr s).Quiet w := by
  refine quiet_gplan fun x t => ?_
  dsimp only
  split
  · exact (Stays.putS t _ _ _ _).trans (.modChan _ _ _)
  · exact .putS ..

theorem quiet_use {n : BitVec 11} {set : Bool} : (planUse g a n set s).Quiet w := by
  refine quiet_gplan fun _ _ => ?_
  dsimp only
  exact .modHere (fun _ => rfl) fun _ => rfl

theorem quiet_enqueue {r : AReg} {rs : Ctx → List (Dest × BitVec 16)} {st : Ctx → Option Nat} {q : BitVec 4} :
    (planEnqueue g r rs st q s).Quiet w := quiet_gplan fun _ _ => .elsewhere (by rfl) (by rfl)

theorem quiet_trexcl {r : AReg} {slot : BitVec 2} : (planTrexcl g r b slot s).Quiet w := by
  refine quiet_gplan fun x t => ?_
  dsimp only
  split
  · exact .modMe fun _ => by rfl
  · exact .refl w t

end Copies

/-! ### Every operation -/

/-- The registers that an operation writes at issue. -/
def writtenBy : Instr → Written
  | .call .. | .calli .. => ⟨true, true, false⟩
  | .ret .. => ⟨false, true, false⟩
  | .wrsys .. => ⟨false, false, true⟩
  | _ => {}

theorem planOf_quiet (i : Instr) (s : State) : (planOf i s).Quiet (writtenBy i) := by
  cases i
  case issueCycle | runmaxExpiry | bundleIssue | bankConflictRetry | fetchComplete | segmentCheck | fixedLatencyLanding |
    scoreboardLanding | tlbWalkComplete | memRequestService | loadLineLands | globalAccessPerform | spillFillComplete |
    waitgccWake | laqEntryFree | copyCommandStart | copyLine | copyComplete | bulkFrameSlot | matrixCommandStart |
    matrixBeat | loaderBeat | accRowBeat | matrixCommandDone | aConsumed | barrierComplete | takeRecord | admitLaunch |
    coreAssign | contextStart | dispatchRestart | nxuService | launchAppend | launchFail | completionWrite | passStart |
    passEnd | pmarkStop | contextSaved | pmbExpiry | zeroingDone | hostWrite | hostRead | ideIntegrityFail | peerInbound |
    portTrain | queueDescriptorWrite | coreConfigWrite | slotTableWrite | ttrootWrite | go | goStep | decline | measext |
    tlockWrite | tgo | counterRead | registerWrite | supplySag | thermalTrip | bootStage | getMeasurements | keyExchange |
    keyUpdate | endSession | vendorDefinedRequest | ideKm | portDown | supplyRestored | gccTick | powerOnReset |
    driverReset | preempt | resume | abort | scrub | stampreset | coresave | coreload | shootdown | finishRequest |
    finishRemove | powerWindowEnd | nop => exact quiet_empty
  case fadd | fsub | fmul | fma | fms | fnma | fmin | fmax | fabs | fneg | dot2 =>
    simp only [planOf, planFadd, planFsub, planFmul, planFma, planFms, planFnma, planFmin, planFmax, planFabs, planFneg,
      planDot2, planFp, quiet_lanes]
  case iadd | isub | imul | imulh | imad | imin | imax | iminu | imaxu | vand | vor | vxor | vandn | vshl | vshr | vsar =>
    simp only [planOf, planIadd, planIsub, planImul, planImulh, planImad, planImin, planImax, planIminu, planImaxu, planVand,
      planVor, planVxor, planVandn, planVshl, planVshr, planVsar, planInt, quiet_lanes]
  case lmul | lrcp | lsqrt | mov | vmovi | cvt | bpack | bunpack =>
    simp only [planOf, planLmul, planLrcp, planLsqrt, planLog, planMov, planVmovi, planCvt, planBpack, planBunpack,
      quiet_lanes]
  case rcp | rsq | sqrt | div | exp2 | log2 =>
    simp only [planOf, planRcp, planRsq, planSqrt, planDivF, planExp2, planLog2, planSpecial, quiet_lanes]
  case fcmp | icmp | icmpu => simp only [planOf, planFcmp, planIcmp, planIcmpu, quiet_mask]
  case vsel => exact quiet_vsel
  case shuf => exact quiet_shuf
  case rot => simp only [planOf, planRot, quiet_line]
  case hadd | hmax => simp only [planOf, planHadd, planHmax, quiet_reduce]
  case mand | mor | mxor | mnot | msetScalar =>
    simp only [planOf, planMand, planMor, planMxor, planMnot, planMsetScalar, quiet_maskOp]
  case mset => exact quiet_mset
  case xmov | xbc => simp only [planOf, planXmov, planXbc, quiet_cross]
  case vld | vlds | vldx => simp only [planOf, planVld, planVlds, planVldx, quiet_vload]
  case vst | vsts | vstx => simp only [planOf, planVst, planVsts, planVstx, quiet_vstore]
  case vlda => exact quiet_vlda
  case vsta => exact quiet_vsta
  case add | sub | addi | mul | mulhu | mulhs | and | or | xor | andn | shl | shr | sar | shli | shri | sari | min | max |
    minu | maxu | clz | popc | movi =>
    simp only [planOf, planAdd, planSub, planAddi, planMul, planMulhu, planMulhs, planAnd, planOr, planXor, planAndn, planShl,
      planShr, planSar, planShli, planShri, planSari, planMin, planMax, planMinu, planMaxu, planClz, planPopc, planMovi,
      quiet_alu]
  case divu | divuRem | divs | divsRem => simp only [planOf, planDivu, planDivuRem, planDivs, planDivsRem, quiet_div]
  case movhi | sel | smova => simp only [planOf, planMovhi, planSel, planSmova, planAlu, quiet_aluR]
  case cmp | cmpi | pand | por | pxor => simp only [planOf, planCmp, planCmpi, planPand, planPor, planPxor, quiet_pred]
  case aadd | aaddi | alea | aleaSeg | amov =>
    simp only [planOf, planAadd, planAaddi, planAlea, planAleaSeg, planAmov, quiet_addr]
  case br => exact quiet_br
  case brc => exact quiet_brc
  case jmp => exact quiet_jmp
  case call => exact quiet_call (w := {})
  case calli => exact quiet_calli (w := {})
  case ret => exact quiet_ret (w := {})
  case loop => exact quiet_loop
  case loopx => exact quiet_loopx
  case setfmt => exact quiet_setfmt
  case fence => exact quiet_fence
  case xfence => exact quiet_xfence
  case ifence => exact quiet_ifence
  case bar => exact quiet_bar
  case setf => exact quiet_setf
  case clrf => exact quiet_clrf
  case waitgcc => exact quiet_waitgcc
  case rdsys => exact quiet_rdsys
  case wrsys => exact quiet_wrsys (w := {})
  case trap => exact quiet_trap
  case brk => exact quiet_brk
  case halt => exact quiet_halt
  case unit => exact quiet_unit
  case unitS => exact quiet_unitS
  case pushld | pushlds | pushldx => simp only [planOf, planPushld, planPushlds, planPushldx, quiet_push]
  case stg | stgs | stgx => simp only [planOf, planStg, planStgs, planStgx, quiet_stg]
  case lds => exact quiet_lds
  case ldsL => exact quiet_ldsL
  case sts => exact quiet_sts
  case stsL => exact quiet_stsL
  case ldacq => exact quiet_ldacq
  case strel => exact quiet_strel
  case amoAdd | amoFadd | amoMin | amoMax | amoMinu | amoMaxu | amoAnd | amoOr | amoXor | amoXchg | cas =>
    simp only [planOf, planAmoAdd, planAmoFadd, planAmoMin, planAmoMax, planAmoMinu, planAmoMaxu, planAmoAnd, planAmoOr,
      planAmoXor, planAmoXchg, planCas, planAmo, quiet_rmw]
  case tlook => exact quiet_tlook
  case tset => exact quiet_tset
  case tclr => exact quiet_tclr
  case nxu => exact quiet_nxu
  case mma | mmag | latch | latcht | accz | accwr | accrd =>
    simp only [planOf, planMma, planMmag, planLatch, planLatcht, planLoad, planAccz, planAccwr, planAccrd, quiet_mx]
  case nestld => exact quiet_nestld
  case cpy | cpyt | cpym | cpsend => simp only [planOf, planCpy, planCpyt, planCpym, planCpsend, quiet_copy]
  case cparm => exact quiet_cparm
  case cpstat | cpstatClr => simp only [planOf, planCpstat, planCpstatClr, quiet_stat]
  case buse | bfree => simp only [planOf, planBuse, planBfree, quiet_use]
  case launch | relaunch => simp only [planOf, planLaunch, planRelaunch, quiet_enqueue]
  case trexcl => exact quiet_trexcl

/-- An operation that issues stays in its context and leaves alone what is kept of it. -/
theorem operation_stays (hi : IsOperation i) (h : Issues i s) (he : exec i s = .next t) : Stays (writtenBy i) s t := by
  rw [operationsComplete i s hi h] at he
  obtain rfl : _ = t := by injection he
  refine .trans ?_ ((planOf_quiet i s _).trans (.finish _))
  exact ((Stays.consumeAll s _ _).trans (.of_aside (storeLocal_aside _ _ _ _))).trans (.popAll _ _)

/-! ### Which operations write what at issue -/

theorem writtenBy_window (hc : ∀ g d n x, i ≠ .call g d n x) (hi : ∀ g d a n, i ≠ .calli g d a n) :
    (writtenBy i).window = false := by
  unfold writtenBy
  split
  · exact absurd rfl (hc _ _ _ _)
  · exact absurd rfl (hi _ _ _ _)
  all_goals rfl

theorem writtenBy_frame (hc : ∀ g d n x, i ≠ .call g d n x) (hi : ∀ g d a n, i ≠ .calli g d a n)
    (hr : ∀ g a n, i ≠ .ret g a n) : (writtenBy i).frame = false := by
  unfold writtenBy
  split
  · exact absurd rfl (hc _ _ _ _)
  · exact absurd rfl (hi _ _ _ _)
  · exact absurd rfl (hr _ _ _)
  all_goals rfl

theorem writtenBy_status (hw : ∀ g n a, i ≠ .wrsys g n a) : (writtenBy i).status = false := by
  unfold writtenBy
  split
  case h_4 => exact absurd rfl (hw _ _ _)
  all_goals rfl

namespace Stays

theorem scal (h : Stays w s t) (hw : w.window = false) : t.me.scal = s.me.scal := by
  have := congrArg Prod.fst h.me
  simpa only [Ctx.kept, hw, cond_false] using this

theorem fb (h : Stays w s t) (hw : w.frame = false) : t.me.fb = s.me.fb := by
  have := congrArg (·.2.1) h.me
  simpa only [Ctx.kept, hw, cond_false] using this

theorem status (h : Stays w s t) (hw : w.status = false) :
    (t.me.arith, t.me.bsa, t.me.splo, t.me.sphi) = (s.me.arith, s.me.bsa, s.me.splo, s.me.sphi) := by
  have := congrArg (·.2.2.1) h.me
  simpa only [Ctx.kept, hw, cond_false] using this

/-- The registers that no operation writes at issue. -/
theorem regs (h : Stays w s t) : (t.me.areg, t.me.preds, t.me.nests, t.me.flags, t.me.works, t.me.bot, t.me.clmask, t.me.fmts,
    t.me.trapinfo) = (s.me.areg, s.me.preds, s.me.nests, s.me.flags, s.me.works, s.me.bot, s.me.clmask, s.me.fmts,
    s.me.trapinfo) := congrArg (·.2.2.2.2) h.me

/-- An operation does not touch what is served of a bundle. -/
theorem part (h : Stays w s t) : t.me.part = s.me.part := congrArg (·.2.2.2.1) h.me

end Stays

theorem registersChangeByLanding : Sys2Proof.Claim.RegistersChangeByLanding := by
  intro i s t hi h he
  have hst := operation_stays hi h he
  have hregs := hst.regs
  have hhere := hst.here
  simp only [Core.kept, Prod.mk.injEq] at hregs hhere
  obtain ⟨ha, hp, hn, hf, hw, -⟩ := hregs
  exact ⟨fun hc hci => hst.scal (writtenBy_window hc hci), ha, hp, hn, hf, hw, hhere.1, hhere.2.1⟩

theorem statusRegistersKept : Sys2Proof.Claim.StatusRegistersKept := by
  intro i s t hi h he
  have hst := operation_stays hi h he
  have hregs := hst.regs
  simp only [Prod.mk.injEq] at hregs
  obtain ⟨-, -, -, -, -, hb, hc, hf, ht⟩ := hregs
  refine ⟨fun hw => ?_, fun hc hci hr => hst.fb (writtenBy_frame hc hci hr), hb, hc, hf, ht,
    (congrArg (·.2.2) hst.here :), (congrArg (·.2.2.2.2.2.1) hst.state :)⟩
  have hs := hst.status (writtenBy_status hw)
  simpa only [Prod.mk.injEq] using hs

/-- Settles O29: an issuing operation keeps the registers apart from those of its table of writes. -/
theorem registersKept : Obligations.RegistersKept := ⟨registersChangeByLanding, statusRegistersKept⟩

/-- Settles O30: an issuing operation stays in its context and core, and outside them changes no table of a tenant, no owner,
no port and no save. -/
theorem operationsStayInContext : Obligations.OperationsStayInContext := by
  intro i s t hi h he
  have hst := operation_stays hi h he
  have hstate := hst.state
  simp only [State.kept, Prod.mk.injEq] at hstate
  obtain ⟨-, ht, ho, hp, hs, -⟩ := hstate
  exact ⟨hst.others, hst.cores, ht, ho, hp, hs⟩

end Sys2Proof.Machine
end

section
/-! Results land, and waits end (R33, R38, R39, R66, R142, R160, R165, R191, R248). -/
namespace Sys2Proof.Machine

variable {s : State} {k : CoreId} {c : CtxId} {n : Nat} {lanes : BitVec 16} {p : Pend} {b : Sb}

/-! ### Fixed-latency results (R39, R248) -/

theorem exec_fixedLatencyLanding (k : CoreId) (c : CtxId) (n : Nat) (lanes : BitVec 16) (s : State) :
    exec (.fixedLatencyLanding k c n lanes) s = execFixedLatencyLanding k c n lanes s := rfl

/-- The lanes in which a landing takes a result. -/
def Pend.taken (p : Pend) (lanes : BitVec 16) : BitVec 16 := match p.dest with | .v _ _ | .m _ _ => lanes | _ => p.lanes

/-- A landing that is named lands its lanes; the result stays in flight for the others. -/
theorem fixedLatency_lands (hp : (s.ctx k c).part = none) (hn : (s.ctx k c).pend[n]? = some p) (hl : landable p lanes = true) :
    exec (.fixedLatencyLanding k c n lanes) s = .next ((s.modCtx k c fun x => { x with
      pend := if p.lanes &&& ~~~p.taken lanes = 0 then x.pend.eraseIdx n
        else lset x.pend n { p with lanes := p.lanes &&& ~~~p.taken lanes } }).landPend k c p (p.taken lanes)) := by
  rw [exec_fixedLatencyLanding, execFixedLatencyLanding]
  simp only [hp, hn, hl, Option.isNone_none, Bool.and_self, enabledIf, if_true, State.landOne]
  rfl

theorem taken_whole (h : ∀ cl r, p.dest ≠ .v cl r ∧ p.dest ≠ .m cl r) :
    landable p lanes = true ∧ p.taken lanes = p.lanes := by
  unfold landable Pend.taken
  cases hd : p.dest
  case v cl r => exact absurd hd (h cl r).1
  case m cl r => exact absurd hd (h cl r).2
  all_goals exact ⟨rfl, rfl⟩

theorem taken_lanes (h : ∃ cl r, p.dest = .v cl r ∨ p.dest = .m cl r) (hl : lanes &&& p.lanes ≠ 0) :
    landable p lanes = true ∧ p.taken lanes = lanes := by
  unfold landable Pend.taken
  obtain ⟨cl, r, hd | hd⟩ := h <;> rw [hd] <;> exact ⟨bne_iff_ne.2 hl, rfl⟩

theorem orFlags_zero (s : State) (k : CoreId) (c : CtxId) : s.orFlags k c 0 = s := rfl

theorem fixedLatencyLands : Sys2Proof.Claim.FixedLatencyLands := by
  intro s k c n lanes p hp hn
  refine ⟨fun h => ?_, fun h hl => ⟨fun hall => ?_, fun hleft => ?_⟩⟩
  · obtain ⟨hl, ht⟩ := taken_whole (lanes := lanes) h
    have hall : p.lanes &&& ~~~p.lanes = 0 := by simp
    rw [fixedLatency_lands hp hn hl, ht, State.landPend, if_pos hall, BitVec.and_self]
    simp only [if_pos hall]
  · obtain ⟨hl, ht⟩ := taken_lanes h hl
    rw [fixedLatency_lands hp hn hl, ht, State.landPend, if_pos hall]
    simp only [if_pos hall]
  · obtain ⟨hl, ht⟩ := taken_lanes h hl
    rw [fixedLatency_lands hp hn hl, ht, State.landPend, if_neg hleft, orFlags_zero]
    simp only [if_neg hleft]

/-! ### Scoreboarded results (R33, R38, R142, R191) -/

theorem exec_scoreboardLanding (k : CoreId) (c : CtxId) (n : Nat) (s : State) :
    exec (.scoreboardLanding k c n) s = execScoreboardLanding k c n s := rfl

theorem scoreboard_lands (hp : (s.ctx k c).part = none) (hn : (s.ctx k c).sbs[n]? = some b) (ha : b.arrived = true) :
    exec (.scoreboardLanding k c n) s = .next ((s.modCtx k c fun x => { x with sbs := x.sbs.eraseIdx n }).landSb k c b) := by
  rw [exec_scoreboardLanding, execScoreboardLanding]
  simp only [hp, hn, ha, Option.isNone_none, Bool.and_self, enabledIf, if_true, State.landSbOne]

theorem landSb_cancelled (h : b.cancelled = true) (s : State) : s.landSb k c b = s.orFlags k c b.flags := by
  rw [State.landSb, h]; rfl

theorem landSb_live (h : b.cancelled = false) (s : State) : s.landSb k c b = (s.landSbDest k c b).orFlags k c b.flags := by
  rw [State.landSb, h]; rfl

theorem scoreboardLands : Sys2Proof.Claim.ScoreboardLands := by
  intro s k c n b hp hn ha u
  rw [scoreboard_lands hp hn ha]
  refine ⟨fun h => by rw [landSb_cancelled h], fun e h hd hpo => ?_, fun w h hd => ?_, fun cl r lanes h hd => ?_⟩ <;>
    rw [landSb_live h, State.landSbDest, hd]
  rw [hpo]
  rfl

/-! ### Waits (R160, R165) -/

theorem exec_waitgccWake (k : CoreId) (c : CtxId) (s : State) : exec (.waitgccWake k c) s = execWaitgccWake k c s := rfl

theorem exec_laqEntryFree (k : CoreId) (q : Cl) (s : State) : exec (.laqEntryFree k q) s = execLaqEntryFree k q s := rfl

/-- What is removed first, among entries of which none before it is to go. -/
theorem ldelFirst_append {α : Type} {p : α → Bool} {pre post : List α} {e : α} (hpre : ∀ d ∈ pre, p d = false) (he : p e = true) :
    ldelFirst p (pre ++ e :: post) = pre ++ post := by
  induction pre with
  | nil => exact if_pos he
  | cons d pre ih =>
    rw [List.cons_append, ldelFirst, hpre d (List.mem_cons_self ..), ih fun d hd => hpre d (List.mem_cons_of_mem _ hd)]
    rfl

theorem waitsEnd : Sys2Proof.Claim.WaitsEnd := by
  intro s k
  refine ⟨fun c v hv => ⟨fun hle => ?_, fun hlt => ?_⟩, fun q pre e post hq hpre hd hl => ?_⟩
  · rw [exec_waitgccWake, execWaitgccWake, hv]
    exact if_pos (decide_eq_true hle)
  · rw [exec_waitgccWake, execWaitgccWake, hv]
    exact if_neg (by simpa using hlt)
  · have hgone : (e.dropped && e.landed) = true := by rw [hd, hl]; rfl
    have hany : ((s.core k).laq q).any (fun e => e.dropped && e.landed) = true := by
      rw [hq]
      exact List.any_eq_true.2 ⟨e, by simp, hgone⟩
    rw [exec_laqEntryFree, execLaqEntryFree]
    refine (if_pos hany).trans ?_
    rw [State.modCore, State.modCore, hq, ldelFirst_append hpre hgone]

/-- Settles O35: landings at fixed latency and from the scoreboard, and the two waits that end. -/
theorem resultsLand : Obligations.ResultsLand := ⟨fixedLatencyLands, scoreboardLands, waitsEnd⟩

end Sys2Proof.Machine
end

section
/-! Taking a fault (R42, R91, R315 to R318, R320). -/
namespace Sys2Proof.Machine

variable {s : State} {k : CoreId} {c : CtxId} {f : FaultInfo}

/-! ### The record (R316, R317) -/

/-- The number whose fields, from the lowest on, have these widths and values. -/
def fieldsNat : List (Nat × Nat) → Nat
  | [] => 0
  | (w, v) :: l => v + 2 ^ w * fieldsNat l

/-- Where field i lies, among fields of some widths. -/
def fieldAt (ws : List Nat) (i : Nat) : Nat := (ws.take i).sum

/-- Every value fits its field. -/
def FieldsFit (l : List (Nat × Nat)) : Prop := ∀ x ∈ l, x.2 < 2 ^ x.1

/-- The sum of the fields, each at its place. -/
def placed : Nat → List (Nat × Nat) → Nat
  | _, [] => 0
  | b, (w, v) :: l => v * 2 ^ b + placed (b + w) l

theorem fieldsNat_placed (l : List (Nat × Nat)) (b : Nat) : fieldsNat l * 2 ^ b = placed b l := by
  induction l generalizing b with
  | nil => exact Nat.zero_mul _
  | cons x l ih => rw [fieldsNat, placed, ← ih, Nat.add_mul, Nat.pow_add, Nat.mul_comm (2 ^ x.1), Nat.mul_assoc,
      Nat.mul_comm (2 ^ x.1)]

theorem fieldsNat_lt {l : List (Nat × Nat)} (h : FieldsFit l) : fieldsNat l < 2 ^ (l.map Prod.fst).sum := by
  induction l with
  | nil => exact Nat.one_pos
  | cons x l ih =>
    have hx := h x (List.mem_cons_self ..)
    have hl := ih fun y hy => h y (List.mem_cons_of_mem _ hy)
    rw [List.map_cons, List.sum_cons, Nat.pow_add, fieldsNat]
    calc x.2 + 2 ^ x.1 * fieldsNat l < 2 ^ x.1 * (fieldsNat l + 1) := by rw [Nat.mul_succ]; omega
      _ ≤ 2 ^ x.1 * 2 ^ (l.map Prod.fst).sum := Nat.mul_le_mul_left _ hl

theorem fieldsNat_field {l : List (Nat × Nat)} (h : FieldsFit l) {i w v : Nat} (hi : l[i]? = some (w, v)) :
    fieldsNat l / 2 ^ fieldAt (l.map Prod.fst) i % 2 ^ w = v := by
  induction l generalizing i with
  | nil => simp at hi
  | cons x l ih =>
    have hx := h x (List.mem_cons_self ..)
    cases i with
    | zero =>
      obtain rfl : x = (w, v) := by simpa using hi
      rw [fieldAt, List.take_zero, List.sum_nil, Nat.pow_zero, Nat.div_one, fieldsNat, Nat.add_mul_mod_self_left,
        Nat.mod_eq_of_lt hx]
    | succ i =>
      rw [fieldAt, List.map_cons, List.take_succ_cons, List.sum_cons, Nat.pow_add, ← Nat.div_div_eq_div_mul, fieldsNat,
        Nat.add_mul_div_left _ _ (Nat.two_pow_pos _), Nat.div_eq_of_lt hx, Nat.zero_add]
      exact ih (fun y hy => h y (List.mem_cons_of_mem _ hy)) (by simpa using hi)

/-- A number that fits its bytes is read back from them. -/
theorem leNat_leBytes_lt {n v b : Nat} (h : v < 2 ^ b) (hb : b ≤ 8 * n) : leNat (leBytes n v) = v := by
  rw [leNat_leBytes, show (256 : Nat) = 2 ^ 8 from rfl, ← Nat.pow_mul]
  exact Nat.mod_eq_of_lt (Nat.lt_of_lt_of_le h (Nat.pow_le_pow_right (by decide) hb))

/-- The fields of a fault record. -/
def faultFields (f : FaultInfo) (held : Bool) (lid : Word) (k : CoreId) (c : CtxId) (unit : Option (BitVec 24))
    (pc : Addr) (gcc : Dword) : List (Nat × Nat) :=
  [(8, f.code.toNat), (1, f.strad.toNat), (1, held.toNat), (1, f.eng.toNat), (1, f.chan.isSome.toNat),
    (4, (f.chan.getD 0).toNat), (8, f.slot.toNat), (8, f.detail.toNat), (32, lid.toNat), (7, k.toNat), (2, c.toNat), (7, 0),
    (24, (unit.getD 0).toNat), (1, unit.isSome.toNat), (23, 0), (48, pc.toNat), (16, 0), (48, f.va.toNat), (16, 0),
    (16, f.imm.toNat), (48, 0), (64, gcc.toNat)]

/-- The widths of its fields. -/
def faultWidths : List Nat := [8, 1, 1, 1, 1, 4, 8, 8, 32, 7, 2, 7, 24, 1, 23, 48, 16, 48, 16, 16, 48, 64]

theorem faultFields_fit (f : FaultInfo) (held : Bool) (lid : Word) (k : CoreId) (c : CtxId) (unit : Option (BitVec 24))
    (pc : Addr) (gcc : Dword) : FieldsFit (faultFields f held lid k c unit pc gcc) := by
  simp only [FieldsFit, faultFields, List.forall_mem_cons, List.not_mem_nil, false_implies, implies_true, and_true]
  exact ⟨f.code.isLt, Bool.toNat_lt _, Bool.toNat_lt _, Bool.toNat_lt _, Bool.toNat_lt _, (f.chan.getD 0).isLt, f.slot.isLt,
    f.detail.isLt, lid.isLt, k.isLt, c.isLt, by decide, (unit.getD 0).isLt, Bool.toNat_lt _, by decide, pc.isLt, by decide,
    f.va.isLt, by decide, f.imm.isLt, by decide, gcc.isLt⟩

theorem bit_eq_toNat_mul (b : Bool) (n : Nat) : (if b then 2 ^ n else 0) = b.toNat * 2 ^ n := by cases b <;> simp

theorem faultRecord_eq (f : FaultInfo) (held : Bool) (lid : Word) (k : CoreId) (c : CtxId) (unit : Option (BitVec 24))
    (pc : Addr) (gcc : Dword) :
    faultRecord f held lid k c unit pc gcc = leBytes 64 (fieldsNat (faultFields f held lid k c unit pc gcc)) := by
  unfold faultRecord
  rw [← Nat.mul_one (fieldsNat _), show (1 : Nat) = 2 ^ 0 from rfl, fieldsNat_placed]
  simp only [bit_eq_toNat_mul, faultFields, placed, Nat.reduceAdd, Nat.pow_zero, Nat.mul_one, Nat.zero_mul, Nat.zero_add,
    Nat.add_zero, Nat.add_assoc]

theorem faultRecordLayout : Sys2Proof.Claim.FaultRecordLayout := by
  intro f held lid k c unit pc gcc bs v
  have hfit := faultFields_fit f held lid k c unit pc gcc
  have hv : v = fieldsNat (faultFields f held lid k c unit pc gcc) := by
    rw [show v = leNat bs from rfl, show bs = _ from faultRecord_eq ..]
    exact leNat_leBytes_lt (fieldsNat_lt hfit) (by simp [faultFields])
  have field {i w x at_ : Nat} (hi : (faultFields f held lid k c unit pc gcc)[i]? = some (w, x))
      (ha : fieldAt faultWidths i = at_) : v / 2 ^ at_ % 2 ^ w = x := by
    rw [hv, ← ha]
    exact fieldsNat_field hfit hi
  have hlen : bs.length = 64 := by rw [show bs = _ from faultRecord_eq .., length_leBytes]
  clear_value v bs
  have low : v % 2 ^ 8 = f.code.toNat := by
    have := field (i := 0) (w := 8) (at_ := 0) rfl (by decide)
    rwa [Nat.pow_zero, Nat.div_one] at this
  have flag {i x at_ : Nat} (hi : (faultFields f held lid k c unit pc gcc)[i]? = some (1, x))
      (ha : fieldAt faultWidths i = at_) : v / 2 ^ at_ % 2 = x := field hi ha
  clear hv
  exact ⟨hlen, low, flag (i := 1) rfl (by decide), flag (i := 2) rfl (by decide), flag (i := 3) rfl (by decide), flag (i := 4) rfl (by decide),
    field (i := 5) rfl (by decide), field (i := 6) rfl (by decide), field (i := 7) rfl (by decide), field (i := 8) rfl (by decide), field (i := 9) rfl (by decide),
    field (i := 10) rfl (by decide), field (i := 12) rfl (by decide), flag (i := 13) rfl (by decide), field (i := 15) rfl (by decide), field (i := 17) rfl (by decide),
    field (i := 19) rfl (by decide), field (i := 21) rfl (by decide)⟩

/-! ### What holding or stopping a context leaves alone -/

/-- The books that a fault's record goes to. -/
def State.books (s : State) := (s.mem, s.tenants, s.late)

/-- What of a context no landing changes. -/
def Ctx.flow (x : Ctx) := (x.pc, x.pend)

/-- What no landing changes, whatever it lands. -/
def Ctx.calm (x : Ctx) := (x.flow, x.run)

/-- What a change of one context leaves of all contexts. -/
theorem leaves_modCtx {β : Type} (g : Ctx → β) {j : CoreId} {d : CtxId} {f : Ctx → Ctx} (hf : ∀ x, g (f x) = g x) :
    g ((s.modCtx j d f).ctx k c) = g (s.ctx k c) := by
  by_cases h : (k, c) = (j, d)
  · obtain ⟨rfl, rfl⟩ := Prod.mk.inj h
    rw [State.ctx_modCtx, hf]
  · rw [s.ctx_modCtx_ctx f h]

theorem flow_modCtx {j : CoreId} {d : CtxId} {f : Ctx → Ctx} (hf : ∀ x, (f x).flow = x.flow) :
    ((s.modCtx j d f).ctx k c).flow = (s.ctx k c).flow := leaves_modCtx Ctx.flow hf

/-- A change of a core that leaves its contexts leaves every context. -/
theorem ctx_modCore {j : CoreId} {f : Core → Core} (hf : ∀ x, (f x).ctxs = x.ctxs) : (s.modCore j f).ctx k c = s.ctx k c := by
  by_cases h : k = j
  · subst h
    rw [State.ctx, State.core_modCore, Core.ctx, hf]
    rfl
  · rw [State.ctx, s.core_modCore_ne f h]
    rfl

/-- What stands outside the cores and that a launch's failure leaves. -/
def State.others (s : State) := (s.gcc, s.saves)

/-- Landing a result changes cores alone, and leaves something of every context. -/
structure Lands {β : Type} (g : Ctx → β) (s t : State) : Prop where
  books : t.books = s.books
  launches : t.launches = s.launches
  others : t.others = s.others
  ctxs : ∀ k c, g (t.ctx k c) = g (s.ctx k c)

namespace Lands

variable {t u : State} {β : Type} {g : Ctx → β}

theorem refl (g : Ctx → β) (s : State) : Lands g s s := ⟨rfl, rfl, rfl, fun _ _ => rfl⟩

theorem trans (h : Lands g s t) (h' : Lands g t u) : Lands g s u :=
  ⟨h'.books.trans h.books, h'.launches.trans h.launches, h'.others.trans h.others, fun k c => (h'.ctxs k c).trans (h.ctxs k c)⟩

/-- What leaves a context calm leaves its place. -/
theorem place (h : Lands Ctx.calm s t) : Lands Ctx.flow s t :=
  ⟨h.books, h.launches, h.others, fun k c => congrArg Prod.fst (h.ctxs k c)⟩

theorem modCtx {j : CoreId} {d : CtxId} {f : Ctx → Ctx} (hf : ∀ x, g (f x) = g x) : Lands g s (s.modCtx j d f) :=
  ⟨rfl, rfl, rfl, fun _ _ => leaves_modCtx g hf⟩

theorem modCore {j : CoreId} {f : Core → Core} (hf : ∀ x, (f x).ctxs = x.ctxs) : Lands g s (s.modCore j f) :=
  ⟨rfl, rfl, rfl, fun _ _ => congrArg g (ctx_modCore hf)⟩

theorem foldl {α : Type} {op : State → α → State} (h : ∀ t a, Lands g t (op t a)) (as : List α) (s : State) :
    Lands g s (as.foldl op s) := by
  induction as generalizing s with
  | nil => exact refl g s
  | cons a as ih => exact (h s a).trans (ih _)

theorem land (s : State) (k : CoreId) (c : CtxId) (d : Dest) (v : Line) (en poi : BitVec 16) : Lands Ctx.calm s (s.land k c d v en poi) := by
  unfold State.land
  split
  case h_1 | h_2 | h_3 => exact refl _ s
  case h_8 | h_9 => exact modCore fun _ => rfl
  all_goals exact modCtx fun _ => rfl

theorem orFlags (s : State) (k : CoreId) (c : CtxId) (f : Byte) : Lands Ctx.calm s (s.orFlags k c f) := by
  unfold State.orFlags
  split
  · exact refl _ s
  · exact modCtx fun _ => rfl

theorem landPend (s : State) (k : CoreId) (c : CtxId) (p : Pend) (en : BitVec 16) : Lands Ctx.calm s (s.landPend k c p en) :=
  (land ..).trans (orFlags ..)

theorem landSbDest (s : State) (k : CoreId) (c : CtxId) (b : Sb) : Lands Ctx.calm s (s.landSbDest k c b) := by
  unfold State.landSbDest
  dsimp only
  split
  · split
    · exact land ..
    · exact (land ..).trans (modCtx fun _ => rfl)
  · exact modCtx fun _ => rfl
  · exact land ..

theorem landSb (s : State) (k : CoreId) (c : CtxId) (b : Sb) : Lands Ctx.calm s (s.landSb k c b) := by
  unfold State.landSb
  refine .trans ?_ (orFlags ..)
  split
  · exact refl _ s
  · exact landSbDest ..

theorem landSbs (s : State) (k : CoreId) (c : CtxId) : Lands Ctx.calm s (s.landSbs k c) := by
  refine .trans ?_ (foldl (op := fun t b => t.landSb k c b) (fun _ _ => landSb ..) _ _)
  exact modCtx fun _ => rfl

/-- Everything that has a value lands: nothing of fixed latency stays in flight (R320). -/
theorem landAll (s : State) (k : CoreId) (c : CtxId) : Lands Ctx.calm (s.modCtx k c fun x => { x with pend := [] }) (s.landAll k c) :=
  (foldl (op := fun t p => t.landPend k c p p.lanes) (fun _ _ => landPend ..) (s.ctx k c).pend _).trans (landSbs _ k c)

end Lands

theorem dropWaiter_lands (s : State) (k : CoreId) (u : Nat) : Lands Ctx.calm s (s.dropWaiter k u) := .modCore fun _ => rfl

theorem noteBound_lands (s : State) (id : Word) (code : Byte) : Lands Ctx.calm s (s.noteBound id code) := by
  unfold State.noteBound
  generalize (code == 0x0E && _ : Bool) = cause
  cases cause
  · exact .refl _ s
  · exact ⟨rfl, rfl, rfl, fun _ _ => rfl⟩

/-! ### Failing the launch (R42, R301) -/

/-- Every member of a launch that fails is asked to stop. -/
def askStop (id : Word) (tick : Dword) (t : State) (m : Nat × Nat) : State :=
  t.modCtx (BitVec.ofNat 7 m.1) (BitVec.ofNat 2 m.2) fun x =>
    if x.launch == id then { x with stopReq := true, stopTick := tick } else x

theorem askStop_lands (id : Word) (tick : Dword) (t : State) (m : Nat × Nat) : Lands Ctx.calm t (askStop id tick t m) :=
  .modCtx fun x => by split <;> rfl

theorem lmodFirst_find {α : Type} {p : α → Bool} {f : α → α} (hf : ∀ a, p a = true → p (f a) = true) (as : List α) :
    (lmodFirst p f as).find? p = (as.find? p).map f := by
  induction as with
  | nil => rfl
  | cons a as ih =>
    rw [lmodFirst]
    cases h : p a
    · simp [h, ih]
    · simp [h, hf a h]

theorem launch_modLaunch (id : Word) {f : Launch → Launch} (hf : ∀ l, (f l).id = l.id) :
    (s.modLaunch id f).launch id = (s.launch id).map f :=
  lmodFirst_find (fun l h => by rw [hf]; exact h) s.launches

theorem failLaunch_failing {id : Word} {st : Byte} {l : Launch} (hl : s.launch id = some l) (hf : l.phase ≠ .failing)
    (he : l.phase ≠ .ended) : (s.failLaunch id st).launch id = some { l with phase := .failing, status := st } := by
  have hno : (l.phase == .failing || l.phase == .ended) = false := by
    simp [hf, he]
  unfold State.failLaunch
  rw [hl]
  dsimp only
  rw [hno]
  have hlands := Lands.foldl (op := askStop id s.gcc) (fun _ _ => askStop_lands ..) l.members
    (s.modLaunch id fun l => { l with phase := .failing, status := st })
  refine (congrArg (List.find? fun l => l.id == id) hlands.launches).trans ?_
  refine (launch_modLaunch id ?_).trans ?_
  · exact fun _ => rfl
  · rw [hl]; rfl

theorem failLaunch_books (s : State) (id : Word) (st : Byte) : (s.failLaunch id st).books = s.books ∧
    ∀ k c, ((s.failLaunch id st).ctx k c).flow = (s.ctx k c).flow := by
  unfold State.failLaunch
  split
  · exact ⟨rfl, fun _ _ => rfl⟩
  · rename_i l _
    split
    · exact ⟨rfl, fun _ _ => rfl⟩
    · have hlands := Lands.foldl (op := askStop id s.gcc) (fun _ _ => askStop_lands ..) l.members
        (s.modLaunch id fun l => { l with phase := .failing, status := st })
      exact ⟨hlands.books, fun k c => hlands.place.ctxs k c⟩

theorem countFault_failing {id : Word} {l : Launch} (hl : s.launch id = some l) :
    ∃ l', (s.countFault k c id).launch id = some l' ∧ l'.phase = l.phase ∧ l'.status = l.status := by
  refine ⟨_, (launch_modLaunch id fun l => ?_).trans (congrArg _ hl), ?_⟩
  · split <;> rfl
  · dsimp only
    split <;> exact ⟨rfl, rfl⟩

/-! ### Taking a fault -/

/-- Whether a fault holds its context (R320). -/
def heldBy (x : Ctx) (f : FaultInfo) : Bool := (f.code == 0x04 || f.code == 0x07) && !x.stopReq

/-- The state in which the record of a fault is written and everything has landed. -/
def faultLanded (s : State) (k : CoreId) (c : CtxId) (f : FaultInfo) : State :=
  ((s.recordFault k c f (heldBy (s.ctx k c) f)).landAll k c).dropWaiter k (ctxWaiter c)

/-- The state in which its launch fails. -/
def faultFailed (s : State) (k : CoreId) (c : CtxId) (f : FaultInfo) : State :=
  (((faultLanded s k c f).noteBound (s.ctx k c).launch f.code).failLaunch (s.ctx k c).launch 0x07).countFault k c
    (s.ctx k c).launch

theorem takeFault_holds (h : heldBy (s.ctx k c) f = true) :
    s.takeFault k c f = (faultLanded s k c f).modCtx k c fun x => { x with run := .held, heldCode := f.code } := if_pos h

theorem takeFault_stops (h : heldBy (s.ctx k c) f = false) :
    s.takeFault k c f = ((faultFailed s k c f).releaseClusters k c).modCtx k c Ctx.stopNow :=
  if_neg (by rw [show ((f.code == 0x04 || f.code == 0x07) && !(s.ctx k c).stopReq) = false from h]; simp)

/-- What is recorded is written to the tenant's fault ring, and counted. -/
theorem recordFault_cases (s : State) (k : CoreId) (c : CtxId) (f : FaultInfo) (held : Bool) :
    ∃ n, s.recordFault k c f held = { s.ringFault (s.core k).tenant (faultRecord f held (s.ctx k c).launch k c (s.ctx k c).unit
      (f.pc.getD (s.ctx k c).pc) (f.gcc.getD s.gcc)) with counters := n } := by
  unfold State.recordFault
  dsimp only
  split
  · exact ⟨_, rfl⟩
  · exact ⟨_, rfl⟩

/-! ### The tenant's ring (R91, R315) -/

section Ring

variable {t : Tenant} {bs : List Byte}

/-- Whether a record of 64 bytes can be written to a tenant's fault ring now. -/
def ringServed (s : State) (t : Tenant) : Prop :=
  s.late.any (fun e => e.log == .fault t) = false ∧ spanOpen (s.storeOpen none) ((s.tenant t).faultRing.slot 64) 64 = true

theorem write_mem (h : s.stampOn = false) (pa : Nat) (bs : List Byte) : (s.write pa bs).mem = wrBytes s.mem pa bs :=
  stamped_off (s := s.forget pa bs.length) h _ _

theorem ringFault_writes (hb : bs.length = 64) (ho : (s.tenant t).faultRing.open = true) (hs : ringServed s t) :
    s.ringFault t bs = (s.write ((s.tenant t).faultRing.slot 64) bs).modTenant t fun x =>
      { x with faultRing := (s.tenant t).faultRing.push } := by
  have hlate : s.late.any (·.log == .fault t) = false := hs.1
  have hno : ((s.tenant t).faultRing.open && (s.late.any (·.log == .fault t) ||
      !spanOpen (s.storeOpen none) ((s.tenant t).faultRing.slot bs.length) bs.length)) = false := by
    rw [hb, hlate, hs.2]; simp
  unfold State.ringFault State.logTo
  refine (if_neg (by rw [Bool.not_eq_true]; exact hno)).trans ?_
  unfold State.writeLog
  refine (if_pos (by rw [Bool.true_and]; exact ho)).trans ?_
  rw [hb]
  rfl

theorem ringFault_waits (hb : bs.length = 64) (ho : (s.tenant t).faultRing.open = true) (hs : ¬ ringServed s t) :
    s.ringFault t bs = { s with late := s.late ++ [⟨.fault t, bs, none⟩] } := by
  refine if_pos ?_
  rw [hb, Bool.and_eq_true, Bool.or_eq_true, Bool.not_eq_true']
  refine ⟨ho, ?_⟩
  by_contra hno
  rw [not_or, Bool.not_eq_true, Bool.not_eq_false] at hno
  exact hs hno

theorem ringFault_drops (ho : (s.tenant t).faultRing.open = false) :
    s.ringFault t bs = (s.modTenant t fun x => { x with faultRing := (s.tenant t).faultRing.drop }).count 2068 0 := by
  have hno : ((s.tenant t).faultRing.open && (s.late.any (·.log == .fault t) ||
      !spanOpen (s.storeOpen none) ((s.tenant t).faultRing.slot bs.length) bs.length)) = false := by
    rw [ho, Bool.false_and]
  unfold State.ringFault State.logTo
  refine (if_neg (by rw [Bool.not_eq_true]; exact hno)).trans ?_
  unfold State.writeLog
  exact if_neg (by rw [Bool.not_eq_true, Bool.true_and]; exact ho)

theorem ringFault_keeps (hb : bs.length = 64) : (s.ringFault t bs).launches = s.launches ∧ (s.ringFault t bs).cores = s.cores := by
  cases ho : (s.tenant t).faultRing.open
  · rw [ringFault_drops ho]; exact ⟨rfl, rfl⟩
  · by_cases hs : ringServed s t
    · rw [ringFault_writes hb ho hs]; exact ⟨rfl, rfl⟩
    · rw [ringFault_waits hb ho hs]; exact ⟨rfl, rfl⟩

end Ring

theorem faultRecord_length (f : FaultInfo) (held : Bool) (lid : Word) (k : CoreId) (c : CtxId) (unit : Option (BitVec 24))
    (pc : Addr) (gcc : Dword) : (faultRecord f held lid k c unit pc gcc).length = 64 := by
  rw [faultRecord_eq, length_leBytes]

/-- The record that a fault of a context writes. -/
def faultBytes (s : State) (k : CoreId) (c : CtxId) (f : FaultInfo) : List Byte :=
  faultRecord f (heldBy (s.ctx k c) f) (s.ctx k c).launch k c (s.ctx k c).unit (f.pc.getD (s.ctx k c).pc) (f.gcc.getD s.gcc)

theorem faultLanded_landed (s : State) (k : CoreId) (c : CtxId) (f : FaultInfo) :
    (faultLanded s k c f).books = (s.ringFault (s.core k).tenant (faultBytes s k c f)).books ∧
      (faultLanded s k c f).launches = s.launches ∧ ((faultLanded s k c f).ctx k c).flow = ((s.ctx k c).pc, []) := by
  obtain ⟨n, hrec⟩ := recordFault_cases s k c f (heldBy (s.ctx k c) f)
  have hlands := (Lands.landAll (s.recordFault k c f (heldBy (s.ctx k c) f)) k c).trans (dropWaiter_lands _ k (ctxWaiter c))
  obtain ⟨hlaunch, hcores⟩ := ringFault_keeps (s := s) (t := (s.core k).tenant)
    (faultRecord_length f (heldBy (s.ctx k c) f) (s.ctx k c).launch k c (s.ctx k c).unit (f.pc.getD (s.ctx k c).pc)
      (f.gcc.getD s.gcc))
  refine ⟨hlands.books.trans ?_, hlands.launches.trans ?_, (hlands.place.ctxs k c).trans ?_⟩
  · rw [hrec]; rfl
  · rw [hrec]; exact hlaunch
  · have hctx : (s.recordFault k c f (heldBy (s.ctx k c) f)).ctx k c = s.ctx k c := by
      rw [hrec]; exact ctx_of_cores hcores k c
    rw [State.ctx_modCtx, hctx]
    rfl

theorem faultFailed_keeps (s : State) (k : CoreId) (c : CtxId) (f : FaultInfo) :
    (faultFailed s k c f).books = (faultLanded s k c f).books ∧
      ((faultFailed s k c f).ctx k c).flow = ((faultLanded s k c f).ctx k c).flow := by
  have hbound := noteBound_lands (faultLanded s k c f) (s.ctx k c).launch f.code
  obtain ⟨hbooks, hflow⟩ := failLaunch_books ((faultLanded s k c f).noteBound (s.ctx k c).launch f.code) (s.ctx k c).launch 0x07
  exact ⟨hbooks.trans hbound.books, (hflow k c).trans (hbound.place.ctxs k c)⟩

theorem releaseClusters_lands (s : State) (k : CoreId) (c : CtxId) : Lands Ctx.calm s (s.releaseClusters k c) := by
  unfold State.releaseClusters
  exact .modCore fun _ => rfl

/-- What stopping a context leaves. -/
theorem stopNow_lands (s : State) (k : CoreId) (c : CtxId) :
    Lands Ctx.flow s ((s.releaseClusters k c).modCtx k c Ctx.stopNow) :=
  (releaseClusters_lands s k c).place.trans (.modCtx fun _ => rfl)

/-- What taking a fault leaves in the tenant's books and of its context's place. -/
theorem takeFault_keeps (s : State) (k : CoreId) (c : CtxId) (f : FaultInfo) :
    (s.takeFault k c f).books = (s.ringFault (s.core k).tenant (faultBytes s k c f)).books ∧
      ((s.takeFault k c f).ctx k c).flow = ((s.ctx k c).pc, []) := by
  obtain ⟨hbooks, -, hflow⟩ := faultLanded_landed s k c f
  cases h : heldBy (s.ctx k c) f
  · obtain ⟨hb, hf⟩ := faultFailed_keeps s k c f
    have hall := stopNow_lands (faultFailed s k c f) k c
    rw [takeFault_stops h]
    exact ⟨(hall.books.trans hb).trans hbooks, ((hall.ctxs k c).trans hf).trans hflow⟩
  · have hhold : Lands Ctx.flow (faultLanded s k c f) ((faultLanded s k c f).modCtx k c fun x =>
        { x with run := .held, heldCode := f.code }) := .modCtx fun _ => rfl
    rw [takeFault_holds h]
    exact ⟨hhold.books.trans hbooks, (hhold.ctxs k c).trans hflow⟩

/-- A launch whose context takes a fault that stops it fails with FAULT, unless it is failing already or has ended. -/
theorem takeFault_fails {l : Launch} (h : heldBy (s.ctx k c) f = false) (hl : s.launch (s.ctx k c).launch = some l)
    (hf : l.phase ≠ .failing) (he : l.phase ≠ .ended) :
    ∃ l', (s.takeFault k c f).launch (s.ctx k c).launch = some l' ∧ l'.phase = .failing ∧ l'.status = 0x07 := by
  have hlaunches : ((faultLanded s k c f).noteBound (s.ctx k c).launch f.code).launches = s.launches :=
    (noteBound_lands _ _ _).launches.trans (faultLanded_landed s k c f).2.1
  have hsome : ((faultLanded s k c f).noteBound (s.ctx k c).launch f.code).launch (s.ctx k c).launch = some l := by
    rw [State.launch, hlaunches]; exact hl
  obtain ⟨l', hl', hp, hst⟩ := countFault_failing (k := k) (c := c) (failLaunch_failing (st := 0x07) hsome hf he)
  rw [takeFault_stops h, State.launch, (stopNow_lands (faultFailed s k c f) k c).launches]
  exact ⟨l', hl', hp, hst⟩

theorem faultsTaken_claim : Sys2Proof.Claim.FaultsTaken := by
  intro s k c f x t held own ring at_ record served
  obtain ⟨hbooks, hflow⟩ := takeFault_keeps s k c f
  have hlen : (faultBytes s k c f).length = 64 := faultRecord_length ..
  have hmem : t.mem = (s.ringFault own (faultBytes s k c f)).mem := (congrArg Prod.fst hbooks :)
  have hten : t.tenants = (s.ringFault own (faultBytes s k c f)).tenants := (congrArg (·.2.1) hbooks :)
  have hlate : t.late = (s.ringFault own (faultBytes s k c f)).late := (congrArg (·.2.2) hbooks :)
  have hring : (t.tenant own).faultRing = ((s.ringFault own (faultBytes s k c f)).tenant own).faultRing := by
    rw [State.tenant, State.tenant, hten]
  refine ⟨fun h => ?_, fun h => ⟨?_, ?_, fun l hl hf he => takeFault_fails h hl hf he⟩, (congrArg Prod.fst hflow :),
    (congrArg Prod.snd hflow :), fun ho hs => ?_, fun ho hs hoff => ?_, fun ho hs => ⟨?_, ?_, ?_⟩, fun ho => ⟨?_, ?_⟩⟩
  · have hheld : t = _ := takeFault_holds h
    rw [hheld, State.ctx_modCtx, State.modCtx_launches]
    exact ⟨rfl, rfl, (faultLanded_landed s k c f).2.1⟩
  · have hstop : t = _ := takeFault_stops h
    rw [hstop, State.ctx_modCtx]; rfl
  · have hstop : t = _ := takeFault_stops h
    rw [hstop, State.ctx_modCtx]; rfl
  · rw [hring, ringFault_writes hlen ho hs, State.tenant_modTenant]; rfl
  · have hw : t.mem = wrBytes s.mem at_ (faultBytes s k c f) := by
      rw [hmem, ringFault_writes hlen ho hs, State.modTenant_mem, write_mem hoff]
      rfl
    rw [hw]
    refine ⟨?_, fun a ha => rd_wrBytes_out _ _ _ _ (by rw [hlen]; omega)⟩
    have := rdBytes_wrBytes s.mem at_ (faultBytes s k c f)
    rwa [hlen] at this
  · rw [hlate, ringFault_waits hlen ho hs]; rfl
  · rw [hmem, ringFault_waits hlen ho hs]
  · rw [hring, ringFault_waits hlen ho hs]; rfl
  · rw [hmem, ringFault_drops ho]; rfl
  · rw [hring, ringFault_drops ho, show ∀ u : State, (u.count 2068 0).tenant own = u.tenant own from fun _ => rfl,
      State.tenant_modTenant]
    rfl

/-- Settles O31: the record's fields as digits of its number, its place in the tenant's ring, and what becomes of the context
and its launch. -/
theorem faultsTaken : Obligations.FaultsTaken := ⟨faultRecordLayout, faultsTaken_claim⟩

end Sys2Proof.Machine
end

section
/-! Sync words, the end of a bundle, banks, and the events of a core's cycle (R36, R69, R112, R115, R149, R152, R155,
R256). -/
namespace Sys2Proof.Machine

variable {s : State} {k : CoreId} {c : CtxId}

/-! ### The end of a bundle (R112, R149, R152, R155) -/

/-- The loop's next pass, or its end, where a bundle is the last of the body. -/
def Ctx.loopStep (x : Ctx) : Ctx :=
  match x.loop with
  | some l =>
    if x.npc = l.stop then
      match nextIdx l.counts l.idx with
      | some ix => { x with loop := some { l with idx := ix }, npc := l.body }
      | none => { x with loop := none }
    else x
  | none => x

/-- The format writes that count down at a bundle's end. -/
def Ctx.fmtSteps (x : Ctx) : List (Byte × Nat) := x.fmtPend.map fun e => (e.1, e.2 - 1)

theorem endBundle_eq (x : Ctx) : x.endBundle = { x.loopStep with
    fmts := (x.loopStep.fmtSteps.filter (·.2 == 0)).foldl (fun _ e => e.1) x.loopStep.fmts
    fmtPend := x.loopStep.fmtSteps.filter (·.2 != 0)
    bundles := x.loopStep.bundles + 1
    pc := x.loopStep.npc
    skipBp := false
    stepReq := false
    stepStop := x.loopStep.stepStop || x.loopStep.stepReq } := rfl

theorem loopStep_none {x : Ctx} (h : x.loop = none) : x.loopStep = x := by
  rw [Ctx.loopStep, h]

theorem loopStep_inside {x : Ctx} {l : Loop} (h : x.loop = some l) (hn : x.npc ≠ l.stop) : x.loopStep = x := by
  rw [Ctx.loopStep, h]
  exact if_neg hn

theorem loopStep_again {x : Ctx} {l : Loop} {ix : List Nat} (h : x.loop = some l) (hn : x.npc = l.stop)
    (hi : nextIdx l.counts l.idx = some ix) : x.loopStep = { x with loop := some { l with idx := ix }, npc := l.body } := by
  rw [Ctx.loopStep, h]
  dsimp only
  rw [if_pos hn, hi]

theorem loopStep_ends {x : Ctx} {l : Loop} (h : x.loop = some l) (hn : x.npc = l.stop)
    (hi : nextIdx l.counts l.idx = none) : x.loopStep = { x with loop := none } := by
  rw [Ctx.loopStep, h]
  dsimp only
  rw [if_pos hn, hi]

theorem loopStep_bundles (x : Ctx) : x.loopStep.bundles = x.bundles := by
  unfold Ctx.loopStep
  split
  · split
    · split <;> rfl
    · rfl
  · rfl

theorem nextIdx_one {n i : Nat} : nextIdx [n] [i] = if i + 1 < n then some [i + 1] else none := by
  simp [nextIdx]

theorem bundlesAdvance : Sys2Proof.Claim.BundlesAdvance := by
  intro x
  refine ⟨fun h => ?_, ?_, fun l h hn => ?_, fun l n i h hn hc hx => ⟨fun hi => ?_, fun hi => ?_⟩, fun v n h hf => ?_⟩
  · rw [endBundle_eq, loopStep_none h]
  · rw [endBundle_eq]
    exact congrArg (· + 1) (loopStep_bundles x)
  · rw [endBundle_eq, loopStep_inside h hn]
    exact ⟨rfl, h⟩
  · have hix : nextIdx l.counts l.idx = some [i + 1] := by rw [hc, hx, nextIdx_one, if_pos hi]
    rw [endBundle_eq, loopStep_again h hn hix]
    exact ⟨rfl, rfl⟩
  · have hix : nextIdx l.counts l.idx = none := by rw [hc, hx, nextIdx_one, if_neg (by omega)]
    rw [endBundle_eq, loopStep_ends h hn hix]
    exact ⟨hn, rfl⟩
  · rw [endBundle_eq, loopStep_none h, Ctx.fmtSteps, hf]
    refine ⟨fun h0 => ?_, fun h0 => ?_⟩
    · subst h0
      exact ⟨rfl, rfl⟩
    · simp [h0]

/-! ### Sync words (R115) -/

theorem syncMask_bit (w : Word) {f : Nat} (hf : f < 64) :
    (syncMask w).getLsbD f = true ↔ f / 16 = w.toNat / 2 ^ 30 ∧ w.getLsbD (14 + f % 16) = true := by
  have hw := w.isLt
  have hg : (w.extractLsb' 30 2).toNat = w.toNat / 2 ^ 30 := by
    rw [BitVec.extractLsb'_toNat, Nat.shiftRight_eq_div_pow]
    omega
  rw [syncMask, flagMask, hg, BitVec.getLsbD_shiftLeft, BitVec.getLsbD_setWidth, BitVec.getLsbD_extractLsb']
  generalize w.toNat / 2 ^ 30 = g
  simp only [hf, decide_true, Bool.true_and, Bool.and_eq_true, Bool.not_eq_true', decide_eq_false_iff_not, decide_eq_true_eq]
  constructor
  · rintro ⟨hlo, -, hhi, hbit⟩
    have hdiv : f / 16 = g := by omega
    exact ⟨hdiv, by rwa [show f % 16 = f - 16 * g by omega]⟩
  · rintro ⟨rfl, hbit⟩
    exact ⟨by omega, by omega, by omega, by rwa [show f - 16 * (f / 16) = f % 16 by omega]⟩

theorem ne_zero_iff_bit (m : BitVec 64) : m ≠ 0 ↔ ∃ f, f < 64 ∧ m.getLsbD f = true := by
  rw [ne_eq, ← not_iff_not, not_not, BitVec.eq_of_getLsbD_eq_iff]
  simp

theorem and_eq_right_iff_bits (x m : BitVec 64) : x &&& m = m ↔ ∀ f, f < 64 → m.getLsbD f = true → x.getLsbD f = true := by
  rw [BitVec.eq_of_getLsbD_eq_iff]
  simp only [BitVec.getLsbD_and]
  refine forall₂_congr fun f hf => ?_
  cases x.getLsbD f <;> cases m.getLsbD f <;> simp

theorem syncMet_all {x : Ctx} {w : Word} (h : w.getLsbD 12 = false) : syncMet x w = true ↔
    ∀ f, f < 64 → f / 16 = w.toNat / 2 ^ 30 ∧ w.getLsbD (14 + f % 16) = true → x.flags.getLsbD f = true := by
  simp only [syncMet, h, Bool.false_eq_true, if_false, beq_iff_eq, and_eq_right_iff_bits]
  exact forall₂_congr fun f hf => by rw [syncMask_bit w hf]

theorem syncMet_any {x : Ctx} {w : Word} (h : w.getLsbD 12 = true) : syncMet x w = true ↔
    ∃ f, f < 64 ∧ (f / 16 = w.toNat / 2 ^ 30 ∧ w.getLsbD (14 + f % 16) = true) ∧ x.flags.getLsbD f = true := by
  simp only [syncMet, h, if_true, bne_iff_ne, ne_zero_iff_bit, BitVec.getLsbD_and, Bool.and_eq_true]
  refine exists_congr fun f => ⟨fun ⟨hf, hx, hm⟩ => ⟨hf, (syncMask_bit w hf).1 hm, hx⟩,
    fun ⟨hf, hm, hx⟩ => ⟨hf, hx, (syncMask_bit w hf).2 hm⟩⟩

theorem passSync_flags {x : Ctx} {w : Word} (h : w.getLsbD 13 = true) {f : Nat} (hf : f < 64) :
    (x.passSync (some w)).flags.getLsbD f = true ↔ x.flags.getLsbD f = true ∧
      ¬ ((f / 16 = w.toNat / 2 ^ 30 ∧ w.getLsbD (14 + f % 16) = true) ∧ x.setNow.getLsbD f = false) := by
  have hflags : (x.passSync (some w)).flags = x.flags &&& ~~~(syncMask w &&& ~~~x.setNow) := by
    rw [Ctx.passSync]
    simp only [h, if_true]
  rw [hflags, ← syncMask_bit w hf]
  simp only [BitVec.getLsbD_and, BitVec.getLsbD_not, hf, decide_true, Bool.true_and]
  cases x.flags.getLsbD f <;> cases (syncMask w).getLsbD f <;> cases x.setNow.getLsbD f <;> decide

/-- The verdict on a bundle that decodes and is legal, from what holds it, what its checks say, and whether it may make a
pmark stop. -/
def verdictOf (hard sync bar held stops : Bool) (ch : Check) (wide : List Nat) (b : Decoded) : Verdict :=
  if hard || (sync && bar) then .frozen .ok
  else if sync then (if stops then .pmark else .sync)
  else if bar then (if stops then .pmark else .bar)
  else if held then .held
  else
    match ch with
    | .ok => if stops then .pmark else .go b
    | .fault f => .fault f wide
    | .fetch blk => .wait (.fetch blk)
    | ch => .frozen ch

theorem verdictOf_unmet (hard bar held stops : Bool) (ch : Check) (wide : List Nat) (b b' : Decoded) :
    verdictOf hard true bar held stops ch wide b ≠ .go b' := by
  cases hard <;> cases bar <;> cases stops <;> exact nofun

theorem judgeBundle_legal {bs : List Byte} {b : Decoded} (hd : decode bs = .ok b) (hi : illegalSlot (s.ctx k c) b = none) :
    ∃ hard held stops ch, judgeBundle s k c bs = verdictOf hard (match b.sync with | some w => !syncMet (s.ctx k c) w | none => false)
      (s.ctx k c).barWait.isSome held stops ch (wideSlots b) b := by
  unfold judgeBundle
  rw [hd]
  dsimp only
  rw [hi]
  exact ⟨_, _, _, _, rfl⟩

/-- A bundle whose sync word is not met is held, or frozen, or makes another stop. -/
theorem judgeBundle_unmet {bs : List Byte} {b b' : Decoded} {w : Word} (hd : decode bs = .ok b) (hs : b.sync = some w)
    (hm : syncMet (s.ctx k c) w = false) : judgeBundle s k c bs ≠ .go b' := by
  cases hi : illegalSlot (s.ctx k c) b with
  | none =>
    obtain ⟨hard, held, stops, ch, hj⟩ := judgeBundle_legal hd hi
    rw [hj, hs]
    dsimp only
    rw [hm]
    exact verdictOf_unmet _ _ _ _ _ _ _ _
  | some sl =>
    unfold judgeBundle
    rw [hd]
    dsimp only
    rw [hi]
    exact nofun

theorem syncWordsHold : Sys2Proof.Claim.SyncWordsHold := by
  refine fun x w => ⟨syncMet_all, syncMet_any, fun h => ?_, fun h f hf => passSync_flags h hf,
    fun s k c bs b b' hx hd hs hm => judgeBundle_unmet hd hs (by rw [hx]; exact hm)⟩
  change (if w.getLsbD 13 then _ else x) = x
  rw [h]
  rfl

/-! ### Banks (R69) -/

/-- The banks a read takes instead of its own. -/
def otherBanks (b : Nat) : List Nat := ((List.range 4).map (4 * (b / 4) + ·)).filter (· != b) ++ [32 + b / 4]

theorem mem_otherBanks {b n : Nat} (hb : b < 32) : n ∈ otherBanks b ↔
    (n = 4 * (b / 4) ∨ n = 4 * (b / 4) + 1 ∨ n = 4 * (b / 4) + 2 ∨ n = 4 * (b / 4) + 3 ∨ n = 32 + b / 4) ∧ n ≠ b := by
  simp only [otherBanks, List.mem_append, List.mem_filter, List.mem_map, List.mem_range, bne_iff_ne, List.mem_singleton]
  constructor
  · rintro (⟨⟨i, hi, rfl⟩, hne⟩ | rfl) <;> omega
  · rintro ⟨h, hne⟩
    by_cases hp : n = 32 + b / 4
    · exact .inr hp
    · exact .inl ⟨⟨n - 4 * (b / 4), by omega, by omega⟩, hne⟩

theorem serve_write {p : Banks} {a : LAcc} (hw : a.wr = true) : p.serve a =
    if !p.taken.contains (a.line % 32) && !p.taken.contains (32 + a.line % 32 / 4)
      then some { p with taken := a.line % 32 :: (32 + a.line % 32 / 4) :: p.taken } else none := by
  unfold Banks.serve
  rw [hw]
  rfl

theorem serve_read {p : Banks} {a : LAcc} (hw : a.wr = false) : p.serve a =
    if p.read.contains a.line then some p
    else if !p.taken.contains (a.line % 32) then some ⟨a.line % 32 :: p.taken, a.line :: p.read⟩
    else if (otherBanks (a.line % 32)).all (fun n => !p.taken.contains n)
      then some ⟨otherBanks (a.line % 32) ++ p.taken, a.line :: p.read⟩
    else none := by
  unfold Banks.serve
  rw [hw]
  rfl

theorem banksServe : Sys2Proof.Claim.BanksServe := by
  intro p a b g busy others
  have hb : b < 32 := Nat.mod_lt _ (by decide)
  have hbusy (n : Nat) : p.taken.contains n = true ↔ busy n := List.contains_iff_mem
  have hfree (n : Nat) : (!p.taken.contains n) = true ↔ ¬ busy n := by rw [Bool.not_eq_true', ← hbusy, Bool.not_eq_true]
  have hall : ((otherBanks b).all fun n => !p.taken.contains n) = true ↔ ∀ n, others n → ¬ busy n := by
    rw [List.all_eq_true]
    exact forall_congr' fun n => by rw [mem_otherBanks hb, hfree]
  refine ⟨fun hw => ⟨fun h => ?_, fun h1 h2 => ?_⟩, fun hw => ⟨fun h => ?_, fun h h1 => ?_, fun h h1 h2 => ?_, fun h h1 h2 => ?_⟩⟩
  · rw [serve_write hw]
    refine if_neg fun hno => ?_
    obtain ⟨h1, h2⟩ := Bool.and_eq_true_iff.1 hno
    exact h.elim ((hfree _).1 h1) ((hfree _).1 h2)
  · rw [serve_write hw]
    exact if_pos (Bool.and_eq_true_iff.2 ⟨(hfree _).2 h1, (hfree _).2 h2⟩)
  · rw [serve_read hw]
    exact if_pos (List.contains_iff_mem.2 h)
  · rw [serve_read hw]
    exact (if_neg (mt List.contains_iff_mem.1 h)).trans (if_pos ((hfree _).2 h1))
  · rw [serve_read hw]
    refine ⟨_, ((if_neg (mt List.contains_iff_mem.1 h)).trans (if_neg fun hno => (hfree _).1 hno h1)).trans (if_pos (hall.2 h2)),
      rfl, fun n => ?_⟩
    rw [List.mem_append, mem_otherBanks hb, or_comm]
  · obtain ⟨n, hn, hbn⟩ := h2
    rw [serve_read hw]
    exact ((if_neg (mt List.contains_iff_mem.1 h)).trans (if_neg fun hno => (hfree _).1 hno h1)).trans
      (if_neg fun hno => hall.1 hno n hn hbn)

/-! ### The events of a core's cycle (R36, R256) -/

theorem exec_issueCycle (k : CoreId) (s : State) : exec (.issueCycle k) s = execIssueCycle k s := rfl

theorem exec_runmaxExpiry (k : CoreId) (s : State) : exec (.runmaxExpiry k) s = execRunmaxExpiry k s := rfl

theorem exec_pmbExpiry (k : CoreId) (c : CtxId) (s : State) : exec (.pmbExpiry k c) s = execPmbExpiry k c s := rfl

theorem enabledIf_true {b : Bool} (h : b = true) (s : State) : enabledIf b s = .next s := if_pos h

theorem enabledIf_false {b : Bool} (h : b = false) (s : State) : enabledIf b s = .fault .notEnabled :=
  if_neg (by rw [h]; exact Bool.false_ne_true)

theorem cycleReady_not_runmax (h : runmaxDue s k = true) : cycleReady s k = false := by
  unfold cycleReady
  simp [h]

theorem cycleEventsHappen : Sys2Proof.Claim.CycleEventsHappen := by
  intro k s
  refine ⟨fun h => ?_, fun h => ?_, fun hn hh => ?_, fun c h => ?_⟩
  · rw [exec_issueCycle, execIssueCycle, enabledIf_true h]
    rfl
  · have hh : (s.core k).heir.isSome = true := by
      unfold runmaxDue at h
      exact (Bool.and_eq_true_iff.1 h).2
    obtain ⟨d, hd⟩ := Option.isSome_iff_exists.1 hh
    refine ⟨d, hd, ?_⟩
    rw [exec_runmaxExpiry, execRunmaxExpiry, enabledIf_true h, runmaxPass, State.modCore, State.modCore, hd]
    rfl
  · have hdue : runmaxDue s k = true := by
      exact Bool.and_eq_true_iff.2 ⟨decide_eq_true hn, hh⟩
    refine ⟨hdue, ?_⟩
    rw [exec_issueCycle, execIssueCycle, enabledIf_false (cycleReady_not_runmax hdue)]
  · refine ⟨_, by rw [exec_pmbExpiry, execPmbExpiry, enabledIf_true h], ?_⟩
    rw [pmbExpire, State.ctx_modCtx]
    refine ⟨rfl, ⟨(s.core k).cycle, { code := 0x0E, eng := true, slot := 0xFF, gcc := some s.gcc }, ?_, rfl⟩, rfl, rfl⟩
    exact List.mem_append_left _ (List.mem_append_right _ (List.mem_singleton.2 rfl))

end Sys2Proof.Machine
end

section
/-! The cycle in which a context presents its bundle (R36, R37, R70, R322, R348). -/
namespace Sys2Proof.Machine

variable {s t u : State} {k : CoreId} {c : CtxId} {ln : Nat}

/-! ### The error log's counters (R91, R324, R348) -/

theorem counter_count (s : State) (a n b : Nat) :
    (s.count a n).counter b = if b = a then s.counter a + BitVec.ofNat 64 n else s.counter b := by
  rw [State.counter, State.count, aget_ains]
  rfl

theorem counter_modCtx (s : State) (k : CoreId) (c : CtxId) (f : Ctx → Ctx) (n : Nat) :
    (s.modCtx k c f).counter n = s.counter n := rfl

/-- The number that the entry of a rebuilt line holds. -/
def rebuiltEntry (s : State) (k : CoreId) (addr : Nat) : Nat :=
  1 + 4 * 2 ^ 4 + k.toNat * 2 ^ 16 + (addr % 2 ^ 48) * 2 ^ 32 + (s.launchOn k).toNat * 2 ^ 96 + s.gcc.toNat * 2 ^ 128

theorem logCorrected_rebuilt (s : State) (k : CoreId) (addr : Nat) :
    s.logCorrected .spm true k addr = s.logTo .error (leBytes 32 (rebuiltEntry s k addr)) k := rfl

/-- Whether an entry of the error log waits for its share of the DRAM ports. -/
def ErrorWaits (s : State) : Prop :=
  s.errorLog.open = true ∧ (s.late.any (fun e => e.log == .error) = true ∨
    spanOpen (s.storeOpen none) (s.errorLog.slot 32) 32 = false)

theorem logTo_error_waits {bs : List Byte} {o : Option CoreId} (hb : bs.length = 32) (h : ErrorWaits s) :
    s.logTo .error bs o = { s with late := s.late ++ [⟨.error, bs, o⟩] } := by
  refine if_pos ?_
  rw [hb, Bool.and_eq_true, Bool.or_eq_true, Bool.not_eq_true']
  exact h

theorem logTo_error_written {bs : List Byte} {o : Option CoreId} (hb : bs.length = 32) (h : ¬ ErrorWaits s) :
    s.logTo .error bs o = s.writeLog .error bs o := by
  refine if_neg fun hw => h ?_
  rw [hb, Bool.and_eq_true, Bool.or_eq_true, Bool.not_eq_true'] at hw
  exact hw

/-- An entry that is written, or lost, is counted. -/
theorem writeLog_error_counter {bs : List Byte} {o : Option CoreId} {n : Nat} (hn : n ≠ 2068) :
    (s.writeLog .error bs o).counter n = (s.countError bs o).counter n := by
  unfold State.writeLog
  dsimp only
  split
  · rfl
  · rw [counter_count, if_neg hn]
    rfl

theorem writeLog_error_closed {bs : List Byte} {o : Option CoreId} (h : s.errorLog.open = false) :
    (s.writeLog .error bs o).mem = s.mem := by
  have hmem : (s.countError bs o).mem = s.mem := by cases o <;> rfl
  unfold State.writeLog
  refine (congrArg State.mem (if_neg ?_)).trans hmem
  rw [Bool.not_eq_true, Bool.true_and]
  exact h

/-- An entry with UE clear counts a corrected error, of the package and of its core. -/
theorem countError_corrected {bs : List Byte} (hue : (bs.getD 0 0).getLsbD 4 = false) :
    s.countError bs (some k) = (s.count (16 * k.toNat + 6) 1).count 2065 1 := by
  unfold State.countError
  rw [hue]
  rfl

theorem rebuilt_ue (s : State) (k : CoreId) (addr : Nat) :
    ((leBytes 32 (rebuiltEntry s k addr)).getD 0 0).getLsbD 4 = false := by
  have hlow : rebuiltEntry s k addr % 256 = 65 := by
    unfold rebuiltEntry
    omega
  have hbyte : BitVec.ofNat 8 (rebuiltEntry s k addr) = 65#8 := BitVec.eq_of_toNat_eq (by rw [BitVec.toNat_ofNat, hlow]; rfl)
  change (BitVec.ofNat 8 (rebuiltEntry s k addr)).getLsbD 4 = false
  rw [hbyte]
  decide

/-- What a rebuilt line adds to the counters of its core and of the package. -/
theorem rebuilt_counters (s : State) (k : CoreId) (addr : Nat) :
    ((s.logCorrected .spm true k addr).counter (16 * k.toNat + 2) = s.counter (16 * k.toNat + 2)) ∧
    (¬ ErrorWaits s → (s.logCorrected .spm true k addr).counter 2065 = s.counter 2065 + 1 ∧
      (s.logCorrected .spm true k addr).counter (16 * k.toNat + 6) = s.counter (16 * k.toNat + 6) + 1) ∧
    (ErrorWaits s → (s.logCorrected .spm true k addr).counters = s.counters) ∧
    (s.errorLog.open = false ∨ ErrorWaits s → (s.logCorrected .spm true k addr).mem = s.mem) := by
  have hk := k.isLt
  have hlen : (leBytes 32 (rebuiltEntry s k addr)).length = 32 := length_leBytes 32 _
  rw [logCorrected_rebuilt]
  by_cases h : ErrorWaits s
  · rw [logTo_error_waits hlen h]
    exact ⟨rfl, fun hn => absurd h hn, fun _ => rfl, fun _ => rfl⟩
  · rw [logTo_error_written hlen h]
    refine ⟨?_, fun _ => ⟨?_, ?_⟩, fun hw => absurd hw h, fun hc => writeLog_error_closed (hc.resolve_right h)⟩ <;>
      rw [writeLog_error_counter (by omega), countError_corrected (rebuilt_ue s k addr), counter_count]
    · rw [if_neg (by omega), counter_count, if_neg (by omega)]
    · rw [if_pos rfl, counter_count, if_neg (by omega)]
      rfl
    · rw [if_neg (by omega), counter_count, if_pos rfl]
      rfl

/-! ### Presentations (R36, R37, R70, R322) -/

theorem exec_bundleIssue (k : CoreId) (c : CtxId) (err : CellErr) (s : State) :
    exec (.bundleIssue k c err) s = execBundleIssue k c err s := rfl

theorem exec_bankConflictRetry (k : CoreId) (c : CtxId) (s : State) :
    exec (.bankConflictRetry k c) s = execBankConflictRetry k c s := rfl

/-- The cycle in which a context presents its bundle. -/
theorem bundleIssue_happens {err : CellErr} (hr : cycleReady s k = true) (hp : (s.ctx k c).part = none)
    (hin : presentsIn (s.preview k) k c = true) (he : cellErrOk (s.preview k) k c err = true) :
    exec (.bundleIssue k c err) s = .next ((s.cellErr k c err).cycleBody k (s.edge k)) := by
  rw [exec_bundleIssue, execBundleIssue]
  exact enabledIf_true (by rw [hr, hp, hin, he]; rfl) _

theorem cellErr_rebuilt (s : State) (k : CoreId) (c : CtxId) (ln : Nat) : s.cellErr k c (.rebuilt ln) =
    ((s.logCorrected .spm true k (64 * ln)).countConflict k).modCtx k c fun x => { x with stall := true } := rfl

theorem cellErrOk_rebuilt (s : State) (k : CoreId) (c : CtxId) (ln : Nat) :
    cellErrOk s k c (.rebuilt ln) = (readsLine s k c ln && s.rebuildable k.toNat ln) := rfl

/-- A context that a rebuild stalls waits. -/
theorem judge_stalled (hr : (s.ctx k c).run = .running) (hp : (s.ctx k c).part = none) (hs : (s.ctx k c).stopReq = false)
    (hst : (s.ctx k c).stall = true) : judge s k c = .frozen .ok := by
  have hnext : judgeNext s k c = .frozen .ok := by
    unfold judgeNext
    simp only [hr, hp, hs, hst, bne_self_eq_false, Bool.false_eq_true, if_false, Bool.false_and, if_true]
  rw [judge, hnext]
  change (if (s.ctx k c).holdsBack && false then _ else _) = _
  rw [Bool.and_false]
  rfl

theorem presentationsHappen : Sys2Proof.Claim.PresentationsHappen := by
  intro k c s v
  refine ⟨fun hr hp hin => ⟨?_, fun ln hl hb => ?_⟩, fun ln => ?_, fun hr hp hs hst => judge_stalled hr hp hs hst,
    fun hr hp hin => ?_, fun h => ⟨fun err => ?_, ?_⟩⟩
  · exact bundleIssue_happens (err := .clean) hr hp hin rfl
  · have hok : cellErrOk (s.preview k) k c (.rebuilt ln) = true := by rw [cellErrOk_rebuilt, hl, hb]; rfl
    exact bundleIssue_happens hr hp hin hok
  · obtain ⟨hown, hwritten, hwaits, hmem⟩ := rebuilt_counters s k (64 * ln)
    have hk := k.isLt
    have hcount (n : Nat) : (s.cellErr k c (.rebuilt ln)).counter n =
        if n = 16 * k.toNat + 2 then s.counter (16 * k.toNat + 2) + 1 else (s.logCorrected .spm true k (64 * ln)).counter n := by
      rw [← hown, cellErr_rebuilt, counter_modCtx, State.countConflict, counter_count]
      rfl
    have hsame : (s.cellErr k c (.rebuilt ln)).mem = (s.logCorrected .spm true k (64 * ln)).mem := by
      rw [cellErr_rebuilt, State.modCtx_mem]
      rfl
    refine ⟨?_, ?_, fun h => ?_, fun h => ?_, fun h => hsame.trans (hmem h)⟩
    · rw [cellErr_rebuilt, State.ctx_modCtx]
    · rw [hcount, if_pos rfl]
    · obtain ⟨h1, h2⟩ := hwritten h
      rw [hcount, if_neg (by omega), h1, hcount, if_neg (by omega), h2]
      exact ⟨rfl, rfl⟩
    · have hsame (n : Nat) : (s.logCorrected .spm true k (64 * ln)).counter n = s.counter n :=
        congrArg (fun m => aget m n 0) (hwaits h)
      rw [hcount, if_neg (by omega), hcount, if_neg (by omega)]
      exact ⟨hsame _, hsame _⟩
  · have hpart : (s.ctx k c).part.isSome = true := Option.isSome_iff_ne_none.2 hp
    rw [exec_bankConflictRetry, execBankConflictRetry]
    exact enabledIf_true (by rw [hr, hpart, hin]; rfl) _
  · rw [exec_bundleIssue, execBundleIssue]
    refine enabledIf_false ?_ _
    rcases h with h | h
    · rw [h]; simp
    · rw [show presentsIn (s.preview k) k c = false from h]; simp
  · rw [exec_bankConflictRetry, execBankConflictRetry]
    refine enabledIf_false ?_ _
    rcases h with h | h
    · rw [h]; simp
    · rw [show presentsIn (s.preview k) k c = false from h]; simp

/-! ### The merge, and accesses that are refused (R36, R37, R70) -/

theorem seeUnits_aside (s : State) (q : Who) (w pa n : Nat) : (s.seeUnits q w pa n).2.aside = s.aside := by
  induction n generalizing s pa with
  | zero => rfl
  | succ n ih =>
    obtain ⟨fc, pc, ps, pr, h⟩ := see_quiet s q pa w
    rw [State.seeUnits]
    refine (ih _ _).trans ?_
    rw [h]
    rfl

theorem seeLanes_aside (s : State) (q : Who) (w pa n : Nat) : (s.seeLanes q w pa n).2.aside = s.aside := by
  unfold State.seeLanes
  split
  · rfl
  · exact seeUnits_aside ..

theorem seeLines_aside (s : State) (rs : List (Nat × BitVec 16 × Nat)) (m : List (Nat × Line)) :
    (s.seeLines rs m).2.aside = s.aside :=
  foldl_leaves (fun r : List (Nat × Line) × State => r.2.aside)
    (fun (q : List (Nat × Line) × State) (r : Nat × BitVec 16 × Nat) =>
      (ains q.1 r.1 (q.2.seeLine r).1, (q.2.seeLine r).2)) (fun _ _ => seeLanes_aside ..) rs (m, s)

theorem start_aside (s : State) (as : List (LAcc × List (Nat × Byte))) : (Part.start s as).2.aside = s.aside :=
  seeLines_aside ..

theorem performServed_aside (as : List (LAcc × List (Nat × Byte))) (now : List Nat) (p : Part) (s : State) :
    (performServed as now p s).2.aside = s.aside :=
  (foldl_leaves State.aside (fun (t : State) (a : LAcc × List (Nat × Byte)) => t.storeLocal a.2 a.1.cls a.1.unit)
    (fun _ _ => storeLocal_aside ..) _ _).trans (seeLines_aside ..)

theorem observeSync_aside (s : State) (k : CoreId) (c : CtxId) (sync : Option Word) :
    (s.observeSync k c sync).aside = s.aside := by
  unfold State.observeSync
  split
  · exact foldl_leaves State.aside (fun (t : State) (f : FlagSrc) => t.observe k c (s.ctx k c).pos f) (fun _ _ => rfl) _ s
  · rfl

theorem guardKnow_aside (s : State) (rs : List (Nat × Nat)) : (s.guardKnow rs).aside = s.aside := by
  refine foldl_leaves State.aside _ (fun t ch => ?_) s.here.chans s
  split
  · dsimp only
    split <;> split <;> rfl
  · rfl

theorem touchAll_aside (s : State) (ps : List (Nat × Plan × State)) : (s.touchAll ps).aside = s.aside := by
  refine foldl_leaves State.aside _ (fun t q => ?_) ps s
  refine foldl_leaves State.aside _ (fun t a => ?_) q.2.1.touch t
  exact touch_aside ..

/-- What a bundle consumes changes no context's place. -/
theorem consumeAll_flow (s : State) (rs : List (Dest × BitVec 16)) (es : List LaqEntry) :
    ((s.consumeAll rs es).ctx k c).flow = (s.ctx k c).flow := by
  rcases consumeAll_eq s rs es with ⟨ps, f, h, -⟩ | h
  · rw [h]
    exact flow_modCtx fun _ => rfl
  · rw [h]

/-- What a bundle learns changes no context's place. -/
theorem learnBundle_flow (s : State) (b : Decoded) (ps : List (Nat × Plan × State)) :
    ((s.learnBundle b ps).ctx k c).flow = (s.ctx k c).flow := by
  have hend : (s.learnBundle b ps).aside = ((s.observeSync s.cur.1 s.cur.2 b.sync).consumeAll
      (ps.flatMap fun q => q.2.1.reads) (ps.flatMap fun q => popped q.2.2.here q.2.1.pops)).aside :=
    (touchAll_aside ..).trans (guardKnow_aside ..)
  rw [ctx_of_cores (congrArg Prod.fst hend), consumeAll_flow, ctx_of_cores (congrArg Prod.fst (observeSync_aside ..))]

/-- The line accesses of a bundle that begins service. -/
def State.firstAccs (s : State) (k : CoreId) (c : CtxId) (b : Decoded) : List (LAcc × List (Nat × Byte)) :=
  accsOf (plansOf (opsOf b) (s.present k c b.len))

/-- What it holds then. -/
def State.firstPart (s : State) (k : CoreId) (c : CtxId) (b : Decoded) : Part × State :=
  Part.start ((s.present k c b.len).learnBundle b (plansOf (opsOf b) (s.present k c b.len))) (s.firstAccs k c b)

/-- Which of its accesses are served, and the phase after them. -/
def State.firstServed (s : State) (k : CoreId) (c : CtxId) (b : Decoded) (ph : Banks) : Banks × List Nat :=
  ph.serveAll [] 0 ((s.firstAccs k c b).map (·.1))

/-- What it holds once they are performed. -/
def State.firstDone (s : State) (k : CoreId) (c : CtxId) (b : Decoded) (ph : Banks) : Part × State :=
  performServed (s.firstAccs k c b) (s.firstServed k c b ph).2 (s.firstPart k c b).1 (s.firstPart k c b).2

/-- A bundle that begins service. -/
theorem serveBundle_first (hp : (s.ctx k c).part = none) (b : Decoded) (ph : Banks) (whole : Bool) :
    s.serveBundle k c b ph whole =
      if (s.firstServed k c b ph).2.length == (s.firstAccs k c b).length
        then ((s.firstServed k c b ph).1, (s.firstDone k c b ph).2.commitBundle k c b (s.firstDone k c b ph).1, true)
      else if whole then (ph, s, false)
      else ((s.firstServed k c b ph).1,
        (s.firstDone k c b ph).2.modCtx k c fun x => { x with part := some (s.firstDone k c b ph).1 }, false) := by
  have hpres : ((s.present k c b.len).ctx k c).part = none := by
    rw [State.present, State.ctx_modCtx]
    exact hp
  have hbegun : (s.present k c b.len).asBegun k c = s.present k c b.len := by
    rw [State.asBegun, hpres]
  unfold State.serveBundle
  dsimp only
  rw [hp, hbegun]
  rfl

theorem slotsFree_iff {used wide : List Nat} : slotsFree used wide = true ↔ ∀ w ∈ wide, w ∉ used := by
  simp [slotsFree]

theorem firstDone_flow (s : State) (k : CoreId) (c : CtxId) (b : Decoded) (ph : Banks) :
    ((s.firstDone k c b ph).2.ctx k c).flow = (s.ctx k c).flow := by
  have hside : (s.firstDone k c b ph).2.aside =
      ((s.present k c b.len).learnBundle b (plansOf (opsOf b) (s.present k c b.len))).aside :=
    (performServed_aside ..).trans (start_aside ..)
  rw [ctx_of_cores (congrArg Prod.fst hside) k c, learnBundle_flow, State.present, State.ctx_modCtx]
  rfl

theorem bundlesMerge : Sys2Proof.Claim.BundlesMerge := by
  intro s k c ph used b as served
  have hrefused : served.length ≠ as.length →
      ((s.firstServed k c b ph).2.length == (s.firstAccs k c b).length) = false := fun hl => beq_false_of_ne hl
  have hserved : served.length = as.length →
      ((s.firstServed k c b ph).2.length == (s.firstAccs k c b).length) = true := fun hl => beq_iff_eq.2 hl
  refine ⟨fun hj hw => ?_, fun hj hw => ?_, fun hp hl => ⟨?_, ?_⟩, fun hp hl => ⟨?_, ?_⟩⟩
  · obtain ⟨w, hw, hu⟩ := hw
    rw [State.mergePart, hj]
    exact if_neg fun h => slotsFree_iff.1 h w hw hu
  · rw [State.mergePart, hj]
    exact if_pos (slotsFree_iff.2 hw)
  · rw [serveBundle_first hp, hrefused hl]
    rfl
  · refine ⟨(s.firstDone k c b ph).1,
      (s.firstDone k c b ph).2.modCtx k c fun x => { x with part := some (s.firstDone k c b ph).1 }, ?_, ?_⟩
    · rw [serveBundle_first hp, hrefused hl]
      rfl
    · rw [State.ctx_modCtx]
      exact ⟨rfl, rfl, (congrArg Prod.fst (firstDone_flow s k c b ph) :)⟩
  · rw [serveBundle_first hp, hserved hl]
    rfl
  · rw [serveBundle_first hp, hserved hl]
    rfl

end Sys2Proof.Machine
end

section
/-! Which context is primary after a cycle (R36), and the events of a core's cycle together. -/
namespace Sys2Proof.Machine

variable {s t : State} {k : CoreId} {c : CtxId}

/-! ### What leaves primacy alone -/

/-- Each core's primary context. -/
def State.turn (s : State) (k : CoreId) : CtxId := (s.core k).primary

theorem turn_of_cores (h : t.cores = s.cores) : t.turn = s.turn := by
  funext k
  rw [State.turn, State.turn, State.core, State.core, h]

theorem turn_of_aside (h : t.aside = s.aside) : t.turn = s.turn := turn_of_cores (congrArg Prod.fst h)

theorem turn_modCore {f : Core → Core} (hf : ∀ y, (f y).primary = y.primary) (s : State) (k : CoreId) :
    (s.modCore k f).turn = s.turn := by
  funext j
  rw [State.turn, State.turn]
  rcases eq_or_ne j k with rfl | h
  · rw [State.core_modCore, hf]
  · rw [s.core_modCore_ne f h]

theorem turn_modCtx (s : State) (k : CoreId) (c : CtxId) (f : Ctx → Ctx) : (s.modCtx k c f).turn = s.turn :=
  turn_modCore (by exact fun _ => rfl) s k

theorem modMx_turn (s : State) (k : CoreId) (id : Nat) (f : MxCmd → MxCmd) : (s.modMx k id f).turn = s.turn :=
  turn_modCore (by exact fun _ => rfl) s k

theorem delMx_turn (s : State) (k : CoreId) (id : Nat) : (s.delMx k id).turn = s.turn :=
  turn_modCore (by exact fun _ => rfl) s k

theorem failLaunch_turn (s : State) (id : Word) (st : Byte) : (s.failLaunch id st).turn = s.turn := by
  unfold State.failLaunch
  split
  · rfl
  · rename_i l _
    split
    · rfl
    · exact foldl_leaves State.turn (askStop id s.gcc) (fun _ _ => turn_modCtx ..) l.members
        (s.modLaunch id fun l => { l with phase := .failing, status := st })

theorem engFlags_turn (s : State) (k : CoreId) (c : CtxId) (n : Nat) (f : Byte) : (s.engFlags k c n f).turn = s.turn := by
  unfold State.engFlags State.orFlags
  split
  · split
    · rfl
    · exact turn_modCtx ..
  · rfl

theorem engineFault_turn (s : State) (k : CoreId) (c : CtxId) (n : Nat) (id : Word) (f : FaultInfo) :
    (s.engineFault k c n id f).turn = s.turn := by
  have hring : ((s.ringFault (s.core k).tenant (faultRecord f false id k c none 0 s.gcc)).failLaunch id 0x07).turn =
      s.turn :=
    (failLaunch_turn ..).trans (turn_of_cores (ringFault_keeps (faultRecord_length ..)).2)
  unfold State.engineFault
  dsimp only
  split
  · exact turn_modCtx ..
  · split <;> split <;> (try split) <;> exact hring

/-! ### The accumulator's accesses leave it alone (R77, R198) -/

theorem overrun_turn (s : State) (k : CoreId) (u : InUse) (line : Nat) (rec : Bool) :
    (s.overrun k u line rec).1.turn = s.turn := by
  unfold State.overrun
  dsimp only
  split
  · rfl
  · split
    · exact turn_modCtx ..
    · split
      · rfl
      · exact turn_of_cores (ringFault_keeps (faultRecord_length ..)).2

theorem landSpm_turn (s : State) (w : Who) (k : CoreId) (x : Nat) (bs : List Byte) (rec : Bool) (n : Nat) :
    (s.landSpm w k x bs rec n).1.turn = s.turn := by
  unfold State.landSpm
  split
  · exact overrun_turn ..
  · exact turn_of_aside (writeBy_aside ..)

theorem landRow_turn (w : Who) (rec : Bool) (a : Nat) (bs : List Byte) (n : Nat) (s : State) :
    (s.landRow w k rec a bs n).1.turn = s.turn := by
  induction n generalizing s rec a bs with
  | zero => rfl
  | succ n ih =>
    rw [State.landRow]
    exact (ih ..).trans (landSpm_turn ..)

theorem accFlags_turn (s : State) (k : CoreId) (o : AccOp) (f : Byte) : (s.accFlags k o f).turn = s.turn := by
  unfold State.accFlags
  split
  · exact modMx_turn ..
  · exact engFlags_turn ..

theorem accFault_turn (s : State) (k : CoreId) (o : AccOp) (row : Nat) : (s.accFault k o row).turn = s.turn := by
  unfold State.accFault
  dsimp only
  split
  · exact (engineFault_turn ..).trans ((engFlags_turn ..).trans ((delMx_turn ..).trans
      (turn_modCore (by exact fun _ => rfl) s k)))
  · exact turn_modCore (by exact fun _ => rfl) s k

theorem accAccess_turn (s : State) (k : CoreId) (o : AccOp) : (s.accAccess k o).turn = s.turn := by
  unfold State.accAccess
  split
  · exact accFault_turn ..
  · split
    · exact (accFlags_turn ..).trans (turn_of_aside (writeBy_aside ..))
    · exact (accFlags_turn ..).trans ((turn_modCore (by exact fun _ => rfl) _ k).trans (turn_of_aside (seeLanes_aside ..)))
    · exact (turn_modCore (by exact fun _ => rfl) _ k).trans (landRow_turn ..)

theorem engTake_turn (s : State) (ls : List (CoreId × Nat)) : (s.engTake ls).turn = s.turn := by
  obtain ⟨-, -, hcore⟩ := engTake_books s ls
  funext k
  obtain ⟨ws, h⟩ := hcore k
  rw [State.turn, h]
  rfl

theorem accPerform_turn (s : State) (k : CoreId) (o : AccOp) : (s.accPerform k o).turn = s.turn := by
  unfold State.accPerform
  split
  · rfl
  · split
    · exact (modMx_turn ..).trans (turn_modCore (by exact fun _ => rfl) s k)
    · exact (accAccess_turn ..).trans ((turn_modCore (by exact fun _ => rfl) _ k).trans (engTake_turn ..))

theorem accAccesses_turn (s : State) (k : CoreId) (lands : Bool) : (s.accAccesses k lands).turn = s.turn :=
  foldl_leaves State.turn (fun (t : State) (o : AccOp) => t.accPerform k o) (fun _ _ => accPerform_turn ..) _ s

/-! ### Primacy after a cycle (R36) -/

/-- What each context of a core would do now. -/
def verdicts (s : State) (k : CoreId) : List (CtxId × Verdict) := allCtxs.map fun c => (c, judge s k c)

theorem verdicts_ready (s : State) (k : CoreId) (d : CtxId) :
    ((verdicts s k).any fun cv => cv.1 == d && cv.2.ready) = (judge s k d).ready := by
  have hmem : d ∈ allCtxs := by revert d; decide
  rw [Bool.eq_iff_iff, verdicts, List.any_map, List.any_eq_true]
  constructor
  · rintro ⟨e, -, he⟩
    obtain ⟨hd, hr⟩ := Bool.and_eq_true_iff.1 he
    exact beq_iff_eq.1 hd ▸ hr
  · exact fun hr => ⟨d, hmem, Bool.and_eq_true_iff.2 ⟨beq_self_eq_true d, hr⟩⟩

theorem nextReady_verdicts (s : State) (k : CoreId) (c : CtxId) :
    ((ctxsAfter c).find? fun d => (verdicts s k).any fun cv => cv.1 == d && cv.2.ready) = nextReady s k c :=
  congrArg (fun p => (ctxsAfter c).find? p) (funext fun d => verdicts_ready s k d)

theorem nextReady_eq (s : State) (k : CoreId) (c : CtxId) : nextReady s k c =
    if (judge s k (c + 1)).ready then some (c + 1) else if (judge s k (c + 2)).ready then some (c + 2)
      else if (judge s k (c + 3)).ready then some (c + 3) else none := by
  rw [nextReady, ctxsAfter, List.find?_cons, List.find?_cons, List.find?_cons, List.find?_nil]
  cases (judge s k (c + 1)).ready <;> cases (judge s k (c + 2)).ready <;> cases (judge s k (c + 3)).ready <;> rfl

theorem turn_aside (s : State) (at_ : CoreId × CtxId) (k : CoreId) :
    (({ s with cur := at_ } : State).core k).primary = s.turn k := rfl

/-- The context that is primary after the issue stage. -/
theorem issueStage_primary (s : State) (k : CoreId) :
    ((s.issueStage k).core k).primary =
      let did := (((verdicts s k).foldl (fun t cv => t.settle k cv.1 cv.2) s).primaryPart k (s.core k).primary).2.2
      if did.y || did.stood then (nextReady s k (s.core k).primary).getD (s.core k).primary else (s.core k).primary := by
  unfold State.issueStage
  dsimp only
  rw [turn_aside, accAccesses_turn, State.turn, State.core_modCore, ← nextReady_verdicts]
  rfl

/-- Whether the primary gives its turn away. -/
theorem primaryPart_passes (u : State) (k : CoreId) (p : CtxId) :
    ((u.primaryPart k p).2.2.y || (u.primaryPart k p).2.2.stood) = match judge u k p with
      | .go b => !((u.serveBundle k p b {} false).2.2 && !b.y)
      | .fault _ _ => false
      | .stop _ _ => false
      | _ => true := by
  unfold State.primaryPart
  cases judge u k p with
  | go b =>
    dsimp only
    cases (u.serveBundle k p b {} false).2.2 <;> cases b.y <;> rfl
  | _ => rfl

theorem primacyPasses : Sys2Proof.Claim.PrimacyPasses := by
  intro s k p u heir
  have hpass : ((s.issueStage k).core k).primary =
      if (u.primaryPart k p).2.2.y || (u.primaryPart k p).2.2.stood then heir else p := issueStage_primary s k
  refine ⟨fun c => nextReady_eq s k c, ?_⟩
  have hflip (a : Bool) : (if !a then heir else p) = if a then p else heir := by cases a <;> rfl
  rw [hpass, primaryPart_passes]
  clear_value u
  cases judge u k p with
  | go b => exact hflip _
  | _ => rfl

/-- Settles O34: a cycle's parts, one claim each; primacy after a cycle is `issueStage_primary`, with the accumulator's
accesses, which come last in the cycle, leaving it alone. -/
theorem cyclesAdvance : Obligations.CyclesAdvance :=
  ⟨presentationsHappen, primacyPasses, bundlesMerge, banksServe, syncWordsHold, bundlesAdvance, cycleEventsHappen⟩

end Sys2Proof.Machine
end

section
/-! A cycle in which one context alone presents a bundle of one operation (R36, R37, R120). -/
namespace Sys2Proof.Machine

variable {s t u : State} {k : CoreId} {c : CtxId} {b : Decoded} {sl : Nat} {i : Instr}

/-! ### What a bundle with no accesses learns and holds -/

theorem consumeAll_cur (s : State) (rs : List (Dest × BitVec 16)) (es : List LaqEntry) : (s.consumeAll rs es).cur = s.cur := by
  rcases consumeAll_eq s rs es with ⟨ps, f, h, -⟩ | h <;> rw [h]
  rfl

theorem cur_of_aside (h : t.aside = s.aside) : t.cur = s.cur := congrArg (·.2.1) h

theorem learnBundle_cur (s : State) (b : Decoded) (ps : List (Nat × Plan × State)) : (s.learnBundle b ps).cur = s.cur :=
  (cur_of_aside ((touchAll_aside ..).trans (guardKnow_aside ..))).trans
    ((consumeAll_cur ..).trans (cur_of_aside (observeSync_aside ..)))

theorem firstAccs_none (ho : opsOf b = [(sl, i)]) (ha : (planOf i (s.present k c b.len)).lacc = []) :
    s.firstAccs k c b = [] := by
  rw [State.firstAccs, ho, plansOf, plansOf, accsOf]
  refine List.flatMap_eq_nil_iff.2 fun q hq => ?_
  have hq : q = (sl, planOf i (s.present k c b.len), s.present k c b.len) := 
    (List.mem_append.1 hq).elim (fun h => List.mem_singleton.1 (List.mem_filter.1 h).1)
      fun h => List.mem_singleton.1 (List.mem_filter.1 h).1
  rw [hq, ha]
  rfl

/-- What such a bundle holds when it is served: only the translations that its checks found. -/
theorem firstDone_none (h : s.firstAccs k c b = []) (ph : Banks) :
    s.firstDone k c b ph = (⟨[], [], [], [], ((s.present k c b.len).learnBundle b (plansOf (opsOf b)
      (s.present k c b.len))).here.tlb⟩, (s.present k c b.len).learnBundle b (plansOf (opsOf b) (s.present k c b.len))) := by
  rw [State.firstDone, State.firstServed, State.firstPart, h]
  rfl

theorem serveBundle_none (hp : (s.ctx k c).part = none) (h : s.firstAccs k c b = []) (ph : Banks) (whole : Bool) :
    s.serveBundle k c b ph whole =
      (ph, (s.firstDone k c b ph).2.commitBundle k c b (s.firstDone k c b ph).1, true) := by
  rw [serveBundle_first hp, State.firstServed, h]
  rfl

/-! ### Its commit -/

/-- The state in which the operations of a bundle are read to commit. -/
def State.cleared (s : State) (k : CoreId) (c : CtxId) (len : Nat) : State :=
  (s.present k c len).modCtx k c fun x => { x with part := none, waitGcc := none, barWait := none, xfer := none }

/-- A bundle of one operation issues. -/
def State.issueOne (s : State) (k : CoreId) (c : CtxId) (b : Decoded) (i : Instr) : State :=
  (((((planOf i s).commit ((s.modCtx k c (·.passSync b.sync)).popAll (planOf i s).pops)).modCtx k c
    Ctx.endBundle).count (16 * k.toNat) 1).dropWaiter k (ctxWaiter c)).finish

theorem cleared_cur (s : State) (k : CoreId) (c : CtxId) (n : Nat) : (s.cleared k c n).cur = (k, c) := rfl

theorem cleared_ctx (s : State) (k : CoreId) (c : CtxId) (n : Nat) : ((s.cleared k c n).ctx k c).part = none := by
  rw [State.cleared, State.ctx_modCtx]

theorem cleared_tlb (s : State) (k : CoreId) (c : CtxId) (n : Nat) : ((s.cleared k c n).core k).tlb = (s.core k).tlb := by
  rw [State.cleared, State.core_modCtx, State.present, State.core_modCtx]
  rfl

/-- A change that gives a core what it has changes nothing, once the core is listed. -/
theorem modCore_same {f : Ctx → Ctx} {g : Core → Core} (h : g ((s.modCtx k c f).core k) = (s.modCtx k c f).core k) :
    (s.modCtx k c f).modCore k g = s.modCtx k c f := by
  rw [State.modCore, h, State.core_modCtx]
  exact s.setCore_setCore ..

/-- A bundle that captured nothing sees the state as it is. -/
theorem view_cleared (s : State) (k : CoreId) (c : CtxId) (n : Nat) :
    (Part.view ⟨[], [], [], [], (s.core k).tlb⟩ (s.cleared k c n)) = s.cleared k c n := by
  have htlb : (s.cleared k c n).modCore k (fun y => { y with tlb := (s.core k).tlb }) = s.cleared k c n :=
    modCore_same (by rw [← cleared_tlb s k c n]; rfl)
  have hpoison : ((s.cleared k c n).poison.filter fun _ => true) ++ [] = (s.cleared k c n).poison := by
    rw [List.append_nil, List.filter_true]
  refine Eq.trans ?_ htlb
  exact congrArg (fun ps => { (s.cleared k c n).modCore k (fun y => { y with tlb := (s.core k).tlb }) with poison := ps }) hpoison

theorem commitBundle_one (ho : opsOf b = [(sl, i)]) :
    s.commitBundle k c b ⟨[], [], [], [], (s.core k).tlb⟩ = (s.cleared k c b.len).issueOne k c b i := by
  have hview := view_cleared s k c b.len
  unfold State.commitBundle
  dsimp only
  rw [show (s.present k c b.len).modCtx k c _ = s.cleared k c b.len from rfl, hview, ho]
  rfl

/-! ### It leaves nothing of a bundle's service behind -/

theorem passSync_part (x : Ctx) (w : Option Word) : (x.passSync w).part = x.part := by
  unfold Ctx.passSync
  split
  · dsimp only
    split <;> rfl
  · rfl

theorem endBundle_part (x : Ctx) : x.endBundle.part = x.part := by
  rw [endBundle_eq]
  change x.loopStep.part = x.part
  unfold Ctx.loopStep
  split
  · split
    · split <;> rfl
    · rfl
  · rfl

theorem finish_part (hc : s.cur = (k, c)) (hp : (s.ctx k c).part = none) : (s.finish.ctx k c).part = none := by
  have hfin := Stays.finish (w := {}) s
  have hpart := hfin.part
  rw [State.me, State.me, hfin.cur, hc, hp] at hpart
  exact hpart

theorem dropWaiter_ctx (s : State) (k : CoreId) (n : Nat) (c : CtxId) : (s.dropWaiter k n).ctx k c = s.ctx k c := by
  rw [State.dropWaiter]
  exact ctx_modCore (by exact fun _ => rfl)

/-- The close of a bundle, after its operations' commits. -/
theorem closing_part (n m w : Nat) (hc : s.cur = (k, c)) (hp : (s.ctx k c).part = none) :
    ((((((s.modCtx k c Ctx.endBundle).count n m).dropWaiter k w).finish).ctx k c).part) = none := by
  have hbundle : ((s.modCtx k c Ctx.endBundle).ctx k c).part = none := by rw [State.ctx_modCtx, endBundle_part, hp]
  refine finish_part hc ?_
  rw [dropWaiter_ctx]
  exact hbundle

theorem issueOne_part (hc : s.cur = (k, c)) (hp : (s.ctx k c).part = none) : ((s.issueOne k c b i).ctx k c).part = none := by
  have hop := ((Stays.popAll (w := writtenBy i) (s.modCtx k c (·.passSync b.sync)) (planOf i s).pops).trans
    (planOf_quiet i s _))
  have hat : (s.modCtx k c (·.passSync b.sync)).cur = (k, c) := hc
  have hpart := hop.part
  rw [State.me, State.me, hop.cur, hat, State.ctx_modCtx, passSync_part, hp] at hpart
  exact closing_part _ _ _ (hop.cur.trans hat) hpart

/-! ### The cycle around it -/

/-- The counts and the primacy that a cycle leaves. -/
def State.cycleClose (s : State) (k : CoreId) (vs : List (CtxId × Verdict)) (heir : CtxId) (next : Option CtxId)
    (s2 : State) : State :=
  let p := (s.core k).primary
  let frozen := (vs.filter fun cv => cv.2.isFrozen || (cv.1 == p && (s2.ctx k p).part.isSome)).length
  let s3 := (s2.count (16 * k.toNat + 1) frozen).modCore k fun y =>
    { y with primary := heir, primCycles := if heir == p then y.primCycles + 1 else 0, heir := next }
  { s3.accAccesses k true with cur := s.cur }

/-- The end of a core's cycle, from what its primary did. -/
def State.cycleEnd (s : State) (k : CoreId) (vs : List (CtxId × Verdict)) (next : Option CtxId)
    (r : Banks × State × PrimaryDid) : State :=
  let p := (s.core k).primary
  let m := match next with
    | some d => r.2.1.mergePart k d r.1 r.2.2.wide
    | none => (r.2.1, false)
  let heir := if r.2.2.y || r.2.2.stood then next.getD p else p
  let issued := fun (c : CtxId) => (c == p && r.2.2.issued) || (next == some c && m.2)
  s.cycleClose k vs heir next (vs.foldl (fun t cv => t.modCtx k cv.1 fun x => x.endCycle
    (if cv.1 == p && x.part.isSome then .frozen .ok else cv.2) (0 < (s.ctx k cv.1).delay) (issued cv.1)) m.1)

theorem issueStage_eq (s : State) (k : CoreId) : s.issueStage k = s.cycleEnd k (verdicts s k)
    (nextReady s k (s.core k).primary)
    (((verdicts s k).foldl (fun t cv => t.settle k cv.1 cv.2) s).primaryPart k (s.core k).primary) := by
  rw [← nextReady_verdicts]
  rfl

/-- The verdicts of a core of which one context alone presents a bundle. -/
def aloneVerdict (c : CtxId) (b : Decoded) (d : CtxId) : Verdict := if d = c then .go b else .idle

theorem judge_idle (h : (s.ctx k c).run ≠ .running) : judge s k c = .idle := by
  have hnext : judgeNext s k c = .idle := if_pos (bne_iff_ne.2 h)
  rw [judge, hnext]
  change (if (s.ctx k c).holdsBack && false then _ else _) = _
  rw [Bool.and_false]
  rfl

theorem verdicts_alone (hj : judge u k c = .go b) (hr : ∀ d, d ≠ c → (u.ctx k d).run ≠ .running) (d : CtxId) :
    judge u k d = aloneVerdict c b d := by
  rw [aloneVerdict]
  split
  · rename_i h
    rw [h, hj]
  · exact judge_idle (hr d ‹_›)

theorem settle_alone (s : State) (k : CoreId) (c : CtxId) (b : Decoded) (d : CtxId) :
    s.settle k d (aloneVerdict c b d) = s := by
  rw [aloneVerdict]
  split <;> rfl

/-- The end of the cycle for each context. -/
def State.endAlone (u : State) (k : CoreId) (c : CtxId) (b : Decoded) (t : State) (d : CtxId) : State :=
  t.modCtx k d fun x => x.endCycle (if d = c then .go b else .idle) (0 < (u.ctx k d).delay) (d == c)

/-- It is the same where a context's service is not over. -/
def State.endServing (u : State) (k : CoreId) (c : CtxId) (b : Decoded) (t : State) (d : CtxId) : State :=
  t.modCtx k d fun x => x.endCycle (if d == c && x.part.isSome then .frozen .ok else aloneVerdict c b d)
    (0 < (u.ctx k d).delay) ((d == c && true) || ((none : Option CtxId) == some d && false))

theorem endServing_eq (hp : (t.ctx k c).part = none) (d : CtxId) : u.endServing k c b t d = u.endAlone k c b t d := by
  have hserved : (d == c && (t.ctx k d).part.isSome) = false := by
    rcases eq_or_ne d c with rfl | h
    · rw [hp]; simp
    · rw [beq_false_of_ne h]; rfl
  have hissued : ((d == c && true) || ((none : Option CtxId) == some d && false)) = (d == c) := by
    rw [Bool.and_true, Bool.and_false, Bool.or_false]
  rw [State.endServing, State.endAlone, State.modCtx, hserved, hissued]
  rfl

theorem endAlone_part (hp : (t.ctx k c).part = none) (d : CtxId) : ((u.endAlone k c b t d).ctx k c).part = none := by
  rw [State.endAlone]
  rcases eq_or_ne d c with rfl | h
  · rw [State.ctx_modCtx]
    exact hp
  · rw [t.ctx_modCtx_ctx _ fun h' => h (congrArg Prod.snd h').symm, hp]

theorem endServing_foldl (ds : List CtxId) (hp : (t.ctx k c).part = none) :
    ds.foldl (u.endServing k c b) t = ds.foldl (u.endAlone k c b) t ∧
      ((ds.foldl (u.endAlone k c b) t).ctx k c).part = none := by
  induction ds generalizing t with
  | nil => exact ⟨rfl, hp⟩
  | cons d ds ih =>
    rw [List.foldl_cons, List.foldl_cons, endServing_eq hp]
    exact ih (endAlone_part hp d)

/-- The end of a cycle in which the primary issued and no other context was ready. -/
theorem cycleEnd_alone {ph : Banks} {wide : List Nat} (hc : (u.core k).primary = c) (hp : (s.ctx k c).part = none) :
    u.cycleEnd k (allCtxs.map fun d => (d, aloneVerdict c b d)) none (ph, s, ⟨true, b.y, false, wide⟩) =
      { (((allCtxs.foldl (u.endAlone k c b) s).count (16 * k.toNat + 1) 0).modCore k fun y =>
        { y with primary := c, primCycles := y.primCycles + 1, heir := none }).accAccesses k true with cur := u.cur } := by
  obtain ⟨hfold, hpart⟩ := endServing_foldl (u := u) (b := b) allCtxs hp
  have hfrozen : ((allCtxs.map fun d => (d, aloneVerdict c b d)).filter fun cv => cv.2.isFrozen ||
      (cv.1 == c && ((allCtxs.foldl (u.endAlone k c b) s).ctx k c).part.isSome)).length = 0 := by
    rw [hpart, List.length_eq_zero_iff, List.filter_eq_nil_iff]
    intro cv hcv
    obtain ⟨d, -, rfl⟩ := List.mem_map.1 hcv
    rw [aloneVerdict]
    split <;> simp [Verdict.isFrozen]
  have hheir : (if (b.y || false) = true then (none : Option CtxId).getD c else c) = c := ite_self _
  have hclose : u.cycleEnd k (allCtxs.map fun d => (d, aloneVerdict c b d)) none (ph, s, ⟨true, b.y, false, wide⟩) =
      u.cycleClose k (allCtxs.map fun d => (d, aloneVerdict c b d)) c none (allCtxs.foldl (u.endServing k c b) s) := by
    unfold State.cycleEnd
    dsimp only
    rw [hc, hheir, List.foldl_map]
    rfl
  rw [hclose, hfold, State.cycleClose, hc, hfrozen]
  simp only [beq_self_eq_true, if_true]

theorem nextReady_alone (hv : ∀ d, judge u k d = aloneVerdict c b d) : nextReady u k c = none := by
  have hidle (n : CtxId) (hn : n ≠ 0) : (judge u k (c + n)).ready = false := by
    rw [hv, aloneVerdict, if_neg fun h => hn (BitVec.add_right_eq_self.1 h)]
    rfl
  rw [nextReady_eq, hidle 1 (by decide), hidle 2 (by decide), hidle 3 (by decide)]
  rfl

/-- The primary's part of the cycle: its bundle, which has no accesses, commits. -/
theorem primaryPart_alone (hj : judge u k c = .go b) (hp : (u.ctx k c).part = none) (ho : opsOf b = [(sl, i)])
    (ha : (planOf i (u.present k c b.len)).lacc = []) :
    let v := u.present k c b.len
    u.primaryPart k c = ({}, (((v.learnBundle b [(sl, planOf i v, v)]).cleared k c b.len).issueOne k c b i),
      ⟨true, b.y, false, wideSlots b⟩) := by
  intro v
  have hplans : plansOf (opsOf b) v = [(sl, planOf i v, v)] := by rw [ho]; rfl
  have hat : (v.learnBundle b [(sl, planOf i v, v)]).cur = (k, c) := learnBundle_cur ..
  have hserve : u.serveBundle k c b {} false =
      ({}, (((v.learnBundle b [(sl, planOf i v, v)]).cleared k c b.len).issueOne k c b i), true) := by
    rw [serveBundle_none hp (firstAccs_none ho ha), firstDone_none (firstAccs_none ho ha), hplans, State.here, hat,
      commitBundle_one ho]
  rw [State.primaryPart, hj]
  dsimp only
  rw [hserve]
  rfl

/-- The cycle of a core of which one context alone presents a bundle, of one operation without accesses. -/
theorem issueStage_alone (hprim : (u.core k).primary = c) (hj : judge u k c = .go b)
    (hrun : ∀ d, d ≠ c → (u.ctx k d).run ≠ .running) (hp : (u.ctx k c).part = none) (ho : opsOf b = [(sl, i)])
    (ha : (planOf i (u.present k c b.len)).lacc = []) :
    let v := u.present k c b.len
    let done := ((v.learnBundle b [(sl, planOf i v, v)]).cleared k c b.len).issueOne k c b i
    u.issueStage k = { (((allCtxs.foldl (u.endAlone k c b) done).count (16 * k.toNat + 1) 0).modCore k fun y =>
        { y with primary := c, primCycles := y.primCycles + 1, heir := none }).accAccesses k true with cur := u.cur } := by
  intro v done
  have hv : ∀ d, judge u k d = aloneVerdict c b d := verdicts_alone hj hrun
  have hvs : verdicts u k = allCtxs.map fun d => (d, aloneVerdict c b d) := List.map_congr_left fun d _ => by rw [hv]
  have hsettled : (verdicts u k).foldl (fun t cv => t.settle k cv.1 cv.2) u = u := by
    rw [hvs, List.foldl_map]
    exact List.foldl_fixed' (settle_alone u k c b) _
  rw [issueStage_eq, hsettled, hprim, nextReady_alone hv, hvs, primaryPart_alone hj hp ho ha]
  exact cycleEnd_alone hprim (issueOne_part (cleared_cur ..) (cleared_ctx ..))

theorem stepIssuesBundle : Sys2Proof.Claim.StepIssuesBundle := by
  intro s k c r b sl i hs u hready hpart hprim hrun hj ho hup v ha w done rest
  have hin : presentsIn u k c = true := by
    rw [presentsIn]
    rw [hprim, beq_self_eq_true, if_pos rfl, hj]
    rfl
  rw [step_agenda hs, bundleIssue_happens (err := .clean) hready hpart hin rfl]
  exact congrArg Host.Outcome.next (issueStage_alone hprim hj hrun hup ho ha)

/-- Settles O33: the agenda's head is what a step runs; the cycle of a lone bundle of one operation, which makes no accesses,
is its plan's commit between the bundle's opening and its close. -/
theorem stepRunsDecoded : Obligations.StepRunsDecoded :=
  ⟨fun _ _ _ h => step_agenda h, stepIssuesBundle⟩

end Sys2Proof.Machine
end

section
/-! Units are dealt, each once (R32, R33, R34, R294). -/
namespace Sys2Proof.Machine

variable {s t u : State} {k : CoreId} {c : CtxId} {l : Launch} {id : Word}

/-! ### Pending launches -/

theorem launch_id (h : s.launch id = some l) : l.id = id := beq_iff_eq.1 (List.find?_some h :)

theorem launch_of_launches (h : t.launches = s.launches) (id : Word) : t.launch id = s.launch id := by
  rw [State.launch, State.launch, h]

theorem launch_modLaunch_self {f : Launch → Launch} (h : s.launch id = some l) (hf : ∀ m, (f m).id = m.id) :
    (s.modLaunch id f).launch id = some (f l) := by
  rw [launch_modLaunch id hf, h]
  rfl

/-- A context starts a run of a launch (R31). -/
theorem startCtx_ctx (s : State) (l : Launch) (k : CoreId) (c : CtxId) (n : Option Nat) :
    (startCtx s l k c n).ctx k c = { (s.ctx k c).fresh with
      run := .starting, runId := s.nextId, launch := l.id, unit := n.map (BitVec.ofNat 24), startUnit := n.map (BitVec.ofNat 24)
      clmask := recMask l.record c.toNat, nctx := BitVec.ofNat 2 (recCtxs l.record - 1) } :=
  State.ctx_modCtx { s with nextId := s.nextId + 1 } k c fun _ => _

theorem startCtx_launch (k : CoreId) (c : CtxId) (n : Option Nat) (h : s.launch l.id = some l) :
    ∃ m, (startCtx s l k c n).launch l.id = some m ∧ m.next = l.next := by
  refine ⟨_, launch_modLaunch_self (s := ({ s with nextId := s.nextId + 1 } : State).setCtx k c _) h (by exact fun _ => rfl), rfl⟩

/-! ### DISPATCH_RESTART (R32, R294) -/

theorem exec_dispatchRestart (k : CoreId) (c : CtxId) (s : State) :
    exec (.dispatchRestart k c) s = execDispatchRestart k c s := rfl

theorem restart_deals {n : Nat} (h : s.launch (s.ctx k c).launch = some l) (hn : nextUnit l = some n) :
    s.restart k c = (startCtx s l k c (some n)).noteDeal l.id k c := by
  rw [State.restart, h]
  dsimp only
  rw [hn]

theorem noteDeal_launch (k : CoreId) (c : CtxId) (b : Bool) (h : s.launch id = some l) :
    ∃ m, (s.noteDeal id k c b).launch id = some m ∧ m.next = (if b then l.next + 1 else l.next) :=
  ⟨_, launch_modLaunch_self h (by exact fun _ => rfl), rfl⟩

/-! ### NXU_SERVICE (R33, R34, R294) -/

theorem exec_nxuService (k : CoreId) (c : CtxId) (s : State) : exec (.nxuService k c) s = execNxuService k c s := rfl

/-- The answer to a request lands. -/
def State.nxuReply (s : State) (r : NxuReq) (v : Dword) : State :=
  let t := s.modCtx r.core r.ctx fun x => x.arrive r.sb (v.setWidth 512) 0 0
  match ((t.ctx r.core r.ctx).sbs.find? fun b => b.id == r.sb) with
  | some b => (t.modCtx r.core r.ctx fun x => { x with sbs := ldelFirst (fun q => q.id == r.sb) x.sbs }).landSb r.core r.ctx b
  | none => t

/-- A request has left its queue. -/
def State.unqueue (s : State) (r : NxuReq) : State := { s with nxus := ldelFirst (fun q => q == r) s.nxus }

/-- Whether a launch has a unit for a core. -/
def dealsTo (l : Launch) (k : CoreId) : Option Nat :=
  if l.phase == .admitted && !l.dealStop.contains k.toNat then nextUnit l else none

theorem serveNxu_eq {r : NxuReq} (hr : (s.ctx r.core r.ctx).inRun r.runId = true) (hl : s.launch r.launch = some l) :
    s.serveNxu r = match dealsTo l r.core with
      | some n => (((s.unqueue r).noteDeal l.id r.core r.ctx).modLaunch l.id fun m =>
          { m with holding := amod m.holding (ctxKey r.core r.ctx) [] (· ++ [n]) }).nxuReply r (unitWord l.record n)
      | none => ((s.unqueue r).noteDeal l.id r.core r.ctx false).nxuReply r (1#64 <<< 63) := by
  unfold State.serveNxu
  dsimp only
  rw [hr, hl]
  rfl

/-- What the answer leaves where one result alone is in flight, the one asked for. -/
theorem nxuReply_lands {r : NxuReq} {b : Sb} {w : WReg} (v : Dword) (hb : (s.ctx r.core r.ctx).sbs = [b]) (hid : b.id = r.sb)
    (hc : b.cancelled = false) (hd : b.dest = .w w) :
    aget ((s.nxuReply r v).ctx r.core r.ctx).works w.toNat 0 = v ∧ ((s.nxuReply r v).ctx r.core r.ctx).sbs = [] ∧
      (s.nxuReply r v).launches = s.launches := by
  have harrived : ((s.ctx r.core r.ctx).arrive r.sb (v.setWidth 512) 0 0).sbs =
      [{ b with arrived := true, val := v.setWidth 512, poison := 0, flags := 0, va := 0 }] := by
    rw [Ctx.arrive, hb, lmodFirst, hid, beq_self_eq_true, if_pos rfl]
  have hval : (v.setWidth 512).setWidth 64 = v := by
    rw [BitVec.setWidth_setWidth_of_le _ (by decide), BitVec.setWidth_eq]
  unfold State.nxuReply
  dsimp only
  rw [State.ctx_modCtx, harrived, List.find?_cons, hid, beq_self_eq_true]
  dsimp only
  rw [landSb_live (by exact hc), orFlags_zero, State.landSbDest]
  dsimp only
  rw [hd]
  dsimp only
  rw [State.ctx_modCtx, State.ctx_modCtx, State.ctx_modCtx, harrived, ldelFirst, hid, beq_self_eq_true, aget_ains_same, hval]
  exact ⟨rfl, rfl, rfl⟩

/-! ### The claim -/

theorem unitsRestart {n : Nat} (hr : restartReady s k c = true) (hl : s.launch (s.ctx k c).launch = some l)
    (hn : nextUnit l = some n) :
    ∃ u l', exec (.dispatchRestart k c) s = .next u ∧ (u.ctx k c).run = .starting ∧
      (u.ctx k c).unit = some (BitVec.ofNat 24 n) ∧ (u.ctx k c).clmask = recMask l.record c.toNat ∧
      u.launch l.id = some l' ∧ l'.next = l.next + 1 ∧ u.mem = s.mem := by
  have hself : s.launch l.id = some l := by rw [launch_id hl, hl]
  obtain ⟨m, hm, hnext⟩ := startCtx_launch k c (some n) hself
  obtain ⟨m', hm', hnext'⟩ := noteDeal_launch k c true hm
  have hctx := startCtx_ctx s l k c (some n)
  refine ⟨(startCtx s l k c (some n)).noteDeal l.id k c, m', ?_, ?_, ?_, ?_, hm', ?_, rfl⟩
  · rw [exec_dispatchRestart, execDispatchRestart, enabledIf_true hr, restart_deals hl hn]
  · exact congrArg Ctx.run hctx
  · exact congrArg Ctx.unit hctx
  · exact congrArg Ctx.clmask hctx
  · rw [hnext', if_pos rfl, hnext]

/-- Settles O43: a restarted context starts on the next unit, and a request's answer lands where only its result is in
flight. -/
theorem unitsDealt : Obligations.UnitsDealt := by
  intro s k c
  refine ⟨fun l n hr hl hn => unitsRestart hr hl hn, fun r l b hq hready hrun hl hsbs hid hcan hw hphase => ?_⟩
  obtain ⟨w, hw⟩ := hw
  have hplace : r.core = k ∧ r.ctx = c := by simpa using List.find?_some hq
  obtain ⟨rfl, rfl⟩ := hplace
  have hself : s.launch l.id = some l := by rw [launch_id hl, hl]
  have hexec : exec (.nxuService r.core r.ctx) s = .next (s.serveNxu r) := by
    rw [exec_nxuService, execNxuService, hq]
    exact enabledIf_true hready _
  have hlands (t : State) (v : Dword) (ht : t.cores = s.cores) :=
    nxuReply_lands (s := t) v ((congrArg Ctx.sbs (ctx_of_cores ht r.core r.ctx)).trans hsbs) hid hcan hw
  rw [serveNxu_eq hrun hl] at hexec
  refine ⟨fun n hn hstop => ?_, fun hnone => ?_⟩
  · have hdeal : dealsTo l r.core = some n := by simp [dealsTo, hphase, hstop, hn]
    rw [hdeal] at hexec
    obtain ⟨hwork, hsb, hlaunches⟩ := hlands (((s.unqueue r).noteDeal l.id r.core r.ctx).modLaunch l.id fun m =>
      { m with holding := amod m.holding (ctxKey r.core r.ctx) [] (· ++ [n]) }) (unitWord l.record n) rfl
    obtain ⟨m, hm, hnext⟩ := noteDeal_launch (s := s.unqueue r) r.core r.ctx true hself
    refine ⟨_, _, w, hw, hexec, hwork, (launch_of_launches hlaunches _).trans
      (launch_modLaunch_self hm (by exact fun _ => rfl)), ?_, hsb⟩
    exact hnext
  · have hdeal : dealsTo l r.core = none := by
      rcases hnone with h | h <;> simp [dealsTo, h]
    rw [hdeal] at hexec
    obtain ⟨hwork, hsb, -⟩ := hlands ((s.unqueue r).noteDeal l.id r.core r.ctx false) (1#64 <<< 63) rfl
    refine ⟨_, w, hw, hexec, ?_, hsb⟩
    rw [hwork]
    decide

end Sys2Proof.Machine
end

section
/-! Contexts start (R31, R68, R318, R353). -/
namespace Sys2Proof.Machine

variable {s t u : State} {k : CoreId} {c : CtxId} {l : Launch}

theorem meetNext_clean_used (as : Option ErrAt) (y : Option CoreId) (ws : List Nat) (used : Bool) (h : s.nextErrs = []) :
    s.meetNext as y ws used = s := by
  rw [State.meetNext, h]
  exact congrArg (fun e => { s with nextErrs := e }) h.symm

theorem exec_contextStart (k : CoreId) (c : CtxId) (s : State) : exec (.contextStart k c) s = execContextStart k c s := rfl

theorem contextStart_happens (hn : s.nextErrs = []) (hr : startReady s k c = true)
    (hd : (s.startWords k c).all (s.dramOpen (some (s.core k).tenant)) = true) :
    exec (.contextStart k c) s = .next (s.startContext k c) := by
  rw [exec_contextStart, execContextStart, meetNext_clean_used _ _ _ _ hn]
  exact enabledIf_true (Bool.and_eq_true_iff.2 ⟨hr, hd⟩) _

theorem startWords_pending {e : Nat × FaultInfo} {es : List (Nat × FaultInfo)} (hl : s.launch (s.ctx k c).launch = some l)
    (hp : (s.ctx k c).pendFaults = e :: es) : s.startWords k c = [] := by
  rw [State.startWords, hl]
  dsimp only
  rw [hp]
  rfl

/-- The fault that a context takes before its first bundle. -/
def State.startFault (s : State) (k : CoreId) (c : CtxId) (l : Launch) (f : FaultInfo) : State :=
  s.takeFault k c { f with pc := some (BitVec.ofNat 48 (recSeg l.record)), slot := 0xFF }

/-- The address of a launch's entry word. -/
def entryWord (l : Launch) : Nat := recSeg l.record + 0x40 + 4 * recEntry l.record

/-- What becomes of a context whose header and entry word are read. -/
def State.startWith (s : State) (k : CoreId) (c : CtxId) (l : Launch) (h : Line) (pc : Nat) : State :=
  let g := parseHeader (BitVec.ofNat 48 (recSeg l.record)) h
  if h.extractLsb' 0 32 != 0x4753565A || h.extractLsb' 32 8 != 0x01 || g.nent.toNat < recEntry l.record then
    s.startFault k c l { code := 0x0C, detail := 2, va := BitVec.ofNat 48 (entryWord l) }
  else if !g.inCode pc || pc % 8 != 0 then s.startFault k c l { code := 0x0C, va := BitVec.ofNat 48 pc }
  else s.enter l k c g (BitVec.ofNat 48 pc)

theorem startContext_pending {n : Nat} {f : FaultInfo} {es : List (Nat × FaultInfo)}
    (hl : s.launch (s.ctx k c).launch = some l) (hp : (s.ctx k c).pendFaults = (n, f) :: es) :
    s.startContext k c = (s.modCtx k c fun x => { x with pendFaults := x.pendFaults.drop 1 }).takeFault k c
      { f with pc := some (BitVec.ofNat 48 (recSeg l.record)) } := by
  rw [State.startContext]
  simp only [hl, hp, List.head?_cons]

/-- The bytes at some pieces, one after the other. -/
def piecesBytes (s : State) (ps : List (Nat × Nat)) : List Byte := ps.flatMap fun p => rdBytes s.mem p.1 p.2

/-- A fetch whose reads are sure reads memory's bytes and changes nothing. -/
theorem fetchBytes_sure {q : Who} {ps : List (Nat × Nat)} (h : ∀ p ∈ ps, s.sure q p.1 p.2 = true) :
    s.fetchBytes q ps = (piecesBytes s ps, s) := by
  suffices hfold : ∀ bs : List Byte, ps.foldl (fun (r : List Byte × State) p =>
      (r.1 ++ (r.2.seeBytes q p.1 p.2).1, (r.2.seeBytes q p.1 p.2).2)) (bs, s) = (bs ++ piecesBytes s ps, s) from hfold []
  induction ps with
  | nil => exact fun bs => by rw [piecesBytes, List.flatMap_nil, List.append_nil]; rfl
  | cons p ps ih =>
    intro bs
    have hp : s.seeBytes q p.1 p.2 = (rdBytes s.mem p.1 p.2, s) := if_pos (h p List.mem_cons_self)
    rw [List.foldl_cons]
    dsimp only
    rw [hp, ih fun p hp => h p (List.mem_cons_of_mem _ hp), List.append_assoc]
    rfl

theorem startContext_reads {ha ea : List (Nat × Nat)} (hl : s.launch (s.ctx k c).launch = some l)
    (hp : (s.ctx k c).pendFaults = []) (hh : s.fetchRead k c (recSeg l.record) 64 = .ok ha)
    (he : s.fetchRead k c (entryWord l) 4 = .ok ea)
    (hs : ∀ p ∈ ha ++ ea, s.sure ((s.ctx k c).fetches k c) p.1 p.2 = true) :
    s.startContext k c = s.startWith k c l (BitVec.ofNat 512 (leNat (piecesBytes s ha)))
      (recSeg l.record + leNat (piecesBytes s ea)) := by
  have hhead := fetchBytes_sure fun p hp => hs p (List.mem_append_left ea hp)
  have hentry := fetchBytes_sure fun p hp => hs p (List.mem_append_right ha hp)
  rw [State.startContext]
  split
  · rename_i hnone
    exact nomatch hl.symm.trans hnone
  rename_i m hm
  obtain rfl : m = l := Option.some.inj (hm.symm.trans hl)
  extract_lets seg ew fault
  rw [hp]
  split
  · contradiction
  split
  case h_6 ha' ea' hh' he' =>
    obtain rfl : ha' = ha := CodeRead.ok.inj (hh'.symm.trans hh)
    obtain rfl : ea' = ea := CodeRead.ok.inj (he'.symm.trans he)
    rw [hhead]
    extract_lets hr er hb eb s' fault' h g pc
    have her : er = (piecesBytes s ea', s) := hentry
    clear_value er
    subst her
    rw [State.startWith]
    rfl
  case h_1 h _ => exact nomatch h.symm.trans hh
  case h_2 h _ => exact nomatch h.symm.trans hh
  case h_3 h => exact nomatch h.symm.trans hh
  case h_4 h => exact nomatch h.symm.trans he
  case h_5 h => exact nomatch h.symm.trans he

/-! ### The context that starts -/

theorem enter_ctx (s : State) (l : Launch) (k : CoreId) (c : CtxId) (g : Seg) (pc : Addr) :
    (s.enter l k c g pc).ctx k c = { s.ctx k c with
      run := .running, begun := true, pc := pc, npc := pc, seg := g, scal := startScalars l (s.ctx k c).startUnit
      domain := startDomain s l k, splo := boundOf (g.splo.setWidth 64), sphi := boundOf (g.sphi.setWidth 64) } := by
  rw [State.enter, State.ctx_modCtx, ctx_modCore (by exact fun _ => rfl)]

theorem headerBound (v : Word) : (boundOf (v.setWidth 64)).toNat = v.toNat % 2 ^ 23 / 64 * 64 := by
  have h := v.isLt
  rw [boundOf_eq, BitVec.toNat_ofNat, BitVec.toNat_setWidth_of_le (by decide)]
  omega

/-- The scalar that holds a unit's x and y. -/
theorem startPlace (l : Launch) (n : Option (BitVec 24)) : aget (startScalars l n) 10 0 = if n.isSome then
    BitVec.ofNat 64 ((n.getD 0).toNat % recX l.record + (n.getD 0).toNat / recX l.record * 65536) else 0 := by
  cases n with
  | none =>
    change BitVec.ofNat 64 (0 * 65536 + 0) = _
    rw [Nat.zero_mul]
    rfl
  | some n =>
    rw [Option.isSome_some, if_pos rfl, Option.getD_some, Nat.add_comm]
    rfl

theorem contextsStartAtEntry : Sys2Proof.Claim.ContextsStart := by
  intro s k c l hn hr hl
  refine ⟨fun n f rest hp => ?_, fun ha ea hp hd hh he hs => ?_⟩
  · rw [contextStart_happens hn hr (by rw [startWords_pending hl hp]; rfl), startContext_pending hl hp]
    have hdrop : (s.modCtx k c fun x => { x with pendFaults := x.pendFaults.drop 1 }) =
        s.modCtx k c fun x => { x with pendFaults := rest } := by
      rw [State.modCtx, hp]
      rfl
    rw [hdrop]
  · intro bytes h pc g v
    have hexec : exec (.contextStart k c) s = .next (s.startWith k c l h pc) := by
      rw [contextStart_happens hn hr hd, startContext_reads hl hp hh he hs]
      rfl
    refine ⟨fun hmagic hver hent hcode hal => ?_, fun hmagic => ?_⟩
    · have henter : s.startWith k c l h pc = s.enter l k c g (BitVec.ofNat 48 pc) := by
        have hbad : (h.extractLsb' 0 32 != 0x4753565A || h.extractLsb' 32 8 != 0x01 ||
            decide (g.nent.toNat < recEntry l.record)) = false := by
          rw [hmagic, hver, decide_eq_false (by omega)]
          rfl
        have hout : (!g.inCode pc || pc % 8 != 0) = false := by rw [hcode, hal]; rfl
        exact (if_neg (by rw [hbad]; exact Bool.false_ne_true)).trans (if_neg (by rw [hout]; exact Bool.false_ne_true))
      refine ⟨_, hexec.trans (congrArg _ henter), ?_⟩
      rw [enter_ctx]
      exact ⟨rfl, BitVec.toNat_ofNat .., rfl, rfl, rfl, startPlace .., rfl, rfl, headerBound g.splo, rfl⟩
    · have hbad : (h.extractLsb' 0 32 != 0x4753565A || h.extractLsb' 32 8 != 0x01 ||
          decide (g.nent.toNat < recEntry l.record)) = true := by
        rw [bne_iff_ne.2 hmagic]
        rfl
      rw [hexec]
      exact congrArg Host.Outcome.next (if_pos hbad)

end Sys2Proof.Machine
end

section
/-! Cores are assigned and their contexts started (R31, R32, R41, R293, R294). -/
namespace Sys2Proof.Machine

variable {s t u : State} {k : CoreId} {c : CtxId} {l : Launch} {id : Word} {r : Line}

/-! ### Contexts that have started -/

/-- A context has been started on a launch, perhaps on a unit. -/
def Started (u : State) (id : Word) (r : Line) (j : CoreId) (c : CtxId) (v : Option Nat) : Prop :=
  (u.ctx j c).run = .starting ∧ (u.ctx j c).launch = id ∧ (u.ctx j c).clmask = recMask r c.toNat ∧
    (u.ctx j c).unit = v.map (BitVec.ofNat 24)

theorem startCtx_started (s : State) (l : Launch) (j : CoreId) (c : CtxId) (v : Option Nat) :
    Started (startCtx s l j c v) l.id l.record j c v := by
  rw [Started, startCtx_ctx]
  exact ⟨rfl, rfl, rfl, rfl⟩

theorem startCtx_others {j : CoreId} {d : CtxId} (v : Option Nat) (h : (j, d) ≠ (k, c)) :
    (startCtx s l k c v).ctx j d = s.ctx j d :=
  State.ctx_modCtx_ctx { s with nextId := s.nextId + 1 } (fun _ => _) h

/-- Starts a context at a place. -/
def startAt (l : Launch) (t : State) (p : CoreId × CtxId × Option Nat) : State := startCtx t l p.1 p.2.1 p.2.2

/-- Of places that are started one after the other, each starts as it is listed. -/
theorem startAt_foldl {j : CoreId} {d : CtxId} {v : Option Nat} (ps : List (CoreId × CtxId × Option Nat))
    (hv : ∀ p ∈ ps, (p.1, p.2.1) = (j, d) → p.2.2 = v)
    (h : (∃ p ∈ ps, (p.1, p.2.1) = (j, d)) ∨ Started s l.id l.record j d v) :
    Started (ps.foldl (startAt l) s) l.id l.record j d v := by
  induction ps generalizing s with
  | nil =>
    obtain ⟨p, hp, -⟩ | h := h
    · exact nomatch hp
    · exact h
  | cons p ps ih =>
    refine ih (fun q hq => hv q (List.mem_cons_of_mem _ hq)) ?_
    by_cases hp : (p.1, p.2.1) = (j, d)
    · obtain ⟨rfl, rfl⟩ := Prod.mk.inj hp
      obtain rfl := hv p List.mem_cons_self rfl
      exact .inr (startCtx_started ..)
    · obtain ⟨q, hq, hqp⟩ | h := h
      · obtain rfl | hq := List.mem_cons.1 hq
        · exact absurd hqp hp
        · exact .inl ⟨q, hq, hqp⟩
      · refine .inr ?_
        rw [Started, startAt, startCtx_others _ fun h' => hp h'.symm]
        exact h

/-! ### What starting leaves alone -/

/-- The memory and the tick. -/
def State.still (s : State) := (s.mem, s.gcc)

/-- The cycles of the cores. -/
def State.clock (s : State) (k : CoreId) : Nat := (s.core k).cycle

theorem startAt_still (l : Launch) (t : State) (p : CoreId × CtxId × Option Nat) : (startAt l t p).still = t.still := rfl

theorem clock_modCtx (s : State) (j : CoreId) (c : CtxId) (f : Ctx → Ctx) (k : CoreId) :
    (s.modCtx j c f).clock k = s.clock k := by
  rw [State.clock, State.clock]
  rcases eq_or_ne k j with rfl | h
  · rw [State.core_modCtx]
    rfl
  · rw [s.core_modCtx_ne c f h]

theorem startCtx_clock (s : State) (l : Launch) (j : CoreId) (c : CtxId) (v : Option Nat) (k : CoreId) :
    (startCtx s l j c v).clock k = s.clock k := clock_modCtx { s with nextId := s.nextId + 1 } j c (fun _ => _) k

/-- A core as it is set up for a launch. -/
def Core.setUp (cycle : Nat) (cs : List Nat) (y : Core) : Core :=
  Core.forgetIdle
    { y with
      cycle := cycle
      primary := BitVec.ofNat 2 (cs.foldl min 3)
      primCycles := 0
      heir := none
      ctxs := y.ctxs.map fun x => (x.1, x.2.fresh) }

theorem takeCore_core (s : State) (l : Launch) (k : CoreId) (cs : List Nat) :
    (s.takeCore l k cs).core k = (s.core k).setUp (s.die (dieOf k)).cycle cs :=
  State.core_modCore s k (Core.setUp (s.die (dieOf k)).cycle cs)

theorem takeCore_clock (s : State) (l : Launch) (k : CoreId) (cs : List Nat) :
    (s.takeCore l k cs).clock k = (s.die (dieOf k)).cycle := by
  rw [State.clock, takeCore_core]
  rfl

/-! ### Units dealt to the contexts of a core (R294) -/

theorem nextUnit_unselected (h : l.sel = none) : nextUnit l = if l.next < recW l.record then some l.next else none := by
  rw [nextUnit, h]
  rfl

/-- A context is started on a unit, which is dealt. -/
theorem dealt_launch (n : Nat) (h : s.launch id = some l) :
    ∃ m, ((startCtx s l k c (some n)).noteDeal id k c).launch id = some m ∧ m.record = l.record ∧ m.sel = l.sel ∧
      m.next = l.next + 1 := by
  obtain rfl := launch_id h
  obtain ⟨m, hm, -⟩ := startCtx_launch k c (some n) h
  exact ⟨_, launch_modLaunch_self (launch_modLaunch_self (s := ({ s with nextId := s.nextId + 1 } : State).setCtx k c _) h
    (by exact fun _ => rfl)) (by exact fun _ => rfl), rfl, rfl, rfl⟩

theorem dealCore_none (cs : List Nat) (h : s.launch id = some l) (hn : nextUnit l = none) : s.dealCore id k cs = s := by
  cases cs with
  | nil => rfl
  | cons c cs =>
    rw [State.dealCore, h]
    dsimp only
    rw [hn]

theorem dealCore_some {n a : Nat} (cs : List Nat) (h : s.launch id = some l) (hn : nextUnit l = some n) :
    s.dealCore id k (a :: cs) =
      ((startCtx s l k (BitVec.ofNat 2 a) (some n)).noteDeal id k (BitVec.ofNat 2 a)).dealCore id k cs := by
  rw [State.dealCore, h]
  dsimp only
  rw [hn]

theorem dealCore_still (id : Word) (k : CoreId) (cs : List Nat) (s : State) : (s.dealCore id k cs).still = s.still := by
  induction cs generalizing s with
  | nil => rfl
  | cons c cs ih =>
    rw [State.dealCore]
    split
    · split
      · exact ih _
      · rfl
    · rfl

theorem dealCore_clock (id : Word) (k : CoreId) (cs : List Nat) (s : State) : (s.dealCore id k cs).clock k = s.clock k := by
  induction cs generalizing s with
  | nil => rfl
  | cons c cs ih =>
    rw [State.dealCore]
    split
    · split
      · exact (ih _).trans (startCtx_clock ..)
      · rfl
    · rfl

/-- The contexts from a on are dealt the launch's next units, one each while there are any. -/
theorem dealCore_units (n a : Nat) (h : s.launch id = some l) (hsel : l.sel = none) (ha : a + n ≤ 4) :
    (∀ d : CtxId, a ≤ d.toNat → d.toNat < a + n → l.next + (d.toNat - a) < recW l.record →
      Started (s.dealCore id k (List.range' a n)) id l.record k d (some (l.next + (d.toNat - a)))) ∧
    (∀ d : CtxId, d.toNat < a → (s.dealCore id k (List.range' a n)).ctx k d = s.ctx k d) ∧
    ∃ m, (s.dealCore id k (List.range' a n)).launch id = some m ∧
      m.next = Min.min (l.next + n) (Max.max l.next (recW l.record)) := by
  induction n generalizing a s l with
  | zero => exact ⟨fun d h1 h2 => by omega, fun _ _ => rfl, l, h, by omega⟩
  | succ n ih =>
    have hnext := nextUnit_unselected hsel
    by_cases hw : l.next < recW l.record
    · rw [if_pos hw] at hnext
      obtain ⟨m, hm, hrec, hmsel, hmnext⟩ := dealt_launch (k := k) (c := BitVec.ofNat 2 a) l.next h
      rw [List.range'_succ, dealCore_some _ h hnext]
      obtain ⟨hstart, hkeep, m', hm', hnext'⟩ := ih (a + 1) hm (hmsel.trans hsel) (by omega)
      have hat : (BitVec.ofNat 2 a).toNat = a := by rw [BitVec.toNat_ofNat]; omega
      refine ⟨fun d h1 h2 h3 => ?_, fun d h1 => ?_, m', hm', by rw [hnext', hmnext, hrec]; omega⟩
      · rcases Nat.eq_or_lt_of_le h1 with heq | hlt
        · obtain rfl : d = BitVec.ofNat 2 a := BitVec.eq_of_toNat_eq (by omega)
          rw [Started, hkeep _ (by omega), hat, Nat.sub_self]
          have hone := startCtx_started s l k (BitVec.ofNat 2 a) (some l.next)
          rw [Started, hat, launch_id h] at hone
          exact hone
        · rw [← hrec, show l.next + (d.toNat - a) = m.next + (d.toNat - (a + 1)) by omega]
          exact hstart d (by omega) (by omega) (by rw [hmnext, hrec]; omega)
      · rw [hkeep d (by omega)]
        exact startCtx_others (some l.next) fun he => by
          have := congrArg (BitVec.toNat ·.2) he
          dsimp only at this
          omega
    · rw [if_neg hw] at hnext
      rw [dealCore_none _ h hnext]
      exact ⟨fun d _ _ h3 => by omega, fun _ _ => rfl, l, h, by omega⟩

/-! ### The places of a co-resident launch (R32, R41) -/

theorem recCtxs_le (r : Line) : 0 < recCtxs r ∧ recCtxs r ≤ 4 := by
  have := (r.extractLsb' 115 2).isLt
  rw [recCtxs]
  omega

/-- Each core's contexts in turn. -/
theorem slots_get {n : Nat} (hn : 0 < n) (ks : List Nat) (x : Nat) :
    (ks.flatMap fun k => (List.range n).map fun c => (k, c))[x]? = ks[x / n]?.map (·, x % n) := by
  induction ks generalizing x with
  | nil => rfl
  | cons k ks ih =>
    rw [List.flatMap_cons, List.getElem?_append, List.length_map, List.length_range]
    split
    · rename_i h
      rw [List.getElem?_map, List.getElem?_range h, Nat.div_eq_of_lt h, Nat.mod_eq_of_lt h]
      rfl
    · rename_i h
      obtain ⟨y, rfl⟩ : ∃ y, x = y + n := ⟨x - n, by omega⟩
      rw [Nat.add_sub_cancel, ih, Nat.add_div_right _ hn, Nat.add_mod_right]
      rfl

theorem recCset_nodup (r : Line) : (recCset r).Nodup := List.nodup_range.filter _

theorem recCset_lt {j : Nat} (h : j ∈ recCset r) : j < 128 := List.mem_range.1 (List.mem_filter.1 h).1

/-- The places a co-resident launch starts on. -/
def coPlaces (l : Launch) : List (CoreId × CtxId × Option Nat) :=
  (coPlan l).map fun p => (BitVec.ofNat 7 p.1, BitVec.ofNat 2 p.2.1, p.2.2)

theorem coPlan_persistent (hp : recPers l.record = true) (hs : l.sel = none) : coPlan l =
    ((recCset l.record).flatMap fun k => (List.range (recCtxs l.record)).map fun c => (k, c)).map fun kc => (kc.1, kc.2, none) := by
  rw [coPlan, hs, hp]
  rfl

theorem coPlan_dispatch (hp : recPers l.record = false) (hs : l.sel = none) : coPlan l =
    (List.range (recW l.record)).filterMap fun x =>
      ((recCset l.record)[x / recCtxs l.record]?.map (·, x % recCtxs l.record)).map fun kc => (kc.1, kc.2, some x) := by
  rw [coPlan, hs, hp, unitsOf, hs]
  exact congrArg (fun f => (List.range (recW l.record)).filterMap f)
    (funext fun x => congrArg (Option.map _) (slots_get (recCtxs_le _).1 _ x))

/-! ### CORE_ASSIGN -/

theorem exec_coreAssign (k : CoreId) (s : State) : exec (.coreAssign k) s = execCoreAssign k s := rfl

/-- The contexts of a core, in order. -/
def corePlaces (l : Launch) (k : CoreId) : List (CoreId × CtxId × Option Nat) :=
  (List.range (recCtxs l.record)).map fun c => (k, BitVec.ofNat 2 c, none)

theorem assign_persistent (hf : firstFor s k = some l) (hc : recCores l.record = false) (hp : recPers l.record = true) :
    s.assign k = (corePlaces l k).foldl (startAt l) (s.takeCore l k (List.range (recCtxs l.record))) := by
  rw [State.assign, hf]
  dsimp only
  rw [hc, hp, corePlaces, List.foldl_map]
  rfl

theorem assign_dispatch (hf : firstFor s k = some l) (hc : recCores l.record = false) (hp : recPers l.record = false) :
    s.assign k = (s.takeCore l k (List.range (recCtxs l.record))).dealCore l.id k (List.range' 0 (recCtxs l.record)) := by
  rw [State.assign, hf]
  dsimp only
  rw [hc, hp, ← List.range_eq_range']
  rfl

/-- The cores of a co-resident launch are set up. -/
def State.takeCores (s : State) (l : Launch) : State :=
  (((coPlan l).map (·.1)).eraseDups).foldl (fun t j =>
    t.takeCore l (BitVec.ofNat 7 j) (((coPlan l).filter fun p => p.1 == j).map (·.2.1))) s

theorem assign_coresident (hf : firstFor s k = some l) (hc : recCores l.record = true) :
    s.assign k = (coPlaces l).foldl (startAt l) (s.takeCores l) := by
  rw [State.assign, hf]
  dsimp only
  rw [hc, coPlaces, List.foldl_map]
  rfl

theorem startAt_foldl_still (ps : List (CoreId × CtxId × Option Nat)) (s : State) :
    (ps.foldl (startAt l) s).still = s.still := foldl_leaves State.still (startAt l) (startAt_still l) ps s

theorem takeCores_still (s : State) (l : Launch) : (s.takeCores l).still = s.still := by
  unfold State.takeCores
  refine foldl_leaves State.still _ (fun t j => ?_) _ s
  rfl

theorem assign_still (hf : firstFor s k = some l) : (s.assign k).still = s.still := by
  cases hc : recCores l.record with
  | true => rw [assign_coresident hf hc, startAt_foldl_still, takeCores_still]
  | false =>
    cases hp : recPers l.record with
    | true => rw [assign_persistent hf hc hp, startAt_foldl_still]; rfl
    | false => rw [assign_dispatch hf hc hp, dealCore_still]; rfl

theorem assign_clock (hf : firstFor s k = some l) (hc : recCores l.record = false) :
    (s.assign k).clock k = (s.die (dieOf k)).cycle := by
  cases hp : recPers l.record with
  | true =>
    rw [assign_persistent hf hc hp]
    exact (foldl_leaves (fun t : State => t.clock k) (startAt l) (fun _ _ => startCtx_clock ..) _ _).trans (takeCore_clock ..)
  | false => rw [assign_dispatch hf hc hp, dealCore_clock, takeCore_clock]

theorem ofNat_ctx (c : CtxId) : BitVec.ofNat 2 c.toNat = c := by
  rw [BitVec.ofNat_toNat, BitVec.setWidth_eq]

/-- A unit's place names no other unit's. -/
theorem coPlaces_unit {x j : Nat} (hp : recPers l.record = false) (hs : l.sel = none) (hx : x < recW l.record)
    (hj : (recCset l.record)[x / recCtxs l.record]? = some j) :
    (BitVec.ofNat 7 j, BitVec.ofNat 2 (x % recCtxs l.record), some x) ∈ coPlaces l ∧
      ∀ p ∈ coPlaces l, (p.1, p.2.1) = (BitVec.ofNat 7 j, BitVec.ofNat 2 (x % recCtxs l.record)) → p.2.2 = some x := by
  have hn := recCtxs_le l.record
  have hmem (y : Nat) (q : Nat × Nat × Option Nat) : ((recCset l.record)[y / recCtxs l.record]?.map
      (·, y % recCtxs l.record)).map (fun kc => (kc.1, kc.2, some y)) = some q ↔
      ∃ i, (recCset l.record)[y / recCtxs l.record]? = some i ∧ q = (i, y % recCtxs l.record, some y) := by
    rw [Option.map_map, Option.map_eq_some_iff]
    exact exists_congr fun i => and_congr_right fun _ => eq_comm
  rw [coPlaces, coPlan_dispatch hp hs]
  refine ⟨List.mem_map.2 ⟨(j, x % recCtxs l.record, some x), List.mem_filterMap.2 ⟨x, List.mem_range.2 hx,
    (hmem x _).2 ⟨j, hj, rfl⟩⟩, rfl⟩, fun p hpp he => ?_⟩
  obtain ⟨q, hq, rfl⟩ := List.mem_map.1 hpp
  obtain ⟨y, -, hy⟩ := List.mem_filterMap.1 hq
  obtain ⟨i, hi, rfl⟩ := (hmem y q).1 hy
  obtain ⟨hcore, hctx⟩ := Prod.mk.inj he
  have hi128 : i < 128 := recCset_lt (List.mem_of_getElem? hi)
  have hj128 : j < 128 := recCset_lt (List.mem_of_getElem? hj)
  have hymod := Nat.mod_lt y hn.1
  have hxmod := Nat.mod_lt x hn.1
  have hij : i = j := by
    have := congrArg BitVec.toNat hcore
    rw [BitVec.toNat_ofNat, BitVec.toNat_ofNat] at this
    omega
  have hmod : y % recCtxs l.record = x % recCtxs l.record := by
    have := congrArg BitVec.toNat hctx
    rw [BitVec.toNat_ofNat, BitVec.toNat_ofNat] at this
    dsimp only at this
    omega
  have hdiv : y / recCtxs l.record = x / recCtxs l.record :=
    (List.getElem?_inj (List.getElem?_eq_some_iff.1 hi).1 (recCset_nodup _)).1 (by rw [hi, hj, hij])
  have hyx : y = x := by rw [← Nat.div_add_mod y (recCtxs l.record), hdiv, hmod, Nat.div_add_mod]
  exact congrArg some hyx

theorem coStarted {x j : Nat} (hf : firstFor s k = some l) (hc : recCores l.record = true) (hp : recPers l.record = false)
    (hs : l.sel = none) (hx : x < recW l.record) (hj : (recCset l.record)[x / recCtxs l.record]? = some j) :
    Started (s.assign k) l.id l.record (BitVec.ofNat 7 j) (BitVec.ofNat 2 (x % recCtxs l.record)) (some x) := by
  obtain ⟨hin, hall⟩ := coPlaces_unit hp hs hx hj
  rw [assign_coresident hf hc]
  exact startAt_foldl _ hall (.inl ⟨_, hin, rfl⟩)

theorem coresAssigned : Sys2Proof.Claim.CoresAssigned := by
  intro s k l hr hf hl n starts
  have hexec : exec (.coreAssign k) s = .next (s.assign k) := by
    rw [exec_coreAssign, execCoreAssign]
    exact enabledIf_true hr _
  have hstill := assign_still hf
  refine ⟨s.assign k, hexec, congrArg Prod.fst hstill, congrArg Prod.snd hstill, fun hc => assign_clock hf hc,
    fun hc hp c hcn => ?_, fun hc hp hsel => ?_, fun hc hp hsel j hj c hcn => ?_, fun hc hp hsel x j hx hj => ?_⟩
  · rw [assign_persistent hf hc hp]
    refine startAt_foldl _ (fun p hp _ => ?_) (.inl ⟨(k, c, none), List.mem_map.2 ⟨c.toNat, List.mem_range.2 hcn, ?_⟩, rfl⟩)
    · obtain ⟨d, -, rfl⟩ := List.mem_map.1 hp
      rfl
    · rw [ofNat_ctx]
  · rw [assign_dispatch hf hc hp]
    have hlaunch : (s.takeCore l k (List.range (recCtxs l.record))).launch l.id = some _ :=
      launch_modLaunch_self (s := s.modCore k _) hl (by exact fun _ => rfl)
    obtain ⟨hstart, -, m, hm, hnext⟩ := dealCore_units (k := k) (recCtxs l.record) 0 hlaunch hsel (by have := recCtxs_le l.record; omega)
    exact ⟨fun c hcn hw => hstart c (Nat.zero_le _) (by omega) hw, m, hm, hnext⟩
  · rw [assign_coresident hf hc]
    refine startAt_foldl _ (fun p hpp _ => ?_) (.inl ⟨(BitVec.ofNat 7 j, c, none), ?_, rfl⟩) <;>
      rw [coPlaces, coPlan_persistent hp hsel, List.map_map] at *
    · obtain ⟨d, -, rfl⟩ := List.mem_map.1 hpp
      rfl
    · refine List.mem_map.2 ⟨(j, c.toNat), List.mem_flatMap.2 ⟨j, hj, List.mem_map.2 ⟨c.toNat, List.mem_range.2 hcn, rfl⟩⟩, ?_⟩
      exact congrArg (fun d => (BitVec.ofNat 7 j, d, none)) (ofNat_ctx c)
  · exact coStarted hf hc hp hsel hx hj

/-- Settles O42: an assignment starts its places one after the other, and of them each stays as it was started; a context
starts from what its sure reads find in memory. -/
theorem contextsStart : Obligations.ContextsStart := ⟨coresAssigned, contextsStartAtEntry⟩

end Sys2Proof.Machine
end

section
/-! Launches fail and end (R27, R29, R42, R230, R232, R233, R301). -/
namespace Sys2Proof.Machine

variable {s t u : State} {k : CoreId} {c : CtxId} {l : Launch} {id : Word}

/-! ### LAUNCH_FAIL (R42, R301) -/

theorem exec_launchFail (id : Word) (s : State) : exec (.launchFail id) s = execLaunchFail id s := rfl

/-- What a fault's record leaves outside the tenant's ring. -/
theorem ringFault_others {t : Tenant} {bs : List Byte} (hb : bs.length = 64) :
    (s.ringFault t bs).others = s.others ∧ (s.ringFault t bs).running = s.running ∧ (s.ringFault t bs).sc = s.sc := by
  cases ho : (s.tenant t).faultRing.open
  · rw [ringFault_drops ho]; exact ⟨rfl, rfl, rfl⟩
  · by_cases hs : ringServed s t
    · rw [ringFault_writes hb ho hs]; exact ⟨rfl, rfl, rfl⟩
    · rw [ringFault_waits hb ho hs]; exact ⟨rfl, rfl, rfl⟩

/-- The tick, the saves, and which contexts run. -/
def State.runs (s : State) := (s.others, fun (k : CoreId) (c : CtxId) => (s.ctx k c).run)

theorem Lands.runs (h : Lands Ctx.calm s t) : t.runs = s.runs :=
  congrArg₂ Prod.mk h.others (funext fun k => funext fun c => congrArg Prod.snd (h.ctxs k c))

theorem runs_of_cores (ho : t.others = s.others) (hc : t.cores = s.cores) : t.runs = s.runs :=
  congrArg₂ Prod.mk ho (funext fun k => funext fun c => congrArg Ctx.run (ctx_of_cores hc k c))

theorem recordFault_runs (s : State) (k : CoreId) (c : CtxId) (f : FaultInfo) (held : Bool) :
    (s.recordFault k c f held).runs = s.runs := by
  have hlen := faultRecord_length f held (s.ctx k c).launch k c (s.ctx k c).unit (f.pc.getD (s.ctx k c).pc) (f.gcc.getD s.gcc)
  obtain ⟨n, h⟩ := recordFault_cases s k c f held
  rw [h]
  exact runs_of_cores (ringFault_others hlen).1 (ringFault_keeps hlen).2

theorem others_modCtx (s : State) (k : CoreId) (c : CtxId) (f : Ctx → Ctx) : (s.modCtx k c f).others = s.others := rfl

theorem stopNow_run (x : Ctx) : x.stopNow.run = .stopped := rfl

theorem landAll_runs (s : State) (k : CoreId) (c : CtxId) : (s.landAll k c).runs = s.runs :=
  (Lands.landAll s k c).runs.trans
    (congrArg₂ Prod.mk rfl (funext fun k => funext fun c => leaves_modCtx Ctx.run (by exact fun _ => rfl)))

/-- The fault that a stopping context takes first. -/
def State.lastFault (id : Word) (s : State) (m : CoreId × CtxId) : State :=
  match (s.ctx m.1 m.2).pendFaults with
  | f :: _ => (s.recordFault m.1 m.2 f.2 false).countFault m.1 m.2 id
  | [] => if (s.ctx m.1 m.2).run == Run.held && (s.ctx m.1 m.2).heldCode != 0x10 then s.countFault m.1 m.2 id else s

theorem lastFault_runs (id : Word) (s : State) (m : CoreId × CtxId) : (s.lastFault id m).runs = s.runs := by
  unfold State.lastFault
  split
  · exact recordFault_runs ..
  · split <;> rfl

theorem stopCtx_eq (id : Word) (s : State) (m : CoreId × CtxId) : s.stopCtx id m =
    (((s.lastFault id m).landAll m.1 m.2).releaseClusters m.1 m.2).modCtx m.1 m.2 Ctx.stopNow := rfl

theorem stopCtx_leaves (id : Word) (s : State) (m : CoreId × CtxId) : (s.stopCtx id m).others = s.others ∧
    ((s.stopCtx id m).ctx m.1 m.2).run = .stopped ∧
      ∀ k c, (k, c) ≠ m → ((s.stopCtx id m).ctx k c).run = (s.ctx k c).run := by
  have hruns : (((s.lastFault id m).landAll m.1 m.2).releaseClusters m.1 m.2).runs = s.runs :=
    (releaseClusters_lands ..).runs.trans ((landAll_runs ..).trans (lastFault_runs ..))
  rw [stopCtx_eq, others_modCtx]
  generalize ((s.lastFault id m).landAll m.1 m.2).releaseClusters m.1 m.2 = t at hruns ⊢
  refine ⟨congrArg Prod.fst hruns, ?_, fun k c h => ?_⟩
  · rw [State.ctx_modCtx, stopNow_run]
  · rw [State.ctx_modCtx_ctx _ _ h]
    exact congrFun (congrFun (congrArg Prod.snd hruns) k) c

/-- Of contexts that stop one after the other, each is stopped at the end. -/
theorem stopCtx_foldl {m : CoreId × CtxId} (ms : List (CoreId × CtxId)) (h : m ∈ ms ∨ (s.ctx m.1 m.2).run = .stopped) :
    ((ms.foldl (State.stopCtx id) s).ctx m.1 m.2).run = .stopped := by
  induction ms generalizing s with
  | nil => exact h.resolve_left (by simp)
  | cons n ms ih =>
    obtain ⟨-, hstop, hkeep⟩ := stopCtx_leaves id s n
    refine ih ?_
    by_cases hm : m = n
    · subst hm
      exact .inr hstop
    · refine (h.imp (fun h => (List.mem_cons.1 h).resolve_left hm) fun h => ?_)
      rw [hkeep m.1 m.2 hm, h]

theorem dropSaves_leaves (s : State) (id : Word) : (s.dropSaves id).gcc = s.gcc ∧
    (s.dropSaves id).saves = s.saves.filter (fun v => v.launch != id) ∧ ∀ k c, (s.dropSaves id).ctx k c = s.ctx k c := by
  have hfold := foldl_leaves (fun t : State => (t.others, fun (k : CoreId) (c : CtxId) => t.ctx k c))
    (fun (t : State) (k : CoreId) => t.modCore k fun y => { y with saved := t.saves.any fun v => v.core == k && v.away.isNone })
    (fun t j => congrArg₂ Prod.mk rfl (funext fun k => funext fun c => ctx_modCore (by exact fun _ => rfl)))
    (((s.saves.filter fun v => v.launch == id).map (·.core)).eraseDups)
    { s with saves := s.saves.filter fun v => v.launch != id }
  obtain ⟨hothers, hctx⟩ := Prod.mk.inj hfold
  obtain ⟨hgcc, hsaves⟩ := Prod.mk.inj hothers
  exact ⟨hgcc, hsaves, fun k c => congrFun (congrFun hctx k) c⟩

theorem failingLaunchesStop : Sys2Proof.Claim.FailingLaunchesStop := by
  intro s id hr
  obtain ⟨hgcc, hsaves, hctx⟩ := dropSaves_leaves ((stopping s id).foldl (State.stopCtx id) s) id
  have hothers : ((stopping s id).foldl (State.stopCtx id) s).others = s.others :=
    foldl_leaves State.others (State.stopCtx id) (fun t m => (stopCtx_leaves id t m).1) _ s
  refine ⟨s.stopLaunch id, ?_, fun m hm => ?_, fun v hv => ?_, hgcc.trans (congrArg Prod.fst hothers)⟩
  · rw [exec_launchFail, execLaunchFail]
    exact enabledIf_true hr _
  · rw [State.stopLaunch, hctx]
    exact stopCtx_foldl _ (.inl hm)
  · rw [State.stopLaunch, hsaves] at hv
    exact bne_iff_ne.1 (List.mem_filter.1 hv).2

end Sys2Proof.Machine
end

section
/-! Words that the module writes, and the end of a launch or pass (R27, R29, R230, R232, R233). -/
namespace Sys2Proof.Machine

variable {s t u : State} {k : CoreId} {c : CtxId} {l : Launch} {id : Word} {pa : Nat} {w : Word}

/-! ### Words outside DRAM (R78, R228) -/

/-- A memory after a write of one word. -/
structure WordAt (m m' : List Host.Cell) (pa : Nat) (w : Word) : Prop where
  word : rdWord m' pa = w
  out : ∀ a, ¬ (pa ≤ a ∧ a < pa + 4) → rd m' a = rd m a

theorem rdWord_wrBytes (m : List Host.Cell) (pa : Nat) (w : Word) : rdWord (wrBytes m pa (leBytes 4 w.toNat)) pa = w := by
  have hbytes : rdBytes (wrBytes m pa (leBytes 4 w.toNat)) pa 4 = leBytes 4 w.toNat := by
    have h := rdBytes_wrBytes m pa (leBytes 4 w.toNat)
    rwa [length_leBytes] at h
  rw [rdWord, rdNat, hbytes, leNat_leBytes, Nat.mod_eq_of_lt (show w.toNat < 256 ^ 4 from w.isLt), BitVec.ofNat_toNat, BitVec.setWidth_eq]

theorem WordAt.wrBytes (m : List Host.Cell) (pa : Nat) (w : Word) : WordAt m (wrBytes m pa (leBytes 4 w.toNat)) pa w :=
  ⟨rdWord_wrBytes m pa w, fun a h => rd_wrBytes_out m pa a _ (by rw [length_leBytes]; omega)⟩

/-- A word whose bytes are the same reads the same. -/
theorem rdWord_congr {m m' : List Host.Cell} (h : ∀ a, pa ≤ a → a < pa + 4 → rd m' a = rd m a) : rdWord m' pa = rdWord m pa := by
  rw [rdWord, rdNat, rdBytes_congr h]
  rfl

theorem stamped_out (h : 0x008000000000 ≤ pa) (m : List Host.Cell) (n : Nat) : s.stamped m pa n = m := by
  refine if_neg ?_
  simp only [Bool.and_eq_true, decide_eq_true_eq]
  omega

theorem writeWord_at (h : 0x008000000000 ≤ pa) : WordAt s.mem (s.writeWord pa w).mem pa w := by
  have hmem : (s.writeWord pa w).mem = wrBytes s.mem pa (leBytes 4 w.toNat) :=
    stamped_out (s := s.forget pa (leBytes 4 w.toNat).length) h _ _
  rw [hmem]
  exact .wrBytes ..

theorem publishFor_mem (s : State) (l : Launch) (pa : Nat) (w : Word) : (s.publishFor l pa w).mem = (s.writeWord pa w).mem := rfl

theorem tailPa_out (w : BitVec 26) : 0x008000000000 ≤ tailPa w := by
  unfold tailPa accWordPa accPa
  omega

theorem isAcc_out (h : isAcc pa = true) : 0x020000000000 ≤ pa ∧ pa < 0x020010000000 := by
  by_contra hno
  have hhome : ∀ j o, homeOf pa ≠ .acc j o := by
    intro j o
    unfold homeOf
    dsimp only
    rw [if_neg hno]
    split
    · exact Home.noConfusion
    · split
      · split <;> exact Home.noConfusion
      · split
        · exact Home.noConfusion
        · split <;> exact Home.noConfusion
  unfold isAcc at h
  split at h
  · exact hhome _ _ ‹_›
  · exact nomatch h

/-! ### What a trace leaves alone (R229, R309) -/

/-- The commands under way, the stamp counter, and whose the cores are. -/
def State.desk (s : State) := (s.running, s.sc, fun (k : CoreId) => ((s.core k).v, (s.core k).tenant))

theorem desk_modCore {f : Core → Core} (hf : ∀ y, ((f y).v, (f y).tenant) = (y.v, y.tenant)) (s : State) (k : CoreId) :
    (s.modCore k f).desk = s.desk := by
  refine congrArg₂ Prod.mk rfl (congrArg₂ Prod.mk rfl (funext fun j => ?_))
  rcases eq_or_ne j k with rfl | h
  · rw [State.core_modCore, hf]
  · rw [s.core_modCore_ne f h]

theorem desk_modCtx (s : State) (k : CoreId) (c : CtxId) (f : Ctx → Ctx) : (s.modCtx k c f).desk = s.desk :=
  desk_modCore (by exact fun _ => rfl) s k

theorem ringFault_desk {t : Tenant} {bs : List Byte} (hb : bs.length = 64) : (s.ringFault t bs).desk = s.desk := by
  obtain ⟨-, hrun, hsc⟩ := ringFault_others (s := s) (t := t) hb
  refine congrArg₂ Prod.mk hrun (congrArg₂ Prod.mk hsc (funext fun j => ?_))
  rw [State.core, State.core, (ringFault_keeps hb).2]

theorem overrun_desk (s : State) (k : CoreId) (x : InUse) (line : Nat) (rec : Bool) :
    (s.overrun k x line rec).1.desk = s.desk := by
  unfold State.overrun
  dsimp only
  split
  · rfl
  · split
    · exact desk_modCtx ..
    · split
      · rfl
      · exact ringFault_desk (faultRecord_length ..)

theorem desk_of_aside (h : t.aside = s.aside) : t.desk = s.desk := by
  simp only [State.aside, State.kept, Prod.mk.injEq] at h
  obtain ⟨hcores, -, -, -, -, -, -, hrun, hsc⟩ := h
  refine congrArg₂ Prod.mk hrun (congrArg₂ Prod.mk hsc (funext fun j => ?_))
  rw [State.core, State.core, hcores]

theorem modWrite_desk (s : State) (pa : Nat) (bs : List Byte) : (s.modWrite pa bs).desk = s.desk := by
  unfold State.modWrite
  split
  · unfold State.landSpm
    split
    · exact overrun_desk ..
    · exact desk_of_aside (writeBy_aside ..)
  · rfl

theorem modWrites_desk (n : Nat) (s : State) (pa : Nat) (bs : List Byte) : (s.modWrites n pa bs).desk = s.desk := by
  induction n generalizing s pa bs with
  | zero => rfl
  | succ n ih =>
    rw [State.modWrites]
    split
    · rfl
    · exact (ih ..).trans (modWrite_desk ..)

theorem writePieces_desk (ps : List (Nat × Nat)) (s : State) (bs : List Byte) : (s.writePieces ps bs).desk = s.desk := by
  induction ps generalizing s bs with
  | nil => rfl
  | cons p ps ih => exact (ih ..).trans (modWrites_desk ..)

theorem twrite_desk {t : Tenant} {ws : List (Nat × List Byte)} (h : s.twrite t ws = some u) : u.desk = s.desk := by
  unfold State.twrite at h
  split at h
  · obtain rfl := Option.some.inj h
    refine foldl_leaves State.desk _ (fun v w => ?_) ws s
    split
    · exact writePieces_desk ..
    · rfl
  · exact nomatch h

theorem writeTrace_desk (h : s.writeTrace l = some u) : u.desk = s.desk := twrite_desk h

/-! ### The end of a launch or pass -/

/-- What is left of a launch goes: its cores, its place among the pending ones, and the commands that waited for it. -/
def State.close (s : State) (l : Launch) (failed : Bool) : State :=
  ((s.releaseCores l).dropLaunch l.id).endCommands l.id failed

/-- How many units a pass has selected. -/
def selCount (l : Launch) : Nat := match l.sel with | some us => us.length | none => 0

theorem selCount_eq (l : Launch) : selCount l = (l.sel.getD []).length := by
  unfold selCount
  cases l.sel <;> rfl

/-- The word or words of a launch or pass, and SC. -/
def State.report (s : State) (l : Launch) (st : Byte) (traced : Bool) : State :=
  let t := s.writeStatus l st (if st == 0x07 && l.phase == .failing then l.faulted.length else 0)
    (l.pass.isSome && traced && s.againFor l) (selCount l)
  if traced then { t with sc := t.sc + 1 } else t

/-- The state after a launch's trace, if one is written. -/
def State.traceEnd (s : State) (l : Launch) : Option State :=
  if l.started && recTrace l.record then s.writeTrace l else some s

theorem endLaunch_eq (s : State) (l : Launch) (st : Byte) : s.endLaunch l st =
    (((s.traceEnd l).getD s).report l (if (s.traceEnd l).isNone && !(l.phase == .failing) then 0x07 else st)
      (l.started && recTrace l.record)).close l (l.phase == .failing || (s.traceEnd l).isNone) := rfl

/-- Nothing that a launch's release changes. -/
def State.ledger (s : State) := (s.mem, s.running, s.sc, s.lostWords)

theorem releaseCores_ledger (s : State) (l : Launch) : (s.releaseCores l).ledger = s.ledger := by
  unfold State.releaseCores
  refine foldl_leaves State.ledger _ (fun t k => ?_) _ s
  rfl

theorem endCommands_leaves (s : State) (id : Word) (failed : Bool) : (s.endCommands id failed).launches = s.launches ∧
    (s.endCommands id failed).sc = s.sc := by
  unfold State.endCommands
  dsimp only
  have hfold := foldl_leaves (fun t : State => (t.launches, t.sc)) (fun (t : State) r =>
    t.resultWord r.resw (if r.op == 3 || !failed then 0x01 else if r.bound then 0x26 else 0x27) r.nctx id) (fun _ _ => rfl)
    (s.running.filter fun r => r.launch == id) { s with running := s.running.filter fun r => r.launch != id }
  exact Prod.mk.inj hfold

theorem launch_dropLaunch (s : State) (id : Word) : (s.dropLaunch id).launch id = none := by
  refine List.find?_eq_none.2 fun m hm => ?_
  have := (List.mem_filter.1 hm).2
  simp_all

theorem close_leaves (s : State) (l : Launch) (failed : Bool) :
    (s.close l failed).launch l.id = none ∧ (s.close l failed).sc = s.sc := by
  obtain ⟨hlaunches, hsc⟩ := endCommands_leaves ((s.releaseCores l).dropLaunch l.id) l.id failed
  refine ⟨(launch_of_launches hlaunches _).trans (launch_dropLaunch ..), hsc.trans ?_⟩
  exact (congrArg (·.2.2.1) (releaseCores_ledger s l) :)

/-- No command waits for the launch: its end writes nothing more. -/
theorem close_quiet (h : ∀ r ∈ s.running, r.launch ≠ l.id) (failed : Bool) :
    (s.close l failed).mem = s.mem ∧ (s.close l failed).lostWords = s.lostWords := by
  have hledger := releaseCores_ledger s l
  simp only [State.ledger, Prod.mk.injEq] at hledger
  obtain ⟨hmem, hrun, -, hlost⟩ := hledger
  have hnone : ((s.releaseCores l).dropLaunch l.id).running.filter (fun r => r.launch == l.id) = [] := by
    refine List.filter_eq_nil_iff.2 fun r hr => ?_
    have hr : r ∈ s.running := by rw [← hrun]; exact hr
    simpa using h r hr
  unfold State.close State.endCommands
  dsimp only
  rw [hnone]
  exact ⟨hmem, hlost⟩

end Sys2Proof.Machine
end

section
/-! COMPLETION_WRITE and PASS_END (R27, R29, R230, R232, R233). -/
namespace Sys2Proof.Machine

variable {s t u : State} {k : CoreId} {c : CtxId} {l : Launch} {id : Word} {pa : Nat} {w : Word}

/-! ### Status words (R27, R29, R233) -/

theorem running_of_desk (h : t.desk = s.desk) : t.running = s.running := congrArg Prod.fst h

theorem sc_of_desk (h : t.desk = s.desk) : t.sc = s.sc := congrArg (·.2.1) h

theorem ownsCore_of_desk (h : t.desk = s.desk) (own : Tenant) (k : CoreId) : t.ownsCore own k = s.ownsCore own k := by
  have hcore := congrFun (congrArg (·.2.2) h) k
  obtain ⟨hv, ht⟩ := Prod.mk.inj hcore
  rw [State.ownsCore, State.ownsCore, hv, ht]

/-- The word that a launch's status and its count of faults make. -/
def statusWord (st : Byte) (n : Nat) : Word := BitVec.ofNat 32 (st.toNat + Min.min n 0xFFFF * 2 ^ 16)

/-- The status word of a pass. -/
def passWord (l : Launch) (st : Byte) (again : Bool) : Word :=
  BitVec.ofNat 32 (st.toNat + (if again then 256 else 0) + l.passNo.toNat * 2 ^ 16)

theorem writeStatus_launch (h : l.pass = none) (s : State) (st : Byte) (n : Nat) (again : Bool) (m : Nat) :
    s.writeStatus l st n again m = s.writeDone l (statusWord st n) := by
  rw [State.writeStatus, h]
  rfl

theorem writeStatus_pass {z : StatusAt} (h : l.pass = some z) (s : State) (st : Byte) (n : Nat) (again : Bool) (m : Nat) :
    s.writeStatus l st n again m = s.writePass l z (passWord l st again) (BitVec.ofNat 32 m) := by
  rw [State.writeStatus, h]
  rfl

theorem desk_of (hr : t.running = s.running) (hs : t.sc = s.sc) (hc : t.cores = s.cores) : t.desk = s.desk := by
  refine congrArg₂ Prod.mk hr (congrArg₂ Prod.mk hs (funext fun j => ?_))
  rw [State.core, State.core, hc]

theorem writeWord_desk (s : State) (pa : Nat) (w : Word) : (s.writeWord pa w).desk = s.desk := desk_of rfl rfl rfl

theorem publish_desk (s : State) (pa : Nat) (w : Word) (f : Past → List (List Lim)) : (s.publish pa w f).desk = s.desk :=
  desk_of rfl rfl rfl

theorem desk_passRels (s : State) (ps : List (Nat × List Nat)) : ({ s with passRels := ps } : State).desk = s.desk := rfl

theorem publishFor_desk (s : State) (l : Launch) (pa : Nat) (w : Word) : (s.publishFor l pa w).desk = s.desk := by
  rw [State.publishFor, desk_passRels, publish_desk]

theorem writeDone_desk (s : State) (l : Launch) (w : Word) : (s.writeDone l w).desk = s.desk := by
  rw [State.writeDone]
  split
  · rfl
  · exact publishFor_desk ..

theorem writePass_desk (s : State) (l : Launch) (z : StatusAt) (w0 w1 : Word) : (s.writePass l z w0 w1).desk = s.desk := by
  unfold State.writePass
  split
  · split
    · exact (publishFor_desk ..).trans (writeWord_desk ..)
    · rfl
  · rfl

theorem writeStatus_desk (s : State) (l : Launch) (st : Byte) (n : Nat) (again : Bool) (m : Nat) :
    (s.writeStatus l st n again m).desk = s.desk := by
  cases h : l.pass with
  | none => rw [writeStatus_launch h, writeDone_desk]
  | some z => rw [writeStatus_pass h, writePass_desk]

theorem writeDone_written (hl : l.doneLost = false) (ho : s.ownsCore l.tenant (tailCore (recDonew l.record)) = true) (w : Word) :
    WordAt s.mem (s.writeDone l w).mem (tailPa (recDonew l.record)) w := by
  have hyes : (l.doneLost || !s.ownsCore l.tenant (tailCore (recDonew l.record))) = false := by rw [hl, ho]; rfl
  have hdone : s.writeDone l w = s.publishFor l (tailPa (recDonew l.record)) w :=
    if_neg (by rw [hyes]; exact Bool.false_ne_true)
  rw [hdone, publishFor_mem]
  exact writeWord_at (tailPa_out _)

theorem writeDone_lost (ho : s.ownsCore l.tenant (tailCore (recDonew l.record)) = false) (w : Word) :
    s.writeDone l w = { s with lostWords := (tailPa (recDonew l.record), l.tenant) :: s.lostWords } :=
  if_pos (by rw [ho]; simp)

/-- The two words of a pass. -/
theorem writePass_words {z : StatusAt} (hz : z.pa = some pa) (ha : isAcc pa = true)
    (ho : s.ownsCore l.tenant (accCore pa) = true) (w0 w1 : Word) :
    rdWord (s.writePass l z w0 w1).mem (pa + 4) = w1 ∧ rdWord (s.writePass l z w0 w1).mem pa = w0 := by
  have hout := (isAcc_out ha).1
  have hwrite : s.writePass l z w0 w1 = (s.writeWord (pa + 4) w1).publishFor l pa w0 := by
    rw [State.writePass, hz]
    exact if_pos ho
  have hfirst : WordAt s.mem (s.writeWord (pa + 4) w1).mem (pa + 4) w1 := writeWord_at (by omega)
  have hsecond : WordAt (s.writeWord (pa + 4) w1).mem ((s.writeWord (pa + 4) w1).writeWord pa w0).mem pa w0 :=
    writeWord_at (by omega)
  rw [hwrite, publishFor_mem]
  refine ⟨(rdWord_congr fun a h1 h2 => hsecond.out a (by omega)).trans hfirst.word, hsecond.word⟩

/-! ### The end of a launch without a trace -/

/-- The contexts that NFLT counts. -/
def countedFaults (l : Launch) (st : Byte) : Nat := if st == 0x07 && l.phase == .failing then l.faulted.length else 0

theorem endLaunch_untraced (ht : recTrace l.record = false) (hp : l.pass = none) (s : State) (st : Byte) :
    s.endLaunch l st = (s.writeDone l (statusWord st (countedFaults l st))).close l (l.phase == .failing) := by
  have hno : s.traceEnd l = some s := by rw [State.traceEnd, ht, Bool.and_false]; rfl
  rw [endLaunch_eq, hno, ht, Bool.and_false, State.report, writeStatus_launch hp]
  simp only [Option.isNone_some, Bool.false_and, Bool.false_eq_true, if_false, Bool.or_false, Option.getD_some]
  rfl

theorem endLaunch_gone (s : State) (l : Launch) (st : Byte) : (s.endLaunch l st).launch l.id = none := by
  rw [endLaunch_eq]
  exact (close_leaves ..).1

theorem endLaunch_word (ht : recTrace l.record = false) (hp : l.pass = none) (hr : ∀ r ∈ s.running, r.launch ≠ l.id) (st : Byte) :
    (l.doneLost = false → s.ownsCore l.tenant (tailCore (recDonew l.record)) = true →
      WordAt s.mem (s.endLaunch l st).mem (tailPa (recDonew l.record)) (statusWord st (countedFaults l st))) ∧
    (s.ownsCore l.tenant (tailCore (recDonew l.record)) = false →
      (s.endLaunch l st).mem = s.mem ∧ (tailPa (recDonew l.record), l.tenant) ∈ (s.endLaunch l st).lostWords) := by
  have hquiet : ∀ r ∈ (s.writeDone l (statusWord st (countedFaults l st))).running, r.launch ≠ l.id := by
    rw [running_of_desk (writeDone_desk ..)]
    exact hr
  obtain ⟨hmem, hlost⟩ := close_quiet hquiet (l.phase == .failing)
  rw [endLaunch_untraced ht hp, hmem, hlost]
  refine ⟨fun hl ho => writeDone_written hl ho _, fun ho => ?_⟩
  rw [writeDone_lost ho]
  exact ⟨rfl, List.mem_cons_self⟩

/-! ### The end of a traced launch or pass -/

theorem report_sc (s : State) (l : Launch) (st : Byte) (traced : Bool) :
    (s.report l st traced).sc = if traced then s.sc + 1 else s.sc := by
  unfold State.report
  dsimp only
  split
  · exact congrArg (· + 1) (sc_of_desk (writeStatus_desk ..))
  · exact sc_of_desk (writeStatus_desk ..)

theorem traceEnd_desk (s : State) (l : Launch) : ((s.traceEnd l).getD s).desk = s.desk := by
  unfold State.traceEnd
  split
  · cases h : s.writeTrace l with
    | none => rfl
    | some u => exact writeTrace_desk h
  · rfl

theorem endLaunch_sc (ht : recTrace l.record = true) (hs : l.started = true) (s : State) (st : Byte) :
    (s.endLaunch l st).sc = s.sc + 1 := by
  rw [endLaunch_eq, (close_leaves ..).2, report_sc, ht, hs]
  exact congrArg (· + 1) (sc_of_desk (traceEnd_desk s l))

/-- The state of SC aside, a pass reports by its words. -/
theorem report_pass {z : StatusAt} (hp : l.pass = some z) (s : State) (st : Byte) :
    (s.report l st true).mem = (s.writePass l z (passWord l st (s.againFor l)) (BitVec.ofNat 32 (l.sel.getD []).length)).mem ∧
      (s.report l st true).running = s.running := by
  have hrep : s.report l st true = { s.writeStatus l st (countedFaults l st) (s.againFor l) (selCount l) with
      sc := (s.writeStatus l st (countedFaults l st) (s.againFor l) (selCount l)).sc + 1 } := by
    rw [State.report, hp, Option.isSome_some, Bool.true_and, Bool.true_and]
    rfl
  rw [hrep, writeStatus_pass hp, selCount_eq]
  exact ⟨rfl, (running_of_desk (writePass_desk ..) :)⟩

/-- A pass's two words, after its trace. -/
theorem endPass_words {z : StatusAt} (hp : l.pass = some z) (ht : recTrace l.record = true) (hs : l.started = true)
    (hr : ∀ r ∈ s.running, r.launch ≠ l.id) (hz : z.pa = some pa) (ha : isAcc pa = true)
    (ho : s.ownsCore l.tenant (accCore pa) = true) (st : Byte) :
    let v := (s.writeTrace l).getD s
    rdWord (s.endLaunch l st).mem (pa + 4) = BitVec.ofNat 32 (l.sel.getD []).length ∧
      rdWord (s.endLaunch l st).mem pa =
        passWord l (if (s.writeTrace l).isNone && !(l.phase == .failing) then 0x07 else st) (v.againFor l) := by
  intro v
  have htrace : s.traceEnd l = s.writeTrace l := if_pos (by rw [hs, ht]; rfl)
  have hdesk : v.desk = s.desk := by
    have h := traceEnd_desk s l
    rwa [htrace] at h
  rw [endLaunch_eq, htrace, hs, ht, Bool.and_true]
  generalize (if (s.writeTrace l).isNone && !(l.phase == .failing) then (0x07 : Byte) else st) = st'
  obtain ⟨hmem, hrun⟩ := report_pass hp v st'
  have hquiet : ∀ r ∈ (v.report l st' true).running, r.launch ≠ l.id := by
    rw [hrun, running_of_desk hdesk]
    exact hr
  rw [(close_quiet hquiet _).1, hmem]
  exact writePass_words hz ha ((ownsCore_of_desk hdesk ..).trans ho) _ _

/-! ### The events -/

theorem meetNext_noWords (as : Option ErrAt) (y : Option CoreId) (s : State) :
    s.meetNext as y [] = { s with nextErrs := s.nextErrs.tail } := by
  unfold State.meetNext State.meet
  cases s.nextErrs.headD .clean <;> rfl

theorem exec_completionWrite (id : Word) (s : State) : exec (.completionWrite id) s = execCompletionWrite id s := rfl

theorem exec_passEnd (id : Word) (s : State) : exec (.passEnd id) s = execPassEnd id s := rfl

theorem completionWrite_happens (hl : s.launch id = some l) (hp : l.pass = none) (hc : completes s l = true)
    (ho : traceOpen s l = true) : exec (.completionWrite id) s =
      .next ((s.meetNext (some .walk) none (s.traceTables l (endUnits l))).endLaunch l (finalStatus l)) := by
  rw [exec_completionWrite, execCompletionWrite, hl]
  exact enabledIf_true (by rw [hp, hc, ho]; rfl) _

theorem passEnd_happens {z : StatusAt} (hl : s.launch id = some l) (hp : l.pass = some z) (hc : completes s l = true)
    (ho : traceOpen s l = true) (hn : s.nextErrs = []) : exec (.passEnd id) s = .next (s.endLaunch l (finalStatus l)) := by
  rw [exec_passEnd, execPassEnd, hl]
  dsimp only
  rw [meetNext_clean _ _ _ hn, meetNext_clean _ _ _ hn]
  exact enabledIf_true (by rw [hp, hc, ho]; rfl) _

theorem traceOpen_untraced (ht : recTrace l.record = false) (s : State) : traceOpen s l = true := by
  rw [traceOpen, State.traceTables, State.traceWords, ht]
  rfl

theorem launchesComplete : Sys2Proof.Claim.LaunchesComplete := by
  intro s lid l hl hc hr word
  obtain rfl := launch_id hl
  refine ⟨fun hp ht => ?_, fun hp ht ho hn => ?_, fun z hp ho ht hs hn => ?_, fun hp => ?_⟩
  · intro st nflt
    have hst : finalStatus l = st := by
      simp only [finalStatus, beq_iff_eq]
      rfl
    have hcount : Min.min (countedFaults l st) 0xFFFF = nflt := by
      simp only [countedFaults, Bool.and_eq_true, beq_iff_eq, nflt, and_comm (a := st = 0x07)]
      split <;> rfl
    have hword : statusWord st (countedFaults l st) = BitVec.ofNat 32 (st.toNat + nflt * 2 ^ 16) := by
      rw [statusWord, hcount]
    have hexec := completionWrite_happens hl hp hc (traceOpen_untraced ht s)
    rw [State.traceTables, ht, if_neg Bool.false_ne_true, meetNext_noWords, hst] at hexec
    obtain ⟨hwritten, hlost⟩ := endLaunch_word (s := { s with nextErrs := s.nextErrs.tail }) ht hp hr st
    rw [hword] at hwritten
    exact ⟨_, hexec, endLaunch_gone .., fun hd ho => ⟨(hwritten hd ho).word, (hwritten hd ho).out⟩, hlost⟩
  · have hexec := completionWrite_happens hl hp hc ho
    rw [meetNext_clean _ _ _ hn] at hexec
    exact ⟨_, hexec, endLaunch_gone .., fun hs => endLaunch_sc ht hs s _⟩
  · refine ⟨_, passEnd_happens hl hp hc ho hn, endLaunch_gone .., endLaunch_sc ht hs s _, fun pa hz ha _ hown => ?_⟩
    obtain ⟨hsel, hst⟩ := endPass_words hp ht hs hr hz ha hown (finalStatus l)
    refine ⟨hsel, fun s1 h1 => ?_, fun h1 hphase => ?_⟩ <;> rw [hst, h1]
    · rfl
    · rw [beq_false_of_ne hphase]
      rfl
  · rw [exec_completionWrite, execCompletionWrite, hl]
    refine enabledIf_false ?_ _
    rw [Option.isNone_eq_false_iff.2 (Option.isSome_iff_ne_none.2 hp)]
    rfl

/-- Settles O44: a failing launch's contexts stop one after the other; a launch's end is its trace, its word or words, SC,
and what of it goes, of which only the words touch what they name. AGAIN is given by `againFor`, the model's choice
(log 68). -/
theorem launchesEnd : Obligations.LaunchesEnd := ⟨failingLaunchesStop, launchesComplete⟩

end Sys2Proof.Machine
end

section
/-! Entries that the device appends (R91, R227, R232, R291). -/
namespace Sys2Proof.Machine

variable {s t u : State} {l : Launch} {id : Word} {pa : Nat} {w : Word} {d : DieId} {own : Tenant} {q : BitVec 4}

/-! ### Writes of the module to DRAM (R78, R228) -/

theorem wrBytes_append (m : List Host.Cell) (a : Nat) (xs ys : List Byte) :
    wrBytes m a (xs ++ ys) = wrBytes (wrBytes m a xs) (a + xs.length) ys := by
  induction xs generalizing m a with
  | nil => rfl
  | cons x xs ih => rw [List.cons_append, wrBytes, wrBytes, ih, List.length_cons, Nat.add_assoc, Nat.add_comm 1]

theorem dram_low (h : homeOf pa = .dram) : pa < 0x008000000000 := by
  by_contra hno
  unfold homeOf at h
  dsimp only at h
  rw [if_neg hno] at h
  split at h
  · split at h <;> exact nomatch h
  · split at h
    · exact nomatch h
    · split at h
      · exact nomatch h
      · split at h <;> exact nomatch h

/-- DRAM, and the byte after it, which is in no window. -/
theorem home_low (h : pa ≤ 0x008000000000) : homeOf pa = .dram ∨ homeOf pa = .hole := by
  unfold homeOf
  dsimp only
  by_cases hlt : pa < 0x008000000000
  · exact .inl (if_pos hlt)
  · obtain rfl : pa = 0x008000000000 := by omega
    exact .inr rfl

theorem modWrite_low (h : pa ≤ 0x008000000000) (s : State) (bs : List Byte) : s.modWrite pa bs = s.write pa bs := by
  rcases home_low h with hh | hh <;> rw [State.modWrite, State.cell, hh]

/-- What a write of the module keeps. -/
def State.set (s : State) := (s.cores, s.dies, s.stbase)

theorem write_set (s : State) (pa : Nat) (bs : List Byte) : (s.write pa bs).set = s.set := rfl

theorem stampOn_of_set (h : t.set = s.set) : t.stampOn = s.stampOn := congrArg (fun b : Dword => b.getLsbD 63) (congrArg (·.2.2) h)

/-- Bytes that lie in at most two lines of DRAM. -/
theorem modWrites_low (hs : s.stampOn = false) (hpa : homeOf pa = .dram) {bs : List Byte} (hl : bs.length ≤ 64) :
    (s.modWrites 2 pa bs).mem = wrBytes s.mem pa bs ∧ (s.modWrites 2 pa bs).set = s.set := by
  have hlow := dram_low hpa
  have hline := Nat.div_add_mod pa 64
  have hmod := Nat.mod_lt pa (show 0 < 64 by decide)
  have hempty (xs : List Byte) (a : Nat) (v : State) (h : xs.isEmpty = true) : v.modWrites 1 a xs = v := if_pos h
  by_cases hbs : bs.isEmpty = true
  · have hnil := List.isEmpty_iff.1 hbs
    rw [hnil]
    exact ⟨rfl, rfl⟩
  rw [State.modWrites, if_neg hbs, modWrite_low (by omega)]
  have hsplit : bs = bs.take (64 - pa % 64) ++ bs.drop (64 - pa % 64) := (List.take_append_drop ..).symm
  have hfirst := write_mem hs pa (bs.take (64 - pa % 64))
  by_cases hrest : (bs.drop (64 - pa % 64)).isEmpty = true
  · rw [hempty _ _ _ hrest, hfirst]
    rw [List.isEmpty_iff.1 hrest, List.append_nil] at hsplit
    exact ⟨by rw [← hsplit], write_set ..⟩
  · have hwhole : bs.length > 64 - pa % 64 := by
      by_contra hle
      exact hrest (List.isEmpty_iff.2 (List.drop_eq_nil_of_le (by omega)))
    have htake : (bs.take (64 - pa % 64)).length = 64 - pa % 64 := by rw [List.length_take]; omega
    have hall : (bs.drop (64 - pa % 64)).take (64 - (pa + (64 - pa % 64)) % 64) = bs.drop (64 - pa % 64) :=
      List.take_of_length_le (by rw [List.length_drop]; omega)
    rw [State.modWrites, if_neg hrest, modWrite_low (by omega), hall, State.modWrites,
      write_mem ((stampOn_of_set (write_set ..)).trans hs), hfirst]
    refine ⟨?_, write_set ..⟩
    conv => rhs; rw [hsplit]
    rw [wrBytes_append, htake]

/-! ### Queues -/

theorem queue_modQueue (s : State) (d : DieId) (own : Tenant) (q : BitVec 4) (f : Queue → Queue) :
    (s.modQueue d own q f).queue d own q = f (s.queue d own q) := by
  rw [State.queue, State.modQueue, State.die_modDie]
  exact aget_ains_same _ _ _ _

theorem queue_of_dies (h : t.dies = s.dies) (d : DieId) (own : Tenant) (q : BitVec 4) : t.queue d own q = s.queue d own q := by
  rw [State.queue, State.queue, State.die, State.die, h]

/-! ### LAUNCH_APPEND -/

theorem exec_launchAppend (d : DieId) (own : Tenant) (q : BitVec 4) (s : State) :
    exec (.launchAppend d own q) s = execLaunchAppend d own q s := rfl

theorem storeOpen_plain (hs : s.stampOn = false) (o : Option Tenant) (pa : Nat) : s.storeOpen o pa = s.dramOpen o pa := by
  rw [State.storeOpen, hs]
  exact Bool.and_true _

theorem tailPa_far (z : BitVec 26) : 0x020000000000 ≤ tailPa z := by
  unfold tailPa accWordPa accPa
  omega

/-- The tail's word, written as a release. -/
theorem publishTail_word (s : State) (z : BitVec 26) (w : Word) (r : Reserve) :
    WordAt s.mem (s.publishTail (tailPa z) w r).mem (tailPa z) w := writeWord_at (tailPa_out z)

theorem set_of (hc : t.cores = s.cores) (hd : t.dies = s.dies) (hs : t.stbase = s.stbase) : t.set = s.set := by
  rw [State.set, hc, hd, hs]
  rfl

theorem publish_set (s : State) (pa : Nat) (w : Word) (f : Past → List (List Lim)) : (s.publish pa w f).set = s.set :=
  set_of rfl rfl rfl

theorem set_heads (s : State) (hs : List (Nat × List Nat)) : ({ s with heads := hs } : State).set = s.set := rfl

theorem publishTail_set (s : State) (pa : Nat) (w : Word) (r : Reserve) : (s.publishTail pa w r).set = s.set := by
  rw [State.publishTail, set_heads, publish_set]

/-- The state in which an entry stands at some pieces and its tail is published. -/
def State.appended (s : State) (d : DieId) (own : Tenant) (q : BitVec 4) (ps : List (Nat × Nat)) (r : Reserve)
    (rest : List Reserve) : State :=
  ((s.modQueue d own q fun y => { y with reserved := rest }).writePieces ps (leBytes 8 r.record.toNat)).publishTail
    (tailPa (s.queue d own q).tailw) (s.qtail (s.queue d own q) + 1) r

/-- A RELAUNCH's entry is remembered. -/
def State.remember (s : State) (d : DieId) (own : Tenant) (q : BitVec 4) (n : Word) (st : Option StatusAt) : State :=
  match st with
  | some z => s.modQueue d own q fun y => { y with passes := ains y.passes n.toNat z }
  | none => s

theorem appendEntry_eq {r : Reserve} {rest : List Reserve} (hres : (s.queue d own q).reserved = r :: rest)
    (hat : s.appendAt own (s.queue d own q) = some [(pa, 8)]) : s.appendEntry d own q =
      (s.appended d own q [(pa, 8)] r rest).remember d own q (s.qtail (s.queue d own q)) r.status := by
  unfold State.appendEntry
  extract_lets y tail
  generalize hrs : y.reserved = rs
  generalize hps : s.appendAt own y = ps
  obtain rfl : rs = r :: rest := hrs.symm.trans hres
  obtain rfl : ps = some [(pa, 8)] := hps.symm.trans hat
  dsimp only
  cases r.status <;> rfl

theorem writePieces_entry (s : State) (pa : Nat) {bs : List Byte} (hb : bs.length = 8) :
    s.writePieces [(pa, 8)] bs = s.modWrites 2 pa bs := by
  have hlines : 8 / 64 + 2 = 2 := by decide
  have hbytes : bs.take 8 = bs := List.take_of_length_le (by omega)
  rw [State.writePieces, State.writePieces, hbytes, hlines]

theorem appended_eq (s : State) (d : DieId) (own : Tenant) (q : BitVec 4) (pa : Nat) (r : Reserve) (rest : List Reserve) :
    s.appended d own q [(pa, 8)] r rest =
      ((s.modQueue d own q fun y => { y with reserved := rest }).modWrites 2 pa (leBytes 8 r.record.toNat)).publishTail
        (tailPa (s.queue d own q).tailw) (s.qtail (s.queue d own q) + 1) r := by
  rw [State.appended, writePieces_entry _ _ (length_leBytes ..)]

/-- What an appended entry leaves. -/
theorem appended_leaves {r : Reserve} {rest : List Reserve} (hs : s.stampOn = false) (hpa : homeOf pa = .dram) :
    rdNat (s.appended d own q [(pa, 8)] r rest).mem pa 8 = r.record.toNat ∧
    rdWord (s.appended d own q [(pa, 8)] r rest).mem (tailPa (s.queue d own q).tailw) = s.qtail (s.queue d own q) + 1 ∧
    ((s.appended d own q [(pa, 8)] r rest).queue d own q).reserved = rest ∧ (s.appended d own q [(pa, 8)] r rest).cores = s.cores ∧
    ∀ a, ¬ (pa ≤ a ∧ a < pa + 8) →
      ¬ (tailPa (s.queue d own q).tailw ≤ a ∧ a < tailPa (s.queue d own q).tailw + 4) →
      rd (s.appended d own q [(pa, 8)] r rest).mem a = rd s.mem a := by
  rw [appended_eq]
  have hlow := dram_low hpa
  have htail := tailPa_far (s.queue d own q).tailw
  obtain ⟨hmem, hset⟩ := modWrites_low (s := s.modQueue d own q fun y => { y with reserved := rest })
    (bs := leBytes 8 r.record.toNat) hs hpa (by rw [length_leBytes]; decide)
  have hword := publishTail_word ((s.modQueue d own q fun y => { y with reserved := rest }).modWrites 2 pa
    (leBytes 8 r.record.toNat)) (s.queue d own q).tailw (s.qtail (s.queue d own q) + 1) r
  have hall := (publishTail_set ((s.modQueue d own q fun y => { y with reserved := rest }).modWrites 2 pa
    (leBytes 8 r.record.toNat)) (tailPa (s.queue d own q).tailw) (s.qtail (s.queue d own q) + 1) r).trans hset
  rw [hmem] at hword
  refine ⟨?_, hword.word, ?_, congrArg Prod.fst hall, fun a ha hz => ?_⟩
  · have hentry : rdBytes (State.publishTail _ (tailPa (s.queue d own q).tailw) (s.qtail (s.queue d own q) + 1) r).mem pa 8 =
      rdBytes (wrBytes s.mem pa (leBytes 8 r.record.toNat)) pa 8 :=
      rdBytes_congr fun a h1 h2 => hword.out a (by omega)
    have hbytes := rdBytes_wrBytes s.mem pa (leBytes 8 r.record.toNat)
    rw [length_leBytes] at hbytes
    rw [rdNat, hentry, hbytes, leNat_leBytes, Nat.mod_eq_of_lt (lt_trans r.record.isLt (by decide))]
  · have hqueue := queue_of_dies (congrArg (·.2.1) hall :) d own q
    exact (congrArg Queue.reserved hqueue).trans (congrArg Queue.reserved (queue_modQueue ..))
  · rw [hword.out a hz]
    exact rd_wrBytes_out _ _ _ _ (by rw [length_leBytes]; omega)

theorem launchAppend_happens {r : Reserve} {rest : List Reserve} (hn : s.nextErrs = [])
    (hres : (s.queue d own q).reserved = r :: rest) (hdone : s.performed r.after = true)
    (htables : (s.appendTables own (s.queue d own q)).all (s.dramOpen (some own)) = true)
    (hat : s.appendAt own (s.queue d own q) = some [(pa, 8)]) (ho : s.storeOpen (some own) pa = true) :
    exec (.launchAppend d own q) s = .next (s.appendEntry d own q) := by
  have hready : appendReady s d own q = true := by
    rw [appendReady]
    rw [hres]
    dsimp only
    rw [hdone, htables, hat, Option.getD_some, List.all_cons, ho]
    rfl
  rw [exec_launchAppend, execLaunchAppend, meetNext_clean _ _ _ hn]
  exact enabledIf_true hready _

theorem launchesAppended : Sys2Proof.Claim.LaunchesAppended := by
  intro s d own q r rest pa hn hres hdone y tail htables hat hpa hopen hs
  have hexec := launchAppend_happens hn hres hdone htables hat ((storeOpen_plain hs ..).trans hopen)
  obtain ⟨hentry, htail, hrest, hcores, hout⟩ := appended_leaves (d := d) (own := own) (q := q) (r := r) (rest := rest) hs hpa
  refine ⟨_, hexec, ?_⟩
  rw [appendEntry_eq hres hat]
  cases hst : r.status with
  | none => exact ⟨hentry, htail, hrest, hcores, (fun _ hz => nomatch hz), hout⟩
  | some z =>
    refine ⟨hentry, htail, ?_, hcores, fun z' hz => ?_, hout⟩ <;> rw [State.remember, queue_modQueue]
    · exact hrest
    · obtain rfl := Option.some.inj hz
      exact aget_ains_same _ _ _ _

end Sys2Proof.Machine
end

section
/-! Admission of launches and the start of passes (R28, R29, R107, R228, R232). -/
namespace Sys2Proof.Machine

variable {s t u : State} {l : Launch} {id : Word} {pa : Nat} {i : Nat} {w : BitVec 26} {b : Bool}

/-! ### Predecessors (R28, R29, R228) -/

/-- A record names a word as its first or its second predecessor's. -/
def Names (r : Line) (i : Nat) (w : BitVec 26) : Prop :=
  (i = 0 ∧ r.getLsbD 479 = true ∧ w = r.extractLsb' 448 26) ∨ (i = 1 ∧ r.getLsbD 511 = true ∧ w = r.extractLsb' 480 26)

/-- The predecessors that a record names, each with its place. -/
def predList (r : Line) : List (Nat × BitVec 26) :=
  (if r.getLsbD 479 then [(0, r.extractLsb' 448 26)] else []) ++ (if r.getLsbD 511 then [(1, r.extractLsb' 480 26)] else [])

theorem mem_predList {r : Line} : (i, w) ∈ predList r ↔ Names r i w := by
  rw [predList, List.mem_append, Names]
  refine or_congr ?_ ?_ <;> split <;> simp_all

theorem predStatuses_eq (s : State) (l : Launch) :
    predStatuses s l = (predList l.record).map fun x => predStatus s l x.1 x.2 := by
  rw [predStatuses, predList, recPreds]
  cases h0 : l.record.getLsbD 479 <;> cases l.record.getLsbD 511 <;> rfl

/-- The word of a predecessor is lost to a launch: its core changed owner, or its write was dropped. -/
def LostTo (s : State) (l : Launch) (i : Nat) (w : BitVec 26) : Prop :=
  l.predLost.getLsbD i = true ∨ (tailPa w, l.tenant) ∈ s.lostWords

/-- A predecessor that ended with success. -/
def Succeeded (s : State) (l : Launch) (i : Nat) (w : BitVec 26) : Prop :=
  ¬ LostTo s l i w ∧ (rdWord s.mem (tailPa w)).toNat % 256 ∈ [1, 2]

theorem isSuccess_setWidth (v : Word) : isSuccess (v.setWidth 8) = true ↔ v.toNat % 256 ∈ [1, 2] := by
  have hbyte (n : Nat) (h : n < 256) : v.setWidth 8 = BitVec.ofNat 8 n ↔ v.toNat % 256 = n := by
    rw [← BitVec.toNat_inj, BitVec.toNat_setWidth, BitVec.toNat_ofNat]
    omega
  rw [isSuccess, Bool.or_eq_true, beq_iff_eq, beq_iff_eq, List.mem_cons, List.mem_singleton]
  exact or_congr (hbyte 1 (by decide)) (hbyte 2 (by decide))

theorem predStatus_lost (h : LostTo s l i w) : predStatus s l i w = some 0x06 :=
  if_pos (by rw [Bool.or_eq_true, List.contains_iff_mem]; exact h)

theorem predStatus_read (h : ¬ LostTo s l i w) : predStatus s l i w =
    if rdWord s.mem (tailPa w) = 0 then none else some ((rdWord s.mem (tailPa w)).setWidth 8) :=
  if_neg (by rw [Bool.or_eq_true, List.contains_iff_mem]; exact h)

theorem predStatus_isNone : (predStatus s l i w).isNone = true ↔ ¬ (LostTo s l i w ∨ rdWord s.mem (tailPa w) ≠ 0) := by
  by_cases h : LostTo s l i w
  · rw [predStatus_lost h]
    simp [h]
  · rw [predStatus_read h]
    split <;> simp_all

theorem predStatus_isSuccess : isSuccess ((predStatus s l i w).getD 0) = true ↔ Succeeded s l i w := by
  rw [Succeeded]
  by_cases h : LostTo s l i w
  · rw [predStatus_lost h]
    simp [h, isSuccess]
  · rw [predStatus_read h, ← isSuccess_setWidth]
    split
    · rename_i hz
      rw [hz]
      simp [h, isSuccess]
    · simp [h]

theorem predStatuses_any (p : Option Byte → Bool) : (predStatuses s l).any p = true ↔
    ∃ i w, Names l.record i w ∧ p (predStatus s l i w) = true := by
  rw [predStatuses_eq, List.any_map, List.any_eq_true]
  constructor
  · rintro ⟨⟨i, w⟩, hm, hp⟩
    exact ⟨i, w, mem_predList.1 hm, hp⟩
  · rintro ⟨i, w, hm, hp⟩
    exact ⟨⟨i, w⟩, mem_predList.2 hm, hp⟩

/-- No predecessor's word is still to be written. -/
theorem preds_written (h : ∀ i w, Names l.record i w → LostTo s l i w ∨ rdWord s.mem (tailPa w) ≠ 0) :
    (predStatuses s l).any (·.isNone) = false := by
  refine Bool.eq_false_iff.2 fun hany => ?_
  obtain ⟨i, w, hn, hp⟩ := (predStatuses_any _).1 hany
  exact predStatus_isNone.1 hp (h i w hn)

theorem Succeeded.written (h : Succeeded s l i w) : LostTo s l i w ∨ rdWord s.mem (tailPa w) ≠ 0 := by
  refine .inr fun hz => ?_
  have hst := h.2
  rw [hz] at hst
  exact absurd hst (by decide)

theorem preds_succeeded (h : ∀ i w, Names l.record i w → Succeeded s l i w) :
    ((predStatuses s l).any fun p => !isSuccess (p.getD 0)) = false := by
  refine Bool.eq_false_iff.2 fun hany => ?_
  obtain ⟨i, w, hn, hp⟩ := (predStatuses_any _).1 hany
  rw [predStatus_isSuccess.2 (h i w hn)] at hp
  exact nomatch hp

/-! ### The decision -/

theorem admission_waits (h : (predStatuses s l).any (·.isNone) = true) : admission s l = .wait :=
  if_pos (by rw [h, Bool.or_true])

/-- What a waiting launch's admission comes to once no word of a predecessor is zero. -/
theorem admission_ready (hw : l.phase = .waiting) (hp : l.pass = none) (h : (predStatuses s l).any (·.isNone) = false) :
    admission s l = if (predStatuses s l).any fun p => !isSuccess (p.getD 0) then .end_ 0x06
      else if recTrace l.record && s.traceBusy then .wait
      else if recTrace l.record && !s.traceUsable then .end_ 0x05
      else if recW l.record == 0 then .empty
      else if (s.die l.die).stage == 2 then .wait
      else .accept :=
  if_neg (by rw [h, hw, hp]; exact Bool.false_ne_true)

/-! ### The start of a launch or pass -/

/-- A launch that is admitted at a tick. -/
def Launch.begun (l : Launch) (tick : Dword) (p : Word) : Launch :=
  { l with phase := .admitted, started := true, tick := tick, p := p }

/-- SC when a record's launch or pass starts. -/
def scFor (s : State) (r : Line) : Word := if recTrace r then s.sc + 1 else s.sc

/-- What a launch's own start changes. -/
def State.begun (s : State) (id : Word) (r : Line) : State :=
  ({ s with sc := scFor s r } : State).modLaunch id fun l => l.begun s.gcc (scFor s r)

theorem beginLaunch_eq (h : s.launch id = some l) : s.beginLaunch id = s.begun id l.record := by
  rw [State.beginLaunch, h, State.begun, scFor]
  dsimp only
  cases recTrace l.record <;> rfl

theorem begun_launch (h : s.launch id = some l) (r : Line) : (s.begun id r).launch id = some (l.begun s.gcc (scFor s r)) :=
  launch_modLaunch_self (s := { s with sc := scFor s r }) h (by exact fun _ => rfl)

/-- What happens before the words of the predecessors happens before all accesses of the launch. -/
def State.heard (s : State) (l : Launch) : State := s.launchAfter l.id ((predCells l).flatMap fun pa => aget s.heads pa [])

theorem accept_end {st : Byte} (h : admission s l = .end_ st) :
    s.accept l = ((s.heard l).writeStatus l st 0 false 0).dropLaunch l.id := by
  rw [State.accept, h]
  rfl

theorem accept_accept (h : admission s l = .accept) : s.accept l = (s.heard l).beginLaunch l.id := by
  rw [State.accept, h]
  rfl

theorem accept_empty {m : Launch} (h : admission s l = .empty) (hm : ((s.heard l).beginLaunch l.id).launch l.id = some m) :
    s.accept l = ((s.heard l).beginLaunch l.id).endLaunch m 0x02 := by
  rw [State.accept, h]
  change (match ((s.heard l).beginLaunch l.id).launch l.id with | some m => _ | none => _) = _
  rw [hm]
  rfl

/-! ### ADMIT_LAUNCH -/

theorem exec_admitLaunch (id : Word) (s : State) : exec (.admitLaunch id) s = execAdmitLaunch id s := rfl

theorem admitLaunch_waits (hl : s.launch id = some l) (h : admission s l = .wait) :
    exec (.admitLaunch id) s = .fault .notEnabled := by
  rw [exec_admitLaunch, execAdmitLaunch, hl]
  refine enabledIf_false ?_ _
  rw [h]
  rfl

theorem admitLaunch_happens (hl : s.launch id = some l) (hn : s.nextErrs = []) (h : admission s l ≠ .wait)
    (ho : admission s l = .empty → traceOpen s l = true) : exec (.admitLaunch id) s = .next (s.accept l) := by
  have hready : (admission s l != .wait && (admission s l != .empty || traceOpen s l)) = true := by
    by_cases he : admission s l = .empty
    · rw [he, ho he]
      rfl
    · simp [h, he]
  rw [exec_admitLaunch, execAdmitLaunch, hl]
  dsimp only
  rw [meetNext_clean _ _ _ hn, meetNext_clean _ _ _ hn]
  exact enabledIf_true hready _

/-! ### What an end at once leaves -/

theorem writeDone_cores (s : State) (l : Launch) (w : Word) : (s.writeDone l w).cores = s.cores := by
  rw [State.writeDone]
  split
  · rfl
  · exact congrArg Prod.fst (publish_set ..)

/-- A waiting launch that ends with a status. -/
theorem ended_leaves (hp : l.pass = none) (s : State) (st : Byte) (again : Bool) :
    let u := (s.writeStatus l st 0 again 0).dropLaunch l.id
    u.launch l.id = none ∧ u.cores = s.cores ∧
      (l.doneLost = false → s.ownsCore l.tenant (tailCore (recDonew l.record)) = true →
        WordAt s.mem u.mem (tailPa (recDonew l.record)) (statusWord st 0)) := by
  rw [writeStatus_launch hp]
  exact ⟨launch_dropLaunch .., writeDone_cores .., fun hd ho => writeDone_written hd ho _⟩

/-- A launch without units that ends as soon as it is admitted. -/
theorem empty_leaves (hp : l.pass = none) (ht : recTrace l.record = false)
    (hr : ∀ q ∈ s.running, q.launch ≠ l.id) :
    let m := l.begun s.gcc (scFor s l.record)
    let u := (s.begun l.id l.record).endLaunch m 0x02
    u.launch l.id = none ∧ (l.doneLost = false → s.ownsCore l.tenant (tailCore (recDonew l.record)) = true →
      WordAt s.mem u.mem (tailPa (recDonew l.record)) 0x02) := by
  intro m
  have hst : statusWord 0x02 (countedFaults m 0x02) = 0x02 := (by decide : statusWord 0x02 0 = 0x02)
  have hword := (endLaunch_word (s := s.begun l.id l.record) (l := m) ht hp hr 0x02).1
  rw [hst] at hword
  exact ⟨endLaunch_gone (s.begun l.id l.record) m 0x02, hword⟩

theorem launchAdmitted (hl : s.launch id = some l) (hw : l.phase = .waiting) (hp : l.pass = none) (hn : s.nextErrs = []) :
    ((∃ i w, Names l.record i w ∧ ¬ (LostTo s l i w ∨ rdWord s.mem (tailPa w) ≠ 0)) →
      exec (.admitLaunch id) s = .fault .notEnabled) ∧
    ((∀ i w, Names l.record i w → LostTo s l i w ∨ rdWord s.mem (tailPa w) ≠ 0) →
      (∃ i w, Names l.record i w ∧ ¬ Succeeded s l i w) →
      exec (.admitLaunch id) s = .next (((s.heard l).writeStatus l 0x06 0 false 0).dropLaunch l.id)) ∧
    ((∀ i w, Names l.record i w → Succeeded s l i w) → recTrace l.record = false → recW l.record = 0 →
      exec (.admitLaunch id) s = .next (((s.heard l).begun l.id l.record).endLaunch (l.begun s.gcc (scFor s l.record)) 0x02)) ∧
    ((∀ i w, Names l.record i w → Succeeded s l i w) → 0 < recW l.record → (s.die l.die).stage ≠ 2 →
      (recTrace l.record = true → s.traceBusy = false ∧ s.traceUsable = true) →
      exec (.admitLaunch id) s = .next ((s.heard l).begun l.id l.record)) := by
  obtain rfl := launch_id hl
  have hheard : (s.heard l).launch l.id = some l := hl
  have hbegin := beginLaunch_eq hheard
  refine ⟨fun ⟨i, w, hi, hno⟩ => ?_, fun hwr ⟨i, w, hi, hbad⟩ => ?_, fun hg ht hz => ?_, fun hg hz hst htr => ?_⟩
  · exact admitLaunch_waits hl (admission_waits ((predStatuses_any _).2 ⟨i, w, hi, predStatus_isNone.2 hno⟩))
  · have hfail : ((predStatuses s l).any fun p => !isSuccess (p.getD 0)) = true :=
      (predStatuses_any _).2 ⟨i, w, hi, by
        rw [Bool.not_eq_true', Bool.eq_false_iff]
        exact fun h => hbad (predStatus_isSuccess.1 h)⟩
    have hadm := (admission_ready hw hp (preds_written hwr)).trans (if_pos hfail)
    rw [admitLaunch_happens hl hn (by rw [hadm]; exact Admission.noConfusion) (by rw [hadm]; exact Admission.noConfusion),
      accept_end hadm]
  · have hadm : admission s l = .empty := by
      rw [admission_ready hw hp (preds_written fun i w h => (hg i w h).written), preds_succeeded hg, ht, hz]
      rfl
    rw [admitLaunch_happens hl hn (by rw [hadm]; exact Admission.noConfusion) (fun _ => traceOpen_untraced ht s),
      accept_empty hadm (by rw [hbegin]; exact begun_launch hheard _), hbegin]
    rfl
  · have hadm : admission s l = .accept := by
      rw [admission_ready hw hp (preds_written fun i w h => (hg i w h).written), preds_succeeded hg]
      have hunits : (recW l.record == 0) = false := beq_false_of_ne (by omega)
      rw [hunits, beq_false_of_ne hst]
      cases ht : recTrace l.record
      · rfl
      · rw [(htr ht).1, (htr ht).2]
        rfl
    rw [admitLaunch_happens hl hn (by rw [hadm]; exact Admission.noConfusion) (by rw [hadm]; exact Admission.noConfusion),
      accept_accept hadm, hbegin]

end Sys2Proof.Machine
end

section
/-! The start of passes (R29, R107, R228, R232, R233). -/
namespace Sys2Proof.Machine

variable {s t u : State} {l : Launch} {id : Word} {pa : Nat} {i : Nat} {w : BitVec 26} {b : Bool} {x : Nat}

/-! ### The units that a pass selects (R232) -/

/-- A byte that is not zero is listed. -/
theorem listed_of_rd {m : List Host.Cell} {a : Nat} (h : rd m a ≠ 0) : ∃ c ∈ m, c.1 = a := by
  induction m with
  | nil => exact absurd rfl h
  | cons c m ih =>
    by_cases hc : c.1 = a
    · exact ⟨c, List.mem_cons_self, hc⟩
    · rw [rd, aget, if_neg hc] at h
      obtain ⟨d, hd, ha⟩ := ih h
      exact ⟨d, List.mem_cons_of_mem _ hd, ha⟩

/-- A word that is not zero has a listed byte. -/
theorem listed_of_rdWord {m : List Host.Cell} {a : Nat} (h : rdWord m a ≠ 0) : ∃ c ∈ m, a ≤ c.1 ∧ c.1 < a + 4 := by
  by_contra hno
  refine h ?_
  have hzero : ∀ b, a ≤ b → b < a + 4 → rd m b = rd [] b := fun b h1 h2 => by
    by_contra hb
    obtain ⟨c, hc, rfl⟩ := listed_of_rd hb
    exact hno ⟨c, hc, h1, h2⟩
  rw [rdWord_congr hzero]
  rfl

theorem stampIn_iff {a c n : Nat} : s.stampIn a c (n < ·) = true ↔ ∃ g, a ≤ g ∧ g ≤ c ∧ n < (s.stampOf g).toNat := by
  rw [State.stampIn]
  rw [List.any_eq_true]
  simp only [Bool.and_eq_true, decide_eq_true_eq]
  constructor
  · rintro ⟨⟨z, v⟩, -, ⟨h1, h2⟩, h3⟩
    exact ⟨_, by omega, by omega, h3⟩
  · rintro ⟨g, h1, h2, h3⟩
    have hne : s.stampOf g ≠ 0 := fun hz => by
      rw [hz] at h3
      exact absurd h3 (Nat.not_lt_zero _)
    obtain ⟨z, hz, h4, h5⟩ := listed_of_rdWord hne
    have hg : (z.1 - s.stampBase) / 4 = g := by omega
    exact ⟨z, hz, ⟨by omega, by omega⟩, by rw [hg]; exact h3⟩

/-- An entry's unit is stale: its entry marks all, or a granule of its runs has a stamp above its own. -/
def Stale (s : State) (e : Entry) : Prop :=
  e.all = true ∨ ∃ g ∈ e.runs, ∃ h, g.1 ≤ h ∧ h ≤ g.2 ∧ e.screc < (s.stampOf h).toNat

theorem selects_true : s.selects l b x = some true ↔
    ∃ bs, s.tread l.tenant (entryVa l x) 128 = some bs ∧ (b = true ∨ Stale s (parseEntry bs)) := by
  rw [State.selects, Option.map_eq_some_iff]
  refine exists_congr fun bs => and_congr Iff.rfl ?_
  dsimp only
  rw [Bool.or_eq_true, Bool.or_eq_true, or_assoc, List.any_eq_true]
  refine or_congr Iff.rfl (or_congr Iff.rfl (exists_congr fun g => and_congr Iff.rfl stampIn_iff))

theorem selects_isSome : (s.selects l b x).isSome = (s.tread l.tenant (entryVa l x) 128).isSome := by
  rw [State.selects, Option.isSome_map]

/-- One unit of a selection. -/
def selectStep (s : State) (l : Launch) (b : Bool) (acc : Option (List Nat)) (x : Nat) : Option (List Nat) :=
  acc.bind fun us => (s.selects l b x).map fun y => if y then us ++ [x] else us

theorem selectStep_none (xs : List Nat) : xs.foldl (selectStep s l b) none = none := by
  induction xs with
  | nil => rfl
  | cons x xs ih => exact ih

theorem selectStep_foldl {xs acc us : List Nat} (h : xs.foldl (selectStep s l b) (some acc) = some us) :
    (∀ x ∈ xs, (s.selects l b x).isSome = true) ∧ ∀ x, x ∈ us ↔ x ∈ acc ∨ (x ∈ xs ∧ s.selects l b x = some true) := by
  induction xs generalizing acc with
  | nil =>
    obtain rfl := Option.some.inj h
    simp
  | cons y xs ih =>
    rw [List.foldl_cons, selectStep, Option.bind_some] at h
    cases hy : s.selects l b y with
    | none =>
      rw [hy, Option.map_none, selectStep_none] at h
      exact nomatch h
    | some v =>
      rw [hy, Option.map_some] at h
      obtain ⟨hall, hmem⟩ := ih h
      refine ⟨List.forall_mem_cons.2 ⟨by rw [hy]; rfl, hall⟩, fun x => ?_⟩
      rw [hmem, List.mem_cons]
      cases v
      · rw [if_neg Bool.false_ne_true]
        aesop
      · rw [if_pos rfl, List.mem_append, List.mem_singleton]
        aesop

/-- A selection's units are those whose entries mark them stale, or all where accesses are not attributed. -/
theorem selection_mem {us : List Nat} (h : s.selection l b = some us) : x ∈ us ↔
    x < recW l.record ∧ (b = true ∨ ∃ bs, s.tread l.tenant (entryVa l x) 128 = some bs ∧ Stale s (parseEntry bs)) := by
  obtain ⟨hall, hmem⟩ := selectStep_foldl (xs := List.range (recW l.record)) (acc := []) h
  rw [hmem, or_iff_right List.not_mem_nil, List.mem_range]
  refine and_congr_right fun hx => ?_
  have hsome := hall x (List.mem_range.2 hx)
  rw [selects_isSome] at hsome
  obtain ⟨bs, hbs⟩ := Option.isSome_iff_exists.1 hsome
  simp [selects_true, hbs]

/-! ### The decision on a pass -/

/-- The word of a pass's launch is lost to it. -/
def LaunchLost (s : State) (l : Launch) : Prop :=
  l.predLost.getLsbD 2 = true ∨ (tailPa (recDonew l.record), l.tenant) ∈ s.lostWords

/-- The word of a pass's launch as the pass sees it. -/
def launchWord (s : State) (l : Launch) : Word :=
  if l.predLost.getLsbD 2 || s.lostWords.contains (tailPa (recDonew l.record), l.tenant) then 0x06
  else rdWord s.mem (tailPa (recDonew l.record))

theorem launchWord_lost (h : LaunchLost s l) : launchWord s l = 0x06 :=
  if_pos (by rw [Bool.or_eq_true, List.contains_iff_mem]; exact h)

theorem launchWord_read (h : ¬ LaunchLost s l) : launchWord s l = rdWord s.mem (tailPa (recDonew l.record)) :=
  if_neg (by rw [Bool.or_eq_true, List.contains_iff_mem]; exact h)

/-- A pass with none earlier of its record. -/
def FirstPass (s : State) (l : Launch) : Prop :=
  ∀ m ∈ s.launches, m.tenant = l.tenant → m.recordVa = l.recordVa → ¬ m.id.toNat < l.id.toNat

theorem noneEarlier (h : FirstPass s l) : (s.launches.any fun m =>
    m.tenant == l.tenant && m.recordVa == l.recordVa && m.id != l.id && m.id.toNat < l.id.toNat) = false := by
  rw [List.any_eq_false]
  intro m hm
  have := h m hm
  simp only [Bool.and_eq_true, beq_iff_eq, bne_iff_ne, decide_eq_true_eq]
  tauto

theorem passAdmission_first {z : StatusAt} (hw : l.phase = .waiting) (hp : l.pass = some z) (h : FirstPass s l) :
    passAdmission s l = if launchWord s l == 0 then .wait
      else if !isSuccess ((launchWord s l).setWidth 8) then .end_ 0x06
      else if s.traceBusy then .wait
      else if !s.traceUsable then .end_ 0x05
      else if (s.die l.die).stage == 2 then .wait
      else .accept := by
  unfold passAdmission
  extract_lets pa w earlier
  have he : earlier = false := noneEarlier h
  have hlw : launchWord s l = w := rfl
  rw [hlw, he, hw, hp]
  generalize w = v
  cases v == 0 <;> rfl

/-! ### What a pass that starts does -/

/-- What happens before the words of the launch and of its earlier passes happens before all accesses of the pass. -/
def State.passHeard (s : State) (l : Launch) : State :=
  s.launchAfter l.id (aget s.passRels (passKey l.tenant l.recordVa) [])

theorem startPass_end {st : Byte} (h : passAdmission s l = .end_ st) :
    s.startPass l = ((s.passHeard l).endAtOnce l st).dropLaunch l.id := by
  rw [State.startPass, h]
  rfl

/-- The number of the pass after the one that a trace header names. -/
def nextPassNo (hb : List Byte) : BitVec 16 := BitVec.ofNat 16 (Min.min (leNat (hb.take 8) / 2 ^ 32 % 2 ^ 16 + 1) 0xFFFF)

theorem nextPassNo_toNat (hb : List Byte) :
    (nextPassNo hb).toNat = Min.min (leNat (hb.take 8) / 2 ^ 32 % 2 ^ 16 + 1) 65535 := by
  rw [nextPassNo, BitVec.toNat_ofNat]
  exact Nat.mod_eq_of_lt (by omega)

/-- Whether a trace header says that accesses were not attributed. -/
def unattributed (hb : List Byte) : Bool := leNat (hb.take 8) / 2 ^ 25 % 2 == 1

/-- A pass with its number and its units. -/
def Launch.numbered (l : Launch) (n : BitVec 16) (us : List Nat) : Launch := { l with passNo := n, sel := some us }

theorem startPass_accept {hb : List Byte} {us : List Nat} (h : passAdmission s l = .accept)
    (hr : ((s.passHeard l).beginLaunch l.id).tread l.tenant (recTbuf l.record) 128 = some hb)
    (hs : ((s.passHeard l).beginLaunch l.id).selection l (unattributed hb) = some us) :
    s.startPass l = ((s.passHeard l).beginLaunch l.id).modLaunch l.id fun m => m.numbered (nextPassNo hb) us := by
  unfold State.startPass
  extract_lets after s1
  have hs1 : (s.passHeard l).beginLaunch l.id = s1 := rfl
  rw [hs1] at hr hs
  rw [h, hs1]
  clear_value s1
  generalize s1.tread l.tenant (recTbuf l.record) 128 = o at hr ⊢
  generalize s1.selection l = sel at hs ⊢
  obtain rfl := hr
  dsimp only
  rw [show sel (leNat (hb.take 8) / 2 ^ 25 % 2 == 1) = some us from hs]
  rfl

/-! ### PASS_START -/

theorem exec_passStart (id : Word) (s : State) : exec (.passStart id) s = execPassStart id s := rfl

theorem passStart_waits (hl : s.launch id = some l) (h : passAdmission s l = .wait) :
    exec (.passStart id) s = .fault .notEnabled := by
  rw [exec_passStart, execPassStart, hl]
  refine enabledIf_false ?_ _
  rw [h]
  rfl

/-- The tables and the words that a pass reads when it starts. -/
def State.passReads (s : State) (l : Launch) : List Nat :=
  s.traceTables l (List.range (recW l.record)) ++ s.traceWords l (List.range (recW l.record))

theorem passStart_happens (hl : s.launch id = some l) (hn : s.nextErrs = []) (h : passAdmission s l ≠ .wait)
    (ho : passAdmission s l = .accept → (s.passReads l).all (s.dramOpen (some l.tenant)) = true) :
    exec (.passStart id) s = .next (s.startPass l) := by
  rw [exec_passStart, execPassStart, hl]
  dsimp only
  rw [meetNext_clean _ _ _ hn, meetNext_clean _ _ _ hn]
  refine enabledIf_true ?_ _
  rw [bne_iff_ne.2 h, Bool.true_and]
  by_cases ha : passAdmission s l = .accept
  · have hyes : (passAdmission s l == .accept) = true := beq_iff_eq.2 ha
    rw [if_pos hyes, if_pos hyes]
    exact ho ha
  · have hno : ¬ (passAdmission s l == .accept) = true := fun he => ha (beq_iff_eq.1 he)
    rw [if_neg hno, if_neg hno]
    rfl

/-! ### A pass that ends at once -/

theorem writePass_cores (s : State) (l : Launch) (z : StatusAt) (w0 w1 : Word) : (s.writePass l z w0 w1).cores = s.cores := by
  unfold State.writePass
  split
  · split
    · exact (congrArg Prod.fst (publish_set ..)).trans (congrArg Prod.fst (write_set ..))
    · rfl
  · rfl

/-- The state and the pass, its number free, that a pass which ends at once reports from. -/
theorem endAtOnce_pass {z : StatusAt} (hp : l.pass = some z) (s : State) (st : Byte) : ∃ n,
    s.endAtOnce l st = ({ s with freeCtr := s.freeCtr + 1 } : State).writePass { l with passNo := n } z
      (passWord { l with passNo := n } st false) 0 := by
  unfold State.endAtOnce
  split
  · rename_i hno
    exact nomatch hno.symm.trans hp
  · exact ⟨_, writeStatus_pass (l := { l with passNo := BitVec.ofNat 16 (Config.freeNat s.freeCtr) }) hp ..⟩

theorem passWord_low (l : Launch) (st : Byte) : (passWord l st false).toNat % 65536 = st.toNat := by
  have := l.passNo.isLt
  have := st.isLt
  rw [passWord, BitVec.toNat_ofNat]
  simp only [Bool.false_eq_true, if_false]
  omega

theorem endAtOnce_leaves {z : StatusAt} (hp : l.pass = some z) (s : State) (st : Byte) :
    (s.endAtOnce l st).cores = s.cores ∧ ∀ pa, z.pa = some pa → isAcc pa = true →
      s.ownsCore l.tenant (accCore pa) = true → (rdWord (s.endAtOnce l st).mem pa).toNat % 65536 = st.toNat := by
  obtain ⟨n, h⟩ := endAtOnce_pass hp s st
  rw [h]
  refine ⟨writePass_cores .., fun pa hz ha ho => ?_⟩
  rw [(writePass_words (s := { s with freeCtr := s.freeCtr + 1 }) (l := { l with passNo := n }) hz ha ho _ _).2, passWord_low]

/-! ### A pass that starts -/

theorem tread_of (s : State) (ps : List Past) (sc : Word) (ls : List Launch) (own : Tenant) (va n : Nat) :
    ({ s with pasts := ps, sc := sc, launches := ls } : State).tread own va n = s.tread own va n := rfl

theorem selection_of (s : State) (ps : List Past) (sc : Word) (ls : List Launch) (l : Launch) (b : Bool) :
    ({ s with pasts := ps, sc := sc, launches := ls } : State).selection l b = s.selection l b := rfl

/-- The start of a launch or pass changes SC and what is known of the launch. -/
theorem begun_launchAfter (s : State) (id : Word) (hs : List Nat) (r : Line) : (s.launchAfter id hs).begun id r =
    { s with
      pasts := (s.launchAfter id hs).pasts, sc := ((s.launchAfter id hs).begun id r).sc
      launches := ((s.launchAfter id hs).begun id r).launches } := rfl

theorem startPass_begins {hb : List Byte} {us : List Nat} (hl : s.launch l.id = some l) (h : passAdmission s l = .accept)
    (hr : s.tread l.tenant (recTbuf l.record) 128 = some hb) (hs : s.selection l (unattributed hb) = some us) :
    s.startPass l = ((s.passHeard l).begun l.id l.record).modLaunch l.id fun m => m.numbered (nextPassNo hb) us := by
  have hbegin : (s.passHeard l).beginLaunch l.id = (s.passHeard l).begun l.id l.record := beginLaunch_eq hl
  rw [startPass_accept h, hbegin]
  · rw [hbegin, State.passHeard, begun_launchAfter, tread_of, hr]
  · rw [hbegin, State.passHeard, begun_launchAfter, selection_of, hs]

/-- A pass after its start. -/
theorem startPass_leaves {hb : List Byte} {us : List Nat} (hl : s.launch l.id = some l) (h : passAdmission s l = .accept)
    (ht : recTrace l.record = true) (hr : s.tread l.tenant (recTbuf l.record) 128 = some hb)
    (hs : s.selection l (unattributed hb) = some us) :
    (s.startPass l).launch l.id = some ((l.begun s.gcc (s.sc + 1)).numbered (nextPassNo hb) us) ∧
      (s.startPass l).sc = s.sc + 1 ∧ (s.startPass l).mem = s.mem := by
  have hsc : scFor (s.passHeard l) l.record = s.sc + 1 := if_pos ht
  have hlaunch := launch_modLaunch_self (s := (s.passHeard l).begun l.id l.record)
    (f := fun m => m.numbered (nextPassNo hb) us) (begun_launch (s := s.passHeard l) hl l.record) (by exact fun _ => rfl)
  rw [hsc] at hlaunch
  rw [startPass_begins hl h hr hs]
  exact ⟨hlaunch, hsc, rfl⟩

/-! ### The decision, by what the launch's word shows -/

section
variable {z : StatusAt} (hw : l.phase = .waiting) (hp : l.pass = some z) (he : FirstPass s l)
include hw hp he

theorem passAdmission_waits (hz : rdWord s.mem (tailPa (recDonew l.record)) = 0) (hg : ¬ LaunchLost s l) :
    passAdmission s l = .wait := by
  rw [passAdmission_first hw hp he, launchWord_read hg, hz]
  rfl

theorem passAdmission_fails (h : LaunchLost s l ∨ (rdWord s.mem (tailPa (recDonew l.record)) ≠ 0 ∧
    (rdWord s.mem (tailPa (recDonew l.record))).toNat % 256 ∉ [1, 2])) : passAdmission s l = .end_ 0x06 := by
  rw [passAdmission_first hw hp he]
  by_cases hg : LaunchLost s l
  · rw [launchWord_lost hg]
    rfl
  · obtain ⟨hne, hst⟩ := h.resolve_left hg
    rw [launchWord_read hg, beq_false_of_ne hne, if_neg Bool.false_ne_true, if_pos]
    rw [Bool.not_eq_true', Bool.eq_false_iff]
    exact fun hs => hst ((isSuccess_setWidth _).1 hs)

theorem passAdmission_accepts (hst : (rdWord s.mem (tailPa (recDonew l.record))).toNat % 256 ∈ [1, 2])
    (hg : ¬ LaunchLost s l) (hb : s.traceBusy = false) (hu : s.traceUsable = true) (hd : (s.die l.die).stage ≠ 2) :
    passAdmission s l = .accept := by
  have hne : rdWord s.mem (tailPa (recDonew l.record)) ≠ 0 := fun hz => by
    rw [hz] at hst
    exact absurd hst (by decide)
  rw [passAdmission_first hw hp he, launchWord_read hg, beq_false_of_ne hne, (isSuccess_setWidth _).2 hst, hb, hu,
    beq_false_of_ne hd]
  rfl

end

theorem launchesAdmitted : Sys2Proof.Claim.LaunchesAdmitted := by
  intro s lid l hn hl hw r pred lost written good word ends
  obtain rfl := launch_id hl
  refine ⟨fun hp => ?_, fun z hp he => ⟨fun hz hg => ?_, fun h => ?_, fun hb us ht hst hg hbusy huse hd ho hr hs => ?_⟩⟩
  · obtain ⟨hwait, hfail, hempty, haccept⟩ := launchAdmitted hl hw hp hn
    refine ⟨hwait, fun hwr hbad => ⟨_, hfail hwr hbad, ?_⟩, fun hg ht hz hq _ => ⟨_, hempty hg ht hz, ?_⟩,
      fun hg hz hd htr => ⟨_, _, haccept hg hz hd htr, begun_launch (s := s.heard l) hl _, rfl, rfl, rfl, rfl, rfl, fun ht => ?_⟩⟩
    · obtain ⟨hgone, hcores, hword⟩ := ended_leaves hp (s.heard l) 0x06 false
      exact ⟨⟨hgone, fun hd ho => ⟨(hword hd ho).word, (hword hd ho).out⟩⟩, hcores⟩
    · obtain ⟨hgone, hword⟩ := empty_leaves (s := s.heard l) hp ht hq
      exact ⟨hgone, fun hd ho => ⟨(hword hd ho).word, (hword hd ho).out⟩⟩
    · have hsc : scFor s l.record = s.sc + 1 := if_pos ht
      exact ⟨hsc, hsc⟩
  · exact passStart_waits hl (passAdmission_waits hw hp he hz hg)
  · have hadm := passAdmission_fails hw hp he h
    have hexec := passStart_happens hl hn (by rw [hadm]; exact Admission.noConfusion) (by rw [hadm]; exact Admission.noConfusion)
    obtain ⟨hcores, hword⟩ := endAtOnce_leaves hp (s.passHeard l) 0x06
    exact ⟨_, by rw [hexec, startPass_end hadm], launch_dropLaunch .., hcores, fun pa hpa ha _ hown => hword pa hpa ha hown⟩
  · have hadm := passAdmission_accepts hw hp he hst hg hbusy huse hd
    have hexec := passStart_happens hl hn (by rw [hadm]; exact Admission.noConfusion) (fun _ => ho)
    obtain ⟨hlaunch, hsc, hmem⟩ := startPass_leaves hl hadm ht hr hs
    refine ⟨⟨_, _, hexec, hlaunch, rfl, nextPassNo_toNat hb, rfl, hsc, rfl, hmem⟩, fun x => ?_⟩
    rw [selection_mem hs, beq_iff_eq]
    rfl

end Sys2Proof.Machine
end

section
/-! Records taken from queues (R28, R29, R289, R290, R292). -/
namespace Sys2Proof.Machine

variable {s t u : State} {l : Launch} {id : Word} {pa : Nat} {d : DieId} {own : Tenant} {q : BitVec 4} {e : Nat} {r : Line}

/-! ### What the scheduler finds at the head of a queue -/

/-- The address of a queue's head entry. -/
def headVa (y : Queue) : Nat := y.base.toNat + 8 * (y.head.toNat % 2 ^ y.log2n.toNat)

/-- A number that is no record address. -/
def noRecord (e : Nat) : Bool := 2 ^ 48 ≤ e || e % 64 != 0

/-- The record at an address, when it can be read and its completion word is the tenant's. -/
def State.recordAt (s : State) (own : Tenant) (e : Nat) : Option Line :=
  (s.vread own e 64).bind fun rb =>
    if s.ownsCore own (tailCore (recDonew (BitVec.ofNat 512 (leNat rb)))) then some (BitVec.ofNat 512 (leNat rb)) else none

/-- The record that the scheduler takes from a queue, with its address; none when it stops the queue. -/
def State.headRecord (s : State) (own : Tenant) (y : Queue) : Option (Nat × Line) :=
  if 2 ^ y.log2n.toNat < (s.qtail y - y.head).toNat then none
  else (s.vread own (headVa y) 8).bind fun eb =>
    if noRecord (leNat eb) then none else (s.recordAt own (leNat eb)).map fun r => (leNat eb, r)

/-- The queue has been visited. -/
def State.visited (s : State) (d : DieId) (own : Tenant) (q : BitVec 4) : State :=
  s.modDie d fun x => { x with rr := ains x.rr own.toNat ((q.toNat + 1) % 16) }

def Queue.stopped (y : Queue) : Queue := { y with err := true }

def Queue.advanced (y : Queue) : Queue := { y with head := y.head + 1, passes := adel y.passes y.head.toNat }

/-- The status address of the pass whose entry is at the head of a queue; none for a launch's entry. -/
def headPass (y : Queue) : Option StatusAt :=
  if ahas y.passes y.head.toNat then some (aget y.passes y.head.toNat ⟨0, none⟩) else none

/-- The head entry has been read: its launch's word is new, and the head moves on. -/
def State.headTaken (s : State) (d : DieId) (own : Tenant) (q : BitVec 4) (l : Launch) : State :=
  ((({ s.visited d own q with nextLaunch := s.nextLaunch + 1 } : State).newWord l).launchAfter l.id
    (s.tailReleases (s.queue d own q))).modQueue d own q Queue.advanced

/-- The launch that a record becomes. -/
def State.recordLaunch (s : State) (d : DieId) (own : Tenant) (q : BitVec 4) (e : Nat) (r : Line) : Launch :=
  newLaunch s d own q (BitVec.ofNat 48 e) r (headPass (s.queue d own q))

/-- A record becomes a waiting launch, or ends at once. -/
def State.takes (s : State) (d : DieId) (own : Tenant) (q : BitVec 4) (l : Launch) : State :=
  if s.recordCheck own l.record l.pass.isSome != 0 then
    (s.headTaken d own q l).endAtOnce l (s.recordCheck own l.record l.pass.isSome)
  else { s.headTaken d own q l with launches := (s.headTaken d own q l).launches ++ [l] }

theorem takeEntry_stop (h : s.headRecord own (s.queue d own q) = none) :
    s.takeEntry d own q = (s.visited d own q).modQueue d own q Queue.stopped := by
  unfold State.headRecord State.recordAt at h
  unfold State.takeEntry
  extract_lets -underBinder y s0 stop
  generalize s.vread own = read at h ⊢
  split
  · rfl
  · rename_i hfull
    rw [if_neg hfull] at h
    split
    · rfl
    · rename_i eb heb
      rw [show read (headVa (s.queue d own q)) 8 = some eb from heb, Option.bind_some] at h
      extract_lets -underBinder e
      split
      · rfl
      · rename_i hbad
        rw [if_neg (show ¬ noRecord (leNat eb) = true from hbad)] at h
        split
        · rfl
        · rename_i rb hrb
          rw [show read (leNat eb) 64 = some rb from hrb, Option.bind_some] at h
          extract_lets -underBinder r
          split
          · rfl
          · rename_i hown
            rw [if_pos (by simpa using hown)] at h
            exact nomatch h

theorem takeEntry_takes (h : s.headRecord own (s.queue d own q) = some (e, r)) :
    s.takeEntry d own q = s.takes d own q (s.recordLaunch d own q e r) := by
  unfold State.headRecord State.recordAt at h
  unfold State.takeEntry
  extract_lets -underBinder y s0 stop
  generalize s.vread own = read at h ⊢
  split
  · rename_i hfull
    rw [if_pos hfull] at h
    exact nomatch h
  · rename_i hfull
    rw [if_neg hfull] at h
    split
    · rename_i heb
      rw [show read (headVa (s.queue d own q)) 8 = none from heb] at h
      exact nomatch h
    · rename_i eb heb
      rw [show read (headVa (s.queue d own q)) 8 = some eb from heb, Option.bind_some] at h
      extract_lets -underBinder e
      split
      · rename_i hbad
        rw [if_pos (show noRecord (leNat eb) = true from hbad)] at h
        exact nomatch h
      · rename_i hbad
        rw [if_neg (show ¬ noRecord (leNat eb) = true from hbad)] at h
        split
        · rename_i hrb
          rw [show read (leNat eb) 64 = none from hrb] at h
          exact nomatch h
        · rename_i rb hrb
          rw [show read (leNat eb) 64 = some rb from hrb, Option.bind_some] at h
          extract_lets -underBinder r
          split
          · rename_i hown
            rw [if_neg (by simpa using hown)] at h
            exact nomatch h
          · rename_i hown
            rw [if_pos (by simpa using hown)] at h
            obtain ⟨rfl, rfl⟩ := Prod.mk.inj (Option.some.inj h)
            rfl

/-! ### Which record the scheduler takes -/

theorem headRecord_overfull {y : Queue} (h : 2 ^ y.log2n.toNat < (s.qtail y - y.head).toNat) : s.headRecord own y = none :=
  if_pos h

section
variable {y : Queue} {eb rb : List Byte} (hf : (s.qtail y - y.head).toNat ≤ 2 ^ y.log2n.toNat)
include hf

theorem headRecord_unread (h : s.vread own (headVa y) 8 = none) : s.headRecord own y = none := by
  rw [State.headRecord, if_neg (Nat.not_lt.2 hf), h, Option.bind_none]

theorem headRecord_noRecord (h : s.vread own (headVa y) 8 = some eb) (he : 2 ^ 48 ≤ leNat eb ∨ leNat eb % 64 ≠ 0) :
    s.headRecord own y = none := by
  have hbad : noRecord (leNat eb) = true := by simpa [noRecord] using he
  rw [State.headRecord, if_neg (Nat.not_lt.2 hf), h, Option.bind_some, if_pos hbad]

theorem headRecord_record (h : s.vread own (headVa y) 8 = some eb) (he : leNat eb < 2 ^ 48) (ha : leNat eb % 64 = 0)
    (hr : s.vread own (leNat eb) 64 = some rb) : s.headRecord own y =
      if s.ownsCore own (tailCore (recDonew (BitVec.ofNat 512 (leNat rb)))) then some (leNat eb, BitVec.ofNat 512 (leNat rb))
      else none := by
  have hgood : noRecord (leNat eb) = false := by
    rw [noRecord, ha, decide_eq_false (Nat.not_le.2 he)]
    rfl
  rw [State.headRecord, if_neg (Nat.not_lt.2 hf), h, Option.bind_some, hgood, if_neg Bool.false_ne_true, State.recordAt, hr,
    Option.bind_some]
  split <;> rfl

end

/-! ### A queue that stops (R290) -/

/-- What the scheduler's visit of a queue leaves. -/
theorem visited_rr (s : State) (d : DieId) (own : Tenant) (q : BitVec 4) (f : Queue → Queue) :
    aget (((s.visited d own q).modQueue d own q f).die d).rr own.toNat 0 = (q.toNat + 1) % 16 := by
  rw [State.modQueue, State.die_modDie, State.visited, State.die_modDie]
  exact aget_ains_same ..

theorem visited_queue (s : State) (d : DieId) (own : Tenant) (q : BitVec 4) :
    (s.visited d own q).queue d own q = s.queue d own q := by
  rw [State.queue, State.visited, State.die_modDie]
  rfl

theorem stopped_queue (s : State) (d : DieId) (own : Tenant) (q : BitVec 4) :
    ((s.visited d own q).modQueue d own q Queue.stopped).queue d own q = (s.queue d own q).stopped := by
  rw [queue_modQueue, visited_queue]

/-! ### A record that is taken -/

/-- What a scheduler keeps outside memory. -/
def State.roll (s : State) := (s.launches, s.nextLaunch, s.dies, s.cores)

theorem roll_of (hl : t.launches = s.launches) (hn : t.nextLaunch = s.nextLaunch) (hd : t.dies = s.dies)
    (hc : t.cores = s.cores) : t.roll = s.roll := by
  rw [State.roll, hl, hn, hd, hc]
  rfl

theorem publish_roll (s : State) (pa : Nat) (w : Word) (f : Past → List (List Lim)) : (s.publish pa w f).roll = s.roll :=
  roll_of rfl rfl rfl rfl

theorem roll_passRels (s : State) (ps : List (Nat × List Nat)) : ({ s with passRels := ps } : State).roll = s.roll := rfl

theorem publishFor_roll (s : State) (l : Launch) (pa : Nat) (w : Word) : (s.publishFor l pa w).roll = s.roll := by
  rw [State.publishFor, roll_passRels, publish_roll]

theorem writeWord_roll (s : State) (pa : Nat) (w : Word) : (s.writeWord pa w).roll = s.roll := roll_of rfl rfl rfl rfl

theorem writePass_roll (s : State) (l : Launch) (z : StatusAt) (w0 w1 : Word) : (s.writePass l z w0 w1).roll = s.roll := by
  unfold State.writePass
  split
  · split
    · exact (publishFor_roll ..).trans (writeWord_roll ..)
    · rfl
  · rfl

theorem writeDone_roll (s : State) (l : Launch) (w : Word) : (s.writeDone l w).roll = s.roll := by
  rw [State.writeDone]
  split
  · rfl
  · exact publishFor_roll ..

theorem endAtOnce_launch (hp : l.pass = none) (s : State) (st : Byte) :
    s.endAtOnce l st = s.writeDone l (statusWord st 0) := by
  unfold State.endAtOnce
  split
  · exact writeStatus_launch hp ..
  · rename_i hz
    exact nomatch hz.symm.trans hp

theorem endAtOnce_roll (s : State) (l : Launch) (st : Byte) : (s.endAtOnce l st).roll = s.roll := by
  cases hp : l.pass with
  | none => rw [endAtOnce_launch hp, writeDone_roll]
  | some z =>
    obtain ⟨n, h⟩ := endAtOnce_pass hp s st
    rw [h]
    exact writePass_roll { s with freeCtr := s.freeCtr + 1 } ..

/-- The launches after a tenant's completion word has become new: of those taken before, the ones whose records name it count
it as lost when it was. A pass makes no word new. -/
def State.nameLost (s : State) (own : Tenant) (word : Nat) (pass : Bool) : List Launch :=
  if pass = false ∧ (word, own) ∈ s.lostWords then
    s.launches.map fun m => if m.tenant = own then { m with predLost := m.predLost ||| m.naming word } else m
  else s.launches

theorem newWord_launches (s : State) (l : Launch) : (s.newWord l).launches =
    s.nameLost l.tenant (tailPa (recDonew l.record)) l.pass.isSome := by
  rw [State.newWord, State.nameLost]
  cases l.pass.isSome with
  | true => rw [if_pos rfl, if_neg (by simp)]
  | false =>
    rw [if_neg Bool.false_ne_true]
    simp only [List.contains_iff_mem, true_and, beq_iff_eq]

theorem newWord_leaves (s : State) (l : Launch) : (s.newWord l).mem = s.mem ∧ (s.newWord l).cores = s.cores ∧
    (s.newWord l).nextLaunch = s.nextLaunch ∧ (s.newWord l).dies = s.dies := by
  rw [State.newWord]
  split <;> exact ⟨rfl, rfl, rfl, rfl⟩

theorem modQueue_dies (h : t.dies = s.dies) (d : DieId) (own : Tenant) (q : BitVec 4) (f : Queue → Queue) :
    (t.modQueue d own q f).dies = (s.modQueue d own q f).dies := by
  rw [State.modQueue, State.modQueue, State.modDie, State.modDie, h]

theorem headTaken_leaves (s : State) (d : DieId) (own : Tenant) (q : BitVec 4) (l : Launch) :
    (s.headTaken d own q l).mem = s.mem ∧ (s.headTaken d own q l).cores = s.cores ∧
      (s.headTaken d own q l).nextLaunch = s.nextLaunch + 1 ∧
      (s.headTaken d own q l).launches = s.nameLost l.tenant (tailPa (recDonew l.record)) l.pass.isSome ∧
      (s.headTaken d own q l).dies = ((s.visited d own q).modQueue d own q Queue.advanced).dies := by
  obtain ⟨hmem, hcores, hnext, hdies⟩ := newWord_leaves { s.visited d own q with nextLaunch := s.nextLaunch + 1 } l
  have hlaunches := newWord_launches { s.visited d own q with nextLaunch := s.nextLaunch + 1 } l
  rw [State.headTaken]
  generalize ({ s.visited d own q with nextLaunch := s.nextLaunch + 1 } : State).newWord l = u at *
  refine ⟨hmem, hcores, hnext, hlaunches, ?_⟩
  exact modQueue_dies hdies ..

/-- What the scheduler keeps of a record that it takes, but for the record itself. -/
theorem takes_roll (s : State) (d : DieId) (own : Tenant) (q : BitVec 4) (l : Launch) :
    (s.takes d own q l).cores = s.cores ∧ (s.takes d own q l).nextLaunch = s.nextLaunch + 1 ∧
      (s.takes d own q l).dies = ((s.visited d own q).modQueue d own q Queue.advanced).dies := by
  obtain ⟨-, hcores, hnext, -, hdies⟩ := headTaken_leaves s d own q l
  rw [State.takes]
  split
  · have hroll := endAtOnce_roll (s.headTaken d own q l) l (s.recordCheck own l.record l.pass.isSome)
    simp only [State.roll, Prod.mk.injEq] at hroll
    obtain ⟨-, hn, hd, hc⟩ := hroll
    exact ⟨hc.trans hcores, hn.trans hnext, hd.trans hdies⟩
  · exact ⟨hcores, hnext, hdies⟩

theorem takes_waits (h : s.recordCheck own l.record l.pass.isSome = 0) :
    (s.takes d own q l).mem = s.mem ∧
      (s.takes d own q l).launches = s.nameLost l.tenant (tailPa (recDonew l.record)) l.pass.isSome ++ [l] := by
  obtain ⟨hmem, -, -, hlaunches, -⟩ := headTaken_leaves s d own q l
  rw [State.takes, h, if_neg (by decide)]
  exact ⟨hmem, congrArg (· ++ [l]) hlaunches⟩

theorem statusWord_zero (st : Byte) : statusWord st 0 = st.setWidth 32 := by
  have := st.isLt
  rw [statusWord, ← BitVec.toNat_inj, BitVec.toNat_ofNat, BitVec.toNat_setWidth]
  omega

theorem takes_ends (h : s.recordCheck own l.record l.pass.isSome ≠ 0) :
    (s.takes d own q l).launches = s.nameLost l.tenant (tailPa (recDonew l.record)) l.pass.isSome ∧
    (l.pass = none → l.doneLost = false → s.ownsCore l.tenant (tailCore (recDonew l.record)) = true →
      WordAt s.mem (s.takes d own q l).mem (tailPa (recDonew l.record))
        ((s.recordCheck own l.record l.pass.isSome).setWidth 32)) := by
  obtain ⟨hmem, hcores, -, hlaunches, -⟩ := headTaken_leaves s d own q l
  have hends : s.takes d own q l =
      (s.headTaken d own q l).endAtOnce l (s.recordCheck own l.record l.pass.isSome) := if_pos (bne_iff_ne.2 h)
  rw [hends]
  refine ⟨(congrArg Prod.fst (endAtOnce_roll ..)).trans hlaunches, fun hp hd ho => ?_⟩
  have hown : (s.headTaken d own q l).ownsCore l.tenant (tailCore (recDonew l.record)) = true := by
    rw [State.ownsCore, State.core, hcores]
    exact ho
  rw [endAtOnce_launch hp, statusWord_zero, ← hmem]
  exact writeDone_written hd hown _

/-! ### TAKE_RECORD -/

theorem exec_takeRecord (d : DieId) (own : Tenant) (s : State) : exec (.takeRecord d own) s = execTakeRecord d own s := rfl

theorem takeRecord_happens (hn : s.nextErrs = []) (hv : visitNext s d own = some q) (hr : takeReady s d own = true) :
    exec (.takeRecord d own) s = .next (s.takeEntry d own q) := by
  rw [exec_takeRecord, execTakeRecord, hv]
  dsimp only
  rw [meetNext_clean _ _ _ hn, meetNext_clean _ _ _ hn]
  exact enabledIf_true hr _

theorem headPass_isSome (y : Queue) : (headPass y).isSome = ahas y.passes y.head.toNat := by
  rw [headPass]
  cases ahas y.passes y.head.toNat <;> rfl

/-- Every visit moves the round-robin mark and no core. -/
theorem takeEntry_leaves (s : State) (d : DieId) (own : Tenant) (q : BitVec 4) :
    aget ((s.takeEntry d own q).die d).rr own.toNat 0 = (q.toNat + 1) % 16 ∧ (s.takeEntry d own q).cores = s.cores := by
  cases h : s.headRecord own (s.queue d own q) with
  | none =>
    rw [takeEntry_stop h]
    exact ⟨visited_rr .., rfl⟩
  | some p =>
    obtain ⟨hcores, -, hdies⟩ := takes_roll s d own q (s.recordLaunch d own q p.1 p.2)
    rw [takeEntry_takes h]
    refine ⟨?_, hcores⟩
    rw [State.die, hdies]
    exact visited_rr ..

/-- A visit that stops the queue. -/
theorem takeEntry_stopped (h : s.headRecord own (s.queue d own q) = none) :
    ((s.takeEntry d own q).queue d own q).err = true ∧
      ((s.takeEntry d own q).queue d own q).head = (s.queue d own q).head ∧
      (s.takeEntry d own q).launches = s.launches ∧ (s.takeEntry d own q).mem = s.mem := by
  rw [takeEntry_stop h, stopped_queue]
  exact ⟨rfl, rfl, rfl, rfl⟩

theorem takes_queue (s : State) (d : DieId) (own : Tenant) (q : BitVec 4) (l : Launch) :
    (s.takes d own q l).queue d own q = (s.queue d own q).advanced := by
  rw [queue_of_dies (takes_roll s d own q l).2.2, queue_modQueue, visited_queue]

theorem recordsTaken : Sys2Proof.Claim.RecordsTaken := by
  intro s d own q hn hv hr y
  obtain ⟨hrr, hcores⟩ := takeEntry_leaves s d own q
  refine ⟨_, takeRecord_happens hn hv hr, hrr, hcores, fun hfull => takeEntry_stopped (headRecord_overfull hfull), fun hfit => ?_⟩
  intro ev
  refine ⟨fun hnone => ?_, fun eb heb => ⟨fun hbad => ?_, fun rb hlt halign hrb => ?_⟩⟩
  · obtain ⟨herr, -, hlaunches, hmem⟩ := takeEntry_stopped (headRecord_unread hfit hnone)
    exact ⟨herr, hlaunches, hmem⟩
  · obtain ⟨herr, -, hlaunches, hmem⟩ := takeEntry_stopped (headRecord_noRecord hfit heb hbad)
    exact ⟨herr, hlaunches, hmem⟩
  · intro r st word others
    have hrec := headRecord_record hfit heb hlt halign hrb
    refine ⟨fun hown => ?_, fun hown => ?_⟩
    · obtain ⟨herr, -, hlaunches, hmem⟩ := takeEntry_stopped (hrec.trans (if_neg (by rw [hown]; exact Bool.false_ne_true)))
      exact ⟨herr, hlaunches, hmem⟩
    · have hpass : (headPass y).isSome = ahas y.passes y.head.toNat := headPass_isSome y
      have hst : s.recordCheck own r (headPass y).isSome = st := congrArg (s.recordCheck own r) hpass
      have hothers : s.nameLost own word (headPass y).isSome = others := congrArg (s.nameLost own word) hpass
      rw [takeEntry_takes (hrec.trans (if_pos hown)), takes_queue, (takes_roll ..).2.1]
      refine ⟨rfl, rfl, rfl, fun hz => ?_, fun hz => ?_, fun hz hp => ?_⟩
      · obtain ⟨hmem, hlaunches⟩ := takes_waits (d := d) (q := q) (l := s.recordLaunch d own q (leNat eb) r) (hst.trans hz)
        exact ⟨hmem, _, hlaunches.trans (congrArg (· ++ [_]) hothers), rfl, rfl, rfl, rfl, rfl,
          BitVec.toNat_ofNat .. |>.trans (Nat.mod_eq_of_lt hlt), rfl, hpass⟩
      · exact (takes_ends (l := s.recordLaunch d own q (leNat eb) r) (fun h => hz (hst.symm.trans h))).1.trans hothers
      · have hnone : headPass y = none := if_neg (by rw [hp]; exact Bool.false_ne_true)
        have hword := (takes_ends (d := d) (q := q) (l := s.recordLaunch d own q (leNat eb) r)
          (fun h => hz (hst.symm.trans h))).2 hnone rfl hown
        exact ⟨hword.word.trans (congrArg (BitVec.setWidth 32) hst), hword.out⟩

/-- Settles O41: the head entry of the queue visited stops the queue or gives a record, which ends at once or waits; a waiting
launch is decided by its predecessors' statuses, read together (the model's choice, log 67), and a pass by its launch's word
after the earlier passes (log 69); an append writes an entry and its tail. -/
theorem launchesTaken : Obligations.LaunchesTaken := ⟨recordsTaken, launchesAdmitted, launchesAppended⟩

end Sys2Proof.Machine
end

section
/-! Vector sources, and the operations that act lane by lane (R81, R119, R126, R127, R167, R168, R175). -/
namespace Sys2Proof.Machine

variable {s : State} {cl : Cl} {i : Instr}

/-! ### Sources (R81, R119, R168) -/

theorem readSrcs_cons {v : VSrc} (h : v ≠ .ldq) (b : List VSrc) (pops : List Cl) :
    readSrcs s cl (v :: b) pops = srcLine s cl v :: readSrcs s cl b pops := by
  cases v with
  | ldq => exact absurd rfl h
  | _ => rfl

/-- Pop n of one cluster's queue takes its entry n. -/
theorem popEntry_replicate (x : Core) (cl : Cl) (n : Nat) : popEntry x (List.replicate (n + 1) cl) n = (x.live cl)[n]? := by
  simp [popEntry, List.take_replicate]

theorem vectorSources : Sys2Proof.Claim.VectorSources := by
  intro s cl l hl
  refine ⟨fun r => rfl, ?_, lane_mkLine _ hl, ?_, fun r => lane_bcast _ hl, fun b pops x hx => ?_,
    fun v b pops hv => readSrcs_cons hv b pops, popEntry_replicate s.here cl⟩
  · simp [srcLine, lane]
  · exact (lane_bcast _ hl).trans (BitVec.eq_of_toNat_eq (by simp))
  · rw [readSrcs, hx]
    rfl

/-! ### Elements (R49, R175) -/

theorem perElem_congr {w : Nat} {f g : List Nat → Nat × Byte} (h : ∀ e, (∀ k, nth e k < 2 ^ w) → f e = g e)
    (ws : List Word) : perElem w f ws = perElem w g ws := by
  have hr : (elems w).map (fun j => f (ws.map fun v => elem w v j)) =
      (elems w).map fun j => g (ws.map fun v => elem w v j) := by
    refine List.map_congr_left fun j _ => h _ fun k => ?_
    rw [nth, List.getD_eq_getElem?_getD, List.getElem?_map]
    cases ws[k]? with
    | none => exact Nat.two_pow_pos w
    | some v => exact Nat.mod_lt _ (Nat.two_pow_pos w)
  rw [perElem, perElem, hr]

theorem wrapTo_eq (w : Nat) (n : Int) : wrapTo w n = (n % 2 ^ w).toNat := rfl

theorem clampTo_eq {lo hi : Int} (h : lo ≤ hi) (n : Int) : clampTo lo hi n = Max.max lo (Min.min hi n) := by
  rw [clampTo]
  split
  · omega
  · split <;> omega

theorem natCast_wraps (w n : Nat) : ((n : Int) % 2 ^ w).toNat = n % 2 ^ w := by
  exact_mod_cast Int.toNat_natCast _

theorem natCast_fits {w n : Nat} (h : n < 2 ^ w) : ((n : Int) % 2 ^ w).toNat = n :=
  (natCast_wraps w n).trans (Nat.mod_eq_of_lt h)

/-- An element is the residue of its signed value. -/
theorem sgn_wraps {w n : Nat} (h : n < 2 ^ w) : (sgn w n % 2 ^ w).toNat = n := by
  rw [sgn]
  split
  · rw [Int.sub_emod_right, natCast_fits h]
  · exact natCast_fits h

/-- Saturation, by its ends (R175). -/
theorem satOp_eq (sa : Sat) (w : Nat) (op : Int → Int → Int) (a b : Nat) :
    satOp sa w op a b = (intSum sa w (op (sgn w a) (sgn w b)) (op a b) % 2 ^ w).toNat := by
  have hp : (0 : Int) < 2 ^ (w - 1) := by positivity
  have hw : (0 : Int) < 2 ^ w := by positivity
  cases sa with
  | wrap => exact wrapTo_eq w _
  | sat => rw [satOp, intSum, clampTo_eq (by omega), wrapTo_eq]
  | satn => rw [satOp, intSum, clampTo_eq (by omega), wrapTo_eq]

/-! ### The operations (R126, R127, R167) -/

/-- An operation on integer elements, by the integer that each result is the residue of. -/
theorem planInt_eq {h : VHead} {t : ITy} {d : VReg} {src : List VSrc} {lat : Nat} {f : Nat → List Nat → Nat}
    {g : Nat → Nat → Nat → Int} (hfg : ∀ e, nth e 0 < 2 ^ iWidth t → nth e 1 < 2 ^ iWidth t →
      f (iWidth t) e = (g (iWidth t) (nth e 0) (nth e 1) % 2 ^ iWidth t).toNat) :
    planInt h t d src lat f s = planLanes h d src lat (fun _ ws => intElems t g ws) s := by
  have hv : (fun ws => perElem (iWidth t) (fun e => (f (iWidth t) e, 0)) ws) = intElems t g :=
    funext (perElem_congr fun e he => by rw [hfg e (he 0) (he 1)])
  rw [planInt]
  exact congrArg (fun v => planLanes h d src lat (fun _ => v) s) hv

/-- A log-domain operation, by what it does with the codes of its elements. -/
theorem planLog_eq {h : VHead} {t : LTy} {d : VReg} {src : List VSrc} {f : Nat → Rm → List LNum → Nat × Byte}
    {g : Nat → Rm → List Nat → Nat × Byte} (hfg : ∀ eb rm e, f eb rm (e.map (readL eb)) = g eb rm e) :
    planLog h t d src f s =
      planLanes h d src 2 (fun x ws => perElem (lBits t + 1) (g (lBits t) (lroundOf x.fmts)) ws) s := by
  simp only [planLog, hfg]

/-- The code of an element; one that is not there reads as zero. -/
theorem getD_readL (eb : Nat) (e : List Nat) (k : Nat) : (e.map (readL eb)).getD k .zero = readL eb (nth e k) := by
  have h0 : LNum.zero = readL eb 0 := by simp [readL]
  rw [h0, List.getD_map]
  rfl

theorem length_readSrcs (s : State) (cl : Cl) (src : List VSrc) (pops : List Cl) :
    (readSrcs s cl src pops).length = src.length := by
  induction src generalizing pops with
  | nil => rfl
  | cons v src ih => cases v <;> exact congrArg (· + 1) (ih _)

/-- Only what an operation makes of as many words as it has sources matters. -/
theorem planLanes_congr {h : VHead} {d : VReg} {src : List VSrc} {lat : Nat} {f g : Ctx → List Word → Word × Byte}
    (hfg : ∀ ws, ws.length = src.length → f s.me ws = g s.me ws) : planLanes h d src lat f s = planLanes h d src lat g s := by
  have hl (l : Nat) : f s.me ((readSrcs s h.cl src []).map fun x => lane x l) =
      g s.me ((readSrcs s h.cl src []).map fun x => lane x l) :=
    hfg _ ((List.length_map ..).trans (length_readSrcs s h.cl src []))
  simp only [planLanes, vplan, hl]

/-- A special function reads its lane as FP32 (R186). -/
theorem planSpecial_one {h : VHead} {d : VReg} {a : VSrc} {lat : Nat} (f : FNum → Nat × Byte) :
    planSpecial h d [a] lat (fun e => f (nthF e 0)) s =
      planLanes h d [a] lat (fun _ ws => word32 (f (f32.read false (nthW ws 0).toNat))) s := by
  refine planLanes_congr fun ws hws => ?_
  obtain ⟨w, rfl⟩ := List.length_eq_one_iff.1 hws
  rfl

theorem planSpecial_two {h : VHead} {d : VReg} {a b : VSrc} {lat : Nat} (f : FNum → FNum → Nat × Byte) :
    planSpecial h d [a, b] lat (fun e => f (nthF e 0) (nthF e 1)) s =
      planLanes h d [a, b] lat
        (fun _ ws => word32 (f (f32.read false (nthW ws 0).toNat) (f32.read false (nthW ws 1).toNat))) s := by
  refine planLanes_congr fun ws hws => ?_
  obtain ⟨v, w, rfl⟩ := List.length_eq_two.1 hws
  rfl

section Integers

variable {h : VHead} {t : ITy} {d : VReg} {a b : VSrc}

theorem planIadd_lanes (sa : Sat) : planIadd h t sa d a b s =
    planLanes h d [a, b] 1 (fun _ => intElems t fun w m n => intSum sa w (sgn w m + sgn w n) (m + n)) s :=
  planInt_eq fun _ _ _ => satOp_eq _ _ (· + ·) _ _

theorem planIsub_lanes (sa : Sat) : planIsub h t sa d a b s =
    planLanes h d [a, b] 1 (fun _ => intElems t fun w m n => intSum sa w (sgn w m - sgn w n) ((m : Int) - n)) s :=
  planInt_eq fun _ _ _ => satOp_eq _ _ (· - ·) _ _

theorem planImul_lanes : planImul h t d a b s =
    planLanes h d [a, b] 3 (fun _ => intElems t fun _ m n => ((m * n : Nat) : Int)) s :=
  planInt_eq fun _ _ _ => (natCast_wraps _ _).symm

theorem planImulh_lanes : planImulh h t d a b s =
    planLanes h d [a, b] 3 (fun _ => intElems t fun w m n => sgn w m * sgn w n / 2 ^ w) s :=
  planInt_eq fun _ _ _ => wrapTo_eq _ _

theorem planImin_lanes : planImin h t d a b s =
    planLanes h d [a, b] 1 (fun _ => intElems t fun w m n => Min.min (sgn w m) (sgn w n)) s := by
  refine planInt_eq fun e h0 h1 => ?_
  rw [Int.min_def, apply_ite (fun n : Int => (n % 2 ^ iWidth t).toNat), sgn_wraps h0, sgn_wraps h1]

theorem planImax_lanes : planImax h t d a b s =
    planLanes h d [a, b] 1 (fun _ => intElems t fun w m n => Max.max (sgn w m) (sgn w n)) s := by
  refine planInt_eq fun e h0 h1 => ?_
  rw [Int.max_def, apply_ite (fun n : Int => (n % 2 ^ iWidth t).toNat), sgn_wraps h0, sgn_wraps h1]

theorem planIminu_lanes : planIminu h t d a b s =
    planLanes h d [a, b] 1 (fun _ => intElems t fun _ m n => ((Min.min m n : Nat) : Int)) s :=
  planInt_eq fun _ h0 _ => (natCast_fits (lt_of_le_of_lt (Nat.min_le_left _ _) h0)).symm

theorem planImaxu_lanes : planImaxu h t d a b s =
    planLanes h d [a, b] 1 (fun _ => intElems t fun _ m n => ((Max.max m n : Nat) : Int)) s :=
  planInt_eq fun _ h0 h1 => (natCast_fits (Nat.max_lt.2 ⟨h0, h1⟩)).symm

theorem planVand_lanes : planVand h t d a b s =
    planLanes h d [a, b] 1 (fun _ => intElems t fun _ m n => ((m &&& n : Nat) : Int)) s :=
  planInt_eq fun _ h0 _ => (natCast_fits (lt_of_le_of_lt Nat.and_le_left h0)).symm

theorem planVor_lanes : planVor h t d a b s =
    planLanes h d [a, b] 1 (fun _ => intElems t fun _ m n => ((m ||| n : Nat) : Int)) s :=
  planInt_eq fun _ h0 h1 => (natCast_fits (Nat.or_lt_two_pow h0 h1)).symm

theorem planVxor_lanes : planVxor h t d a b s =
    planLanes h d [a, b] 1 (fun _ => intElems t fun _ m n => ((m ^^^ n : Nat) : Int)) s :=
  planInt_eq fun _ h0 h1 => (natCast_fits (Nat.xor_lt_two_pow h0 h1)).symm

theorem planVandn_lanes : planVandn h t d a b s =
    planLanes h d [a, b] 1 (fun _ => intElems t fun w m n => ((m &&& (2 ^ w - 1 - n) : Nat) : Int)) s :=
  planInt_eq fun _ h0 _ => (natCast_fits (lt_of_le_of_lt Nat.and_le_left h0)).symm

theorem planVshl_lanes : planVshl h t d a b s =
    planLanes h d [a, b] 1 (fun _ => intElems t fun w m n => ((m * 2 ^ (n % w) : Nat) : Int)) s :=
  planInt_eq fun _ _ _ => (natCast_wraps _ _).symm

theorem planVshr_lanes : planVshr h t d a b s =
    planLanes h d [a, b] 1 (fun _ => intElems t fun w m n => ((m / 2 ^ (n % w) : Nat) : Int)) s :=
  planInt_eq fun _ h0 _ => (natCast_fits (lt_of_le_of_lt (Nat.div_le_self _ _) h0)).symm

theorem planVsar_lanes : planVsar h t d a b s =
    planLanes h d [a, b] 1 (fun _ => intElems t fun w m n => sgn w m / 2 ^ (n % w)) s :=
  planInt_eq fun _ _ _ => wrapTo_eq _ _

end Integers

section Logs

variable {h : VHead} {t : LTy} {d : VReg} {a b : VSrc}

theorem planLmul_lanes : planLmul h t d a b s = planLanes h d [a, b] 2 (fun x => perElem (lBits t + 1) fun e =>
    lmul2 (lBits t) (lroundOf x.fmts) (readL (lBits t) (nth e 0)) (readL (lBits t) (nth e 1))) s :=
  planLog_eq (g := fun eb rm e => lmul2 eb rm (readL eb (nth e 0)) (readL eb (nth e 1))) fun eb rm e => by simp only [getD_readL]

theorem planLrcp_lanes :
    planLrcp h t d a s =
      planLanes h d [a] 2 (fun _ => perElem (lBits t + 1) fun e => lrcp1 (lBits t) (readL (lBits t) (nth e 0))) s :=
  planLog_eq (g := fun eb _ e => lrcp1 eb (readL eb (nth e 0))) fun eb rm e => by simp only [getD_readL]

theorem planLsqrt_lanes : planLsqrt h t d a s = planLanes h d [a] 2 (fun x => perElem (lBits t + 1) fun e =>
    lsqrt1 (lBits t) (lroundOf x.fmts) (readL (lBits t) (nth e 0))) s :=
  planLog_eq (g := fun eb rm e => lsqrt1 eb rm (readL eb (nth e 0))) fun eb rm e => by simp only [getD_readL]

end Logs

theorem isOperation_laneRow {r : LaneRow} (hr : laneRow i = some r) : IsOperation i := by
  cases i <;> cases hr <;> rfl

/-- An operation that acts lane by lane runs the plan of its row. -/
theorem planOf_laneRow {r : LaneRow} (hr : laneRow i = some r) :
    planOf i s = planLanes r.head r.dest r.srcs r.lat r.val s := by
  cases i <;> cases hr
  case iadd => exact planIadd_lanes _
  case isub => exact planIsub_lanes _
  case imul => exact planImul_lanes
  case imulh => exact planImulh_lanes
  case imin => exact planImin_lanes
  case imax => exact planImax_lanes
  case iminu => exact planIminu_lanes
  case imaxu => exact planImaxu_lanes
  case vand => exact planVand_lanes
  case vor => exact planVor_lanes
  case vxor => exact planVxor_lanes
  case vandn => exact planVandn_lanes
  case vshl => exact planVshl_lanes
  case vshr => exact planVshr_lanes
  case vsar => exact planVsar_lanes
  case lmul => exact planLmul_lanes
  case lrcp => exact planLrcp_lanes
  case lsqrt => exact planLsqrt_lanes
  case rcp h rm d a => exact planSpecial_one (rcpF rm)
  case rsq h rm d a => exact planSpecial_one (rsqF rm)
  case sqrt h rm d a => exact planSpecial_one (sqrtF rm)
  case div h rm d a b => exact planSpecial_two (divF rm)
  case exp2 h rm d a => exact planSpecial_one (exp2F rm)
  case log2 h rm d a => exact planSpecial_one (log2F rm)
  all_goals rfl

theorem laneResults_issue : Sys2Proof.Claim.LaneResults := by
  intro i r s hr hi en got
  have hplan := planOf_laneRow (s := s) hr
  have hcommit := issues_commits_popped (isOperation_laneRow hr) hi (q := srcPops r.head.cl r.srcs)
    (by rw [hplan]; rfl) (by rw [hplan]; rfl)
  rw [hplan] at hcommit
  exact ⟨_, _, hcommit, fun l hl he => (laneResults_lane en got hl).trans (if_pos he), laneResults_flags en got⟩

end Sys2Proof.Machine
end

section
/-! FP32 patterns as the numbers they stand for, and exact results (R45 to R48). -/
namespace Sys2Proof.Machine

variable {rm : Rm} {x y : FNum} {u v w : Word}

/-! ### One element to a word (R49) -/

theorem orAll_singleton (b : Byte) : orAll [b] = b := BitVec.zero_or

/-- FP32 and I32 operations have one element to a word. -/
theorem perElem_word (f : List Nat → Nat × Byte) (ws : List Word) : perElem 32 f ws = word32 (f (ws.map BitVec.toNat)) := by
  have he : elems 32 = [0] := rfl
  have hw : (ws.map fun v => elem 32 v 0) = ws.map BitVec.toNat :=
    List.map_congr_left fun v _ => by simpa [elem] using Nat.mod_eq_of_lt v.isLt
  rw [perElem, he, List.map_singleton, hw, word32, List.map_singleton, List.map_singleton, orAll_singleton, ofElems, he]
  exact congrArg (·, _) (BitVec.eq_of_toNat_eq (by simp [List.getD]))

/-! ### Reading (R45, R46) -/

/-- The sign bit of a pattern. -/
def negBit (n : Nat) : Bool := n / 2147483648 % 2 == 1

/-- Reading FP32, by the fields of the pattern. -/
theorem read32 (n : Nat) : f32.read false n =
    if n / 8388608 % 256 = 255 then (if n % 8388608 = 0 then .inf (negBit n) else .nan (decide (n % 8388608 < 4194304)))
    else if n / 8388608 % 256 = 0 then .num (negBit n) (n % 8388608) (-149)
    else .num (negBit n) (8388608 + n % 8388608) ((n / 8388608 % 256 : Nat) - 150 : Int) := by
  have hb : f32.bias = 127 := rfl
  simp only [Fmt.read, hb, beq_iff_eq, negBit]
  simp only [f32]
  norm_num [sub_sub]

theorem isNan_read (w : Word) : (f32.read false w.toNat).isNan = isNaN32 w := by
  rw [read32, isNaN32]
  norm_num
  split
  · split <;> simp_all [FNum.isNan]
  · split <;> simp_all [FNum.isNan]

theorem sigFlag_read (w : Word) : sigFlag (f32.read false w.toNat) = nvOf [w] := by
  have hn : nvOf [w] = flagIf (isNaN32 w && decide (w.toNat % 2 ^ 23 < 2 ^ 22)) fNV := by
    simp only [nvOf, List.any_cons, List.any_nil, Bool.or_false]
    rfl
  rw [hn, ← isNan_read, read32]
  norm_num
  split
  · split <;> simp [sigFlag, FNum.isNan, flagIf]
  · split <;> simp [sigFlag, FNum.isNan, flagIf]

theorem flagIf_or (p q : Bool) (f : Byte) : flagIf (p || q) f = flagIf p f ||| flagIf q f := by
  cases p <;> cases q <;> simp [flagIf]

theorem nvOf_cons (w : Word) (ws : List Word) : nvOf (w :: ws) = nvOf [w] ||| nvOf ws := by
  change flagIf (_ || _) fNV = flagIf (_ || false) fNV ||| flagIf _ fNV
  rw [Bool.or_false, flagIf_or]

theorem read_inf (h : isInf32 w = true) : f32.read false w.toNat = .inf (negBit w.toNat) := by
  have hw : w.toNat % 2147483648 = 2139095040 := by simpa [isInf32] using h
  rw [read32, if_pos (by omega), if_pos (by omega)]

theorem read_zero (h : isZero32 w = true) : f32.read false w.toNat = .num (negBit w.toNat) 0 (-149) := by
  have hw : w.toNat % 2147483648 = 0 := by simpa [isZero32] using h
  have hm : w.toNat % 8388608 = 0 := by omega
  rw [read32, if_neg (by omega), if_pos (by omega), hm]

/-- A finite pattern stands for m · 2^e, and its fields can be read off that. -/
theorem read_finite (hn : isNaN32 w = false) (hi : isInf32 w = false) : ∃ m e,
    f32.read false w.toNat = .num (negBit w.toNat) m e ∧ m < 2 ^ 24 ∧ -149 ≤ e ∧ e ≤ 104 ∧ (2 ^ 23 ≤ m ∨ e = -149) ∧
      ((w.toNat % 2 ^ 31 : Nat) : Int) = (e + 149) * 2 ^ 23 + m := by
  have hx : w.toNat / 8388608 % 256 ≠ 255 := by
    simp only [isNaN32, isInf32, Bool.and_eq_false_iff, beq_eq_false_iff_ne, bne_eq_false_iff_eq] at hn hi
    omega
  rw [read32, if_neg hx]
  split
  · exact ⟨_, _, rfl, by omega, by omega, by omega, .inr rfl, by omega⟩
  · exact ⟨_, _, rfl, by omega, by omega, by omega, .inl (by omega), by omega⟩

/-- A pattern is its sign bit and the rest. -/
theorem sgn_add_rest (w : Word) : f32.sgn (negBit w.toNat) + w.toNat % 2 ^ 31 = w.toNat := by
  have hw := w.isLt
  have hs : f32.sgn (negBit w.toNat) = if negBit w.toNat then 2147483648 else 0 := rfl
  rw [hs, negBit]
  split <;> simp_all <;> omega

/-! ### NaN operands (R46) -/

theorem addN_nan (h : x.isNan = true ∨ y.isNan = true) : addN rm x y = (.nan false, sigFlag x ||| sigFlag y) := by
  cases x <;> cases y <;> simp_all [FNum.isNan, addN]

theorem mulN_nan (h : x.isNan = true ∨ y.isNan = true) : mulN x y = (.nan false, sigFlag x ||| sigFlag y) := by
  cases x <;> cases y <;> simp_all [FNum.isNan, mulN]

theorem divF_nan (h : x.isNan = true ∨ y.isNan = true) : divF rm x y = (f32.qnan, sigFlag x ||| sigFlag y) := by
  cases x <;> cases y <;> simp_all [FNum.isNan, divF]

@[simp] theorem isNan_neg (x : FNum) : x.neg.isNan = x.isNan := by cases x <;> rfl

@[simp] theorem sigFlag_neg (x : FNum) : sigFlag x.neg = sigFlag x := by cases x <;> rfl

/-! ### Exact results (R47, R48) -/

/-- A finite pattern is its sign with its magnitude. -/
theorem ofNat_finite {m : Nat} {e : Int} (h : ((w.toNat % 2 ^ 31 : Nat) : Int) = (e + 149) * 2 ^ 23 + m) :
    BitVec.ofNat 32 (f32.sgn (negBit w.toNat) + ((e + 149) * 2 ^ 23 + m).toNat) = w := by
  rw [← h, Int.toNat_natCast, sgn_add_rest, BitVec.ofNat_toNat, BitVec.setWidth_eq]

/-- A multiple of 2^q is rounded to itself. -/
theorem roundAt_multiple (rm : Rm) (neg : Bool) (m : Nat) (q : Int) {d : Nat} (hd : 0 < d) :
    roundAt rm neg (m * 2 ^ d) (q - d) q = (m, false) := by
  have hq : ¬ q ≤ q - d := by omega
  have hd' : (q - (q - d)).toNat = d := by omega
  have hn : roundUp rm neg (m % 2 == 1) 0 (2 ^ (d - 1)) = false := by
    have := Nat.two_pow_pos (d - 1)
    cases rm <;> simp [roundUp, this.ne]
  rw [roundAt, if_neg hq]
  simp only [hd', Nat.mul_div_cancel _ (Nat.two_pow_pos d), Nat.mul_mod_left, hn]
  simp

/-- A number that FP32 holds is rounded to its pattern, and nothing is lost. -/
theorem round_exact (neg : Bool) {m : Nat} {e : Int} (h0 : m ≠ 0) (hm : m < 2 ^ 24) (hlo : -149 ≤ e) (hhi : e ≤ 104)
    (hn : 2 ^ 23 ≤ m ∨ e = -149) :
    f32.round rm neg (m * 2 ^ 23) (e - (23 : Nat)) = (f32.sgn neg + ((e + 149) * 2 ^ 23 + m).toNat, 0) := by
  have hb : f32.bias = 127 := rfl
  have hlog : Nat.log2 (m * 2 ^ 23) = Nat.log2 m + 23 := by
    have hlo := Nat.log2_self_le h0
    have hup := Nat.lt_log2_self (n := m)
    refine (Nat.log2_eq_iff (by omega)).2 ⟨?_, ?_⟩
    · rw [Nat.pow_add]; omega
    · rw [Nat.add_right_comm, Nat.pow_add]; omega
  have htop : Max.max (e - (23 : Nat) + Nat.log2 (m * 2 ^ 23)) (1 - (127 : Nat)) - (23 : Nat) = e := by
    have hup : Nat.log2 m < 24 := (Nat.log2_lt h0).2 hm
    rcases hn with hn | rfl
    · have : 23 ≤ Nat.log2 m := (Nat.le_log2 h0).2 hn
      omega
    · omega
  have hbits : ((e + (23 : Nat) + (127 : Nat)) * 2 ^ 23 + (m : Nat) - 2 ^ 23 : Int).toNat = ((e + 149) * 2 ^ 23 + m).toNat := by
    omega
  have hf : f32.fb = 23 := rfl
  have he : f32.eb = 8 := rfl
  have hg : f32.gradual = true := rfl
  have hr : roundAt rm neg (m * 2 ^ 23) (e - (23 : Nat)) e = (m, false) := roundAt_multiple rm neg m e (by omega)
  simp only [Fmt.round, hb, hf, he, hg, Bool.not_true, Bool.and_false, Bool.false_eq_true, if_false]
  simp only [htop, hr, hbits, Bool.and_false]
  rw [if_neg (by omega)]
  rfl

end Sys2Proof.Machine
end

section
/-! The corners of FP32 arithmetic and of the conversions (R46 to R48, R171 to R173, R177, R182, R183). -/
namespace Sys2Proof.Machine

variable {h : VHead} {d : VReg} {a b c : VSrc} {x : Ctx} {rm : Rm} {u v w : Word}

/-- What an operation that acts lane by lane makes of the words of a lane. -/
def laneValue (x : Ctx) (i : Instr) (ws : List Word) : Option (Word × Byte) := (laneRow i).map fun r => r.val x ws

/-! ### FP32 operations on words -/

theorem perElem_one (f : Nat → Nat × Byte) (u : Word) : perElem 32 (fun e => f (nth e 0)) [u] = word32 (f u.toNat) :=
  perElem_word _ _

theorem perElem_two (f : Nat → Nat → Nat × Byte) (u v : Word) :
    perElem 32 (fun e => f (nth e 0) (nth e 1)) [u, v] = word32 (f u.toNat v.toNat) := perElem_word _ _

theorem perElem_three (f : Nat → Nat → Nat → Nat × Byte) (u v w : Word) :
    perElem 32 (fun e => f (nth e 0) (nth e 1) (nth e 2)) [u, v, w] = word32 (f u.toNat v.toNat w.toNat) := perElem_word _ _

theorem laneValue_fadd : laneValue x (.fadd h .f32 rm d a b) [u, v] =
    some (word32 (f32.add rm (f32.read false u.toNat) (f32.read false v.toNat))) :=
  congrArg some (perElem_two (fun m n => f32.add rm (f32.read false m) (f32.read false n)) u v)

theorem laneValue_fsub : laneValue x (.fsub h .f32 rm d a b) [u, v] =
    some (word32 (f32.add rm (f32.read false u.toNat) (f32.read false v.toNat).neg)) :=
  congrArg some (perElem_two (fun m n => f32.add rm (f32.read false m) (f32.read false n).neg) u v)

theorem laneValue_fmul : laneValue x (.fmul h .f32 rm d a b) [u, v] =
    some (word32 (f32.mul rm (f32.read false u.toNat) (f32.read false v.toNat))) :=
  congrArg some (perElem_two (fun m n => f32.mul rm (f32.read false m) (f32.read false n)) u v)

theorem laneValue_fma : laneValue x (.fma h .f32 (some rm) d a b c) [u, v, w] =
    some (word32 (f32.fma rm false (f32.read false u.toNat) (f32.read false v.toNat) (f32.read false w.toNat))) :=
  congrArg some (perElem_three (fun l m n => f32.fma rm false (f32.read false l) (f32.read false m) (f32.read false n)) u v w)

theorem laneValue_div : laneValue x (.div h rm d a b) [u, v] =
    some (word32 (divF rm (f32.read false u.toNat) (f32.read false v.toNat))) := rfl

theorem laneValue_fmin : laneValue x (.fmin h .f32 d a b) [u, v] = some (word32 (f32.minMax false u.toNat v.toNat)) :=
  congrArg some (perElem_two (f32.minMax false) u v)

theorem laneValue_fmax : laneValue x (.fmax h .f32 d a b) [u, v] = some (word32 (f32.minMax true u.toNat v.toNat)) :=
  congrArg some (perElem_two (f32.minMax true) u v)

theorem laneValue_fabs : laneValue x (.fabs h .f32 d a) [u] = some (word32 (f32.signOp false u.toNat)) :=
  congrArg some (perElem_one (f32.signOp false) u)

theorem laneValue_fneg : laneValue x (.fneg h .f32 d a) [u] = some (word32 (f32.signOp true u.toNat)) :=
  congrArg some (perElem_one (f32.signOp true) u)

/-! ### NaN operands (R46) -/

theorem sigFlag_two (u v : Word) : sigFlag (f32.read false u.toNat) ||| sigFlag (f32.read false v.toNat) = nvOf [u, v] := by
  rw [sigFlag_read, sigFlag_read, ← nvOf_cons]

theorem sigFlag_three (u v w : Word) : sigFlag (f32.read false u.toNat) ||| sigFlag (f32.read false v.toNat) |||
    sigFlag (f32.read false w.toNat) = nvOf [u, v, w] := by
  rw [nvOf_cons, ← sigFlag_two v w, ← sigFlag_read u, BitVec.or_assoc]

theorem qnan_word : BitVec.ofNat 32 f32.qnan = (0x7FC00000 : Word) := rfl

/-- A NaN operand gives the canonical NaN, a signalling one with invalid. -/
theorem nanOperand (hn : isNaN32 u = true ∨ isNaN32 v = true) :
    laneValue x (.fadd h .f32 rm d a b) [u, v] = some (0x7FC00000, nvOf [u, v]) ∧
    laneValue x (.fsub h .f32 rm d a b) [u, v] = some (0x7FC00000, nvOf [u, v]) ∧
    laneValue x (.fmul h .f32 rm d a b) [u, v] = some (0x7FC00000, nvOf [u, v]) ∧
    laneValue x (.div h rm d a b) [u, v] = some (0x7FC00000, nvOf [u, v]) ∧
    laneValue x (.fma h .f32 (some rm) d a b c) [u, v, w] = some (0x7FC00000, nvOf [u, v, w]) := by
  rw [← isNan_read, ← isNan_read] at hn
  have hneg : (f32.read false u.toNat).isNan = true ∨ (f32.read false v.toNat).neg.isNan = true := by rwa [isNan_neg]
  refine ⟨?_, ?_, ?_, ?_, ?_⟩
  · rw [laneValue_fadd, Fmt.add, addN_nan hn, sigFlag_two]; rfl
  · rw [laneValue_fsub, Fmt.add, addN_nan hneg, sigFlag_neg, sigFlag_two]; rfl
  · rw [laneValue_fmul, Fmt.mul, mulN_nan hn, sigFlag_two]; rfl
  · rw [laneValue_div, divF_nan hn, sigFlag_two]; rfl
  · rw [laneValue_fma, Fmt.fma, mulN_nan hn, ← sigFlag_three]
    simp only [Bool.false_eq_true, if_false]
    have hz (f : Byte) : sigFlag (.nan false) ||| f = f := BitVec.zero_or
    rw [addN_nan (.inl rfl), hz]
    rfl

/-- A single NaN yields the other operand (R172). -/
theorem minMax_nan (mx : Bool) (hu : isNaN32 u = true) (hv : isNaN32 v = false) :
    word32 (f32.minMax mx u.toNat v.toNat) = (v, nvOf [u]) ∧ word32 (f32.minMax mx v.toNat u.toNat) = (v, nvOf [u]) := by
  have hfv : sigFlag (f32.read false v.toNat) = 0 := by
    rw [sigFlag_read, nvOf, List.any_cons, hv]; rfl
  have hg : (!f32.gradual) = false := rfl
  have hfl : f32.flushed v.toNat = v.toNat := rfl
  constructor <;>
    simp [Fmt.minMax, hg, isNan_read, hu, hv, hfv, hfl, word32, sigFlag_read]

/-! ### Infinities and zeros (R48) -/

theorem negBit_iff (n : Nat) : negBit n = true ↔ n / 2 ^ 31 % 2 = 1 := beq_iff_eq

theorem rest_flip (u : Word) : (u ^^^ 0x80000000).toNat % 2 ^ 31 = u.toNat % 2 ^ 31 := by
  rw [BitVec.toNat_xor, Nat.xor_mod_two_pow]
  exact Nat.xor_zero _

theorem negBit_flip (u : Word) : negBit (u ^^^ 0x80000000).toNat = !negBit u.toNat := by
  have hd : (u ^^^ 0x80000000).toNat / 2 ^ 31 = u.toNat / 2 ^ 31 ^^^ 1 := by
    rw [BitVec.toNat_xor, Nat.xor_div_two_pow]; rfl
  have hu := u.isLt
  have hc : u.toNat / 2 ^ 31 = 0 ∨ u.toNat / 2 ^ 31 = 1 := by omega
  change (_ / 2 ^ 31 % 2 == 1) = !(_ / 2 ^ 31 % 2 == 1)
  rw [hd]
  rcases hc with hc | hc <;> rw [hc] <;> rfl

theorem isInf_flip (hu : isInf32 u = true) : isInf32 (u ^^^ 0x80000000) = true := by
  rw [isInf32, rest_flip]
  exact hu

theorem oppositeInfinities (hu : isInf32 u = true) (hv : v = u ^^^ 0x80000000) :
    laneValue x (.fadd h .f32 rm d a b) [u, v] = some (0x7FC00000, 0x01) := by
  subst hv
  rw [laneValue_fadd, read_inf hu, read_inf (isInf_flip hu), negBit_flip]
  cases negBit u.toNat <;> rfl

theorem infinityTimesZero (hu : isInf32 u = true) (hv : isZero32 v = true) :
    laneValue x (.fmul h .f32 rm d a b) [u, v] = some (0x7FC00000, 0x01) := by
  rw [laneValue_fmul, read_inf hu, read_zero hv]
  rfl

/-- The zero that a mode gives (R48). -/
def zeroOf (rm : Rm) : Word := if rm = .rdn then 0x80000000 else 0

theorem word32_zero (rm : Rm) (e : Int) (fl : Byte) : word32 (f32.deliver rm (.num (rm == .rdn) 0 e) fl) = (zeroOf rm, fl) := by
  cases rm <;> rfl

/-- A number and its opposite have the sum zero. -/
theorem addN_opposite (neg : Bool) (m : Nat) (e : Int) :
    addN rm (.num neg m e) (.num (!neg) m e) = (.num (rm == .rdn) 0 0, 0) := by
  cases neg <;> simp [addN]

theorem exactZeros (hn : isNaN32 u = false) (hi : isInf32 u = false) :
    laneValue x (.fsub h .f32 rm d a b) [u, u] = some (zeroOf rm, 0) ∧
      (isZero32 v = true → laneValue x (.fmul h .f32 rm d a b) [u, v] = some (zeroOf rm, 0)) := by
  obtain ⟨m, e, hu, -⟩ := read_finite hn hi
  refine ⟨?_, fun hv => ?_⟩
  · rw [laneValue_fsub, hu, FNum.neg, Fmt.add, addN_opposite, word32_zero]
  · rw [laneValue_fmul, hu, read_zero hv, Fmt.mul, mulN, Nat.mul_zero, Fmt.roundTo, FNum.zeroFor, if_pos rfl, word32_zero]

theorem timesOne (hn : isNaN32 u = false) (hz : isZero32 u = false) :
    laneValue x (.fmul h .f32 rm d a b) [u, 0x3F800000] = some (u, 0) := by
  have hone : f32.read false (0x3F800000 : Word).toNat = .num false (2 ^ 23) (-(23 : Nat)) := by
    rw [read32]; decide
  rw [laneValue_fmul, hone]
  cases hi : isInf32 u with
  | true =>
    have hr : u.toNat % 2 ^ 31 = 255 * 2 ^ 23 := by simpa [isInf32] using hi
    have hw : f32.inf (negBit u.toNat) = u.toNat := (hr ▸ sgn_add_rest u :)
    rw [read_inf hi, Fmt.mul, mulN, if_neg (by decide), Bool.bne_false]
    change some (word32 (f32.inf (negBit u.toNat), 0)) = _
    rw [word32, hw, BitVec.ofNat_toNat, BitVec.setWidth_eq]
  | false =>
    obtain ⟨m, e, hu, hm, hlo, hhi, hnorm, hbits⟩ := read_finite hn hi
    have h0 : m ≠ 0 := by
      rintro rfl
      have : u.toNat % 2 ^ 31 = 0 := by omega
      rw [isZero32, this] at hz
      exact absurd hz (by decide)
    rw [hu, Fmt.mul, mulN, Bool.bne_false, Fmt.roundTo, FNum.zeroFor, if_neg (by omega), Fmt.deliver, if_neg (by omega),
      ← sub_eq_add_neg, round_exact _ h0 hm hlo hhi hnorm]
    exact congrArg some (Prod.ext (ofNat_finite hbits) BitVec.zero_or)

/-! ### Signs (R172) -/

theorem signOp_clear (hn : isNaN32 u = false) : word32 (f32.signOp false u.toNat) = (u &&& 0x7FFFFFFF, 0) := by
  have hg : (!f32.gradual) = false := rfl
  have hw : BitVec.ofNat 32 (u.toNat % 2 ^ 31) = u &&& 0x7FFFFFFF := by
    refine BitVec.eq_of_toNat_eq ?_
    rw [BitVec.toNat_and, BitVec.toNat_ofNat]
    exact (Nat.mod_eq_of_lt (by omega)).trans (Nat.and_two_pow_sub_one_eq_mod _ 31).symm
  rw [Fmt.signOp, hg, isNan_read, hn]
  exact congrArg (·, _) hw

theorem signOp_flip (hn : isNaN32 u = false) : word32 (f32.signOp true u.toNat) = (u ^^^ 0x80000000, 0) := by
  have hg : (!f32.gradual) = false := rfl
  have hw : (if 2 ^ 31 ≤ u.toNat then u.toNat - 2 ^ 31 else u.toNat + 2 ^ 31) = (u ^^^ 0x80000000).toNat := by
    have hb := negBit_flip u
    have hr := rest_flip u
    have hu := u.isLt
    have hv := (u ^^^ 0x80000000).isLt
    generalize (u ^^^ 0x80000000).toNat = v at hb hr hv
    have hc : v / 2 ^ 31 % 2 = 1 ↔ ¬ u.toNat / 2 ^ 31 % 2 = 1 := by
      rw [← negBit_iff, ← negBit_iff, hb, Bool.not_eq_true', Bool.not_eq_true]
    split <;> omega
  rw [Fmt.signOp, hg, isNan_read, hn]
  exact congrArg (·, _) ((congrArg (BitVec.ofNat 32) hw).trans (by simp))

/-! ### Worked examples (R47, R48, R172, R177, R182, R183) -/

theorem zeroSigns : laneValue x (.fmin h .f32 d a b) [0, 0x80000000] = some (0x80000000, 0) ∧
    laneValue x (.fmax h .f32 d a b) [0x80000000, 0] = some (0, 0) := by
  rw [laneValue_fmin, laneValue_fmax]
  decide

theorem overflows : laneValue x (.fadd h .f32 .rne d a b) [0x7F7FFFFF, 0x7F7FFFFF] = some (0x7F800000, 0x14) ∧
    laneValue x (.fadd h .f32 .rtz d a b) [0x7F7FFFFF, 0x7F7FFFFF] = some (0x7F7FFFFF, 0x14) := by
  rw [laneValue_fadd, laneValue_fadd]
  decide

theorem fabs_half : laneValue x (.fabs h .f16 d a) [0x8001] = some (0, 0) := by
  change some (perElem 16 (fun e => f16.signOp false (nth e 0)) [0x8001]) = _
  decide

theorem integers_zero : laneValue x (.cvt h (.i32f32 rm) d a b) [0] = some (zeroOf rm, 0) := by
  cases rm <;> rfl

theorem laneValue_f32i32 : laneValue x (.cvt h (.f32i32 rm) d a b) [u] =
    some (let r := toInt rm (-(2 ^ 31)) (2 ^ 31 - 1) (f32.read false u.toNat); (BitVec.ofInt 32 r.1, r.2)) := rfl

theorem laneValue_f32n32 : laneValue x (.cvt h (.f32n32 rm) d a b) [u] =
    some (let r := toInt rm 0 (2 ^ 32 - 1) (f32.read false u.toNat); (BitVec.ofInt 32 r.1, r.2)) := rfl

theorem toInt_nan {lo hi : Int} {y : FNum} (hy : y.isNan = true) : toInt rm lo hi y = (0, fNV) := by
  cases y with
  | nan => rfl
  | _ => cases hy

theorem nanConverts (hu : isNaN32 u = true) : laneValue x (.cvt h (.f32i32 rm) d a b) [u] = some (0, 0x01) := by
  rw [laneValue_f32i32, toInt_nan ((isNan_read u).trans hu)]
  rfl

theorem conversions :
    laneValue x (.cvt h (.f32i32 .rne) d a b) [0x40200000] = some (2, 0x10) ∧
    laneValue x (.cvt h (.f32i32 rm) d a b) [0x4F32D05E] = some (0x7FFFFFFF, 0x01) ∧
    laneValue x (.cvt h (.f32n32 .rtz) d a b) [0xBE800000] = some (0, 0x10) ∧
    laneValue x (.cvt h (.f32n32 rm) d a b) [0xBF800000] = some (0, 0x01) := by
  rw [laneValue_f32i32, laneValue_f32i32, laneValue_f32n32, laneValue_f32n32]
  cases rm <;> decide

theorem logProducts : laneValue x (.lmul h .l8 d a b) [0x55, 0xC8] = some (0xDD, 0) ∧
    laneValue x (.lmul h .l8 d a b) [0x7F, 0x7F] = some (0x7F, 0x30) := by
  let f (rm : Rm) (u v : Word) := perElem 8 (fun e => lmul2 7 rm (readL 7 (nth e 0)) (readL 7 (nth e 1))) [u, v]
  change some (f (lroundOf x.fmts) 0x55 0xC8) = _ ∧ some (f (lroundOf x.fmts) 0x7F 0x7F) = _
  cases lroundOf x.fmts <;> decide

theorem lsqrt_rne (hr : x.fmts.extractLsb' 5 2 = 0) : laneValue x (.lsqrt h .l8 d a) [0x43] = some (0x42, 0x10) := by
  have hm : lroundOf x.fmts = .rne := by rw [lroundOf, hr]; rfl
  change some (perElem 8 (fun e => lsqrt1 7 (lroundOf x.fmts) (readL 7 (nth e 0))) [0x43]) = _
  rw [hm]
  decide

theorem floatCorners : Sys2Proof.Claim.FloatCorners := by
  intro h d a b c x rm u v w f zero
  obtain ⟨hmin, hmax⟩ := zeroSigns (x := x) (h := h) (d := d) (a := a) (b := b)
  obtain ⟨hrne, hrtz⟩ := overflows (x := x) (h := h) (d := d) (a := a) (b := b)
  obtain ⟨hi1, hi2, hn1, hn2⟩ := conversions (x := x) (h := h) (d := d) (a := a) (b := b) (rm := rm)
  obtain ⟨hl1, hl2⟩ := logProducts (x := x) (h := h) (d := d) (a := a) (b := b)
  exact ⟨nanOperand, oppositeInfinities, infinityTimesZero, exactZeros, timesOne,
    fun hu hv => ⟨laneValue_fmin.trans (congrArg some (minMax_nan false hu hv).1),
      laneValue_fmax.trans (congrArg some (minMax_nan true hu hv).2)⟩, hmin, hmax,
    fun hn => ⟨laneValue_fabs.trans (congrArg some (signOp_clear hn)), laneValue_fneg.trans (congrArg some (signOp_flip hn))⟩,
    fabs_half, hrne, hrtz, integers_zero, nanConverts, hi1, hi2, hn1, hn2, hl1, hl2, lsqrt_rne⟩

/-- Settles O16: what the sources give, the lanes of each operation of the table, and the corners of FP32 and of the
conversions. -/
theorem laneArithmetic : Obligations.LaneArithmetic := ⟨vectorSources, laneResults_issue, floatCorners⟩

end Sys2Proof.Machine
end

section
/-! Selection, permutes, moves between clusters and reductions (R61, R178 to R180, R187). -/
namespace Sys2Proof.Machine

variable {s : State} {i : Instr} {h : VHead} {d : VReg} {a b : VSrc}

/-! ### Selection, permutes and moves (R178, R179, R187) -/

/-- What the plan of an operation that gives its result line by line holds. -/
structure LinePlan (h : VHead) (d : VReg) (src : List VSrc) (lat : Nat) (f : List Line → Nat → Word) (s : State) (p : Plan) :
    Prop where
  pops : p.pops = srcPops h.cl src
  stores : p.stores = []
  commits : ∀ t, p.commit t =
    t.result (.v h.cl.toNat d.toNat) (mkLine (f (readSrcs s h.cl src []))) lat (s.here.m h.cl h.msk)

theorem LinePlan.moves {src : List VSrc} {lat : Nat} {f : List Line → Nat → Word} {p : Plan} (hp : LinePlan h d src lat f s p)
    (hop : IsOperation i) (hplan : planOf i s = p) (hi : Issues i s) :
    ∃ v, exec i s = .next (((heard i s).popAll (srcPops h.cl src)).result (.v h.cl.toNat d.toNat) v lat
        (s.here.m h.cl h.msk)).finish ∧
      ∀ l, l < 16 → (s.here.m h.cl h.msk).getLsbD l = true → lane v l = f (readSrcs s h.cl src []) l :=
  ⟨_, (issues_commits_popped hop hi (hplan ▸ hp.pops) (hplan ▸ hp.stores)).trans (by rw [hplan, hp.commits]),
    fun _ hl _ => lane_mkLine _ hl⟩

theorem linePlan_vsel (k : MReg) : LinePlan h d [a, b] 1
    (fun ls l => lane (ls.getD (if (s.here.m h.cl k).getLsbD l then 0 else 1) 0) l) s (planVsel h d a b k s) := by
  have hf : (fun (ls : List Line) l => lane (ls.getD (if (s.here.m h.cl k).getLsbD l then 0 else 1) 0) l) =
      fun ls l => if (s.here.m h.cl k).getLsbD l then lane (nthL ls 0) l else lane (nthL ls 1) l := by
    funext ls l
    split <;> rfl
  rw [hf]
  exact ⟨rfl, rfl, fun _ => rfl⟩

theorem linePlan_shuf : LinePlan h d [a, b] 2 (fun ls l => lane (ls.getD 0 0) ((lane (ls.getD 1 0) l).toNat % 16)) s
    (planShuf h d a b s) := ⟨rfl, rfl, fun _ => rfl⟩

theorem linePlan_rot (k : BitVec 4) : LinePlan h d [a] 2 (fun ls l => lane (ls.getD 0 0) ((l + k.toNat) % 16)) s
    (planRot h d a k s) := ⟨rfl, rfl, fun _ => rfl⟩

theorem linePlan_cross (r : VReg) (n : Cl) (lat : Nat) (lanes : BitVec 16) (f : Line → Nat → Word) :
    LinePlan h d [] lat (fun _ => f (s.here.v' n r)) s (planCross h d r n lat lanes f s) := ⟨rfl, rfl, fun _ => rfl⟩

theorem permutesMove : Sys2Proof.Claim.PermutesMove := by
  intro h d s en out
  exact ⟨fun a b k => (linePlan_vsel k).moves rfl rfl, fun a b => linePlan_shuf.moves rfl rfl,
    fun a k => (linePlan_rot k).moves rfl rfl, fun r n => (linePlan_cross r n 1 _ lane).moves rfl rfl,
    fun r n j => (linePlan_cross r n 2 _ fun v _ => lane v j.toNat).moves rfl rfl⟩

/-! ### The fixed tree (R61, R180) -/

/-- What a node passes up. -/
def joinNode {α : Type} (op : α → α → α) : Option α → Option α → Option α
  | some a, some b => some (op a b)
  | some a, none => some a
  | none, r => r

/-- The root of a tree over leaves of any kind, as `treeOf` is one over words. -/
def nodeOf {α : Type} (op : α → α → α) (leaf : Nat → Option α) : Nat → Nat → Option α
  | 0, j => leaf j
  | n + 1, j => joinNode op (nodeOf op leaf n (2 * j)) (nodeOf op leaf n (2 * j + 1))

theorem treeOf_eq_nodeOf (op : Word → Word → Word) (leaf : Nat → Option Word) (n j : Nat) :
    treeOf op leaf n j = nodeOf op leaf n j := by
  induction n generalizing j with
  | zero => rfl
  | succ n ih =>
    rw [treeOf, ih, ih, nodeOf]
    cases nodeOf op leaf n (2 * j) <;> cases nodeOf op leaf n (2 * j + 1) <;> rfl

section

variable {α β : Type} {op : α → α → α} {leaf : Nat → Option α}

theorem treeLevel_pair (x y : Option α) (t : List (Option α)) :
    treeLevel op (x :: y :: t) = joinNode op x y :: treeLevel op t := by
  cases x <;> cases y <;> rfl

theorem treeRoot_range : treeRoot op ((List.range 16).map leaf) = nodeOf op leaf 4 0 := by
  simp only [treeRoot, List.range, List.range.loop, List.map_cons, List.map_nil, treeLevel_pair, treeLevel, List.head?_cons,
    Option.join_some]
  rfl

/-- What is read off a node follows from what is read off the leaves. -/
theorem nodeOf_map {g : α → β} {op' : β → β → β} (hg : ∀ x y, g (op x y) = op' (g x) (g y)) (n j : Nat) :
    (nodeOf op leaf n j).map g = nodeOf op' (fun l => (leaf l).map g) n j := by
  induction n generalizing j with
  | zero => rfl
  | succ n ih =>
    rw [nodeOf, nodeOf, ← ih, ← ih]
    cases nodeOf op leaf n (2 * j) <;> cases nodeOf op leaf n (2 * j + 1) <;> simp [joinNode, hg]

/-- A tree with leaf l alone passes it on along its path. -/
theorem nodeOf_single {l : Nat} (hl : ∀ i, i ≠ l → leaf i = none) (n j : Nat) :
    nodeOf op leaf n j = if l / 2 ^ n = j then leaf l else none := by
  induction n generalizing j with
  | zero =>
    rw [nodeOf, pow_zero, Nat.div_one]
    split
    · rw [‹l = j›]
    · exact hl j (Ne.symm ‹_›)
  | succ n ih =>
    have hp : l / 2 ^ (n + 1) = l / 2 ^ n / 2 := by rw [Nat.pow_succ, Nat.div_div_eq_div_mul]
    rw [nodeOf, ih, ih, hp]
    by_cases h0 : l / 2 ^ n = 2 * j
    · rw [if_pos h0, if_neg (by omega), if_pos (by omega)]
      cases leaf l <;> rfl
    · rw [if_neg h0]
      by_cases h1 : l / 2 ^ n = 2 * j + 1
      · rw [if_pos h1, if_pos (by omega)]; rfl
      · rw [if_neg h1, if_neg (by omega)]; rfl

end

/-! ### Reductions (R46, R61, R180) -/

/-- A leaf of a reduction: the value of an enabled lane, with invalid for a signalling NaN. -/
def reduceLeaf (en : BitVec 16) (x : Line) (l : Nat) : Option (Word × Byte) :=
  if en.getLsbD l then some (lane x l, nvOf [lane x l]) else none

/-- A node of a reduction: its operation, with the flags of its subtrees. -/
def reduceNode (op : Word → Word → Word × Byte) (p q : Word × Byte) : Word × Byte :=
  ((op p.1 q.1).1, (op p.1 q.1).2 ||| p.2 ||| q.2)

/-- The word and the flags of a reduction. -/
def reduceRoot (op : Word → Word → Word × Byte) (none : Word) (en : BitVec 16) (x : Line) : Word × Byte :=
  let r := (nodeOf (reduceNode op) (reduceLeaf en x) 4 0).getD (none, 0)
  (if isNaN32 r.1 then 0x7FC00000 else r.1, r.2)

theorem planReduce_commit (op : Word → Word → Word × Byte) (none : Word) (t : State) :
    (planReduce h d a op none s).commit t =
      let r := reduceRoot op none (s.here.m h.cl h.msk) ((readSrcs s h.cl [a] []).getD 0 0)
      t.result (.v h.cl.toNat d.toNat) (bcast r.1) 6 0xFFFF 0 r.2 := by
  have hleaf (en : BitVec 16) (x : Line) : (fun i => if en.getLsbD i then
      some (lane x i, sigFlag (f32.read false (lane x i).toNat)) else Option.none) = reduceLeaf en x := by
    funext l
    rw [reduceLeaf, sigFlag_read]
  simp only [planReduce, vplan, laneMask, isNan_read, reduceRoot, ← hleaf, ← treeRoot_range]
  rfl

variable {op : Word → Word → Word × Byte} {none : Word} {en : BitVec 16} {x : Line}

/-- The word is the root over the values alone. -/
theorem reduceRoot_word (hnone : isNaN32 none = false) : (reduceRoot op none en x).1 =
    match treeOf (fun p q => (op p q).1) (fun l => if en.getLsbD l then some (lane x l) else Option.none) 4 0 with
    | some v => if isNaN32 v then 0x7FC00000 else v
    | Option.none => none := by
  have hleaf : (fun l => if en.getLsbD l then some (lane x l) else Option.none) =
      fun l => (reduceLeaf en x l).map Prod.fst := by
    funext l
    rw [reduceLeaf]
    split <;> rfl
  rw [treeOf_eq_nodeOf, hleaf, ← nodeOf_map (g := Prod.fst) (op := reduceNode op) (fun _ _ => rfl), reduceRoot]
  cases nodeOf (reduceNode op) (reduceLeaf en x) 4 0 with
  | none => simp [hnone]
  | some v => rfl

theorem reduceRoot_empty (hnone : isNaN32 none = false) (he : en = 0) : reduceRoot op none en x = (none, 0) := by
  have hl (l : Nat) : reduceLeaf en x l = Option.none := by rw [reduceLeaf, he]; simp
  rw [reduceRoot, nodeOf_single (l := 0) (fun i _ => hl i), hl]
  simp [hnone]

theorem reduceRoot_single {l : Nat} (hl : l < 16) (he : en = 1#16 <<< l) :
    (reduceRoot op none en x).2 = nvOf [lane x l] ∧
      (isNaN32 (lane x l) = false → (reduceRoot op none en x).1 = lane x l) := by
  have hb (i : Nat) : en.getLsbD i = decide (i = l) := by
    rw [he, BitVec.getLsbD_shiftLeft, BitVec.getLsbD_one, Bool.eq_iff_iff]
    simp only [Bool.and_eq_true, decide_eq_true_eq, Bool.not_eq_true', decide_eq_false_iff_not]
    omega
  have hi (i : Nat) (hne : i ≠ l) : reduceLeaf en x i = Option.none := by
    rw [reduceLeaf, hb, decide_eq_false hne]; rfl
  have hroot : nodeOf (reduceNode op) (reduceLeaf en x) 4 0 = some (lane x l, nvOf [lane x l]) := by
    rw [nodeOf_single hi, if_pos (by omega), reduceLeaf, hb, decide_eq_true rfl, if_pos rfl]
  rw [reduceRoot, hroot]
  exact ⟨rfl, fun hn => if_neg (Bool.not_eq_true _ ▸ hn)⟩

/-- A reduction gives every lane the root. -/
theorem reduces (hop : IsOperation i) (hplan : planOf i s = planReduce h d a op none s) (hnone : isNaN32 none = false)
    (hi : Issues i s) :
    let en := s.here.m h.cl h.msk
    let x := (readSrcs s h.cl [a] []).getD 0 0
    ∃ w fl, exec i s =
        .next (((heard i s).popAll (srcPops h.cl [a])).result (.v h.cl.toNat d.toNat) (bcast w) 6 0xFFFF 0 fl).finish ∧
      (w = match treeOf (fun p q => (op p q).1) (fun l => if en.getLsbD l then some (lane x l) else Option.none) 4 0 with
        | some v => if isNaN32 v then 0x7FC00000 else v
        | Option.none => none) ∧
      (en = 0 → w = none ∧ fl = 0) ∧
      ∀ l, l < 16 → en = 1#16 <<< l → fl = nvOf [lane x l] ∧ (isNaN32 (lane x l) = false → w = lane x l) := by
  intro en x
  have hx := issues_commits_popped hop hi (q := srcPops h.cl [a]) (by rw [hplan]; rfl) (by rw [hplan]; rfl)
  rw [hplan, planReduce_commit] at hx
  exact ⟨_, _, hx, reduceRoot_word hnone, fun he => Prod.ext_iff.1 (reduceRoot_empty hnone he),
    fun l hl he => reduceRoot_single hl he⟩

theorem reductionsBroadcast : Sys2Proof.Claim.ReductionsBroadcast :=
  fun _ _ _ _ => ⟨reduces (op := add32) rfl rfl rfl,
    reduces (op := fun x y => let r := f32.minMax true x.toNat y.toNat; (BitVec.ofNat 32 r.1, r.2)) rfl rfl rfl⟩

/-- Settles O18: selection, permutes and moves lane by lane, and the tree of the reductions. -/
theorem lanesMove : Obligations.LanesMove := ⟨permutesMove, reductionsBroadcast⟩

end Sys2Proof.Machine
end

section
/-! Commands are checked, PREEMPT, and saving contexts (R66, R254, R256, R299, R300, R302 to R304). -/
namespace Sys2Proof.Machine

variable {s t : State} {k : CoreId} {c : CtxId} {r : Line} {rest : List Line} {op : BitVec 4} {f : Line → State → State}
  {i : Instr} {n : Nat} {l : Launch} {m a : Nat × Nat}

/-! ### The next command (R299, R300) -/

theorem nextCommand_runs (hr : s.running = []) (hq : s.cmdQ = r :: rest) (ho : cmdOp r = op) (hb : cmdBad r = false) :
    s.nextCommand op f = .next (f r { s with cmdQ := rest }) := by
  simp [State.nextCommand, hr, hq, ho, hb]

theorem nextCommand_rejects (hr : s.running = []) (hq : s.cmdQ = r :: rest) (ho : cmdKnown r = false ∨ cmdOp r = op)
    (hb : cmdBad r = true) :
    s.nextCommand op f = .next (State.resultWord { s with cmdQ := rest } (cmdResw r) 0x20 0) := by
  have : (cmdKnown r && cmdOp r != op) = false := by
    rcases ho with h | h <;> simp [h]
  simp [State.nextCommand, hr, hq, this, hb, State.result']

theorem nextCommand_waits (hq : s.cmdQ = r :: rest) (hk : cmdKnown r = true) (ho : cmdOp r ≠ op) :
    s.nextCommand op f = .fault .notEnabled := by
  simp [State.nextCommand, hq, hk, ho]

theorem nextReading_clean (h : s.nextErrs = []) (op : BitVec 4) (words : Line → List Nat) (f : Line → State → State) :
    s.nextReading op words f = s.nextCommand op f := by
  rw [State.nextReading, meetNext_clean _ _ _ h]

theorem cmdServed_bad (hq : s.cmdQ = r :: rest) (hb : cmdBad r = true) (served : Line → Bool) : s.cmdServed served = true := by
  simp [State.cmdServed, hq, hb]

theorem saveDrained_bad (hq : s.cmdQ = r :: rest) (hb : cmdBad r = true) : saveDrained s = true := by
  simp [saveDrained, hq, hb]

theorem execPreempt_next (hr : s.running = []) : execPreempt s = s.nextCommand 1 State.startPreempt := by
  rw [execPreempt, hr]

/-- Each of the seven events is the next command's, once what the command needs is there; a rejected one needs nothing. -/
theorem commandEvent_takes (hi : commandEvents[n]? = some i) (hr : s.running = []) (hq : s.cmdQ = r :: rest)
    (he : s.nextErrs = []) : ∃ f b, (cmdBad r = true → b = true) ∧
      exec i s = if b = true then s.nextCommand (BitVec.ofNat 4 (n + 1)) f else .fault .notEnabled := by
  match n, hi with
  | 0, rfl => exact ⟨State.startPreempt, true, fun _ => rfl, execPreempt_next hr⟩
  | 1, rfl =>
    refine ⟨State.resume, _, fun hb => cmdServed_bad hq hb s.resumeServed, ?_⟩
    rw [← nextReading_clean he _ (resumeWords s)]
    rfl
  | 2, rfl => exact ⟨State.abort, true, fun _ => rfl, rfl⟩
  | 3, rfl => exact ⟨_, _, fun hb => cmdServed_bad hq hb _, rfl⟩
  | 4, rfl => exact ⟨_, _, fun hb => cmdServed_bad hq hb _, rfl⟩
  | 5, rfl =>
    refine ⟨State.coreSave, _, fun hb => Bool.and_eq_true_iff.2 ⟨saveDrained_bad hq hb, cmdServed_bad hq hb fun r =>
      s.areaBad r imgLen || s.saveBusy r || areaServed (s.storeOpen (some (cmdTenant r))) r⟩, ?_⟩
    rw [← nextReading_clean he _ coreWords]
    rfl
  | 6, rfl =>
    refine ⟨State.coreLoad, _, fun hb => cmdServed_bad hq hb fun r =>
      s.areaBad r imgLen || s.loadBusy r || areaServed (s.dramOpen (some (cmdTenant r))) r, ?_⟩
    rw [← nextReading_clean he _ imageWords]
    rfl

/-- A record is known by an OP from 1 to 7. -/
theorem cmdKnown_iff : cmdKnown r = true ↔ 1 ≤ (cmdOp r).toNat ∧ (cmdOp r).toNat ≤ 7 := by
  have : cmdOp r = 0 ↔ (cmdOp r).toNat = 0 := BitVec.toNat_inj.symm
  rw [cmdKnown, Bool.and_eq_true, bne_iff_ne, decide_eq_true_eq, ne_eq, this, Nat.one_le_iff_ne_zero]

theorem cmdOp_eq (h : (cmdOp r).toNat = n) : cmdOp r = BitVec.ofNat 4 n := by
  rw [← h, BitVec.ofNat_toNat, BitVec.setWidth_eq]

theorem cmdBad_of_fields (ho : (cmdOp r).toNat = n + 1)
    (h : r.extractLsb' 9 23 ≠ 0 ∨ r.extractLsb' 240 16 ≠ 0 ∨ r.extractLsb' 314 198 ≠ 0 ∨
      (r.getLsbD 8 = true ∧ (n ≠ 3 ∨ r.extractLsb' 4 4 ≠ 0)) ∨ (n = 3 ∧ r.extractLsb' 256 32 = 0)) : cmdBad r = true := by
  have hop : cmdOp r = 4 ↔ n = 3 := by
    rw [← BitVec.toNat_inj, ho]
    exact Nat.add_right_cancel_iff
  have hlen : cmdLen r = 0 ↔ r.extractLsb' 256 32 = 0 := BitVec.toNat_inj (y := 0#32)
  unfold cmdBad cmdNoown cmdTenant
  simp only [Bool.or_eq_true, Bool.and_eq_true, bne_iff_ne, beq_iff_eq, ne_eq, hop, hlen]
  rcases h with h | h | h | h | h
  · exact .inl (.inl (.inl (.inl (.inr h))))
  · exact .inl (.inl (.inl (.inr h)))
  · exact .inl (.inl (.inr h))
  · exact .inl (.inr h)
  · exact .inr h

theorem commandsRejected : Sys2Proof.Claim.CommandsRejected := by
  intro s r rest hr hq he
  refine ⟨fun ho i hi => ?_, fun n i hi ho hf => ?_, fun n i hi hn h1 h7 => ?_⟩
  · obtain ⟨n, hi⟩ := List.mem_iff_getElem?.1 hi
    obtain ⟨f, b, hb, h⟩ := commandEvent_takes hi hr hq he
    have hk : cmdKnown r = false := by
      rw [← Bool.not_eq_true, cmdKnown_iff]
      rcases ho with ho | ho
      · simp [ho]
      · omega
    have hbad : cmdBad r = true := by simp [cmdBad, hk]
    rw [h, if_pos (hb hbad)]
    exact nextCommand_rejects hr hq (.inl hk) hbad
  · obtain ⟨f, b, hb, h⟩ := commandEvent_takes hi hr hq he
    have hbad := cmdBad_of_fields ho hf
    rw [h, if_pos (hb hbad)]
    exact nextCommand_rejects hr hq (.inr (cmdOp_eq ho)) hbad
  · obtain ⟨f, b, -, h⟩ := commandEvent_takes hi hr hq he
    have hlt : n < 7 := (List.getElem?_eq_some_iff.1 hi).1
    have hne : cmdOp r ≠ BitVec.ofNat 4 (n + 1) := fun e => hn (by rw [e, BitVec.toNat_ofNat]; omega)
    rw [h, nextCommand_waits hq (cmdKnown_iff.2 ⟨h1, h7⟩) hne, ite_self]

/-! ### PREEMPT (R302) -/

/-- A pre-emption is made pending for a context, whose record goes where the place of its member says. -/
def preemptAt (r : Line) (m : Nat × Nat) (x : Ctx) : Ctx :=
  { x with preempt := true, pmbCount := 0, preemptAddr := saveSlot r m.1 (BitVec.ofNat 2 m.2) }

/-- What PREEMPT does for one member of a launch. -/
def preemptMember (r : Line) (l : Launch) (t : State) (m : Nat × Nat) : State :=
  let x := t.ctx (memberPlace m).1 (memberPlace m).2
  if (cmdCores r).contains m.1 && x.launch == l.id && x.live && l.phase != .failing then
    t.modCtx (memberPlace m).1 (memberPlace m).2 (preemptAt r m)
  else t

/-- Whether a pre-emption is pending for a context, with the address of its member. -/
def Ctx.preemptedAt (r : Line) (m : Nat × Nat) (x : Ctx) : Prop :=
  x.preempt = true ∧ x.preemptAddr = saveSlot r m.1 (BitVec.ofNat 2 m.2)

/-- Members that name one context on a core of CMASK have one place. -/
theorem preemptAt_place (ha : a.1 ∈ cmdCores r) (hm : m.1 ∈ cmdCores r) (h : memberPlace a = memberPlace m) :
    preemptAt r a = preemptAt r m := by
  obtain ⟨hk, hc⟩ := Prod.mk.inj h
  have hlt {j : Nat} (hj : j ∈ cmdCores r) : j < 128 := List.mem_range.1 (List.mem_filter.1 hj).1
  have hk : a.1 = m.1 := by
    have := congrArg BitVec.toNat hk
    rwa [BitVec.toNat_ofNat, BitVec.toNat_ofNat, Nat.mod_eq_of_lt (hlt ha), Nat.mod_eq_of_lt (hlt hm)] at this
  unfold preemptAt
  rw [hk, show BitVec.ofNat 2 a.2 = BitVec.ofNat 2 m.2 from hc]

/-- A member's step leaves another's context, or makes the pre-emption pending that its own does. -/
theorem preemptMember_ctx (hm : m.1 ∈ cmdCores r) (t : State) (a : Nat × Nat) :
    (preemptMember r l t a).ctx (memberPlace m).1 (memberPlace m).2 = t.ctx (memberPlace m).1 (memberPlace m).2 ∨
    (preemptMember r l t a).ctx (memberPlace m).1 (memberPlace m).2 =
      preemptAt r m (t.ctx (memberPlace m).1 (memberPlace m).2) := by
  unfold preemptMember
  dsimp only
  split
  · next hc =>
    simp only [Bool.and_eq_true] at hc
    obtain ⟨⟨⟨ha, -⟩, -⟩, -⟩ := hc
    by_cases h : memberPlace a = memberPlace m
    · rw [h, preemptAt_place (List.contains_iff_mem.1 ha) hm h]
      exact .inr (State.ctx_modCtx ..)
    · exact .inl (State.ctx_modCtx_ctx _ _ fun e => h e.symm)
  · exact .inl rfl

theorem live_preemptAt {x : Ctx} (h : x.live = true) : (preemptAt r m x).live = true := by
  simp only [Ctx.live, preemptAt, Bool.or_eq_true, Bool.and_eq_true] at h ⊢
  tauto

/-- A live context of the launch stays one while PREEMPT goes through the members, and what is pending stays pending. -/
theorem preemptMember_keeps {P : Ctx → Prop} (hP : ∀ x, P x → P (preemptAt r m x)) (hm : m.1 ∈ cmdCores r) (t : State)
    (a : Nat × Nat) (h : P (t.ctx (memberPlace m).1 (memberPlace m).2)) :
    P ((preemptMember r l t a).ctx (memberPlace m).1 (memberPlace m).2) := by
  rcases preemptMember_ctx (l := l) hm t a with e | e
  · rwa [e]
  · rw [e]
    exact hP _ h

theorem preemptMembers_keep {P : Ctx → Prop} (hP : ∀ x, P x → P (preemptAt r m x)) (hm : m.1 ∈ cmdCores r) (t : State)
    (ms : List (Nat × Nat)) (h : P (t.ctx (memberPlace m).1 (memberPlace m).2)) :
    P ((ms.foldl (preemptMember r l) t).ctx (memberPlace m).1 (memberPlace m).2) :=
  List.foldlRecOn (motive := fun t => P (t.ctx (memberPlace m).1 (memberPlace m).2)) ms _ h
    fun t h a _ => preemptMember_keeps hP hm t a h

theorem preemptMember_self (hm : m.1 ∈ cmdCores r) (hp : l.phase ≠ .failing)
    (hx : (t.ctx (memberPlace m).1 (memberPlace m).2).launch = l.id ∧ (t.ctx (memberPlace m).1 (memberPlace m).2).live = true) :
    ((preemptMember r l t m).ctx (memberPlace m).1 (memberPlace m).2).preemptedAt r m := by
  obtain ⟨hl, hv⟩ := hx
  have : preemptMember r l t m = t.modCtx (memberPlace m).1 (memberPlace m).2 (preemptAt r m) :=
    if_pos (by simp [hm, hl, hv, hp])
  rw [this, State.ctx_modCtx]
  exact ⟨rfl, rfl⟩

/-- PREEMPT makes the pre-emption pending for each live context of the launch on a core of CMASK. -/
theorem preemptMembers_pend (hm : m.1 ∈ cmdCores r) (hp : l.phase ≠ .failing) (ms : List (Nat × Nat)) (hmem : m ∈ ms) (t : State)
    (hx : (t.ctx (memberPlace m).1 (memberPlace m).2).launch = l.id ∧ (t.ctx (memberPlace m).1 (memberPlace m).2).live = true) :
    ((ms.foldl (preemptMember r l) t).ctx (memberPlace m).1 (memberPlace m).2).preemptedAt r m := by
  induction ms generalizing t with
  | nil => exact absurd hmem List.not_mem_nil
  | cons a ms ih =>
    rw [List.foldl_cons]
    rcases List.mem_cons.1 hmem with rfl | hmem
    · exact preemptMembers_keep (fun _ _ => ⟨rfl, rfl⟩) hm _ ms (preemptMember_self hm hp hx)
    · exact ih hmem _ (preemptMember_keeps (P := fun x => x.launch = l.id ∧ x.live = true)
        (fun _ h => ⟨h.1, live_preemptAt h.2⟩) hm t a hx)

/-- What of the module PREEMPT leaves while it goes through the members. -/
theorem preemptMember_leaves (t : State) (m : Nat × Nat) :
    ((preemptMember r l t m).cmdQ, (preemptMember r l t m).mem, (preemptMember r l t m).launches) =
      (t.cmdQ, t.mem, t.launches) := by
  unfold preemptMember
  dsimp only
  split
  · rfl
  · rfl

/-- The launch stops dealing units to the cores of CMASK. -/
def stopDealing (r : Line) (l : Launch) : Launch :=
  { l with dealStop := (cmdCores r).foldl (fun d k => sinsert k d) l.dealStop }

theorem mem_foldl_sinsert {j : Nat} (ks d : List Nat) (h : j ∈ ks ∨ j ∈ d) : j ∈ ks.foldl (fun d k => sinsert k d) d := by
  induction ks generalizing d with
  | nil => exact h.resolve_left List.not_mem_nil
  | cons k ks ih =>
    refine ih _ ?_
    rw [mem_sinsert]
    rw [List.mem_cons] at h
    tauto

/-- A PREEMPT whose target and area are good. -/
theorem startPreempt_starts (ht : cmdTarget s r = some l)
    (hco : recCores l.record = true → ∀ k ∈ l.startedCores, k ∈ cmdCores r) (ha : s.areaBad r 0xC0000 = false) :
    s.startPreempt r = { l.members.foldl (preemptMember r l) (s.modLaunch l.id (stopDealing r)) with
      running := [⟨1, l.tenant, l.id, r.extractLsb' 64 128, cmdResw r, 0, false⟩] } := by
  have hno : (recCores l.record && l.startedCores.any fun k => !(cmdCores r).contains k) = false := by
    rw [Bool.and_eq_false_imp]
    intro h
    rw [List.any_eq_false]
    intro k hk
    simp [hco h k hk]
  unfold State.startPreempt
  rw [ht]
  dsimp only
  rw [hno, ha]
  rfl

/-- What a PREEMPT that starts brings, going through the members. -/
theorem preemptMembers_effect (hl : s.launch l.id = some l) (hp : l.phase ≠ .failing) :
    let t := l.members.foldl (preemptMember r l) (s.modLaunch l.id (stopDealing r))
    t.cmdQ = s.cmdQ ∧ t.mem = s.mem ∧ t.launch l.id = some (stopDealing r l) ∧
      ∀ m ∈ l.members, m.1 ∈ cmdCores r → (s.ctx (memberPlace m).1 (memberPlace m).2).launch = l.id →
        (s.ctx (memberPlace m).1 (memberPlace m).2).live = true →
        (t.ctx (memberPlace m).1 (memberPlace m).2).preemptedAt r m := by
  intro t
  have hleaves := foldl_leaves (fun t : State => (t.cmdQ, t.mem, t.launches)) (preemptMember r l) preemptMember_leaves
    l.members (s.modLaunch l.id (stopDealing r))
  obtain ⟨hcmd, hrest⟩ := Prod.mk.inj hleaves
  obtain ⟨hmem, hlaunches⟩ := Prod.mk.inj hrest
  refine ⟨hcmd, hmem, (launch_of_launches hlaunches l.id).trans ?_, fun m hm hk hla hv => ?_⟩
  · exact launch_modLaunch_self hl fun _ => rfl
  · exact preemptMembers_pend hk hp l.members hm _ ⟨hla, hv⟩

/-- A PREEMPT of a good target, as its event finds it. -/
theorem exec_preempt_starts (hr : s.running = []) (hq : s.cmdQ = r :: rest) (ho : cmdOp r = 1) (hb : cmdBad r = false)
    (ht : cmdTarget s r = some l) (hco : recCores l.record = true → ∀ k ∈ l.startedCores, k ∈ cmdCores r)
    (ha : s.areaBad r 0xC0000 = false) :
    exec .preempt s = .next { l.members.foldl (preemptMember r l)
        (State.modLaunch { s with cmdQ := rest } l.id (stopDealing r)) with
      running := [⟨1, l.tenant, l.id, r.extractLsb' 64 128, cmdResw r, 0, false⟩] } := by
  rw [← startPreempt_starts (s := { s with cmdQ := rest }) ht hco ha]
  exact (execPreempt_next hr).trans (nextCommand_runs hr hq ho hb)

theorem preemptRuns : Sys2Proof.Claim.PreemptRuns := by
  intro s
  refine ⟨fun r rest l hr hq hb ho hl ht hp hco ha => ?_, fun p hp ho hd => ?_⟩
  · have htarget : cmdTarget s r = some l := by
      simp [cmdTarget, hl, ht]
    have hstart := exec_preempt_starts hr hq ho hb htarget hco ha
    have heffect := preemptMembers_effect (s := { s with cmdQ := rest }) (r := r) (l := l)
      (by rw [← launch_id hl] at hl; exact hl) (by rw [hp]; exact Phase.noConfusion)
    generalize l.members.foldl (preemptMember r l) _ = w at hstart heffect
    obtain ⟨hcmd, hmem, hlaunch, hpend⟩ := heffect
    refine ⟨_, stopDealing r l, hstart, rfl, hcmd, hmem, hlaunch, fun k hk => mem_foldl_sinsert _ _ (.inl hk),
      fun m hm hk h4 hla hv => ?_⟩
    obtain ⟨hpre, haddr⟩ := hpend m hm hk hla hv
    refine ⟨hpre, haddr.trans ?_⟩
    rw [saveSlot, coreIndex, BitVec.toNat_ofNat, Nat.mod_eq_of_lt h4]
  · change execPreempt s = _
    rw [execPreempt, hp]
    exact enabledIf_true (by simp [ho, hd]) _

/-! ### What a stop lands (R39, R66, R254) -/

/-- A landing leaves a context's place, its pending pre-emption and its arithmetic flags. -/
theorem land_lands (s : State) (k : CoreId) (c : CtxId) (d : Dest) (v : Line) (en poi : BitVec 16) :
    Lands (fun x => (x.pc, x.preempt, x.arith)) s (s.land k c d v en poi) := by
  unfold State.land
  split
  case h_1 | h_2 | h_3 => exact .refl _ s
  case h_8 | h_9 => exact .modCore fun _ => rfl
  all_goals exact .modCtx fun _ => rfl

/-- What leaves more of the contexts leaves less. -/
theorem Lands.map {β γ : Type} {g : Ctx → β} (p : β → γ) (h : Lands g s t) : Lands (fun x => p (g x)) s t :=
  ⟨h.books, h.launches, h.others, fun k c => congrArg p (h.ctxs k c)⟩

theorem orFlags_arith (s : State) (k : CoreId) (c : CtxId) (f : Byte) :
    ((s.orFlags k c f).ctx k c).arith = (s.ctx k c).arith ||| f := by
  unfold State.orFlags
  split
  · next h => simp [h]
  · rw [State.ctx_modCtx]

theorem orFlags_lands (s : State) (k : CoreId) (c : CtxId) (f : Byte) :
    Lands (fun x => (x.pc, x.preempt)) s (s.orFlags k c f) := by
  unfold State.orFlags
  split
  · exact .refl _ s
  · exact .modCtx fun _ => rfl

/-- A result that lands whole brings its flags. -/
theorem landPend_arith (s : State) (k : CoreId) (c : CtxId) (p : Pend) :
    ((s.landPend k c p p.lanes).ctx k c).arith = (s.ctx k c).arith ||| p.flags := by
  rw [State.landPend, orFlags_arith, if_pos (by simp)]
  exact congrArg (· ||| p.flags) (congrArg (·.2.2) ((land_lands s k c p.dest p.val _ p.poison).ctxs k c))

theorem landPend_lands (s : State) (k : CoreId) (c : CtxId) (p : Pend) (en : BitVec 16) :
    Lands (fun x => (x.pc, x.preempt)) s (s.landPend k c p en) :=
  ((land_lands ..).map fun x => (x.1, x.2.1)).trans (orFlags_lands ..)

/-- A result lost at a stop writes a free value over its register, and nothing more after its flags (R66, R254). -/
theorem scramble_lands (k : CoreId) (c : CtxId) (s : State) (p : Pend) :
    Lands (fun x => (x.pc, x.preempt, x.arith)) (s.free.2.orFlags k c p.flags) (State.scramble k c s p) := by
  unfold State.scramble
  dsimp only
  split
  · exact .modCtx fun _ => rfl
  · exact .modCtx fun _ => rfl
  · exact land_lands ..

theorem scramble_arith (k : CoreId) (c : CtxId) (s : State) (p : Pend) :
    ((State.scramble k c s p).ctx k c).arith = (s.ctx k c).arith ||| p.flags :=
  (congrArg (·.2.2) ((scramble_lands k c s p).ctxs k c)).trans (orFlags_arith s.free.2 k c p.flags)

theorem scramble_leaves (k : CoreId) (c : CtxId) (s : State) (p : Pend) :
    Lands (fun x => (x.pc, x.preempt)) s (State.scramble k c s p) :=
  have hfree : Lands (fun x => (x.pc, x.preempt)) s s.free.2 := ⟨rfl, rfl, rfl, fun _ _ => rfl⟩
  (hfree.trans (orFlags_lands ..)).trans ((scramble_lands k c s p).map fun x => (x.1, x.2.1))

/-- Whether a result in flight is due at a core's cycle and a context's count of bundles. -/
def Pend.dueAt (now bundles : Nat) (p : Pend) : Bool := p.cycle + p.lat ≤ now || p.bundle + p.lat ≤ bundles

theorem landDue_eq (s : State) (k : CoreId) (c : CtxId) : s.landDue k c =
    ((s.ctx k c).pend.filter (Pend.dueAt (s.core k).cycle (s.ctx k c).bundles)).foldl (fun t p => t.landPend k c p p.lanes)
      (s.modCtx k c fun x =>
        { x with pend := x.pend.filter fun p => !p.dueAt (s.core k).cycle (s.ctx k c).bundles }) := rfl

theorem landDue_lands (s : State) (k : CoreId) (c : CtxId) : Lands (fun x => (x.pc, x.preempt)) s (s.landDue k c) := by
  rw [landDue_eq]
  refine .trans ?_ (.foldl (op := fun t p => t.landPend k c p p.lanes) (fun _ _ => landPend_lands ..) _ _)
  exact .modCtx fun _ => rfl

/-- What is not yet due stays in flight. -/
theorem landDue_pend (s : State) (k : CoreId) (c : CtxId) : ((s.landDue k c).ctx k c).pend =
    (s.ctx k c).pend.filter fun p => !p.dueAt (s.core k).cycle (s.ctx k c).bundles := by
  rw [landDue_eq]
  have h := ((Lands.foldl (op := fun t p => t.landPend k c p p.lanes) (fun _ _ => Lands.landPend ..)
    ((s.ctx k c).pend.filter (Pend.dueAt (s.core k).cycle (s.ctx k c).bundles)) (s.modCtx k c fun x =>
      { x with pend := x.pend.filter fun p => !p.dueAt (s.core k).cycle (s.ctx k c).bundles })).place.ctxs k c)
  refine (congrArg Prod.snd h).trans ?_
  rw [State.ctx_modCtx]
  rfl

/-- Steps that OR their results' flags into a context bring all of them. -/
theorem foldl_arith {op : State → Pend → State} (h : ∀ t p, ((op t p).ctx k c).arith = (t.ctx k c).arith ||| p.flags)
    (ps : List Pend) (s : State) :
    ((ps.foldl op s).ctx k c).arith = (ps.map (·.flags)).foldl (· ||| ·) (s.ctx k c).arith := by
  induction ps generalizing s with
  | nil => rfl
  | cons p ps ih => rw [List.foldl_cons, ih, h]; rfl

/-- Flags set before or among those that are brought are set after. -/
theorem foldl_or_holds {fs : List Byte} {x f : Byte} (h : x &&& f = f ∨ f ∈ fs) : fs.foldl (· ||| ·) x &&& f = f := by
  refine BitVec.eq_of_getLsbD_eq fun b _ => ?_
  rw [BitVec.getLsbD_and, Bool.and_eq_right_iff_imp]
  intro hb
  rw [foldl_or_getLsbD]
  rcases h with h | h
  · rw [← h, BitVec.getLsbD_and, Bool.and_eq_true] at hb
    exact .inl hb.1
  · exact .inr ⟨f, h, hb⟩

/-- What lands by a cycle brings the flags of the results due by then. -/
theorem landDue_flags {p : Pend} (hp : p ∈ (s.ctx k c).pend) (hd : p.dueAt (s.core k).cycle (s.ctx k c).bundles = true) :
    ((s.landDue k c).ctx k c).arith &&& p.flags = p.flags := by
  rw [landDue_eq, foldl_arith fun t p => landPend_arith t k c p]
  exact foldl_or_holds (.inr (List.mem_map_of_mem (List.mem_filter.2 ⟨hp, hd⟩)))

/-! ### PMARK_STOP (R254, R256) -/

/-- The state in which all that is due by the cycle of the stop has landed. -/
def State.stopLanded (s : State) (k : CoreId) (c : CtxId) : State :=
  (s.modCore k fun y => { y with cycle := s.edge k }).landDue k c

/-- The state in which what is still in flight has been given up. -/
def State.stopScrambled (s : State) (k : CoreId) (c : CtxId) : State :=
  let now := (s.core k).cycle
  let u := (s.stopLanded k c).modCore k fun y => { y with cycle := now }
  (u.ctx k c).pend.foldl (State.scramble k c) u

theorem pmarkStop_eq (s : State) (k : CoreId) (c : CtxId) :
    s.pmarkStop k c = (s.stopScrambled k c).modCtx k c fun x => { x with run := .stopped, pend := [] } := rfl

theorem pmarkStop_ctx (s : State) (k : CoreId) (c : CtxId) :
    (s.pmarkStop k c).ctx k c = { (s.stopScrambled k c).ctx k c with run := .stopped, pend := [] } := by
  rw [pmarkStop_eq, State.ctx_modCtx]

/-- A core whose cycle alone changes has the contexts it had. -/
theorem ctx_atCycle (s : State) (k : CoreId) (c : CtxId) (n : Nat) :
    (s.modCore k fun y => { y with cycle := n }).ctx k c = s.ctx k c := ctx_modCore fun _ => rfl

theorem stopScrambled_eq (s : State) (k : CoreId) (c : CtxId) : s.stopScrambled k c =
    ((s.stopLanded k c).ctx k c).pend.foldl (State.scramble k c)
      ((s.stopLanded k c).modCore k fun y => { y with cycle := (s.core k).cycle }) := by
  unfold State.stopScrambled
  dsimp only
  rw [ctx_atCycle]

theorem stopScrambled_lands (s : State) (k : CoreId) (c : CtxId) : Lands (fun x => (x.pc, x.preempt)) s (s.stopScrambled k c) := by
  rw [stopScrambled_eq]
  refine .trans (t := s.stopLanded k c) (.trans (t := s.modCore k fun y => { y with cycle := s.edge k }) ?_ ?_)
    (.trans ?_ (.foldl (scramble_leaves k c) _ _))
  · exact .modCore fun _ => rfl
  · exact landDue_lands ..
  · exact .modCore fun _ => rfl

theorem stopLanded_pend (s : State) (k : CoreId) (c : CtxId) : ((s.stopLanded k c).ctx k c).pend =
    (s.ctx k c).pend.filter fun p => !p.dueAt (s.edge k) (s.ctx k c).bundles := by
  rw [State.stopLanded, landDue_pend, ctx_atCycle, State.core_modCore]

/-- No arithmetic flag of what is in flight is lost: a result due lands with its flags, one that is not leaves them. -/
theorem stopScrambled_flags {p : Pend} (hp : p ∈ (s.ctx k c).pend) :
    ((s.stopScrambled k c).ctx k c).arith &&& p.flags = p.flags := by
  rw [stopScrambled_eq, foldl_arith fun t p => scramble_arith k c t p, ctx_atCycle, stopLanded_pend]
  refine foldl_or_holds ?_
  cases hd : p.dueAt (s.edge k) (s.ctx k c).bundles
  · exact .inr (List.mem_map_of_mem (List.mem_filter.2 ⟨hp, by simp [hd]⟩))
  · refine .inl (landDue_flags ?_ ?_)
    · rwa [ctx_atCycle]
    · rwa [ctx_atCycle, State.core_modCore]

/-- Where everything is due, nothing is given up. -/
theorem stopScrambled_due (h : ∀ p ∈ (s.ctx k c).pend, p.dueAt (s.edge k) (s.ctx k c).bundles = true) :
    (s.stopScrambled k c).ctx k c = (s.stopLanded k c).ctx k c := by
  have hnone : ((s.stopLanded k c).ctx k c).pend = [] := by
    rw [stopLanded_pend, List.filter_eq_nil_iff]
    intro p hp
    simp [h p hp]
  rw [stopScrambled_eq, hnone]
  exact ctx_atCycle ..

theorem pmarkStop_run (s : State) (k : CoreId) (c : CtxId) : ((s.pmarkStop k c).ctx k c).run = .stopped := by
  rw [pmarkStop_ctx]

theorem pmarkStop_pend (s : State) (k : CoreId) (c : CtxId) : ((s.pmarkStop k c).ctx k c).pend = [] := by
  rw [pmarkStop_ctx]

theorem pmarkStop_mem (s : State) (k : CoreId) (c : CtxId) : (s.pmarkStop k c).mem = s.mem := by
  rw [pmarkStop_eq, State.modCtx_mem]
  exact congrArg Prod.fst (stopScrambled_lands s k c).books

theorem pmarkStop_keeps (s : State) (k : CoreId) (c : CtxId) : ((s.pmarkStop k c).ctx k c).pc = (s.ctx k c).pc ∧
    ((s.pmarkStop k c).ctx k c).preempt = (s.ctx k c).preempt := by
  rw [pmarkStop_ctx]
  exact Prod.mk.inj ((stopScrambled_lands s k c).ctxs k c)

theorem pmarkStop_flags {p : Pend} (hp : p ∈ (s.ctx k c).pend) :
    ((s.pmarkStop k c).ctx k c).arith &&& p.flags = p.flags := by
  rw [pmarkStop_ctx]
  exact stopScrambled_flags hp

/-- Where everything in flight is due, the registers are those that its landing leaves. -/
theorem pmarkStop_due (h : ∀ p ∈ (s.ctx k c).pend, p.cycle + p.lat ≤ s.edge k ∨ p.bundle + p.lat ≤ (s.ctx k c).bundles) :
    ((s.pmarkStop k c).ctx k c).scal = ((s.stopLanded k c).ctx k c).scal ∧
      ((s.pmarkStop k c).ctx k c).areg = ((s.stopLanded k c).ctx k c).areg ∧
      ((s.pmarkStop k c).ctx k c).flags = ((s.stopLanded k c).ctx k c).flags := by
  rw [pmarkStop_ctx, stopScrambled_due fun p hp => Bool.or_eq_true_iff.2 ((h p hp).imp decide_eq_true decide_eq_true)]
  exact ⟨rfl, rfl, rfl⟩

theorem execPmarkStop_stops (hd : pmarkDue s k c = true) (hb : pmbDue s k c = false) :
    exec (.pmarkStop k c) s = .next (s.pmarkStop k c) :=
  enabledIf_true (by simp [hd, hb]) _

/-! ### CONTEXT_SAVED (R302 to R304) -/

theorem saveContext_mem (h : s.stampOn = false) :
    (s.saveContext k c).mem = wrBytes s.mem (saveOf s k c).addr (saveOf s k c).bytes :=
  write_mem (s := { s with nextId := s.nextId + 1, saves := s.saves ++ [saveOf s k c] }) h _ _

theorem saveContext_run (s : State) (k : CoreId) (c : CtxId) : ((s.saveContext k c).ctx k c).run = .saved := by
  change (((State.setCtx _ k c _ : State).core k).ctx c).run = .saved
  rw [State.setCtx, State.core_modCore, Core.ctx_setCtx]

theorem saveContext_saved (s : State) (k : CoreId) (c : CtxId) : ((s.saveContext k c).core k).saved = true := by
  change ((State.setCtx _ k c _ : State).core k).saved = true
  rw [State.setCtx, State.core_modCore]
  change (State.core (State.modCore _ k _) k).saved = true
  rw [State.core_modCore]

/-- A record is saved with its bytes at its address, and nothing else of memory changes. -/
theorem saveContext_bytes (h : s.stampOn = false) :
    (∀ i, i < (saveOf s k c).bytes.length →
      some (rd (s.saveContext k c).mem ((saveOf s k c).addr + i)) = (saveOf s k c).bytes[i]?) ∧
    ∀ a, ¬ ((saveOf s k c).addr ≤ a ∧ a < (saveOf s k c).addr + (saveOf s k c).bytes.length) →
      rd (s.saveContext k c).mem a = rd s.mem a := by
  rw [saveContext_mem h]
  refine ⟨fun i hi => ?_, fun a ha => ?_⟩
  · rw [rd_wrBytes_in _ _ _ _ hi, List.getElem?_eq_getElem hi]
  · rw [rd_wrBytes_out _ _ _ _ (by omega)]

theorem saveContext_counts {r : Running} (hr : s.running = [r]) (hl : r.launch = (s.ctx k c).launch) :
    (s.saveContext k c).running = [{ r with nctx := r.nctx + 1 }] := by
  change s.running.map _ = _
  rw [hr, List.map_singleton, if_pos (beq_iff_eq.2 hl)]

theorem contextsSaved : Sys2Proof.Claim.ContextsSaved := by
  intro s k c
  refine ⟨fun hb => ?_, fun hd hb => ?_, fun hr hst => ?_⟩
  · exact enabledIf_false (by simp [hb]) _
  · obtain ⟨hpc, hpre⟩ := pmarkStop_keeps s k c
    exact ⟨_, execPmarkStop_stops hd hb, pmarkStop_run s k c, pmarkStop_pend s k c, hpc, hpre, pmarkStop_mem s k c,
      fun p hp => pmarkStop_flags hp, fun hall => pmarkStop_due hall⟩
  · obtain ⟨hin, hout⟩ := saveContext_bytes (k := k) (c := c) hst
    exact ⟨s.saveContext k c, saveOf s k c, enabledIf_true hr _, rfl, rfl, rfl, rfl, rfl, rfl, rfl, rfl, rfl, rfl, rfl,
      saveContext_run s k c, saveContext_saved s k c, hin, hout, fun r hrun hl => saveContext_counts hrun hl⟩

/-- Settles O45: a rejected record is answered before anything else of its command, PREEMPT goes through the launch's
members, and a stop lands or gives up what is in flight with its flags kept. -/
theorem preemptionSaves : Obligations.PreemptionSaves := by
  unfold Obligations.PreemptionSaves
  exact ⟨commandsRejected, preemptRuns, contextsSaved⟩

end Sys2Proof.Machine
end

section
/-! Branches, jumps and loops (R149 to R153). -/
namespace Sys2Proof.Machine

variable {s : State} {g : Guard}

/-! ### Branches (R149, R150) -/

theorem exec_br (g : Guard) (disp : BitVec 16) (s : State) : exec (.br g disp) s = runPlan 5 (planBr g disp s) s := rfl

theorem exec_brc (g : Guard) (d : SReg) (disp : BitVec 16) (s : State) :
    exec (.brc g d disp) s = runPlan 5 (planBrc g d disp s) s := rfl

theorem exec_jmp (g : Guard) (a : SReg) (s : State) : exec (.jmp g a) s = runPlan 5 (planJmp g a s) s := rfl

theorem exec_loop (g : Guard) (k : NReg) (levels : BitVec 3) (len : BitVec 6) (s : State) :
    exec (.loop g k levels len) s = runPlan 5 (planLoop g k levels len s) s := rfl

theorem exec_loopx (g : Guard) (a : SReg) (len : BitVec 6) (s : State) :
    exec (.loopx g a len) s = runPlan 5 (planLoopx g a len s) s := rfl

/-- Inside a loop a transfer is illegal (R153). -/
theorem loopFree_some {x : Ctx} (h : x.loop.isSome = true) : loopFree x = .fault { code := 0x02 } := by
  simp [loopFree, h]

theorem branchTransfers : Sys2Proof.Claim.BranchTransfers := by
  intro g disp s hp va
  have hva : direct s.me disp = va := direct_eq s.me disp
  rw [exec_br, planBr]
  refine ⟨fun hloop hin => ?_, fun hloop hout => ?_, fun hloop => ?_⟩
  · rw [(planReady_noSources hp).commits_noScalar (by simp)
      (by rw [loopFree_none hloop, hva, targetCheck_in hin]; rfl), hva]
    rfl
  · rw [(planReady_noSources hp).faults
      (by rw [loopFree_none hloop, hva, targetCheck_out hout]; rfl) rfl, BitVec.ofNat_toNat, BitVec.setWidth_eq]
  · exact (planReady_noSources hp).faults (by rw [loopFree_some hloop]; rfl) rfl

theorem sub_one_eq (v : Dword) : v - 1 = BitVec.ofInt 64 (v.toInt - 1) := by
  rw [Int.sub_eq_add_neg, BitVec.ofInt_add, BitVec.ofInt_toInt, BitVec.sub_eq_add_neg]
  rfl

theorem branchCounts : Sys2Proof.Claim.BranchCounts := by
  intro g d disp s hp hd hloop va v t
  have hva : direct s.me disp = va := direct_eq s.me disp
  have hv : s.me.s d - 1 = v := sub_one_eq _
  rw [exec_brc, planBrc]
  refine ⟨fun h0 => ?_, fun h0 hin => ?_, fun h0 hout => ?_⟩
  · refine ((planReady_scalar hp hd).commits_heard (i := .brc g d disp) rfl ?_).trans ?_
    · rw [loopFree_none hloop, hv, if_pos h0]; rfl
    · dsimp only
      rw [hv, if_pos h0]; rfl
  · refine ((planReady_scalar hp hd).commits_heard (i := .brc g d disp) rfl ?_).trans ?_
    · rw [loopFree_none hloop, hv, if_neg h0, hva, targetCheck_in hin]; rfl
    · dsimp only
      rw [hv, if_neg h0, hva]; rfl
  · rw [(planReady_scalar hp hd).faults
      (by rw [loopFree_none hloop, hv, if_neg h0, hva, targetCheck_out hout]; rfl) rfl, BitVec.ofNat_toNat,
      BitVec.setWidth_eq]

/-! ### Jumps through the target table (R91, R150, R317) -/

section Table

variable {x : Ctx} {i : Dword} {pa : Nat}

theorem tableEntry_past (hi : x.seg.ntgt.toNat ≤ i.toNat) :
    tableEntry s x i = (.fault { code := 0x0C, detail := 1, va := i.setWidth 48 }, 0) := if_pos hi

theorem tableShut_past (hi : x.seg.ntgt.toNat ≤ i.toNat) : tableShut s x i = false := by
  simp [tableShut, Nat.not_lt.2 hi]

/-- An entry whose die has no share left for the tenant is waited for (R91). -/
theorem tableShut_shut (hi : i.toNat < x.seg.ntgt.toNat)
    (hx : s.xlate s.cur.1 (ctxWaiter s.cur.2) s.here.tenant (x.tableVa i.toNat) .fetch = .ok pa)
    (ho : s.dramOpen (some s.here.tenant) pa = false) : tableShut s x i = true := by
  simp [tableShut, hi, hx, ho]

end Table

/-- A plan that is frozen of itself waits (R38). -/
theorem freezes_frozen {p : Plan} (h : p.frozen = true) : p.freezes s = true := by
  simp [Plan.freezes, h]

/-- A jump that performs, whose table entry need not be waited for, is ready with its index. -/
theorem planReady_jump {a : SReg} (hp : Performs g s) (ha : ScalarReady s a) (ho : tableShut s s.me (s.me.s a) = false)
    {c : Ctx → Check} {m : Ctx → State → State} :
    PlanReady g s fun x => { reads := rS x a, frozen := tableShut s x (x.s a), check := c x, commit := m x } :=
  ⟨hp, ⟨rfl, rfl, ho, rfl, rfl, rfl⟩, sourceReady_scalar ha⟩

theorem jumpThroughTable : Sys2Proof.Claim.JumpThroughTable := by
  intro g a s hp ha hloop
  rw [exec_jmp, planJmp]
  refine ⟨fun pa hi => ?_, fun hi => ?_⟩
  · intro entry hx va
    refine ⟨fun hshut => ?_, fun hopen => ?_⟩
    · refine runPlan_waits ?_
      rw [gplan_true hp.1]
      exact freezes_frozen (tableShut_shut hi hx hshut)
    · have ho := tableShut_open hx hopen
      have he := tableEntry_ok hi hx
      refine ⟨fun hpois => ?_, fun hpois => ?_⟩
      · rw [(planReady_jump hp ha ho).faults (by rw [loopFree_none hloop, he, hpois]; rfl) rfl]
        exact congrArg (fun n => faultsAs s 5 { code := 0x0D, detail := 4, va := BitVec.ofNat 48 n }) (Nat.mul_comm _ _)
      · rw [hpois] at he
        refine ⟨fun hin => ?_, fun hout => ?_⟩
        · refine ((planReady_jump hp ha ho).commits_heard (i := .jmp g a) rfl ?_).trans ?_
          · rw [loopFree_none hloop, he]; exact targetCheck_in hin
          · dsimp only
            rw [he]; rfl
        · rw [(planReady_jump hp ha ho).faults (by rw [loopFree_none hloop, he]; exact targetCheck_out hout) rfl,
            BitVec.ofNat_toNat, BitVec.setWidth_eq]
  · exact (planReady_jump hp ha (tableShut_past hi)).faults (by rw [loopFree_none hloop, tableEntry_past hi]; rfl) rfl

/-! ### Loops (R151 to R153) -/

section Body

variable {x : Ctx} {len stop : Nat}

/-- The checks of a loop whose body has been read, with legal operands. -/
theorem bodyCheck_read (hend : x.bodyEnd x.npc.toNat len = .ok stop) (hsize : stop - x.npc.toNat ≤ 4096)
    (hloop : x.loop = none) : bodyCheck x len false = (.ok, BitVec.ofNat 48 stop) := by
  simp [bodyCheck, bodyFetch, bodyRange, hend, loopFree_none hloop, Nat.not_lt.2 hsize]

/-- A failing fetch of the body is the first fault of a loop. -/
theorem bodyCheck_fails {f : FaultInfo} {b : Nat} {bad : Bool} (hend : x.bodyEnd x.npc.toNat len = .error (.fail f b)) :
    (bodyCheck x len bad).1 = .fault f := by
  simp [bodyCheck, bodyFetch, hend]

theorem bodyCheck_nested {bad : Bool} (hend : x.bodyEnd x.npc.toNat len = .ok stop) (hloop : x.loop.isSome = true) :
    (bodyCheck x len bad).1 = .fault { code := 0x02 } := by
  simp [bodyCheck, bodyFetch, hend, loopFree_some hloop]

end Body

/-- Two changes of the issuing context that agree on it. -/
theorem State.modMe_congr {f h : Ctx → Ctx} (e : f s.me = h s.me) : s.modMe f = s.modMe h :=
  congrArg (s.setCtx s.cur.1 s.cur.2) e

/-- The loop buffer with the body that begins at an address and ends at another. -/
def Ctx.bodyCells (x : Ctx) (e : Addr) : List Host.Cell :=
  wrBytes [] x.npc.toNat (rdBytes x.code x.npc.toNat (e.toNat - x.npc.toNat))

theorem startLoop_runs {counts : List Nat} (stop : Addr) (h : ∀ n ∈ counts, n ≠ 0) :
    startLoop counts stop s = s.modMe fun x => { x with
      loop := some ⟨x.npc, stop, counts, counts.map fun _ => 0, some (x.bodyCells stop)⟩ } := by
  have hany : counts.any (· == 0) = false := by rw [List.any_eq_false]; simpa using h
  rw [startLoop, hany]
  rfl

/-- A count of zero skips the body (R151). -/
theorem startLoop_skips {counts : List Nat} (stop : Addr) (h : 0 ∈ counts) :
    startLoop counts stop s = s.modMe fun x => { x with npc := stop } := by
  have hany : counts.any (· == 0) = true := List.any_eq_true.2 ⟨0, h, rfl⟩
  rw [startLoop, hany]
  rfl

theorem rN_noScalar (k : NReg) : ∀ r ∈ rN k, ∀ e, r.1 ≠ .s e := by
  intro r hr e
  obtain rfl : r = _ := by simpa [rN] using hr
  simp

theorem sourceReady_nest {k : NReg} (h : NestReady s k) : ∀ r ∈ rN k, SourceReady s r := by
  intro r hr
  obtain rfl : r = _ := by simpa [rN] using hr
  exact ⟨Ctx.awaits_nest _ _, by simpa [State.srcPoisoned, NestReady] using h, by simp⟩

/-- A plan of a guarded operation that reads one nest register. -/
theorem planReady_nest (hp : Performs g s) {k : NReg} (hk : NestReady s k) {c : Ctx → Check} {m : Ctx → State → State} :
    PlanReady g s fun x => { reads := rN k, check := c x, commit := m x } :=
  ⟨hp, ⟨rfl, rfl, rfl, rfl, rfl, rfl⟩, sourceReady_nest hk⟩

/-- A loop's checks are made before its sources are looked at for poison, which a nest register is never late for. -/
theorem loop_faults {k : NReg} {levels : BitVec 3} {len : BitVec 6} {f : FaultInfo} (hp : performs g s.me = true)
    (hf : ¬ HoldWaits s f) (hc : ∀ bad, (bodyCheck s.me len.toNat bad).1 = .fault f) :
    exec (.loop g k levels len) s = faultsAs s 5 f := by
  rw [exec_loop, planLoop, gplan_true hp]
  refine runPlan_faults (Plan.Plain.freezes_arrived (Plan.Plain.reading ⟨rfl, rfl, rfl, rfl, rfl, rfl⟩ _) ?_) rfl ?_ ?_
  · intro r hr
    rcases List.mem_append.1 hr with hr | hr
    · rw [(mem_rP.1 hr).2, Ctx.awaits_pred]
    · obtain rfl : r = _ := by simpa [rN] using hr
      exact Ctx.awaits_nest _ _
  · rw [checks_reads rfl]
    exact congrArg (Check.and · _) (hc _)
  · rw [holdWaits_iff, Bool.not_eq_true] at hf
    exact hf

theorem loopsStart : Sys2Proof.Claim.LoopsStart := by
  intro s len h1 h32 at_ body
  have hlen : (decide (len.toNat < 1) || decide (32 < len.toNat)) = false := by
    simp [Nat.not_lt.2 h1, Nat.not_lt.2 h32]
  refine ⟨fun stop hend hsize hloop => ?_,
    fun f b g k levels hend hp hf => loop_faults hp hf fun bad => bodyCheck_fails hend,
    fun stop g k levels hend hloop hp => loop_faults hp (by simp) fun bad => bodyCheck_nested hend hloop⟩
  intro e
  have hcheck := bodyCheck_read hend hsize hloop
  refine ⟨fun g k levels hp hk hl1 hl6 => ?_, fun g a hp ha hlt => ?_⟩
  · have hbad : (decide (levels.toNat < 1) || decide (6 < levels.toNat) || decide (len.toNat < 1) ||
        decide (32 < len.toNat)) = false := by
      rw [Bool.or_assoc, hlen]; simp [Nat.not_lt.2 hl1, Nat.not_lt.2 hl6]
    rw [exec_loop, planLoop]
    refine ((planReady_nest hp hk).commits_noScalar (rN_noScalar k) (by rw [hbad, hcheck])).trans ?_
    dsimp only
    rw [hbad, hcheck, startLoop_runs _ (by simp [nestCnt])]
    refine congrArg (fun u : State => Host.Outcome.next u.finish) (State.modMe_congr ?_)
    have zeros (f : Nat → Nat) (n : Nat) : ((List.range n).map f).map (fun _ => 0) = List.replicate n 0 := by
      rw [List.map_const', List.length_map, List.length_range]
    rw [zeros]
    rfl
  · intro t
    have hbad : (decide (len.toNat < 1) || decide (32 < len.toNat) || decide (2 ^ 32 ≤ (s.me.s a).toNat)) = false := by
      rw [hlen, decide_eq_false (Nat.not_le.2 hlt)]; rfl
    have hme : ({ t.me with unread := s.me.unread } : Ctx) = s.me := (heard_same (.loopx g a len) s).2.1
    have hrun : exec (.loopx g a len) s = .next (startLoop [(s.me.s a).toNat] e t).finish := by
      rw [exec_loopx, planLoopx]
      refine ((planReady_scalar hp ha).commits_heard (i := .loopx g a len) rfl (by rw [hbad, hcheck])).trans ?_
      dsimp only
      rw [hbad, hcheck]
    refine ⟨fun h0 => ?_, fun h0 => ?_⟩
    · have hne : (s.me.s a).toNat ≠ 0 := fun h => h0 (BitVec.eq_of_toNat_eq h)
      rw [hrun, startLoop_runs _ (by simpa using hne)]
      refine congrArg (fun u : State => Host.Outcome.next u.finish) (State.modMe_congr ?_)
      have hcells : t.me.bodyCells e = s.me.bodyCells e := (congrArg (Ctx.bodyCells · e) hme :)
      rw [hcells]
      rfl
    · rw [hrun, startLoop_skips _ (by simp [h0])]

/-! ### Indices (R152) -/

section Indices

variable {x : Ctx} {l : Loop} {e n : Nat}

/-- The places of a loop's indices. -/
def Loop.places (l : Loop) : List Nat := (List.range l.idx.length).map (2 + ·)

theorem Loop.mem_places : e ∈ l.places ↔ 2 ≤ e ∧ e < 2 + l.idx.length := by
  simp only [Loop.places, List.mem_map, List.mem_range]
  constructor
  · rintro ⟨i, hi, rfl⟩; omega
  · exact fun h => ⟨e - 2, by omega, by omega⟩

theorem setIdx_eq (h : x.loop = some l) : x.setIdx =
    { l.places.foldl (fun y e => y.cancel (.s e)) x with
      scal := (List.range l.idx.length).foldl (fun m i => ains m (2 + i) (BitVec.ofNat 64 (l.idx.getD i 0))) x.scal
      pend := x.pend.filter fun p => match p.dest with | .s e => !l.places.contains e | _ => true
      sPoison := x.sPoison.filter fun e => !l.places.contains e
      ldsPoison := x.ldsPoison.filter fun e => !l.places.contains e.1 } := by
  rw [Ctx.setIdx, h]
  rfl

theorem cancel_awaits {y : Ctx} {e' : Nat} (h : y.awaits (.s e) = false ∨ e' = e) : (y.cancel (.s e')).awaits (.s e) = false := by
  simp only [Ctx.awaits, Ctx.cancel, List.any_map, List.any_eq_false, Function.comp_apply] at h ⊢
  intro b hb
  rcases h with h | rfl
  · have := h b hb
    cases hd : b.dest <;> simp_all [Sb.cancel]
    split <;> simp_all
  · cases hd : b.dest <;> simp_all [Sb.cancel]
    split <;> simp_all

/-- A place that some cancellation names awaits nothing more. -/
theorem foldl_cancel_awaits (es : List Nat) (y : Ctx) (h : y.awaits (.s e) = false ∨ e ∈ es) :
    (es.foldl (fun y e => y.cancel (.s e)) y).awaits (.s e) = false := by
  induction es generalizing y with
  | nil => exact h.resolve_right (by simp)
  | cons a es ih =>
    refine ih _ ?_
    rw [List.mem_cons, ← or_assoc] at h
    exact h.imp_left fun h => cancel_awaits (h.imp_right Eq.symm)

theorem foldl_cancel_fb (es : List Nat) (y : Ctx) : (es.foldl (fun y e => y.cancel (.s e)) y).fb = y.fb := by
  induction es generalizing y with
  | nil => rfl
  | cons a es ih => exact ih _

theorem setIdx_phys (h : x.loop = some l) (r : SReg) : x.setIdx.phys r = x.phys r := by
  rw [setIdx_eq h]
  simp only [Ctx.phys, foldl_cancel_fb]

/-- The scalars that a pass begins with: its indices in their places, and the others as they were. -/
theorem setIdx_scal (h : x.loop = some l) (m : Nat) : aget x.setIdx.scal m 0 =
    if m ∈ l.places then BitVec.ofNat 64 (l.idx.getD (m - 2) 0) else aget x.scal m 0 := by
  rw [setIdx_eq h]
  have fold (n : Nat) : aget ((List.range n).foldl (fun q i => ains q (2 + i) (BitVec.ofNat 64 (l.idx.getD i 0))) x.scal) m 0 =
      if 2 ≤ m ∧ m < 2 + n then BitVec.ofNat 64 (l.idx.getD (m - 2) 0) else aget x.scal m 0 := by
    induction n with
    | zero => rw [if_neg (by omega)]; rfl
    | succ n ih =>
      rw [List.range_succ, List.foldl_append, List.foldl_cons, List.foldl_nil]
      by_cases hm : m = 2 + n
      · rw [hm, aget_ains_same, if_pos (by omega), Nat.add_sub_cancel_left]
      · rw [aget_ains_ne _ _ _ hm, ih]
        exact if_congr (by omega) rfl rfl
  exact (fold _).trans (if_congr Loop.mem_places.symm rfl rfl)

theorem loopIndices : Sys2Proof.Claim.LoopIndices := by
  refine ⟨fun x l h h6 => ⟨fun n r hn hr => ?_, fun r hr => ?_⟩, fun _ _ _ _ => rfl, fun x l ix h hn hi => ?_⟩
  · have hin : 2 + n ∈ l.places := Loop.mem_places.2 (by omega)
    have hr0 : r ≠ 0 := by rintro rfl; simp at hr; omega
    refine ⟨?_, ?_, ?_, fun p hp => ?_, ?_⟩
    · rw [Ctx.s, if_neg hr0, setIdx_phys h, phys_low (by omega), hr, setIdx_scal h, if_pos hin, Nat.add_sub_cancel_left]
    · rw [setIdx_eq h]
      simp [hin]
    · rw [setIdx_eq h]
      simp only [ahas, List.any_filter, List.any_eq_false]
      intro q hq
      by_cases he : q.1 = 2 + n <;> simp [he, hin]
    · rw [setIdx_eq h] at hp
      have hp := (List.mem_filter.1 hp).2
      intro hd
      rw [hd] at hp
      simp [hin] at hp
    · rw [setIdx_eq h]
      exact foldl_cancel_awaits _ _ (.inr hin)
  · unfold Ctx.s
    split
    · rfl
    · rw [setIdx_phys h, setIdx_scal h, if_neg]
      rw [Loop.mem_places]
      by_cases h16 : r.toNat < 16
      · rw [phys_low h16]; omega
      · rw [phys_window (Nat.not_lt.1 h16)]; omega
  · rw [endBundle_eq, loopStep_again h hn hi]
    exact ⟨rfl, rfl⟩

end Indices

/-- Settles O9: the plans of the transfers, whose checks decide by the target table and the code range; a loop's by its body;
and the indices of a pass written over whatever was in flight to them. -/
theorem transfersTaken : Obligations.TransfersTaken :=
  ⟨branchTransfers, branchCounts, jumpThroughTable, loopsStart, loopIndices⟩

end Sys2Proof.Machine
end

section
/-! Operations that are no local store leave memory alone (R71, R92, R120). -/
namespace Sys2Proof.Machine

variable {s t : State} {i : Instr} {g : Guard} {h : VHead} {d : VReg}

/-! ### Plans that leave memory alone -/

/-- A plan that writes nothing to memory, neither in the program phase nor when it commits. -/
structure Plan.KeepsMem (p : Plan) : Prop where
  commit : ∀ t, (p.commit t).mem = t.mem
  stores : p.stores = []

theorem keepsMem_empty : ({} : Plan).KeepsMem := ⟨fun _ => rfl, rfl⟩

theorem keepsMem_gplan {f : Ctx → Plan} (hc : ∀ x t, ((f x).commit t).mem = t.mem) (hs : ∀ x, (f x).stores = []) :
    (gplan g s f).KeepsMem := by
  unfold gplan
  split
  · exact ⟨hc _, hs _⟩
  · exact ⟨fun _ => rfl, rfl⟩

/-- One that keeps memory whichever way a choice of its commit goes. -/
theorem mem_ite {c : Prop} [Decidable c] {u v : State} (hu : u.mem = t.mem) (hv : v.mem = t.mem) :
    (if c then u else v).mem = t.mem := by
  split
  · exact hu
  · exact hv

theorem wrsysDo_mem (n : Nat) (v : Dword) (t : State) : (wrsysDo n v t).mem = t.mem := by
  unfold wrsysDo
  split <;> rfl

theorem seeAcc_mem (t : State) (pa : Nat) (en : BitVec 16) : (t.seeAcc pa en).2.mem = t.mem := by
  have hsee (r : State) (i : Nat) : (r.see (t.access .loc 1) (pa + 4 * i) 4).2.mem = r.mem := by
    obtain ⟨fc, pc, ps, pr, h⟩ := see_quiet r (t.access .loc 1) (pa + 4 * i) 4
    rw [h]
  unfold State.seeAcc
  dsimp only
  split
  · rfl
  · exact foldl_leaves (fun r : Line × State => r.2.mem)
      (fun r i => (r.1 ||| (BitVec.ofNat 512 (leNat (r.2.see (t.access .loc 1) (pa + 4 * i) 4).1) <<< (32 * i)),
        (r.2.see (t.access .loc 1) (pa + 4 * i) 4).2)) (fun r i => hsee r.2 i) (laneList en) (0, t)

theorem keepsMem_vload {bad : Bool} {f : VmForm} : (planVload h d bad f s).KeepsMem :=
  ⟨fun _ => mem_ite rfl rfl, rfl⟩

theorem keepsMem_vlda {k : SReg} {off : BitVec 9} : (planVlda h d k off s).KeepsMem :=
  ⟨fun t => seeAcc_mem t _ _, rfl⟩

theorem keepsMem_push {p : PushArgs} {rs : Ctx → List (Dest × BitVec 16)} {bad : Bool} {at_ : Ctx → Nat → Dword} :
    (planPush g p rs bad at_ s).KeepsMem :=
  keepsMem_gplan (fun _ t => by dsimp only; exact foldl_leaves State.mem _ (by exact fun _ _ => rfl) _ t) fun _ => rfl

theorem keepsMem_stg {p : StgArgs} {rs : Ctx → BitVec 16 → List (Dest × BitVec 16)} {bad : Bool} {n : Nat}
    {at_ : Ctx → Nat → Dword} : (planStg' g p rs bad n at_ s).KeepsMem :=
  keepsMem_gplan (fun _ t => by dsimp only; exact foldl_leaves State.mem _ (by exact fun _ _ => rfl) _ t) fun _ => rfl

section Families

variable {dest a b : SReg} {r : AReg} {src : List SReg} {more : List (Dest × BitVec 16)} {lat : Nat} {ch : Chan}
  {rs : Ctx → List (Dest × BitVec 16)}

theorem keepsMem_aluR {f : Ctx → Dword} : (planAluR g dest src more lat f s).KeepsMem :=
  keepsMem_gplan (fun _ _ => rfl) fun _ => rfl

theorem keepsMem_alu {f : Ctx → Dword} : (planAlu g dest src lat f s).KeepsMem := keepsMem_aluR

theorem keepsMem_pred {p : PReg} {f : Ctx → Bool} : (planPred g p src more f s).KeepsMem :=
  keepsMem_gplan (fun _ _ => rfl) fun _ => rfl

theorem keepsMem_addr {f : Ctx → Dword} : (planAddr g r src more f s).KeepsMem :=
  keepsMem_gplan (fun _ _ => rfl) fun _ => rfl

theorem keepsMem_div {f : Dword → Dword → Dword} : (planDiv g dest a b f s).KeepsMem :=
  keepsMem_gplan (fun _ _ => rfl) fun _ => rfl

theorem keepsMem_rmw {p : AmoArgs} {k : Ctx → ReqKind} : (planRmw g p rs k s).KeepsMem :=
  keepsMem_gplan (fun _ _ => rfl) fun _ => rfl

theorem keepsMem_amo {p : AmoArgs} {k : BitVec 4} : (planAmo k g p s).KeepsMem := keepsMem_rmw

theorem keepsMem_mx {f : Ctx → List (Dest × BitVec 16) × Check × (Nat → MxRes) × Check × MxKind × FlagRef × BitVec 4} :
    (planMx g s f).KeepsMem := keepsMem_gplan (fun _ _ => rfl) fun _ => rfl

theorem keepsMem_load {l : LReg} {done : FlagRef} {cls : BitVec 4} {w : Option LWidth} :
    (planLoad g a b l done cls w s).KeepsMem := keepsMem_mx

theorem keepsMem_copy {p : CpyArgs} {k : Ctx → CopyKind} : (planCopy g p rs k s).KeepsMem :=
  keepsMem_gplan (fun _ _ => rfl) fun _ => rfl

theorem keepsMem_stat {clr : Bool} : (planStat g dest ch clr s).KeepsMem :=
  keepsMem_gplan (fun _ _ => mem_ite rfl rfl) fun _ => rfl

theorem keepsMem_use {n : BitVec 11} {set : Bool} : (planUse g a n set s).KeepsMem :=
  keepsMem_gplan (fun _ _ => rfl) fun _ => rfl

theorem keepsMem_enqueue {st : Ctx → Option Nat} {q : BitVec 4} : (planEnqueue g r rs st q s).KeepsMem :=
  keepsMem_gplan (fun _ _ => rfl) fun _ => rfl

end Families

/-! ### Every operation but the local stores -/

theorem planOf_keepsMem (s : State) (hi : storesAtIssue i = false) : (planOf i s).KeepsMem := by
  cases i
  case issueCycle | runmaxExpiry | bundleIssue | bankConflictRetry | fetchComplete | segmentCheck | fixedLatencyLanding |
    scoreboardLanding | tlbWalkComplete | memRequestService | loadLineLands | globalAccessPerform | spillFillComplete |
    waitgccWake | laqEntryFree | copyCommandStart | copyLine | copyComplete | bulkFrameSlot | matrixCommandStart |
    matrixBeat | loaderBeat | accRowBeat | matrixCommandDone | aConsumed | barrierComplete | takeRecord | admitLaunch |
    coreAssign | contextStart | dispatchRestart | nxuService | launchAppend | launchFail | completionWrite | passStart |
    passEnd | pmarkStop | contextSaved | pmbExpiry | zeroingDone | hostWrite | hostRead | ideIntegrityFail | peerInbound |
    portTrain | queueDescriptorWrite | coreConfigWrite | slotTableWrite | ttrootWrite | go | goStep | decline | measext |
    tlockWrite | tgo | counterRead | registerWrite | supplySag | thermalTrip | bootStage | getMeasurements | keyExchange |
    keyUpdate | endSession | vendorDefinedRequest | ideKm | portDown | supplyRestored | gccTick | powerOnReset |
    driverReset | preempt | resume | abort | scrub | stampreset | coresave | coreload | shootdown | finishRequest |
    finishRemove | powerWindowEnd | nop => exact keepsMem_empty
  all_goals dsimp only [planOf]
  case vst | vsts | vstx | vsta | stsL => cases hi
  case vld | vlds | vldx => exact keepsMem_vload
  case vlda => exact keepsMem_vlda
  case pushld | pushlds | pushldx => exact keepsMem_push
  case stg | stgs | stgx => exact keepsMem_stg
  case brc | fence | trexcl => exact keepsMem_gplan (fun _ _ => mem_ite (by rfl) (by rfl)) fun _ => by rfl
  case wrsys => exact keepsMem_gplan (fun _ t => wrsysDo_mem _ _ t) fun _ => by rfl
  case fadd | fsub | fmul | fma | fms | fnma | fmin | fmax | fabs | fneg | dot2 | iadd | isub | imul | imulh | imad | imin |
    imax | iminu | imaxu | vand | vor | vxor | vandn | vshl | vshr | vsar | lmul | lrcp | lsqrt | mov | vmovi | cvt | bpack |
    bunpack | rcp | rsq | sqrt | div | exp2 | log2 | fcmp | icmp | icmpu | vsel | shuf | rot | hadd | hmax | mand | mor |
    mxor | mnot | msetScalar | mset | xmov | xbc => exact ⟨fun _ => rfl, rfl⟩
  case add | sub | addi | mul | mulhu | mulhs | and | or | xor | andn | shl | shr | sar | shli | shri | sari | min | max |
    minu | maxu | clz | popc | movi => exact keepsMem_alu
  case divu | divuRem | divs | divsRem => exact keepsMem_div
  case movhi => exact keepsMem_alu
  case sel | smova => exact keepsMem_aluR
  case cmp | cmpi | pand | por | pxor => exact keepsMem_pred
  case aadd | aaddi | alea | aleaSeg | amov => exact keepsMem_addr
  case amoAdd | amoFadd | amoMin | amoMax | amoMinu | amoMaxu | amoAnd | amoOr | amoXor | amoXchg => exact keepsMem_amo
  case cas => exact keepsMem_rmw
  case mma | mmag | accz | accwr | accrd => exact keepsMem_mx
  case latch | latcht => exact keepsMem_load
  case cpy | cpyt | cpym | cpsend => exact keepsMem_copy
  case cpstat | cpstatClr => exact keepsMem_stat
  case buse | bfree => exact keepsMem_use
  case launch | relaunch => exact keepsMem_enqueue
  all_goals exact keepsMem_gplan (fun _ _ => by rfl) fun _ => by rfl

theorem popAll_mem (s : State) (qs : List Cl) : (s.popAll qs).mem = s.mem := mem_ite rfl rfl

theorem operationsKeepMemory_claim : Sys2Proof.Claim.OperationsKeepMemory := by
  intro i s t a hi h hs he
  obtain ⟨hcommit, hstores⟩ := planOf_keepsMem s hs
  rw [operationsComplete i s hi h] at he
  obtain rfl : _ = t := by injection he
  have hmem : ((planOf i s).apply s).mem = s.mem := by
    rw [Plan.apply, hcommit, popAll_mem, hstores]
    exact heard_mem i s
  rw [finish_mem, hmem]

/-- Settles O28: no plan but a local store's writes to memory, neither by its accesses nor when it commits. -/
theorem operationsKeepMemory : Obligations.OperationsKeepMemory := operationsKeepMemory_claim

end Sys2Proof.Machine
end

section
/-! Pushes into the load-address queues (R79 to R81, R211). -/
namespace Sys2Proof.Machine

variable {s : State} {g : Guard} {i : Instr} {p : PushArgs} {f : Ctx → Nat → Nat} {q : Cl}

/-! ### What a push sends -/

/-- The entry that a request adds to its queue. -/
def pushedEntry (r : Req) (n : Nat) : LaqEntry := ⟨n, r.va, r.pa, none, false, false, false, r.pos, r.cls⟩

/-- A queue with one more entry. -/
def Core.push (q : Cl) (e : LaqEntry) (x : Core) : Core := { x with laqs := ains x.laqs q.toNat (x.laq q ++ [e]) }

theorem pushOne_eq (q : Cl) (r : Req) (s : State) :
    pushOne q r s = (s.modHere (Core.push q (pushedEntry r s.nextId))).send r := rfl

theorem pushOne_reqs (q : Cl) (r : Req) (s : State) : (pushOne q r s).reqs = s.reqs ++ [{ r with id := s.nextId }] := rfl

theorem pushOne_here (q : Cl) (r : Req) (s : State) : (pushOne q r s).here = s.here.push q (pushedEntry r s.nextId) := by
  rw [pushOne_eq]
  exact s.here_modHere _

theorem pushOne_laq (q : Cl) (r : Req) (s : State) : (pushOne q r s).here.laq q = s.here.laq q ++ [pushedEntry r s.nextId] := by
  rw [pushOne_here]
  exact aget_ains_same _ _ _ _

theorem pushOne_me (q : Cl) (r : Req) (s : State) : (pushOne q r s).me = s.me :=
  State.me_modHere (f := Core.push q (pushedEntry r s.nextId)) rfl

/-- Some requests pushed into a queue, in their order. -/
def pushAll (q : Cl) (rs : List Req) (s : State) : State := rs.foldl (fun t r => pushOne q r t) s

/-- Pushing sends the requests, each under a number of its own, with an entry of the same number for each. -/
theorem pushAll_sends (q : Cl) (rs : List Req) (s : State) : ∃ sent es, (pushAll q rs s).reqs = s.reqs ++ sent ∧
    (pushAll q rs s).here.laq q = s.here.laq q ++ es ∧
    sent.map (fun r => { r with id := 0 }) = rs.map (fun r => { r with id := 0 }) ∧
    es.map (fun e => (e.id, e.landed, e.dropped)) = sent.map (fun r => (r.id, false, false)) := by
  induction rs generalizing s with
  | nil => exact ⟨[], [], (List.append_nil _).symm, (List.append_nil _).symm, rfl, rfl⟩
  | cons r rs ih =>
    obtain ⟨sent, es, hreqs, hlaq, hsent, hes⟩ := ih (pushOne q r s)
    refine ⟨{ r with id := s.nextId } :: sent, pushedEntry r s.nextId :: es, ?_, ?_, ?_, ?_⟩
    · exact hreqs.trans (by rw [pushOne_reqs, List.append_assoc]; rfl)
    · exact hlaq.trans (by rw [pushOne_laq, List.append_assoc]; rfl)
    · rw [List.map_cons, List.map_cons, hsent]
    · rw [List.map_cons, List.map_cons, hes]
      rfl

/-- Pushing changes no memory and no register. -/
theorem pushAll_keeps (q : Cl) (rs : List Req) (s : State) : (pushAll q rs s).mem = s.mem ∧ (pushAll q rs s).me = s.me ∧
    (pushAll q rs s).here.vregs = s.here.vregs := by
  induction rs generalizing s with
  | nil => exact ⟨rfl, rfl, rfl⟩
  | cons r rs ih =>
    obtain ⟨hmem, hme, hvregs⟩ := ih (pushOne q r s)
    exact ⟨hmem, hme.trans (pushOne_me q r s), hvregs.trans (by rw [pushOne_here]; rfl)⟩

/-! ### The plan of a push -/

/-- The requests of a push whose line j is at an address. -/
def pushReqs (p : PushArgs) (x : Ctx) (xs : List (Nat × Xl)) (t : State) : List Req :=
  ((List.range (p.n.toNat + 1)).zip xs).map fun ix =>
    mkReq t x ix.1 p.cls ix.2.1 (xlPa ix.2.2) 64 (.line p.cl) (t.gcc + p.land.setWidth 64) true

/-- The translations of a push's lines. -/
def pushXls (p : PushArgs) (s : State) (addr : Nat → Dword) : List (Nat × Xl) :=
  s.xlates .read ((List.range (p.n.toNat + 1)).map fun j => (addr j).toNat)

theorem planPush_commit {reads : Ctx → List (Dest × BitVec 16)} {bad : Bool} {addr : Ctx → Nat → Dword}
    (hp : performs g s.me = true) (t : State) : (planPush g p reads bad addr s).commit t =
      pushAll p.cl (pushReqs p s.me (pushXls p s (addr s.me)) t) t := by
  rw [planPush, gplan_true hp]
  exact (List.foldl_map (f := fun ix : Nat × Nat × Xl => mkReq t s.me ix.1 p.cls ix.2.1 (xlPa ix.2.2) 64 (.line p.cl)
    (t.gcc + p.land.setWidth 64) true) (g := fun u r => pushOne p.cl r u)).symm

/-- The address of the line that an index of a vector names. -/
theorem lineAt_toNat (a v : Dword) (j : Nat) : (a + ((v.extractLsb' (16 * j) 16).setWidth 64 <<< 6)).toNat =
    (a.toNat + 64 * (v.toNat / 2 ^ (16 * j) % 2 ^ 16)) % 2 ^ 64 := by
  have hlt : v.toNat / 2 ^ (16 * j) % 2 ^ 16 < 2 ^ 16 := Nat.mod_lt _ (by decide)
  rw [BitVec.toNat_add, BitVec.toNat_shiftLeft, BitVec.toNat_setWidth, BitVec.extractLsb'_toNat, Nat.shiftRight_eq_div_pow,
    Nat.shiftLeft_eq]
  omega

/-- Each push is one plan over the addresses of its row. -/
theorem push_plan (hr : pushRow i = some (g, p, f)) : IsOperation i ∧ ∃ reads bad addr,
    planOf i s = planPush g p reads bad addr s ∧ ∀ j, (addr s.me j).toNat = f s.me j % 2 ^ 64 := by
  cases i <;> cases hr
  case pushld =>
    exact ⟨rfl, fun _ => [], false, fun x j => x.a p.a + BitVec.ofNat 64 (64 * j), rfl, fun j => by simp [BitVec.toNat_add]⟩
  case pushlds b =>
    exact ⟨rfl, (rS · b), false, fun x j => x.a p.a + BitVec.ofNat 64 j * x.s b, rfl, fun j => by
      simp [BitVec.toNat_add, BitVec.toNat_mul]⟩
  case pushldx b =>
    exact ⟨rfl, (rS · b), 4 ≤ p.n.toNat, fun x j => x.a p.a + (((x.s b).extractLsb' (16 * j) 16).setWidth 64 <<< 6), rfl,
      lineAt_toNat (s.me.a p.a) (s.me.s b)⟩

/-- The fields of a request that a push determines. -/
def pushFields (r : Req) := (r.va.toNat, r.len, r.kind, r.deadline, r.core, r.ctx, r.cls)

theorem pushReqs_fields (p : PushArgs) (s t : State) (x : Ctx) (addr : Nat → Dword) :
    (pushReqs p x (pushXls p s addr) t).map pushFields =
      (List.range (p.n.toNat + 1)).map fun j => ((addr j).toNat % 2 ^ 48, 64, ReqKind.line p.cl,
        t.gcc + p.land.setWidth 64, t.cur.1, t.cur.2, p.cls) := by
  have hzip : (List.range (p.n.toNat + 1)).zip (pushXls p s addr) = (List.range (p.n.toNat + 1)).map fun j =>
      (j, (addr j).toNat, s.xlate s.cur.1 (ctxWaiter s.cur.2) s.here.tenant (addr j).toNat .read) := by
    rw [pushXls, State.xlates, List.map_map, List.map_prod_left_eq_zip]
    rfl
  rw [pushReqs, hzip, List.map_map, List.map_map]
  refine List.map_congr_left fun j _ => ?_
  simp only [Function.comp_apply, pushFields, mkReq, BitVec.toNat_ofNat]

theorem pushesRequestLines : Sys2Proof.Claim.PushesRequestLines := by
  intro i g p f s hr hp hi he
  obtain ⟨hop, reads, bad, addr, hplan, haddr⟩ := push_plan (s := s) hr
  have hpops : (planOf i s).pops = [] := by rw [hplan, planPush, gplan_true hp]; rfl
  have hstores : (planOf i s).stores = [] := by rw [hplan, planPush, gplan_true hp]; rfl
  have hquiet := (consumptionIsQuiet i s).1
  obtain ⟨hcur, hme, hhere⟩ := heard_same i s
  have hrun := issues_commits hop hi hpops hstores
  rw [hplan, planPush_commit hp] at hrun
  obtain ⟨sent, es, hreqs, hlaq, hsent, hes⟩ := pushAll_sends p.cl (pushReqs p s.me (pushXls p s (addr s.me)) (heard i s)) (heard i s)
  obtain ⟨hmem, hkeep, hvregs⟩ := pushAll_keeps p.cl (pushReqs p s.me (pushXls p s (addr s.me)) (heard i s)) (heard i s)
  have hend : (pushAll p.cl (pushReqs p s.me (pushXls p s (addr s.me)) (heard i s)) (heard i s)).me.ending = false := by
    rw [hkeep, heard_ending]; exact he
  have hfields : sent.map pushFields = (pushReqs p s.me (pushXls p s (addr s.me)) (heard i s)).map pushFields := by
    have h := congrArg (List.map pushFields) hsent
    rwa [List.map_map, List.map_map] at h
  have hgcc : (heard i s).gcc = s.gcc := (congrArg State.gcc hquiet :)
  refine ⟨_, sent, es, hrun, ?_, ?_, ?_, hes, ?_, ?_, ?_, ?_⟩
  · rw [finish_runs hend, State.modMe_reqs, hreqs]
    exact congrArg (· ++ sent) (congrArg State.reqs hquiet :)
  · rw [finish_runs hend, State.here_modMe]
    refine hlaq.trans ?_
    exact congrArg (· ++ es) (congrArg (Core.laq · p.cl) hhere :)
  · refine hfields.trans ((pushReqs_fields p s (heard i s) s.me (addr s.me)).trans ?_)
    rw [hgcc, hcur]
    simp only [haddr]
  · rw [finish_mem, hmem]; exact heard_mem i s
  · rw [finish_runs hend, State.me_modMe, hkeep]; exact heard_scal i s
  · rw [finish_runs hend, State.me_modMe, hkeep]; exact (congrArg Ctx.pend hme :)
  · rw [finish_runs hend, State.here_modMe]
    exact hvregs.trans (congrArg Core.vregs hhere :)

/-! ### The queue's limit (R81) -/

theorem exec_pushld (g : Guard) (p : PushArgs) (s : State) : exec (.pushld g p) s = runPlan 2 (planPushld g p s) s := rfl

/-- Translations that all pass. -/
def AllPass (xs : List (Nat × Xl)) : Prop := ∀ x ∈ xs, ∃ pa, x.2 = .ok pa

theorem xlFail_pass {wr : Bool} {k : Nat → Bool} {xs : List (Nat × Xl)} (h : AllPass xs) : xlFail wr k xs = none := by
  rw [xlFail, List.find?_eq_none.2]
  · rfl
  · intro x hx
    obtain ⟨pa, hpa⟩ := h x hx
    simp [hpa]

theorem xlCheck_pass {wr : Bool} {xs : List (Nat × Xl)} (h : AllPass xs) : xlCheck wr xs = .ok := by
  have hno : xlMisses xs = [] := by
    refine List.filterMap_eq_nil_iff.2 fun x hx => ?_
    obtain ⟨pa, hpa⟩ := h x hx
    rw [hpa]
  simp [xlCheck, hno, xlFail_pass h]

theorem misaligned_none {vas : List Nat} {n : Nat} (h : ∀ a ∈ vas, a % n = 0) : misaligned vas n = .ok := by
  have hno : vas.find? (fun a => a % n != 0) = none := List.find?_eq_none.2 (by simpa using h)
  rw [misaligned, hno]

/-- The plan of PUSHLD where the queue is all that can stop it. -/
theorem pushld_checks (hown : s.me.owns p.cl = true) (ha : (s.me.a p.a).toNat % 64 = 0)
    (hx : AllPass (pushXls p s fun j => s.me.a p.a + BitVec.ofNat 64 (64 * j))) :
    (((illegalIf (!s.me.owns p.cl || false)).and (misaligned ((List.range (p.n.toNat + 1)).map fun j =>
      (s.me.a p.a + BitVec.ofNat 64 (64 * j)).toNat) 64)).and
        (xlCheck false (pushXls p s fun j => s.me.a p.a + BitVec.ofNat 64 (64 * j)))) = .ok := by
  rw [hown, misaligned_none, xlCheck_pass hx]
  · rfl
  · simp only [List.mem_map, List.mem_range, forall_exists_index, and_imp, forall_apply_eq_imp_iff₂, BitVec.toNat_add,
      BitVec.toNat_ofNat]
    intro j _
    omega

theorem pushQueueFull : Sys2Proof.Claim.PushQueueFull := by
  intro g p s hp hown ha hx q landed
  have hn : p.n.toNat + 1 ≤ 1024 := by have := p.n.isLt; omega
  have hpass : AllPass (pushXls p s fun j => s.me.a p.a + BitVec.ofNat 64 (64 * j)) := by
    intro x hm
    have := List.all_eq_true.1 hx x hm
    split at this
    · exact ⟨_, by assumption⟩
    · cases this
  have hchecks := pushld_checks hown ha hpass
  rw [exec_pushld, planPushld, planPush, gplan_true hp]
  have hsize : laqSize = 1024 := rfl
  refine ⟨fun hfull => ?_, fun hroom hlong => runPlan_waits ?_⟩
  · have hf : decide (laqSize - (p.n.toNat + 1) < landed) = true := decide_eq_true (by rw [hsize]; omega)
    refine Plan.Plain.faults_check (Plan.Plain.reading ⟨rfl, rfl, ?_, rfl, rfl, rfl⟩ _) (fun r hr => ?_) ?_ rfl
    · change (_ && !decide (laqSize - (p.n.toNat + 1) < landed)) = false
      rw [hf]
      simp
    · rcases List.mem_append.1 hr with hr | hr
      · rw [(mem_rP.1 hr).2, Ctx.awaits_pred]
      · obtain rfl : r = _ := by simpa [rA] using hr
        exact Ctx.awaits_addr _ _
    · refine (congrArg (Check.and · _) hchecks).trans ?_
      change faultIf (decide (laqSize - (p.n.toNat + 1) < landed)) 0x0A 0 1 = _
      rw [hf]
      rfl
  · have hf : decide (laqSize - (p.n.toNat + 1) < landed) = false := decide_eq_false (by rw [hsize]; omega)
    refine freezes_frozen ?_
    change (decide (laqSize < q.length + (p.n.toNat + 1)) && !decide (laqSize - (p.n.toNat + 1) < landed)) = true
    rw [hf, hsize]
    simpa using hlong

/-- Settles O21: a push is a fold of single pushes over the translations of its lines; its queue's limit decides where nothing
before it does. -/
theorem linesPushed : Obligations.LinesPushed := ⟨pushesRequestLines, pushQueueFull⟩

end Sys2Proof.Machine
end

section
/-! Nest registers, guards, channel status, in-use bits, exclusions and device-fed launches (R74, R220, R224 to R227, R231,
R232). -/
namespace Sys2Proof.Machine

variable {s : State} {g : Guard} {i : Instr}

/-! ### Operations that issue and change no memory -/

/-- An issuing operation with a guard commits in the state that its bundle's consumption leaves. -/
theorem guarded_commits {f : Ctx → Plan} (hi : IsOperation i) (h : Issues i s) (hp : performs g s.me = true)
    (hplan : planOf i s = gplan g s f) (hpops : (f s.me).pops = []) (hst : (f s.me).stores = []) :
    exec i s = .next ((f s.me).commit (heard i s)).finish := by
  have hf : planOf i s = (f s.me).reading (rP g.pred) := hplan.trans (gplan_true hp)
  rw [issues_commits hi h (by rw [hf]; exact hpops) (by rw [hf]; exact hst), hf]
  rfl

/-- One that reads no scalar and pops nothing consumes nothing. -/
theorem heard_noScalar {f : Ctx → Plan} (hp : performs g s.me = true) (hplan : planOf i s = gplan g s f)
    (hpops : (f s.me).pops = []) (hr : ∀ r ∈ (f s.me).reads, ∀ e, r.1 ≠ .s e) : heard i s = s := by
  have hf : planOf i s = (f s.me).reading (rP g.pred) := hplan.trans (gplan_true hp)
  rw [heard, hf]
  change s.consumeAll (rP g.pred ++ (f s.me).reads) (popped s.here (f s.me).pops) = s
  rw [hpops, popped_nil]
  refine consumeAll_noScalar fun r hm => ?_
  exact (List.mem_append.1 hm).elim (rP_noScalar _ r) (hr r)

/-- The check of an operation that issues has passed. -/
theorem issues_check {f : Ctx → Plan} (h : Issues i s) (hp : performs g s.me = true) (hplan : planOf i s = gplan g s f) :
    (f s.me).check = .ok := by
  have hf : planOf i s = (f s.me).reading (rP g.pred) := hplan.trans (gplan_true hp)
  obtain ⟨-, -, hc⟩ := h
  rw [hf, Plan.checks] at hc
  change ((f s.me).check.and _).and _ = _ at hc
  cases hk : (f s.me).check with
  | ok => rfl
  | _ => rw [hk] at hc; cases hc

theorem heard_cur (i : Instr) (s : State) : (heard i s).cur = s.cur := (heard_same i s).1

/-! ### Nest registers, guards and status (R220, R224, R225) -/

theorem exec_cparm (g : Guard) (ch : Chan) (lo hi : SReg) (s : State) :
    exec (.cparm g ch lo hi) s = runPlan 4 (planCparm g ch lo hi s) s := rfl

theorem exec_cpstat (g : Guard) (d : SReg) (ch : Chan) (s : State) :
    exec (.cpstat g d ch) s = runPlan 4 (planStat g d ch false s) s := rfl

/-- What a NESTLD that performs plans. -/
def nestldPlan (d : NReg) (cl : Cl) (j : VReg) (s : State) (x : Ctx) : Plan where
  reads := [(.v cl.toNat j.toNat, 0xFFFF)]
  check := illegalIf (!x.owns cl || 320 ≤ j.toNat)
  commit := fun t => t.result (.n d.toNat) (s.here.v' cl j) 4

theorem nestld_puts {d : NReg} {cl : Cl} {j : VReg} (hp : Performs g s) (h : Issues (.nestld g d cl j) s) :
    exec (.nestld g d cl j) s =
      .next (s.result (.n d.toNat) (aget s.here.vregs (320 * cl.toNat + j.toNat) 0) 4).finish := by
  rw [guarded_commits (i := .nestld g d cl j) (f := nestldPlan d cl j s) rfl h hp.1 rfl rfl rfl,
    heard_noScalar (i := .nestld g d cl j) (f := nestldPlan d cl j s) hp.1 rfl rfl (by simp [nestldPlan])]
  rfl

theorem cparm_arms {ch : Chan} {lo hi : SReg} (hp : Performs g s) (hlo : ScalarReady s lo) (hhi : ScalarReady s hi)
    (hch : s.me.holds s.cur.2 ch = true) (hlo64 : (s.me.s lo).toNat % 64 = 0) (hhi64 : (s.me.s hi).toNat % 64 = 0)
    (hlt : (s.me.s lo).toNat < (s.me.s hi).toNat) (hend : (s.me.s hi).toNat ≤ 0x600000) :
    exec (.cparm g ch lo hi) s = .next ((heard (.cparm g ch lo hi) s).modChan s.cur.1 ch fun c =>
      { c with armNext := some ((s.me.s lo).toNat, (s.me.s hi).toNat) }).finish := by
  have ready : PlanReady g s fun x =>
      { reads := rS x lo ++ rS x hi
        check := illegalIf (!x.holds s.cur.2 ch || (x.s lo).toNat % 64 != 0 || (x.s hi).toNat % 64 != 0 ||
          (x.s hi).toNat ≤ (x.s lo).toNat || 0x600000 < (x.s hi).toNat)
        commit := fun t => t.modChan t.cur.1 ch fun c => { c with armNext := some ((x.s lo).toNat, (x.s hi).toNat) } } :=
    ⟨hp, ⟨rfl, rfl, rfl, rfl, rfl, rfl⟩, fun r hr =>
      (List.mem_append.1 hr).elim (sourceReady_scalar hlo r) (sourceReady_scalar hhi r)⟩
  rw [exec_cparm]
  refine (ready.commits_heard (i := .cparm g ch lo hi) rfl ?_).trans ?_
  · simp [hch, hlo64, hhi64, Nat.not_le.2 hlt, Nat.not_lt.2 hend]
  · dsimp only
    rw [heard_cur]

/-- The sum that CPSTAT reads: the number of queued commands, and its bits, in their places (R225). -/
theorem chanStatus_toNat (c : CopyChan) : ∃ (held stop : Bool) (wm : Nat), (chanStatus c).toNat = (c.queue.length + c.run.isSome.toNat * 2 ^ 5 +
    c.armNext.isSome.toNat * 2 ^ 6 + held.toNat * 2 ^ 7 + c.landErr.toNat * 2 ^ 8 + c.rillErr.toNat * 2 ^ 9 +
    stop.toNat * 2 ^ 10 + wm * 2 ^ 32) % 2 ^ 64 := by
  have bit (b : Bool) (n : Nat) : (if b then 2 ^ n else 0) = b.toNat * 2 ^ n := by cases b <;> simp
  refine ⟨match c.run with | some r => r.armed.isSome | none => false,
    match c.run with | some r => r.stop.isSome | none => false,
    match c.run with | some r => if r.armed.isSome then r.watermark % 2 ^ 32 else 0 | none => 0, ?_⟩
  simp only [chanStatus, bit, BitVec.toNat_ofNat]
  cases c.run <;> rfl

theorem chanStatus_bits {c : CopyChan} (h : c.queue.length < 32) : (chanStatus c).toNat % 32 = c.queue.length ∧
    (chanStatus c).getLsbD 5 = c.run.isSome ∧ (chanStatus c).getLsbD 6 = c.armNext.isSome ∧
    (chanStatus c).getLsbD 8 = c.landErr ∧ (chanStatus c).getLsbD 9 = c.rillErr := by
  obtain ⟨held, stop, wm, hs⟩ := chanStatus_toNat c
  have one (b : Bool) : b.toNat ≤ 1 := Bool.toNat_le b
  have bit {n : Nat} {b : Bool} (hb : (chanStatus c).toNat / 2 ^ n % 2 = b.toNat) : (chanStatus c).getLsbD n = b := by
    rw [BitVec.getLsbD, Nat.testBit_eq_decide_div_mod_eq, hb]
    cases b <;> rfl
  have h1 := one c.run.isSome
  have h2 := one c.armNext.isSome
  have h3 := one held
  have h4 := one c.landErr
  have h5 := one c.rillErr
  have h6 := one stop
  refine ⟨?_, bit ?_, bit ?_, bit ?_, bit ?_⟩ <;> omega

/-- A plan of a guarded status read. -/
theorem stat_ready {d : SReg} {ch : Chan} {clr : Bool} (hp : Performs g s) (hch : s.me.holds s.cur.2 ch = true)
    (hl : LoopAllows s d) (n : Nat) : runPlan n (planStat g d ch clr s) s = .next
      (if clr then (s.result (.s (s.me.phys d)) ((chanStatus (s.here.chan ch)).setWidth 512) 2).modChan s.cur.1 ch fun c =>
        { c with landErr := false, rillErr := false }
       else s.result (.s (s.me.phys d)) ((chanStatus (s.here.chan ch)).setWidth 512) 2).finish := by
  rw [planStat]
  refine (planReady_noSources hp).commits_noScalar (by simp) ?_
  rw [hch, loopDest_allowed hl]
  rfl

theorem copyRegisters : Sys2Proof.Claim.CopyRegisters := by
  intro g s hp
  refine ⟨fun d cl j h => nestld_puts hp h, fun ch lo hi hlo hhi hch h1 h2 h3 h4 => cparm_arms hp hlo hhi hch h1 h2 h3 h4,
    fun d ch hch hl => ⟨chanStatus (s.here.chan ch), ?_, ?_, chanStatus_bits⟩, fun d ch hch => ?_⟩
  · exact stat_ready hp hch hl 4
  · exact stat_ready hp hch hl 4
  · rw [exec_cpstat, planStat]
    exact (planReady_noSources hp).faults (by rw [hch]; rfl) rfl

/-! ### In-use bits and exclusions (R74, R226, R231) -/

/-- The changes that BUSE and BFREE make to in-use bits. -/
def useChanges (b n : Nat) (v : Option InUse) : List (Nat × Option InUse) := (List.range n).map fun i => (b / 4096 + i, v)

/-- A core with more changes of in-use bits to come into force. -/
def Core.pends (us : List (Nat × Option InUse)) (x : Core) : Core := { x with usePend := x.usePend ++ us }

theorem use_commits {a : SReg} {n : BitVec 11} {set : Bool} (hp : Performs g s) (hi : IsOperation i) (h : Issues i s)
    (hplan : planOf i s = planUse g a n set s) (he : s.me.ending = false) : ∃ t, exec i s = .next t ∧
      t.here.inuse = s.here.inuse ∧ t.mem = s.mem ∧ t.here.usePend = s.here.usePend ++
        (List.range (n.toNat + 1)).map fun j => ((s.me.s a).toNat / 4096 + j, if set then some ⟨s.cur.2, s.me.launch⟩ else none) := by
  have hrun := guarded_commits hi h hp.1 hplan rfl rfl
  obtain ⟨hcur, -, hhere⟩ := heard_same i s
  have hend : ((heard i s).modHere (Core.pends
      (useChanges (s.me.s a).toNat (n.toNat + 1) (if set then some ⟨s.cur.2, s.me.launch⟩ else none)))).me.ending = false := by
    rw [State.me_modHere rfl, heard_ending]
    exact he
  refine ⟨_, hrun.trans (congrArg (fun u : State => Host.Outcome.next u.finish) (?_ : _ = (heard i s).modHere (Core.pends
      (useChanges (s.me.s a).toNat (n.toNat + 1) (if set then some ⟨s.cur.2, s.me.launch⟩ else none))))), ?_, ?_, ?_⟩
  · dsimp only
    rw [hcur]
    rfl
  · rw [finish_runs hend, State.here_modMe, State.here_modHere]
    exact (congrArg Core.inuse hhere :)
  · rw [finish_mem]; exact heard_mem i s
  · rw [finish_runs hend, State.here_modMe, State.here_modHere]
    exact (congrArg (Core.usePend · ++ _) hhere :)

theorem exec_trexcl (g : Guard) (a : AReg) (b : SReg) (slot : BitVec 2) (s : State) :
    exec (.trexcl g a b slot) s = runPlan 4 (planTrexcl g a b slot s) s := rfl

theorem trexcl_commits {a : AReg} {b : SReg} {slot : BitVec 2} (hp : Performs g s) (ha : AddrReady s a)
    (hb : ScalarReady s b) : exec (.trexcl g a b slot) s = .next
      (if s.traced s.me.launch then (heard (.trexcl g a b slot) s).modMe fun y =>
        { y with excl := if s.me.s b = 0 then adel y.excl slot.toNat else ains y.excl slot.toNat ⟨s.me.a a, s.me.s b⟩ }
       else heard (.trexcl g a b slot) s).finish := by
  have ready : PlanReady g s fun x =>
      { reads := rA a ++ rS x b
        commit := fun t =>
          if s.traced x.launch then
            t.modMe fun y =>
              { y with excl := if x.s b = 0 then adel y.excl slot.toNat else ains y.excl slot.toNat ⟨x.a a, x.s b⟩ }
          else t } :=
    ⟨hp, ⟨rfl, rfl, rfl, rfl, rfl, rfl⟩, fun r hr =>
      (List.mem_append.1 hr).elim (sourceReady_addr ha r) (sourceReady_scalar hb r)⟩
  rw [exec_trexcl]
  exact ready.commits_heard (i := .trexcl g a b slot) rfl rfl

theorem inUseAndExclusions : Sys2Proof.Claim.InUseAndExclusions := by
  intro g s hp
  refine ⟨fun a n h he => use_commits (set := true) hp rfl h rfl he, fun a n h he => use_commits (set := false) hp rfl h rfl he,
    fun a b slot ha hb ht => ?_, fun a b slot ha hb ht => ?_⟩
  · rw [trexcl_commits hp ha hb, ht]; rfl
  · rw [trexcl_commits hp ha hb, ht]; rfl

/-! ### Device-fed launches (R227, R232) -/

/-- The access that a reserved entry's record is read by. -/
def launcher (s : State) : Who := { s.access (.eng 99 0) 0 with xfence := s.me.xfence }

/-- What a LAUNCH or RELAUNCH that performs plans. -/
def enqueuePlan (a : AReg) (reads : Ctx → List (Dest × BitVec 16)) (status : Ctx → Option Nat) (q : BitVec 4) (s : State)
    (x : Ctx) : Plan :=
  let xs := match status x with | some v => [s.xlAcc .write v] | none => []
  { reads := rA a ++ reads x
    check := (((misaligned [(x.a a).toNat] 64).and (match status x with | some v => misaligned [v] 8 | none => .ok)).and
      ((xlCheck false (s.xlates .read [(x.a a).toNat])).and (xlCheck true xs))).and
        (faultIf (s.queueFull (s.queue (dieOf s.cur.1) s.here.tenant q)) 0x0A 0 3)
    commit := fun u => u.modQueue (dieOf s.cur.1) s.here.tenant q fun y => { y with reserved := y.reserved ++
      [⟨(x.a a).setWidth 48, (xs.head?).map fun v => (⟨BitVec.ofNat 48 v.1, some (xlPa v.2)⟩ : StatusAt), x.xafter,
        { u.access (.eng 99 0) 0 with xfence := x.xfence }⟩] } }

theorem planEnqueue_eq (a : AReg) (reads : Ctx → List (Dest × BitVec 16)) (status : Ctx → Option Nat) (q : BitVec 4) :
    planEnqueue g a reads status q s = gplan g s (enqueuePlan a reads status q s) := rfl

theorem launch_reserves {a : AReg} {q : BitVec 4} (hp : performs g s.me = true) (h : Issues (.launch g a q) s) :
    exec (.launch g a q) s = .next (s.modQueue (dieOf s.cur.1) s.here.tenant q fun y =>
      { y with reserved := y.reserved ++ [⟨(s.me.a a).setWidth 48, none, s.me.xafter, launcher s⟩] }).finish := by
  have hplan : planOf (.launch g a q) s = gplan g s (enqueuePlan a (fun _ => []) (fun _ => none) q s) :=
    (planEnqueue_eq .. : planLaunch g a q s = _)
  rw [guarded_commits rfl h hp hplan rfl rfl, heard_noScalar hp hplan rfl]
  · rfl
  · intro r hr
    exact rA_noScalar a r (by simpa [enqueuePlan] using hr)

/-- A single translation that passes. -/
theorem xlCheck_single {wr : Bool} {va : Nat} {x : Xl} (h : xlCheck wr [(va, x)] = .ok) : ∃ pa, x = .ok pa := by
  cases x with
  | ok pa => exact ⟨pa, rfl⟩
  | miss pg => simp [xlCheck, xlMisses] at h
  | bad lv kd =>
    by_cases hk : 2 ≤ kd
    · simp [xlCheck, xlMisses, xlFail, hk] at h
    · have hlow : kd ≤ 1 := by omega
      simp [xlCheck, xlMisses, xlFail, hlow] at h

/-- The place that passes the checks of an accumulator-store word (R77, R217). -/
theorem xlAcc_passes {wr : Bool} {need : Need} {va : Nat} (h : xlCheck wr [s.xlAcc need va] = .ok) : ∃ pa, isAcc pa = true ∧
    s.xlate s.cur.1 (ctxWaiter s.cur.2) s.here.tenant va need = .ok pa ∧ s.xlAcc need va = (va, .ok pa) := by
  unfold State.xlAcc at h ⊢
  split at h
  · rename_i pa hx
    by_cases hacc : isAcc pa = true
    · exact ⟨pa, hacc, hx, by rw [if_pos hacc]⟩
    · rw [if_neg hacc] at h
      obtain ⟨_, hpa⟩ := xlCheck_single h
      cases hpa
  · rename_i hno
    obtain ⟨pa, hpa⟩ := xlCheck_single h
    exact absurd hpa (hno pa)

theorem Check.and_eq_ok {a b : Check} : a.and b = .ok ↔ a = .ok ∧ b = .ok := by
  cases a <;> simp [Check.and]

theorem relaunch_reserves {a : AReg} {b : SReg} {q : BitVec 4} (hp : performs g s.me = true) (h : Issues (.relaunch g a b q) s) :
    ∃ pa, isAcc pa = true ∧ s.xlate s.cur.1 (ctxWaiter s.cur.2) s.here.tenant (s.me.s b).toNat .write = .ok pa ∧
      exec (.relaunch g a b q) s = .next ((heard (.relaunch g a b q) s).modQueue (dieOf s.cur.1) s.here.tenant q fun y =>
        { y with reserved := y.reserved ++
          [⟨(s.me.a a).setWidth 48, some ⟨(s.me.s b).setWidth 48, some pa⟩, s.me.xafter, launcher s⟩] }).finish := by
  have hplan : planOf (.relaunch g a b q) s = gplan g s (enqueuePlan a (rS · b) (fun x => some (x.s b).toNat) q s) :=
    (planEnqueue_eq .. : planRelaunch g a b q s = _)
  have hcheck : ((_ : Check).and ((_ : Check).and (xlCheck true [s.xlAcc .write (s.me.s b).toNat]))).and _ = .ok :=
    issues_check h hp hplan
  obtain ⟨pa, hacc, hx, hxl⟩ := xlAcc_passes (Check.and_eq_ok.1 (Check.and_eq_ok.1 (Check.and_eq_ok.1 hcheck).1).2).2
  refine ⟨pa, hacc, hx, (guarded_commits rfl h hp hplan rfl rfl).trans ?_⟩
  have hwho : ({ (heard (.relaunch g a b q) s).access (.eng 99 0) 0 with xfence := s.me.xfence } : Who) = launcher s := by
    obtain ⟨hcur, hme, -⟩ := heard_same (.relaunch g a b q) s
    have hlaunch : (heard (.relaunch g a b q) s).me.launch = s.me.launch := (congrArg Ctx.launch hme :)
    have hpos : (heard (.relaunch g a b q) s).me.pos = s.me.pos := (congrArg Ctx.pos hme :)
    simp only [launcher, State.access, hcur, hlaunch, hpos]
  simp only [enqueuePlan, hwho, hxl, List.head?_cons, Option.map_some, xlPa, BitVec.ofNat_toNat]

theorem deviceLaunchesReserve : Sys2Proof.Claim.DeviceLaunchesReserve := by
  intro g a q s hp d t who
  refine ⟨fun h => launch_reserves hp h, fun b h => relaunch_reserves hp h, fun pa h64 hx hfull => ?_⟩
  have hplan : planOf (.launch g a q) s = gplan g s (enqueuePlan a (fun _ => []) (fun _ => none) q s) :=
    (planEnqueue_eq .. : planLaunch g a q s = _)
  have hpass : AllPass (s.xlates .read [(s.me.a a).toNat]) := by
    intro x hm
    obtain rfl := List.mem_singleton.1 hm
    exact ⟨pa, hx⟩
  change runPlan 4 (planOf (.launch g a q) s) s = _
  rw [hplan, gplan_true hp]
  refine Plan.Plain.faults_check (Plan.Plain.reading ⟨rfl, rfl, rfl, rfl, rfl, rfl⟩ _) (fun r hr => ?_) ?_ rfl
  · rcases List.mem_append.1 hr with hr | hr
    · rw [(mem_rP.1 hr).2, Ctx.awaits_pred]
    · obtain rfl : r = _ := by simpa [rA, enqueuePlan] using hr
      exact Ctx.awaits_addr _ _
  · change (((misaligned [(s.me.a a).toNat] 64).and .ok).and ((xlCheck false (s.xlates .read [(s.me.a a).toNat])).and
      (xlCheck true []))).and (faultIf (s.queueFull (s.queue d t q)) 0x0A 0 3) = _
    rw [misaligned_none (by simpa using h64), xlCheck_pass hpass, hfull]
    rfl

/-- Settles O27: each operation's plan, and the channel's status word as a sum of its fields. -/
theorem engineRegisters : Obligations.EngineRegisters := ⟨copyRegisters, inUseAndExclusions, deviceLaunchesReserve⟩

end Sys2Proof.Machine
end

section
/-! Vector accesses to the scratchpad: their plans, their checks, and the loads (R67, R188 to R191, R317). -/
namespace Sys2Proof.Machine

variable {s : State} {i : Instr} {h : VHead} {d : VReg} {at_ : Nat → Int} {en : BitVec 16}

/-! ### Enabled lanes -/

theorem mem_laneList {l : Nat} : l ∈ laneList en ↔ l < 16 ∧ en.getLsbD l = true := by
  simp [laneList]

/-- The enabled lanes before and after one of them. -/
theorem laneList_split {l : Nat} (hl : l < 16) (he : en.getLsbD l = true) : ∃ pre post, laneList en = pre ++ l :: post ∧
    (∀ j ∈ pre, j < l ∧ en.getLsbD j = true) ∧ ∀ j ∈ post, l < j ∧ j < 16 ∧ en.getLsbD j = true := by
  obtain ⟨pre, post, hsplit⟩ := List.append_of_mem (mem_laneList.2 ⟨hl, he⟩)
  have hsorted : (laneList en).Pairwise (· < ·) := List.pairwise_lt_range.filter _
  have hmem (j : Nat) (hj : j ∈ pre ∨ j ∈ post) : j < 16 ∧ en.getLsbD j = true := by
    refine mem_laneList.1 ?_
    rw [hsplit, List.mem_append, List.mem_cons]
    exact hj.imp_right .inr
  rw [hsplit, List.pairwise_append, List.pairwise_cons] at hsorted
  obtain ⟨-, ⟨hpost, -⟩, hpre⟩ := hsorted
  exact ⟨pre, post, hsplit, fun j hj => ⟨hpre j hj l List.mem_cons_self, (hmem j (.inl hj)).2⟩,
    fun j hj => ⟨hpost j hj, hmem j (.inr hj)⟩⟩

theorem laneList_nil (h0 : en = 0) : laneList en = [] := by
  simp [laneList, h0]

/-! ### The plans -/

/-- The form of a scratchpad access: its plan, and the addresses that it checks and accesses (R188). -/
structure VmPlan (i : Instr) (h : VHead) (d : VReg) (at_ : Nat → Int) (s : State) (f : VmForm) : Prop where
  isOp : IsOperation i
  runs : exec i s = runPlan (9 + 4 * h.cl.toNat) (planOf i s) s
  load : isVload i = true → planOf i s = planVload h d (!indexExists i) f s
  store : isVload i = false → planOf i s = planVstore h d (!indexExists i) f s
  places : f.at_ = at_
  plain : isPlainVm i = true → f.align = 64 ∧ f.base = if laneMask h s = 0 then [] else [at_ 0]
  steps : isPlainVm i = true → ∀ l : Nat, at_ l = at_ 0 + 4 * l
  lanes : isPlainVm i = false → f.align = 4 ∧ f.base = (laneList (laneMask h s)).map at_

theorem vmBase_eq (x : Ctx) (k : SReg) : vmBase x k = (((x.s k).toNat % 2 ^ 32 : Nat) : Int) := by
  rw [vmBase, BitVec.toNat_setWidth]

theorem formPlain_at (x : Ctx) (en : BitVec 16) (k : SReg) (off : BitVec 9) :
    (formPlain x en k off).at_ = fun l : Nat => ((x.s k).toNat % 2 ^ 32 : Nat) + 64 * off.toInt + 4 * (l : Int) := by
  rw [← vmBase_eq]; rfl

theorem formStride_at (x : Ctx) (en : BitVec 16) (k j : SReg) (off : BitVec 9) : (formStride x en k j off).at_ =
    fun l : Nat => ((x.s k).toNat % 2 ^ 32 : Nat) + 4 * off.toInt + (l : Int) * ((x.s j).setWidth 32 : Word).toInt := by
  rw [← vmBase_eq]; rfl

theorem formIndex_at (s : State) (h : VHead) (en : BitVec 16) (k : SReg) (r : VReg) (off : BitVec 9) :
    (formIndex s h en k r off).at_ = fun l => ((s.me.s k).toNat % 2 ^ 32 : Nat) + 4 * off.toInt +
      ((lane (aget s.here.vregs (320 * h.cl.toNat + r.toNat) 0) l).toNat : Nat) := by
  rw [← vmBase_eq]; rfl

theorem not_index (r : VReg) : (!decide (r.toNat < 320)) = decide (320 ≤ r.toNat) := by
  rw [← decide_not]
  exact decide_eq_decide.2 Nat.not_lt

theorem vmPlan_of (hi : laneAddr s i = some (h, d, at_)) : ∃ f, VmPlan i h d at_ s f := by
  cases i <;> cases hi
  case vld k off =>
    exact ⟨formPlain s.me (laneMask h s) k off, rfl, rfl, fun _ => rfl, nofun, formPlain_at .., fun _ => ⟨rfl, by
      rw [← vmBase_eq]; simp [formPlain]⟩, fun _ l => by simp, nofun⟩
  case vlds k j off =>
    exact ⟨formStride s.me (laneMask h s) k j off, rfl, rfl, fun _ => rfl, nofun, formStride_at .., nofun, nofun, fun _ => ⟨rfl, by
      rw [← formStride_at (en := laneMask h s)]; rfl⟩⟩
  case vldx k x off =>
    exact ⟨formIndex s h (laneMask h s) k x off, rfl, rfl, fun _ => by rw [indexExists, not_index]; rfl, nofun,
      formIndex_at .., nofun, nofun, fun _ => ⟨rfl, by rw [← formIndex_at (en := laneMask h s)]; rfl⟩⟩
  case vst k off =>
    exact ⟨formPlain s.me (laneMask h s) k off, rfl, rfl, nofun, fun _ => rfl, formPlain_at .., fun _ => ⟨rfl, by
      rw [← vmBase_eq]; simp [formPlain]⟩, fun _ l => by simp, nofun⟩
  case vsts k j off =>
    exact ⟨formStride s.me (laneMask h s) k j off, rfl, rfl, nofun, fun _ => rfl, formStride_at .., nofun, nofun, fun _ => ⟨rfl, by
      rw [← formStride_at (en := laneMask h s)]; rfl⟩⟩
  case vstx k x off =>
    exact ⟨formIndex s h (laneMask h s) k x off, rfl, rfl, nofun, fun _ => by rw [indexExists, not_index]; rfl,
      formIndex_at .., nofun, nofun, fun _ => ⟨rfl, by rw [← formIndex_at (en := laneMask h s)]; rfl⟩⟩

/-- Loads and stores are checked alike (R189). -/
theorem VmPlan.check {f : VmForm} (hv : VmPlan i h d at_ s f) :
    (planOf i s).held = false ∧ (planOf i s).check = vmCheck s h (!indexExists i) (laneMask h s) f := by
  cases hl : isVload i with
  | true => rw [hv.load hl]; exact ⟨rfl, rfl⟩
  | false => rw [hv.store hl]; exact ⟨rfl, rfl⟩

/-! ### Loads (R189, R191) -/

theorem vectorLoads : Sys2Proof.Claim.VectorLoads := by
  intro i h d at_ s hl ha hi en
  obtain ⟨f, hv⟩ := vmPlan_of ha
  have hplan := hv.load hl
  have hrun := issues_commits hv.isOp hi (by rw [hplan]; rfl) (by rw [hplan]; rfl)
  have hnext : (heard i s).nextId = s.nextId := (congrArg State.nextId (consumptionIsQuiet i s).1 :)
  refine ⟨mkLine fun l => if en.getLsbD l then s.spmWord (f.at_ l) else 0, spmPoison s en f.at_, fun l hl16 hel => ?_,
    fun hp => ?_, fun hc => ?_, fun hc => ?_⟩
  · rw [lane_mkLine _ hl16, if_pos hel, hv.places]
    rfl
  · simp [spmPoison, hp]
  · rw [hrun, hplan]
    simp only [planVload, hc, Bool.false_eq_true, ↓reduceIte]
    rfl
  · rw [hrun, hplan]
    simp only [planVload, hc, ↓reduceIte, hnext, heard_cycle]
    rfl

/-! ### Faults of the scratchpad (R67, R189, R317) -/

/-- An operation whose own checks find a fault takes it, whatever its sources hold (R318). -/
theorem exec_faults_check {n : Nat} {f : FaultInfo} (hx : exec i s = runPlan n (planOf i s) s)
    (hf : (planOf i s).freezes s = false) (hh : (planOf i s).held = false) (hc : (planOf i s).check = .fault f)
    (hcode : (f.code == 0x04 || f.code == 0x07) = false) : exec i s = faultsAs s n f := by
  rw [hx]
  exact runPlan_faults hf hh (by rw [Plan.checks, hc]; rfl) (by rw [Ctx.wouldHold, hcode]; rfl)

/-- The first address that is not aligned decides. -/
theorem alignCheck_first {pre post : List Int} {a n : Int} (hpre : ∀ b ∈ pre, b % n = 0) (ha : a % n ≠ 0) :
    alignCheck (pre ++ a :: post) n = .fault { code := 0x11, va := BitVec.ofInt 48 a } := by
  have hnone : pre.find? (fun b => b % n != 0) = none := List.find?_eq_none.2 (by simpa using hpre)
  rw [alignCheck, List.find?_append, hnone, Option.none_or, List.find?_cons_of_pos (by simpa using ha)]

theorem alignCheck_ok {as : List Int} {n : Int} (has : ∀ a ∈ as, a % n = 0) : alignCheck as n = .ok := by
  have hnone : as.find? (fun a => a % n != 0) = none := List.find?_eq_none.2 (by simpa using has)
  rw [alignCheck, hnone]

section Bounds

variable {x : Ctx} {a : Int} {as post : List Int}

/-- The end of a context's part of the scratchpad. -/
def Ctx.localEnd (x : Ctx) : Nat := min x.sphi.toNat 0x600000

theorem laneBound_within (hlo : (x.splo.toNat : Int) ≤ a) (hhi : a + 4 ≤ (x.localEnd : Int)) : laneBound x a = .ok := by
  have h0 : ¬ a < 0 := by omega
  rw [laneBound, if_neg h0, boundCheck, if_pos]
  change x.splo.toNat ≤ a.toNat ∧ a.toNat + 4 ≤ x.localEnd
  omega

/-- A lane outside the context's part is reported at its own address. -/
theorem laneBound_outside (hbad : a < (x.splo.toNat : Int) ∨ (x.localEnd : Int) ≤ a) :
    laneBound x a = .fault { code := 0x09, va := BitVec.ofInt 48 a } := by
  unfold laneBound
  split
  · rfl
  · rename_i h0
    have hva (n : Nat) (hn : (n : Int) = a) : BitVec.ofNat 48 n = BitVec.ofInt 48 a := by rw [← hn]; exact (BitVec.ofInt_natCast ..).symm
    rw [boundCheck, if_neg]
    · refine congrArg (fun v => Check.fault { code := 0x09, va := v }) (hva _ ?_)
      change ((if a.toNat < x.splo.toNat then a.toNat else max a.toNat x.localEnd : Nat) : Int) = a
      split <;> omega
    · change ¬ (x.splo.toNat ≤ a.toNat ∧ a.toNat + 4 ≤ x.localEnd)
      omega

theorem lanesBound_append (x : Ctx) (as post : List Int) :
    lanesBound x (as ++ post) = post.foldl (fun c a => c.and (laneBound x a)) (lanesBound x as) := by
  rw [lanesBound, List.foldl_append]
  rfl

theorem lanesBound_ok (has : ∀ a ∈ as, laneBound x a = .ok) : lanesBound x as = .ok := by
  induction as with
  | nil => rfl
  | cons a as ih =>
    rw [List.forall_mem_cons] at has
    change as.foldl _ (laneBound x a) = _
    rw [has.1]
    exact ih has.2

theorem lanesBound_first {f : FaultInfo} (has : ∀ a ∈ as, laneBound x a = .ok) (ha : laneBound x a = .fault f) :
    lanesBound x (as ++ a :: post) = .fault f := by
  rw [lanesBound_append, lanesBound_ok has, List.foldl_cons, Check.and_ok, ha]
  induction post with
  | nil => rfl
  | cons b post ih => exact ih

end Bounds

theorem vmCheck_illegal {bad : Bool} {f : VmForm} (hb : s.me.clmask.getLsbD h.cl.toNat = false ∨ bad = true) :
    vmCheck s h bad en f = .fault { code := 0x02 } := by
  have hown : s.me.owns h.cl = s.me.clmask.getLsbD h.cl.toNat := rfl
  rw [vmCheck, hown]
  cases hc : s.me.clmask.getLsbD h.cl.toNat with
  | false => rfl
  | true => rw [hb.resolve_left (by rw [hc]; decide)]; rfl

theorem vmCheck_legal {f : VmForm} (hc : s.me.clmask.getLsbD h.cl.toNat = true) :
    vmCheck s h false en f = (alignCheck f.base f.align).and (lanesBound s.me ((laneList en).map f.at_)) := by
  have hown : s.me.owns h.cl = true := hc
  rw [vmCheck, hown]
  rfl

/-- The check of alignment of an access whose places are aligned as its form asks. -/
theorem VmPlan.aligned {f : VmForm} (hv : VmPlan i h d at_ s f)
    (ha : if isPlainVm i = true then at_ 0 % 64 = 0 else ∀ l, l < 16 → (laneMask h s).getLsbD l = true → at_ l % 4 = 0) :
    alignCheck f.base f.align = .ok := by
  cases hp : isPlainVm i with
  | true =>
    obtain ⟨hal, hbase⟩ := hv.plain hp
    rw [hp, if_pos rfl] at ha
    rw [hal, hbase]
    refine alignCheck_ok fun a hm => ?_
    split at hm
    · cases hm
    · rw [List.mem_singleton.1 hm]; exact ha
  | false =>
    obtain ⟨hal, hbase⟩ := hv.lanes hp
    rw [hp, if_neg (by decide)] at ha
    rw [hal, hbase]
    refine alignCheck_ok fun a hm => ?_
    obtain ⟨l, hl, rfl⟩ := List.mem_map.1 hm
    exact ha l (mem_laneList.1 hl).1 (mem_laneList.1 hl).2

section Faults

variable {f : VmForm}

theorem VmPlan.check_legal (hv : VmPlan i h d at_ s f) (hown : s.me.clmask.getLsbD h.cl.toNat = true)
    (hidx : indexExists i = true) : (planOf i s).check =
      (alignCheck f.base f.align).and (lanesBound s.me ((laneList (laneMask h s)).map at_)) := by
  rw [hv.check.2, hidx, ← hv.places]
  exact vmCheck_legal hown

theorem VmPlan.check_base (hv : VmPlan i h d at_ s f) (hown : s.me.clmask.getLsbD h.cl.toNat = true)
    (hidx : indexExists i = true) (hp : isPlainVm i = true) (he : laneMask h s ≠ 0) (h64 : at_ 0 % 64 ≠ 0) :
    (planOf i s).check = .fault { code := 0x11, va := BitVec.ofInt 48 (at_ 0) } := by
  obtain ⟨hal, hbase⟩ := hv.plain hp
  rw [hv.check_legal hown hidx, hal, hbase, if_neg he]
  exact congrArg (Check.and · _) (alignCheck_first (pre := []) (by simp) h64)

theorem VmPlan.check_lane (hv : VmPlan i h d at_ s f) (hown : s.me.clmask.getLsbD h.cl.toNat = true)
    (hidx : indexExists i = true) (hp : isPlainVm i = false) {l : Nat} (hl16 : l < 16)
    (hel : (laneMask h s).getLsbD l = true) (h4 : at_ l % 4 ≠ 0)
    (hbefore : ∀ j, j < l → (laneMask h s).getLsbD j = true → at_ j % 4 = 0) :
    (planOf i s).check = .fault { code := 0x11, va := BitVec.ofInt 48 (at_ l) } := by
  obtain ⟨hal, hbase⟩ := hv.lanes hp
  obtain ⟨pre, post, hsplit, hpre, -⟩ := laneList_split hl16 hel
  rw [hv.check_legal hown hidx, hal, hbase, hsplit, List.map_append, List.map_cons]
  refine congrArg (Check.and · _) (alignCheck_first ?_ h4)
  simp only [List.mem_map, forall_exists_index, and_imp, forall_apply_eq_imp_iff₂]
  exact fun j hj => hbefore j (hpre j hj).1 (hpre j hj).2

theorem VmPlan.check_bound (hv : VmPlan i h d at_ s f) (hown : s.me.clmask.getLsbD h.cl.toNat = true)
    (hidx : indexExists i = true) (hal : alignCheck f.base f.align = .ok) {l : Nat} (hl16 : l < 16)
    (hel : (laneMask h s).getLsbD l = true) (hb : at_ l < s.me.splo.toNat ∨ s.me.localEnd ≤ at_ l)
    (hbefore : ∀ j, j < l → (laneMask h s).getLsbD j = true → s.me.splo.toNat ≤ at_ j ∧ at_ j + 4 ≤ s.me.localEnd) :
    (planOf i s).check = .fault { code := 0x09, va := BitVec.ofInt 48 (at_ l) } := by
  obtain ⟨pre, post, hsplit, hpre, -⟩ := laneList_split hl16 hel
  rw [hv.check_legal hown hidx, hal, Check.and_ok, hsplit, List.map_append, List.map_cons]
  refine lanesBound_first ?_ (laneBound_outside hb)
  simp only [List.mem_map, forall_exists_index, and_imp, forall_apply_eq_imp_iff₂]
  intro j hj
  obtain ⟨hlo, hhi⟩ := hbefore j (hpre j hj).1 (hpre j hj).2
  exact laneBound_within hlo hhi

end Faults

/-! ### Faults of the accumulator store (R190, R317) -/

section Acc

variable {y : Int} {wr : Bool}

theorem accCheck_unaligned (hc : s.me.clmask.getLsbD h.cl.toNat = true) (he : en ≠ 0) (hy : y % 64 ≠ 0) :
    accCheck s h en y wr = .fault { code := 0x11, va := BitVec.ofInt 48 y } := by
  have hown : s.me.owns h.cl = true := hc
  rw [accCheck, hown, if_neg he, show alignCheck [y] 64 = _ from alignCheck_first (pre := []) (post := []) (by simp) hy]
  rfl

theorem accCheck_outside (hc : s.me.clmask.getLsbD h.cl.toNat = true) (he : en ≠ 0) (hy : y % 64 = 0)
    (hout : y < 0 ∨ 0x200000 ≤ y) :
    accCheck s h en y wr = .fault { code := 0x08, va := BitVec.ofInt 48 y, detail := if wr then 0x10 else 0 } := by
  have hown : s.me.owns h.cl = true := hc
  rw [accCheck, hown, if_neg he, alignCheck_ok (by simpa using hy), if_pos (by omega)]
  rfl

end Acc

theorem exec_vlda (h : VHead) (d : VReg) (k : SReg) (off : BitVec 9) (s : State) :
    exec (.vlda h d k off) s = runPlan (9 + 4 * h.cl.toNat) (planVlda h d k off s) s := rfl

theorem exec_vsta (h : VHead) (d : VReg) (k : SReg) (off : BitVec 9) (s : State) :
    exec (.vsta h d k off) s = runPlan (9 + 4 * h.cl.toNat) (planVsta h d k off s) s := rfl

theorem accY_eq (x : Ctx) (k : SReg) (off : BitVec 9) : accY x k off = ((x.s k).toNat % 2 ^ 32 : Nat) + 64 * off.toInt := by
  rw [accY, vmBase_eq]

theorem vectorAccessFaults : Sys2Proof.Claim.VectorAccessFaults := by
  refine ⟨fun i h d at_ s ha hf => ?_, fun h d k off s hown hen => ?_⟩
  · intro en bad stops
    obtain ⟨f, hv⟩ := vmPlan_of ha
    have stop {x : FaultInfo} (hcode : (x.code == 0x04 || x.code == 0x07) = false) (hc : (planOf i s).check = .fault x) :
        stops x := exec_faults_check hv.runs hf hv.check.1 hc hcode
    refine ⟨fun hb => stop rfl ?_, fun hown hidx => ⟨fun hp he h64 => stop rfl (hv.check_base hown hidx hp he h64),
      fun hp l hl16 hel h4 hbefore => stop rfl (hv.check_lane hown hidx hp hl16 hel h4 hbefore),
      fun l hl16 hel hb hgood hal hfit => stop rfl (hv.check_bound hown hidx (hv.aligned hal) hl16 hel hb fun j hj he => ?_)⟩⟩
    · rw [hv.check.2]
      exact vmCheck_illegal (hb.imp_right fun h => by rw [h]; rfl)
    · exact ⟨Int.not_lt.1 fun hlt => hgood j hj he (.inl hlt), hfit j hj he⟩
  · intro y stops
    have hy : accY s.me k off = y := accY_eq ..
    have load {f : FaultInfo} (hcode : (f.code == 0x04 || f.code == 0x07) = false)
        (hc : accCheck s h (laneMask h s) y false = .fault { f with va := BitVec.ofInt 48 y }) : stops (.vlda h d k off) f :=
      fun hf => exec_faults_check (exec_vlda h d k off s) hf rfl ((congrArg (accCheck s h _ · _) hy).trans hc) hcode
    have store {f : FaultInfo} (hcode : (f.code == 0x04 || f.code == 0x07) = false)
        (hc : accCheck s h (laneMask h s) y true = .fault { f with va := BitVec.ofInt 48 y }) : stops (.vsta h d k off) f :=
      fun hf => exec_faults_check (exec_vsta h d k off s) hf rfl ((congrArg (accCheck s h _ · _) hy).trans hc) hcode
    refine ⟨fun h64 => ⟨load rfl ?_, store rfl ?_⟩, fun h64 hout => ⟨load rfl ?_, store rfl ?_⟩⟩
    · exact accCheck_unaligned hown hen h64
    · exact accCheck_unaligned hown hen h64
    · exact accCheck_outside hown hen h64 hout
    · exact accCheck_outside hown hen h64 hout

/-- Settles O19: the six forms share one plan; its checks find the first lane that is unaligned or out of bounds. -/
theorem localLoads : Obligations.LocalLoads := ⟨vectorLoads, vectorAccessFaults⟩

end Sys2Proof.Machine
end

section
/-! Writes to the windows of cores, which no stamp follows, and the units of a local store (R71, R77, R78, R93, R228). -/
namespace Sys2Proof.Machine

variable {s t : State} {w : Who} {pa z : Nat} {bs : List Byte}

/-! ### Memory after a write outside DRAM -/

/-- Memory after some writes, one after the other. -/
def wrAll (m : List Host.Cell) (us : List (Nat × List Byte)) : List Host.Cell := us.foldl (fun m u => wrBytes m u.1 u.2) m

theorem rd_wrAll_out {us : List (Nat × List Byte)} (m : List Host.Cell) (h : ∀ u ∈ us, z < u.1 ∨ u.1 + u.2.length ≤ z) :
    rd (wrAll m us) z = rd m z := by
  induction us generalizing m with
  | nil => rfl
  | cons u us ih =>
    rw [List.forall_mem_cons] at h
    exact (ih _ h.2).trans (rd_wrBytes_out _ _ _ _ h.1)

/-- The last write of a byte stands. -/
theorem rd_wrAll_last {pre post : List (Nat × List Byte)} {i : Nat} (m : List Host.Cell) (hi : i < bs.length)
    (h : ∀ u ∈ post, pa + i < u.1 ∨ u.1 + u.2.length ≤ pa + i) :
    rd (wrAll m (pre ++ (pa, bs) :: post)) (pa + i) = bs[i] := by
  rw [wrAll, List.foldl_append, List.foldl_cons]
  exact (rd_wrAll_out _ h).trans (rd_wrBytes_in _ _ _ _ hi)

theorem writeUnder_mem_window {id : Nat} {es : List Past} (hp : 0x008000000000 ≤ pa) (hz : z < pa ∨ pa + bs.length ≤ z) :
    rd (s.writeUnder w id es pa bs).mem z = rd s.mem z := by
  unfold State.writeUnder
  dsimp only
  split
  · exact (congrArg (rd · z) (stamped_out hp _ _)).trans (rd_wrBytes_out _ _ _ _ hz)
  · refine (congrArg (rd · z) (stamped_out hp _ _)).trans (foldl_wr_out _ fun ib hib => ?_)
    have := List.mem_range.1 (List.of_mem_zip (List.mem_of_mem_filter hib)).1
    omega

theorem writeUnits_mem_window {us : List (Nat × List Byte)} (hp : ∀ u ∈ us, 0x008000000000 ≤ u.1)
    (hz : ∀ u ∈ us, z < u.1 ∨ u.1 + u.2.length ≤ z) : rd (s.writeUnits w us).mem z = rd s.mem z := by
  obtain ⟨m, ps, kept, id, hfold⟩ := writeUnits_fold s w us
  rw [hfold]
  refine List.foldlRecOn (motive := fun t : State => rd t.mem z = rd s.mem z) us
    (fun t u => t.writeUnit w kept id u) (b := { s with pastCtr := m, promises := ps }) rfl fun t hmem u hu => ?_
  obtain ⟨n, es, hunit, -⟩ := writeUnit_places t w kept id u
  rw [hunit]
  exact (writeUnder_mem_window (s := { t with freeCtr := n }) (hp u hu) (hz u hu)).trans hmem

/-- A word of the accumulator store is written in the order of its accesses (R77). -/
theorem over_acc (ha : isAcc pa = true) (w : Who) (n : Nat) : s.over w pa n = [] := by
  unfold State.over
  split
  · rfl
  · rename_i hno
    unfold isAcc at ha
    split at ha
    · exact absurd (by assumption) (hno _ _)
    · cases ha

theorem writeBy_acc_mem (ha : isAcc pa = true) (w : Who) (bs : List Byte) : (s.writeBy w pa bs).mem = wrBytes s.mem pa bs := by
  by_cases hb : bs = []
  · subst hb; rfl
  · obtain ⟨c, m, id, ps, es, po, hs, heq, hes⟩ := writeBy_whole s w pa hb
    rw [heq, hes (over_acc ha w _)]
    exact stamped_out (s := { s with freeCtr := c, pastCtr := m, promises := ps }) (by have := isAcc_out ha; omega) _ _

/-! ### What a write leaves of the package -/

/-- The cores, the context that issues, and the requests on their way. -/
def State.front (s : State) := (s.cores, s.cur, s.reqs)

theorem front_cores (h : t.front = s.front) : t.cores = s.cores := congrArg Prod.fst h

theorem front_cur (h : t.front = s.front) : t.cur = s.cur := congrArg (·.2.1) h

theorem front_reqs (h : t.front = s.front) : t.reqs = s.reqs := congrArg (·.2.2) h

theorem front_me (h : t.front = s.front) : t.me = s.me := by
  rw [State.me, State.me, front_cur h, ctx_of_cores (front_cores h)]

theorem front_here (h : t.front = s.front) : t.here = s.here := by
  rw [State.here, State.here, front_cur h, State.core, State.core, front_cores h]

theorem writeUnder_front (s : State) (w : Who) (id : Nat) (es : List Past) (pa : Nat) (bs : List Byte) :
    (s.writeUnder w id es pa bs).front = s.front := by
  unfold State.writeUnder
  dsimp only
  split <;> rfl

theorem writeUnits_front (s : State) (w : Who) (us : List (Nat × List Byte)) : (s.writeUnits w us).front = s.front := by
  refine foldl_leaves State.front (fun t u => State.writeUnit t w _ _ u) (fun t u => ?_) us _
  obtain ⟨n, es, h, -⟩ := writeUnit_places t w _ _ u
  exact (congrArg State.front h).trans (writeUnder_front { t with freeCtr := n } w _ es u.1 u.2)

theorem writeBy_front (s : State) (w : Who) (pa : Nat) (bs : List Byte) : (s.writeBy w pa bs).front = s.front := by
  by_cases hb : bs = []
  · subst hb; rfl
  · obtain ⟨c, m, id, ps, es, po, hs, heq, -⟩ := writeBy_whole s w pa hb
    rw [heq]
    exact writeUnder_front { s with freeCtr := c, pastCtr := m, promises := ps } w id es pa bs

/-- What an access to local bytes learns changes neither memory nor what is to come. -/
theorem touch_quiet (s : State) (q : Who) (pa n : Nat) : ((s.touch q pa n).front, (s.touch q pa n).mem) = (s.front, s.mem) := by
  unfold State.touch
  dsimp only
  split <;> rfl

/-! ### The units of a local store (R93) -/

/-- Bytes from an address on, each with its own. -/
def cellsAt : Nat → List Byte → List Host.Cell
  | _, [] => []
  | pa, b :: bs => (pa, b) :: cellsAt (pa + 1) bs

theorem cellsAt_wr (m : List Host.Cell) (pa : Nat) (bs : List Byte) :
    (cellsAt pa bs).foldl (fun m x => wr m x.1 x.2) m = wrBytes m pa bs := by
  induction bs generalizing m pa with
  | nil => rfl
  | cons b bs ih => exact ih _ _

theorem cellsAt_zip (pa : Nat) (bs : List Byte) :
    ((List.range bs.length).zip bs).map (fun ib => (pa + ib.1, ib.2)) = cellsAt pa bs := by
  induction bs generalizing pa with
  | nil => rfl
  | cons b bs ih =>
    rw [List.length_cons, List.range_succ_eq_map, List.zip_cons_cons, List.map_cons, cellsAt, ← ih, List.zip_map_left,
      List.map_map]
    refine congrArg _ (List.map_congr_left fun ib _ => ?_)
    simp only [Function.comp_apply, Prod.map_fst, Prod.map_snd, id_eq, Prod.mk.injEq, and_true]
    omega

section Join

variable {u a : Nat} {b : Byte} {rest : List Host.Cell}

theorem joinUnits_joins {r : List (Nat × List Byte)} (hj : joinUnits u rest = (a + 1, bs) :: r) (hd : a / u = (a + 1) / u) :
    joinUnits u ((a, b) :: rest) = (a, b :: bs) :: r := by
  simp [joinUnits, hj, hd]

theorem joinUnits_starts (h : ∀ a' cs r, joinUnits u rest = (a', cs) :: r → a' = a + 1 → a / u ≠ a' / u) :
    joinUnits u ((a, b) :: rest) = (a, [b]) :: joinUnits u rest := by
  cases hj : joinUnits u rest with
  | nil => simp [joinUnits, hj]
  | cons v r =>
    have hno : ¬ (v.1 = a + 1 ∧ a / u = v.1 / u) := fun ⟨h1, h2⟩ => h v.1 v.2 r hj h1 h2
    simp only [joinUnits, hj, Bool.and_eq_true, decide_eq_true_eq, if_neg hno]

/-- Bytes of one aligned piece form a unit, unless the next unit goes on in the piece. -/
theorem joinUnits_piece (hb : bs ≠ []) (hin : ∀ i, i < bs.length → (pa + i) / u = pa / u)
    (hrest : ∀ a cs r, joinUnits u rest = (a, cs) :: r → a = pa + bs.length → a / u ≠ pa / u) :
    joinUnits u (cellsAt pa bs ++ rest) = (pa, bs) :: joinUnits u rest := by
  induction bs generalizing pa with
  | nil => exact absurd rfl hb
  | cons b bs ih =>
    cases bs with
    | nil => exact joinUnits_starts fun a cs r hj ha => (hrest a cs r hj ha).symm
    | cons b' bs =>
      have hnext : (pa + 1) / u = pa / u := hin 1 (by simp)
      refine joinUnits_joins (ih (by simp) (fun i hi => ?_) fun a cs r hj ha => ?_) hnext.symm
      · rw [hnext, Nat.add_right_comm, Nat.add_assoc]
        exact hin (i + 1) (by simpa using hi)
      · rw [hnext]
        exact hrest a cs r hj (by rw [ha]; simp only [List.length_cons]; omega)

/-- Aligned words are the units of a store of words (R93). -/
theorem joinUnits_words {ls : List (Nat × List Byte)} (h : ∀ l ∈ ls, l.1 % 4 = 0 ∧ l.2.length = 4) :
    joinUnits 4 (ls.flatMap fun l => cellsAt l.1 l.2) = ls := by
  induction ls with
  | nil => rfl
  | cons l ls ih =>
    obtain ⟨⟨hal, hlen⟩, hls⟩ := List.forall_mem_cons.1 h
    rw [List.flatMap_cons, joinUnits_piece, ih hls]
    · exact fun h0 => by rw [h0] at hlen; cases hlen
    · intro i hi
      omega
    · intro a cs r hj ha
      omega

end Join

/-- Local bytes in the units in which a store writes them. -/
structure LocalUnits (k unit : Nat) (ws : List (Nat × Byte)) (us : List (Nat × List Byte)) : Prop where
  cells : ws.map (fun x => (spmPa k x.1, x.2)) = us.flatMap fun u => cellsAt u.1 u.2
  joined : joinUnits unit (ws.map fun x => (spmPa k x.1, x.2)) = us

namespace LocalUnits

variable {k unit : Nat} {ws : List (Nat × Byte)} {us : List (Nat × List Byte)} {cls : BitVec 4}

/-- Words at aligned addresses. -/
theorem words {places : List (Nat × List Byte)} (h : ∀ p ∈ places, p.1 % 4 = 0 ∧ p.2.length = 4) :
    LocalUnits k 4 (places.flatMap fun p => ((List.range p.2.length).zip p.2).map fun ib => (p.1 + ib.1, ib.2))
      (places.map fun p => (spmPa k p.1, p.2)) := by
  have hcells : (places.flatMap fun p => ((List.range p.2.length).zip p.2).map fun ib => (p.1 + ib.1, ib.2)).map
      (fun x => (spmPa k x.1, x.2)) = (places.map fun p => (spmPa k p.1, p.2)).flatMap fun u => cellsAt u.1 u.2 := by
    rw [List.map_flatMap, List.flatMap_map]
    refine List.flatMap_congr fun p _ => ?_
    rw [List.map_map, ← cellsAt_zip]
    exact List.map_congr_left fun ib _ => Prod.ext (Nat.add_assoc _ _ _).symm rfl
  refine ⟨hcells, ?_⟩
  rw [hcells]
  refine joinUnits_words fun u hu => ?_
  obtain ⟨p, hp, rfl⟩ := List.mem_map.1 hu
  obtain ⟨hal, hlen⟩ := h p hp
  exact ⟨by simp only [spmPa]; omega, hlen⟩

/-- The memory of a state in which a store has learnt what it comes after. -/
theorem touched (s : State) (w : Who) (us : List (Nat × List Byte)) :
    ((us.foldl (fun t u => t.touch w u.1 u.2.length) s).front, (us.foldl (fun t u => t.touch w u.1 u.2.length) s).mem) =
      (s.front, s.mem) :=
  foldl_leaves (fun t : State => (t.front, t.mem)) (fun (t : State) (v : Nat × List Byte) => t.touch w v.1 v.2.length)
    (fun t v => touch_quiet t w v.1 v.2.length) us s

theorem fold_cells (h : LocalUnits k unit ws us) (m : List Host.Cell) :
    ws.foldl (fun m x => wr m (spmPa k x.1) x.2) m = wrAll m us := by
  have hmap : ws.foldl (fun m x => wr m (spmPa k x.1) x.2) m =
      (ws.map fun x => (spmPa k x.1, x.2)).foldl (fun m x => wr m x.1 x.2) m := by rw [List.foldl_map]
  rw [hmap, h.cells, List.foldl_flatMap]
  simp only [cellsAt_wr]
  rfl

/-- The words of a store that comes last stand in memory. -/
theorem mem_lasts (h : LocalUnits s.cur.1.toNat unit ws us) (hp : s.promises = [])
    (ho : ∀ u ∈ us, s.over (s.access .loc (clsBit cls)) u.1 u.2.length = []) :
    (s.storeLocal ws cls unit).mem = wrAll s.mem us := by
  have hall : (us.all fun u => (s.over (s.access .loc (clsBit cls)) u.1 u.2.length).isEmpty) = true :=
    List.all_eq_true.2 fun u hu => by rw [ho u hu]; rfl
  unfold State.storeLocal
  dsimp only
  rw [h.joined, hp, hall, ← h.fold_cells]
  split
  · rename_i hw
    rw [List.isEmpty_iff.1 hw]; rfl
  · rfl

/-- A store leaves every byte outside its units as it was, whatever places its units take. -/
theorem mem_out (h : LocalUnits s.cur.1.toNat unit ws us) (hhigh : ∀ u ∈ us, 0x008000000000 ≤ u.1)
    (hz : ∀ u ∈ us, z < u.1 ∨ u.1 + u.2.length ≤ z) : rd (s.storeLocal ws cls unit).mem z = rd s.mem z := by
  unfold State.storeLocal
  dsimp only
  rw [h.joined]
  split
  · rfl
  · split
    · rw [h.fold_cells]
      exact rd_wrAll_out _ hz
    · rw [writeUnits_mem_window hhigh hz]
      exact congrArg (rd · z) (congrArg Prod.snd (touched s _ us) :)

end LocalUnits

theorem storeLocal_front (s : State) (ws : List (Nat × Byte)) (cls : BitVec 4) (n : Nat) :
    (s.storeLocal ws cls n).front = s.front := by
  unfold State.storeLocal
  dsimp only
  split
  · rfl
  · split
    · exact (congrArg Prod.fst (LocalUnits.touched s _ _) :)
    · exact (writeUnits_front _ _ _).trans (congrArg Prod.fst (LocalUnits.touched s _ _) :)

end Sys2Proof.Machine
end

section
/-! Vector stores, accesses to the accumulator store, and local accesses by scalars (R71, R77, R93, R98, R188 to R190, R214). -/
namespace Sys2Proof.Machine

variable {s : State} {i : Instr} {h : VHead} {d : VReg} {at_ : Nat → Int} {en : BitVec 16} {f : VmForm} {pa : Nat}

/-! ### Operations that store in the program phase -/

/-- An issuing operation that pops nothing commits after its local stores. -/
theorem issues_stores (hi : IsOperation i) (h : Issues i s) (hp : (planOf i s).pops = []) : exec i s =
    .next ((planOf i s).commit ((heard i s).storeLocal (planOf i s).stores (planOf i s).cls (planOf i s).unit)).finish := by
  rw [operationsComplete i s hi h, Plan.apply, hp, heard, hp]
  rfl

/-- What an operation leaves whose state, when it has committed, has the cores and requests of the one it issued in. -/
theorem finish_front {u : State} (hu : u.front = (heard i s).front) (he : s.me.ending = false) :
    u.finish.me.pend = s.me.pend ∧ u.finish.me.scal = s.me.scal ∧ u.finish.me.flags = s.me.flags ∧
      u.finish.here.vregs = s.here.vregs ∧ u.finish.reqs = s.reqs := by
  obtain ⟨-, hme, hhere⟩ := heard_same i s
  have hume : u.me = (heard i s).me := front_me hu
  have hend : u.me.ending = false := by rw [hume, heard_ending]; exact he
  have hreqs : u.reqs = s.reqs := (front_reqs hu).trans (congrArg State.reqs (consumptionIsQuiet i s).1 :)
  rw [finish_runs hend, State.me_modMe, State.here_modMe, hume, front_here hu]
  exact ⟨(congrArg Ctx.pend hme :), heard_scal i s, (congrArg Ctx.flags hme :), (congrArg Core.vregs hhere :), hreqs⟩

/-! ### Vector stores (R71, R188, R189) -/

/-- The bytes of a lane's word. -/
def laneBytes (w : Word) : List Byte := (List.range 4).map fun b => w.extractLsb' (8 * b) 8

theorem length_laneBytes (w : Word) : (laneBytes w).length = 4 := by
  rw [laneBytes, List.length_map, List.length_range]

theorem laneBytes_get (w : Word) {b : Nat} (hb : b < (laneBytes w).length) : (laneBytes w)[b] = w.extractLsb' (8 * b) 8 := by
  simp [laneBytes]

theorem alignCheck_passes {as : List Int} {n : Int} (hc : alignCheck as n = .ok) : ∀ a ∈ as, a % n = 0 := by
  unfold alignCheck at hc
  split at hc
  · cases hc
  · rename_i hno
    simpa using List.find?_eq_none.1 hno

/-- The lanes of an access that issues are aligned words. -/
theorem VmPlan.word_aligned (hv : VmPlan i h d at_ s f) (hi : Issues i s) {l : Nat} (hl16 : l < 16)
    (hel : (laneMask h s).getLsbD l = true) : (at_ l).toNat % 4 = 0 := by
  obtain ⟨-, -, hc⟩ := hi
  have hcheck : ((_ : Check).and ((alignCheck f.base f.align).and _)) = .ok :=
    hv.check.2.symm.trans (Check.and_eq_ok.1 (Check.and_eq_ok.1 hc).1).1
  have hal := alignCheck_passes (Check.and_eq_ok.1 (Check.and_eq_ok.1 hcheck).2).1
  cases hp : isPlainVm i with
  | true =>
    obtain ⟨h64, hbase⟩ := hv.plain hp
    have hen : laneMask h s ≠ 0 := fun h0 => by rw [h0] at hel; simp at hel
    rw [h64, hbase, if_neg hen] at hal
    have h0 := hal _ (List.mem_singleton.2 rfl)
    have hl := hv.steps hp l
    omega
  | false =>
    obtain ⟨h4, hbase⟩ := hv.lanes hp
    rw [h4, hbase] at hal
    have h0 := hal _ (List.mem_map.2 ⟨l, mem_laneList.2 ⟨hl16, hel⟩, rfl⟩)
    omega

/-- The words of a vector store: their local addresses and bytes. -/
def storedWords (h : VHead) (d : VReg) (at_ : Nat → Int) (s : State) : List (Nat × List Byte) :=
  (laneList (laneMask h s)).map fun l => ((at_ l).toNat, laneBytes (lane (aget s.here.vregs (320 * h.cl.toNat + d.toNat) 0) l))

theorem VmPlan.stores_words (hv : VmPlan i h d at_ s f) (hl : isVload i = false) :
    (planOf i s).stores = (storedWords h d at_ s).flatMap fun p => ((List.range p.2.length).zip p.2).map fun ib => (p.1 + ib.1, ib.2) := by
  rw [hv.store hl, storedWords, List.flatMap_map, ← hv.places]
  refine List.flatMap_congr fun l _ => ?_
  rw [length_laneBytes, laneBytes, ← List.map_prod_left_eq_zip, List.map_map]
  rfl

theorem VmPlan.unit_words (hv : VmPlan i h d at_ s f) (hl : isVload i = false) : (planOf i s).unit = 4 := by
  have four (ns : List Nat) : ns.foldl (fun m _ => max m 4) 4 = 4 := by
    induction ns with
    | nil => rfl
    | cons n ns ih => exact ih
  rw [hv.store hl]
  change ((lineOrder _ true).foldl (fun m a => max m a.unit) 4) = 4
  rw [lineOrder, List.foldl_map]
  exact four _

/-- A vector store's units are its words. -/
theorem VmPlan.units (hv : VmPlan i h d at_ s f) (hl : isVload i = false) (hi : Issues i s) (k : Nat) :
    LocalUnits k (planOf i s).unit (planOf i s).stores ((storedWords h d at_ s).map fun p => (spmPa k p.1, p.2)) := by
  rw [hv.unit_words hl, hv.stores_words hl]
  refine .words fun p hp => ?_
  obtain ⟨l, hm, rfl⟩ := List.mem_map.1 hp
  exact ⟨hv.word_aligned hi (mem_laneList.1 hm).1 (mem_laneList.1 hm).2, length_laneBytes _⟩

theorem spmPa_high (k x : Nat) : 0x008000000000 ≤ spmPa k x := by
  rw [spmPa]; omega

theorem vectorStores : Sys2Proof.Claim.VectorStores := by
  intro i h d at_ s hl ha hi he en pa
  obtain ⟨f, hv⟩ := vmPlan_of ha
  have hplan := hv.store hl
  have hcls : (planOf i s).cls = 0 := by rw [hplan]; rfl
  have hunits := hv.units hl hi (heard i s).cur.1.toNat
  have hrun : exec i s = .next ((heard i s).storeLocal (planOf i s).stores (planOf i s).cls (planOf i s).unit).finish := by
    rw [issues_stores hv.isOp hi (by rw [hplan]; rfl)]
    conv_lhs => rw [show (planOf i s).commit = id by rw [hplan]; rfl]
    rfl
  obtain ⟨hpend, hscal, hflags, hvregs, hreqs⟩ := finish_front (storeLocal_front (heard i s) (planOf i s).stores (planOf i s).cls (planOf i s).unit) he
  have hmem (u : Nat × List Byte) : u ∈ (storedWords h d at_ s).map (fun p => (spmPa (heard i s).cur.1.toNat p.1, p.2)) →
      ∃ l, l < 16 ∧ en.getLsbD l = true ∧ u.1 = pa l ∧ u.2.length = 4 := by
    rw [heard_cur, storedWords, List.map_map]
    intro hu
    obtain ⟨l, hm, rfl⟩ := List.mem_map.1 hu
    exact ⟨l, (mem_laneList.1 hm).1, (mem_laneList.1 hm).2, rfl, length_laneBytes _⟩
  refine ⟨_, hrun, fun hlast l b hl16 hel hb hlater => ?_, fun a hout => ?_, hpend, hscal, hflags, hvregs, hreqs⟩
  · rw [finish_mem, hcls, hunits.mem_lasts (hlast l hl16 hel).2 fun u hu => ?_]
    · obtain ⟨pre, post, hsplit, -, hpost⟩ := laneList_split hl16 hel
      rw [heard_cur, storedWords, List.map_map, show laneList (laneMask h s) = _ from hsplit, List.map_append, List.map_cons]
      refine (rd_wrAll_last _ (by rw [length_laneBytes]; exact hb) fun u hu => ?_).trans (laneBytes_get _ _)
      obtain ⟨j, hj, rfl⟩ := List.mem_map.1 hu
      obtain ⟨hlj, hj16, hej⟩ := hpost j hj
      have hapart := hlater j hlj hj16 hej
      simp only [Function.comp_apply, length_laneBytes]
      change pa l + b < pa j ∨ pa j + 4 ≤ pa l + b
      omega
    · obtain ⟨j, hj16, hej, hu1, hu2⟩ := hmem u hu
      rw [hu1, hu2]
      exact (hlast j hj16 hej).1
  · rw [finish_mem, hunits.mem_out (fun u hu => ?_) fun u hu => ?_, heard_mem]
    · obtain ⟨j, -, -, hu1, -⟩ := hmem u hu
      rw [hu1]
      exact spmPa_high _ _
    · obtain ⟨j, hj16, hej, hu1, hu2⟩ := hmem u hu
      have := hout j hj16 hej
      omega

/-! ### The accumulator store (R77, R98, R190) -/

theorem accPa_add (k y n : Nat) : accPa k (y + n) = accPa k y + n := by
  unfold accPa
  omega

theorem isAcc_accPa {k x : Nat} (hk : k < 128) (hx : x < 0x200000) : isAcc (accPa k x) = true := by
  have hlow : ¬ accPa k x < 0x008000000000 := by rw [accPa]; omega
  have hspm : ¬ (0x010000000000 ≤ accPa k x ∧ accPa k x < 0x010080000000) := by rw [accPa]; omega
  have hacc : 0x020000000000 ≤ accPa k x ∧ accPa k x < 0x020010000000 := by rw [accPa]; omega
  rw [isAcc, homeOf, if_neg hlow, if_neg hspm, if_pos hacc]

/-- The row that an issuing access to the accumulator store names lies in it. -/
theorem accCheck_passes {y : Int} {wr : Bool} (hc : accCheck s h en y wr = .ok) : en = 0 ∨ (0 ≤ y ∧ y + 64 ≤ 0x200000) := by
  by_cases he : en = 0
  · exact .inl he
  · refine .inr ?_
    rw [accCheck, if_neg he] at hc
    have hin := (Check.and_eq_ok.1 (Check.and_eq_ok.1 hc).2).2
    split at hin
    · cases hin
    · omega

/-- The words of a row that is accessed are words of the accumulator store. -/
theorem row_words {y : Int} {wr : Bool} {k : CoreId} (hc : accCheck s h en y wr = .ok) {l : Nat} (hl : l ∈ laneList en) :
    isAcc (accPa k.toNat y.toNat + 4 * l) = true := by
  have hl16 := (mem_laneList.1 hl).1
  rcases accCheck_passes hc with h0 | ⟨hlo, hhi⟩
  · rw [laneList_nil h0] at hl; cases hl
  · have hword : accPa k.toNat y.toNat + 4 * l = accPa k.toNat (y.toNat + 4 * l) := Nat.add_assoc _ _ _
    rw [hword]
    exact isAcc_accPa k.isLt (by omega)

/-- A word of an accumulator store is read in the order of its accesses: no write to come is read (R77). -/
theorem see_acc (ha : isAcc pa = true) (s : State) (q : Who) (n : Nat) : ∃ c, (s.see q pa n).2 = { s with freeCtr := c } := by
  have hno (p : Promise) (m : Nat) : p.hits pa m = false := by
    unfold isAcc at ha
    unfold Promise.hits
    split at ha <;> simp_all
  have hforesee (u : State) (seen : List Nat) (bs : List Byte) : u.foresee q pa seen bs = (bs, [], u) := by
    have hnil : u.promises.filter (·.hits pa bs.length) = [] := by simp [hno]
    rw [State.foresee, hnil]
  refine ⟨s.freeCtr + (s.missable q pa n).length, ?_⟩
  rw [State.see, State.look]
  dsimp only
  rw [hforesee]

theorem seeAcc_quiet (hacc : ∀ l ∈ laneList en, isAcc (pa + 4 * l) = true) (u : State) :
    ∃ c, (u.seeAcc pa en).2 = { u with freeCtr := c } := by
  unfold State.seeAcc
  dsimp only
  split
  · exact ⟨u.freeCtr, rfl⟩
  · refine List.foldlRecOn (motive := fun r : Line × State => ∃ c, r.2 = { u with freeCtr := c }) (laneList en) _
      ⟨u.freeCtr, rfl⟩ fun r ⟨c, hr⟩ l hl => ?_
    obtain ⟨c', hsee⟩ := see_acc (hacc l hl) r.2 (u.access .loc 1) 4
    exact ⟨c', hsee.trans (by rw [hr])⟩

/-- The lanes of a row whose words are poisoned. -/
def State.rowPoison (s : State) (pa : Nat) (en : BitVec 16) : BitVec 16 :=
  if s.poison.isEmpty then 0 else
    BitVec.ofNat 16 (((laneList en).filter fun l => s.poisoned (pa + 4 * l) 4).foldl (fun m l => m + 2 ^ l) 0)

/-- An issuing VLDA puts what it reads in flight. -/
theorem vlda_commits {k : SReg} {off : BitVec 9} (hi : Issues (.vlda h d k off) s) : ∃ poi, (s.poison = [] → poi = 0) ∧
    let r := (heard (.vlda h d k off) s).seeAcc (accPa s.cur.1.toNat (accY s.me k off).toNat) (laneMask h s)
    exec (.vlda h d k off) s = .next (r.2.result (.v h.cl.toNat d.toNat) r.1 8 (laneMask h s) poi).finish := by
  have hrun := issues_commits (i := .vlda h d k off) rfl hi rfl rfl
  have hpoison : (heard (.vlda h d k off) s).poison = s.poison :=
    (congrArg State.poison (consumptionIsQuiet (.vlda h d k off) s).1 :)
  refine ⟨(heard (.vlda h d k off) s).rowPoison (accPa s.cur.1.toNat (accY s.me k off).toNat) (laneMask h s), fun hp => ?_,
    hrun.trans ?_⟩
  · rw [State.rowPoison, hpoison, hp]
    rfl
  · rw [← heard_cur (.vlda h d k off) s]
    rfl

/-- The checks that an issuing operation has passed. -/
theorem issues_passed (hi : Issues i s) : (planOf i s).check = .ok :=
  (Check.and_eq_ok.1 (Check.and_eq_ok.1 hi.2.2).1).1

theorem accumulatorLoad {k : SReg} {off : BitVec 9} (hi : Issues (.vlda h d k off) s) :
    let u := heard (.vlda h d k off) s
    let pa := accPa s.cur.1.toNat (accY s.me k off).toNat
    (u.sure (u.access .loc 1) pa 64 = true → ∃ v poi, (s.poison = [] → poi = 0) ∧
      (∀ l, l < 16 → (laneMask h s).getLsbD l = true → lane v l = rdWord s.mem (pa + 4 * l)) ∧
      exec (.vlda h d k off) s = .next (u.result (.v h.cl.toNat d.toNat) v 8 (laneMask h s) poi).finish) ∧
    ∃ v poi n, exec (.vlda h d k off) s =
      .next (({ u with freeCtr := n } : State).result (.v h.cl.toNat d.toNat) v 8 (laneMask h s) poi).finish := by
  intro u pa
  obtain ⟨poi, hpoi, hrun⟩ := vlda_commits hi
  refine ⟨fun hsure => ?_, ?_⟩
  · have hsee : u.seeAcc pa (laneMask h s) =
        (mkLine fun l => if (laneMask h s).getLsbD l then rdWord u.mem (pa + 4 * l) else 0, u) := if_pos hsure
    refine ⟨_, poi, hpoi, fun l hl16 hel => ?_, hrun.trans (by rw [hsee])⟩
    rw [lane_mkLine _ hl16, if_pos hel, show u.mem = s.mem from heard_mem ..]
  · have hcheck : accCheck s h (laneMask h s) (accY s.me k off) false = .ok := issues_passed hi
    obtain ⟨n, hn⟩ := seeAcc_quiet (fun l hl => row_words (k := s.cur.1) hcheck hl) u
    exact ⟨_, poi, n, hrun.trans (by rw [hn])⟩

/-- The words of a row, with their addresses. -/
def rowWords (pa : Nat) (en : BitVec 16) (v : Line) : List (Nat × List Byte) :=
  (laneList en).map fun l => (pa + 4 * l, leBytes 4 (lane v l).toNat)

/-- What VSTA's writes leave: its words in memory, in lane order (R77, R190). -/
theorem vsta_writes {y : Nat} {v : Line} (ls : List Nat) (u : State)
    (hacc : ∀ l ∈ ls, isAcc (accPa u.cur.1.toNat y + 4 * l) = true) :
    let t := ls.foldl (fun u l => u.writeBy (u.access .loc 1) (accPa u.cur.1.toNat (y + 4 * l)) (leBytes 4 (lane v l).toNat)) u
    t.front = u.front ∧ t.mem = wrAll u.mem (ls.map fun l => (accPa u.cur.1.toNat y + 4 * l, leBytes 4 (lane v l).toNat)) := by
  induction ls generalizing u with
  | nil => exact ⟨rfl, rfl⟩
  | cons l ls ih =>
    rw [List.forall_mem_cons] at hacc
    have hword := accPa_add u.cur.1.toNat y (4 * l)
    have hfront := writeBy_front u (u.access .loc 1) (accPa u.cur.1.toNat (y + 4 * l)) (leBytes 4 (lane v l).toNat)
    have hcur := front_cur hfront
    obtain ⟨hf, hm⟩ := ih _ (by rw [hcur]; exact hacc.2)
    refine ⟨hf.trans hfront, hm.trans ?_⟩
    rw [hcur, hword, writeBy_acc_mem hacc.1, List.map_cons]
    rfl

theorem rdWord_rowWords {v : Line} {l : Nat} (m : List Host.Cell) (hl16 : l < 16) (hel : en.getLsbD l = true) :
    rdWord (wrAll m (rowWords pa en v)) (pa + 4 * l) = lane v l := by
  obtain ⟨pre, post, hsplit, -, hpost⟩ := laneList_split hl16 hel
  rw [rowWords, hsplit, List.map_append, List.map_cons, wrAll, List.foldl_append, List.foldl_cons]
  refine (rdWord_congr fun a h1 h2 => rd_wrAll_out _ fun u hu => ?_).trans (rdWord_wrBytes _ _ _)
  obtain ⟨j, hj, rfl⟩ := List.mem_map.1 hu
  have := (hpost j hj).1
  rw [length_leBytes]
  omega

theorem accumulatorStore {k : SReg} {off : BitVec 9} (hi : Issues (.vsta h d k off) s) (he : s.me.ending = false) :
    let pa := accPa s.cur.1.toNat (accY s.me k off).toNat
    ∃ t, exec (.vsta h d k off) s = .next t ∧
      (∀ l, l < 16 → (laneMask h s).getLsbD l = true →
        rdWord t.mem (pa + 4 * l) = lane (aget s.here.vregs (320 * h.cl.toNat + d.toNat) 0) l) ∧
      (∀ a, (∀ l, l < 16 → (laneMask h s).getLsbD l = true → ¬ (pa + 4 * l ≤ a ∧ a < pa + 4 * l + 4)) →
        rd t.mem a = rd s.mem a) ∧
      t.me.pend = s.me.pend ∧ t.me.scal = s.me.scal ∧ t.here.vregs = s.here.vregs := by
  intro pa
  have hcheck : accCheck s h (laneMask h s) (accY s.me k off) true = .ok := issues_passed hi
  have hrun := issues_commits (i := .vsta h d k off) rfl hi rfl rfl
  obtain ⟨hfront, hmem⟩ := vsta_writes (v := s.here.v' h.cl d) (laneList (laneMask h s)) (heard (.vsta h d k off) s)
    (fun l hl => row_words hcheck hl)
  obtain ⟨hpend, hscal, -, hvregs, -⟩ := finish_front hfront he
  rw [heard_cur, heard_mem] at hmem
  refine ⟨_, hrun, fun l hl16 hel => ?_, fun a hout => ?_, hpend, hscal, hvregs⟩
  · rw [finish_mem]
    exact (congrArg (rdWord · _) hmem).trans (rdWord_rowWords _ hl16 hel)
  · rw [finish_mem]
    refine (congrArg (rd · a) hmem).trans (rd_wrAll_out _ fun u hu => ?_)
    obtain ⟨l, hl, rfl⟩ := List.mem_map.1 hu
    have := hout l (mem_laneList.1 hl).1 (mem_laneList.1 hl).2
    rw [length_leBytes]
    omega

theorem accumulatorAccesses : Sys2Proof.Claim.AccumulatorAccesses := by
  intro h d k off s en y pa
  have hy : accY s.me k off = y := accY_eq ..
  have hload := accumulatorLoad (h := h) (d := d) (k := k) (off := off) (s := s)
  have hstore := accumulatorStore (h := h) (d := d) (k := k) (off := off) (s := s)
  rw [hy] at hload hstore
  exact ⟨hload, hstore⟩

/-! ### Local accesses by scalars (R93, R214) -/

theorem scalarAddr_eq (x : Ctx) (a : AReg) (off : BitVec 12) :
    scalarAddr x a off = (BitVec.ofInt 64 ((x.a a).toNat + off.toInt)).toNat := by
  rw [scalarAddr, BitVec.ofInt_add, BitVec.ofInt_natCast, BitVec.ofNat_toNat, BitVec.setWidth_eq]
  rfl

/-- A loaded value extended with its sign is the signed number in its bytes. -/
theorem extend_eq {z : Size} (sx : Bool) {raw : Nat} (hr : raw < 2 ^ (8 * sizeBytes z)) : extend (sizeBytes z) sx raw =
    if sx then BitVec.ofInt 64 (BitVec.ofNat (8 * sizeBytes z) raw).toInt else BitVec.ofNat 64 raw := by
  have hpow : 2 * 2 ^ (8 * sizeBytes z - 1) = 2 ^ (8 * sizeBytes z) := by cases z <;> rfl
  cases sx with
  | false => rfl
  | true =>
    have hmod : (BitVec.ofNat (8 * sizeBytes z) raw).toNat = raw := by rw [BitVec.toNat_ofNat, Nat.mod_eq_of_lt hr]
    rw [extend, BitVec.toInt_eq_toNat_cond, hmod, Bool.true_and, if_pos rfl]
    by_cases hneg : 2 ^ (8 * sizeBytes z - 1) ≤ raw
    · rw [if_pos (decide_eq_true hneg), if_neg (by omega)]
      simp
    · rw [if_neg (by simpa using hneg), if_pos (by omega), BitVec.ofInt_natCast]

theorem leNat_lt (bs : List Byte) : leNat bs < 2 ^ (8 * bs.length) := by
  induction bs with
  | nil => decide
  | cons b bs ih =>
    rw [leNat, List.length_cons, Nat.mul_succ, Nat.pow_add]
    have := b.isLt
    omega

theorem rdNat_lt (m : List Host.Cell) (pa n : Nat) : rdNat m pa n < 2 ^ (8 * n) := by
  have h := leNat_lt (rdBytes m pa n)
  rwa [rdBytes_length] at h

theorem leBytes_get {n v i : Nat} (hi : i < (leBytes n v).length) : (leBytes n v)[i] = BitVec.ofNat 8 (v / 2 ^ (8 * i)) := by
  induction n generalizing v i with
  | zero => cases hi
  | succ n ih =>
    cases i with
    | zero => simp [leBytes]
    | succ i =>
      have hi' : i < (leBytes n (v / 256)).length := by simpa [leBytes] using hi
      refine (ih hi').trans ?_
      rw [Nat.div_div_eq_div_mul, show (256 : Nat) = 2 ^ 8 from rfl, ← Nat.pow_add]
      exact congrArg (fun e => BitVec.ofNat 8 (v / 2 ^ e)) (by omega)

theorem leBytes_extract {n i : Nat} (v : Dword) (hi : i < (leBytes n v.toNat).length) :
    (leBytes n v.toNat)[i] = v.extractLsb' (8 * i) 8 := by
  rw [leBytes_get]
  refine BitVec.eq_of_toNat_eq ?_
  rw [BitVec.toNat_ofNat, BitVec.extractLsb'_toNat, Nat.shiftRight_eq_div_pow]

/-- An operation that reads no scalar and pops nothing consumes nothing. -/
theorem heard_quiet (hp : (planOf i s).pops = []) (hr : ∀ r ∈ (planOf i s).reads, ∀ e, r.1 ≠ .s e) : heard i s = s := by
  rw [heard, hp]
  exact consumeAll_noScalar hr

section Scalar

variable {g : Guard} {a : AReg} {b dest : SReg} {cls : BitVec 4} {off : BitVec 12} {sx : Bool} {z : Size}

theorem ldsL_loads (hp : performs g s.me = true) (hi : Issues (.ldsL g dest a cls off sx z) s) :
    let va := scalarAddr s.me a off
    let pa := spmPa s.cur.1.toNat va
    exec (.ldsL g dest a cls off sx z) s = .next (s.result (.s (s.me.phys dest))
      ((extend (sizeBytes z) sx (rdNat s.mem pa (sizeBytes z))).setWidth 512) 6 0xFFFF
      (if s.poisoned pa (sizeBytes z) then 1 else 0)).finish := by
  have hplan : planOf (.ldsL g dest a cls off sx z) s = planLdsL g dest a cls off sx z s := rfl
  rw [planLdsL, gplan_true hp] at hplan
  have hheard : heard (.ldsL g dest a cls off sx z) s = s := by
    refine heard_quiet (by rw [hplan]; rfl) fun r hr => ?_
    rw [hplan] at hr
    exact (List.mem_append.1 hr).elim (rP_noScalar _ r) (rA_noScalar a r)
  rw [issues_commits rfl hi (by rw [hplan]; rfl) (by rw [hplan]; rfl), hheard, hplan]
  rfl

/-- The bytes of a local store by a scalar are one unit: they lie in one aligned piece of 8 bytes. -/
theorem sts_units {k va : Nat} {bs : List Byte} (hlen : bs.length = sizeBytes z) (hal : va % sizeBytes z = 0) :
    LocalUnits k 8 (((List.range bs.length).zip bs).map fun ib => (va + ib.1, ib.2)) [(spmPa k va, bs)] := by
  have hcells : (((List.range bs.length).zip bs).map fun ib => (va + ib.1, ib.2)).map (fun x => (spmPa k x.1, x.2)) =
      cellsAt (spmPa k va) bs := by
    rw [List.map_map, ← cellsAt_zip]
    exact List.map_congr_left fun ib _ => Prod.ext (Nat.add_assoc _ _ _).symm rfl
  refine ⟨by rw [hcells]; simp, ?_⟩
  rw [hcells, ← List.append_nil (cellsAt _ _)]
  refine joinUnits_piece (rest := []) ?_ (fun j hj => ?_) nofun
  · rintro rfl
    cases z <;> cases hlen
  · rw [hlen] at hj
    unfold spmPa
    cases z <;> simp only [sizeBytes] at hj hal <;> omega

theorem misaligned_passes {va n : Nat} (hc : misaligned [va] n = .ok) : va % n = 0 := by
  by_contra hne
  simp [misaligned, hne] at hc

theorem stsL_stores (hp : performs g s.me = true) (hi : Issues (.stsL g a b cls off z) s) (he : s.me.ending = false) :
    let n := sizeBytes z
    let pa := spmPa s.cur.1.toNat (scalarAddr s.me a off)
    let u := heard (.stsL g a b cls off z) s
    ∃ t, exec (.stsL g a b cls off z) s = .next t ∧
      (Lasts u (u.access .loc (clsBit cls)) pa n → ∀ j, j < n → rd t.mem (pa + j) = (s.me.s b).extractLsb' (8 * j) 8) ∧
      (∀ x, ¬ (pa ≤ x ∧ x < pa + n) → rd t.mem x = rd s.mem x) ∧
      t.me.scal = s.me.scal ∧ t.me.pend = s.me.pend ∧ t.reqs = s.reqs := by
  intro n pa u
  have hplan : planOf (.stsL g a b cls off z) s = planStsL g a b cls off z s := rfl
  rw [planStsL, gplan_true hp] at hplan
  have hal : scalarAddr s.me a off % n = 0 := by
    have hc := issues_passed hi
    rw [hplan] at hc
    exact misaligned_passes (Check.and_eq_ok.1 hc).1
  have hlen : (leBytes n (s.me.s b).toNat).length = n := length_leBytes _ _
  have hstores : (planOf (.stsL g a b cls off z) s).stores = ((List.range (leBytes n (s.me.s b).toNat).length).zip
      (leBytes n (s.me.s b).toNat)).map fun ib => (scalarAddr s.me a off + ib.1, ib.2) := by
    rw [hplan, hlen]; rfl
  have hrun : exec (.stsL g a b cls off z) s = .next (u.storeLocal (planOf (.stsL g a b cls off z) s).stores cls 8).finish := by
    rw [issues_stores rfl hi (by rw [hplan]; rfl), hplan]
    rfl
  have hunits : LocalUnits u.cur.1.toNat 8 (planOf (.stsL g a b cls off z) s).stores [(pa, leBytes n (s.me.s b).toNat)] := by
    rw [hstores, show u.cur = s.cur from heard_cur ..]
    exact sts_units hlen hal
  obtain ⟨hpend, hscal, -, -, hreqs⟩ := finish_front (storeLocal_front u (planOf (.stsL g a b cls off z) s).stores cls 8) he
  refine ⟨_, hrun, fun ⟨hover, hprom⟩ j hj => ?_, fun x hout => ?_, hscal, hpend, hreqs⟩
  · rw [finish_mem, hunits.mem_lasts hprom fun v hv => ?_]
    · exact (rd_wrAll_last (pre := []) (post := []) _ (by rw [hlen]; exact hj) nofun).trans (leBytes_extract _ _)
    · rw [List.mem_singleton.1 hv, hlen]
      exact hover
  · rw [finish_mem, hunits.mem_out (fun v hv => ?_) fun v hv => ?_, show u.mem = s.mem from heard_mem ..]
    · rw [List.mem_singleton.1 hv]
      exact spmPa_high _ _
    · rw [List.mem_singleton.1 hv, hlen]
      omega

end Scalar

theorem localScalarAccesses : Sys2Proof.Claim.LocalScalarAccesses := by
  intro g a cls off z s hp va n pa
  have hva : scalarAddr s.me a off = va := scalarAddr_eq ..
  refine ⟨fun d sx hi => ?_, fun b hi he => ?_⟩
  · intro raw v
    rw [ldsL_loads hp hi, hva, extend_eq sx (rdNat_lt _ _ _)]
  · have hstore := stsL_stores hp hi he
    rw [hva] at hstore
    exact hstore

/-- Settles O20: a store's units are its words, which stand in memory where none comes after them, and lie outside what is
stamped; the words of an accumulator store are always the last. -/
theorem localStores : Obligations.LocalStores := ⟨vectorStores, accumulatorAccesses, localScalarAccesses⟩

end Sys2Proof.Machine
end

section
/-! Global accesses at their homes: when they perform, the order of a context's accesses, and the errors they meet
(R80, R90, R92 to R94, R322). -/
namespace Sys2Proof.Machine

variable {s t : State} {r a : Req} {n : Nat} {err : ReadErr}

/-! ### The steps -/

theorem exec_memRequestService (n : Nat) (err : ReadErr) (s : State) :
    exec (.memRequestService n err) s = enabled (if serveReady s n then s.serve n err else none) := rfl

theorem exec_globalAccessPerform (n : Nat) (err : ReadErr) (s : State) :
    exec (.globalAccessPerform n err) s = enabled (if homeReady s n then s.serve n err else none) := rfl

theorem serveReady_eq (hr : s.reqs[n]? = some r) :
    ∃ served, serveReady s n = (r.inDram && !reqBlocked s n r && deadlineFirst s n r && served) := by
  unfold serveReady
  rw [hr]
  exact ⟨_, rfl⟩

theorem homeReady_eq (hr : s.reqs[n]? = some r) : homeReady s n =
    (!r.inDram && !reqBlocked s n r && s.engOk (spmLines r.pa r.len)) := by
  unfold homeReady
  rw [hr]

theorem serveReady_inDram (hr : s.reqs[n]? = some r) (h : serveReady s n = true) : homeOf r.pa = .dram := by
  obtain ⟨served, heq⟩ := serveReady_eq hr
  rw [heq] at h
  simp only [Bool.and_eq_true, Req.inDram, beq_iff_eq] at h
  obtain ⟨⟨⟨hdram, -⟩, -⟩, -⟩ := h
  exact hdram

/-- A request that its order blocks performs nowhere. -/
theorem reqBlocked_waits (hr : s.reqs[n]? = some r) (hb : reqBlocked s n r = true) (err : ReadErr) :
    exec (.memRequestService n err) s = .fault .notEnabled ∧ exec (.globalAccessPerform n err) s = .fault .notEnabled := by
  obtain ⟨served, heq⟩ := serveReady_eq hr
  rw [exec_memRequestService, exec_globalAccessPerform, heq, homeReady_eq hr, hb]
  simp [enabled]

theorem orderedAccessesWait : Sys2Proof.Claim.OrderedAccessesWait := by
  intro s m n a r ha hr hmn hcore hctx hord err
  refine reqBlocked_waits hr (List.any_eq_true.2 ⟨a, ?_, ?_⟩) err
  · refine List.mem_iff_getElem?.2 ⟨m, ?_⟩
    rw [List.getElem?_take, if_pos hmn]
    exact ha
  · rw [hcore, hctx, beq_self_eq_true, beq_self_eq_true, Bool.true_and, Bool.true_and]
    unfold orderedBefore
    rcases hord with hmeet | ⟨hcls, hpos⟩ | ⟨f, hf, hfa, hfr, hma, hmr⟩
    · have : a.meets r = true := by simp [Req.meets, hmeet]
      simp [this]
    · simp [hcls, hpos]
    · have : fenced (s.ctx r.core r.ctx).fences a r = true :=
        List.any_eq_true.2 ⟨f, hf, by simp [hfa, hfr, hma, hmr]⟩
      simp [this]

/-! ### Serving a request (R80, R322) -/

theorem spmLines_dram {pa : Nat} (h : homeOf pa = .dram) (n : Nat) : spmLines pa n = [] := by
  unfold spmLines
  rw [h]

theorem performAt_some (hr : s.reqs[n]? = some r) : s.performAt n =
    ({ s with reqs := s.reqs.eraseIdx n }.engTake (spmLines r.pa r.len)).perform r := by
  unfold State.performAt
  rw [hr]

theorem performAt_dram (hr : s.reqs[n]? = some r) (hd : homeOf r.pa = .dram) :
    s.performAt n = { s with reqs := s.reqs.eraseIdx n }.perform r := by
  rw [performAt_some hr, spmLines_dram hd]
  rfl

theorem serve_clean (hr : s.reqs[n]? = some r) : s.serve n .clean = some (s.performAt n) := by
  unfold State.serve
  rw [hr]
  rfl

theorem serve_meets {w addr : Nat} (hr : s.reqs[n]? = some r) (hw : r.words[w]? = some addr) (hd : homeOf addr = .dram) :
    s.serve n (.corrected w) = some ((s.logCorrected .dram false (some r.core) addr).performAt n) ∧
    s.serve n (.bad w) = some ((s.spoil .dram (some r.core) addr addr).performAt n) := by
  unfold State.serve State.meet
  rw [hr]
  simp only [Option.bind_some, hw, errPlace, hd, Option.map_some, and_self]

/-! ### Reads at their homes -/

/-- What no read changes: memory and its poison, the requests, and the counters. -/
def State.store (s : State) : List Host.Cell × List Nat × List Req × List (Nat × Dword) :=
  (s.mem, s.poison, s.reqs, s.counters)

theorem seeUnits_store (s : State) (q : Who) (w pa n : Nat) : (s.seeUnits q w pa n).2.store = s.store := by
  induction n generalizing s pa with
  | zero => rfl
  | succ n ih =>
    obtain ⟨fc, pc, ps, pr, h⟩ := see_quiet s q pa w
    rw [State.seeUnits]
    refine (ih _ _).trans ?_
    rw [h]
    rfl

theorem seeLanes_store (s : State) (q : Who) (w pa n : Nat) : (s.seeLanes q w pa n).2.store = s.store := by
  unfold State.seeLanes
  split
  · rfl
  · exact seeUnits_store ..

theorem readAt_store (s : State) (r : Req) (w : Nat) : (s.readAt r w).2.2.store = s.store := by
  have hsee := seeLanes_store s r.who w (s.cell r.pa) r.len
  unfold State.readAt
  split <;> exact hsee

theorem traceReq_store (s : State) (r : Req) : (s.traceReq r).store = s.store := by
  unfold State.traceReq State.noteRead
  split
  · dsimp only
    split <;> rfl
  · rfl

theorem answer_store (s : State) (r : Req) (v : Dword) (poison : Bool) (flags : Byte) :
    (s.answer r v poison flags).store = s.store := rfl

theorem bringLine_store (s : State) (r : Req) (q : Cl) (l : Line) (poison : Bool) :
    (s.bringLine r q l poison).store = s.store := rfl

theorem perform_store (s : State) (r : Req) : (s.perform r).store = (s.act r).store := rfl

/-- A load, or a pushed line, changes neither memory nor its poison when it performs. -/
theorem perform_reads (s : State) (hk : (∃ z sx, r.kind = .load z sx) ∨ ∃ q, r.kind = .line q) :
    (s.perform r).store = s.store := by
  rw [perform_store]
  unfold State.act
  rcases hk with ⟨z, sx, hk⟩ | ⟨q, hk⟩ <;> rw [hk]
  · exact (traceReq_store _ r).trans ((answer_store ..).trans (readAt_store s r z))
  · exact (traceReq_store _ r).trans ((bringLine_store ..).trans (readAt_store s r 1))

/-! ### Errors found by a read (R322, R324, R348) -/

/-- The entry that a found error appends to the error log. -/
def errorEntry (s : State) (w : ErrAt) (flags : Nat) (k : Option CoreId) (addr : Nat) : Nat :=
  errNum w + flags * 2 ^ 4 + (k.getD 0).toNat * 2 ^ 16 + (addr % 2 ^ 48) * 2 ^ 32 +
    (match k with | some k => (s.launchOn k).toNat * 2 ^ 96 | none => 0) + s.gcc.toNat * 2 ^ 128

theorem logEntry_eq (s : State) (w : ErrAt) (flags : Nat) (k : Option CoreId) (addr : Nat) :
    s.logEntry w flags k addr = s.logTo .error (leBytes 32 (errorEntry s w flags k addr)) k := rfl

theorem countError_counters (s : State) (bs : List Byte) (o : Option CoreId) :
    s.countError bs o = { s with counters := (s.countError bs o).counters } := by cases o <;> rfl

theorem writeLog_closed (h : s.errorLog.open = false) (bs : List Byte) (o : Option CoreId) :
    ∃ cs, s.writeLog .error bs o = { s with counters := cs, errorLog := s.errorLog.drop } := by
  have hshape : s.writeLog .error bs o = ((s.countError bs o).setRing .error s.errorLog.drop).count 2068 1 := by
    unfold State.writeLog
    refine if_neg ?_
    rw [Bool.not_eq_true, Bool.true_and]
    exact h
  rw [hshape, countError_counters]
  exact ⟨_, rfl⟩

/-- A closed error log counts the error, and loses its entry. -/
theorem logEntry_closed (h : s.errorLog.open = false) (w : ErrAt) (flags : Nat) (k : Option CoreId) (addr : Nat) :
    (∃ cs, s.logEntry w flags k addr = { s with counters := cs, errorLog := s.errorLog.drop }) ∧
      ∀ n, n ≠ 2068 → (s.logEntry w flags k addr).counter n =
        (s.countError (leBytes 32 (errorEntry s w flags k addr)) k).counter n := by
  have hno : ¬ ErrorWaits s := fun hw => by rw [ErrorWaits, h] at hw; exact Bool.false_ne_true hw.1
  rw [logEntry_eq, logTo_error_written (length_leBytes 32 _) hno]
  exact ⟨writeLog_closed h _ k, fun n hn => writeLog_error_counter hn⟩

/-- An error that is corrected in flight is counted. -/
theorem logCorrected_closed (h : s.errorLog.open = false) (k : CoreId) (addr : Nat) :
    (∃ cs, s.logCorrected .dram false (some k) addr = { s with counters := cs, errorLog := s.errorLog.drop }) ∧
      (s.logCorrected .dram false (some k) addr).counter 2065 = s.counter 2065 + 1 := by
  obtain ⟨heq, hcount⟩ := logEntry_closed h .dram 0 (some k) addr
  refine ⟨heq, (hcount 2065 (by omega)).trans ?_⟩
  have hlow : errorEntry s .dram 0 (some k) addr % 256 = 0 := by
    unfold errorEntry
    simp only [errNum]
    omega
  have hue : ((leBytes 32 (errorEntry s .dram 0 (some k) addr)).getD 0 0).getLsbD 4 = false := by
    have hbyte : BitVec.ofNat 8 (errorEntry s .dram 0 (some k) addr) = 0#8 :=
      BitVec.eq_of_toNat_eq (by rw [BitVec.toNat_ofNat, hlow]; rfl)
    change (BitVec.ofNat 8 (errorEntry s .dram 0 (some k) addr)).getLsbD 4 = false
    rw [hbyte]
    decide
  have hk := k.isLt
  rw [countError_corrected hue, counter_count, if_pos rfl, counter_count, if_neg (by omega)]
  rfl

theorem addPoison_poisoned (s : State) (pa : Nat) : (s.addPoison pa 8).poisoned pa 8 = true := by
  have hmem : pa / 8 ∈ (s.addPoison pa 8).poison := by
    unfold State.addPoison
    dsimp only
    rw [← List.foldl_map (f := fun i => pa / 8 + i) (g := fun p j => sinsert j p)]
    refine mem_foldl_sinsert _ _ (.inl (List.mem_map.2 ⟨0, List.mem_range.2 ?_, rfl⟩))
    omega
  refine List.any_eq_true.2 ⟨pa / 8, hmem, ?_⟩
  simp only [Bool.and_eq_true, decide_eq_true_eq]
  omega

/-- An uncorrectable error in a word poisons it, whether it was known before or not. -/
theorem spoil_closed (h : s.errorLog.open = false) (k : Option CoreId) (addr : Nat) :
    (s.spoil .dram k addr addr).mem = s.mem ∧ (s.spoil .dram k addr addr).poisoned addr 8 = true ∧
      (s.spoil .dram k addr addr).reqs = s.reqs := by
  unfold State.spoil
  split
  · exact ⟨rfl, by assumption, rfl⟩
  · obtain ⟨⟨cs, heq⟩, -⟩ := logEntry_closed (s := s.addPoison addr 8) h .dram 1 k addr
    have hlog : (s.addPoison addr 8).logError .dram false k addr = 
        { s.addPoison addr 8 with counters := cs, errorLog := s.errorLog.drop } := heq
    rw [hlog]
    exact ⟨rfl, addPoison_poisoned s addr, rfl⟩

/-! ### Requests perform (R80, R90, R92 to R94, R322) -/

/-- A read that performs in a state in which its error was found. -/
theorem performAt_reads (hr : s.reqs[n]? = some r) (hd : homeOf r.pa = .dram)
    (hk : (∃ z sx, r.kind = .load z sx) ∨ ∃ q, r.kind = .line q) : (s.performAt n).mem = s.mem ∧
    (s.performAt n).poison = s.poison ∧ (s.performAt n).reqs = s.reqs.eraseIdx n ∧
    (s.performAt n).counters = s.counters := by
  rw [performAt_dram hr hd]
  have hs := perform_reads { s with reqs := s.reqs.eraseIdx n } hk
  exact ⟨congrArg (·.1) hs, congrArg (·.2.1) hs, congrArg (·.2.2.1) hs, congrArg (·.2.2.2) hs⟩

theorem requestsPerform_claim : Sys2Proof.Claim.RequestsPerform := by
  intro s n r hr
  refine ⟨fun hready => ?_, fun w addr hready hkind hw haddr hopen => ?_, fun hready => ?_, fun hdram err => ?_⟩
  · rw [exec_memRequestService, if_pos hready, serve_clean hr, performAt_dram hr (serveReady_inDram hr hready)]
    rfl
  · have hd := serveReady_inDram hr hready
    obtain ⟨hcor, hbad⟩ := serve_meets hr hw haddr
    rw [exec_memRequestService, if_pos hready, hcor, exec_memRequestService, if_pos hready, hbad]
    refine ⟨⟨_, rfl, ?_⟩, ⟨_, rfl, ?_⟩⟩
    · obtain ⟨⟨cs, heq⟩, hcount⟩ := logCorrected_closed hopen r.core addr
      rw [← hcount, heq]
      obtain ⟨hmem, hpoison, hreqs, hcounters⟩ :=
        performAt_reads (s := { s with counters := cs, errorLog := s.errorLog.drop }) hr hd hkind
      exact ⟨hmem, hpoison, hreqs, congrArg (aget · 2065 0) hcounters⟩
    · obtain ⟨hsmem, hspoisoned, hsreqs⟩ := spoil_closed hopen (some r.core) addr
      obtain ⟨hmem, hpoison, hreqs, -⟩ := performAt_reads (s := s.spoil .dram (some r.core) addr addr) (hsreqs ▸ hr) hd hkind
      refine ⟨hmem.trans hsmem, ?_, hreqs.trans (by rw [hsreqs])⟩
      rw [← hspoisoned, State.poisoned, hpoison]
      rfl
  · rw [exec_globalAccessPerform, if_pos hready, serve_clean hr, performAt_some hr]
    rfl
  · have hno : serveReady s n = false := by
      rw [Bool.eq_false_iff]
      exact fun hready => hdram (serveReady_inDram hr hready)
    rw [exec_memRequestService, hno]
    rfl

end Sys2Proof.Machine
end

section
/-! What a request does at its home, and the lines that land in the queues (R77, R82, R92, R93, R213, R214, R324). -/
namespace Sys2Proof.Machine

variable {s : State} {r : Req} {α : Type} {p : α → Bool} {f : α → α}

/-! ### The first element that satisfies a condition -/

theorem lmodFirst_mem {as : List α} {b : α} (hb : b ∈ as) (hp : p b = true) (honly : ∀ d ∈ as, p d = true → d = b) :
    f b ∈ lmodFirst p f as := by
  induction as with
  | nil => exact absurd hb List.not_mem_nil
  | cons a as ih =>
    rw [lmodFirst]
    split
    · rename_i ha
      rw [honly a List.mem_cons_self ha]
      exact List.mem_cons_self
    · rename_i ha
      have hin : b ∈ as := (List.mem_cons.1 hb).resolve_left fun h => ha (h ▸ hp)
      exact List.mem_cons_of_mem _ (ih hin fun d hd => honly d (List.mem_cons_of_mem _ hd))

theorem lmodFirst_get {as : List α} {j : Nat} {e : α} (he : as[j]? = some e) (hp : p e = true)
    (hpre : ∀ i d, i < j → as[i]? = some d → p d = false) : (lmodFirst p f as)[j]? = some (f e) := by
  induction as generalizing j with
  | nil => cases he
  | cons a as ih =>
    rw [lmodFirst]
    cases j with
    | zero =>
      obtain rfl : a = e := Option.some.inj he
      rw [if_pos hp]
      rfl
    | succ j =>
      rw [if_neg (by rw [hpre 0 a (Nat.succ_pos j) rfl]; exact Bool.false_ne_true)]
      exact ih he fun i d hi hd => hpre (i + 1) d (Nat.succ_lt_succ hi) hd

/-! ### Homes on the module -/

theorem cell_module (hh : homeOf r.pa = .dram ∨ isAcc r.pa = true) : s.cell r.pa = r.pa := by
  unfold State.cell
  split
  · rename_i hpeer
    unfold isAcc at hh
    rw [hpeer] at hh
    exact absurd hh (by simp)
  · rfl

theorem readAt_module (hh : homeOf r.pa = .dram ∨ isAcc r.pa = true) (w : Nat) (hsure : s.sure r.who r.pa r.len = true) :
    s.readAt r w = (rdBytes s.mem r.pa r.len, s.poisoned r.pa r.len, s) := by
  have hsee : s.seeLanes r.who w r.pa r.len = (rdBytes s.mem r.pa r.len, s) := if_pos hsure
  unfold State.readAt
  rw [cell_module hh, hsee]
  split
  · rename_i hpeer
    unfold isAcc at hh
    rw [hpeer] at hh
    exact absurd hh (by simp)
  · rfl

theorem storeAt_module (hh : homeOf r.pa = .dram ∨ isAcc r.pa = true) (bs : List Byte) :
    s.storeAt r bs = s.writeBy r.who r.pa bs := by
  unfold isAcc at hh
  unfold State.storeAt
  split <;> rename_i hhome
  · rw [hhome] at hh
    exact absurd hh (by simp)
  · rw [hhome] at hh
    exact absurd hh (by simp)
  · rfl

theorem traceReq_unrecorded (h : r.record = false) : s.traceReq r = s := by
  unfold State.traceReq
  rw [h]
  rfl

theorem act_store {bs : List Byte} (hk : r.kind = .store bs) : s.act r = s.storeAt r bs := by
  unfold State.act
  rw [hk]

/-- A load that can miss no write brings its context the bytes that stand at its home. -/
theorem act_load {z : Nat} {sx : Bool} (hh : homeOf r.pa = .dram ∨ isAcc r.pa = true) (hk : r.kind = .load z sx)
    (hrec : r.record = false) (hsure : s.sure r.who r.pa r.len = true) :
    s.act r = s.answer r (extend z sx (rdNat s.mem r.pa r.len)) (s.poisoned r.pa r.len) 0 := by
  unfold State.act
  rw [hk]
  dsimp only
  rw [traceReq_unrecorded hrec, readAt_module hh z hsure]
  rfl

/-- A pushed line that can miss no write brings its queue entry the line that stands at its home. -/
theorem act_line {q : Cl} (hh : homeOf r.pa = .dram ∨ isAcc r.pa = true) (hk : r.kind = .line q)
    (hrec : r.record = false) (hlen : r.len = 64) (hsure : s.sure r.who r.pa 64 = true) :
    s.act r = s.bringLine r q (rdLine s.mem r.pa) (s.poisoned r.pa 64) := by
  unfold State.act
  rw [hk]
  dsimp only
  rw [traceReq_unrecorded hrec, readAt_module hh 1 (hlen ▸ hsure), hlen]
  rfl

theorem perform_mem (s : State) (r : Req) : (s.perform r).mem = (s.act r).mem := rfl

theorem perform_core (s : State) (r : Req) (k : CoreId) : (s.perform r).core k = (s.act r).core k := rfl

theorem perform_ctx (s : State) (r : Req) (k : CoreId) (c : CtxId) : (s.perform r).ctx k c = (s.act r).ctx k c := rfl

theorem homesAnswer : Sys2Proof.Claim.HomesAnswer := by
  intro s r hh
  refine ⟨fun bs hk hoff => ?_, fun z sx b hk hrec hsure hb hid honly => ?_, fun q j e hk hrec hlen hsure he hid hpre => ?_⟩
  · rw [perform_mem, act_store hk, storeAt_module hh]
    refine ⟨fun hlast i hi => ?_, fun a ha => writeBy_mem_out hoff (by omega)⟩
    rw [writeBy_mem_last hoff (List.ne_nil_of_length_pos (Nat.zero_lt_of_lt hi)) hlast.1, List.getElem?_eq_getElem hi]
    exact congrArg some (rd_wrBytes_in _ _ _ _ hi)
  · rw [perform_mem, perform_ctx, act_load hh hk hrec hsure]
    refine ⟨rfl, ?_⟩
    rw [State.answer, State.ctx_modCtx]
    exact ⟨_, lmodFirst_mem hb (beq_iff_eq.2 hid) fun d hd hdid => honly d hd (beq_iff_eq.1 hdid), hid, rfl, rfl, rfl, rfl⟩
  · rw [perform_mem, perform_core, act_line hh hk hrec hlen hsure]
    refine ⟨rfl, ?_⟩
    rw [State.bringLine, State.core_modCore]
    refine (congrArg (·[j]?) (aget_ains_same ..)).trans ?_
    exact lmodFirst_get he (beq_iff_eq.2 hid) fun i d hi hd => beq_eq_false_iff_ne.2 (hpre i d hi hd)

/-! ### Lines land (R82, R324) -/

theorem landReady_of {k : CoreId} {q : Cl} {n : Nat} {e : LaqEntry} (he : ((s.core k).laq q)[n]? = some e)
    (hl : e.line.isSome = true) (hn : e.landed = false) : landReady s k q n = true := by
  unfold landReady
  rw [he]
  simp [hl, hn]

theorem exec_loadLineLands (k : CoreId) (q : Cl) (n : Nat) (ue : Bool) (s : State) :
    exec (.loadLineLands k q n ue) s = enabledIf (landReady s k q n) (s.landLine k q n ue) := rfl

/-- An entry of a core's queue is replaced. -/
def State.setEntry (s : State) (k : CoreId) (q : Cl) (n : Nat) (e : LaqEntry) : State :=
  s.modCore k fun x => { x with laqs := ains x.laqs q.toNat (lset ((s.core k).laq q) n e) }

theorem landLine_eq {k : CoreId} {q : Cl} {n : Nat} {e : LaqEntry} (he : ((s.core k).laq q)[n]? = some e) (ue : Bool) :
    s.landLine k q n ue =
      if ue && !e.poison then (s.setEntry k q n { e with landed := true, poison := e.poison || ue }).logError .queue false k e.pa
      else s.setEntry k q n { e with landed := true, poison := e.poison || ue } := by
  unfold State.landLine
  dsimp only
  rw [he]
  rfl

theorem landLine_core {k : CoreId} {q : Cl} {n : Nat} {e : LaqEntry} (he : ((s.core k).laq q)[n]? = some e) (ue : Bool) :
    (s.landLine k q n ue).core k = (s.setEntry k q n { e with landed := true, poison := e.poison || ue }).core k := by
  rw [landLine_eq he]
  split
  · exact congrArg (fun cs => aget cs k.toNat {}) (logTo_same ..).1
  · rfl

theorem linesLand : Sys2Proof.Claim.LinesLand := by
  intro s k q n e he hline hnew
  have hready := landReady_of he hline hnew
  refine ⟨?_, _, (exec_loadLineLands ..).trans (enabledIf_true hready _), ?_⟩
  · rw [exec_loadLineLands, enabledIf_true hready, landLine_eq he, Bool.false_and, if_neg Bool.false_ne_true, Bool.or_false]
    rfl
  · rw [landLine_core he, Bool.or_true, State.setEntry, State.core_modCore]
    exact ⟨aget_ains_same .., rfl⟩

/-- Settles O38: a request is served as its order and its deadline allow, and its home answers with the bytes that stand there. -/
theorem requestsPerform : Obligations.RequestsPerform :=
  ⟨requestsPerform_claim, orderedAccessesWait, homesAnswer, linesLand⟩

end Sys2Proof.Machine
end

section
/-! RESUME and ABORT (R91, R301, R305). -/
namespace Sys2Proof.Machine

variable {s t : State} {r : Line} {rest : List Line} {l : Launch} {v : Save}

/-! ### Result words (R299) -/

theorem resultWord_at (s : State) (z : BitVec 26) (res : Byte) (n : Nat) (id : Word) :
    WordAt s.mem (s.resultWord z res n id).mem (tailPa z) (BitVec.ofNat 32 (res.toNat + n * 2 ^ 16)) :=
  writeWord_at (tailPa_out z)

/-- A result word changes memory, its poison, and what is known of past writes and releases; nothing else. -/
theorem resultWord_leaves (s : State) (z : BitVec 26) (res : Byte) (n : Nat) (id : Word) : ∃ m po ps pc rs hs,
    s.resultWord z res n id =
      { s with mem := m, poison := po, pasts := ps, pastCtr := pc, rels := rs, heads := hs } := by
  unfold State.resultWord State.publish State.release State.writeWord State.write State.forget State.put State.learnAll
  exact ⟨_, _, _, _, _, _, rfl⟩

theorem resultWord_frame {α : Type} (f : State → α) (s : State) (z : BitVec 26) (res : Byte) (n : Nat) (id : Word)
    (hf : ∀ m po ps pc rs hs, f { s with mem := m, poison := po, pasts := ps, pastCtr := pc, rels := rs, heads := hs } = f s) :
    f (s.resultWord z res n id) = f s := by
  obtain ⟨m, po, ps, pc, rs, hs, h⟩ := resultWord_leaves s z res n id
  rw [h, hf]

theorem resultWord_cores (s : State) (z : BitVec 26) (res : Byte) (n : Nat) (id : Word) :
    (s.resultWord z res n id).cores = s.cores := resultWord_frame State.cores s z res n id fun _ _ _ _ _ _ => rfl

theorem resultWord_running (s : State) (z : BitVec 26) (res : Byte) (n : Nat) (id : Word) :
    (s.resultWord z res n id).running = s.running := resultWord_frame State.running s z res n id fun _ _ _ _ _ _ => rfl

theorem resultWord_launches (s : State) (z : BitVec 26) (res : Byte) (n : Nat) (id : Word) :
    (s.resultWord z res n id).launches = s.launches := resultWord_frame State.launches s z res n id fun _ _ _ _ _ _ => rfl

theorem resultWord_saves (s : State) (z : BitVec 26) (res : Byte) (n : Nat) (id : Word) :
    (s.resultWord z res n id).saves = s.saves := resultWord_frame State.saves s z res n id fun _ _ _ _ _ _ => rfl

theorem resultWord_owners (s : State) (z : BitVec 26) (res : Byte) (n : Nat) (id : Word) :
    (s.resultWord z res n id).owners = s.owners := resultWord_frame State.owners s z res n id fun _ _ _ _ _ _ => rfl

theorem resultWord_sc (s : State) (z : BitVec 26) (res : Byte) (n : Nat) (id : Word) :
    (s.resultWord z res n id).sc = s.sc := resultWord_frame State.sc s z res n id fun _ _ _ _ _ _ => rfl

/-- Memory under the completion words is what the command itself left. -/
theorem resultWord_low (s : State) (z : BitVec 26) (res : Byte) (n : Nat) (id : Word) {x : Nat} (hx : x < 0x020000000000) :
    rd (s.resultWord z res n id).mem x = rd s.mem x := by
  have := tailPa_far z
  exact (resultWord_at s z res n id).out x (by omega)

theorem cmdTarget_of (hl : s.launch (cmdLaunch r) = some l) (ht : l.tenant = cmdTenant r) : cmdTarget s r = some l := by
  unfold cmdTarget
  rw [hl]
  exact if_pos (beq_iff_eq.2 ht)

theorem cmdServed_next {served : Line → Bool} (hq : s.cmdQ = r :: rest) (hs : served r = true) : s.cmdServed served = true := by
  unfold State.cmdServed
  rw [hq]
  exact (congrArg (cmdBad r || ·) hs).trans (Bool.or_true _)

/-! ### ABORT (R301) -/

/-- A record that ends at once ends no command and changes no core. -/
theorem endAtOnce_still (s : State) (l : Launch) (st : Byte) :
    (s.endAtOnce l st).cores = s.cores ∧ (s.endAtOnce l st).running = s.running := by
  cases hp : l.pass with
  | none =>
    rw [endAtOnce_launch hp]
    exact ⟨writeDone_cores .., running_of_desk (writeDone_desk ..)⟩
  | some z =>
    obtain ⟨n, h⟩ := endAtOnce_pass hp s st
    rw [h]
    exact ⟨writePass_cores .., running_of_desk (writePass_desk { s with freeCtr := s.freeCtr + 1 } ..)⟩

theorem abort_waiting (ht : cmdTarget s r = some l) (hp : l.phase = .waiting) :
    s.abort r = ((s.endAtOnce l 0x08).dropLaunch l.id).resultWord (cmdResw r) 0x01 0 := by
  unfold State.abort
  rw [ht]
  dsimp only
  rw [hp]
  rfl

theorem abort_started (ht : cmdTarget s r = some l) (hp : l.phase ≠ .waiting) :
    s.abort r = { s.failLaunch l.id 0x08 with running := [⟨3, l.tenant, l.id, 0, cmdResw r, 0, false⟩] } := by
  unfold State.abort
  rw [ht]
  exact if_neg (by simpa using hp)

theorem failLaunch_again {id : Word} {st : Byte} (hl : s.launch id = some l) (hp : l.phase = .failing) :
    s.failLaunch id st = s := by
  unfold State.failLaunch
  rw [hl]
  exact if_pos (by rw [hp]; rfl)

theorem abortRuns : Sys2Proof.Claim.AbortRuns := by
  intro s r rest l hr hq hb ho hl ht
  have hrun : exec .abort s = .next (State.abort r { s with cmdQ := rest }) := nextCommand_runs hr hq ho hb
  have htarget : cmdTarget { s with cmdQ := rest } r = some l := cmdTarget_of hl ht
  have hself : ({ s with cmdQ := rest } : State).launch l.id = some l := by
    rw [launch_id hl]
    exact hl
  rw [hrun]
  refine ⟨fun hp => ?_, fun hp => ?_, fun hp => ?_⟩
  · rw [abort_waiting htarget hp]
    obtain ⟨hcores, hrunning⟩ := endAtOnce_still { s with cmdQ := rest } l 0x08
    exact ⟨_, rfl, (launch_of_launches (resultWord_launches ..) _).trans (launch_dropLaunch _ l.id),
      (resultWord_running ..).trans (hrunning.trans hr), (resultWord_cores ..).trans hcores, (resultWord_at ..).word⟩
  · rw [abort_started htarget (by rw [hp]; exact Phase.noConfusion)]
    exact ⟨_, _, rfl, failLaunch_failing hself (by rw [hp]; exact Phase.noConfusion) (by rw [hp]; exact Phase.noConfusion),
      rfl, rfl, rfl, congrArg Prod.fst (failLaunch_books { s with cmdQ := rest } l.id 0x08).1⟩
  · rw [abort_started htarget (by rw [hp]; exact Phase.noConfusion), failLaunch_again hself hp]

/-! ### RESUME (R305) -/

theorem exec_resume (s : State) : exec .resume s =
    if s.cmdServed s.resumeServed then s.nextReading 2 (resumeWords s) State.resume else .fault .notEnabled := rfl

/-- A record that is whole brings its context back. -/
theorem restoreAll_one (hbytes : rdBytes s.mem (saveSlot r v.core.toNat v.ctx) v.size = v.bytes)
    (hpoison : s.poisoned (saveSlot r v.core.toNat v.ctx) v.size = false) :
    State.restoreAll r s [v] = (s.restore v, 1, true) := by
  rw [State.restoreAll, hbytes, hpoison, bne_self_eq_false]
  rfl

/-- The launch deals units to the cores of CMASK again. -/
def dealAgain (r : Line) (l : Launch) : Launch :=
  { l with dealStop := l.dealStop.filter fun k => !(cmdCores r).contains k }

theorem resume_restores (ht : cmdTarget s r = some l) (hp : l.phase = .admitted) (hv : savesOn s l.id (cmdCores r) = [v])
    (ha : s.areaBad r 0xC0000 = false) (hb : resumeBusy s r l.id = false)
    (hall : State.restoreAll r s [v] = (s.restore v, 1, true)) :
    s.resume r = ((s.restore v).modLaunch l.id (dealAgain r)).resultWord (cmdResw r) 0x01 1 := by
  unfold State.resume
  rw [ht]
  dsimp only
  rw [hp, hv]
  simp only [beq_self_eq_true, List.isEmpty_cons, Bool.not_false, Bool.and_self, if_true, ha, hb, hall, Bool.false_eq_true,
    if_false, hv]
  rfl

/-- The context that a record brings back. -/
def Save.context (v : Save) (old : Ctx) : Ctx :=
  { v.snap with
    run := if v.snap.begun then .running else .starting
    flags := v.snap.flags ||| v.pendf
    pos := max v.snap.pos old.pos
    fences := old.fences
    xfence := max v.snap.xfence old.xfence
    xafter := v.snap.xafter ++ old.xafter
    ifence := max v.snap.ifence old.ifence
    iafter := v.snap.iafter ++ old.iafter
    setNow := 0
    breaks := old.breaks
    heldCode := 0
    blocks := []
    code := []
    fetchFail := []
    fetchMiss := []
    segFail := false
    skipBp := false
    delay := 0 }

theorem restore_ctx (s : State) (v : Save) : ∃ old, (s.restore v).ctx v.core v.ctx = v.context old := by
  unfold State.restore
  dsimp only
  rw [State.ctx, State.core_modCore]
  exact ⟨_, aget_ains_same ..⟩

theorem restore_saves (s : State) (v : Save) : (s.restore v).saves = s.saves.filter fun u => u.id != v.id := rfl

theorem resumeServed_open {id : Word} (hid : cmdLaunch r = id) (hv : savesOn s id (cmdCores r) = [v])
    (hopen : spanOpen (s.dramOpen (some (cmdTenant r))) (saveSlot r v.core.toNat v.ctx) v.size = true) :
    s.resumeServed r = true := by
  unfold State.resumeServed
  rw [hid, hv, List.all_cons, hopen]
  simp

theorem resumeRuns : Sys2Proof.Claim.ResumeRuns := by
  intro s r rest l v hr hq hb ho he hl ht hp hv ha hbusy hbytes hpoison hopen
  have hserved : s.cmdServed s.resumeServed = true :=
    cmdServed_next hq (resumeServed_open (launch_id hl).symm hv hopen)
  have hrun : exec .resume s = .next (State.resume r { s with cmdQ := rest }) := by
    rw [exec_resume, if_pos hserved, nextReading_clean he]
    exact nextCommand_runs hr hq ho hb
  have hres := resume_restores (s := { s with cmdQ := rest }) (cmdTarget_of hl ht) hp hv ha hbusy
    (restoreAll_one hbytes hpoison)
  rw [hrun, hres]
  obtain ⟨old, hctx⟩ := restore_ctx { s with cmdQ := rest } v
  refine ⟨_, rfl, (resultWord_at ..).word, fun u hu => ?_, ?_⟩
  · rw [resultWord_saves, State.modLaunch_saves, restore_saves, List.mem_filter] at hu
    exact ⟨hu.1, bne_iff_ne.1 hu.2⟩
  · have hback := (ctx_of_cores (resultWord_cores (State.modLaunch (State.restore { s with cmdQ := rest } v) l.id (dealAgain r))
      (cmdResw r) 0x01 1 0) v.core v.ctx).trans hctx
    rw [hback]
    exact ⟨rfl, rfl, rfl, rfl, rfl, rfl, rfl, rfl⟩

/-- Settles O46: RESUME restores the one record it finds whole, ABORT ends a waiting launch and fails any other. -/
theorem resumeAndAbort : Obligations.ResumeAndAbort := ⟨resumeRuns, abortRuns⟩

end Sys2Proof.Machine
end

section
/-! SCRUB and STAMPRESET (R91, R298, R308). -/
namespace Sys2Proof.Machine

variable {s : State} {r : Line} {rest : List Line} {α : Type}

/-! ### The owners of blocks (R298) -/

theorem ahas_ains_iff (m : List (Nat × α)) (k j : Nat) (v : α) : ahas (ains m k v) j = true ↔ j = k ∨ ahas m j = true := by
  induction m with
  | nil =>
    simp only [ains, ahas, List.any_cons, List.any_nil, Bool.or_false, beq_iff_eq, Bool.false_eq_true, or_false]
    exact eq_comm
  | cons y m ih =>
    obtain ⟨i, w⟩ := y
    rw [ains]
    simp only [ahas, List.any_cons, Bool.or_eq_true, beq_iff_eq] at ih ⊢
    split
    · simp only [List.any_cons, Bool.or_eq_true, beq_iff_eq]
      tauto
    · split
      · rename_i hki
        simp only [List.any_cons, Bool.or_eq_true, beq_iff_eq]
        subst hki
        tauto
      · simp only [List.any_cons, Bool.or_eq_true, beq_iff_eq, ih]
        tauto

theorem ahas_adel_iff (m : List (Nat × α)) (k j : Nat) : ahas (adel m k) j = true ↔ j ≠ k ∧ ahas m j = true := by
  simp only [ahas, adel, List.any_filter, List.any_eq_true, Bool.and_eq_true, bne_iff_ne, beq_iff_eq]
  constructor
  · rintro ⟨x, hx, hne, rfl⟩
    exact ⟨hne, x, hx, rfl⟩
  · rintro ⟨hne, x, hx, rfl⟩
    exact ⟨x, hx, hne, rfl⟩

/-- The owner of a numbered block. -/
def State.blockOwner (s : State) (b : Nat) : Option Tenant := if ahas s.owners b then some (aget s.owners b 0) else none

/-- What giving one block an owner, or none, does to the table of owners. -/
def ownBlock (t : Option Tenant) (m : List (Nat × Tenant)) (b : Nat) : List (Nat × Tenant) :=
  match t with
  | some u => ains m b u
  | none => adel m b

theorem own_eq (s : State) (t : Option Tenant) (b n : Nat) :
    s.own t b n = { s with owners := (List.range n).foldl (fun m i => ownBlock t m (b + i)) s.owners } := by
  cases t <;> rfl

theorem blockOwner_ownBlock (s : State) (t : Option Tenant) (m : List (Nat × Tenant)) (b j : Nat) :
    ({ s with owners := ownBlock t m b } : State).blockOwner j = if j = b then t else ({ s with owners := m } : State).blockOwner j := by
  unfold State.blockOwner ownBlock
  cases t with
  | none =>
    simp only [ahas_adel_iff, aget_adel]
    by_cases hj : j = b <;> simp [hj]
  | some u =>
    simp only [ahas_ains_iff, aget_ains]
    by_cases hj : j = b <;> simp [hj]

/-- The blocks of a range have their new owner, and every other keeps its own. -/
theorem own_blockOwner (s : State) (t : Option Tenant) (b n j : Nat) :
    (s.own t b n).blockOwner j = if b ≤ j ∧ j < b + n then t else s.blockOwner j := by
  rw [own_eq]
  induction n with
  | zero => rw [if_neg (by omega)]; rfl
  | succ n ih =>
    rw [List.range_succ, List.foldl_append, List.foldl_cons, List.foldl_nil, blockOwner_ownBlock, ih]
    by_cases hj : j = b + n
    · rw [if_pos hj, if_pos (by omega)]
    · rw [if_neg hj]
      exact if_congr (by omega) rfl rfl

theorem own_mem (s : State) (t : Option Tenant) (b n : Nat) : (s.own t b n).mem = s.mem := rfl

theorem drawDataKey_leaves (s : State) (t : Tenant) :
    (s.drawDataKey t).mem = s.mem ∧ (s.drawDataKey t).owners = s.owners := by
  unfold State.drawDataKey
  split <;> exact ⟨rfl, rfl⟩

/-! ### SCRUB (R298) -/

theorem exec_scrub (s : State) : exec .scrub s = if s.cmdServed (fun r => s.scrubBad r || s.scrubServed r) then
    s.nextCommand 4 State.scrub else .fault .notEnabled := rfl

theorem cmdServed_waits {served : Line → Bool} (hq : s.cmdQ = r :: rest) (hb : cmdBad r = false) (hs : served r = false) :
    s.cmdServed served = false := by
  unfold State.cmdServed
  rw [hq]
  exact (congrArg (cmdBad r || ·) hs).trans (by rw [hb]; rfl)

/-- The area of a SCRUB that is aligned and ends inside DRAM, with no stamp table to meet. -/
theorem scrubBad_good (ha : cmdAddr r % 0x200000 = 0) (hn : cmdAddr r + cmdLen r * 0x200000 ≤ 0x8000000000)
    (hs : s.stampOn = false) : s.scrubBad r = false := by
  unfold State.scrubBad
  simp only [hs, ha, bne_self_eq_false, Bool.false_and, Bool.or_false, Bool.false_or, decide_eq_false_iff_not]
  omega

theorem scrubBad_unaligned (ha : cmdAddr r % 0x200000 ≠ 0) : s.scrubBad r = true := by
  unfold State.scrubBad
  simp only [bne_iff_ne.2 ha, Bool.true_or]

/-- The blocks of a SCRUB cleared, and owned by whom it names. -/
def State.scrubbed (s : State) (r : Line) : State :=
  let s1 := (s.own none (cmdAddr r / 0x200000) (cmdLen r)).clear (cmdAddr r) (cmdLen r * 0x200000)
  if cmdNoown r then s1 else (s1.drawDataKey (cmdTenant r)).own (some (cmdTenant r)) (cmdAddr r / 0x200000) (cmdLen r)

theorem scrub_good (hg : s.scrubBad r = false) : s.scrub r = (s.scrubbed r).resultWord (cmdResw r) 0x01 0 := by
  unfold State.scrub
  rw [hg]
  rfl

theorem scrubbed_mem (hs : s.stampOn = false) :
    (s.scrubbed r).mem = clearRange s.mem (cmdAddr r) (cmdLen r * 0x200000) := by
  have hclear : ((s.own none (cmdAddr r / 0x200000) (cmdLen r)).clear (cmdAddr r) (cmdLen r * 0x200000)).mem =
      clearRange s.mem (cmdAddr r) (cmdLen r * 0x200000) :=
    stamped_off (s := (s.own none (cmdAddr r / 0x200000) (cmdLen r)).forget (cmdAddr r) (cmdLen r * 0x200000)) hs _ _
  unfold State.scrubbed
  dsimp only
  split
  · exact hclear
  · rw [own_mem, (drawDataKey_leaves _ _).1, hclear]

theorem scrubbed_blockOwner (s : State) (r : Line) (b : Nat) : (s.scrubbed r).blockOwner b =
    if cmdAddr r / 0x200000 ≤ b ∧ b < cmdAddr r / 0x200000 + cmdLen r then
      if cmdNoown r then none else some (cmdTenant r)
    else s.blockOwner b := by
  have hnone := own_blockOwner s none (cmdAddr r / 0x200000) (cmdLen r) b
  unfold State.scrubbed
  dsimp only
  split
  · exact hnone
  · rw [own_blockOwner]
    split
    · rfl
    · rename_i hout
      rw [if_neg hout] at hnone
      refine Eq.trans ?_ hnone
      unfold State.blockOwner
      rw [(drawDataKey_leaves _ _).2]
      rfl

theorem scrubRuns : Sys2Proof.Claim.ScrubRuns := by
  intro s r rest hr hq hb ho a n served
  refine ⟨fun ha hn hs hno => ?_, fun ha hn hs hserved => ?_, fun ha => ?_⟩
  · have hwait : s.scrubServed r = false := hno
    rw [exec_scrub, cmdServed_waits hq hb (by rw [scrubBad_good ha hn hs, hwait]; rfl)]
    rfl
  · have hopen : s.scrubServed r = true := hserved
    have hrun : exec .scrub s = .next (State.scrub r { s with cmdQ := rest }) := by
      rw [exec_scrub, cmdServed_next hq (by rw [hopen, Bool.or_true])]
      exact nextCommand_runs hr hq ho hb
    rw [hrun, scrub_good (s := { s with cmdQ := rest }) (scrubBad_good ha hn hs)]
    have hmem := scrubbed_mem (s := { s with cmdQ := rest }) (r := r) hs
    have howner := scrubbed_blockOwner { s with cmdQ := rest } r
    generalize State.scrubbed { s with cmdQ := rest } r = u at hmem howner
    have hown (x : Nat) : (u.resultWord (cmdResw r) 0x01 0 0).ownerOf x = u.blockOwner (x / 0x200000) := by
      rw [State.ownerOf, resultWord_owners]
      rfl
    refine ⟨_, rfl, (resultWord_at ..).word, fun x hlo hhi => ?_, fun x hout hx => ?_⟩
    · rw [resultWord_low _ _ _ _ _ (by omega), hmem, rd_clearRange, if_pos ⟨hlo, hhi⟩, hown, howner, if_pos (by omega)]
      exact ⟨rfl, rfl⟩
    · rw [resultWord_low _ _ _ _ _ (by omega), hmem, rd_clearRange, if_neg hout, hown, howner, if_neg (by omega)]
      exact ⟨rfl, rfl⟩
  · have hbad : ∀ t : State, t.scrubBad r = true := fun t => scrubBad_unaligned ha
    rw [exec_scrub, cmdServed_next hq (by rw [hbad s]; rfl), if_pos rfl, nextCommand_runs hr hq ho hb, State.scrub, hbad]
    rfl

/-! ### STAMPRESET (R308) -/

theorem exec_stampreset (s : State) : exec .stampreset s =
    if s.cmdServed (fun _ => (s.launches.any fun l => recTrace l.record) || s.dramOpen none s.stampBase) then
      s.nextCommand 5 State.stampReset else .fault .notEnabled := rfl

/-- The stamp table cleared, and SC. -/
def State.unstamped (s : State) : State :=
  { s.forget s.stampBase 0x20000000 with sc := 0, mem := clearRange s.mem s.stampBase 0x20000000 }

theorem stampReset_quiet (h : s.launches.any (fun l => recTrace l.record) = false) :
    s.stampReset r = s.unstamped.resultWord (cmdResw r) 0x01 0 := by
  unfold State.stampReset
  rw [h]
  rfl

theorem stampReset_busy (h : s.launches.any (fun l => recTrace l.record) = true) :
    s.stampReset r = s.resultWord (cmdResw r) 0x24 0 := if_pos h

theorem stampBase_low (s : State) : s.stampBase + 0x20000000 ≤ 0x8000000000 := by
  have := (s.stbase.extractLsb' 29 10).isLt
  unfold State.stampBase
  omega

theorem stampResetRuns : Sys2Proof.Claim.StampResetRuns := by
  intro s r rest hr hq hb ho
  refine ⟨fun hnone hopen => ?_, fun ⟨l, hl, htrace⟩ => ?_⟩
  · have hquiet : s.launches.any (fun l => recTrace l.record) = false :=
      List.any_eq_false.2 fun l hl => by rw [hnone l hl]; exact Bool.false_ne_true
    rw [exec_stampreset, cmdServed_next hq (by rw [hopen, Bool.or_true]), if_pos rfl, nextCommand_runs hr hq ho hb,
      stampReset_quiet (s := { s with cmdQ := rest }) hquiet]
    have hmem : (State.unstamped { s with cmdQ := rest }).mem = clearRange s.mem s.stampBase 0x20000000 := rfl
    have hsc : (State.unstamped { s with cmdQ := rest }).sc = 0 := rfl
    refine ⟨_, rfl, (resultWord_sc ..).trans hsc, (resultWord_at ..).word, fun x hlo hhi => ?_⟩
    have := stampBase_low s
    rw [resultWord_low _ _ _ _ _ (by omega), hmem, rd_clearRange, if_pos ⟨hlo, hhi⟩]
  · have hbusy : s.launches.any (fun l => recTrace l.record) = true := List.any_eq_true.2 ⟨l, hl, htrace⟩
    rw [exec_stampreset, cmdServed_next hq (by rw [hbusy]; rfl), if_pos rfl, nextCommand_runs hr hq ho hb,
      stampReset_busy (s := { s with cmdQ := rest }) hbusy]

end Sys2Proof.Machine
end

section
/-! CORESAVE and CORELOAD (R91, R306). -/
namespace Sys2Proof.Machine

variable {s : State} {r : Line} {rest : List Line} {k : CoreId} {a src dst n : Nat}

/-! ### Memory copied cell by cell -/

/-- A memory after n bytes were copied from one place to another. -/
structure Copied (m m' : List Host.Cell) (src dst n : Nat) : Prop where
  copy : ∀ i, i < n → rd m' (dst + i) = rd m (src + i)
  out : ∀ z, z < dst ∨ dst + n ≤ z → rd m' z = rd m z

/-- The cells of a range written from another place on. -/
def wrCells (src dst : Nat) (m cells : List Host.Cell) : List Host.Cell :=
  cells.foldl (fun m c => wr m (c.1 - src + dst) c.2) m

theorem rd_wrCells_out {cells : List Host.Cell} {z : Nat} (m : List Host.Cell) (h : ∀ c ∈ cells, c.1 - src + dst ≠ z) :
    rd (wrCells src dst m cells) z = rd m z := by
  induction cells generalizing m with
  | nil => rfl
  | cons c cells ih =>
    rw [List.forall_mem_cons] at h
    exact (ih _ h.2).trans ((rd_wr ..).trans (if_neg fun e => h.1 e.symm))

/-- Cells of different addresses, written over bytes that are zero, stand at their new places. -/
theorem rd_wrCells_in {cells : List Host.Cell} {i : Nat} (m : List Host.Cell) (hw : Memory.wf cells = true)
    (hs : ∀ c ∈ cells, src ≤ c.1) (hz : rd m (dst + i) = 0) : rd (wrCells src dst m cells) (dst + i) = rd cells (src + i) := by
  induction cells generalizing m with
  | nil => exact hz
  | cons c cells ih =>
    obtain ⟨b, v⟩ := c
    obtain ⟨-, hlt, hw⟩ := (Memory.wf_cons b v cells).1 hw
    rw [List.forall_mem_cons] at hs
    obtain ⟨hb, hs⟩ := hs
    by_cases hi : b = src + i
    · have hhead : rd ((b, v) :: cells) (src + i) = v := if_pos hi
      have hrest : ∀ c ∈ cells, c.1 - src + dst ≠ dst + i := fun c hc => by
        have := hlt c hc
        omega
      rw [hhead]
      refine (rd_wrCells_out (wr m (b - src + dst) v) hrest).trans ?_
      rw [rd_wr, if_pos (by omega)]
    · have htail : rd ((b, v) :: cells) (src + i) = rd cells (src + i) := if_neg hi
      rw [htail]
      refine ih (wr m (b - src + dst) v) hw hs ?_
      rw [rd_wr, if_neg (by omega), hz]

/-- The cells of a range read as memory does there. -/
theorem rd_filter {p : Host.Cell → Bool} {z : Nat} (m : List Host.Cell) (h : ∀ c ∈ m, c.1 = z → p c = true) :
    rd (m.filter p) z = rd m z := by
  induction m with
  | nil => rfl
  | cons c m ih =>
    obtain ⟨b, v⟩ := c
    rw [List.forall_mem_cons] at h
    rw [List.filter_cons]
    by_cases hb : b = z
    · rw [if_pos (h.1 hb)]
      exact (if_pos hb).trans (if_pos hb).symm
    · have htail : rd ((b, v) :: m) z = rd m z := if_neg hb
      rw [htail, ← ih h.2]
      split
      · exact if_neg hb
      · rfl

/-- The cells that n bytes from an address on hold. -/
def cellsIn (m : List Host.Cell) (src n : Nat) : List Host.Cell := m.filter fun c => src ≤ c.1 && c.1 < src + n

theorem wrCells_copied {m : List Host.Cell} (hw : Memory.wf m = true) (src dst n : Nat) :
    Copied m (wrCells src dst (clearRange m dst n) (cellsIn m src n)) src dst n := by
  have hrange : ∀ c ∈ cellsIn m src n, src ≤ c.1 ∧ c.1 < src + n := fun c hc => by
    have := (List.mem_filter.1 hc).2
    rwa [Bool.and_eq_true, decide_eq_true_eq, decide_eq_true_eq] at this
  refine ⟨fun i hi => ?_, fun z hz => ?_⟩
  · refine (rd_wrCells_in _ (Memory.wf_filter hw _) (fun c hc => (hrange c hc).1) ?_).trans ?_
    · rw [rd_clearRange, if_pos (by omega)]
    · refine rd_filter m fun c _ hc => ?_
      rw [hc, Bool.and_eq_true, decide_eq_true_eq, decide_eq_true_eq]
      omega
  · rw [rd_wrCells_out _ fun c hc => ?_, rd_clearRange, if_neg (by omega)]
    have := hrange c hc
    omega

/-- Two copies to places apart, the second from a place that the first leaves. -/
theorem Copied.both {m m1 m2 : List Host.Cell} {src' dst' n' : Nat} (h : Copied m m1 src dst n)
    (h' : Copied m1 m2 src' dst' n') (hd : dst + n ≤ dst' ∨ dst' + n' ≤ dst) (hs : src' + n' ≤ dst ∨ dst + n ≤ src') :
    (∀ i, i < n → rd m2 (dst + i) = rd m (src + i)) ∧ ∀ i, i < n' → rd m2 (dst' + i) = rd m (src' + i) := by
  refine ⟨fun i hi => ?_, fun i hi => ?_⟩
  · rw [h'.out _ (by omega), h.copy i hi]
  · rw [h'.copy i hi, h.out _ (by omega)]

/-! ### The copy of an image (R306) -/

/-- Cells written one by one by the module. -/
theorem write_cells (hs : s.stampOn = false) (src dst : Nat) (cells : List Host.Cell) :
    (cells.foldl (fun t c => t.write (c.1 - src + dst) [c.2]) s).mem = wrCells src dst s.mem cells := by
  induction cells generalizing s with
  | nil => rfl
  | cons c cells ih =>
    refine (ih (s := s.write (c.1 - src + dst) [c.2]) hs).trans ?_
    rw [write_mem hs]
    rfl

theorem wf_wrCells {m : List Host.Cell} (hm : Memory.wf m = true) (src dst : Nat) (cells : List Host.Cell) :
    Memory.wf (wrCells src dst m cells) = true :=
  List.foldlRecOn (motive := fun m => Memory.wf m = true) cells _ hm fun _ hm _ _ => Memory.wf_wr hm _ _

theorem copyMem_mem (hs : s.stampOn = false) (src dst n : Nat) :
    (s.copyMem src dst n).mem = wrCells src dst (clearRange s.mem dst n) (cellsIn s.mem src n) := by
  have hclear : (s.clear dst n).mem = clearRange s.mem dst n := stamped_off (s := s.forget dst n) hs _ _
  refine (foldl_leaves State.mem (fun t w => t.addPoison (8 * w - src + dst) 8) (fun _ _ => rfl) _ _).trans ?_
  rw [← hclear]
  exact write_cells (s := s.clear dst n) hs src dst (cellsIn s.mem src n)

theorem copyMem_stampOn (s : State) (src dst n : Nat) : (s.copyMem src dst n).stampOn = s.stampOn :=
  (foldl_leaves State.stampOn (fun t w => t.addPoison (8 * w - src + dst) 8) (fun _ _ => rfl) _ _).trans
    (foldl_leaves State.stampOn (fun t (c : Host.Cell) => t.write (c.1 - src + dst) [c.2]) (fun _ _ => rfl) _ _)

theorem copyMem_copies (hs : s.stampOn = false) (hm : MemInv s) (src dst n : Nat) :
    Copied s.mem (s.copyMem src dst n).mem src dst n ∧ MemInv (s.copyMem src dst n) := by
  unfold MemInv
  rw [copyMem_mem hs]
  exact ⟨wrCells_copied hm src dst n, wf_wrCells (Memory.wf_clearRange hm dst n) ..⟩

/-- The scratchpad and the accumulator store of a core at one place each of another. -/
def State.copyTwice (s : State) (src dst src' dst' : Nat) : State := (s.copyMem src dst imgAcc).copyMem src' dst' 0x200000

theorem copyTwice_copies {src' dst' : Nat} (hs : s.stampOn = false) (hm : MemInv s)
    (hd : dst + imgAcc ≤ dst' ∨ dst' + 0x200000 ≤ dst) (hsrc : src' + 0x200000 ≤ dst ∨ dst + imgAcc ≤ src') :
    (∀ i, i < 0x600000 → rd (s.copyTwice src dst src' dst').mem (dst + i) = rd s.mem (src + i)) ∧
    (∀ i, i < 0x200000 → rd (s.copyTwice src dst src' dst').mem (dst' + i) = rd s.mem (src' + i)) ∧
    (s.copyTwice src dst src' dst').stampOn = false := by
  obtain ⟨hfirst, hinv⟩ := copyMem_copies hs hm src dst imgAcc
  have hoff : (s.copyMem src dst imgAcc).stampOn = false := (copyMem_stampOn ..).trans hs
  obtain ⟨hsecond, -⟩ := copyMem_copies hoff hinv src' dst' 0x200000
  obtain ⟨hspm, hacc⟩ := hfirst.both hsecond hd hsrc
  exact ⟨hspm, hacc, (copyMem_stampOn ..).trans hoff⟩

/-! ### The commands (R300, R306) -/

theorem exec_coresave (s : State) : exec .coresave s =
    if saveDrained s && s.cmdServed (fun r => s.areaBad r imgLen || s.saveBusy r ||
        areaServed (s.storeOpen (some (cmdTenant r))) r) then
      s.nextReading 6 coreWords State.coreSave else .fault .notEnabled := rfl

theorem exec_coreload (s : State) : exec .coreload s =
    if s.cmdServed (fun r => s.areaBad r imgLen || s.loadBusy r || areaServed (s.dramOpen (some (cmdTenant r))) r) then
      s.nextReading 7 imageWords State.coreLoad else .fault .notEnabled := rfl

theorem coreIndex_one {k : Nat} (hc : cmdCores r = [k]) : coreIndex r k = 0 := by
  simp [coreIndex, hc]

theorem cmdCores_lt {k : Nat} (h : k ∈ cmdCores r) : k < 128 := List.mem_range.1 (List.mem_filter.1 h).1

/-- An area that is good for one image lies in DRAM. -/
theorem image_low {k : Nat} (hc : cmdCores r = [k]) (h : s.areaBad r imgLen = false) : cmdAddr r + 0x810000 ≤ 0x8000000000 := by
  unfold State.areaBad State.areaOwned at h
  simp only [Bool.or_eq_false_iff, Bool.not_eq_false', Bool.and_eq_true, decide_eq_true_eq, hc] at h
  obtain ⟨-, hlow, -⟩ := h
  exact hlow

theorem saveDrained_one {k : Nat} (hq : s.cmdQ = r :: rest) (hc : cmdCores r = [k])
    (h : (s.core (BitVec.ofNat 7 k)).accPipe = []) : saveDrained s = true := by
  simp [saveDrained, hq, hc, h]

theorem saveBusy_one {k : Nat} (hc : cmdCores r = [k]) (hsaved : (s.core (BitVec.ofNat 7 k)).saved = true)
    (hown : s.ownsCore (cmdTenant r) (BitVec.ofNat 7 k) = true) : s.saveBusy r = false := by
  simp [State.saveBusy, hc, hsaved, hown]

theorem loadBusy_one {k : Nat} (hc : cmdCores r = [k]) (hfree : coreFree s (BitVec.ofNat 7 k) = true)
    (hown : s.ownsCore (cmdTenant r) (BitVec.ofNat 7 k) = true) : s.loadBusy r = false := by
  simp [State.loadBusy, hc, hfree, hown]

theorem coreSave_one {k : Nat} (hc : cmdCores r = [k]) (ha : s.areaBad r imgLen = false) (hb : s.saveBusy r = false) :
    s.coreSave r = (s.saveCore (BitVec.ofNat 7 k) (cmdAddr r)).resultWord (cmdResw r) 0x01 0 := by
  unfold State.coreSave
  rw [ha, hb, hc, List.foldl_cons, List.foldl_nil, coreIndex_one hc, Nat.mul_zero, Nat.add_zero]
  rfl

theorem coreLoad_one {k : Nat} (hc : cmdCores r = [k]) (ha : s.areaBad r imgLen = false) (hb : s.loadBusy r = false) :
    s.coreLoad r = (s.loadCore (BitVec.ofNat 7 k) (cmdAddr r)).resultWord (cmdResw r) 0x01 0 := by
  unfold State.coreLoad
  rw [ha, hb, hc, List.foldl_cons, List.foldl_nil, coreIndex_one hc, Nat.mul_zero, Nat.add_zero]
  rfl

/-! ### One core (R306) -/

theorem saveCore_saved (s : State) (k : CoreId) (a : Nat) : ((s.saveCore k a).core k).saved = false := by
  unfold State.saveCore
  dsimp only
  rw [State.core_modCore]

/-- The opaque rest of an image lies behind its scratchpad and its accumulator store. -/
theorem saveCore_mem (s : State) (k : CoreId) (a : Nat) : ∃ bs, bs.length = imgRestLen ∧
    (s.saveCore k a).mem =
      ((s.copyTwice (spmPa k.toNat 0) a (accPa k.toNat 0) (a + imgAcc)).write (a + imgRest) bs).mem := by
  unfold State.saveCore
  refine ⟨(List.range imgRestLen).map fun i => Config.saveByte s.nextId i, ?_, ?_⟩
  · rw [List.length_map, List.length_range]
  · dsimp only
    rw [State.modCore_mem]
    rfl

theorem loadCore_saved (s : State) (k : CoreId) (a : Nat) : ((s.loadCore k a).core k).saved = true := by
  unfold State.loadCore
  dsimp only
  rw [State.core_modCore]

theorem loadCore_mem (s : State) (k : CoreId) (a : Nat) : (s.loadCore k a).mem =
    (s.copyTwice a (spmPa k.toNat 0) (a + imgAcc) (accPa k.toNat 0)).mem := by
  unfold State.loadCore
  dsimp only
  rw [State.modCore_mem]
  rfl

theorem spmPa_at (k i : Nat) : spmPa k i = spmPa k 0 + i := by unfold spmPa; omega

theorem accPa_at (k i : Nat) : accPa k i = accPa k 0 + i := by unfold accPa; omega

theorem spmPa_window {k i : Nat} (hk : k < 128) (hi : i ≤ 0x600000) : 0x010000000000 ≤ spmPa k i ∧ spmPa k i < 0x020000000000 := by
  unfold spmPa
  omega

theorem accPa_far (k i : Nat) : 0x020000000000 ≤ accPa k i := by unfold accPa; omega

/-- A word that a result names lies in the accumulator store of the core it names. -/
theorem tailPa_apart {z : BitVec 26} {k i : Nat} (h : (tailCore z).toNat ≠ k) (hi : i < 0x200000) :
    accPa k i < tailPa z ∨ tailPa z + 4 ≤ accPa k i := by
  have hrow := (z.extractLsb' 8 11).isLt
  have hcol := (z.extractLsb' 0 8).isLt
  unfold tailCore at h
  unfold tailPa accWordPa accPa
  omega

/-- The image of a core holds its scratchpad and its accumulator store. -/
theorem saveCore_image {k : CoreId} (hs : s.stampOn = false) (hm : MemInv s) (ha : a + 0x810000 ≤ 0x8000000000) :
    (∀ i, i < 0x600000 → rd (s.saveCore k a).mem (a + i) = rd s.mem (spmPa k.toNat i)) ∧
    (∀ i, i < 0x200000 → rd (s.saveCore k a).mem (a + imgAcc + i) = rd s.mem (accPa k.toNat i)) := by
  obtain ⟨bs, hlen, hmem⟩ := saveCore_mem s k a
  have hfar := accPa_far k.toNat 0
  obtain ⟨hspm, hacc, hoff⟩ := copyTwice_copies (src := spmPa k.toNat 0) (dst := a) (src' := accPa k.toNat 0)
    (dst' := a + imgAcc) hs hm (.inl (Nat.le_refl _)) (.inr (by unfold imgAcc; omega))
  rw [hmem, write_mem hoff]
  unfold imgRestLen at hlen
  unfold imgRest imgAcc at *
  refine ⟨fun i hi => ?_, fun i hi => ?_⟩
  · rw [rd_wrBytes_out _ _ _ _ (by omega), hspm i hi, spmPa_at k.toNat i]
  · rw [rd_wrBytes_out _ _ _ _ (by omega), hacc i hi, accPa_at k.toNat i]

/-- A core has what its image holds. -/
theorem loadCore_image {k : CoreId} (hs : s.stampOn = false) (hm : MemInv s) (ha : a + 0x810000 ≤ 0x8000000000) :
    (∀ i, i < 0x600000 → rd (s.loadCore k a).mem (spmPa k.toNat i) = rd s.mem (a + i)) ∧
    (∀ i, i < 0x200000 → rd (s.loadCore k a).mem (accPa k.toNat i) = rd s.mem (a + imgAcc + i)) := by
  have hfar := accPa_far k.toNat 0
  have hspmLow := spmPa_window (i := 0x600000) k.isLt (Nat.le_refl _)
  have hspmHigh := spmPa_window (i := 0) k.isLt (Nat.zero_le _)
  rw [spmPa_at] at hspmLow
  obtain ⟨hspm, hacc, -⟩ := copyTwice_copies (src := a) (dst := spmPa k.toNat 0) (src' := a + imgAcc)
    (dst' := accPa k.toNat 0) hs hm (.inl (by unfold imgAcc; omega)) (.inl (by unfold imgAcc; omega))
  rw [loadCore_mem]
  refine ⟨fun i hi => ?_, fun i hi => ?_⟩
  · rw [spmPa_at k.toNat i, hspm i hi]
  · rw [accPa_at k.toNat i, hacc i hi]

theorem coreImages : Sys2Proof.Claim.CoreImages := by
  intro s r rest k hr hq hb hc hm he hs ha hown a j
  have hk : k < 128 := cmdCores_lt (r := r) (by rw [hc]; exact List.mem_singleton_self k)
  have hj : j.toNat = k := Nat.mod_eq_of_lt hk
  have hlow : a + 0x810000 ≤ 0x8000000000 := image_low hc ha
  refine ⟨fun ho hsaved hpipe hopen => ?_, fun ho hfree hopen => ?_⟩
  · have hrun : exec .coresave s = .next (State.coreSave r { s with cmdQ := rest }) := by
      rw [exec_coresave, saveDrained_one hq hc hpipe, cmdServed_next hq (by rw [hopen, Bool.or_true]), Bool.and_self, if_pos rfl,
        nextReading_clean he]
      exact nextCommand_runs hr hq ho hb
    rw [hrun, coreSave_one (s := { s with cmdQ := rest }) hc ha (saveBusy_one hc hsaved hown)]
    obtain ⟨hspm, hacc⟩ := saveCore_image (s := { s with cmdQ := rest }) (k := j) hs hm hlow
    rw [hj] at hspm hacc
    refine ⟨_, rfl, (resultWord_at ..).word, ?_, fun i hi => ?_, fun i hi => ?_⟩
    · exact (congrArg (fun cs => (aget cs j.toNat {} : Core).saved) (resultWord_cores ..)).trans (saveCore_saved _ j a)
    · rw [resultWord_low _ _ _ _ _ (by omega)]
      exact hspm i hi
    · rw [resultWord_low _ _ _ _ _ (by unfold imgAcc; omega)]
      exact hacc i hi
  · have hrun : exec .coreload s = .next (State.coreLoad r { s with cmdQ := rest }) := by
      rw [exec_coreload, cmdServed_next hq (by rw [hopen, Bool.or_true]), if_pos rfl, nextReading_clean he]
      exact nextCommand_runs hr hq ho hb
    rw [hrun, coreLoad_one (s := { s with cmdQ := rest }) hc ha (loadBusy_one hc hfree hown)]
    obtain ⟨hspm, hacc⟩ := loadCore_image (s := { s with cmdQ := rest }) (k := j) hs hm hlow
    rw [hj] at hspm hacc
    refine ⟨_, rfl, (resultWord_at ..).word, ?_, fun i hi => ?_, fun hcore i hi => ?_⟩
    · exact (congrArg (fun cs => (aget cs j.toNat {} : Core).saved) (resultWord_cores ..)).trans (loadCore_saved _ j a)
    · rw [resultWord_low _ _ _ _ _ (spmPa_window hk (Nat.le_of_lt hi)).2]
      exact hspm i hi
    · have hapart : accPa k i < tailPa (cmdResw r) ∨ tailPa (cmdResw r) + 4 ≤ accPa k i :=
        tailPa_apart (fun e => hcore (BitVec.eq_of_toNat_eq (e.trans hj.symm))) hi
      rw [(resultWord_at ..).out _ (by omega)]
      exact hacc i hi

/-- Settles O47: SCRUB and STAMPRESET clear their ranges and no other byte of DRAM, and an image's two copies do not meet. -/
theorem memoryCommands : Obligations.MemoryCommands := ⟨scrubRuns, stampResetRuns, coreImages⟩

end Sys2Proof.Machine
end
